-- ==== Sys2Proof/Word.lean ====
section
/-! DEFINITION. The word types of the model: the byte, the 32-bit word of tile code and of token ids, and the
sparse map (a list of key and value pairs in rising key order) in which every numbered collection of the chip is held. -/

namespace Sys2Proof

/-- One byte (R7). -/
abbrev Byte := BitVec 8

/-- One 32-bit word: a tile-code register, an instruction word, an FP32 pattern or a token id. -/
abbrev Word := BitVec 32

/-- A sparse collection: the pairs of a number and what is kept under it. -/
abbrev Map (α : Type) := List (Nat × α)

/-- Bits [lo + n - 1 : lo] of a number (R7: bit 0 is the least significant). -/
def bits (v lo n : Nat) : Nat := v / 2 ^ lo % 2 ^ n

/-- Bit i of a number. -/
def bit (v i : Nat) : Bool := v / 2 ^ i % 2 = 1

end Sys2Proof
end

