-- ==== Sys2Proof/Syntax.lean ====
section
/-! DEFINITION. The commands of the block: one constructor of Instr for each row of spec/opcode_table.json, with the
operands that an outside sender gives. Three kinds of row share the type: Mbatas commands (they name a command already
in a slot's fetch window), register and bus operations (they carry the address and value written), and events
(they carry what the environment decides: an outcome, a duration, a packet). -/

namespace Sys2Proof

/-- A command in a fetch window: partition, local slot and ring index (R36, R40). -/
structure CmdRef where
  part : Nat
  slot : Nat
  index : Nat
  deriving DecidableEq, Repr

/-- The end of one flash read (R295): a hard decode at once, a decode at retry option n, numbered in the order that the profile gives (soft says a
soft decode), or none. -/
inductive FlashReadResult where
  | decoded
  | retried (option : Nat) (soft : Bool)
  | uncorrectable
  deriving DecidableEq, Repr

/-- How an Mbatas command is stepped. bad lists the host address ranges (base, bytes) whose reads failed, after the
retry of R157, while this step read its operands. defer ends the step at the command's commit request (R47), which the row COMMIT_REQUEST
then takes up; without it the step goes on through the commit stage of R49. flash lists, by LFN, how the flash reads of this step ended
(R295); one that is not listed decodes at once. -/
structure CmdStep where
  ref : CmdRef
  bad : List (Nat × Nat)
  defer : Bool
  flash : List (Nat × FlashReadResult) := []
  deriving DecidableEq, Repr

/-- The end of one host read (R157): data, a completion with an error, poison, or a MAC mismatch. -/
inductive ReadResult where
  | ok | error | poison | mac
  deriving DecidableEq, Repr

/-- A physical place on flash (R280): channel, die, block and page. -/
structure Place where
  channel : Nat
  die : Nat
  block : Nat
  page : Nat
  deriving DecidableEq, Repr

/-- A flash block (R274). -/
structure BlockId where
  channel : Nat
  die : Nat
  block : Nat
  deriving DecidableEq, Repr

/-- The fields of a buffer-table entry that the host writes (R333). -/
structure BufFields where
  addr : Nat
  length : Nat
  kind : Nat
  oneShot : Bool
  anyQp : Bool
  sync : Nat
  eq : Nat
  qp : Nat
  btag : Nat
  deriving DecidableEq, Repr

/-- A PRP packet: the fields of the 48-byte header of R318 and the payload. -/
structure Packet where
  op : Nat
  tc : Nat
  yellow : Bool
  flag : Bool
  mirror2 : Bool
  retx : Bool
  dst : Nat
  src : Nat
  dstPart : Nat
  srcPart : Nat
  west : Bool
  rail : Nat
  dl : Bool
  dqp : Nat
  epoch : Nat
  seq : Nat
  ackSeq : Nat
  ackCode : Nat
  credit : Nat
  unitRec : Nat
  unitGen : Nat
  group : Nat
  buf : Nat
  offset : Nat
  aux : Nat
  payload : List Byte
  reserved : Nat
  deriving DecidableEq, Repr

/-- How a request reaches Oxsis (R382): the PF0 mailbox, or an MCTP message whose request bytes these are. -/
inductive OxsVia where
  | mailbox
  | mctp (request : List Byte)
  deriving DecidableEq, Repr

/-- One image entry of a firmware manifest as Oxsis finds it (R386): id, security version, version, the digest in the
entry, and whether the image's own SHAKE256-256 equals that digest (R387). -/
structure FwImage where
  id : Nat
  svn : Nat
  offset : Nat
  bytes : Nat
  version : Nat
  digest : List Byte
  digestOk : Bool
  deriving DecidableEq, Repr

/-- A firmware slot of the boot NOR (R386) with the outcome of the checks of R387 that need cryptography: keyOk, the vendor key has
the fused digest; sigOk, the XMSS signature verifies. -/
structure FwSlot where
  magicOk : Bool
  seq : Nat
  images : List FwImage
  keyOk : Bool
  sigOk : Bool
  deriving DecidableEq, Repr

/-- The answers of R420. -/
inductive Answer where
  | accept | refuse | defer
  deriving DecidableEq, Repr

/-- What device data of channel sets 0 and 1 a sector holds (R441): a map segment (partition, number), a move buffer (partition, move), the
partials or staging of a command, a packet not yet landed (partition, queue pair, SEQ), a record of an overflow ring (function, queue, place), Oxsis
working memory, or none of these. -/
inductive DeviceOwner where
  | nothing
  | segment (part n : Nat)
  | moveBuffer (part id : Nat)
  | command (c : CmdRef)
  | receiveArea (part qp seq : Nat)
  | overflowRecord (fn queue place : Nat)
  | oxsisMemory
  deriving DecidableEq, Repr

/-- A DRAM error that the patrol of R442 meets: channel, row, 256-byte sector of the channel, whether the code corrected it, and, in channel
sets 0 and 1, whose data the sector holds. -/
structure DramError where
  channel : Nat
  row : Nat
  sector : Nat
  corrected : Bool
  owner : DeviceOwner
  deriving DecidableEq, Repr

/-- What a flash channel shows at start-up (R272, R273): its training and its dies' common profile. -/
structure ChannelFound where
  trained : Bool
  profileOk : Bool
  dies : Nat
  blocksPerDie : Nat
  pagesPerBlock : Nat
  endurance : Nat
  retentionLimitS : Nat
  retryTable : List Nat
  suspend : Bool
  tempC : Int
  badBlocks : List (Nat × Nat)
  pageBytes : Nat
  spareBytes : Nat
  planes : Nat
  retryOptions : Nat
  tRUs : Nat
  tProgUs : Nat
  tBersUs : Nat
  deriving DecidableEq, Repr

/-- What a cold start meets on the board (R467, R469): stacks that trained, the flash channels, the tile regulators that
answered, whether the device certificate equals the chip's identity (R389), whether every frame of the checkpoint can be read,
and the frames whose header codeword does not decode (R277, R303). -/
structure ColdEnv where
  stacksOk : Bool
  channels : List (Nat × ChannelFound)
  regulatorsOk : List Bool
  certOk : Bool
  checkpointOk : Bool
  badHeaders : List Place
  deriving DecidableEq, Repr

/-- What DEEP_SLEEP_EXIT finds: whether the retained copy passes its check (R429), and for each flash channel the temperature and whether its training passed. -/
structure WakeFound where
  copyOk : Bool
  channels : List (Nat × Int × Bool)
  deriving DecidableEq, Repr

/-- A map segment to be rebuilt, with the frames whose header cannot be read (R282). -/
structure SegmentScan where
  segment : Nat
  bad : List Place
  deriving DecidableEq, Repr

/-- The end of a start: its length in ms, and the frames that cannot be read (R305). -/
structure RestReads where
  startupMs : Nat
  bad : List Place
  deriving DecidableEq, Repr

/-- Why a received frame or packet is discarded before it is a packet of any operation (R318 to R321). -/
inductive DiscardReason where
  | unknownOp | reservedField | wrongFcs | wrongMac | wrongEtherType | wrongVid
  deriving DecidableEq, Repr

/-- The JTAG instructions that R410 names; scanInternal stands for every internal instruction of the MANUFACTURE lifecycle. -/
inductive JtagInstr where
  | idcode | bypass | samplePreload | extest | clamp | highz | scanInternal
  deriving DecidableEq, Repr

/-- The commands: one constructor for each row of the opcode table, in its order. -/
inductive Instr where
  /-- R39: Control command that creates a job with its ring count and ring-descriptor array. -/
  | jobCreate (c : CmdStep)
  /-- R37: Control command that returns an Idle or Faulted job to Free. -/
  | jobDestroy (c : CmdStep)
  /-- R42: Control command that reads a ring descriptor and binds the ring to a slot. -/
  | jobBind (c : CmdStep)
  /-- R43: Control command that stops a slot, kills or drops its uncommitted commands and writes the descriptor back. -/
  | jobUnbind (c : CmdStep)
  /-- R37: Control command that returns a Faulted job to Idle. -/
  | jobReset (c : CmdStep)
  /-- R63: Control command that registers a model geometry, page size and kernels. -/
  | modelRegister (c : CmdStep)
  /-- R66: Control command that removes a model with no sequences and evicts its directory entries. -/
  | modelUnregister (c : CmdStep)
  /-- R220: Control command that validates a kernel image and loads it into the kernel store. -/
  | kernelLoad (c : CmdStep)
  /-- R220: Control command that removes a kernel once no running command uses it. -/
  | kernelUnload (c : CmdStep)
  /-- R67: Control command that writes the capability record to a host buffer. -/
  | capRead (c : CmdStep)
  /-- R106: Creates a sequence and adopts matching prefix page sets. -/
  | seqOpen (c : CmdStep)
  /-- R94: Creates a sequence that shares the parent's page sets and copies its tail. -/
  | seqFork (c : CmdStep)
  /-- R94: Shortens a sequence, decoding a cut page set into new tail pages. -/
  | seqTrim (c : CmdStep)
  /-- R91: Frees a sequence index and drops its page-set references. -/
  | seqClose (c : CmdStep)
  /-- R222: Moves a sequence to PARKING with an expected wait. -/
  | seqPark (c : CmdStep)
  /-- R222: Returns a sequence to ACTIVE and promotes its tentative copies. -/
  | seqResume (c : CmdStep)
  /-- R151: Sets a predicted resume time for a sequence. -/
  | seqHint (c : CmdStep)
  /-- R62: Releases every tentative page of a sequence. -/
  | specCancel (c : CmdStep)
  /-- R223: Writes a 64-byte report of a sequence's state. -/
  | seqQuery (c : CmdStep)
  /-- R224: Copies committed keys and values of one layer to host memory. -/
  | kvRead (c : CmdStep)
  /-- R113: Runs a prefix lookup and reports how many sets would be adopted. -/
  | prefixProbe (c : CmdStep)
  /-- R108: Matches or inserts a sequence's leading page sets in the directory. -/
  | prefixPublish (c : CmdStep)
  /-- R117: Sets or clears RETAIN in the entries that hold a sequence's leading sets. -/
  | prefixRetain (c : CmdStep)
  /-- R106: Mode 0: evicts every directory entry of a model. -/
  | prefixEvictModel (c : CmdStep)
  /-- R106: Mode 1: evicts the entries that hold a sequence's leading page sets. -/
  | prefixEvictSequence (c : CmdStep)
  /-- R154: Adds a host memory region as a tier of the partition. -/
  | hostRegionAdd (c : CmdStep)
  /-- R155: Moves every frame out of a host region and removes it. -/
  | hostRegionRemove (c : CmdStep)
  /-- R227: Sends a sequence to another chip in one PRP message group. -/
  | seqMigrate (c : CmdStep)
  /-- R170: Writes new keys and values of one layer for up to 256 sequences. -/
  | append (c : CmdStep)
  /-- R171: Computes attention for query rows of up to 256 sequences over one layer. -/
  | attend (c : CmdStep)
  /-- R172: Writes new keys and values of one sequence and attends their query rows. -/
  | extend (c : CmdStep)
  /-- R229: Runs a kind-3 kernel over independent inputs. -/
  | kernelRun (c : CmdStep)
  /-- R230: Commits at once. -/
  | nop (c : CmdStep)
  /-- R230: Starts after every earlier command of the slot has committed. -/
  | fence (c : CmdStep)
  /-- R58: Commits when a sync counter reaches a value, or at its timeout. -/
  | wait (c : CmdStep)
  /-- R230: Sets or adds to a sync counter. -/
  | signal (c : CmdStep)
  /-- R265: Writes the partition's accounting record to a host buffer. -/
  | acctRead (c : CmdStep)
  /-- R230: Posts an event record that carries two host values. -/
  | eventPost (c : CmdStep)
  /-- R101: A SHAKE256 core finishes a digest and is granted to the next waiting chain. -/
  | digestComplete (core : Nat)
  /-- R41: A slot fetches commands between HEAD and TAIL within its fetch window. -/
  | commandFetch (part slot count : Nat) (defer : Bool)
  /-- R49: The commit unit checks a command's commit request and applies its commit point. -/
  | commitRequest (c : CmdRef)
  /-- R259: A held command reaches its commit point once its dependency is final. -/
  | heldCommitRelease (c : CmdRef)
  /-- R242: A quadrant dispatcher chooses a partition and places a ready unit. -/
  | unitPlacement (quad : Nat)
  /-- R243: A gang is placed whole into one group once room exists. -/
  | gangPlacement (quad : Nat)
  /-- R241: A tile starts the unit in its next place 4 tc after the running unit leaves. -/
  | unitStart (tile : Nat)
  /-- R185: A unit finishes its key blocks, leaves its partial or merges and stages outputs. -/
  | unitEnd (tile hc dt : Nat)
  /-- R171: A waiting attend element is dispatched once its extent has committed. -/
  | attendElementRelease (c : CmdRef) (elem : Nat)
  /-- R183: An element waiting for merge or staging space is dispatched when space frees. -/
  | mergeSpaceWaitEnd (c : CmdRef) (elem : Nat)
  /-- R256: A unit waiting on a slow tier for YIELD_WAIT leaves its tile. -/
  | unitYield (tile hc : Nat)
  /-- R256: A yielded unit becomes ready when its reads have landed. -/
  | yieldedUnitReady (unit : Nat)
  /-- R253: A latency-critical unit waiting EVICT_WAIT evicts a best-effort unit. -/
  | unitEvict (unit : Nat)
  /-- R249: Every 64 hc the virtual time of each partition in each quadrant advances. -/
  | virtualTimeUpdate
  /-- R262: An uncorrectable tile error faults the job of the unit held. -/
  | tileUncorrectableError (tile : Nat)
  /-- R263: After commit requests drain, aborted commands release and ABORTED and fault records are posted. -/
  | jobTeardownComplete (part job : Nat)
  /-- R235: Scalar integer add. -/
  | add (unit : Nat)
  /-- R235: Scalar integer subtract. -/
  | sub (unit : Nat)
  /-- R235: Scalar integer multiply, low 32 bits. -/
  | mul (unit : Nat)
  /-- R235: Scalar bitwise and. -/
  | and (unit : Nat)
  /-- R235: Scalar bitwise or. -/
  | or (unit : Nat)
  /-- R235: Scalar bitwise xor. -/
  | xor (unit : Nat)
  /-- R235: Scalar shift left. -/
  | shl (unit : Nat)
  /-- R235: Scalar logical shift right. -/
  | shr (unit : Nat)
  /-- R235: Scalar arithmetic shift right. -/
  | sra (unit : Nat)
  /-- R235: Scalar signed set-less-than. -/
  | slt (unit : Nat)
  /-- R235: Scalar unsigned set-less-than. -/
  | sltu (unit : Nat)
  /-- R235: Scalar signed minimum. -/
  | min (unit : Nat)
  /-- R235: Scalar signed maximum. -/
  | max (unit : Nat)
  /-- R235: Scalar register copy. -/
  | mov (unit : Nat)
  /-- R235: Scalar FP32 add. -/
  | fadd (unit : Nat)
  /-- R235: Scalar FP32 subtract. -/
  | fsub (unit : Nat)
  /-- R235: Scalar FP32 multiply. -/
  | fmul (unit : Nat)
  /-- R235: Scalar FP32 minimum. -/
  | fmin (unit : Nat)
  /-- R235: Scalar FP32 maximum. -/
  | fmax (unit : Nat)
  /-- R235: Scalar FP32 less-than. -/
  | flt (unit : Nat)
  /-- R235: Scalar int32 to FP32 conversion. -/
  | itof (unit : Nat)
  /-- R235: Scalar FP32 to int32 conversion. -/
  | ftoi (unit : Nat)
  /-- R235: Scalar add immediate. -/
  | addi (unit : Nat)
  /-- R235: Scalar and immediate. -/
  | andi (unit : Nat)
  /-- R235: Scalar or immediate. -/
  | ori (unit : Nat)
  /-- R235: Load upper immediate. -/
  | lui (unit : Nat)
  /-- R235: Scalar set-less-than immediate. -/
  | slti (unit : Nat)
  /-- R235: Vector FP32 add. -/
  | vadd (unit : Nat)
  /-- R235: Vector FP32 subtract. -/
  | vsub (unit : Nat)
  /-- R235: Vector FP32 multiply. -/
  | vmul (unit : Nat)
  /-- R235: Vector fused multiply-add. -/
  | vfma (unit : Nat)
  /-- R235: Vector minimum. -/
  | vmin (unit : Nat)
  /-- R235: Vector maximum. -/
  | vmax (unit : Nat)
  /-- R235: Vector absolute value. -/
  | vabs (unit : Nat)
  /-- R235: Vector negate. -/
  | vneg (unit : Nat)
  /-- R235: Vector copy. -/
  | vmov (unit : Nat)
  /-- R209: Vector exponential. -/
  | vexp (unit : Nat)
  /-- R209: Vector reciprocal. -/
  | vrecip (unit : Nat)
  /-- R209: Vector natural logarithm. -/
  | vlog (unit : Nat)
  /-- R235: Vector int32 to FP32 conversion. -/
  | vitof (unit : Nat)
  /-- R235: Vector FP32 to int32 conversion. -/
  | vftoi (unit : Nat)
  /-- R235: Vector lane index. -/
  | vidx (unit : Nat)
  /-- R235: Broadcast a scalar to every lane. -/
  | vbcast (unit : Nat)
  /-- R235: Vector less-than into a predicate. -/
  | vlt (unit : Nat)
  /-- R235: Vector less-or-equal into a predicate. -/
  | vle (unit : Nat)
  /-- R235: Vector equal into a predicate. -/
  | veq (unit : Nat)
  /-- R235: Vector not-equal into a predicate. -/
  | vne (unit : Nat)
  /-- R235: Vector sum reduction. -/
  | vsum (unit : Nat)
  /-- R235: Vector maximum reduction. -/
  | vmaxr (unit : Nat)
  /-- R235: Vector minimum reduction. -/
  | vminr (unit : Nat)
  /-- R235: Predicate and. -/
  | pand (unit : Nat)
  /-- R235: Predicate or. -/
  | por (unit : Nat)
  /-- R235: Predicate xor. -/
  | pxor (unit : Nat)
  /-- R235: Predicate and-not. -/
  | pandn (unit : Nat)
  /-- R235: Predicate not. -/
  | pnot (unit : Nat)
  /-- R235: Predicate set all ones. -/
  | pset (unit : Nat)
  /-- R235: Predicate clear. -/
  | pclr (unit : Nat)
  /-- R235: Predicate population count. -/
  | pcnt (unit : Nat)
  /-- R235: Predicate from two scalars. -/
  | pfroms (unit : Nat)
  /-- R235: Predicate to two scalars. -/
  | ptos (unit : Nat)
  /-- R235: Scalar load from a window. -/
  | ld (unit : Nat)
  /-- R235: Scalar store to a window. -/
  | st (unit : Nat)
  /-- R235: Vector load with format decode. -/
  | vld (unit : Nat)
  /-- R235: Vector store with format conversion. -/
  | vst (unit : Nat)
  /-- R238: Matrix multiply-accumulate on the MAC array. -/
  | mma (unit : Nat)
  /-- R235: Unconditional branch. -/
  | br (unit : Nat)
  /-- R235: Branch if scalar zero. -/
  | bz (unit : Nat)
  /-- R235: Branch if scalar not zero. -/
  | bnz (unit : Nat)
  /-- R235: Branch if any predicate bit set. -/
  | bany (unit : Nat)
  /-- R235: Branch if no predicate bit set. -/
  | bnone (unit : Nat)
  /-- R235: Ends a kernel call. -/
  | ret (unit : Nat)
  /-- R239: Faults the kernel with an immediate code. -/
  | trap (unit : Nat)
  /-- R44: A 32-bit TAIL write to a slot's doorbell page. -/
  | sqDoorbell (part slot offset size value : Nat)
  /-- R247: A 64-byte write that delivers a command and advances TAIL. -/
  | inlineDoorbell (part slot offset : Nat) (data : List Byte)
  /-- R45: Setting EN of HUB_CSQ_CFG makes slot 0 fetch from its kept HEAD. -/
  | csqEnable (part value : Nat)
  /-- R45: Clearing EN of HUB_CSQ_CFG stops slot 0 as an unbind does. -/
  | csqDisable (part value : Nat)
  /-- R45: A write of HUB_CSQ_BASE or ENTRIES_LOG2 while EN is 0 on an empty ring resets HEAD and TAIL. -/
  | csqRingConfigWrite (part : Nat) (isBase : Bool) (value : Nat)
  /-- R363: Setting EN of an event queue resets TAIL, HEAD and PHASE. -/
  | eqEnable (fn queue value : Nat)
  /-- R362: Clearing EN of an event queue, ignored while the queue is named or pending. -/
  | eqDisable (fn queue value : Nat)
  /-- R363: A host HEAD write frees ring space and may re-arm the interrupt. -/
  | eqHeadWrite (fn queue value : Nat)
  /-- R368: Writing 1 to ARM lets a due interrupt be sent. -/
  | eqArm (fn queue : Nat)
  /-- R368: COAL_US after the oldest unsignalled record, an interrupt becomes due. -/
  | coalesceTimerExpiry (fn queue : Nat)
  /-- R368: Unmasking a vector sends its pending message. -/
  | msixUnmask (fn vector : Nat)
  /-- R333: Writing FLAGS with VALID set posts a buffer-table entry and raises GEN. -/
  | bufferPost (part index : Nat) (e : BufFields)
  /-- R333: Writing FLAGS with VALID clear withdraws a buffer entry and raises GEN. -/
  | bufferWithdraw (part index : Nat) (e : BufFields)
  /-- R361: A host write to BAR4, kept within the slice and dropping the rest. -/
  | pushWindowWrite (part offset : Nat) (data : List Byte)
  /-- R357: A read of offset 0x00 of an accounting record latches a snapshot. -/
  | acctSnapshotLatch (fromPf0 : Bool) (part : Nat)
  /-- R373: PF0 sets a QUIESCE bit to disable a VF gracefully. -/
  | quiesce (vf : Nat)
  /-- R372: Function Level Reset of a VF disables it abruptly. -/
  | vfFlr (vf : Nat)
  /-- R372: Clearing Bus Master Enable of a VF disables it abruptly. -/
  | busMasterDisable (vf : Nat)
  /-- R374: Setting Bus Master Enable again makes the VF usable. -/
  | busMasterEnable (vf : Nat)
  /-- R372: Clearing VF Enable disables every VF abruptly. -/
  | vfEnableClear
  /-- R374: Setting VF Enable makes the VFs usable. -/
  | vfEnableSet
  /-- R372: Placing a VF in D3hot disables it abruptly. -/
  | d3hotEntry (vf : Nat)
  /-- R374: Return of a VF to D0 makes it usable. -/
  | d0Return (vf : Nat)
  /-- R376: FLR or Bus Master Enable clear of PF0 clears VF Enable and resets PF0's queue. -/
  | pf0Flr
  /-- R373: After the exceptions complete, writes and records are issued or dropped and state resets. -/
  | disableDrainEnd (vf drainUs : Nat)
  /-- R157: Completion of a host read, with a retry on failure. -/
  | hostReadCompletion (id : Nat) (result : ReadResult)
  /-- R352: A non-posted request of the ZX920 times out. -/
  | completionTimeout (id : Nat)
  /-- R369: A red host read is metered again once the peak bucket holds it. -/
  | ingressPolicerRelease (part id elapsedNs : Nat)
  /-- R9: A write to a register field with no behaviour of its own. -/
  | registerWrite (fn offset size value : Nat)
  /-- R398: Oxsis request that creates a partition. -/
  | oxsisCreate (via : OxsVia)
  /-- R399: Oxsis request that destroys a partition and starts its scrub. -/
  | oxsisDestroy (via : OxsVia)
  /-- R404: Oxsis request that returns a signed attestation report. -/
  | attest (via : OxsVia)
  /-- R389: Oxsis request that returns the device certificate. -/
  | certRead (via : OxsVia)
  /-- R407: Oxsis request that accepts a tenant consent token. -/
  | consent (via : OxsVia) (sigOk : Bool)
  /-- R409: Oxsis request that reads partition plaintext under DEBUG consent. -/
  | debugRead (via : OxsVia)
  /-- R409: Oxsis request that reads fine counters under PROFILE consent. -/
  | profileRead (via : OxsVia)
  /-- R388: Oxsis request that writes a firmware slot. -/
  | fwStage (via : OxsVia) (image : FwSlot)
  /-- R388: FW_STAGE with SVN_COMMIT raises the SVN fuses. -/
  | fwSvnCommit (via : OxsVia)
  /-- R410: Oxsis request that moves the part to the RMA lifecycle. -/
  | rmaUnlock (via : OxsVia) (sigOk : Bool)
  /-- R391: A signing request waiting for the 64-per-second rate proceeds. -/
  | signatureRateRelease
  /-- R408: Consent ends when the seconds counter reaches CONSENT_END_S. -/
  | consentExpiry (part : Nat)
  /-- R399: A released set or channel finishes scrubbing and may be granted again. -/
  | scrubResourceDone (isFlash : Bool) (index : Nat)
  /-- R81: The transcoder converts a full staging page into a page of the cache format. -/
  | stagingFlush (part psn layer : Nat)
  /-- R92: A flush, move or copy-on-write commits once the other epoch's pins are zero. -/
  | locationChangeCommit (part move : Nat)
  /-- R92: A superseded copy is released when the old epoch's pins reach zero. -/
  | supersededCopyRelease (part psn : Nat)
  /-- R139: A move reserves a destination, reads its source and writes the destination. -/
  | pageMove (part move : Nat)
  /-- R134: An own set of a PARKING sequence cooled to DEMOTE_HEAT starts moving. -/
  | parkingMoveStart (part seq : Nat)
  /-- R134: Cold DRAM pages move to flash while free DRAM is below LOW. -/
  | coolingMoveStart (part : Nat)
  /-- R136: A stuck PARKING sequence retries when space appears at the rest destination. -/
  | parkingRetry (part seq : Nat)
  /-- R145: Once every own page has moved, the rest frame is written and the hot entry freed. -/
  | parkToRest (part seq : Nat)
  /-- R147: A cold descriptor segment moves out of DRAM or back in on pin. -/
  | descriptorSegmentMove (part segment : Nat)
  /-- R95: A command waiting for a DRAM page proceeds when one frees. -/
  | allocationResume (c : CmdStep)
  /-- R89: A command waiting for a hot entry proceeds when the victim reaches REST. -/
  | hotEntryResume (c : CmdStep)
  /-- R142: A move waiting for move-buffer space proceeds. -/
  | moveBufferResume (part move : Nat)
  /-- R152: At PRED_TIME minus RESTORE_LEAD a predicted sequence enters RESTORING. -/
  | specRestoreStart (part seq : Nat)
  /-- R152: A restore paused for low DRAM continues when free DRAM rises. -/
  | specRestoreResume (part seq : Nat)
  /-- R153: At HOLD_END without a resume, tentative copies are released and the sequence returns to REST. -/
  | holdEndExpiry (part seq : Nat)
  /-- R150: An unread prefetched copy is released 2 s after completion. -/
  | prefetchCopyExpiry (part psn layer : Nat)
  /-- R115: Every 64 s AGE rises and entries at MAX_AGE are evicted. -/
  | directorySweep
  /-- R444: Within 64 s of an invalidated entry, DIR is cleared in orphan descriptors. -/
  | descriptorDirSweep (part : Nat)
  /-- R283: A frame program reports its status. -/
  | flashProgramComplete (place : Place) (pass : Bool)
  /-- R295: A flash read decodes, retries or becomes uncorrectable. -/
  | flashReadComplete (id : Nat) (result : FlashReadResult)
  /-- R285: An erase passes or fails; foreground admission may resume. -/
  | flashEraseComplete (block : BlockId) (pass : Bool)
  /-- R287: A victim block is chosen and its valid frames copied. -/
  | collectionStart (channel : Nat)
  /-- R286: After 10 ms without demand in background mode, collection starts. -/
  | collectionIdleTimer (channel : Nat)
  /-- R292: On channels 0 and 16, at most once a minute, a young block is relocated. -/
  | staticWearLevel (channel : Nat)
  /-- R296: A frame past the retention limit is refreshed. -/
  | retentionLimitRefresh (place : Place)
  /-- R298: Patrol reads every valid frame once per PATROL_DAYS. -/
  | patrolRead (place : Place) (result : FlashReadResult)
  /-- R290: A discard record is programmed when full or 100 ms after its first entry. -/
  | discardRecordProgram (part : Nat)
  /-- R299: A die not ready within 50 ms is marked offline. -/
  | dieReadyTimeout (channel die : Nat)
  /-- R272: A die temperature move of 30 degrees retrains the channel. -/
  | flashTempRetrain (channel : Nat) (tempC : Int) (trained : Bool)
  /-- R301: PF0 writes CKPT to have the map checkpointed. -/
  | checkpointWrite
  /-- R282: A segment in the map host area is brought into DRAM for a read. -/
  | mapSegmentFetch (part segment : Nat) (result : ReadResult)
  /-- R282: An unreadable segment is rebuilt by scanning headers. -/
  | mapSegmentRebuild (part : Nat) (segment : SegmentScan)
  /-- R303: A clean checkpoint is loaded at a cold start. -/
  | mapCheckpointLoad
  /-- R304: The map is rebuilt by scanning every online channel. -/
  | mapRebuildScan
  /-- R305: Rest frames, locations, tails and digests are rebuilt after the map. -/
  | restStoreRebuild (startupMs : RestReads)
  /-- R335: A PRP WRITE packet is received, checked and reserved for landing. -/
  | write (pk : Packet)
  /-- R340: A PRP SEND control message is received into a RECV buffer. -/
  | send (pk : Packet)
  /-- R339: A remote page read request is served with RDRESP packets. -/
  | rdreq (pk : Packet)
  /-- R331: Read data returns to a waiting unit or is dropped as stale. -/
  | rdresp (pk : Packet)
  /-- R328: A cumulative acknowledgement with a credit limit is received. -/
  | ack (pk : Packet)
  /-- R338: A refusal of a packet is received and reported. -/
  | nak (pk : Packet)
  /-- R328: A credit limit raise is received. -/
  | credit (pk : Packet)
  /-- R324: A CONNECT packet is received for a queue pair. -/
  | connect (pk : Packet)
  /-- R324: A DISCONNECT packet is received and the queue pair enters ERROR. -/
  | disconnect (pk : Packet)
  /-- R335: A received packet lands in its buffer; a flag completes its group. -/
  | packetLanding (part qp seq : Nat)
  /-- R325: A fetched queue-pair context processes its parked packets. -/
  | qpContextFetchComplete (part qp : Nat) (result : ReadResult)
  /-- R328: A sender issues a packet once credits and window allow. -/
  | prpPacketSend (part qp : Nat)
  /-- R347: A red packet is metered again once the peak bucket holds it. -/
  | egressPolicerRelease (part qp elapsedNs : Nat)
  /-- R329: 0.5 us after the first unacknowledged packet, an ACK is sent. -/
  | ackTimer (part qp : Nat)
  /-- R330: A packet unacknowledged for ACK_TMO is retransmitted or the queue pair errs. -/
  | retransmitTimeout (part qp seq : Nat)
  /-- R324: In CONNECTING a CONNECT is resent every ACK_TMO. -/
  | connectRetry (part qp : Nat)
  /-- R324: CONNECT command of LNK_P_QPC_CMD opens a queue pair. -/
  | qpConnect (part index : Nat)
  /-- R324: DISCONNECT command of LNK_P_QPC_CMD closes or drains a queue pair. -/
  | qpDisconnect (part index : Nat)
  /-- R324: RESET command of LNK_P_QPC_CMD returns an ERROR queue pair to RESET. -/
  | qpReset (part index : Nat)
  /-- R320: A link replay request makes the sender replay frames after LACK. -/
  | replayRequest (port lack : Nat)
  /-- R320: A link frame that returns hop credits without a packet. -/
  | creditOnlyFrame (port vc credits lack : Nat)
  /-- R322: A received PFC frame pauses egress queues of its priority. -/
  | pfcFrame (uplink pauseMask : Nat)
  /-- R468: Writing JOIN 1 opens the bypass and trains the ports. -/
  | joinSet
  /-- R314: Writing JOIN 0 closes the bypass switches. -/
  | joinClear
  /-- R316: A fabric port completes training and ring membership changes. -/
  | linkTrained (port : Nat) (live : List Nat)
  /-- R316: A ring link is lost when a neighbour joins or leaves. -/
  | linkLost (port : Nat) (live : List Nat)
  /-- R415: After 256 hc without work a quadrant enters Idle. -/
  | quadrantIdleEntry (quad : Nat)
  /-- R416: After SLEEP_HOLD an eligible quadrant starts the Sleep handshake. -/
  | quadrantSleepEntry (quad : Nat)
  /-- R417: A sleeping quadrant woken by a placed unit reaches Run. -/
  | quadrantWakeComplete (quad : Nat)
  /-- R417: After 1 ms without access a sleeping quadrant's stacks return to self-refresh. -/
  | selfRefreshReturn (quad : Nat)
  /-- R418: PF0 writes REQ 1 to enter Deep sleep. -/
  | deepSleepRequest
  /-- R419: PF0 writes REQ 2 to enter Off. -/
  | offRequest
  /-- R418: After DEEP_HOLD with every quadrant asleep, Deep sleep is requested. -/
  | autoDeepSleep
  /-- R420: A participant answers ACCEPT, REFUSE or DEFER to an entry request. -/
  | handshakeAnswer (block : Nat) (answer : Answer)
  /-- R420: A participant's defer limit passes and the entry is abandoned. -/
  | deferLimitExpiry (block : Nat)
  /-- R429: A wake event brings the chip back from Deep sleep. -/
  | deepSleepExit (tagOk : Bool) (copyOk : WakeFound)
  /-- R419: WAKE_N low wakes Deep sleep or starts a cold start from Off. -/
  | wakeNLow
  /-- R424: The SMBus matcher sees its address and wakes the chip. -/
  | smbusAddressMatch (address : Nat)
  /-- R382: An MCTP message carries an Oxsis request over SMBus. -/
  | mctpMessage (body : List Byte)
  /-- R425: The host asserts CLKREQ_N and wakes the chip. -/
  | clkreqAssert
  /-- R422: The seconds counter reaches the alarm and wakes the chip. -/
  | wakeAlarm
  /-- R434: Every 1 us the power estimate is updated and CAP lowered if needed. -/
  | governorTick (packageDw tilesDw : Nat)
  /-- R434: Every 10 ms the estimate is corrected against regulator readings. -/
  | governorCorrection (packageDw tilesDw : Nat)
  /-- R434: Every 100 us with headroom CAP rises by one point. -/
  | capRaise
  /-- R433: A quadrant moves its operating point toward min(FREQ_REQ, CAP). -/
  | dvfsPointChange (quad : Nat)
  /-- R433: The voltage monitor reaches the new point and the frequency rises. -/
  | voltageRaiseDone (quad millivolts : Nat)
  /-- R433: The monitor reads below the point and the frequency drops. -/
  | voltageMonitorDrop (quad millivolts : Nat)
  /-- R433: A tile regulator reports a fault or does not answer. -/
  | regulatorFault (quad : Nat)
  /-- R436: A die reaches T_EMERG. -/
  | thermalEmergencyStart (tempC : Nat)
  /-- R436: Every die is 5 degrees below T_EMERG and steps are undone. -/
  | thermalEmergencyEnd (tempC : Nat)
  /-- R435: Every 10 ms of emergency at point 0 the duty-cycle share rises. -/
  | dutyCycleStep
  /-- R435: A die reaches T_TRIP; clocks stop and THERMTRIP_N asserts. -/
  | thermalTrip (tempC : Nat)
  /-- R266: At the end of each 10 ms window energy is added and OVER_SLICE judged. -/
  | accountingWindowEnd
  /-- R442: Each 24 h every DRAM row is read and corrected sectors written back. -/
  | dramPatrol (errors : List DramError)
  /-- R449: A failing DRAM row finishes copying to a spare and is remapped. -/
  | rowRepairComplete (channel row : Nat)
  /-- R443: An uncorrectable hot entry is restored from its shadow. -/
  | hotEntryShadowRestore (part seq : Nat) (shadowOk : Bool)
  /-- R444: An uncorrectable directory entry is invalidated. -/
  | directoryEntryInvalidate (part entry : Nat)
  /-- R445: An error in core control state restarts the chip without a checkpoint. -/
  | chipRestart
  /-- R450: Ageing monitors measure drift at start, exit and every 24 h. -/
  | ageingMeasure (die driftBp : Nat)
  /-- R452: Each 86,400 s the life terms are recorded and EOL_DAYS predicted. -/
  | lifeDailyRecord
  /-- R460: The 32.768 kHz oscillator settles and the counter changes over. -/
  | crystalSettled
  /-- R467: At reset release the chip boots, trains memory and recreates partitions. -/
  | coldStart (env : ColdEnv)
  /-- R463: Loss of the main rails resets outputs, closes the bypass and lowers RAIL_EN. -/
  | pwrokFall
  /-- R463: 100 ms after a non-trip rail loss, or 10 ms after VSTBY rises, RAIL_EN rises. -/
  | railEnRestart
  /-- R464: SYS_RST_N, or PERST_N with PERST_MODE 0, resets the chip. -/
  | sysRst (viaPerst : Bool)
  /-- R464: PERST_N with PERST_MODE 1 resets only the host link. -/
  | hostLinkReset
  /-- R464: TRST_N low resets the JTAG TAP. -/
  | tapReset
  /-- R58: The timeout of a waiting `wait` command expires before its counter reaches the value, and it commits with status TIMEOUT. -/
  | waitTimeout (c : CmdRef)
  /-- R320: A ring-port receiver finds a bad CRC or a gap in LSEQ, discards the frame and sends a replay request carrying LACK. -/
  | linkFrameError (port : Nat)
  /-- R312: A packet whose destination is another chip arrives on a ring port and is forwarded on the same rail and direction, crossing the dateline if needed. -/
  | ringTransitForward (port vc : Nat) (pk : Packet)
  /-- R319: A received packet or uplink frame with an unknown OP, a nonzero reserved field, a wrong FCS, MAC, EtherType or VID is discarded and counted. -/
  | prpFrameDiscard (reason : DiscardReason) (part : Nat)
  /-- R34: The host returns PCIe posted-write flow-control credits, letting a waiting event engine or output engine issue its writes. -/
  | pciePostedCreditReturn (credits : Nat)
  /-- R466: The standby rail is removed, which clears a thermal-trip hold of THERMTRIP_N and RAIL_EN. -/
  | vstbyLoss
  /-- R464: VSTBY comes within tolerance, the internal power-on reset releases the standby logic and the 10 ms RAIL_EN timer starts. -/
  | standbyPowerOn
  /-- R449: A corrected error occurs in a tile's scratchpad, registers or local queue and counts toward retiring the tile after more than 16 within 24 h. -/
  | tileCorrectedError (tile : Nat)
  /-- R410: A JTAG instruction is shifted in through the TAP and executed if the lifecycle and reset state allow it. -/
  | jtagInstruction (instr : JtagInstr)
  deriving DecidableEq, Repr

end Sys2Proof
end

