-- ==== Sys2Proof/Decode.lean ====
section
/-! DEFINITION. The command that a word of the opcode table spells. No row of spec/opcode_table.json gives bits ("fields" is
empty in every row), so no word spells a command. The 64-byte command words of R46 are read where a slot fetches them
(Machine/Operands.lean). -/

namespace Sys2Proof

/-- The command spelled by a word, for the rows that give bits: there are none. -/
def decodeTableWord (_nbits _w : Nat) : Option Instr := none

end Sys2Proof
end

