-- ==== Sys2Proof/Machine/Maps.lean ====
section
/-! DEFINITION. Operations on sparse maps (lists of key and value pairs in rising key order), and on bytes as little-endian
numbers (R7). A map with no entry under a key answers a default that its user names. -/

namespace Sys2Proof

/-- The entry of a key. -/
def Map.look {α : Type} (m : Map α) (k : Nat) : Option α :=
  match m with
  | [] => none
  | (j, a) :: r => if j = k then some a else Map.look r k

/-- The entry of a key, or the default. -/
def Map.get {α : Type} (m : Map α) (k : Nat) (d : α) : α := (Map.look m k).getD d

def Map.has {α : Type} (m : Map α) (k : Nat) : Bool := (Map.look m k).isSome

/-- Without the key. -/
def Map.del {α : Type} (m : Map α) (k : Nat) : Map α := m.filter fun e => e.1 != k

/-- A pair put where its key belongs in the rising order. -/
def Map.place {α : Type} (m : Map α) (k : Nat) (a : α) : Map α :=
  match m with
  | [] => [(k, a)]
  | (j, b) :: r => if k < j then (k, a) :: (j, b) :: r else (j, b) :: Map.place r k a

/-- The key set to a value. -/
def Map.put {α : Type} (m : Map α) (k : Nat) (a : α) : Map α := Map.place (Map.del m k) k a

/-- The entry of a key changed, where the key has one. -/
def Map.edit {α : Type} (m : Map α) (k : Nat) (f : α → α) : Map α :=
  match Map.look m k with
  | none => m
  | some a => Map.put m k (f a)

/-- Every entry changed. -/
def Map.each {α β : Type} (m : Map α) (f : α → β) : Map β := m.map fun e => (e.1, f e.2)

def Map.keys {α : Type} (m : Map α) : List Nat := m.map fun e => e.1

def Map.vals {α : Type} (m : Map α) : List α := m.map fun e => e.2

/-- The entries that a test admits. -/
def Map.only {α : Type} (m : Map α) (p : Nat → α → Bool) : Map α := m.filter fun e => p e.1 e.2

/-- The least number from n on, below n + fuel, that the test admits. -/
def leastFrom (p : Nat → Bool) : Nat → Nat → Option Nat
  | 0, _ => none
  | fuel + 1, n => if p n then some n else leastFrom p fuel (n + 1)

/-- The least number at or above lo that no entry of the map has. -/
def Map.fresh {α : Type} (m : Map α) (lo : Nat) : Nat :=
  (leastFrom (fun n => !Map.has m n) (m.length + 1) lo).getD lo

/-- The canonical form: keys strictly rising. -/
def Map.wf {α : Type} (m : Map α) : Bool :=
  match m with
  | [] => true
  | [_] => true
  | (j, _) :: (k, b) :: r => j < k && Map.wf ((k, b) :: r)

/-! ### Bytes -/

/-- The number that bytes spell, least significant first (R7). -/
def leNat : List Byte → Nat
  | [] => 0
  | b :: r => b.toNat + 256 * leNat r

/-- A number as n bytes, least significant first (R7). -/
def leBytes : Nat → Nat → List Byte
  | 0, _ => []
  | n + 1, v => BitVec.ofNat 8 v :: leBytes n (v / 256)

/-- n bytes of a list from an offset, zero past its end. -/
def slice (l : List Byte) (off n : Nat) : List Byte :=
  let t := (l.drop off).take n
  t ++ List.replicate (n - t.length) 0

/-- A little-endian field of n bytes at an offset. -/
def field (l : List Byte) (off n : Nat) : Nat := leNat (slice l off n)

/-- The list with bytes laid over it from an offset on, kept at its length n. -/
def overlay (n : Nat) (l : List Byte) (off : Nat) (b : List Byte) : List Byte :=
  slice l 0 off ++ b.take (n - off) ++ slice l (off + b.length) (n - (off + b.length))

/-- The number rounded up to a multiple. -/
def roundUp (v m : Nat) : Nat := (v + m - 1) / m * m

/-- The ceiling of a quotient. -/
def ceilDiv (a b : Nat) : Nat := (a + b - 1) / b

/-- The number with n bits at lo replaced by v. -/
def setBits (w lo n v : Nat) : Nat := w - bits w lo n * 2 ^ lo + v % 2 ^ n * 2 ^ lo

/-- The count of bits set among the low n. -/
def popcount : Nat → Nat → Nat
  | 0, _ => 0
  | n + 1, v => v % 2 + popcount n (v / 2)

/-- A counter that stops at its largest value. -/
def satAdd (limit v n : Nat) : Nat := Nat.min limit (v + n)

/-- The list's elements in the order of a key, smaller first, equal ones as they stood. -/
def insertBy {α : Type} (key : α → Nat) (a : α) : List α → List α
  | [] => [a]
  | b :: r => if key a < key b then a :: b :: r else b :: insertBy key a r

def sortBy {α : Type} (key : α → Nat) (l : List α) : List α := l.foldl (fun r a => insertBy key a r) []

/-- The element with the least key, the first among equals. -/
def leastBy {α : Type} (key : α → Nat) : List α → Option α
  | [] => none
  | a :: r =>
    match leastBy key r with
    | none => some a
    | some b => if key b < key a then some b else some a

/-- A Boolean as a bit. -/
def Bool.bit (b : Bool) : Nat := if b then 1 else 0

/-- The list without its repeats, the first of each kept. -/
def dedup {α : Type} [BEq α] (l : List α) : List α :=
  (l.foldl (fun r a => if r.contains a then r else a :: r) []).reverse

def sum (l : List Nat) : Nat := l.foldl (· + ·) 0

end Sys2Proof
end

