-- ==== Sys2Proof/Machine/Sha.lean ====
section
/-! DEFINITION. SHAKE256 (FIPS 202), which the prefix digests of R98 and the firmware digests of R387 use: Keccak-f[1600] on 25 lanes
of 64 bits, rate 136 bytes. -/

namespace Sys2Proof

/-- A lane. -/
abbrev Lane := BitVec 64

def lane (a : List Lane) (i : Nat) : Lane := a.getD i 0

/-- The rotation offsets of rho, by x + 5y. -/
def rhoOffsets : List Nat :=
  [0, 1, 62, 28, 27, 36, 44, 6, 55, 20, 3, 10, 43, 25, 39, 41, 45, 15, 21, 8, 18, 2, 61, 56, 14]

/-- One step of the round-constant generator x^8 + x^6 + x^5 + x^4 + 1. -/
def rcStep (r : Nat) : Nat := let t := 2 * r; if 256 ≤ t then (t ^^^ 0x71) % 256 else t

/-- The generator after n steps from 1. -/
def rcAt : Nat → Nat
  | 0 => 1
  | n + 1 => rcStep (rcAt n)

/-- Iota's constant of a round. -/
def roundConst (ir : Nat) : Lane :=
  (List.range 7).foldl (fun c j => if rcAt (j + 7 * ir) % 2 = 1 then c ||| BitVec.ofNat 64 (2 ^ (2 ^ j - 1)) else c) 0

def keccakRound (a : List Lane) (ir : Nat) : List Lane :=
  let c := (List.range 5).map fun x => lane a x ^^^ lane a (x + 5) ^^^ lane a (x + 10) ^^^ lane a (x + 15) ^^^ lane a (x + 20)
  let d := (List.range 5).map fun x => lane c ((x + 4) % 5) ^^^ (lane c ((x + 1) % 5)).rotateLeft 1
  let t := a.zipIdx.map fun p => (p.1 ^^^ lane d (p.2 % 5)).rotateLeft (rhoOffsets.getD p.2 0)
  -- pi: the lane at (x, y) comes from (x + 3y, x)
  let b := (List.range 25).map fun i => let x := i % 5; let y := i / 5; lane t ((x + 3 * y) % 5 + 5 * x)
  let h := (List.range 25).map fun i =>
    let x := i % 5
    let y := 5 * (i / 5)
    lane b i ^^^ (~~~ lane b ((x + 1) % 5 + y) &&& lane b ((x + 2) % 5 + y))
  match h with
  | l :: r => (l ^^^ roundConst ir) :: r
  | [] => []

def keccakF (a : List Lane) : List Lane := (List.range 24).foldl keccakRound a

/-- The lanes of a block of 136 bytes, padded with zero lanes to 25. -/
def blockLanes (b : List Byte) : List Lane :=
  (List.range 25).map fun i => BitVec.ofNat 64 (leNat ((b.drop (8 * i)).take 8))

/-- The message padded to whole blocks: 1111 for SHAKE, then 10…01. -/
def shakePad (m : List Byte) : List Byte :=
  let k := 136 - m.length % 136
  if k = 1 then m ++ [0x9F] else m ++ [0x1F] ++ List.replicate (k - 2) 0 ++ [0x80]

/-- Absorption of n blocks. -/
def absorb : Nat → List Lane → List Byte → List Lane
  | 0, a, _ => a
  | n + 1, a, m => absorb n (keccakF (List.zipWith (· ^^^ ·) a (blockLanes (m.take 136)))) (m.drop 136)

/-- The first n bytes, up to 136, of SHAKE256 of a message. -/
def shake256 (m : List Byte) (n : Nat) : List Byte :=
  let p := shakePad m
  let a := absorb (p.length / 136) (List.replicate 25 0) p
  (a.flatMap fun l => leBytes 8 l.toNat).take n

end Sys2Proof
end

