-- ==== Sys2Proof/Machine/Crypto.lean ====
section
/-! DEFINITION. What protects external memory (R394): AES-256 (FIPS 197) in XTS mode (IEEE 1619), and KMAC256 (NIST SP 800-185). -/

namespace Sys2Proof

/-! ### AES-256 -/

/-- Multiplication by x in GF(2^8), modulo x^8 + x^4 + x^3 + x + 1. -/
def xtime (a : Byte) : Byte := if a.msb then (a <<< 1) ^^^ 0x1B else a <<< 1

/-- Multiplication in GF(2^8): the multiples of a by the bits of b, the lowest first. -/
def gmulBits : List Bool → Byte → Byte
  | [], _ => 0
  | b :: r, a => (if b then a else 0) ^^^ gmulBits r (xtime a)

def gmul (a b : Byte) : Byte := gmulBits ((List.range 8).map fun i => b.getLsbD i) a

/-- The inverse in GF(2^8), and 0 for 0: the power 254, by seven squarings. -/
def ginv (a : Byte) : Byte :=
  let a2 := gmul a a
  let a4 := gmul a2 a2
  let a8 := gmul a4 a4
  let a16 := gmul a8 a8
  let a32 := gmul a16 a16
  let a64 := gmul a32 a32
  let a128 := gmul a64 a64
  gmul a2 (gmul a4 (gmul a8 (gmul a16 (gmul a32 (gmul a64 a128)))))

/-- The S-box: the inverse, then the affine map. -/
def sbox (a : Byte) : Byte :=
  let b := ginv a
  b ^^^ b.rotateLeft 1 ^^^ b.rotateLeft 2 ^^^ b.rotateLeft 3 ^^^ b.rotateLeft 4 ^^^ 0x63

/-- The S-box of every byte. -/
def sboxTable : List Byte := (List.range 256).map fun n => sbox (BitVec.ofNat 8 n)
def subByte (t : List Byte) (a : Byte) : Byte := t.getD a.toNat 0

/-- A word of the key schedule is four bytes. -/
def xorBytes (a b : List Byte) : List Byte := List.zipWith (· ^^^ ·) a b

/-- The round constant of a step. -/
def rcon : Nat → Byte
  | 0 => 1
  | n + 1 => xtime (rcon n)

/-- The next word of the schedule of a 256-bit key; w holds the words so far, the newest first. -/
def nextKeyWord (t : List Byte) (w : List (List Byte)) : List Byte :=
  let i := w.length
  let last := w.headD []
  let g :=
    if i % 8 = 0 then xorBytes ((last.drop 1 ++ last.take 1).map (subByte t)) [rcon (i / 8 - 1), 0, 0, 0]
    else if i % 8 = 4 then last.map (subByte t)
    else last
  xorBytes (w.getD 7 []) g

def growKey (t : List Byte) : Nat → List (List Byte) → List (List Byte)
  | 0, w => w
  | n + 1, w => growKey t n (nextKeyWord t w :: w)

/-- The fifteen round keys of 16 bytes. -/
def roundKeys (t : List Byte) (key : List Byte) : List (List Byte) :=
  let w := (growKey t 52 ((List.range 8).map fun i => slice key (4 * i) 4).reverse).reverse
  (List.range 15).map fun r => ((w.drop (4 * r)).take 4).flatten

/-- Row r of the state turns left by r; the byte of row r and column c is number 4c + r. -/
def shiftRows (b : List Byte) : List Byte := (List.range 16).map fun i => b.getD ((i + 4 * (i % 4)) % 16) 0

def mixColumn (c : List Byte) : List Byte :=
  (List.range 4).map fun r =>
    let at1 := fun k => c.getD ((r + k) % 4) 0
    xtime (at1 0) ^^^ xtime (at1 1) ^^^ at1 1 ^^^ at1 2 ^^^ at1 3

def mixColumns (b : List Byte) : List Byte := (List.range 4).flatMap fun c => mixColumn ((b.drop (4 * c)).take 4)

/-- The rounds after the first key; the last one mixes no columns. -/
def aesRounds (t : List Byte) : List (List Byte) → List Byte → List Byte
  | [], b => b
  | [k], b => xorBytes (shiftRows (b.map (subByte t))) k
  | k :: r, b => aesRounds t r (xorBytes (mixColumns (shiftRows (b.map (subByte t)))) k)

/-- AES-256 of one block of 16 bytes under the round keys. -/
def aesBlock (t : List Byte) (keys : List (List Byte)) (b : List Byte) : List Byte := aesRounds t (keys.drop 1) (xorBytes b (keys.headD []))

def aes256 (key block : List Byte) : List Byte := aesBlock sboxTable (roundKeys sboxTable key) block

/-! ### XTS -/

/-- Multiplication by α in GF(2^128), the first byte the least significant. -/
def xtsDouble (b : List Byte) : List Byte :=
  let n := leNat b
  let m := 2 * n % 2 ^ 128
  leBytes 16 (if n < 2 ^ 127 then m else m ^^^ 0x87)

/-- The blocks of a data unit under the tweak value of its first. -/
def xtsBlocks (t : List Byte) (keys : List (List Byte)) : Nat → List Byte → List Byte → List Byte
  | 0, _, _ => []
  | n + 1, tw, b => xorBytes (aesBlock t keys (xorBytes (b.take 16) tw)) tw ++ xtsBlocks t keys n (xtsDouble tw) (b.drop 16)

/-- AES-256-XTS of a data unit of whole blocks: the first key encrypts the data, the second the tweak. -/
def xts256 (key1 key2 tweak data : List Byte) : List Byte :=
  let t := sboxTable
  xtsBlocks t (roundKeys t key1) (data.length / 16) (aesBlock t (roundKeys t key2) tweak) data

/-! ### KMAC256 -/

/-- left_encode and right_encode of SP 800-185, for numbers below 2^16. -/
def leftEncode (n : Nat) : List Byte := if n < 256 then [1, BitVec.ofNat 8 n] else [2, BitVec.ofNat 8 (n / 256), BitVec.ofNat 8 n]
def rightEncode (n : Nat) : List Byte := if n < 256 then [BitVec.ofNat 8 n, 1] else [BitVec.ofNat 8 (n / 256), BitVec.ofNat 8 n, 2]

def encodeString (b : List Byte) : List Byte := leftEncode (8 * b.length) ++ b

/-- bytepad to whole blocks of 136 bytes. -/
def bytepad (b : List Byte) : List Byte :=
  let x := leftEncode 136 ++ b
  x ++ List.replicate ((136 - x.length % 136) % 136) 0

def asciiBytes (s : String) : List Byte := s.toList.map fun c => BitVec.ofNat 8 c.toNat

/-- The message padded for cSHAKE: 00, then 10…01. -/
def cshakePad (m : List Byte) : List Byte :=
  let k := 136 - m.length % 136
  if k = 1 then m ++ [0x84] else m ++ [0x04] ++ List.replicate (k - 2) 0 ++ [0x80]

/-- The first n bytes, up to 136, of KMAC256 of a message under a key and a customisation string. -/
def kmac256 (key msg custom : List Byte) (n : Nat) : List Byte :=
  let m := bytepad (encodeString (asciiBytes "KMAC") ++ encodeString custom) ++ bytepad (encodeString key) ++ msg ++ rightEncode (8 * n)
  let p := cshakePad m
  ((absorb (p.length / 136) (List.replicate 25 0) p).flatMap fun l => leBytes 8 l.toNat).take n

end Sys2Proof
end

