-- ==== Sys2Proof/Machine/Flags.lean ====
section
/-! DEFINITION. The codes that results carry: status codes (R216), record kinds (R364), error sources and actions (R447),
stall causes (R156), state codes (R88). -/

namespace Sys2Proof.Machine

/-! ### Status codes (R216) -/
namespace St
def success : Nat := 0x0000
def elementFail : Nat := 0x0001
def timeout : Nat := 0x0002
def aborted : Nat := 0x0003
def unknownOpcode : Nat := 0x0010
def reservedField : Nat := 0x0011
def wrongQueue : Nat := 0x0012
def operandRange : Nat := 0x0013
def operandFault : Nat := 0x0014
def format : Nat := 0x0015
def batchRange : Nat := 0x0016
def layerRange : Nat := 0x0017
def countRange : Nat := 0x0018
def noTokens : Nat := 0x0019
def maskFormat : Nat := 0x001A
def duplicate : Nat := 0x001B
def jobState : Nat := 0x0020
def jobBusy : Nat := 0x0021
def slotBusy : Nat := 0x0022
def ringBound : Nat := 0x0023
def noModel : Nat := 0x0030
def modelBusy : Nat := 0x0031
def modelInUse : Nat := 0x0032
def geometry : Nat := 0x0033
def pageTooSmall : Nat := 0x0034
def wrongModel : Nat := 0x0035
def noKernel : Nat := 0x0040
def kernelBusy : Nat := 0x0041
def kernelInUse : Nat := 0x0042
def kernelInvalid : Nat := 0x0043
def storeFull : Nat := 0x0044
def invalidHandle : Nat := 0x0050
def hotFull : Nat := 0x0051
def stepOpen : Nat := 0x0052
def positionMismatch : Nat := 0x0053
def lengthLimit : Nat := 0x0054
def prefixRange : Nat := 0x0060
def retainLimit : Nat := 0x0061
def noSpace : Nat := 0x0070
def regionBusy : Nat := 0x0071
def regionRange : Nat := 0x0072
def mediaError : Nat := 0x0073
def remoteFail : Nat := 0x0074
end St

/-! KIND of an event record (R364). -/
namespace Kind
def command : Nat := 0
def receive : Nat := 1
def fabric : Nat := 2
def jobFault : Nat := 3
def quiesce : Nat := 4
def ready : Nat := 5
end Kind

/-! SOURCE of an error record (R447). -/
namespace Src
def dram : Nat := 1
def dramMac : Nat := 2
def pageCache : Nat := 3
def tile : Nat := 4
def kernel : Nat := 5
def hubSram : Nat := 6
def flashRead : Nat := 7
def flashProgram : Nat := 8
def flashErase : Nat := 9
def flashDie : Nat := 10
def hostRead : Nat := 11
def regulator : Nat := 12
def retention : Nat := 13
def core : Nat := 14
def ageing : Nat := 15
end Src

/-! ACTION of an error record (R447). -/
namespace Act
def none : Nat := 0
def corrected : Nat := 1
def rejected : Nat := 2
def jobFaulted : Nat := 3
def restored : Nat := 4
def invalidated : Nat := 5
def poisoned : Nat := 6
def rowRepaired : Nat := 7
def frameRetired : Nat := 8
def tileRetired : Nat := 9
def blockRetired : Nat := 10
def dieOffline : Nat := 11
def restarted : Nat := 12
/-- DEDUCED, assumption log 113; DESIGN CHOICE, assumption log 120; DESIGN CHOICE, assumption log 136. -/
def coldStart : Nat := 13
end Act

/-! Causes of a stall (R156). -/
namespace Stall
def dramAlloc : Nat := 0
def dramWake : Nat := 1
def hostLate : Nat := 2
def flashLate : Nat := 3
def moveBuf : Nat := 4
def remoteLate : Nat := 5
def hostFail : Nat := 6
def flashFail : Nat := 7
end Stall

/-! Mbatas opcodes (R214). -/
namespace Op
def jobCreate : Nat := 0x01
def jobDestroy : Nat := 0x02
def jobBind : Nat := 0x03
def jobUnbind : Nat := 0x04
def jobReset : Nat := 0x05
def modelRegister : Nat := 0x06
def modelUnregister : Nat := 0x07
def kernelLoad : Nat := 0x08
def kernelUnload : Nat := 0x09
def capRead : Nat := 0x0A
def seqOpen : Nat := 0x10
def seqFork : Nat := 0x11
def seqTrim : Nat := 0x12
def seqClose : Nat := 0x13
def seqPark : Nat := 0x14
def seqResume : Nat := 0x15
def seqHint : Nat := 0x16
def specCancel : Nat := 0x17
def seqQuery : Nat := 0x18
def kvRead : Nat := 0x20
def prefixProbe : Nat := 0x30
def prefixPublish : Nat := 0x31
def prefixRetain : Nat := 0x32
def prefixEvict : Nat := 0x33
def hostRegionAdd : Nat := 0x40
def hostRegionRemove : Nat := 0x41
def seqMigrate : Nat := 0x42
def append : Nat := 0x50
def attend : Nat := 0x51
def extend : Nat := 0x52
def kernelRun : Nat := 0x53
def nop : Nat := 0x60
def fence : Nat := 0x61
def wait : Nat := 0x62
def signal : Nat := 0x63
def acctRead : Nat := 0x70
def eventPost : Nat := 0x80
end Op

/-- The opcodes that R214 lists. -/
def listedOpcodes : List Nat :=
  [0x01, 0x02, 0x03, 0x04, 0x05, 0x06, 0x07, 0x08, 0x09, 0x0A] ++ [0x10, 0x11, 0x12, 0x13, 0x14, 0x15, 0x16, 0x17, 0x18] ++
  [0x20, 0x30, 0x31, 0x32, 0x33, 0x40, 0x41, 0x42] ++ [0x50, 0x51, 0x52, 0x53, 0x60, 0x61, 0x62, 0x63, 0x70, 0x80]

/-- R38: the control class. -/
def isControl (op : Nat) : Bool := 1 ≤ op && op ≤ 0x0A

/-- The attention commands that name an element list. -/
def isAttention (op : Nat) : Bool := op = Op.append || op = Op.attend || op = Op.extend

end Sys2Proof.Machine
end

