-- ==== Sys2Proof/Config.lean ====
section
/-! DEFINITION. The constants of revision A1 and the free values: the opaque constants below have no body, so nothing
can be proved about what they are. Each stands for a value that the spec leaves open or draws at random. -/

namespace Sys2Proof.Config

/-- R67: the silicon revision of this part. -/
def revision : Nat := 0xA1

/-- R36, R67: partitions per chip. -/
def partitions : Nat := 16

/-- R146: the ZX920 assigns page-set numbers below this bound. -/
def psnBound : Nat := 2 ^ 30

/-- R87: sequence indices per partition. -/
def seqBound : Nat := 2 ^ 24

/-- R1, R89: entries of the hot sequence table, and the floor of each existing partition. -/
def hotEntries : Nat := 65536
def hotFloor : Nat := 1024

/-- R142, R183, R327: bytes of the move buffers, the merge area and the receive area, and the floor of a partition in each. -/
def moveBufBytes : Nat := 512 * 2 ^ 20
def mergeBytes : Nat := 256 * 2 ^ 20
def recvBytes : Nat := 512 * 2 ^ 20
def poolFloor : Nat := 16 * 2 ^ 20

/-- R33: records of one overflow ring. -/
def overflowRecords : Nat := 32768

/-- R117: most entries of a partition with RETAIN set. -/
def retainLimit : Nat := 32768

/-- R151: entries of the wake list. -/
def wakeListEntries : Nat := 1048576

/-- R448: records of the error log, and the unread count from which corrected errors are counted only. -/
def errLogRecords : Nat := 4096
def errLogCorrectedLimit : Nat := 3072

/-- R197: the SIGNS constant of the ZK2 rotation. -/
def zk2Signs : Nat := 0xC3A55A3C96E10F78

/-- R199: K, the FP32 number nearest to 0.9957. -/
def zk2K : BitVec 32 := 0x3F7EE632

/-- R370: non-posted tags of the chip, a partition's floor and its largest use. -/
def tags : Nat := 768
def tagFloor : Nat := 16
def tagLimit : Nat := 256

/-- Free 32-bit value number n (a value the spec leaves open; DESIGN CHOICE, assumption log 2). -/
opaque freeWord : Nat → BitVec 32

/-- Free 128-bit value number n: the salts of R99 and, truncated, the PARTITION_ID of R398 (random draws)
(DESIGN CHOICE, assumption log 2). -/
opaque freeWide : Nat → BitVec 128

/-- Free byte number n: a buffer byte the spec calls undefined (DESIGN CHOICE, assumption log 2). -/
opaque freeByte : Nat → BitVec 8

/-- R209: the exponential unit on finite inputs whose result is normal (its error bound leaves the bits open; equal inputs give
equal outputs) (DESIGN CHOICE, assumption log 31). -/
opaque expUnit : BitVec 32 → BitVec 32

/-- R209: the reciprocal unit on finite non-zero inputs (DESIGN CHOICE, assumption log 31). -/
opaque recipUnit : BitVec 32 → BitVec 32

/-- R209: the logarithm on positive finite inputs (DESIGN CHOICE, assumption log 31). -/
opaque logUnit : BitVec 32 → BitVec 32

/-- R235: the result of scalar fmin (false) or fmax (true) with a NaN operand, on which the spec is silent
(DESIGN CHOICE, assumption log 30). -/
opaque scalarMinMaxNaN : Bool → BitVec 32 → BitVec 32 → BitVec 32

/-- R235: the result of vmaxr (true) or vminr (false) when the guard admits no lane (DESIGN CHOICE, assumption log 32). -/
opaque emptyReduction : Bool → BitVec 32

/-- R385, R389: CHIP_ID, and the identity public key derived from DEVICE_SECRET. -/
opaque chipId : BitVec 128
opaque idKeyByte : Nat → BitVec 8

/-- R385: byte n of the VENDOR_KEY_DIGEST fuses. -/
opaque vendorKeyDigestByte : Nat → BitVec 8

/-- R385, R392: byte n of the DEVICE_SECRET fuses. -/
opaque deviceSecretByte : Nat → BitVec 8

/-- R441: the MAC field of a poisoned sector at a location (DESIGN CHOICE, assumption log 163). -/
opaque poisonMac : Nat → BitVec 64

/-- R275: byte n of the parity of a header codeword, and of a data codeword (DESIGN CHOICE, assumption log 163). -/
opaque headerParity : List (BitVec 8) → Nat → BitVec 8
opaque dataParity : List (BitVec 8) → Nat → BitVec 8

/-- R390, R405: byte n of the identity signature with index i over a report body (the secret seeds are fused)
(DESIGN CHOICE, assumption log 35). -/
opaque signatureByte : Nat → List Byte → Nat → BitVec 8

/-- R388, R389: byte n of the device certificate in the boot NOR (DESIGN CHOICE, assumption log 35). -/
opaque certByte : Nat → BitVec 8

/-- R12, R69: the home quadrant that the dispatcher chooses for a sequence that comes back from REST, by the sequence and the partition's own sequences and objects
(DESIGN CHOICE, assumption log 133). -/
opaque homeChoice : List Nat → BitVec 2

/-- R254, R458: the SMBus address of image 4, in the firmware with this SLOT_SEQ (DESIGN CHOICE, assumption log 136). -/
opaque smbusAddress : Nat → BitVec 7

/-- R451: the block term, in units of 0.01 %, of a channel whose limit B_lim is 0, for a count of retired blocks; the rule divides by it
(DESIGN CHOICE, assumption log 125). -/
opaque emptyLimit : Nat → BitVec 16

/-- R277: the temperature of a quadrant die at draw n, in degrees Celsius (DESIGN CHOICE, assumption log 134). -/
opaque dieTemp : Nat → BitVec 8

end Sys2Proof.Config
end

