-- ==== Sys2Proof/Machine/Num.lean ====
section
/-! DEFINITION. Number formats and arithmetic (R190 to R209): the bits of each format, conversion with rounding to nearest,
FP32 arithmetic with subnormals read and written as zero, MX blocks, ZK2 groups, and the special functions. A number is held exactly as
a sign, a magnitude and a power of two; rounding happens where the spec rounds. -/

namespace Sys2Proof

/-- A decoded number: NaN, an infinity, or (-1)^neg * m * 2^e. -/
inductive Val where
  | nan
  | inf (neg : Bool)
  | fin (neg : Bool) (m : Nat) (e : Int)
  deriving DecidableEq, Repr

def Val.zero : Val := .fin false 0 0

def Val.neg : Val → Val
  | .nan => .nan
  | .inf s => .inf (!s)
  | .fin s m e => .fin (!s) m e

def Val.abs : Val → Val
  | .nan => .nan
  | .inf _ => .inf false
  | .fin _ m e => .fin false m e

/-- 2^k for a non-negative k, and 1 below. -/
def pow2 (k : Int) : Nat := 2 ^ k.toNat

/-- A signed magnitude as an integer. -/
def signed (neg : Bool) (m : Nat) : Int := if neg then -(m : Int) else m

/-- The exact sum. A sum of zero is +0 unless both terms are -0 (R194, IEEE 754 round to nearest). -/
def Val.add : Val → Val → Val
  | .nan, _ => .nan
  | _, .nan => .nan
  | .inf s, .inf t => if s = t then .inf s else .nan
  | .inf s, _ => .inf s
  | _, .inf t => .inf t
  | .fin s m e, .fin t n f =>
    let g := if e < f then e else f
    let v := signed s (m * pow2 (e - g)) + signed t (n * pow2 (f - g))
    if v = 0 then .fin (s && t && m = 0 && n = 0) 0 0 else .fin (v < 0) v.natAbs g

/-- The exact product; an infinity times zero is NaN. -/
def Val.mul : Val → Val → Val
  | .nan, _ => .nan
  | _, .nan => .nan
  | .inf s, .inf t => .inf (s != t)
  | .inf s, .fin t n _ => if n = 0 then .nan else .inf (s != t)
  | .fin s m _, .inf t => if m = 0 then .nan else .inf (s != t)
  | .fin s m e, .fin t n f => .fin (s != t) (m * n) (e + f)

def Val.sub (a b : Val) : Val := a.add b.neg

/-- The exact sum of a list, from +0. -/
def Val.sum (l : List Val) : Val := l.foldl Val.add Val.zero

/-- a < b for numbers; false where either is NaN. -/
def Val.lt (a b : Val) : Bool :=
  match a, b with
  | .nan, _ => false
  | _, .nan => false
  | .inf s, .inf t => s && !t
  | .inf s, .fin _ _ _ => s
  | .fin _ _ _, .inf t => !t
  | .fin s m e, .fin t n f =>
    let g := if e < f then e else f
    signed s (m * pow2 (e - g)) < signed t (n * pow2 (f - g))

def Val.isNaN (a : Val) : Bool := a = .nan

/-- a = b for numbers (the zeros are equal); false where either is NaN. -/
def Val.eq (a b : Val) : Bool := !a.isNaN && !b.isNaN && !Val.lt a b && !Val.lt b a

/-- a / 2^s rounded to nearest, ties to even. -/
def rne (a s : Nat) : Nat :=
  let q := a / 2 ^ s
  let r := 2 * (a % 2 ^ s)
  if r < 2 ^ s then q else if 2 ^ s < r then q + 1 else q + q % 2

/-- A floating-point format (R190): exponent bits, mantissa bits, bias, and whether it has infinities; nan is its canonical NaN, and top
its largest finite encoding without sign. -/
structure FloatFmt where
  eb : Nat
  mb : Nat
  bias : Nat
  inf : Bool
  nan : Option Nat
  top : Nat

def fp32 : FloatFmt := ⟨8, 23, 127, true, some 0x7FC00000, 0x7F7FFFFF⟩
def bf16 : FloatFmt := ⟨8, 7, 127, true, some 0x7FC0, 0x7F7F⟩
def fp16 : FloatFmt := ⟨5, 10, 15, true, some 0x7E00, 0x7BFF⟩
def e4m3 : FloatFmt := ⟨4, 3, 7, false, some 0x7F, 0x7E⟩
def e5m2 : FloatFmt := ⟨5, 2, 15, true, some 0x7E, 0x7B⟩
def e3m2 : FloatFmt := ⟨3, 2, 3, false, none, 0x1F⟩
def e2m3 : FloatFmt := ⟨2, 3, 1, false, none, 0x1F⟩
def e2m1 : FloatFmt := ⟨2, 1, 1, false, none, 0x7⟩

/-- R191: the value of an encoding. -/
def FloatFmt.decode (f : FloatFmt) (w : Nat) : Val :=
  let s := bit w (f.eb + f.mb)
  let e := bits w f.mb f.eb
  let m := bits w 0 f.mb
  let mag := bits w 0 (f.eb + f.mb)
  if f.top < mag then
    if f.inf && mag = f.top + 1 then .inf s else .nan
  else if e = 0 then .fin s m (1 - (f.bias : Int) - f.mb)
  else .fin s (2 ^ f.mb + m) ((e : Int) - f.bias - f.mb)

/-- The encoding with a sign. -/
def FloatFmt.signed (f : FloatFmt) (s : Bool) (mag : Nat) : Nat := Bool.bit s * 2 ^ (f.eb + f.mb) + mag

/-- R192: the rounded encoding of a magnitude, before the overflow rule. -/
def FloatFmt.round (f : FloatFmt) (m : Nat) (e : Int) : Nat :=
  if m = 0 then 0
  else
    let emin : Int := 1 - (f.bias : Int)
    let ex := (Nat.log2 m : Int) + e
    let q := (if ex < emin then emin else ex) - f.mb
    let n := if q ≤ e then m * pow2 (e - q) else rne m (q - e).toNat
    if ex < emin then n else ((ex + f.bias).toNat - 1) * 2 ^ f.mb + n

/-- R192, R193: the encoding of a value. -/
def FloatFmt.encode (f : FloatFmt) (v : Val) : Nat :=
  match v with
  | .nan => f.nan.getD 0
  | .inf s => f.signed s (if f.inf then f.top + 1 else f.top)
  | .fin s m e =>
    let c := f.round m e
    f.signed s (if f.top < c then (if f.inf then f.top + 1 else f.top) else c)

/-- R194: the same with a magnitude below 2^-126 written as zero of its sign (FP32 and BF16). -/
def FloatFmt.encodeFlush (f : FloatFmt) (v : Val) : Nat :=
  let c := f.encode v
  if bits c f.mb f.eb = 0 then f.signed (bit c (f.eb + f.mb)) 0 else c

/-- An FP32 pattern as read by the arithmetic: a subnormal is zero of its sign (R194). -/
def f32 (w : Word) : Val :=
  let v := fp32.decode w.toNat
  if bits w.toNat 23 8 = 0 then .fin (bit w.toNat 31) 0 0 else v

/-- A value as an FP32 result (R194). -/
def toF32 (v : Val) : Word := BitVec.ofNat 32 (fp32.encodeFlush v)

def nan32 : Word := 0x7FC00000
def one32 : Word := 0x3F800000
def negInf32 : Word := 0xFF800000

def fadd (a b : Word) : Word := toF32 ((f32 a).add (f32 b))
def fsub (a b : Word) : Word := toF32 ((f32 a).sub (f32 b))
def fmul (a b : Word) : Word := toF32 ((f32 a).mul (f32 b))
def ffma (d a b : Word) : Word := toF32 ((f32 d).add ((f32 a).mul (f32 b)))
def flt (a b : Word) : Bool := (f32 a).lt (f32 b)
def feq (a b : Word) : Bool := (f32 a).eq (f32 b)
def isNaN32 (a : Word) : Bool := (f32 a).isNaN

/-- A number as a result: a NaN is the canonical one (R193), a subnormal is zero of its sign (R194). -/
def canon32 (w : Word) : Word := toF32 (f32 w)

/-- A pattern kept as it is, but for a NaN, whose payload goes (R193). -/
def canonNaN (w : Word) : Word := if isNaN32 w then nan32 else w

/-- The larger of two FP32 numbers, +0 above -0 (IEEE 754-2019 maximum); NaN where either is NaN. -/
def fmaxN (a b : Word) : Word :=
  if isNaN32 a || isNaN32 b then nan32
  else canon32 (if flt a b then b else if flt b a then a else if bit a.toNat 31 then b else a)

def fminN (a b : Word) : Word :=
  if isNaN32 a || isNaN32 b then nan32
  else canon32 (if flt a b then a else if flt b a then b else if bit a.toNat 31 then a else b)

/-- An integer rounded to nearest, ties to even, limited to a magnitude; NaN gives 0 (R192, R235). -/
def toInt (limit : Nat) (v : Val) : Int :=
  match v with
  | .nan => 0
  | .inf s => signed s limit
  | .fin s m e => signed s (Nat.min limit (if 0 ≤ e then m * pow2 e else rne m (-e).toNat))

def ofInt (i : Int) : Val := .fin (i < 0) i.natAbs 0

/-- The integer that n bits spell in two's complement. -/
def sext (n v : Nat) : Int := if 2 ^ (n - 1) ≤ v % 2 ^ n then ((v % 2 ^ n : Nat) : Int) - (2 ^ n : Nat) else ((v % 2 ^ n : Nat) : Int)

/-- The two's complement of an integer in n bits. -/
def wrapInt (n : Nat) (i : Int) : Nat := (i % ((2 ^ n : Nat) : Int)).toNat

/-! ### Formats by code (R190) -/

def floatOf : Nat → Option FloatFmt
  | 0 => some fp32
  | 1 => some bf16
  | 2 => some fp16
  | 3 => some e4m3
  | 4 => some e5m2
  | 5 => some e3m2
  | 6 => some e2m3
  | 7 => some e2m1
  | _ => none

/-- The width in bits of one element of formats 0 to 9, and of the elements of an MX format. -/
def elemBits : Nat → Nat
  | 0 => 32
  | 1 => 16
  | 2 => 16
  | 3 => 8
  | 4 => 8
  | 5 => 6
  | 6 => 6
  | 7 => 4
  | 8 => 8
  | 9 => 4
  | 10 => 8
  | 11 => 6
  | 12 => 4
  | 13 => 8
  | _ => 2

/-- R195: the element format of an MX format. -/
def mxElem : Nat → Nat
  | 10 => 3
  | 11 => 6
  | 12 => 7
  | _ => 8

/-- R195: emax of an MX format. -/
def mxEmax : Nat → Int
  | 10 => 8
  | 11 => 2
  | 12 => 2
  | _ => 0

/-- The value of one element; FP32 and BF16 subnormals read as zero (R194). -/
def elemDecode (code w : Nat) : Val :=
  match floatOf code with
  | some f =>
    if code ≤ 1 && bits w f.mb f.eb = 0 then .fin (bit w (f.eb + f.mb)) 0 0 else f.decode w
  | none => ofInt (sext (elemBits code) w)

/-- The encoding of one element (R192 to R194). -/
def elemEncode (code : Nat) (v : Val) : Nat :=
  match floatOf code with
  | some f => if code ≤ 1 then f.encodeFlush v else f.encode v
  | none => wrapInt (elemBits code) (toInt (2 ^ (elemBits code - 1) - 1) v)

/-- The number that a byte string spells, and a field of it. -/
def bitField (v b i : Nat) : Nat := bits v (b * i) b

/-- Elements packed b bits each, first lowest. -/
def packBits (b : Nat) : List Nat → Nat
  | [] => 0
  | w :: r => w % 2 ^ b + 2 ^ b * packBits b r

/-- R202: the bytes of a vector of n elements. -/
def vecBytes (code n : Nat) : Nat :=
  if code ≤ 9 then ceilDiv (n * elemBits code) 8
  else n * elemBits code / 8 + n / 32

/-- R195: the value of an MX scale byte. -/
def mxScale (b : Byte) : Val := if b = 0xFF then .nan else .fin false 1 ((b.toNat : Int) - 127)

/-- R195, R203: the exact values of a vector of n elements. -/
def vecDecode (code n : Nat) (b : List Byte) : List Val :=
  if code ≤ 9 then
    let v := leNat (slice b 0 (vecBytes code n))
    (List.range n).map fun i => elemDecode code (bitField v (elemBits code) i)
  else
    let eb := n * elemBits code / 8
    let v := leNat (slice b 0 eb)
    (List.range n).map fun i =>
      let x := elemDecode (mxElem code) (bitField v (elemBits code) i)
      let y := if code = 13 then x.mul (.fin false 1 (-6)) else x
      y.mul (mxScale (b.getD (eb + i / 32) 0))

/-- floor(log2) of a finite magnitude, for a value that is not zero (DEDUCED, assumption log 138). -/
def Val.ilog2 : Val → Int
  | .fin _ m e => (Nat.log2 m : Int) + e
  | _ => 128

/-- The value times 2^k. -/
def Val.scale (v : Val) (k : Int) : Val :=
  match v with
  | .fin s m e => .fin s m (e + k)
  | x => x

def Val.maxMag (l : List Val) : Val := l.foldl (fun a v => if a.lt v.abs then v.abs else a) Val.zero

/-- R196: the scale byte and the element encodings of a block of 32 values (DEDUCED, assumption log 138). -/
def mxBlock (code : Nat) (x : List Val) : Byte × List Nat :=
  if x.any Val.isNaN then (0xFF, x.map fun _ => 0)
  else
    match Val.maxMag x with
    | .fin _ 0 _ => (0, x.map fun _ => 0)
    | a =>
      let k := a.ilog2 - mxEmax code
      let k : Int := if k < -127 then -127 else if 127 < k then 127 else k
      (BitVec.ofInt 8 (k + 127),
        x.map fun v => elemEncode (mxElem code) (v.scale (if code = 13 then 6 - k else -k)))

/-- The list in blocks of n. -/
def chunks {α : Type} (n : Nat) : Nat → List α → List (List α)
  | 0, _ => []
  | k + 1, l => l.take n :: chunks n k (l.drop n)

/-- R192, R195, R203: a vector encoded in a format 0 to 13. -/
def vecEncode (code : Nat) (x : List Val) : List Byte :=
  if code ≤ 9 then
    leBytes (vecBytes code x.length) (packBits (elemBits code) (x.map (elemEncode code)))
  else
    let bs := (chunks 32 (x.length / 32) x).map (mxBlock code)
    leBytes (x.length * elemBits code / 8) (packBits (elemBits code) (bs.flatMap Prod.snd)) ++ bs.map Prod.fst

/-! ### Division, square root (R199) -/

/-- The quotient of magnitudes with enough bits below the last place for a correct rounding to FP32. -/
def divMag (m : Nat) (e : Int) (n : Nat) (f : Int) : Nat × Int :=
  let k := 32 + Nat.log2 n - Nat.log2 m + 32
  let t := m * 2 ^ k
  (2 * (t / n) + (if t % n = 0 then 0 else 1), e - f - k - 1)

def Val.div : Val → Val → Val
  | .nan, _ => .nan
  | _, .nan => .nan
  | .inf _, .inf _ => .nan
  | .inf s, .fin t _ _ => .inf (s != t)
  | .fin s _ _, .inf t => .fin (s != t) 0 0
  | .fin s m e, .fin t n f =>
    if n = 0 then (if m = 0 then .nan else .inf (s != t))
    else let q := divMag m e n f; .fin (s != t) q.1 q.2

def fdiv (a b : Word) : Word := toF32 ((f32 a).div (f32 b))

/-- The integer square root, built from bit k - 1 down. -/
def isqrt (n : Nat) : Nat → Nat → Nat
  | 0, r => r
  | k + 1, r => isqrt n k (if (r + 2 ^ k) * (r + 2 ^ k) ≤ n then r + 2 ^ k else r)

/-- The square root of a number that is not negative, with a sticky last bit. -/
def Val.sqrt : Val → Val
  | .fin s m e =>
    if m = 0 then .fin s 0 0
    else if s then .nan
    else
      let o := (e % 2).toNat
      let t := m * 2 ^ (o + 64)
      let r := isqrt t (Nat.log2 t / 2 + 1) 0
      .fin false (2 * r + (if r * r = t then 0 else 1)) ((e - o) / 2 - 33)
  | .inf false => .inf false
  | _ => .nan

def fsqrt (a : Word) : Word := toF32 (f32 a).sqrt

/-! ### ZK2 (R197 to R200) -/

/-- One level of fwht64: sums and differences at distance h. -/
def fwhtLevel (h : Nat) : Nat → List Word → List Word
  | 0, l => l
  | k + 1, l =>
    let a := l.take h
    let b := (l.drop h).take h
    List.zipWith fadd a b ++ List.zipWith fsub a b ++ fwhtLevel h k (l.drop (2 * h))

/-- R199: fwht64. -/
def fwht64 (l : List Word) : List Word :=
  fwhtLevel 32 1 (fwhtLevel 16 2 (fwhtLevel 8 4 (fwhtLevel 4 8 (fwhtLevel 2 16 (fwhtLevel 1 32 l)))))

/-- The sign of an FP32 pattern turned. -/
def fneg (w : Word) : Word := w ^^^ 0x80000000

/-- D of R197. -/
def zk2Sign (l : List Word) : List Word :=
  l.zipIdx.map fun p => if bit Config.zk2Signs p.2 then fneg p.1 else p.1

def eighth : Word := 0x3E000000

/-- The rotation of one group of 64 (R197, R199). -/
def rotate64 (l : List Word) : List Word := (fwht64 (zk2Sign l)).map (fmul · eighth)

/-- The inverse rotation of one group. -/
def unrotate64 (l : List Word) : List Word := zk2Sign ((fwht64 l).map (fmul · eighth))

/-- R71: groups of a head vector. -/
def zk2Groups (headDim : Nat) : Nat :=
  let g := ceilDiv headDim 64
  if g = 3 then 4 else g

/-- A head vector padded with zeros to whole groups. -/
def padGroups (headDim : Nat) (l : List Word) : List (List Word) :=
  let g := zk2Groups headDim
  chunks 64 g (l ++ List.replicate (64 * g - l.length) 0)

/-- The rotation, or its inverse, of a whole head vector; the inverse drops the padding. -/
def rotateVec (headDim : Nat) (l : List Word) : List Word := (padGroups headDim l).flatMap rotate64

def unrotateVec (headDim : Nat) (l : List Word) : List Word := ((padGroups headDim l).flatMap unrotate64).take headDim

/-- floorf of an FP32 value, as an integer. -/
def floorVal : Val → Int
  | .fin s m e => if 0 ≤ e then signed s (m * pow2 e) else (signed s m) / (pow2 (-e) : Nat)
  | _ => 0

/-- An FP32 pattern as FP8 E4M3, and back. -/
def toE4m3 (w : Word) : Byte := BitVec.ofNat 8 (e4m3.encode (f32 w))
def ofE4m3 (b : Byte) : Word := toF32 (e4m3.decode b.toNat)

/-- R199: zk2_encode of one group of 64 values: the scale byte and the 16 code bytes. -/
def zk2Encode (x : List Word) : Byte × List Byte :=
  if x.any isNaN32 then (0x7F, List.replicate 16 0)
  else
    let y := rotate64 x
    let ss := y.foldl (fun a v => fadd a (fmul v v)) 0
    let sc := toE4m3 (fmul (fsqrt (fmul ss 0x3C800000)) Config.zk2K)
    let sv := ofE4m3 sc
    let cs := y.map fun v =>
      if feq sv 0 then 2
      else
        let c := floorVal (f32 (fadd (fdiv v sv) 0x40000000))
        if c < 0 then 0 else if 3 < c then 3 else c.toNat
    (sc, leBytes 16 (packBits 2 cs))

/-- R198: the value of code i of a group. -/
def zk2Elem (codes : List Byte) (scale : Byte) (i : Nat) : Val :=
  let c := bitField (leNat codes) 2 i
  match e4m3.decode (scale.toNat % 128) with
  | .nan => .nan
  | s => s.mul (.fin (c < 2) (if c = 0 || c = 3 then 3 else 1) (-1))

/-- R198: a decoded group, in the rotated domain. -/
def zk2Decode (codes : List Byte) (scale : Byte) : List Word :=
  (List.range 64).map fun i => toF32 (zk2Elem codes scale i)

/-! ### Special functions (R209) -/

/-- Fixed point with 96 fractional bits: floor of ln 2 * 2^96. -/
def ln2Fix : Nat := 54916777467707473351141471128

/-- The sum of r^k / k! in fixed point, n terms after this one. -/
def expSeries (r : Nat) : Nat → Nat → Nat → Nat
  | 0, _, t => t
  | n + 1, k, t => t + expSeries r n (k + 1) (t * r / 2 ^ 96 / k)

/-- e^x for a finite x, as a magnitude and a power of two, with an error far below the bound of R209. -/
def expRef (neg : Bool) (m : Nat) (e : Int) : Nat × Int :=
  let x : Int := signed neg (if 0 ≤ e + 96 then m * pow2 (e + 96) else m / pow2 (-(e + 96)))
  let n := x / (ln2Fix : Int)
  let r := (x % (ln2Fix : Int)).toNat
  (expSeries r 32 1 (2 ^ 96), n - 96)

/-- a is a number, and |a - b| is at most b * 2^-k, for magnitudes. -/
def within (k : Nat) (a : Val) (b : Val) : Bool :=
  let d := (a.sub b).abs
  !a.isNaN && !(b.abs.scale (-(k : Int))).lt d

/-- The unit's own result where it keeps the bound of R209, and the rounded reference where it would not. -/
def bounded (ok : Bool) (unit : Word) (ref : Val) : Word := if ok then unit else toF32 ref

/-- R209: exp. -/
def fexp (w : Word) : Word :=
  match f32 w with
  | .nan => nan32
  | .inf s => if s then 0 else 0x7F800000
  | .fin s m e =>
    if flt 0x42B17217 w then 0x7F800000
    else if flt w 0xC2AEAC4F then 0
    else
      let r := expRef s m e
      let v := Val.fin false r.1 r.2
      bounded (within 22 (f32 (Config.expUnit w)) v) (Config.expUnit w) v

/-- R209: recip; a result that is not a normal number has no bound (the unit's own, as R193 and R194 let it be written). -/
def frecip (w : Word) : Word :=
  match f32 w with
  | .nan => nan32
  | .inf s => if s then 0x80000000 else 0
  | .fin s 0 _ => if s then 0xFF800000 else 0x7F800000
  | .fin s m e =>
    let q := divMag 1 0 m e
    let v := Val.fin s q.1 q.2
    if bits (toF32 v).toNat 23 8 = 0 then canon32 (Config.recipUnit w)
    else bounded (within 23 (f32 (Config.recipUnit w)) v) (Config.recipUnit w) v

/-- The series z + z^3/3 + z^5/5 + … in fixed point. -/
def atanhSeries (z2 : Nat) : Nat → Nat → Nat → Nat
  | 0, _, _ => 0
  | n + 1, k, t => t / k + atanhSeries z2 n (k + 2) (t * z2 / 2 ^ 96)

/-- ln of a positive number in fixed point with 96 fractional bits. -/
def logRef (m : Nat) (e : Int) : Int :=
  let l := Nat.log2 m
  let z := (m - 2 ^ l) * 2 ^ 96 / (m + 2 ^ l)
  (2 * atanhSeries (z * z / 2 ^ 96) 40 1 z : Nat) + ((l : Int) + e) * (ln2Fix : Int)

/-- R209: log. -/
def flog (w : Word) : Word :=
  match f32 w with
  | .nan => nan32
  | .inf s => if s then nan32 else 0x7F800000
  | .fin _ 0 _ => negInf32
  | .fin true _ _ => nan32
  | .fin false m e =>
    let r := logRef m e
    let v := Val.fin (r < 0) r.natAbs (-96)
    let d := ((f32 (Config.logUnit w)).sub v).abs
    let near := !flt w 0x3F000000 && !flt 0x40000000 w
    bounded (if near then !isNaN32 (Config.logUnit w) && !(Val.fin false 1 (-22)).lt d else within 22 (f32 (Config.logUnit w)) v)
      (Config.logUnit w) v

/-! ### The array (R205) -/

/-- R205: one group: the exact sum of products, times its scales exactly, rounded once and then added with one rounding. -/
def groupAcc (acc : Word) (scale : Val) (ps : List (Val × Val)) : Word :=
  fadd acc (toF32 (scale.mul (Val.sum (ps.map fun p => p.1.mul p.2))))

end Sys2Proof
end

