-- ==== Sys2Proof/Machine/State.lean ====
section
/-! DEFINITION. The state of the chip as plain data: every register, table, queue, buffer and pin that the spec names,
the queue of commands that wait (pending), and State.reset. Each structure names the rules of spec/ that give its fields; the
default of a numbered collection is what an entry holds that nothing has written. -/

namespace Sys2Proof.Machine

open Sys2Proof

/-- Why a step stops. No rule of spec/ stops the block, so the type has no constructor. -/
inductive Fault : Type
  deriving DecidableEq, Repr

/-- Why a command has no meaning. -/
inductive Refusal where
  /-- Raised by an arm of exec whose command has no meaning yet. Safe: the model stops where the chip goes on. -/
  | notModelled (mnemonic : String)
  deriving DecidableEq, Repr

/-! ### Homes, pages and page sets (R74 to R79, R128, R132, R143 to R146) -/

/-- KIND of a location word (R76). -/
inductive LocKind where
  | empty | staging | page
  deriving DecidableEq, Repr

/-- A location word (R76): tier 0 DRAM, 1 host region, 2 flash; frame in units of 64 KiB, or the first LFN. For a host
region frame is 2^24 * region + frame number (DEDUCED, assumption log 12). -/
structure Loc where
  kind : LocKind
  tier : Nat
  frame : Nat
  deriving DecidableEq, Repr

/-- The word of a layer that has not been written, and of an object without a home. -/
def Loc.none : Loc := ⟨.empty, 0, 0⟩

/-- An object in DRAM (R138): its length in frames of 64 KiB, its bytes (bytes past the list are zero), and its poisoned 256-byte
sectors (R441). -/
structure DramObj where
  frames : Nat
  data : List Byte
  bad : List Nat
  deriving DecidableEq, Repr

/-- A tentative copy in DRAM (R129, R149, R152): its frame, whether its read has ended, the second in which it did, and the sequence whose
restore (rather than prefetch or a demand read) made it. -/
structure Tent where
  frame : Nat
  complete : Bool
  doneS : Nat
  restore : Option Nat
  deriving DecidableEq, Repr

/-- A superseded copy awaiting the pins of the epoch before its flip (R92). -/
structure OldCopy where
  layer : Nat
  loc : Loc
  epoch : Bool
  deriving DecidableEq, Repr

/-- A page set: the descriptor of R75 and the placement word of R132. -/
structure PageSet where
  model : Nat
  index : Nat
  dir : Bool
  full : Bool
  pinEpoch : Bool
  releasing : Bool
  layersFlushed : Nat
  refs : Nat
  pins0 : Nat
  pins1 : Nat
  digest : BitVec 128
  tokens : List Word
  loc : Map Loc
  heat : Nat
  touch : Nat
  lastAdd : Nat
  moving : Bool
  tents : Map Tent
  old : List OldCopy
  /-- The model's own: when each layer's staging page was full, by the use counter (R82). -/
  staged : Map Nat
  deriving DecidableEq, Repr

/-- A page-table entry (R77). -/
structure PtEntry where
  psn : Nat
  shared : Bool
  deriving DecidableEq, Repr

/-! ### Sequences (R83, R87, R88, R90, R133) -/

/-- The states of R90 other than FREE: an index that is FREE has no Seq. -/
inductive SeqState where
  | active | parking | rest | restoring | swapped
  deriving DecidableEq, Repr

/-- A sequence that is not FREE: its hot-table entry (R88, R133) or, at REST, its rest frame (R144). chunks and tailDir are the DRAM addresses, in
units of 4 KiB, of its page-table chunks (R77) and of the slot that holds the TAIL_DIR array and the token tail (R79)
(DESIGN CHOICE, assumption log 155). -/
structure Seq where
  gen : Nat
  state : SeqState
  model : Nat
  homeQ : Nat
  length : Nat
  reservedLen : Nat
  stepBase : Nat
  sharedSets : Nat
  lastUse : Nat
  parkWait : Nat
  pt : List PtEntry
  tails : Map Loc
  tokenTail : List Word
  layerDone : BitVec 256
  layerRsv : BitVec 256
  parkTime : Nat
  predTime : Nat
  holdEnd : Nat
  specPages : Nat
  predicted : Bool
  hinted : Bool
  restored : Bool
  restRef : Loc
  restSeq : Nat
  restTent : Option Tent
  tailTents : Map Tent
  stuck : Bool
  chunks : List Nat
  tailDir : Option Nat
  deriving DecidableEq, Repr

/-! ### Prefix directory (R103, R104) and digest chains (R101) -/

/-- A valid directory entry; an entry with VALID clear is absent from the map. -/
structure DirEntry where
  digest : BitVec 128
  psn : Nat
  index : Nat
  model : Nat
  held : Bool
  retain : Bool
  age : Nat
  deriving DecidableEq, Repr

/-- A chain of digests that waits for, or holds, a SHAKE256 core: a lookup of the command ref (R111) at set index k. -/
structure Chain where
  ref : CmdRef
  k : Nat
  hMax : Nat
  model : Nat
  prev : BitVec 128
  tokens : List Word
  deriving DecidableEq, Repr

/-! ### Jobs, models, kernels (R37, R39, R63, R237) -/

inductive JobState where
  | free | idle | bound | faulted
  deriving DecidableEq, Repr

/-- What the teardown of a job reports (R263, R366): the command, the fault (1 kernel, 2 tile error), its code, word, IMM and tile. -/
structure JobFault where
  slot : Nat
  index : Nat
  ring : Nat
  tag : Nat
  opcode : Nat
  fault : Nat
  code : Nat
  word : Nat
  imm : Nat
  tile : Nat
  deriving DecidableEq, Repr

/-- A job (R37, R39). -/
structure Job where
  state : JobState
  rings : Nat
  desc : Nat
  fault : Option JobFault
  deriving DecidableEq, Repr

structure Model where
  tag : Nat
  layers : Nat
  kvHeads : Nat
  qPerKv : Nat
  headDim : Nat
  pageKib : Nat
  cacheFormat : Nat
  posKernel : Nat
  scoreKernel : Nat
  scale : Word
  deriving DecidableEq, Repr

structure Kernel where
  kind : Nat
  code : List Word
  data : List Byte
  entry : Nat
  stepLimit : Nat
  imageBytes : Nat
  unloading : Bool
  deriving DecidableEq, Repr

/-! ### Commands in flight (R41, R47 to R58, R259) -/

/-- What a fetched command waits for before or after its commit request. -/
inductive Wait where
  | hotEntry (victim : Nat)
  | alloc
  | digests
  | counter
  | regionMoves
  | kernelUsers
  | units
  | unbindDrain
  | remoteData
  | mirrorFlag
  | migrateData
  | migrateFlag
  | restRead
  | specCopies
  /-- A descriptor segment outside DRAM (R147). -/
  | segment
  /-- Move-buffer space for a streamed page (R142). -/
  | moveBuf
  deriving DecidableEq, Repr

/-- Stages of R47: fetched, running (or waiting), commit requested, held (R259). A rejection is staged with the status it will carry. -/
inductive Stage where
  | fetched
  | waiting (w : Wait)
  | requested
  | held
  | rejected (status : Nat)
  deriving DecidableEq, Repr

/-- Where an attention element stands: it waits for a hot-table entry (R89), for pages (R95), for its extent (R171), for
merge or staging space (R183), its units run, or it has ended (its status says how). -/
inductive ElemPhase where
  | hot (victim : Option Nat)
  | alloc | extent | space | running | done
  deriving DecidableEq, Repr

/-- The statistics of one row (R183, R185): m, l, the two accumulators as FP32 patterns, whether a visible score is NaN or +∞, and
whether the value of a visible key holds a NaN (R186). -/
structure RowAcc where
  m : Word
  l : Word
  z : List Word
  f : List Word
  nan : Bool
  nanValue : Bool
  deriving DecidableEq, Repr

/-- The partial that a unit leaves (R183): its head group and query tile, and its rows. -/
structure Partial where
  head0 : Nat
  tile : Nat
  rows : List RowAcc
  deriving DecidableEq, Repr

/-- The message group of an element with OUT_REMOTE (R166, R337): its queue pair and number, whether its flag was issued, whether it failed. -/
structure Remote where
  qp : Nat
  group : Nat
  flagged : Bool
  failed : Bool
  deriving DecidableEq, Repr

/-- One element of an attention command (R163) as it runs. -/
structure Elem where
  handle : Nat
  pos : Nat
  count : Nat
  flags : Nat
  window : Nat
  qIn : Nat
  kvIn : Nat
  tokens : Nat
  out : Nat
  lseOut : Nat
  mask : Nat
  status : Nat
  extent : Nat
  phase : ElemPhase
  ids : List Word
  queries : List (List Word)
  keys : List (List Word)
  values : List (List Word)
  stored : List (List Byte × List Byte)
  maskBytes : List Byte
  ht : Nat
  pt : Nat
  unitsLeft : Nat
  partials : List Partial
  outputs : Map (List Byte)
  lse : Map Word
  newFrames : List Nat
  outFrames : List Nat
  tailFrame : Nat
  merge : Nat
  touched : List (Nat × Nat)
  remote : Option Remote
  held : Bool
  /-- The query head vectors that the position kernel has returned, by output index (R173, R185). -/
  called : Map (List Word)
  /-- The unit record under which each output row is sent (R258). -/
  recs : Map Nat
  /-- The cause of R156 under which the element waits in the dispatcher. -/
  late : Option Nat
  deriving DecidableEq, Repr

/-- The objects that move (R128, R134). -/
inductive MoveObj where
  | page (psn layer : Nat)
  | tail (seq layer : Nat)
  | rest (seq : Nat)
  | segment (n : Nat)
  /-- A page (of a set, or a tail page of a sequence) that waits to pass through the move buffers to a unit (R129, R142). -/
  | transit (unit source layer : Nat) (tail : Bool)
  deriving DecidableEq, Repr

/-- What the start of a command leaves for its commit stage. -/
inductive Plan where
  | none
  | lookup (psns entries : List Nat) (verifyFails index hMax : Nat) (done : Bool)
  | copy (lengthAtStart index : Nat) (tails : Map Loc)
  | publish (found : List (Nat × Nat))
  | bytes (data : List Byte)
  | attention (chunk : Nat) (elems : List Elem)
  | kernelRun (outs : Map (List Byte)) (left : Nat) (frames : List Nat)
  | region (moved : Nat) (failed : List MoveObj)
  | migrate (qp group phase : Nat) (failed : Bool)
  | waitEnd (timedOut : Bool) (value : Nat)
  | unbind (dropped head : Nat)
  /-- kernel_unload has marked its kernel (R220). -/
  | unload
  /-- seq_resume holds a hot-table entry for the sequence whose rest frame it reads (R30). -/
  | resume
  deriving DecidableEq, Repr

/-- A command of the fetch window (R41). pins are the page sets it pins with the epoch of each pin (R78, R92); rsv are the
reservations it holds, as sequence index and layer (R55, R84); rerun says that an error in device DRAM has killed it once (R441);
kernels are those of the model that an attention command started under (R220); slots and descs are the 4 KiB table slots and the descriptor
slots promised to it (DESIGN CHOICE, assumption log 155); cause is the cause of R156 under which it waits for reads. -/
structure Flight where
  index : Nat
  word : List Byte
  snare : Bool
  order : Nat
  stage : Stage
  plan : Plan
  pins : List (Nat × Bool)
  seqs : List Nat
  startLen : Nat
  rsv : List (Nat × Nat)
  rerun : Bool
  kernels : List Nat
  slots : Nat
  descs : Nat
  cause : Option Nat
  deriving DecidableEq, Repr

/-- A submission queue slot with its register block (R40, R44, R45, R246). -/
structure Slot where
  bound : Bool
  ring : Nat
  job : Nat
  base : Nat
  entriesLog2 : Nat
  eq : Nat
  head : Nat
  tail : Nat
  doneMask : BitVec 64
  dbDrop : Nat
  csqEn : Bool
  draining : Bool
  snare : Bool
  stopped : Bool
  window : List Flight
  deriving DecidableEq, Repr

def Slot.reset : Slot := ⟨false, 0, 0, 0, 0, 0, 0, 0, 0, 0, false, false, false, false, []⟩

/-- Slot 0 of a new partition: job 0's ring, EN clear (R35, R38). -/
def Slot.reset0 : Slot := { Slot.reset with bound := true }

/-! ### Event queues (R33, R362 to R368) -/

/-- An event queue: its registers, its overflow ring (records without their phase), the unsignalled count of R368, and the records of no command
that wait for room in the overflow ring (R33). -/
structure EventQueue where
  base : Nat
  entriesLog2 : Nat
  vector : Nat
  coalCount : Nat
  en : Bool
  coalUs : Nat
  arm : Bool
  autoArm : Bool
  head : Nat
  tail : Nat
  phase : Bool
  headErr : Bool
  ovfFull : Bool
  ovfCount : BitVec 32
  eseq : Nat
  unsignalled : Nat
  timerDue : Bool
  overflow : List (List Byte)
  waiting : List (List Byte)
  deriving DecidableEq, Repr

def EventQueue.reset : EventQueue :=
  ⟨0, 0, 0, 1, false, 0, true, true, 0, 0, true, false, false, 0, 0, 0, false, [], []⟩

/-- An MSI-X vector: its mask and pending bit, and its table entry's address and data (R352, R368). -/
structure Vector16 where
  masked : Bool
  pending : Bool
  addr : Nat
  data : Nat
  deriving DecidableEq, Repr

/-- PRESUMED, assumption log 37. -/
def Vector16.reset : Vector16 := ⟨true, false, 0, 0⟩

/-! ### Units and tiles (R179 to R185, R240 to R259) -/

/-- Where a unit stands. -/
inductive UnitPlace where
  | ready
  | steal (group : Nat)
  | next (tile : Nat)
  | running (tile : Nat)
  | yielded
  deriving DecidableEq, Repr

/-- One call of a tile-code kernel (R173, R174, R229). A register that is not listed holds a free value (R233): base is the number of the
first of them. -/
structure KCall where
  base : Nat
  scalars : Map Word
  vectors : Map (List Word)
  preds : Map (BitVec 64)
  window : Map Byte
  deriving DecidableEq, Repr

/-- What a call was made for. -/
inductive CallFor where
  | key (token head : Nat)
  | query (row head : Nat)
  | score (row head block : Nat)
  | perInst
  deriving DecidableEq, Repr

/-- The tile-code machine of a tile that runs a kernel: the call in progress, its word index and step count, the calls that
wait and the results of those that ended. -/
structure KMachine where
  kernel : Nat
  active : Bool
  what : CallFor
  pc : Nat
  steps : Nat
  regs : KCall
  queue : List (CallFor × KCall)
  results : List (CallFor × KCall)
  deriving DecidableEq, Repr

inductive UnitKind where
  | append | attend | kernel
  deriving DecidableEq, Repr

/-- A work unit (R179, R180, R229, R240). -/
structure Unit where
  part : Nat
  slot : Nat
  index : Nat
  elem : Nat
  kind : UnitKind
  quad : Nat
  head0 : Nat
  heads : Nat
  row0 : Nat
  rows : Nat
  tileNo : Nat
  keyLo : Nat
  keyHi : Nat
  gang : Nat
  snare : Bool
  bestEffort : Bool
  place : UnitPlace
  order : Nat
  hasYielded : Bool
  hasEvicted : Bool
  reads : List Nat
  kernel : Option KMachine
  stage : Nat
  gen : Nat
  startedAt : Nat
  /-- The hc of this run that the partition's virtual time has counted (R249, R253). -/
  counted : Nat
  /-- The key blocks' pages as the walk at the start of this run found them, by set index (R78, R189). -/
  src : Map (LocKind × List Byte)
  /-- The unit has caused an eviction (R253). -/
  caused : Bool
  /-- What the reads of the unit's first run were charged: page-cache hits, DRAM reads, DRAM writes (R253, R271). -/
  took : Option (Nat × Nat × Nat)
  deriving DecidableEq, Repr

/-- A tile (R241, R449): its two places, and its error history. -/
structure Tile where
  running : Option Nat
  next : Option Nat
  retired : Bool
  /-- The seconds of its corrected errors in the last 24 h. -/
  corrected : List Nat
  deriving DecidableEq, Repr

def Tile.reset : Tile := ⟨none, none, false, []⟩

/-! ### Moves and reads (R139, R142, R152, R157, R295) -/

/-- The triggers of R134, the flush of R81 and the rest-frame write of R145. -/
inductive MoveWhy where
  | flush | parking | cooling | pressure | preempt | promotion | descriptor | region | transit
  deriving DecidableEq, Repr

/-- Steps of R139: selected, waiting for move-buffer space (R142), being read, being written, and written (step 3 is
final). -/
inductive MoveStep where
  | selected | waitBuffer | reading | programming | written
  deriving DecidableEq, Repr

structure Move where
  obj : MoveObj
  why : MoveWhy
  step : MoveStep
  src : Loc
  dst : Loc
  bytes : Nat
  data : List Byte
  pin : Option (Nat × Bool)
  group : Nat
  cmd : Option CmdRef
  bad : List Nat
  /-- The retention age that came with a migrated page (R297, R343). -/
  srcAge : Nat
  deriving DecidableEq, Repr

/-- What a host or flash read is for. -/
inductive ReadFor where
  | fetch (slot : Nat) (indices : List Nat)
  | move (id : Nat)
  | tentative (psn layer : Nat)
  | tailTentative (seq layer : Nat)
  | restFrame (seq : Nat)
  | copyOut (place : Place) (refresh : Bool)
  | stream (psn layer : Nat)
  | streamTail (seq layer : Nat)
  /-- The page that a remote read streams (R129, R339). -/
  | serve (qp group psn layer : Nat)
  deriving DecidableEq, Repr

/-- A read in progress: the host address and length, or the LFN, what waits for it, and whether it has been retried. places are the LFNs of a
flash read with the places to which the read was issued (R287); none while it waits for a map segment (R282). -/
structure ReadReq where
  part : Nat
  what : ReadFor
  addr : Nat
  bytes : Nat
  retried : Bool
  red : Bool
  unit : Option Nat
  places : List (Nat × Place)
  deriving DecidableEq, Repr

/-! ### Host regions, buffers, fabric (R154, R323 to R345) -/

/-- DESIGN CHOICE, assumption log 108. -/
structure Region where
  base : Nat
  bytes : Nat
  removing : Bool
  alloc : Map DramObj
  deriving DecidableEq, Repr

/-- What an accepted migration header has reserved (R342): the model, LENGTH, the home quadrant, and the DRAM frames of the tail pages (by
layer) and of the pages (set by set, layer by layer). -/
structure Migration where
  model : Nat
  length : Nat
  home : Nat
  tails : List Nat
  pages : List Nat
  deriving DecidableEq, Repr

/-- A buffer-table entry (R333): what the host wrote, GEN, VALID, the bytes that a SEQ_IN or RECV buffer holds, the order of posting, the
queue pair and group that wrote a SEQ_IN buffer first (R338), and the migration under way (R342). -/
structure Buffer where
  fields : BufFields
  gen : Nat
  valid : Bool
  data : Map Byte
  posted : Nat
  group : Option (Nat × Nat)
  migration : Option Migration
  deriving DecidableEq, Repr

def Buffer.reset : Buffer := ⟨⟨0, 0, 0, false, false, 0, 0, 0, 0⟩, 0, false, [], 0, none, none⟩

inductive QpState where
  | reset | connecting | ready | draining | error
  deriving DecidableEq, Repr

/-- A packet that was sent and is not acknowledged (R329, R330): which peer (0 PEER, 1 MIRROR) and how often it was resent. -/
structure Sent where
  pk : Packet
  peer : Nat
  retries : Nat
  cmd : Option CmdRef
  unitGen : Nat
  deriving DecidableEq, Repr

/-- One direction pair of a connection with one peer: the counters of R328 and the windows of R329. -/
structure Flow where
  nextSeq : Nat
  limit : BitVec 32
  used : BitVec 32
  grantLimit : BitVec 32
  freed : BitVec 32
  sentLimit : BitVec 32
  expected : Nat
  bitmap : List Nat
  unackedRx : Nat
  connectSeen : Bool
  connectAcked : Bool
  peerEpoch : Nat
  deriving DecidableEq, Repr

def Flow.reset : Flow := ⟨0, 0, 0, 0, 0, 0, 0, [], 0, false, false, 0⟩

/-- A remote read that waits for its page (R129, R339): who asked, the packets' group, the page, the bytes, and the unit record to answer. It
waits for a tentative copy or, streamed, for a read of its own. -/
structure Serving where
  peer : Nat
  group : Nat
  psn : Nat
  layer : Nat
  buf : Nat
  offset : Nat
  bytes : Nat
  unitRec : Nat
  unitGen : Nat
  streamed : Bool
  deriving DecidableEq, Repr

/-- A queue pair (R323, R324): its attributes, its connection, and its packets. -/
structure Qp where
  state : QpState
  peerChip : Nat
  peerPart : Nat
  peerQp : Nat
  mirChip : Nat
  mirPart : Nat
  mirQp : Nat
  tc : Nat
  mirrored : Bool
  yellowIn : Bool
  path : Nat
  rdOk : Bool
  eq : Nat
  grant : Nat
  epoch : Nat
  lastEpoch : Nat
  flows : Map Flow
  queue : List (Packet × Nat × Option CmdRef)
  sent : List Sent
  landing : List Packet
  parked : List Packet
  resident : Bool
  lastUse : Nat
  nextGroup : Nat
  readPins : List (Nat × Bool × Nat)
  serving : List Serving
  /-- The TAG of the command that a group number was last given to. -/
  tags : Map Nat
  deriving DecidableEq, Repr

def Qp.reset : Qp :=
  ⟨.reset, 0, 0, 0, 0, 0, 0, 1, false, false, 0, false, 0, 16, 0, 0, [], [], [], [], [], false, 0, 0, [], [], []⟩

/-- The two buckets of a two-rate three-colour marker (R347, R369), in bits. -/
structure Policer where
  cir : Nat
  pir : Nat
  cbs : Nat
  pbs : Nat
  aware : Bool
  tc : Nat
  tp : Nat
  deriving DecidableEq, Repr

/-- DESIGN CHOICE, assumption log 38. -/
def Policer.reset : Policer := ⟨0, 0, 64, 64, false, 64 * 8192, 64 * 8192⟩

/-! ### Accounting (R265 to R270) -/

structure Acct where
  tileHc : Nat
  snareHc : Nat
  lostHc : Nat
  units : Nat
  committed : Nat
  killed : Nat
  t0 : Nat
  t1Rd : Nat
  t1Wr : Nat
  t2Rd : Nat
  t2Wr : Nat
  t3Rd : Nat
  t3Wr : Nat
  pcieIn : Nat
  pcieOut : Nat
  fabricTx : Nat
  fabricRx : Nat
  energyMj : Nat
  energyPj : Nat
  chargedPj : Nat
  tilePjWindow : Nat
  windows : BitVec 32
  overSlice : BitVec 32
  lastOver : Bool
  deriving DecidableEq, Repr

def Acct.reset : Acct := ⟨0, 0, 0, 0, 0, 0, 0, 0, 0, 0, 0, 0, 0, 0, 0, 0, 0, 0, 0, 0, 0, 0, 0, false⟩

/-! ### Function state (R352, R372 to R376) -/

/-- A disable in progress (R373): its cause, whether it is graceful, and its counts. -/
structure Disable where
  cause : Nat
  graceful : Bool
  aborted : Nat
  committed : Nat
  writesDropped : Nat
  recordsDropped : Nat
  records : List (Nat × List Byte)
  /-- The cause came before STAGE was READY (R379). -/
  early : Bool
  /-- No QUIESCE record is posted (R376). -/
  silent : Bool
  deriving DecidableEq, Repr

/-- The PCIe side of a virtual function. -/
structure Func where
  bme : Bool
  d3 : Bool
  fenced : Bool
  disable : Option Disable
  pushDrops : Nat
  vectors : Map Vector16
  deriving DecidableEq, Repr

/-- PRESUMED, assumption log 37. -/
def Func.reset : Func := ⟨false, false, false, none, 0, []⟩

/-- The reservations of a command that went back to its ring unfetched (R43, R56). -/
structure Kept where
  job : Nat
  ring : Nat
  index : Nat
  rsv : List (Nat × Nat)
  deriving DecidableEq, Repr

/-! ### A partition (R15, R35, R397, R406) -/

/-- The grants and identity of a partition, as Oxsis seals them (R397, R398, R406). -/
structure Grant where
  priority : Nat
  pushMib : Nat
  sliceW : Nat
  flashMask : Nat
  ways : Nat
  sets : List Nat
  tenantKey : List Byte
  partitionId : Nat
  salt : BitVec 128
  createdS : Nat
  deriving DecidableEq, Repr

def Grant.none : Grant := ⟨0, 0, 0, 0, 0, [], [], 0, 0, 0⟩

/-- The counters of the prefix block (R122) and of the flash block (R307) and the fabric block (R351). -/
structure PartCounters where
  lookups : BitVec 32
  adopted : BitVec 32
  verifyFail : BitVec 32
  refused : BitVec 32
  evicted : BitVec 32
  fgColl : BitVec 32
  throttleUs : BitVec 32
  retry : BitVec 32
  refresh : BitVec 32
  uncorr : BitVec 32
  discard : BitVec 32
  retx : BitVec 32
  genDrop : BitVec 32
  stale : BitVec 32
  violTx : BitVec 32
  violRx : BitVec 32
  qpErr : BitVec 32
  noRecv : BitVec 32
  badPkt : BitVec 32
  deriving DecidableEq, Repr

def PartCounters.reset : PartCounters :=
  ⟨0, 0, 0, 0, 0, 0, 0, 0, 0, 0, 0, 0, 0, 0, 0, 0, 0, 0, 0⟩

/-- The writable registers of a partition's blocks (HUB_PFX_CFG, MEM_PLC_CFG, MEM_PLC_SPEC, MEM_PLC_WATER, LNK_P_QPT_*, LNK_P_QPC_*). -/
structure PartRegs where
  maxAge : Nat
  halfLife : Nat
  parkHalfLife : Nat
  demoteHeat : Nat
  restoreLead : Nat
  hold : Nat
  specEn : Bool
  prefetchDepth : Nat
  low : Nat
  high : Nat
  qptBase : Nat
  qptSize : Nat
  qpcPeer : Nat
  qpcMirror : Nat
  qpcAttr : Nat
  qpcIndex : Nat
  qpcBusy : Bool
  deriving DecidableEq, Repr

def PartRegs.reset : PartRegs :=
  ⟨0, 8, 1, 0x1000, 2, 30, true, 2, 4, 8, 0, 0, 0, 0, 1 + 16 * 2 ^ 16, 0, false⟩

/-- A logical frame of the map (R280). -/
structure MapEntry where
  place : Place
  valid : Bool
  time : Nat
  tempC : Int
  retry : Nat
  deriving DecidableEq, Repr

/-- A run of LFNs that an object on flash occupies, with its bytes as stored (R278). -/
structure FlashObj where
  frames : Nat
  kind : Nat
  obj : Nat
  data : List Byte
  bad : List Nat
  deriving DecidableEq, Repr

/-- The partition's part of the flash manager's tables: map, objects, free LFN runs, discard record, segments and MAPFULL (R278 to R282, R290). -/
structure PartFlash where
  map : Map MapEntry
  objs : Map FlashObj
  lowestLfn : Nat
  freeRuns : List (Nat × Nat)
  discards : List (Place × Nat)
  hostSegs : List Nat
  lostSegs : List Nat
  segUse : Map Nat
  mapFull : Bool
  deriving DecidableEq, Repr

def PartFlash.reset : PartFlash := ⟨[], [], 1, [], [], [], [], [], false⟩

structure Part where
  live : Bool
  epoch : Nat
  grant : Grant
  jobs : Map Job
  slots : Map Slot
  eqs : Map EventQueue
  models : Map Model
  kernels : Map Kernel
  seqs : Map Seq
  gens : Map Nat
  sets : Map PageSet
  dir : Map DirEntry
  /-- The descriptor segments that exist, with their homes (R146). -/
  segments : Map Loc
  /-- Frames of the roots and chunks of the segment table (R146) and of the rest table (R143). -/
  segRoot : Option Nat
  segChunks : Map Nat
  restRoot : Option Nat
  restChunks : Map Nat
  /-- Frames that are cut into 4 KiB slots for page-table chunks, TAIL_DIR arrays and token tails (DESIGN CHOICE, assumption log 155). -/
  slabs : List Nat
  dram : Map DramObj
  regions : Map Region
  moves : Map Move
  nextMove : Nat
  restSeq : Nat
  restTable : Map Loc
  counters : Map (BitVec 64)
  push : Map Byte
  regs : PartRegs
  cnt : PartCounters
  stalls : Map (BitVec 32)
  stallUs : Map (BitVec 32)
  acct : Acct
  flash : PartFlash
  buffers : Map Buffer
  qps : Map Qp
  egress : Policer
  ingress : Policer
  evictions : BitVec 32
  vtime : Map Rat
  /-- R249: the hc of the current 64-hc interval that a quadrant's virtual time has already counted. -/
  vdone : Map Nat
  debugUntil : Option Nat
  profileUntil : Option Nat
  consentSeq : Nat
  consentEnd : Nat
  consentDigest : List Byte
  snapVf : List Byte
  snapPf : List Byte
  kept : List Kept
  /-- Tail homes of closed sequences that commands in flight still name (R91), by sequence index. -/
  orphans : List (Nat × Loc)
  deriving DecidableEq, Repr

/-- A partition that does not exist: nothing in it; its epoch is kept (R398, R399); the first is 1 (R406: only EPOCH is non-zero). -/
def Part.absent : Part where
  live := false
  epoch := 1
  grant := Grant.none
  jobs := []
  slots := []
  eqs := []
  models := []
  kernels := []
  seqs := []
  gens := []
  sets := []
  dir := []
  segments := []
  segRoot := none
  segChunks := []
  restRoot := none
  restChunks := []
  slabs := []
  dram := []
  regions := []
  moves := []
  nextMove := 0
  restSeq := 0
  restTable := []
  counters := []
  push := []
  regs := PartRegs.reset
  cnt := PartCounters.reset
  stalls := []
  stallUs := []
  acct := Acct.reset
  flash := PartFlash.reset
  buffers := []
  qps := []
  egress := Policer.reset
  ingress := Policer.reset
  evictions := 0
  vtime := []
  vdone := []
  debugUntil := none
  profileUntil := none
  consentSeq := 0
  consentEnd := 0
  consentDigest := []
  snapVf := []
  snapPf := []
  kept := []
  orphans := []

/-! ### Scheduler (R241 to R254) -/

structure Sched where
  classMode : Bool
  beMin : Nat
  snareTiles : Nat
  evictWait : Nat
  yieldWait : Nat
  units : Map Unit
  nextUnit : Nat
  tiles : Map Tile
  steal : Map (List Nat)
  pointer : Map Nat
  generations : Map Nat
  cores : Map Chain
  chains : List Chain
  lastPart : Nat
  order : Nat
  deriving DecidableEq, Repr

def Sched.reset : Sched :=
  ⟨false, 0x10, 0x20, 0x0C80, 0x1000, [], 1, [], [], [], [], [], [], 0, 0⟩

/-! ### Flash channels (R272 to R305) -/

inductive BlockState where
  | free | opened | full | victim | erasing | retired
  deriving DecidableEq, Repr

/-- A block of the block table (R285); unread are its pages that a copy could not read (R299). -/
structure Block where
  state : BlockState
  eraseCnt : Nat
  nextPage : Nat
  forCopies : Bool
  unread : List Nat
  deriving DecidableEq, Repr

def Block.reset : Block := ⟨.free, 0, 0, false, []⟩

/-- A frame of the block could not be copied out (R299). -/
def Block.stuck (b : Block) : Bool := b.unread ≠ []

/-- The header of a programmed frame (R276) with its bytes; bad are its poisoned sectors (R453). -/
structure Frame where
  kind : Nat
  part : Nat
  isSeal : Bool
  isCseal : Bool
  copy : Bool
  epoch : Nat
  lfn : Nat
  gpos : Nat
  glen : Nat
  progTemp : Int
  wseq : Nat
  vseq : Nat
  group : Nat
  cgroup : Nat
  progTime : Nat
  srcAge : Nat
  eraseCnt : Nat
  obj : Nat
  data : List Byte
  bad : List Nat
  passed : Bool
  torn : Bool
  deriving DecidableEq, Repr

/-- A group being programmed (R283): the frames not yet issued with their dies, the places that have not reported, the places used,
what a copy group copies (LFN, from, whether it refreshes), and the move (partition, number) that its seal completes. frames keeps the whole group for
a second try (R299); isDiscard marks a discard record (R290), whose entries are discards. -/
structure Group where
  channel : Nat
  part : Nat
  frames : List (Nat × Frame)
  todo : List (Nat × Frame)
  waiting : List Place
  places : List Place
  sources : List (Nat × Place × Bool)
  isCopy : Bool
  isDiscard : Bool
  discards : List (Place × Nat)
  move : Option (Nat × Nat)
  first : Nat
  throttled : Bool
  isSealed : Bool
  deriving DecidableEq, Repr

/-- A flash channel (R272 to R274, R279, R286 to R288, R292, R451). copies are the frames that still have to be read out for collection, or, where marked,
for a refresh; buffer holds those that were read; wear is the block into which static wear levelling copies. -/
structure Channel where
  online : Bool
  profile : ChannelFound
  dead : List Nat
  d0 : Nat
  openData : Map Nat
  openCopy : Map Nat
  admitted : Nat
  lastTempC : Int
  retired : Nat
  goodAtStart : Nat
  wearAt : Nat
  buffer : List (Place × Bool)
  copies : List (Place × Bool)
  wear : Option Nat
  deriving DecidableEq, Repr

/-- An error record (R446). -/
structure ErrRecord where
  rseq : Nat
  nowS : Nat
  source : Nat
  severity : Nat
  action : Nat
  part : Nat
  status : Nat
  opcode : Nat
  code : Nat
  tag : Nat
  loc0 : Nat
  loc1 : Nat
  count : Nat
  ageS : Nat
  deriving DecidableEq, Repr

/-- What a checkpoint holds (R301): the header with the partition and epoch of each channel's owner, the block table with the valid count and the
oldest PROG_TIME of each block, and the maps with their LFN state. -/
structure Checkpoint where
  maps : Map PartFlash
  blocks : Map Block
  valid : Map Nat
  oldest : Map Nat
  owners : Map (Nat × Nat)
  wseq : Nat
  seq : Nat
  gaps : List (Nat × Nat)
  nowS : Nat
  deriving DecidableEq, Repr

/-- What the frames of the areas of channels 0 and 16 hold (R300 to R303, R390, R398, R428, R445, R449): the checkpoints of slots A (0) and B (1), the
log, and the sealed records; and the blocks of each area on each channel (32 × area + channel) (DESIGN CHOICE, assumption log 43). -/
structure Secure where
  areas : Map (List Nat)
  slots : Map Checkpoint
  openRecord : Option Nat
  badBlocks : List BlockId
  logGaps : List (Nat × Nat)
  table : Map (Grant × Nat)
  epochs : Map Nat
  mode : Bool
  scrubSets : List Nat
  scrubFlash : List Nat
  sigState : Option (Nat × Nat)
  fatal : Option ErrRecord
  retiredTiles : List Nat
  spareRows : Map Nat
  retiredFrames : Map Nat
  life : List (Nat × Nat × Nat × Nat)
  image : Bool
  deriving DecidableEq, Repr

def Secure.reset : Secure :=
  ⟨[], [], none, [], [], [], [], false, [], [], none, none, [], [], [], [], false⟩

structure Flash where
  channels : Map Channel
  blocks : Map Block
  frames : Map Frame
  groups : Map Group
  nextGroup : Nat
  wseq : Nat
  cpSeq : Nat
  dirty : Bool
  phase : Nat
  percent : Nat
  gaps : List (Nat × Nat)
  patrolEn : Bool
  patrolDays : Nat
  /-- Where the patrol of a die (16 × channel + die) stands, and when its period began (R298). -/
  patrol : Map (Nat × Nat)
  mapHostBase : Nat
  mapHostSegs : Nat
  offGap : Nat
  reads : Map ReadReq
  nextRead : Nat
  rebuilt : Bool
  secure : Secure
  /-- What this start has met on flash: whether every frame of the checkpoint can be read, and the frames whose header does not decode (R277, R303). -/
  cpReadable : Bool
  badHeaders : List Place
  deriving DecidableEq, Repr

def Flash.reset : Flash :=
  ⟨[], [], [], [], 0, 0, 0, false, 0, 0, [], false, 7, [], 0, 0, 30, [], 0, false, Secure.reset, true, []⟩

/-! ### Fabric ports (R309 to R322) -/

structure Port where
  up : Bool
  hopCredits : Map Nat
  lseq : Nat
  lack : Nat
  replay : List (Nat × Nat × Packet)
  transit : Map (List Packet)
  /-- R348: whose turn it is: among the participants of each class, and at 5 among the classes BE, BULK and CTL. -/
  turn : Map Nat
  /-- R348: what each of them may still send of its quantum, in units of 64 bytes. -/
  deficit : Map Nat
  paused : Nat
  badFrames : Nat
  deriving DecidableEq, Repr

def Port.reset : Port := ⟨false, [], 0, 0, [], [], [], [], 0, 0⟩

structure Fabric where
  position : Nat
  ring : Nat
  hall : Nat
  ringSlots : Nat
  join : Bool
  ringChips : Nat
  line : Bool
  live : List Nat
  etype : Nat
  vid : Nat
  pfcPri : Nat
  macBase : Nat
  ackRing : Nat
  ackHall : Nat
  retryMax : Nat
  qBe : Nat
  qBulk : Nat
  qCtl : Nat
  ports : Map Port
  bypassClosed : Bool
  /-- Uplink frames discarded under R321. -/
  frameDrops : Nat
  egress : List (Nat × Packet)
  deriving DecidableEq, Repr

def Fabric.reset : Fabric :=
  ⟨0, 0, 0, 1, false, 1, false, [], 0x88B5, 0, 0, 0, 20, 20, 8, 130, 65, 65, [], true, 0, []⟩

/-! ### Oxsis (R380 to R410) -/

inductive Lifecycle where
  | manufacture | production | rma
  deriving DecidableEq, Repr

/-- A request that Oxsis runs or that waits for it (R382): its OP, its bytes, the path that it came by, and the outcomes that cryptography
gives (whether a signature verifies, what a staged image is). -/
structure OxsReq where
  op : Nat
  bytes : List Byte
  mctp : Bool
  sigOk : Bool
  image : Option FwSlot
  deriving DecidableEq, Repr

/-- Oxsis: its mailbox, its fuses (R385), the firmware slots of the boot NOR and what booted (R386, R387), the signature state (R390), the
requests in order of arrival (the first runs), SCRUB_EPOCH (R401), the last MCTP response and the staged bytes. keyLifecycle is the
lifecycle state that the memory keys in force were derived for (R392). -/
structure Oxsis where
  reqAddr : Nat
  rspAddr : Nat
  op : Nat
  result : Nat
  lifecycle : Lifecycle
  keyLifecycle : Lifecycle
  svn : List Nat
  idRanges : Nat
  sigOffset : Nat
  sigBound : Nat
  sigSecond : Nat
  sigThisSecond : Nat
  queue : List OxsReq
  bootedB : Bool
  recovered : Bool
  certMismatch : Bool
  recovery : Bool
  norA : Option FwSlot
  norB : Option FwSlot
  booted : Option FwSlot
  scrubEpoch : Nat
  mctpReply : List Byte
  staged : List Byte
  deriving DecidableEq, Repr

/-! ### Power (R413 to R439) -/

inductive QState where
  | run | idle | sleep
  deriving DecidableEq, Repr

inductive ChipState where
  | on | deepSleep | off | tripped
  deriving DecidableEq, Repr

inductive EntryKind where
  | sleep (quad : Nat) | deep | off
  deriving DecidableEq, Repr

/-- An entry handshake in progress (R420): what is entered, the blocks that have accepted, what follows (R418), and whether PF0 or AUTO_DEEP
asked for the chip entry that it belongs to. -/
structure Entry where
  kind : EntryKind
  accepted : List Nat
  next : List EntryKind
  ofChip : Bool
  deriving DecidableEq, Repr

/-- The power controller: states (R413), the entry in progress with the wake events latched since it began (R427), the units that wait for a
sleeping quadrant (R417), the registers, the operating points, the raises in progress and the rails (R432, R433), the governor (R434 to R436), and
what Deep sleep keeps. Power is in units of 0.1 W; biasDw is the correction of the estimate. -/
structure Power where
  chip : ChipState
  quads : Map QState
  entry : Option Entry
  latched : Nat
  waking : Bool
  quadWake : Map Bool
  autoDeep : Bool
  sleepHold : Nat
  deepHold : Nat
  lastResult : Nat
  lastBlock : Nat
  wake : Nat
  alarmAt : Nat
  alarm : Nat
  freqReq : Nat
  cap : Nat
  points : Map Nat
  target : Map Nat
  millivolts : Map Nat
  regBad : List Nat
  limit : Nat
  package : Nat
  tiles : Nat
  biasDw : Int
  tEmerg : Nat
  temp : Nat
  emerg : Bool
  duty : Nat
  capPwr : BitVec 32
  capTherm : BitVec 32
  belowPwr : Bool
  belowTherm : Bool
  dramAwake : Map Bool
  imageValid : Bool
  sleptAtS : Nat
  /-- The host accesses that wait in the PCIe controller in Deep sleep, in order of arrival (R425, R437). -/
  held : List Instr
  deriving DecidableEq, Repr

def Power.reset : Power where
  chip := .on
  quads := []
  entry := none
  latched := 0
  waking := false
  quadWake := []
  autoDeep := false
  sleepHold := 100
  deepHold := 60
  lastResult := 0
  lastBlock := 0
  wake := 0
  alarmAt := 0
  alarm := 0
  freqReq := 24
  cap := 24
  points := []
  target := []
  millivolts := []
  regBad := []
  limit := 700
  package := 0
  tiles := 0
  biasDw := 0
  tEmerg := 100
  temp := 0
  emerg := false
  duty := 0
  capPwr := 0
  capTherm := 0
  belowPwr := false
  belowTherm := false
  dramAwake := []
  imageValid := false
  sleptAtS := 0
  held := []

/-! ### Health (R440 to R453) -/

/-- The error log and its registers (R446 to R448), the rows that fail (count and first second, by channel and row number) and those under repair
(channel, row, the frame met), spare rows used and frames retired (R449), the drift of each die and the dies reported (R450), and the daily life
terms (second, flash, DRAM, ageing; R452). -/
structure Health where
  log : Map ErrRecord
  head : Nat
  tail : Nat
  rseq : Nat
  fatalPrev : Bool
  lost : BitVec 32
  ce : BitVec 32
  rowErrors : Map (List Nat)
  repairing : List (Nat × Nat × Nat)
  spareRows : Map Nat
  retiredFrames : Map Nat
  drift : Map Nat
  ageing : List Nat
  degraded : Bool
  daily : List (Nat × Nat × Nat × Nat)
  dailyDueS : Nat
  deriving DecidableEq, Repr

def Health.reset : Health :=
  ⟨[], 0, 0, 0, false, 0, 0, [], [], [], [], [], [], false, [], 86400⟩

/-! ### Pins and start-up (R456 to R469) -/

/-- The pins and the standby logic (R456, R463 to R466): railTimer says that RAIL_EN rises when its timer ends; tripHold that a thermal
trip holds; linkReset that a host-link reset latched in Deep sleep is due at the exit (R465)
(DESIGN CHOICE, assumption log 118; DEDUCED, assumption log 129). -/
structure Pins where
  pwrok : Bool
  sysRstN : Bool
  perstN : Bool
  perstMode : Bool
  railEn : Bool
  thermtripN : Bool
  clkreqN : Bool
  vstby : Bool
  flashWpN : List Nat
  flashCeHigh : Bool
  xspiCsN : Bool
  xspiRstN : Bool
  pcieUp : Bool
  smbusAddr : Option Nat
  tap : Option JtagInstr
  crystal : Bool
  tripHold : Bool
  railTimer : Bool
  linkReset : Bool
  deriving DecidableEq, Repr

/-- A posted write that waits for credits (R34, R49): bytes of a function's output (with the command that it belongs to), an event
record, or an MSI-X message. Function 16 is PF0. -/
inductive OutWrite where
  | data (fn addr : Nat) (bytes : List Byte) (cmd : Option CmdRef)
  | record (fn addr : Nat) (bytes : List Byte) (cmd : Option CmdRef)
  | message (fn vector : Nat)
  deriving DecidableEq, Repr

/-- A line of a page cache (R130): its owner, when it was last used, whether it is dirty, whether only a prefetch brought it. -/
structure CacheLine where
  part : Nat
  used : Nat
  dirty : Bool
  prefetched : Bool
  deriving DecidableEq, Repr

structure State where
  /-- The commands that wait, first in first out. -/
  pending : List Instr
  /-- Host memory as the chip reads and writes it: bytes that are not listed read as zero (DESIGN CHOICE, assumption log 3). -/
  hostMem : List Host.Cell
  /-- The always-on seconds counter (R265, R413). -/
  nowS : Nat
  /-- The 64 s period of the counter for which the directory was last aged (R115). -/
  dirSweep : Nat
  /-- STAGE of HUB_FN_READY (R357, R467). -/
  stage : Nat
  halted : Bool
  parts : Map Part
  funcs : Map Func
  vfEnable : Bool
  meq : EventQueue
  pf0Bme : Bool
  pf0Vector : Vector16
  quiesce : Nat
  sched : Sched
  reads : Map ReadReq
  nextRead : Nat
  flash : Flash
  fabric : Fabric
  oxs : Oxsis
  power : Power
  health : Health
  pins : Pins
  /-- The lines of the four page caches by 4 KiB DRAM line number, and the model's own use counter (R130). -/
  cache : Map CacheLine
  uses : Nat
  /-- Posted writes that wait for credits, oldest first, and the credits in hand (R34, DESIGN CHOICE, assumption log 5). -/
  outq : List OutWrite
  credits : Nat
  /-- HUB_PLC_WAKE_DROP (R151). -/
  wakeDrop : BitVec 32
  /-- The model's own: the number of the next free value (DESIGN CHOICE, assumption log 2). -/
  draws : Nat
  /-- The messages of MSI-X that were sent, newest last: function (16 is PF0) and vector (R368). -/
  msix : List (Nat × Nat)
  deriving DecidableEq, Repr

/-- The boot NOR of a new board: slot A holds firmware that R387 accepts, slot B is empty (DESIGN CHOICE, assumption log 4). -/
def Oxsis.factorySlot : FwSlot :=
  ⟨true, 1, [⟨1, 0, 0, 0, 0, [], true⟩, ⟨2, 0, 0, 0, 0, [], true⟩, ⟨3, 0, 0, 0, 0, [], true⟩, ⟨4, 0, 0, 0, 0, [], true⟩], true, true⟩

def Oxsis.reset : Oxsis where
  reqAddr := 0
  rspAddr := 0
  op := 0
  result := 0
  lifecycle := .production
  keyLifecycle := .production
  svn := [0, 0, 0, 0]
  idRanges := 0
  sigOffset := 0
  sigBound := 0
  sigSecond := 0
  sigThisSecond := 0
  queue := []
  bootedB := false
  recovered := false
  certMismatch := false
  recovery := false
  norA := some Oxsis.factorySlot
  norB := none
  booted := none
  scrubEpoch := 0
  mctpReply := []
  staged := []

/-- The pins at reset release with the rails good (R466, R467). -/
def Pins.reset : Pins where
  pwrok := true
  sysRstN := true
  perstN := true
  perstMode := false
  railEn := true
  thermtripN := true
  clkreqN := false
  vstby := true
  flashWpN := []
  flashCeHigh := true
  xspiCsN := true
  xspiRstN := false
  pcieUp := false
  smbusAddr := none
  tap := none
  crystal := false
  tripHold := false
  railTimer := false
  linkReset := false

/-- The chip at reset release (R467), at stage BOOT, with no partition, an empty queue and nothing in host memory
(DESIGN CHOICE, assumption log 4; DESIGN CHOICE, assumption log 11; DESIGN CHOICE, assumption log 34; PRESUMED, assumption log 37; DESIGN CHOICE, assumption log 39; DEDUCED, assumption log 129). -/
def State.reset : State where
  pending := []
  hostMem := []
  nowS := 0
  dirSweep := 0
  stage := 0
  halted := false
  parts := []
  funcs := []
  vfEnable := false
  meq := EventQueue.reset
  pf0Bme := false
  pf0Vector := Vector16.reset
  quiesce := 0
  sched := Sched.reset
  reads := []
  nextRead := 0
  flash := Flash.reset
  fabric := Fabric.reset
  oxs := Oxsis.reset
  power := Power.reset
  health := Health.reset
  pins := Pins.reset
  cache := []
  uses := 0
  outq := []
  credits := 65536
  wakeDrop := 0
  draws := 0
  msix := []

end Sys2Proof.Machine
end

