-- ==== Sys2Proof/Machine/Operands.lean ====
section
/-! DEFINITION. The operand forms: the 64-byte command word and its header (R211), which bits each layout names (R212), the fields of
each layout, the element entry of an attention command (R163), the ring descriptor (R40), and the tile-code word (R234). -/

namespace Sys2Proof.Machine

open Sys2Proof

/-! ### The header (R211) -/

def cOpcode (w : List Byte) : Nat := field w 0 1
def cBarrier (w : List Byte) : Bool := bit (field w 1 1) 0
def cSignal (w : List Byte) : Bool := bit (field w 1 1) 1
def cSigCtr (w : List Byte) : Nat := field w 2 1
def cSigInc (w : List Byte) : Nat := field w 4 2
def cTag (w : List Byte) : Nat := field w 8 4

/-! ### Reserved fields (R212) -/

/-- A used field as a 512-bit mask: the byte offset and the mask of its bits. -/
def used (l : List (Nat × Nat)) : Nat := l.foldl (fun m p => m ||| p.2 * 2 ^ (8 * p.1)) 0

def m8 : Nat := 0xFF
def m16 : Nat := 0xFFFF
def m32 : Nat := 0xFFFFFFFF
def m64 : Nat := 0xFFFFFFFFFFFFFFFF

/-- The operand bits that the layout of an opcode names; w decides where MODE of prefix_evict does (R225). -/
def operandMask (op : Nat) (w : List Byte) : Nat :=
  match op with
  | 0x01 => used [(0x10, m8), (0x11, m8), (0x18, m64)]
  | 0x02 => used [(0x10, m8)]
  | 0x03 => used [(0x10, m8), (0x11, m8), (0x12, m8)]
  | 0x04 => used [(0x12, m8)]
  | 0x05 => used [(0x10, m8)]
  | 0x06 => used [(0x10, 0xF), (0x11, 0xF), (0x12, m16), (0x14, m8), (0x15, m8), (0x16, m16), (0x18, m16), (0x1A, m8),
      (0x1B, m8), (0x1C, m32), (0x20, m64)]
  | 0x07 => used [(0x10, 0xF)]
  | 0x08 => used [(0x10, m8), (0x14, m32), (0x18, m64)]
  | 0x09 => used [(0x10, m8)]
  | 0x0A => used [(0x18, m64)]
  | 0x10 => used [(0x10, 0xF), (0x11, 0x7), (0x14, m32), (0x18, m64), (0x20, m32)]
  | 0x12 => used [(0x10, m32), (0x14, m32)]
  | 0x14 => used [(0x10, m32), (0x14, m32)]
  | 0x16 => used [(0x10, m32), (0x14, m16)]
  | 0x18 => used [(0x10, m32), (0x18, m64)]
  | 0x20 => used [(0x10, m32), (0x14, m8), (0x15, 0xF), (0x18, m32), (0x1C, m32), (0x20, m64)]
  | 0x30 => used [(0x10, 0xF), (0x11, 0x6), (0x14, m32), (0x18, m64), (0x20, m32)]
  | 0x31 => used [(0x10, m32), (0x14, m32)]
  | 0x32 => used [(0x10, m32), (0x14, m32), (0x18, 0x1)]
  | 0x33 =>
    let mode := field w 0x18 1
    used ([(0x18, m8)] ++ (if mode = 0 then [] else [(0x10, m32), (0x14, m32)]) ++ (if mode = 1 then [] else [(0x19, 0xF)]))
  | 0x40 => used [(0x10, 0xF), (0x18, m64), (0x20, m64)]
  | 0x41 => used [(0x10, 0xF)]
  | 0x42 => used [(0x10, m32), (0x14, 0xFFFFFF), (0x18, m64)]
  | 0x50 => used [(0x10, 0xF), (0x11, m8), (0x12, 0x1FF), (0x15, 0xF), (0x17, 0x1), (0x18, m64), (0x20, m64)]
  | 0x51 => used [(0x10, 0xF), (0x11, m8), (0x12, 0x1FF), (0x14, 0xF), (0x16, 0xF), (0x17, 0x1), (0x18, m64), (0x20, m64),
      (0x28, m32)]
  | 0x52 => used [(0x10, 0xF), (0x11, m8), (0x12, 0x1FF), (0x14, 0xF), (0x15, 0xF), (0x16, 0xF), (0x17, 0x1), (0x18, m64),
      (0x20, m64), (0x28, m32)]
  | 0x53 => used [(0x10, m8), (0x11, 0x1), (0x12, m16), (0x14, m32), (0x18, m64), (0x20, m64), (0x28, m32), (0x2C, m32)]
  | 0x60 => 0
  | 0x61 => 0
  | 0x62 => used [(0x10, m8), (0x14, m32), (0x18, m64)]
  | 0x63 => used [(0x10, m8), (0x11, 0x1), (0x18, m64)]
  | 0x70 => used [(0x14, m32), (0x18, m64)]
  | 0x80 => used [(0x10, m32), (0x14, m32)]
  | _ => used [(0x10, m32)]

/-- R212, R213 step 2: no reserved bit is set. -/
def reservedClear (w : List Byte) : Bool :=
  let head := used ([(0, m8), (1, 0x3), (8, m32)] ++ (if cSignal w then [(2, m8), (4, m16)] else []))
  let mask := head ||| operandMask (cOpcode w) w
  leNat (slice w 0 64) &&& (2 ^ 512 - 1 - mask) = 0

/-! ### Handles (R87) -/

def handleIndex (h : Nat) : Nat := h % 2 ^ 24
def handleGen (h : Nat) : Nat := h / 2 ^ 24 % 256
/-- DESIGN CHOICE, assumption log 6. -/
def mkHandle (gen index : Nat) : Nat := gen * 2 ^ 24 + index

/-! ### Element entries (R163) -/

structure Entry64 where
  handle : Nat
  pos : Nat
  count : Nat
  flags : Nat
  window : Nat
  qIn : Nat
  kvIn : Nat
  tokens : Nat
  out : Nat
  lseOut : Nat
  mask : Nat
  reserved : Bool

def entryOf (b : List Byte) : Entry64 where
  handle := field b 0 4
  pos := field b 4 4
  count := field b 8 2
  flags := field b 0xA 1
  window := field b 0xC 4
  qIn := field b 0x10 8
  kvIn := field b 0x18 8
  tokens := field b 0x20 8
  out := field b 0x28 8
  lseOut := field b 0x30 8
  mask := field b 0x38 8
  reserved := 64 ≤ field b 0xA 1 || field b 0xB 1 ≠ 0

/-! ### Ring descriptors (R40) -/

structure Descriptor where
  base : Nat
  entriesLog2 : Nat
  eq : Nat
  head : Nat
  tail : Nat
  done : Nat
  reserved : Bool

def descriptorOf (b : List Byte) : Descriptor :=
  let v := leNat (slice b 0 32)
  { base := bits v 0 64
    entriesLog2 := bits v 64 5
    eq := bits v 72 4
    head := bits v 96 16
    tail := bits v 128 16
    done := bits v 192 64
    reserved := bits v 69 3 ≠ 0 || bits v 76 20 ≠ 0 || bits v 112 16 ≠ 0 || bits v 144 48 ≠ 0 }

/-- R218: the range checks of a descriptor, apart from the event queue. -/
def Descriptor.inRange (d : Descriptor) : Bool :=
  let size := 2 ^ d.entriesLog2
  d.base % 4096 = 0 && 6 ≤ d.entriesLog2 && d.entriesLog2 ≤ 16 && d.head < size && d.tail < size &&
    !bit d.done 0 && d.done < 2 ^ ((d.tail + size - d.head) % size)

/-! ### Tile-code words (R234) -/

def iOp (w : Nat) : Nat := bits w 26 6
def iD (w : Nat) : Nat := bits w 21 5
def iA (w : Nat) : Nat := bits w 16 5
def iB (w : Nat) : Nat := bits w 11 5
def iGE (w : Nat) : Bool := bit w 10
def iG (w : Nat) : Nat := bits w 7 3
def iFN (w : Nat) : Nat := bits w 0 7
/-- FN without BS, and BS (R235). -/
def iFn6 (w : Nat) : Nat := bits w 0 6
def iBS (w : Nat) : Bool := bit w 6
def iImm (w : Nat) : Nat := bits w 0 16
def iImmS (w : Nat) : Int := sext 16 (iImm w)
def iFmt (w : Nat) : Nat := bits w 12 4
def iOff (w : Nat) : Nat := bits w 0 12
def iFA (w : Nat) : Nat := bits w 7 4
def iFB (w : Nat) : Nat := bits w 3 4

/-- Formats allowed for each operand (R201). -/
def queryFormat (f : Nat) : Bool := f ≤ 4 || f = 10
def outputFormat (f : Nat) : Bool := f ≤ 3
def isCacheFormat (f : Nat) : Bool := f = 14 || f = 3 || (10 ≤ f && f ≤ 13)
def storeFormat (f : Nat) : Bool := f ≤ 4 || f = 8

/-- R238: the pairs that mma allows. -/
def mmaPair (a b : Nat) : Bool :=
  (a = 12 && b = 3) || (a = 9 && b = 8) || (a = 8 && b = 8) || (a = 1 && b = 1) || (a = 2 && b = 2) ||
  ((a = 3 || a = 4 || a = 5 || a = 6 || a = 10 || a = 11 || a = 13) && (b = 3 || b = 4))

end Sys2Proof.Machine
end

