-- ==== Sys2Proof/Machine/Ops.lean ====
section
/-! DEFINITION. The named operations over the state that the families share: access to partitions and functions, host memory, posted
writes, event queues and MSI-X, the error log, accounting, stalls, page caches, DRAM frames. -/

namespace Sys2Proof.Machine

open Sys2Proof

/-! ### Partitions and functions -/

def State.part (s : State) (p : Nat) : Part := Map.get s.parts p Part.absent

def State.setPart (s : State) (p : Nat) (x : Part) : State := { s with parts := Map.put s.parts p x }

def State.onPart (s : State) (p : Nat) (f : Part → Part) : State := s.setPart p (f (s.part p))

def State.func (s : State) (n : Nat) : Func := Map.get s.funcs n Func.reset

def State.onFunc (s : State) (n : Nat) (f : Func → Func) : State := { s with funcs := Map.put s.funcs n (f (s.func n)) }

/-- The partitions that exist, in rising order. -/
def State.livePartitions (s : State) : List Nat := (List.range 16).filter fun p => (s.part p).live

def Part.slot (x : Part) (i : Nat) : Slot := Map.get x.slots i Slot.reset
def Part.onSlot (x : Part) (i : Nat) (f : Slot → Slot) : Part := { x with slots := Map.put x.slots i (f (x.slot i)) }
def Part.eq (x : Part) (i : Nat) : EventQueue := Map.get x.eqs i EventQueue.reset
def Part.onEq (x : Part) (i : Nat) (f : EventQueue → EventQueue) : Part := { x with eqs := Map.put x.eqs i (f (x.eq i)) }
def Job.reset : Job := ⟨.free, 0, 0, none⟩
/-- Job 0 exists from the creation on and is bound (R38). -/
def Part.job (x : Part) (i : Nat) : Job := if i = 0 then ⟨.bound, 1, 0, none⟩ else Map.get x.jobs i Job.reset
def Part.onJob (x : Part) (i : Nat) (f : Job → Job) : Part := { x with jobs := Map.put x.jobs i (f (x.job i)) }
def Part.seq (x : Part) (i : Nat) : Option Seq := Map.look x.seqs i
def Part.onSeq (x : Part) (i : Nat) (f : Seq → Seq) : Part := { x with seqs := Map.edit x.seqs i f }
def Part.set (x : Part) (psn : Nat) : Option PageSet := Map.look x.sets psn
def Part.onSet (x : Part) (psn : Nat) (f : PageSet → PageSet) : Part := { x with sets := Map.edit x.sets psn f }
def Part.counter (x : Part) (c : Nat) : BitVec 64 := Map.get x.counters c 0
/-- R87: the generation of an index; the first is 1 (DESIGN CHOICE, assumption log 6). -/
def Part.gen (x : Part) (i : Nat) : Nat := Map.get x.gens i 1
def Part.onRegs (x : Part) (f : PartRegs → PartRegs) : Part := { x with regs := f x.regs }
def Part.onCnt (x : Part) (f : PartCounters → PartCounters) : Part := { x with cnt := f x.cnt }
def Part.onAcct (x : Part) (f : Acct → Acct) : Part := { x with acct := f x.acct }

def State.slot (s : State) (p i : Nat) : Slot := (s.part p).slot i
def State.onSlot (s : State) (p i : Nat) (f : Slot → Slot) : State := s.onPart p fun x => x.onSlot i f
def State.onSeq (s : State) (p i : Nat) (f : Seq → Seq) : State := s.onPart p fun x => x.onSeq i f
def State.onSet (s : State) (p psn : Nat) (f : PageSet → PageSet) : State := s.onPart p fun x => x.onSet psn f
def State.onAcct (s : State) (p : Nat) (f : Acct → Acct) : State := s.onPart p fun x => x.onAcct f
def State.onFlash (s : State) (f : Flash → Flash) : State := { s with flash := f s.flash }
def State.onPower (s : State) (f : Power → Power) : State := { s with power := f s.power }
def State.onSched (s : State) (f : Sched → Sched) : State := { s with sched := f s.sched }
def State.onHealth (s : State) (f : Health → Health) : State := { s with health := f s.health }
def State.onFabric (s : State) (f : Fabric → Fabric) : State := { s with fabric := f s.fabric }
def State.onOxs (s : State) (f : Oxsis → Oxsis) : State := { s with oxs := f s.oxs }
def State.onPins (s : State) (f : Pins → Pins) : State := { s with pins := f s.pins }

/-- STAGE is READY (R357). -/
def State.ready (s : State) : Bool := s.stage = 6

/-- The function can use the link: no disable in progress, and the conditions of R374 hold. -/
def State.fnUsable (s : State) (n : Nat) : Bool :=
  let f := s.func n
  s.vfEnable && f.bme && !f.d3 && f.disable.isNone

/-- The host reaches the chip: it is on, and its link is up (R377) (DEDUCED, assumption log 99). -/
def State.hostUp (s : State) : Bool := s.power.chip = .on && s.pins.pcieUp

/-- The chip is in Deep sleep and its link rests in L1.2 (R425) (DEDUCED, assumption log 99). -/
def State.linkAsleep (s : State) : Bool := s.power.chip = .deepSleep && s.pins.pcieUp && !s.pins.linkReset

/-- A host access in Deep sleep: it waits in the PCIe controller, and wakes the chip (R422, R425, R437). -/
def State.hold (s : State) (i : Instr) : State :=
  { s with power := { s.power with held := s.power.held ++ [i], wake := s.power.wake ||| 2 ^ 2, waking := true } }

/-- A host access f: it acts at once, or waits for the exit from Deep sleep. -/
def State.access (s : State) (i : Instr) (f : State → State) : State := if s.linkAsleep then s.hold i else f s

/-- The same of a request to Oxsis, which comes over the link where the mailbox brings it. -/
def State.mailbox (s : State) (via : OxsVia) (i : Instr) (f : State → State) : State :=
  match via with
  | .mailbox => s.access i f
  | .mctp _ => f s

/-- The next free value's number, and the state after the draw (DESIGN CHOICE, assumption log 2). -/
def State.draw (s : State) : Nat × State := (s.draws, { s with draws := s.draws + 1 })

/-! ### Host memory (DESIGN CHOICE, assumption log 3) -/

/-- What an unlisted byte of host memory reads as (DESIGN CHOICE, assumption log 3). -/
def hostDefault : Byte := 0

/-- The canonical form: addresses strictly rising, and no entry that an unlisted address would read as. -/
def Memory.wf (m : List Host.Cell) : Bool := Map.wf m && m.all fun c => c.2 != hostDefault

/-- DESIGN CHOICE, assumption log 3. -/
def Memory.read (m : List Host.Cell) (a : Nat) : Byte := Map.get m a hostDefault

def Memory.write (m : List Host.Cell) (a : Nat) (b : Byte) : List Host.Cell :=
  if b = hostDefault then Map.del m a else Map.put m a b

/-- Consecutive bytes from an address on (DESIGN CHOICE, assumption log 80). -/
def Memory.readBytes (m : List Host.Cell) (a n : Nat) : List Byte := (List.range n).map fun i => Memory.read m (a + i)

/-- DESIGN CHOICE, assumption log 80. -/
def Memory.writeBytes (m : List Host.Cell) (a : Nat) : List Byte → List Host.Cell
  | [] => m
  | b :: r => Memory.writeBytes (Memory.write m a b) (a + 1) r

def State.hostBytes (s : State) (a n : Nat) : List Byte := Memory.readBytes s.hostMem a n

/-- Whether a read of n bytes at a meets none of the ranges that failed (R157). -/
def readOk (bad : List (Nat × Nat)) (a n : Nat) : Bool := bad.all fun r => a + n ≤ r.1 || r.1 + r.2 ≤ a

/-! ### The push window (R360, R361) -/

def Part.sliceBytes (x : Part) : Nat := x.grant.pushMib * 2 ^ 20
def Part.pushBytes (x : Part) (off n : Nat) : List Byte := (List.range n).map fun i => Map.get x.push (off + i) 0

/-! ### Posted writes (R34, R49 steps 4 to 7) -/

/-- Bytes of a function reach host memory and are counted (R265). -/
def State.land (s : State) (fn addr : Nat) (b : List Byte) : State :=
  let s := { s with hostMem := Memory.writeBytes s.hostMem addr b }
  if fn < 16 then s.onAcct fn fun a => { a with pcieOut := a.pcieOut + b.length } else s

/-- A posted write reaches the host. -/
def State.perform (s : State) (w : OutWrite) : State :=
  match w with
  | .data fn addr bytes _ => s.land fn addr bytes
  | .record fn addr bytes _ => s.land fn addr bytes
  | .message fn vector => { s with msix := s.msix ++ [(fn, vector)] }

/-- A posted write is issued where a credit is in hand and no older write waits; otherwise it waits (DESIGN CHOICE, assumption log 5). -/
def State.issue (s : State) (w : OutWrite) : State :=
  if s.outq = [] && s.credits ≠ 0 then ({ s with credits := s.credits - 1 } : State).perform w
  else { s with outq := s.outq ++ [w] }

/-- Waiting writes are issued, oldest first, while credits last (DESIGN CHOICE, assumption log 5). -/
def State.drainOut : Nat → State → State
  | 0, s => s
  | n + 1, s =>
    match s.outq with
    | [] => s
    | w :: r => if s.credits = 0 then s else drainOut n (({ s with outq := r, credits := s.credits - 1 } : State).perform w)

/-! ### Event queues (R33, R362 to R368). Function 16 is PF0, whose only queue is the management queue. -/

/-- The fields of a record that belong to its kind (R364, R366). -/
structure Record where
  status : Nat
  kind : Nat
  b3 : Nat
  w4 : Nat
  w8 : Nat
  wC : Nat
  w10 : Nat
  h14 : Nat
  w18 : Nat

def Record.none : Record := ⟨0, 0, 0, 0, 0, 0, 0, 0, 0⟩

/-- The 28 bytes of a record before its PHASE_WORD. -/
def Record.bytes (r : Record) (eseq : Nat) : List Byte :=
  leBytes 2 r.status ++ leBytes 1 r.kind ++ leBytes 1 r.b3 ++ leBytes 4 r.w4 ++ leBytes 4 r.w8 ++ leBytes 4 r.wC ++
    leBytes 4 r.w10 ++ leBytes 2 r.h14 ++ leBytes 2 eseq ++ leBytes 4 r.w18

def phaseWord (phase : Bool) : List Byte := leBytes 4 (Bool.bit phase * 2 ^ 31)

def State.eq (s : State) (fn q : Nat) : EventQueue := if fn < 16 then (s.part fn).eq q else s.meq

def State.onEq (s : State) (fn q : Nat) (f : EventQueue → EventQueue) : State :=
  if fn < 16 then s.onPart fn fun x => x.onEq q f else { s with meq := f s.meq }

def EventQueue.size (e : EventQueue) : Nat := 2 ^ e.entriesLog2

/-- R363: TAIL + 1 equals HEAD, modulo the ring size. -/
def EventQueue.full (e : EventQueue) : Bool := (e.tail + 1) % e.size = e.head

/-- Neither the host ring nor the overflow ring takes a record (R33). -/
def EventQueue.stuck (e : EventQueue) : Bool := (e.full || e.overflow ≠ []) && Config.overflowRecords ≤ e.overflow.length

def vector (s : State) (fn v : Nat) : Vector16 := if fn < 16 then Map.get (s.func fn).vectors v Vector16.reset else s.pf0Vector

def setVector (s : State) (fn v : Nat) (x : Vector16) : State :=
  if fn < 16 then s.onFunc fn fun f => { f with vectors := Map.put f.vectors v x } else { s with pf0Vector := x }

/-- The MSI-X message of a vector, or its pending bit where the vector is masked (R368). -/
def sendMessage (s : State) (fn v : Nat) : State :=
  let x := vector s fn v
  if x.masked then setVector s fn v { x with pending := true } else s.issue (.message fn v)

/-- R368: whether an interrupt is due. -/
def EventQueue.due (e : EventQueue) : Bool := e.timerDue || (if e.coalCount = 0 then 1 else e.coalCount) ≤ e.unsignalled

/-- MSIX_SEND: a due interrupt is sent when ARM is 1. -/
def signalIfDue (s : State) (fn q : Nat) : State :=
  let e := s.eq fn q
  if e.due && e.arm then
    sendMessage (s.onEq fn q fun e => { e with arm := false, unsignalled := 0, timerDue := false }) fn e.vector
  else s

/-- A record written at TAIL with the current PHASE (R363), and the message it makes due. -/
def writeRecord (s : State) (fn q : Nat) (b : List Byte) (cmd : Option CmdRef) : State :=
  let e := s.eq fn q
  let s := s.issue (.record fn (e.base + 32 * e.tail) (b ++ phaseWord e.phase) cmd)
  let last := e.tail + 1 = e.size
  let s := s.onEq fn q fun e =>
    { e with tail := if last then 0 else e.tail + 1, phase := if last then !e.phase else e.phase, unsignalled := e.unsignalled + 1 }
  signalIfDue s fn q

/-- EVENT_RECORD_POST: a record enters its queue, in the host ring or, where that is full, in the overflow ring (R33). A record that no command
posts waits where that is full too (DESIGN CHOICE, assumption log 164). A queue that is not enabled takes none (DEDUCED, assumption log 7). -/
def postRaw (s : State) (fn q : Nat) (raw : List Byte) (cmd : Option CmdRef) : State :=
  let e := s.eq fn q
  if !e.en then s
  else
    let b := raw.take 0x16 ++ leBytes 2 e.eseq ++ raw.drop 0x18
    let s := s.onEq fn q fun e => { e with eseq := (e.eseq + 1) % 2 ^ 16 }
    if e.full || e.overflow ≠ [] then
      if Config.overflowRecords ≤ e.overflow.length then s.onEq fn q fun e => { e with waiting := e.waiting ++ [b] }
      else s.onEq fn q fun e => { e with overflow := e.overflow ++ [b], ovfCount := e.ovfCount + 1 }
    else writeRecord s fn q b cmd

def postRecord (s : State) (fn q : Nat) (r : Record) (cmd : Option CmdRef) : State := postRaw s fn q (r.bytes 0) cmd

/-- The first record of the overflow ring leaves it, and one that waited for room enters (DESIGN CHOICE, assumption log 164). -/
def EventQueue.shift (e : EventQueue) : EventQueue :=
  { e with overflow := e.overflow.drop 1 ++ e.waiting.take 1, waiting := e.waiting.drop 1, ovfCount := if e.waiting = [] then e.ovfCount else e.ovfCount + 1 }

/-- The records of a queue that have not reached its ring. -/
def EventQueue.backlog (e : EventQueue) : Nat := e.overflow.length + e.waiting.length

/-- OVERFLOW_DELIVERY (R367): overflow records move to the host ring, in order, while it has room. -/
def deliverOverflow (fn q : Nat) : Nat → State → State
  | 0, s => s
  | n + 1, s =>
    let e := s.eq fn q
    match e.overflow with
    | [] => s
    | b :: _ => if e.full then s else deliverOverflow fn q n (writeRecord (s.onEq fn q EventQueue.shift) fn q b none)

/-! ### Error records (R446, R448) -/

/-- DESIGN CHOICE, assumption log 48. -/
def ErrRecord.blank : ErrRecord := ⟨0, 0, 0, 0, 0, 0xFF, 0, 0, 0, 0, 0, 0, 1, 0⟩

/-- Unread records of the log (DEDUCED, assumption log 8). -/
def Health.unread (h : Health) : Nat := (h.tail + Config.errLogRecords - h.head) % Config.errLogRecords

/-- The record of the last second with the same SOURCE and LOC0, into which a corrected one merges. -/
def mergeTarget (h : Health) (r : ErrRecord) (now : Nat) : Option Nat :=
  ((h.log.filter fun e => e.2.severity = 0 && e.2.source = r.source && e.2.loc0 = r.loc0 && now ≤ e.2.nowS + 1).map fun e => e.1).getLast?

/-- ERROR_RECORD_WRITE (R448). One slot of the ring stays empty, so that HEAD equal to TAIL means no unread record (DEDUCED, assumption log 8). -/
def logError (s : State) (r : ErrRecord) : State :=
  s.onHealth fun h =>
    let h := if r.severity = 0 then { h with ce := h.ce + 1 } else h
    match (if r.severity = 0 then mergeTarget h r s.nowS else none) with
    | some i => { h with log := Map.edit h.log i fun e => { e with count := e.count + 1 } }
    | none =>
      if r.severity = 0 && Config.errLogCorrectedLimit ≤ h.unread then h
      else if Config.errLogRecords - 1 ≤ h.unread then { h with lost := h.lost + 1 }
      else
        { h with
          log := Map.put h.log h.tail { r with rseq := h.rseq, nowS := s.nowS }
          tail := (h.tail + 1) % Config.errLogRecords
          rseq := h.rseq + 1 }

/-! ### Stalls and bytes (R156, R265) -/

/-- A wait that ended: one count under its cause, and its whole microseconds. -/
def stall (s : State) (p cause us : Nat) : State :=
  s.onPart p fun x =>
    { x with
      stalls := Map.put x.stalls cause (Map.get x.stalls cause 0 + 1)
      stallUs := Map.put x.stallUs cause (Map.get x.stallUs cause 0 + BitVec.ofNat 32 us) }

/-- The length of a wait, which the rows do not give, is a free value (DESIGN CHOICE, assumption log 135). -/
def stallFree (s : State) (p cause : Nat) : State :=
  let d := s.draw
  stall d.2 p cause (Config.freeWord d.1).toNat

/-- Bytes read or written on a tier (R265). -/
def countTier (s : State) (p tier : Nat) (write : Bool) (n : Nat) : State :=
  s.onAcct p fun a =>
    match tier, write with
    | 0, false => { a with t1Rd := a.t1Rd + n }
    | 0, true => { a with t1Wr := a.t1Wr + n }
    | 1, false => { a with t2Rd := a.t2Rd + n }
    | 1, true => { a with t2Wr := a.t2Wr + n }
    | _, false => { a with t3Rd := a.t3Rd + n }
    | _, true => { a with t3Wr := a.t3Wr + n }

def pcieIn (s : State) (p n : Nat) : State := s.onAcct p fun a => { a with pcieIn := a.pcieIn + n }

/-! ### Policers (RFC 2698, R347, R369) -/

inductive Colour where
  | green | yellow | red
  deriving DecidableEq

def Policer.pirOf (x : Policer) : Nat := Nat.max x.pir x.cir
/-- DESIGN CHOICE, assumption log 38. -/
def burst (kib : Nat) : Nat := (if kib < 5 then 5 else kib) * 8192

/-- A packet of n bytes, presented yellow or green. -/
def Policer.meter (x : Policer) (n : Nat) (yellow : Bool) : Colour × Policer :=
  let b := 8 * n
  if x.cir = 0 && x.pir = 0 then (.green, x)
  else if x.tp < b then (.red, x)
  else if (x.aware && yellow) || x.tc < b then (.yellow, { x with tp := x.tp - b })
  else (.green, { x with tp := x.tp - b, tc := x.tc - b })

/-- Tokens gained in a time: a rate in Gb/s gives as many bits in each nanosecond (DESIGN CHOICE, assumption log 100). -/
def Policer.refill (x : Policer) (ns : Nat) : Policer :=
  { x with tc := Nat.min (burst x.cbs) (x.tc + x.cir * ns), tp := Nat.min (burst x.pbs) (x.tp + x.pirOf * ns) }

/-- The bucket after a read of n bytes that has waited, where it was red, until the peak bucket held it (R369)
(DESIGN CHOICE, assumption log 131). -/
def Policer.take (x : Policer) (n : Nat) (yellow : Bool) : Policer :=
  let m := x.meter n yellow
  if m.1 = .red then ((x.refill (ceilDiv (8 * n - x.tp) x.pirOf)).meter n yellow).2 else m.2

/-- The same of any number of bytes, in reads of at most 4,096 (DESIGN CHOICE, assumption log 131). -/
def Policer.takeAll (x : Policer) (n : Nat) (yellow : Bool) : Policer :=
  (List.replicate (n / 4096) 4096 ++ (if n % 4096 = 0 then [] else [n % 4096])).foldl (fun y k => y.take k yellow) x

/-- The partition is a best-effort partition of class mode (R252). -/
def bestEffort (s : State) (p : Nat) : Bool := s.sched.classMode && (s.part p).grant.priority = 1

/-- Bytes that a command reads from host memory as it starts: counted (R265) and metered (R369; DESIGN CHOICE, assumption log 131). -/
def hostIn (s : State) (c : CmdRef) (n : Nat) : State :=
  pcieIn (s.onPart c.part fun x =>
    { x with ingress := x.ingress.takeAll n (!(s.slot c.part c.slot).snare || bestEffort s c.part) }) c.part n

/-! ### Bytes of the DRAM tier -/

def t1Read (s : State) (p n : Nat) : State := s.onAcct p fun a => { a with t1Rd := a.t1Rd + n }
def t1Write (s : State) (p n : Nat) : State := s.onAcct p fun a => { a with t1Wr := a.t1Wr + n }

/-- R267: the energy of hc of one tile at the operating point of its quadrant, in pJ: 165 pJ per tile cycle, whose clock at point k is
(8 + k) / 32 of hc (R432) (DESIGN CHOICE, assumption log 104). -/
def tilePj (s : State) (quad hc : Nat) : Nat := 165 * hc * (8 + Map.get s.power.points quad 24) / 32

/-- Tile time charged to a partition (R265) (DESIGN CHOICE, assumption log 104). -/
def chargeTile (s : State) (p quad hc : Nat) (snare lost : Bool) : State :=
  s.onAcct p fun a =>
    { a with
      tileHc := a.tileHc + hc
      snareHc := if snare then a.snareHc + hc else a.snareHc
      lostHc := if lost then a.lostHc + hc else a.lostHc
      tilePjWindow := a.tilePjWindow + tilePj s quad hc }

/-! ### DRAM (R12, R15, R79, R138). A DRAM frame has the number (4 * set + quadrant) * 32768 + its number in the channel
(DESIGN CHOICE, assumption log 9). -/

def channelFrames : Nat := 32768
def frameQuad (f : Nat) : Nat := f / channelFrames % 4

/-- A participant that has accepted an entry in progress takes no new work that would break the state (R420, R421)
(DEDUCED, assumption log 169). -/
def State.holds (s : State) (block : Nat) : Bool := s.power.entry.any fun e => e.accepted.contains block

/-- The DMA engine holds an entry that an object at l would break: Sleep of the quadrant in whose DRAM it lies, Deep sleep or Off
(DEDUCED, assumption log 169). -/
def State.holdsMove (s : State) (l : Loc) : Bool := s.holds 3 && s.power.entry.any fun e => match e.kind with
  | .sleep q => l.tier = 0 && frameQuad l.frame = q
  | _ => true

/-- The objects and retired frames of one channel as (first frame, frames). -/
def channelUse (s : State) (x : Part) (ch : Nat) : List (Nat × Nat) :=
  let lo := ch * channelFrames
  let inside := fun f : Nat => lo ≤ f && f < lo + channelFrames
  ((x.dram.filter fun e => inside e.1).map fun e => (e.1, e.2.frames)) ++
    ((s.health.retiredFrames.filter fun e => inside e.1).map fun e => (e.1, 1))

/-- The lowest run of n frames in a channel, aligned to n (R138) (DESIGN CHOICE, assumption log 9). -/
def channelRun (s : State) (x : Part) (ch n : Nat) : Option Nat :=
  let lo := ch * channelFrames
  let use := channelUse s x ch
  let starts := sortBy id (0 :: use.map fun u => roundUp (u.1 + u.2 - lo) n)
  let fits := fun c : Nat => c + n ≤ channelFrames && use.all fun u => lo + c + n ≤ u.1 || u.1 + u.2 ≤ lo + c
  ((starts.filter fits).head?).map fun c => lo + c

/-- DESIGN CHOICE, assumption log 9. -/
def quadOrder (home : Nat) : List Nat := home :: ([0, 1, 2, 3].filter fun q => q != home)

/-- Frames for an object of n frames: the home quadrant first, lowest set and frame first (R12; DESIGN CHOICE, assumption log 9). -/
def findFrames (s : State) (x : Part) (home n : Nat) : Option Nat :=
  ((quadOrder home).flatMap fun q => x.grant.sets.map fun g => 4 * g + q).findSome? fun ch => channelRun s x ch n

/-- Free frames of the partition. -/
def freeFrames (s : State) (x : Part) : Nat :=
  let mine := (s.health.retiredFrames.filter fun e => x.grant.sets.contains (e.1 / channelFrames / 4)).length
  x.grant.sets.length * 4 * channelFrames - sum (x.dram.map fun e => e.2.frames) - mine

/-- MEM_PLC_FREE is at least LOW (units of 64 MiB, R129). -/
def freeAboveLow (s : State) (x : Part) : Bool := x.regs.low * 1024 ≤ freeFrames s x

def putDram (x : Part) (frame n : Nat) (data : List Byte) : Part := { x with dram := Map.put x.dram frame ⟨n, data, []⟩ }
def delDram (x : Part) (frame : Nat) : Part := { x with dram := Map.del x.dram frame }

/-! ### The page caches (R130). The set of a 4 KiB line is its number modulo 512 (DESIGN CHOICE, assumption log 10). -/

/-- The partition's ways of a quadrant. -/
def Part.waysOf (x : Part) (q : Nat) : Nat := bits x.grant.ways (8 * q) 8

/-- The line's quadrant and set (DESIGN CHOICE, assumption log 10). -/
def lineSet (line : Nat) : Nat := frameQuad (line / 16) * 512 + line % 512

/-- R417: a read of a sleeping quadrant's DRAM that finds it in self-refresh waits; the length of the wait is free
(DESIGN CHOICE, assumption log 135). -/
def wakeDram (s : State) (p q : Nat) : State :=
  if Map.get s.power.quads q .run = .sleep && !Map.get s.power.dramAwake q false then
    let d := s.draw
    stall (d.2.onPower fun w => { w with dramAwake := Map.put w.dramAwake q true }) p Stall.dramWake (Config.freeWord d.1).toNat
  else s

/-- One line used by a partition for n delivered bytes: a hit, or a fill that replaces the partition's own least recently used line of the
set (DESIGN CHOICE, assumption log 10; DEDUCED, assumption log 123). -/
def useLine (s : State) (p line n : Nat) (dirty prefetch : Bool) : State :=
  let u := s.uses + 1
  match Map.look s.cache line with
  | some l =>
    let l := { l with used := if prefetch then l.used else u, dirty := l.dirty || dirty, prefetched := l.prefetched && prefetch }
    let s := { s with uses := u, cache := Map.put s.cache line l }
    if prefetch || dirty then s else s.onAcct p fun a => { a with t0 := a.t0 + n }
  | none =>
    let mine := s.cache.filter fun e => e.2.part = p && lineSet e.1 = lineSet line
    let s := if !prefetch && !dirty then wakeDram s p (frameQuad (line / 16)) else s
    let s := if prefetch || !dirty then t1Read s p 4096 else s
    let s :=
      if mine.length < (s.part p).waysOf (frameQuad (line / 16)) then s
      else
        match leastBy (fun e : Nat × CacheLine => e.2.used) mine with
        | none => s
        | some v =>
          let s := { s with cache := Map.del s.cache v.1 }
          if v.2.dirty then t1Write s p 4096 else s
    let old := if prefetch then 0 else u
    { s with uses := u, cache := Map.put s.cache line ⟨p, old, dirty, prefetch⟩ }

/-- Bytes of a DRAM object read or written through the page cache. -/
def touchDram (s : State) (p frame off n : Nat) (dirty prefetch : Bool) : State :=
  if n = 0 then s
  else
    let a := frame * 65536 + off
    (List.range ((a + n - 1) / 4096 - a / 4096 + 1)).foldl
      (fun s i =>
        let line := a / 4096 + i
        let lo := Nat.max a (line * 4096)
        let hi := Nat.min (a + n) (line * 4096 + 4096)
        useLine s p line (hi - lo) dirty prefetch)
      s

/-- Lines of an object dropped, dirty ones written back (R130). -/
def dropLines (s : State) (p frame n : Nat) : State :=
  let inside := fun l : Nat => frame * 16 ≤ l && l < (frame + n) * 16
  let d := (s.cache.filter fun e => inside e.1 && e.2.dirty).length
  t1Write { s with cache := s.cache.filter fun e => !inside e.1 } p (4096 * d)

/-- A new DRAM object written directly (R130): its frames and bytes (DESIGN CHOICE, assumption log 39). -/
def newObject (s : State) (p frame n : Nat) (data : List Byte) : State :=
  let s := dropLines s p frame n
  t1Write (s.onPart p fun x => putDram x frame n data) p data.length

/-- A DRAM object released. -/
def freeObject (s : State) (p frame : Nat) : State :=
  let n := (Map.get (s.part p).dram frame ⟨0, [], []⟩).frames
  (dropLines s p frame n).onPart p fun x => delDram x frame


end Sys2Proof.Machine
end

