-- ==== Sys2Proof/Machine/Tables.lean ====
section
/-! DEFINITION. The tables that a partition keeps in its DRAM: descriptor segments and their table (R74, R75, R132, R146), page-table chunks,
TAIL_DIR arrays and token tails (R77, R79), and the rest table (R143): the frames that they take and the bytes that they hold. What a
table holds is held once, as the data that it describes; the bytes are read from that data (DESIGN CHOICE, assumption log 155). -/

namespace Sys2Proof.Machine

open Sys2Proof

/-! ### Location words (R76) -/

/-- The region and frame of a host location (DEDUCED, assumption log 12). -/
def Loc.region (l : Loc) : Nat := l.frame / 2 ^ 24
/-- DEDUCED, assumption log 12. -/
def Loc.regionFrame (l : Loc) : Nat := l.frame % 2 ^ 24

def Region.none : Region := ⟨0, 0, false, []⟩

def LocKind.code : LocKind → Nat
  | .empty => 0
  | .staging => 1
  | .page => 2

/-- FRAME of R76: a DRAM or host address in units of 64 KiB, or an LFN (DEDUCED, assumption log 12). -/
def Part.frameField (x : Part) (l : Loc) : Nat :=
  if l.tier = 1 then (Map.get x.regions l.region Region.none).base / 65536 + l.regionFrame else l.frame

/-- R76: the 64-bit location word. -/
def Part.locWord (x : Part) (l : Loc) : Nat := if l.kind = .empty then 0 else l.kind.code + 4 * l.tier + 256 * x.frameField l

/-! ### Descriptors (R75, R132, R146) -/

/-- FLAGS of R75. -/
def PageSet.flags (d : PageSet) : Nat := Bool.bit d.dir + 2 * Bool.bit d.full + 4 * Bool.bit d.pinEpoch + 8 * Bool.bit d.releasing

/-- R75: the 1,088 + 8 × LAYERS bytes of a descriptor. -/
def Part.descriptor (x : Part) (layers psn : Nat) (d : PageSet) : List Byte :=
  leBytes 8 psn ++ leBytes 1 d.model ++ leBytes 1 d.flags ++ leBytes 2 d.layersFlushed ++ leBytes 4 d.index ++ leBytes 4 d.refs ++
    leBytes 4 d.pins0 ++ leBytes 4 d.pins1 ++ List.replicate 4 0 ++ leBytes 16 d.digest.toNat ++ List.replicate 16 0 ++
    slice (d.tokens.flatMap fun t => leBytes 4 t.toNat) 0 1024 ++
    (List.range layers).flatMap fun l => leBytes 8 (x.locWord (Map.get d.loc l Loc.none))

/-- R132: the placement word. -/
def PageSet.placement (d : PageSet) : List Byte :=
  leBytes 2 d.heat ++ [0, 0] ++ leBytes 4 d.touch ++ leBytes 4 d.lastAdd ++
    leBytes 1 (Bool.bit d.moving + 2 * Bool.bit (d.tents ≠ [])) ++ [0, 0, 0]

/-- A descriptor slot: the descriptor at offset 0, the placement word at 0xFF0. -/
def Part.descSlot (x : Part) (psn : Nat) : List Byte :=
  match x.set psn with
  | none => List.replicate 4096 0
  | some d =>
    let layers := match Map.look x.models d.model with
      | some m => m.layers
      | none => d.loc.length
    slice (x.descriptor layers psn d) 0 0xFF0 ++ d.placement

/-- The 64 KiB of a descriptor segment. -/
def Part.segmentImage (x : Part) (n : Nat) : List Byte := (List.range 16).flatMap fun k => x.descSlot (16 * n + k)

/-- R146: word n of the segment table, whose chunk n / 8,192 holds it at 8 × (n mod 8,192). -/
def Part.segmentWord (x : Part) (n : Nat) : Nat := x.locWord (Map.get x.segments n Loc.none)

/-- R146, R143: the bytes of a chunk of 8,192 words, and of the roots, which hold the addresses of the chunks. -/
def chunkBytes (word : Nat → Nat) (c : Nat) : List Byte := (List.range 8192).flatMap fun i => leBytes 8 (word (8192 * c + i))
def rootBytes (chunks : Map Nat) (n : Nat) : List Byte := (List.range n).flatMap fun c => leBytes 8 (65536 * Map.get chunks c 0)

/-- R143: word i of the rest table: KIND 2 while the sequence is at REST, else 0. -/
def Part.restWord (x : Part) (i : Nat) : Nat := x.locWord (Map.get x.restTable i Loc.none)

/-! ### Page tables, TAIL_DIR and token tails (R77, R79) -/

/-- R77: a page-table entry. -/
def PtEntry.word (e : PtEntry) : Nat := e.psn + Bool.bit e.shared * 2 ^ 40 + 2 ^ 63

/-- Chunk c of a page table. -/
def Seq.chunkBytes (q : Seq) (c : Nat) : List Byte := slice (((q.pt.drop (512 * c)).take 512).flatMap fun e => leBytes 8 e.word) 0 4096

/-- R79: the array of tail pages, 0 where none exists. -/
def Seq.tailDirBytes (q : Seq) (layers : Nat) : List Byte :=
  (List.range layers).flatMap fun l => match Map.look q.tails l with
    | some t => leBytes 8 (65536 * t.frame)
    | none => leBytes 8 0

/-- The 1 KiB token tail. -/
def Seq.tokenBytes (q : Seq) : List Byte := slice (q.tokenTail.flatMap fun t => leBytes 4 t.toNat) 0 1024

/-- The slot of both: the array at offset 0, the token tail at 0x800 (DESIGN CHOICE, assumption log 155). -/
def Seq.tailSlot (q : Seq) (layers : Nat) : List Byte := slice (q.tailDirBytes layers) 0 0x800 ++ slice q.tokenBytes 0 0x800

/-! ### Slots of 4 KiB -/

/-- The table slots that a sequence in the hot table takes. -/
def tableSlots (sets : Nat) : Nat := 1 + ceilDiv sets 512

def Part.slotsTaken (x : Part) : List Nat := x.seqs.flatMap fun e => e.2.chunks ++ e.2.tailDir.toList

def Part.slotsFree (x : Part) : List Nat :=
  let taken := x.slotsTaken
  (x.slabs.flatMap fun f => (List.range 16).map fun k => 16 * f + k).filter fun a => !taken.contains a

def Part.flights (x : Part) : List Flight := x.slots.flatMap fun e => e.2.window

/-- Table slots and descriptor slots promised to commands in flight and to migrations that have begun. -/
def Part.slotsPromised (x : Part) : Nat :=
  sum (x.flights.map fun f => f.slots) + sum (x.buffers.map fun b => match b.2.migration with
    | some g => tableSlots (g.length / 256)
    | none => 0)

def Part.descsPromised (x : Part) : Nat :=
  sum (x.flights.map fun f => f.descs) + sum (x.buffers.map fun b => match b.2.migration with
    | some g => g.length / 256
    | none => 0)

/-! ### Descriptor slots (R146) -/

/-- Segments homed in DRAM, those of a quadrant first. -/
def Part.dramSegs (x : Part) (home : Nat) : List (Nat × Loc) :=
  let here := x.segments.filter fun e => e.2.tier = 0
  (here.filter fun e => frameQuad e.2.frame = home) ++ here.filter fun e => frameQuad e.2.frame ≠ home

/-- Page-set numbers that a new set may take, in the order in which they are taken; PSN 0 is never assigned
(DESIGN CHOICE, assumption log 18). -/
def Part.psnsFree (x : Part) (home : Nat) : List Nat :=
  ((x.dramSegs home).flatMap fun e => (List.range 16).map fun k => 16 * e.1 + k).filter fun n => n ≠ 0 && !Map.has x.sets n

/-- R146: the PSN of a new set: in a DRAM-homed segment, in the home quadrant first (DESIGN CHOICE, assumption log 18). -/
def freshPsn (x : Part) (home : Nat) : Nat := (x.psnsFree home).headD 0

/-- The lowest segment numbers not in use; a PSN lies below 2^30. -/
def Part.newSegments (x : Part) (n : Nat) : List Nat :=
  (((List.range (x.segments.length + n)).filter fun k => !Map.has x.segments k).take n).filter fun k => 16 * k < Config.psnBound

/-! ### The frames that tables need -/

/-- What tables lack for so many more table slots and descriptor slots. -/
structure TableNeed where
  slabs : Nat
  segments : List Nat
  chunks : List Nat

/-- DESIGN CHOICE, assumption log 16; DESIGN CHOICE, assumption log 155. -/
def Part.tableNeed (x : Part) (slots descs : Nat) : TableNeed :=
  let slabs := ceilDiv (slots - (x.slotsFree.length - x.slotsPromised)) 16
  let more := descs - ((x.psnsFree 0).length - x.descsPromised)
  -- segment 0 has one slot less
  let segs := x.newSegments (if more = 0 then 0 else ceilDiv (more + (if Map.has x.segments 0 then 0 else 1)) 16)
  ⟨slabs, segs, (dedup (segs.map fun n => n / 8192)).filter fun c => !Map.has x.segChunks c⟩

/-- Frames, one for each. -/
def TableNeed.frames (t : TableNeed) : List Nat := List.replicate (t.slabs + t.segments.length + t.chunks.length) 1

/-- The frames become slabs, segments and chunks of the segment table. -/
def Part.giveTables (x : Part) (t : TableNeed) (fs : List Nat) : Part :=
  let segs := t.segments.zip (fs.drop t.slabs)
  let chunks := t.chunks.zip (fs.drop (t.slabs + t.segments.length))
  { x with
    slabs := x.slabs ++ fs.take t.slabs
    segments := segs.foldl (fun m e => Map.put m e.1 ⟨.page, 0, e.2⟩) x.segments
    segChunks := chunks.foldl (fun m e => Map.put m e.1 e.2) x.segChunks }

/-- The tables of a sequence in the hot table fitted to its page table
(DESIGN CHOICE, assumption log 16; DESIGN CHOICE, assumption log 155). -/
def Part.fitTables (x : Part) (i : Nat) : Part :=
  match x.seq i with
  | none => x
  | some q =>
    let n := ceilDiv q.pt.length 512
    let free := x.slotsFree
    let short := n - q.chunks.length
    x.onSeq i fun q =>
      { q with chunks := (q.chunks ++ free.take short).take n, tailDir := q.tailDir.or ((free.drop short).head?) }

/-- A sequence that leaves the hot table gives its table slots back. -/
def Seq.dropTables (q : Seq) : Seq := { q with chunks := [], tailDir := none }

/-- Slabs without a taken slot, and DRAM segments without a set, that nothing is promised, go back; no rule keeps them
(DESIGN CHOICE, assumption log 155). -/
def trimTables (s : State) (p : Nat) : State :=
  let x := s.part p
  let taken := x.slotsTaken
  let slabs := ((x.slabs.filter fun f => taken.all fun a => a / 16 ≠ f).reverse).take ((x.slotsFree.length - x.slotsPromised) / 16)
  let bare := x.segments.filter fun e => e.2.tier = 0 && (x.sets.all fun d => d.1 / 16 ≠ e.1) && !(x.moves.any fun m => m.2.obj = .segment e.1)
  let segs := bare.reverse.take (((x.psnsFree 0).length - x.descsPromised) / 16)
  let s := (slabs ++ segs.map fun e => e.2.frame).foldl (fun s f => freeObject s p f) s
  s.onPart p fun x =>
    { x with
      slabs := x.slabs.filter fun f => !slabs.contains f
      segments := x.segments.filter fun e => !segs.contains e }

/-! ### Frames without the measures of R95 -/

/-- Frames for the objects of a list where free DRAM has them. -/
def takeFrames (p home : Nat) : List Nat → State → Option (State × List Nat)
  | [], s => some (s, [])
  | n :: r, s =>
    match findFrames s (s.part p) home n with
    | none => none
    | some f =>
      match takeFrames p home r (newObject s p f n []) with
      | none => none
      | some t => some (t.1, f :: t.2)

/-- The table frames that are needed, where free DRAM has them. -/
def takeTables (s : State) (p home slots descs : Nat) : Option State :=
  let t := (s.part p).tableNeed slots descs
  (takeFrames p home t.frames s).map fun r => r.1.onPart p fun x => x.giveTables t r.2

/-- R143: the chunk of the rest table that serves an index. -/
def restChunk (i : Nat) : Nat := i / 8192

/-- The roots of a partition that is made, and what its recovered sets and sequences need: segments, chunks (R143, R146, R148). -/
def buildTables (s : State) (p : Nat) : State :=
  let x := s.part p
  let segs := dedup (x.sets.map fun e => e.1 / 16)
  let sc := dedup (segs.map fun n => n / 8192)
  let rc := dedup (x.restTable.map fun e => restChunk e.1)
  match takeFrames p 0 (List.replicate (2 + segs.length + sc.length + rc.length) 1) s with
  | none => s
  | some r =>
    let fs := r.2.drop 2
    r.1.onPart p fun x =>
      { x with
        segRoot := r.2[0]?
        restRoot := r.2[1]?
        segments := (segs.zip fs).foldl (fun m e => Map.put m e.1 ⟨.page, 0, e.2⟩) []
        segChunks := (sc.zip (fs.drop segs.length)).foldl (fun m e => Map.put m e.1 e.2) []
        restChunks := (rc.zip (fs.drop (segs.length + sc.length))).foldl (fun m e => Map.put m e.1 e.2) [] }

/-- What a frame of the partition's tables holds. -/
def Part.tableBytes (x : Part) (frame : Nat) : List Byte :=
  if x.segRoot = some frame then rootBytes x.segChunks 8192
  else if x.restRoot = some frame then rootBytes x.restChunks 2048
  else
    match x.segments.find? fun e => e.2.tier = 0 && e.2.frame = frame with
    | some e => x.segmentImage e.1
    | none =>
      match x.segChunks.find? fun e => e.2 = frame with
      | some e => chunkBytes x.segmentWord e.1
      | none =>
        match x.restChunks.find? fun e => e.2 = frame with
        | some e => chunkBytes x.restWord e.1
        | none =>
          if !x.slabs.contains frame then []
          else (List.range 16).flatMap fun k =>
            let a := 16 * frame + k
            match x.seqs.find? fun e => e.2.chunks.contains a || e.2.tailDir = some a with
            | none => List.replicate 4096 0
            | some e =>
              if e.2.tailDir = some a then e.2.tailSlot ((Map.look x.models e.2.model).map (·.layers) |>.getD 0)
              else e.2.chunkBytes (e.2.chunks.idxOf a)

end Sys2Proof.Machine
end

