-- ==== Sys2Proof/Machine/Pages.lean ====
section
/-! DEFINITION. Pages, page sets and sequences: geometry (R64, R70, R71), page bytes (R72, R73, R79), heat (R131), pins, references
and release (R92, R93), the directory (R98 to R114), homes and their copies (R128, R139, R140, R150), hot-table entries (R89). -/

namespace Sys2Proof.Machine

open Sys2Proof

/-! ### Geometry -/

/-- HB of R71: bytes of one head vector in a format. -/
def headBytes (fmt headDim : Nat) : Nat := if fmt = 14 then 17 * zk2Groups headDim else vecBytes fmt headDim

def Model.footprint (m : Model) : Nat := 2048 + 256 * 2 * m.kvHeads * headBytes m.cacheFormat m.headDim
/-- R64. -/
def Model.stagingBytes (m : Model) : Nat := roundUp (256 * 2 * m.kvHeads * m.headDim) 65536
def Model.stagingFrames (m : Model) : Nat := m.stagingBytes / 65536
def Model.pageFrames (m : Model) : Nat := m.pageKib / 64
/-- R278: frames of a page outside DRAM. -/
def Model.storedFrames (m : Model) : Nat := ceilDiv m.footprint 65536

def Model.none : Model := ⟨0, 1, 1, 1, 64, 64, 14, 0, 0, 0⟩

def Part.model (x : Part) (i : Nat) : Model := Map.get x.models i Model.none

/-! ### Head vectors in pages (R73, R79, R203) -/

/-- Offset of the key (or value) vector of a head at a slot in a staging or tail page. -/
def stagingOff (m : Model) (value : Bool) (h slot : Nat) : Nat :=
  m.headDim * (256 * h + slot) + (if value then 256 * m.kvHeads * m.headDim else 0)

/-- The FP8 bytes of one vector of a staging or tail page. -/
def stagingVec (m : Model) (data : List Byte) (value : Bool) (h slot : Nat) : List Byte :=
  slice data (stagingOff m value h slot) m.headDim

/-- The exact values of one stored vector of a full page, in its stored (for ZK2 rotated) form. -/
def pageVec (m : Model) (data : List Byte) (value : Bool) (h slot : Nat) : List Val :=
  let hb := headBytes m.cacheFormat m.headDim
  if m.cacheFormat = 14 then
    let g := zk2Groups m.headDim
    let base := 0x800 + 4352 * g * h + (if value then 4352 * g * m.kvHeads else 0)
    (List.range g).flatMap fun i =>
      let codes := slice data (base + 16 * (g * slot + i)) 16
      let scale := (slice data (base + 4096 * g + g * slot + i) 1).headD 0
      (List.range 64).map (zk2Elem codes scale)
  else
    let off := 0x800 + 256 * hb * h + hb * slot + (if value then 256 * hb * m.kvHeads else 0)
    vecDecode m.cacheFormat m.headDim (slice data off hb)

/-- The exact values of a vector in the form the location word names; a ZK2 vector is in the rotated domain. -/
def storedVec (m : Model) (kind : LocKind) (data : List Byte) (value : Bool) (h slot : Nat) : List Val :=
  if kind = .page then pageVec m data value h slot else vecDecode 3 m.headDim (stagingVec m data value h slot)

/-- Where the keys and values of n positions from a slot on, of some heads, lie in an object of a form (R73, R79, R203). -/
def blockRanges (m : Model) (kind : LocKind) (h0 heads slot n : Nat) : List (Nat × Nat) :=
  let hb := headBytes m.cacheFormat m.headDim
  (List.range heads).flatMap fun i => [false, true].flatMap fun v =>
    let h := h0 + i
    if kind != .page then [(stagingOff m v h slot, n * m.headDim)]
    else if m.cacheFormat = 14 then
      let g := zk2Groups m.headDim
      let base := 0x800 + 4352 * g * h + (if v then 4352 * g * m.kvHeads else 0)
      [(base + 16 * g * slot, 16 * g * n), (base + 4096 * g + g * slot, g * n)]
    else [(0x800 + 256 * hb * h + hb * slot + (if v then 256 * hb * m.kvHeads else 0), hb * n)]

/-- R72: the header of a page. -/
def pageHeader (m : Model) (layer psn : Nat) (d : PageSet) : List Byte :=
  leBytes 2 1 ++ leBytes 1 m.cacheFormat ++ leBytes 1 layer ++ leBytes 4 d.index ++ leBytes 8 m.tag ++ leBytes 8 psn ++
    leBytes 16 d.digest.toNat ++ List.replicate (0x400 - 0x28) 0 ++ d.tokens.flatMap (fun t => leBytes 4 t.toNat) ++
    List.replicate (4 * (256 - d.tokens.length)) 0

/-- One half (keys or values) of a full page encoded from a staging page (R73, R196, R199, R203, R204). -/
def encodeHalf (m : Model) (data : List Byte) (value : Bool) : List Byte :=
  (List.range m.kvHeads).flatMap fun h =>
    let vecs := (List.range 256).map fun s => stagingVec m data value h s
    if m.cacheFormat = 3 then vecs.flatMap id
    else if m.cacheFormat = 14 then
      let gs := vecs.flatMap fun v => (padGroups m.headDim (v.map ofE4m3)).map zk2Encode
      gs.flatMap Prod.snd ++ gs.map Prod.fst
    else vecs.flatMap fun v => vecEncode m.cacheFormat (vecDecode 3 m.headDim v)

/-- R81 step 2: the bytes of a page written by a flush. -/
def encodePage (m : Model) (layer psn : Nat) (d : PageSet) (data : List Byte) : List Byte :=
  pageHeader m layer psn d ++ encodeHalf m data false ++ encodeHalf m data true

/-- R200: the vectors of slots 0 to n - 1 of a full page as FP8 bytes of a tail page. -/
def decodeTail (m : Model) (kind : LocKind) (data : List Byte) (n : Nat) : List Byte :=
  let half := fun value : Bool => (List.range m.kvHeads).flatMap fun h =>
    (List.range 256).flatMap fun s =>
      if n ≤ s then List.replicate m.headDim 0
      else if kind = .page && m.cacheFormat = 14 then
        (unrotateVec m.headDim ((pageVec m data value h s).map toF32)).map toE4m3
      else if kind = .page then vecEncode 3 (pageVec m data value h s)
      else stagingVec m data value h s
  half false ++ half true

/-! ### Locations (R76, R128) -/

/-- R154: frames of a region. -/
def Region.frames (r : Region) : Nat := r.bytes / 67584
/-- R154: the host address of a frame. -/
def Region.addr (r : Region) (f : Nat) : Nat := r.base + 65536 * f

/-- The bytes of the object that a location names. -/
def Part.bytesAt (x : Part) (l : Loc) : List Byte :=
  match l.tier with
  | 0 => (Map.get x.dram l.frame ⟨0, [], []⟩).data
  | 1 => (Map.get (Map.get x.regions l.region Region.none).alloc l.regionFrame ⟨0, [], []⟩).data
  | _ => (Map.get x.flash.objs l.frame ⟨0, 0, 0, [], []⟩).data

/-- The poisoned sectors of the object that a location names (R441, R453). -/
def Part.badAt (x : Part) (l : Loc) : List Nat :=
  match l.tier with
  | 0 => (Map.get x.dram l.frame ⟨0, [], []⟩).bad
  | 1 => (Map.get (Map.get x.regions l.region Region.none).alloc l.regionFrame ⟨0, [], []⟩).bad
  | _ => (Map.get x.flash.objs l.frame ⟨0, 0, 0, [], []⟩).bad

/-- The poisoned sectors of an object set. -/
def Part.setBad (x : Part) (l : Loc) (b : List Nat) : Part :=
  match l.tier with
  | 0 => { x with dram := Map.edit x.dram l.frame fun o => { o with bad := b } }
  | 1 => { x with regions := Map.edit x.regions l.region fun r =>
      { r with alloc := Map.edit r.alloc l.regionFrame fun o => { o with bad := b } } }
  | _ => { x with flash := { x.flash with objs := Map.edit x.flash.objs l.frame fun o => { o with bad := b } } }

/-- Blocks and frames of flash by number: channel, die, block; page. -/
def blockNo (c d b : Nat) : Nat := (c * 16 + d) * 65536 + b
def blockOf (p : Place) : Nat := blockNo p.channel p.die p.block
def placeNo (p : Place) : Nat := blockOf p * 4096 + p.page

/-- R290: a flash object's LFNs are discarded. -/
def discardFlash (s : State) (p lfn : Nat) : State :=
  let f := (s.part p).flash
  let n := (Map.get f.objs lfn ⟨1, 0, 0, [], []⟩).frames
  let ents := (List.range n).filterMap fun i => Map.look f.map (lfn + i)
  let d := ents.map fun e => (e.place, (Map.get s.flash.blocks (blockOf e.place) Block.reset).eraseCnt)
  let f := { f with
    objs := Map.del f.objs lfn
    map := f.map.filter fun e => e.1 < lfn || lfn + n ≤ e.1
    freeRuns := f.freeRuns ++ [(lfn, n)]
    discards := f.discards ++ d }
  s.onPart p fun x => { x with flash := f, cnt := { x.cnt with discard := x.cnt.discard + BitVec.ofNat 32 d.length } }

/-- The object of a location released. -/
def freeLoc (s : State) (p : Nat) (l : Loc) : State :=
  if l.kind = .empty then s
  else
    match l.tier with
    | 0 => freeObject s p l.frame
    | 1 => s.onPart p fun x =>
        { x with regions := Map.edit x.regions l.region fun r => { r with alloc := Map.del r.alloc l.regionFrame } }
    | _ => discardFlash s p l.frame

/-- R278: a run of n LFNs from the free list of its length, else from the lowest unused number (DEDUCED, assumption log 112). -/
def takeLfns (f : PartFlash) (n : Nat) : Nat × PartFlash :=
  match f.freeRuns.find? fun r => r.2 = n with
  | some r => (r.1, { f with freeRuns := f.freeRuns.erase r })
  | none => (f.lowestLfn, { f with lowestLfn := f.lowestLfn + n })

/-- R154: the lowest run of n free frames of a region that takes new frames. -/
def regionRun (r : Region) (n : Nat) : Option Nat :=
  if r.removing then none
  else
    let use := r.alloc.map fun e => (e.1, e.2.frames)
    let starts := sortBy id (0 :: use.map fun u => u.1 + u.2)
    (starts.filter fun c => c + n ≤ r.frames && use.all fun u => c + n ≤ u.1 || u.1 + u.2 ≤ c).head?

/-- The first region, lowest number first, with room for n frames. -/
def findRegion (x : Part) (n : Nat) : Option (Nat × Nat) :=
  x.regions.findSome? fun e => (regionRun e.2 n).map fun f => (e.1, f)

def putRegion (x : Part) (r f n : Nat) (data : List Byte) : Part :=
  { x with regions := Map.edit x.regions r fun g => { g with alloc := Map.put g.alloc f ⟨n, data, []⟩ } }

/-! ### Heat (R131) -/

def decayed (d : PageSet) (now hl : Nat) : Nat :=
  let n := (now - d.touch) / hl
  if 16 ≤ n then 0 else d.heat / 2 ^ n

/-- Heat brought up to date without a touch. -/
def updateHeat (d : PageSet) (now hl : Nat) : PageSet :=
  { d with heat := decayed d now hl, touch := d.touch + (now - d.touch) / hl * hl }

def touchHeat (d : PageSet) (now hl : Nat) : PageSet :=
  let u := updateHeat d now hl
  if u.lastAdd = now then u else { u with heat := satAdd 65535 u.heat 1024, lastAdd := now }

def orOne (n : Nat) : Nat := if n = 0 then 1 else n

/-- The page sets of a sequence that it alone references. -/
def Part.ownSets (x : Part) (q : Seq) : List Nat :=
  (q.pt.map fun e => e.psn).filter fun n => match x.set n with
    | some d => d.refs = 1
    | none => false

/-- The half-life in force for a set (R131). -/
def halfLife (x : Part) (psn : Nat) : Nat :=
  let parked := x.seqs.any fun e => e.2.state = .parking && (x.ownSets e.2).contains psn
  orOne (if parked then x.regs.parkHalfLife else x.regs.halfLife)

def heatNow (s : State) (x : Part) (psn : Nat) : Nat :=
  match x.set psn with
  | some d => decayed d s.nowS (halfLife x psn)
  | none => 0

/-! ### Digests and the directory (R98, R102 to R114) -/

def domain : List Byte := [0x5A, 0x58, 0x2D, 0x50, 0x46, 0x58, 0x30, 0x31]

def tokenBytes (t : List Word) : List Byte := t.flatMap fun w => leBytes 4 w.toNat

/-- R98: d_k from d_(k-1) and the 256 tokens. -/
def digestOf (tag : Nat) (salt prev : BitVec 128) (tokens : List Word) : BitVec 128 :=
  let m := domain ++ leBytes 8 tag ++ leBytes 16 salt.toNat ++ leBytes 16 prev.toNat ++ tokenBytes tokens
  let d := BitVec.ofNat 128 (leNat (shake256 m 16))
  if d = 0 then 1 else d

/-- R102: the first entry number of a digest's set. -/
def dirBase (d : BitVec 128) : Nat := 8 * (d.toNat % 16384)

/-- R111: the entry that a probe hits. -/
def probe (x : Part) (d : BitVec 128) (model k : Nat) : Option (Nat × DirEntry) :=
  (List.range 8).findSome? fun w =>
    match Map.look x.dir (dirBase d + w) with
    | some e => if e.digest = d && e.model = model && e.index = k then some (dirBase d + w, e) else none
    | none => none

/-- The valid entry that holds a page set. -/
def Part.entryOf (x : Part) (psn : Nat) : Option (Nat × DirEntry) := x.dir.find? fun e => e.2.psn = psn

/-! ### Moves and tentative copies -/

def Move.touches (m : Move) (psn : Nat) : Bool :=
  match m.obj with
  | .page n _ => n = psn
  | _ => false

/-- What a move has reserved is given back (R140). -/
def releaseDest (s : State) (p : Nat) (m : Move) : State :=
  if m.step = .selected || m.step = .waitBuffer || m.why = .promotion || m.dst.kind = .empty then s
  else
    match m.dst.tier with
    | 2 =>
      -- R306: frames already programmed are discarded
      let places := match Map.look s.flash.groups m.group with
        | some g => g.places
        | none => []
      let d := places.map fun a => (a, (Map.get s.flash.blocks (blockOf a) Block.reset).eraseCnt)
      let s := s.onPart p fun x =>
        { x with
          flash := { x.flash with
            freeRuns := x.flash.freeRuns ++ [(m.dst.frame, ceilDiv m.bytes 65536)], discards := x.flash.discards ++ d }
          cnt := { x.cnt with discard := x.cnt.discard + BitVec.ofNat 32 d.length } }
      s.onFlash fun f => { f with groups := Map.del f.groups m.group }
    | _ => freeLoc s p m.dst

/-- A pin's count lowered. -/
def lowerPin (d : PageSet) (epoch : Bool) : PageSet := if epoch then { d with pins1 := d.pins1 - 1 } else { d with pins0 := d.pins0 - 1 }

/-- MOVING of a set follows its moves (R132). -/
def refreshMoving (x : Part) (psn : Nat) : Part :=
  x.onSet psn fun d => { d with moving := x.moves.any fun e => e.2.touches psn }

/-- A move abandoned (R140): its destination, buffer and pin released, the home unchanged. -/
def abandonMove (s : State) (p id : Nat) : State :=
  match Map.look (s.part p).moves id with
  | none => s
  | some m =>
    let s := releaseDest s p m
    s.onPart p fun x =>
      let x := { x with moves := Map.del x.moves id }
      match m.obj, m.pin with
      | .page n _, some (_, e) => refreshMoving (x.onSet n fun d => lowerPin d e) n
      | .page n _, none => refreshMoving x n
      | _, _ => x

def abandonMoves (s : State) (p : Nat) (t : Move → Bool) : State :=
  (((s.part p).moves.filter fun e => t e.2).map fun e => e.1).foldl (fun s id => abandonMove s p id) s

/-- SPEC_PAGES counts the copies that a restore still holds for its sequence (R133). -/
def lowerSpec (s : State) (p : Nat) (t : Tent) : State :=
  match t.restore with
  | some i => s.onSeq p i fun q => { q with specPages := q.specPages - 1 }
  | none => s

/-- The page has no tentative copy any more; its frame is not touched. -/
def forgetTent (s : State) (p psn layer : Nat) (t : Tent) : State :=
  (lowerSpec s p t).onSet p psn fun d => { d with tents := Map.del d.tents layer }

def forgetTailTent (s : State) (p i layer : Nat) (t : Tent) : State :=
  (lowerSpec s p t).onSeq p i fun q => { q with tailTents := Map.del q.tailTents layer }

/-- A tentative copy released. -/
def dropTent (s : State) (p psn layer : Nat) : State :=
  match (s.part p).set psn with
  | none => s
  | some d =>
    match Map.look d.tents layer with
    | none => s
    | some t => forgetTent (freeObject s p t.frame) p psn layer t

def dropTailTent (s : State) (p i layer : Nat) : State :=
  match (s.part p).seq i with
  | none => s
  | some q =>
    match Map.look q.tailTents layer with
    | none => s
    | some t => forgetTailTent (freeObject s p t.frame) p i layer t

def dropRestTent (s : State) (p i : Nat) : State :=
  match (s.part p).seq i with
  | none => s
  | some q =>
    match q.restTent with
    | none => s
    | some t => (freeObject s p t.frame).onSeq p i fun q => { q with restTent := none }

/-! ### Release (R93) -/

/-- A segment outside DRAM whose last set is gone goes with it; one in DRAM goes by trimTables (DESIGN CHOICE, assumption log 155). -/
def bareSegment (s : State) (p n : Nat) : State :=
  match Map.look (s.part p).segments n with
  | none => s
  | some l =>
    if l.tier = 0 || (s.part p).sets.any fun e => e.1 / 16 = n then s
    else
      let s := abandonMoves s p fun m => m.obj = .segment n
      (freeLoc s p l).onPart p fun x => { x with segments := Map.del x.segments n }

/-- PAGE_SET_RELEASE: every page, copy and staging page of the set returned, its descriptor and PSN free. -/
def releaseSet (s : State) (p psn : Nat) : State :=
  match (s.part p).set psn with
  | none => s
  | some d =>
    let s := abandonMoves s p fun m => m.touches psn
    let s := d.tents.foldl (fun s e => freeObject (lowerSpec s p e.2) p e.2.frame) s
    let s := d.old.foldl (fun s o => freeLoc s p o.loc) s
    let s := d.loc.foldl (fun s e => freeLoc s p e.2) s
    trimTables (bareSegment (s.onPart p fun x => { x with sets := Map.del x.sets psn }) p (psn / 16)) p

/-- R93: a set with REFS 0 and DIR clear is released, or waits for its last pin. -/
def maybeRelease (s : State) (p psn : Nat) : State :=
  match (s.part p).set psn with
  | none => s
  | some d =>
    if d.refs ≠ 0 || d.dir then s
    else if d.pins0 = 0 && d.pins1 = 0 then releaseSet s p psn
    else
      -- a move's own pin drops as the move is abandoned (R140)
      let s := abandonMoves (s.onSet p psn fun d => { d with releasing := true }) p fun m => m.touches psn
      match (s.part p).set psn with
      | none => s
      | some d => if d.pins0 = 0 && d.pins1 = 0 then releaseSet s p psn else s

/-- R140, R141: heat above DEMOTE_HEAT ends the parking and cooling moves of a set. -/
def heatAbandons (s : State) (p psn heat : Nat) : State :=
  if heat ≤ (s.part p).regs.demoteHeat then s
  else abandonMoves s p fun m => m.touches psn && (m.why = .parking || m.why = .cooling)

/-- PAGE_SET_PIN (R92): a pin in the current epoch, which touches the heat (DEDUCED, assumption log 65). -/
def pinSet (s : State) (p psn : Nat) : State × Bool :=
  match (s.part p).set psn with
  | none => (s, false)
  | some d =>
    let hl := halfLife (s.part p) psn
    let d1 := touchHeat d s.nowS hl
    let d2 := if d.pinEpoch then { d1 with pins1 := d1.pins1 + 1 } else { d1 with pins0 := d1.pins0 + 1 }
    (heatAbandons (s.onSet p psn fun _ => d2) p psn d2.heat, d.pinEpoch)

/-- A pin dropped; a set marked RELEASING goes with its last pin. -/
def unpinSet (s : State) (p psn : Nat) (epoch : Bool) : State := maybeRelease (s.onSet p psn fun d => lowerPin d epoch) p psn

def unpinAll (s : State) (p : Nat) (l : List (Nat × Bool)) : State := l.foldl (fun s e => unpinSet s p e.1 e.2) s

/-- REFS raised by one; from 0, the entry's HELD is set and AGE is 0 (R105). -/
def addRef (s : State) (p psn : Nat) : State :=
  match (s.part p).set psn with
  | none => s
  | some d =>
    let s := s.onSet p psn fun d => { d with refs := d.refs + 1 }
    if d.refs ≠ 0 then s
    else s.onPart p fun x =>
      { x with dir := x.dir.map fun e => if e.2.psn = psn then (e.1, { e.2 with held := true, age := 0 }) else e }

/-- REFS lowered by one; at 0, HELD clears and AGE is 0, and the set is released where nothing else holds it. -/
def dropRef (s : State) (p psn : Nat) : State :=
  match (s.part p).set psn with
  | none => s
  | some d =>
    let s := s.onSet p psn fun d => { d with refs := d.refs - 1 }
    if d.refs ≠ 1 then s
    else
      let s := s.onPart p fun x =>
        { x with dir := x.dir.map fun e => if e.2.psn = psn then (e.1, { e.2 with held := false, age := 0 }) else e }
      maybeRelease s p psn

/-- DIRECTORY_ENTRY_EVICT (R114). -/
def evictEntry (s : State) (p i : Nat) : State :=
  match Map.look (s.part p).dir i with
  | none => s
  | some e =>
    let s := s.onPart p fun x =>
      { x with dir := Map.del x.dir i, cnt := { x.cnt with evicted := x.cnt.evicted + 1 } }
    maybeRelease (s.onSet p e.psn fun d => { d with dir := false }) p e.psn

/-! ### Location changes (R92, R139 step 4) -/

/-- The pins of the epoch that is not current are zero (DEDUCED, assumption log 15). -/
def PageSet.canFlip (d : PageSet) : Bool := if d.pinEpoch then d.pins0 = 0 else d.pins1 = 0

/-- The commit point of a location change: LOC takes the new word, PIN_EPOCH flips, and the superseded copy awaits the old epoch. -/
def flipLoc (s : State) (p psn layer : Nat) (l : Loc) : State :=
  s.onSet p psn fun d =>
    let o := Map.get d.loc layer Loc.none
    { d with
      loc := Map.put d.loc layer l
      pinEpoch := !d.pinEpoch
      old := if o.kind = .empty then d.old else d.old ++ [⟨layer, o, d.pinEpoch⟩] }

/-- R92: superseded copies whose epoch has no pin are released. -/
def releaseOld (s : State) (p psn : Nat) : State :=
  match (s.part p).set psn with
  | none => s
  | some d =>
    let free := fun o : OldCopy => if o.epoch then d.pins1 = 0 else d.pins0 = 0
    let s := (d.old.filter free).foldl (fun s o => freeLoc s p o.loc) s
    s.onSet p psn fun d => { d with old := d.old.filter fun o => !free o }

/-- TENTATIVE_PROMOTE (R150): a complete tentative copy becomes the home; where the other epoch still has pins the change waits as a move
that is written. -/
def promote (s : State) (p psn layer : Nat) : State :=
  match (s.part p).set psn with
  | none => s
  | some d =>
    match Map.look d.tents layer with
    | none => s
    | some t =>
      if !t.complete || d.releasing then s
      else
        -- R140: a promotion ends a move of the same page
        let s := abandonMoves s p fun m => m.obj = .page psn layer
        if d.canFlip then
          forgetTent (flipLoc s p psn layer ⟨.page, 0, t.frame⟩) p psn layer t
        else
          s.onPart p fun x =>
            let m : Move := ⟨.page psn layer, .promotion, .written, Map.get d.loc layer Loc.none, ⟨.page, 0, t.frame⟩, 0, [], none, 0, none, [], 0⟩
            refreshMoving { x with moves := Map.put x.moves x.nextMove m, nextMove := x.nextMove + 1 } psn

/-- A complete tentative copy of a tail page becomes its home. -/
def promoteTail (s : State) (p i layer : Nat) : State :=
  match (s.part p).seq i with
  | none => s
  | some q =>
    match Map.look q.tailTents layer with
    | none => s
    | some t =>
      if !t.complete then s
      else
        let s := freeLoc s p (Map.get q.tails layer Loc.none)
        forgetTailTent (s.onSeq p i fun q => { q with tails := Map.put q.tails layer ⟨.page, 0, t.frame⟩ }) p i layer t

/-! ### Sequences -/

/-- The sequence that a handle names (R87). -/
def Part.handle (x : Part) (h : Nat) : Option Seq :=
  match x.seq (handleIndex h) with
  | some q => if q.gen = handleGen h then some q else none
  | none => none

/-- R78: the length of a layer. -/
def Seq.lenOf (q : Seq) (l : Nat) : Nat := if q.layerDone.getLsbD l then q.length else q.stepBase

/-- R83: a step is open. -/
def Seq.isOpen (q : Seq) : Bool := q.layerRsv.getLsbD 0 || q.layerDone.getLsbD 0

def Seq.handleOf (q : Seq) (i : Nat) : Nat := mkHandle q.gen i

/-- STATE codes of R223. -/
def SeqState.code : SeqState → Nat
  | .active => 1
  | .parking => 2
  | .rest => 3
  | .restoring => 4
  | .swapped => 5

/-- A command of the partition that has started, be it killed since, and that names the sequence is in flight; one that is only fetched
names none yet (DESIGN CHOICE, assumption log 151). -/
def Part.busy (x : Part) (i : Nat) : Bool := x.slots.any fun e => e.2.window.any fun f => f.seqs.contains i

/-- The tentative copies of a sequence: (psn, layer) of the sets of its page table. -/
def Part.tentsOf (x : Part) (q : Seq) : List (Nat × Nat) :=
  q.pt.flatMap fun e => match x.set e.psn with
    | some d => d.tents.map fun t => (e.psn, t.1)
    | none => []

/-- A tentative copy of a shared set that a running command has read (R153). -/
def Part.readByOther (x : Part) (psn layer : Nat) : Bool :=
  x.slots.any fun e => e.2.window.any fun f => match f.plan with
    | .attention _ es => es.any fun el => el.touched.contains (psn, layer)
    | _ => false

/-- The same of a tail page: a running element of the sequence in that layer reads it. -/
def Part.tailRead (x : Part) (i layer : Nat) : Bool :=
  x.slots.any fun e => e.2.window.any fun f => match f.plan with
    | .attention _ es => field f.word 0x11 1 = layer && es.any fun el => handleIndex el.handle = i && el.phase = .running
    | _ => false

/-- A tentative copy that is not released: a running command has read it (R141), or the promotion that a committed reader asked for waits for its
commit point (R150). -/
def Part.tentHeld (x : Part) (psn layer : Nat) : Bool :=
  x.readByOther psn layer || x.moves.any fun m => m.2.obj = .page psn layer && m.2.why = .promotion

/-- Every tentative copy of the sequence released that is not held; answers how many
(DEDUCED, assumption log 28; DEDUCED, assumption log 147). -/
def dropTents (s : State) (p i : Nat) : State × Nat :=
  match (s.part p).seq i with
  | none => (s, 0)
  | some q =>
    let ts := ((s.part p).tentsOf q).filter fun t => !(s.part p).tentHeld t.1 t.2
    let s := ts.foldl (fun s t => dropTent s p t.1 t.2) s
    let s := q.tailTents.foldl (fun s t => dropTailTent s p i t.1) s
    ((dropRestTent s p i).onSeq p i fun q => { q with restored := false }, ts.length + q.tailTents.length)

/-- Every complete tentative copy of the sequence becomes its home (R153); answers how many (DEDUCED, assumption log 28). -/
def promoteAll (s : State) (p i : Nat) : State × Nat :=
  match (s.part p).seq i with
  | none => (s, 0)
  | some q =>
    let ts := ((s.part p).tentsOf q).filter fun t => match (s.part p).set t.1 with
      | some d => (Map.get d.tents t.2 ⟨0, false, 0, none⟩).complete
      | none => false
    let tt := (q.tailTents.filter fun e => e.2.complete).map fun e => e.1
    let s := ts.foldl (fun s t => promote s p t.1 t.2) s
    let s := tt.foldl (fun s l => promoteTail s p i l) s
    (s.onSeq p i fun q => { q with restored := false, holdEnd := 0 }, ts.length + tt.length)

/-- The heat of each own set of the sequence brought up to date with a half-life. -/
def updateOwn (s : State) (p i hl : Nat) : State :=
  match (s.part p).seq i with
  | none => s
  | some q => ((s.part p).ownSets q).foldl (fun s n => s.onSet p n fun d => updateHeat d s.nowS (orOne hl)) s

/-- A sequence enters PARKING (R131). -/
def parkSeq (s : State) (p i : Nat) : State :=
  let s := updateOwn s p i (s.part p).regs.halfLife
  s.onSeq p i fun q => { q with state := .parking, parkTime := s.nowS, stuck := false }

/-- Moves that park a sequence: of its own pages, tails, or rest frame. -/
def parkingMove (x : Part) (i : Nat) (m : Move) : Bool :=
  m.why = .parking && (match m.obj with
    | .tail j _ => j = i
    | .rest j => j = i
    | .page n _ => match x.seq i with
      | some q => q.pt.any fun e => e.psn = n
      | none => false
    | .segment _ => false
    | .transit _ _ _ _ => false)

/-- The prediction of a sequence removed, as its resume has come (DEDUCED, assumption log 13). -/
def noPrediction (q : Seq) : Seq := { q with predicted := false, hinted := false, predTime := 0, holdEnd := 0 }

/-- LAST_USE of R88: the commit of a command that names a sequence with a hot-table entry (DEDUCED, assumption log 27). -/
def useSeq (s : State) (p i : Nat) : State := s.onSeq p i fun q => if q.state = .rest then q else { q with lastUse := s.nowS }

/-- A RESTORING sequence back at REST: HOME_Q and LAST_USE are again those of its rest frame (R153, R223)
(DEDUCED, assumption log 27; DEDUCED, assumption log 146). -/
def Part.backToRest (x : Part) (q : Seq) : Seq :=
  let b := x.bytesAt q.restRef
  noPrediction { q.dropTables with state := .rest, restored := false, homeQ := field b 6 1, lastUse := field b 0x18 4 }

/-! ### Hot-table entries (R89) -/

/-- Commands in flight that hold an entry reserved for a sequence that they will create or wake. -/
def Flight.reservesHot (f : Flight) : Bool :=
  match f.plan with
  | .lookup _ _ _ i _ _ => i ≠ 0 && cOpcode f.word = Op.seqOpen
  | .copy _ i _ => i ≠ 0
  | .resume => true
  | _ => false

def Part.hotUsed (x : Part) : Nat :=
  (x.seqs.filter fun e => e.2.state != .rest).length +
    sum (x.slots.map fun e => (e.2.window.filter Flight.reservesHot).length) + (x.buffers.filter fun e => e.2.migration.isSome).length

/-- The partition may take a free entry. -/
def mayTakeHot (s : State) (p : Nat) : Bool :=
  let all := s.livePartitions.map fun n => (s.part n).hotUsed
  let free := Config.hotEntries - sum all
  let others := sum ((s.livePartitions.filter fun n => n != p).map fun n => Config.hotFloor - (s.part n).hotUsed)
  free ≠ 0 && ((s.part p).hotUsed < Config.hotFloor || others ≤ free - 1)

/-- What a command that needs an entry meets. -/
inductive HotEntry where
  | free
  | parked (s : State) (victim : Nat)
  | none

/-- R89: an entry, or HOT_ENTRY_VICTIM_PARK, or neither. -/
def takeHot (s : State) (p : Nat) : HotEntry :=
  if mayTakeHot s p then .free
  else
    let x := s.part p
    let c := x.seqs.filter fun e => e.2.state = .active && !x.busy e.1
    match leastBy (fun e : Nat × Seq => e.2.lastUse) c with
    | some v => .parked (parkSeq s p v.1) v.1
    | none => .none

/-- A PARKING sequence that a waking command names is ACTIVE again; its moves that have not committed are abandoned (R141)
(DEDUCED, assumption log 13). -/
def unpark (s : State) (p i : Nat) : State :=
  let s := updateOwn s p i (s.part p).regs.parkHalfLife
  let s := abandonMoves s p (parkingMove (s.part p) i)
  s.onSeq p i fun q => noPrediction { q with state := .active, stuck := false }

end Sys2Proof.Machine
end

