-- ==== Sys2Proof/Machine/Sealed.lean ====
section
/-! DEFINITION. What external memory holds (R392 to R394): the memory keys, the tweak and the seal of a sector, and with them the bytes of DRAM
sectors, of flash plane pages (R275, R276) and of host regions (R154). -/

namespace Sys2Proof.Machine

open Sys2Proof

/-! ### Keys (R392) -/

/-- The code of a lifecycle state (R405). -/
def lifecycleCode : Lifecycle → Nat
  | .manufacture => 1
  | .production => 2
  | .rma => 3

/-- The 96 bytes of the memory keys, from DEVICE_SECRET (DEDUCED, assumption log 163). -/
def memoryKeys (o : Oxsis) : List Byte :=
  shake256 (asciiBytes "ZX-MEMK1" ++ leBytes 1 (lifecycleCode o.keyLifecycle) ++ (List.range 64).map Config.deviceSecretByte) 96

/-! ### Sectors (R394) -/

/-- SPACE of a tweak. -/
inductive Space where
  | dram | flash | hostRegion | mapHost | backing

def Space.code : Space → Nat
  | .dram => 0
  | .flash => 1
  | .hostRegion => 2
  | .mapHost => 3
  | .backing => 4

structure Tweak where
  location : Nat
  space : Space
  device : Bool
  part : Nat
  epoch : Nat

/-- The 128 bits of the tweak. -/
def Tweak.bytes (t : Tweak) : List Byte :=
  leBytes 16 (t.location % 2 ^ 48 + t.space.code * 2 ^ 48 + Bool.bit t.device * 2 ^ 51 + (if t.device then 0 else t.part % 16) * 2 ^ 52 + t.epoch % 2 ^ 32 * 2 ^ 64)

/-- The MAC of a ciphertext under its tweak. -/
def sectorMac (keys : List Byte) (t : Tweak) (cipher : List Byte) : List Byte := kmac256 (slice keys 64 32) (t.bytes ++ cipher) (asciiBytes "ZX-MAC01") 8

/-- A sector of 256 bytes as external memory holds it: its ciphertext and its MAC. -/
def sealSector (keys : List Byte) (t : Tweak) (data : List Byte) : List Byte × List Byte :=
  let c := xts256 (slice keys 0 32) (slice keys 32 32) t.bytes (slice data 0 256)
  (c, sectorMac keys t c)

/-- The sectors of some bytes, sector i under the tweak of number i. Those that are poisoned have a MAC that decodes as uncorrectable (R441): a free value
(DESIGN CHOICE, assumption log 163). -/
def sealBytes (keys : List Byte) (t : Nat → Tweak) (bad : List Nat) (n : Nat) (data : List Byte) : List (List Byte × List Byte) :=
  (List.range n).map fun i =>
    let c := sealSector keys (t i) (slice data (256 * i) 256)
    if bad.contains i then (c.1, leBytes 8 (Config.poisonMac (t i).location).toNat) else c

/-! ### DRAM -/

/-- The tweak of a DRAM sector at a byte address, of partition p's data or, with none, of the device's. -/
def dramTweak (s : State) (p : Option Nat) (addr : Nat) : Tweak :=
  match p with
  | some p => ⟨addr / 256, .dram, false, p, (s.part p).epoch⟩
  | none => ⟨addr / 256, .dram, true, 0, s.oxs.scrubEpoch⟩

/-- What a DRAM sector holds, with the MAC in the metadata bits of its bursts. -/
def dramSector (s : State) (p : Option Nat) (addr : Nat) (data : List Byte) : List Byte × List Byte :=
  sealSector (memoryKeys s.oxs) (dramTweak s p addr) data

/-! ### Flash (R275, R276) -/

/-- The 64 bytes of a frame header. -/
def Frame.headerBytes (f : Frame) : List Byte :=
  leBytes 1 1 ++ leBytes 1 f.kind ++ leBytes 1 f.part ++ leBytes 1 (Bool.bit f.isSeal + 2 * Bool.bit f.isCseal + 4 * Bool.bit f.copy) ++ leBytes 4 f.epoch ++
    leBytes 5 f.lfn ++ leBytes 1 (f.gpos % 16 + 16 * (f.glen - 1)) ++ leBytes 1 (f.progTemp % 256).toNat ++ [0] ++ leBytes 8 f.wseq ++ leBytes 8 f.vseq ++
    leBytes 6 f.group ++ leBytes 6 f.cgroup ++ leBytes 4 f.progTime ++ leBytes 4 f.srcAge ++ leBytes 3 f.eraseCnt ++ [0] ++ leBytes 8 f.obj

/-- The tweak of sector i of a frame: its LFN, or VSEQ for a device frame; a copy keeps both. -/
def Frame.tweak (f : Frame) (i : Nat) : Tweak :=
  if 8 ≤ f.kind then ⟨f.vseq % 2 ^ 40 * 256 + i, .flash, true, 0, f.epoch⟩ else ⟨f.lfn * 256 + i, .flash, false, f.part, f.epoch⟩

/-- The sectors, of those of an object, that lie in its frame i, by their number in that frame. -/
def sectorsIn (i : Nat) (l : List Nat) : List Nat := (l.filter fun k => k / 256 = i).map fun k => k % 256

/-- The 256 sectors of a frame, as ciphertext and MAC. -/
def Frame.sectors (s : State) (f : Frame) : List (List Byte × List Byte) := sealBytes (memoryKeys s.oxs) f.tweak f.bad 256 f.data

/-- Bytes 0 to 17,407 of plane page q: ciphertext, MACs, header with its parity, and the parity of the four data codewords. The code is the die profile's
(DESIGN CHOICE, assumption log 163). -/
def Frame.planePage (s : State) (f : Frame) (q : Nat) : List Byte :=
  let l := ((f.sectors s).drop (64 * q)).take 64
  let data := l.flatMap fun e => e.1
  let macs := l.flatMap fun e => e.2
  let h := f.headerBytes
  data ++ macs ++ h ++ (List.range 32).map (Config.headerParity h) ++
    (List.range 4).flatMap fun k => (List.range 104).map (Config.dataParity (slice data (4096 * k) 4096 ++ slice macs (128 * k) 128))

/-! ### Host regions (R154) -/

/-- The tweak of sector i of the frames from f on in region r. -/
def regionTweak (s : State) (p r f i : Nat) : Tweak := ⟨r % 16 * 2 ^ 32 + (f * 256 + i) % 2 ^ 32, .hostRegion, false, p, (s.part p).epoch⟩

/-- Where the MAC of sector i of the frames from f on lies. -/
def Region.macAddr (r : Region) (f i : Nat) : Nat := r.base + 65536 * r.frames + 2048 * f + 8 * i

/-- The bytes of an object are written to its region: the ciphertext of the sectors up to its footprint, and their MACs
(DESIGN CHOICE, assumption log 108). -/
def writeRegion (s : State) (p r f bytes : Nat) (bad : List Nat) (data : List Byte) : State :=
  let g := Map.get (s.part p).regions r Region.none
  let l := sealBytes (memoryKeys s.oxs) (regionTweak s p r f) bad (ceilDiv bytes 256) data
  let m := Memory.writeBytes s.hostMem (g.addr f) (l.flatMap fun e => e.1)
  { s with hostMem := Memory.writeBytes m (g.macAddr f 0) (l.flatMap fun e => e.2) }

end Sys2Proof.Machine
end

