-- ==== Sys2Proof/Machine/Flow.lean ====
section
/-! DEFINITION. The life of a command (R41 to R58, R211 to R215, R257 to R264): the fetch window and DONE_MASK, when a command may start,
the checks of R213, how a command ends (commit, reject, kill, abort), its record, its SIGNAL, reservations and their release. -/

namespace Sys2Proof.Machine

open Sys2Proof

/-! ### The fetch window (R40, R41) -/

def Slot.size (x : Slot) : Nat := 2 ^ x.entriesLog2
/-- The distance of a ring index from HEAD. -/
def Slot.offset (x : Slot) (i : Nat) : Nat := (i + x.size - x.head % x.size) % x.size

def State.flight (s : State) (c : CmdRef) : Option Flight := (s.slot c.part c.slot).window.find? fun f => f.index = c.index

def State.onFlight (s : State) (c : CmdRef) (g : Flight → Flight) : State :=
  s.onSlot c.part c.slot fun x => { x with window := x.window.map fun f => if f.index = c.index then g f else f }

def setStage (s : State) (c : CmdRef) (st : Stage) : State := s.onFlight c fun f => { f with stage := st }
def setPlan (s : State) (c : CmdRef) (p : Plan) : State := s.onFlight c fun f => { f with plan := p }

/-- The commands of the window that come earlier in ring order; those are the earlier ones not yet committed. -/
def Slot.earlier (x : Slot) (f : Flight) : List Flight := x.window.filter fun g => x.offset g.index < x.offset f.index

/-- HEAD moved past the committed commands at the front of DONE_MASK (R40). -/
def Slot.advance : Nat → Slot → Slot
  | 0, x => x
  | n + 1, x =>
    if x.doneMask.getLsbD 0 then advance n { x with head := (x.head + 1) % x.size, doneMask := x.doneMask >>> 1 } else x

/-- A ring index marked as ended. -/
def Slot.markDone (x : Slot) (i : Nat) : Slot :=
  Slot.advance 65 { x with doneMask := x.doneMask ||| (1 : BitVec 64) <<< x.offset i }

/-- INFLIGHT of HUB_SQ_STATE (R45). -/
def Slot.inflight (x : Slot) : Nat := x.window.length

/-- The drain that a clearing of EN began ends with the window's last command; an EN written meanwhile then takes effect (R45). -/
def Slot.endDrain (x : Slot) : Slot :=
  if x.draining && x.window = [] then { x with draining := false, dbDrop := if x.csqEn then 0 else x.dbDrop } else x

/-! ### Which sequences a command names (R215) -/

/-- Bytes from the push window or from host memory. -/
def operandBytes (s : State) (p : Nat) (pw : Bool) (a n : Nat) : List Byte :=
  if pw then (s.part p).pushBytes a n else s.hostBytes a n

def cLayer (w : List Byte) : Nat := field w 0x11 1
def cN (w : List Byte) : Nat := field w 0x12 2
def cListPw (w : List Byte) : Bool := bit (field w 0x17 1) 0
def cList (w : List Byte) : Nat := field w 0x18 8
def cHandle (w : List Byte) : Nat := field w 0x10 4
def cModel (w : List Byte) : Nat := field w 0x10 1 % 16

/-- Element e of the list of an attention command. -/
def elementEntry (s : State) (p : Nat) (w : List Byte) (e : Nat) : Entry64 :=
  entryOf (operandBytes s p (cListPw w) (cList w + 64 * e) 64)

def namesOf (s : State) (p : Nat) (w : List Byte) : List Nat :=
  let op := cOpcode w
  if isAttention op then (List.range (Nat.min (cN w) 256)).map fun e => handleIndex (elementEntry s p w e).handle
  else if (Op.seqFork ≤ op && op ≤ Op.seqQuery) || op = Op.kvRead || op = Op.prefixPublish || op = Op.prefixRetain ||
      (op = Op.prefixEvict && field w 0x18 1 = 1) || op = Op.seqMigrate then [handleIndex (cHandle w)]
  else []

/-! ### Starting (R54, R58, R215, R230) -/

/-- A command that holds back every later command of its slot until it has committed. -/
def holdsBack (w : List Byte) : Bool := isControl (cOpcode w) || cOpcode w = Op.fence || cOpcode w = Op.wait

/-- A command that starts only when every earlier one has committed. -/
def needsAlone (w : List Byte) : Bool := cBarrier w || isControl (cOpcode w) || cOpcode w = Op.fence

/-- Every ring index from HEAD to the command's is in the window or has ended: nothing earlier is still to be fetched. -/
def Slot.noGap (x : Slot) (f : Flight) : Bool :=
  (List.range (x.offset f.index)).all fun k =>
    x.doneMask.getLsbD k || x.window.any fun g => x.offset g.index = k

/-- What the start of the command reads of its sequence, beyond the handle and the sequence's state, is what its run depends on: LENGTH, the
page table, pages (R94, R101, R224, R227). -/
def readsSequence (w : List Byte) : Bool :=
  let op := cOpcode w
  op = Op.seqFork || op = Op.seqTrim || op = Op.kvRead || op = Op.prefixPublish || op = Op.seqMigrate

/-- R53: the later of two commands that name one sequence sees every effect of the earlier. Where the start of the later one reads what the
earlier changes at its commit point, it starts after that; an attention command meets an earlier append by its extent (R57)
(DEDUCED, assumption log 142). -/
def startsAfter (g f : Flight) : Bool :=
  cOpcode g.word = Op.seqTrim || (readsSequence f.word && (isAttention (cOpcode g.word) || readsSequence g.word))

/-- DEDUCED, assumption log 142. -/
def mayStart (s : State) (c : CmdRef) (f : Flight) : Bool :=
  let x := s.slot c.part c.slot
  let e := x.earlier f
  let mine := namesOf s c.part f.word
  s.ready && (s.part c.part).live && !x.draining && !x.stopped && (s.func c.part).disable.isNone && f.stage = .fetched && x.noGap f &&
    (!needsAlone f.word || e = []) && e.all (fun g => !holdsBack g.word) &&
    e.all (fun g => (g.stage != .fetched && !startsAfter g f) || (namesOf s c.part g.word).all fun i => !mine.contains i)

/-- COMMAND_CHECK (R213), steps 1 to 4: the status of the first check that fails. -/
def commandCheck (slot : Nat) (w : List Byte) : Option Nat :=
  if !listedOpcodes.contains (cOpcode w) then some St.unknownOpcode
  else if !reservedClear w then some St.reservedField
  else if isControl (cOpcode w) && slot ≠ 0 then some St.wrongQueue
  else if cSignal w && cSigInc w = 0 then some St.operandRange
  else none

/-! ### Counters and waits (R58, R231) -/

/-- A waiting wait command whose counter has reached its value gets its commit request (DEDUCED, assumption log 141). -/
def checkWait (x : Part) (f : Flight) : Flight :=
  let v := (x.counter (field f.word 0x10 1)).toNat
  if f.stage = Stage.waiting Wait.counter ∧ field f.word 0x18 8 ≤ v then { f with stage := .requested, plan := .waitEnd false v } else f

def checkWaits (s : State) (p : Nat) : State :=
  s.onPart p fun x => { x with slots := Map.each x.slots fun y => { y with window := y.window.map (checkWait x) } }

def setCounter (s : State) (p c : Nat) (v : BitVec 64) : State :=
  checkWaits (s.onPart p fun x => { x with counters := Map.put x.counters c v }) p

def addCounter (s : State) (p c n : Nat) : State := setCounter s p c ((s.part p).counter c + BitVec.ofNat 64 n)

/-- SIGNAL_INCREMENT of a command's header (R58). -/
def raiseSignal (s : State) (c : CmdRef) (w : List Byte) : State :=
  if cSignal w && cSigInc w ≠ 0 then addCounter s c.part (cSigCtr w) (cSigInc w) else s

/-! ### Units of a command leave the tiles (R257, R258, R263) -/

def Unit.isOf (u : Unit) (c : CmdRef) : Bool := u.part = c.part && u.slot = c.slot && u.index = c.index

/-- R244: the first unit in the steal queues of a tile's quadrant, its own group's first. -/
def popSteal (d : Sched) (t : Nat) : Option (Nat × Sched) :=
  let g := t / 16
  let order := (List.range 16).map fun i => g / 16 * 16 + (g + i) % 16
  order.findSome? fun k => match Map.get d.steal k [] with
    | [] => none
    | u :: r => some (u, { d with steal := Map.put d.steal k r })

/-- A tile's empty next place takes a unit from the steal queues. -/
def fillTile (d : Sched) (t : Nat) : Sched :=
  let y := Map.get d.tiles t Tile.reset
  if y.next ≠ none || y.retired then d
  else match popSteal d t with
    | none => d
    | some (u, d) =>
      { d with tiles := Map.put d.tiles t { y with next := some u }
               units := Map.edit d.units u fun x => { x with place := .next t } }

/-- Every tile with an empty next place looks for work (R244). -/
def fillNext (s : State) : State :=
  s.onSched fun d =>
    let quads := (List.range 4).filter fun q => (List.range 16).any fun g => Map.get d.steal (16 * q + g) [] ≠ []
    quads.foldl (fun d q => ((List.range 256).map fun i => 256 * q + i).foldl fillTile d) d

/-- Units that a test names leave their tiles and queues; the generation of each record rises. The tile time of a run that is cut off is
charged, as lost where the cause is a kill (R255); how long it ran is a free value (DESIGN CHOICE, assumption log 105). -/
def removeUnits (s : State) (lost : Bool) (t : Unit → Bool) : State :=
  let out := s.sched.units.filter fun e => t e.2
  let gone := out.map fun e => e.1
  let keep := fun o : Option Nat => match o with
    | some u => if gone.contains u then none else some u
    | none => none
  let s := out.foldl (fun s e => match e.2.place with
    | .running _ =>
      let d := s.draw
      chargeTile d.2 e.2.part e.2.quad (Config.freeWord d.1).toNat e.2.snare lost
    | _ => s) s
  let s := out.foldl (fun s e => abandonMoves s e.2.part fun m => match m.obj with
    | .transit u _ _ _ => u = e.1
    | _ => false) s
  fillNext (s.onSched fun d =>
    { d with
      units := d.units.filter fun e => !t e.2
      tiles := Map.each d.tiles fun y => { y with running := keep y.running, next := keep y.next }
      steal := Map.each d.steal fun l => l.filter fun u => !gone.contains u
      generations := gone.foldl (fun m u => Map.put m (u % 65536) ((Map.get m (u % 65536) 0 + 1) % 256)) d.generations })

/-! ### What a command waits for (R156) -/

/-- What a unit waits for, under one numbering: reads of host memory, reads of flash, and pages that wait for move-buffer space. -/
def hostCode (id : Nat) : Nat := 3 * id
def flashCode (id : Nat) : Nat := 3 * id + 1
def transitCode (id : Nat) : Nat := 3 * id + 2

/-- The cause that counts for it (DEDUCED, assumption log 168). -/
def codeCause (code : Nat) : Nat := if code % 3 = 0 then Stall.hostLate else if code % 3 = 1 then Stall.flashLate else Stall.moveBuf

/-- The causes under which a command waits now: of its waiting elements and of its units' reads; of another command, the one it noted as its wait
began (DEDUCED, assumption log 168). -/
def causesNow (s : State) (c : CmdRef) (f : Flight) : List Nat :=
  match f.stage with
  | .waiting .units =>
    (match f.plan with
      | .attention _ es => es.filterMap fun e => e.late
      | _ => []) ++ (s.sched.units.filter fun u => u.2.isOf c).flatMap fun u => u.2.reads.map codeCause
  | .waiting .alloc => f.cause.toList
  | .waiting .segment => f.cause.toList
  | .waiting .moveBuf => f.cause.toList
  | .waiting .restRead => f.cause.toList
  | _ => []

/-- Only the first cause in effect counts: its wait counts once, as it ends, and then the next cause in effect is the one that counts
(DEDUCED, assumption log 168). -/
def noteCause (s : State) (c : CmdRef) : State :=
  match s.flight c with
  | none => s
  | some f =>
    let l := causesNow s c f
    match f.cause with
    | none => s.onFlight c fun f => { f with cause := l.head? }
    | some k => if l.contains k then s else (stallFree s c.part k).onFlight c fun f => { f with cause := l.head? }

/-- A wait that ends with its command. -/
def endCause (s : State) (p : Nat) (f : Flight) : State :=
  match f.cause with
  | none => s
  | some k => stallFree s p k

/-! ### Resources of a run -/

/-- Pages and staging that the run of a command has allocated and that nothing names yet (R48, R80). -/
def planFrames (p : Plan) : List Nat :=
  match p with
  | .attention _ es => es.flatMap fun e => e.newFrames ++ e.outFrames ++ (if e.tailFrame = 0 then [] else [e.tailFrame])
  | .copy _ _ t => (Map.vals t).map fun l => l.frame
  | .kernelRun _ _ fs => fs
  | _ => []

/-- Tails of closed sequences that no command names any more (R91). -/
def freeOrphans (s : State) (p : Nat) : State :=
  let x := s.part p
  let dead := x.orphans.filter fun o => !x.busy o.1
  let s := dead.foldl (fun s o => freeLoc s p o.2) s
  s.onPart p fun x => { x with orphans := x.orphans.filter fun o => !dead.contains o }

/-- The exceptions of R259: a mirrored flag (R51) or the flag of a seq_migrate (R227) has been issued. -/
def Stage.excepted (t : Stage) : Bool := t = .waiting .mirrorFlag || t = .waiting .migrateFlag

/-- A command that has issued such a flag cannot be killed any more. -/
def Flight.excepted (f : Flight) : Bool :=
  f.stage.excepted ||
    (match f.plan with
    | .migrate _ _ phase _ => 2 ≤ phase
    | .attention _ es => es.any fun e => match e.remote with
        | some r => r.flagged
        | none => false
    | _ => false)

/-- What the start of a command marked on another object, undone as the command ends without its commit point. -/
def unmark (s : State) (c : CmdRef) (f : Flight) : State :=
  if f.stage = .fetched then s
  else if cOpcode f.word = Op.kernelUnload && f.plan = .unload then
    s.onPart c.part fun x => { x with kernels := Map.edit x.kernels (field f.word 0x10 1) fun k => { k with unloading := false } }
  else if cOpcode f.word = Op.hostRegionRemove && f.plan != .none then
    s.onPart c.part fun x => { x with regions := Map.edit x.regions (field f.word 0x10 1) fun r => { r with removing := false } }
  else if cOpcode f.word = Op.jobUnbind && f.plan != .none then
    s.onSlot c.part (field f.word 0x12 1) fun y => { y with draining := false }
  else s

/-- R258: the packets of a command in the groups that a test names go where they were not sent; those in flight belong to it no more, and their
unit records change generation. -/
def abandonPackets (s : State) (c : CmdRef) (g : Nat → Bool) : State :=
  let x := s.part c.part
  let mine := fun t : Sent => t.cmd = some c && g t.pk.group
  let recs := dedup (x.qps.flatMap fun e => (e.2.sent.filter mine).map fun t => t.pk.unitRec)
  let s := s.onPart c.part fun x =>
    { x with qps := Map.each x.qps fun q =>
        { q with queue := q.queue.filter fun e => !(e.2.2 = some c && g e.1.group)
                 sent := q.sent.map fun t => if mine t then { t with cmd := none } else t } }
  s.onSched fun d => { d with generations := recs.foldl (fun m u => Map.put m u ((Map.get m u 0 + 1) % 256)) d.generations }

/-- What a kill, a rejection or an abort gives back, apart from reservations: units, pages, staging, merge space, pins. The time of runs that
a kill cuts off is lost (R265). -/
def releaseRun (s : State) (kill : Bool) (c : CmdRef) (f : Flight) : State :=
  let s := abandonPackets (unmark s c f) c fun _ => true
  let s := removeUnits s kill fun u => u.isOf c
  let s := (planFrames f.plan).foldl (fun s n => freeObject s c.part n) s
  let s := abandonMoves s c.part fun m => m.cmd = some c
  let s := { s with sched := { s.sched with chains := s.sched.chains.filter fun h => h.ref != c,
                                            cores := s.sched.cores.filter fun h => h.2.ref != c } }
  let s := unpinAll (endCause s c.part f) c.part f.pins
  trimTables (s.onFlight c fun f => { f with plan := .none, pins := [], slots := 0, descs := 0, cause := none }) c.part

/-! ### Kill (R257) -/

/-- A command of an unbinding slot back in its ring as one not yet fetched, with its reservations kept; the job_unbind counts it (R43). -/
def returnToRing (s : State) (c : CmdRef) (f : Flight) : State :=
  let x := s.slot c.part c.slot
  let mine := fun g : Flight => match g.plan with
    | .unbind d h => if field g.word 0x12 1 = c.slot then { g with plan := .unbind (d + 1) h } else g
    | _ => g
  (s.onPart c.part fun y =>
    { (y.onSlot c.slot fun z => { z with window := z.window.filter fun g => g.index != c.index }) with
      kept := if f.rsv = [] then y.kept else y.kept ++ [⟨x.job, x.ring, f.index, f.rsv⟩] }).onSlot c.part 0 fun z =>
    { z with window := z.window.map mine }

/-- A command whose run has been cut off in a slot: it goes back to the ring of a slot that is being unbound (R43), waits for its abort
where its job is Faulted or its function is being disabled (R263, R373), naming no sequence any more, or may start afresh. -/
def afterKill (s : State) (c : CmdRef) : State :=
  match s.flight c with
  | none => s
  | some f =>
    let x := s.slot c.part c.slot
    if x.stopped || (s.func c.part).disable.isSome then s.onFlight c fun f => { f with stage := .fetched, seqs := [] }
    else if x.draining then
      let s := returnToRing s c f
      if c.slot = 0 then s.onSlot c.part 0 Slot.endDrain else s
    else setStage s c .fetched

/-- COMMAND_KILL: the command keeps its reservations and may start afresh (R257). -/
def killCommand (s : State) (c : CmdRef) : State :=
  match s.flight c with
  | none => s
  | some f =>
    let s := releaseRun s true c f
    afterKill (s.onAcct c.part fun a => { a with killed := a.killed + 1 }) c

/-- Commands of a slot that stops or of a function that is being disabled end there when they are held (R43, R259, R263, R373). -/
def State.stopping (s : State) (c : CmdRef) : Bool :=
  (s.slot c.part c.slot).draining || (s.slot c.part c.slot).stopped || (s.func c.part).disable.isSome

/-- A held command of a slot that stops: killed where the slot is unbound, to be aborted where its job or its function ends (R259). -/
def stopHeld (s : State) (c : CmdRef) : State :=
  if (s.slot c.part c.slot).stopped || (s.func c.part).disable.isSome then
    match s.flight c with
    | none => s
    | some f => afterKill (releaseRun s false c f) c
  else killCommand s c

/-! ### Reservations (R55 to R57, R83, R84) -/

/-- An element that has failed. -/
def Elem.fail (e : Elem) (status : Nat) : Elem := { e with status := status, phase := .done }

/-- The command's elements changed; a command all of whose elements have ended gets its commit request (a single failed
element rejects it, R167). -/
def settle (f : Flight) : Flight :=
  match f.plan with
  | .attention _ es =>
    if es.all fun e => e.phase = .done then
      match es with
      | [e] => if e.status ≠ 0 then { f with stage := .rejected e.status } else { f with stage := .requested }
      | _ => { f with stage := .requested }
    else f
  | _ => f

/-! Elements of an attention command. -/

def setElem (s : State) (c : CmdRef) (k : Nat) (g : Elem → Elem) : State :=
  s.onFlight c fun f => match f.plan with
    | .attention ch es => { f with plan := .attention ch (es.zipIdx.map fun e => if e.2 = k then g e.1 else e.1) }
    | _ => f

def elemOf (s : State) (c : CmdRef) (k : Nat) : Option Elem :=
  (s.flight c).bind fun f => match f.plan with
    | .attention _ es => es[k]?
    | _ => none

/-- All elements looked at: a command that has nothing left to run gets its commit request, or its rejection (R167). -/
def settleCommand (s : State) (c : CmdRef) : State :=
  noteCause (s.onFlight c fun f => if f.stage = .waiting .units then settle f else f) c

/-- Frames of an element that fails or ends. -/
def elemFrames (e : Elem) : List Nat := e.newFrames ++ e.outFrames ++ (if e.tailFrame = 0 then [] else [e.tailFrame])

/-- An element fails: its units leave, and what it allocated goes back. -/
def failElem (s : State) (c : CmdRef) (k st : Nat) : State :=
  match elemOf s c k with
  | none => s
  | some e =>
    let s := removeUnits s false fun u => u.isOf c && u.elem = k
    let s := (elemFrames e).foldl (fun s f => freeObject s c.part f) s
    setElem s c k fun e =>
      { e with status := st, phase := .done, newFrames := [], outFrames := [], tailFrame := 0, merge := 0, partials := [], outputs := [], late := none }

/-- The element waits and fixes its extent again (R57). -/
def ElemPhase.waits : ElemPhase → Bool
  | .hot _ => true
  | .extent => true
  | .space => true
  | _ => false

/-- The element's units are placed, and none of them has started (R57, R257). -/
def unstarted (s : State) (c : CmdRef) (k : Nat) (e : Elem) : Bool :=
  e.phase = .running && e.partials = [] && e.outputs = [] && s.sched.units.all fun u =>
    !(u.2.isOf c && u.2.elem = k) || (!u.2.hasYielded && !u.2.hasEvicted && (match u.2.place with
      | .ready => true
      | .steal _ => true
      | .next _ => true
      | _ => false))

/-- What a released layer-0 reservation means to an element (R56, R57, R84). -/
inductive Released where
  | keep
  | fail (status : Nat)
  | again (extent : Nat)
  | kill
  deriving DecidableEq

/-- R56, R57, R84: what a released layer-0 reservation of a sequence, whose committed length is given, does to an element of another command;
idle says that no unit of the element has started (DEDUCED, assumption log 143) (DESIGN CHOICE, assumption log 152). -/
def onRelease (op layer seq committed : Nat) (idle : Bool) (e : Elem) : Released :=
  if handleIndex e.handle ≠ seq || (e.phase = .done && e.status ≠ 0) then .keep
  else if op ≠ Op.attend && layer ≠ 0 then .fail St.positionMismatch
  else if op = Op.attend && committed < e.extent then
    if e.phase.waits || idle then
      let x := if e.pos = 0 then committed else Nat.min e.pos committed
      if x < e.count then .fail St.countRange else .again x
    else .kill
  else .keep

/-- An element fixes its extent again: units that have not started go, with what was set aside for them. The chunk length of the command stays
(DESIGN CHOICE, assumption log 152). -/
def refixElem (s : State) (c : CmdRef) (k x : Nat) : State :=
  match elemOf s c k with
  | none => s
  | some e =>
    let s := removeUnits s false fun u => u.isOf c && u.elem = k
    let s := (elemFrames e).foldl (fun s f => freeObject s c.part f) s
    setElem s c k fun e =>
      { e with extent := x, newFrames := [], outFrames := [], tailFrame := 0, merge := 0, unitsLeft := 0, late := none
               phase := match e.phase with
                 | .hot v => .hot v
                 | _ => .extent }

/-- One element's share of a release. -/
def releaseElem (s : State) (c : CmdRef) (k : Nat) (r : Released) : State :=
  match r with
  | .fail st => failElem s c k st
  | .again x => refixElem s c k x
  | _ => s

/-- The verdicts on the elements of a command. -/
def releaseVerdicts (s : State) (c : CmdRef) (f : Flight) (seq committed : Nat) : List Released :=
  match f.plan with
  | .attention _ es => es.zipIdx.map fun e => onRelease (cOpcode f.word) (cLayer f.word) seq committed (unstarted s c e.2 e.1) e.1
  | _ => []

/-- One command of the partition that a released layer-0 reservation may reach. A command that has issued a mirrored flag is past it (R51). -/
def releaseReader (seq committed : Nat) (s : State) (c : CmdRef) : State :=
  match s.flight c with
  | none => s
  | some f =>
    if f.stage = .fetched || f.excepted then s
    else
      let r := releaseVerdicts s c f seq committed
      if r.contains .kill then killCommand s c
      else if r.all (· = .keep) then s
      else noteCause ((r.zipIdx.foldl (fun s e => releaseElem s c e.2 e.1) s).onFlight c settle) c

/-- Commands of the partition that a released layer-0 reservation reaches (DEDUCED, assumption log 143)
(DESIGN CHOICE, assumption log 152). -/
def releaseReaders (s : State) (p seq committed : Nat) (own : CmdRef) : State :=
  let refs := (s.part p).slots.flatMap fun y => y.2.window.map fun f => (⟨p, y.1, f.index⟩ : CmdRef)
  (refs.filter fun c => c != own).foldl (releaseReader seq committed) s

/-- Reservations that a test names are held no more, by commands of the window or by commands that went back to their rings (R56, R84). -/
def forgetReservations (s : State) (p : Nat) (t : Nat × Nat → Bool) : State :=
  s.onPart p fun x =>
    { x with
      slots := Map.each x.slots fun y => { y with window := y.window.map fun f => { f with rsv := f.rsv.filter fun r => !t r } }
      kept := (x.kept.map fun k => { k with rsv := k.rsv.filter fun r => !t r }).filter fun k => k.rsv != [] }

/-- RESERVATION_RELEASE of one sequence and layer: with layer 0 the step closes, and the reservations of its other layers go too (R56, R84). -/
def releaseReservation (s : State) (p : Nat) (own : CmdRef) (r : Nat × Nat) : State :=
  match (s.part p).seq r.1 with
  | none => s
  | some q =>
    if r.2 = 0 then
      let s := s.onSeq p r.1 fun q => { q with layerRsv := 0, reservedLen := q.length }
      releaseReaders (forgetReservations s p fun k => k.1 = r.1 && k.2 ≠ 0) p r.1 q.length own
    else s.onSeq p r.1 fun q => { q with layerRsv := q.layerRsv &&& ~~~((1 : BitVec 256) <<< r.2) }

def releaseReservations (s : State) (c : CmdRef) (l : List (Nat × Nat)) : State :=
  l.foldl (fun s r => releaseReservation s c.part c r) s

/-! ### The end of a command -/

/-- The COMMAND record of a command (R364, R366). -/
def commandRecord (x : Slot) (slot : Nat) (f : Flight) (status r0 r1 : Nat) : Record :=
  ⟨status, Kind.command, slot, f.index + x.ring * 2 ^ 16 + x.job * 2 ^ 24, cTag f.word, r0, r1, cOpcode f.word, 0⟩

/-- Step 4 of R49: the writes of a command, in address order, empty ones left out. -/
def issueOutputs (s : State) (c : CmdRef) (outs : List (Nat × List Byte)) : State :=
  (sortBy (fun o : Nat × List Byte => o.1) (outs.filter fun o => o.2 ≠ [])).foldl
    (fun s o => s.issue (.data c.part o.1 o.2 (some c))) s

def onDisable (s : State) (p : Nat) (g : Disable → Disable) : State :=
  s.onFunc p fun f => { f with disable := f.disable.map g }

/-- Outputs and record of a command that has ended, as the state of its function lets them out (R49, R373 step 6). -/
def deliver (s : State) (c : CmdRef) (q : Nat) (r : Record) (outs : List (Nat × List Byte)) (committed : Bool) : State :=
  match (s.func c.part).disable with
  | none => postRecord (issueOutputs s c outs) c.part q r (some c)
  | some d =>
    let s := if committed then onDisable s c.part fun d => { d with committed := d.committed + 1 } else s
    if d.graceful then
      let s := issueOutputs s c outs
      if (s.eq c.part q).stuck then onDisable s c.part fun d => { d with recordsDropped := d.recordsDropped + 1 }
      else postRecord s c.part q r (some c)
    else
      onDisable s c.part fun d =>
        { d with recordsDropped := d.recordsDropped + 1
                 writesDropped := d.writesDropped + (if committed && outs ≠ [] then 1 else 0) }

/-- The command leaves its window; HEAD and DONE_MASK move (R40). -/
def leaveWindow (s : State) (c : CmdRef) : State :=
  let s := s.onSlot c.part c.slot fun x =>
    let x := { (x.markDone c.index) with window := x.window.filter fun g => g.index != c.index }
    if c.slot = 0 then x.endDrain else x
  trimTables (freeOrphans s c.part) c.part

/-- A committed command ends: SIGNAL, pins, staging, outputs, record. -/
def endCommitted (s : State) (c : CmdRef) (f : Flight) (status r0 r1 : Nat) (outs : List (Nat × List Byte)) : State :=
  let x := s.slot c.part c.slot
  let s := s.onAcct c.part fun a => { a with committed := a.committed + 1 }
  let s := leaveWindow (endCause s c.part f) c
  let s := unpinAll s c.part f.pins
  deliver s c x.eq (commandRecord x c.slot f status r0 r1) outs true

/-- A rejected command ends: nothing but its record and its SIGNAL remains (R49, R58), and what it held is given back. -/
def endRejected (s : State) (c : CmdRef) (f : Flight) (status : Nat) : State :=
  let x := s.slot c.part c.slot
  let s := releaseRun s false c f
  let s := releaseReservations s c f.rsv
  let s := leaveWindow s c
  let s := raiseSignal s c f.word
  deliver s c x.eq (commandRecord x c.slot f status 0 0) [] false

/-- An aborted command gives back everything and leaves its window; its record is posted by its cause (R263, R373). -/
def endAborted (s : State) (c : CmdRef) (f : Flight) : State :=
  let s := releaseRun s false c f
  let s := releaseReservations s c f.rsv
  leaveWindow s c

/-! ### The commit unit (R49, R50, R53, R259) -/

/-- What the commit unit finds for a commit request. -/
inductive Commit where
  /-- The commit point is delayed (R259); the command stays held. -/
  | hold (s : State)
  /-- The command is killed and re-run (R257). -/
  | kill (s : State)
  /-- A check at commit fails. -/
  | reject (s : State) (status : Nat)
  /-- The commit point: the changed state, the status, RES0 and RES1 before SIGNAL, and the writes of step 4. -/
  | done (s : State) (status r0 r1 : Nat) (outs : List (Nat × List Byte))

/-- R214: the Wakes column. -/
def wakes (w : List Byte) : Bool :=
  let op := cOpcode w
  isAttention op || op = Op.seqFork || op = Op.seqTrim || op = Op.seqResume || op = Op.kvRead || op = Op.prefixPublish ||
    op = Op.prefixRetain || (op = Op.prefixEvict && field w 0x18 1 = 1) || op = Op.seqMigrate

/-- R23: a waking command that comes after a seq_park of its slot reactivates the sequences that are PARKING. -/
def rewake (s : State) (c : CmdRef) (f : Flight) : State :=
  if !wakes f.word then s
  else f.seqs.foldl (fun s i => match (s.part c.part).seq i with
    | some q => if q.state != .parking then s else unpark s c.part i
    | none => s) s

/-- R53: an earlier command of the slot that names one of the same sequences has not committed. -/
def commitBlocked (x : Slot) (f : Flight) : Bool := (x.earlier f).any fun g => g.seqs.any fun i => f.seqs.contains i

/-- COMMIT_REQUEST: the commit unit takes a command's request or rejection. op gives each opcode's own commit. -/
def commitWith (op : State → CmdRef → Slot → Flight → Commit) (c : CmdRef) (s : State) : State :=
  match s.flight c with
  | none => s
  | some f =>
    let x := s.slot c.part c.slot
    let graceful := match (s.func c.part).disable with
      | some _ => true
      | none => false
    match f.stage with
    | .rejected st =>
      if (s.eq c.part x.eq).stuck && (s.eq c.part x.eq).en && !graceful then
        s.onEq c.part x.eq fun e => { e with ovfFull := true }
      else endRejected s c f st
    | .requested | .held =>
      if commitBlocked x f then s
      else if (s.eq c.part x.eq).stuck && (s.eq c.part x.eq).en && !graceful then
        -- R33: the commit stage waits for overflow space
        let s := s.onEq c.part x.eq fun e => { e with ovfFull := true }
        if s.stopping c && !f.excepted then stopHeld s c else setStage s c .held
      else
        match op (rewake s c f) c x f with
        | .hold s =>
          match s.flight c with
          | none => s
          | some g =>
            if s.stopping c && !g.excepted then stopHeld s c
            else match g.stage with
              | Stage.waiting _ => s
              | _ => setStage s c .held
        | .kill s => killCommand s c
        | .reject s st => endRejected s c ((s.flight c).getD f) st
        | .done s st r0 r1 outs =>
          let s := raiseSignal s c f.word
          endCommitted s c ((s.flight c).getD f) st r0 r1 outs
    | _ => s

/-! ### Starting a command -/

/-- How the start of a command ends: a rejection with a status, or a state in which its flight has its next stage. -/
inductive Start where
  | reject (s : State) (status : Nat)
  | go (s : State)

/-- Whether a row takes a command word: its own opcode, or an opcode that R214 does not list (DEDUCED, assumption log 24). -/
def rowTakes (isRow : List Byte → Bool) (w : List Byte) : Bool := isRow w || !listedOpcodes.contains (cOpcode w)

/-- The kernels that an attention command calls. -/
def kernelsOf (x : Part) (w : List Byte) : List Nat :=
  if !isAttention (cOpcode w) then []
  else ([(x.model (cModel w)).posKernel, (x.model (cModel w)).scoreKernel]).filter fun k => k ≠ 0

/-- A flight as its start begins: its place in the start order, the sequences it names, and the kernels it calls. -/
def beginFlight (c : CmdRef) (s : State) : State :=
  let n := s.sched.order
  let s := { s with sched := { s.sched with order := n + 1 } }
  s.onFlight c fun g => { g with order := n, seqs := dedup (namesOf s c.part g.word), kernels := kernelsOf (s.part c.part) g.word }

/-- The start of a command: the checks of R213, then the row's own start. -/
def startCommand (start : State → CmdStep → Slot → Flight → Start) (c : CmdStep) (f : Flight) (s : State) : State :=
  let s := beginFlight c.ref s
  match commandCheck c.ref.slot f.word with
  | some st => setStage s c.ref (.rejected st)
  | none =>
    match start s c (s.slot c.ref.part c.ref.slot) ((s.flight c.ref).getD f) with
    | .reject s st => setStage s c.ref (.rejected st)
    | .go s => s

/-- The step of an Mbatas row: the start, and, unless deferred, the commit stage. -/
def runCommand (isRow : List Byte → Bool) (start : State → CmdStep → Slot → Flight → Start) (commit : CmdRef → State → State)
    (c : CmdStep) (s : State) : State :=
  match s.flight c.ref with
  | none => s
  | some f =>
    if mayStart s c.ref f && rowTakes isRow f.word then
      let s1 := startCommand start c f s
      if c.defer then s1 else commit c.ref s1
    else s

/-- A command that waited for something takes its next step again (R89, R95): its start runs afresh on a flight that keeps its reservations. -/
def resumeCommand (w : Wait → Bool) (start : State → CmdStep → Slot → Flight → Start) (commit : CmdRef → State → State)
    (c : CmdStep) (s : State) : State :=
  match s.flight c.ref with
  | none => s
  | some f =>
    match f.stage with
    | .waiting r =>
      if !w r then s
      else
        let s1 :=
          match start s c (s.slot c.ref.part c.ref.slot) f with
          | .reject s st => setStage s c.ref (.rejected st)
          | .go s => s
        if c.defer then s1 else commit c.ref s1
    | _ => s

/-- Start and commit request at once. -/
def request (s : State) (c : CmdRef) : Start := .go (setStage s c .requested)

end Sys2Proof.Machine
end

