-- ==== Sys2Proof/Machine/Control.lean ====
section
/-! DEFINITION. The control-class commands (R37 to R43, R63, R64, R66, R67, R217 to R220, R236, R237): for each its start (the operand
checks) and its commit. -/

namespace Sys2Proof.Machine

open Sys2Proof

def cJob (w : List Byte) : Nat := field w 0x10 1
def cByte11 (w : List Byte) : Nat := field w 0x11 1
def cSlot (w : List Byte) : Nat := field w 0x12 1
def cAddr18 (w : List Byte) : Nat := field w 0x18 8

/-! ### job_create, job_destroy, job_reset -/

def startJobCreate (s : State) (c : CmdStep) (_ : Slot) (f : Flight) : Start :=
  let w := f.word
  if cJob w = 0 || cByte11 w = 0 || 4 < cByte11 w || cAddr18 w % 128 ≠ 0 then .reject s St.operandRange
  else if ((s.part c.ref.part).job (cJob w)).state ≠ .free then .reject s St.jobState
  else request s c.ref

def commitJobCreate (s : State) (c : CmdRef) (_ : Slot) (f : Flight) : Commit :=
  .done (s.onPart c.part fun x => x.onJob (cJob f.word) fun _ => ⟨.idle, cByte11 f.word, cAddr18 f.word, none⟩) St.success 0 0 []

def startJobDestroy (s : State) (c : CmdStep) (_ : Slot) (f : Flight) : Start :=
  if cJob f.word = 0 then .reject s St.operandRange
  else
    match ((s.part c.ref.part).job (cJob f.word)).state with
    | .free => .reject s St.jobState
    | .bound => .reject s St.jobBusy
    | _ => request s c.ref

/-- The job returns to Free; the reservations of its commands that will not be fetched again are released (R43). -/
def commitJobDestroy (s : State) (c : CmdRef) (_ : Slot) (f : Flight) : Commit :=
  let j := cJob f.word
  let ks := (s.part c.part).kept.filter fun k => k.job = j
  let s := ks.foldl (fun s k => releaseReservations s c k.rsv) s
  .done (s.onPart c.part fun x =>
    { (x.onJob j fun _ => Job.reset) with kept := x.kept.filter fun k => k.job != j }) St.success 0 0 []

def startJobReset (s : State) (c : CmdStep) (_ : Slot) (f : Flight) : Start :=
  if cJob f.word = 0 then .reject s St.operandRange
  else if ((s.part c.ref.part).job (cJob f.word)).state ≠ .faulted then .reject s St.jobState
  else request s c.ref

def commitJobReset (s : State) (c : CmdRef) (_ : Slot) (f : Flight) : Commit :=
  .done (s.onPart c.part fun x => x.onJob (cJob f.word) fun j => { j with state := .idle }) St.success 0 0 []

/-! ### job_bind, job_unbind (R42, R43) -/

def startJobBind (s : State) (c : CmdStep) (_ : Slot) (f : Flight) : Start :=
  let w := f.word
  let x := s.part c.ref.part
  let j := x.job (cJob w)
  let a := j.desc + 32 * cByte11 w
  if cJob w = 0 || 3 < cByte11 w || cSlot w = 0 || 63 < cSlot w then .reject s St.operandRange
  else if j.state = .free || j.state = .faulted then .reject s St.jobState
  else if j.rings ≤ cByte11 w then .reject s St.operandRange
  else if (x.slot (cSlot w)).bound then .reject s St.slotBusy
  else if x.slots.any fun e => e.1 ≠ 0 && e.2.bound && e.2.job = cJob w && e.2.ring = cByte11 w then .reject s St.ringBound
  else if !readOk c.bad a 32 then .reject s St.operandFault
  else
    let b := s.hostBytes a 32
    let d := descriptorOf b
    let s := hostIn s c.ref 32
    if d.reserved then .reject s St.reservedField
    else if !d.inRange || !(x.eq d.eq).en then .reject s St.operandRange
    else request (setPlan s c.ref (.bytes b)) c.ref

def planBytes (p : Plan) : List Byte :=
  match p with
  | .bytes b => b
  | _ => []

/-- The job is looked at again, as a fault may have come since the start (R37) (DEDUCED, assumption log 132). -/
def commitJobBind (s : State) (c : CmdRef) (_ : Slot) (f : Flight) : Commit :=
  let w := f.word
  let d := descriptorOf (planBytes f.plan)
  let j := (s.part c.part).job (cJob w)
  if j.state = .free || j.state = .faulted then .reject s St.jobState
  else
  let s := s.onPart c.part fun x =>
    (x.onSlot (cSlot w) fun y =>
      { Slot.reset with
        bound := true, ring := cByte11 w, job := cJob w, base := d.base, entriesLog2 := d.entriesLog2, eq := d.eq
        head := d.head, tail := d.tail, doneMask := BitVec.ofNat 64 d.done, snare := y.snare }).onJob (cJob w)
      fun j => { j with state := .bound }
  .done s St.success d.head d.tail []

/-- The commands of a slot that a stop (R43) kills or drops: all but those that have issued their commit request and are not held, and
the exceptions of R259. One whose rejection waits for the commit unit ends with its record (DESIGN CHOICE, assumption log 153). -/
def stopsAt (f : Flight) : Bool :=
  match f.stage with
  | .requested => false
  | .rejected _ => false
  | _ => !f.excepted

/-- The commands of a slot, in ring order, that a stop sends back: those above, and any that has issued its commit request behind one of them
that names the same sequence, before which R23 and R53 do not let it commit (DEDUCED, assumption log 154). -/
def stopSet (x : Slot) : List Flight :=
  (sortBy (fun f : Flight => x.offset f.index) x.window).foldl
    (fun gone f =>
      if stopsAt f || (f.stage = .requested && gone.any fun g => g.seqs.any fun i => f.seqs.contains i) then gone ++ [f] else gone) []

/-- Fetches of a slot that are under way bring no command (R43, R263). -/
def dropFetches (s : State) (p i : Nat) : State :=
  { s with reads := s.reads.filter fun e => !(e.2.part = p && (match e.2.what with
    | .fetch k _ => k = i
    | _ => false)) }

/-- R43: a slot stops. Commands that have not started are dropped, running and held ones are killed; both return to the ring unfetched
and keep their reservations. Answers how many. -/
def stopSlot (s : State) (p i : Nat) : State × Nat :=
  let gone := stopSet (s.slot p i)
  let s := s.onSlot p i fun z => { z with draining := true }
  let s := gone.foldl
    (fun s f =>
      let c : CmdRef := ⟨p, i, f.index⟩
      if f.stage = .fetched then returnToRing s c f
      else returnToRing ((releaseRun s true c f).onAcct p fun a => { a with killed := a.killed + 1 }) c f) s
  let s := dropFetches s p i
  (if i = 0 then s.onSlot p 0 Slot.endDrain else s, gone.length)

def startJobUnbind (s : State) (c : CmdStep) (_ : Slot) (f : Flight) : Start :=
  let n := cSlot f.word
  if n = 0 || 63 < n then .reject s St.operandRange
  else if !(s.slot c.ref.part n).bound then .reject s St.jobState
  else
    let r := stopSlot s c.ref.part n
    request (setPlan r.1 c.ref (.unbind r.2 0)) c.ref

/-- HEAD, TAIL and DONE_MASK in the ring's descriptor (R40, R43) (DEDUCED, assumption log 132). -/
def descriptorWrites (x : Part) (y : Slot) : List (Nat × List Byte) :=
  let a := (x.job y.job).desc + 32 * y.ring
  [(a + 12, leBytes 2 y.head), (a + 16, leBytes 2 y.tail), (a + 24, leBytes 8 y.doneMask.toNat)]

/-- A slot without a ring; SNARE and the count of ignored doorbells stay (R45, R246) (DEDUCED, assumption log 78). -/
def Slot.released (y : Slot) : Slot := { Slot.reset with snare := y.snare, dbDrop := y.dbDrop }

/-- A job whose last ring leaves its slot becomes Idle (R37). -/
def afterUnbind (x : Part) (j : Nat) : Part :=
  x.onJob j fun k =>
    if k.state = .bound && !(x.slots.any fun e => e.1 ≠ 0 && e.2.bound && e.2.job = j) then { k with state := .idle } else k

def commitJobUnbind (s : State) (c : CmdRef) (_ : Slot) (f : Flight) : Commit :=
  let n := cSlot f.word
  let y := s.slot c.part n
  let dropped := match f.plan with
    | .unbind d _ => d
    | _ => 0
  if !y.bound then .reject s St.jobState  -- a fault's teardown has freed the slot
  else if y.window ≠ [] then .hold s
  else
    let outs := descriptorWrites (s.part c.part) y
    .done (s.onPart c.part fun x => afterUnbind (x.onSlot n Slot.released) y.job) St.success dropped y.head outs

/-! ### model_register, model_unregister (R63, R64, R66, R219) -/

def modelOf (w : List Byte) : Model where
  tag := field w 0x20 8
  layers := field w 0x12 2
  kvHeads := field w 0x14 1
  qPerKv := field w 0x15 1
  headDim := field w 0x16 2
  pageKib := field w 0x18 2
  cacheFormat := field w 0x11 1 % 16
  posKernel := field w 0x1A 1
  scoreKernel := field w 0x1B 1
  scale := BitVec.ofNat 32 (field w 0x1C 4)

/-- R63, R219: the ranges; SCALE is finite and not zero, a subnormal counting as zero. -/
def Model.inRange (m : Model) : Bool :=
  1 ≤ m.layers && m.layers ≤ 256 && 1 ≤ m.kvHeads && m.kvHeads ≤ 64 && 1 ≤ m.qPerKv && m.qPerKv ≤ 16 &&
    [64, 96, 128, 192, 256].contains m.headDim && [64, 128, 256, 512, 1024].contains m.pageKib && isCacheFormat m.cacheFormat &&
    bits m.scale.toNat 23 8 ≠ 0 && bits m.scale.toNat 23 8 ≠ 255

/-- A loaded kernel of a kind that is not being unloaded. -/
def kernelOk (x : Part) (k kind : Nat) : Bool :=
  match Map.look x.kernels k with
  | some e => e.kind = kind && !e.unloading
  | none => false

def startModelRegister (s : State) (c : CmdStep) (_ : Slot) (f : Flight) : Start :=
  let m := modelOf f.word
  let x := s.part c.ref.part
  if !m.inRange then .reject s St.geometry
  else if Map.has x.models (cModel f.word) || x.models.any fun e => e.2.tag = m.tag then .reject s St.modelBusy
  else if (m.posKernel ≠ 0 && !kernelOk x m.posKernel 1) || (m.scoreKernel ≠ 0 && !kernelOk x m.scoreKernel 2) then
    .reject s St.noKernel
  else if m.pageKib * 1024 < m.footprint then .reject s St.pageTooSmall
  else request s c.ref

def commitModelRegister (s : State) (c : CmdRef) (_ : Slot) (f : Flight) : Commit :=
  let m := modelOf f.word
  .done (s.onPart c.part fun x => { x with models := Map.put x.models (cModel f.word) m }) St.success m.footprint m.stagingBytes []

/-- A sequence of the model exists, or a seq_open of the model is in flight (R66, R106). -/
def modelInUse (x : Part) (m : Nat) : Bool :=
  (x.seqs.any fun e => e.2.model = m) ||
    x.slots.any fun e => e.2.window.any fun f =>
      f.stage != .fetched && cOpcode f.word = Op.seqOpen && cModel f.word = m

def startModelUnregister (s : State) (c : CmdStep) (_ : Slot) (f : Flight) : Start :=
  let x := s.part c.ref.part
  if !Map.has x.models (cModel f.word) then .reject s St.noModel
  else if modelInUse x (cModel f.word) then .reject s St.modelInUse
  else request s c.ref

/-- Every entry of a model evicted (R118); answers how many. -/
def evictModel (s : State) (p m : Nat) : State × Nat :=
  let es := ((s.part p).dir.filter fun e => e.2.model = m).map fun e => e.1
  (es.foldl (fun s i => evictEntry s p i) s, es.length)

def commitModelUnregister (s : State) (c : CmdRef) (_ : Slot) (f : Flight) : Commit :=
  if modelInUse (s.part c.part) (cModel f.word) then .reject s St.modelInUse
  else
    let r := evictModel s c.part (cModel f.word)
    .done (r.1.onPart c.part fun x => { x with models := Map.del x.models (cModel f.word) }) St.success r.2 0 []

/-! ### Kernel images (R235 to R237) -/

/-- R236: one code word at a word index of a code of n words (DEDUCED, assumption log 75). -/
def wordValid (n i w : Nat) : Bool :=
  let d := iD w
  let a := iA w
  let b := iB w
  let noGuard := !iGE w && iG w = 0
  let p3 := fun v : Nat => v < 8
  let target : Int := (i : Int) + iImmS w
  match iOp w with
  | 0x01 => noGuard && (iFN w ≤ 13 || (16 ≤ iFN w && iFN w ≤ 23)) && (iFN w ≠ 13 || b = 0)
  | 0x02 => true
  | 0x03 => true
  | 0x04 => true
  | 0x05 => a = 0
  | 0x06 => true
  | 0x08 => iFn6 w ≤ 5 || (iFN w ≤ 15 && b = 0 && (iFN w ≠ 14 || a = 0))
  | 0x09 => iFn6 w ≤ 3 && p3 d
  | 0x0A => iFN w ≤ 2
  | 0x0B =>
    noGuard &&
      (match iFN w with
      | 0 => p3 d && p3 a && p3 b
      | 1 => p3 d && p3 a && p3 b
      | 2 => p3 d && p3 a && p3 b
      | 3 => p3 d && p3 a && p3 b
      | 4 => p3 d && p3 a
      | 5 => p3 d
      | 6 => p3 d
      | 7 => p3 a
      | 8 => p3 d
      | 9 => d ≤ 30 && p3 a
      | _ => false)
  | 0x10 => iFmt w = 0
  | 0x11 => iFmt w = 0
  | 0x12 => iFmt w ≤ 13
  | 0x13 => storeFormat (iFmt w)
  | 0x18 => bits w 0 3 = 0 && mmaPair (iFA w) (iFB w) && d ≤ 30
  | 0x20 => d = 0 && a = 0 && 0 ≤ target && target < n
  | 0x21 => d = 0 && 0 ≤ target && target < n
  | 0x22 => d = 0 && 0 ≤ target && target < n
  | 0x23 => d = 0 && p3 a && 0 ≤ target && target < n
  | 0x24 => d = 0 && p3 a && 0 ≤ target && target < n
  | 0x30 => bits w 0 26 = 0
  | 0x31 => d = 0 && a = 0
  | _ => false

/-- R238: the step limit of a kind (DEDUCED, assumption log 76). -/
def kindLimit (kind : Nat) : Nat := if kind = 1 then 1024 else if kind = 2 then 4096 else 16777216

/-- R236, R237: the kernel of a valid image (DEDUCED, assumption log 76). -/
def kernelOf (img : List Byte) : Option Kernel :=
  let kind := field img 6 1
  let n := field img 8 4
  let data := field img 0xC 4
  let entry := field img 0x10 4
  let limit := field img 0x14 4
  let at0 := roundUp (0x40 + 4 * n) 64
  let code := (List.range n).map fun i => BitVec.ofNat 32 (field img (0x40 + 4 * i) 4)
  if field img 0 4 = 0x314B424D && field img 4 2 = 1 && 1 ≤ kind && kind ≤ 3 && field img 7 1 = 0 && 1 ≤ n && n ≤ 16368 &&
      data ≤ 65472 && data % 64 = 0 && entry < n && limit ≤ kindLimit kind && leNat (slice img 0x18 40) = 0 &&
      img.length = at0 + data && code.zipIdx.all (fun e => wordValid n e.2 e.1.toNat) then
    some ⟨kind, code, slice img at0 data, entry, if limit = 0 then kindLimit kind else limit, img.length, false⟩
  else none

/-- Bytes of the kernel store in use (R220). -/
def storeUsed (x : Part) : Nat := sum (x.kernels.map fun e => roundUp e.2.imageBytes 256)

def startKernelLoad (s : State) (c : CmdStep) (_ : Slot) (f : Flight) : Start :=
  let w := f.word
  let n := field w 0x14 4
  let a := cAddr18 w
  let x := s.part c.ref.part
  if cJob w = 0 || n < 64 || 65536 < n || a % 64 ≠ 0 then .reject s St.operandRange
  else if Map.has x.kernels (cJob w) then .reject s St.kernelBusy
  else if !readOk c.bad a n then .reject s St.operandFault
  else
    let img := s.hostBytes a n
    let s := hostIn s c.ref n
    match kernelOf img with
    | none => .reject s St.kernelInvalid
    | some _ =>
      if 65536 < storeUsed x + roundUp n 256 then .reject s St.storeFull
      else request (setPlan s c.ref (.bytes img)) c.ref

def commitKernelLoad (s : State) (c : CmdRef) (_ : Slot) (f : Flight) : Commit :=
  match kernelOf (planBytes f.plan) with
  | none => .reject s St.kernelInvalid
  | some k =>
    let s := s.onPart c.part fun x => { x with kernels := Map.put x.kernels (cJob f.word) k }
    .done s St.success (storeUsed (s.part c.part)) 0 []

def startKernelUnload (s : State) (c : CmdStep) (_ : Slot) (f : Flight) : Start :=
  let k := cJob f.word
  let x := s.part c.ref.part
  if k = 0 then .reject s St.operandRange
  else if !Map.has x.kernels k then .reject s St.noKernel
  else if x.models.any fun e => e.2.posKernel = k || e.2.scoreKernel = k then .reject s St.kernelInUse
  else
    request (setPlan (s.onPart c.ref.part fun x =>
      { x with kernels := Map.edit x.kernels k fun e => { e with unloading := true } }) c.ref .unload) c.ref

/-- The command is a kernel_run of the kernel, or an attention command that started under a model that calls it (R220, R232). -/
def usesKernel (f : Flight) (k : Nat) : Bool :=
  (cOpcode f.word = Op.kernelRun && field f.word 0x10 1 = k) ||
    (isAttention (cOpcode f.word) && f.kernels.contains k)

/-- Commands in flight that use the kernel and started earlier (R220, R232). -/
def kernelUsers (x : Part) (k order : Nat) : Bool :=
  x.slots.any fun e => e.2.window.any fun f => f.stage != .fetched && usesKernel f k && f.order < order

def commitKernelUnload (s : State) (c : CmdRef) (_ : Slot) (f : Flight) : Commit :=
  if kernelUsers (s.part c.part) (cJob f.word) f.order then .hold s
  else
    let s := s.onPart c.part fun x => { x with kernels := Map.del x.kernels (cJob f.word) }
    .done s St.success (storeUsed (s.part c.part)) 0 []

/-! ### cap_read (R67) -/

/-- The capability record as a function reads it; 16 is PF0. -/
def capRecord (s : State) (fn : Nat) : List Byte :=
  let x := s.part fn
  let g := if fn < 16 then x.grant else Grant.none
  leBytes 2 1 ++ leBytes 2 256 ++ leBytes 2 0x0920 ++ leBytes 1 Config.revision ++ leBytes 1 1 ++ leBytes 1 0 ++
    leBytes 1 (Bool.bit s.sched.classMode) ++ leBytes 1 (if fn < 16 then fn else 0xFF) ++ [0] ++
    leBytes 2 1024 ++ leBytes 2 256 ++ leBytes 1 4 ++ leBytes 1 20 ++ leBytes 2 640 ++ leBytes 2 128 ++ leBytes 1 16 ++
    leBytes 1 32 ++ leBytes 2 0x7FFF ++ leBytes 1 0x1F ++ leBytes 1 0x1F ++ leBytes 2 256 ++ leBytes 1 64 ++ leBytes 1 16 ++
    leBytes 4 1048576 ++ leBytes 4 65536 ++ leBytes 4 16777216 ++ leBytes 1 16 ++ leBytes 1 16 ++ leBytes 2 256 ++
    leBytes 1 64 ++ leBytes 1 16 ++ leBytes 1 4 ++ leBytes 1 64 ++ leBytes 2 256 ++ leBytes 2 64 ++ leBytes 4 262144 ++
    leBytes 2 s.fabric.ringChips ++ leBytes 2 s.fabric.position ++ leBytes 2 g.sets.length ++ [0, 0] ++
    leBytes 4 g.flashMask ++ leBytes 4 g.ways ++ leBytes 1 g.priority ++ List.replicate 179 0

def startCapRead (s : State) (c : CmdStep) (_ : Slot) (f : Flight) : Start :=
  if cAddr18 f.word % 64 ≠ 0 then .reject s St.operandRange else request s c.ref

def commitCapRead (s : State) (c : CmdRef) (_ : Slot) (f : Flight) : Commit :=
  .done s St.success 256 0 [(cAddr18 f.word, capRecord s c.part)]

end Sys2Proof.Machine
end

