-- ==== Sys2Proof/Machine/Media.lean ====
section
/-! DEFINITION. Writing and reading flash: rooms and collection modes (R274, R279, R286), map segments (R280, R281), open blocks (R285,
R291), groups and their seal (R283, R284, R287), the open record (R302), reads (R294), discards (R290). -/

namespace Sys2Proof.Machine

open Sys2Proof

/-! ### Channels and blocks -/

/-- The flash channels granted to a partition, in rising order. -/
def Part.flashChannels (x : Part) : List Nat := (List.range 32).filter fun c => bit x.grant.flashMask c

def State.channel (s : State) (c : Nat) : Option Channel := Map.look s.flash.channels c
def State.block (s : State) (b : Nat) : Block := Map.get s.flash.blocks b Block.reset
def State.onBlock (s : State) (b : Nat) (f : Block → Block) : State := s.onFlash fun d => { d with blocks := Map.edit d.blocks b f }
def State.onChannel (s : State) (c : Nat) (f : Channel → Channel) : State :=
  s.onFlash fun d => { d with channels := Map.edit d.channels c f }
def State.onGroup (s : State) (g : Nat) (f : Group → Group) : State := s.onFlash fun d => { d with groups := Map.edit d.groups g f }

def blockChannel (b : Nat) : Nat := b / 65536 / 16
def blockDie (b : Nat) : Nat := b / 65536 % 16

/-- The partition that owns a channel; 16 is the device (R15). -/
def ownerOf (s : State) (c : Nat) : Nat := (s.livePartitions.find? fun p => bit (s.part p).grant.flashMask c).getD 16

/-- Blocks of a channel that are not retired. -/
def goodBlocks (s : State) (c : Nat) : Map Block := s.flash.blocks.filter fun e => blockChannel e.1 = c && e.2.state != .retired

def freeBlocks (s : State) (c : Nat) : Nat := ((goodBlocks s c).filter fun e => e.2.state = .free).length

/-- R286: blocks kept for copy groups. -/
def keptBlocks (s : State) (c : Nat) : Nat := Nat.max 4 (ceilDiv (goodBlocks s c).length 100)

/-- R286. -/
inductive Mode where
  | idle | background | foreground
  deriving DecidableEq

def collectMode (s : State) (c : Nat) : Mode :=
  let g := (goodBlocks s c).length
  let f := 100 * freeBlocks s c
  if f < 3 * g then .foreground else if f < 8 * g then .background else .idle

def pagesPerBlock (s : State) (c : Nat) : Nat :=
  match s.channel c with
  | some ch => ch.profile.pagesPerBlock
  | none => 0

/-- R274, R299: the capacity of a channel in frames. -/
def capacity (s : State) (c : Nat) : Nat := Nat.min 22888183 ((goodBlocks s c).length * pagesPerBlock s c * 93 / 100)

/-- Map entries of the chip that name a place a test admits. -/
def namedFrames (s : State) (t : Place → Bool) : List (Nat × Nat × MapEntry) :=
  s.parts.flatMap fun p => (p.2.flash.map.filter fun e => e.2.valid && t e.2.place).map fun e => (p.1, e.1, e.2)

/-- The bits [39:0] of a place in a discard record, and an entry of it (R290). -/
def discardEntry (a : Place) (eraseCnt : Nat) : List Byte := leBytes 8 (placeNo a + eraseCnt % 2 ^ 24 * 2 ^ 40)

/-- The entries of a discard record: frame number and erase count. -/
def discardEntries (f : Frame) : List (Nat × Nat) :=
  (List.range f.obj).map fun i => (bits (field f.data (8 * i) 8) 0 40, bits (field f.data (8 * i) 8) 40 24)

/-- A sealed discard record that still names a frame not yet erased, and of which no later copy has passed. -/
def discardStands (s : State) (n : Nat) (f : Frame) : Bool :=
  f.kind = 5 && f.passed && !f.torn &&
    ((discardEntries f).any fun e => match Map.look s.flash.frames e.1 with
      | some g => g.eraseCnt % 2 ^ 24 = e.2
      | none => false) &&
    !(s.flash.frames.any fun g => g.1 ≠ n && g.2.kind = 5 && g.2.passed && g.2.part = f.part && g.2.vseq = f.vseq && f.wseq < g.2.wseq)

/-- Numbers of the frames of a block, in page order. -/
def framesOf (s : State) (b : Nat) : Map Frame := s.flash.frames.filter fun e => e.1 / 4096 = b

/-- R300: blocks 0 to 3 of die 0 of channels 0 and 16 hold the anchor. -/
def anchorBlock (b : Nat) : Bool := (blockChannel b = 0 || blockChannel b = 16) && b % 2 ^ 20 < 4

/-- A frame of a device kind (R276) that stands: the newest copy of its content, in the anchor or in a block of an area (R300). -/
def deviceStands (s : State) (n : Nat) (f : Frame) : Bool :=
  8 ≤ f.kind && f.passed && !f.torn && (anchorBlock (n / 4096) || s.flash.secure.areas.any fun e => e.2.contains (n / 4096)) &&
    !(s.flash.frames.any fun g => g.2.kind = f.kind && g.2.passed && g.2.vseq = f.vseq && f.wseq < g.2.wseq)

/-- R285: valid frames of a block: those that the map names, and the discard records and device frames that stand. -/
def validCount (s : State) (b : Nat) : Nat :=
  (namedFrames s fun a => blockOf a = b).length + ((framesOf s b).filter fun e => discardStands s e.1 e.2 || deviceStands s e.1 e.2).length

/-- Frames in use on a channel: named by the map, or being programmed. -/
def usedFrames (s : State) (c : Nat) : Nat :=
  (namedFrames s fun a => a.channel = c).length +
    sum (s.flash.groups.map fun g => if g.2.channel = c && !g.2.isCopy then g.2.frames.length else 0)

/-- Frames queued on a channel (R279). -/
def queuedFrames (s : State) (c : Nat) : Nat :=
  sum (s.flash.groups.map fun g => if g.2.channel = c then g.2.todo.length + g.2.waiting.length else 0)

/-- Pages of a channel that new data may still take. -/
def channelRoom (s : State) (c : Nat) : Nat :=
  match s.channel c with
  | none => 0
  | some ch =>
    let live := (goodBlocks s c).filter fun e => !ch.dead.contains (blockDie e.1)
    let free := (live.filter fun e => e.2.state = .free).length
    let opened := sum ((live.filter fun e => e.2.state = .opened && !e.2.forCopies).map fun e => ch.profile.pagesPerBlock - e.2.nextPage)
    (free - keptBlocks s c) * ch.profile.pagesPerBlock + opened

def channelTakes (s : State) (n c : Nat) : Bool :=
  match s.channel c with
  | some ch => ch.online && n ≤ channelRoom s c && usedFrames s c + n ≤ capacity s c
  | none => false

/-! ### Map segments (R280, R281) -/

def segmentOf (lfn : Nat) : Nat := lfn / 4096

/-- Segments of a partition in DRAM. -/
def dramSegments (f : PartFlash) : List Nat :=
  (dedup (f.map.map fun e => segmentOf e.1)).filter fun n => !f.hostSegs.contains n && !f.lostSegs.contains n

/-- The DRAM share, and the share of the map host area, in segments. -/
def dramShare (x : Part) : Nat := 4096 * x.flashChannels.length

def hostShare (s : State) (x : Part) : Nat :=
  let all := sum (s.livePartitions.map fun p => (s.part p).flashChannels.length)
  if all = 0 then 0 else s.flash.mapHostSegs * x.flashChannels.length / all

/-- The segments of a run of LFNs. -/
def segmentsOf (lfn n : Nat) : List Nat := dedup ((List.range n).map fun i => segmentOf (lfn + i))

/-- R281: the new segments of a run of LFNs find room, in DRAM or, with others sent there, in the map host area. -/
def segmentRoom (s : State) (p lfn n : Nat) : Bool :=
  let x := s.part p
  let mine := dramSegments x.flash
  let new := (segmentsOf lfn n).filter fun g => !mine.contains g && !x.flash.hostSegs.contains g
  new.length ≤ (dramShare x - mine.length) + (hostShare s x - x.flash.hostSegs.length)

/-- MAPFULL of FLS_P_STATE: an allocation of n frames has met no room for its segments (R281) (DESIGN CHOICE, assumption log 64). -/
def noteMapFull (s : State) (p n : Nat) : State :=
  if segmentRoom s p (takeLfns (s.part p).flash n).1 n then s else s.onPart p fun x => { x with flash := { x.flash with mapFull := true } }

/-- A segment is used; one that would exceed the share sends the least recently used one to the map host area
(DESIGN CHOICE, assumption log 64). -/
def useSegment (s : State) (p g : Nat) : State :=
  let s := { s with uses := s.uses + 1 }
  let x := s.part p
  let others := (dramSegments x.flash).filter fun n => n != g
  let out := if dramShare x ≤ others.length && x.flash.hostSegs.length < hostShare s x then leastBy (fun n => Map.get x.flash.segUse n 0) others else none
  s.onPart p fun x =>
    { x with flash := { x.flash with
        segUse := Map.put x.flash.segUse g s.uses
        hostSegs := match out with
          | some v => x.flash.hostSegs ++ [v]
          | none => x.flash.hostSegs } }

/-- An object of n frames finds room on the partition's flash channels. -/
def flashRoom (s : State) (p n : Nat) : Bool :=
  let x := s.part p
  x.flashChannels.any (channelTakes s n) && segmentRoom s p (takeLfns x.flash n).1 n

/-- R279: the channel of an object. -/
def chooseChannel (s : State) (p n : Nat) : Option Nat :=
  let c := (s.part p).flashChannels.filter (channelTakes s n)
  match leastBy (queuedFrames s) (c.filter fun c => collectMode s c != .foreground) with
  | some c => some c
  | none => leastBy (queuedFrames s) c

/-! ### Open blocks (R285, R291) -/

/-- The FREE block of a die with the lowest erase count, lowest number on a tie. -/
def freeBlockOf (s : State) (c d : Nat) : Option Nat :=
  (leastBy (fun e : Nat × Block => e.2.eraseCnt)
    ((goodBlocks s c).filter fun e => blockDie e.1 = d && e.2.state = .free && !anchorBlock e.1)).map fun e => e.1

/-- The next page of a die for new data or for copies, with the block opened where needed. -/
def takePage (s : State) (c d : Nat) (copies : Bool) : Option (Place × State) :=
  match s.channel c with
  | none => none
  | some ch =>
    if !ch.online || ch.dead.contains d then none
    else
      let wear := ch.wear.filter fun b => copies && blockDie b = d
      let cur := (wear.or (Map.look (if copies then ch.openCopy else ch.openData) d)).filter fun b =>
        (s.block b).state = .opened && (s.block b).nextPage < ch.profile.pagesPerBlock
      let chosen := match cur with
        | some b => some b
        | none => if !copies && freeBlocks s c ≤ keptBlocks s c then none else freeBlockOf s c d
      match chosen with
      | none => none
      | some b =>
        let n := (s.block b).nextPage
        let s := s.onBlock b fun k => { k with state := .opened, nextPage := n + 1, forCopies := copies }
        let s := s.onChannel c fun ch =>
          if ch.wear = some b then ch
          else if copies then { ch with openCopy := Map.put ch.openCopy d b } else { ch with openData := Map.put ch.openData d b }
        some (⟨c, d, b % 65536, n⟩, s)

/-- A page of the first die from d on that has one. -/
def takeNear (s : State) (c d : Nat) (copies : Bool) : Option (Place × State) :=
  let n := match s.channel c with
    | some ch => Nat.max ch.profile.dies 1
    | none => 1
  (List.range n).findSome? fun i => takePage s c ((d + i) % n) copies

/-- R277: PROG_TEMP, the temperature of the quadrant die that drives the channel (a free value) (DESIGN CHOICE, assumption log 134). -/
def dieTemperature (s : State) : Int × State :=
  let d := s.draw
  (sext 8 (Config.dieTemp d.1).toNat, d.2)

/-- DESIGN CHOICE, assumption log 39; DESIGN CHOICE, assumption log 47. -/
def blankFrame : Frame := ⟨0, 0, false, false, false, 0, 0, 0, 0, 0, 0, 0, 0, 0, 0, 0, 0, 0, [], [], false, false⟩

/-! ### The areas of channels 0 and 16 (R300, R301) -/

/-- The areas that take FREE blocks. -/
inductive Area where
  | log | checkpoint (slot : Nat) | secure

/-- The number of an area in Secure.areas, and the KIND of its frames (R276). -/
def Area.code : Area → Nat
  | .log => 1
  | .checkpoint n => 2 + n
  | .secure => 4

def Area.kind : Area → Nat
  | .log => 9
  | .checkpoint _ => 10
  | .secure => 11

def Secure.blocksOf (c : Secure) (a : Area) (ch : Nat) : List Nat := Map.get c.areas (32 * a.code + ch) []
def State.onSecure (s : State) (g : Secure → Secure) : State := s.onFlash fun f => { f with secure := g f.secure }

/-- Channels 0 and 16, as far as they are online. -/
def metaChannels (s : State) : List Nat := [0, 16].filter fun c => match s.channel c with
  | some ch => ch.online
  | none => false

def blockUp (s : State) (b : Nat) : Bool :=
  match s.channel (blockChannel b) with
  | some ch => ch.online && !ch.dead.contains (blockDie b)
  | none => false

/-- A device frame is programmed on the next page of a block; in the model it has passed when the step ends (DESIGN CHOICE, assumption log 43). -/
def putDevice (s : State) (kind b : Nat) (isSeal : Bool) (data : List Byte) : State :=
  let t := dieTemperature s
  let s := t.2
  let n := s.flash.wseq
  let k := s.block b
  let f := { blankFrame with
    kind := kind, part := 0xFF, isSeal := isSeal, epoch := s.oxs.scrubEpoch, glen := 1, wseq := n, vseq := n, group := n % 2 ^ 48, progTime := s.nowS, progTemp := t.1
    eraseCnt := k.eraseCnt, data := data, passed := true }
  let s := s.onFlash fun d => { d with wseq := n + 1, frames := Map.put d.frames (4096 * b + k.nextPage) f }
  s.onBlock b fun k => { k with state := if pagesPerBlock s (blockChannel b) ≤ k.nextPage + 1 then .full else .opened, nextPage := k.nextPage + 1 }

/-- The block of an area that takes its next frame: the open one, or a FREE block of the channel, that of the lowest erase count. The secure area keeps
its newest block (DESIGN CHOICE, assumption log 43). -/
def areaFrame (s : State) (a : Area) (c : Nat) (isSeal : Bool) (data : List Byte) : Option State :=
  let mine := s.flash.secure.blocksOf a c
  let cur := mine.getLast?.filter fun b => (s.block b).state = .opened && blockUp s b
  match cur with
  | some b => some (putDevice s a.kind b isSeal data)
  | none =>
    let free := (goodBlocks s c).filter fun e => e.2.state = .free && !anchorBlock e.1 && blockUp s e.1
    match leastBy (fun e : Nat × Block => e.2.eraseCnt) free with
    | none => none
    | some e =>
      let l := if a.kind = 11 then [e.1] else mine ++ [e.1]
      some (putDevice (s.onSecure fun k => { k with areas := Map.put k.areas (32 * a.code + c) l }) a.kind e.1 isSeal data)

/-- A one-frame group of an area on channel 0, and its mirror on channel 16. -/
def mirrorFrame (s : State) (a : Area) (data : List Byte) : State := (metaChannels s).foldl (fun s c => (areaFrame s a c true data).getD s) s

/-- The blocks of an area are given up: what they hold stands no longer. -/
def dropArea (s : State) (a : Area) (c : Nat) : State :=
  let l := s.flash.secure.blocksOf a c
  let s := s.onSecure fun k => { k with areas := Map.del k.areas (32 * a.code + c) }
  l.foldl (fun s b => if (s.block b).state = .opened then s.onBlock b fun k => { k with state := .full } else s) s

/-- Readable ANCHOR frames of a channel. -/
def anchors (f : Flash) (c : Nat) : Map Frame := f.frames.filter fun e => e.2.kind = 8 && e.2.passed && !e.2.torn && e.1 / 4096 / 65536 / 16 = c

def newest (l : Map Frame) : Option (Nat × Frame) :=
  l.foldl (fun b e => match b with
    | none => some e
    | some c => if c.2.wseq < e.2.wseq then some e else b) none

/-- CP_SEQ of the current anchor: the ANCHOR frame of the highest WSEQ on channels 0 and 16. -/
def currentAnchor (f : Flash) : Option Nat := (newest (anchors f 0 ++ anchors f 16)).map fun e => field e.2.data 0 8

/-- The checkpoint that the current anchor names, and its slot. -/
def currentSlot (f : Flash) : Option (Nat × Checkpoint) := (currentAnchor f).bind fun n => f.secure.slots.find? fun e => e.2.seq = n
def State.checkpoint (s : State) : Option Checkpoint := (currentSlot s.flash).map fun e => e.2

/-- An anchor: CP_SEQ, then the blocks of the checkpoint and of the log (R300) (DESIGN CHOICE, assumption log 44). -/
def anchorData (s : State) (seq slot : Nat) : List Byte :=
  let l := [Area.checkpoint slot, Area.log].flatMap fun a => [0, 16].flatMap fun c => s.flash.secure.blocksOf a c
  leBytes 8 seq ++ slice (l.flatMap fun b => leBytes 4 b) 0 65528

/-- The next anchor frame of a channel. Blocks 0 to 3 are used in turn, and each is erased before it is used again. -/
def putAnchor (data : List Byte) (s : State) (c : Nat) : State :=
  let base := c * 16 * 65536
  let cur := (newest (anchors s.flash c)).map fun e => e.1 / 4096
  let at1 := (cur.getD (base + 3)) % 4
  match cur.filter fun b => (s.block b).state = .opened && blockUp s b with
  | some b => putDevice s 8 b true data
  | none =>
    match ([1, 2, 3, 4].map fun i => base + (at1 + i) % 4).find? fun b => (s.block b).state ≠ .retired && blockUp s b with
    | none => s
    | some b =>
      let s := if framesOf s b = [] then s
        else (s.onFlash fun f => { f with frames := f.frames.filter fun e => e.1 / 4096 ≠ b }).onBlock b fun k => { Block.reset with eraseCnt := k.eraseCnt + 1 }
      putDevice s 8 b true data

/-! ### Programming a group (R283, R284, R288, R302) -/

/-- An entry of the log, a frame on each of channels 0 and 16 (R300) (DESIGN CHOICE, assumption log 43). -/
def logEntry (s : State) (data : List Byte) (g : Secure → Secure) : State := mirrorFrame (s.onSecure g) .log data

/-- R302: once a checkpoint exists, the open record comes before the first frame of another kind. -/
def openRecord (s : State) : State :=
  match s.flash.dirty, currentAnchor s.flash with
  | false, some n => (logEntry s (1 :: leBytes 8 n) fun c => { c with openRecord := some n }).onFlash fun f => { f with dirty := true }
  | _, _ => s

/-- A one-frame group with SEAL in the secure area of channels 0 and 16 (R300): an open record comes first (R302), and each frame takes a
WSEQ (DESIGN CHOICE, assumption log 43). -/
def sealSecure (s : State) (g : Secure → Secure) : State := mirrorFrame ((openRecord s).onSecure g) .secure []

/-- R288: a foreground channel admits a frame of new data. -/
def admits (s : State) (c : Nat) : Bool :=
  collectMode s c != .foreground ||
    (match s.channel c with
    | some ch => ch.admitted ≠ 0
    | none => false)

/-- One frame of a group programmed at a place: WSEQ rises, and the header takes the values of this program (R276). -/
def issueFrame (s : State) (gid : Nat) (g : Group) (a : Place) (f : Frame) (rest : List (Nat × Frame)) : State :=
  let s := openRecord s
  let t := dieTemperature s
  let s := t.2
  let n := s.flash.wseq
  let first := if g.first = 0 then n else g.first
  let f := { f with
    wseq := n
    vseq := if g.isCopy then f.vseq else n
    group := if g.isCopy then f.group else first % 2 ^ 48
    cgroup := if g.isCopy then first % 2 ^ 48 else 0
    progTime := s.nowS
    progTemp := t.1
    eraseCnt := (s.block (blockOf a)).eraseCnt
    passed := false
    torn := false }
  let s := s.onFlash fun d => { d with wseq := n + 1, frames := Map.put d.frames (placeNo a) f }
  let s := if !g.isCopy && !g.isDiscard && collectMode s g.channel = .foreground then s.onChannel g.channel fun c => { c with admitted := c.admitted - 1 } else s
  s.onGroup gid fun g => { g with todo := rest, waiting := g.waiting ++ [a], places := g.places ++ [a], first := first }

/-- The time that new data waited under R288 is open: a free value (DESIGN CHOICE, assumption log 135). -/
def endThrottle (s : State) (gid : Nat) (g : Group) : State :=
  if !g.throttled then s
  else
    let d := s.draw
    let s := if g.part < 16 then d.2.onPart g.part fun x => x.onCnt fun n => { n with throttleUs := n.throttleUs + Config.freeWord d.1 } else s
    s.onGroup gid fun g => { g with throttled := false }

/-- Frames of a group issued: all but the last at once, the last when every other one has passed. n bounds the frames. -/
def pump (gid : Nat) : Nat → State → State
  | 0, s => s
  | n + 1, s =>
    match Map.look s.flash.groups gid with
    | none => s
    | some g =>
      match g.todo with
      | [] => s
      | (d, f) :: r =>
        if r = [] && g.waiting ≠ [] then s
        else if !g.isCopy && !g.isDiscard && !admits s g.channel then s.onGroup gid fun g => { g with throttled := true }
        else
          match takeNear s g.channel d g.isCopy with
          | none => s
          | some (a, s) => pump gid n (endThrottle (issueFrame s gid g a f r) gid g)

/-- Groups of a channel that can go on do so. -/
def pumpAll (s : State) (c : Nat) : State :=
  ((s.flash.groups.filter fun g => g.2.channel = c).map fun g => g.1).foldl (fun s g => pump g 32 s) s

/-- A new group. -/
def startGroup (s : State) (g : Group) : State × Nat :=
  let n := s.flash.nextGroup
  (pump n 32 (s.onFlash fun f => { f with groups := Map.put f.groups n g, nextGroup := n + 1 }), n)

/-- The kind and OBJ of an object's frames (R276). -/
def frameKind (o : MoveObj) : Nat × Nat :=
  match o with
  | .page psn layer => (1, psn + layer * 2 ^ 40)
  | .tail i layer => (2, i + layer * 2 ^ 24)
  | .rest i => (3, i)
  | .segment n => (4, n)
  | .transit _ _ _ _ => (0, 0)

/-- R275 to R279: the frames of an object whose first LFN is lfn, and their dies. -/
def objectFrames (s : State) (p c lfn n : Nat) (o : MoveObj) (srcAge : Nat) (data : List Byte) : List (Nat × Frame) :=
  let k := frameKind o
  let ch := s.channel c
  let dies := match ch with
    | some ch => Nat.max ch.profile.dies 1
    | none => 1
  let d0 := match ch with
    | some ch => ch.d0
    | none => 0
  (List.range n).map fun i =>
    ((d0 + i) % dies,
      { blankFrame with
        kind := k.1, part := p, isSeal := i + 1 = n, epoch := (s.part p).epoch, lfn := lfn + i, gpos := i, glen := n, srcAge := srcAge
        obj := k.2, data := (data.drop (65536 * i)).take 65536 })

/-- Step 3 of R139 for flash: an object's group starts on the channel of R279. Answers the group, or nothing where no channel has room. -/
def programObject (s : State) (p lfn n : Nat) (o : MoveObj) (srcAge : Nat) (data : List Byte) (move : Option (Nat × Nat)) :
    Option (State × Nat) :=
  match chooseChannel s p n with
  | none => none
  | some c =>
    let fs := objectFrames s p c lfn n o srcAge data
    let s := s.onChannel c fun ch => { ch with d0 := (ch.d0 + 1) % Nat.max ch.profile.dies 1 }
    let s := (segmentsOf lfn n).foldl (fun s g => useSegment s p g) s
    some (startGroup s ⟨c, p, fs, fs, [], [], [], false, false, [], move, 0, false, false⟩)

/-! ### Reads (R157, R295) -/

/-- The places of a run of LFNs, where the map names one for each and the segments are in DRAM (R282). -/
def readPlaces (s : State) (p lfn n : Nat) : List (Nat × Place) :=
  let f := (s.part p).flash
  let l := (List.range n).filterMap fun i => match Map.look f.map (lfn + i) with
    | some e => if e.valid then some (lfn + i, e.place) else none
    | none => none
  if l.length = n && (segmentsOf lfn n).all fun g => !f.hostSegs.contains g && !f.lostSegs.contains g then l else []

/-- A flash read of an object is issued. -/
def issueFlashRead (s : State) (p : Nat) (what : ReadFor) (lfn bytes : Nat) (unit : Option Nat) : State × Nat :=
  let n := s.flash.nextRead
  let r : ReadReq := ⟨p, what, lfn, bytes, false, false, unit, readPlaces s p lfn (ceilDiv bytes 65536)⟩
  (s.onFlash fun f => { f with reads := Map.put f.reads n r, nextRead := n + 1 }, n)

/-- A host read is issued; it may be red under the ingress policer (R369) (DESIGN CHOICE, assumption log 108). -/
def issueHostRead (s : State) (p : Nat) (what : ReadFor) (addr bytes : Nat) (unit : Option Nat) : State × Nat :=
  let n := s.nextRead
  ({ s with reads := Map.put s.reads n ⟨p, what, addr, bytes, false, false, unit, []⟩, nextRead := n + 1 }, n)

/-- R293: the retention age of a map entry in seconds: the gaps after its program are added. -/
def retentionAge (s : State) (e : MapEntry) : Nat :=
  s.nowS - e.time + sum ((s.flash.gaps.filter fun g => e.time < g.1).map fun g => g.2)

/-! ### Frames and their names -/

def State.frameAt (s : State) (a : Place) : Option Frame := Map.look s.flash.frames (placeNo a)

def placeOf (n : Nat) : Place := ⟨n / 4096 / 65536 / 16, n / 4096 / 65536 % 16, n / 4096 % 65536, n % 4096⟩

/-- The map entry that names a place, with its partition and LFN. -/
def State.namedBy (s : State) (a : Place) : Option (Nat × Nat × MapEntry) :=
  match s.frameAt a with
  | none => none
  | some f =>
    match Map.look (s.part f.part).flash.map f.lfn with
    | some e => if e.valid && e.place = a then some (f.part, f.lfn, e) else none
    | none => none

/-- A frame that collection copies: one that the map names, or a discard record or device frame that stands, and that was not found unreadable. -/
def State.worthCopy (s : State) (a : Place) : Bool :=
  !(s.block (blockOf a)).unread.contains a.page && ((s.namedBy a).isSome || (match s.frameAt a with
    | some f => discardStands s (placeNo a) f || deviceStands s (placeNo a) f
    | none => false))

/-- A place on a channel and die that answer. -/
def State.placeUp (s : State) (a : Place) : Bool :=
  match s.channel a.channel with
  | some ch => ch.online && !ch.dead.contains a.die
  | none => false

/-- Counters of the partition that owns a channel; the device's channels have none. -/
def State.onOwner (s : State) (c : Nat) (g : PartCounters → PartCounters) : State :=
  if ownerOf s c < 16 then s.onPart (ownerOf s c) fun x => x.onCnt g else s

/-! ### Read retry (R294, R295) -/

/-- R294: the bins of a frame. -/
def ageBin (ageS : Nat) : Nat :=
  let d := ageS / 86400
  if d < 1 then 0 else if d < 7 then 1 else if d < 30 then 2 else if d < 90 then 3 else if d < 365 then 4 else 5

def tempBin (t : Int) : Nat := if t < 25 then 0 else if t < 55 then 1 else if t < 85 then 2 else 3

/-- The option from which a read of a frame starts: the table's, or a greater one that last succeeded (DEDUCED, assumption log 42). -/
def startOption (s : State) (e : MapEntry) : Nat :=
  let table := match s.channel e.place.channel with
    | some ch => (ch.profile.retryTable[4 * ageBin (retentionAge s e) + tempBin e.tempC]?).getD 0
    | none => 0
  Nat.max table e.retry

/-- R295: a read tries at most 8 options, of those that the profile gives; a result at a later one does not come, and the read is
uncorrectable (DEDUCED, assumption log 42). -/
def readResult (s : State) (e : MapEntry) (r : FlashReadResult) : FlashReadResult :=
  match r with
  | .retried option _ =>
    let n := match s.channel e.place.channel with
      | some ch => ch.profile.retryOptions
      | none => 0
    if option < startOption s e + 8 && option < n then r else .uncorrectable
  | _ => r

/-- R296: success came with the fourth or a later option, or by soft decode (DEDUCED, assumption log 42). -/
def wantsRefresh (s : State) (e : MapEntry) (r : FlashReadResult) : Bool :=
  match r with
  | .retried option soft => soft || 4 ≤ option + 1 - startOption s e
  | _ => false

/-- The read needed a retry (R295): it is counted, and the option that succeeded is kept in the map entry (DESIGN CHOICE, assumption log 41). -/
def noteRetry (s : State) (p : Nat) (lfns : List Nat) (r : FlashReadResult) : State :=
  let count := fun s : State => if p < 16 then s.onPart p fun x => { x with cnt := { x.cnt with retry := x.cnt.retry + 1 } } else s
  match r with
  | .decoded => s
  | .uncorrectable => count s
  | .retried option _ =>
    if p < 16 then
      (count s).onPart p fun x =>
        { x with flash := { x.flash with map := lfns.foldl (fun m l => Map.edit m l fun e => { e with retry := option }) x.flash.map } }
    else s

/-! ### Error records of media (R157, R446) -/

/-- LOC0 of a flash place (R446). -/
def flashLoc0 (a : Place) : Nat := a.channel + a.die * 2 ^ 5 + a.block * 2 ^ 9 + a.page * 2 ^ 25

/-- An uncorrectable DRAM error (R440, R446): one record for each sector, whose COUNT rises as it is met again (R453)
(DESIGN CHOICE, assumption log 48). -/
def dramError (s : State) (p addr status opcode tag : Nat) : State :=
  match s.health.log.find? fun e => e.2.source = Src.dram && e.2.severity = 1 && e.2.loc0 = addr with
  | some e => s.onHealth fun h => { h with log := Map.edit h.log e.1 fun r => { r with count := r.count + 1 } }
  | none => logError s { ErrRecord.blank with source := Src.dram, severity := 1, action := Act.poisoned, part := p, status := status,
                                              opcode := opcode, tag := tag, loc0 := addr }

/-- An error record of a failed host read (R157, R446). -/
def hostReadError (s : State) (p addr : Nat) (status opcode tag : Nat) : State :=
  logError s { ErrRecord.blank with source := Src.hostRead, severity := 1, action := if status = 0 then Act.none else Act.rejected,
                                    part := p, status := status, opcode := opcode, tag := tag, loc0 := addr }

/-- R299: an uncorrectable read is counted, as uncorrectable and as one that needed retries (R295), and reported (R446); cmds are the words of the
commands that it rejects. -/
def uncorrectable (s : State) (p lfn : Nat) (e : Option MapEntry) (cmds : List (List Byte)) : State :=
  let a := (e.map fun e => e.place).getD ⟨0, 0, 0, 0⟩
  let w := cmds.head?
  let age := match e with
    | some e => retentionAge s e + ((s.frameAt e.place).map fun f => f.srcAge).getD 0
    | none => 0
  let s := if p < 16 then s.onPart p fun x => x.onCnt fun n => { n with uncorr := n.uncorr + 1 } else s
  let s := if e.isSome then noteRetry s p [] .uncorrectable else s
  logError s { ErrRecord.blank with
    source := Src.flashRead, severity := 1, action := if cmds = [] then Act.none else Act.rejected, part := if p < 16 then p else 0xFF
    status := if cmds = [] then 0 else St.mediaError, opcode := (w.map cOpcode).getD 0, tag := (w.map cTag).getD 0, code := 8
    loc0 := flashLoc0 a, loc1 := lfn, count := Nat.max 1 cmds.length, ageS := age }

/-! ### Reading frames out (R286, R287, R296, R299) -/

/-- R286: a demand read, or a program of new data, is under way on a channel. -/
def demandOn (s : State) (c : Nat) : Bool :=
  (s.flash.reads.any fun r => (match r.2.what with
    | .copyOut _ _ => false
    | _ => r.2.places.any fun e => e.2.channel = c)) ||
    s.flash.groups.any fun g => g.2.channel = c && !g.2.isCopy && g.2.waiting ≠ []

/-- R299: a frame of a retired block is read where an earlier copy of it still lies, and from the retired block otherwise. -/
def copySource (s : State) (a : Place) : Place :=
  match s.frameAt a with
  | none => a
  | some f =>
    if (s.block (blockOf a)).state != .retired then a
    else match s.flash.frames.find? fun g => g.2.part = f.part && g.2.lfn = f.lfn && g.2.vseq = f.vseq && g.2.passed && !g.2.torn &&
        (s.block (g.1 / 4096)).state != .retired with
      | some g => placeOf g.1
      | none => a

/-- The frame is being read out, or waits in the collection buffer or in a copy group. -/
def inCopy (s : State) (a : Place) : Bool :=
  (s.flash.reads.any fun r => match r.2.what with
    | .copyOut b _ => b = a
    | _ => false) || (s.flash.channels.any fun c => c.2.buffer.any fun b => b.1 = a) || s.flash.groups.any fun g => g.2.sources.any fun e => e.2.1 = a

/-- When the next frame may be read out: in foreground mode, from a retired block and on channels 0 and 16 at once; otherwise while the channel
is idle, and never past demand (R286, R296) (DESIGN CHOICE, assumption log 46). -/
def mayCopyOut (s : State) (c : Nat) (a : Place) (idle : Bool) : Bool :=
  collectMode s c = .foreground || (s.block (blockOf a)).state = .retired || c = 0 || c = 16 || (idle && !demandOn s c)

/-- The next frame of a channel's copies is read out, one at a time, in page order; idle says that the channel is idle or that reading out goes
on (DESIGN CHOICE, assumption log 46). -/
def nextCopyOut (s : State) (c : Nat) (idle : Bool) : State :=
  match s.channel c with
  | none => s
  | some ch =>
    let l := ch.copies.filter fun e => s.worthCopy e.1 && !inCopy s e.1
    let s := s.onChannel c fun ch => { ch with copies := l }
    let coming := s.flash.reads.any fun r => match r.2.what with
      | .copyOut a _ => a.channel = c
      | _ => false
    match l with
    | [] => s
    | e :: r =>
      if coming || !mayCopyOut s c e.1 idle then s
      else
        let n := s.flash.nextRead
        let q : ReadReq := ⟨ownerOf s c, .copyOut e.1 e.2, 0, 65536, false, false, none, [(0, copySource s e.1)]⟩
        (s.onChannel c fun ch => { ch with copies := r }).onFlash fun f => { f with reads := Map.put f.reads n q, nextRead := n + 1 }

/-- Frames to be read out of a channel. -/
def queueCopies (s : State) (c : Nat) (l : List (Place × Bool)) : State :=
  let new := l.filter fun e => s.worthCopy e.1 && !inCopy s e.1
  s.onChannel c fun ch => { ch with copies := ch.copies ++ new.filter fun e => !ch.copies.any fun o => o.1 = e.1 }

/-- Every frame of a block that is worth a copy, in page order. -/
def readOutBlock (s : State) (b : Nat) : State :=
  let c := blockChannel b
  nextCopyOut (queueCopies s c ((framesOf s b).map fun e => (placeOf e.1, false))) c false

/-- R296: a frame is to be refreshed. -/
def refreshFrame (s : State) (a : Place) : State := nextCopyOut (queueCopies s a.channel [(a, true)]) a.channel false

/-- The commit point of a sealed group: the map entries of its LFNs become valid (R139 step 4, R283), and the object is on flash; frames
of a block that has failed since are copied out (R299). -/
def landObject (s : State) (p gid lfn : Nat) (o : MoveObj) (data : List Byte) : State :=
  match Map.look s.flash.groups gid with
  | none => s
  | some g =>
    let k := frameKind o
    let s := g.places.foldl
      (fun s a =>
        match Map.look s.flash.frames (placeNo a) with
        | none => s
        | some f => s.onPart p fun x =>
            { x with flash := { x.flash with map := Map.put x.flash.map f.lfn ⟨a, true, f.progTime, f.progTemp, 0⟩ } }) s
    let s := s.onPart p fun x =>
      { x with flash := { x.flash with objs := Map.put x.flash.objs lfn ⟨g.frames.length, k.1, k.2, data, []⟩ } }
    let s := s.onFlash fun f => { f with groups := Map.del f.groups gid }
    let bad := g.places.filter fun a => (s.block (blockOf a)).state = .retired
    if bad = [] then s else nextCopyOut (queueCopies s g.channel (bad.map fun a => (a, false))) g.channel false

/-! ### Map segments in the host area (R281, R282) -/

/-- A segment comes into DRAM; another may leave for it (DESIGN CHOICE, assumption log 64). Reads that waited for it are issued. -/
def bringSegment (s : State) (p g : Nat) : State :=
  let s := s.onPart p fun x =>
    { x with flash := { x.flash with hostSegs := x.flash.hostSegs.filter fun n => n ≠ g, lostSegs := x.flash.lostSegs.filter fun n => n ≠ g } }
  let s := useSegment s p g
  s.onFlash fun f => { f with reads := Map.each f.reads fun r =>
    if r.part = p && r.places = [] then { r with places := readPlaces s p r.addr (ceilDiv r.bytes 65536) } else r }

/-- The segments of a read that wait in the map host area. -/
def segmentsAway (s : State) (p lfn n : Nat) : List Nat := (segmentsOf lfn n).filter fun g => (s.part p).flash.hostSegs.contains g

/-! ### Blocks that empty (R285, R287, R290, R299) -/

/-- A place of the block is part of a group in progress, or waits in a collection buffer. -/
def blockHeld (s : State) (b : Nat) : Bool :=
  (s.flash.groups.any fun g => g.2.places.any (fun a => blockOf a = b) || g.2.sources.any fun e => blockOf e.2.1 = b) ||
    s.flash.channels.any fun c => c.2.buffer.any fun a => blockOf a.1 = b

/-- The reads in flight of a block (R285). -/
def blockReads (s : State) (b : Nat) : Nat := (s.flash.reads.filter fun r => r.2.places.any fun e => blockOf e.2 = b).length

def blockInUse (s : State) (b : Nat) : Bool := blockHeld s b || blockReads s b ≠ 0

/-- R290: a discard record that is not sealed names a frame of the block. -/
def unsealedDiscard (s : State) (b : Nat) : Bool :=
  (s.parts.any fun p => p.2.flash.discards.any fun d => blockOf d.1 = b) ||
    s.flash.groups.any fun g => g.2.isDiscard && g.2.discards.any fun d => blockOf d.1 = b

/-- R299: a copy of a frame of the block lies in a block that has failed since. -/
def copyInRetired (s : State) (b : Nat) : Bool :=
  (framesOf s b).any fun e => (namedFrames s fun a => (s.block (blockOf a)).state = .retired).any fun n =>
    match Map.look s.flash.frames (placeNo n.2.2.place) with
    | some g => g.part = e.2.part && g.lfn = e.2.lfn && g.vseq = e.2.vseq
    | none => false

/-- A bad-block entry, logged at once (R299). -/
def logBadBlock (s : State) (b : Nat) : State :=
  logEntry s (2 :: leBytes 4 b) fun c => { c with badBlocks := c.badBlocks ++ [⟨blockChannel b, blockDie b, b % 65536⟩] }

/-- R285: a FULL block without a valid frame becomes VICTIM; in foreground mode it admits its P frames of new data (R288). -/
def emptyVictim (s : State) (b : Nat) : State :=
  let c := blockChannel b
  let s := s.onBlock b fun k => { k with state := .victim }
  if collectMode s c = .foreground then
    (s.onChannel c fun ch => { ch with admitted := ch.profile.pagesPerBlock }).onOwner c fun n => { n with fgColl := n.fgColl + 1 }
  else s

/-- A block with no valid frame is a VICTIM, and is erased once no read to it is in flight; one that held an unreadable frame is retired. -/
def eraseIfEmpty (s : State) (b : Nat) : State :=
  let free := validCount s b = 0 && !blockHeld s b && !unsealedDiscard s b && !copyInRetired s b
  let s := if (s.block b).state = .full && free then emptyVictim s b else s
  let k := s.block b
  if k.state = .victim && free && blockReads s b = 0 then
    if k.stuck then
      (logBadBlock s b).onBlock b fun k => { k with state := .retired }
    else s.onBlock b fun k => { k with state := .erasing }
  else s

def eraseEmpty (s : State) (c : Nat) : State := ((goodBlocks s c).map fun e => e.1).foldl eraseIfEmpty s

/-- R285, R299: a victim with nothing in flight is erased, or, where only frames that cannot be read are left, FULL again. -/
def settleBlock (s : State) (b : Nat) : State :=
  let s := eraseIfEmpty s b
  let k := s.block b
  if k.state = .victim && k.stuck && !blockInUse s b && (framesOf s b).all fun e => !s.worthCopy (placeOf e.1) then
    s.onBlock b fun k => { k with state := .full }
  else s

/-! ### The end of a flash read (R282, R294 to R297, R299) -/

/-- What the end of a flash read of n frames at an LFN leaves: whether it gave the data, and the state with its retry, its counters, its error
record and its refreshes. places are those to which it was issued; cmds are the words of the commands that a failure rejects
(DESIGN CHOICE, assumption log 41). -/
def endFlashRead (s : State) (p lfn n : Nat) (places : List (Nat × Place)) (result : FlashReadResult) (cmds : List (List Byte)) : Bool × State :=
  let f := (s.part p).flash
  let es := (List.range n).filterMap fun i => (Map.look f.map (lfn + i)).map fun e => (lfn + i, e)
  let first := (es.head?).map fun e => e.2
  let r := match first with
    | some e => readResult s e result
    | none => .uncorrectable
  let ok := r ≠ .uncorrectable && places.length = n && places.all fun e => s.placeUp e.2
  let s := ((segmentsOf lfn n).filter fun g => !f.lostSegs.contains g).foldl (fun s g => useSegment s p g) s
  if !ok then (false, uncorrectable s p lfn first cmds)
  else
    let t := noteRetry s p (es.map fun e => e.1) r
    (true, (es.filter fun e => wantsRefresh s e.2 r).foldl (fun s e => refreshFrame s e.2.place) t)

end Sys2Proof.Machine
end

