-- ==== Sys2Proof/Machine/Space.lean ====
section
/-! DEFINITION. Obtaining memory: shared pools with floors (R142, R183), where an object may rest (R135), victims (R119, R137), and the
measures of R95 to R97 for a partition whose DRAM is full. -/

namespace Sys2Proof.Machine

open Sys2Proof

/-! ### Shared pools -/

/-- Whether partition p may take n more of a pool of total bytes whose partitions each have a floor. -/
def poolAllows (s : State) (total floor : Nat) (usedBy : Nat → Nat) (p n : Nat) : Bool :=
  let free := total - sum (s.livePartitions.map usedBy)
  let unmet := sum ((s.livePartitions.filter fun q => q != p).map fun q => floor - usedBy q)
  n ≤ free && (usedBy p + n ≤ floor || unmet ≤ free - n)

/-- The bytes of an object (R138, R278): what is stored outside DRAM, and its frames there and in DRAM. -/
def objBytes (x : Part) (o : MoveObj) : Nat :=
  match o with
  | .page n _ => (x.model ((x.set n).map (·.model) |>.getD 0)).footprint
  | .tail i _ => (x.model ((x.seq i).map (·.model) |>.getD 0)).stagingBytes
  | .rest _ => 65536
  | .segment _ => 65536
  | .transit _ n _ tail => if tail then (x.model ((x.seq n).map (·.model) |>.getD 0)).stagingBytes else (x.model ((x.set n).map (·.model) |>.getD 0)).footprint

def objFrames (x : Part) (o : MoveObj) : Nat := ceilDiv (objBytes x o) 65536

def objDramFrames (x : Part) (o : MoveObj) : Nat :=
  match o with
  | .page n _ => (x.model ((x.set n).map (·.model) |>.getD 0)).pageFrames
  | .transit _ n _ false => (x.model ((x.set n).map (·.model) |>.getD 0)).pageFrames
  | _ => objFrames x o

/-- The move-buffer space of an object: its page size (R139 step 1). -/
def objBuffer (x : Part) (o : MoveObj) : Nat := 65536 * objDramFrames x o

/-- The object that a streamed read carries through the move buffers (R129). -/
def ReadFor.transit : ReadFor → Option MoveObj
  | .stream psn layer => some (.transit 0 psn layer false)
  | .streamTail i layer => some (.transit 0 i layer true)
  | .serve _ _ psn layer => some (.transit 0 psn layer false)
  | _ => none

/-- Move-buffer space that a partition's moves and streamed pages hold (R129, R139, R142). -/
def moveBufUsed (s : State) (p : Nat) : Nat :=
  let x := s.part p
  let stream := fun r : Nat × ReadReq => if r.2.part ≠ p then 0 else match r.2.what.transit with
    | some o => objBuffer x o
    | none => 0
  sum (x.moves.map fun e =>
      if e.2.step = .selected || e.2.step = .waitBuffer || e.2.why = .promotion || e.2.why = .flush then 0 else objBuffer x e.2.obj) +
    sum (s.reads.map stream) + sum (s.flash.reads.map stream)

def moveBufAllows (s : State) (p n : Nat) : Bool := poolAllows s Config.moveBufBytes Config.poolFloor (moveBufUsed s) p n

/-- Merge-area space that a partition's elements hold (R183). -/
def mergeUsed (s : State) (p : Nat) : Nat :=
  sum ((s.part p).slots.map fun y => sum (y.2.window.map fun f => match f.plan with
    | .attention _ es => sum (es.map fun e => e.merge)
    | _ => 0))

def mergeAllows (s : State) (p n : Nat) : Bool := poolAllows s Config.mergeBytes Config.poolFloor (mergeUsed s) p n

/-! ### Destinations (R135, R96) -/

inductive Dest where
  | flash
  | region (r f : Nat)
  | none
  deriving DecidableEq, Repr

/-- R135: the rest destination for an object of n frames. -/
def restDest (s : State) (p n : Nat) : Dest :=
  if flashRoom s p n then .flash
  else match findRegion (s.part p) n with
    | some r => if s.fnUsable p then .region r.1 r.2 else .none
    | none => .none

/-- R134: the destination of a pre-emption or descriptor move. -/
def spillDest (s : State) (p n : Nat) : Dest :=
  match findRegion (s.part p) n with
  | some r => if s.fnUsable p then .region r.1 r.2 else if flashRoom s p n then .flash else .none
  | none => if flashRoom s p n then .flash else .none

/-! ### Starting moves -/

/-- A selected move of an object (R139 step 1; its destination is reserved by its PAGE_MOVE step). -/
def selectMove (s : State) (p : Nat) (obj : MoveObj) (why : MoveWhy) (src : Loc) (bytes : Nat) (cmd : Option CmdRef) : State :=
  s.onPart p fun x =>
    let m : Move := ⟨obj, why, .selected, src, Loc.none, bytes, [], none, 0, cmd, [], 0⟩
    let x := { x with moves := Map.put x.moves x.nextMove m, nextMove := x.nextMove + 1 }
    match obj with
    | .page n _ => refreshMoving x n
    | _ => x

/-- Layers of a set homed in DRAM in the cache format without a move. -/
def dramLayers (x : Part) (psn : Nat) : List (Nat × Loc) :=
  match x.set psn with
  | none => []
  | some d => d.loc.filter fun e =>
      e.2.kind = .page && e.2.tier = 0 && !(x.moves.any fun m => m.2.obj = .page psn e.1)

/-- R138: the pages of sets sent off, in ascending DRAM address, which is ascending within each channel. -/
def sendSets (s : State) (p : Nat) (psns : List Nat) (why : MoveWhy) : State :=
  let x := s.part p
  let l := psns.flatMap fun n => (dramLayers x n).map fun e => (MoveObj.page n e.1, e.2)
  (sortBy (fun e : MoveObj × Loc => e.2.frame) l).foldl (fun s e => selectMove s p e.1 why e.2 (objBytes x e.1) none) s

def sendPages (s : State) (p psn : Nat) (why : MoveWhy) : State := sendSets s p [psn] why

/-- R137: the sets of the partition that cooling and pressure may demote, in order: directory-only sets first (highest AGE, lowest heat,
lowest PSN), then the others by heat and PSN. -/
def victims (s : State) (x : Part) : List Nat :=
  let c := x.sets.filter fun e => !e.2.releasing && dramLayers x e.1 ≠ []
  let heat := fun e : Nat × PageSet => decayed e.2 s.nowS (halfLife x e.1)
  let dirOnly := fun e : Nat × PageSet => e.2.refs = 0 && (match x.entryOf e.1 with
    | some d => !d.2.retain
    | none => false)
  let age := fun e : Nat × PageSet => match x.entryOf e.1 with
    | some d => 255 - d.2.age
    | none => 255
  (sortBy age (sortBy heat (c.filter dirOnly)) ++ sortBy heat (c.filter fun e => !dirOnly e)).map fun e => e.1

/-! ### Pre-emption (R96) -/

/-- Homes of a sequence's own sets in DRAM that a test admits. -/
def ownHomes (x : Part) (q : Seq) (t : LocKind → Bool) : Nat :=
  sum ((x.ownSets q).map fun n => match x.set n with
    | some d => (d.loc.filter fun e => t e.2.kind && e.2.tier = 0).length
    | none => 0)

/-- Own pages and full staging pages of a sequence in DRAM, which make it a candidate; and its own pages alone, by which a victim is chosen. -/
def ownInDram (x : Part) (q : Seq) : Nat := ownHomes x q fun k => k != .empty
def ownPagesDram (x : Part) (q : Seq) : Nat := ownHomes x q fun k => k = .page

/-- SEQUENCE_PREEMPT: the victim of R96, other than the allocating sequence. -/
def preemptVictim (x : Part) (own : Option Nat) : Option Nat :=
  let c := x.seqs.filter fun e => e.2.state = .active && some e.1 != own && ownInDram x e.2 ≠ 0
  match leastBy (fun e : Nat × Seq => e.2.lastUse) (c.filter fun e => !x.busy e.1) with
  | some v => some v.1
  | none => (leastBy (fun e : Nat × Seq => 1048576 - ownPagesDram x e.2) c).map fun e => e.1

/-- Running commands that name a sequence are killed (R47, R257). -/
def killUsers (s : State) (p i : Nat) : State :=
  let refs := (s.part p).slots.flatMap fun y =>
    (y.2.window.filter fun f => f.stage != .fetched && stopsAtRun f && f.seqs.contains i).map fun f => (⟨p, y.1, f.index⟩ : CmdRef)
  refs.foldl killCommand s
where
  /-- Running or waiting, and not at its commit request nor beyond a kill. -/
  stopsAtRun (f : Flight) : Bool :=
    match f.stage with
    | .waiting _ => !f.excepted
    | .held => !f.excepted
    | _ => false

def preempt (s : State) (p i : Nat) : State :=
  let s := killUsers s p i
  let s := s.onSeq p i fun q => { q with state := .swapped }
  match (s.part p).seq i with
  | none => s
  | some q => sendSets s p ((s.part p).ownSets q) .preempt

/-! ### Allocation (R95) -/

/-- How an allocation ends: the frame, a wait for a measure that is under way, or nothing left (R97). What the measures released stays released. -/
inductive Alloc where
  | got (s : State) (frame : Nat)
  | wait (s : State)
  | none (s : State)

/-- A tentative copy: of a page, of a tail page of a sequence, or of its rest frame. -/
inductive Copy where
  | page (psn layer : Nat)
  | tail (seq layer : Nat)
  | rest (seq : Nat)
  deriving DecidableEq

/-- Measure 1: tentative copies that no running command reads, oldest first (R61); one whose read has not ended is as old as its beginning. -/
def releasable (x : Part) : List Copy :=
  let pages := x.sets.flatMap fun e => (e.2.tents.filter fun t => !x.tentHeld e.1 t.1).map fun t => (t.2.doneS, Copy.page e.1 t.1)
  let tails := x.seqs.flatMap fun e => (e.2.tailTents.filter fun t => !x.tailRead e.1 t.1).map fun t => (t.2.doneS, Copy.tail e.1 t.1)
  let rests := x.seqs.filterMap fun e => e.2.restTent.map fun t => (t.doneS, Copy.rest e.1)
  (sortBy (fun t : Nat × Copy => t.1) (pages ++ tails ++ rests)).map fun t => t.2

def dropCopy (s : State) (p : Nat) : Copy → State
  | .page n l => dropTent s p n l
  | .tail i l => dropTailTent s p i l
  | .rest i => dropRestTent s p i

/-- Measures 1 and 2 of R95, each applied until the frames are found; n bounds the tries. -/
def reclaim (p home frames : Nat) : Nat → State → State × Option Nat
  | 0, s => (s, none)
  | n + 1, s =>
    let x := s.part p
    match findFrames s x home frames with
    | some f => (s, some f)
    | none =>
      match releasable x with
      | t :: _ => reclaim p home frames n (dropCopy s p t)
      | [] =>
        let free := fun d : PageSet => d.old.any fun o => if o.epoch then d.pins1 = 0 else d.pins0 = 0
        match x.sets.find? fun e => free e.2 with
        | some e => reclaim p home frames n (releaseOld s p e.1)
        | none => (s, none)

/-- R119 for a partition without flash: the directory-only entry to evict next. -/
def pressureEntry (s : State) (x : Part) : Option Nat :=
  match (victims s x).find? fun n => match x.set n with
    | some d => d.refs = 0
    | none => false with
  | some n => (x.entryOf n).bind fun e => if e.2.retain then none else some e.1
  | none => none

/-- Moves that will give DRAM back are under way. -/
def freeing (x : Part) : Bool := x.moves.any fun e => e.2.src.tier = 0 && e.2.why != .promotion && e.2.why != .flush

/-- Measure 4. -/
def preemptOr (s : State) (p : Nat) (own : Option Nat) : Alloc :=
  let x := s.part p
  match preemptVictim x own with
  | some v =>
    let m := x.model ((x.seq v).map (·.model) |>.getD 0)
    if spillDest s p m.storedFrames = .none then .none s else .wait (preempt s p v)
  | none => .none s

/-- The tries of measures 1 and 2. -/
def reclaimTries (x : Part) : Nat := x.sets.length * 512 + x.seqs.length * 256 + 2

/-- MEMORY_PRESSURE_MEASURES (R95): a run of frames, in the order of the measures. -/
def allocFrames (s : State) (p home frames : Nat) (own : Option Nat) : Nat → Alloc
  | 0 => .none s
  | n + 1 =>
    let r := reclaim p home frames (reclaimTries (s.part p)) s
    let s := r.1
    let x := s.part p
    match r.2 with
    | some f => .got (newObject s p f frames []) f
    | none =>
      if freeing x then .wait s
      else if x.flashChannels ≠ [] then
        match (victims s x).find? fun v => flashRoom s p ((x.model ((x.set v).map (·.model) |>.getD 0)).storedFrames) with
        | some v => .wait (sendPages s p v .pressure)
        | none => preemptOr s p own
      else
        match pressureEntry s x with
        | some e => allocFrames (evictEntry s p e) p home frames own n
        | none => preemptOr s p own

/-- Several objects at once: all of them, or none. -/
inductive AllocAll where
  | got (s : State) (frames : List Nat)
  | wait (s : State)
  | none (s : State)

def allocAll (p home : Nat) (own : Option Nat) : List Nat → State → AllocAll
  | [], s => .got s []
  | n :: r, s =>
    match allocFrames s p home n own ((s.part p).dir.length + 2) with
    | .none s => .none s
    | .wait s => .wait s
    | .got s f =>
      match allocAll p home own r s with
      | .got s l => .got s (f :: l)
      | .wait s => .wait (freeObject s p f)
      | .none s => .none (freeObject s p f)

/-- The table frames that so many more table slots and descriptor slots need, and further objects after them; answers the frames of the objects. -/
def allocWithTables (p home slots descs : Nat) (own : Option Nat) (objs : List Nat) (s : State) : AllocAll :=
  let t := (s.part p).tableNeed slots descs
  match allocAll p home own (t.frames ++ objs) s with
  | .got s fs => .got (s.onPart p fun x => x.giveTables t fs) (fs.drop t.frames.length)
  | .wait s => .wait s
  | .none s => .none s

end Sys2Proof.Machine
end

