-- ==== Sys2Proof/Machine/Wake.lean ====
section
/-! DEFINITION. What a command reads in its own step (R129, R142, R156, R157), its wait for descriptor segments (R147), and its wait for a hot-table
entry and the wake of its sequence (R89, R90, R145, R153, R222). -/

namespace Sys2Proof.Machine

open Sys2Proof

/-- A command waits; the cause of R156 is kept with it, and an earlier wait of it that has ended counts. -/
def waitFor (s : State) (c : CmdRef) (w : Wait) (cause : Nat) : State :=
  let s := match s.flight c with
    | some f => if f.cause = some cause then s else endCause s c.part f
    | none => s
  s.onFlight c fun f => { f with stage := .waiting w, cause := some cause }

/-- A wait that is none of R156's: an earlier one that has ended counts. -/
def waitFree (s : State) (c : CmdRef) (w : Wait) : State :=
  let s := match s.flight c with
    | some f => endCause s c.part f
    | none => s
  s.onFlight c fun f => { f with stage := .waiting w, cause := none }

/-- The causes of R156 for a tier. -/
def tierLate (tier : Nat) : Nat := if tier = 1 then Stall.hostLate else Stall.flashLate
def tierFail (tier : Nat) : Nat := if tier = 1 then Stall.hostFail else Stall.flashFail

/-- Reads that a test names are dropped: those that fill a copy end with it. -/
def dropReads (s : State) (t : ReadReq → Bool) : State :=
  { s with reads := s.reads.filter fun e => !t e.2, flash := { s.flash with reads := s.flash.reads.filter fun e => !t e.2 } }

/-! ### Reads of objects (R129, R157, R440, R441) -/

/-- A segment that a read needs comes from the map host area, or is lost while PF0 cannot read it (R282, R376). -/
def needSegment (p : Nat) (s : State) (g : Nat) : State :=
  if s.pf0Bme && s.hostUp then bringSegment s p g
  else s.onPart p fun x => { x with flash := { x.flash with hostSegs := x.flash.hostSegs.filter fun n => n ≠ g, lostSegs := x.flash.lostSegs ++ [g] } }

/-- How the flash reads of a command's step ended for a run of LFNs: the first result that is listed for one of them. -/
def flashResult (l : List (Nat × FlashReadResult)) (lfn n : Nat) : FlashReadResult :=
  ((l.find? fun e => lfn ≤ e.1 && e.1 < lfn + n).map fun e => e.2).getD .decoded

/-- One object read for a command with a word: whether it gave its bytes (DEDUCED, assumption log 40). -/
def readObject (s : State) (p : Nat) (c : CmdStep) (w : List Byte) (bytes : Nat) (l : Loc) : State × Bool :=
  let n := ceilDiv bytes 65536
  let poison := (s.part p).badAt l
  let bad := fun s : State => match poison with
    | k :: _ => dramError s p (65536 * (s.part p).frameField l + 256 * k) St.mediaError (cOpcode w) (cTag w)
    | [] => s
  match l.tier with
  | 0 => (bad s, poison = [])
  | 1 =>
    let a := (Map.get (s.part p).regions l.region Region.none).addr l.regionFrame
    if !s.fnUsable p || !readOk c.bad a (65536 * n) then (hostReadError s p a St.mediaError (cOpcode w) (cTag w), false)
    else (bad (countTier s p 1 false bytes), poison = [])
  | _ =>
    let s := (segmentsAway s p l.frame n).foldl (needSegment p) s
    let t := endFlashRead s p l.frame n (readPlaces s p l.frame n) (flashResult c.flash l.frame n) [w]
    if t.1 then (bad (countTier t.2 p 2 false bytes), poison = []) else (t.2, false)

/-- Where the bytes of an object are read: a complete tentative copy, else the home. -/
def sourceOf (x : Part) (o : MoveObj) : Option Loc :=
  let pick := fun (t : Option Tent) (home : Loc) => match t with
    | some t => if t.complete then some ⟨.page, 0, t.frame⟩ else some home
    | none => if home.kind = .empty then none else some home
  match o with
  | .page n l => (x.set n).bind fun d => pick (Map.look d.tents l) (Map.get d.loc l Loc.none)
  | .tail i l => (x.seq i).bind fun q => pick (Map.look q.tailTents l) (Map.get q.tails l Loc.none)
  | .rest i => (x.seq i).bind fun q => pick q.restTent q.restRef
  | _ => none

/-- The copy of an object that a command has read outside DRAM: its frame, where one was begun or free DRAM allows one (R129). -/
def copyFrame (s : State) (p home : Nat) (o : MoveObj) : Option Nat :=
  let x := s.part p
  let begun := match o with
    | .page n l => (x.set n).bind fun d => Map.look d.tents l
    | .tail i l => (x.seq i).bind fun q => Map.look q.tailTents l
    | _ => none
  match begun with
  | some t => some t.frame
  | none => if freeAboveLow s x then findFrames s x home (objDramFrames x o) else none

/-- The complete tentative copy that the read leaves (DEDUCED, assumption log 29; DEDUCED, assumption log 40). -/
def keepCopy (s : State) (p home : Nat) (o : MoveObj) (l : Loc) : State :=
  match copyFrame s p home o with
  | none => s
  | some f =>
    let x := s.part p
    let s := newObject s p f (objDramFrames x o) ((x.bytesAt l).take (objBytes x o))
    let done := fun (t : Option Tent) => (⟨f, true, s.nowS, t.bind fun t => t.restore⟩ : Tent)
    match o with
    | .page n k => (dropReads s fun r => r.part = p && r.what = .tentative n k).onSet p n fun d =>
        { d with tents := Map.put d.tents k (done (Map.look d.tents k)) }
    | .tail i k => (dropReads s fun r => r.part = p && r.what = .tailTentative i k).onSeq p i fun q =>
        { q with tailTents := Map.put q.tailTents k (done (Map.look q.tailTents k)) }
    | _ => s

/-- The reads of a command so far: the first cause of waiting (R156), the home that could not be read, and whether a streamed page waits for
move-buffer space (R142). -/
structure CmdReads where
  s : State
  late : Option Nat
  failed : Option Loc
  noBuffer : Bool

/-- DEDUCED, assumption log 40. -/
def readStep (p : Nat) (c : CmdStep) (w : List Byte) (home : Nat) (a : CmdReads) (o : MoveObj) : CmdReads :=
  if a.failed.isSome || a.noBuffer then a
  else
    let x := a.s.part p
    match sourceOf x o with
    | none => a
    | some l =>
      let keeps := match o with
        | .page _ _ => true
        | .tail _ _ => true
        | _ => false
      if l.tier ≠ 0 && keeps && (copyFrame a.s p home o).isNone && !moveBufAllows a.s p (objBuffer x o) then { a with noBuffer := true }
      else
        let r := readObject a.s p c w (objBytes x o) l
        let late := a.late.or (if l.tier = 0 then none else some (tierLate l.tier))
        if r.2 then ⟨if l.tier ≠ 0 && keeps then keepCopy r.1 p home o l else r.1, late, none, false⟩ else ⟨r.1, late, some l, false⟩

/-- How the reads of a command end. -/
inductive ReadEnd where
  | done (s : State)
  | wait (s : State)
  | fails (s : State)

/-- The objects that a command reads, in order; its wait for them counts once, under the first cause, and a failure once more (R156). -/
def cmdReads (s : State) (p : Nat) (c : CmdStep) (w : List Byte) (home : Nat) (l : List MoveObj) : ReadEnd :=
  let a := l.foldl (readStep p c w home) ⟨s, none, none, false⟩
  let s := match a.late with
    | some k => stallFree a.s p k
    | none => a.s
  match a.failed with
  | some l => .fails (if l.tier = 0 then s else stall s p (tierFail l.tier) 0)
  | none => if a.noBuffer then .wait (waitFor s c.ref .moveBuf Stall.moveBuf) else .done s

/-- Bytes of an object in DRAM delivered through the page cache: from its home, or from its copy. -/
def touchObject (s : State) (p : Nat) (o : MoveObj) (l : List (Nat × Nat)) : State :=
  match sourceOf (s.part p) o with
  | some a => if a.tier = 0 then l.foldl (fun s r => touchDram s p a.frame r.1 r.2 false false) s else s
  | none => s

/-! ### Descriptor segments (R147) -/

/-- The segments of page sets that are not in DRAM. -/
def segmentsOut (x : Part) (psns : List Nat) : List Nat :=
  (dedup (psns.map fun n => n / 16)).filter fun g => (Map.get x.segments g ⟨.page, 0, 0⟩).tier ≠ 0

/-- They move back to DRAM (DEDUCED, assumption log 65). -/
def recallSegments (s : State) (p : Nat) (l : List Nat) : State :=
  l.foldl (fun s g =>
    if (s.part p).moves.any fun m => m.2.obj = .segment g then s
    else selectMove s p (.segment g) .descriptor (Map.get (s.part p).segments g Loc.none) 65536 none) s

/-- A command that pins page sets waits for their segments; the wait counts under the cause of the first one's tier
(DEDUCED, assumption log 65). -/
def waitSegments (s : State) (c : CmdRef) (psns : List Nat) : Option State :=
  match segmentsOut (s.part c.part) psns with
  | [] => none
  | g :: r =>
    let t := (Map.get (s.part c.part).segments g Loc.none).tier
    some (waitFor (recallSegments s c.part (g :: r)) c .segment (tierLate t))

/-! ### Waiting for a hot entry (R89) -/

/-- An entry, where a victim may already be on its way out. -/
def hotOr (s : State) (p : Nat) (victim : Option Nat) : HotEntry :=
  match victim with
  | none => takeHot s p
  | some v =>
    if mayTakeHot s p then .free
    else
      match (s.part p).seq v with
      | some q => if q.state != .parking then takeHot s p else if q.stuck then .none else .parked s v
      | none => takeHot s p

/-- The victim that a command waits for. -/
def Flight.victim (f : Flight) : Option Nat :=
  match f.stage with
  | .waiting (.hotEntry v) => some v
  | _ => none

def needHot (s : State) (p : Nat) (f : Flight) : HotEntry := hotOr s p f.victim

/-! ### The wake (R90) -/

/-- How a wake ends: on, waiting for a victim's entry or for DRAM, or failed. -/
inductive Wake where
  | awake (s : State)
  | wait (s : State) (victim : Nat)
  | alloc (s : State)
  | fails (s : State) (status : Nat)

/-- R12: a home quadrant for a sequence that comes back from REST: the dispatcher's choice is free, as a function of the partition's own
sequences and objects (DESIGN CHOICE, assumption log 133). -/
def returnHome (x : Part) (i recorded : Nat) : Nat :=
  (Config.homeChoice ([i, recorded] ++ (x.seqs.flatMap fun e => [e.1, e.2.state.code, e.2.homeQ, e.2.length]) ++
    x.dram.flatMap fun e => [e.1, e.2.frames])).toNat

/-- A sequence with a hot entry whose rest frame has been read becomes ACTIVE: the rest-table word is KIND 0 and the rest frame is released (R145). -/
def restWake (s : State) (p i : Nat) : State :=
  match (s.part p).seq i with
  | none => s
  | some q =>
    let home := returnHome (s.part p) i q.homeQ
    let s := freeLoc s p q.restRef
    let s := s.onPart p fun x => { x with restTable := Map.del x.restTable i }
    (s.onSeq p i fun q => noPrediction { q with state := .active, homeQ := home, restRef := Loc.none }).onPart p fun x => x.fitTables i

/-- A RESTORING sequence becomes ACTIVE: its copies are promoted, and its rest frame and the copy of it are released (R153). -/
def restoringWake (s : State) (p i : Nat) : State :=
  match (s.part p).seq i with
  | none => s
  | some q =>
    let s := dropRestTent (promoteAll s p i).1 p i
    let s := freeLoc s p q.restRef
    let s := s.onPart p fun x => { x with restTable := Map.del x.restTable i }
    s.onSeq p i fun q => noPrediction { q with state := .active, restRef := Loc.none }

/-- The DRAM of the tables of a sequence that comes back from REST (R77, R79, R95). -/
def wakeTables (s : State) (p i : Nat) (q : Seq) : AllocAll := allocWithTables p q.homeQ (tableSlots q.pt.length) 0 (some i) [] s

/-- SEQUENCE_WAKE (R90) for a command with a word: the sequence becomes ACTIVE. A sequence at REST needs an entry, table space, and its rest frame
(DEDUCED, assumption log 13; DEDUCED, assumption log 29). -/
def wakeSeq (s : State) (p i : Nat) (victim : Option Nat) (c : CmdStep) (w : List Byte) : Wake :=
  match (s.part p).seq i with
  | none => .fails s St.invalidHandle
  | some q =>
    match q.state with
    | .active => .awake s
    | .swapped => .awake (s.onSeq p i fun q => { q with state := .active })
    | .parking => .awake (unpark s p i)
    | .restoring => .awake (restoringWake s p i)
    | .rest =>
      match hotOr s p victim with
      | .none => .fails s St.hotFull
      | .parked s v => .wait s v
      | .free =>
        match wakeTables s p i q with
        | .none s => .fails s St.noSpace
        | .wait s => .alloc s
        | .got s _ =>
          match cmdReads s p c w q.homeQ [.rest i] with
          | .fails s => .fails s St.mediaError
          | .wait s => .alloc s
          | .done s => .awake (restWake s p i)

/-- A command's wake of its sequence; what it waits for is its stage. Answers the state with the sequence awake, or how the start ends. -/
def wakeThen (s : State) (c : CmdStep) (f : Flight) (i : Nat) (next : State → Start) : Start :=
  match wakeSeq s c.ref.part i f.victim c f.word with
  | .fails s t => .reject s t
  | .wait s v => .go (setStage s c.ref (.waiting (.hotEntry v)))
  | .alloc s => .go (waitFor s c.ref .alloc Stall.dramAlloc)
  | .awake s => next s

end Sys2Proof.Machine
end

