-- ==== Sys2Proof/Machine/Sequence.lean ====
section
/-! DEFINITION. The sequence-class commands other than seq_open, and kv_read (R87 to R94, R131, R151 to R153, R221 to R224). -/

namespace Sys2Proof.Machine

open Sys2Proof

def cWord14 (w : List Byte) : Nat := field w 0x14 4

/-! ### Reading stored keys and values (R78, R195, R198, R199) -/

/-- R78: where position n of a layer is stored: the location and its slot. -/
def locate (x : Part) (q : Seq) (layer n : Nat) : Loc :=
  if n / 256 = q.lenOf layer / 256 then Map.get q.tails layer Loc.none
  else
    match (q.pt[n / 256]?).bind fun e => x.set e.psn with
    | some d => Map.get d.loc layer Loc.none
    | none => Loc.none

/-- The stored form is rotated: a page in ZK2 that is not a tail page. -/
def isRotated (m : Model) (q : Seq) (layer n : Nat) (l : Loc) : Bool :=
  n / 256 ≠ q.lenOf layer / 256 && l.kind = .page && m.cacheFormat = 14

/-- The FP32 vector of a head at a position, as stored, after the inverse rotation. -/
def positionVec (x : Part) (m : Model) (q : Seq) (layer n : Nat) (value : Bool) (h : Nat) : List Word :=
  let l := locate x q layer n
  let kind := if n / 256 = q.lenOf layer / 256 then LocKind.staging else l.kind
  let v := (storedVec m kind (x.bytesAt l) value h (n % 256)).map toF32
  if isRotated m q layer n l then unrotateVec m.headDim v else v

/-! ### seq_fork, seq_trim (R94) -/

/-- The lowest FREE index that no command in flight has reserved (DESIGN CHOICE, assumption log 14). -/
def freshIndex (x : Part) : Nat :=
  let held := x.slots.flatMap fun y => y.2.window.filterMap fun f => match f.plan with
    | .lookup _ _ _ i _ _ => if i = 0 then none else some (i - 1)
    | .copy _ i _ => if i = 0 then none else some (i - 1)
    | _ => none
  (leastFrom (fun i => !Map.has x.seqs i && !held.contains i) (x.seqs.length + held.length + 1) 0).getD 0

/-- The copies of a fork or the decoded pages of a trim are given back. -/
def freeAll (s : State) (p : Nat) (fs : List Nat) : State := fs.foldl (fun s f => freeObject s p f) s

/-- The tail pages of the parent read and copied to frames (DEDUCED, assumption log 77). -/
def forkTails (s : State) (c : CmdStep) (f : Flight) (i : Nat) (q : Seq) (fs : List Nat) : Start :=
  let p := c.ref.part
  let m := (s.part p).model q.model
  match cmdReads s p c f.word q.homeQ (q.tails.map fun e => .tail i e.1) with
  | .fails s => .reject (freeAll s p fs) St.mediaError
  | .wait s => .go (freeAll s p fs)
  | .done s =>
    let s := (q.tails.zip fs).foldl
      (fun s e => newObject (touchObject s p (.tail i e.1.1) [(0, m.stagingBytes)]) p e.2 m.stagingFrames ((s.part p).bytesAt e.1.2)) s
    let tails := (q.tails.zip fs).map fun e => (e.1.1, (⟨.page, 0, e.2⟩ : Loc))
    let s := setPlan s c.ref (.copy q.length (freshIndex (s.part p) + 1) tails)
    request (s.onFlight c.ref fun f => { f with startLen := q.length, slots := tableSlots q.pt.length }) c.ref

/-- An entry and DRAM for the child: for its tables, and for its tail pages. -/
def forkRoom (s : State) (c : CmdStep) (f : Flight) (i : Nat) : Start :=
  let p := c.ref.part
  match (s.part p).seq i with
  | none => .reject s St.invalidHandle
  | some q =>
    match needHot s p f with
    | .none => .reject s St.hotFull
    | .parked s v => .go (setStage s c.ref (.waiting (.hotEntry v)))
    | .free =>
      let m := (s.part p).model q.model
      match allocWithTables p q.homeQ (tableSlots q.pt.length) 0 (some i) (q.tails.map fun _ => m.stagingFrames) s with
      | .none s => .reject s St.noSpace
      | .wait s => .go (waitFor s c.ref .alloc Stall.dramAlloc)
      | .got s fs => forkTails s c f i q fs

def startSeqFork (s : State) (c : CmdStep) (_ : Slot) (f : Flight) : Start :=
  let i := handleIndex (cHandle f.word)
  match (s.part c.ref.part).handle (cHandle f.word) with
  | none => .reject s St.invalidHandle
  | some q => if q.isOpen then .reject s St.stepOpen else wakeThen s c f i fun s => forkRoom s c f i

/-- What the commit unit checks again of a fork or trim (R94): the handle, the step, and LENGTH. -/
def copyCheck (s : State) (c : CmdRef) (f : Flight) : Option Commit :=
  match (s.part c.part).handle (cHandle f.word) with
  | none => some (.reject s St.invalidHandle)
  | some q => if q.isOpen then some (.reject s St.stepOpen) else if q.length ≠ f.startLen then some (.kill s) else none

/-- R88: leading page sets with SHARED set. -/
def leadingShared : List PtEntry → Nat
  | [] => 0
  | e :: r => if e.shared then 1 + leadingShared r else 0

/-- A new ACTIVE sequence with a length and a page table. -/
def newSeq (s : State) (p i model homeQ length : Nat) (pt : List PtEntry) : Seq where
  gen := (s.part p).gen i
  state := .active
  model := model
  homeQ := homeQ
  length := length
  reservedLen := length
  stepBase := length
  sharedSets := leadingShared pt
  lastUse := s.nowS
  parkWait := 0
  pt := pt
  tails := []
  tokenTail := []
  layerDone := 0
  layerRsv := 0
  parkTime := 0
  predTime := 0
  holdEnd := 0
  specPages := 0
  predicted := false
  hinted := false
  restored := false
  restRef := Loc.none
  restSeq := 0
  restTent := none
  tailTents := []
  stuck := false
  chunks := []
  tailDir := none

/-- A new sequence enters the hot table, with the tables that were promised to it. -/
def putSeq (s : State) (p i : Nat) (q : Seq) : State := s.onPart p fun x => ({ x with seqs := Map.put x.seqs i q } : Part).fitTables i

def commitSeqFork (s : State) (c : CmdRef) (_ : Slot) (f : Flight) : Commit :=
  match copyCheck s c f with
  | some r => r
  | none =>
    match (s.part c.part).handle (cHandle f.word), f.plan with
    | some q, .copy _ i tails =>
      let pt := q.pt.map fun e => { e with shared := true }
      let child := { newSeq s c.part (i - 1) q.model q.homeQ q.length pt with tails := tails, tokenTail := q.tokenTail }
      let s := q.pt.foldl (fun s e => addRef s c.part e.psn) s
      let s := putSeq s c.part (i - 1) child
      let s := useSeq s c.part (handleIndex (cHandle f.word))
      let s := q.tails.foldl (fun s e => promoteTail s c.part (handleIndex (cHandle f.word)) e.1) s
      let s := setPlan s c .none
      .done s St.success (child.handleOf (i - 1)) q.length []
    | _, _ => .reject s St.invalidHandle

/-- Sets pinned once each and remembered with the epoch by the flight. -/
def pinFor (s : State) (c : CmdRef) (sets : List Nat) : State :=
  sets.foldl
    (fun s n =>
      let have1 := match s.flight c with
        | some f => f.pins.any fun e => e.1 = n
        | none => true
      if have1 then s
      else
        let r := pinSet s c.part n
        r.1.onFlight c fun f => { f with pins := f.pins ++ [(n, r.2)] }) s

/-- The pages of set psn read and decoded into new tail pages (R94, R200). -/
def trimPages (s : State) (c : CmdStep) (f : Flight) (q : Seq) (psn slots : Nat) (fs : List Nat) : Start :=
  let p := c.ref.part
  let m := (s.part p).model q.model
  match cmdReads s p c f.word q.homeQ ((List.range m.layers).map fun l => .page psn l) with
  | .fails s => .reject (freeAll s p fs) St.mediaError
  | .wait s => .go (freeAll s p fs)
  | .done s =>
    let s := pinFor s c.ref [psn]
    let loc := fun (s : State) (l : Nat) => match (s.part p).set psn with
      | some d => Map.get d.loc l Loc.none
      | none => Loc.none
    let s := fs.zipIdx.foldl
      (fun s a =>
        let l := loc s a.2
        let s := touchObject s p (.page psn a.2) (blockRanges m l.kind 0 m.kvHeads 0 slots)
        newObject s p a.1 m.stagingFrames (decodeTail m l.kind ((s.part p).bytesAt l) slots)) s
    request (setPlan s c.ref (.copy q.length 0 (fs.zipIdx.map fun a => (a.2, (⟨.page, 0, a.1⟩ : Loc))))) c.ref

/-- The trim of a sequence that is awake. -/
def trimRoom (s : State) (c : CmdStep) (f : Flight) (i t : Nat) : Start :=
  let p := c.ref.part
  match (s.part p).seq i with
  | none => .reject s St.invalidHandle
  | some q =>
    let s := s.onFlight c.ref fun f => { f with startLen := q.length }
    let m := (s.part p).model q.model
    if q.length / 256 ≤ t / 256 || t % 256 = 0 then request (setPlan s c.ref (.copy q.length 0 [])) c.ref
    else
      match q.pt[t / 256]? with
      | none => .reject s St.mediaError
      | some e =>
        match waitSegments s c.ref [e.psn] with
        | some s => .go s
        | none =>
          match allocAll p q.homeQ (some i) (List.replicate m.layers m.stagingFrames) s with
          | .none s => .reject s St.noSpace
          | .wait s => .go (waitFor s c.ref .alloc Stall.dramAlloc)
          | .got s fs => trimPages s c f q e.psn (t % 256) fs

def startSeqTrim (s : State) (c : CmdStep) (_ : Slot) (f : Flight) : Start :=
  let i := handleIndex (cHandle f.word)
  let t := cWord14 f.word
  match (s.part c.ref.part).handle (cHandle f.word) with
  | none => .reject s St.invalidHandle
  | some q =>
    if q.isOpen then .reject s St.stepOpen
    else if q.length < t then .reject s St.operandRange
    else wakeThen s c f i fun s => trimRoom s c f i t

def commitSeqTrim (s : State) (c : CmdRef) (_ : Slot) (f : Flight) : Commit :=
  match copyCheck s c f with
  | some r => r
  | none =>
    match (s.part c.part).handle (cHandle f.word), f.plan with
    | some q, .copy _ _ tails =>
      let p := c.part
      let i := handleIndex (cHandle f.word)
      let t := cWord14 f.word
      let k := t / 256
      let removed := q.pt.drop k
      let inTail := q.length / 256 ≤ k
      let toks := match (q.pt[k]?).bind fun e => (s.part p).set e.psn with
        | some d => d.tokens.take (t % 256)
        | none => []
      let s := f.pins.foldl (fun s e => (List.range 256).foldl (fun s l => promote s p e.1 l) s) s
      -- the old tail pages go, unless the cut lies in the tail and leaves part of it
      let keep := inTail && t % 256 ≠ 0
      let s := if keep then s else q.tails.foldl (fun s e => freeLoc s p e.2) s
      let s := if keep then s else q.tailTents.foldl (fun s e => freeObject s p e.2.frame) s
      let s := s.onSeq p i fun q =>
        { q with
          length := t
          reservedLen := t
          stepBase := t
          pt := q.pt.take k
          sharedSets := leadingShared (q.pt.take k)
          tails := if keep then q.tails else tails
          tailTents := if keep then q.tailTents else []
          tokenTail := if inTail then q.tokenTail.take (t % 256) else toks
          lastUse := s.nowS }
      let s := removed.foldl (fun s e => dropRef s p e.psn) (s.onPart p fun x => x.fitTables i)
      .done (setPlan s c .none) St.success t removed.length []
    | _, _ => .reject s St.invalidHandle

/-! ### seq_close (R91) -/

/-- The elements of an attention command that name a closed sequence fail; their units leave, and with them their remote groups (R189, R258). -/
def closeElems (s : State) (c : CmdRef) (i : Nat) (es : List Elem) : State :=
  es.zipIdx.foldl
    (fun s e =>
      if handleIndex e.1.handle ≠ i || e.1.status ≠ 0 then s
      else
        let s := match e.1.remote with
          | some r => abandonPackets s c fun g => g = r.group
          | none => s
        failElem (removeUnits s true fun u => u.isOf c && u.elem = e.2) c e.2 St.invalidHandle) s

/-- Commands in flight that name a closed sequence (R91): those that have not reached their commit request are killed and rejected, the others meet
the check of R49 there; of an attention command only the elements fail. -/
def failUsers (s : State) (p i : Nat) (own : CmdRef) : State :=
  let refs := (s.part p).slots.flatMap fun y =>
    (y.2.window.filter fun f => f.seqs.contains i && f.stage != .fetched).map fun f => (⟨p, y.1, f.index⟩ : CmdRef)
  (refs.filter fun c => c != own).foldl
    (fun s c =>
      match s.flight c with
      | none => s
      | some f =>
        if f.excepted then s
        else
          match f.plan, f.stage with
          | .attention _ es, .waiting _ =>
            ((closeElems s c i es).onAcct p fun a => { a with killed := a.killed + 1 }).onFlight c settle
          | .attention _ es, .requested => (closeElems s c i es).onFlight c settle
          | .attention _ es, .held => (closeElems s c i es).onFlight c settle
          | _, .waiting _ =>
            let s := (releaseRun s true c f).onAcct p fun a => { a with killed := a.killed + 1 }
            setStage s c (.rejected St.invalidHandle)
          | _, _ => s) s

/-- The index returns to FREE and its generation rises (R87); page sets, copies and the rest frame go (R26, R91, R93). -/
def closeSeq (s : State) (p i : Nat) (own : CmdRef) : State :=
  match (s.part p).seq i with
  | none => s
  | some q =>
    let s := forgetReservations (failUsers s p i own) p fun r => r.1 = i
    let s := (dropTents s p i).1
    let s := abandonMoves s p fun m => match m.obj with
      | .tail j _ => j = i
      | .rest j => j = i
      | _ => false
    let s := freeLoc s p q.restRef
    let s := s.onPart p fun x =>
      { x with
        seqs := Map.del x.seqs i
        gens := Map.put x.gens i (if q.gen = 255 then 1 else q.gen + 1)
        restTable := Map.del x.restTable i
        orphans := x.orphans ++ q.tails.map fun e => (i, e.2) }
    q.pt.foldl (fun s e => dropRef s p e.psn) s

def startHandle (s : State) (c : CmdStep) (f : Flight) : Start :=
  match (s.part c.ref.part).handle (cHandle f.word) with
  | none => .reject s St.invalidHandle
  | some _ => request s c.ref

def startSeqClose (s : State) (c : CmdStep) (_ : Slot) (f : Flight) : Start := startHandle s c f

def commitSeqClose (s : State) (c : CmdRef) (_ : Slot) (f : Flight) : Commit :=
  match (s.part c.part).handle (cHandle f.word) with
  | none => .reject s St.invalidHandle
  | some q => .done (closeSeq s c.part (handleIndex (cHandle f.word)) c) St.success q.length 0 []

/-! ### seq_park, seq_resume (R222) -/

/-- The prediction that PARK_WAIT makes (R151). -/
def parkPredict (s : State) (p i wait : Nat) : State :=
  s.onSeq p i fun q =>
    let q := { q with parkWait := wait }
    if wait ≠ 0 && (s.part p).regs.specEn then { q with predTime := q.parkTime + wait, predicted := true, hinted := false } else q

def startSeqPark (s : State) (c : CmdStep) (_ : Slot) (f : Flight) : Start := startHandle s c f

def commitSeqPark (s : State) (c : CmdRef) (_ : Slot) (f : Flight) : Commit :=
  let p := c.part
  let i := handleIndex (cHandle f.word)
  match (s.part p).handle (cHandle f.word) with
  | none => .reject s St.invalidHandle
  | some q =>
    let wait := cWord14 f.word
    match q.state with
    | .active => .done (parkPredict ((parkSeq s p i).onSeq p i fun q => { q with lastUse := s.nowS }) p i wait) St.success 2 0 []
    | .swapped => .done (parkPredict ((parkSeq s p i).onSeq p i fun q => { q with lastUse := s.nowS }) p i wait) St.success 2 0 []
    | .parking => .done (s.onSeq p i fun q => { q with parkWait := wait, lastUse := s.nowS }) St.success 2 0 []
    | t => .done s St.success t.code 0 []

/-- DEDUCED, assumption log 13. -/
def startSeqResume (s : State) (c : CmdStep) (_ : Slot) (f : Flight) : Start :=
  let p := c.ref.part
  let i := handleIndex (cHandle f.word)
  match (s.part p).handle (cHandle f.word) with
  | none => .reject s St.invalidHandle
  | some q =>
    if q.state != .rest then request s c.ref
    else
      match needHot s p f with
      | .none => .reject s St.hotFull
      | .parked s v => .go (setStage s c.ref (.waiting (.hotEntry v)))
      | .free =>
        match wakeTables s p i q with
        | .none s => .reject s St.noSpace
        | .wait s => .go (waitFor s c.ref .alloc Stall.dramAlloc)
        | .got s _ =>
          -- R30: the entry and the table space are the command's before its read begins
          let s := (setPlan s c.ref .resume).onFlight c.ref fun f => { f with slots := tableSlots q.pt.length }
          if c.defer && q.restRef.tier = 2 then
            .go (waitFor (issueFlashRead s p (.restFrame i) q.restRef.frame 65536 none).1 c.ref .restRead Stall.flashLate)
          else
            match cmdReads s p c f.word q.homeQ [.rest i] with
            | .fails s => .reject s St.mediaError
            | .wait s => .go s
            | .done s => request s c.ref

/-- What the start reserved for a resume is the sequence's from its commit point on. -/
def dropReserve (s : State) (c : CmdRef) : State := s.onFlight c fun f => { f with plan := .none, slots := 0 }

def commitSeqResume (s : State) (c : CmdRef) (_ : Slot) (f : Flight) : Commit :=
  let p := c.part
  let i := handleIndex (cHandle f.word)
  match (s.part p).handle (cHandle f.word) with
  | none => .reject s St.invalidHandle
  | some q =>
    let done := fun (s : State) (n : Nat) => Commit.done (s.onSeq p i fun q => { q with lastUse := s.nowS }) St.success q.length n []
    if q.state = .rest && f.plan = .resume then done (restWake (dropReserve s c) p i) 0
    else
      let n := if q.state = .restoring then (promoteAll s p i).2 else 0
      match wakeSeq (dropReserve s c) p i none ⟨c, [], true, []⟩ f.word with
      | .fails s t => .reject s t
      | .wait s v => .hold (setStage s c (.waiting (.hotEntry v)))
      | .alloc s => .hold (waitFor s c .alloc Stall.dramAlloc)
      | .awake s => done s n

/-! ### seq_hint, spec_cancel (R62, R151) -/

/-- R151: the wake list keeps its limit by dropping the prediction with the latest PRED_TIME. -/
def trimWakeList (s : State) : State :=
  let l := s.livePartitions.flatMap fun p =>
    ((s.part p).seqs.filter fun e => e.2.state = .rest && e.2.predicted).map fun e => (p, e.1, e.2.predTime)
  if l.length ≤ Config.wakeListEntries then s
  else
    match leastBy (fun e : Nat × Nat × Nat => 2 ^ 32 - e.2.2) l with
    | some v => { s.onSeq v.1 v.2.1 noPrediction with wakeDrop := s.wakeDrop + 1 }
    | none => s

def startSeqHint (s : State) (c : CmdStep) (_ : Slot) (f : Flight) : Start := startHandle s c f

def commitSeqHint (s : State) (c : CmdRef) (_ : Slot) (f : Flight) : Commit :=
  let i := handleIndex (cHandle f.word)
  let t := s.nowS + field f.word 0x14 2
  match (s.part c.part).handle (cHandle f.word) with
  | none => .reject s St.invalidHandle
  | some q =>
    if q.state = .active || q.state = .restoring then .done s St.success 0 0 []
    else
      let s := (useSeq s c.part i).onSeq c.part i fun q => { q with predTime := t, predicted := true, hinted := true }
      .done (trimWakeList s) St.success t 0 []

def startSpecCancel (s : State) (c : CmdStep) (_ : Slot) (f : Flight) : Start := startHandle s c f

/-- DEDUCED, assumption log 147. -/
def commitSpecCancel (s : State) (c : CmdRef) (_ : Slot) (f : Flight) : Commit :=
  let p := c.part
  let i := handleIndex (cHandle f.word)
  match (s.part p).handle (cHandle f.word) with
  | none => .reject s St.invalidHandle
  | some _ =>
    let r := dropTents s p i
    match (r.1.part p).seq i with
    | none => .reject s St.invalidHandle
    | some q =>
      if (r.1.part p).tentsOf q ≠ [] then .hold r.1
      else
        let s := useSeq r.1 p i
        let s := s.onSeq p i fun q => if q.state = .restoring then (s.part p).backToRest q else q
        .done s St.success r.2 0 []

/-! ### seq_query (R223) -/

/-- The three page counts: own pages by tier of their home. -/
def ownPages (x : Part) (q : Seq) (tier : Nat) : Nat :=
  sum ((x.ownSets q).map fun n => match x.set n with
    | some d => (d.loc.filter fun e => e.2.kind != .empty && e.2.tier = tier).length
    | none => 0)

def Seq.tentative (x : Part) (q : Seq) : Bool := x.tentsOf q ≠ [] || q.tailTents ≠ [] || q.restTent ≠ none

/-- TENTATIVE of FLAGS: at REST, as the rest frame's entry image has it (R144, R223). -/
def Seq.tentativeFlag (x : Part) (q : Seq) : Bool :=
  if q.state = .rest then bit (field (x.bytesAt q.restRef) 7 1) 0 else q.tentative x

def queryReport (x : Part) (q : Seq) (i : Nat) : List Byte :=
  let count := fun t => if q.state = .rest then 0xFFFFFFFF else ownPages x q t
  leBytes 4 (q.handleOf i) ++ leBytes 1 q.state.code ++ leBytes 1 q.model ++ leBytes 1 q.homeQ ++
    leBytes 1 (Bool.bit (q.tentativeFlag x)) ++ leBytes 4 q.length ++ leBytes 4 q.reservedLen ++ leBytes 4 q.stepBase ++
    leBytes 4 q.sharedSets ++ leBytes 4 q.lastUse ++ leBytes 4 q.parkWait ++ leBytes 4 q.predTime ++ leBytes 4 q.holdEnd ++
    leBytes 2 (Nat.min q.specPages 65535) ++ leBytes 2 (popcount 256 q.layerDone.toNat) ++ leBytes 4 (count 0) ++
    leBytes 4 (count 1) ++ leBytes 4 (count 2) ++ List.replicate 8 0

def startSeqQuery (s : State) (c : CmdStep) (_ : Slot) (f : Flight) : Start :=
  match (s.part c.ref.part).handle (cHandle f.word) with
  | none => .reject s St.invalidHandle
  | some _ => if field f.word 0x18 8 % 64 ≠ 0 then .reject s St.operandRange else request s c.ref

def commitSeqQuery (s : State) (c : CmdRef) (_ : Slot) (f : Flight) : Commit :=
  let i := handleIndex (cHandle f.word)
  match (s.part c.part).handle (cHandle f.word) with
  | none => .reject s St.invalidHandle
  | some q =>
    let s := useSeq s c.part i
    .done s St.success q.state.code 0 [(field f.word 0x18 8, queryReport (s.part c.part) (((s.part c.part).seq i).getD q) i)]

/-! ### kv_read (R224) -/

/-- Page sets that hold positions lo to lo + n - 1 below the tail. -/
def setsOf (q : Seq) (layer lo n : Nat) : List Nat :=
  if n = 0 then []
  else
    let hi := Nat.min ((lo + n - 1) / 256 + 1) (q.lenOf layer / 256)
    ((q.pt.take hi).drop (lo / 256)).map fun e => e.psn

/-- The KV_IN layout of R165 of positions lo to lo + n - 1. -/
def kvBytes (x : Part) (m : Model) (q : Seq) (layer fmt lo n : Nat) : List Byte :=
  (List.range n).flatMap fun i =>
    ((List.range m.kvHeads).flatMap fun h => vecEncode fmt ((positionVec x m q layer (lo + i) false h).map f32)) ++
    ((List.range m.kvHeads).flatMap fun h => vecEncode fmt ((positionVec x m q layer (lo + i) true h).map f32))

/-- The objects that hold positions lo to lo + n - 1 of a layer, each with its first slot and its number of positions. -/
def kvObjects (q : Seq) (i layer lo n : Nat) : List (MoveObj × Nat × Nat) :=
  (dedup ((List.range n).map fun k => (lo + k) / 256)).filterMap fun k =>
    let a := Nat.max lo (256 * k)
    let b := Nat.min (lo + n) (256 * k + 256)
    (if k = q.lenOf layer / 256 then some (.tail i layer) else (q.pt[k]?).map fun e => .page e.psn layer).map fun o => (o, a % 256, b - a)

/-- The read of a sequence that is awake. -/
def kvReadPages (s : State) (c : CmdStep) (f : Flight) (i layer fmt lo n : Nat) : Start :=
  let p := c.ref.part
  match (s.part p).seq i with
  | none => .reject s St.invalidHandle
  | some q =>
    let m := (s.part p).model q.model
    let sets := setsOf q layer lo n
    match waitSegments s c.ref sets with
    | some s => .go s
    | none =>
      let s := pinFor s c.ref sets
      let os := kvObjects q i layer lo n
      match cmdReads s p c f.word q.homeQ (os.map fun o => o.1) with
      | .fails s => .reject s St.mediaError
      | .wait s => .go s
      | .done s =>
        let kind := fun (s : State) (o : MoveObj) => match o with
          | .page psn l => match (s.part p).set psn with
            | some d => (Map.get d.loc l Loc.none).kind
            | none => .page
          | _ => .staging
        let s := os.foldl (fun s o => touchObject s p o.1 (blockRanges m (kind s o.1) 0 m.kvHeads o.2.1 o.2.2)) s
        request (setPlan s c.ref (.bytes (kvBytes (s.part p) m q layer fmt lo n))) c.ref

def startKvRead (s : State) (c : CmdStep) (_ : Slot) (f : Flight) : Start :=
  let p := c.ref.part
  let w := f.word
  let i := handleIndex (cHandle w)
  let layer := field w 0x14 1
  let fmt := field w 0x15 1 % 16
  let first := field w 0x18 4
  let n := field w 0x1C 4
  match (s.part p).handle (cHandle w) with
  | none => .reject s St.invalidHandle
  | some q =>
    let m := (s.part p).model q.model
    if m.layers ≤ layer then .reject s St.layerRange
    else if 3 < fmt then .reject s St.format
    else if n = 0 || 16384 < n || q.lenOf layer < first + n then .reject s St.countRange
    else if field w 0x20 8 % 64 ≠ 0 then .reject s St.operandRange
    else wakeThen s c f i fun s => kvReadPages s c f i layer fmt first n

def commitKvRead (s : State) (c : CmdRef) (_ : Slot) (f : Flight) : Commit :=
  let b := match f.plan with
    | .bytes b => b
    | _ => []
  match (s.part c.part).handle (cHandle f.word) with
  | none => .reject s St.invalidHandle
  | some q =>
    let i := handleIndex (cHandle f.word)
    let layer := field f.word 0x14 1
    let s := f.pins.foldl (fun s e => promote s c.part e.1 layer) (useSeq s c.part i)
    let s := if (field f.word 0x18 4 + field f.word 0x1C 4 - 1) / 256 = q.lenOf layer / 256 then promoteTail s c.part i layer else s
    .done s St.success b.length 0 [(field f.word 0x20 8, b)]

end Sys2Proof.Machine
end

