-- ==== Sys2Proof/Machine/Prefix.lean ====
section
/-! DEFINITION. The prefix store (R98 to R122): seq_open and prefix_probe with their lookup, the SHAKE256 cores, publishing, retaining,
eviction, ageing. -/

namespace Sys2Proof.Machine

open Sys2Proof

/-! ### The lookup (R110, R111) -/

def oT (w : List Byte) : Nat := field w 0x14 4
def oTokens (w : List Byte) : Nat := field w 0x18 8
def oMaxSets (w : List Byte) : Nat := field w 0x20 4
def oNoAdopt (w : List Byte) : Bool := bit (field w 0x11 1) 0
def oAdoptAll (w : List Byte) : Bool := bit (field w 0x11 1) 1
def oTokPw (w : List Byte) : Bool := bit (field w 0x11 1) 2

/-- R110: h_max. -/
def hMaxOf (w : List Byte) : Nat :=
  let t := oT w
  let h := if oAdoptAll w then t / 256 else (t - 1) / 256
  if oMaxSets w = 0 then h else Nat.min h (oMaxSets w)

def words (b : List Byte) : List Word := (List.range (b.length / 4)).map fun i => BitVec.ofNat 32 (field b (4 * i) 4)

/-- One digest of a lookup at index k and its probe (PREFIX_LOOKUP): answers the digest and whether the lookup goes on. -/
def lookupOne (s : State) (c : CmdRef) (model k : Nat) (prev : BitVec 128) (tokens : List Word) : State × BitVec 128 × Bool :=
  let x := s.part c.part
  let t := (tokens.drop (256 * k)).take 256
  let d := digestOf (x.model model).tag x.grant.salt prev t
  match probe x d model k with
  | none => (s, d, false)
  | some e =>
    let s := pinFor s c [e.2.psn]
    let ok := match x.set e.2.psn with
      | some g => g.tokens = t
      | none => false
    let s := s.onFlight c fun f => match f.plan with
      | .lookup ps es v i h done =>
        { f with plan := if ok then .lookup (ps ++ [e.2.psn]) (es ++ [e.1]) v i h done else .lookup ps es (v + 1) i h done }
      | _ => f
    (s, d, ok)

/-- The lookup has ended: the command gets its commit request. Where it has pinned a set whose segment is not in DRAM, it waits for the segment and
looks up again (R147). -/
def lookupDone (s : State) (c : CmdRef) : State :=
  match s.flight c with
  | none => s
  | some f =>
    match f.plan with
    | .lookup ps es v i h _ =>
      match waitSegments s c ps with
      | some s => (setPlan s c .none).onFlight c fun f => { f with slots := 0 }
      | none => setStage (setPlan s c (.lookup ps es v i h true)) c .requested
    | _ => s

/-- The whole lookup from index k on, n digests at most (DESIGN CHOICE, assumption log 161). -/
def lookupAll (c : CmdRef) (model : Nat) (tokens : List Word) : Nat → Nat → BitVec 128 → State → State
  | 0, _, _, s => lookupDone s c
  | n + 1, k, prev, s =>
    let r := lookupOne s c model k prev tokens
    if r.2.2 then lookupAll c model tokens n (k + 1) r.2.1 r.1 else lookupDone r.1 c

/-! ### SHAKE256 cores (R101) -/

/-- The chain of the next partition in round-robin order after last, and the chains left. -/
def nextChain (last : Nat) (l : List Chain) : Option (Chain × List Chain) :=
  let order := (List.range 16).map fun i => (last + 1 + i) % 16
  match order.findSome? fun p => l.find? fun c => c.ref.part = p with
  | some c => some (c, l.erase c)
  | none => none

/-- An idle core takes the next waiting chain. -/
def grantCore (d : Sched) (core : Nat) : Sched :=
  match nextChain d.lastPart d.chains with
  | some r => { d with cores := Map.put d.cores core r.1, chains := r.2, lastPart := r.1.ref.part }
  | none => { d with cores := Map.del d.cores core }

/-- A new chain goes to an idle core, or waits. -/
def addChain (s : State) (c : Chain) : State :=
  s.onSched fun d =>
    match (List.range 8).find? fun i => !Map.has d.cores i with
    | some i => { d with cores := Map.put d.cores i c, lastPart := c.ref.part }
    | none => { d with chains := d.chains ++ [c] }

/-- The lookup of a started command: at once, or through the cores (DEDUCED, assumption log 74). -/
def startLookup (s : State) (c : CmdStep) (w : List Byte) (index : Nat) : State :=
  let p := c.ref.part
  let h := hMaxOf w
  let go := h ≠ 0 && !(oNoAdopt w && cOpcode w = Op.seqOpen)
  let s := setPlan s c.ref (.lookup [] [] 0 index h false)
  if !go then lookupDone s c.ref
  else
    let toks := words (operandBytes s p (oTokPw w) (oTokens w) (1024 * h))
    let s := hostIn s c.ref (if oTokPw w then 0 else 1024 * h)
    if c.defer then addChain (setStage s c.ref (.waiting .digests)) ⟨c.ref, 0, h, cModel w, 0, toks⟩
    else lookupAll c.ref (cModel w) toks h 0 0 s

/-! ### seq_open, prefix_probe (R106, R112, R113, R221, R225) -/

/-- The checks of seq_open up to OPERAND_FAULT (DEDUCED, assumption log 74), which covers all 4 × T bytes of TOKENS
(DESIGN CHOICE, assumption log 165). -/
def openCheck (s : State) (p : Nat) (bad : List (Nat × Nat)) (w : List Byte) : Option Nat :=
  let x := s.part p
  let t := oT w
  if 1048576 < t || 4096 < oMaxSets w || (oTokPw w && x.sliceBytes < oTokens w + 4 * t) then some St.operandRange
  else if !Map.has x.models (cModel w) then some St.noModel
  else if t ≠ 0 && !oTokPw w && oTokens w = 0 then some St.noTokens
  else if t ≠ 0 && !oTokPw w && !(oNoAdopt w && cOpcode w = Op.seqOpen) && !readOk bad (oTokens w) (4 * t) then some St.operandFault
  else none

/-- DEDUCED, assumption log 74. -/
def startSeqOpen (s : State) (c : CmdStep) (_ : Slot) (f : Flight) : Start :=
  match openCheck s c.ref.part c.bad f.word with
  | some st => .reject s st
  | none =>
    match needHot s c.ref.part f with
    | .none => .reject s St.hotFull
    | .parked s v => .go (setStage s c.ref (.waiting (.hotEntry v)))
    | .free =>
      -- the page table of the sets that may be adopted, and the token tail (R77, R79, R95)
      let n := tableSlots (if oNoAdopt f.word then 0 else hMaxOf f.word)
      match allocWithTables c.ref.part 0 n 0 none [] s with
      | .none s => .reject s St.noSpace
      | .wait s => .go (waitFor s c.ref .alloc Stall.dramAlloc)
      | .got s _ => .go (startLookup (s.onFlight c.ref fun f => { f with slots := n }) c f.word (freshIndex (s.part c.ref.part) + 1))

/-- R12: the home quadrant of a new sequence: most DRAM pages of the adopted sets, then fewest sequences homed, then lowest. -/
def openHome (x : Part) (psns : List Nat) : Nat :=
  let pages := fun q => sum (psns.map fun n => match x.set n with
    | some d => (d.loc.filter fun e => e.2.kind != .empty && e.2.tier = 0 && frameQuad e.2.frame = q).length
    | none => 0)
  let homed := fun q => (x.seqs.filter fun e => e.2.state != .rest && e.2.homeQ = q).length
  let most := [0, 1, 2, 3].foldl (fun m q => Nat.max m (pages q)) 0
  (leastBy homed ([0, 1, 2, 3].filter fun q => pages q = most)).getD 0

def onCnt (s : State) (p : Nat) (g : PartCounters → PartCounters) : State := s.onPart p fun x => x.onCnt g

def commitSeqOpen (s : State) (c : CmdRef) (_ : Slot) (f : Flight) : Commit :=
  let p := c.part
  match f.plan with
  | .lookup ps es v i _ _ =>
    let x := s.part p
    let held := (ps.zip es).all fun a => match Map.look x.dir a.2 with
      | some e => e.psn = a.1
      | none => false
    if !held then .kill s
    else
      let pt := ps.map fun n => (⟨n, true⟩ : PtEntry)
      let q := newSeq s p (i - 1) (cModel f.word) (openHome x ps) (256 * ps.length) pt
      let s := ps.foldl (fun s n => addRef s p n) s
      let s := putSeq s p (i - 1) q
      let s := onCnt s p fun n =>
        { n with
          lookups := if oNoAdopt f.word then n.lookups else n.lookups + 1
          adopted := n.adopted + BitVec.ofNat 32 ps.length
          verifyFail := n.verifyFail + BitVec.ofNat 32 v }
      .done (setPlan s c .none) St.success (q.handleOf (i - 1)) (256 * ps.length) []
  | _ => .kill s

def startPrefixProbe (s : State) (c : CmdStep) (_ : Slot) (f : Flight) : Start :=
  match openCheck s c.ref.part c.bad f.word with
  | some st => .reject s st
  | none => .go (startLookup s c f.word 0)

def commitPrefixProbe (s : State) (c : CmdRef) (_ : Slot) (f : Flight) : Commit :=
  match f.plan with
  | .lookup ps _ v _ _ _ =>
    let s := onCnt s c.part fun n => { n with lookups := n.lookups + 1, verifyFail := n.verifyFail + BitVec.ofNat 32 v }
    .done s St.success ps.length (256 * ps.length) []
  | _ => .kill s

/-! ### prefix_publish (R107 to R109) -/

/-- DIRECTORY_INSERT: the way that an insert takes (R109). -/
def insertWay (x : Part) (d : BitVec 128) : Option Nat :=
  let ways := (List.range 8).map fun w => dirBase d + w
  match ways.find? fun i => !Map.has x.dir i with
  | some i => some i
  | none =>
    let c := ways.filter fun i => match Map.look x.dir i with
      | some e => !e.held && !e.retain
      | none => false
    leastBy (fun i => match Map.look x.dir i with
      | some e => 255 - e.age
      | none => 255) c

structure Publish where
  s : State
  inserted : Nat
  matched : Nat
  refused : Nat
  found : List (Nat × Nat)

/-- The digests of the sets from a refused one on, written to their descriptors. -/
def writeDigests (p tag : Nat) (salt : BitVec 128) : List PtEntry → BitVec 128 → State → State
  | [], _, s => s
  | e :: r, d, s =>
    match (s.part p).set e.psn with
    | none => s
    | some g =>
      let d := if g.digest ≠ 0 then g.digest else digestOf tag salt d g.tokens
      writeDigests p tag salt r d (s.onSet p e.psn fun g => { g with digest := d })

/-- R108: the sets of a page table from index k on; found lists what each probe met (the matched PSN, or 0 for an insert). -/
def publishFrom (p i model tag : Nat) (salt : BitVec 128) : List PtEntry → Nat → BitVec 128 → Publish → Publish
  | [], _, _, a => a
  | e :: r, k, d, a =>
    match (a.s.part p).set e.psn with
    | none => a
    | some g =>
      let d := if g.digest ≠ 0 then g.digest else digestOf tag salt d g.tokens
      let s := a.s.onSet p e.psn fun g => { g with digest := d }
      if g.dir then publishFrom p i model tag salt r (k + 1) d { a with s := s }
      else
        let hit := (probe (s.part p) d model k).filter fun h => match (s.part p).set h.2.psn with
          | some o => o.tokens = g.tokens
          | none => false
        match hit with
        | some h =>
          let s := s.onSeq p i fun q => { q with pt := q.pt.set k ⟨h.2.psn, true⟩ }
          let s := s.onSeq p i fun q => { q with sharedSets := leadingShared q.pt }
          let s := dropRef (addRef s p h.2.psn) p e.psn
          publishFrom p i model tag salt r (k + 1) d
            { a with s := s, matched := a.matched + 1, found := a.found ++ [(k, h.2.psn)] }
        | none =>
          match insertWay (s.part p) d with
          | some n =>
            let s := if Map.has (s.part p).dir n then evictEntry s p n else s
            let s := s.onPart p fun x =>
              { x with dir := Map.put x.dir n ⟨d, e.psn, k, model, g.refs ≠ 0, false, 0⟩ }
            let s := s.onSet p e.psn fun g => { g with dir := true }
            publishFrom p i model tag salt r (k + 1) d
              { a with s := s, inserted := a.inserted + 1, found := a.found ++ [(k, 0)] }
          | none =>
            let s := writeDigests p tag salt r d s
            { a with s := s, refused := r.length + 1 }

/-- DESIGN CHOICE, assumption log 161. -/
def publishRun (s : State) (p i n : Nat) : Publish :=
  match (s.part p).seq i with
  | none => ⟨s, 0, 0, 0, []⟩
  | some q =>
    let x := s.part p
    publishFrom p i q.model (x.model q.model).tag x.grant.salt (q.pt.take n) 0 0 ⟨s, 0, 0, 0, []⟩

/-- The sets among the first n of a sequence whose digests have still to be computed (R100). -/
def digestsLeft (x : Part) (i n : Nat) : Nat :=
  match x.seq i with
  | none => 0
  | some q => ((q.pt.take n).filter fun e => match x.set e.psn with
      | some d => d.digest = 0
      | none => false).length

/-- The digests of a publish have passed through a core: the sets are matched, and the command gets its commit request. -/
def publishDone (s : State) (c : CmdRef) (w : List Byte) : State :=
  setStage (setPlan s c (.publish (publishRun s c.part (handleIndex (cHandle w)) (cWord14 w)).found)) c .requested

def startPrefixPublish (s : State) (c : CmdStep) (_ : Slot) (f : Flight) : Start :=
  let p := c.ref.part
  let n := cWord14 f.word
  let i := handleIndex (cHandle f.word)
  if n = 0 || 4096 < n then .reject s St.operandRange
  else
    match (s.part p).handle (cHandle f.word) with
    | none => .reject s St.invalidHandle
    | some q =>
      if q.stepBase / 256 < n then .reject s St.prefixRange
      else
        wakeThen s c f i fun s =>
          match waitSegments s c.ref ((q.pt.take n).map fun e => e.psn) with
          | some s => .go s
          | none =>
            let k := digestsLeft (s.part p) i n
            if c.defer && k ≠ 0 then .go (addChain (setStage s c.ref (.waiting .digests)) ⟨c.ref, 0, k, q.model, 0, []⟩)
            else request (setPlan s c.ref (.publish (publishRun s p i n).found)) c.ref

def commitPrefixPublish (s : State) (c : CmdRef) (_ : Slot) (f : Flight) : Commit :=
  let i := handleIndex (cHandle f.word)
  match (s.part c.part).handle (cHandle f.word) with
  | none => .reject s St.invalidHandle
  | some _ =>
    let a := publishRun s c.part i (cWord14 f.word)
    match f.plan with
    | .publish found =>
      -- R121: an entry that appeared or went since the run makes the publish run again
      if a.found ≠ found then .kill s
      else
        let s := onCnt a.s c.part fun n => { n with refused := n.refused + BitVec.ofNat 32 a.refused }
        let s := s.onSeq c.part i fun q => { q with lastUse := s.nowS }
        .done s St.success (a.inserted + a.matched * 2 ^ 16) a.refused []
    | _ => .kill s

/-! ### A core ends its digest (R101) -/

/-- The next digest of a chain waits its turn behind the partition's other chains. -/
def chainOn (s : State) (c : Chain) : State := s.onSched fun d => { d with chains := d.chains ++ [c] }

/-- DIGEST_COMPLETE: for a lookup the probe, and for both kinds of chain the next digest or the end (R101, R111). -/
def digestComplete (core : Nat) (s : State) : State :=
  match Map.look s.sched.cores core with
  | none => s
  | some c =>
    let w := ((s.flight c.ref).map fun f => f.word).getD []
    let last := c.hMax ≤ c.k + 1
    let s :=
      if cOpcode w = Op.prefixPublish then if last then publishDone s c.ref w else chainOn s { c with k := c.k + 1 }
      else
        let r := lookupOne s c.ref c.model c.k c.prev c.tokens
        if r.2.2 && !last then chainOn r.1 { c with k := c.k + 1, prev := r.2.1 } else lookupDone r.1 c.ref
    s.onSched fun d => grantCore d core

/-! ### prefix_retain (R117) -/

/-- The entries that hold sets 0 to n - 1 of a sequence. -/
def leadingEntries (x : Part) (q : Seq) (n : Nat) : List (Nat × DirEntry) :=
  (q.pt.take n).filterMap fun e => x.entryOf e.psn

def retained (x : Part) : Nat := (x.dir.filter fun e => e.2.retain).length

def startLeading (s : State) (c : CmdStep) (f : Flight) : Start :=
  let n := cWord14 f.word
  if n = 0 || 4096 < n then .reject s St.operandRange
  else
    match (s.part c.ref.part).handle (cHandle f.word) with
    | none => .reject s St.invalidHandle
    | some q =>
      if q.length / 256 < n then .reject s St.prefixRange
      else
        let clear := bit (field f.word 0x18 1) 0
        let x := s.part c.ref.part
        let new := ((leadingEntries x q n).filter fun e => !e.2.retain).length
        if cOpcode f.word = Op.prefixRetain && !clear && Config.retainLimit < retained x + new then .reject s St.retainLimit
        else
          wakeThen s c f (handleIndex (cHandle f.word)) fun s => request s c.ref

def startPrefixRetain (s : State) (c : CmdStep) (_ : Slot) (f : Flight) : Start := startLeading s c f

def commitPrefixRetain (s : State) (c : CmdRef) (_ : Slot) (f : Flight) : Commit :=
  let set := !bit (field f.word 0x18 1) 0
  match (s.part c.part).handle (cHandle f.word) with
  | none => .reject s St.invalidHandle
  | some q =>
    let x := s.part c.part
    let es := (leadingEntries x q (cWord14 f.word)).filter fun e => e.2.retain != set
    if set && Config.retainLimit < retained x + es.length then .reject s St.retainLimit
    else
      let s := es.foldl (fun s e => s.onPart c.part fun x =>
        { x with dir := Map.edit x.dir e.1 fun d => { d with retain := set } }) s
      .done (useSeq s c.part (handleIndex (cHandle f.word))) St.success es.length 0 []

/-! ### prefix_evict (R106, R114) -/

def evictMode (w : List Byte) : Nat := field w 0x18 1
def evictModelNo (w : List Byte) : Nat := field w 0x19 1 % 16

def startPrefixEvictModel (s : State) (c : CmdStep) (_ : Slot) (f : Flight) : Start :=
  if evictMode f.word ≠ 0 then .reject s St.operandRange
  else if !Map.has (s.part c.ref.part).models (evictModelNo f.word) then .reject s St.noModel
  else request s c.ref

def commitPrefixEvictModel (s : State) (c : CmdRef) (_ : Slot) (f : Flight) : Commit :=
  let r := evictModel s c.part (evictModelNo f.word)
  .done r.1 St.success r.2 0 []

def startPrefixEvictSequence (s : State) (c : CmdStep) (_ : Slot) (f : Flight) : Start :=
  if evictMode f.word ≠ 1 then .reject s St.operandRange else startLeading s c f

def commitPrefixEvictSequence (s : State) (c : CmdRef) (_ : Slot) (f : Flight) : Commit :=
  match (s.part c.part).handle (cHandle f.word) with
  | none => .reject s St.invalidHandle
  | some q =>
    let es := leadingEntries (s.part c.part) q (cWord14 f.word)
    .done (useSeq (es.foldl (fun s e => evictEntry s c.part e.1) s) c.part (handleIndex (cHandle f.word))) St.success es.length 0 []

/-! ### Ageing (R115, R116, R126) and the descriptor sweep (R444) -/

/-- AGE rises by a number of periods of 64 s; on the exit from Deep sleep too it is that of entries with HELD and RETAIN clear
(DESIGN CHOICE, assumption log 157). -/
def ageDirectory (periods : Nat) (x : Part) : Part :=
  { x with dir := Map.each x.dir fun e => if e.held || e.retain then e else { e with age := satAdd 255 e.age periods } }

def sweepPart (periods : Nat) (s : State) (p : Nat) : State :=
  let s := s.onPart p (ageDirectory periods)
  let x := s.part p
  if x.regs.maxAge = 0 then s
  else
    ((x.dir.filter fun e => !e.2.held && !e.2.retain && x.regs.maxAge ≤ e.2.age).map fun e => e.1).foldl
      (fun s i => evictEntry s p i) s

/-- DIRECTORY_SWEEP: once for each period of 64 s of the seconds counter, while the chip is on. -/
def directorySweep (s : State) : State :=
  if s.power.chip ≠ .on || s.nowS / 64 ≤ s.dirSweep then s
  else s.livePartitions.foldl (sweepPart (s.nowS / 64 - s.dirSweep)) { s with dirSweep := s.nowS / 64 }

/-- R444: descriptors with DIR set that no valid entry holds. -/
def descriptorDirSweep (p : Nat) (s : State) : State :=
  let x := s.part p
  ((x.sets.filter fun e => e.2.dir && (x.entryOf e.1).isNone).map fun e => e.1).foldl
    (fun s n => maybeRelease (s.onSet p n fun d => { d with dir := false }) p n) s

def execDigestComplete (core : Nat) (s : State) : Host.Outcome State Fault Refusal := .next (digestComplete core s)

def execDirectorySweep (s : State) : Host.Outcome State Fault Refusal := .next (directorySweep s)

def execDescriptorDirSweep (part : Nat) (s : State) : Host.Outcome State Fault Refusal := .next (descriptorDirSweep part s)

end Sys2Proof.Machine
end

