-- ==== Sys2Proof/Machine/Tiers.lean ====
section
/-! DEFINITION. Placement: host regions (R154, R155, R226), moves and their commit (R139 to R142, R92), flushes (R81), parking, cooling and the
rest store (R134 to R147), speculative restore and the expiry of copies (R150 to R153). -/

namespace Sys2Proof.Machine

open Sys2Proof

/-! ### Host regions (R154, R155) -/

def cRegion (w : List Byte) : Nat := field w 0x10 1 % 16
def cBase (w : List Byte) : Nat := field w 0x18 8
def cBytes (w : List Byte) : Nat := field w 0x20 8

def startHostRegionAdd (s : State) (c : CmdStep) (_ : Slot) (f : Flight) : Start :=
  let w := f.word
  if cBase w % 65536 ≠ 0 || cBytes w % 2048 ≠ 0 || cBytes w < 67584 || 2 ^ 40 < cBytes w then .reject s St.regionRange
  else if Map.has (s.part c.ref.part).regions (cRegion w) then .reject s St.regionBusy
  else request s c.ref

def commitHostRegionAdd (s : State) (c : CmdRef) (_ : Slot) (f : Flight) : Commit :=
  let r : Region := ⟨cBase f.word, cBytes f.word, false, []⟩
  if Map.has (s.part c.part).regions (cRegion f.word) then .reject s St.regionBusy
  else .done (s.onPart c.part fun x => { x with regions := Map.put x.regions (cRegion f.word) r }) St.success r.frames 0 []

/-- The objects homed in a region, each with its location. -/
def homedIn (x : Part) (r : Nat) : List (MoveObj × Loc) :=
  let here := fun l : Loc => l.kind ≠ .empty && l.tier = 1 && l.region = r
  (x.sets.flatMap fun e => (e.2.loc.filter fun l => here l.2).map fun l => (MoveObj.page e.1 l.1, l.2)) ++
    (x.seqs.flatMap fun e => (e.2.tails.filter fun l => here l.2).map fun l => (MoveObj.tail e.1 l.1, l.2)) ++
    ((x.seqs.filter fun e => here e.2.restRef).map fun e => (MoveObj.rest e.1, e.2.restRef)) ++
    ((x.segments.filter fun e => here e.2).map fun e => (MoveObj.segment e.1, e.2))

/-- Every object of a region that has no move and has not failed gets one (DEDUCED, assumption log 144). -/
def evacuate (s : State) (p r : Nat) (failed : List MoveObj) (c : CmdRef) : State :=
  let x := s.part p
  ((homedIn x r).filter fun o => !failed.contains o.1 && !(x.moves.any fun m => m.2.obj = o.1)).foldl
    (fun s o => selectMove s p o.1 .region o.2 (objBytes x o.1) (some c)) s

/-- R155: room for the frames in use. -/
def removalRoom (s : State) (p : Nat) : Nat :=
  let x := s.part p
  sum (x.flashChannels.map fun c => match s.channel c with
    | some ch => if ch.online then Nat.min (channelRoom s c) (capacity s c - usedFrames s c) else 0
    | none => 0) + (freeFrames s x - x.regs.low * 1024)

def startHostRegionRemove (s : State) (c : CmdStep) (_ : Slot) (f : Flight) : Start :=
  let p := c.ref.part
  match Map.look (s.part p).regions (cRegion f.word) with
  | none => .reject s St.regionRange
  | some r =>
    if r.removing then .reject s St.regionBusy
    else if removalRoom s p < sum (r.alloc.map fun e => e.2.frames) then .reject s St.noSpace
    else
      let s := s.onPart p fun x =>
        { x with regions := Map.edit x.regions (cRegion f.word) fun r => { r with removing := true } }
      let s := evacuate s p (cRegion f.word) [] c.ref
      request (setPlan s c.ref (.region 0 [])) c.ref

/-- DEDUCED, assumption log 144. -/
def commitHostRegionRemove (s : State) (c : CmdRef) (_ : Slot) (f : Flight) : Commit :=
  let r := cRegion f.word
  match Map.look (s.part c.part).regions r, f.plan with
  | some g, .region moved failed =>
    if g.alloc = [] && !((s.part c.part).moves.any fun m => m.2.dst.tier = 1 && m.2.dst.region = r && m.2.dst.kind ≠ .empty) then
      let s := s.onPart c.part fun x => { x with regions := Map.del x.regions r }
      .done (setPlan s c .none) St.success moved 0 []
    else
      let s := evacuate s c.part r failed c
      let busy := (s.part c.part).moves.any fun m => m.2.cmd = some c || (m.2.dst.tier = 1 && m.2.dst.region = r)
      if failed ≠ [] && !busy then .reject s St.mediaError else .hold s
  | _, _ => .reject s St.regionRange

/-! ### The steps of a move (R139) -/

def onMove (s : State) (p id : Nat) (g : Move → Move) : State := s.onPart p fun x => { x with moves := Map.edit x.moves id g }

/-- A pin of a move or a remote page: no touch (R131). -/
def pinQuiet (s : State) (p psn : Nat) : State × Bool :=
  match (s.part p).set psn with
  | none => (s, false)
  | some d =>
    (s.onSet p psn fun d => if d.pinEpoch then { d with pins1 := d.pins1 + 1 } else { d with pins0 := d.pins0 + 1 }, d.pinEpoch)

/-- Where a move goes (R134, R135). -/
def moveDest (s : State) (p : Nat) (m : Move) : Dest :=
  let n := objFrames (s.part p) m.obj
  match m.why with
  | .parking => restDest s p n
  | .preempt => spillDest s p n
  | .descriptor => spillDest s p n
  | _ => if flashRoom s p n then .flash else .none

/-- A move that finds no place for its object: a parking sequence is stuck (R136), and the object stays. -/
def moveNowhere (s : State) (p id : Nat) (m : Move) : State :=
  let s := abandonMove s p id
  if m.why != .parking then s
  else
    s.onPart p fun x =>
      { x with seqs := Map.each x.seqs fun q =>
          if q.state = .parking && (match m.obj with
            | .page n _ => q.pt.any fun e => e.psn = n
            | .tail i _ => Map.look x.seqs i = some q
            | .rest i => Map.look x.seqs i = some q
            | _ => false) then { q with stuck := true } else q }

/-- MEM_PLC_PARKED: the PARKING sequences whose objects find no room (R136). -/
def Part.parkedCount (x : Part) : Nat := (x.seqs.filter fun e => e.2.state = .parking && e.2.stuck).length

/-- R88: the image of a hot-table entry; DRAM addresses are those of its tables (DESIGN CHOICE, assumption log 16). -/
def entryImage (x : Part) (q : Seq) (i : Nat) : List Byte :=
  let slot := fun a : Option Nat => leBytes 8 (4096 * a.getD 0)
  let tail := match q.tailDir with
    | some a => leBytes 8 (4096 * a) ++ leBytes 8 (4096 * a + 0x800)
    | none => leBytes 16 0
  leBytes 4 (q.handleOf i) ++ leBytes 1 q.state.code ++ leBytes 1 q.model ++ leBytes 1 q.homeQ ++
    leBytes 1 (Bool.bit (q.tentative x)) ++ leBytes 4 q.length ++ leBytes 4 q.reservedLen ++ leBytes 4 q.stepBase ++
    leBytes 4 q.sharedSets ++ leBytes 4 q.lastUse ++ leBytes 4 q.parkWait ++
    ((List.range 8).flatMap fun c => slot q.chunks[c]?) ++ tail ++
    leBytes 32 q.layerDone.toNat ++ leBytes 32 q.layerRsv.toNat ++ leBytes 4 q.parkTime ++ leBytes 4 q.predTime ++
    leBytes 4 q.holdEnd ++ leBytes 2 (Nat.min q.specPages 65535) ++
    leBytes 1 (Bool.bit q.predicted + 2 * Bool.bit q.hinted + 4 * Bool.bit q.restored) ++ [0] ++ leBytes 8 (x.locWord q.restRef) ++
    List.replicate 56 0

/-- R144: the rest frame that lies at a location. -/
def restImage (x : Part) (q : Seq) (i : Nat) (l : Loc) : List Byte :=
  let m := x.model q.model
  slice (entryImage x { q with restRef := l } i) 0 0x100 ++ leBytes 8 q.restSeq ++ List.replicate (0x400 - 0x108) 0 ++
    slice (tokenBytes q.tokenTail) 0 1024 ++
    slice ((List.range m.layers).flatMap fun l => leBytes 8 (x.locWord (Map.get q.tails l Loc.none))) 0 2048 ++
    q.pt.flatMap fun e => leBytes 8 e.word

/-- What a move writes: a page with the digest of its descriptor in the header (R72, R100), a rest frame, a descriptor segment, and any other
object as it was read. -/
def moveImage (x : Part) (m : Move) (data : List Byte) : List Byte :=
  match m.obj with
  | .page n _ => match x.set n with
    | some d => data.take 0x18 ++ leBytes 16 d.digest.toNat ++ data.drop 0x28
    | none => data
  | .rest i => if m.src.kind ≠ .empty then data else match x.seq i with
    | some q => restImage x q i m.dst
    | none => data
  | .segment n => x.segmentImage n
  | _ => data

/-- Step 3: the bytes read are written to the reserved destination. -/
def writeMove (s : State) (p id : Nat) (data : List Byte) : State :=
  match Map.look (s.part p).moves id with
  | none => s
  | some m =>
    let data := moveImage (s.part p) m data
    let s := countTier s p m.dst.tier true m.bytes
    let s := onMove s p id fun m => { m with data := data }
    -- poison is copied with the object (R453)
    let b := (s.part p).badAt m.src
    let s := onMove s p id fun m => { m with bad := b }
    let n := objFrames (s.part p) m.obj
    match m.dst.tier with
    | 0 =>
      -- a segment's bytes in DRAM are those of its descriptors (DESIGN CHOICE, assumption log 155)
      let kept := match m.obj with
        | .segment _ => []
        | _ => data
      let s := newObject s p m.dst.frame (objDramFrames (s.part p) m.obj) kept
      onMove (s.onPart p fun x => x.setBad m.dst b) p id fun m => { m with step := .written }
    | 1 =>
      let s := s.onPart p fun x => (putRegion x m.dst.region m.dst.regionFrame n data).setBad m.dst b
      let s := if s.fnUsable p then writeRegion s p m.dst.region m.dst.regionFrame m.bytes b data else s
      let r := Map.get (s.part p).regions m.dst.region Region.none
      -- the read of the last 64 bytes written makes the posted writes final
      let s := (issueHostRead s p (.move id) (r.addr m.dst.regionFrame + roundUp m.bytes 64 - 64) 64 none).1
      onMove s p id fun m => { m with step := .programming }
    | _ =>
      match programObject s p m.dst.frame n m.obj m.srcAge data (some (p, id)) with
      | none => moveNowhere s p id m
      | some r => onMove r.1 p id fun m => { m with step := .programming, group := r.2 }

/-- Step 2: the set is pinned and the source is read; a source in DRAM is read at once. -/
def readMove (s : State) (p id : Nat) : State :=
  match Map.look (s.part p).moves id with
  | none => s
  | some m =>
    let s := match m.obj with
      | .page n _ =>
        -- step 2: the pin in the current epoch
        let r := pinQuiet s p n
        onMove r.1 p id fun m => { m with pin := some (n, r.2) }
      | _ => s
    let n := objFrames (s.part p) m.obj
    match m.src.tier with
    | 0 =>
      let inDram := match m.obj with
        | .rest _ => m.src.kind ≠ .empty
        | .segment _ => false
        | _ => true
      if !inDram then writeMove s p id []
      else
        let lines := s.cache.filter fun e => m.src.frame * 16 ≤ e.1 && e.1 < (m.src.frame + n) * 16 && e.2.dirty
        let s := lines.foldl (fun s e => { s with cache := Map.edit s.cache e.1 fun l => { l with dirty := false } }) s
        let s := countTier s p 0 true (4096 * lines.length)
        let s := countTier s p 0 false m.bytes
        writeMove s p id (((s.part p).bytesAt m.src).take m.bytes)
    | 1 =>
      let r := Map.get (s.part p).regions m.src.region Region.none
      let s := (issueHostRead s p (.move id) (r.addr m.src.regionFrame) m.bytes none).1
      onMove s p id fun m => { m with step := .reading }
    | _ =>
      let s := (issueFlashRead s p (.move id) m.src.frame (65536 * n) none).1
      onMove s p id fun m => { m with step := .reading }

/-- The home quadrant for a set: of the first sequence in index order that names it, else quadrant 0; for a set that several sequences
name, or none, no rule says whose (DESIGN CHOICE, assumption log 158). -/
def setHome (x : Part) (psn : Nat) : Nat :=
  match x.seqs.find? fun e => e.2.pt.any fun t => t.psn = psn with
  | some e => e.2.homeQ
  | none => 0

/-- The quadrant in which an object is placed first (R12). -/
def objHome (x : Part) (o : MoveObj) : Nat :=
  match o with
  | .page n _ => setHome x n
  | .tail i _ => ((x.seq i).map fun q => q.homeQ).getD 0
  | .rest i => ((x.seq i).map fun q => q.homeQ).getD 0
  | _ => 0

/-- The heat of the set ends a parking or cooling move (R140). -/
def tooHot (s : State) (p : Nat) (m : Move) : Bool :=
  (m.why = .parking || m.why = .cooling) && (match m.obj with
    | .page n _ => (s.part p).regs.demoteHeat < heatNow s (s.part p) n
    | _ => false)

/-- Step 1: buffer space and destination are reserved; then the move goes on. It is not begun while the DMA engine holds an entry (R420). -/
def reserveMove (s : State) (p id : Nat) : State :=
  match Map.look (s.part p).moves id with
  | none => s
  | some m =>
    let n := objFrames (s.part p) m.obj
    if tooHot s p m then abandonMove s p id
    else if s.holdsMove m.src then s
    else if !moveBufAllows s p (objBuffer (s.part p) m.obj) then onMove s p id fun m => { m with step := .waitBuffer }
    else
      let inward := m.why = .region || (m.why = .descriptor && m.src.tier ≠ 0)
      let toDram :=
        if !inward || (m.why = .region && flashRoom s p n) then none
        else findFrames s (s.part p) (objHome (s.part p) m.obj) (objDramFrames (s.part p) m.obj)
      match toDram with
      | some f =>
        let s := s.onPart p fun x => putDram x f (objDramFrames x m.obj) []
        readMove (onMove s p id fun m => { m with step := .reading, dst := ⟨.page, 0, f⟩ }) p id
      | none =>
        match moveDest s p m with
        | .none => moveNowhere (noteMapFull s p n) p id m
        | .region r f =>
          let s := s.onPart p fun x => putRegion x r f n []
          readMove (onMove s p id fun m => { m with step := .reading, dst := ⟨.page, 1, r * 2 ^ 24 + f⟩ }) p id
        | .flash =>
          let t := takeLfns (s.part p).flash n
          let s := s.onPart p fun x => { x with flash := t.2 }
          readMove (onMove s p id fun m => { m with step := .reading, dst := ⟨.page, 2, t.1⟩ }) p id

/-- PAGE_MOVE: a selected move takes its steps. -/
def pageMove (p id : Nat) (s : State) : State :=
  match Map.look (s.part p).moves id with
  | none => s
  | some m => if m.step = .selected then reserveMove s p id else s

/-! ### Streamed pages (R129, R142) -/

/-- A read of a page outside DRAM. -/
def readAt (s : State) (p : Nat) (what : ReadFor) (l : Loc) (bytes : Nat) (unit : Option Nat) : State × Nat :=
  if l.tier = 1 then
    let r := Map.get (s.part p).regions l.region Region.none
    issueHostRead s p what (r.addr l.regionFrame) bytes unit
  else issueFlashRead s p what l.frame (roundUp bytes 65536) unit

/-- A read begun for a unit has the code that its tier gives. -/
def codeOf (tier id : Nat) : Nat := if tier = 1 then hostCode id else flashCode id

def State.onUnit (s : State) (u : Nat) (g : Unit → Unit) : State := s.onSched fun d => { d with units := Map.edit d.units u g }

def addRead (s : State) (u code : Nat) : State :=
  s.onUnit u fun x => if x.reads.contains code then x else { x with reads := x.reads ++ [code] }

/-- The home of what a transit carries. -/
def transitHome (x : Part) (o : MoveObj) : Loc :=
  match o with
  | .transit _ n l false => ((x.set n).map fun d => Map.get d.loc l Loc.none).getD Loc.none
  | .transit _ i l true => ((x.seq i).map fun q => Map.get q.tails l Loc.none).getD Loc.none
  | _ => Loc.none

/-- A page streamed to a unit through the move buffers: its read is issued, or it waits for buffer space. -/
def streamTo (s : State) (p uid : Nat) (o : MoveObj) : State :=
  let x := s.part p
  if !moveBufAllows s p (objBuffer x o) then
    let m : Move := ⟨o, .transit, .waitBuffer, transitHome x o, Loc.none, objBytes x o, [], none, 0, none, [], 0⟩
    addRead (s.onPart p fun x => { x with moves := Map.put x.moves x.nextMove m, nextMove := x.nextMove + 1 }) uid (transitCode x.nextMove)
  else
    let l := transitHome x o
    let what := match o with
      | .transit _ i k true => ReadFor.streamTail i k
      | .transit _ n k false => .stream n k
      | _ => .move 0
    let r := readAt s p what l (objBytes x o) (some uid)
    addRead r.1 uid (codeOf l.tier r.2)

/-- A transit that waited has its buffer space: its read takes its place with the units that wait for it. -/
def transitResume (s : State) (p id : Nat) (m : Move) : State :=
  let s := s.onPart p fun x => { x with moves := Map.del x.moves id }
  match m.obj with
  | .transit u _ _ _ =>
    let s := streamTo s p u m.obj
    let code := ((Map.look s.sched.units u).bind fun x => x.reads.getLast?).getD (transitCode id)
    (s.sched.units.filter fun e => e.2.reads.contains (transitCode id)).foldl
      (fun s e => settleCommand (s.onUnit e.1 fun x => { x with reads := dedup (x.reads.map fun k => if k = transitCode id then code else k) })
        ⟨e.2.part, e.2.slot, e.2.index⟩) s
  | _ => s

/-- MOVE_BUFFER_RESUME (R142): a move or transit that waits for buffer space proceeds when there is some; the wait counts as MOVE_BUF. -/
def moveBufferResume (p id : Nat) (s : State) : State :=
  match Map.look (s.part p).moves id with
  | none => s
  | some m =>
    if m.step != .waitBuffer || !moveBufAllows s p (objBuffer (s.part p) m.obj) then s
    else
      if m.why = .transit then transitResume s p id m
      else reserveMove (onMove (stallFree s p Stall.moveBuf) p id fun m => { m with step := .selected }) p id

/-! ### Descriptor segments (R146, R147) -/

def segmentSets (x : Part) (n : Nat) : Map PageSet := x.sets.filter fun e => e.1 / 16 = n

/-- R147: the conditions under which a segment leaves DRAM. -/
def segmentCold (s : State) (x : Part) (n : Nat) : Bool :=
  segmentSets x n ≠ [] && (segmentSets x n).all fun e =>
    e.2.pins0 = 0 && e.2.pins1 = 0 && heatNow s x e.1 ≤ x.regs.demoteHeat &&
      e.2.loc.all (fun l => l.2.kind = .empty || l.2.tier ≠ 0) && e.2.tents = []

/-- A set of the segment is pinned (DEDUCED, assumption log 65). -/
def segmentPinned (x : Part) (n : Nat) : Bool := (segmentSets x n).any fun e => e.2.pins0 ≠ 0 || e.2.pins1 ≠ 0

/-- DEDUCED, assumption log 65. -/
def descriptorSegmentMove (p n : Nat) (s : State) : State :=
  let x := s.part p
  if x.moves.any fun m => m.2.obj = .segment n then s
  else
    match Map.look x.segments n with
    | none => s
    | some l =>
      if (if l.tier = 0 then segmentCold s x n else segmentPinned x n) then selectMove s p (.segment n) .descriptor l 65536 none else s

/-! ### Commit of a location change (R92, R139 step 4) -/

/-- A move that has written its copy needs its source no more: its pin is one of the current epoch, so that it does not wait for itself
(DEDUCED, assumption log 15). -/
def repin (s : State) (p id psn : Nat) : State :=
  match Map.look (s.part p).moves id, (s.part p).set psn with
  | some m, some d =>
    if m.pin = some (psn, !d.pinEpoch) then
      let r := pinQuiet (s.onSet p psn fun d => lowerPin d !d.pinEpoch) p psn
      onMove r.1 p id fun m => { m with pin := some (psn, r.2) }
    else s
  | _, _ => s

/-- Poison goes to flash with the object (R453). -/
def poisonFrames (s : State) (gid : Nat) (bad : List Nat) : State :=
  match Map.look s.flash.groups gid with
  | none => s
  | some g => s.onFlash fun d =>
      { d with frames := g.places.foldl (fun m a => Map.edit m (placeNo a) fun f => { f with bad := sectorsIn f.gpos bad }) d.frames }

/-- The new word: a page on flash takes its map entries at the same point (DESIGN CHOICE, assumption log 22). -/
def landMove (s : State) (p id : Nat) (m : Move) : State :=
  let s := if m.dst.tier = 2 then (landObject (poisonFrames s m.group m.bad) p m.group m.dst.frame m.obj m.data).onPart p fun x => x.setBad m.dst m.bad else s
  let s := s.onPart p fun x => { x with moves := Map.del x.moves id }
  match m.cmd with
  | some c => s.onFlight c fun f => match f.plan with
      | .region n bad => { f with plan := .region (n + objFrames (s.part p) m.obj) bad }
      | _ => f
  | none => s

def unpinMove (s : State) (p : Nat) (m : Move) : State :=
  match m.pin with
  | some e => unpinSet s p e.1 e.2
  | none => s

/-- An own set of a sequence in SWAPPED. -/
def swappedOwn (x : Part) (psn : Nat) : Bool := x.seqs.any fun e => e.2.state = .swapped && (x.ownSets e.2).contains psn

/-- LOCATION_CHANGE_COMMIT (DEDUCED, assumption log 15). -/
def locationChangeCommit (p id : Nat) (s : State) : State :=
  match Map.look (s.part p).moves id with
  | none => s
  | some m =>
    if m.step != .written then s
    else
      match m.obj with
      | .page psn layer =>
        match (s.part p).set psn with
        | none => abandonMove s p id
        | some d =>
          if d.releasing || tooHot s p m then abandonMove s p id
          else
            let s := repin s p id psn
            if !((s.part p).set psn).any PageSet.canFlip then s
            else
            let m := Map.get (s.part p).moves id m
            let s := landMove s p id m
            let s := flipLoc s p psn layer ⟨.page, m.dst.tier, m.dst.frame⟩
            let layers := ((s.part p).model d.model).layers
            let s := if m.why != .flush then s else s.onSet p psn fun d =>
              { d with layersFlushed := d.layersFlushed + 1, full := d.layersFlushed + 1 = layers, staged := Map.del d.staged layer }
            let s := if m.why != .promotion then s else match Map.look d.tents layer with
              | some t => forgetTent s p psn layer t
              | none => s
            let s := unpinMove (s.onPart p fun x => refreshMoving x psn) p m
            -- R96: a full staging page of a pre-empted sequence leaves once it is flushed
            if m.why = .flush && swappedOwn (s.part p) psn then sendSets s p [psn] .preempt else s
      | .tail i layer =>
        match (s.part p).seq i with
        | none => abandonMove s p id
        | some _ =>
          let s := landMove s p id m
          let s := s.onSeq p i fun q => { q with tails := Map.put q.tails layer ⟨.page, m.dst.tier, m.dst.frame⟩ }
          freeLoc s p m.src
      | .rest i =>
        -- the frame of a sequence that leaves PARKING is named by PARK_TO_REST; a frame of a region that goes is named here
        if m.why = .parking then s
        else
          let s := landMove s p id m
          let l : Loc := ⟨.page, m.dst.tier, m.dst.frame⟩
          let s := s.onSeq p i fun q => { q with restRef := l }
          freeLoc (s.onPart p fun x => { x with restTable := Map.put x.restTable i l }) p m.src
      | .segment n =>
        if m.dst.tier ≠ 0 && m.src.tier = 0 && !segmentCold s (s.part p) n then abandonMove s p id
        else
          let s := landMove s p id m
          freeLoc (s.onPart p fun x => { x with segments := Map.put x.segments n ⟨.page, m.dst.tier, m.dst.frame⟩ }) p m.src
      | .transit _ _ _ _ => s

/-! ### Flush (R81, R82) -/

/-- A full staging page that can be flushed: it holds no poison, its set stays, and no move of it is under way. -/
def flushable (x : Part) (psn layer : Nat) (d : PageSet) : Bool :=
  let l := Map.get d.loc layer Loc.none
  l.kind = .staging && x.badAt l = [] && !d.releasing && !(x.moves.any fun m => m.2.obj = .page psn layer)

/-- R82: the full staging pages of a home quadrant, across all partitions, with their ages; a partition without a free page for its flush does
not hold up the others (DESIGN CHOICE, assumption log 158). -/
def flushQueue (s : State) (p quad : Nat) : List (Nat × Nat × Nat × Nat) :=
  s.livePartitions.flatMap fun o =>
    let x := s.part o
    x.sets.flatMap fun e =>
      if setHome x e.1 ≠ quad || (o ≠ p && (findFrames s x quad (x.model e.2.model).pageFrames).isNone) then []
      else (e.2.staged.filter fun l => flushable x e.1 l.1 e.2).map fun l => (l.2, o, e.1, l.1)

/-- STAGING_FLUSH, steps 1 and 2, oldest first; the commit point of step 3 is a LOCATION_CHANGE_COMMIT (DEDUCED, assumption log 140). -/
def stagingFlush (p psn layer : Nat) (s : State) : State :=
  let x := s.part p
  match x.set psn with
  | none => s
  | some d =>
    let quad := setHome x psn
    let l := Map.get d.loc layer Loc.none
    let oldest := (leastBy (fun e : Nat × Nat × Nat × Nat => e.1) (flushQueue s p quad)).map fun e => e.2
    if !flushable x psn layer d || (Map.has d.staged layer && oldest ≠ some (p, psn, layer)) then s
    else
      let m := x.model d.model
      match allocFrames s p quad m.pageFrames none (x.dir.length + 2) with
      | .none s => s
      | .wait s => s
      | .got s f =>
        let data := encodePage m layer psn d ((s.part p).bytesAt l)
        let s := newObject (t1Read s p m.stagingBytes) p f m.pageFrames data
        s.onPart p fun x =>
          let v : Move := ⟨.page psn layer, .flush, .written, l, ⟨.page, 0, f⟩, m.footprint, [], none, 0, none, [], 0⟩
          refreshMoving { x with moves := Map.put x.moves x.nextMove v, nextMove := x.nextMove + 1 } psn

/-- SUPERSEDED_COPY_RELEASE (R92). -/
def supersededCopyRelease (p psn : Nat) (s : State) : State := releaseOld s p psn

/-! ### Parking (R134, R136, R138, R145) -/

/-- Own sets of the sequence with a page or a full staging page in DRAM. -/
def ownLeft (x : Part) (q : Seq) : List Nat :=
  (x.ownSets q).filter fun n => match x.set n with
    | some d => d.loc.any fun e => e.2.kind != .empty && e.2.tier = 0
    | none => false

/-- PARKING_MOVE_START: own sets at or below DEMOTE_HEAT start to move; after the last own page, the tail pages. -/
def parkingStart (p i : Nat) (s : State) : State :=
  match (s.part p).seq i with
  | none => s
  | some q =>
    if q.state != .parking || q.stuck then s
    else
      let x := s.part p
      let left := ownLeft x q
      if left ≠ [] then
        sendSets s p (left.filter fun n => heatNow s x n ≤ x.regs.demoteHeat) .parking
      else
        let m := x.model q.model
        let tails := q.tails.filter fun e => e.2.tier = 0 && !(x.moves.any fun v => v.2.obj = .tail i e.1)
        (sortBy (fun e : Nat × Loc => e.2.frame) tails).foldl
          (fun s e => selectMove s p (.tail i e.1) .parking e.2 m.stagingBytes none) s

/-- PARKING_RETRY (R136): a stuck sequence retries when its rest destination has room. -/
def parkingRetry (p i : Nat) (s : State) : State :=
  match (s.part p).seq i with
  | none => s
  | some q =>
    if q.state = .parking && q.stuck && restDest s p 1 != .none then
      parkingStart p i (s.onSeq p i fun q => { q with stuck := false })
    else s

/-- A chunk of the rest table for a sequence, where it has none. -/
def restChunkRoom (s : State) (p i : Nat) : Option State :=
  let c := restChunk i
  if Map.has (s.part p).restChunks c then some s
  else match allocAll p 0 none [1] s with
    | .got s (f :: _) => some (s.onPart p fun x => { x with restChunks := Map.put x.restChunks c f })
    | _ => none

/-- PARK_TO_REST: with every page and tail page out of DRAM the rest frame is written (R145 step 4), and once it is written the
rest-table word names it and the hot entry is freed (step 5). -/
def parkToRest (p i : Nat) (s : State) : State :=
  match (s.part p).seq i with
  | none => s
  | some q =>
    let x := s.part p
    let staged := q.pt.any fun e => match x.set e.psn with
      | some d => d.loc.any fun l => l.2.kind = .staging
      | none => false
    if q.state != .parking || q.stuck || ownLeft x q ≠ [] || staged || q.tails.any (fun e => e.2.tier = 0) ||
        x.moves.any (fun m => m.2.why = .parking && (match m.2.obj with
          | .page n _ => (x.ownSets q).contains n
          | .tail j _ => j = i
          | _ => false)) then s
    else
      match x.moves.find? fun m => m.2.obj = .rest i with
      | none =>
        -- R143: the chunk of the rest table is allocated when first used
        match restChunkRoom s p i with
        | none => s
        | some s =>
          let n := x.restSeq + 1
          let s := (s.onPart p fun x => { x with restSeq := n }).onSeq p i fun q => { q with restSeq := n }
          let id := (s.part p).nextMove
          pageMove p id (selectMove s p (.rest i) .parking Loc.none 65536 none)
      | some m =>
        if m.2.step != .written then s
        else
          let s := landMove s p m.1 m.2
          let l : Loc := ⟨.page, m.2.dst.tier, m.2.dst.frame⟩
          -- R150: the copies that no committed command has read go as the sequence leaves the hot table
          let s := (dropTents s p i).1
          let s := s.onPart p fun x => { x with restTable := Map.put x.restTable i l }
          trimWakeList (trimTables (s.onSeq p i fun q => { q.dropTables with state := .rest, restRef := l }) p)

/-! ### Cooling (R134, R137) -/

/-- The sets to be sent off while the free DRAM that the moves will give stays below the mark. -/
def coolFrom (x : Part) (goal : Nat) : List Nat → Nat → List Nat
  | [], _ => []
  | n :: r, free =>
    if goal ≤ free then []
    else n :: coolFrom x goal r (free + (dramLayers x n).length * (x.model ((x.set n).map (·.model) |>.getD 0)).pageFrames)

/-- COOLING_MOVE_START. -/
def coolingStart (p : Nat) (s : State) : State :=
  let x := s.part p
  if x.flashChannels = [] || freeAboveLow s x then s
  else
    let cold := (victims s x).filter fun n => heatNow s x n ≤ x.regs.demoteHeat
    let going := sum ((x.moves.filter fun m => m.2.src.tier = 0 && m.2.why != .flush && m.2.why != .promotion).map fun m => objDramFrames x m.2.obj)
    sendSets s p (coolFrom x (Nat.max x.regs.high x.regs.low * 1024) cold (freeFrames s x + going)) .cooling

/-! ### Tentative copies and speculative restore (R129, R149 to R153) -/

/-- A tentative copy of a page begun, where DRAM gives the frames; answers the read. -/
def beginTent (s : State) (p psn layer home : Nat) (restore : Option Nat) : Option (State × Nat) :=
  let x := s.part p
  match x.set psn with
  | none => none
  | some d =>
    let l := Map.get d.loc layer Loc.none
    let m := x.model d.model
    if l.kind != .page || l.tier = 0 || Map.has d.tents layer then none
    else
      match findFrames s x home m.pageFrames with
      | none => none
      | some f =>
        let s := s.onPart p fun x => putDram x f m.pageFrames []
        let s := s.onSet p psn fun d => { d with tents := Map.put d.tents layer ⟨f, false, s.nowS, restore⟩ }
        some (readAt s p (.tentative psn layer) l m.footprint none)

def beginTailTent (s : State) (p i layer : Nat) (restore : Option Nat) : Option (State × Nat) :=
  let x := s.part p
  match x.seq i with
  | none => none
  | some q =>
    let l := Map.get q.tails layer Loc.none
    let m := x.model q.model
    if l.kind = .empty || l.tier = 0 || Map.has q.tailTents layer then none
    else
      match findFrames s x q.homeQ m.stagingFrames with
      | none => none
      | some f =>
        let s := s.onPart p fun x => putDram x f m.stagingFrames []
        let s := s.onSeq p i fun q => { q with tailTents := Map.put q.tailTents layer ⟨f, false, s.nowS, restore⟩ }
        some (readAt s p (.tailTentative i layer) l m.stagingBytes none)

/-- R152: what the restore of a sequence still has to read, in its order: tail pages, then the pages layer by layer. -/
def restoreList (x : Part) (q : Seq) : List (Option Nat × Nat) :=
  let m := x.model q.model
  ((q.tails.filter fun e => e.2.tier ≠ 0 && !Map.has q.tailTents e.1).map fun e => (none, e.1)) ++
    (List.range m.layers).flatMap fun l =>
      (q.pt.filter fun e => match x.set e.psn with
        | some d =>
          let h := Map.get d.loc l Loc.none
          h.kind = .page && h.tier ≠ 0 && !Map.has d.tents l
        | none => false).map fun e => (some e.psn, l)

/-- DEDUCED, assumption log 28. -/
def addSpec (s : State) (p i : Nat) : State := s.onSeq p i fun q => { q with specPages := q.specPages + 1 }

/-- Pages taken while free DRAM is at least LOW. -/
def restoreMore (p i : Nat) : List (Option Nat × Nat) → State → State
  | [], s => s
  | o :: r, s =>
    match (s.part p).seq i with
    | none => s
    | some q =>
      if !freeAboveLow s (s.part p) then s
      else
        let t := match o.1 with
          | some n => beginTent s p n o.2 q.homeQ (some i)
          | none => beginTailTent s p i o.2 (some i)
        match t with
        | some t => restoreMore p i r (addSpec t.1 p i)
        | none => restoreMore p i r s

/-- The rest frame read into a tentative copy. -/
def restoreFrame (s : State) (p i : Nat) : State :=
  match (s.part p).seq i with
  | none => s
  | some q =>
    match findFrames s (s.part p) q.homeQ 1 with
    | none => s
    | some f =>
      let s := s.onPart p fun x => putDram x f 1 []
      let s := s.onSeq p i fun q => { q with restTent := some ⟨f, false, s.nowS, some i⟩ }
      (readAt s p (.restFrame i) q.restRef 65536 none).1

/-- SPEC_RESTORE_START (R152). Where no entry may be taken it parks a victim under R89, as a command would, and starts when the entry is free
(DESIGN CHOICE, assumption log 159); its tables come from free DRAM alone (DESIGN CHOICE, assumption log 155). -/
def specRestoreStart (p i : Nat) (s : State) : State :=
  match (s.part p).seq i with
  | none => s
  | some q =>
    let x := s.part p
    if q.state != .rest || !q.predicted || s.nowS + x.regs.restoreLead < q.predTime || s.holds 7 then s
    else if !mayTakeHot s p && x.seqs.any fun e => e.2.state = .parking then s
    else
      match takeHot s p with
      | .none => s
      | .parked s _ => s
      | .free =>
        match takeTables s p q.homeQ (tableSlots q.pt.length) 0 with
        | none => s
        | some s =>
        let home := returnHome (s.part p) i q.homeQ
        let s := s.onSeq p i fun q => { q with state := .restoring, homeQ := home, holdEnd := q.predTime + x.regs.hold, restored := false }
        let s := restoreFrame (s.onPart p fun x => x.fitTables i) p i
        match (s.part p).seq i with
        | some q => restoreMore p i (restoreList (s.part p) q) s
        | none => s

/-- SPEC_RESTORE_RESUME: the restore goes on when free DRAM has risen. -/
def specRestoreResume (p i : Nat) (s : State) : State :=
  match (s.part p).seq i with
  | none => s
  | some q =>
    if q.state != .restoring then s
    else
      let s := if q.restTent = none && freeAboveLow s (s.part p) then restoreFrame s p i else s
      restoreMore p i (restoreList (s.part p) q) s

/-- The restore has read everything it wants: RESTORED (R133). -/
def noteRestored (s : State) (p i : Nat) : State :=
  match (s.part p).seq i with
  | none => s
  | some q =>
    let x := s.part p
    let open1 := (x.tentsOf q).any fun t => match x.set t.1 with
      | some d => !(Map.get d.tents t.2 ⟨0, true, 0, none⟩).complete
      | none => false
    if q.state = .restoring && restoreList x q = [] && !open1 && q.tailTents.all fun t => t.2.complete then
      s.onSeq p i fun q => { q with restored := true }
    else s

/-- Back to REST with every copy released (R152, R153) (DEDUCED, assumption log 146). -/
def endRestore (s : State) (p i : Nat) : State :=
  let s := (dropTents s p i).1
  trimTables (s.onSeq p i fun q => (s.part p).backToRest q) p

/-- HOLD_END_EXPIRY (R153). -/
def holdEndExpiry (p i : Nat) (s : State) : State :=
  match (s.part p).seq i with
  | none => s
  | some q => if q.state = .restoring && q.holdEnd ≤ s.nowS then endRestore s p i else s

/-- PREFETCH_COPY_EXPIRY (R150): a complete copy that no restore holds is released 2 s after its read ended. -/
def prefetchCopyExpiry (p psn layer : Nat) (s : State) : State :=
  match (s.part p).set psn with
  | none => s
  | some d =>
    match Map.look d.tents layer with
    | none => s
    | some t =>
      if t.complete && t.restore = none && t.doneS + 2 ≤ s.nowS && !(s.part p).tentHeld psn layer then dropTent s p psn layer
      else s

/-- SEQ_PREFETCH of R149 for one page: a tentative copy where free DRAM is at least LOW, or its lines where the layer fits half of
the partition's ways. -/
def prefetchPage (s : State) (p psn layer home layerBytes : Nat) : State :=
  let x := s.part p
  match x.set psn with
  | none => s
  | some d =>
    let l := Map.get d.loc layer Loc.none
    if l.kind = .empty then s
    else if l.tier ≠ 0 then
      if !freeAboveLow s x then s
      else match beginTent s p psn layer home none with
        | some r => r.1
        | none => s
    else if 2 * layerBytes ≤ (x.waysOf (frameQuad l.frame)) * 2 ^ 21 then
      touchDram s p l.frame 0 ((x.bytesAt l).length) false true
    else s

/-! ### The rows -/

def execPageMove (part move : Nat) (s : State) : Host.Outcome State Fault Refusal := .next (pageMove part move s)
def execMoveBufferResume (part move : Nat) (s : State) : Host.Outcome State Fault Refusal := .next (moveBufferResume part move s)
def execDescriptorSegmentMove (part segment : Nat) (s : State) : Host.Outcome State Fault Refusal :=
  .next (descriptorSegmentMove part segment s)
def execLocationChangeCommit (part move : Nat) (s : State) : Host.Outcome State Fault Refusal := .next (locationChangeCommit part move s)
def execStagingFlush (part psn layer : Nat) (s : State) : Host.Outcome State Fault Refusal := .next (stagingFlush part psn layer s)
def execSupersededCopyRelease (part psn : Nat) (s : State) : Host.Outcome State Fault Refusal :=
  .next (supersededCopyRelease part psn s)
def execParkingMoveStart (part seq : Nat) (s : State) : Host.Outcome State Fault Refusal := .next (parkingStart part seq s)
def execParkingRetry (part seq : Nat) (s : State) : Host.Outcome State Fault Refusal := .next (parkingRetry part seq s)
def execParkToRest (part seq : Nat) (s : State) : Host.Outcome State Fault Refusal := .next (parkToRest part seq s)
def execCoolingMoveStart (part : Nat) (s : State) : Host.Outcome State Fault Refusal := .next (coolingStart part s)
def execSpecRestoreStart (part seq : Nat) (s : State) : Host.Outcome State Fault Refusal := .next (specRestoreStart part seq s)
def execSpecRestoreResume (part seq : Nat) (s : State) : Host.Outcome State Fault Refusal := .next (specRestoreResume part seq s)
def execHoldEndExpiry (part seq : Nat) (s : State) : Host.Outcome State Fault Refusal := .next (holdEndExpiry part seq s)
def execPrefetchCopyExpiry (part psn layer : Nat) (s : State) : Host.Outcome State Fault Refusal :=
  .next (prefetchCopyExpiry part psn layer s)

end Sys2Proof.Machine
end

