-- ==== Sys2Proof/Machine/Prp.lean ====
section
/-! DEFINITION. The sending side of the Phoward Ring Protocol: routes (R311, R312), ports and their virtual channels (R313, R320 to R322, R348), queue
pairs and their credits (R323 to R329), message groups (R334, R345), and how a group fails (R330, R337, R346). -/

namespace Sys2Proof.Machine

open Sys2Proof

/-! ### Addresses, routes, ports -/

def ownAddress (s : State) : Nat := s.fabric.hall * 2 ^ 14 + s.fabric.ring * 32 + s.fabric.position

def blankPacket : Packet :=
  ⟨0, 0, false, false, false, false, 0, 0, 0, 0, false, 0, false, 0, 0, 0, 0, 0, 0, 0, 0, 0, 0, 0, 0, [], 0⟩

def pkBytes (p : Packet) : Nat := 48 + p.payload.length
/-- R326: the credits of a packet. -/
def pkCost (p : Packet) : Nat := ceilDiv (pkBytes p) 64

/-- Live positions passed on the way from one position to another, the end included (DEDUCED, assumption log 17). -/
def hops (live : List Nat) (slots a b : Nat) : Nat :=
  (live.filter fun p => p != a && (p + slots - a) % slots ≤ (b + slots - a) % slots).length

def isRing (s : State) (dst : Nat) : Bool := dst / 32 = ownAddress s / 32

/-- R312: west is the direction with fewer live hops. On a cut ring it is the side on which the destination lies (DEDUCED, assumption log 17). -/
def goesWest (s : State) (dst : Nat) : Bool :=
  let f := s.fabric
  let n := if f.ringSlots = 0 || 32 < f.ringSlots then 32 else f.ringSlots
  if f.line then dst % 32 < f.position
  else hops f.live n (dst % 32) f.position < hops f.live n f.position (dst % 32)

/-- R313: the link that a packet takes next crosses the dateline. -/
def onDateline (s : State) (west : Bool) : Bool :=
  let l := s.fabric.live
  let p := s.fabric.position
  if west then l.all fun q => p ≤ q else l.all fun q => q ≤ p

/-- R313: the virtual channel of a packet. -/
def vcOf (p : Packet) : Nat :=
  (if p.op = 0x08 || p.op = 0x09 || p.op = 0x0A then 0 else if p.op = 0x04 then 2 else 1) + (if p.dl then 3 else 0)

/-- R321: the priority code of a packet on an uplink. -/
def pcpOf (p : Packet) : Nat :=
  if 0x08 ≤ p.op then 6 else if p.tc = 0 then 5 else if p.tc = 3 then 4 else if p.tc = 1 then 1 else 0

def State.port (s : State) (n : Nat) : Port := Map.get s.fabric.ports n Port.reset
def State.onPort (s : State) (n : Nat) (g : Port → Port) : State :=
  s.onFabric fun f => { f with ports := Map.put f.ports n (g (Map.get f.ports n Port.reset)) }

/-- A packet leaves a port; on a ring port its frame takes the next LSEQ and stays in the replay buffer (R320)
(DESIGN CHOICE, assumption log 149). -/
def emit (s : State) (n : Nat) (p : Packet) : State :=
  let s := s.onFabric fun f => { f with egress := f.egress ++ [(n, p)] }
  if 4 ≤ n then s
  else s.onPort n fun x => { x with lseq := (x.lseq + 1) % 4096, replay := x.replay ++ [(x.lseq, vcOf p, p)] }

/-- R348: the class of a packet at an egress port: 0 protocol, 1 LC, 2 BE, 3 BULK, 4 CTL. -/
def serviceClass (p : Packet) : Nat := if 0x08 ≤ p.op then 0 else p.tc % 4 + 1

/-- R348: a participant of a class: a partition of this chip, or, as 16, transit traffic. -/
def participant (s : State) (p : Packet) : Nat := if p.src = ownAddress s then p.srcPart % 16 else 16

/-- The queue of a port that a packet joins: by class and participant, and on a ring port by virtual channel. -/
def portQueue (s : State) (n : Nat) (p : Packet) : Nat := (serviceClass p * 17 + participant s p) * 8 + (if 4 ≤ n then 0 else vcOf p)

/-- A port may send a packet now: hop credits on a ring port (R313), no pause of its priority on an uplink (R322). -/
def mayEmit (x : Port) (n : Nat) (p : Packet) : Bool :=
  if 4 ≤ n then !bit x.paused (pcpOf p) else pkCost p ≤ Map.get x.hopCredits (vcOf p) 0

def spendHop (x : Port) (n : Nat) (p : Packet) : Port :=
  if 4 ≤ n then x else { x with hopCredits := Map.put x.hopCredits (vcOf p) (Map.get x.hopCredits (vcOf p) 0 - pkCost p) }

/-- A packet given to a port: sent, or queued behind what waits there. A port that is down loses it (R316). -/
def portSend (s : State) (n : Nat) (p : Packet) : State :=
  let x := s.port n
  let q := portQueue s n p
  if !x.up then s
  else if Map.get x.transit q [] = [] && mayEmit x n p then emit (s.onPort n fun x => spendHop x n p) n p
  else s.onPort n fun x => { x with transit := Map.put x.transit q (Map.get x.transit q [] ++ [p]) }

/-- The quantum of a class in units of 64 bytes (LNK_DRR); the strict classes have none, and take the least (DESIGN CHOICE, assumption log 101). -/
def classQuantum (f : Fabric) (c : Nat) : Nat :=
  Nat.max 65 (match c with
    | 2 => f.qBe
    | 3 => f.qBulk
    | 4 => f.qCtl
    | _ => 65)

/-- Deficit round robin over those that have something to send, as (number, cost of its next packet): the one whose turn it is, while its
deficit covers the cost; else the next, which gets its quantum. Answers its number and the deficit before the packet
(DESIGN CHOICE, assumption log 101). -/
def drrPick (cur : Nat) (deficit quantum : Nat → Nat) (active : List (Nat × Nat)) : Option (Nat × Nat) :=
  match active.find? fun a => a.1 = cur && a.2 ≤ deficit cur with
  | some a => some (a.1, deficit a.1)
  | none =>
    match active.find? fun a => cur < a.1 with
    | some a => some (a.1, deficit a.1 + quantum a.1)
    | none => active.head?.map fun a => (a.1, deficit a.1 + quantum a.1)

/-- A packet that a port sends next: its class, participant and queue, and the deficits of both before it. -/
structure PortPick where
  cls : Nat
  part : Nat
  queue : Nat
  pk : Packet
  clsDeficit : Nat
  partDeficit : Nat
  deriving DecidableEq, Repr

/-- The heads of the queues of a port that may be sent, as (queue, packet). -/
def portHeads (x : Port) (n : Nat) : List (Nat × Packet) :=
  x.transit.filterMap fun e => (e.2.head?.filter fun p => mayEmit x n p).map fun p => (e.1, p)

/-- R348: what a class of a port sends next: its participants have the class quantum each (DESIGN CHOICE, assumption log 101). -/
def classPick (f : Fabric) (x : Port) (heads : List (Nat × Packet)) (c : Nat) : Option PortPick :=
  let hs := heads.filter fun e => e.1 / 136 = c
  let first := hs.filter fun e => !(hs.any fun o => o.1 < e.1 && o.1 / 8 = e.1 / 8)
  (drrPick (Map.get x.turn c 0) (fun i => Map.get x.deficit (17 * c + i) 0) (fun _ => classQuantum f c)
      (first.map fun e => (e.1 / 8 % 17, pkCost e.2))).bind fun d =>
    (first.find? fun e => e.1 / 8 % 17 = d.1).map fun e => ⟨c, d.1, e.1, e.2, 0, d.2⟩

/-- R348: protocol packets by strict priority, then LC, then BE, BULK and CTL by deficit round robin. -/
def portPick (f : Fabric) (x : Port) (n : Nat) : Option PortPick :=
  let heads := portHeads x n
  match classPick f x heads 0, classPick f x heads 1 with
  | some p, _ => some p
  | none, some p => some p
  | none, none =>
    let ps := [2, 3, 4].filterMap fun c => classPick f x heads c
    (drrPick (Map.get x.turn 5 0) (fun c => Map.get x.deficit (100 + c) 0) (classQuantum f) (ps.map fun p => (p.cls, pkCost p.pk))).bind fun d =>
      (ps.find? fun p => p.cls = d.1).map fun p => { p with clsDeficit := d.2 }

/-- The picked packet leaves its queue. A deficit goes with the last packet that waits. -/
def takePick (p : PortPick) (x : Port) : Port :=
  let transit := Map.put x.transit p.queue ((Map.get x.transit p.queue []).drop 1)
  let left := fun g : Nat → Bool => transit.any fun e => g e.1 && e.2 ≠ []
  let pd := if left fun k => k / 8 = p.cls * 17 + p.part then p.partDeficit - pkCost p.pk else 0
  let cd := if left fun k => k / 136 = p.cls then p.clsDeficit - pkCost p.pk else 0
  { x with
    transit := transit
    turn := Map.put (Map.put x.turn p.cls p.part) 5 (if 2 ≤ p.cls then p.cls else Map.get x.turn 5 0)
    deficit := Map.put (Map.put x.deficit (17 * p.cls + p.part) pd) (100 + p.cls) cd }

/-- R348: a port sends what it may in the order of its service, k packets at most. -/
def servePort (n : Nat) : Nat → State → State
  | 0, s => s
  | k + 1, s =>
    match portPick s.fabric (s.port n) n with
    | none => s
    | some p => servePort n k (emit (s.onPort n fun x => spendHop (takePick p x) n p.pk) n p.pk)

/-- Everything that waits at a port and may be sent now is sent. -/
def drainPort (s : State) (n : Nat) : State := servePort n (sum ((s.port n).transit.map fun e => e.2.length)) s

/-- A packet enters the fabric on its route; path is the plane of an uplink. rail is the rail of a ring. -/
def route (s : State) (p : Packet) (rail path : Nat) : State :=
  if isRing s p.dst then
    let w := goesWest s p.dst
    let p := { p with west := w, rail := rail, dl := onDateline s w }
    portSend s ((if w then 2 else 0) + rail) p
  else portSend s (4 + path % 4) { p with west := false, rail := 0, dl := false }

/-! ### Queue pairs -/

def Part.qp (x : Part) (i : Nat) : Qp := Map.get x.qps i Qp.reset
def State.onQp (s : State) (p i : Nat) (g : Qp → Qp) : State :=
  s.onPart p fun x => { x with qps := Map.put x.qps i (g (x.qp i)) }
def Qp.flow (q : Qp) (peer : Nat) : Flow := Map.get q.flows peer Flow.reset
def Qp.onFlow (q : Qp) (peer : Nat) (g : Flow → Flow) : Qp := { q with flows := Map.put q.flows peer (g (q.flow peer)) }
/-- Peers: 0 PEER, and 1 MIRROR of a mirrored queue pair. -/
def Qp.peers (q : Qp) : List Nat := if q.mirrored then [0, 1] else [0]
def Qp.chipOf (q : Qp) (peer : Nat) : Nat := if peer = 0 then q.peerChip else q.mirChip
def Qp.partOf (q : Qp) (peer : Nat) : Nat := if peer = 0 then q.peerPart else q.mirPart
def Qp.qpOf (q : Qp) (peer : Nat) : Nat := if peer = 0 then q.peerQp else q.mirQp
/-- GRANT in credits of 64 bytes (R326, LNK_P_QPC_ATTR). -/
def Qp.window (q : Qp) : Nat := 16 * (if q.grant = 0 then 1 else if 4096 < q.grant then 4096 else q.grant)

/-- A packet of a queue pair to one of its peers, before its sequence number and credits. -/
def packetTo (s : State) (p i peer op : Nat) (group buf offset aux : Nat) (flag : Bool) (payload : List Byte) : Packet :=
  let q := (s.part p).qp i
  { blankPacket with
    op := op, tc := if bestEffort s p then 1 else q.tc, flag := flag, dst := q.chipOf peer, src := ownAddress s
    dstPart := q.partOf peer, srcPart := p, dqp := q.qpOf peer, epoch := q.epoch, group := group, buf := buf, offset := offset
    aux := aux, payload := payload }

/-- A protocol packet (R326): no sequence number, no credits, sent at once on the route of its queue pair. -/
def sendProtocol (s : State) (p i : Nat) (pk : Packet) : State :=
  let q := (s.part p).qp i
  let s := s.onAcct p fun a => { a with fabricTx := a.fabricTx + pkBytes pk }
  route s pk (i % 2) q.path

/-- R326 to R328: the receiver's window of a flow raised as far as FREED + GRANT, by space it can reserve. -/
def recvUsed (s : State) (p : Nat) : Nat :=
  sum ((s.part p).qps.map fun e => sum (e.2.flows.map fun f => 64 * (f.2.grantLimit - f.2.freed).toNat))

def raiseGrant (s : State) (p i peer : Nat) : State :=
  let q := (s.part p).qp i
  let f := q.flow peer
  let want := (f.freed + BitVec.ofNat 32 q.window - f.grantLimit).toNat
  let most := if 2 ^ 31 ≤ want then 0 else want
  let ok := fun n : Nat => poolAllows s Config.recvBytes Config.poolFloor (recvUsed s) p (64 * n)
  if most ≠ 0 && ok most then s.onQp p i fun q => q.onFlow peer fun f => { f with grantLimit := f.grantLimit + BitVec.ofNat 32 most } else s

/-- An ACK with ACKSEQ and LIMIT (R328, R329). -/
def sendAck (s : State) (p i peer : Nat) : State :=
  let s := raiseGrant s p i peer
  let f := ((s.part p).qp i).flow peer
  let pk := { packetTo s p i peer 0x08 0 0 0 0 false [] with
    tc := 0, ackSeq := (f.expected + 2 ^ 24 - 1) % 2 ^ 24, credit := f.grantLimit.toNat }
  sendProtocol (s.onQp p i fun q => q.onFlow peer fun f => { f with unackedRx := 0, sentLimit := f.grantLimit }) p i pk

/-! ### Groups (R334) -/

/-- The group numbers of a queue pair that are not free: of packets queued or unacknowledged, of commands still to send theirs, and of remote
reads being served. -/
def groupsInUse (x : Part) (i : Nat) : List Nat :=
  let q := x.qp i
  q.queue.map (fun e => e.1.group) ++ q.sent.map (fun t => t.pk.group) ++ q.serving.map (fun v => v.group) ++
    x.slots.flatMap fun e => e.2.window.flatMap fun f => match f.plan with
      | .migrate n g _ _ => if n = i then [g] else []
      | .attention _ es => es.filterMap fun e => e.remote.bind fun r => if r.qp = i then some r.group else none
      | _ => []

/-- The first number from n on, modulo 2^16, that is not in a list; k bounds the list's length. -/
def freeNumber (l : List Nat) : Nat → Nat → Nat
  | 0, n => n
  | k + 1, n => if l.contains n then freeNumber l k ((n + 1) % 65536) else n

/-- A new group number of a queue pair: none whose flag is still to be acknowledged. -/
def newGroup (s : State) (p i : Nat) : Nat × State :=
  let l := groupsInUse (s.part p) i
  let n := freeNumber l l.length ((s.part p).qp i).nextGroup
  (n, s.onQp p i fun q => { q with nextGroup := (n + 1) % 65536, tags := Map.del q.tags n })

/-- A new group number for a command, whose TAG goes with it. -/
def commandGroup (s : State) (c : CmdRef) (i : Nat) : Nat × State :=
  let g := newGroup s c.part i
  let tag := match s.flight c with
    | some f => cTag f.word
    | none => 0
  (g.1, g.2.onQp c.part i fun q => { q with tags := Map.put q.tags g.1 tag })

/-- Packets of one group queued to each peer; a mirrored flag goes to PEER alone (R345). -/
def enqueue (s : State) (p i : Nat) (mk : Nat → Packet) (cmd : Option CmdRef) : State :=
  s.onQp p i fun q =>
    let peers := if (mk 0).flag then [0] else q.peers
    { q with queue := q.queue ++ peers.map fun k => (mk k, k, cmd) }

/-- Bytes at an offset of a buffer as WRITE packets of at most 4,096 bytes. -/
def enqueueBytes (p i group buf off : Nat) (urec ugen : Nat) (cmd : Option CmdRef) : List (List Byte) → Nat → State → State
  | [], _, s => s
  | b :: r, k, s =>
    let s := enqueue s p i (fun peer => { packetTo s p i peer 0x00 group buf (off + 4096 * k) 0 false b with unitRec := urec, unitGen := ugen }) cmd
    enqueueBytes p i group buf off urec ugen cmd r (k + 1) s

def pieces (b : List Byte) : List (List Byte) := chunks 4096 (ceilDiv b.length 4096) b

/-- Nothing of a command is queued or unacknowledged on a queue pair. -/
def Qp.clear (q : Qp) (c : CmdRef) : Bool := !(q.queue.any fun e => e.2.2 = some c) && !(q.sent.any fun e => e.cmd = some c)

/-! ### Remote reads served (R129, R339) -/

/-- Read pins whose last RDRESP has been acknowledged, or that have none to come, are dropped (R339). -/
def dropReadPins (s : State) (p i : Nat) : State :=
  let q := (s.part p).qp i
  let busy := fun g : Nat => (q.queue.any fun e => e.1.op = 0x04 && e.1.group = g) || (q.sent.any fun t => t.pk.op = 0x04 && t.pk.group = g) ||
    q.serving.any fun v => v.group = g
  let free := q.readPins.filter fun e => !busy e.2.2
  let s := s.onQp p i fun q => { q with readPins := q.readPins.filter fun e => busy e.2.2 }
  free.foldl (fun s e => unpinSet s p e.1 e.2.1) s

/-- The pins of a queue pair that leaves READY are dropped. -/
def dropAllPins (s : State) (p i : Nat) : State :=
  let l := ((s.part p).qp i).readPins
  l.foldl (fun s e => unpinSet s p e.1 e.2.1) (s.onQp p i fun q => { q with readPins := [] })

/-- The bytes that a remote read names, of the page at l, go back in RDRESP packets with the request's UTAG. -/
def respondRead (s : State) (p i : Nat) (v : Serving) (l : Loc) : State :=
  (pieces (slice ((s.part p).bytesAt l) v.offset v.bytes)).zipIdx.foldl
    (fun s e =>
      let resp := { packetTo s p i v.peer 0x04 v.group v.buf (v.offset + 4096 * e.2) 0 false e.1 with unitRec := v.unitRec, unitGen := v.unitGen }
      s.onQp p i fun q => { q with queue := q.queue ++ [(resp, v.peer, none)] }) s

/-- Where a remote read that has waited finds its page: in the tentative copy, or, where that has gone, as its home's bytes came. A page with a
poisoned sector gives nothing (DEDUCED, assumption log 85). -/
def servedFrom (x : Part) (v : Serving) : Option Loc :=
  match x.set v.psn with
  | none => none
  | some d =>
    let home := Map.get d.loc v.layer Loc.none
    let l := match Map.look d.tents v.layer with
      | some t => if t.complete && !v.streamed then ⟨.page, 0, t.frame⟩ else home
      | none => home
    if l.kind = .page && x.badAt l = [] then some l else none

/-- The remote reads of a partition that waited for a read which has ended: each is answered, or, where the read failed, ends without an answer
(DEDUCED, assumption log 85). -/
def serveWaiting (s : State) (p : Nat) (t : Nat → Serving → Bool) (ok : Bool) : State :=
  ((s.part p).qps.flatMap fun e => (e.2.serving.filter (t e.1)).map fun v => (e.1, v)).foldl
    (fun s e =>
      let s := s.onQp p e.1 fun q => { q with serving := q.serving.erase e.2 }
      match servedFrom (s.part p) e.2 with
      | some l => if ok then respondRead s p e.1 e.2 l else dropReadPins s p e.1
      | none => dropReadPins s p e.1) s

/-! ### Sending (R328, R329, R334, R347) -/

/-- A use of a resident context: it is the most recent (R325). -/
def useQp (s : State) (p i : Nat) : State :=
  if ((s.part p).qp i).resident then ({ s with uses := s.uses + 1 }).onQp p i fun q => { q with lastUse := s.uses + 1 } else s

/-- R334: a flag waits until every packet sent or queued earlier on its flow has been acknowledged; a mirrored group waits for both. -/
def flagReady (q : Qp) : Bool := q.sent = []

/-- The first queued packet that credits and window admit, with its place. -/
def sendable (q : Qp) : Option (Nat × Packet × Nat × Option CmdRef) :=
  let l := q.queue.zipIdx
  (l.find? fun e =>
    let k := e.1.2.1
    let f := q.flow k
    let first := !(l.any fun d => d.2 < e.2 && d.1.2.1 = k)
    first && pkCost e.1.1 ≤ (f.limit - f.used).toNat && (f.limit - f.used).toNat < 2 ^ 31 &&
      (q.sent.filter fun t => t.peer = k).length < 1024 && (!e.1.1.flag || (flagReady q && e.2 = 0))).map fun e => (e.2, e.1)

def metered (p : Packet) : Bool := p.op = 0x00 || p.op = 0x02 || p.op = 0x03

/-- PRP_PACKET_SEND: the next packet of a queue pair enters the fabric, unless it is red (R347). -/
def sendNext (s : State) (p i : Nat) : State :=
  let q := (s.part p).qp i
  if (q.state != .ready && q.state != .draining) || !q.resident then s
  else
    match sendable q with
    | none => s
    | some (n, pk, peer, cmd) =>
      let m := (s.part p).egress.meter (pkBytes pk) (q.yellowIn || bestEffort s p)
      if metered pk && m.1 = .red then s
      else
        let yellow := metered pk && m.1 = .yellow
        let s := if metered pk then s.onPart p fun x => { x with egress := m.2 } else s
        let f := q.flow peer
        let used := f.used + BitVec.ofNat 32 (pkCost pk)
        let pk := { pk with seq := f.nextSeq, credit := used.toNat, yellow := yellow, tc := if yellow && pk.tc = 0 then 1 else pk.tc }
        let s := s.onQp p i fun q =>
          { (q.onFlow peer fun f => { f with nextSeq := (f.nextSeq + 1) % 2 ^ 24, used := used }) with
            queue := q.queue.eraseIdx n, sent := q.sent ++ [⟨pk, peer, 0, cmd, pk.unitGen⟩] }
        let s := s.onAcct p fun a => { a with fabricTx := a.fabricTx + pkBytes pk }
        route (useQp s p i) pk (i % 2) q.path

/-! ### Failures (R330, R337, R338, R346) -/

/-- A FABRIC record (R365, R366) on the queue of a queue pair. -/
def fabricRecord (s : State) (fn q cause qp side part chip seq handle group tag : Nat) : State :=
  postRecord s fn q ⟨St.remoteFail, Kind.fabric, cause, qp, side + part * 2 ^ 8 + chip * 2 ^ 16, seq, handle % 2 ^ 32, group, tag⟩ none

/-- The queue-pair number of a partition's index (R323). -/
def qpNumber (p i : Nat) : Nat := p * 65536 + i

/-- The TAG of the command that sends a group; 0 for none. -/
def Qp.tagOf (q : Qp) (group : Nat) : Nat := Map.get q.tags group 0

/-- The group of a command has failed (R227, R337): the element, or the migration, ends with REMOTE_FAIL. -/
def failGroup (s : State) (c : CmdRef) (i group : Nat) : State :=
  s.onFlight c fun f =>
    match f.plan with
    | .attention ch es =>
      { f with plan := .attention ch (es.map fun e => match e.remote with
          | some r => if r.qp = i && r.group = group then { e with remote := some { r with failed := true } } else e
          | none => e) }
    | .migrate q g ph _ => if q = i && g = group then { f with plan := .migrate q g ph true } else f
    | _ => f

/-- The unsent packets of a group are dropped; those in flight no longer count for the command. -/
def dropGroup (s : State) (p i : Nat) (c : CmdRef) (group : Nat) : State :=
  s.onQp p i fun q =>
    { q with
      queue := q.queue.filter fun e => !(e.2.2 = some c && e.1.group = group)
      sent := q.sent.map fun e => if e.cmd = some c && e.pk.group = group then { e with cmd := none } else e }

/-- The waits of a command on its groups: with nothing left unacknowledged it may go on (R51, R227). -/
def remoteStep (s : State) (c : CmdRef) (i : Nat) : State :=
  match s.flight c with
  | none => s
  | some f =>
    if !((s.part c.part).qp i).clear c then s
    else
      match f.stage with
      | .waiting .mirrorFlag => setStage s c .requested
      | .waiting .migrateData => setStage s c .held
      | .waiting .migrateFlag => setStage s c .requested
      | _ => s

/-- A queue pair enters ERROR (R330, R346): its packets go, what waited on it is released, and commands fail. -/
def qpError (s : State) (p i cause seq : Nat) : State :=
  let q := (s.part p).qp i
  let first := if cause = 0x22 then none else q.sent.find? fun e => e.pk.seq = seq
  let grp := match first with
    | some e => (e.pk.group, e.pk.buf)
    | none => (0, 0)
  let refs := dedup ((q.queue.filterMap fun e => e.2.2.map fun c => (c, e.1.group)) ++ (q.sent.filterMap fun e => e.cmd.map fun c => (c, e.pk.group)))
  let s := (dropAllPins s p i).onQp p i fun q => { q with state := .error, queue := [], sent := [], landing := [], parked := [], serving := [] }
  let s := refs.foldl (fun s c => remoteStep (failGroup s c.1 i c.2) c.1 i) s
  let s := fabricRecord s p q.eq cause (qpNumber p i) 0 q.peerPart q.peerChip seq grp.2 grp.1 (q.tagOf grp.1)
  -- groups whose commands have committed are reported each (R337)
  let lost := ((q.sent.filter fun e => e.cmd.isNone).map fun e => e.pk) ++ (q.queue.filter fun e => e.2.2.isNone).map fun e => e.1
  let s := (lost.filter fun k => k.flag && k.op = 0x00 && first.all fun e => e.pk.group ≠ k.group).foldl
    (fun s k => fabricRecord s p q.eq 0x21 (qpNumber p i) 0 k.dstPart k.dst k.seq k.buf k.group (q.tagOf k.group)) s
  s.onPart p fun x => x.onCnt fun n => { n with qpErr := n.qpErr + 1 }

/-- R337: the queue pair of an OUT handle: the lowest READY one whose peer is the chip and partition it names. -/
def remoteQp (x : Part) (handle : Nat) : Option Nat :=
  (x.qps.find? fun e => e.2.state = .ready && e.2.peerChip = bits handle 36 15 && e.2.peerPart = bits handle 32 4).map fun e => e.1

end Sys2Proof.Machine
end

