-- ==== Sys2Proof/Machine/Attend.lean ====
section
/-! DEFINITION. What attention computes (R159 to R187, R205 to R209): visibility and masks, the cut of an element into work units, the evaluation
of a unit's rows block by block, the merge of partials and the output rows, and the bytes that appended positions leave. -/

namespace Sys2Proof.Machine

open Sys2Proof

/-! ### Masks (R177, R178) -/

structure MaskHead where
  groups : Nat
  blocks : Nat
  bitmaps : Nat

def maskHead (b : List Byte) : MaskHead := ⟨field b 2 2, field b 4 4, field b 8 4⟩

def maskWords (h : MaskHead) : Nat := ceilDiv h.blocks 32

/-- The class code of a row group and a key block. -/
def maskCode (b : List Byte) (h : MaskHead) (r k : Nat) : Nat :=
  bits (field b (0x10 + 8 * (r * maskWords h + k / 32)) 8) (2 * (k % 32)) 2

/-- The bytes of the descriptor. -/
def maskLength (h : MaskHead) : Nat := 0x10 + 8 * h.groups * maskWords h + 512 * h.bitmaps

/-- R178: the header can be right, so that the whole descriptor is worth reading. -/
def maskHeadOk (b : List Byte) (count : Nat) : Bool :=
  let h := maskHead b
  field b 0 2 = 1 && field b 0xC 4 = 0 && h.groups = ceilDiv count 64 && 1 ≤ h.blocks && h.blocks ≤ 16384 && maskLength h ≤ 2 ^ 24

/-- R178: codes of a descriptor in order. -/
def maskCodes (b : List Byte) (h : MaskHead) : List Nat :=
  (List.range h.groups).flatMap fun r => (List.range h.blocks).map fun k => maskCode b h r k

def maskOk (b : List Byte) (count : Nat) : Bool :=
  let h := maskHead b
  maskHeadOk b count && (maskCodes b h).all (· ≠ 3) && ((maskCodes b h).filter (· = 2)).length = h.bitmaps

/-- R178: the mask shows key j to row i. -/
def maskShows (b : List Byte) (i j : Nat) : Bool :=
  let h := maskHead b
  let r := i / 64
  let k := j / 64
  if b = [] || h.blocks ≤ k then true
  else
    match maskCode b h r k with
    | 0 => false
    | 1 => true
    | _ =>
      let before := (((maskCodes b h).take (r * h.blocks + k)).filter (· = 2)).length
      bit (field b (0x10 + 8 * h.groups * maskWords h + 512 * before + 8 * (i % 64)) 8) (j % 64)

/-! ### Visibility (R160, R161) -/

def Elem.noCausal (e : Elem) : Bool := bit e.flags 4
def Elem.isRemote (e : Elem) : Bool := bit e.flags 5

/-- The position of row i of an element whose keys end at the extent. -/
def Elem.rowPos (e : Elem) (i : Nat) : Nat := e.extent - e.count + i

/-- Conditions 1 to 4 of R160. -/
def visible (e : Elem) (i j : Nat) : Bool :=
  let p := e.rowPos i
  j < e.extent && (e.noCausal || j ≤ p) && (e.window = 0 || p < j + e.window) && maskShows e.maskBytes i j

/-- R176. -/
inductive BlockClass where
  | empty | full | edge
  deriving DecidableEq

/-- The rows of a unit that are positions. -/
def Unit.rowList (u : Unit) : List Nat := (List.range u.rows).map fun i => u.row0 + i

def blockClass (e : Elem) (rows : List Nat) (b : Nat) : BlockClass :=
  let all := rows.flatMap fun i => (List.range 64).map fun k => visible e i (64 * b + k)
  if all.all (· = false) then .empty else if all.all (· = true) then .full else .edge

/-- The key blocks of a unit that are not EMPTY, in ascending order. -/
def unitBlocks (e : Elem) (rows : List Nat) (lo hi : Nat) : List Nat :=
  ((List.range (ceilDiv hi 64 - lo / 64)).map fun k => lo / 64 + k).filter fun b => blockClass e rows b != .empty

/-! ### Units of an element (R179 to R182) -/

def rowLimit (m : Model) : Nat := if m.headDim ≤ 128 then 96 else 48

def headTile (m : Model) (count : Nat) : Nat :=
  ([4, 2].find? fun h => m.kvHeads % h = 0 && h * count * m.qPerKv ≤ rowLimit m).getD 1

def posTile (m : Model) (count : Nat) : Nat := rowLimit m / (headTile m count * m.qPerKv)

/-- The units that R180 counts for an element and a chunk length. -/
def unitCount (m : Model) (count extent c : Nat) : Nat :=
  m.kvHeads / headTile m count * ceilDiv count (posTile m count) * ceilDiv extent c

/-- R180: C of a command whose elements have these counts and extents; 1,048,576 where none brings U to 4,096
(DESIGN CHOICE, assumption log 167). -/
def chunkOf (m : Model) (l : List (Nat × Nat)) : Nat :=
  1024 * 2 ^ ((leastFrom (fun k => sum (l.map fun e => unitCount m e.1 e.2 (1024 * 2 ^ k)) ≤ 4096) 11 0).getD 10)

structure Cut where
  head0 : Nat
  tile : Nat
  row0 : Nat
  rows : Nat
  lo : Nat
  hi : Nat
  keys : Nat

/-- The units of an element in the order of R182: more visible keys first, then lower chunks, then lower head groups. -/
def cuts (m : Model) (e : Elem) (c : Nat) : List Cut :=
  let h := headTile m e.count
  let pt := posTile m e.count
  let all := (List.range (ceilDiv e.extent c)).flatMap fun ch => (List.range (m.kvHeads / h)).flatMap fun g =>
    (List.range (ceilDiv e.count pt)).reverse.map fun t =>
      let row0 := t * pt
      let rows := Nat.min pt (e.count - row0)
      let lo := ch * c
      let hi := Nat.min (lo + c) e.extent
      let idx := (List.range rows).map fun i => row0 + i
      let keys := sum (idx.map fun i => ((List.range (hi - lo)).filter fun k => visible e i (lo + k)).length)
      (⟨g * h, t, row0, rows, lo, hi, keys⟩ : Cut)
  sortBy (fun u => 2 ^ 40 - u.keys) (all.filter fun u => u.keys ≠ 0)

/-- R183: the bytes of the partials of an element: with more than one chunk, each unit leaves one of its rows. -/
def mergeNeed (m : Model) (e : Elem) (c : Nat) : Nat :=
  if ceilDiv e.extent c ≤ 1 then 0
  else sum ((cuts m e c).map fun u => u.rows * headTile m e.count * m.qPerKv * (8 * m.headDim + 8))

/-! ### Stored keys and values as the array reads them (R195, R198, R206) -/

/-- Page k of a layer as a walk finds it (R78): its form, and its bytes; a tail page has the staging layout. -/
def pageSource (x : Part) (q : Seq) (layer k : Nat) : LocKind × List Byte :=
  let l := locate x q layer (256 * k)
  (if k = q.lenOf layer / 256 then .staging else l.kind, x.bytesAt l)

/-- A position's vector as a unit reads it, from the pages that its walk found: rotated or not, and its exact values. An extend reads its own new positions from the bytes it has written (R172)
(DEDUCED, assumption log 77). -/
def keyAt (src : Map (LocKind × List Byte)) (m : Model) (e : Elem) (own value : Bool) (h j : Nat) : Bool × List Val :=
  if own && e.pos ≤ j then
    let v := e.stored.getD ((j - e.pos) * m.kvHeads + h) ([], [])
    (false, vecDecode 3 m.headDim (if value then v.2 else v.1))
  else
    let a := Map.get src (j / 256) (.staging, [])
    (a.1 = .page && m.cacheFormat = 14, storedVec m a.1 a.2 value h (j % 256))

/-- One score before SCALE: groups of 64 (ZK2) or 32 elements, in ascending order (R206). -/
def dotProduct (rotated : Bool) (qs ks : List Val) : Word :=
  let n := if rotated then 64 else 32
  let c := ceilDiv qs.length n
  ((chunks n c qs).zip (chunks n c ks)).foldl (fun acc g => groupAcc acc (.fin false 1 0) (g.1.zip g.2)) 0

/-- A query head vector in its plain and rotated FP8 forms (R185, R204). -/
def queryForms (m : Model) (v : List Word) : List Val × List Val :=
  let f := fun l : List Word => l.map fun w => e4m3.decode (toE4m3 w).toNat
  (f v, if m.cacheFormat = 14 then f (rotateVec m.headDim v) else [])

/-- The 64 scores of a row of query head h against a block, with SCALE applied; keys that do not exist score +0. -/
def blockScores (src : Map (LocKind × List Byte)) (m : Model) (e : Elem) (own : Bool) (h : Nat) (f : List Val × List Val) (b : Nat) : List Word :=
  (List.range 64).map fun k =>
    let j := 64 * b + k
    if e.extent ≤ j then 0
    else
      let v := keyAt src m e own false (h / m.qPerKv) j
      fmul (dotProduct v.1 (if v.1 then f.2 else f.1) v.2) m.scale

/-- Visibility bits of a row and a block. -/
def visBits (e : Elem) (i b : Nat) : Nat := leNatBits ((List.range 64).map fun k => visible e i (64 * b + k))
where
  leNatBits : List Bool → Nat
    | [] => 0
    | c :: r => Bool.bit c + 2 * leNatBits r

/-! ### One row against one block (R185, R186, R206) -/

def RowAcc.start (m : Model) : RowAcc :=
  ⟨negInf32, 0, List.replicate (64 * zk2Groups m.headDim) 0, List.replicate m.headDim 0, false, false⟩

/-- The probabilities of the keys that count, in two groups of 32, added to an accumulator. -/
def addValues (acc : List Word) (ps : List (Option Val)) (vs : List (List Val)) : List Word :=
  acc.zipIdx.map fun a =>
    let term := fun l : List (Option Val × List Val) =>
      toF32 (Val.sum (l.filterMap fun e => e.1.map fun p => p.mul (e.2.getD a.2 Val.zero)))
    let l := ps.zip vs
    fadd (fadd a.1 (term (l.take 32))) (term (l.drop 32))

/-- One block: the scores (with the hook's) and the visibility bits are given (DEDUCED, assumption log 137; DEDUCED, assumption log 145). -/
def stepBlock (src : Map (LocKind × List Byte)) (m : Model) (e : Elem) (own : Bool) (h b : Nat) (scores : List Word) (vis : Nat) (r : RowAcc) : RowAcc :=
  let s := scores.zipIdx.map fun a => if bit vis a.2 then a.1 else negInf32
  if s.any fun w => isNaN32 w || w = 0x7F800000 then { r with nan := true }
  else
    let mb := s.foldl fmaxN negInf32
    if mb = negInf32 || r.nan then r
    else
      let mn := fmaxN r.m mb
      let c := fexp (fsub r.m mn)
      let ps := s.map fun w => if w = negInf32 then none else some (e4m3.decode (toE4m3 (fexp (fsub w mn))).toNat)
      let l := fadd (fmul r.l c) (toF32 (Val.sum (ps.filterMap id)))
      let ks := (List.range 64).map fun k =>
        if e.extent ≤ 64 * b + k then (false, []) else keyAt src m e own true (h / m.qPerKv) (64 * b + k)
      let rot := (ks.headD (false, [])).1
      let z := r.z.map (fmul · c)
      let f := r.f.map (fmul · c)
      let vs := ks.map Prod.snd
      -- a NaN in the value of a visible key makes the row's output NaN, whatever its probability (R186)
      let odd := (ps.zip vs).any fun e => e.1.isSome && e.2.any Val.isNaN
      ⟨mn, l, if rot then addValues z ps vs else z, if rot then f else addValues f ps vs, false, r.nanValue || odd⟩

/-! ### Merge and output (R185, R207) -/

/-- DEDUCED, assumption log 67; DEDUCED, assumption log 145. -/
def mergeRow (a b : RowAcc) : RowAcc :=
  if a.nan || b.nan then { a with nan := true }
  else if feq b.l 0 then a
  else if feq a.l 0 then b
  else
    let mn := fmaxN a.m b.m
    let ca := fexp (fsub a.m mn)
    let cb := fexp (fsub b.m mn)
    let mix := fun u v : Word => fadd (fmul u ca) (fmul v cb)
    ⟨mn, mix a.l b.l, List.zipWith mix a.z b.z, List.zipWith mix a.f b.f, false, a.nanValue || b.nanValue⟩

/-- The output head vector and the log-sum-exp of a row; a NaN value reaches the outputs and not the log-sum-exp
(DEDUCED, assumption log 137; DEDUCED, assumption log 145). -/
def outputRow (m : Model) (r : RowAcc) : List Word × Word :=
  if r.nan then (List.replicate m.headDim nan32, nan32)
  else if feq r.l 0 then (List.replicate m.headDim 0, negInf32)
  else
    let u := if m.cacheFormat = 14 then unrotateVec m.headDim r.z else r.z.take m.headDim
    let o := if r.nanValue then List.replicate m.headDim nan32 else List.zipWith (fun a b => fmul (fadd a b) (frecip r.l)) u r.f
    (o, fadd r.m (flog r.l))

/-! ### Appended positions (R80, R204) -/

/-- Completed pages, and the parts of an append of n positions from pos. -/
structure Growth where
  fill : Nat
  completed : Nat
  fresh : Nat
  newTail : Bool

def growth (pos n : Nat) : Growth :=
  let t := pos % 256
  let done := (t + n) / 256
  ⟨t, done, if t ≠ 0 then done - 1 else done, (t + n) % 256 ≠ 0 && (t = 0 || 1 ≤ done)⟩

/-- The FP8 bytes of the new vectors of a token and head (R204). -/
def storeVec (k v : List Word) : List Byte × List Byte := (k.map toE4m3, v.map toE4m3)

/-- A staging or tail page with the vectors of slots lo and up laid over what it holds; vecs lists them by position and head. -/
def overlayPage (m : Model) (data : List Byte) (lo : Nat) (vecs : List (List Byte × List Byte)) : List Byte :=
  let put := fun (d : List Byte) (value : Bool) (h slot : Nat) (b : List Byte) =>
    overlay m.stagingBytes d (stagingOff m value h slot) b
  vecs.zipIdx.foldl
    (fun d a =>
      let slot := lo + a.2 / m.kvHeads
      let h := a.2 % m.kvHeads
      put (put d false h slot a.1.1) true h slot a.1.2)
    (slice data 0 m.stagingBytes)

end Sys2Proof.Machine
end

