-- ==== Sys2Proof/Machine/Attention.lean ====
section
/-! DEFINITION. The attention commands (R162 to R173, R180 to R184, R228): their checks, reservations, the phases of an element, and
their commit; and kernel_run's start and commit (R229). -/

namespace Sys2Proof.Machine

open Sys2Proof

/-! ### Fields (R228) -/

def cQfmt (w : List Byte) : Nat := field w 0x14 1 % 16
def cKvfmt (w : List Byte) : Nat := field w 0x15 1 % 16
def cOfmt (w : List Byte) : Nat := field w 0x16 1 % 16
def cStatus (w : List Byte) : Nat := field w 0x20 8
def cHookArg (w : List Byte) : Nat := field w 0x28 4

def writesKv (op : Nat) : Bool := op ≠ Op.attend
def readsQ (op : Nat) : Bool := op ≠ Op.append

/-- R167: the checks of the command. -/
def attentionCheck (s : State) (p : Nat) (bad : List (Nat × Nat)) (w : List Byte) : Option Nat :=
  let x := s.part p
  let op := cOpcode w
  let n := cN w
  let m := x.model (cModel w)
  if !Map.has x.models (cModel w) then some St.noModel
  else if m.layers ≤ cLayer w then some St.layerRange
  else if n = 0 || 256 < n || (op = Op.extend && n ≠ 1) then some St.batchRange
  else if (readsQ op && (!queryFormat (cQfmt w) || !outputFormat (cOfmt w))) || (writesKv op && !queryFormat (cKvfmt w)) then some St.format
  else if cList w % 64 ≠ 0 || cStatus w % 64 ≠ 0 || (cStatus w = 0 && n ≠ 1) || (cListPw w && x.sliceBytes < cList w + 64 * n) then
    some St.operandRange
  else if !cListPw w && !readOk bad (cList w) (64 * n) then some St.operandFault
  else none

/-! ### Element buffers (R165) -/

def qHeads (m : Model) : Nat := m.kvHeads * m.qPerKv
def qBytes (m : Model) (w : List Byte) (n : Nat) : Nat := n * qHeads m * vecBytes (cQfmt w) m.headDim
def kvInBytes (m : Model) (w : List Byte) (n : Nat) : Nat := 2 * n * m.kvHeads * vecBytes (cKvfmt w) m.headDim
def outBytes (m : Model) (w : List Byte) (n : Nat) : Nat := n * qHeads m * vecBytes (cOfmt w) m.headDim

/-- Items of a buffer decoded to FP32. -/
def decodeItems (fmt headDim n : Nat) (b : List Byte) : List (List Word) :=
  let k := vecBytes fmt headDim
  (List.range n).map fun i => (vecDecode fmt headDim (slice b (k * i) k)).map toF32

def words32 (b : List Byte) (n : Nat) : List Word := (List.range n).map fun i => BitVec.ofNat 32 (field b (4 * i) 4)

/-- An element that has not run. -/
def newElem (t : Entry64) : Elem where
  handle := t.handle
  pos := t.pos
  count := t.count
  flags := t.flags
  window := t.window
  qIn := t.qIn
  kvIn := t.kvIn
  tokens := t.tokens
  out := t.out
  lseOut := t.lseOut
  mask := t.mask
  status := 0
  extent := 0
  phase := .hot none
  ids := []
  queries := []
  keys := []
  values := []
  stored := []
  maskBytes := []
  ht := 1
  pt := 1
  unitsLeft := 0
  partials := []
  outputs := []
  lse := []
  newFrames := []
  outFrames := []
  tailFrame := 0
  merge := 0
  touched := []
  remote := none
  held := false
  called := []
  recs := []
  late := none

/-- R57, R170: the extent that a reader fixes. -/
def fixExtent (op : Nat) (t : Entry64) (q : Seq) : Nat :=
  if op = Op.attend then (if t.pos = 0 then q.reservedLen else Nat.min t.pos q.reservedLen) else t.pos + t.count

/-- R55, R83, R84: the position checks of a command that writes. A re-run that holds its reservation passes (R56)
(DEDUCED, assumption log 142). -/
def positionCheck (x : Part) (f : Flight) (t : Entry64) (q : Seq) (layer : Nat) : Option Nat :=
  if f.rsv.contains (handleIndex t.handle, layer) then none
  else if layer = 0 then
    if t.pos ≠ q.reservedLen then some St.positionMismatch else if q.isOpen then some St.stepOpen else none
  else if t.pos ≠ q.stepBase || t.count ≠ q.reservedLen - q.stepBase || q.layerRsv.getLsbD layer || !q.isOpen then
    some St.positionMismatch
  else (if (x.model q.model).layers ≤ layer then some St.layerRange else none)

/-- ELEMENT_CHECK (R167): the status of the first check that fails, else the element with its operands read. -/
def elementCheck (s : State) (c : CmdStep) (f : Flight) (t : Entry64) (before : List Nat) : Nat × Elem :=
  let p := c.ref.part
  let x := s.part p
  let w := f.word
  let op := cOpcode w
  let e := newElem t
  match x.handle t.handle with
  | none => (if t.reserved then St.reservedField else St.invalidHandle, e)
  | some q =>
    let m := x.model (cModel w)
    let layer := cLayer w
    let most := if op = Op.extend then 16384 else 16
    let ext := fixExtent op t q
    let tokPw := bit t.flags 2
    let needTok := writesKv op && layer = 0
    let fits := fun (pw : Bool) (a n : Nat) => a % 64 = 0 && (!pw || a + n ≤ x.sliceBytes)
    let got := fun (pw : Bool) (a n : Nat) => pw || readOk c.bad a n
    let nq := qBytes m w t.count
    let nkv := kvInBytes m w t.count
    let maskPw := bit t.flags 3
    let hasMask := readsQ op && t.mask ≠ 0
    let head := operandBytes s p maskPw t.mask 16
    let nm := if hasMask && maskHeadOk head t.count then maskLength (maskHead head) else 16
    let isOut := bit t.flags 5
    let status :=
      if t.reserved then St.reservedField
      else if q.model ≠ cModel w then St.wrongModel
      else if t.count = 0 || most < t.count || (op = Op.attend && ext < t.count) then St.countRange
      else if op = Op.append && before.contains t.handle then St.duplicate
      else
        match (if writesKv op then positionCheck x f t q layer else none) with
        | some st => st
        | none =>
          if writesKv op && 1048576 < t.pos + t.count then St.lengthLimit
          else if needTok && !tokPw && t.tokens = 0 then St.noTokens
          else if (readsQ op && !fits (bit t.flags 0) t.qIn nq) || (writesKv op && !fits (bit t.flags 1) t.kvIn nkv) ||
              (needTok && !fits tokPw t.tokens (4 * t.count)) ||
              (readsQ op && !isOut && (t.out % 64 ≠ 0 || t.lseOut % 64 ≠ 0)) ||
              (hasMask && !fits maskPw t.mask nm) || (readsQ op && 1048576 < t.window) then St.operandRange
          else if (readsQ op && !got (bit t.flags 0) t.qIn nq) || (writesKv op && !got (bit t.flags 1) t.kvIn nkv) ||
              (needTok && !got tokPw t.tokens (4 * t.count)) || (hasMask && !got maskPw t.mask nm) then St.operandFault
          else if hasMask && !(maskHeadOk head t.count && maskOk (operandBytes s p maskPw t.mask nm) t.count) then St.maskFormat
          else 0
    if status ≠ 0 then (status, e)
    else
      let kv := decodeItems (cKvfmt w) m.headDim (2 * t.count * m.kvHeads) (operandBytes s p (bit t.flags 1) t.kvIn nkv)
      let half := fun value : Bool => (List.range t.count).flatMap fun i =>
        (List.range m.kvHeads).map fun g => kv.getD ((2 * i + (if value then 1 else 0)) * m.kvHeads + g) []
      (0, { e with
        extent := ext
        ids := if needTok then words32 (operandBytes s p tokPw t.tokens (4 * t.count)) t.count else []
        queries := if readsQ op then decodeItems (cQfmt w) m.headDim (t.count * qHeads m) (operandBytes s p (bit t.flags 0) t.qIn nq) else []
        keys := if writesKv op then half false else []
        values := if writesKv op then half true else []
        maskBytes := if hasMask then operandBytes s p maskPw t.mask nm else []
        ht := headTile m t.count
        pt := posTile m t.count })

/-- POSITION_RESERVE and STEP_OPEN (R55, R83, R84). -/
def reserve (s : State) (c : CmdRef) (f : Flight) (layer : Nat) (e : Elem) : State :=
  let i := handleIndex e.handle
  if f.rsv.contains (i, layer) then s
  else
    let s := s.onSeq c.part i fun q =>
      if layer = 0 then
        { q with layerRsv := q.layerRsv ||| 1, stepBase := e.pos, reservedLen := q.reservedLen + e.count }
      else { q with layerRsv := q.layerRsv ||| (1 : BitVec 256) <<< layer }
    s.onFlight c fun f => { f with rsv := f.rsv ++ [(i, layer)] }

/-- PCIe bytes of the operands of an element that come from host memory. -/
def elementPcie (m : Model) (w : List Byte) (e : Elem) : Nat :=
  let op := cOpcode w
  (if readsQ op && !bit e.flags 0 then qBytes m w e.count else 0) + (if writesKv op && !bit e.flags 1 then kvInBytes m w e.count else 0) +
    (if bit e.flags 2 then 0 else 4 * e.ids.length) + (if bit e.flags 3 then 0 else e.maskBytes.length)

/-! ### One element -/

def wordOf (s : State) (c : CmdRef) : List Byte :=
  match s.flight c with
  | some f => f.word
  | none => []

def modelOf' (s : State) (c : CmdRef) : Model := (s.part c.part).model (cModel (wordOf s c))

def elemSeq (s : State) (c : CmdRef) (e : Elem) : Option Seq := (s.part c.part).handle e.handle

/-- An element waits in the dispatcher under a cause of R156. -/
def elemWaits (s : State) (c : CmdRef) (k cause : Nat) : State := setElem s c k fun e => { e with late := some cause }

/-- SEQUENCE_WAKE of an element (R90). -/
def hotPhase (s : State) (c : CmdStep) (k : Nat) : State :=
  match elemOf s c.ref k with
  | none => s
  | some e =>
    match e.phase with
    | .hot v =>
      if (elemSeq s c.ref e).isNone then failElem s c.ref k St.invalidHandle
      else
        let w := wordOf s c.ref
        match wakeSeq s c.ref.part (handleIndex e.handle) v c w with
        | .awake s => setElem s c.ref k fun e => { e with phase := if writesKv (cOpcode w) then .alloc else .extent, late := none }
        | .wait s v => setElem s c.ref k fun e => { e with phase := .hot (some v), late := none }
        | .alloc s => setElem s c.ref k fun e => { e with phase := .hot none, late := some Stall.dramAlloc }
        | .fails s st => failElem s c.ref k st
    | _ => s

/-! ### Units of an element -/

def blankUnit : Unit where
  part := 0
  slot := 0
  index := 0
  elem := 0
  kind := .append
  quad := 0
  head0 := 0
  heads := 0
  row0 := 0
  rows := 0
  tileNo := 0
  keyLo := 0
  keyHi := 0
  gang := 0
  snare := false
  bestEffort := false
  place := .ready
  order := 0
  hasYielded := false
  hasEvicted := false
  reads := []
  kernel := none
  stage := 0
  gen := 0
  startedAt := 0
  counted := 0
  src := []
  caused := false
  took := none

/-- R258: a unit record that a new unit may have: no unit has it, no rows wait to be sent under it, and on a queue pair that has not failed nothing
sent under it is unanswered. Record 0 is the one of packets that no unit sends (DESIGN CHOICE, assumption log 160). -/
def recordFree (s : State) (r : Nat) : Bool :=
  let busy := fun q : Qp => q.state != .error && ((q.queue.any fun e => e.1.unitRec = r && e.1.op ≠ 0x04) || q.sent.any fun t => t.pk.unitRec = r && t.pk.op ≠ 0x04)
  let rows := fun f : Flight => match f.plan with
    | .attention _ es => es.any fun e => e.recs.any fun a => a.2 = r
    | _ => false
  r ≠ 0 && !(s.sched.units.any fun e => e.1 % 65536 = r) &&
    s.livePartitions.all fun p => !((s.part p).qps.any fun e => busy e.2) && !((s.part p).flights.any rows)

/-- A new unit: its number modulo 65,536 is its record (R258) (DESIGN CHOICE, assumption log 160). -/
def addUnit (s : State) (u : Unit) : State :=
  let n := s.sched.nextUnit + (leastFrom (fun k => recordFree s ((s.sched.nextUnit + k) % 65536)) 65536 0).getD 0
  s.onSched fun d => { d with units := Map.put d.units n { u with gen := Map.get d.generations (n % 65536) 0 }, nextUnit := n + 1 }

/-- R250: a partition becomes active in a quadrant as it gains a unit there. -/
def vkey (p q : Nat) : Nat := 4 * p + q

def unitsIn (s : State) (p q : Nat) : List (Nat × Unit) := s.sched.units.filter fun e => e.2.part = p && e.2.quad = q

def vtimeOf (s : State) (p q : Nat) : Rat := Map.get (s.part p).vtime q 0

/-- The unit is ready, queued or running. -/
def Unit.isLive (u : Unit) : Bool :=
  match u.place with
  | .yielded => false
  | _ => true

def isActive (s : State) (p q : Nat) : Bool := (unitsIn s p q).any fun e => e.2.isLive

def activate (s : State) (p q : Nat) : State :=
  if isActive s p q then s
  else
    let others := (s.livePartitions.filter fun o => o != p && isActive s o q).map fun o => vtimeOf s o q
    let least := match others with
      | [] => none
      | v :: r => some (r.foldl (fun a b => if b < a then b else a) v)
    let mine := vtimeOf s p q
    let v := match least with
      | none => mine
      | some l => if mine < l then l else mine
    s.onPart p fun x => { x with vtime := Map.put x.vtime q v }

/-- R246: the units of a snare-lane command of a partition that is not best-effort. -/
def snareOf (s : State) (c : CmdRef) (f : Flight) : Bool := f.snare && isAttention (cOpcode f.word) && !bestEffort s c.part

/-- R182: the bucket of an element, the highest first. -/
def bucketOf (x : Nat) : Nat := Nat.log2 (Nat.max 1 (x / 1024))

def baseUnit (s : State) (c : CmdRef) (f : Flight) (k : Nat) (e : Elem) (quad : Nat) : Unit :=
  { blankUnit with
    part := c.part, slot := c.slot, index := c.index, elem := k, quad := quad, snare := snareOf s c f, bestEffort := bestEffort s c.part
    order := (f.order * 16 + (10 - bucketOf e.extent)) * 2 ^ 32 + k * 2 ^ 24 }

/-- The stored bytes of new positions whose keys need no position kernel (R173, R204). -/
def storeDirect (e : Elem) : List (List Byte × List Byte) := (e.keys.zip e.values).map fun v => storeVec v.1 v.2

/-- The frames that an element's new positions need (R80), in this order: the tail page where it is not in DRAM, the completed pages,
the new tail page. -/
def tailAway (q : Seq) (layer fill : Nat) : Bool := fill ≠ 0 && (Map.get q.tails layer Loc.none).tier ≠ 0

/-- R77, R146: the table slots and descriptor slots that an element's completed pages need beyond what its sequence has. -/
def elemTables (q : Seq) (layer : Nat) (g : Growth) : Nat × Nat :=
  if layer = 0 then (ceilDiv (q.pt.length + g.completed) 512 - q.chunks.length, g.completed) else (0, 0)

/-- Allocation of staging and tail pages and of their tables (R77, R80, R95, R146), and then the unit that converts the new keys and values (R240)
(DEDUCED, assumption log 77). -/
def allocPhase (s : State) (c : CmdRef) (k : Nat) : State :=
  match elemOf s c k, s.flight c with
  | some e, some f =>
    if e.phase != .alloc then s
    else
      match elemSeq s c e with
      | none => failElem s c k St.invalidHandle
      | some q =>
        let m := modelOf' s c
        let g := growth e.pos e.count
        let away := Bool.bit (tailAway q (cLayer f.word) g.fill)
        let n := away + g.fresh + Bool.bit g.newTail
        let t := elemTables q (cLayer f.word) g
        match allocWithTables c.part q.homeQ t.1 t.2 (some (handleIndex e.handle)) (List.replicate n m.stagingFrames) s with
        | .none s => failElem s c k St.noSpace
        | .wait s => elemWaits s c k Stall.dramAlloc
        | .got s fs =>
          let s := s.onFlight c fun f => { f with slots := f.slots + t.1, descs := f.descs + t.2 }
          let s := setElem s c k fun e =>
            { e with late := none, newFrames := fs.take (away + g.fresh), tailFrame := if g.newTail then fs.getD (away + g.fresh) 0 else 0 }
          if cOpcode f.word = Op.append || m.posKernel ≠ 0 then
            let s := activate s c.part q.homeQ
            let s := addUnit s { baseUnit s c f k e q.homeQ with kind := .append, rows := e.count }
            setElem s c k fun e => { e with phase := .running, unitsLeft := 1 }
          else setElem s c k fun e => { e with phase := .extent, stored := storeDirect e }
  | _, _ => s

/-- R171: an attend element waits until its extent has committed in the layer. -/
def extentPhase (s : State) (c : CmdRef) (k : Nat) : State :=
  match elemOf s c k with
  | none => s
  | some e =>
    if e.phase != .extent then s
    else
      match elemSeq s c e with
      | none => failElem s c k St.invalidHandle
      | some q =>
        if cOpcode (wordOf s c) = Op.attend && q.lenOf (cLayer (wordOf s c)) < e.extent then s
        else setElem s c k fun e => { e with phase := .space }

/-- The bytes of an element's output rows in order, and its log-sum-exp bytes. -/
def outData (e : Elem) : List Byte := (Map.vals e.outputs).flatMap id
def lseData (e : Elem) : List Byte := (Map.vals e.lse).flatMap fun w => leBytes 4 w.toNat

/-- Rows of n bytes queued as WRITE packets at a buffer handle, each under the record of the unit that computed its first row (R258)
(DEDUCED, assumption log 66). -/
def enqueueRows (s : State) (c : CmdRef) (e : Elem) (i group buf n : Nat) (ps : List (List Byte)) : State :=
  ps.zipIdx.foldl
    (fun s b =>
      let r := Map.get e.recs (4096 * b.2 / n) 0
      let gen := Map.get s.sched.generations r 0
      enqueue s c.part i
        (fun peer => { packetTo s c.part i peer 0x00 group buf (4096 * b.2) 0 false b.1 with unitRec := r, unitGen := gen }) (some c)) s

/-- The group of an element with OUT_REMOTE: its data packets are queued; the last output bytes wait for the flag (R166, R337)
(DEDUCED, assumption log 66). An LSE_OUT that names another chip or partition than OUT fails as a missing queue pair does
(DESIGN CHOICE, assumption log 166). -/
def sendRemote (s : State) (c : CmdRef) (k : Nat) : State :=
  match elemOf s c k with
  | none => s
  | some e =>
    if !e.isRemote then s
    else
      let same := e.lseOut = 0 || bits e.lseOut 32 19 = bits e.out 32 19
      match (if same then remoteQp (s.part c.part) e.out else none) with
      | none => setElem s c k fun e => { e with remote := some ⟨0, 0, false, true⟩ }
      | some i =>
        let r := commandGroup s c i
        let n := vecBytes (cOfmt (wordOf s c)) (modelOf' s c).headDim
        let s := enqueueRows r.2 c e i r.1 e.out n (pieces (outData e)).dropLast
        let s := if e.lseOut = 0 then s else enqueueRows s c e i r.1 e.lseOut 4 (pieces (lseData e))
        setElem s c k fun e => { e with remote := some ⟨i, r.1, false, false⟩, recs := [] }

/-- An element whose units have all ended: rows that no unit computed have no visible key (R186), merge space is free, outputs are
staged or sent (DEDUCED, assumption log 66). -/
def finishElem (s : State) (c : CmdRef) (k : Nat) : State :=
  match elemOf s c k with
  | none => s
  | some e =>
    let m := modelOf' s c
    let fmt := cOfmt (wordOf s c)
    let none0 := outputRow m (RowAcc.start m)
    let idx := List.range (e.count * qHeads m)
    let outs := idx.map fun i => (i, (Map.look e.outputs i).getD (vecEncode fmt (none0.1.map f32)))
    let lses := idx.map fun i => (i, (Map.look e.lse i).getD none0.2)
    let s := setElem s c k fun e => { e with phase := .done, outputs := outs, lse := lses, merge := 0, partials := [] }
    settleCommand (sendRemote s c k) c

/-- C doubles until the partials of the elements fit or C is 1,048,576 (R180, R183) (DEDUCED, assumption log 68). -/
def fitChunk (s : State) (p : Nat) (m : Model) (es : List Elem) : Nat → Nat → Nat
  | 0, c => c
  | n + 1, c => if 1048576 ≤ c || mergeAllows s p (sum (es.map fun e => mergeNeed m e c)) then c else fitChunk s p m es n (2 * c)

/-- The page sets that an element's evaluated blocks lie in (R176). -/
def neededSets (q : Seq) (layer : Nat) (l : List Cut) (e : Elem) : List Nat :=
  let ks := dedup (l.flatMap fun u => (unitBlocks e ((List.range u.rows).map fun i => u.row0 + i) u.lo u.hi).map fun b => b / 4)
  (ks.filter fun k => k < q.lenOf layer / 256).filterMap fun k => (q.pt[k]?).map fun t => t.psn

/-- MERGE_SPACE and staging (R183, R184): the element is dispatched as units (DEDUCED, assumption log 68). -/
def spacePhase (s : State) (c : CmdRef) (k : Nat) : State :=
  match elemOf s c k, s.flight c with
  | some e, some f =>
    if e.phase != .space then s
    else
      match elemSeq s c e with
      | none => failElem s c k St.invalidHandle
      | some q =>
        let m := modelOf' s c
        let w := f.word
        let ch0 := match f.plan with
          | .attention ch _ => ch
          | _ => 1024
        let sets := neededSets q (cLayer w) (cuts m e ch0) e
        match segmentsOut (s.part c.part) sets with
        | g :: r =>
          elemWaits (recallSegments s c.part (g :: r)) c k (tierLate (Map.get (s.part c.part).segments g Loc.none).tier)
        | [] =>
        let bytes := if e.isRemote then 0 else outBytes m w e.count + (if e.lseOut = 0 then 0 else 4 * e.count * qHeads m)
        match allocAll c.part q.homeQ (some (handleIndex e.handle)) (List.replicate (ceilDiv bytes 65536) 1) s with
        | .none s => failElem s c k St.noSpace
        | .wait s => elemWaits s c k Stall.dramAlloc
        | .got s fs =>
          let ch := fitChunk s c.part m [e] 11 ch0
          let s := s.onFlight c fun f => match f.plan with
            | .attention _ es => { f with plan := .attention ch es }
            | _ => f
          let l := cuts m e ch
          let s := pinFor s c sets
          let s := setElem s c k fun e =>
            { e with phase := .running, late := none, outFrames := fs, merge := mergeNeed m e ch, unitsLeft := l.length }
          if l = [] then finishElem s c k
          else
            let s := activate s c.part q.homeQ
            let b := baseUnit s c f k e q.homeQ
            let tiles := ceilDiv e.count e.pt
            l.zipIdx.foldl
              (fun s u =>
                let g := ((b.order + u.1.lo / ch) * 64 + u.1.head0) * 2048 + (tiles - 1 - u.1.tile) / 16 + 1
                addUnit s { b with
                  kind := .attend, head0 := u.1.head0, heads := e.ht, row0 := u.1.row0, rows := u.1.rows, tileNo := u.1.tile
                  keyLo := u.1.lo, keyHi := u.1.hi, gang := g, order := b.order + u.2 })
              s
  | _, _ => s

/-- An element goes on as far as it can. -/
def advanceElem (s : State) (c : CmdStep) (k : Nat) : State :=
  settleCommand (spacePhase (extentPhase (allocPhase (hotPhase s c k) c.ref k) c.ref k) c.ref k) c.ref

/-- The same where the element no longer wakes its sequence. -/
def moveOn (s : State) (c : CmdRef) (k : Nat) : State := advanceElem s ⟨c, [], true, []⟩ k

/-! ### Prefetch (R65, R149) -/

def prefetchFor (s : State) (c : CmdRef) (e : Elem) : State :=
  match elemSeq s c e with
  | none => s
  | some q =>
    let x := s.part c.part
    let m := modelOf' s c
    let depth := Nat.min 2 x.regs.prefetchDepth
    let sets := (q.pt.take (ceilDiv e.extent 256)).map fun t => t.psn
    (List.range depth).foldl
      (fun s d =>
        let layer := (cLayer (wordOf s c) + 1 + d) % m.layers
        sets.foldl (fun s n => prefetchPage s c.part n layer q.homeQ (q.pt.length * m.footprint)) s)
      s

/-! ### The start (R167, R170 to R172) -/

/-- The elements checked, and those that pass reserved, in list order. -/
def checkElements (c : CmdStep) (f : Flight) : Nat → Nat → List Nat → List Elem → State → State × List Elem
  | 0, _, _, es, s => (s, es)
  | n + 1, k, before, es, s =>
    let t := elementEntry s c.ref.part f.word k
    let r := elementCheck s c f t before
    if r.1 ≠ 0 then checkElements c f n (k + 1) (before ++ [t.handle]) (es ++ [r.2.fail r.1]) s
    else
      let w := writesKv (cOpcode f.word)
      let s := if w then reserve s c.ref f (cLayer f.word) r.2 else s
      let s := hostIn s c.ref (elementPcie ((s.part c.ref.part).model (cModel f.word)) f.word r.2)
      checkElements c f n (k + 1) (before ++ [t.handle]) (es ++ [{ r.2 with held := w }]) s

/-- The start of append, attend and extend (DEDUCED, assumption log 68). -/
def startAttention (s : State) (c : CmdStep) (_ : Slot) (f : Flight) : Start :=
  match attentionCheck s c.ref.part c.bad f.word with
  | some st => .reject s st
  | none =>
    let w := f.word
    let n := cN w
    let s := if cListPw w then s else hostIn s c.ref (64 * n)
    let r := checkElements c f n 0 [] [] s
    let m := (s.part c.ref.part).model (cModel w)
    let good := r.2.filter fun e => e.status = 0 && readsQ (cOpcode w)
    let ch := fitChunk r.1 c.ref.part m good 11 (chunkOf m (good.map fun e => (e.count, e.extent)))
    let s := setStage (setPlan r.1 c.ref (.attention ch r.2)) c.ref (.waiting .units)
    let s := settleCommand s c.ref
    let s := (List.range n).foldl (fun s k => advanceElem s c k) s
    .go (if readsQ (cOpcode w) then (r.2.filter fun e => e.status = 0).foldl (fun s e => prefetchFor s c.ref e) s else s)

/-! ### Commit (R80, R83, R84, R168, R337) -/

/-- A new page set with its layer-0 staging page, full at a moment of the use counter; HEAT 0 and LAST_ADD 0
(DEDUCED, assumption log 139). -/
def newSet (model index now uses : Nat) (tokens : List Word) (frame : Nat) : PageSet where
  model := model
  index := index
  dir := false
  full := false
  pinEpoch := false
  releasing := false
  layersFlushed := 0
  refs := 1
  pins0 := 0
  pins1 := 0
  digest := 0
  tokens := tokens
  loc := [(0, ⟨.staging, 0, frame⟩)]
  heat := 0
  touch := now
  lastAdd := 0
  moving := false
  tents := []
  old := []
  staged := [(0, uses)]

/-- A completed page becomes a full staging page: of a new page set for layer 0, of the existing one for another layer. -/
def completePage (s : State) (p i layer k frame : Nat) (tokens : List Word) (q : Seq) : State :=
  let u := s.uses + 1
  let s := { s with uses := u }
  if layer = 0 then
    let n := freshPsn (s.part p) q.homeQ
    let s := s.onPart p fun x => { x with sets := Map.put x.sets n (newSet q.model k s.nowS u tokens frame) }
    (s.onSeq p i fun q => { q with pt := q.pt ++ [⟨n, false⟩] }).onPart p fun x => x.fitTables i
  else
    match q.pt[k]? with
    | none => s
    | some t => s.onSet p t.psn fun d => { d with loc := Map.put d.loc layer ⟨.staging, 0, frame⟩, staged := Map.put d.staged layer u }

/-- The tail page of the layer brought into DRAM, where new positions go into it. -/
def homeTail (s : State) (p i layer : Nat) (m : Model) (frame : Option Nat) : State :=
  let s := promoteTail s p i layer
  let s := dropTailTent s p i layer
  match (s.part p).seq i with
  | none => s
  | some q =>
    let l := Map.get q.tails layer Loc.none
    match frame with
    | none => s
    | some f =>
      if l.tier = 0 then freeObject s p f
      else
        let b := (s.part p).badAt l
        let s := (newObject s p f m.stagingFrames ((s.part p).bytesAt l)).onPart p fun x => x.setBad ⟨.page, 0, f⟩ b
        freeLoc (s.onSeq p i fun q => { q with tails := Map.put q.tails layer ⟨.page, 0, f⟩ }) p l

/-- Whether a sector of a staging or tail page is wholly written by n positions from slot lo (R441). -/
def coversSector (m : Model) (lo n k : Nat) : Bool :=
  (List.range m.kvHeads).any fun h => [false, true].any fun v =>
    stagingOff m v h lo ≤ 256 * k && 256 * k + 256 ≤ stagingOff m v h lo + n * m.headDim

/-- Vectors of the new positions written to a DRAM page. -/
def fillPage (s : State) (p frame : Nat) (m : Model) (lo : Nat) (vecs : List (List Byte × List Byte)) : State :=
  let old := Map.get (s.part p).dram frame ⟨0, [], []⟩
  let s := touchDram s p frame 0 (vecs.length * 2 * m.headDim) true false
  let bad := old.bad.filter fun k => !coversSector m lo (vecs.length / m.kvHeads) k
  s.onPart p fun x => (putDram x frame m.stagingFrames (overlayPage m old.data lo vecs)).setBad ⟨.page, 0, frame⟩ bad

/-- STEP_CLOSE (R83). -/
def closeStep (s : State) (p i layers : Nat) : State :=
  s.onSeq p i fun q =>
    if (List.range layers).all fun l => q.layerDone.getLsbD l then { q with stepBase := q.length, layerDone := 0, layerRsv := 0 } else q

/-- The commit of one element's new positions. -/
def commitKv (s : State) (c : CmdRef) (layer : Nat) (e : Elem) : State :=
  let p := c.part
  let i := handleIndex e.handle
  match (s.part p).handle e.handle with
  | none => s
  | some q0 =>
    let m := (s.part p).model q0.model
    let g := growth e.pos e.count
    let away := tailAway q0 layer g.fill
    let s := if g.fill = 0 then s else homeTail s p i layer m (if away then e.newFrames.head? else none)
    match (s.part p).seq i with
    | none => s
    | some q =>
      let fresh := if away then e.newFrames.drop 1 else e.newFrames
      let first := Nat.min e.count (256 - g.fill)
      let vec := fun (lo n : Nat) => (e.stored.drop (lo * m.kvHeads)).take (n * m.kvHeads)
      let tail := (Map.get q.tails layer Loc.none).frame
      -- positions in the current tail page
      let s := if g.fill = 0 then s else fillPage s p tail m g.fill (vec 0 first)
      let toks := q.tokenTail.take g.fill ++ e.ids
      let pages := (if g.fill ≠ 0 && 1 ≤ g.completed then [tail] else []) ++ fresh
      let start := if g.fill = 0 then 0 else first
      let s := fresh.zipIdx.foldl (fun s a => fillPage s p a.1 m 0 (vec (start + 256 * a.2) 256)) s
      let s := pages.zipIdx.foldl (fun s a => completePage s p i layer (e.pos / 256 + a.2) a.1 ((toks.drop (256 * a.2)).take 256) q) s
      let rest := (e.pos + e.count) % 256
      let s := if g.newTail then fillPage s p e.tailFrame m 0 (vec (e.count - rest) rest) else s
      let s := s.onSeq p i fun q =>
        { q with
          tails := if g.newTail then Map.put q.tails layer ⟨.page, 0, e.tailFrame⟩
            else if g.fill ≠ 0 && 1 ≤ g.completed then Map.del q.tails layer else q.tails
          layerDone := q.layerDone ||| (1 : BitVec 256) <<< layer
          layerRsv := q.layerRsv ||| (1 : BitVec 256) <<< layer
          length := if layer = 0 then e.pos + e.count else q.length
          tokenTail := if layer = 0 then toks.drop (256 * g.completed) else q.tokenTail }
      closeStep s p i m.layers

/-- A committed reader: what it read from tentative copies becomes the home (R150). -/
def commitRead (s : State) (c : CmdRef) (layer : Nat) (e : Elem) : State :=
  let s := e.touched.foldl (fun s t => promote s c.part t.1 t.2) s
  promoteTail s c.part (handleIndex e.handle) layer

/-- The flag of an element's group (R337): the last output bytes (DEDUCED, assumption log 66). -/
def sendFlag (s : State) (c : CmdRef) (k : Nat) (cmd : Option CmdRef) : State :=
  match elemOf s c k with
  | none => s
  | some e =>
    match e.remote with
    | none => s
    | some r =>
      let ps := pieces (outData e)
      let off := 4096 * (ps.length - 1)
      let s := enqueue s c.part r.qp (fun peer => packetTo s c.part r.qp peer 0x00 r.group e.out off 0 true (ps.getLastD [])) cmd
      setElem s c k fun e => { e with remote := some { r with flagged := true } }

/-- The writes of step 4: outputs, log-sum-exp values, and status words (R165, R168). -/
def attentionWrites (w : List Byte) (es : List Elem) : List (Nat × List Byte) :=
  (es.filter fun e => e.status = 0 && !e.isRemote && readsQ (cOpcode w)).flatMap (fun e =>
      (e.out, outData e) :: (if e.lseOut = 0 then [] else [(e.lseOut, lseData e)])) ++
    (if cStatus w = 0 then [] else es.zipIdx.map fun e => (cStatus w + 4 * e.2, leBytes 4 e.1.status))

/-- Elements whose remote groups have failed end with REMOTE_FAIL (R167 item 13). -/
def remoteFailures (s : State) (c : CmdRef) (es : List Elem) : State :=
  es.zipIdx.foldl
    (fun s e => match e.1.remote with
      | some r => if e.1.status = 0 && r.failed then
          (failElem (dropGroup s c.part r.qp c r.group) c e.2 St.remoteFail) else s
      | none => s) s

def elemsOf (s : State) (c : CmdRef) : List Elem :=
  match s.flight c with
  | some f => match f.plan with
    | .attention _ es => es
    | _ => []
  | none => []

/-- The commit point itself. -/
def attentionDone (s : State) (c : CmdRef) (f : Flight) : Commit :=
  let w := f.word
  let op := cOpcode w
  let layer := cLayer w
  let es := elemsOf s c
  let good := es.filter fun e => e.status = 0
  let bad := es.filter fun e => e.status ≠ 0
  let s := if writesKv op then good.foldl (fun s e => commitKv s c layer e) s else s
  let s := if readsQ op then good.foldl (fun s e => commitRead s c layer e) s else s
  let s := good.foldl (fun s e => s.onSeq c.part (handleIndex e.handle) fun q => { q with lastUse := s.nowS }) s
  let s := es.zipIdx.foldl (fun s e => match e.1.remote with
    | some r => if e.1.status = 0 && !r.flagged then sendFlag s c e.2 none else s
    | none => s) s
  let s := good.foldl (fun s e => e.outFrames.foldl (fun s n => freeObject s c.part n) s) s
  let held := fun e : Elem => e.held && f.rsv.contains (handleIndex e.handle, layer)
  let s := bad.foldl (fun s e => if held e then releaseReservation s c.part c (handleIndex e.handle, layer) else s) s
  let lenOf := fun e : Elem => match (s.part c.part).seq (handleIndex e.handle) with
    | some q => q.length
    | none => 0
  let res1 := match es.head? with
    | some e => if e.status ≠ 0 then 0 else if op = Op.attend then e.extent else lenOf e
    | none => 0
  let outs := attentionWrites w es
  .done (setPlan s c .none) (if bad = [] then St.success else St.elementFail) bad.length res1 outs

/-- Step 2 of R49 for elements: a handle that is no longer valid fails its element (R91). -/
def staleElems (s : State) (c : CmdRef) (f : Flight) : State :=
  if f.excepted then s
  else
    (elemsOf s c).zipIdx.foldl
      (fun s e => if e.1.status = 0 && (elemSeq s c e.1).isNone then failElem s c e.2 St.invalidHandle else s) s

def commitAttention (s : State) (c : CmdRef) (_ : Slot) (f : Flight) : Commit :=
  let w := f.word
  let s := staleElems s c f
  let es := elemsOf s c
  let good := es.filter fun e => e.status = 0
  let waits := writesKv (cOpcode w) && cLayer w ≠ 0 && good.any fun e => match (s.part c.part).seq (handleIndex e.handle) with
    | some q => !q.layerDone.getLsbD 0
    | none => false
  if waits then .hold s
  else
    let s := remoteFailures s c es
    let es := elemsOf s c
    let open1 := es.any fun e => e.status = 0 && (match e.remote with
      | some r => !((s.part c.part).qp r.qp).clear c
      | none => false)
    let lost := es.any fun e => e.status = St.remoteFail && (match e.remote with
      | some r => r.flagged
      | none => false)
    if open1 then .hold s
    else if lost then .reject s St.remoteFail  -- R346
    else
      match es with
      | [e] => if e.status ≠ 0 then .reject s e.status else mirrored s c f es
      | _ => mirrored s c f es
where
  /-- R345: a mirrored group is committed when its second flag is acknowledged, so its flag goes first. -/
  mirrored (s : State) (c : CmdRef) (f : Flight) (es : List Elem) : Commit :=
    let late := es.zipIdx.filter fun e => e.1.status = 0 && (match e.1.remote with
      | some r => !r.flagged && ((s.part c.part).qp r.qp).mirrored
      | none => false)
    if late = [] then attentionDone s c f
    else .hold (setStage (late.foldl (fun s e => sendFlag s c e.2 (some c)) s) c (.waiting .mirrorFlag))

/-! ### kernel_run (R229) -/

def kInstances (w : List Byte) : Nat := field w 0x12 2
def kIn (w : List Byte) : Nat := field w 0x18 8
def kOut (w : List Byte) : Nat := field w 0x20 8
def kInBytes (w : List Byte) : Nat := field w 0x28 4
def kOutBytes (w : List Byte) : Nat := field w 0x2C 4
def kInPw (w : List Byte) : Bool := bit (field w 0x11 1) 0

/-- R241: tiles of a quadrant that hold nothing and are not retired. -/
def tileOf (s : State) (t : Nat) : Tile := Map.get s.sched.tiles t Tile.reset
def quadTiles (q : Nat) : List Nat := (List.range 256).map fun i => 256 * q + i
def isIdle (s : State) (t : Nat) : Bool := let x := tileOf s t; x.running = none && x.next = none && !x.retired
def idleIn (s : State) (q : Nat) : Nat := ((quadTiles q).filter (isIdle s)).length

/-- The quadrant with the most idle tiles, the lowest on a tie. -/
def idlestQuad (s : State) : Nat := (leastBy (fun q => 256 - idleIn s q) [0, 1, 2, 3]).getD 0

def startKernelRun (s : State) (c : CmdStep) (_ : Slot) (f : Flight) : Start :=
  let w := f.word
  let p := c.ref.part
  let x := s.part p
  let k := field w 0x10 1
  let n := kInstances w
  if k = 0 || n = 0 || 1024 < n || kIn w % 64 ≠ 0 || kOut w % 64 ≠ 0 || 131072 < kInBytes w || kInBytes w % 64 ≠ 0 ||
      131072 < kOutBytes w || kOutBytes w % 64 ≠ 0 || (kInPw w && x.sliceBytes < kIn w + n * kInBytes w) then .reject s St.operandRange
  else if !kernelOk x k 3 then .reject s St.noKernel
  else if !kInPw w && !readOk c.bad (kIn w) (n * kInBytes w) then .reject s St.operandFault
  else
    let quad := idlestQuad s
    match allocAll p quad none (List.replicate (ceilDiv (n * kOutBytes w) 65536) 1) s with
    | .none s => .reject s St.noSpace
    | .wait s => .go (waitFor s c.ref .alloc Stall.dramAlloc)
    | .got s fs =>
      let s := if kInPw w then s else hostIn s c.ref (n * kInBytes w)
      let s := setStage (setPlan s c.ref (.kernelRun [] n fs)) c.ref (.waiting .units)
      let s := activate s p quad
      .go ((List.range n).foldl
        (fun s i => addUnit s { blankUnit with
          part := p, slot := c.ref.slot, index := c.ref.index, elem := i, kind := .kernel, quad := quad, bestEffort := bestEffort s p
          order := f.order * 16 * 2 ^ 32 + i }) s)

def commitKernelRun (s : State) (c : CmdRef) (_ : Slot) (f : Flight) : Commit :=
  match f.plan with
  | .kernelRun outs _ fs =>
    let s := fs.foldl (fun s n => freeObject s c.part n) s
    .done (setPlan s c .none) St.success (kInstances f.word) 0 (outs.map fun o => (kOut f.word + o.1 * kOutBytes f.word, o.2))
  | _ => .kill s

end Sys2Proof.Machine
end

