-- ==== Sys2Proof/Machine/Account.lean ====
section
/-! DEFINITION. The fence, account and event commands (R58, R230, R231), and the accounting record (R265 to R270). -/

namespace Sys2Proof.Machine

open Sys2Proof

/-! ### nop, fence, event_post -/

def startNop (s : State) (c : CmdStep) (_ : Slot) (_ : Flight) : Start := request s c.ref
def commitNop (s : State) (_ : CmdRef) (_ : Slot) (_ : Flight) : Commit := .done s St.success 0 0 []

def startFence (s : State) (c : CmdStep) (_ : Slot) (_ : Flight) : Start := request s c.ref
def commitFence (s : State) (_ : CmdRef) (_ : Slot) (_ : Flight) : Commit := .done s St.success 0 0 []

def startEventPost (s : State) (c : CmdStep) (_ : Slot) (_ : Flight) : Start := request s c.ref
def commitEventPost (s : State) (_ : CmdRef) (_ : Slot) (f : Flight) : Commit :=
  .done s St.success (field f.word 0x10 4) (field f.word 0x14 4) []

/-! ### wait and signal (R58, R230, R231) -/

def cCtr (w : List Byte) : Nat := field w 0x10 1
def cTimeout (w : List Byte) : Nat := field w 0x14 4
def cValue (w : List Byte) : Nat := field w 0x18 8

def startWait (s : State) (c : CmdStep) (_ : Slot) (f : Flight) : Start :=
  let w := f.word
  let v := ((s.part c.ref.part).counter (cCtr w)).toNat
  if 4000000 < cTimeout w then .reject s St.operandRange
  else if cValue w ≤ v then request (setPlan s c.ref (.waitEnd false v)) c.ref
  else if cTimeout w = 0 then request (setPlan s c.ref (.waitEnd true v)) c.ref
  else .go (setStage s c.ref (.waiting .counter))

/-- DEDUCED, assumption log 141. -/
def commitWait (s : State) (_ : CmdRef) (_ : Slot) (f : Flight) : Commit :=
  match f.plan with
  | .waitEnd late v => .done s (if late then St.timeout else St.success) (v % 2 ^ 32) (v / 2 ^ 32) []
  | _ => .hold s

def startSignal (s : State) (c : CmdStep) (_ : Slot) (_ : Flight) : Start := request s c.ref

/-- The command's own update, and the value that its record shows: the one after the header's increment too (R231)
(DEDUCED, assumption log 141). -/
def commitSignal (s : State) (c : CmdRef) (_ : Slot) (f : Flight) : Commit :=
  let w := f.word
  let k := cCtr w
  let own := BitVec.ofNat 64 (cValue w)
  let v := if bit (cByte11 w) 0 then own else (s.part c.part).counter k + own
  let shown := if cSignal w && cSigCtr w = k then v + BitVec.ofNat 64 (cSigInc w) else v
  .done (setCounter s c.part k v) St.success (shown.toNat % 2 ^ 32) (shown.toNat / 2 ^ 32) []

/-! ### The accounting record (R265 to R270) -/

/-- R266: whole microseconds of a time in hc; 1,600 hc are 1 µs. -/
def hcToUs (n : Nat) : Nat := n / 1600

/-- R270. -/
def thermalCode (s : State) (x : Part) : Nat := if s.power.emerg then 2 else Bool.bit x.acct.lastOver

/-- R267: the charge, in pJ, of the bytes that a partition has moved. -/
def bytesPj (a : Acct) : Nat :=
  2 * a.t0 + 35 * (a.t1Rd + a.t1Wr) / 2 + 41 * (a.t2Rd + a.t2Wr + a.pcieIn + a.pcieOut) + 130 * (a.t3Rd + a.t3Wr) + 22 * (a.fabricTx + a.fabricRx)

/-- Energy charged since the end of the last window, and carried into it, in pJ (R266). -/
def pendingPj (a : Acct) : Nat := a.energyPj + a.tilePjWindow + (bytesPj a - a.chargedPj)

def acctRecord (s : State) (p : Nat) : List Byte :=
  let x := s.part p
  let a := x.acct
  let q := fun n : Nat => leBytes 8 n
  leBytes 2 1 ++ leBytes 2 256 ++ leBytes 1 p ++ leBytes 1 (Bool.bit s.sched.classMode) ++ leBytes 1 (thermalCode s x) ++ [0] ++
    leBytes 4 s.nowS ++ leBytes 4 a.windows.toNat ++ q (hcToUs a.tileHc) ++ q (hcToUs a.snareHc) ++ q (hcToUs a.lostHc) ++
    q a.units ++ q a.committed ++ q a.killed ++ q a.t0 ++ q a.t1Rd ++ q a.t1Wr ++ q a.t2Rd ++ q a.t2Wr ++ q a.t3Rd ++ q a.t3Wr ++
    q a.pcieIn ++ q a.pcieOut ++ q a.fabricTx ++ q a.fabricRx ++ q a.energyMj ++ leBytes 4 a.overSlice.toNat ++
    leBytes 4 (1000 * x.grant.sliceW) ++ List.replicate 88 0

def startAcctRead (s : State) (c : CmdStep) (_ : Slot) (f : Flight) : Start :=
  if field f.word 0x14 4 < 256 || cAddr18 f.word % 64 ≠ 0 then .reject s St.operandRange else request s c.ref

def commitAcctRead (s : State) (c : CmdRef) (_ : Slot) (f : Flight) : Commit :=
  .done s St.success 256 0 [(cAddr18 f.word, acctRecord s c.part)]

end Sys2Proof.Machine
end

