-- ==== Sys2Proof/Machine/Units.lean ====
section
/-! DEFINITION. Work units on the tiles (R240 to R257): the choice of a partition and of a unit, placement, gangs, the snare lane, the start of
a unit with its reads and kernel calls, its end, yields and evictions; and the teardown of a job that faults (R262 to R264). -/

namespace Sys2Proof.Machine

open Sys2Proof

def State.unit (s : State) (u : Nat) : Option Unit := Map.look s.sched.units u
def State.onTile (s : State) (t : Nat) (g : Tile → Tile) : State :=
  s.onSched fun d => { d with tiles := Map.put d.tiles t (g (Map.get d.tiles t Tile.reset)) }

def Unit.cmd (u : Unit) : CmdRef := ⟨u.part, u.slot, u.index⟩

def unitsRunning (s : State) (q : Nat) : List (Nat × Unit) :=
  s.sched.units.filter fun e => e.2.quad = q && (match e.2.place with
    | .running _ => true
    | _ => false)

/-! ### Choosing (R245, R249, R252) -/

def readyIn (s : State) (q : Nat) : List (Nat × Unit) := s.sched.units.filter fun e => e.2.place = .ready && e.2.quad = q

/-- The order of R245. -/
def unitKey (u : Unit) : Nat :=
  (if u.snare then 0 else if u.hasYielded || u.hasEvicted then 1 else 2) * 2 ^ 200 + u.order

/-- The partition with the least virtual time, the lower number on a tie. -/
def leastVtime (s : State) (q : Nat) : List Nat → Option Nat
  | [] => none
  | p :: r =>
    match leastVtime s q r with
    | none => some p
    | some o => if vtimeOf s o q < vtimeOf s p q || (vtimeOf s o q = vtimeOf s p q && o < p) then some o else some p

/-- Partitions with ready units in a quadrant. -/
def readyParts (s : State) (q : Nat) : List Nat := dedup ((readyIn s q).map fun e => e.2.part)

/-- R252: a tile that becomes free in a quadrant goes to a best-effort unit: some are ready, and fewer than BE_MIN tiles run any. -/
def beTurn (s : State) (q : Nat) : Bool :=
  s.sched.classMode && (readyParts s q).any (bestEffort s) && ((unitsRunning s q).filter fun e => e.2.bestEffort).length < s.sched.beMin

/-- R249 in share mode, R252 in class mode; free says that the unit goes to a tile that is free. -/
def choosePart (s : State) (q : Nat) (free : Bool) : Option Nat :=
  let ps := readyParts s q
  if !s.sched.classMode then leastVtime s q ps
  else
    let be := ps.filter (bestEffort s)
    let lc := ps.filter fun p => !bestEffort s p
    if (free && beTurn s q) || lc = [] then leastVtime s q be else leastVtime s q lc

def pointerOf (s : State) (q : Nat) : Nat := Map.get s.sched.pointer q 0
def movePointer (s : State) (q : Nat) : State := s.onSched fun d => { d with pointer := Map.put d.pointer q ((pointerOf s q + 1) % 16) }

/-- R242 rule 1: the idle tile that the scan finds. -/
def idleTile (s : State) (q : Nat) : Option Nat :=
  ((List.range 16).flatMap fun g => (List.range 16).map fun i => 256 * q + 16 * ((pointerOf s q + g) % 16) + i).find? (isIdle s)

/-- The ready unit of a partition that comes first (R245). A gang stands where its best member does (DEDUCED, assumption log 102). -/
def firstReady (s : State) (q p : Nat) : Option (Nat × Unit) :=
  leastBy (fun e : Nat × Unit => unitKey e.2) ((readyIn s q).filter fun e => e.2.part = p)

/-- The unit that the dispatcher of a quadrant offers next; a gang stands where the first of its ready members does (DEDUCED, assumption log 102). -/
def nextReady (s : State) (q : Nat) : Option (Nat × Unit) := (choosePart s q (idleTile s q).isSome).bind (firstReady s q)

/-- R181: the members of a unit's gang that are ready, in gang order. -/
def gangOf (s : State) (u : Unit) : List (Nat × Unit) :=
  if u.gang = 0 then []
  else sortBy (fun e : Nat × Unit => e.2.order)
    ((readyIn s u.quad).filter fun e => e.2.gang = u.gang && e.2.part = u.part && e.2.slot = u.slot && e.2.index = u.index && e.2.elem = u.elem)

/-! ### The start of a unit: its reads -/

/-- Ranges of an object in DRAM read by a unit; answers the first poisoned sector that they meet. -/
def readDram (s : State) (p frame : Nat) (l : List (Nat × Nat)) : State × Option Nat :=
  let bad := ((s.part p).badAt ⟨.page, 0, frame⟩).find? fun k => l.any fun r => r.1 < 256 * k + 256 && 256 * k < r.1 + r.2
  (l.foldl (fun s r => touchDram s p frame r.1 r.2 false false) s, bad)

/-- The outstanding read that serves a purpose for a partition. -/
def findRead (s : State) (p : Nat) (t : ReadReq → Bool) : Option Nat :=
  match s.reads.find? fun e => e.2.part = p && t e.2 with
  | some e => some (hostCode e.1)
  | none => (s.flash.reads.find? fun e => e.2.part = p && t e.2).map fun e => flashCode e.1

/-- An element fails on a poisoned sector (R440, R441). -/
def failPoison (s : State) (c : CmdRef) (k addr : Nat) : State :=
  let w := wordOf s c
  settleCommand (failElem (dramError s c.part addr St.mediaError (cOpcode w) (cTag w)) c k St.mediaError) c

/-- The pages that a unit reads: by page number, each with its page set, none for the tail, and its key blocks. -/
def unitSources (q : Seq) (layer own0 : Nat) (own : Bool) (blocks : List Nat) : List (Nat × Option Nat × List Nat) :=
  let bs := blocks.filter fun b => !own || 64 * b < own0
  let tail := q.lenOf layer / 256
  (dedup (bs.map fun b => b / 4)).map fun k =>
    (k, if k = tail then none else (q.pt[k]?).map fun t => t.psn, bs.filter fun b => b / 4 = k)

/-- Gang members that started together with a unit, and the key blocks that they read for it (R181). -/
structure Mates where
  units : List Nat
  blocks : List Nat

/-- The stream of a page that a gang member has begun: its read, or its wait for move-buffer space. -/
def mateStream (s : State) (p : Nat) (g : Mates) (what : ReadFor) : Option Nat :=
  match findRead s p fun r => r.what = what && r.unit.any g.units.contains with
  | some k => some k
  | none => ((s.part p).moves.find? fun e => match e.2.obj, what with
      | .transit u n l false, .stream m k => g.units.contains u && n = m && l = k
      | .transit u n l true, .streamTail m k => g.units.contains u && n = m && l = k
      | _, _ => false).map fun e => transitCode e.1

/-- A page outside DRAM streamed to a unit through the move buffers; a re-run after a yield or an eviction has its data (R30, R253, R256). -/
def streamOnce (s : State) (uid : Nat) (u : Unit) (g : Mates) (what : ReadFor) (o : MoveObj) : State :=
  if u.hasYielded || u.hasEvicted then s
  else match mateStream s u.part g what with
    | some k => addRead s uid k
    | none => streamTo s u.part uid o

/-- One page of a unit: read from DRAM, or from a tentative copy, or begun as a tentative copy or as a stream (R30, R129, R149). -/
def readPage (s : State) (uid : Nat) (u : Unit) (g : Mates) (c : CmdRef) (layer psn : Nat) (rs : LocKind → List (Nat × Nat)) : State :=
  let p := c.part
  match (s.part p).set psn with
  | none => s
  | some d =>
    let l := Map.get d.loc layer Loc.none
    let note := fun s : State => setElem s c u.elem fun e =>
      { e with touched := if e.touched.contains (psn, layer) then e.touched else e.touched ++ [(psn, layer)] }
    let dram := fun (s : State) (kind : LocKind) (f : Nat) =>
      let r := readDram s p f (rs kind)
      match r.2 with
      | some k => failPoison r.1 c u.elem (f * 65536 + 256 * k)
      | none => r.1
    if l.tier = 0 then dram s l.kind l.frame
    else
      match Map.look d.tents layer with
      | some t =>
        if t.complete then dram (note s) .page t.frame
        else match findRead s p fun r => r.what = .tentative psn layer with
          | some k => addRead (note s) uid k
          | none => s
      | none =>
        let stream := fun s : State => streamOnce s uid u g (.stream psn layer) (.transit uid psn layer false)
        if freeAboveLow s (s.part p) then
          match beginTent s p psn layer u.quad none with
          | some r => addRead (note r.1) uid (codeOf l.tier r.2)
          | none => stream s
        else stream s

/-- The tail page of a unit, as far as it lies outside DRAM (DEDUCED, assumption log 29). -/
def readTail (s : State) (uid : Nat) (u : Unit) (g : Mates) (c : CmdRef) (i layer : Nat) (rs : List (Nat × Nat)) : State :=
  let p := c.part
  match (s.part p).seq i with
  | none => s
  | some q =>
    let l := Map.get q.tails layer Loc.none
    let dram := fun (s : State) (f : Nat) =>
      let r := readDram s p f rs
      match r.2 with
      | some k => failPoison r.1 c u.elem (f * 65536 + 256 * k)
      | none => r.1
    if l.kind = .empty then s
    else if l.tier = 0 then dram s l.frame
    else
      match Map.look q.tailTents layer with
      | some t =>
        if t.complete then dram s t.frame
        else match findRead s p fun r => r.what = .tailTentative i layer with
          | some k => addRead s uid k
          | none => s
      | none =>
        let stream := fun s : State => streamOnce s uid u g (.streamTail i layer) (.transit uid i layer true)
        if freeAboveLow s (s.part p) then
          match beginTailTent s p i layer none with
          | some r => addRead r.1 uid (codeOf l.tier r.2)
          | none => stream s
        else stream s

/-- The pages of an attend unit, each pinned once before its location word is read (R78); the unit evaluates them as it finds them now
(R92, R189, R208). -/
def takeSources (s : State) (uid : Nat) (c : CmdRef) (q : Seq) (layer : Nat) (l : List (Nat × Option Nat × List Nat)) : State :=
  let s := pinFor s c (l.filterMap fun a => a.2.1)
  s.onUnit uid fun x => { x with src := l.map fun a => (a.1, pageSource (s.part c.part) q layer a.1) }

/-- The reads of a unit as it starts (DEDUCED, assumption log 107). -/
def startReads (s : State) (uid : Nat) (u : Unit) (g : Mates) : State :=
  let c := u.cmd
  match u.kind, elemOf s c u.elem with
  | .kernel, _ => s
  | _, none => s
  | .append, some e =>
    match elemSeq s c e with
    | none => s
    | some q =>
      let layer := cLayer (wordOf s c)
      let n := growth e.pos e.count
      if tailAway q layer n.fill then readTail s uid u g c (handleIndex e.handle) layer [] else s
  | .attend, some e =>
    match elemSeq s c e with
    | none => s
    | some q =>
      let w := wordOf s c
      let m := modelOf' s c
      let layer := cLayer w
      let l := unitSources q layer e.pos (cOpcode w = Op.extend) (unitBlocks e u.rowList u.keyLo u.keyHi)
      l.foldl
        (fun s a =>
          let bs := a.2.2.filter fun b => !g.blocks.contains b
          let rs := fun kind : LocKind => bs.flatMap fun b => blockRanges m kind u.head0 u.heads (64 * (b % 4)) 64
          if (s.unit uid).isNone then s
          else match a.2.1 with
            | some psn => readPage s uid u g c layer psn rs
            | none => readTail s uid u g c (handleIndex e.handle) layer (rs .staging)) (takeSources s uid c q layer l)

/-! ### Kernel calls of a unit (R173, R174, R229) -/

/-- Draw numbers that a call takes for its undefined registers. -/
def callDraws : Nat := 4096

/-- A call whose registers are the given ones. -/
def mkCall (base : Nat) (sc : List Word) (vs : List (List Word)) (ps : List (BitVec 64)) (win : List Byte) : KCall where
  base := base
  scalars := sc.zipIdx.map fun e => (e.2, e.1)
  vectors := vs.zipIdx.map fun e => (e.2, e.1)
  preds := ps.zipIdx.map fun e => (e.2, e.1)
  window := (win.zipIdx.filter fun e => e.1 != 0).map fun e => (e.2, e.1)

def w32 (n : Nat) : Word := BitVec.ofNat 32 n

/-- A head vector in the four registers of R173. -/
def headRegs (v : List Word) : List (List Word) := chunks 64 4 (v ++ List.replicate (256 - v.length) 0)

/-- The calls of the position kernel for the new keys of an element. -/
def keyCalls (m : Model) (layer : Nat) (e : Elem) (base : Nat) : List (CallFor × KCall) :=
  (e.keys.zipIdx).map fun k =>
    let i := k.2 / m.kvHeads
    let h := k.2 % m.kvHeads
    (.key i h, mkCall (base + callDraws * k.2) [w32 (e.pos + i), w32 h, 0, w32 layer] (headRegs k.1) [] [])

/-- The rows of a unit as pairs of position and query head. -/
def unitRows (m : Model) (u : Unit) : List (Nat × Nat) :=
  u.rowList.flatMap fun i => (List.range (u.heads * m.qPerKv)).map fun k => (i, u.head0 * m.qPerKv + k)

/-- DEDUCED, assumption log 162. -/
def queryCalls (m : Model) (layer : Nat) (e : Elem) (rows : List (Nat × Nat)) (base : Nat) : List (CallFor × KCall) :=
  rows.zipIdx.map fun r =>
    let q := e.queries.getD (r.1.1 * qHeads m + r.1.2) []
    (.query r.1.1 r.1.2, mkCall (base + callDraws * r.2) [w32 (e.rowPos r.1.1), w32 r.1.2, 1, w32 layer] (headRegs q) [] [])

def resultOf (u : Unit) (what : CallFor) : Option KCall :=
  u.kernel.bind fun k => (k.results.find? fun r => r.1 = what).map Prod.snd

/-- A vector register, a listed one or free values (DESIGN CHOICE, assumption log 69). -/
def KCall.v (c : KCall) (n : Nat) : List Word :=
  match Map.look c.vectors n with
  | some l => l
  | none => (List.range 64).map fun j => Config.freeWord (c.base + 64 + 64 * n + j)

/-- DESIGN CHOICE, assumption log 69. -/
def KCall.s (c : KCall) (n : Nat) : Word := (Map.look c.scalars n).getD (Config.freeWord (c.base + n))

/-- DESIGN CHOICE, assumption log 69. -/
def KCall.p (c : KCall) (n : Nat) : BitVec 64 :=
  (Map.look c.preds n).getD (BitVec.ofNat 64 ((Config.freeWord (c.base + 33 + 2 * n)).toNat * 2 ^ 32 + (Config.freeWord (c.base + 32 + 2 * n)).toNat))

/-- The query head vector that a row uses: as given, or as the position kernel leaves it. -/
def rowQuery (m : Model) (e : Elem) (i h : Nat) : List Word :=
  if m.posKernel = 0 then e.queries.getD (i * qHeads m + h) [] else Map.get e.called (i * qHeads m + h) []

def scoreCalls (m : Model) (e : Elem) (u : Unit) (layer hook : Nat) (own : Bool) (base : Nat) : List (CallFor × KCall) :=
  let bs := unitBlocks e u.rowList u.keyLo u.keyHi
  let l := (unitRows m u).flatMap fun r =>
    let f := queryForms m (rowQuery m e r.1 r.2)
    bs.map fun b => (r, f, b)
  l.zipIdx.map fun a =>
    let i := a.1.1.1
    let h := a.1.1.2
    let b := a.1.2.2
    (.score i h b, mkCall (base + callDraws * a.2)
      [w32 (e.rowPos i), w32 (64 * b), w32 h, w32 layer, w32 (handleIndex e.handle), w32 hook]
      [blockScores u.src m e own h a.1.2.1 b] [BitVec.ofNat 64 (visBits e i b)] [])

/-- The first waiting call loaded into the registers. -/
def KMachine.load (x : Part) (k : KMachine) : KMachine :=
  match k.queue with
  | [] => { k with active := false }
  | (w, c) :: r =>
    { k with active := true, what := w, regs := c, queue := r, steps := 0
             pc := match Map.look x.kernels k.kernel with
               | some e => e.entry
               | none => 0 }

def blankCall : KCall := ⟨0, [], [], [], []⟩

def setCalls (s : State) (uid p kernel : Nat) (l : List (CallFor × KCall)) : State :=
  let s := { s with draws := s.draws + callDraws * l.length }
  s.onUnit uid fun u =>
    let old := match u.kernel with
      | some k => k.results
      | none => []
    { u with kernel := some (KMachine.load (s.part p) ⟨kernel, false, .perInst, 0, 0, blankCall, l, old⟩) }

/-- The element's query head vectors that a unit's calls have returned are the element's: each is called for once (R173, R185). -/
def keepCalls (s : State) (uid : Nat) : State :=
  match s.unit uid with
  | none => s
  | some u =>
    let m := modelOf' s u.cmd
    let got := match u.kernel with
      | some k => k.results.filterMap fun r => match r.1 with
          | .query i h => some (i * qHeads m + h, ((List.range 4).flatMap r.2.v).take m.headDim)
          | _ => none
      | none => []
    if u.kind = .attend && got ≠ [] then setElem s u.cmd u.elem fun e => { e with called := got.foldl (fun l r => Map.put l r.1 r.2) e.called }
    else s

/-- Rows whose query head vectors a unit's kernel is being called for. -/
def Unit.calling (u : Unit) : List (Nat × Nat) :=
  match u.kernel with
  | none => []
  | some k => ((if k.active then [k.what] else []) ++ k.queue.map fun a => a.1).filterMap fun w => match w with
      | .query i h => some (i, h)
      | _ => none

/-- The rows of a unit that the position kernel has not been called for; and whether all its rows have returned. -/
def uncalled (s : State) (m : Model) (c : CmdRef) (e : Elem) (uid : Nat) (u : Unit) : List (Nat × Nat) × Bool :=
  let open1 := (unitRows m u).filter fun r => !Map.has e.called (r.1 * qHeads m + r.2)
  let busy := (s.sched.units.filter fun o => o.1 ≠ uid && o.2.isOf c && o.2.elem = u.elem).flatMap fun o => o.2.calling
  (open1.filter fun r => !busy.contains r, open1 = [])

/-- The calls of the unit's next kernel stage; stage 2 has none. In stage 0 a unit waits for the calls that another unit of its element makes
for its rows (DEDUCED, assumption log 162). -/
def enterStage (s : State) (uid : Nat) : State :=
  match s.unit uid with
  | none => s
  | some u =>
    let c := u.cmd
    let w := wordOf s c
    match u.kind with
    | .kernel =>
      if u.stage ≠ 0 then s
      else
        let b := operandBytes s c.part (kInPw w) (kIn w + u.elem * kInBytes w) (kInBytes w)
        let call := mkCall s.draws [w32 u.elem, w32 (field w 0x14 4), w32 (kInstances w)] [] [] b
        setCalls (s.onUnit uid fun u => { u with stage := 2 }) uid c.part (field w 0x10 1) [(.perInst, call)]
    | .append =>
      match elemOf s c u.elem with
      | none => s
      | some e =>
        let m := modelOf' s c
        if u.stage ≠ 0 || m.posKernel = 0 then s.onUnit uid fun u => { u with stage := 2 }
        else setCalls (s.onUnit uid fun u => { u with stage := 2 }) uid c.part m.posKernel (keyCalls m (cLayer w) e s.draws)
    | .attend =>
      match elemOf s c u.elem with
      | none => s
      | some e =>
        let m := modelOf' s c
        let open1 := if m.posKernel = 0 then ([], true) else uncalled s m c e uid u
        if u.stage = 2 then s
        else if open1.1 ≠ [] then setCalls s uid c.part m.posKernel (queryCalls m (cLayer w) e open1.1 s.draws)
        else if !open1.2 then s
        else if m.scoreKernel ≠ 0 then
          setCalls (s.onUnit uid fun u => { u with stage := 2 }) uid c.part m.scoreKernel
            (scoreCalls m e u (cLayer w) (cHookArg w) (cOpcode w = Op.extend) s.draws)
        else s.onUnit uid fun u => { u with stage := 2 }

/-- The units of an element that run and wait for calls of another (DEDUCED, assumption log 162). -/
def callWaiters (s : State) (c : CmdRef) (k : Nat) : List Nat :=
  (s.sched.units.filter fun o => o.2.isOf c && o.2.elem = k && o.2.kind = .attend && o.2.stage = 0 && o.2.calling = [] && (match o.2.place with
    | .running _ => true
    | _ => false)).map fun o => o.1

/-- A unit's calls have all returned: what they leave is kept, and units that wait go on with it. -/
def nextStage (s : State) (uid : Nat) : State :=
  match s.unit uid with
  | none => s
  | some u =>
    let s := enterStage (keepCalls s uid) uid
    (callWaiters s u.cmd u.elem).foldl enterStage s

/-- A unit leaves its tile before its end: what its calls returned is kept, and another unit makes the calls that are left. -/
def leaveCalls (s : State) (uid : Nat) : State :=
  match s.unit uid with
  | none => s
  | some u =>
    let s := (keepCalls s uid).onUnit uid fun x => { x with kernel := none, stage := 0 }
    ((callWaiters s u.cmd u.elem).filter fun o => o ≠ uid).foldl enterStage s

/-- The kernel of a unit has no call in progress or waiting. -/
def Unit.kernelIdle (u : Unit) : Bool :=
  u.stage = 2 && (match u.kernel with
    | some k => !k.active && k.queue = []
    | none => true)

/-! ### Placement (R242, R243, R248) -/

def quadState (s : State) (q : Nat) : QState := Map.get s.power.quads q .run

/-- The quadrant is entering Sleep and its dispatcher has accepted (R437) (DEDUCED, assumption log 169). -/
def sleepAccepted (s : State) (q : Nat) : Bool :=
  match s.power.entry with
  | some e => e.kind = .sleep q && e.accepted.contains 1
  | none => false

/-- A unit runs on a tile. -/
def runUnitWith (s : State) (uid tile : Nat) (g : Mates) : State :=
  match s.unit uid with
  | none => s
  | some u =>
    let n := s.sched.order
    let s := s.onSched fun d => { d with order := n + 1 }
    let s := s.onTile tile fun t => { t with running := some uid, next := if t.next = some uid then none else t.next }
    let s := s.onUnit uid fun u => { u with place := .running tile, startedAt := n, counted := 0, kernel := none, stage := 0 }
    noteCause (enterStage (chargeReads s uid u (startReads s uid u g)) uid) u.cmd
where
  /-- What the reads delivered is charged; of a run that follows an eviction, what the evicted run's reads were charged, so that the eviction
  does not show (R253, R271) (DEDUCED, assumption log 107). -/
  chargeReads (before : State) (uid : Nat) (u : Unit) (s : State) : State :=
    let a := (before.part u.part).acct
    let b := (s.part u.part).acct
    let t := u.took.getD (b.t0 - a.t0, b.t1Rd - a.t1Rd, b.t1Wr - a.t1Wr)
    (s.onAcct u.part fun b => { b with t0 := a.t0 + t.1, t1Rd := a.t1Rd + t.2.1, t1Wr := a.t1Wr + t.2.2 }).onUnit uid fun x =>
      { x with took := some t }

def runUnit (s : State) (uid tile : Nat) : State := runUnitWith s uid tile ⟨[], []⟩

/-- A unit put on an idle tile: it runs there, or waits in the tile's next place for its quadrant to wake (R415, R417, R437). -/
def putOnTileWith (s : State) (uid tile q : Nat) (g : Mates) : State :=
  if quadState s q = .sleep || sleepAccepted s q then
    let s := s.onPower fun w => { w with quadWake := Map.put w.quadWake q true }
    (s.onTile tile fun t => { t with next := some uid }).onUnit uid fun u => { u with place := .next tile }
  else
    runUnitWith (s.onPower fun w => { w with quads := Map.put w.quads q .run }) uid tile g

def putOnTile (s : State) (uid tile q : Nat) : State := putOnTileWith s uid tile q ⟨[], []⟩

def stealOf (s : State) (q g : Nat) : List Nat := Map.get s.sched.steal (16 * q + g) []

def setSteal (s : State) (q g : Nat) (l : List Nat) : State :=
  let s := s.onSched fun d => { d with steal := Map.put d.steal (16 * q + g) l }
  l.foldl (fun s u => s.onUnit u fun x => { x with place := .steal (16 * q + g) }) s

/-- R248: the tiles of a quadrant that a partition's snare-lane units occupy or queue on; one in a steal queue stands for a tile
(DEDUCED, assumption log 102). -/
def snareHeld (s : State) (p q : Nat) : Nat :=
  let l := (unitsIn s p q).filter fun e => e.2.snare
  (dedup (l.filterMap fun e => match e.2.place with
    | .running t => some t
    | .next t => some t
    | _ => none)).length +
    (l.filter fun e => match e.2.place with
      | .steal _ => true
      | _ => false).length

/-- They hold fewer than SNARE_TILES. -/
def snareAllowed (s : State) (u : Unit) : Bool := u.snare && snareHeld s u.part u.quad < s.sched.snareTiles

/-- One unit placed by R242, or by R248 for the snare lane. -/
def placeUnit (s : State) (uid : Nat) (u : Unit) : State :=
  let q := u.quad
  match idleTile s q with
  | some t => movePointer (putOnTile s uid t q) q
  | none =>
    let g := (leastBy (fun g => (stealOf s q g).length) (List.range 16)).getD 0
    let l := stealOf s q g
    if snareAllowed s u then
      if l.length < 8 then fillNext (movePointer (setSteal s q g (uid :: l)) q)
      else
        let back := l.getLastD 0
        let s := s.onUnit back fun x => { x with place := .ready }
        fillNext (movePointer (setSteal s q g (uid :: l.dropLast)) q)
    else if l.length < 8 then fillNext (movePointer (setSteal s q g (l ++ [uid])) q)
    else s

/-- UNIT_PLACEMENT; the members of a gang are placed by GANG_PLACEMENT (DEDUCED, assumption log 102). -/
def unitPlacement (q : Nat) (s : State) : State :=
  match nextReady s q with
  | none => s
  | some (uid, u) => if 2 ≤ (gangOf s u).length then s else placeUnit s uid u

def idleInGroup (s : State) (q g : Nat) : List Nat := ((List.range 16).map fun i => 256 * q + 16 * g + i).filter (isIdle s)

/-- R243: the group for a gang: most idle tiles, then fewest queued units, then the lowest number. -/
def gangGroup (s : State) (q : Nat) : Nat :=
  (leastBy (fun g => (16 - (idleInGroup s q g).length) * 16 + (stealOf s q g).length) (List.range 16)).getD 0

/-- DEDUCED, assumption log 102. -/
def gangPlacement (q : Nat) (s : State) : State :=
  match nextReady s q with
  | none => s
  | some (_, u) =>
    let l := gangOf s u
    let g := gangGroup s q
    let idle := idleInGroup s q g
    if l.length < 2 || idle.length + (8 - (stealOf s q g).length) < l.length then s
    else
      let s := (l.zip idle).foldl (fun a e => (putOnTileWith a.1 e.1.1 e.2 q a.2, gangReads a.1 a.2 e.1)) (s, (⟨[], []⟩ : Mates)) |>.1
      let rest := (l.map Prod.fst).drop idle.length
      -- the snare lane goes to the head of the queue, up to SNARE_TILES (R248)
      let front := if u.snare then s.sched.snareTiles - snareHeld s u.part q else 0
      fillNext (movePointer (setSteal s q g (rest.take front ++ stealOf s q g ++ rest.drop front)) q)
where
  /-- The members that have started, with one more, and the key blocks that they read. -/
  gangReads (s : State) (g : Mates) (e : Nat × Unit) : Mates :=
    let bs := match elemOf s e.2.cmd e.2.elem with
      | some x => unitBlocks x e.2.rowList e.2.keyLo e.2.keyHi
      | none => []
    ⟨g.units ++ [e.1], dedup (g.blocks ++ bs)⟩

/-- The unit that a tile which becomes free starts: the one in its next place, or a best-effort unit whose turn it is (R252). -/
def startsOn (s : State) (tile next : Nat) : Nat :=
  let q := tile / 256
  match s.unit next with
  | some u =>
    if u.bestEffort || !beTurn s q then next
    else (((leastVtime s q ((readyParts s q).filter (bestEffort s))).bind (firstReady s q)).map fun e => e.1).getD next
  | none => next

/-- UNIT_START: a tile starts the unit in its next place. -/
def unitStart (tile : Nat) (s : State) : State :=
  let t := tileOf s tile
  match t.running, t.next with
  | none, some u => if quadState s (tile / 256) = .sleep then s else fillNext (runUnit s (startsOn s tile u) tile)
  | _, _ => s

/-! ### Virtual time (R249, R253) -/

def weightOf (s : State) (p : Nat) : Nat := if s.sched.classMode then 1 else orOne (s.part p).grant.priority

/-- The unit runs in a quadrant for a partition. -/
def Unit.runsFor (u : Unit) (p q : Nat) : Bool :=
  u.quad = q && u.part = p && (match u.place with
    | .running _ => true
    | _ => false)

/-- The virtual time of a partition in a quadrant brought up to dt hc of the current interval. -/
def addVtime (s : State) (p q dt : Nat) : State :=
  let d := dt - Map.get (s.part p).vdone q 0
  let n := (s.sched.units.filter fun e => e.2.runsFor p q).length
  (s.onPart p fun x =>
    { x with vtime := Map.put x.vtime q (Map.get x.vtime q 0 + ((n * d : Nat) : Rat) / ((weightOf s p : Nat) : Rat))
             vdone := Map.put x.vdone q (Nat.max (Map.get x.vdone q 0) dt) }).onSched fun k =>
    { k with units := Map.each k.units fun u => if u.runsFor p q then { u with counted := u.counted + d } else u }

def virtualTimeUpdate (s : State) : State :=
  s.livePartitions.foldl (fun s p =>
    [0, 1, 2, 3].foldl (fun s q => (addVtime s p q 64).onPart p fun x => { x with vdone := Map.put x.vdone q 0 }) s) s

/-! ### The end of a unit (R183, R185) -/

/-- A unit leaves its tile. -/
def leaveTile (s : State) (tile : Nat) : State := fillNext (s.onTile tile fun t => { t with running := none })

def delUnit (s : State) (uid : Nat) : State := s.onSched fun d => { d with units := Map.del d.units uid }

/-- One row of a unit against its key blocks. -/
def runRow (m : Model) (e : Elem) (u : Unit) (own : Bool) (bs : List Nat) (r : Nat × Nat) : RowAcc :=
  let f := queryForms m (rowQuery m e r.1 r.2)
  bs.foldl
    (fun acc b =>
      let vis := visBits e r.1 b
      match (if m.scoreKernel = 0 then none else resultOf u (.score r.1 r.2 b)) with
      | some c => stepBlock u.src m e own r.2 b (c.v 0) (vis &&& (c.p 0).toNat) acc
      | none => stepBlock u.src m e own r.2 b (blockScores u.src m e own r.2 f b) vis acc)
    (RowAcc.start m)

/-- The rows of a unit that ends are merged with the partials of its query tile and head group, or wait for the rest
(DEDUCED, assumption log 67). -/
def endAttend (s : State) (uid : Nat) (u : Unit) : State :=
  let c := u.cmd
  match elemOf s c u.elem with
  | none => s
  | some e =>
    if (elemSeq s c e).isNone then s
    else
      let w := wordOf s c
      let m := modelOf' s c
      let bs := unitBlocks e u.rowList u.keyLo u.keyHi
      let pairs := unitRows m u
      let rows := pairs.map (runRow m e u (cOpcode w = Op.extend) bs)
      let same := fun a : Partial => a.head0 = u.head0 && a.tile = u.tileNo
      let more := s.sched.units.any fun o => o.1 ≠ uid && o.2.isOf c && o.2.elem = u.elem && o.2.kind = .attend &&
        o.2.head0 = u.head0 && o.2.tileNo = u.tileNo
      let s := setElem s c u.elem fun e => { e with unitsLeft := e.unitsLeft - 1 }
      let s :=
        if more then setElem s c u.elem fun e => { e with partials := e.partials ++ [⟨u.head0, u.tileNo, rows⟩] }
        else
          let all := (e.partials.filter same).map fun a => a.rows
          let merged := match all with
            | [] => rows
            | a :: r => (r ++ [rows]).foldl (List.zipWith mergeRow) a
          let outs := pairs.zip (merged.map (outputRow m))
          setElem s c u.elem fun e =>
            { e with
              partials := e.partials.filter fun a => !same a
              outputs := outs.foldl (fun o r => Map.put o (r.1.1 * qHeads m + r.1.2) (vecEncode (cOfmt w) (r.2.1.map f32))) e.outputs
              lse := outs.foldl (fun o r => Map.put o (r.1.1 * qHeads m + r.1.2) r.2.2) e.lse
              recs := if e.isRemote then outs.foldl (fun o r => Map.put o (r.1.1 * qHeads m + r.1.2) (uid % 65536)) e.recs else [] }
      if e.unitsLeft ≤ 1 then finishElem s c u.elem else s

/-- The conversion unit of an element: its new keys and values are stored in FP8 (R173, R204, R240) (DEDUCED, assumption log 77). -/
def endAppend (s : State) (u : Unit) : State :=
  let c := u.cmd
  match elemOf s c u.elem with
  | none => s
  | some e =>
    let m := modelOf' s c
    let keys := e.keys.zipIdx.map fun k => match resultOf u (.key (k.2 / m.kvHeads) (k.2 % m.kvHeads)) with
      | some r => ((List.range 4).flatMap r.v).take m.headDim
      | none => k.1
    let st := (keys.zip e.values).map fun v => storeVec v.1 v.2
    let late := cOpcode (wordOf s c) = Op.extend
    let s := setElem s c u.elem fun e => { e with stored := st, unitsLeft := 0, phase := if late then .extent else .done }
    if late then moveOn s c u.elem else settleCommand s c

/-- An input of a kernel_run has returned (R229). -/
def endKernel (s : State) (u : Unit) : State :=
  let c := u.cmd
  let n := kOutBytes (wordOf s c)
  let out := match resultOf u .perInst with
    | some r => (List.range n).map fun i => Map.get r.window (0x20000 + i) 0
    | none => []
  let s := t1Write s c.part n
  s.onFlight c fun f => match f.plan with
    | .kernelRun outs left fs =>
      { f with plan := .kernelRun (Map.put outs u.elem out) (left - 1) fs, stage := if left ≤ 1 then .requested else f.stage }
    | _ => f

/-- UNIT_END: a tile's running unit ends after a run of hc, dt hc after the last update of the virtual times. -/
def unitEnd (tile hc dt : Nat) (s : State) : State :=
  match (tileOf s tile).running with
  | none => s
  | some uid =>
    match s.unit uid with
    | none => s
    | some u =>
      if u.reads ≠ [] || !u.kernelIdle then s
      else
        let s := addVtime s u.part u.quad dt
        let s := chargeTile s u.part u.quad hc u.snare false
        let s := s.onAcct u.part fun a => { a with units := a.units + 1 }
        let s := match u.kind with
          | .append => endAppend s u
          | .attend => endAttend s uid u
          | .kernel => endKernel s u
        leaveTile (delUnit s uid) tile

/-! ### Waiting elements (R171, R183) -/

/-- ATTEND_ELEMENT_RELEASE. -/
def elementRelease (c : CmdRef) (k : Nat) (s : State) : State :=
  match elemOf s c k with
  | some e => if e.phase = .extent then moveOn s c k else s
  | none => s

/-- MERGE_SPACE_WAIT_END. -/
def mergeSpaceEnd (c : CmdRef) (k : Nat) (s : State) : State :=
  match elemOf s c k with
  | some e => if e.phase = .space then moveOn s c k else s
  | none => s

/-! ### Yield and eviction (R253 to R256) -/

/-- A unit yields only under the causes of a late tier (R256) (DEDUCED, assumption log 107). -/
def unitYield (tile hc : Nat) (s : State) : State :=
  match (tileOf s tile).running with
  | none => s
  | some uid =>
    match s.unit uid with
    | none => s
    | some u =>
      if u.hasYielded || (u.reads.head?.map codeCause).getD Stall.moveBuf = Stall.moveBuf || s.sched.yieldWait = 0 then s
      else
        let s := chargeTile s u.part u.quad hc u.snare true
        let s := (leaveCalls s uid).onUnit uid fun x => { x with place := .yielded, hasYielded := true, took := none }
        leaveTile s tile

def yieldedReady (uid : Nat) (s : State) : State :=
  match s.unit uid with
  | none => s
  | some u =>
    if u.place = .yielded && u.reads = [] then (activate s u.part u.quad).onUnit uid fun x => { x with place := .ready } else s

/-- The best-effort unit of a quadrant that started most recently. -/
def evictVictim (s : State) (q : Nat) : Option (Nat × Unit) :=
  let l := (unitsRunning s q).filter fun e => e.2.bestEffort
  if l.length ≤ s.sched.beMin then none else leastBy (fun e : Nat × Unit => s.sched.order - e.2.startedAt) l

/-- A unit leaves the place in which it waits. -/
def unqueue (s : State) (uid : Nat) (u : Unit) : State :=
  match u.place with
  | .steal g => s.onSched fun d => { d with steal := Map.put d.steal g ((Map.get d.steal g []).filter fun x => x != uid) }
  | .next t => s.onTile t fun y => { y with next := none }
  | _ => s

/-- UNIT_EVICT: a latency-critical unit that has waited EVICT_WAIT takes the tile of a best-effort unit (DEDUCED, assumption log 107). -/
def unitEvict (uid : Nat) (s : State) : State :=
  match s.unit uid with
  | none => s
  | some u =>
    let waits := match u.place with
      | .ready => true
      | .steal _ => true
      | .next _ => true
      | _ => false
    if !s.sched.classMode || s.sched.evictWait = 0 || u.bestEffort || u.caused || !waits then s
    else
      match evictVictim s u.quad with
      | none => s
      | some (v, x) =>
        match x.place with
        | .running tile =>
          let s := unqueue s uid u
          -- the time of the evicted run is taken back (R253)
          let s := s.onPart x.part fun y =>
            { y with vtime := Map.put y.vtime x.quad (Map.get y.vtime x.quad 0 - ((x.counted : Nat) : Rat) / ((weightOf s x.part : Nat) : Rat))
                     evictions := y.evictions + 1 }
          let s := match x.took with
            | some t => s.onAcct x.part fun a => { a with t0 := a.t0 - t.1, t1Rd := a.t1Rd - t.2.1, t1Wr := a.t1Wr - t.2.2 }
            | none => s
          let s := (leaveCalls s v).onUnit v fun y => { y with place := .ready, hasEvicted := true, counted := 0 }
          let s := s.onUnit uid fun y => { y with caused := true }
          fillNext (runUnit (s.onTile tile fun t => { t with running := none }) uid tile)
        | _ => s

/-! ### Job faults (R262 to R264) -/

/-- The fault of a job whose teardown is under way. Job 0 keeps its own under number 0. -/
def faultOf (x : Part) (j : Nat) : Option JobFault := (Map.get x.jobs j Job.reset).fault

/-- A command that a teardown lets come to its end (R263 step 4). -/
def outlives (f : Flight) : Bool :=
  match f.stage with
  | .requested => true
  | .rejected _ => true
  | _ => f.excepted

/-- A command that will be aborted runs no more and names no sequence; it leaves its window with its record (R263, R373). -/
def cutOff (s : State) (c : CmdRef) (f : Flight) : State :=
  (if f.stage = .fetched then s else releaseRun s false c f).onFlight c fun f => { f with stage := .fetched, seqs := [] }

/-- Slots bound to a job. -/
def slotsOf (x : Part) (j : Nat) : List Nat := (x.slots.filter fun e => e.2.bound && e.2.job = j).map fun e => e.1

/-- Steps 1 to 3 of R263: the job is Faulted, its slots stop fetching, its units leave every tile, and its commands that have not issued
their commit request run no more (DEDUCED, assumption log 103). -/
def faultJob (s : State) (u : Unit) (tile kind code word imm : Nat) : State :=
  let c := u.cmd
  let x := s.part c.part
  let y := x.slot c.slot
  let w := wordOf s c
  if (faultOf x y.job).isSome then removeUnits s false fun o => o.isOf c
  else
    let jf : JobFault := ⟨c.slot, c.index, y.ring, cTag w, cOpcode w, kind, code, word, imm, tile⟩
    let old := Map.get x.jobs y.job Job.reset
    let nj : Job := { old with state := if y.job = 0 then .bound else .faulted, fault := some jf }
    let s := s.onPart c.part fun x => { x with jobs := Map.put x.jobs y.job nj }
    (slotsOf (s.part c.part) y.job).foldl
      (fun s i =>
        let s := dropFetches (s.onSlot c.part i fun z => { z with stopped := true }) c.part i
        ((s.slot c.part i).window.filter fun f => !outlives f).foldl (fun s f => cutOff s ⟨c.part, i, f.index⟩ f) s) s

/-- The units that a tile holds: the running one, and the one in its next place (R262). -/
def heldUnits (s : State) (tile : Nat) : List Unit :=
  let t := tileOf s tile
  (t.running.bind s.unit).toList ++ (t.next.bind s.unit).toList

/-- A tile retired (R449): no unit is placed there again; one that waited in its next place goes back (DEDUCED, assumption log 106). -/
def retireTile (s : State) (tile : Nat) : State :=
  let s := match (tileOf s tile).next with
    | some u => s.onUnit u fun x => { x with place := .ready }
    | none => s
  let s := s.onTile tile fun t => { t with retired := true, next := none }
  sealSecure s fun c => { c with retiredTiles := if c.retiredTiles.contains tile then c.retiredTiles else c.retiredTiles ++ [tile] }

/-- TILE_UNCORRECTABLE_ERROR (R262, R440, R449, R453) (DEDUCED, assumption log 106). -/
def tileError (tile : Nat) (s : State) : State :=
  if 1024 ≤ tile || s.power.chip != .on then s else
  match heldUnits s tile with
  | [] => logError (retireTile s tile) { ErrRecord.blank with source := Src.tile, severity := 1, action := Act.tileRetired, loc0 := tile }
  | l => retireTile (l.foldl (fun s u => faultJob s u tile 2 0 0 0) s) tile

/-- Seconds at which corrected errors came, one more now: those of the last 24 h (R449). -/
def lastDay (now : Nat) (l : List Nat) : List Nat := (l.filter fun t => now ≤ t + 86400) ++ [now]

/-- TILE_CORRECTED_ERROR (R440, R449): more than 16 within 24 h retire the tile. -/
def tileCorrected (tile : Nat) (s : State) : State :=
  if 1024 ≤ tile || s.power.chip != .on then s else
  let t := tileOf s tile
  let l := lastDay s.nowS t.corrected
  let s := s.onTile tile fun t => { t with corrected := l }
  let r := { ErrRecord.blank with source := Src.tile, action := Act.corrected, loc0 := tile }
  if 16 < l.length && !t.retired then logError (retireTile s tile) { r with action := Act.tileRetired } else logError s r

/-- The event record of a teardown (R366). -/
def jobFaultRecord (f : JobFault) (j aborted : Nat) : Record :=
  ⟨St.aborted, Kind.jobFault, f.slot, f.index + f.ring * 2 ^ 16 + j * 2 ^ 24, f.tag,
    f.fault + f.code * 2 ^ 8 + Nat.min aborted 65535 * 2 ^ 16, f.word, f.opcode, f.imm⟩

/-- Steps 4 to 7 of R263 (DEDUCED, assumption log 103). -/
def jobTeardown (p j : Nat) (s : State) : State :=
  match faultOf (s.part p) j with
  | none => s
  | some jf =>
    let slots := slotsOf (s.part p) j
    if slots.any fun i => (s.slot p i).window.any outlives then s
    else
      let gone := slots.flatMap fun i =>
        let y := s.slot p i
        (sortBy (fun f : Flight => y.offset f.index) y.window).map fun f => (i, f)
      let recs := gone.map fun e => ((s.slot p e.1).eq, commandRecord (s.slot p e.1) e.1 e.2 St.aborted 0 0)
      let s := gone.foldl (fun s e => endAborted s ⟨p, e.1, e.2.index⟩ e.2) s
      let s := logError s { ErrRecord.blank with
        source := if jf.fault = 1 then Src.kernel else Src.tile, severity := 1, action := Act.jobFaulted, part := p, status := St.aborted
        opcode := jf.opcode, code := jf.code, tag := jf.tag, loc0 := jf.tile, loc1 := jf.word }
      let s := recs.foldl (fun s r => postRecord s p r.1 r.2 none) s
      let s := postRecord s p (s.slot p 0).eq (jobFaultRecord jf j gone.length) none
      let s := s.onPart p fun x => x.onJob j fun k => { k with fault := none }
      if j = 0 then s.onSlot p 0 fun y => { y with stopped := false }
      else slots.foldl
        (fun s i =>
          let s := (descriptorWrites (s.part p) (s.slot p i)).foldl (fun s o => s.issue (.data p o.1 o.2 none)) s
          s.onSlot p i Slot.released) s

/-! ### The rows -/

def execUnitPlacement (quad : Nat) (s : State) : Host.Outcome State Fault Refusal := .next (unitPlacement quad s)
def execGangPlacement (quad : Nat) (s : State) : Host.Outcome State Fault Refusal := .next (gangPlacement quad s)
def execUnitStart (tile : Nat) (s : State) : Host.Outcome State Fault Refusal := .next (unitStart tile s)
def execUnitEnd (tile hc dt : Nat) (s : State) : Host.Outcome State Fault Refusal := .next (unitEnd tile hc dt s)
def execAttendElementRelease (c : CmdRef) (elem : Nat) (s : State) : Host.Outcome State Fault Refusal := .next (elementRelease c elem s)
def execMergeSpaceWaitEnd (c : CmdRef) (elem : Nat) (s : State) : Host.Outcome State Fault Refusal := .next (mergeSpaceEnd c elem s)
def execUnitYield (tile hc : Nat) (s : State) : Host.Outcome State Fault Refusal := .next (unitYield tile hc s)
def execYieldedUnitReady (unit : Nat) (s : State) : Host.Outcome State Fault Refusal := .next (yieldedReady unit s)
def execUnitEvict (unit : Nat) (s : State) : Host.Outcome State Fault Refusal := .next (unitEvict unit s)
def execVirtualTimeUpdate (s : State) : Host.Outcome State Fault Refusal := .next (virtualTimeUpdate s)
def execTileUncorrectableError (tile : Nat) (s : State) : Host.Outcome State Fault Refusal := .next (tileError tile s)
def execTileCorrectedError (tile : Nat) (s : State) : Host.Outcome State Fault Refusal := .next (tileCorrected tile s)
def execJobTeardownComplete (part job : Nat) (s : State) : Host.Outcome State Fault Refusal := .next (jobTeardown part job s)

end Sys2Proof.Machine
end

