-- ==== Sys2Proof/Machine/TileCode.lean ====
section
/-! DEFINITION. Tile code (R233 to R239): one step of the kernel call that a unit runs, and the meaning of each instruction. -/

namespace Sys2Proof.Machine

open Sys2Proof

/-! ### Registers (R233) -/

def KCall.setS (c : KCall) (n : Nat) (w : Word) : KCall := { c with scalars := Map.put c.scalars n w }
def KCall.setP (c : KCall) (n : Nat) (w : BitVec 64) : KCall := { c with preds := Map.put c.preds n w }

/-- R234: the lanes that an instruction's guard admits. -/
def guardBits (c : KCall) (w : Nat) : Nat := if iGE w then (c.p (iG w)).toNat else 2 ^ 64 - 1

/-- Lanes of a vector register written under the guard. -/
def KCall.setV (c : KCall) (w n : Nat) (new : List Word) : KCall :=
  let g := guardBits c w
  let lanes := ((c.v n).zip new).zipIdx.map fun e => if bit g e.2 then e.1.2 else e.1.1
  { c with vectors := Map.put c.vectors n lanes }

/-- The B operand of a vector operation: vB, or sB in every lane (R235). -/
def vecB (c : KCall) (w : Nat) : List Word := if iBS w then List.replicate 64 (c.s (iB w)) else c.v (iB w)

def bitsOf (l : List Bool) : BitVec 64 := BitVec.ofNat 64 (l.foldr (fun b n => Bool.bit b + 2 * n) 0)

/-! ### The effect of one instruction -/

/-- What an instruction does: new registers and the next word, a jump by a number of words, the end of the call, or a fault of R239. -/
inductive Effect where
  | next (c : KCall)
  | jump (off : Int)
  | ret
  | fault (code imm : Nat)

/-- One instruction of the call that a unit runs on its tile, where the row is the one of the word at hand (DEDUCED, assumption log 33). -/
def tileRun (uid : Nat) (row : Nat → Bool) (eff : Kernel → KCall → Nat → Effect) (s : State) : State :=
  match s.unit uid with
  | none => s
  | some u =>
    match u.place, u.kernel with
    | .running tile, some k =>
      match Map.look (s.part u.part).kernels k.kernel with
      | none => s
      | some ker =>
        let w := (ker.code.getD k.pc 0).toNat
        let stop := fun (code imm : Nat) => faultJob s u tile 1 code k.pc imm
        let go := fun (c : KCall) (pc : Nat) =>
          if ker.code.length ≤ pc then stop 7 0
          else
            let k2 : KMachine := { k with regs := c, pc := pc, steps := k.steps + 1 }
            s.onUnit uid fun x => { x with kernel := some k2 }
        if !k.active || !row w then s
        else if ker.stepLimit ≤ k.steps then stop 3 0
        else
          match eff ker k.regs w with
          | .next c => go c (k.pc + 1)
          | .jump off => go k.regs ((k.pc : Int) + off).toNat
          | .fault code imm => stop code imm
          | .ret =>
            let k2 := KMachine.load (s.part u.part) { k with results := k.results ++ [(k.what, k.regs)], active := false }
            let s := s.onUnit uid fun x => { x with kernel := some k2 }
            if k2.active then s else nextStage s uid
    | _, _ => s

/-! ### The rows of an instruction word (R235) -/

def rowOp (op w : Nat) : Bool := iOp w = op
def rowFn (op fn w : Nat) : Bool := iOp w = op && iFN w = fn
def rowFn6 (op fn w : Nat) : Bool := iOp w = op && iFn6 w = fn

/-! ### Forms -/

/-- sD = sA op sB. -/
def scalarOp (f : Word → Word → Word) (_ : Kernel) (c : KCall) (w : Nat) : Effect :=
  .next (c.setS (iD w) (f (c.s (iA w)) (c.s (iB w))))

/-- sD = sA op IMM. -/
def immOp (f : Word → Nat → Word) (_ : Kernel) (c : KCall) (w : Nat) : Effect :=
  .next (c.setS (iD w) (f (c.s (iA w)) (iImm w)))

/-- vD = vA op vB in each lane. -/
def vectorOp (f : Word → Word → Word) (_ : Kernel) (c : KCall) (w : Nat) : Effect :=
  .next (c.setV w (iD w) (List.zipWith f (c.v (iA w)) (vecB c w)))

/-- vD = f(vA) in each lane. -/
def laneOp (f : Word → Word) (_ : Kernel) (c : KCall) (w : Nat) : Effect := .next (c.setV w (iD w) ((c.v (iA w)).map f))

/-- pD from a comparison of lanes; excluded lanes give 0. -/
def compareOp (f : Word → Word → Bool) (_ : Kernel) (c : KCall) (w : Nat) : Effect :=
  let g := guardBits c w
  let l := (List.zipWith f (c.v (iA w)) (vecB c w)).zipIdx.map fun e => e.1 && bit g e.2
  .next (c.setP (iD w % 8) (bitsOf l))

/-- Lanes of vA that the guard admits, in ascending order. -/
def admitted (c : KCall) (w : Nat) : List Word :=
  let g := guardBits c w
  ((c.v (iA w)).zipIdx.filter fun e => bit g e.2).map fun e => e.1

/-- sD = the largest or least admitted lane; with no lane admitted the result is a free value (DESIGN CHOICE, assumption log 32). -/
def extremeOp (isMax : Bool) (f : Word → Word → Word) (_ : Kernel) (c : KCall) (w : Nat) : Effect :=
  .next (c.setS (iD w) (match admitted c w with
    | [] => Config.emptyReduction isMax
    | a :: r => r.foldl f (canon32 a)))

def predOp (f : BitVec 64 → BitVec 64 → BitVec 64) (_ : Kernel) (c : KCall) (w : Nat) : Effect :=
  .next (c.setP (iD w % 8) (f (c.p (iA w % 8)) (c.p (iB w % 8))))

/-- A branch by the signed offset in words from the branch itself. -/
def branchOp (t : KCall → Nat → Bool) (_ : Kernel) (c : KCall) (w : Nat) : Effect := if t c w then .jump (iImmS w) else .next c

def word1 (b : Bool) : Word := if b then 1 else 0

/-! ### Scalar functions -/

def shl32 (a b : Word) : Word := a <<< (b.toNat % 32)
def shr32 (a b : Word) : Word := a >>> (b.toNat % 32)
def sra32 (a b : Word) : Word := a.sshiftRight (b.toNat % 32)
def slt32 (a b : Word) : Word := word1 (a.slt b)
def sltu32 (a b : Word) : Word := word1 (a.ult b)
def min32 (a b : Word) : Word := if a.slt b then a else b
def max32 (a b : Word) : Word := if a.slt b then b else a
/-- R235: scalar fmin and fmax; the result on a NaN is a free value (DESIGN CHOICE, assumption log 30). -/
def sfmin (a b : Word) : Word := if isNaN32 a || isNaN32 b then Config.scalarMinMaxNaN false a b else fminN a b
def sfmax (a b : Word) : Word := if isNaN32 a || isNaN32 b then Config.scalarMinMaxNaN true a b else fmaxN a b
def itof32 (a : Word) : Word := toF32 (ofInt a.toInt)
/-- FP32 to int32, ties to even, saturating at 2^31 - 1 in magnitude; NaN gives 0. -/
def ftoi32 (a : Word) : Word := BitVec.ofInt 32 (toInt 2147483647 (f32 a))
def immS (i : Nat) : Word := BitVec.ofInt 32 (sext 16 i)

/-! ### Windows (R238) -/

def rwBytes (k : Kernel) : Nat := if k.kind = 3 then 0x40000 else 0x4000
def inRw (k : Kernel) (a n : Nat) : Bool := a + n ≤ rwBytes k
def inConst (k : Kernel) (a n : Nat) : Bool := 0x100000 ≤ a && a + n ≤ 0x100000 + k.data.length

/-- DEDUCED, assumption log 72. -/
def readWin (k : Kernel) (c : KCall) (a n : Nat) : List Byte :=
  if inConst k a n then slice k.data (a - 0x100000) n else (List.range n).map fun i => Map.get c.window (a + i) 0

/-- DEDUCED, assumption log 72. -/
def writeWin (c : KCall) (a : Nat) (b : List Byte) : KCall :=
  let win := b.zipIdx.foldl (fun m e => if e.1 = 0 then Map.del m (a + e.2) else Map.put m (a + e.2) e.1) c.window
  { c with window := win }

/-- A load: the bytes go on, or a fault of R239 (DEDUCED, assumption log 72). -/
def loadOp (k : Kernel) (c : KCall) (a n : Nat) (aligned : Bool) (f : List Byte → KCall) : Effect :=
  if !inRw k a n && !inConst k a n then .fault 1 0
  else if aligned && a % 4 ≠ 0 then .fault 2 0
  else .next (f (readWin k c a n))

def storeOp (k : Kernel) (c : KCall) (a : Nat) (b : List Byte) (aligned : Bool) : Effect :=
  if !inRw k a b.length && !inConst k a b.length then .fault 1 0
  else if aligned && a % 4 ≠ 0 then .fault 2 0
  else if inConst k a b.length then .fault 6 0
  else .next (writeWin c a b)

/-- The address of an M-form access, modulo 2^32 (DEDUCED, assumption log 73). -/
def memAddr (c : KCall) (w scale : Nat) : Nat := ((c.s (iA w)).toNat + scale * iOff w) % 2 ^ 32

def ldOp (k : Kernel) (c : KCall) (w : Nat) : Effect :=
  loadOp k c (memAddr c w 4) 4 true fun b => c.setS (iD w) (w32 (leNat b))
def stOp (k : Kernel) (c : KCall) (w : Nat) : Effect := storeOp k c (memAddr c w 4) (leBytes 4 (c.s (iD w)).toNat) true

/-- 64 elements of a format as lanes; FP32 elements are taken as they are, but for the payload of a NaN (R193) (DEDUCED, assumption log 70). -/
def decodeLanes (fmt : Nat) (b : List Byte) : List Word :=
  if fmt = 0 then (List.range 64).map fun i => canonNaN (w32 (field b (4 * i) 4)) else (vecDecode fmt 64 b).map toF32
/-- DEDUCED, assumption log 70. -/
def encodeLanes (fmt : Nat) (l : List Word) : List Byte :=
  if fmt = 0 then l.flatMap fun v => leBytes 4 (canonNaN v).toNat else vecEncode fmt (l.map f32)

def vldOp (k : Kernel) (c : KCall) (w : Nat) : Effect :=
  loadOp k c (memAddr c w 64) (vecBytes (iFmt w) 64) false fun b =>
    { c with vectors := Map.put c.vectors (iD w) (decodeLanes (iFmt w) b) }
def vstOp (k : Kernel) (c : KCall) (w : Nat) : Effect := storeOp k c (memAddr c w 64) (encodeLanes (iFmt w) (c.v (iD w))) false

/-! ### mma (R205, R238) -/

/-- The group length of a pair, and whether its accumulator is an integer. -/
def mmaGroup (fa : Nat) : Nat := if fa = 1 || fa = 2 then 8 else 32
def mmaInt (fa : Nat) : Bool := fa = 8 || fa = 9

/-- A row of K elements as exact values. -/
def mmaRow (k : Kernel) (c : KCall) (a fmt n i : Nat) : List Val := vecDecode fmt n (readWin k c (a + i * vecBytes fmt n) (vecBytes fmt n))

def intOf (v : Val) : Int := toInt (2 ^ 62) v

/-- One element of C + A × B^T. -/
def mmaElem (fa n : Nat) (acc : Word) (x y : List Val) : Word :=
  if mmaInt fa then
    acc + BitVec.ofInt 32 ((x.zip y).foldl (fun t e => t + intOf e.1 * intOf e.2) 0)
  else
    let g := mmaGroup fa
    ((chunks g (n / g) x).zip (chunks g (n / g) y)).foldl (fun t e => groupAcc t (.fin false 1 0) (e.1.zip e.2)) acc

/-- DEDUCED, assumption log 71. -/
def mmaOp (k : Kernel) (c : KCall) (w : Nat) : Effect :=
  let cA := (c.s (iD w)).toNat
  let n := (c.s (iD w + 1)).toNat
  let a := (c.s (iA w)).toNat
  let b := (c.s (iB w)).toNat
  if n % 32 ≠ 0 || n < 32 || 4096 < n then .fault 5 0
  else if !inRw k cA 16384 && inConst k cA 16384 then .fault 6 0
  else if !inRw k cA 16384 || !inRw k a (64 * vecBytes (iFA w) n) || !inRw k b (64 * vecBytes (iFB w) n) then .fault 1 0
  else
    let ra := (List.range 64).map (mmaRow k c a (iFA w) n)
    let rb := (List.range 64).map (mmaRow k c b (iFB w) n)
    let old := readWin k c cA 16384
    let out := ra.zipIdx.flatMap fun x => rb.zipIdx.flatMap fun y =>
      leBytes 4 (mmaElem (iFA w) n (w32 (field old (4 * (64 * x.2 + y.2)) 4)) x.1 y.1).toNat
    .next (writeWin c cA out)

/-! ### The instructions -/

/-- vD + vA × vB with one rounding. -/
def vfmaOp (_ : Kernel) (c : KCall) (w : Nat) : Effect :=
  .next (c.setV w (iD w) (((c.v (iD w)).zip ((c.v (iA w)).zip (vecB c w))).map fun e => ffma e.1 e.2.1 e.2.2))
def vidxOp (_ : Kernel) (c : KCall) (w : Nat) : Effect := .next (c.setV w (iD w) ((List.range 64).map fun (j : Nat) => toF32 (ofInt (j : Int))))
def vbcastOp (_ : Kernel) (c : KCall) (w : Nat) : Effect := .next (c.setV w (iD w) (List.replicate 64 (c.s (iA w))))
/-- The admitted lanes added in ascending order into +0. -/
def vsumOp (_ : Kernel) (c : KCall) (w : Nat) : Effect := .next (c.setS (iD w) ((admitted c w).foldl fadd 0))
def pcntOp (_ : Kernel) (c : KCall) (w : Nat) : Effect := .next (c.setS (iD w) (w32 (popcount 64 (c.p (iA w % 8)).toNat)))
/-- pD = (sB << 32) OR sA. -/
def pfromsOp (_ : Kernel) (c : KCall) (w : Nat) : Effect :=
  .next (c.setP (iD w % 8) (BitVec.ofNat 64 ((c.s (iB w)).toNat * 2 ^ 32 + (c.s (iA w)).toNat)))
/-- sD and s(D+1) = the halves of pA. -/
def ptosOp (_ : Kernel) (c : KCall) (w : Nat) : Effect :=
  let v := (c.p (iA w % 8)).toNat
  .next ((c.setS (iD w) (w32 (v % 2 ^ 32))).setS (iD w + 1) (w32 (v / 2 ^ 32)))

def execAdd (unit : Nat) (s : State) : Host.Outcome State Fault Refusal :=
  .next (tileRun unit (rowFn 0x01 0) (scalarOp (· + ·)) s)
def execSub (unit : Nat) (s : State) : Host.Outcome State Fault Refusal :=
  .next (tileRun unit (rowFn 0x01 1) (scalarOp (· - ·)) s)
def execMul (unit : Nat) (s : State) : Host.Outcome State Fault Refusal :=
  .next (tileRun unit (rowFn 0x01 2) (scalarOp (· * ·)) s)
def execAnd (unit : Nat) (s : State) : Host.Outcome State Fault Refusal :=
  .next (tileRun unit (rowFn 0x01 3) (scalarOp (· &&& ·)) s)
def execOr (unit : Nat) (s : State) : Host.Outcome State Fault Refusal :=
  .next (tileRun unit (rowFn 0x01 4) (scalarOp (· ||| ·)) s)
def execXor (unit : Nat) (s : State) : Host.Outcome State Fault Refusal :=
  .next (tileRun unit (rowFn 0x01 5) (scalarOp (· ^^^ ·)) s)
def execShl (unit : Nat) (s : State) : Host.Outcome State Fault Refusal :=
  .next (tileRun unit (rowFn 0x01 6) (scalarOp shl32) s)
def execShr (unit : Nat) (s : State) : Host.Outcome State Fault Refusal :=
  .next (tileRun unit (rowFn 0x01 7) (scalarOp shr32) s)
def execSra (unit : Nat) (s : State) : Host.Outcome State Fault Refusal :=
  .next (tileRun unit (rowFn 0x01 8) (scalarOp sra32) s)
def execSlt (unit : Nat) (s : State) : Host.Outcome State Fault Refusal :=
  .next (tileRun unit (rowFn 0x01 9) (scalarOp slt32) s)
def execSltu (unit : Nat) (s : State) : Host.Outcome State Fault Refusal :=
  .next (tileRun unit (rowFn 0x01 10) (scalarOp sltu32) s)
def execMin (unit : Nat) (s : State) : Host.Outcome State Fault Refusal :=
  .next (tileRun unit (rowFn 0x01 11) (scalarOp min32) s)
def execMax (unit : Nat) (s : State) : Host.Outcome State Fault Refusal :=
  .next (tileRun unit (rowFn 0x01 12) (scalarOp max32) s)
def execMov (unit : Nat) (s : State) : Host.Outcome State Fault Refusal :=
  .next (tileRun unit (rowFn 0x01 13) (scalarOp (fun a _ => a)) s)
def execFadd (unit : Nat) (s : State) : Host.Outcome State Fault Refusal :=
  .next (tileRun unit (rowFn 0x01 16) (scalarOp fadd) s)
def execFsub (unit : Nat) (s : State) : Host.Outcome State Fault Refusal :=
  .next (tileRun unit (rowFn 0x01 17) (scalarOp fsub) s)
def execFmul (unit : Nat) (s : State) : Host.Outcome State Fault Refusal :=
  .next (tileRun unit (rowFn 0x01 18) (scalarOp fmul) s)
def execFmin (unit : Nat) (s : State) : Host.Outcome State Fault Refusal :=
  .next (tileRun unit (rowFn 0x01 19) (scalarOp sfmin) s)
def execFmax (unit : Nat) (s : State) : Host.Outcome State Fault Refusal :=
  .next (tileRun unit (rowFn 0x01 20) (scalarOp sfmax) s)
def execFlt (unit : Nat) (s : State) : Host.Outcome State Fault Refusal :=
  .next (tileRun unit (rowFn 0x01 21) (scalarOp (fun a b => word1 (flt a b))) s)
def execItof (unit : Nat) (s : State) : Host.Outcome State Fault Refusal :=
  .next (tileRun unit (rowFn 0x01 22) (scalarOp (fun a _ => itof32 a)) s)
def execFtoi (unit : Nat) (s : State) : Host.Outcome State Fault Refusal :=
  .next (tileRun unit (rowFn 0x01 23) (scalarOp (fun a _ => ftoi32 a)) s)
def execAddi (unit : Nat) (s : State) : Host.Outcome State Fault Refusal :=
  .next (tileRun unit (rowOp 0x02) (immOp (fun a i => a + immS i)) s)
def execAndi (unit : Nat) (s : State) : Host.Outcome State Fault Refusal :=
  .next (tileRun unit (rowOp 0x03) (immOp (fun a i => a &&& w32 i)) s)
def execOri (unit : Nat) (s : State) : Host.Outcome State Fault Refusal :=
  .next (tileRun unit (rowOp 0x04) (immOp (fun a i => a ||| w32 i)) s)
def execLui (unit : Nat) (s : State) : Host.Outcome State Fault Refusal :=
  .next (tileRun unit (rowOp 0x05) (immOp (fun _ i => w32 i <<< 16)) s)
def execSlti (unit : Nat) (s : State) : Host.Outcome State Fault Refusal :=
  .next (tileRun unit (rowOp 0x06) (immOp (fun a i => word1 (a.slt (immS i)))) s)
def execVadd (unit : Nat) (s : State) : Host.Outcome State Fault Refusal :=
  .next (tileRun unit (rowFn6 0x08 0) (vectorOp fadd) s)
def execVsub (unit : Nat) (s : State) : Host.Outcome State Fault Refusal :=
  .next (tileRun unit (rowFn6 0x08 1) (vectorOp fsub) s)
def execVmul (unit : Nat) (s : State) : Host.Outcome State Fault Refusal :=
  .next (tileRun unit (rowFn6 0x08 2) (vectorOp fmul) s)
def execVfma (unit : Nat) (s : State) : Host.Outcome State Fault Refusal :=
  .next (tileRun unit (rowFn6 0x08 3) vfmaOp s)
def execVmin (unit : Nat) (s : State) : Host.Outcome State Fault Refusal :=
  .next (tileRun unit (rowFn6 0x08 4) (vectorOp fminN) s)
def execVmax (unit : Nat) (s : State) : Host.Outcome State Fault Refusal :=
  .next (tileRun unit (rowFn6 0x08 5) (vectorOp fmaxN) s)
def execVabs (unit : Nat) (s : State) : Host.Outcome State Fault Refusal :=
  .next (tileRun unit (rowFn 0x08 6) (laneOp (fun a => toF32 (f32 a).abs)) s)
def execVneg (unit : Nat) (s : State) : Host.Outcome State Fault Refusal :=
  .next (tileRun unit (rowFn 0x08 7) (laneOp (fun a => toF32 (f32 a).neg)) s)
def execVmov (unit : Nat) (s : State) : Host.Outcome State Fault Refusal :=
  .next (tileRun unit (rowFn 0x08 8) (laneOp (fun a => a)) s)
def execVexp (unit : Nat) (s : State) : Host.Outcome State Fault Refusal :=
  .next (tileRun unit (rowFn 0x08 9) (laneOp fexp) s)
def execVrecip (unit : Nat) (s : State) : Host.Outcome State Fault Refusal :=
  .next (tileRun unit (rowFn 0x08 10) (laneOp frecip) s)
def execVlog (unit : Nat) (s : State) : Host.Outcome State Fault Refusal :=
  .next (tileRun unit (rowFn 0x08 11) (laneOp flog) s)
def execVitof (unit : Nat) (s : State) : Host.Outcome State Fault Refusal :=
  .next (tileRun unit (rowFn 0x08 12) (laneOp itof32) s)
def execVftoi (unit : Nat) (s : State) : Host.Outcome State Fault Refusal :=
  .next (tileRun unit (rowFn 0x08 13) (laneOp ftoi32) s)
def execVidx (unit : Nat) (s : State) : Host.Outcome State Fault Refusal :=
  .next (tileRun unit (rowFn 0x08 14) vidxOp s)
def execVbcast (unit : Nat) (s : State) : Host.Outcome State Fault Refusal :=
  .next (tileRun unit (rowFn 0x08 15) vbcastOp s)
def execVlt (unit : Nat) (s : State) : Host.Outcome State Fault Refusal :=
  .next (tileRun unit (rowFn6 0x09 0) (compareOp flt) s)
def execVle (unit : Nat) (s : State) : Host.Outcome State Fault Refusal :=
  .next (tileRun unit (rowFn6 0x09 1) (compareOp (fun a b => flt a b || feq a b)) s)
def execVeq (unit : Nat) (s : State) : Host.Outcome State Fault Refusal :=
  .next (tileRun unit (rowFn6 0x09 2) (compareOp feq) s)
def execVne (unit : Nat) (s : State) : Host.Outcome State Fault Refusal :=
  .next (tileRun unit (rowFn6 0x09 3) (compareOp (fun a b => !feq a b)) s)
def execVsum (unit : Nat) (s : State) : Host.Outcome State Fault Refusal :=
  .next (tileRun unit (rowFn 0x0A 0) vsumOp s)
def execVmaxr (unit : Nat) (s : State) : Host.Outcome State Fault Refusal :=
  .next (tileRun unit (rowFn 0x0A 1) (extremeOp true fmaxN) s)
def execVminr (unit : Nat) (s : State) : Host.Outcome State Fault Refusal :=
  .next (tileRun unit (rowFn 0x0A 2) (extremeOp false fminN) s)
def execPand (unit : Nat) (s : State) : Host.Outcome State Fault Refusal :=
  .next (tileRun unit (rowFn 0x0B 0) (predOp (· &&& ·)) s)
def execPor (unit : Nat) (s : State) : Host.Outcome State Fault Refusal :=
  .next (tileRun unit (rowFn 0x0B 1) (predOp (· ||| ·)) s)
def execPxor (unit : Nat) (s : State) : Host.Outcome State Fault Refusal :=
  .next (tileRun unit (rowFn 0x0B 2) (predOp (· ^^^ ·)) s)
def execPandn (unit : Nat) (s : State) : Host.Outcome State Fault Refusal :=
  .next (tileRun unit (rowFn 0x0B 3) (predOp (fun a b => a &&& ~~~b)) s)
def execPnot (unit : Nat) (s : State) : Host.Outcome State Fault Refusal :=
  .next (tileRun unit (rowFn 0x0B 4) (predOp (fun a _ => ~~~a)) s)
def execPset (unit : Nat) (s : State) : Host.Outcome State Fault Refusal :=
  .next (tileRun unit (rowFn 0x0B 5) (predOp (fun _ _ => BitVec.allOnes 64)) s)
def execPclr (unit : Nat) (s : State) : Host.Outcome State Fault Refusal :=
  .next (tileRun unit (rowFn 0x0B 6) (predOp (fun _ _ => 0)) s)
def execPcnt (unit : Nat) (s : State) : Host.Outcome State Fault Refusal :=
  .next (tileRun unit (rowFn 0x0B 7) pcntOp s)
def execPfroms (unit : Nat) (s : State) : Host.Outcome State Fault Refusal :=
  .next (tileRun unit (rowFn 0x0B 8) pfromsOp s)
def execPtos (unit : Nat) (s : State) : Host.Outcome State Fault Refusal :=
  .next (tileRun unit (rowFn 0x0B 9) ptosOp s)
def execLd (unit : Nat) (s : State) : Host.Outcome State Fault Refusal :=
  .next (tileRun unit (rowOp 0x10) ldOp s)
def execSt (unit : Nat) (s : State) : Host.Outcome State Fault Refusal :=
  .next (tileRun unit (rowOp 0x11) stOp s)
def execVld (unit : Nat) (s : State) : Host.Outcome State Fault Refusal :=
  .next (tileRun unit (rowOp 0x12) vldOp s)
def execVst (unit : Nat) (s : State) : Host.Outcome State Fault Refusal :=
  .next (tileRun unit (rowOp 0x13) vstOp s)
def execMma (unit : Nat) (s : State) : Host.Outcome State Fault Refusal :=
  .next (tileRun unit (rowOp 0x18) mmaOp s)
def execBr (unit : Nat) (s : State) : Host.Outcome State Fault Refusal :=
  .next (tileRun unit (rowOp 0x20) (branchOp (fun _ _ => true)) s)
def execBz (unit : Nat) (s : State) : Host.Outcome State Fault Refusal :=
  .next (tileRun unit (rowOp 0x21) (branchOp (fun c w => c.s (iA w) = 0)) s)
def execBnz (unit : Nat) (s : State) : Host.Outcome State Fault Refusal :=
  .next (tileRun unit (rowOp 0x22) (branchOp (fun c w => c.s (iA w) ≠ 0)) s)
def execBany (unit : Nat) (s : State) : Host.Outcome State Fault Refusal :=
  .next (tileRun unit (rowOp 0x23) (branchOp (fun c w => c.p (iA w % 8) ≠ 0)) s)
def execBnone (unit : Nat) (s : State) : Host.Outcome State Fault Refusal :=
  .next (tileRun unit (rowOp 0x24) (branchOp (fun c w => c.p (iA w % 8) = 0)) s)
def execRet (unit : Nat) (s : State) : Host.Outcome State Fault Refusal :=
  .next (tileRun unit (rowOp 0x30) (fun _ _ _ => .ret) s)
def execTrap (unit : Nat) (s : State) : Host.Outcome State Fault Refusal :=
  .next (tileRun unit (rowOp 0x31) (fun _ _ w => .fault 4 (iImm w)) s)

end Sys2Proof.Machine
end

