-- ==== Sys2Proof/Machine/HostIf.lean ====
section
/-! DEFINITION. The host interface: doorbells (R44, R247, R358), the control ring's registers (R45), fetch (R41, R369 to R371), the ends of host
reads (R157), event queues and MSI-X (R362 to R368), buffers (R333), the push window (R361), and accounting snapshots (R357). -/

namespace Sys2Proof.Machine

open Sys2Proof

/-- The host reaches the address spaces of a function; 16 is PF0 (R353). A function in D3hot answers configuration requests alone
(DEDUCED, assumption log 99). -/
def State.reaches (s : State) (fn : Nat) : Bool :=
  s.hostUp && (if fn < 16 then s.vfEnable && !(s.func fn).d3 && (s.part fn).live else fn = 16)

/-! ### Doorbells (R44, R247, R358, R373 step 1, R378) -/

def dropDoorbell (s : State) (p i : Nat) : State := s.onSlot p i fun x => { x with dbDrop := satAdd 0xFFFF x.dbDrop 1 }

/-- Doorbells act on the slot. -/
def State.bellOpen (s : State) (p i : Nat) : Bool := s.ready && (s.func p).disable.isNone && (s.slot p i).bound

def Slot.bellForward (x : Slot) (v : Nat) : Bool :=
  v < x.size && x.offset x.tail ≤ x.offset v

/-- SQ_DOORBELL. -/
def sqDoorbell (p i offset size value : Nat) (s : State) : State :=
  if !s.reaches p || 64 ≤ i then s
  else
    let x := s.slot p i
    let v := value % 65536
    if offset = 0 && size = 4 && s.bellOpen p i && x.bellForward v then s.onSlot p i fun x => { x with tail := v }
    else dropDoorbell s p i

/-- A command of 64 bytes at a ring index enters the fetch window; reservations that it kept come back (R43, R56). -/
def enterWindow (s : State) (p i index : Nat) (w : List Byte) (st : Stage) : State :=
  let x := s.slot p i
  let mine := fun k : Kept => k.job = x.job && k.ring = x.ring && k.index = index
  let ks := (s.part p).kept.filter mine
  let f : Flight := ⟨index, w, x.snare, 0, st, .none, [], [], 0, ks.flatMap fun k => k.rsv, false, [], 0, 0, none⟩
  (s.onPart p fun y => { y with kept := y.kept.filter fun k => !mine k }).onSlot p i fun x => { x with window := x.window ++ [f] }

/-- The slot fetches (R41, R45, R373, R378): not while the queue manager holds an entry that it has accepted (R420). -/
def State.fetches (s : State) (p i : Nat) : Bool :=
  let x := s.slot p i
  s.ready && (s.part p).live && s.fnUsable p && !(s.func p).fenced && x.bound && !x.draining && !x.stopped && (i ≠ 0 || x.csqEn) && !s.holds 5

/-- INLINE_DOORBELL: the command of index TAIL comes from the doorbell where it lies in the fetch window (DEDUCED, assumption log 94). -/
def inlineDoorbell (p i offset : Nat) (data : List Byte) (s : State) : State :=
  if !s.reaches p || 64 ≤ i then s
  else
    let x := s.slot p i
    let next := (x.tail + 1) % x.size
    if offset = 0x40 && data.length = 64 && s.bellOpen p i && next ≠ x.head then
      let s1 := pcieIn (s.onSlot p i fun x => { x with tail := next }) p 64
      if s.fetches p i && x.offset x.tail < 64 then enterWindow s1 p i x.tail data .fetched else s1
    else dropDoorbell s p i

/-! ### Slot 0's registers (R45) -/

def Slot.ringEmpty (x : Slot) : Bool := x.head = x.tail && x.doneMask = 0

/-- HUB_CSQ_CFG written. -/
def csqCfg (s : State) (p value : Nat) : State :=
  let x := s.slot p 0
  let on := bit value 31
  if x.csqEn then if on then s else (stopSlot (s.onSlot p 0 fun x => { x with csqEn := false }) p 0).1
  else
    let n := bits value 0 5
    s.onSlot p 0 fun x =>
      let x := { x with eq := bits value 8 4 }
      let x := if x.ringEmpty then { x with entriesLog2 := n, head := 0, tail := 0 } else x
      if on && 6 ≤ x.entriesLog2 && x.entriesLog2 ≤ 12 then { x with csqEn := true, dbDrop := if x.draining then x.dbDrop else 0 } else x

def csqEnable (p value : Nat) (s : State) : State := if s.reaches p && bit value 31 then csqCfg s p value else s

def csqDisable (p value : Nat) (s : State) : State :=
  if s.reaches p && !bit value 31 && (s.slot p 0).csqEn then csqCfg s p value else s

/-- HUB_CSQ_BASE, or HUB_CSQ_CFG with EN clear, written while EN is 0. -/
def csqRingConfig (p : Nat) (isBase : Bool) (value : Nat) (s : State) : State :=
  if !s.reaches p || (s.slot p 0).csqEn then s
  else if isBase then
    s.onSlot p 0 fun x => if x.ringEmpty then { x with base := value % 2 ^ 64 / 4096 * 4096, head := 0, tail := 0 } else x
  else if bit value 31 then s
  else csqCfg s p value

/-! ### Host reads in general (R157, R369, R370) -/

/-- R370: a partition may take one more tag (DEDUCED, assumption log 95). -/
def tagFree (s : State) (p : Nat) : Bool :=
  let used := fun q : Nat => (s.reads.filter fun e => e.2.part = q && !e.2.red).length
  used p < Config.tagLimit && poolAllows s Config.tags Config.tagFloor used p 1

/-- R369: a read of n bytes meets the ingress meter; snare says whether its slot has SNARE set. -/
def meterRead (s : State) (p n : Nat) (snare : Bool) : Colour × State :=
  let m := (s.part p).ingress.meter n (!snare || bestEffort s p)
  (m.1, if m.1 = .red then s else s.onPart p fun x => { x with ingress := m.2 })

/-- The units that wait for a read. -/
def waiters (s : State) (code : Nat) : List (Nat × Unit) := s.sched.units.filter fun e => e.2.reads.contains code

def failCause (code : Nat) : Nat := if code % 3 = 0 then Stall.hostFail else Stall.flashFail

/-- A read that units waited for has ended; the wait of a command counts once, as its last read under the cause ends (R156). -/
def endWait (s : State) (code : Nat) : State :=
  let l := waiters s code
  let s := l.foldl (fun s e => s.onUnit e.1 fun u => { u with reads := u.reads.filter fun k => k != code }) s
  (dedup (l.map fun e => e.2.cmd)).foldl noteCause s

/-- The error record of data that cannot be obtained; a flash read's own record comes from the flash manager (R299). -/
def readError (s : State) (p code addr status opcode tag : Nat) : State :=
  if code % 3 = 0 then hostReadError s p addr status opcode tag else s

/-- The elements of the units that wait for a read fail with MEDIA_ERROR (R157). -/
def failWait (s : State) (p code addr : Nat) : State :=
  let l := waiters s code
  let cs := dedup (l.map fun e => (e.2.cmd, e.2.elem))
  cs.foldl
    (fun s e =>
      let w := wordOf s e.1
      let s := readError s p code addr St.mediaError (cOpcode w) (cTag w)
      settleCommand (failElem s e.1 e.2 St.mediaError) e.1) (endWait s code)

/-- Commands that wait for the rest frame of a sequence (R222). -/
def restWaiters (x : Part) (p i : Nat) : List CmdRef :=
  x.slots.flatMap fun y => (y.2.window.filter fun f => f.stage = .waiting .restRead && f.seqs.contains i).map fun f => ⟨p, y.1, f.index⟩

/-- The sequences of a partition that are RESTORING. -/
def restoring (x : Part) : List Nat := (x.seqs.filter fun e => e.2.state = .restoring).map fun e => e.1

/-- A move whose read fails is abandoned (R140); a frame of a region that goes is reported (R155). -/
def failMove (s : State) (p id code addr : Nat) : State :=
  match Map.look (s.part p).moves id with
  | none => s
  | some m =>
    let s := readError s p code addr 0 0 0
    let s := abandonMove s p id
    match m.cmd with
    | some c => s.onFlight c fun f => match f.plan with
        | .region n l => { f with plan := .region n (l ++ [m.obj]) }
        | _ => f
    | none => s

/-- The bytes of a home copied into a tentative copy, its poison with them (R453). -/
def fillTent (s : State) (p frame : Nat) (home : Loc) (bytes tier : Nat) : State :=
  let x := s.part p
  let n := (Map.get x.dram frame ⟨0, [], []⟩).frames
  let s := countTier s p tier false bytes
  let s := t1Write s p bytes
  s.onPart p fun x => (putDram x frame n ((x.bytesAt home).take bytes)).setBad ⟨.page, 0, frame⟩ (x.badAt home)

/-- What the end of a host or flash read is to the memory side, other than one of command fetch or of the flash manager itself. -/
def landRead (s : State) (code : Nat) (r : ReadReq) (ok : Bool) : State :=
  let p := r.part
  let tier := if code % 3 = 0 then 1 else 2
  let x := s.part p
  match r.what with
  | .fetch _ _ => s
  | .copyOut _ _ => s
  | .move id =>
    match Map.look x.moves id with
    | none => s
    | some m =>
      if !ok then failMove s p id code r.addr
      else if m.step = .reading then writeMove (countTier s p tier false m.bytes) p id ((x.bytesAt m.src).take m.bytes)
      else if m.step = .programming then onMove s p id fun m => { m with step := .written }
      else s
  | .tentative psn layer =>
    match x.set psn with
    | none => endWait s code
    | some d =>
      match Map.look d.tents layer with
      | none => endWait s code
      | some t =>
        let home := Map.get d.loc layer Loc.none
        if !ok then
          let s := stall (dropTent (failWait s p code r.addr) p psn layer) p (failCause code) 0
          (restoring (s.part p)).foldl (fun s i => noteRestored s p i) s
        else
          let bad := x.badAt home ≠ []
          let s := fillTent s p t.frame home r.bytes tier
          let s := s.onSet p psn fun d => { d with tents := Map.edit d.tents layer fun t => { t with complete := true, doneS := s.nowS } }
          let s := if bad then failWait s p code r.addr else endWait s code
          (restoring (s.part p)).foldl (fun s i => noteRestored s p i) s
  | .tailTentative i layer =>
    match x.seq i with
    | none => endWait s code
    | some q =>
      match Map.look q.tailTents layer with
      | none => endWait s code
      | some t =>
        let home := Map.get q.tails layer Loc.none
        if !ok then noteRestored (stall (dropTailTent (failWait s p code r.addr) p i layer) p (failCause code) 0) p i
        else
          let bad := x.badAt home ≠ []
          let s := fillTent s p t.frame home r.bytes tier
          let s := s.onSeq p i fun q =>
            { q with tailTents := Map.edit q.tailTents layer fun t => { t with complete := true, doneS := s.nowS } }
          noteRestored (if bad then failWait s p code r.addr else endWait s code) p i
  | .restFrame i =>
    let waits := restWaiters x p i
    let s := if ok || waits = [] then s else stall s p (failCause code) 0
    let s := waits.foldl
      (fun s c =>
        let w := wordOf s c
        noteCause (if ok then setStage s c .requested
          else setStage (readError s p code r.addr St.mediaError (cOpcode w) (cTag w)) c (.rejected St.mediaError)) c) s
    match (s.part p).seq i with
    | none => s
    | some q =>
      match q.state, q.restTent with
      | .restoring, some t =>
        if ok then
          (fillTent s p t.frame q.restRef 65536 tier).onSeq p i fun q =>
            { q with restTent := q.restTent.map fun t => { t with complete := true, doneS := s.nowS } }
        else endRestore (stall s p (failCause code) 0) p i
      | _, _ => if ok && waits = [] then countTier s p tier false 65536 else s
  | .stream psn layer =>
    let bad := match x.set psn with
      | some d => x.badAt (Map.get d.loc layer Loc.none) ≠ []
      | none => false
    let s := if ok then countTier s p tier false r.bytes else stall s p (failCause code) 0
    if ok && !bad then endWait s code else failWait s p code r.addr
  | .streamTail i layer =>
    let bad := match x.seq i with
      | some q => x.badAt (Map.get q.tails layer Loc.none) ≠ []
      | none => false
    let s := if ok then countTier s p tier false r.bytes else stall s p (failCause code) 0
    if ok && !bad then endWait s code else failWait s p code r.addr
  | .serve _ _ _ _ => if ok then countTier s p tier false r.bytes else readError s p code r.addr 0 0 0

/-- The end of a host or flash read; the remote reads that waited for it are served (R339). -/
def finishRead (s : State) (code : Nat) (r : ReadReq) (ok : Bool) : State :=
  let s := landRead s code r ok
  match r.what with
  | .tentative psn layer => serveWaiting s r.part (fun _ v => v.psn = psn && v.layer = layer && !v.streamed) ok
  | .serve i g _ _ => serveWaiting s r.part (fun n v => n = i && v.group = g && v.streamed) ok
  | _ => s

/-! ### Command fetch (R41, R369 to R371) -/

/-- Ring indices that a slot has asked for and not received. -/
def asked (s : State) (p i : Nat) : List Nat :=
  s.reads.flatMap fun e => match e.2.what with
    | .fetch k l => if e.2.part = p && k = i then l else []
    | _ => []

/-- At most n consecutive indices from the first that the slot has still to fetch, within its window of 64. -/
def nextFetch (s : State) (p i n : Nat) : List Nat :=
  let x := s.slot p i
  let out := asked s p i
  let want := fun k : Nat =>
    let j := (x.head + k) % x.size
    k < x.offset x.tail && !x.doneMask.getLsbD k && !out.contains j && !(x.window.any fun f => f.index = j)
  let l := (List.range 64).dropWhile fun k => !want k
  ((l.takeWhile want).take n).map fun k => (x.head + k) % x.size

/-- The commands of a read enter the window. -/
def deliverFetch (s : State) (p i : Nat) (l : List Nat) : State :=
  let b := (s.slot p i).base
  pcieIn (l.foldl (fun s k => enterWindow s p i k (s.hostBytes (b + 64 * k) 64) .fetched) s) p (64 * l.length)

/-- R371: each ring index of a read that failed ends with a COMMAND record of OPCODE 0, TAG 0 and OPERAND_FAULT. -/
def failFetch (s : State) (p i : Nat) (l : List Nat) : State :=
  l.foldl
    (fun s k => commitWith (fun s _ _ _ => .hold s) ⟨p, i, k⟩ (enterWindow s p i k (List.replicate 64 0) (.rejected St.operandFault))) s

/-- COMMAND_FETCH: the slot reads its next commands; the read ends at once, or, deferred, by its completion (DEDUCED, assumption log 95). -/
def commandFetch (p i count : Nat) (defer : Bool) (s : State) : State :=
  let l := nextFetch s p i count
  let x := s.slot p i
  if !s.fetches p i || !s.hostUp || l = [] || !tagFree s p then s
  else
    let m := meterRead s p (64 * l.length) x.snare
    let red := m.1 = .red
    if defer || red then
      let s := m.2
      { s with reads := Map.put s.reads s.nextRead ⟨p, .fetch i l, x.base + 64 * l.headD 0, 64 * l.length, false, red, none, []⟩
               nextRead := s.nextRead + 1 }
    else deliverFetch m.2 p i l

/-- HOST_READ_COMPLETION: a failed read is retried once; while its function cannot read, it fails (R157, R374)
(DESIGN CHOICE, assumption log 108). -/
def hostReadCompletion (id : Nat) (result : ReadResult) (s : State) : State :=
  match Map.look s.reads id with
  | none => s
  | some r =>
    if r.red || !s.hostUp then s
    else
      let usable := s.fnUsable r.part
      let ok := result = .ok && usable
      if !ok && usable && !r.retried then { s with reads := Map.put s.reads id { r with retried := true } }
      else
        let s := { s with reads := Map.del s.reads id }
        match r.what with
        | .fetch i l => if ok then deliverFetch s r.part i l else failFetch s r.part i l
        | _ => finishRead s (hostCode id) r ok

/-- INGRESS_POLICER_RELEASE (R369): a red read is metered again after a time (DESIGN CHOICE, assumption log 100). -/
def ingressRelease (p id ns : Nat) (s : State) : State :=
  match Map.look s.reads id with
  | none => s
  | some r =>
    if r.part ≠ p || !r.red then s
    else
      let s := s.onPart p fun x => { x with ingress := x.ingress.refill ns }
      let snare := match r.what with
        | .fetch i _ => (s.slot p i).snare
        | _ => false
      let m := meterRead s p r.bytes snare
      if m.1 = .red then s else { m.2 with reads := Map.put m.2.reads id { r with red := false } }

/-! ### Event queues (R362 to R368) -/

/-- Something names the queue, so that EN cannot be cleared (R362). -/
def eqNamed (x : Part) (q : Nat) : Bool :=
  (x.slots.any fun e => e.2.bound && e.2.eq = q && (e.1 ≠ 0 || e.2.csqEn || e.2.draining)) ||
    (x.buffers.any fun e => e.2.valid && e.2.fields.eq = q) || x.qps.any fun e => e.2.state != .reset && e.2.eq = q

/-- The fields of EVT_EQ_CFG that any write sets; the ring's size only while EN is 0. -/
def eqFields (fn value : Nat) (e : EventQueue) : EventQueue :=
  { e with
    entriesLog2 := if e.en then e.entriesLog2 else bits value 0 5
    vector := if fn < 16 then bits value 8 4 else 0
    coalCount := bits value 16 8 }

/-- EQ_ENABLE: EN changes from 0 to 1, or, with a size out of range, stays 0. -/
def eqEnable (fn q value : Nat) (s : State) : State :=
  if !s.reaches fn || 16 ≤ q || (fn = 16 && q ≠ 0) || !bit value 31 then s
  else
    let s := s.onEq fn q fun e =>
      let was := e.en
      let e := eqFields fn value e
      if was then e
      else if 7 ≤ e.entriesLog2 && e.entriesLog2 ≤ 20 then
        { e with en := true, head := 0, tail := 0, phase := true, eseq := 0, unsignalled := 0, timerDue := false }
      else e
    signalIfDue s fn q

/-- EQ_DISABLE. -/
def eqDisable (fn q value : Nat) (s : State) : State :=
  if !s.reaches fn || 16 ≤ q || (fn = 16 && q ≠ 0) || bit value 31 then s
  else
    let e := s.eq fn q
    let s := s.onEq fn q (eqFields fn value)
    if !e.en || e.overflow ≠ [] || (fn < 16 && eqNamed (s.part fn) q) then s
    else s.onEq fn q fun e => { e with en := false }

/-- R363: the new HEAD lies between the old one and TAIL. -/
def EventQueue.headOk (e : EventQueue) (v : Nat) : Bool :=
  v < e.size && (v + e.size - e.head) % e.size ≤ (e.tail + e.size - e.head) % e.size

/-- EQ_HEAD_WRITE: space is freed for the overflow ring first (R367). -/
def eqHeadWrite (fn q value : Nat) (s : State) : State :=
  if !s.reaches fn || 16 ≤ q || (fn = 16 && q ≠ 0) then s
  else
    let v := bits value 0 20
    if (s.eq fn q).headOk v then
      let s := s.onEq fn q fun e => { e with head := v, arm := e.arm || e.autoArm }
      signalIfDue (deliverOverflow fn q (s.eq fn q).backlog s) fn q
    else s.onEq fn q fun e => { e with headErr := true }

/-- EQ_ARM. -/
def eqArm (fn q : Nat) (s : State) : State :=
  if !s.reaches fn || 16 ≤ q || (fn = 16 && q ≠ 0) then s
  else signalIfDue (s.onEq fn q fun e => { e with arm := true }) fn q

/-- COALESCE_TIMER_EXPIRY. -/
def coalesceTimer (fn q : Nat) (s : State) : State :=
  let e := s.eq fn q
  if e.coalUs = 0 || e.unsignalled = 0 then s
  else signalIfDue (s.onEq fn q fun e => { e with timerDue := true }) fn q

/-- MSIX_UNMASK. -/
def msixUnmask (fn v : Nat) (s : State) : State :=
  if !s.reaches fn || 16 ≤ v || (fn = 16 && v ≠ 0) then s
  else
    let x := vector s fn v
    let s := setVector s fn v { x with masked := false, pending := false }
    if x.pending then s.issue (.message fn v) else s

/-! ### Buffers, the push window, snapshots, credits -/

/-- R333: the generation after one. -/
def nextGen (g : Nat) : Nat := if g = 255 then 1 else g + 1

def Part.buffer (x : Part) (i : Nat) : Buffer := Map.get x.buffers i Buffer.reset

def State.onBuffer (s : State) (p i : Nat) (g : Buffer → Buffer) : State :=
  s.onPart p fun x => { x with buffers := Map.put x.buffers i (g (x.buffer i)) }

/-- What a migration has reserved for a buffer is given back (R342). -/
def dropMigration (s : State) (p i : Nat) : State :=
  match ((s.part p).buffer i).migration with
  | none => s
  | some m =>
    trimTables (((m.tails ++ m.pages).foldl (fun s f => freeObject s p f) s).onBuffer p i fun b => { b with migration := none }) p

/-- An entry posted or withdrawn: GEN rises, and what lay in it is abandoned. -/
def rewriteBuffer (s : State) (p i : Nat) (e : BufFields) (valid : Bool) : State :=
  let s := dropMigration s p i
  let n := s.uses + 1
  ({ s with uses := n } : State).onBuffer p i fun b =>
    { b with fields := e, gen := nextGen b.gen, valid := valid, data := [], posted := n, group := none }

def setBuffer (s : State) (p i : Nat) (e : BufFields) (valid : Bool) : State :=
  if !s.reaches p || 16384 ≤ i then s else rewriteBuffer s p i e valid

/-- PUSH_WINDOW_WRITE (DEDUCED, assumption log 123). -/
def pushWrite (p offset : Nat) (data : List Byte) (s : State) : State :=
  if !(s.hostUp && s.vfEnable && p < 16 && !(s.func p).d3) then s
  else
    let n := (s.part p).sliceBytes
    let keep := data.take (n - offset)
    let s := if keep.length < data.length then s.onFunc p fun f => { f with pushDrops := satAdd 0xFFFF f.pushDrops 1 } else s
    if keep = [] then s else pcieIn (s.onPart p fun x => { x with push := Memory.writeBytes x.push offset keep }) p keep.length

/-- ACCT_SNAPSHOT_LATCH (DESIGN CHOICE, assumption log 150). -/
def acctSnapshot (fromPf0 : Bool) (p : Nat) (s : State) : State :=
  if !s.reaches (if fromPf0 then 16 else p) || 16 ≤ p then s
  else
    let r := acctRecord s p
    s.onPart p fun x => if fromPf0 then { x with snapPf := r } else { x with snapVf := r }

/-- PCIE_POSTED_CREDIT_RETURN (R34): writes that wait are issued, oldest first. -/
def creditReturn (n : Nat) (s : State) : State :=
  let s := { s with credits := s.credits + n }
  s.drainOut s.outq.length

/-! ### The rows -/

def execSqDoorbell (part slot offset size value : Nat) (s : State) : Host.Outcome State Fault Refusal :=
  .next (s.access (.sqDoorbell part slot offset size value) (sqDoorbell part slot offset size value))
def execInlineDoorbell (part slot offset : Nat) (data : List Byte) (s : State) : Host.Outcome State Fault Refusal :=
  .next (s.access (.inlineDoorbell part slot offset data) (inlineDoorbell part slot offset data))
def execCsqEnable (part value : Nat) (s : State) : Host.Outcome State Fault Refusal :=
  .next (s.access (.csqEnable part value) (csqEnable part value))
def execCsqDisable (part value : Nat) (s : State) : Host.Outcome State Fault Refusal :=
  .next (s.access (.csqDisable part value) (csqDisable part value))
def execCsqRingConfigWrite (part : Nat) (isBase : Bool) (value : Nat) (s : State) : Host.Outcome State Fault Refusal :=
  .next (s.access (.csqRingConfigWrite part isBase value) (csqRingConfig part isBase value))
def execCommandFetch (part slot count : Nat) (defer : Bool) (s : State) : Host.Outcome State Fault Refusal :=
  .next (commandFetch part slot count defer s)
def execHostReadCompletion (id : Nat) (result : ReadResult) (s : State) : Host.Outcome State Fault Refusal :=
  .next (hostReadCompletion id result s)
def execCompletionTimeout (id : Nat) (s : State) : Host.Outcome State Fault Refusal := .next (hostReadCompletion id .error s)
def execIngressPolicerRelease (part id elapsedNs : Nat) (s : State) : Host.Outcome State Fault Refusal :=
  .next (ingressRelease part id elapsedNs s)
def execEqEnable (fn queue value : Nat) (s : State) : Host.Outcome State Fault Refusal :=
  .next (s.access (.eqEnable fn queue value) (eqEnable fn queue value))
def execEqDisable (fn queue value : Nat) (s : State) : Host.Outcome State Fault Refusal :=
  .next (s.access (.eqDisable fn queue value) (eqDisable fn queue value))
def execEqHeadWrite (fn queue value : Nat) (s : State) : Host.Outcome State Fault Refusal :=
  .next (s.access (.eqHeadWrite fn queue value) (eqHeadWrite fn queue value))
def execEqArm (fn queue : Nat) (s : State) : Host.Outcome State Fault Refusal :=
  .next (s.access (.eqArm fn queue) (eqArm fn queue))
def execCoalesceTimerExpiry (fn queue : Nat) (s : State) : Host.Outcome State Fault Refusal := .next (coalesceTimer fn queue s)
def execMsixUnmask (fn vector : Nat) (s : State) : Host.Outcome State Fault Refusal :=
  .next (s.access (.msixUnmask fn vector) (msixUnmask fn vector))
def execBufferPost (part index : Nat) (e : BufFields) (s : State) : Host.Outcome State Fault Refusal :=
  .next (s.access (.bufferPost part index e) fun s => setBuffer s part index e true)
def execBufferWithdraw (part index : Nat) (e : BufFields) (s : State) : Host.Outcome State Fault Refusal :=
  .next (s.access (.bufferWithdraw part index e) fun s => setBuffer s part index e false)
def execPushWindowWrite (part offset : Nat) (data : List Byte) (s : State) : Host.Outcome State Fault Refusal :=
  .next (s.access (.pushWindowWrite part offset data) (pushWrite part offset data))
def execAcctSnapshotLatch (fromPf0 : Bool) (part : Nat) (s : State) : Host.Outcome State Fault Refusal :=
  .next (s.access (.acctSnapshotLatch fromPf0 part) (acctSnapshot fromPf0 part))
def execPciePostedCreditReturn (credits : Nat) (s : State) : Host.Outcome State Fault Refusal := .next (creditReturn credits s)

end Sys2Proof.Machine
end

