-- ==== Sys2Proof/Machine/Migrate.lean ====
section
/-! DEFINITION. Migration (R124, R227, R341 to R344): the message that a seq_migrate sends, the command, and what the receiver makes of the
header and of the flag. -/

namespace Sys2Proof.Machine

open Sys2Proof

def cQp (w : List Byte) : Nat := field w 0x14 4 % 2 ^ 24

/-! ### The message (R341) -/

/-- A time field relative to the sender's clock; 0 is sent as 0x8000_0000. -/
def relTime (now t : Nat) : Nat := if t = 0 then 0x80000000 else (t + 2 ^ 32 - now % 2 ^ 32) % 2 ^ 32

/-- The receiver's reading of such a field. -/
def absTime (now v : Nat) : Nat := if v = 0x80000000 then 0 else (v + now) % 2 ^ 32

/-- MSG_BYTES: the sum of all slot sizes. -/
def messageBytes (m : Model) (n : Nat) (tail : Bool) : Nat :=
  65536 + (if tail then m.layers * m.stagingBytes else 0) + n * (65536 + m.layers * 1024 * m.pageKib)

/-- Offsets of the tail page of a layer, of page set k, and of its page of a layer. -/
def tailAt (m : Model) (l : Nat) : Nat := 0x10000 + l * m.stagingBytes
def setAt (m : Model) (tail : Bool) (k : Nat) : Nat :=
  0x10000 + (if tail then m.layers * m.stagingBytes else 0) + k * (65536 + m.layers * 1024 * m.pageKib)
def pageAt (m : Model) (tail : Bool) (k l : Nat) : Nat := setAt m tail k + 65536 + l * 1024 * m.pageKib

/-- The first 4,096 bytes: header, entry image, token tail. -/
def headerBytes (s : State) (x : Part) (q : Seq) (i : Nat) : List Byte :=
  let m := x.model q.model
  let tail := q.length % 256 ≠ 0
  let rel := relTime s.nowS
  let sent : Seq := { q with
    lastUse := rel q.lastUse, parkTime := rel q.parkTime, predTime := rel q.predTime, holdEnd := 0, specPages := 0, restored := false }
  slice ([0x5A, 0x4D, 0x47, 0x31] ++ leBytes 4 1 ++ leBytes 8 m.tag ++ leBytes 2 m.layers ++ leBytes 1 m.kvHeads ++ leBytes 1 m.qPerKv ++
    leBytes 2 m.headDim ++ leBytes 2 m.cacheFormat ++ leBytes 4 m.pageKib ++ leBytes 4 q.length ++ leBytes 4 (q.length / 256) ++
    leBytes 4 (Bool.bit tail) ++ leBytes 8 (messageBytes m (q.length / 256) tail)) 0 0x100 ++
    overlay 0x100 (entryImage x sent i) 7 [0] ++ slice (tokenBytes q.tokenTail) 0 1024 ++ List.replicate 0xA00 0

/-- The retention age of a page homed in flash, 0 for another (R297). -/
def pageAge (s : State) (x : Part) (l : Loc) : Nat :=
  if l.kind = .empty || l.tier ≠ 2 then 0
  else match Map.look x.flash.map l.frame with
    | some e => retentionAge s e
    | none => 0

/-- The data of page set k: tokens, retention ages, source tiers. -/
def setBytes (s : State) (x : Part) (m : Model) (psn : Nat) : List Byte :=
  match x.set psn with
  | none => []
  | some d =>
    let ls := (List.range m.layers).map fun l => Map.get d.loc l Loc.none
    slice (tokenBytes d.tokens) 0 1024 ++ slice (ls.flatMap fun l => leBytes 4 (pageAge s x l)) 0 1024 ++
      slice (ls.map fun l => BitVec.ofNat 8 l.tier) 0 2048

def pageBytes (x : Part) (m : Model) (psn layer : Nat) : List Byte :=
  match x.set psn with
  | none => []
  | some d => slice (x.bytesAt (Map.get d.loc layer Loc.none)) 0 m.footprint

/-- Everything that is sent after the header and page-table packets have been acknowledged: offsets and bytes. -/
def bulkParts (s : State) (x : Part) (q : Seq) : List (Nat × List Byte) :=
  let m := x.model q.model
  let tail := q.length % 256 ≠ 0
  let tails := if tail then (List.range m.layers).map fun l => (tailAt m l, slice (x.bytesAt (Map.get q.tails l Loc.none)) 0 m.stagingBytes) else []
  tails ++ (q.pt.zipIdx.flatMap fun e =>
    (setAt m tail e.2, setBytes s x m e.1.psn) :: (List.range m.layers).map fun l => (pageAt m tail e.2 l, pageBytes x m e.1.psn l))

/-! ### seq_migrate (R227) -/

/-- The homes of a sequence's pages. -/
def pageHomes (x : Part) (q : Seq) : List Loc :=
  q.pt.flatMap fun e => match x.set e.psn with
    | some d => (Map.vals d.loc).filter fun l => l.kind != .empty
    | none => []

/-- A full staging page of the sequence has still to be flushed (DEDUCED, assumption log 88). -/
def unflushed (x : Part) (q : Seq) : Bool :=
  q.pt.any fun e => match x.set e.psn with
    | some d => d.loc.any fun l => l.2.kind = .staging
    | none => false

/-- The objects of the message: every page of every set, and the tail pages. -/
def migrateObjs (i : Nat) (q : Seq) (m : Model) : List MoveObj :=
  (q.pt.flatMap fun e => (List.range m.layers).map fun l => MoveObj.page e.psn l) ++ (Map.keys q.tails).map fun l => .tail i l

/-- The bytes of them that lie in DRAM (R265). -/
def migrateDram (x : Part) (q : Seq) (m : Model) : Nat :=
  m.footprint * ((pageHomes x q).filter fun l => l.tier = 0).length + m.stagingBytes * ((Map.vals q.tails).filter fun l => l.tier = 0).length

/-- Parts of a message queued as WRITE packets. -/
def sendParts (p qp group buf : Nat) (c : CmdRef) : List (Nat × List Byte) → State → State
  | [], s => s
  | b :: r, s => sendParts p qp group buf c r (enqueueBytes p qp group buf b.1 0 0 (some c) (pieces b.2) 0 s)

def startSeqMigrate (s : State) (c : CmdStep) (_ : Slot) (f : Flight) : Start :=
  let p := c.ref.part
  let w := f.word
  let i := handleIndex (cHandle w)
  match (s.part p).handle (cHandle w) with
  | none => .reject s St.invalidHandle
  | some q =>
    let qp := cQp w % 65536
    if q.isOpen then .reject s St.stepOpen
    else if cQp w / 65536 ≠ p || ((s.part p).qp qp).state != .ready then .reject s St.operandRange
    else
      wakeThen s c f i fun s =>
        match (s.part p).seq i with
        | none => .reject s St.invalidHandle
        | some q =>
          let m := (s.part p).model q.model
          let sets := q.pt.map fun e => e.psn
          match waitSegments s c.ref sets with
          | some s => .go s
          | none =>
          -- the wait for the flush of its own pages has no cause of R156
          if unflushed (s.part p) q then .go (waitFree s c.ref .alloc)
          else match cmdReads s p c w q.homeQ (migrateObjs i q m) with
          | .fails s => .reject s St.mediaError
          | .wait s => .go s
          | .done s =>
            let s := pinFor (t1Read s p (migrateDram (s.part p) q m)) c.ref sets
            let g := commandGroup s c.ref qp
            let head := (0, headerBytes s (s.part p) q i)
            let table := if q.pt = [] then [] else [(0x1000, q.pt.flatMap fun e => leBytes 8 e.word)]
            let s := sendParts p qp g.1 (field w 0x18 8) c.ref (head :: table) g.2
            .go (setStage (setPlan s c.ref (.migrate qp g.1 0 false)) c.ref (.waiting .migrateData))

/-- The phases of the message: header and page table, data, flag. A phase ends when everything sent has been acknowledged. -/
def commitSeqMigrate (s : State) (c : CmdRef) (_ : Slot) (f : Flight) : Commit :=
  let p := c.part
  let w := f.word
  let i := handleIndex (cHandle w)
  let dest := field w 0x18 8
  match f.plan, (s.part p).handle (cHandle w) with
  | .migrate qp g phase failed, some q =>
    if failed then .reject (dropGroup s p qp c g) St.remoteFail
    else if !((s.part p).qp qp).clear c then .hold s
    else if phase = 0 then
      let parts := bulkParts s (s.part p) q
      let s := sendParts p qp g dest c parts s
      .hold (setStage (setPlan s c (.migrate qp g 1 false)) c (if parts = [] then .held else .waiting .migrateData))
    else if phase = 1 then
      let s := enqueue s p qp (fun peer => packetTo s p qp peer 0x00 g dest 0 0 true []) (some c)
      .hold (setStage (setPlan s c (.migrate qp g 2 false)) c (.waiting .migrateFlag))
    else
      let s := f.pins.foldl (fun s e => (List.range ((s.part p).model q.model).layers).foldl (fun s l => promote s p e.1 l) s) s
      .done (closeSeq s p i c) St.success (q.length / 256) q.length []
  | _, _ => .reject s St.invalidHandle

/-! ### The header at the receiver (R342) -/

def Buffer.bytes (b : Buffer) (off n : Nat) : List Byte := (List.range n).map fun j => Map.get b.data (off + j) 0
def Buffer.num (b : Buffer) (off n : Nat) : Nat := leNat (b.bytes off n)

/-- The registered model of a header; none where the tag, the geometry or the cache format fails. -/
def headerModel (x : Part) (h : List Byte) : Option Nat :=
  (x.models.find? fun e =>
    let m := e.2
    m.tag = field h 8 8 && m.layers = field h 0x10 2 && m.kvHeads = field h 0x12 1 && m.qPerKv = field h 0x13 1 &&
      m.headDim = field h 0x14 2 && m.cacheFormat = field h 0x16 2 && m.pageKib = field h 0x18 4).map fun e => e.1

/-- R342: the checks of a header. -/
def headerOk (x : Part) (b : Buffer) (h : List Byte) : Bool :=
  (headerModel x h).isSome && field h 0x1C 4 ≤ 1048576 && field h 0x28 8 ≤ b.fields.length

/-- DRAM for a list of objects, without rejecting or pre-empting anything: the frames, or none of them (DEDUCED, assumption log 87). -/
def reserveFrames (p home : Nat) : List Nat → State → State × Option (List Nat)
  | [], s => (s, some [])
  | n :: r, s =>
    let t := reclaim p home n (reclaimTries (s.part p)) s
    match t.2 with
    | none => (t.1, none)
    | some f =>
      let u := reserveFrames p home r (t.1.onPart p fun x => putDram x f n [])
      match u.2 with
      | none => (freeObject u.1 p f, none)
      | some l => (u.1, some (f :: l))

/-- A hot entry, and DRAM for every page and tail page and for the tables of the sequence (R77, R79, R146), or nothing
(DEDUCED, assumption log 87). -/
def reserveMigration (s : State) (p : Nat) (h : List Byte) : State × Option Migration :=
  match headerModel (s.part p) h with
  | none => (s, none)
  | some k =>
    let m := (s.part p).model k
    let length := field h 0x1C 4
    if !mayTakeHot s p then (s, none)
    else
      let home := openHome (s.part p) []
      let nt := if length % 256 = 0 then 0 else m.layers
      let t := (s.part p).tableNeed (tableSlots (length / 256)) (length / 256)
      let r := reserveFrames p home
        (t.frames ++ List.replicate nt m.stagingFrames ++ List.replicate (length / 256 * m.layers) m.pageFrames) s
      match r.2 with
      | none => (r.1, none)
      | some fs =>
        let l := fs.drop t.frames.length
        (r.1.onPart p fun x => x.giveTables t fs, some ⟨k, length, home, l.take nt, l.drop nt⟩)

/-! ### The flag at the receiver (R124, R343) -/

/-- An arriving page set k named as an own set: its pages come to their reserved frames, with the header of the new set (R72); its digest is
written. Answers the page-table entry. -/
def takeSet (s : State) (p : Nat) (b : Buffer) (g : Migration) (k : Nat) (d : BitVec 128) : State × PtEntry :=
  let m := (s.part p).model g.model
  let tail := g.length % 256 ≠ 0
  let n := freshPsn (s.part p) g.home
  let frames := (g.pages.drop (k * m.layers)).take m.layers
  let loc := frames.zipIdx.map fun f => (f.2, (⟨.page, 0, f.1⟩ : Loc))
  let set : PageSet :=
    { newSet g.model k s.nowS 0 (words (b.bytes (setAt m tail k) 1024)) 0 with
      loc := loc, staged := [], full := true, layersFlushed := m.layers, digest := d }
  let page := fun l : Nat => pageHeader m l n set ++ (b.bytes (pageAt m tail k l) m.footprint).drop 0x800
  let s := frames.zipIdx.foldl (fun s f => newObject s p f.1 m.pageFrames (page f.2)) s
  (s.onPart p fun x => { x with sets := Map.put x.sets n set }, ⟨n, false⟩)

/-- R124: sets from k on; while hit holds, the receiver's own sets replace the arriving ones. Answers the page table
(DESIGN CHOICE, assumption log 161). -/
def takeSets (p : Nat) (b : Buffer) (g : Migration) : Nat → Nat → Bool → BitVec 128 → State → State × List PtEntry
  | 0, _, _, _, s => (s, [])
  | n + 1, k, hit, prev, s =>
    let x := s.part p
    let m := x.model g.model
    let tokens := words (b.bytes (setAt m (g.length % 256 ≠ 0) k) 1024)
    let d := digestOf m.tag x.grant.salt prev tokens
    let found := if !hit then none else (probe x d g.model k).filter fun e => match x.set e.2.psn with
      | some o => o.tokens = tokens
      | none => false
    match found with
    | some e =>
      let s := ((g.pages.drop (k * m.layers)).take m.layers).foldl (fun s f => freeObject s p f) s
      let r := takeSets p b g n (k + 1) true d (addRef s p e.2.psn)
      (r.1, ⟨e.2.psn, true⟩ :: r.2)
    | none =>
      let t := takeSet s p b g k d
      let r := takeSets p b g n (k + 1) false d t.1
      (r.1, t.2 :: r.2)

/-- R343, last sentences: own pages whose source tier was flash move to the partition's flash. -/
def returnToFlash (s : State) (p : Nat) (b : Buffer) (g : Migration) (pt : List PtEntry) : State :=
  let m := (s.part p).model g.model
  let tail := g.length % 256 ≠ 0
  if (s.part p).flashChannels = [] then s
  else
    pt.zipIdx.foldl
      (fun s e =>
        if e.1.shared then s
        else (List.range m.layers).foldl
          (fun s l =>
            if b.num (setAt m tail e.2 + 0x800 + l) 1 ≠ 2 then s
            else
              let id := (s.part p).nextMove
              let src := match (s.part p).set e.1.psn with
                | some d => Map.get d.loc l Loc.none
                | none => Loc.none
              let age := b.num (setAt m tail e.2 + 0x400 + 4 * l) 4
              onMove (selectMove s p (.page e.1.psn l) .pressure src m.footprint none) p id fun v => { v with srcAge := age }) s) s

/-- The commit of a migration: the new sequence and its handle, the sets matched and the sets kept. -/
structure Arrived where
  state : State
  handle : Nat
  matched : Nat
  kept : Nat

def commitMigration (s : State) (p k : Nat) (b : Buffer) (g : Migration) : Arrived :=
  let m := (s.part p).model g.model
  let n := g.length / 256
  -- the reservation of the hot entry becomes the sequence's
  let s := s.onBuffer p k fun b => { b with migration := none }
  let i := freshIndex (s.part p)
  let r := takeSets p b g n 0 true 0 s
  let s := g.tails.zipIdx.foldl (fun s f => newObject s p f.1 m.stagingFrames (b.bytes (tailAt m f.2) m.stagingBytes)) r.1
  let img := b.bytes 0x100 0x100
  let time := fun off => absTime s.nowS (field img off 4)
  let q : Seq :=
    { newSeq s p i g.model g.home g.length r.2 with
      tails := g.tails.zipIdx.map fun f => (f.2, (⟨.page, 0, f.1⟩ : Loc))
      tokenTail := (words (b.bytes 0x200 1024)).take (g.length % 256)
      lastUse := time 0x18
      parkWait := field img 0x1C 4
      parkTime := time 0xB0
      predTime := time 0xB4
      predicted := bit (field img 0xBE 1) 0
      hinted := bit (field img 0xBE 1) 1 }
  let s := returnToFlash (putSeq s p i q) p b g r.2
  let hit := leadingShared r.2
  ⟨trimTables s p, q.handleOf i, hit, n - hit⟩

end Sys2Proof.Machine
end

