-- ==== Sys2Proof/Machine/Commands.lean ====
section
/-! DEFINITION. The rows of the Mbatas commands, each over the shared life of a command (Machine/Flow.lean) and its own start and commit; the
rows of the commit unit (R49, R259); and the rows by which a waiting command goes on (R58, R89, R95). -/

namespace Sys2Proof.Machine

open Sys2Proof

/-! ### The opcodes -/

def isPrefixEvictModel (w : List Byte) : Bool := cOpcode w = Op.prefixEvict && evictMode w ≠ 1
def isPrefixEvictSequence (w : List Byte) : Bool := cOpcode w = Op.prefixEvict && evictMode w = 1

def refuseStart (s : State) (_ : CmdStep) (_ : Slot) (_ : Flight) : Start := .reject s St.unknownOpcode
def refuseCommit (s : State) (_ : CmdRef) (_ : Slot) (_ : Flight) : Commit := .reject s St.unknownOpcode

/-- The start and the commit of each opcode (R214). -/
def opTable : List (Nat × (State → CmdStep → Slot → Flight → Start) × (State → CmdRef → Slot → Flight → Commit)) :=
  [(Op.jobCreate, startJobCreate, commitJobCreate),
    (Op.jobDestroy, startJobDestroy, commitJobDestroy),
    (Op.jobBind, startJobBind, commitJobBind),
    (Op.jobUnbind, startJobUnbind, commitJobUnbind),
    (Op.jobReset, startJobReset, commitJobReset),
    (Op.modelRegister, startModelRegister, commitModelRegister),
    (Op.modelUnregister, startModelUnregister, commitModelUnregister),
    (Op.kernelLoad, startKernelLoad, commitKernelLoad),
    (Op.kernelUnload, startKernelUnload, commitKernelUnload),
    (Op.capRead, startCapRead, commitCapRead),
    (Op.seqOpen, startSeqOpen, commitSeqOpen),
    (Op.seqFork, startSeqFork, commitSeqFork)] ++
  [(Op.seqTrim, startSeqTrim, commitSeqTrim),
    (Op.seqClose, startSeqClose, commitSeqClose),
    (Op.seqPark, startSeqPark, commitSeqPark),
    (Op.seqResume, startSeqResume, commitSeqResume),
    (Op.seqHint, startSeqHint, commitSeqHint),
    (Op.specCancel, startSpecCancel, commitSpecCancel),
    (Op.seqQuery, startSeqQuery, commitSeqQuery),
    (Op.kvRead, startKvRead, commitKvRead),
    (Op.prefixProbe, startPrefixProbe, commitPrefixProbe),
    (Op.prefixPublish, startPrefixPublish, commitPrefixPublish),
    (Op.prefixRetain, startPrefixRetain, commitPrefixRetain),
    (Op.hostRegionAdd, startHostRegionAdd, commitHostRegionAdd)] ++
  [(Op.hostRegionRemove, startHostRegionRemove, commitHostRegionRemove),
    (Op.seqMigrate, startSeqMigrate, commitSeqMigrate),
    (Op.kernelRun, startKernelRun, commitKernelRun),
    (Op.nop, startNop, commitNop),
    (Op.fence, startFence, commitFence),
    (Op.wait, startWait, commitWait),
    (Op.signal, startSignal, commitSignal),
    (Op.acctRead, startAcctRead, commitAcctRead),
    (Op.eventPost, startEventPost, commitEventPost),
    (Op.append, startAttention, commitAttention),
    (Op.attend, startAttention, commitAttention),
    (Op.extend, startAttention, commitAttention)]

/-- The start of a command by its opcode; prefix_evict by its MODE. -/
def startOp (w : List Byte) : State → CmdStep → Slot → Flight → Start :=
  if isPrefixEvictSequence w then startPrefixEvictSequence
  else if isPrefixEvictModel w then startPrefixEvictModel
  else (Map.get opTable (cOpcode w) (refuseStart, refuseCommit)).1

/-- What the commit unit does for a command, by its opcode. -/
def commitOp (s : State) (c : CmdRef) (x : Slot) (f : Flight) : Commit :=
  if isPrefixEvictSequence f.word then commitPrefixEvictSequence s c x f
  else if isPrefixEvictModel f.word then commitPrefixEvictModel s c x f
  else (Map.get opTable (cOpcode f.word) (refuseStart, refuseCommit)).2 s c x f

/-- The commit stage of R49 for one command. -/
def commitCmd (c : CmdRef) (s : State) : State := commitWith commitOp c s

/-! ### The rows of the commands -/

def execJobCreate (c : CmdStep) (s : State) : Host.Outcome State Fault Refusal :=
  .next (runCommand (fun w => cOpcode w = Op.jobCreate) startJobCreate commitCmd c s)

def execJobDestroy (c : CmdStep) (s : State) : Host.Outcome State Fault Refusal :=
  .next (runCommand (fun w => cOpcode w = Op.jobDestroy) startJobDestroy commitCmd c s)

def execJobBind (c : CmdStep) (s : State) : Host.Outcome State Fault Refusal :=
  .next (runCommand (fun w => cOpcode w = Op.jobBind) startJobBind commitCmd c s)

def execJobUnbind (c : CmdStep) (s : State) : Host.Outcome State Fault Refusal :=
  .next (runCommand (fun w => cOpcode w = Op.jobUnbind) startJobUnbind commitCmd c s)

def execJobReset (c : CmdStep) (s : State) : Host.Outcome State Fault Refusal :=
  .next (runCommand (fun w => cOpcode w = Op.jobReset) startJobReset commitCmd c s)

def execModelRegister (c : CmdStep) (s : State) : Host.Outcome State Fault Refusal :=
  .next (runCommand (fun w => cOpcode w = Op.modelRegister) startModelRegister commitCmd c s)

def execModelUnregister (c : CmdStep) (s : State) : Host.Outcome State Fault Refusal :=
  .next (runCommand (fun w => cOpcode w = Op.modelUnregister) startModelUnregister commitCmd c s)

def execKernelLoad (c : CmdStep) (s : State) : Host.Outcome State Fault Refusal :=
  .next (runCommand (fun w => cOpcode w = Op.kernelLoad) startKernelLoad commitCmd c s)

def execKernelUnload (c : CmdStep) (s : State) : Host.Outcome State Fault Refusal :=
  .next (runCommand (fun w => cOpcode w = Op.kernelUnload) startKernelUnload commitCmd c s)

def execCapRead (c : CmdStep) (s : State) : Host.Outcome State Fault Refusal :=
  .next (runCommand (fun w => cOpcode w = Op.capRead) startCapRead commitCmd c s)

def execSeqOpen (c : CmdStep) (s : State) : Host.Outcome State Fault Refusal :=
  .next (runCommand (fun w => cOpcode w = Op.seqOpen) startSeqOpen commitCmd c s)

def execSeqFork (c : CmdStep) (s : State) : Host.Outcome State Fault Refusal :=
  .next (runCommand (fun w => cOpcode w = Op.seqFork) startSeqFork commitCmd c s)

def execSeqTrim (c : CmdStep) (s : State) : Host.Outcome State Fault Refusal :=
  .next (runCommand (fun w => cOpcode w = Op.seqTrim) startSeqTrim commitCmd c s)

def execSeqClose (c : CmdStep) (s : State) : Host.Outcome State Fault Refusal :=
  .next (runCommand (fun w => cOpcode w = Op.seqClose) startSeqClose commitCmd c s)

def execSeqPark (c : CmdStep) (s : State) : Host.Outcome State Fault Refusal :=
  .next (runCommand (fun w => cOpcode w = Op.seqPark) startSeqPark commitCmd c s)

def execSeqResume (c : CmdStep) (s : State) : Host.Outcome State Fault Refusal :=
  .next (runCommand (fun w => cOpcode w = Op.seqResume) startSeqResume commitCmd c s)

def execSeqHint (c : CmdStep) (s : State) : Host.Outcome State Fault Refusal :=
  .next (runCommand (fun w => cOpcode w = Op.seqHint) startSeqHint commitCmd c s)

def execSpecCancel (c : CmdStep) (s : State) : Host.Outcome State Fault Refusal :=
  .next (runCommand (fun w => cOpcode w = Op.specCancel) startSpecCancel commitCmd c s)

def execSeqQuery (c : CmdStep) (s : State) : Host.Outcome State Fault Refusal :=
  .next (runCommand (fun w => cOpcode w = Op.seqQuery) startSeqQuery commitCmd c s)

def execKvRead (c : CmdStep) (s : State) : Host.Outcome State Fault Refusal :=
  .next (runCommand (fun w => cOpcode w = Op.kvRead) startKvRead commitCmd c s)

def execPrefixProbe (c : CmdStep) (s : State) : Host.Outcome State Fault Refusal :=
  .next (runCommand (fun w => cOpcode w = Op.prefixProbe) startPrefixProbe commitCmd c s)

def execPrefixPublish (c : CmdStep) (s : State) : Host.Outcome State Fault Refusal :=
  .next (runCommand (fun w => cOpcode w = Op.prefixPublish) startPrefixPublish commitCmd c s)

def execPrefixRetain (c : CmdStep) (s : State) : Host.Outcome State Fault Refusal :=
  .next (runCommand (fun w => cOpcode w = Op.prefixRetain) startPrefixRetain commitCmd c s)

def execHostRegionAdd (c : CmdStep) (s : State) : Host.Outcome State Fault Refusal :=
  .next (runCommand (fun w => cOpcode w = Op.hostRegionAdd) startHostRegionAdd commitCmd c s)

def execHostRegionRemove (c : CmdStep) (s : State) : Host.Outcome State Fault Refusal :=
  .next (runCommand (fun w => cOpcode w = Op.hostRegionRemove) startHostRegionRemove commitCmd c s)

def execSeqMigrate (c : CmdStep) (s : State) : Host.Outcome State Fault Refusal :=
  .next (runCommand (fun w => cOpcode w = Op.seqMigrate) startSeqMigrate commitCmd c s)

def execKernelRun (c : CmdStep) (s : State) : Host.Outcome State Fault Refusal :=
  .next (runCommand (fun w => cOpcode w = Op.kernelRun) startKernelRun commitCmd c s)

def execNop (c : CmdStep) (s : State) : Host.Outcome State Fault Refusal :=
  .next (runCommand (fun w => cOpcode w = Op.nop) startNop commitCmd c s)

def execFence (c : CmdStep) (s : State) : Host.Outcome State Fault Refusal :=
  .next (runCommand (fun w => cOpcode w = Op.fence) startFence commitCmd c s)

def execWait (c : CmdStep) (s : State) : Host.Outcome State Fault Refusal :=
  .next (runCommand (fun w => cOpcode w = Op.wait) startWait commitCmd c s)

def execSignal (c : CmdStep) (s : State) : Host.Outcome State Fault Refusal :=
  .next (runCommand (fun w => cOpcode w = Op.signal) startSignal commitCmd c s)

def execAcctRead (c : CmdStep) (s : State) : Host.Outcome State Fault Refusal :=
  .next (runCommand (fun w => cOpcode w = Op.acctRead) startAcctRead commitCmd c s)

def execEventPost (c : CmdStep) (s : State) : Host.Outcome State Fault Refusal :=
  .next (runCommand (fun w => cOpcode w = Op.eventPost) startEventPost commitCmd c s)

def execAppend (c : CmdStep) (s : State) : Host.Outcome State Fault Refusal :=
  .next (runCommand (fun w => cOpcode w = Op.append) startAttention commitCmd c s)

def execAttend (c : CmdStep) (s : State) : Host.Outcome State Fault Refusal :=
  .next (runCommand (fun w => cOpcode w = Op.attend) startAttention commitCmd c s)

def execExtend (c : CmdStep) (s : State) : Host.Outcome State Fault Refusal :=
  .next (runCommand (fun w => cOpcode w = Op.extend) startAttention commitCmd c s)

def execPrefixEvictModel (c : CmdStep) (s : State) : Host.Outcome State Fault Refusal :=
  .next (runCommand isPrefixEvictModel startPrefixEvictModel commitCmd c s)

def execPrefixEvictSequence (c : CmdStep) (s : State) : Host.Outcome State Fault Refusal :=
  .next (runCommand isPrefixEvictSequence startPrefixEvictSequence commitCmd c s)

/-! ### The commit unit -/

/-- R49: the commit unit checks a command's commit request and applies its commit point. -/
def execCommitRequest (c : CmdRef) (s : State) : Host.Outcome State Fault Refusal := .next (commitCmd c s)

/-- A command that the commit unit holds. -/
def isHeld (s : State) (c : CmdRef) : Bool :=
  match s.flight c with
  | some f => f.stage = .held
  | none => false

/-- R259: a held command reaches its commit point once what it depends on is final. -/
def execHeldCommitRelease (c : CmdRef) (s : State) : Host.Outcome State Fault Refusal :=
  .next (if isHeld s c then commitCmd c s else s)

/-! ### Waiting commands go on -/

/-- R58: the timeout of a waiting wait command: it commits with TIMEOUT and the counter's value now. -/
def waitTimeout (c : CmdRef) (s : State) : State :=
  match s.flight c with
  | none => s
  | some f =>
    if f.stage = Stage.waiting Wait.counter then
      commitCmd c (setStage (setPlan s c (.waitEnd true ((s.part c.part).counter (cCtr f.word)).toNat)) c .requested)
    else s

def execWaitTimeout (c : CmdRef) (s : State) : Host.Outcome State Fault Refusal := .next (waitTimeout c s)

/-- The elements of an attention command whose phase a test names. -/
def elemsIn (t : ElemPhase → Bool) (f : Flight) : List Nat :=
  match f.plan with
  | .attention _ es => (es.zipIdx.filter fun e => t e.1.phase).map fun e => e.2
  | _ => []

/-- The elements in a phase go on, and the command goes to the commit stage once none is left to run. -/
def resumeElems (t : ElemPhase → Bool) (c : CmdStep) (f : Flight) (s : State) : State :=
  let s := (elemsIn t f).foldl (fun s k => advanceElem s c k) s
  if c.defer then s else commitCmd c.ref s

def isAllocPhase (e : ElemPhase) : Bool :=
  match e with
  | .alloc => true
  | .space => true
  | .hot none => true
  | _ => false

def isHotPhase (e : ElemPhase) : Bool :=
  match e with
  | .hot _ => true
  | _ => false

def isAllocWait (w : Wait) : Bool := w = .alloc || w = .segment || w = .moveBuf

def isHotWait (w : Wait) : Bool :=
  match w with
  | .hotEntry _ => true
  | _ => false

/-- R95: a command that waits for a DRAM page, for a descriptor segment or for move-buffer space takes its next step
(DEDUCED, assumption log 88). -/
def allocationResume (c : CmdStep) (s : State) : State :=
  match s.flight c.ref with
  | none => s
  | some f =>
    let d := { c with defer := true }
    let s :=
      if f.stage = Stage.waiting Wait.units then resumeElems isAllocPhase d f s
      else resumeCommand isAllocWait (startOp f.word) commitCmd d s
    let s := noteCause s c.ref
    if c.defer then s else commitCmd c.ref s

def execAllocationResume (c : CmdStep) (s : State) : Host.Outcome State Fault Refusal := .next (allocationResume c s)

/-- R89: a command that waits for a hot entry takes its next step. -/
def hotEntryResume (c : CmdStep) (s : State) : State :=
  match s.flight c.ref with
  | none => s
  | some f =>
    let d := { c with defer := true }
    let s :=
      if f.stage = Stage.waiting Wait.units then resumeElems isHotPhase d f s
      else resumeCommand isHotWait (startOp f.word) commitCmd d s
    let s := noteCause s c.ref
    if c.defer then s else commitCmd c.ref s

def execHotEntryResume (c : CmdStep) (s : State) : Host.Outcome State Fault Refusal := .next (hotEntryResume c s)

/-! ### No command waits (DESIGN CHOICE, assumption log 1) -/

/-- The seconds counter runs in every chip state but Off and after a thermal trip (R413) (DESIGN CHOICE, assumption log 1). -/
def counterRuns (s : State) : Bool :=
  match s.power.chip with
  | .on => true
  | .deepSleep => true
  | _ => false

/-- What an empty queue lets happen: the seconds counter advances by one
(DESIGN CHOICE, assumption log 1; DESIGN CHOICE, assumption log 20). -/
def idleTick (s : State) : State := if counterRuns s then { s with nowS := s.nowS + 1 } else s

end Sys2Proof.Machine
end

