-- ==== Sys2Proof/Machine/Fabric.lean ====
section
/-! DEFINITION. The receiving side of the Phoward Ring Protocol: packets (R318 to R321), refusals (R338), landing (R335, R343), remote reads (R339),
acknowledgements and credits (R328 to R331), connections (R324, R325), and the ring's ports (R313 to R316, R320, R322, R468). -/

namespace Sys2Proof.Machine

open Sys2Proof

/-! ### Packets that arrive -/

/-- The partition's counters changed, where it exists. -/
def tally (s : State) (p : Nat) (g : PartCounters → PartCounters) : State :=
  if (s.part p).live then s.onPart p fun x => x.onCnt g else s

/-- The fabric takes packets for this chip. -/
def addressed (s : State) (pk : Packet) : Bool := s.power.chip = .on && pk.dst = ownAddress s && pk.dstPart < 16

/-- A packet for a partition of this chip: its bytes count, and it is a use of its context (R325). -/
def countRx (s : State) (pk : Packet) : State :=
  if (s.part pk.dstPart).live then
    useQp (s.onAcct pk.dstPart fun a => { a with fabricRx := a.fabricRx + pkBytes pk }) pk.dstPart (pk.dqp % 65536)
  else s

/-- R318: a packet of the operation op with no reserved field set. -/
def wellFormed (op : Nat) (pk : Packet) : Bool := pk.op = op && pk.reserved = 0 && pk.payload.length ≤ 4096

def dqpIndex (pk : Packet) : Nat := pk.dqp % 65536

/-- The context that a packet names: a queue pair of the destination partition that is READY or DRAINING (DEDUCED, assumption log 83). -/
def contextOf (s : State) (pk : Packet) : Option Qp :=
  let q := (s.part pk.dstPart).qp (dqpIndex pk)
  if (s.part pk.dstPart).live && pk.dqp / 65536 = pk.dstPart && (q.state = .ready || q.state = .draining) then some q else none

/-- The peer of a queue pair that a packet comes from. -/
def peerOf (q : Qp) (pk : Packet) : Option Nat := q.peers.find? fun k => q.chipOf k = pk.src && q.partOf k = pk.srcPart

/-- Parked packets wait for the context (R325). -/
def parks (s : State) (pk : Packet) : Bool :=
  match contextOf s pk with
  | some q => !q.resident
  | none => false

def park (s : State) (pk : Packet) : State :=
  s.onQp pk.dstPart (dqpIndex pk) fun q => { q with parked := q.parked ++ [pk] }

/-! ### Refusals (R338, R340) -/

/-- Why a packet is refused. -/
def causeStale : Nat := 16

/-- A control message of 64 bytes of a type, from a READY queue pair: no new group starts in DRAINING (R324). The layout of its other bytes is not
stated, so they are free values (DESIGN CHOICE, assumption log 86). -/
def sendControl (s : State) (p i type : Nat) : State :=
  let q := (s.part p).qp i
  if q.state != .ready then s
  else
    let s1 := { s with draws := s.draws + 63 }
    let body := BitVec.ofNat 8 type :: (List.range 63).map fun j => Config.freeByte (s.draws + j)
    let g := newGroup s1 p i
    enqueue g.2 p i (fun peer => packetTo g.2 p i peer 0x02 g.1 0 0 0 true body) none

/-- The receiver's NAK of a packet, with LIMIT where its flow is known (R328). The queue pair that it names is the context's peer, or, with no context, the one the packet named
(DEDUCED, assumption log 81). -/
def sendNak (s : State) (pk : Packet) (cause : Nat) : State :=
  let p := pk.dstPart
  let i := dqpIndex pk
  let nak : Packet := { blankPacket with
    op := 0x09, dst := pk.src, src := ownAddress s, dstPart := pk.srcPart, srcPart := p, dqp := pk.dqp, epoch := pk.epoch, seq := pk.seq
    group := pk.group, buf := pk.buf, aux := cause }
  match contextOf s pk with
  | none => route s nak (i % 2) 0
  | some q =>
    match peerOf q pk with
    | none => route s nak (i % 2) q.path
    | some k =>
      let f := q.flow k
      sendProtocol (s.onQp p i fun q => q.onFlow k fun f => { f with sentLimit := f.grantLimit }) p i
        { nak with dqp := q.qpOf k, ackSeq := (f.expected + 2 ^ 24 - 1) % 2 ^ 24, credit := f.grantLimit.toNat }

/-- A refused packet's report: record, counter and message (DEDUCED, assumption log 82). -/
def reportRefusal (s : State) (pk : Packet) (cause : Nat) : State :=
  let p := pk.dstPart
  let s := tally s p fun n => { n with violRx := n.violRx + 1 }
  if cause = causeStale then sendControl (tally s p fun n => { n with stale := n.stale + 1 }) p (dqpIndex pk) 2
  else
    let fn := if cause ≤ 2 then 16 else p
    let q := if cause ≤ 2 then 0 else ((s.part p).qp (dqpIndex pk)).eq
    let s := fabricRecord s fn q cause pk.dqp 1 pk.srcPart pk.src pk.seq pk.buf pk.group 0
    if cause ≤ 2 then s else sendControl s p (dqpIndex pk) 2

/-! ### Sequence numbers (R329) -/

inductive Order where
  | new | duplicate | stale
  deriving DecidableEq

def Flow.order (f : Flow) (seq : Nat) : Order :=
  let ahead := (seq + 2 ^ 24 - f.expected) % 2 ^ 24
  let behind := (f.expected + 2 ^ 25 - 1 - seq) % 2 ^ 24
  if ahead < 1024 && !f.bitmap.contains seq then .new
  else if f.bitmap.contains seq || behind < 2 ^ 23 then .duplicate
  else .stale

/-- EXPECTED moved past every set bit; n bounds the bits. -/
def slide : Nat → Flow → Flow
  | 0, f => f
  | n + 1, f =>
    if f.bitmap.contains f.expected then
      slide n { f with expected := (f.expected + 1) % 2 ^ 24, bitmap := f.bitmap.filter fun b => b != f.expected }
    else f

/-- A packet that has landed or been refused: its bit is set, its credits are free. -/
def Flow.take (f : Flow) (seq cost : Nat) : Flow :=
  slide 1025 { f with bitmap := f.bitmap ++ [seq], freed := f.freed + BitVec.ofNat 32 cost, unackedRx := f.unackedRx + 1 }

/-- A CREDIT packet where LIMIT has risen by a quarter of GRANT (R328). -/
def sendCredit (s : State) (p i k : Nat) : State :=
  let s := raiseGrant s p i k
  let q := (s.part p).qp i
  let f := q.flow k
  if (f.grantLimit - f.sentLimit).toNat < ceilDiv q.window 4 then s
  else
    let pk := { packetTo s p i k 0x0A 0 0 0 0 false [] with tc := 0, credit := f.grantLimit.toNat }
    sendProtocol (s.onQp p i fun q => q.onFlow k fun f => { f with sentLimit := f.grantLimit }) p i pk

/-- The flow after a packet: an ACK after 16 packets, else a CREDIT where one is due. -/
def settleFlow (s : State) (p i k : Nat) (pk : Packet) : State :=
  let s := s.onQp p i fun q => q.onFlow k fun f => f.take pk.seq (pkCost pk)
  if 16 ≤ (((s.part p).qp i).flow k).unackedRx then sendAck s p i k else sendCredit s p i k

/-! ### Checks of a data packet (R332, R338) -/

def hIndex (h : Nat) : Nat := bits h 0 24
def hGen (h : Nat) : Nat := bits h 24 8

/-- Causes 3 to 7 and 16 of a packet that names a buffer (DEDUCED, assumption log 83). -/
def bufferCause (s : State) (pk : Packet) : Option Nat :=
  let p := pk.dstPart
  let b := (s.part p).buffer (hIndex pk.buf)
  if 16383 < hIndex pk.buf || bits pk.buf 32 4 ≠ p || bits pk.buf 36 15 ≠ ownAddress s then some 3
  else if !b.valid then some 4
  else if !b.fields.anyQp && b.fields.qp ≠ dqpIndex pk then some 5
  else if (pk.op = 0x00 && b.fields.kind = 3) || (pk.op = 0x02 && b.fields.kind ≠ 3) ||
      (b.fields.kind = 2 && b.group.isSome && b.group ≠ some (dqpIndex pk, pk.group)) then some 6
  else if b.fields.length < pk.offset + pk.payload.length then some 7
  else if hGen pk.buf ≠ b.gen then some causeStale
  else none

/-- The page that an RDREQ names: a page set's layer stored in the cache format (DEDUCED, assumption log 85). -/
def readTarget (s : State) (pk : Packet) : Option (Nat × Nat × Loc) :=
  let psn := bits pk.buf 0 40
  let layer := bits pk.buf 40 8
  match (s.part pk.dstPart).set psn with
  | none => none
  | some d =>
    let l := Map.get d.loc layer Loc.none
    if l.kind = .page && !d.releasing then some (psn, layer, l) else none

/-- Causes 7 and 8 of an RDREQ (DEDUCED, assumption log 85). -/
def readCause' (s : State) (q : Qp) (pk : Packet) : Option Nat :=
  match readTarget s pk with
  | none => some 8
  | some t =>
    let m := (s.part pk.dstPart).model (((s.part pk.dstPart).set t.1).map (·.model) |>.getD 0)
    if m.footprint < pk.offset + pk.aux || pk.aux = 0 || 65536 < pk.aux then some 7 else if !q.rdOk then some 8 else none

/-- The oldest posted RECV buffer that admits a queue pair (R340) (DEDUCED, assumption log 84). -/
def recvBuffer (x : Part) (i : Nat) : Option Nat :=
  (leastBy (fun e : Nat × Buffer => e.2.posted)
    (x.buffers.filter fun e => e.2.valid && e.2.fields.kind = 3 && (e.2.fields.anyQp || e.2.fields.qp = i))).map fun e => e.1

/-- DEDUCED, assumption log 83. -/
def arrivalCause (s : State) (q : Qp) (pk : Packet) : Option Nat :=
  if pk.op = 0x03 then readCause' s q pk
  else if pk.op = 0x00 then bufferCause s pk
  else if pk.op = 0x02 && pk.buf ≠ 0 then bufferCause s pk
  else none

/-- A packet refused: NAK, report, bit set and credits freed. -/
def refuse (s : State) (pk : Packet) (k cause : Nat) : State :=
  settleFlow (reportRefusal (sendNak s pk cause) pk cause) pk.dstPart (dqpIndex pk) k pk

/-- The first packet of a group names the buffer's writer (R338). -/
def claimBuffer (s : State) (pk : Packet) : State :=
  if pk.op = 0x00 then s.onBuffer pk.dstPart (hIndex pk.buf) fun b =>
      if b.fields.kind = 2 && b.group.isNone then { b with group := some (dqpIndex pk, pk.group) } else b
  else s

/-- A WRITE, SEND, RDREQ or RDRESP whose context is resident. -/
def arrive (s : State) (pk : Packet) : State :=
  match contextOf s pk with
  | none => if pk.op = 0x04 then s else reportRefusal (sendNak s pk 1) pk 1
  | some q =>
    if pk.epoch ≠ q.epoch then tally s pk.dstPart fun n => { n with stale := n.stale + 1 }
    else
      match peerOf q pk with
      | none => if pk.op = 0x04 then s else reportRefusal (sendNak s pk 2) pk 2
      | some k =>
        if q.landing.any fun l => l.seq = pk.seq && l.src = pk.src && l.srcPart = pk.srcPart then sendAck s pk.dstPart (dqpIndex pk) k
        else
          match (q.flow k).order pk.seq with
          | .stale => tally s pk.dstPart fun n => { n with stale := n.stale + 1 }
          | .duplicate => sendAck s pk.dstPart (dqpIndex pk) k
          | .new =>
            match arrivalCause s q pk with
            | some c => refuse s pk k c
            | none => (claimBuffer s pk).onQp pk.dstPart (dqpIndex pk) fun q => { q with landing := q.landing ++ [pk] }

/-- The rows WRITE, SEND, RDREQ and RDRESP. -/
def dataPacket (op : Nat) (pk : Packet) (s : State) : State :=
  if !addressed s pk || pk.op ≠ op then s
  else if !wellFormed op pk then tally s pk.dstPart fun n => { n with badPkt := n.badPkt + 1 }
  else
    let s := countRx s pk
    if parks s pk then park s pk else arrive s pk

/-! ### Landing (R335, R339, R340, R342, R343) -/

/-- The bytes of a WRITE come to their buffer. -/
def landBytes (s : State) (p k : Nat) (b : Buffer) (pk : Packet) : State :=
  if pk.payload = [] then s
  else
    match b.fields.kind with
    | 0 => s.issue (.data p (b.fields.addr + pk.offset) pk.payload none)
    | 1 =>
      let a := b.fields.addr + pk.offset
      s.onPart p fun x => { x with push := Memory.writeBytes x.push a (pk.payload.take (x.sliceBytes - a)) }
    | _ =>
      t1Write (s.onBuffer p k fun b => { b with data := pk.payload.zipIdx.foldl (fun d e => Map.put d (pk.offset + e.2) e.1) b.data })
        p pk.payload.length

/-- Steps 2 to 4 of R335. -/
def completeGroup (s : State) (p k : Nat) (pk : Packet) (newHandle : Nat) : State :=
  let b := (s.part p).buffer k
  let s := addCounter s p b.fields.sync 1
  let s := postRecord s p b.fields.eq ⟨St.success, Kind.receive, 0, pk.dqp, b.fields.btag % 2 ^ 32, b.fields.btag / 2 ^ 32 % 2 ^ 32,
    pk.buf % 2 ^ 32, pk.group, newHandle⟩ none
  if b.fields.oneShot then rewriteBuffer s p k b.fields false else s

/-- Whether the header of a migration lands with this packet. -/
def landsHeader (b : Buffer) (pk : Packet) : Bool := b.fields.kind = 2 && pk.offset = 0 && 64 ≤ pk.payload.length

/-- A WRITE that lands. -/
def landWrite (s : State) (p i k : Nat) (pk : Packet) : State :=
  let n := hIndex pk.buf
  match bufferCause s pk with
  | some c => refuse s pk k c
  | none =>
    let b := (s.part p).buffer n
    if landsHeader b pk && b.migration.isNone then
      if !headerOk (s.part p) b pk.payload then refuse s pk k 9
      else
        let r := reserveMigration s p pk.payload
        match r.2 with
        | none => refuse r.1 pk k 10
        | some g => settleFlow (landBytes (r.1.onBuffer p n fun b => { b with migration := some g }) p n b pk) p i k pk
    else if !pk.flag then settleFlow (landBytes s p n b pk) p i k pk
    else if b.fields.kind = 2 then
      match b.migration with
      | none => refuse s pk k 9
      | some g =>
        let s := landBytes s p n b pk
        let a := commitMigration s p n ((s.part p).buffer n) g
        settleFlow (sendControl (completeGroup a.state p n pk a.handle) p i 1) p i k pk
    else settleFlow (completeGroup (landBytes s p n b pk) p n pk 0) p i k pk

/-- A control message that lands in a RECV buffer (DEDUCED, assumption log 84). -/
def landSend (s : State) (p i k : Nat) (pk : Packet) : State :=
  let target := if pk.buf = 0 then recvBuffer (s.part p) i else some (hIndex pk.buf)
  match target with
  | none => settleFlow (tally s p fun n => { n with noRecv := n.noRecv + 1 }) p i k pk
  | some n =>
    match (if pk.buf = 0 then none else bufferCause s pk) with
    | some c => refuse s pk k c
    | none =>
      let b := (s.part p).buffer n
      let s := landBytes s p n b { pk with offset := if pk.buf = 0 then 0 else pk.offset }
      settleFlow (if pk.flag then completeGroup s p n pk 0 else s) p i k pk

/-- Step 1 of R339: the set is pinned, which is a touch (R131), while the queue pair is READY; the answer has a group number of its own. -/
def takeRead (s : State) (p i k : Nat) (pk : Packet) (psn layer : Nat) : State × Serving :=
  let r := pinSet s p psn
  let g := newGroup r.1 p i
  (if ((s.part p).qp i).state = .ready then g.2.onQp p i fun q => { q with readPins := q.readPins ++ [(psn, r.2, g.1)] } else unpinSet g.2 p psn r.2,
    ⟨k, g.1, psn, layer, pk.buf, pk.offset, pk.aux, pk.unitRec, pk.unitGen, false⟩)

/-- The request has been taken and waits for a read of its page. -/
def awaitRead (s : State) (p i k : Nat) (pk : Packet) (v : Serving) : State :=
  settleFlow (s.onQp p i fun q => { q with serving := q.serving ++ [v] }) p i k pk

/-- The request is answered from DRAM. -/
def answerRead (s : State) (p i k : Nat) (pk : Packet) (v : Serving) (l : Loc) : State :=
  settleFlow (respondRead (countTier s p 0 false pk.aux) p i v l) p i k pk

/-- An RDREQ served. A page in DRAM is answered at once. Another is read as R129 gives: into a tentative copy, or through the move buffers, and
answered when the read has ended. A request for which the move buffers have no space still waits to land (DEDUCED, assumption log 85). -/
def serveRead (s : State) (p i k : Nat) (pk : Packet) : State :=
  match readTarget s pk with
  | none => refuse s pk k 8
  | some (psn, layer, l) =>
    let x := s.part p
    let t := takeRead s p i k pk psn layer
    let o : MoveObj := .transit 0 psn layer false
    if l.tier = 0 then answerRead t.1 p i k pk t.2 l
    else
      match (x.set psn).bind fun d => Map.look d.tents layer with
      | some c => if c.complete then answerRead t.1 p i k pk t.2 ⟨.page, 0, c.frame⟩ else awaitRead t.1 p i k pk t.2
      | none =>
        match (if freeAboveLow s x then beginTent t.1 p psn layer (setHome x psn) none else none) with
        | some b => awaitRead b.1 p i k pk t.2
        | none =>
          if moveBufAllows s p (objBuffer x o) then
            awaitRead (readAt t.1 p (.serve i t.2.group psn layer) l (objBytes x o) none).1 p i k pk { t.2 with streamed := true }
          else s.onQp p i fun q => { q with landing := q.landing ++ [pk] }

/-- Read data for a unit: this chip's units send no request (R339), so the data is dropped; a changed generation is counted (R331). -/
def landResponse (s : State) (p i k : Nat) (pk : Packet) : State :=
  let old := Map.get s.sched.generations pk.unitRec 0 ≠ pk.unitGen
  let s := if old then tally s p fun n => { n with genDrop := n.genDrop + 1 } else s
  settleFlow s p i k pk

/-- PACKET_LANDING. -/
def packetLanding (p i seq : Nat) (s : State) : State :=
  let q := (s.part p).qp i
  match q.landing.find? fun l => l.seq = seq with
  | none => s
  | some pk =>
    match peerOf q pk with
    | none => s
    | some k =>
      let s := s.onQp p i fun q => { q with landing := q.landing.erase pk }
      match pk.op with
      | 0x00 => landWrite s p i k pk
      | 0x02 => landSend s p i k pk
      | 0x03 => serveRead s p i k pk
      | _ => landResponse s p i k pk

/-! ### Acknowledgements, credits, refusals at the sender (R328 to R331, R338, R345) -/

/-- A flow whose LIMIT a packet raises. -/
def Flow.raise (f : Flow) (limit : Nat) : Flow :=
  let d := BitVec.ofNat 32 limit - f.limit
  if d.toNat < 2 ^ 31 then { f with limit := f.limit + d } else f

/-- Something of the queue pair's groups is still to be sent or acknowledged. -/
def qpInUse (x : Part) (i : Nat) : Bool :=
  x.slots.any fun e => e.2.window.any fun f => match f.plan with
    | .migrate q _ _ _ => q = i
    | .attention _ es => es.any fun el => match el.remote with
        | some r => r.qp = i && el.status = 0
        | none => false
    | _ => false

/-- A DRAINING queue pair whose packets are all acknowledged sends DISCONNECT and is RESET (R324). -/
def drainDone (s : State) (p i : Nat) : State :=
  let q := (s.part p).qp i
  if q.state = .draining && q.queue = [] && q.sent = [] && !qpInUse (s.part p) i then
    let s := dropAllPins s p i
    let s := q.peers.foldl (fun s k => sendProtocol s p i { packetTo s p i k 0x11 0 0 0 0 false [] with tc := 0 }) s
    s.onQp p i fun q => { Qp.reset with lastEpoch := q.epoch, nextGroup := q.nextGroup }
  else s

/-- One packet delivered: a unit record of this chip that has changed drops its acknowledgement (R331); a mirrored flag goes on to MIRROR (R345). -/
def delivered (s : State) (p i : Nat) (t : Sent) : State :=
  let old := t.pk.op ≠ 0x04 && t.pk.unitRec ≠ 0 && Map.get s.sched.generations t.pk.unitRec 0 ≠ t.unitGen
  let s := if old then tally s p fun n => { n with genDrop := n.genDrop + 1 } else s
  let q := (s.part p).qp i
  let s := if q.mirrored && t.pk.flag && t.peer = 0 then
      let f := { t.pk with dst := q.mirChip, dstPart := q.mirPart, dqp := q.mirQp, mirror2 := true, retx := false }
      s.onQp p i fun q => { q with queue := (f, 1, t.cmd) :: q.queue }
    else s
  match t.cmd with
  | some c => remoteStep s c i
  | none => s

/-- Sent packets that are no longer unacknowledged. -/
def deliver' (s : State) (p i : Nat) (l : List Sent) : State :=
  let s := s.onQp p i fun q => { q with sent := q.sent.filter fun t => !l.contains t }
  drainDone (dropReadPins (l.foldl (fun s t => delivered s p i t) s) p i) p i

/-- The sender's queue pair of a protocol packet, with the peer it comes from. -/
def senderOf (s : State) (pk : Packet) : Option (Nat × Nat) :=
  let q := (s.part pk.dstPart).qp (dqpIndex pk)
  if !(s.part pk.dstPart).live || pk.dqp / 65536 ≠ pk.dstPart then none
  else (peerOf q pk).map fun k => (dqpIndex pk, k)

/-- READY once every peer's CONNECT and acknowledgement are in (R324). -/
def tryReady (s : State) (p i : Nat) : State :=
  let q := (s.part p).qp i
  if q.state = .connecting && q.peers.all fun k => (q.flow k).connectSeen && (q.flow k).connectAcked then
    let e := q.peers.foldl (fun m k => Nat.max m (q.flow k).peerEpoch) q.epoch
    s.onQp p i fun q => { q with state := .ready, epoch := e, lastEpoch := e }
  else s

/-- ACK: cumulative, with a credit limit; in CONNECTING it acknowledges the CONNECT. -/
def ackPacket (pk : Packet) (s : State) : State :=
  let p := pk.dstPart
  if !addressed s pk || pk.op ≠ 0x08 then s
  else if !wellFormed 0x08 pk then tally s p fun n => { n with badPkt := n.badPkt + 1 }
  else
    let s := countRx s pk
    match senderOf s pk with
    | none => s
    | some (i, k) =>
      let q := (s.part p).qp i
      if pk.epoch ≠ q.epoch then (if q.state = .reset then s else tally s p fun n => { n with stale := n.stale + 1 })
      else
        match q.state with
        | .connecting => tryReady (s.onQp p i fun q => q.onFlow k fun f => { f.raise pk.credit with connectAcked := true }) p i
        | .reset => s
        | .error => s
        | _ =>
          let s := s.onQp p i fun q => q.onFlow k fun f => f.raise pk.credit
          deliver' s p i (q.sent.filter fun t => t.peer = k && (pk.ackSeq + 2 ^ 24 - t.pk.seq) % 2 ^ 24 < 2 ^ 23)

/-- CREDIT. -/
def creditPacket (pk : Packet) (s : State) : State :=
  let p := pk.dstPart
  if !addressed s pk || pk.op ≠ 0x0A then s
  else if !wellFormed 0x0A pk then tally s p fun n => { n with badPkt := n.badPkt + 1 }
  else
    let s := countRx s pk
    match senderOf s pk with
    | none => s
    | some (i, k) =>
      let q := (s.part p).qp i
      if q.state = .reset || q.state = .error then s
      else if pk.epoch ≠ q.epoch then tally s p fun n => { n with stale := n.stale + 1 }
      else s.onQp p i fun q => q.onFlow k fun f => f.raise pk.credit

/-- The queue pair that a NAK concerns: the one it names, or, for NO_QP, the one whose peer it names (DEDUCED, assumption log 81). -/
def nakTarget (s : State) (pk : Packet) : Option (Nat × Nat) :=
  let p := pk.dstPart
  if pk.aux = 1 || pk.aux = 2 then
    ((s.part p).qps.find? fun e => (e.2.state = .ready || e.2.state = .draining) &&
      e.2.peers.any fun k => e.2.chipOf k = pk.src && e.2.partOf k = pk.srcPart && e.2.qpOf k = pk.dqp).bind fun e =>
        (e.2.peers.find? fun k => e.2.chipOf k = pk.src && e.2.partOf k = pk.srcPart && e.2.qpOf k = pk.dqp).map fun k => (e.1, k)
  else senderOf s pk

/-- A packet sent again: on the other rail in a ring, on the next plane over uplinks; after RETRY_MAX times the queue pair errs (R330). -/
def resend (p i : Nat) (t : Sent) (s : State) : State :=
  if orOne s.fabric.retryMax ≤ t.retries then qpError s p i 0x20 t.pk.seq
  else
    let n := t.retries + 1
    let q := (s.part p).qp i
    let s := s.onQp p i fun q => { q with sent := q.sent.map fun u => if u = t then { u with retries := n } else u }
    let s := tally s p fun c => { c with retx := c.retx + 1 }
    let s := s.onAcct p fun a => { a with fabricTx := a.fabricTx + pkBytes t.pk }
    route s { t.pk with retx := true } ((i + n) % 2) (q.path + n)

/-- RETRANSMIT_TIMEOUT. -/
def retransmit (p i seq : Nat) (s : State) : State :=
  let q := (s.part p).qp i
  if q.state != .ready && q.state != .draining then s
  else
    match q.sent.find? fun t => t.pk.seq = seq with
    | none => s
    | some t => resend p i t s

/-- What a NAK other than cause 0 does at once: the credits that it carries, and its count (DEDUCED, assumption log 82). -/
def countNak (s : State) (pk : Packet) (i k : Nat) : State :=
  tally (s.onQp pk.dstPart i fun q => q.onFlow k fun f => if 3 ≤ pk.aux then f.raise pk.credit else f) pk.dstPart
    fun n => { n with violTx := n.violTx + 1 }

/-- The sender's record of a packet that a NAK ends (DEDUCED, assumption log 93). -/
def reportNak (s : State) (pk : Packet) (i : Nat) (q : Qp) (t : Sent) : State :=
  fabricRecord s pk.dstPart q.eq pk.aux (qpNumber pk.dstPart i) 0 pk.srcPart pk.src pk.seq t.pk.buf t.pk.group (q.tagOf t.pk.group)

/-- The packet leaves its flow, and its message group fails (DEDUCED, assumption log 93). -/
def endNaked (s : State) (p i : Nat) (t : Sent) : State :=
  let s := s.onQp p i fun q => { q with sent := q.sent.filter fun u => u != t }
  match t.cmd with
  | some c => remoteStep (failGroup (dropGroup s p i c t.pk.group) c i t.pk.group) c i
  | none => s

/-- NAK (R338); NO_QP ends a READY queue pair alone (R324) (DEDUCED, assumption log 63). -/
def nakPacket (pk : Packet) (s : State) : State :=
  if !addressed s pk || pk.op ≠ 0x09 then s
  else if !wellFormed 0x09 pk then tally s pk.dstPart fun n => { n with badPkt := n.badPkt + 1 }
  else
    match nakTarget (countRx s pk) pk with
    | none => countRx s pk
    | some (i, k) => nakAt pk i k (((countRx s pk).part pk.dstPart).qp i) (countRx s pk)
where
  /-- The NAK of a packet that queue pair i has sent to peer k. -/
  nakAt (pk : Packet) (i k : Nat) (q : Qp) (s : State) : State :=
    if q.state != .ready && q.state != .draining then s
    else if pk.epoch ≠ q.epoch then tally s pk.dstPart fun n => { n with stale := n.stale + 1 }
    else
      match q.sent.find? fun t => t.peer = k && t.pk.seq = pk.seq with
      | none => s
      | some t =>
        -- cause 0: the packet was lost before it landed, and is sent again (R441)
        if pk.aux = 0 then resend pk.dstPart i t s
        else if pk.aux = 1 && q.state = .ready then qpError (countNak s pk i k) pk.dstPart i 1 pk.seq
        else if pk.aux = causeStale && t.retries ≠ 0 then deliver' (countNak s pk i k) pk.dstPart i [t]
        else
          let s := endNaked (reportNak (countNak s pk i k) pk i q t) pk.dstPart i t
          drainDone (dropReadPins s pk.dstPart i) pk.dstPart i

/-! ### Connections (R324, R325) -/

/-- CONNECT. A repeat of a CONNECT already taken is acknowledged again. -/
def connectPacket (pk : Packet) (s : State) : State :=
  let p := pk.dstPart
  if !addressed s pk || pk.op ≠ 0x10 then s
  else if !wellFormed 0x10 pk then tally s p fun n => { n with badPkt := n.badPkt + 1 }
  else
    let s := countRx s pk
    match senderOf s pk with
    | none => s
    | some (i, k) =>
      let q := (s.part p).qp i
      let ack := fun s : State =>
        let s := raiseGrant s p i k
        let f := ((s.part p).qp i).flow k
        sendProtocol (s.onQp p i fun q => q.onFlow k fun f => { f with sentLimit := f.grantLimit }) p i
          { packetTo s p i k 0x08 0 0 0 0 false [] with tc := 0, epoch := pk.aux % 256, ackSeq := 2 ^ 24 - 1, credit := f.grantLimit.toNat }
      match q.state with
      | .connecting =>
        tryReady (ack (s.onQp p i fun q => q.onFlow k fun f => { f with connectSeen := true, peerEpoch := pk.aux % 256 })) p i
      | .ready => if (q.flow k).peerEpoch = pk.aux % 256 then ack s else s
      | _ => s

/-- DISCONNECT from the peer of a READY queue pair (R324). -/
def disconnectPacket (pk : Packet) (s : State) : State :=
  let p := pk.dstPart
  if !addressed s pk || pk.op ≠ 0x11 then s
  else if !wellFormed 0x11 pk then tally s p fun n => { n with badPkt := n.badPkt + 1 }
  else
    let s := countRx s pk
    match senderOf s pk with
    | none => s
    | some (i, _) =>
      let q := (s.part p).qp i
      if q.state != .ready then s
      else if pk.epoch ≠ q.epoch then tally s p fun n => { n with stale := n.stale + 1 }
      else qpError s p i 0x22 pk.seq

def residents (s : State) : List (Nat × Nat) :=
  s.parts.flatMap fun e => (e.2.qps.filter fun q => q.2.resident).map fun q => (e.1, q.1)

/-- A context made resident (R325), though not while the PRP engine holds an entry (R420): at once where fewer than 4,096 are, else in place of the least recently used one that awaits nothing
(DEDUCED, assumption log 91). -/
def makeResident (s : State) (p i : Nat) : Option State :=
  let s := { s with uses := s.uses + 1 }
  let take := fun s : State => s.onQp p i fun q => { q with resident := true, lastUse := s.uses }
  let l := residents s
  if s.holds 8 then none
  else if ((s.part p).qp i).resident || l.length < 4096 then some (take s)
  else
    let free := l.filter fun e => ((s.part e.1).qp e.2).sent = []
    (leastBy (fun e : Nat × Nat => ((s.part e.1).qp e.2).lastUse) free).map fun v =>
      take (s.onQp v.1 v.2 fun q => { q with resident := false })

/-- A parked packet processed in its turn. -/
def replayParked (s : State) (pk : Packet) : State := arrive s pk

/-- The CONNECT packets of a queue pair. -/
def sendConnects (s : State) (p i : Nat) : State :=
  let q := (s.part p).qp i
  q.peers.foldl (fun s k => sendProtocol s p i { packetTo s p i k 0x10 0 0 0 q.epoch false [] with tc := 0 }) s

/-- The attributes of the registers taken by CONNECT (DEDUCED, assumption log 130). -/
def takeAttributes (g : PartRegs) (q : Qp) : Qp :=
  { Qp.reset with
    peerChip := bits g.qpcPeer 0 15, peerPart := bits g.qpcPeer 16 4, peerQp := bits g.qpcPeer 24 24
    mirChip := bits g.qpcMirror 0 15, mirPart := bits g.qpcMirror 16 4, mirQp := bits g.qpcMirror 24 24
    tc := bits g.qpcAttr 0 2, mirrored := bit g.qpcAttr 2, yellowIn := bit g.qpcAttr 3, path := bits g.qpcAttr 4 2, rdOk := bit g.qpcAttr 6
    eq := bits g.qpcAttr 8 4, grant := bits g.qpcAttr 16 16, lastEpoch := q.lastEpoch, lastUse := q.lastUse, nextGroup := q.nextGroup }

/-- A queue pair whose attributes are taken and whose context is resident begins to connect: its proposed epoch is the next (R324). -/
def beginConnect (s : State) (p i : Nat) : State :=
  sendConnects (s.onQp p i fun q =>
    { q with state := .connecting, resident := true, epoch := (q.lastEpoch + 1) % 256, lastEpoch := (q.lastEpoch + 1) % 256 }) p i

/-- QP_CONTEXT_FETCH_COMPLETE: the context is resident and its parked packets are processed in arrival order; a CONNECT that waited for the context
goes on (R325) (DEDUCED, assumption log 90) (DEDUCED, assumption log 91). -/
def contextFetched (p i : Nat) (r : ReadResult) (s : State) : State :=
  let q := (s.part p).qp i
  let g := (s.part p).regs
  let connects := q.state = .reset && g.qpcBusy && g.qpcIndex = i
  if (q.state = .reset && !connects) || q.resident || r ≠ .ok || !s.fnUsable p then s
  else
    match makeResident s p i with
    | none => s
    | some s =>
      if connects then beginConnect (s.onPart p fun x => { x with regs := { x.regs with qpcBusy := false } }) p i
      else q.parked.foldl replayParked (s.onQp p i fun q => { q with parked := [] })

/-- CONNECT command: the attributes are taken from the registers; with no context to be had it waits, BUSY, for one (R325)
(DEDUCED, assumption log 91; DEDUCED, assumption log 130). -/
def qpConnect (p i : Nat) (s : State) : State :=
  let x := s.part p
  let g := x.regs
  if !s.reaches p || (s.func p).disable.isSome || g.qpcBusy || 65536 ≤ i || g.qptSize ≤ i || (x.qp i).state != .reset then s
  else
    let take := fun (s : State) (busy : Bool) =>
      (s.onPart p fun x => { x with regs := { x.regs with qpcIndex := i, qpcBusy := busy } }).onQp p i (takeAttributes g)
    match makeResident s p i with
    | none => take s true
    | some s => beginConnect (take s false) p i

/-- DISCONNECT command (DEDUCED, assumption log 130). -/
def qpDisconnect (p i : Nat) (s : State) : State :=
  if !s.reaches p || (s.part p).regs.qpcBusy then s
  else
    let s := s.onPart p fun x => { x with regs := { x.regs with qpcIndex := i } }
    match ((s.part p).qp i).state with
    | .connecting => s.onQp p i fun q => { Qp.reset with lastEpoch := q.lastEpoch, nextGroup := q.nextGroup }
    | .ready => drainDone (dropAllPins ((sendControl s p i 3).onQp p i fun q => { q with state := .draining }) p i) p i
    | _ => s

/-- RESET command. -/
def qpResetCmd (p i : Nat) (s : State) : State :=
  if !s.reaches p || (s.part p).regs.qpcBusy then s
  else
    let s := s.onPart p fun x => { x with regs := { x.regs with qpcIndex := i } }
    if ((s.part p).qp i).state = .error then s.onQp p i fun q => { Qp.reset with lastEpoch := q.lastEpoch, nextGroup := q.nextGroup } else s

/-- CONNECT_RETRY. -/
def connectRetry (p i : Nat) (s : State) : State := if ((s.part p).qp i).state = .connecting then sendConnects s p i else s

/-! ### Timers of a queue pair (R329, R330, R347) -/

/-- ACK_TIMER. -/
def ackTimer (p i : Nat) (s : State) : State :=
  let q := (s.part p).qp i
  if q.state != .ready && q.state != .draining then s
  else q.peers.foldl (fun s k => if (q.flow k).unackedRx = 0 then s else sendAck s p i k) s

/-- EGRESS_POLICER_RELEASE (DESIGN CHOICE, assumption log 100). -/
def egressRelease (p i ns : Nat) (s : State) : State := sendNext (s.onPart p fun x => { x with egress := x.egress.refill ns }) p i

/-! ### Ports (R313 to R316, R320 to R322, R468) -/

/-- Frames that LACK has passed leave the replay buffer. -/
def dropReplay (x : Port) (lack : Nat) : Port :=
  { x with replay := x.replay.filter fun e => 2048 ≤ (lack + 4096 - e.1) % 4096 }

/-- REPLAY_REQUEST. -/
def replayRequest (n lack : Nat) (s : State) : State :=
  if 4 ≤ n || !(s.port n).up then s
  else
    let s := s.onPort n fun x => dropReplay x lack
    s.onFabric fun f => { f with egress := f.egress ++ (Map.get f.ports n Port.reset).replay.map fun e => (n, e.2.2) }

/-- CREDIT_ONLY_FRAME: hop credits of a virtual channel come back, at most those of its transit buffer of 32 KiB. -/
def creditFrame (n vc credits lack : Nat) (s : State) : State :=
  if 4 ≤ n || 6 ≤ vc || !(s.port n).up then s
  else drainPort (s.onPort n fun x =>
    { dropReplay x lack with hopCredits := Map.put x.hopCredits vc (Nat.min 512 (Map.get x.hopCredits vc 0 + credits)) }) n

/-- PFC_FRAME: the priorities that LNK_ETH enables. -/
def pfcFrame (u mask : Nat) (s : State) : State :=
  if 4 ≤ u || !(s.port (4 + u)).up then s
  else drainPort (s.onPort (4 + u) fun x => { x with paused := mask &&& s.fabric.pfcPri }) (4 + u)

/-- RING_CHIPS, LINE and the ports after a change of the ring (DEDUCED, assumption log 89). -/
def setRing (s : State) (live : List Nat) : State :=
  let whole := [0, 1, 2, 3].all fun n => (s.port n).up
  let l := dedup (s.fabric.position :: live)
  s.onFabric fun f => { f with live := l, ringChips := l.length, line := 1 < l.length && !whole }

/-- JOIN_SET (R314, R468): the switches open while the chip is in Run, Idle or Sleep. -/
def joinSet (s : State) : State :=
  if !s.reaches 16 || s.stage < 2 || s.power.chip != .on then s
  else s.onFabric fun f => { f with join := true, bypassClosed := false }

/-- The ring ports lose their links and what waited on them. -/
def isolate (s : State) : State :=
  let s := [0, 1, 2, 3].foldl (fun s n => s.onPort n fun x => { Port.reset with badFrames := x.badFrames }) s
  s.onFabric fun f => { f with bypassClosed := true, live := [], ringChips := 1, line := false }

/-- JOIN_CLEAR. -/
def joinClear (s : State) : State := if s.reaches 16 then isolate (s.onFabric fun f => { f with join := false }) else s

/-- LINK_TRAINED: a port comes up with its hop credits. -/
def linkTrained (n : Nat) (live : List Nat) (s : State) : State :=
  if 8 ≤ n || !s.fabric.join then s
  else
    let s := s.onPort n fun x =>
      { Port.reset with up := true, badFrames := x.badFrames, hopCredits := if n < 4 then (List.range 6).map fun v => (v, 512) else [] }
    if n < 4 then setRing s live else s

/-- LINK_LOST: packets on the link and in its buffers are lost. -/
def linkLost (n : Nat) (live : List Nat) (s : State) : State :=
  if 4 ≤ n || !s.fabric.join then s
  else setRing (s.onPort n fun x => { Port.reset with badFrames := x.badFrames }) live

/-- LINK_FRAME_ERROR: the frame is discarded; a replay request carries LACK. -/
def linkFrameError (n : Nat) (s : State) : State :=
  if 4 ≤ n || !(s.port n).up then s else s.onPort n fun x => { x with badFrames := x.badFrames + 1 }

/-- RING_TRANSIT_FORWARD: the packet goes on, on the same rail and in the same direction; DL is set as it crosses the dateline. -/
def transitForward (n vc : Nat) (pk : Packet) (s : State) : State :=
  if 4 ≤ n || !(s.port n).up || pk.dst = ownAddress s || !isRing s pk.dst || vc ≠ vcOf pk then s
  else
    let west := n < 2
    let s := s.onPort n fun x => { x with lack := (x.lack + 1) % 4096 }
    portSend s (if west then n + 2 else n - 2) { pk with west := west, rail := n % 2, dl := pk.dl || onDateline s west }

/-- PRP_FRAME_DISCARD: a packet of R318 or R319 counts for its partition, a frame of R321 for the chip (DEDUCED, assumption log 92). -/
def frameDiscard (r : DiscardReason) (p : Nat) (s : State) : State :=
  match r with
  | .unknownOp => tally s p fun n => { n with badPkt := n.badPkt + 1 }
  | .reservedField => tally s p fun n => { n with badPkt := n.badPkt + 1 }
  | _ => s.onFabric fun f => { f with frameDrops := f.frameDrops + 1 }

/-! ### The rows -/

def execWrite (pk : Packet) (s : State) : Host.Outcome State Fault Refusal := .next (dataPacket 0x00 pk s)
def execSend (pk : Packet) (s : State) : Host.Outcome State Fault Refusal := .next (dataPacket 0x02 pk s)
def execRdreq (pk : Packet) (s : State) : Host.Outcome State Fault Refusal := .next (dataPacket 0x03 pk s)
def execRdresp (pk : Packet) (s : State) : Host.Outcome State Fault Refusal := .next (dataPacket 0x04 pk s)
def execAck (pk : Packet) (s : State) : Host.Outcome State Fault Refusal := .next (ackPacket pk s)
def execNak (pk : Packet) (s : State) : Host.Outcome State Fault Refusal := .next (nakPacket pk s)
def execCredit (pk : Packet) (s : State) : Host.Outcome State Fault Refusal := .next (creditPacket pk s)
def execConnect (pk : Packet) (s : State) : Host.Outcome State Fault Refusal := .next (connectPacket pk s)
def execDisconnect (pk : Packet) (s : State) : Host.Outcome State Fault Refusal := .next (disconnectPacket pk s)
def execPacketLanding (part qp seq : Nat) (s : State) : Host.Outcome State Fault Refusal := .next (packetLanding part qp seq s)
def execQpContextFetchComplete (part qp : Nat) (result : ReadResult) (s : State) : Host.Outcome State Fault Refusal :=
  .next (contextFetched part qp result s)
def execPrpPacketSend (part qp : Nat) (s : State) : Host.Outcome State Fault Refusal := .next (sendNext s part qp)
def execEgressPolicerRelease (part qp elapsedNs : Nat) (s : State) : Host.Outcome State Fault Refusal :=
  .next (egressRelease part qp elapsedNs s)
def execAckTimer (part qp : Nat) (s : State) : Host.Outcome State Fault Refusal := .next (ackTimer part qp s)
def execRetransmitTimeout (part qp seq : Nat) (s : State) : Host.Outcome State Fault Refusal := .next (retransmit part qp seq s)
def execConnectRetry (part qp : Nat) (s : State) : Host.Outcome State Fault Refusal := .next (connectRetry part qp s)
def execQpConnect (part index : Nat) (s : State) : Host.Outcome State Fault Refusal :=
  .next (s.access (.qpConnect part index) (qpConnect part index))
def execQpDisconnect (part index : Nat) (s : State) : Host.Outcome State Fault Refusal :=
  .next (s.access (.qpDisconnect part index) (qpDisconnect part index))
def execQpReset (part index : Nat) (s : State) : Host.Outcome State Fault Refusal :=
  .next (s.access (.qpReset part index) (qpResetCmd part index))
def execReplayRequest (port lack : Nat) (s : State) : Host.Outcome State Fault Refusal := .next (replayRequest port lack s)
def execCreditOnlyFrame (port vc credits lack : Nat) (s : State) : Host.Outcome State Fault Refusal :=
  .next (creditFrame port vc credits lack s)
def execPfcFrame (uplink pauseMask : Nat) (s : State) : Host.Outcome State Fault Refusal := .next (pfcFrame uplink pauseMask s)
def execJoinSet (s : State) : Host.Outcome State Fault Refusal :=
  .next (s.access .joinSet joinSet)
def execJoinClear (s : State) : Host.Outcome State Fault Refusal :=
  .next (s.access .joinClear joinClear)
def execLinkTrained (port : Nat) (live : List Nat) (s : State) : Host.Outcome State Fault Refusal := .next (linkTrained port live s)
def execLinkLost (port : Nat) (live : List Nat) (s : State) : Host.Outcome State Fault Refusal := .next (linkLost port live s)
def execLinkFrameError (port : Nat) (s : State) : Host.Outcome State Fault Refusal := .next (linkFrameError port s)
def execRingTransitForward (port vc : Nat) (pk : Packet) (s : State) : Host.Outcome State Fault Refusal :=
  .next (transitForward port vc pk s)
def execPrpFrameDiscard (reason : DiscardReason) (part : Nat) (s : State) : Host.Outcome State Fault Refusal :=
  .next (frameDiscard reason part s)

end Sys2Proof.Machine
end

