-- ==== Sys2Proof/Machine/Disable.lean ====
section
/-! DEFINITION. Disabling a function (R372 to R376): the causes, what each does at once, and the end of the drain. -/

namespace Sys2Proof.Machine

open Sys2Proof

/-! Causes of R372. -/
namespace Cause
def quiesce : Nat := 1
def flr : Nat := 2
def busMaster : Nat := 3
def vfEnable : Nat := 4
def d3hot : Nat := 5
end Cause

/-- Every flight of the partition, by slot and in ring order. -/
def flightsOf (x : Part) : List (Nat × Flight) :=
  (sortBy (fun e : Nat × Slot => e.1) x.slots).flatMap fun e => (sortBy (fun f : Flight => e.2.offset f.index) e.2.window).map fun f => (e.1, f)

/-- Steps 1, 2 and 5 of R373: fetch stops, commands without a commit request are cut off, moves into host regions are abandoned. -/
def beginDisable (s : State) (p cause : Nat) (graceful silent : Bool) : State :=
  let gone := (flightsOf (s.part p)).filter fun e => !outlives e.2
  let s := gone.foldl
    (fun s e =>
      let c : CmdRef := ⟨p, e.1, e.2.index⟩
      (releaseReservations (cutOff s c e.2) c e.2.rsv).onFlight c fun f => { f with rsv := [] }) s
  let s := dropReads s fun r => r.part = p && (match r.what with
    | .fetch _ _ => true
    | _ => false)
  let s := abandonMoves s p fun m => m.dst.kind != .empty && m.dst.tier = 1
  s.onFunc p fun f =>
    { f with disable := some ⟨cause, graceful, 0, 0, 0, 0, [], !s.ready, silent⟩ }

/-- The commands that the disable has aborted, those of step 2 and those that the commit unit held or killed since, leave their windows; their
records come by slot, in ring order (step 6). -/
def endAborts (s : State) (p : Nat) : State :=
  let gone := flightsOf (s.part p)
  let recs := gone.map fun e =>
    let y := s.slot p e.1
    (y.eq, (commandRecord y e.1 e.2 St.aborted 0 0).bytes 0)
  let s := gone.foldl (fun s e => endAborted s ⟨p, e.1, e.2.index⟩ e.2) s
  onDisable s p fun d =>
    { d with
      aborted := gone.length
      recordsDropped := d.recordsDropped + (if d.graceful then 0 else gone.length)
      records := if d.graceful then recs else [] }

/-- What an FLR, and VF Enable cleared, reset of the function (R374). -/
def resetVectors (s : State) (p cause : Nat) : State :=
  s.onFunc p fun f =>
    { f with
      vectors := if cause = Cause.flr || cause = Cause.vfEnable then [] else f.vectors
      pushDrops := if cause = Cause.flr then 0 else f.pushDrops
      fenced := if cause = Cause.flr then false else f.fenced }

/-- A function is disabled for a cause; an abrupt cause makes a graceful disable in progress abrupt (R379)
(DEDUCED, assumption log 50; DEDUCED, assumption log 97). -/
def disable (s : State) (p cause : Nat) (graceful silent : Bool) : State :=
  match (s.func p).disable with
  | none => beginDisable s p cause graceful silent
  | some _ =>
    onDisable (resetVectors s p cause) p fun d =>
      let d := { d with silent := d.silent || silent }
      if d.graceful && !graceful then
        { d with cause := cause, graceful := false, records := [], recordsDropped := d.recordsDropped + d.records.length }
      else d

/-! ### The end of a disable (steps 6 to 9 of R373) -/

/-- Step 6, graceful: the ABORTED records follow those of the committed commands. -/
def postAborted (p : Nat) : List (Nat × List Byte) → State → State
  | [], s => s
  | r :: l, s =>
    if (s.eq p r.1).stuck then postAborted p l (onDisable s p fun d => { d with recordsDropped := d.recordsDropped + 1 })
    else postAborted p l (postRaw s p r.1 r.2 none)

/-- Step 6, abrupt: writes not yet issued are dropped and counted. -/
def dropWrites (s : State) (p : Nat) : State :=
  let mine := fun w : OutWrite => match w with
    | .data n _ _ _ => n = p
    | .record n _ _ _ => n = p
    | .message n _ => n = p
  let cmds := dedup (s.outq.filterMap fun w => match w with
    | .data n _ _ c => if n = p then c else none
    | _ => none)
  let recs := (s.outq.filter fun w => match w with
    | .record n _ _ _ => n = p
    | _ => false).length
  onDisable { s with outq := s.outq.filter fun w => !mine w } p fun d =>
    { d with writesDropped := d.writesDropped + cmds.length, recordsDropped := d.recordsDropped + recs }

/-- Step 7: the function's reads are abandoned; what waited for them fails (R374). -/
def abandonReads (s : State) (p : Nat) : State :=
  let l := s.reads.filter fun e => e.2.part = p
  let s := { s with reads := s.reads.filter fun e => e.2.part != p }
  l.foldl (fun s e => finishRead s (hostCode e.1) e.2 false) s

/-- A queue pair at RESET, with the epoch it used last (R374). -/
def Qp.toReset (q : Qp) : Qp := { Qp.reset with lastEpoch := q.lastEpoch, nextGroup := q.nextGroup }

/-- Queue pairs leave their states; read pins are dropped. -/
def resetQps (s : State) (p : Nat) : State :=
  let s := (s.part p).qps.foldl (fun s e => dropAllPins s p e.1) s
  s.onPart p fun x => { x with qps := Map.each x.qps Qp.toReset }

/-- Posted buffers are withdrawn, GEN raised (DEDUCED, assumption log 96). -/
def withdrawBuffers (s : State) (p : Nat) : State :=
  (s.part p).buffers.foldl (fun s e => if e.2.valid then rewriteBuffer s p e.1 e.2.fields false else s) s

/-- Step 8: R374. -/
def resetHostSide (s : State) (p cause : Nat) (graceful : Bool) : State :=
  let x := s.part p
  let own : CmdRef := ⟨p, 64, 0⟩
  let s := if !graceful then s else x.slots.foldl (fun s e =>
    if e.1 = 0 || !e.2.bound then s else (descriptorWrites (s.part p) e.2).foldl (fun s o => s.issue (.data p o.1 o.2 none)) s) s
  let s := x.kept.foldl (fun s k => releaseReservations s own k.rsv) s
  let waiting := sum (x.eqs.map fun e => e.2.backlog)
  let s := onDisable s p fun d => { d with recordsDropped := d.recordsDropped + waiting }
  let s := resetQps (withdrawBuffers s p) p
  let s := s.onPart p fun x =>
    { x with
      jobs := [], kept := [], slots := if x.live then [(0, Slot.reset0)] else [], eqs := [], push := []
      regs := { x.regs with qptBase := 0, qptSize := 0, qpcBusy := false } }
  resetVectors (s.onFunc p fun f => { f with fenced := f.fenced || graceful }) p cause

/-- Step 9: the QUIESCE record (R366, R375). -/
def quiesceRecord (d : Disable) (p drainUs : Nat) : Record :=
  ⟨St.success, Kind.quiesce, p, d.cause, d.aborted, d.committed, d.writesDropped, Nat.min d.recordsDropped 0xFFFF, drainUs⟩

/-- Steps 6 to 9. -/
def closeDisable (p drainUs : Nat) (s : State) : State :=
  match (s.func p).disable with
  | none => s
  | some d =>
    let s := if d.graceful then postAborted p d.records s else dropWrites s p
    let s := resetHostSide (abandonReads s p) p d.cause d.graceful
    match (s.func p).disable with
    | none => s
    | some d =>
      let s := s.onFunc p fun f => { f with disable := none }
      let s := { s with quiesce := s.quiesce - bits s.quiesce p 1 * 2 ^ p }
      if d.silent then s else postRecord s 16 0 (quiesceRecord d p drainUs) none

/-- A write of the function's committed commands has not been issued (R373 step 6). -/
def writesDue (s : State) (p : Nat) : Bool := s.outq.any fun w => match w with
  | .data n _ _ _ => n = p
  | _ => false

/-- DISABLE_DRAIN_END: with no command left but aborted ones, no write still to issue for a graceful disable, and, for a cause that came before READY, the management queue enabled (R379). -/
def drainEnd (p drainUs : Nat) (s : State) : State :=
  match (s.func p).disable with
  | none => s
  | some d =>
    if (s.part p).slots.any (fun y => y.2.window.any outlives) || (d.graceful && writesDue s p) || !s.ready || (d.early && !s.meq.en && !d.silent) then s
    else closeDisable p drainUs (endAborts s p)

/-! ### The causes (R372, R374, R376) -/

/-- DEDUCED, assumption log 98. -/
def vfs : List Nat := List.range 16

/-- QUIESCE: a bit of HUB_FN_CTRL set. -/
def quiesce (p : Nat) (s : State) : State :=
  if !s.reaches 16 || 16 ≤ p then s
  else disable { s with quiesce := s.quiesce - bits s.quiesce p 1 * 2 ^ p + 2 ^ p } p Cause.quiesce true false

/-- VF_FLR (DEDUCED, assumption log 50). -/
def vfFlr (p : Nat) (s : State) : State := if !s.hostUp || !s.vfEnable || 16 ≤ p then s else disable s p Cause.flr false false

/-- PF0's own reset: VF Enable clears, every VF is disabled without a record, and its queue, HUB_FN_CTRL and MSI-X table reset (R376)
(DEDUCED, assumption log 50). -/
def pf0Reset (s : State) : State :=
  let s := { s with vfEnable := false, quiesce := 0 }
  let s := vfs.foldl (fun s p => disable s p Cause.vfEnable false true) s
  { s with
    meq := EventQueue.reset, pf0Vector := Vector16.reset
    outq := s.outq.filter fun w => match w with
      | .data n _ _ _ => n ≠ 16
      | .record n _ _ _ => n ≠ 16
      | .message n _ => n ≠ 16 }

/-- PF0_FLR. -/
def pf0Flr (s : State) : State := if s.hostUp then pf0Reset s else s

/-- BUS_MASTER_DISABLE; 16 is PF0. -/
def busMasterDisable (p : Nat) (s : State) : State :=
  if !s.hostUp then s
  else if p = 16 then if s.pf0Bme then pf0Reset { s with pf0Bme := false } else s
  else if !s.vfEnable || 16 < p || !(s.func p).bme then s
  else disable (s.onFunc p fun f => { f with bme := false }) p Cause.busMaster false false

/-- BUS_MASTER_ENABLE. -/
def busMasterEnable (p : Nat) (s : State) : State :=
  if !s.hostUp then s
  else if p = 16 then { s with pf0Bme := true }
  else if !s.vfEnable || 16 < p then s
  else s.onFunc p fun f => { f with bme := true }

/-- VF_ENABLE_CLEAR (DEDUCED, assumption log 98). -/
def vfEnableClear (s : State) : State :=
  if !s.hostUp || !s.vfEnable then s
  else vfs.foldl (fun s p => disable s p Cause.vfEnable false false) { s with vfEnable := false }

/-- VF_ENABLE_SET. -/
def vfEnableSet (s : State) : State := if s.hostUp then { s with vfEnable := true } else s

/-- D3HOT_ENTRY. -/
def d3hotEntry (p : Nat) (s : State) : State :=
  if !s.hostUp || !s.vfEnable || 16 ≤ p || (s.func p).d3 then s
  else disable (s.onFunc p fun f => { f with d3 := true }) p Cause.d3hot false false

/-- D0_RETURN. -/
def d0Return (p : Nat) (s : State) : State :=
  if !s.hostUp || !s.vfEnable || 16 ≤ p then s else s.onFunc p fun f => { f with d3 := false }

/-! ### The rows -/

def execQuiesce (vf : Nat) (s : State) : Host.Outcome State Fault Refusal :=
  .next (s.access (.quiesce vf) (quiesce vf))
def execVfFlr (vf : Nat) (s : State) : Host.Outcome State Fault Refusal :=
  .next (s.access (.vfFlr vf) (vfFlr vf))
def execBusMasterDisable (vf : Nat) (s : State) : Host.Outcome State Fault Refusal :=
  .next (s.access (.busMasterDisable vf) (busMasterDisable vf))
def execBusMasterEnable (vf : Nat) (s : State) : Host.Outcome State Fault Refusal :=
  .next (s.access (.busMasterEnable vf) (busMasterEnable vf))
def execVfEnableClear (s : State) : Host.Outcome State Fault Refusal :=
  .next (s.access .vfEnableClear vfEnableClear)
def execVfEnableSet (s : State) : Host.Outcome State Fault Refusal :=
  .next (s.access .vfEnableSet vfEnableSet)
def execD3hotEntry (vf : Nat) (s : State) : Host.Outcome State Fault Refusal :=
  .next (s.access (.d3hotEntry vf) (d3hotEntry vf))
def execD0Return (vf : Nat) (s : State) : Host.Outcome State Fault Refusal :=
  .next (s.access (.d0Return vf) (d0Return vf))
def execPf0Flr (s : State) : Host.Outcome State Fault Refusal :=
  .next (s.access .pf0Flr pf0Flr)

end Sys2Proof.Machine
end

