-- ==== Sys2Proof/Machine/Flash.lean ====
section
/-! DEFINITION. The flash manager's events: programs and seals (R283, R299), reads (R294 to R297), collection and its copies (R285 to R288),
wear levelling (R292), refresh and patrol (R296, R298), discard records (R290), and failures (R299). -/

namespace Sys2Proof.Machine

open Sys2Proof

/-! ### Retirement (R299, R446) -/

/-- A failed block or die is reported (DESIGN CHOICE, assumption log 48). -/
def mediaRecord (s : State) (source severity action : Nat) (a : Place) : State :=
  logError s { ErrRecord.blank with source := source, severity := severity, action := action, part := if ownerOf s a.channel < 16 then ownerOf s a.channel else 0xFF,
                                    loc0 := flashLoc0 a }

/-- A block is never used again; its bad-block entry is logged at once. -/
def retireBlock (s : State) (b : Nat) : State :=
  ((logBadBlock s b).onBlock b fun k => { k with state := .retired }).onChannel (blockChannel b) fun c => { c with retired := c.retired + 1 }

/-! ### Copy groups (R287, R292) -/

/-- The dies that take copies: at most 4; while static levelling goes on, the die of its target (DESIGN CHOICE, assumption log 45). -/
def copyDies (s : State) (c : Nat) : List Nat :=
  match s.channel c with
  | none => [0]
  | some ch =>
    match ch.wear with
    | some b => [blockDie b]
    | none => List.range (Nat.min 4 (Nat.max ch.profile.dies 1))

/-- A copy group of the first 16 places of the collection buffer. -/
def startCopyGroup (s : State) (c : Nat) : State :=
  match s.channel c with
  | none => s
  | some ch =>
    let now := (ch.buffer.take 16).filter fun e => s.worthCopy e.1
    let s := s.onChannel c fun ch => { ch with buffer := ch.buffer.drop 16 }
    let fs := now.filterMap fun e => (s.frameAt e.1).map fun f => (f, e)
    if fs = [] then s
    else
      let dies := copyDies s c
      let frames := (List.range fs.length).filterMap fun i => (fs[i]?).map fun f =>
        ((dies[i % dies.length]?).getD 0, { f.1 with copy := true, isCseal := i + 1 = fs.length })
      let p := ownerOf s c
      let sources := fs.map fun f => (f.1.lfn, f.2)
      let s := if p < 16 then countTier s p 2 true (65536 * fs.length) else s
      (startGroup s ⟨c, p, frames, frames, [], [], sources, true, false, [], none, 0, false, false⟩).1

/-- Copies go on when 16 frames are in the buffer, or no further one is coming. n bounds the groups. -/
def tryCopy (c : Nat) : Nat → State → State
  | 0, s => s
  | n + 1, s =>
    let coming := s.flash.reads.any fun r => match r.2.what with
      | .copyOut a _ => a.channel = c
      | _ => false
    match s.channel c with
    | none => s
    | some ch => if ch.buffer = [] || ((coming || ch.copies ≠ []) && ch.buffer.length < 16) then s else tryCopy c n (startCopyGroup s c)

/-- Static levelling has nothing left to copy: its block is the die's open copy block, or, where the die has one, is filled no further
(DESIGN CHOICE, assumption log 45). -/
def endWear (s : State) (c : Nat) : State :=
  match s.channel c with
  | none => s
  | some ch =>
    match ch.wear with
    | none => s
    | some b =>
      if ch.copies ≠ [] || ch.buffer ≠ [] || s.flash.groups.any fun g => g.2.channel = c && g.2.isCopy then s
      else
        let has : Bool := match Map.look ch.openCopy (blockDie b) with
          | some o => o ≠ b && (s.block o).state = .opened
          | none => false
        let s := s.onChannel c fun ch => { ch with wear := none, openCopy := if has then ch.openCopy else Map.put ch.openCopy (blockDie b) b }
        if has then s.onBlock b fun k => { k with state := .full } else s

/-! ### Seals (R283, R287, R290) -/

/-- One copy of a sealed copy group: the area of a device frame takes its block (R292, R300); else the map names it where the map still names the frame that it copies; otherwise it is stale (R306). -/
def switchCopy (places : List Place) (s : State) (src : Nat × Place × Bool) : State :=
  match s.frameAt src.2.1 with
  | none => s
  | some f =>
    let same := fun a : Place => match s.frameAt a with
      | some g => g.lfn = f.lfn && g.vseq = f.vseq && g.part = f.part
      | none => false
    match places.find? same with
    | none => s
    | some a =>
      if f.kind = 5 then s
      else if 8 ≤ f.kind then
        s.onSecure fun c => { c with areas := Map.each c.areas fun l => if l.contains (blockOf src.2.1) && !l.contains (blockOf a) then blockOf a :: l else l }
      else
        match s.namedBy src.2.1, s.frameAt a with
        | some n, some g =>
          let e : MapEntry := ⟨a, true, g.progTime, g.progTemp, 0⟩
          s.onPart n.1 fun x =>
            { x with
              flash := { x.flash with map := Map.put x.flash.map n.2.1 e }
              cnt := if src.2.2 then { x.cnt with refresh := x.cnt.refresh + 1 } else x.cnt }
        | _, some g =>
          if g.part < 16 then s.onPart g.part fun x => { x with flash := { x.flash with discards := x.flash.discards ++ [(a, g.eraseCnt)] } } else s
        | _, none => s

/-- The group is sealed: its last program has passed. -/
def sealGroup (s : State) (gid : Nat) (g : Group) : State :=
  if g.isCopy then
    let s := g.sources.foldl (switchCopy g.places) s
    let s := s.onFlash fun f => { f with groups := Map.del f.groups gid }
    endWear (tryCopy g.channel 64 (((g.sources.map fun e => blockOf e.2.1).foldl settleBlock) s)) g.channel
  else if g.isDiscard then
    eraseEmpty (s.onFlash fun f => { f with groups := Map.del f.groups gid }) g.channel
  else
    let s := s.onGroup gid fun g => { g with isSealed := true }
    match g.move with
    | some m => onMove s m.1 m.2 fun m => { m with step := .written }
    | none => s

/-- R299: a program failed. The block is retired, the group begins again, and what the block holds is copied out. -/
def programFailed (s : State) (gid : Nat) (a : Place) : State :=
  let b := blockOf a
  let s := mediaRecord (retireBlock s b) Src.flashProgram 1 Act.blockRetired a
  let s := s.onGroup gid fun g => { g with todo := g.frames, waiting := [], places := [], first := 0 }
  readOutBlock (pumpAll s a.channel) b

/-- R285: the last page of an open block has been programmed. -/
def fillBlock (s : State) (b : Nat) : State :=
  let k := s.block b
  if k.state = .opened && pagesPerBlock s (blockChannel b) ≤ k.nextPage && !(s.flash.groups.any fun g => g.2.waiting.any fun a => blockOf a = b) then
    s.onBlock b fun k => { k with state := .full }
  else s

/-- FLASH_PROGRAM_COMPLETE. -/
def programComplete (a : Place) (pass : Bool) (s : State) : State :=
  match s.flash.groups.find? fun g => g.2.waiting.contains a with
  | none => s
  | some (gid, g) =>
    if !pass then programFailed s gid a
    else
      let s := s.onFlash fun d => { d with frames := Map.edit d.frames (placeNo a) fun f => { f with passed := true } }
      let left := g.waiting.filter fun b => b ≠ a
      let s := fillBlock (s.onGroup gid fun g => { g with waiting := left }) (blockOf a)
      let s := if left = [] && g.todo = [] then sealGroup s gid { g with waiting := [] } else pump gid 32 s
      pumpAll s a.channel

/-! ### Reads (R282, R294 to R297, R299) -/

/-- Commands that a failing flash read rejects. -/
def readVictims (s : State) (id : Nat) (r : ReadReq) : List CmdRef :=
  dedup ((waiters s (flashCode id)).map fun e => e.2.cmd) ++ (match r.what with
    | .restFrame i => restWaiters (s.part r.part) r.part i
    | _ => [])

/-- A frame for the collection buffer has been read, and the next one follows (DESIGN CHOICE, assumption log 46). -/
def copyOutRead (s : State) (p : Nat) (a : Place) (refresh ok : Bool) (r : FlashReadResult) : State :=
  let c := a.channel
  let lfn := ((s.frameAt a).map fun f => f.lfn).getD 0
  let e := (s.namedBy a).map fun n => n.2.2
  let r := match e with
    | some e => readResult s e r
    | none => r
  let s :=
    if ok && r ≠ .uncorrectable then
      let s := noteRetry s p [lfn] r
      let s := if p < 16 then countTier s p 2 false 65536 else s
      s.onChannel c fun ch => { ch with buffer := ch.buffer ++ [(a, refresh)] }
    else (uncorrectable s p lfn e []).onBlock (blockOf a) fun k => { k with unread := k.unread ++ [a.page] }
  settleBlock (endWear (tryCopy c 64 (nextCopyOut s c true)) c) (blockOf a)

/-- FLASH_READ_COMPLETE. A read whose segment lies in the map host area waits for it (R282) (DESIGN CHOICE, assumption log 41). -/
def flashReadComplete (id : Nat) (result : FlashReadResult) (s : State) : State :=
  match Map.look s.flash.reads id with
  | none => s
  | some r =>
    let done := s.onFlash fun f => { f with reads := Map.del f.reads id }
    match r.what with
    | .copyOut a refresh => copyOutRead done r.part a refresh (r.places.all fun e => s.placeUp e.2) result
    | _ =>
      let n := ceilDiv r.bytes 65536
      if r.places = [] && segmentsAway s r.part r.addr n ≠ [] then s
      else
        let t := endFlashRead done r.part r.addr n r.places result ((readVictims s id r).map (wordOf s))
        let s := finishRead t.2 (flashCode id) r t.1
        (dedup (r.places.map fun e => blockOf e.2)).foldl settleBlock s

/-! ### Collection (R285 to R288, R292) -/

/-- R287: the FULL block with the fewest valid frames; then the lower erase count, then the lower number. A block that only holds a frame that could
not be read is none (R299). -/
def victimOf (s : State) (c : Nat) : Option Nat :=
  (leastBy (fun e : Nat × Block => validCount s e.1 * 2 ^ 32 + e.2.eraseCnt)
    ((goodBlocks s c).filter fun e => e.2.state = .full && !e.2.stuck && s.placeUp ⟨c, blockDie e.1, 0, 0⟩)).map fun e => e.1

/-- A block becomes VICTIM; in foreground mode it admits P - v frames of new data (R288). -/
def takeVictim (s : State) (c b : Nat) : State :=
  let fg := collectMode s c = .foreground
  let v := validCount s b
  let s := s.onBlock b fun k => { k with state := .victim }
  let s := if fg then (s.onChannel c fun ch => { ch with admitted := ch.profile.pagesPerBlock - v }).onOwner c fun n => { n with fgColl := n.fgColl + 1 } else s
  settleBlock (readOutBlock s b) b

/-- Collection of one victim, unless one is being collected; a victim that was held up goes on (DESIGN CHOICE, assumption log 46). -/
def collect (s : State) (c : Nat) : State :=
  match (goodBlocks s c).find? fun e => e.2.state = .victim || e.2.state = .erasing with
  | some e => if e.2.state = .victim then settleBlock (endWear (tryCopy c 64 (nextCopyOut (readOutBlock s e.1) c true)) c) e.1 else s
  | none =>
    match victimOf s c with
    | none => s
    | some b => pumpAll (nextCopyOut (takeVictim s c b) c true) c

/-- COLLECTION_START: in foreground mode collection runs on; in the other modes only blocks without a valid frame are erased. -/
def collectionStart (c : Nat) (s : State) : State :=
  match s.channel c with
  | none => s
  | some ch => if !ch.online || s.holds 9 then s else if collectMode s c = .foreground then collect (eraseEmpty s c) c else eraseEmpty s c

/-- COLLECTION_IDLE_TIMER: 10 ms without demand: in background mode collection, in every mode the refreshes that wait (R296). -/
def collectionIdle (c : Nat) (s : State) : State :=
  match s.channel c with
  | none => s
  | some ch =>
    if !ch.online || demandOn s c || s.holds 9 then s
    else
      let s := eraseEmpty s c
      let s := if collectMode s c = .background then collect s c else s
      nextCopyOut s c true

/-- FLASH_ERASE_COMPLETE. -/
def eraseComplete (b : BlockId) (pass : Bool) (s : State) : State :=
  let n := blockNo b.channel b.die b.block
  let k := s.block n
  if k.state != .erasing then s
  else
    let s := s.onFlash fun f => { f with frames := f.frames.filter fun e => e.1 / 4096 ≠ n }
    let s := s.onSecure fun c => { c with areas := Map.each c.areas fun l => l.filter fun m => m ≠ n }
    if !pass then mediaRecord (retireBlock s n) Src.flashErase 1 Act.blockRetired ⟨b.channel, b.die, b.block, 0⟩
    else
      let limit := match s.channel b.channel with
        | some ch => ch.profile.endurance
        | none => 0
      let s := s.onBlock n fun k => { Block.reset with eraseCnt := k.eraseCnt + 1 }
      let s := if limit ≤ k.eraseCnt + 1 then retireBlock s n else s
      -- a discard record whose frames are all erased is no longer valid (R290)
      pumpAll (eraseEmpty s b.channel) b.channel

/-- A block of the channel is being levelled, or was within the last minute, or the flash manager holds an entry of the chip (R420). -/
def levelledNow (s : State) (c : Nat) : Bool :=
  match s.channel c with
  | some ch => s.holds 9 || ch.wear.isSome || (ch.wearAt ≠ 0 && s.nowS < ch.wearAt + 60)
  | none => true

/-- STATIC_WEAR_LEVEL (R292). The anchor keeps its blocks (DESIGN CHOICE, assumption log 45). -/
def staticWearLevel (c : Nat) (s : State) : State :=
  if (c ≠ 0 && c ≠ 16) || levelledNow s c then s
  else
    let good := goodBlocks s c
    let up := good.filter fun e => s.placeUp ⟨c, blockDie e.1, 0, 0⟩
    let high := good.foldl (fun m e => Nat.max m e.2.eraseCnt) 0
    let low := good.foldl (fun m e => Nat.min m e.2.eraseCnt) high
    let filled := up.filter fun e =>
      (e.2.state = .full || (e.2.state = .opened && pagesPerBlock s c ≤ e.2.nextPage)) && !e.2.stuck && !blockHeld s e.1 &&
        !anchorBlock e.1
    let target := leastBy (fun e : Nat × Block => high - e.2.eraseCnt) (up.filter fun e => e.2.state = .free && !anchorBlock e.1)
    match leastBy (fun e : Nat × Block => e.2.eraseCnt) filled, target with
    | some young, some old =>
      if high - low ≤ 500 then s
      else
        let s := s.onBlock old.1 fun k => { k with state := .opened, forCopies := true }
        let s := s.onChannel c fun ch => { ch with wear := some old.1, wearAt := s.nowS }
        let s := s.onBlock young.1 fun k => { k with state := .victim }
        settleBlock (endWear (readOutBlock s young.1) c) young.1
    | _, _ => s

/-! ### Refresh and patrol (R296, R298) -/

/-- RETENTION_LIMIT_REFRESH. -/
def retentionRefresh (a : Place) (s : State) : State :=
  match s.namedBy a, s.channel a.channel with
  | some n, some ch => if ch.online && !s.holds 9 && ch.profile.retentionLimitS < retentionAge s n.2.2 then refreshFrame s a else s
  | _, _ => s

/-- A demand read or a program is under way on a die. -/
def dieDemand (s : State) (c d : Nat) : Bool :=
  (s.flash.reads.any fun r => r.2.places.any fun e => e.2.channel = c && e.2.die = d) ||
    s.flash.groups.any fun g => g.2.channel = c && g.2.waiting.any fun a => a.die = d

/-- R298: where the patrol of a die stands: the number of the first place that it has still to look at, and the second in which its period began;
a period that has passed begins anew (DESIGN CHOICE, assumption log 156). -/
def patrolAt (s : State) (c d : Nat) : Nat × Nat :=
  match Map.look s.flash.patrol (16 * c + d) with
  | some p => if s.nowS < p.2 + 86400 * s.flash.patrolDays then p else (0, s.nowS)
  | none => (0, s.nowS)

/-- The next valid frame of a die in block order. -/
def patrolNext (s : State) (c d from1 : Nat) : Option Nat :=
  leastBy (fun n => n) ((s.flash.frames.filter fun e => e.1 / 4096 / 65536 = c * 16 + d && from1 ≤ e.1 && (s.namedBy (placeOf e.1)).isSome).map fun e => e.1)

/-- PATROL_READ: the next frame of its die, while the die has no demand (R298) (DESIGN CHOICE, assumption log 156). -/
def patrolRead (a : Place) (result : FlashReadResult) (s : State) : State :=
  let at1 := patrolAt s a.channel a.die
  match s.namedBy a with
  | none => s
  | some n =>
    if !s.flash.patrolEn || s.holds 9 || s.flash.phase ≠ 5 || !s.placeUp a || dieDemand s a.channel a.die || patrolNext s a.channel a.die at1.1 ≠ some (placeNo a) then s
    else
      let s := s.onFlash fun f => { f with patrol := Map.put f.patrol (16 * a.channel + a.die) (placeNo a + 1, at1.2) }
      let r := readResult s n.2.2 result
      if r = .uncorrectable then uncorrectable s n.1 n.2.1 (some n.2.2) []
      else
        let s1 := noteRetry s n.1 [n.2.1] r
        if wantsRefresh s n.2.2 r then refreshFrame s1 a else s1

/-! ### Discard records (R290) -/

/-- DISCARD_RECORD_PROGRAM: the record of at most 8,192 entries is programmed (DESIGN CHOICE, assumption log 47). -/
def discardProgram (p : Nat) (s : State) : State :=
  let x := s.part p
  let now := x.flash.discards.take 8192
  match now, (if p < 16 then chooseChannel s p 1 else none) with
  | _ :: _, some c =>
    let data := now.flatMap fun d => discardEntry d.1 d.2
    let f := { blankFrame with kind := 5, part := p, isSeal := true, epoch := x.epoch, glen := 1, obj := now.length, data := data }
    let s := s.onPart p fun x => { x with flash := { x.flash with discards := x.flash.discards.drop 8192 } }
    let die := ((s.channel c).map fun ch => ch.d0).getD 0
    (startGroup s ⟨c, p, [(die, f)], [(die, f)], [], [], [], false, true, now, none, 0, false, false⟩).1
  | _, _ => s

/-! ### Dies and training (R272, R299) -/

/-- Programs in flight on a die go to other dies. -/
def reissue (c die : Nat) (s : State) (gid : Nat) : State :=
  match Map.look s.flash.groups gid with
  | none => s
  | some g =>
    let lost := if g.channel = c then g.waiting.filter fun a => a.die = die else []
    if lost = [] then s
    else
      let back := lost.filterMap fun a => (s.frameAt a).map fun f => (die, f)
      let s := s.onFlash fun d => { d with frames := lost.foldl (fun m a => Map.del m (placeNo a)) d.frames }
      let s := s.onGroup gid fun g =>
        { g with
          todo := back ++ g.todo
          waiting := g.waiting.filter fun a => !lost.contains a
          places := g.places.filter fun a => !lost.contains a }
      pump gid 32 s

/-- DIE_READY_TIMEOUT. -/
def dieReadyTimeout (c die : Nat) (s : State) : State :=
  match s.channel c with
  | none => s
  | some ch =>
    if !ch.online || ch.dead.contains die || ch.profile.dies ≤ die then s
    else
      let s := s.onChannel c fun ch => { ch with dead := ch.dead ++ [die] }
      let s := mediaRecord s Src.flashDie 2 Act.dieOffline ⟨c, die, 0, 0⟩
      let s := s.onHealth fun h => { h with degraded := true }
      (s.flash.groups.map fun g => g.1).foldl (reissue c die) s

/-- FLASH_TEMP_RETRAIN: a move of 30 degrees retrains the channel; one that does not train is offline (R299). -/
def flashTempRetrain (c : Nat) (tempC : Int) (trained : Bool) (s : State) : State :=
  match s.channel c with
  | none => s
  | some ch =>
    if !ch.online || (tempC - ch.lastTempC).natAbs < 30 then s
    else
      let s := s.onChannel c fun ch => { ch with lastTempC := tempC, online := trained }
      if trained then s else s.onHealth fun h => { h with degraded := true }

/-! ### The map host area (R281, R282) -/

/-- MAP_SEGMENT_FETCH; result is that of the read after its retry. The read is metered for the partition (R369). While PF0 cannot issue reads the segment is unreadable (R376)
(DEDUCED, assumption log 49). -/
def mapSegmentFetch (p g : Nat) (result : ReadResult) (s : State) : State :=
  if !(s.part p).flash.hostSegs.contains g then s
  else if result = .ok && s.pf0Bme && s.hostUp then
    stallFree ((bringSegment s p g).onPart p fun x => { x with ingress := x.ingress.takeAll 67584 true }) p Stall.flashLate
  else
    s.onPart p fun x =>
      { x with flash := { x.flash with
          hostSegs := x.flash.hostSegs.filter fun n => n ≠ g
          lostSegs := if x.flash.lostSegs.contains g then x.flash.lostSegs else x.flash.lostSegs ++ [g] } }

/-! ### The rows -/

def execFlashProgramComplete (place : Place) (pass : Bool) (s : State) : Host.Outcome State Fault Refusal :=
  .next (programComplete place pass s)
def execFlashReadComplete (id : Nat) (result : FlashReadResult) (s : State) : Host.Outcome State Fault Refusal :=
  .next (flashReadComplete id result s)
def execFlashEraseComplete (block : BlockId) (pass : Bool) (s : State) : Host.Outcome State Fault Refusal :=
  .next (eraseComplete block pass s)
def execCollectionStart (channel : Nat) (s : State) : Host.Outcome State Fault Refusal := .next (collectionStart channel s)
def execCollectionIdleTimer (channel : Nat) (s : State) : Host.Outcome State Fault Refusal := .next (collectionIdle channel s)
def execStaticWearLevel (channel : Nat) (s : State) : Host.Outcome State Fault Refusal := .next (staticWearLevel channel s)
def execRetentionLimitRefresh (place : Place) (s : State) : Host.Outcome State Fault Refusal := .next (retentionRefresh place s)
def execPatrolRead (place : Place) (result : FlashReadResult) (s : State) : Host.Outcome State Fault Refusal :=
  .next (patrolRead place result s)
def execDiscardRecordProgram (part : Nat) (s : State) : Host.Outcome State Fault Refusal := .next (discardProgram part s)
def execDieReadyTimeout (channel die : Nat) (s : State) : Host.Outcome State Fault Refusal := .next (dieReadyTimeout channel die s)
def execFlashTempRetrain (channel : Nat) (tempC : Int) (trained : Bool) (s : State) : Host.Outcome State Fault Refusal :=
  .next (flashTempRetrain channel tempC trained s)
def execMapSegmentFetch (part segment : Nat) (result : ReadResult) (s : State) : Host.Outcome State Fault Refusal :=
  .next (mapSegmentFetch part segment result s)

end Sys2Proof.Machine
end

