-- ==== Sys2Proof/Machine/Oxsis.lean ====
section
/-! DEFINITION. Oxsis: its requests over the mailbox and MCTP (R382 to R384), partitions (R397 to R401), attestation (R404 to R406), consent
(R407, R408), debug and profile reads (R409), firmware (R386 to R388), signatures (R390, R391), RMA (R410). -/

namespace Sys2Proof.Machine

open Sys2Proof

/-- Results of R383. -/
def Oxs.ok : Nat := 0
def Oxs.badRequest : Nat := 1
def Oxs.partExists : Nat := 2
def Oxs.noPartition : Nat := 3
def Oxs.grantConflict : Nat := 4
def Oxs.scrubbing : Nat := 5
def Oxs.notReady : Nat := 6
def Oxs.badSignature : Nat := 7
def Oxs.noConsent : Nat := 8
def Oxs.sigExhausted : Nat := 9
def Oxs.lifecycle : Nat := 10
def Oxs.rollback : Nat := 11

/-- How a request ends: with a result and its response, or later, GO still 1. -/
inductive Reply where
  | done (s : State) (result : Nat) (response : List Byte)
  | later (s : State)

def zeroFrom (b : List Byte) (off : Nat) : Bool := (b.drop off).all fun x => x = 0

/-- GO of OXS_MBX_CTRL: a mailbox request is in the queue. -/
def Oxsis.go (o : Oxsis) : Bool := o.queue.any fun q => !q.mctp

/-- Start-up has reached stage PARTITIONS (DEDUCED, assumption log 56). -/
def State.parted (s : State) : Bool := 2 ≤ s.stage

/-! ### Partitions (R397 to R401) -/

/-- The grants that a CREATE request names. -/
def grantOf (b : List Byte) : Grant :=
  ⟨field b 1 1, field b 2 1, field b 3 1, field b 4 4, field b 8 4, (List.range 160).filter fun i => bit (field b 0xC 20) i, slice b 0x20 32, 0, 0, 0⟩

/-- R397 check 3. -/
def createRange (s : State) (b : List Byte) : Bool :=
  let g := grantOf b
  field b 0 1 ≤ 15 && (if s.sched.classMode then g.priority ≤ 1 else 1 ≤ g.priority) && g.pushMib ≤ 64 && 1 ≤ g.sliceW && g.sliceW ≤ 184 &&
    !bit g.flashMask 0 && !bit g.flashMask 16 && (List.range 4).all (fun q => 1 ≤ bits g.ways (8 * q) 8 && bits g.ways (8 * q) 8 ≤ 16) &&
    !g.sets.contains 0 && !g.sets.contains 1 && g.sets ≠ [] && zeroFrom b 0x40

/-- R397 check 5. -/
def grantConflict (s : State) (g : Grant) : Bool :=
  let others := s.livePartitions.map fun p => (s.part p).grant
  others.any (fun o => o.sets.any (fun i => g.sets.contains i) || (List.range 32).any fun c => bit o.flashMask c && bit g.flashMask c) ||
    (List.range 4).any (fun q => 16 < bits g.ways (8 * q) 8 + sum (others.map fun o => bits o.ways (8 * q) 8)) ||
    64 < g.pushMib + sum (others.map fun o => o.pushMib) || 184 < g.sliceW + sum (others.map fun o => o.sliceW)

def grantScrubbing (s : State) (g : Grant) : Bool :=
  g.sets.any (fun i => s.flash.secure.scrubSets.contains i) || s.flash.secure.scrubFlash.any fun c => bit g.flashMask c

/-- The objects of a partition that has just been made or is made again at start-up (R35, R398 step 4); the policers and the epoch belong
to its number. -/
def newPart (old : Part) (g : Grant) (epoch : Nat) : Part :=
  { Part.absent with
    live := true, epoch := epoch, grant := g, slots := [(0, Slot.reset0)], egress := old.egress, ingress := old.ingress, evictions := old.evictions }

/-- CREATE. -/
def create (s : State) (b : List Byte) : Reply :=
  let p := field b 0 1
  let g := grantOf b
  if s.oxs.lifecycle ≠ .production then .done s Oxs.lifecycle []
  else if !s.parted then .done s Oxs.notReady []
  else if !createRange s b then .done s Oxs.badRequest []
  else if (s.part p).live then .done s Oxs.partExists []
  else if grantConflict s g then .done s Oxs.grantConflict []
  else if grantScrubbing s g then .done s Oxs.scrubbing []
  else
    let d1 := s.draw
    let d2 := d1.2.draw
    let s := d2.2
    let g := { g with salt := Config.freeWide d1.1, partitionId := (Config.freeWide d2.1).toNat % 2 ^ 64, createdS := s.nowS }
    let old := s.part p
    let s := sealSecure s fun c =>
      { c with table := Map.put c.table p (g, old.epoch), epochs := Map.put c.epochs p old.epoch, mode := s.sched.classMode }
    .done (buildTables (s.setPart p (newPart old g old.epoch)) p) Oxs.ok (leBytes 8 g.partitionId ++ leBytes 4 old.epoch)

/-- Steps 2 to 4 of R399: the partition is absent under a new epoch, its on-die state is invalid (R400), and its resources are listed as
scrubbing. -/
def erasePart (s : State) (p : Nat) : State :=
  let x := s.part p
  let e := (x.epoch + 1) % 2 ^ 32
  let s := sealSecure s fun c =>
    { c with
      table := Map.del c.table p
      epochs := Map.put c.epochs p e
      scrubSets := c.scrubSets ++ x.grant.sets
      scrubFlash := c.scrubFlash ++ x.flashChannels }
  let s := s.setPart p { Part.absent with epoch := e, egress := x.egress, ingress := x.ingress, evictions := x.evictions }
  let s := s.onFlash fun f => { f with groups := f.groups.filter fun g => g.2.part ≠ p, reads := f.reads.filter fun r => r.2.part ≠ p }
  let s := s.onFlash fun f => { f with channels := f.channels.map fun c => if x.flashChannels.contains c.1 then (c.1, { c.2 with buffer := [], copies := [] }) else c }
  let s := s.onSched fun d =>
    { d with
      units := d.units.filter fun u => u.2.part ≠ p
      chains := d.chains.filter fun c => c.ref.part ≠ p
      cores := d.cores.filter fun c => c.2.ref.part ≠ p }
  { s with
    reads := s.reads.filter fun r => r.2.part ≠ p
    cache := s.cache.filter fun l => l.2.part ≠ p
    oxs := { s.oxs with scrubEpoch := (s.oxs.scrubEpoch + 1) % 2 ^ 32 } }

/-- The end of a destruction: the response counts of DESTROY. -/
def finishDestroy (s : State) (p aborted : Nat) : Reply :=
  let x := s.part p
  .done (erasePart s p) Oxs.ok
    (leBytes 4 aborted ++ leBytes 4 x.seqs.length ++ leBytes 2 x.grant.sets.length ++ leBytes 1 x.flashChannels.length)

/-- DESTROY. Step 1 is an abrupt disable without a record; where commands still drain, DISABLE_DRAIN_END goes on. -/
def destroy (s : State) (b : List Byte) : Reply :=
  let p := field b 0 1
  if !s.parted then .done s Oxs.notReady []
  else if 15 < p || !zeroFrom b 1 then .done s Oxs.badRequest []
  else if !(s.part p).live then .done s Oxs.noPartition []
  else
    let s := disable s p 0 false true
    let aborted := match (s.func p).disable with
      | some d => d.aborted
      | none => 0
    if s.ready && (s.part p).slots.any (fun y => y.2.window ≠ []) then .later s else finishDestroy (closeDisable p 0 s) p aborted

/-! ### Signatures (R390, R391) -/

def rangeSize : Nat := 2 ^ 28

/-- At most 64 signatures in each second. -/
def mayNotSign (s : State) : Bool := s.oxs.sigSecond = s.nowS && 64 ≤ s.oxs.sigThisSecond

/-- DEDUCED, assumption log 51. -/
def sigSpent (o : Oxsis) : Bool := rangeSize ≤ o.sigOffset && 4096 ≤ o.idRanges

/-- A new range where the last is spent. -/
def nextRange (o : Oxsis) : Oxsis := if o.sigOffset < rangeSize then o else { o with idRanges := o.idRanges + 1, sigOffset := 0, sigBound := 0 }

/-- A signature-state record is sealed before an index at its bound is used. -/
def sealIndex (o : Oxsis) (s : State) : State :=
  if o.sigOffset < o.sigBound then { s with oxs := o }
  else sealSecure { s with oxs := { o with sigBound := o.sigOffset + 256 } } fun c => { c with sigState := some (o.idRanges, o.sigOffset + 256) }

/-- A signature of this second is counted. -/
def countSignature (s : State) : State :=
  s.onOxs fun o => { o with sigOffset := o.sigOffset + 1, sigSecond := s.nowS, sigThisSecond := if o.sigSecond = s.nowS then o.sigThisSecond + 1 else 1 }

/-- The next index. The range number is one less than the count of ID_RANGE fuses (DEDUCED, assumption log 51). -/
def takeIndex (s : State) : Nat × State :=
  let o := nextRange s.oxs
  (rangeSize * (o.idRanges - 1) + o.sigOffset, countSignature (sealIndex o s))

/-! ### The report (R405, R406) -/

/-- Consent is in force until a second (0: until revoked). -/
def inForce (s : State) (u : Option Nat) : Bool :=
  match u with
  | some e => e = 0 || s.nowS < e
  | none => false

def partitionEntry (s : State) (p : Nat) : List Byte :=
  let x := s.part p
  let g := x.grant
  if !x.live then slice (List.replicate 4 0 ++ leBytes 4 x.epoch) 0 128
  else
    leBytes 1 (1 + 2 * Bool.bit (inForce s x.debugUntil) + 4 * Bool.bit (inForce s x.profileUntil)) ++ leBytes 1 g.priority ++ leBytes 1 g.pushMib ++
      leBytes 1 g.sliceW ++ leBytes 4 x.epoch ++ leBytes 8 g.partitionId ++ leBytes 20 (sum (g.sets.map fun i => 2 ^ i)) ++ leBytes 4 g.flashMask ++
      leBytes 4 g.ways ++ leBytes 4 g.createdS ++ slice g.tenantKey 0 32 ++ leBytes 4 x.consentSeq ++ leBytes 4 x.consentEnd ++
      slice x.consentDigest 0 32 ++ List.replicate 8 0

def imageEntry (i : FwImage) : List Byte :=
  leBytes 1 i.id ++ List.replicate 3 0 ++ leBytes 4 i.svn ++ leBytes 4 i.offset ++ leBytes 4 i.bytes ++ leBytes 8 i.version ++ List.replicate 8 0 ++
    slice i.digest 0 32

def idKey : List Byte := (List.range 68).map Config.idKeyByte

/-- JTAG_INTERNAL: the lifecycle lets JTAG reach internal state (R410, R411). -/
def jtagInternal (s : State) : Bool := s.oxs.lifecycle ≠ .production

/-- DEDUCED, assumption log 51. -/
def reportBody (s : State) (nonce : List Byte) (index : Nat) : List Byte :=
  let o := s.oxs
  let put := fun (l : List Byte) (e : Nat × List Byte) => overlay 2560 l e.1 e.2
  let boot := o.booted.getD ⟨false, 0, [], false, false⟩
  let left := (rangeSize - o.sigOffset) + rangeSize * (4096 - o.idRanges)
  let sec := s.flash.secure
  ([(0x000, [0x5A, 0x41, 0x54, 0x52]), (0x004, leBytes 2 1), (0x006, leBytes 2 2560), (0x008, slice nonce 0 32), (0x028, leBytes 4 s.nowS),
    (0x02C, leBytes 2 o.idRanges), (0x030, leBytes 8 index), (0x038, leBytes 8 left), (0x040, leBytes 2 0x0920), (0x042, leBytes 1 Config.revision),
    (0x043, leBytes 1 (lifecycleCode o.lifecycle)),
    (0x044, leBytes 4 (Bool.bit (jtagInternal s) + 2 * Bool.bit o.bootedB + 4 * Bool.bit o.recovered + 8 * Bool.bit o.certMismatch)),
    (0x048, leBytes 16 Config.chipId.toNat), (0x058, idKey), (0x09C, leBytes 1 (Bool.bit s.sched.classMode)), (0x09E, leBytes 2 (ownAddress s)),
    (0x0A0, slice (boot.images.flatMap imageEntry) 0 256), (0x1A0, o.svn.flatMap (leBytes 4)), (0x1B0, leBytes 4 boot.seq),
    (0x1B4, leBytes 20 (sum ((dedup sec.scrubSets).map fun i => 2 ^ i))), (0x1C8, leBytes 4 (sum ((dedup sec.scrubFlash).map fun c => 2 ^ c))),
    (0x200, (List.range 16).flatMap (partitionEntry s))] : List (Nat × List Byte)).foldl put (List.replicate 2560 0)

/-- A signed report: the body and its signature of 9,893 bytes. -/
def signedReport (s : State) (nonce : List Byte) : State × List Byte :=
  let t := takeIndex s
  let body := reportBody t.2 nonce t.1
  (t.2, body ++ (List.range 9893).map (Config.signatureByte t.1 body))

/-- ATTEST. -/
def attest (s : State) (b : List Byte) : Reply :=
  if !s.parted then .done s Oxs.notReady []
  else if !zeroFrom b 32 then .done s Oxs.badRequest []
  else if sigSpent s.oxs then .done s Oxs.sigExhausted []
  else if mayNotSign s then .later s
  else
    let r := signedReport s (slice b 0 32)
    .done r.1 Oxs.ok r.2

/-- CERT_READ (R389): the certificate of the boot NOR; one that does not match the chip has free bytes. -/
def certificate (s : State) : List Byte :=
  if s.oxs.certMismatch then (List.range 9989).map Config.certByte
  else
    [0x5A, 0x44, 0x43, 0x31] ++ leBytes 4 1 ++ leBytes 16 Config.chipId.toNat ++ idKey ++ leBytes 4 0 ++
      (List.range 9893).map fun i => Config.certByte (0x60 + i)

def certRead (s : State) (b : List Byte) : Reply :=
  if !zeroFrom b 0 then .done s Oxs.badRequest [] else .done s Oxs.ok (certificate s)

/-! ### Consent (R407, R408) -/

/-- The OID of an XMSS public key, most significant byte first (RFC 8391): XMSS-SHAKE_10_256, _16_256 and _20_256
(PRESUMED, assumption log 58). -/
def consentOid (b : List Byte) : Bool := let k := slice b 0x38 4; k = [0, 0, 0, 7] || k = [0, 0, 0, 8] || k = [0, 0, 0, 9]

/-- CONSENT. -/
def consent (s : State) (b : List Byte) (sigOk : Bool) : Reply :=
  let p := field b 4 1
  let x := s.part p
  let scope := field b 5 1
  if !s.parted then .done s Oxs.notReady []
  else if 15 < p || !x.live || field b 8 8 ≠ x.grant.partitionId then .done s Oxs.noPartition []
  else if x.grant.tenantKey.all fun k => k = 0 then .done s Oxs.noConsent []
  else if !consentOid b || slice b 0 4 ≠ [0x5A, 0x43, 0x4E, 0x31] || 3 < scope || field b 6 2 ≠ 0 || field b 0x10 4 ≤ x.consentSeq then
    .done s Oxs.badRequest []
  else if shake256 (slice b 0x38 68) 32 ≠ x.grant.tenantKey || !sigOk then .done s Oxs.badSignature []
  else if sigSpent s.oxs then .done s Oxs.sigExhausted []
  else if mayNotSign s then .later s
  else
    let e := if field b 0x14 4 = 0 then 0 else (s.nowS + field b 0x14 4) % 2 ^ 32
    let s := s.onPart p fun x =>
      { x with
        consentSeq := field b 0x10 4, consentEnd := e, consentDigest := shake256 (slice b 0 0x7C) 32
        debugUntil := if bit scope 0 then some e else none
        profileUntil := if bit scope 1 then some e else none }
    let r := signedReport s (slice b 0x18 32)
    .done r.1 Oxs.ok r.2

/-- CONSENT_EXPIRY. -/
def consentExpiry (p : Nat) (s : State) : State :=
  let x := s.part p
  if x.live && x.consentEnd ≠ 0 && x.consentEnd ≤ s.nowS then s.onPart p fun x => { x with debugUntil := none, profileUntil := none } else s

/-! ### Debug and profile reads (R409) -/

/-- The kernel store as DEBUG_READ returns it: the images in number order, code then data (DESIGN CHOICE, assumption log 52). -/
def kernelStore (x : Part) : List Byte := x.kernels.flatMap fun k => (k.2.code.flatMap fun w => leBytes 4 w.toNat) ++ k.2.data

/-- What DEBUG_READ names, or nothing where there is no such object (DESIGN CHOICE, assumption log 52). -/
def debugObject (x : Part) (b : List Byte) : Option (List Byte) :=
  let obj := field b 8 8
  match field b 1 1 with
  | 0 =>
    match x.set obj with
    | none => none
    | some d =>
      let l := Map.get d.loc (field b 0x10 4) Loc.none
      if l.kind = .page && x.badAt l = [] then some (slice (x.bytesAt l) 0 (x.model d.model).footprint) else none
  | 1 =>
    match x.handle obj with
    | some q => some (queryReport x q (handleIndex obj))
    | none => none
  | 2 => some (kernelStore x)
  | _ => none

/-- Bytes that a request returns: to a host buffer over the mailbox, in the response over MCTP, at most 16 KiB
(DESIGN CHOICE, assumption log 59). -/
def returnData (s : State) (b data : List Byte) (mctp : Bool) : Reply :=
  let d := data.take (field b 0x20 4)
  if mctp then .done s Oxs.ok (d.take 16384) else .done (s.land 16 (field b 0x18 8) d) Oxs.ok []

/-- DESIGN CHOICE, assumption log 52. -/
def debugRead (s : State) (b : List Byte) (mctp : Bool) : Reply :=
  let p := field b 0 1
  let x := s.part p
  if !s.parted then .done s Oxs.notReady []
  else if 15 < p || 2 < field b 1 1 || field b 2 6 ≠ 0 || field b 0x14 4 ≠ 0 || !zeroFrom b 0x24 then .done s Oxs.badRequest []
  else if !x.live then .done s Oxs.noPartition []
  else if !inForce s x.debugUntil then .done s Oxs.noConsent []
  else
    match debugObject x b with
    | none => .done s Oxs.badRequest []
    | some d => returnData s b d mctp

/-- A time counter of whole microseconds in hc: what the truncation dropped is free, below 1,600 hc for each wait
(DESIGN CHOICE, assumption log 53). -/
def fineStalls (x : Part) : List Nat → State → List Byte × State
  | [], s => ([], s)
  | c :: r, s =>
    let d := s.draw
    let n := (Map.get x.stalls c 0).toNat
    let t := (Map.get x.stallUs c 0).toNat * 1600 + (Config.freeWord d.1).toNat % Nat.max 1 (1600 * n)
    let l := fineStalls x r d.2
    (leBytes 4 n ++ leBytes 8 t ++ l.1, l.2)

/-- PROFILE_READ: the accounting record with times in hc and energy in nJ, then each cause's waits and time in hc
(DESIGN CHOICE, assumption log 53). -/
def profileRead (s : State) (b : List Byte) (mctp : Bool) : Reply :=
  let p := field b 0 1
  let x := s.part p
  if !s.parted then .done s Oxs.notReady []
  else if 15 < p || field b 1 7 ≠ 0 || !zeroFrom b 0x24 then .done s Oxs.badRequest []
  else if !x.live then .done s Oxs.noPartition []
  else if !inForce s x.profileUntil then .done s Oxs.noConsent []
  else
    let a := x.acct
    let rec0 := acctRecord s p
    let fine := overlay 256 (overlay 256 rec0 0x10 (leBytes 8 a.tileHc ++ leBytes 8 a.snareHc ++ leBytes 8 a.lostHc)) 0x98
      (leBytes 8 ((a.energyMj * 10 ^ 9 + pendingPj a) / 1000))
    let t := fineStalls x (List.range 8) s
    returnData t.2 b (fine ++ t.1) mctp

/-! ### Firmware (R386 to R388) and RMA (R410) -/

/-- R387, without the comparison of security versions. -/
def slotGenuine (f : FwSlot) : Bool := f.magicOk && f.images.length = 4 && f.keyOk && f.sigOk && f.images.all fun i => i.digestOk

/-- Each image's SVN is at least the fused one. -/
def slotFresh (f : FwSlot) (svn : List Nat) : Bool := (List.zip f.images svn).all fun e => e.2 ≤ e.1.svn

def slotValid (f : FwSlot) (svn : List Nat) : Bool := slotGenuine f && slotFresh f svn

/-- FW_STAGE with an image: it goes to the slot that is not booted. -/
def fwStage (s : State) (b : List Byte) (image : Option FwSlot) (mctp : Bool) : Reply :=
  if 2 ^ 25 < field b 8 4 || 1 < field b 0xC 4 then .done s Oxs.badRequest []
  else if bit (field b 0xC 4) 0 then
    match s.oxs.booted with
    | none => .done s Oxs.notReady []
    | some f =>
      -- R385: the fuses of an image count in unary, in 64 bits
      let raise := s.oxs.svn.zipIdx.map fun e => Nat.max e.1 (Nat.min 64 ((f.images.map FwImage.svn).getD e.2 0))
      .done (s.onOxs fun o => { o with svn := raise }) Oxs.ok []
  else
    match image with
    | none => .done s (if mctp then Oxs.ok else Oxs.badRequest) []
    | some f =>
      if !(f.magicOk && f.images.length = 4 && f.keyOk && f.sigOk) then .done s Oxs.badSignature []
      else if !slotFresh f s.oxs.svn then .done s Oxs.rollback []
      else if !slotGenuine f then .done s Oxs.badSignature []
      else
        let n := match s.oxs.booted with
          | some g => { f with seq := (g.seq + 1) % 2 ^ 32 }
          | none => f
        .done (s.onOxs fun o => if o.booted.isSome && !o.bootedB then { o with norB := some n } else { o with norA := some n }) Oxs.ok []

/-- The image that staged bytes hold; whether its signature verifies is given (DESIGN CHOICE, assumption log 54). -/
def parseSlot (b : List Byte) (sigOk : Bool) : FwSlot :=
  let image := fun i : Nat =>
    let e := slice b (0x10 + 64 * i) 64
    let body := slice b (field e 8 4) (field e 0xC 4)
    (⟨field e 0 1, field e 4 4, field e 8 4, field e 0xC 4, field e 0x10 8, slice e 0x20 32, shake256 body 32 = slice e 0x20 32⟩ : FwImage)
  let key := (List.range 32).map Config.vendorKeyDigestByte
  ⟨slice b 0 4 = [0x5A, 0x46, 0x57, 0x31], field b 4 4, if field b 8 4 = 4 then (List.range 4).map image else [],
    shake256 (slice b 0x110 68) 32 = key, sigOk⟩

/-- RMA_UNLOCK (DEDUCED, assumption log 57). -/
def rmaUnlock (s : State) (b : List Byte) (sigOk : Bool) : Reply :=
  let sec := s.flash.secure
  if s.livePartitions ≠ [] || sec.scrubSets ≠ [] || sec.scrubFlash ≠ [] then .done s Oxs.partExists []
  else if slice b 0 4 ≠ [0x5A, 0x52, 0x4D, 0x31] || field b 4 16 ≠ Config.chipId.toNat || !sigOk then .done s Oxs.badSignature []
  else .done (s.onOxs fun o => { o with lifecycle := .rma }) Oxs.ok []

/-! ### Running requests (R382 to R384) -/

/-- One request. In recovery only CERT_READ and FW_STAGE are served, over MCTP (R387) (DEDUCED, assumption log 56). -/
def runRequest (s : State) (q : OxsReq) : Reply :=
  if s.oxs.recovery && !(q.mctp && (q.op = 4 || q.op = 8)) then .done s Oxs.notReady []
  else
    match q.op with
    | 1 => create s q.bytes
    | 2 => destroy s q.bytes
    | 3 => attest s q.bytes
    | 4 => certRead s q.bytes
    | 5 => consent s q.bytes q.sigOk
    | 6 => debugRead s q.bytes q.mctp
    | 7 => profileRead s q.bytes q.mctp
    | 8 => fwStage s q.bytes q.image q.mctp
    | 9 => rmaUnlock s q.bytes q.sigOk
    | _ => .done s Oxs.badRequest []

/-- The response is written before GO clears (R384) (DESIGN CHOICE, assumption log 59). -/
def respond (s : State) (q : OxsReq) (result : Nat) (response : List Byte) : State :=
  let s := s.onOxs fun o => { o with queue := o.queue.drop 1 }
  if q.mctp then s.onOxs fun o => { o with mctpReply := leBytes 1 result ++ response }
  else (s.land 16 s.oxs.rspAddr response).onOxs fun o => { o with result := result }

/-- The first request runs, and those behind it in order of arrival. n bounds the requests. -/
def serve : Nat → State → State
  | 0, s => s
  | n + 1, s =>
    match s.oxs.queue with
    | [] => s
    | q :: _ =>
      match runRequest s q with
      | .later s => s
      | .done s r b => serve n (respond s q r b)

/-- A request joins the queue, and runs where it is the first, unless Oxsis holds an entry of the chip (R420, R421). -/
def oxsArrive (s : State) (q : OxsReq) : State :=
  let idle := s.oxs.queue = []
  let s := s.onOxs fun o => { o with queue := o.queue ++ [q] }
  if idle && !s.holds 10 then serve 1 s else s

/-- Requests that waited while Oxsis held an entry run in their order. -/
def serveHeld (s : State) : State := serve s.oxs.queue.length s

/-- The management bus reaches Oxsis: the chip runs and its address is known, or it is in recovery (R387, R458). -/
def State.mctpUp (s : State) : Bool := s.power.chip = .on && (s.pins.smbusAddr.isSome || s.oxs.recovery)

/-- A request comes in. Over the mailbox it needs GO at 0, and its page is read once; a page that cannot be read ends it (R383)
(DESIGN CHOICE, assumption log 35). -/
def oxsRequest (s : State) (op : Nat) (via : OxsVia) (sigOk : Bool) (image : Option FwSlot) : State :=
  match via with
  | .mctp b => if s.mctpUp then oxsArrive s ⟨op, b, true, sigOk, image⟩ else s
  | .mailbox =>
    if !s.reaches 16 || s.oxs.go then s
    else
      let s := s.onOxs fun o => { o with op := op }
      if !s.pf0Bme then s.onOxs fun o => { o with result := Oxs.badRequest }
      else oxsArrive s ⟨op, s.hostBytes s.oxs.reqAddr 4096, false, sigOk, image⟩

/-- DISABLE_DRAIN_END, and with it the end of a destruction that waited for the drain (R399). -/
def disableDrainEnd (p drainUs : Nat) (s : State) : State :=
  match (s.func p).disable with
  | none => s
  | some _ =>
    let t := drainEnd p drainUs s
    match t.oxs.queue with
    | q :: _ =>
      if q.op = 2 && field q.bytes 0 1 = p && (t.func p).disable.isNone then
        match finishDestroy t p (flightsOf (s.part p)).length with
        | .done t r b => serve t.oxs.queue.length (respond t q r b)
        | .later t => t
      else t
    | [] => t

/-- SIGNATURE_RATE_RELEASE: the first request waits for the rate of R391. -/
def signatureRelease (s : State) : State :=
  match s.oxs.queue with
  | q :: _ => if (q.op = 3 || q.op = 5) && !mayNotSign s then serve s.oxs.queue.length s else s
  | [] => s

/-- SCRUB_RESOURCE_DONE (R399 step 5, R401). The DRAM scrub pauses while the governor holds the quadrants below their requested clock. -/
def scrubDone (isFlash : Bool) (i : Nat) (s : State) : State :=
  if isFlash then
    if !s.flash.secure.scrubFlash.contains i then s
    else
      let s := s.onFlash fun f =>
        { f with
          blocks := f.blocks.map fun e =>
            if blockChannel e.1 = i && e.2.state ≠ .free && e.2.state ≠ .retired then (e.1, { Block.reset with eraseCnt := e.2.eraseCnt + 1 }) else e
          frames := f.frames.filter fun e => (placeOf e.1).channel ≠ i || (Map.get f.blocks (e.1 / 4096) Block.reset).state = .retired
          channels := Map.edit f.channels i fun c => { c with openData := [], openCopy := [], admitted := 0 } }
      sealSecure s fun c => { c with scrubFlash := c.scrubFlash.filter fun n => n ≠ i }
  else if !s.flash.secure.scrubSets.contains i || s.power.cap < Nat.min s.power.freqReq 24 then s
  else sealSecure s fun c => { c with scrubSets := c.scrubSets.filter fun n => n ≠ i }

/-- MCTP_MESSAGE: the OP byte and the request bytes. Whether a signature that they carry verifies is free, since the message does not say. A
staged image comes in pieces: their offset at 0x00, the image's BYTES at 0x08, FLAGS at 0x0C, the piece from 0x10 on
(DESIGN CHOICE, assumption log 54; DESIGN CHOICE, assumption log 55). -/
def mctpMessage (body : List Byte) (s : State) : State :=
  match body with
  | [] => s
  | op :: b =>
    if !s.mctpUp then s
    else
      let d := s.draw
      let good := (Config.freeWord d.1).getLsbD 0
      match op.toNat with
      | 8 =>
        if bit (field b 0xC 4) 0 then oxsRequest s 8 (.mctp b) false none
        else
          let n := field b 8 4
          let piece := b.drop 0x10
          let off := field b 0 8
          let s := d.2.onOxs fun o => { o with staged := slice o.staged 0 off ++ piece }
          if n ≤ off + piece.length then oxsRequest s 8 (.mctp b) good (some (parseSlot (slice s.oxs.staged 0 n) good)) else oxsRequest s 8 (.mctp b) good none
      | n => if n = 5 || n = 9 then oxsRequest d.2 n (.mctp b) good none else oxsRequest s n (.mctp b) good none

/-! ### The rows -/

def execOxsisCreate (via : OxsVia) (s : State) : Host.Outcome State Fault Refusal :=
  .next (s.mailbox via (.oxsisCreate via) fun s => oxsRequest s 1 via false none)
def execOxsisDestroy (via : OxsVia) (s : State) : Host.Outcome State Fault Refusal :=
  .next (s.mailbox via (.oxsisDestroy via) fun s => oxsRequest s 2 via false none)
def execAttest (via : OxsVia) (s : State) : Host.Outcome State Fault Refusal :=
  .next (s.mailbox via (.attest via) fun s => oxsRequest s 3 via false none)
def execCertRead (via : OxsVia) (s : State) : Host.Outcome State Fault Refusal :=
  .next (s.mailbox via (.certRead via) fun s => oxsRequest s 4 via false none)
def execConsent (via : OxsVia) (sigOk : Bool) (s : State) : Host.Outcome State Fault Refusal :=
  .next (s.mailbox via (.consent via sigOk) fun s => oxsRequest s 5 via sigOk none)
def execDebugRead (via : OxsVia) (s : State) : Host.Outcome State Fault Refusal :=
  .next (s.mailbox via (.debugRead via) fun s => oxsRequest s 6 via false none)
def execProfileRead (via : OxsVia) (s : State) : Host.Outcome State Fault Refusal :=
  .next (s.mailbox via (.profileRead via) fun s => oxsRequest s 7 via false none)
def execFwStage (via : OxsVia) (image : FwSlot) (s : State) : Host.Outcome State Fault Refusal :=
  .next (s.mailbox via (.fwStage via image) fun s => oxsRequest s 8 via false (some image))
/-- DEDUCED, assumption log 21. -/
def execFwSvnCommit (via : OxsVia) (s : State) : Host.Outcome State Fault Refusal :=
  .next (s.mailbox via (.fwSvnCommit via) fun s => oxsRequest s 8 via false none)
def execRmaUnlock (via : OxsVia) (sigOk : Bool) (s : State) : Host.Outcome State Fault Refusal :=
  .next (s.mailbox via (.rmaUnlock via sigOk) fun s => oxsRequest s 9 via sigOk none)
def execSignatureRateRelease (s : State) : Host.Outcome State Fault Refusal := .next (signatureRelease s)
def execConsentExpiry (part : Nat) (s : State) : Host.Outcome State Fault Refusal := .next (consentExpiry part s)
def execScrubResourceDone (isFlash : Bool) (index : Nat) (s : State) : Host.Outcome State Fault Refusal := .next (scrubDone isFlash index s)
def execMctpMessage (body : List Byte) (s : State) : Host.Outcome State Fault Refusal := .next (mctpMessage body s)
def execDisableDrainEnd (vf drainUs : Nat) (s : State) : Host.Outcome State Fault Refusal := .next (disableDrainEnd vf drainUs s)

end Sys2Proof.Machine
end

