-- ==== Sys2Proof/Machine/Power.lean ====
section
/-! DEFINITION. Power: the flash checkpoint that Off needs (R301), quadrant states (R415 to R417), the entry handshake (R420, R421), Deep sleep and
Off (R418, R419, R428, R429), wake events (R422 to R427), operating points (R432, R433), the governor (R434 to R436), energy windows (R266, R269,
R439). -/

namespace Sys2Proof.Machine

open Sys2Proof

/-! ### The checkpoint (R301, R302) -/

/-- Channels 0 and 16 are both online. -/
def metaOnline (s : State) : Bool := metaChannels s = [0, 16]

def onlineBlocks (s : State) : Map Block := s.flash.blocks.filter fun e => match s.channel (blockChannel e.1) with
  | some ch => ch.online
  | none => false

/-- The least PROG_TIME of the valid frames of a block. -/
def oldestTime (s : State) (b : Nat) : Nat :=
  ((leastBy id ((namedFrames s fun a => blockOf a = b).map fun e => e.2.2.time))).getD 0

/-- The content of a checkpoint: header, block tables of the online channels, LFN state and maps. -/
def checkpointOf (s : State) (seq wseq : Nat) : Checkpoint :=
  let l := onlineBlocks s
  { maps := (s.parts.filter fun e => e.2.live).map fun e => (e.1, e.2.flash)
    blocks := l
    valid := l.map fun e => (e.1, validCount s e.1)
    oldest := l.map fun e => (e.1, oldestTime s e.1)
    owners := (List.range 32).map fun c => (c, (ownerOf s c, if ownerOf s c < 16 then (s.part (ownerOf s c)).epoch else 0))
    wseq := wseq, seq := seq, gaps := s.flash.gaps, nowS := s.nowS }

/-- The frames of a checkpoint before its last ones: one for the header, one for each channel's block table and each partition's LFN state, one for
each map segment, in DRAM or in the host area (DESIGN CHOICE, assumption log 44). -/
def checkpointFrames (s : State) : Nat :=
  1 + (s.flash.channels.filter fun c => c.2.online).length +
    sum ((s.parts.filter fun e => e.2.live).map fun e => 1 + (dedup (e.2.flash.map.map fun m => segmentOf m.1)).length)

/-- So many frames of a checkpoint slot, the even ones on channel 0 and the odd ones on channel 16, from number i on. -/
def stripe (a : Area) : Nat → Nat → State → Option State
  | _, 0, s => some s
  | i, n + 1, s => (areaFrame s a (if i % 2 = 0 then 0 else 16) false []).bind (stripe a (i + 1) n)

/-- R301: the checkpoint goes to the slot that is not current; its frames, then a frame with SEAL on each channel, then the anchors that name it.
The log begins again (DESIGN CHOICE, assumption log 44). -/
def writeCheckpoint (s : State) : State :=
  if !metaOnline s then s
  else
    let slot := match currentSlot s.flash with
      | some e => 1 - e.1
      | none => 0
    let a := Area.checkpoint slot
    let seq := s.flash.cpSeq + 1
    let t := [0, 16].foldl (fun s c => dropArea s a c) s
    let sealed := (stripe a 0 (checkpointFrames s) t).bind fun s => (areaFrame s a 0 true []).bind fun s => areaFrame s a 16 true []
    match sealed with
    | none => s
    | some t =>
      let t := t.onSecure fun c => { c with slots := Map.put c.slots slot (checkpointOf s seq (t.flash.wseq + 2)) }
      let t := [0, 16].foldl (fun s c => dropArea s .log c) t
      let t := [0, 16].foldl (putAnchor (anchorData t seq slot)) t
      t.onFlash fun f => { f with cpSeq := seq, dirty := false, secure := { f.secure with openRecord := none, logGaps := [], life := s.health.daily } }

/-- CHECKPOINT_WRITE: PF0 writes CKPT. -/
def checkpointWrite (s : State) : State := if s.reaches 16 && s.flash.phase = 5 then writeCheckpoint s else s

/-! ### Operating points (R432, R433) -/

/-- The voltage of a point in mV. -/
def pointMv (k : Nat) : Nat := if 12 ≤ k then 900 else 700 + (1665 * k + 499) / 500 * 5

def quadPoint (s : State) (q : Nat) : Nat := Map.get s.power.points q 24
def setPoint (s : State) (q k : Nat) : State := s.onPower fun w => { w with points := Map.put w.points q k }

/-- FREQ_REQ in force, and what a quadrant in Run moves towards. -/
def freqWanted (w : Power) : Nat := Nat.min w.freqReq 24
def pointGoal (w : Power) : Nat := Nat.min (freqWanted w) w.cap

/-- The highest point not above k that a voltage supports. -/
def supported (mv : Nat) : Nat → Nat
  | 0 => 0
  | k + 1 => if pointMv (k + 1) ≤ mv then k + 1 else supported mv k

/-- DVFS_POINT_CHANGE. Down at once, the voltage after it, and any raise given up; up by raising the voltage first. -/
def dvfsChange (q : Nat) (s : State) : State :=
  if s.power.chip != .on || 4 ≤ q || quadState s q != .run || s.power.regBad.contains q then s
  else
    let goal := pointGoal s.power
    if goal < quadPoint s q then
      (setPoint s q goal).onPower fun w => { w with target := Map.del w.target q, millivolts := Map.put w.millivolts q (pointMv goal) }
    else if quadPoint s q < goal then s.onPower fun w => { w with target := Map.put w.target q goal }
    else s.onPower fun w => { w with target := Map.del w.target q }

/-- VOLTAGE_RAISE_DONE: the frequency rises once the monitor reads the voltage of the new point. -/
def voltageDone (q mv : Nat) (s : State) : State :=
  match Map.look s.power.target q with
  | none => s
  | some k =>
    if s.power.chip != .on || mv < pointMv k then s
    else (setPoint s q k).onPower fun w => { w with target := Map.del w.target q, millivolts := Map.put w.millivolts q mv }

/-- VOLTAGE_MONITOR_DROP. -/
def voltageDrop (q mv : Nat) (s : State) : State :=
  if s.power.chip != .on || 4 ≤ q || quadState s q = .sleep || pointMv (quadPoint s q) ≤ mv then s
  else (setPoint s q (supported mv (quadPoint s q))).onPower fun w => { w with millivolts := Map.put w.millivolts q mv }

/-- REGULATOR_FAULT: the quadrant stays at its point, and the fault is reported. -/
def regulatorFault (q : Nat) (s : State) : State :=
  if s.power.chip != .on || 4 ≤ q then s
  else
    let s := s.onPower fun w => { w with regBad := if w.regBad.contains q then w.regBad else w.regBad ++ [q], target := Map.del w.target q }
    logError s { ErrRecord.blank with source := Src.regulator, severity := 1, loc0 := q }

/-! ### The governor (R434 to R436, R439) -/

/-- WATTS in force, in units of 0.1 W. -/
def limitDw (w : Power) : Nat := 10 * Nat.min 700 (Nat.max 560 w.limit)

/-- T_EMERG in force. -/
def emergAt (w : Power) : Nat := Nat.min 110 (Nat.max 85 w.tEmerg)

/-- A ceiling below FREQ_REQ is noted for the window, under its cause. -/
def noteCap (w : Power) : Power :=
  if w.cap < freqWanted w then (if w.emerg then { w with belowTherm := true } else { w with belowPwr := true }) else w

/-- R432: tile power at a point, to a common scale. -/
def tileWeight (k : Nat) : Nat := (8 + k) * pointMv k * pointMv k

/-- The highest ceiling not above k at which the package keeps its limit. -/
def capFor (limit other tiles now : Nat) : Nat → Nat
  | 0 => 0
  | k + 1 => if other + tiles * tileWeight (k + 1) / tileWeight now ≤ limit then k + 1 else capFor limit other tiles now k

/-- The estimate with its correction. -/
def corrected (w : Power) (dw : Nat) : Nat := (Int.ofNat dw + w.biasDw).toNat

/-- GOVERNOR_TICK: the estimate of the last microsecond; CAP is lowered as far as the limit needs. In an emergency it is lowered too, by a free
number of points (R435 step 1) (DESIGN CHOICE, assumption log 62). -/
def governorTick (packageDw tilesDw : Nat) (s : State) : State :=
  if s.power.chip != .on then s
  else
    let p := corrected s.power packageDw
    let s := s.onPower fun w => { w with package := p, tiles := tilesDw }
    let s := if p ≤ limitDw s.power then s
      else s.onPower fun w => { w with cap := capFor (limitDw w) (p - tilesDw) tilesDw w.cap w.cap }
    let s := if !s.power.emerg || s.power.cap = 0 then s
      else
        let d := s.draw
        d.2.onPower fun w => { w with cap := (Config.freeWord d.1).toNat % w.cap }
    s.onPower noteCap

/-- GOVERNOR_CORRECTION: the estimate is corrected against the regulators' readings. -/
def governorCorrection (packageDw tilesDw : Nat) (s : State) : State :=
  if s.power.chip != .on then s
  else s.onPower fun w => { w with biasDw := w.biasDw + (Int.ofNat packageDw - Int.ofNat w.package), package := packageDw, tiles := tilesDw }

/-- CAP_RAISE: 20 W of headroom and no emergency. Duty cycling is undone before CAP rises (R436). -/
def capRaise (s : State) : State :=
  if s.power.chip != .on || s.power.emerg || limitDw s.power < s.power.package + 200 then s
  else if s.power.duty ≠ 0 then s.onPower fun w => { w with duty := w.duty - 25 }
  else s.onPower fun w => noteCap { w with cap := Nat.min 24 (w.cap + 1) }

/-- THERMAL_EMERGENCY_START (DESIGN CHOICE, assumption log 62). -/
def emergencyStart (tempC : Nat) (s : State) : State :=
  if s.power.chip != .on || tempC < emergAt s.power || s.power.emerg then s
  else
    let s := s.onPower fun w => { w with emerg := true, temp := tempC }
    let s := if s.power.cap = 0 then s
      else
        let d := s.draw
        d.2.onPower fun w => { w with cap := (Config.freeWord d.1).toNat % w.cap }
    s.onPower noteCap

/-- THERMAL_EMERGENCY_END. -/
def emergencyEnd (tempC : Nat) (s : State) : State :=
  if s.power.chip != .on || !s.power.emerg || emergAt s.power < tempC + 5 then s
  else s.onPower fun w => { w with emerg := false, temp := tempC }

/-- DUTY_CYCLE_STEP. -/
def dutyStep (s : State) : State :=
  if s.power.chip = .on && s.power.emerg && s.power.cap = 0 then s.onPower fun w => { w with duty := Nat.min 75 (w.duty + 25) } else s

/-- R266, R269: the end of a window for one partition. -/
def closeWindow (x : Part) : Part :=
  x.onAcct fun a =>
    let above := x.grant.sliceW * 10 ^ 10 < a.tilePjWindow
    { a with
      energyMj := a.energyMj + pendingPj a / 10 ^ 9, energyPj := pendingPj a % 10 ^ 9, chargedPj := Nat.max a.chargedPj (bytesPj a), tilePjWindow := 0
      windows := a.windows + 1, overSlice := if above then a.overSlice + 1 else a.overSlice, lastOver := above }

/-- ACCOUNTING_WINDOW_END: energy, OVER_SLICE, and the counters of R439. -/
def windowEnd (s : State) : State :=
  if s.power.chip != .on then s
  else
    let s := s.livePartitions.foldl (fun s p => s.onPart p closeWindow) s
    s.onPower fun w =>
      noteCap { w with
        capPwr := if w.belowPwr then w.capPwr + 1 else w.capPwr, capTherm := if w.belowTherm then w.capTherm + 1 else w.capTherm
        belowPwr := false, belowTherm := false }

/-! ### Quadrants (R415 to R417) -/

/-- A unit is ready, running, next or queued in the quadrant. -/
def quadBusy (s : State) (q : Nat) : Bool := s.sched.units.any fun e => e.2.quad = q && (match e.2.place with
  | .ready => true
  | .steal g => g / 16 = q
  | .next t => t / 256 = q
  | .running t => t / 256 = q
  | .yielded => false)

/-- A unit runs on, or is next for, a tile of the quadrant, wherever its home is. -/
def tilesBusy (s : State) (q : Nat) : Bool :=
  s.sched.tiles.any (fun t => t.1 / 256 = q && (t.2.running.isSome || t.2.next.isSome)) || s.sched.steal.any fun e => e.1 / 16 = q && e.2 ≠ []

def setQuad (s : State) (q : Nat) (v : QState) : State := s.onPower fun w => { w with quads := Map.put w.quads q v }

/-- QUADRANT_IDLE_ENTRY. -/
def quadIdle (q : Nat) (s : State) : State :=
  if s.power.chip = .on && q < 4 && quadState s q = .run && !quadBusy s q && !tilesBusy s q then setQuad s q .idle else s

def allAsleep (s : State) : Bool := [0, 1, 2, 3].all fun q => quadState s q = .sleep

/-- QUADRANT_WAKE_COMPLETE: the quadrant runs at point 0, and its tiles may start the units placed. -/
def quadWakeDone (q : Nat) (s : State) : State :=
  if s.power.chip = .on && q < 4 && quadState s q = .sleep && Map.get s.power.quadWake q false then
    (setPoint (setQuad s q .run) q 0).onPower fun w => { w with quadWake := Map.del w.quadWake q, dramAwake := Map.del w.dramAwake q }
  else s

/-- SELF_REFRESH_RETURN. -/
def selfRefresh (q : Nat) (s : State) : State :=
  if q < 4 && quadState s q = .sleep then s.onPower fun w => { w with dramAwake := Map.del w.dramAwake q } else s

/-- A sequence at home in the quadrant stands in ACTIVE, PARKING or RESTORING (R416). -/
def homeLive (s : State) (q : Nat) : Bool :=
  s.parts.any fun p => p.2.seqs.any fun e => e.2.homeQ = q && (e.2.state = .active || e.2.state = .parking || e.2.state = .restoring)

/-! ### The handshake (R420, R421) -/

def participants (k : EntryKind) : List Nat :=
  match k with
  | .sleep _ => [1, 2, 3, 4]
  | _ => [3, 4, 5, 6, 7, 8, 9, 10, 11]

/-- Blocks that may defer. -/
def mayDefer (k : EntryKind) (block : Nat) : Bool :=
  match k with
  | .sleep _ => block = 2 || block = 3 || block = 4
  | .deep => [3, 4, 6, 9, 10, 11].contains block
  | .off => [3, 4, 6, 9, 10].contains block

/-- The quadrants whose state an entry ends. -/
def entryQuads (k : EntryKind) : List Nat :=
  match k with
  | .sleep q => [q]
  | _ => [0, 1, 2, 3]

def dirtyIn (s : State) (q : Nat) : Bool := s.cache.any fun l => frameQuad (l.1 / 16) = q && l.2.dirty

def locIn (qs : List Nat) (l : Loc) : Bool := l.kind != .empty && l.tier = 0 && qs.contains (frameQuad l.frame)

/-- Moves, flushes and copies that read or write DRAM of the quadrants. -/
def dmaBusy (s : State) (qs : List Nat) : Bool :=
  s.parts.any fun p =>
    p.2.moves.any (fun m => locIn qs m.2.src || locIn qs m.2.dst) ||
      p.2.sets.any (fun d => d.2.tents.any fun t => !t.2.complete && qs.contains (frameQuad t.2.frame)) ||
      p.2.seqs.any fun q => q.2.tailTents.any fun t => !t.2.complete && qs.contains (frameQuad t.2.frame)

/-- A slot holds a command that has not committed, or a doorbell not yet acted on. -/
def queueBusy (s : State) : Bool :=
  s.parts.any fun p => p.2.slots.any fun y => y.2.window ≠ [] || (s.fetches p.1 y.1 && y.2.head ≠ y.2.tail)

def anySeq (s : State) (t : Seq → Bool) : Bool := s.parts.any fun p => p.2.seqs.any fun e => t e.2

def qpsUp (s : State) : Bool :=
  s.parts.any fun p => p.2.qps.any fun q => q.2.state = .connecting || q.2.state = .ready || q.2.state = .draining

def scrubRuns (s : State) : Bool := s.flash.secure.scrubSets ≠ [] || s.flash.secure.scrubFlash ≠ []

/-- A program or an erase is in flight. -/
def flashBusy (s : State) : Bool := s.flash.groups.any (fun g => g.2.waiting ≠ []) || s.flash.blocks.any fun b => b.2.state = .erasing

/-- R421: the block must refuse. -/
def mustRefuse (s : State) (k : EntryKind) (block : Nat) : Bool :=
  match block with
  | 1 => (entryQuads k).any fun q => quadBusy s q || tilesBusy s q
  | 3 => anySeq s fun e => e.state = .restoring && (entryQuads k).contains e.homeQ
  | 5 => queueBusy s
  | 7 => anySeq s fun e => e.state = .parking || e.state = .restoring
  | 8 => qpsUp s
  | 10 => scrubRuns s
  | _ => false

/-- R421: the block is not ready to accept. -/
def notYet (s : State) (k : EntryKind) (block : Nat) : Bool :=
  match block with
  | 3 => dmaBusy s (entryQuads k)
  | 6 => s.outq ≠ []
  | 9 => flashBusy s || s.flash.phase ≠ 5
  | 10 => s.oxs.queue ≠ []
  | 11 => k = .deep && s.reads ≠ []
  | _ => false

/-- The answer is one that R421 lets the block give. Whether the host has enabled ASPM L1 and L1.2 is not the model's to see, so block 11 may
refuse Deep sleep (DESIGN CHOICE, assumption log 61). -/
def answerFits (s : State) (k : EntryKind) (block : Nat) (a : Answer) : Bool :=
  match a with
  | .accept => !mustRefuse s k block && !notYet s k block
  | .refuse => mustRefuse s k block || (block = 11 && k = .deep)
  | .defer => mayDefer k block && !mustRefuse s k block && (notYet s k block || block = 2 || block = 4 || block = 9)

/-- A wake source as a bit of PWR_WAKE. -/
def Wk.wakeN : Nat := 0
def Wk.smbus : Nat := 1
def Wk.pcie : Nat := 2
def Wk.alarm : Nat := 3
def Wk.latched : Nat := 4

/-- DEDUCED, assumption log 117. -/
def orBit (v n : Nat) : Nat := v - bits v n 1 * 2 ^ n + 2 ^ n

/-- An entry given up (R420): everyone is released, and what was latched acts on a part that runs. -/
def abandonEntry (s : State) (result block : Nat) : State :=
  match s.power.entry with
  | none => s
  | some e =>
    let s := s.onPower fun w =>
      { w with entry := none, latched := 0, lastResult := if e.ofChip then result else w.lastResult, lastBlock := if e.ofChip then block else w.lastBlock }
    if e.accepted.contains 10 then serveHeld s else s

/-- The next entry of a request begins (DEDUCED, assumption log 60). -/
def nextEntry (ofChip : Bool) (l : List EntryKind) (s : State) : State :=
  match l with
  | [] => s.onPower fun w => { w with entry := none, latched := if ofChip then w.latched else 0 }
  | k :: r => s.onPower fun w => { w with entry := some ⟨k, [], r, ofChip⟩ }

/-- The page cache of a quadrant: dirty lines are written back, and every line is dropped (R416). -/
def dropCache (s : State) (q : Nat) : State :=
  let mine := s.cache.filter fun l => frameQuad (l.1 / 16) = q
  let s := mine.foldl (fun s l => if l.2.dirty then t1Write s l.2.part 4096 else s) s
  { s with cache := s.cache.filter fun l => frameQuad (l.1 / 16) ≠ q }

/-- R423: the alarm. -/
def wakeAlarmAt (s : State) : Nat :=
  let preds := s.parts.flatMap fun p => (p.2.seqs.filter fun e => e.2.state = .rest && e.2.predicted).map fun e => e.2.predTime - p.2.regs.restoreLead
  let all := (if s.power.alarmAt = 0 then [] else [s.power.alarmAt]) ++ preds
  (leastBy id all).getD 0

/-- Latched events replayed once the part is down (R427). -/
def replay (w : Power) : Power :=
  if w.latched = 0 then w else { w with wake := orBit (w.wake ||| w.latched) Wk.latched, waking := true, latched := 0 }

/-- R428, R438: Deep sleep. The outputs that float read as the board's resistors hold them. DRAM keeps everything; the image is sealed, the ports stop and the bypass closes. -/
def enterDeep (s : State) : State :=
  let s := s.onPower fun w => { w with alarm := wakeAlarmAt s }
  let s := isolate (sealSecure s fun c => { c with image := true })
  let s := s.onPins fun p => { p with clkreqN := true, flashWpN := [], flashCeHigh := true, xspiCsN := true }
  { s with cache := [], power := replay { s.power with chip := .deepSleep, entry := none, imageValid := true, sleptAtS := s.nowS, dramAwake := [] } }

/-- The last participant has accepted: the commit point of the entry. Off leaves the rails to the board, and its state to the next start. -/
def commitEntry (off : State → State) (e : Entry) (s : State) : State :=
  match e.kind with
  | .sleep q => nextEntry e.ofChip e.next (setQuad (dropCache s q) q .sleep)
  | .deep => enterDeep s
  | .off => off s

/-- HANDSHAKE_ANSWER. The flash manager's acceptance of Off comes with its checkpoint (R419). -/
def handshake (off : State → State) (block : Nat) (a : Answer) (s : State) : State :=
  match s.power.entry with
  | none => s
  | some e =>
    if !(participants e.kind).contains block || e.accepted.contains block || !answerFits s e.kind block a then s
    else
      match a with
      | .refuse => abandonEntry s 2 block
      | .defer => s
      | .accept =>
        let s := if block = 2 then (entryQuads e.kind).foldl dropCache s else s
        let s := if block = 9 && e.kind = .off then writeCheckpoint s else s
        let e := { e with accepted := e.accepted ++ [block] }
        if (participants e.kind).all fun b => e.accepted.contains b then commitEntry off e s
        else s.onPower fun w => { w with entry := some e }

/-- DEFER_LIMIT_EXPIRY. -/
def deferExpiry (block : Nat) (s : State) : State :=
  match s.power.entry with
  | none => s
  | some e => if (participants e.kind).contains block && mayDefer e.kind block && !e.accepted.contains block then abandonEntry s 3 block else s

/-- QUADRANT_SLEEP_ENTRY: one entry at a time (DEDUCED, assumption log 60). -/
def quadSleep (q : Nat) (s : State) : State :=
  if s.power.chip != .on || 4 ≤ q || quadState s q != .idle || s.power.sleepHold = 0 || homeLive s q || s.power.entry.isSome then s
  else nextEntry false [.sleep q] (s.onPower fun w => { w with latched := 0 })

/-- A chip entry asked for: quadrants outside Sleep come first (R418) (DEDUCED, assumption log 60). -/
def askChip (k : EntryKind) (s : State) : State :=
  let qs := [0, 1, 2, 3].filter fun q => quadState s q != .sleep
  match s.power.entry with
  | none => nextEntry true (qs.map EntryKind.sleep ++ [k]) (s.onPower fun w => { w with latched := 0 })
  | some e =>
    if e.ofChip then s
    else
      let rest := qs.filter fun q => e.kind != .sleep q
      s.onPower fun w => { w with entry := some { e with next := rest.map EntryKind.sleep ++ [k], ofChip := true } }

/-- DEEP_SLEEP_REQUEST and OFF_REQUEST. -/
def askByPf0 (k : EntryKind) (s : State) : State := if s.reaches 16 then askChip k s else s

/-- AUTO_DEEP_SLEEP. -/
def autoDeep (s : State) : State := if s.power.chip = .on && s.power.autoDeep && allAsleep s then askChip .deep s else s

/-! ### Wake events (R422, R424, R425, R427) -/

/-- A wake event: latched while an entry is in progress, and the start of an exit in Deep sleep. -/
def wakeEvent (bitNo : Nat) (s : State) : State :=
  match s.power.chip with
  | .on => if s.power.entry.isSome then s.onPower fun w => { w with latched := orBit w.latched bitNo } else s
  | .deepSleep => s.onPower fun w => { w with wake := orBit w.wake bitNo, waking := true }
  | _ => s

/-- SMBUS_ADDRESS_MATCH. -/
def smbusMatch (address : Nat) (s : State) : State := if s.pins.smbusAddr = some address then wakeEvent Wk.smbus s else s

/-- CLKREQ_ASSERT. -/
def clkreqAssert (s : State) : State := wakeEvent Wk.pcie s

/-- WAKE_ALARM. -/
def wakeAlarm (s : State) : State :=
  if s.power.chip = .deepSleep && s.power.alarm ≠ 0 && s.power.alarm ≤ s.nowS then wakeEvent Wk.alarm s else s

/-! ### The rows -/

def execCheckpointWrite (s : State) : Host.Outcome State Fault Refusal :=
  .next (s.access .checkpointWrite checkpointWrite)
def execDvfsPointChange (quad : Nat) (s : State) : Host.Outcome State Fault Refusal := .next (dvfsChange quad s)
def execVoltageRaiseDone (quad millivolts : Nat) (s : State) : Host.Outcome State Fault Refusal := .next (voltageDone quad millivolts s)
def execVoltageMonitorDrop (quad millivolts : Nat) (s : State) : Host.Outcome State Fault Refusal := .next (voltageDrop quad millivolts s)
def execRegulatorFault (quad : Nat) (s : State) : Host.Outcome State Fault Refusal := .next (regulatorFault quad s)
def execGovernorTick (packageDw tilesDw : Nat) (s : State) : Host.Outcome State Fault Refusal := .next (governorTick packageDw tilesDw s)
def execGovernorCorrection (packageDw tilesDw : Nat) (s : State) : Host.Outcome State Fault Refusal :=
  .next (governorCorrection packageDw tilesDw s)
def execCapRaise (s : State) : Host.Outcome State Fault Refusal := .next (capRaise s)
def execThermalEmergencyStart (tempC : Nat) (s : State) : Host.Outcome State Fault Refusal := .next (emergencyStart tempC s)
def execThermalEmergencyEnd (tempC : Nat) (s : State) : Host.Outcome State Fault Refusal := .next (emergencyEnd tempC s)
def execDutyCycleStep (s : State) : Host.Outcome State Fault Refusal := .next (dutyStep s)
def execAccountingWindowEnd (s : State) : Host.Outcome State Fault Refusal := .next (windowEnd s)
def execQuadrantIdleEntry (quad : Nat) (s : State) : Host.Outcome State Fault Refusal := .next (quadIdle quad s)
def execQuadrantSleepEntry (quad : Nat) (s : State) : Host.Outcome State Fault Refusal := .next (quadSleep quad s)
def execQuadrantWakeComplete (quad : Nat) (s : State) : Host.Outcome State Fault Refusal := .next (quadWakeDone quad s)
def execSelfRefreshReturn (quad : Nat) (s : State) : Host.Outcome State Fault Refusal := .next (selfRefresh quad s)
def execDeepSleepRequest (s : State) : Host.Outcome State Fault Refusal :=
  .next (s.access .deepSleepRequest (askByPf0 .deep))
def execOffRequest (s : State) : Host.Outcome State Fault Refusal :=
  .next (s.access .offRequest (askByPf0 .off))
def execAutoDeepSleep (s : State) : Host.Outcome State Fault Refusal := .next (autoDeep s)
def execDeferLimitExpiry (block : Nat) (s : State) : Host.Outcome State Fault Refusal := .next (deferExpiry block s)
def execSmbusAddressMatch (address : Nat) (s : State) : Host.Outcome State Fault Refusal := .next (smbusMatch address s)
def execClkreqAssert (s : State) : Host.Outcome State Fault Refusal := .next (clkreqAssert s)
def execWakeAlarm (s : State) : Host.Outcome State Fault Refusal := .next (wakeAlarm s)

end Sys2Proof.Machine
end

