-- ==== Sys2Proof/Machine/Health.lean ====
section
/-! DEFINITION. Health: what a chip reset leaves (R303, R398, R445, R464), the DRAM patrol and its containment (R440 to R442), row repair and frame
retirement (R449), shadows and directory entries (R443, R444), chip restart (R445), ageing (R450) and life (R451, R452). -/

namespace Sys2Proof.Machine

open Sys2Proof

/-! ### What a chip reset leaves -/

/-- A frame whose program had not reported, or whose block was being erased, cannot be read any more (DEDUCED, assumption log 115). -/
def tornFrame (f : Flash) (n : Nat) (g : Frame) : Frame :=
  if g.passed && (Map.get f.blocks (n / 4096) Block.reset).state ≠ .erasing then g else { g with torn := true }

/-- The state that a chip reset or a loss of the main rails leaves until the next cold start: everything volatile at its reset value, and
what flash, fuses and the boot NOR hold. Host memory, the waiting commands and the model's own counters are not the chip's
(DEDUCED, assumption log 114). -/
def coldState (s : State) : State :=
  let o := s.oxs
  let chans := s.flash.channels.map fun c =>
    (c.1, { c.2 with online := false, dead := [], d0 := 0, openData := [], openCopy := [], admitted := 0, wearAt := 0, buffer := [], copies := [], wear := none })
  { State.reset with
    pending := s.pending, hostMem := s.hostMem, draws := s.draws, uses := s.uses, msix := s.msix
    flash := { Flash.reset with
      channels := chans, wseq := s.flash.wseq, frames := s.flash.frames.map fun e => (e.1, tornFrame s.flash e.1 e.2), secure := { s.flash.secure with image := false } }
    oxs := { Oxsis.reset with
      lifecycle := o.lifecycle, keyLifecycle := o.keyLifecycle, svn := o.svn, idRanges := o.idRanges, scrubEpoch := o.scrubEpoch
      norA := o.norA, norB := o.norB }
    pins := { Pins.reset with
      vstby := s.pins.vstby, perstMode := s.pins.perstMode, crystal := s.pins.crystal, thermtripN := s.pins.thermtripN, tripHold := s.pins.tripHold } }

/-- CHIP_RESTART (R445): the error record is sealed, and the chip awaits its cold start (DEDUCED, assumption log 124). -/
def restartChip (r : ErrRecord) (s : State) : State :=
  if s.power.chip ≠ .on then s
  else coldState (sealSecure s fun c => { c with fatal := some { r with nowS := s.nowS } })

/-- The record of an error in core state. -/
def coreRecord : ErrRecord := { ErrRecord.blank with source := Src.core, severity := 3, action := Act.restarted }

/-! ### Row repair (R449) -/

def dramChannels : Nat := 640
def rowKey (channel row : Nat) : Nat := channel * 2 ^ 24 + row

/-- Spare rows used or promised in a channel, and frames retired there. -/
def sparesUsed (h : Health) (ch : Nat) : Nat := Map.get h.spareRows ch 0 + (h.repairing.filter fun r => r.1 = ch).length
def framesRetired (h : Health) (ch : Nat) : Nat := (h.retiredFrames.filter fun e => e.1 / channelFrames = ch).length

/-- The partition that a DRAM channel is granted to; 0xFF for none. -/
def channelOwner (s : State) (ch : Nat) : Nat := (s.livePartitions.find? fun p => (s.part p).grant.sets.contains (ch / 4)).getD 0xFF

/-- A 64 KiB frame is retired: it takes no new object, and what it holds moves (R139) (DESIGN CHOICE, assumption log 121). -/
def retireFrame (s : State) (frame : Nat) : State :=
  let s := s.onHealth fun h => { h with retiredFrames := Map.put h.retiredFrames frame 1 }
  let s := sealSecure s fun c => { c with retiredFrames := Map.put c.retiredFrames frame 1 }
  let p := channelOwner s (frame / channelFrames)
  let s := logError s { ErrRecord.blank with source := Src.dram, severity := 1, action := Act.frameRetired, part := p, loc0 := frame * 65536 }
  if 15 < p then s
  else
    let held := (s.part p).sets.filter fun e => e.2.loc.any fun l =>
      l.2.kind = .page && l.2.tier = 0 && l.2.frame ≤ frame && frame < l.2.frame + ((s.part p).model e.2.model).pageFrames
    held.foldl (fun s e => sendPages s p e.1 .cooling) s

/-- A row fails: a spare row takes its place, or, where none is left, its frame is retired (DESIGN CHOICE, assumption log 121). -/
def failRow (s : State) (ch row frame : Nat) : State :=
  let h := s.health
  if h.repairing.any fun r => r.1 = ch && r.2.1 = row then s
  else if sparesUsed h ch < 64 then s.onHealth fun h => { h with repairing := h.repairing ++ [(ch, row, frame)] }
  else if framesRetired h ch < 32 && !Map.has h.retiredFrames frame then retireFrame s frame
  else s

/-- ROW_REPAIR_COMPLETE: the row is remapped; a repair unit is used. -/
def rowRepaired (ch row : Nat) (s : State) : State :=
  if !(s.health.repairing.any fun r => r.1 = ch && r.2.1 = row) then s
  else
    let n := Map.get s.health.spareRows ch 0 + 1
    let s := s.onHealth fun h =>
      { h with
        repairing := h.repairing.filter fun r => !(r.1 = ch && r.2.1 = row)
        spareRows := Map.put h.spareRows ch n, rowErrors := Map.del h.rowErrors (rowKey ch row) }
    let s := sealSecure s fun c => { c with spareRows := Map.put c.spareRows ch n }
    logError s { ErrRecord.blank with source := Src.dram, severity := 1, action := Act.rowRepaired, part := channelOwner s ch, loc0 := ch * 2 ^ 31 }

/-! ### The patrol (R440 to R442) -/

/-- Corrected errors of a row are counted over the last 24 h; the eighth has the row repaired. -/
def countRow (s : State) (ch row frame : Nat) : State :=
  let k := rowKey ch row
  let l := lastDay s.nowS (Map.get s.health.rowErrors k [])
  let s := s.onHealth fun h => { h with rowErrors := Map.put h.rowErrors k l }
  if 8 ≤ l.length then failRow s ch row frame else s

/-- The sector is poisoned in the object that holds it. -/
def poisonSector (s : State) (p frame inFrame : Nat) : State :=
  match (s.part p).dram.find? fun o => o.1 ≤ frame && frame < o.1 + o.2.frames with
  | none => s
  | some o =>
    let n := (frame - o.1) * 256 + inFrame
    s.onPart p fun x => { x with dram := Map.edit x.dram o.1 fun d => { d with bad := if d.bad.contains n then d.bad else d.bad ++ [n] } }

/-- R441: a command whose partials or staging are lost is killed and runs again once; the second time it is rejected
(DEDUCED, assumption log 122). -/
def loseRun (s : State) (c : CmdRef) : State :=
  match s.flight c with
  | none => s
  | some f =>
    if f.stage = .fetched || f.excepted || (match f.stage with
      | .rejected _ => true
      | _ => false) then s
    else if f.rerun then setStage (releaseRun s true c f) c (.rejected St.mediaError)
    else (killCommand s c).onFlight c fun f => { f with rerun := true }

/-- R441: an uncorrectable error in device data acts on its owner (DEDUCED, assumption log 63). -/
def loseDevice (s : State) (o : DeviceOwner) : State :=
  match o with
  | .nothing => s
  | .segment p n => s.onPart p fun x =>
      { x with flash := { x.flash with
          hostSegs := x.flash.hostSegs.filter fun g => g ≠ n
          lostSegs := if x.flash.lostSegs.contains n then x.flash.lostSegs else x.flash.lostSegs ++ [n] } }
  | .moveBuffer p id => abandonMove s p id
  | .command c => loseRun s c
  | .receiveArea p i n =>
    match ((s.part p).qp i).landing.find? fun l => l.seq = n with
    | none => s
    | some pk => sendNak (s.onQp p i fun q => { q with landing := q.landing.erase pk }) pk 0
  | .overflowRecord fn q k =>
    s.onEq fn q fun e =>
      { e with overflow := e.overflow.zipIdx.map fun r => if r.2 = k then leBytes 2 St.mediaError ++ List.replicate 26 0 else r.1 }
  | .oxsisMemory => restartChip coreRecord s

/-- One error that the patrol meets. A sector in self-refresh is not read. -/
def patrolError (s : State) (e : DramError) : State :=
  let frame := e.channel * channelFrames + e.sector / 256
  let addr := e.channel * 2 ^ 31 + e.sector * 256
  if s.power.chip ≠ .on || dramChannels ≤ e.channel || 2 ^ 23 ≤ e.sector || quadState s (e.channel % 4) = .sleep then s
  else
    let p := channelOwner s e.channel
    if e.corrected then
      countRow (logError s { ErrRecord.blank with source := Src.dram, action := Act.corrected, part := p, loc0 := addr }) e.channel e.row frame
    else
      let s := dramError s p addr 0 0 0
      let s := if p < 16 then poisonSector s p frame (e.sector % 256) else s
      let s := failRow s e.channel e.row frame
      if e.channel < 8 then loseDevice s e.owner else s

/-- DRAM_PATROL. -/
def dramPatrol (errors : List DramError) (s : State) : State := errors.foldl patrolError s

/-! ### The hub's memories (R443, R444) -/

/-- HOT_ENTRY_SHADOW_RESTORE: the shadow equals the entry of the last commit point. -/
def hotRestore (p i : Nat) (shadowOk : Bool) (s : State) : State :=
  match (s.part p).seq i with
  | none => s
  | some q =>
    if s.power.chip ≠ .on || q.state = .rest then s
    else if !shadowOk then restartChip coreRecord s
    else logError s { ErrRecord.blank with source := Src.hubSram, severity := 1, action := Act.restored, part := p, loc1 := q.handleOf i }

/-- DIRECTORY_ENTRY_INVALIDATE: DIR of the set stays until the sweep. -/
def entryInvalid (p i : Nat) (s : State) : State :=
  if s.power.chip ≠ .on || !Map.has (s.part p).dir i then s
  else
    let s := s.onPart p fun x => { x with dir := Map.del x.dir i, cnt := { x.cnt with evicted := x.cnt.evicted + 1 } }
    logError s { ErrRecord.blank with source := Src.hubSram, severity := 1, action := Act.invalidated, part := p, loc1 := i / 8 }

/-! ### Ageing and life (R450 to R452). Terms are in units of 0.01 %. -/

/-- AGEING_MEASURE: the drift of a die; past 4.5 % it is reported once. -/
def ageingMeasure (die driftBp : Nat) (s : State) : State :=
  if s.power.chip ≠ .on || 4 < die then s
  else
    let s := s.onHealth fun h => { h with drift := Map.put h.drift die driftBp }
    if driftBp ≤ 450 || s.health.ageing.contains die then s
    else
      let s := s.onHealth fun h => { h with ageing := h.ageing ++ [die], degraded := true }
      logError s { ErrRecord.blank with source := Src.ageing, severity := 2, loc1 := driftBp }

def leastOf (d : Nat) (l : List Nat) : Nat := l.foldl Nat.min d

/-- The term of one channel (DESIGN CHOICE, assumption log 125). -/
def channelLife (s : State) (c : Nat) (ch : Channel) : Nat :=
  let good := goodBlocks s c
  let total := good.length * ch.profile.endurance
  let wear := if total = 0 then 10000 else (10000 * total - 10000 * sum (good.map fun e => e.2.eraseCnt)) / total
  let limit := ch.goodAtStart * 2 / 100
  let blocks := if limit = 0 then (Config.emptyLimit ch.retired).toNat % 10001 else (10000 * limit - 10000 * ch.retired) / limit
  Nat.min wear blocks

/-- L_F, where there is an online channel. -/
def lifeFlash (s : State) : Option Nat :=
  match s.flash.channels.filter fun e => e.2.online with
  | [] => none
  | l => some (leastOf 10000 (l.map fun e => channelLife s e.1 e.2))

/-- L_D. -/
def lifeDram (s : State) : Nat :=
  let used := fun ch : Nat => Map.get s.health.spareRows ch 0 + framesRetired s.health ch
  leastOf 10000 ((List.range dramChannels).map fun ch => 10000 * (96 - used ch) / 96)

/-- L_A. -/
def lifeAgeing (s : State) : Nat :=
  let tiles := fun q : Nat => (s.sched.tiles.filter fun t => t.1 / 256 = q && t.2.retired).length
  Nat.min (leastOf 10000 ((List.range 5).map fun d => 10000 * (600 - Map.get s.health.drift d 0) / 600))
    (leastOf 10000 ((List.range 4).map fun q => 10000 * (16 - tiles q) / 16))

/-- L (R451). -/
def lifeLeft (s : State) : Nat := Nat.min ((lifeFlash s).getD 10000) (Nat.min (lifeDram s) (lifeAgeing s))

/-- LIMIT of HUB_HEALTH: the term that sets L, the first of equal ones (DESIGN CHOICE, assumption log 125). -/
def lifeLimit (s : State) : Nat :=
  if lifeFlash s = some (lifeLeft s) then 0 else if lifeDram s = lifeLeft s then 1 else 2

/-- The prediction of a term in days. -/
def predict (oldS nowS old now : Nat) : Option Nat :=
  if old ≤ now || nowS ≤ oldS then none else some (now * (nowS - oldS) / (86400 * (old - now)))

/-- EOL_DAYS from the records kept. -/
def eolDays (l : List (Nat × Nat × Nat × Nat)) : Nat :=
  match l.head?, l.getLast? with
  | some a, some b =>
    let ps := [predict a.1 b.1 a.2.1 b.2.1, predict a.1 b.1 a.2.2.1 b.2.2.1, predict a.1 b.1 a.2.2.2 b.2.2.2].filterMap id
    if l.length < 2 || ps = [] then 0xFFFF else leastOf 65534 ps
  | _, _ => 0xFFFF

/-- HUB_HEALTH (R451). -/
def healthWord (s : State) : Nat :=
  lifeLeft s / 100 + lifeLimit s * 2 ^ 8 + s.health.degraded.toNat * 2 ^ 10 + eolDays s.health.daily * 2 ^ 16

/-- HUB_HEALTH_TERMS (R451): 100 for flash where it gives no term. -/
def healthTerms (s : State) : Nat := (lifeFlash s).getD 10000 / 100 + lifeDram s / 100 * 2 ^ 8 + lifeAgeing s / 100 * 2 ^ 16

/-- LIFE_DAILY_RECORD: the last 30 are kept and sealed. -/
def lifeDaily (s : State) : State :=
  if s.power.chip ≠ .on || s.nowS < s.health.dailyDueS then s
  else
    let l := s.health.daily ++ [(s.nowS, (lifeFlash s).getD 10000, lifeDram s, lifeAgeing s)]
    let l := l.drop (l.length - 30)
    sealSecure (s.onHealth fun h => { h with daily := l, dailyDueS := s.nowS + 86400 }) fun c => { c with life := l }

/-! ### The rows -/

def execDramPatrol (errors : List DramError) (s : State) : Host.Outcome State Fault Refusal := .next (dramPatrol errors s)
def execRowRepairComplete (channel row : Nat) (s : State) : Host.Outcome State Fault Refusal := .next (rowRepaired channel row s)
def execHotEntryShadowRestore (part seq : Nat) (shadowOk : Bool) (s : State) : Host.Outcome State Fault Refusal :=
  .next (hotRestore part seq shadowOk s)
def execDirectoryEntryInvalidate (part entry : Nat) (s : State) : Host.Outcome State Fault Refusal := .next (entryInvalid part entry s)
/-- DEDUCED, assumption log 124. -/
def execChipRestart (s : State) : Host.Outcome State Fault Refusal := .next (restartChip coreRecord s)
def execAgeingMeasure (die driftBp : Nat) (s : State) : Host.Outcome State Fault Refusal := .next (ageingMeasure die driftBp s)
def execLifeDailyRecord (s : State) : Host.Outcome State Fault Refusal := .next (lifeDaily s)

end Sys2Proof.Machine
end

