-- ==== Sys2Proof/Machine/Startup.lean ====
section
/-! DEFINITION. Start-up: resets and rails (R419, R463 to R466), the exit from Deep sleep (R429, R430), the cold start (R387, R467 to R469), the load
or rebuild of the map (R303, R304), the rest store (R148, R305), READY (R365, R378), JTAG (R410), the crystal (R460). -/

namespace Sys2Proof.Machine

open Sys2Proof

/-! ### Rails and resets (R419, R435, R463 to R466) -/

/-- The main rails are gone: the chip is Off. -/
def railsLost (s : State) : State :=
  let s := coldState s
  { s with
    power := { s.power with chip := .off }
    pins := { s.pins with pwrok := false, railEn := false, clkreqN := true, crystal := false, tap := none } }

/-- RAIL_EN rises; the board brings the rails up, and reset release comes (R462)
(DEDUCED, assumption log 119; DESIGN CHOICE, assumption log 120). -/
def railsUp (s : State) : State :=
  { s with
    power := { s.power with chip := .on }
    pins := { s.pins with pwrok := true, railEn := true, railTimer := false, clkreqN := false, sysRstN := true, perstN := true } }

/-- WAKE_N in Off: a cold start, with its cause (R419, R422) (DEDUCED, assumption log 117). -/
def wakeFromOff (latched : Bool) (s : State) : State :=
  (railsUp s).onPower fun w => { w with wake := if latched then orBit (orBit w.wake Wk.wakeN) Wk.latched else orBit w.wake Wk.wakeN }

/-- Off, after its handshake. A WAKE_N latched during the entry is replayed (R427). -/
def enterOff (s : State) : State :=
  let w := s.power.latched
  let s := railsLost s
  if bit w Wk.wakeN then wakeFromOff true s else s

/-- HANDSHAKE_ANSWER. -/
def handshakeAnswer (block : Nat) (a : Answer) (s : State) : State := handshake enterOff block a s

/-- PWROK_FALL: a loss of the main rails. RAIL_EN rises again after 100 ms unless a thermal trip holds it. -/
def pwrokFall (s : State) : State :=
  if !s.pins.pwrok then s
  else
    let t := s.power.chip = .tripped
    let s := railsLost s
    { s with
      power := { s.power with chip := if t then .tripped else .off }
      pins := { s.pins with railTimer := !s.pins.tripHold } }

/-- RAIL_EN_RESTART. -/
def railRestart (s : State) : State := if s.pins.railTimer && s.pins.vstby && !s.pins.tripHold then railsUp s else s

/-- STANDBY_POWER_ON. -/
def standbyOn (s : State) : State := if s.pins.vstby then s else s.onPins fun p => { p with vstby := true, railTimer := true }

/-- VSTBY_LOSS: everything stops, and a trip's hold ends. -/
def vstbyLoss (s : State) : State :=
  (railsLost s).onPins fun p => { p with vstby := false, tripHold := false, thermtripN := true, railTimer := false }

/-- SYS_RST: in every state but Off the chip is reset and held there until a COLD_START (R464, R465). -/
def sysRst (viaPerst : Bool) (s : State) : State :=
  if s.power.chip = .off || s.power.chip = .tripped || (viaPerst && s.pins.perstMode) then s
  else
    let t := s.pins.tap
    (coldState s).onPins fun p => { p with sysRstN := viaPerst, perstN := !viaPerst, tap := t }

/-- THERMAL_TRIP. -/
def thermalTrip (tempC : Nat) (s : State) : State :=
  if tempC < 115 || s.power.chip = .off || s.power.chip = .tripped then s
  else
    let s := railsLost s
    { s with
      power := { s.power with chip := .tripped }
      pins := { s.pins with pwrok := true, thermtripN := false, tripHold := true } }

/-- The PCIe link and every function's configuration space reset; the host-facing state goes as for an FLR of PF0. -/
def resetLink (s : State) : State :=
  let s := pf0Reset s
  { s with pf0Bme := false, funcs := Map.each s.funcs fun f => { f with bme := false, d3 := false } }

/-- The entry in progress leads to Deep sleep. -/
def goesDeep (s : State) : Bool :=
  match s.power.entry with
  | some e => e.kind = .deep || e.next.contains .deep
  | none => false

/-- HOST_LINK_RESET (R464, R465) (DESIGN CHOICE, assumption log 36). -/
def hostLinkReset (s : State) : State :=
  if !s.pins.perstMode then s
  else
    match s.power.chip with
    | .on =>
      let s := if goesDeep s then abandonEntry s 2 11 else wakeEvent Wk.pcie s
      if s.pins.pcieUp then resetLink s else s
    | .deepSleep => wakeEvent Wk.pcie (s.onPins fun p => { p with linkReset := true })
    | _ => s

/-- WAKE_N_LOW (DESIGN CHOICE, assumption log 118). -/
def wakeNLow (s : State) : State :=
  if s.power.chip = .off then (if s.pins.vstby && !s.pins.tripHold then wakeFromOff false s else s) else wakeEvent Wk.wakeN s

/-- CRYSTAL_SETTLED: the seconds counter changes over without a step. -/
def crystalSettled (s : State) : State :=
  if s.power.chip = .off || s.power.chip = .tripped then s else s.onPins fun p => { p with crystal := true }

/-! ### JTAG (R410) -/

/-- The reset input holds the chip in reset. -/
def resetHeld (s : State) : Bool := !s.pins.sysRstN || (!s.pins.perstN && !s.pins.perstMode)

def jtagAllowed (s : State) (i : JtagInstr) : Bool :=
  s.oxs.lifecycle ≠ .production ||
    (match i with
    | .idcode => true
    | .bypass => true
    | .samplePreload => true
    | .scanInternal => false
    | _ => resetHeld s)

/-- JTAG_INSTRUCTION. -/
def jtagInstruction (i : JtagInstr) (s : State) : State :=
  if s.power.chip ≠ .off && s.power.chip ≠ .tripped && jtagAllowed s i then s.onPins fun p => { p with tap := some i } else s

/-- TAP_RESET. -/
def tapReset (s : State) : State := s.onPins fun p => { p with tap := none }

/-- PERCENT of FLS_STATUS as a phase begins: how far it has come is a free value from 0 to 100 (DESIGN CHOICE, assumption log 19). -/
def freePercent (s : State) : State :=
  let d := s.draw
  d.2.onFlash fun f => { f with percent := (Config.freeWord d.1).toNat % 101 }

/-! ### The exit from Deep sleep (R126, R390, R429) -/

/-- A flash channel trains again (R272, R429); one that does not is offline (R299). -/
def retrainChannel (s : State) (e : Nat × Int × Bool) : State :=
  match s.channel e.1 with
  | none => s
  | some ch =>
    let s := s.onChannel e.1 fun ch => { ch with lastTempC := e.2.1, online := ch.online && e.2.2 }
    if ch.online && !e.2.2 then s.onHealth fun h => { h with degraded := true } else s

/-- The flash and xSPI outputs are driven again: WP_N of the channels that trained rises (R438). -/
def drivePins (s : State) : State := s.onPins fun p => { p with flashWpN := (s.flash.channels.filter fun c => c.2.online).map fun c => c.1 }

/-- The hub state image can be had: from the retention SRAM, or from its sealed copy. -/
def imageGood (s : State) (tagOk copyOk : Bool) : Bool := (tagOk && s.power.imageValid) || copyOk

/-- DEEP_SLEEP_EXIT: tagOk, the tag of the retention SRAM matches; copyOk, the MAC of the sealed copy does; channels, the temperature at which each
flash channel trains, and whether it does (a channel not named trains at the temperature of its last training)
(DESIGN CHOICE, assumption log 157). -/
def deepExit (tagOk copyOk : Bool) (channels : List (Nat × Int × Bool)) (s : State) : State :=
  if s.power.chip ≠ .deepSleep || !s.power.waking then s
  else if !imageGood s tagOk copyOk then
    logError (coldState s) { ErrRecord.blank with source := Src.retention, severity := 3, action := Act.coldStart }
  else
    let n := (s.nowS - s.power.sleptAtS) / 64
    let s := s.onPower fun w => { w with chip := .on, waking := false, lastResult := 1, lastBlock := 0, imageValid := false }
    let s := s.onPins fun p => { p with clkreqN := false }
    let s := s.onFabric fun f => { f with bypassClosed := !f.join }
    let s := { s with parts := Map.each s.parts (ageDirectory n), dirSweep := s.nowS / 64 }
    let s := drivePins (channels.foldl retrainChannel s)
    let s := s.onOxs fun o => { o with sigOffset := o.sigBound }
    let s := s.onSecure fun c => { c with image := false }
    let s := if s.pins.linkReset then resetLink (s.onPins fun p => { p with linkReset := false }) else s
    if tagOk then s else logError s { ErrRecord.blank with source := Src.retention, severity := 1, action := Act.restored }

/-! ### The cold start (R387, R467, R469) -/

/-- The slot that boots: whether it is B, and whether a newer invalid slot was passed over (DESIGN CHOICE, assumption log 4). -/
def bootSlot (o : Oxsis) : Option (FwSlot × Bool × Bool) :=
  let ok := fun f : Option FwSlot => match f with
    | some f => if slotValid f o.svn then some f else none
    | none => none
  let newer := fun (f : Option FwSlot) (g : FwSlot) => match f with
    | some f => decide (g.seq < f.seq)
    | none => false
  match ok o.norA, ok o.norB with
  | some a, some b => if a.seq < b.seq then some (b, true, false) else some (a, false, false)
  | some a, none => some (a, false, newer o.norB a)
  | none, some b => some (b, true, newer o.norA b)
  | none, none => none

/-- R273: what a die profile must give for the channel to come online. -/
def profileMeets (f : ChannelFound) : Bool :=
  f.profileOk && f.dies ≤ 16 && f.pageBytes = 16384 && 1024 ≤ f.spareBytes && f.planes = 4 && 256 ≤ f.pagesPerBlock && f.pagesPerBlock ≤ 4096 &&
    8 ≤ f.retryOptions && f.tRUs ≤ 60 && f.tProgUs ≤ 1000 && f.tBersUs ≤ 15000

/-- A channel comes online: it trains, and all of its dies match one profile that meets R273. -/
def comesOnline (f : ChannelFound) : Bool := f.trained && profileMeets f

/-- The channel has not been online before: its factory bad-block marks are read (R272). -/
def firstStart (s : State) (e : Nat × ChannelFound) : Bool :=
  comesOnline e.2 && (match s.channel e.1 with
    | some old => old.goodAtStart = 0
    | none => true)

def factoryBad (e : Nat × ChannelFound) : List BlockId := e.2.badBlocks.map fun b => ⟨e.1, b.1, b.2⟩

/-- The blocks of a channel; those of the bad-block entries are retired. -/
def foundBlocks (bad : List BlockId) (c : Nat) (f : ChannelFound) : Map Block :=
  (List.range f.dies).flatMap fun d => (List.range f.blocksPerDie).map fun b =>
    (blockNo c d b, if bad.contains ⟨c, d, b⟩ then { Block.reset with state := .retired } else Block.reset)

/-- Step 4 for one channel: training and the match of its die profile; the good blocks of its first start are kept (R451). -/
def findChannel (s : State) (e : Nat × ChannelFound) : State :=
  let c := e.1
  let f := e.2
  let up := comesOnline f
  let bad := s.flash.secure.badBlocks ++ if firstStart s e then factoryBad e else []
  let good := if firstStart s e then f.dies * f.blocksPerDie - f.badBlocks.length else 0
  let new : Channel := match s.channel c with
    | some old => { old with online := up, profile := f, lastTempC := f.tempC, goodAtStart := old.goodAtStart + good }
    | none => ⟨up, f, [], 0, [], [], 0, f.tempC, 0, good, 0, [], [], none⟩
  let s := s.onFlash fun d =>
    { d with
      channels := Map.put d.channels c new
      blocks := (foundBlocks bad c f).foldl (fun m b => Map.put m b.1 b.2) d.blocks }
  if up then s.onPins fun p => { p with flashWpN := p.flashWpN ++ [c] } else s

/-- The erase counts that the headers of a channel show, as their mean. -/
def meanErase (s : State) (c : Nat) : Nat :=
  let l := (s.flash.frames.filter fun e => (placeOf e.1).channel = c && e.2.passed && !e.2.torn).map fun e => e.2.eraseCnt
  if l = [] then 0 else sum l / l.length

/-- The header of a frame cannot be read: its program did not pass, its block was being erased, or its codeword does not decode (R277)
(DEDUCED, assumption log 115). -/
def badHeader (bad : List Place) (n : Nat) (f : Frame) : Bool := !f.passed || f.torn || bad.contains (placeOf n)

/-- A block as its headers show it: FREE, OPEN or FULL by its pages, or erased again where no header can be read (DEDUCED, assumption log 115). -/
def scanBlock (s : State) (bad : List Place) (b : Nat) (k : Block) : Block :=
  if k.state = .retired then k
  else
    let l := framesOf s b
    let saved := (s.checkpoint.bind fun c => Map.look c.blocks b).map fun k => k.eraseCnt
    let top := (l.map fun e => e.2.eraseCnt).foldl Nat.max 0
    match l.getLast? with
    | none => { Block.reset with eraseCnt := saved.getD (meanErase s (blockChannel b)) }
    | some f =>
      let n := f.1 % 4096 + 1
      if l.all fun e => badHeader bad e.1 e.2 then { Block.reset with state := .erasing, eraseCnt := top }
      else if pagesPerBlock s (blockChannel b) ≤ n || l.any fun e => badHeader bad e.1 e.2 then { Block.reset with state := .full, eraseCnt := top, nextPage := n }
      else { Block.reset with state := .opened, eraseCnt := top, nextPage := n, forCopies := f.2.copy }

def metaBlock (b : Nat) : Bool := blockChannel b = 0 || blockChannel b = 16

/-- The anchor and the log are read: the blocks of channels 0 and 16 are as their headers show (R303) (DEDUCED, assumption log 113). -/
def readMeta (s : State) : State := s.onFlash fun f => { f with blocks := f.blocks.map fun b => (b.1, if metaBlock b.1 then scanBlock s s.flash.badHeaders b.1 b.2 else b.2) }

/-- The factory bad-block marks of channels at their first start become bad-block entries. -/
def logFactory (bad : List BlockId) (s : State) : State :=
  bad.foldl (fun s b => logEntry s (2 :: leBytes 4 (blockNo b.channel b.die b.block)) fun c => { c with badBlocks := c.badBlocks ++ [b] }) s

def channelOn (s : State) (c : Nat) : Bool := match s.channel c with
  | some ch => ch.online
  | none => false

/-- A start that stops at stage MEMORY. -/
def haltStart (s : State) (source : Nat) : State := logError { s with halted := true } { ErrRecord.blank with source := source, severity := 3 }

/-- The epoch that Oxsis keeps for a partition number (DESIGN CHOICE, assumption log 11). -/
def sealedEpoch (c : Secure) (p : Nat) : Nat := Map.get c.epochs p 1

/-- The partitions of the checkpoint, each under its epoch. -/
def sealedParts (c : Secure) : Map Part :=
  c.epochs.map fun e => (e.1, match Map.look c.table e.1 with
    | some g => newPart Part.absent g.1 e.2
    | none => { Part.absent with epoch := e.2 })

def sealedSched (c : Secure) (d : Sched) : Sched :=
  { d with classMode := c.mode, tiles := c.retiredTiles.foldl (fun m t => Map.put m t { Tile.reset with retired := true }) d.tiles }

/-- R390: each start takes a new range of signature indexes while there is one. -/
def startRange (o : Oxsis) : Oxsis :=
  if o.idRanges < 4096 then { o with idRanges := o.idRanges + 1, sigOffset := 0, sigBound := 0 } else { o with sigOffset := rangeSize, sigBound := rangeSize }

def sealedHealth (c : Secure) (h : Health) : Health :=
  { h with
    spareRows := c.spareRows, retiredFrames := c.retiredFrames, daily := c.life
    dailyDueS := match c.life.getLast? with
      | some r => r.1 + 86400
      | none => h.dailyDueS }

/-- Step 5: the partition table, a signature range, the scheduling mode, and what Health has sealed. -/
def loadSealed (s : State) : State :=
  let c := s.flash.secure
  ((({ s with parts := sealedParts c, stage := 2 } : State).onSched (sealedSched c)).onOxs startRange).onHealth (sealedHealth c)

/-- Step 6: the anchor names a sealed checkpoint, and no open record its CP_SEQ (R303). -/
def cleanCheckpoint (s : State) : Bool := metaOnline s && s.checkpoint.isSome && s.flash.secure.openRecord ≠ currentAnchor s.flash

/-- The error record of a chip restart heads the log (R445). -/
def headFatal (s : State) : State :=
  match s.flash.secure.fatal with
  | none => s
  | some r =>
    let s := s.onFlash fun f => { f with secure := { f.secure with fatal := none } }
    s.onHealth fun h => { h with log := [(0, { r with rseq := 0 })], tail := 1, rseq := 1, fatalPrev := true }

/-- Steps 4 to 6, after the boot (DEDUCED, assumption log 113). -/
def startMemory (env : ColdEnv) (s : State) : State :=
  let s := ({ s with stage := 1 } : State).onFlash fun f => { f with cpReadable := env.checkpointOk, badHeaders := env.badHeaders }
  if !env.stacksOk then haltStart s Src.core
  else
    let new := (env.channels.filter (firstStart s)).flatMap factoryBad
    let s := env.channels.foldl findChannel s
    if !channelOn s 0 && !channelOn s 16 then haltStart s Src.flashDie
    else
      let s := if (List.range 32).all (channelOn s) then s else s.onHealth fun h => { h with degraded := true }
      let s := loadSealed (logFactory new (readMeta s))
      let load := cleanCheckpoint s
      (freePercent { s with stage := if load then 3 else 4 }).onFlash fun f => { f with phase := if load then 1 else 2, cpSeq := (currentAnchor f).getD 0 }

/-- COLD_START, from reset release to the start of step 7
(DEDUCED, assumption log 113; DESIGN CHOICE, assumption log 120; DESIGN CHOICE, assumption log 136). -/
def coldStart (env : ColdEnv) (s : State) : State :=
  if s.power.chip ≠ .on || !s.pins.pwrok || s.stage ≠ 0 || s.oxs.recovery || s.halted then s
  else
    let s := headFatal s
    let s := s.onPins fun p => { p with sysRstN := true, perstN := true, xspiRstN := true, pcieUp := true }
    let s := s.onOxs fun o => { o with keyLifecycle := o.lifecycle, certMismatch := !env.certOk }
    match bootSlot s.oxs with
    | none => s.onOxs fun o => { o with recovery := true, booted := none }
    | some (f, b, r) =>
      let s := s.onOxs fun o => { o with booted := some f, bootedB := b, recovered := r }
      let s := s.onPins fun p => { p with smbusAddr := some (Config.smbusAddress f.seq).toNat }
      let s := [0, 1, 2, 3].foldl (fun s q =>
        let s := setPoint s q 0
        if (env.regulatorsOk[q]?).getD true then s
        else logError (s.onPower fun w => { w with regBad := w.regBad ++ [q] }) { ErrRecord.blank with source := Src.regulator, severity := 1, loc0 := q }) s
      startMemory env s

/-! ### The map (R293, R303, R304) -/

/-- A power-off gap is added; of more than 64 the two oldest become one. -/
def addGap (l : List (Nat × Nat)) (g : Nat × Nat) : List (Nat × Nat) :=
  match l ++ [g] with
  | a :: b :: r => if 64 < r.length + 2 then (Nat.max a.1 b.1, a.2 + b.2) :: r else a :: b :: r
  | l => l

/-- The gap table: that of the last checkpoint, with the gaps of the log. -/
def savedGaps (s : State) : List (Nat × Nat) := s.flash.secure.logGaps.foldl addGap ((s.checkpoint.map Checkpoint.gaps).getD [])

/-- The seconds counter goes on from what flash holds, and the gap of this start is logged (DESIGN CHOICE, assumption log 20). -/
def resumeClock (s : State) : State :=
  let times := (s.checkpoint.map fun c => c.nowS).toList ++ ((s.flash.frames.filter fun e => e.2.passed && !e.2.torn).map fun e => e.2.progTime)
  let n := if times = [] then s.nowS else times.foldl Nat.max 0 + 1
  let g := (n, s.flash.offGap * 86400)
  let s := logEntry { s with nowS := n, dirSweep := n / 64 } (3 :: leBytes 4 n ++ leBytes 8 g.2) fun c => { c with logGaps := c.logGaps ++ [g] }
  s.onFlash fun f => { f with gaps := addGap f.gaps g }

/-- The log's bad-block entries applied. -/
def applyBad (s : State) : State :=
  s.flash.secure.badBlocks.foldl (fun s b => s.onBlock (blockNo b.channel b.die b.block) fun k => { k with state := .retired }) s

/-- The open blocks of each channel, by die, from the block table (DEDUCED, assumption log 116). -/
def findOpen (s : State) : State :=
  (s.flash.blocks.filter fun e => e.2.state = .opened).foldl
    (fun s e => s.onChannel (blockChannel e.1) fun c =>
      if e.2.forCopies then { c with openCopy := Map.put c.openCopy (blockDie e.1) e.1 } else { c with openData := Map.put c.openData (blockDie e.1) e.1 }) s

/-- The map of a partition as a start finds it, its segments placed: in DRAM as far as its share goes, then in the map host area; those for which there is
room in neither have to be rebuilt when there is (DESIGN CHOICE, assumption log 64). -/
def freshMap (s : State) (x : Part) (f : PartFlash) : PartFlash :=
  let segs := sortBy id (dedup (f.map.map fun e => segmentOf e.1))
  let rest := segs.drop (dramShare x)
  { f with discards := [], hostSegs := rest.take (hostShare s x), lostSegs := rest.drop (hostShare s x), segUse := [], mapFull := false }

/-- A partition with the map of a checkpoint. -/
def loadPart (s : State) (c : Checkpoint) (e : Nat × Part) : Nat × Part :=
  (e.1, { e.2 with flash := freshMap s e.2 (Map.get c.maps e.1 PartFlash.reset) })

/-- A block with its entry in a checkpoint; collection starts again. A block without an entry, whose channel was offline then, is as its headers show
(DEDUCED, assumption log 113). -/
def loadBlock (s : State) (c : Checkpoint) (b : Nat × Block) : Nat × Block :=
  if metaBlock b.1 then b
  else
    match Map.look c.blocks b.1 with
    | some k => (b.1, if k.state = .victim then { k with state := .full } else k)
    | none => (b.1, scanBlock s s.flash.badHeaders b.1 b.2)

/-- MAP_CHECKPOINT_LOAD. Where a frame of the checkpoint cannot be read, the map is rebuilt by scan (R303)
(DEDUCED, assumption log 113). -/
def mapLoad (s : State) : State :=
  match s.stage, s.checkpoint with
  | 3, some c =>
    if !s.flash.cpReadable then (freePercent { s with stage := 4 }).onFlash fun f => { f with phase := 2 }
    else
      let t := { s with parts := s.parts.map (loadPart s c) }
      let t := t.onFlash fun f =>
        { f with
          blocks := f.blocks.map (loadBlock s c)
          wseq := Nat.max f.wseq c.wseq, gaps := savedGaps s, dirty := false, rebuilt := false, phase := 4 }
      freePercent { resumeClock (findOpen (applyBad t)) with stage := 5 }
  | _, _ => s

/-- A frame that the scan accepts: its header can be read, its block is in use, and its owner and epoch are those of the channel. -/
def scanned (s : State) (bad : List Place) (n : Nat) (f : Frame) : Bool :=
  let a := placeOf n
  channelOn s a.channel && !badHeader bad n f && (s.block (n / 4096)).state ≠ .retired && ownerOf s a.channel = f.part && (s.part f.part).live &&
    (s.part f.part).epoch = f.epoch

/-- What pass 1 collects: the frames accepted, the groups that are sealed, and the frames that sealed discard records kill. -/
structure Scan where
  frames : Map Frame
  groups : List Nat
  killed : List (Nat × Nat)

def scanFrames (s : State) (bad : List Place) : Scan :=
  let l := s.flash.frames.filter fun e => scanned s bad e.1 e.2
  let groups := l.flatMap fun e => (if e.2.isSeal then [e.2.group] else []) ++ (if e.2.isCseal then [e.2.cgroup] else [])
  let ok := fun f : Frame => groups.contains f.group && (!f.copy || groups.contains f.cgroup)
  let good := l.filter fun e => ok e.2
  ⟨good.filter fun e => e.2.kind ≠ 5, groups, (good.filter fun e => e.2.kind = 5).flatMap fun e => discardEntries e.2⟩

/-- The frame that stands for an LFN of a partition (R284). -/
def standing (l : Map Frame) (p lfn : Nat) : Option (Nat × Frame) :=
  (l.filter fun e => e.2.part = p && e.2.lfn = lfn).foldl
    (fun b e => match b with
      | none => some e
      | some c => if c.2.vseq < e.2.vseq || (c.2.vseq = e.2.vseq && c.2.wseq < e.2.wseq) then some e else b) none

/-- The object whose first frame stands at an LFN, where all of its frames stand. -/
def objectAt (m : Map (Nat × Frame)) (e : Nat × Nat × Frame) : Option (Nat × FlashObj) :=
  let f := e.2.2
  let fs := (List.range f.glen).filterMap fun i => match Map.look m (e.1 + i) with
    | some g => if g.2.gpos = i && g.2.group = f.group then some g.2 else none
    | none => none
  if f.gpos = 0 && fs.length = f.glen then some (e.1, ⟨f.glen, f.kind, f.obj, fs.flatMap fun g => g.data, fs.flatMap fun g => g.bad.map fun k => 256 * g.gpos + k⟩) else none

/-- Pass 2 for one partition (DEDUCED, assumption log 112). -/
def mergeMap (scan : Scan) (p : Nat) : PartFlash :=
  let live := scan.frames.filter fun e => e.2.part = p && !(scan.killed.any fun k => k.1 = e.1 && k.2 = e.2.eraseCnt % 2 ^ 24)
  let lfns := sortBy id (dedup (live.map fun e => e.2.lfn))
  let m : Map (Nat × Frame) := lfns.filterMap fun n => (standing live p n).map fun e => (n, e)
  { PartFlash.reset with
    map := m.map fun e => (e.1, ⟨placeOf e.2.1, true, e.2.2.progTime, e.2.2.progTemp, 0⟩)
    objs := m.filterMap (objectAt m)
    lowestLfn := lfns.foldl (fun a n => Nat.max a (n + 1)) 1 }

/-- One OPEN block stays for each die and kind; further ones count as FULL (DEDUCED, assumption log 116). -/
def oneOpen (m : Map Block) : Map Block :=
  m.map fun e =>
    if e.2.state = .opened && m.any (fun o => o.1 < e.1 && o.1 / 65536 = e.1 / 65536 && o.2.state = .opened && o.2.forCopies = e.2.forCopies) then
      (e.1, { e.2 with state := .full })
    else e

def scanBlocks (s : State) (bad : List Place) (m : Map Block) : Map Block :=
  oneOpen (m.map fun b => (b.1, if metaBlock b.1 then b.2 else scanBlock s bad b.1 b.2))

/-- A partition with the map that the scan gives it. -/
def scanPart (s : State) (scan : Scan) (e : Nat × Part) : Nat × Part :=
  if e.2.live then (e.1, { e.2 with flash := freshMap s e.2 (mergeMap scan e.1) }) else e

/-- MAP_REBUILD_SCAN (DEDUCED, assumption log 114). -/
def mapScan (s : State) : State :=
  if s.stage ≠ 4 then s
  else
    let bad := s.flash.badHeaders
    let s := applyBad s
    let scan := scanFrames s bad
    let s := { s with parts := s.parts.map (scanPart s scan) }
    let top := (s.flash.frames.filter fun e => !badHeader bad e.1 e.2).foldl (fun n e => Nat.max n e.2.wseq) 0
    let s := s.onFlash fun f =>
      { f with
        blocks := scanBlocks s bad f.blocks
        wseq := top + 2 ^ 20, dirty := f.secure.openRecord.isSome, rebuilt := true, phase := 4
        gaps := savedGaps s }
    freePercent { resumeClock (findOpen s) with stage := 5 }

/-- Frames that wait for a discard record, or belong to a group that has not landed (DEDUCED, assumption log 49). -/
def unsettled (s : State) (p : Nat) : List Place :=
  ((s.part p).flash.discards.map fun d => d.1) ++ s.flash.groups.flatMap fun g =>
    if g.2.isDiscard then g.2.discards.map fun d => d.1 else g.2.places

/-- MAP_SEGMENT_REBUILD: the entries of a lost segment come back from the frame headers, in the way of R304, once there is room for it
(DEDUCED, assumption log 49). -/
def mapSegmentRebuild (p g : Nat) (bad : List Place) (s : State) : State :=
  let x := s.part p
  let room := (dramSegments x.flash).length < dramShare x || x.flash.hostSegs.length < hostShare s x
  if !x.flash.lostSegs.contains g || !room then s
  else
    let found := (mergeMap (scanFrames s (bad ++ unsettled s p)) p).map.filter fun e => segmentOf e.1 = g
    let s := s.onPart p fun x =>
      { x with flash := { x.flash with map := found.foldl (fun m e => Map.put m e.1 e.2) (x.flash.map.filter fun e => segmentOf e.1 ≠ g) } }
    bringSegment s p g

/-! ### The rest store (R148, R305) -/

def locOfWord (w : Nat) : Loc :=
  ⟨if bits w 0 2 = 1 then .staging else if bits w 0 2 = 2 then .page else .empty, bits w 2 2, w / 256⟩

/-- The pages on flash, as (PSN, layer) and first LFN; the newest where two hold the same page (DEDUCED, assumption log 111). -/
def flashPages (s : State) (x : Part) : List ((Nat × Nat) × Nat) :=
  let l := x.flash.objs.filter fun e => e.2.kind = 1
  let age := fun n : Nat => match Map.look x.flash.map n with
    | some e => ((s.frameAt e.place).map fun f => f.vseq).getD 0
    | none => 0
  (sortBy (fun e : Nat × FlashObj => age e.1) l).reverse.map fun e => ((e.2.obj % 2 ^ 40, e.2.obj / 2 ^ 40), e.1)

def pageLfn (pages : List ((Nat × Nat) × Nat)) (psn layer : Nat) : Option Nat := (pages.find? fun e => e.1 = (psn, layer)).map fun e => e.2

def flashData (x : Part) (lfn : Nat) : List Byte := (Map.get x.flash.objs lfn ⟨0, 0, 0, [], []⟩).data

/-- The first frame of an object can be read. -/
def readableAt (x : Part) (bad : List Place) (lfn : Nat) : Bool := match Map.look x.flash.map lfn with
  | some e => !bad.contains e.place
  | none => false

/-- The header of a page set: that of one of its pages, one that can be read. -/
def setHeader (x : Part) (bad : List Place) (pages : List ((Nat × Nat) × Nat)) (psn : Nat) : List Byte :=
  match pages.find? fun e => e.1.1 = psn && readableAt x bad e.2 with
  | some e => slice (flashData x e.2) 0 2048
  | none => []

/-- The layers of a model tag, as far as page headers show them (DEDUCED, assumption log 109). -/
def tagLayers (x : Part) (pages : List ((Nat × Nat) × Nat)) (tag : Nat) : Nat :=
  pages.foldl (fun n e => if field (flashData x e.2) 8 8 = tag then Nat.max n (e.1.2 + 1) else n) 0

/-- A rest frame read back. -/
structure RestFound where
  index : Nat
  lfn : Nat
  image : List Byte
  pt : List PtEntry
  tails : Map Loc

def restOf (e : Nat × FlashObj) : RestFound :=
  let b := e.2.data
  ⟨e.2.obj % 2 ^ 24, e.1, b,
    (List.range (field b 8 4 / 256)).map fun k => ⟨bits (field b (0x1000 + 8 * k) 8) 0 40, bit (field b (0x1000 + 8 * k) 8) 40⟩,
    ((List.range 256).map fun l => (l, locOfWord (field b (0x800 + 8 * l) 8))).filter fun t => t.2.kind ≠ .empty⟩

/-- The rest frames that stand: for each index that of the higher REST_SEQ. A frame that cannot be read is none (R277). -/
def restFrames (x : Part) (bad : List Place) : List RestFound :=
  let l := (x.flash.objs.filter fun e => e.2.kind = 3 && readableAt x bad e.1).map restOf
  l.filter fun r => !(l.any fun o => o.index = r.index && field r.image 0x100 8 < field o.image 0x100 8)

/-- The layers of a sequence: those that its model tag shows, and those of its tail pages (DEDUCED, assumption log 109). -/
def restLayers (x : Part) (bad : List Place) (pages : List ((Nat × Nat) × Nat)) (r : RestFound) (psn : Nat) : Nat :=
  r.tails.foldl (fun n t => Nat.max n (t.1 + 1)) (tagLayers x pages (field (setHeader x bad pages psn) 8 8))

/-- R148: the tail pages and every page of every page set are on flash (DEDUCED, assumption log 109). -/
def recoverable (x : Part) (bad : List Place) (pages : List ((Nat × Nat) × Nat)) (r : RestFound) : Bool :=
  r.tails.all (fun t => t.2.tier = 2 && Map.has x.flash.objs t.2.frame) &&
    r.pt.all fun e =>
      let n := restLayers x bad pages r e.psn
      setHeader x bad pages e.psn ≠ [] && n ≠ 0 && (List.range n).all fun l => (pageLfn pages e.psn l).isSome

/-- The entry image of R88 as a sequence at REST; predictions were held in DRAM and are gone (DEDUCED, assumption log 110). -/
def recoveredSeq (r : RestFound) : Seq :=
  let b := r.image
  let n := field b 8 4
  { gen := bits (field b 0 4) 24 8, state := .rest, model := field b 5 1, homeQ := field b 6 1 % 4, length := n, reservedLen := field b 12 4
    stepBase := field b 16 4, sharedSets := field b 20 4, lastUse := field b 24 4, parkWait := field b 28 4, pt := r.pt, tails := r.tails
    tokenTail := words (slice b 0x400 (4 * (n % 256))), layerDone := BitVec.ofNat 256 (field b 112 32), layerRsv := BitVec.ofNat 256 (field b 144 32)
    parkTime := field b 176 4, predTime := 0, holdEnd := 0, specPages := 0, predicted := false, hinted := false, restored := false
    restRef := ⟨.page, 2, r.lfn⟩, restSeq := field b 0x100 8, restTent := none, tailTents := [], stuck := false, chunks := [], tailDir := none }

/-- The page sets along a page table, with their digests recomputed in order. -/
def recoveredSets (s : State) (x : Part) (bad : List Place) (pages : List ((Nat × Nat) × Nat)) (model : Nat) : List PtEntry → BitVec 128 → List (Nat × PageSet)
  | [], _ => []
  | e :: r, prev =>
    let h := setHeader x bad pages e.psn
    let n := tagLayers x pages (field h 8 8)
    let tokens := words (slice h 0x400 1024)
    let d := digestOf (field h 8 8) x.grant.salt prev tokens
    let p : PageSet := ⟨model, field h 4 4, false, true, false, false, n, 0, 0, 0, d, tokens,
      (List.range n).map (fun l => (l, (⟨.page, 2, (pageLfn pages e.psn l).getD 0⟩ : Loc))), 0, s.nowS, 0, false, [], [], []⟩
    (e.psn, p) :: recoveredSets s x bad pages model r d

/-- The rest store of one partition; every LFN that no recovered object names is discarded (DEDUCED, assumption log 110). -/
def recoverPart (bad : List Place) (s : State) (p : Nat) : State :=
  let x := s.part p
  let pages := flashPages s x
  let rs := (restFrames x bad).filter (recoverable x bad pages)
  let sets := rs.foldl (fun m r => (recoveredSets s x bad pages (field r.image 5 1) r.pt 0).foldl (fun m e => Map.put m e.1 e.2) m) ([] : Map PageSet)
  let refs := fun n : Nat => (rs.filter fun r => r.pt.any fun e => e.psn = n).length
  let sets := sets.map fun e => (e.1, { e.2 with refs := refs e.1 })
  let named := rs.map (fun r => r.lfn) ++ rs.flatMap (fun r => r.tails.map fun t => t.2.frame) ++
    sets.flatMap fun e => e.2.loc.map fun l => l.2.frame
  let s := s.onPart p fun x =>
    { x with
      seqs := rs.foldl (fun m r => Map.put m r.index (recoveredSeq r)) []
      gens := rs.foldl (fun m r => Map.put m r.index (bits (field r.image 0 4) 24 8)) []
      sets := sets, restSeq := (restFrames x bad).foldl (fun n r => Nat.max n (field r.image 0x100 8)) 0
      restTable := rs.foldl (fun m r => Map.put m r.index ⟨.page, 2, r.lfn⟩) [] }
  let s := ((s.part p).flash.objs.map fun e => e.1).foldl (fun s n => if named.contains n then s else discardFlash s p n) s
  let inObj := fun n : Nat => (s.part p).flash.objs.any fun o => o.1 ≤ n && n < o.1 + o.2.frames
  let s := (((s.part p).flash.map.map fun e => e.1).filter fun n => !inObj n).foldl (fun s n => discardFlash s p n) s
  if (s.part p).segRoot.isSome then s else buildTables s p

/-- The READY record of a queue. -/
def readyRecord (s : State) (restSeqs startupMs : Nat) : Record :=
  ⟨St.success, Kind.ready, Bool.bit s.flash.rebuilt, restSeqs, startupMs, 0, 0, 0, 0⟩

/-- REST_STORE_REBUILD, and with it READY; bad are the frames that cannot be read (R277). -/
def restStore (startupMs : Nat) (bad : List Place) (s : State) : State :=
  if s.stage ≠ 5 then s
  else
    let s := s.livePartitions.foldl (recoverPart bad) s
    let s := (freePercent { s with stage := 6 }).onFlash fun f => { f with phase := 5 }
    let s := postRecord s 16 0 (readyRecord s 0 startupMs) none
    s.livePartitions.foldl (fun s p => postRecord s p 0 (readyRecord s (s.part p).seqs.length startupMs) none) s

/-! ### The rows -/

def execHandshakeAnswer (block : Nat) (answer : Answer) (s : State) : Host.Outcome State Fault Refusal := .next (handshakeAnswer block answer s)
def execWakeNLow (s : State) : Host.Outcome State Fault Refusal := .next (wakeNLow s)
def execThermalTrip (tempC : Nat) (s : State) : Host.Outcome State Fault Refusal := .next (thermalTrip tempC s)
def execCrystalSettled (s : State) : Host.Outcome State Fault Refusal := .next (crystalSettled s)
def execColdStart (env : ColdEnv) (s : State) : Host.Outcome State Fault Refusal := .next (coldStart env s)
def execPwrokFall (s : State) : Host.Outcome State Fault Refusal := .next (pwrokFall s)
def execRailEnRestart (s : State) : Host.Outcome State Fault Refusal := .next (railRestart s)
def execSysRst (viaPerst : Bool) (s : State) : Host.Outcome State Fault Refusal := .next (sysRst viaPerst s)
def execHostLinkReset (s : State) : Host.Outcome State Fault Refusal := .next (hostLinkReset s)
def execTapReset (s : State) : Host.Outcome State Fault Refusal := .next (tapReset s)
def execVstbyLoss (s : State) : Host.Outcome State Fault Refusal := .next (vstbyLoss s)
def execStandbyPowerOn (s : State) : Host.Outcome State Fault Refusal := .next (standbyOn s)
def execJtagInstruction (instr : JtagInstr) (s : State) : Host.Outcome State Fault Refusal := .next (jtagInstruction instr s)
def execMapCheckpointLoad (s : State) : Host.Outcome State Fault Refusal := .next (mapLoad s)
def execMapRebuildScan (s : State) : Host.Outcome State Fault Refusal := .next (mapScan s)
def execMapSegmentRebuild (part : Nat) (segment : SegmentScan) (s : State) : Host.Outcome State Fault Refusal :=
  .next (mapSegmentRebuild part segment.segment segment.bad s)
def execRestStoreRebuild (startupMs : RestReads) (s : State) : Host.Outcome State Fault Refusal :=
  .next (restStore startupMs.startupMs startupMs.bad s)

end Sys2Proof.Machine
end

