-- ==== Sys2Proof/Machine/RegWrite.lean ====
section
/-! DEFINITION. REGISTER_WRITE: writes of register fields that have no row of their own (R9, R354 to R356), by block: slots, event queues, prefix,
placement, fabric, scheduler, flash, links, policers, power, mailbox, errors, MSI-X; and the host accesses that wait for the exit from Deep sleep. -/

namespace Sys2Proof.Machine

open Sys2Proof

/-- A 32-bit word written into a 64-bit field at byte 0 or 4 (DEDUCED, assumption log 126). -/
def setWord (old hi v : Nat) : Nat := if hi = 0 then setBits old 0 32 v else setBits old 32 32 v

/-! ### A partition's blocks (R354) -/

/-- An event queue's block (R362), apart from EN, ARM and HEAD. -/
def writeEq (fn q off v : Nat) (s : State) : State :=
  let e := s.eq fn q
  match off with
  | 0x00 => if e.en then s else s.onEq fn q fun e => { e with base := setBits (setWord e.base 0 v) 0 12 0 }
  | 0x04 => if e.en then s else s.onEq fn q fun e => { e with base := setWord e.base 4 v }
  | 0x08 => if bit v 31 = e.en then signalIfDue (s.onEq fn q (eqFields fn v)) fn q else s
  | 0x0C => s.onEq fn q fun e => { e with coalUs := bits v 0 16, autoArm := bit v 17 }
  | 0x18 => s.onEq fn q fun e => { e with headErr := e.headErr && !bit v 16, ovfFull := e.ovfFull && !bit v 17 }
  | _ => s

/-- The placement block. -/
def writePlacement (p off v : Nat) (s : State) : State :=
  s.onPart p fun x => x.onRegs fun r =>
    match off with
    | 0x00 => { r with halfLife := bits v 0 8, parkHalfLife := bits v 8 8, demoteHeat := bits v 16 16 }
    | 0x04 => { r with restoreLead := bits v 0 8, hold := bits v 8 8, specEn := bit v 16, prefetchDepth := bits v 17 2 }
    | 0x08 => { r with low := bits v 0 16, high := bits v 16 16 }
    | _ => r

/-- Bits of LNK_P_QPC_PEER and _MIRROR that can be written. -/
def peerField (n : Nat) : Nat := bits n 0 15 + bits n 16 4 * 2 ^ 16 + bits n 24 24 * 2 ^ 24

def allReset (x : Part) : Bool := x.qps.all fun q => q.2.state = .reset

/-- The fabric block. -/
def writeFabricBlock (p off v : Nat) (s : State) : State :=
  let x := s.part p
  s.onPart p fun y => y.onRegs fun r =>
    match off with
    | 0x00 => if r.qptSize ≠ 0 then r else { r with qptBase := setBits (setWord r.qptBase 0 v) 0 16 0 }
    | 0x04 => if r.qptSize ≠ 0 then r else { r with qptBase := setWord r.qptBase 4 v }
    | 0x08 => if allReset x then { r with qptSize := bits v 0 17 } else r
    | 0x10 => { r with qpcPeer := peerField (setWord r.qpcPeer 0 v) }
    | 0x14 => { r with qpcPeer := peerField (setWord r.qpcPeer 4 v) }
    | 0x18 => { r with qpcMirror := peerField (setWord r.qpcMirror 0 v) }
    | 0x1C => { r with qpcMirror := peerField (setWord r.qpcMirror 4 v) }
    | 0x20 => { r with qpcAttr := bits v 0 7 + bits v 8 4 * 2 ^ 8 + bits v 16 16 * 2 ^ 16 }
    | 0x24 => { r with qpcIndex := bits v 0 16 }
    | _ => r

/-- An entry of the MSI-X table (R352, R368); a clear mask bit belongs to MSIX_UNMASK (DEDUCED, assumption log 127). -/
def writeVector (fn off v : Nat) (s : State) : State :=
  let n := off / 16
  let x := vector s fn n
  if (if fn < 16 then 16 else 1) ≤ n then s
  else
    match off % 16 with
    | 0x00 => setVector s fn n { x with addr := setBits (setWord x.addr 0 v) 0 2 0 }
    | 0x04 => setVector s fn n { x with addr := setWord x.addr 4 v }
    | 0x08 => setVector s fn n { x with data := v % 2 ^ 32 }
    | _ => if bit v 0 then setVector s fn n { x with masked := true } else s

/-- One 32-bit write in BAR0 of a virtual function. -/
def writeVf (p off v : Nat) (s : State) : State :=
  if !s.reaches p then s
  else if 0x10000 ≤ off && off < 0x10800 then
    (if off % 32 = 0x1C then s.onSlot p ((off - 0x10000) / 32) fun y => { y with snare := bit v 0 } else s)
  else if 0x11000 ≤ off && off < 0x11200 then writeEq p ((off - 0x11000) / 32) (off % 32) v s
  else if off = 0x12000 then s.onPart p fun x => x.onRegs fun r => { r with maxAge := bits v 0 8 }
  else if 0x13000 ≤ off && off < 0x13060 then writePlacement p (off - 0x13000) v s
  else if 0x15000 ≤ off && off < 0x15060 then writeFabricBlock p (off - 0x15000) v s
  else s

/-! ### Chip-wide blocks (R355) -/

/-- HUB_SCHED_CFG and HUB_SCHED_WAIT (R254). -/
def writeSched (off v : Nat) (s : State) : State :=
  let free := s.livePartitions = []
  s.onSched fun d =>
    match off with
    | 0x00 => { d with classMode := if free then bit v 0 else d.classMode, beMin := bits v 8 8, snareTiles := bits v 16 8 }
    | 0x04 => { d with evictWait := bits v 0 16, yieldWait := bits v 16 16 }
    | _ => d

/-- The latest gap takes a new length. -/
def lastGap (len : Nat) (l : List (Nat × Nat)) : List (Nat × Nat) :=
  match l.getLast? with
  | some g => l.dropLast ++ [(g.1, len)]
  | none => l

/-- The flash block of PF0 (R281, R293, R298). -/
def writeFlash (off v : Nat) (s : State) : State :=
  let held := s.parts.any fun p => p.2.flash.hostSegs ≠ []
  s.onFlash fun f =>
    match off with
    | 0x00 => { f with patrolEn := bit v 1, patrolDays := bits v 8 5 }
    | 0x08 => if f.mapHostSegs ≠ 0 then f else { f with mapHostBase := setBits (setWord f.mapHostBase 0 v) 0 16 0 }
    | 0x0C => if f.mapHostSegs ≠ 0 then f else { f with mapHostBase := setWord f.mapHostBase 4 v }
    | 0x10 => if held then f else { f with mapHostSegs := v % 2 ^ 32 }
    | 0x14 =>
      let len := bits v 0 16 * 86400
      if f.secure.logGaps = [] then { f with offGap := bits v 0 16 }
      else { f with offGap := bits v 0 16, gaps := lastGap len f.gaps, secure := { f.secure with logGaps := lastGap len f.secure.logGaps } }
    | _ => f

/-- A bucket pair with new rates, or with new bursts. -/
def setRate (v : Nat) (x : Policer) : Policer := { x with cir := bits v 0 16, pir := bits v 16 16 }
def setBurst (v : Nat) (x : Policer) : Policer :=
  { x with
    cbs := bits v 0 15, pbs := bits v 16 15, aware := bit v 31
    tc := Nat.min x.tc (burst (bits v 0 15)), tp := Nat.min x.tp (burst (bits v 16 15)) }

def writePolicer (egress : Bool) (off v : Nat) (s : State) : State :=
  let g := if off % 8 = 0 then setRate v else setBurst v
  s.onPart (off / 8) fun x => if egress then { x with egress := g x.egress } else { x with ingress := g x.ingress }

/-- The link block (R311, R321, R330). -/
def writeLink (off v : Nat) (s : State) : State :=
  let fixed := s.fabric.join || s.parts.any fun p => !allReset p.2
  if 0x40 ≤ off && off < 0xC0 then writePolicer true (off - 0x40) v s
  else
    s.onFabric fun f =>
      match off with
      | 0x00 => if fixed then f else { f with position := bits v 0 5, ring := bits v 5 9, hall := bits v 14 1, ringSlots := bits v 16 6 }
      | 0x08 => { f with etype := bits v 0 16, vid := bits v 16 12 }
      | 0x0C => { f with pfcPri := bits v 0 8 }
      | 0x10 => { f with macBase := setWord f.macBase 0 v }
      | 0x14 => { f with macBase := setWord f.macBase 4 (bits v 0 16) }
      | 0x18 => { f with ackRing := bits v 0 8, ackHall := bits v 8 8, retryMax := bits v 16 4 }
      | 0x1C => { f with qBe := bits v 0 10, qBulk := bits v 10 10, qCtl := bits v 20 10 }
      | _ => f

/-- The PWR_ registers (R438). -/
def writePower (off v : Nat) (s : State) : State :=
  s.onPower fun w =>
    match off with
    | 0x00 => { w with autoDeep := bit v 8 }
    | 0x04 => { w with sleepHold := bits v 0 16, deepHold := bits v 16 16 }
    | 0x0C => { w with wake := w.wake - (w.wake &&& bits v 0 5) }
    | 0x10 => { w with alarmAt := v % 2 ^ 32 }
    | 0x14 => { w with freqReq := bits v 0 5 }
    | 0x1C => { w with limit := bits v 0 10 }
    | 0x24 => { w with tEmerg := bits v 0 8 }
    | _ => w

/-- The mailbox (R383). GO with an OP that names no request ends at once (DEDUCED, assumption log 128). -/
def writeMailbox (off v : Nat) (s : State) : State :=
  if s.oxs.go then s
  else
    s.onOxs fun o =>
      match off with
      | 0x00 => { o with reqAddr := setBits (setWord o.reqAddr 0 v) 0 12 0 }
      | 0x04 => { o with reqAddr := setWord o.reqAddr 4 v }
      | 0x08 => { o with rspAddr := setBits (setWord o.rspAddr 0 v) 0 12 0 }
      | 0x0C => { o with rspAddr := setWord o.rspAddr 4 v }
      | 0x10 =>
        let op := bits v 0 8
        if bit v 8 && (op = 0 || 9 < op) then { o with op := op, result := Oxs.badRequest } else { o with op := op }
      | _ => o

/-- The error registers (R448). -/
def writeErrors (off v : Nat) (s : State) : State :=
  s.onHealth fun h =>
    match off with
    | 0x00 => { h with fatalPrev := h.fatalPrev && !bit v 0 }
    | 0x04 =>
      let n := bits v 0 12
      if (n + Config.errLogRecords - h.head) % Config.errLogRecords ≤ h.unread then { h with head := n } else h
    | _ => h

/-- One 32-bit write in BAR0 of PF0. -/
def writePf0 (off v : Nat) (s : State) : State :=
  if !s.reaches 16 then s
  else if 0x10000 ≤ off && off < 0x10040 then writeSched (off - 0x10000) v s
  else if 0x20000 ≤ off && off < 0x20028 then writeFlash (off - 0x20000) v s
  else if 0x30000 ≤ off && off < 0x300C0 then writeLink (off - 0x30000) v s
  else if 0x40000 ≤ off && off < 0x40080 then writePolicer false (off - 0x40000) v s
  else if 0x50000 ≤ off && off < 0x50020 then writeEq 16 0 (off - 0x50000) v s
  else if 0x80000 ≤ off && off < 0x80030 then writePower (off - 0x80000) v s
  else if 0xA0000 ≤ off && off < 0xA0014 then writeMailbox (off - 0xA0000) v s
  else if 0xC0000 ≤ off && off < 0xC0014 then writeErrors (off - 0xC0000) v s
  else if 0x2000000 ≤ off && off < 0x2000010 then writeVector 16 (off - 0x2000000) v s
  else s

/-- The MSI-X table of a VF is its configuration, whether its partition exists or not (DEDUCED, assumption log 127). -/
def writeWord (fn off v : Nat) (s : State) : State :=
  if fn = 16 then writePf0 off v s
  else if 16 < fn then s
  else if 0x200000 ≤ off && off < 0x200100 then
    (if s.hostUp && s.vfEnable && !(s.func fn).d3 then writeVector fn (off - 0x200000) v s else s)
  else writeVf fn off v s

/-- REGISTER_WRITE: aligned accesses of 32 or 64 bits; any other is ignored (R356) (DEDUCED, assumption log 126)
(DESIGN CHOICE, assumption log 150). -/
def registerWrite (fn off size v : Nat) (s : State) : State :=
  if size = 4 && off % 4 = 0 then writeWord fn off (v % 2 ^ 32) s
  else if size = 8 && off % 8 = 0 then writeWord fn (off + 4) (v / 2 ^ 32 % 2 ^ 32) (writeWord fn off (v % 2 ^ 32) s)
  else s

def execRegisterWrite (fn offset size value : Nat) (s : State) : Host.Outcome State Fault Refusal :=
  .next (s.access (.registerWrite fn offset size value) (registerWrite fn offset size value))

/-! ### Host accesses in Deep sleep (R425, R437) -/

/-- What a host access does where it acts: every register write, doorbell, configuration write and push-window write of the table. -/
def hostAccess (i : Instr) : Option (State → State) :=
  match i with
  | .sqDoorbell part slot offset size value => some (sqDoorbell part slot offset size value)
  | .inlineDoorbell part slot offset data => some (inlineDoorbell part slot offset data)
  | .csqEnable part value => some (csqEnable part value)
  | .csqDisable part value => some (csqDisable part value)
  | .csqRingConfigWrite part isBase value => some (csqRingConfig part isBase value)
  | .eqEnable fn queue value => some (eqEnable fn queue value)
  | .eqDisable fn queue value => some (eqDisable fn queue value)
  | .eqHeadWrite fn queue value => some (eqHeadWrite fn queue value)
  | .eqArm fn queue => some (eqArm fn queue)
  | .msixUnmask fn vector => some (msixUnmask fn vector)
  | .bufferPost part index e => some fun s => setBuffer s part index e true
  | .bufferWithdraw part index e => some fun s => setBuffer s part index e false
  | .pushWindowWrite part offset data => some (pushWrite part offset data)
  | .acctSnapshotLatch fromPf0 part => some (acctSnapshot fromPf0 part)
  | .quiesce vf => some (quiesce vf)
  | .vfFlr vf => some (vfFlr vf)
  | .busMasterDisable vf => some (busMasterDisable vf)
  | .busMasterEnable vf => some (busMasterEnable vf)
  | .d3hotEntry vf => some (d3hotEntry vf)
  | .d0Return vf => some (d0Return vf)
  | .vfEnableClear => some vfEnableClear
  | .vfEnableSet => some vfEnableSet
  | .pf0Flr => some pf0Flr
  | .qpConnect part index => some (qpConnect part index)
  | .qpDisconnect part index => some (qpDisconnect part index)
  | .qpReset part index => some (qpResetCmd part index)
  | .joinSet => some joinSet
  | .joinClear => some joinClear
  | .oxsisCreate .mailbox => some fun s => oxsRequest s 1 .mailbox false none
  | .oxsisDestroy .mailbox => some fun s => oxsRequest s 2 .mailbox false none
  | .attest .mailbox => some fun s => oxsRequest s 3 .mailbox false none
  | .certRead .mailbox => some fun s => oxsRequest s 4 .mailbox false none
  | .consent .mailbox sigOk => some fun s => oxsRequest s 5 .mailbox sigOk none
  | .debugRead .mailbox => some fun s => oxsRequest s 6 .mailbox false none
  | .profileRead .mailbox => some fun s => oxsRequest s 7 .mailbox false none
  | .fwStage .mailbox image => some fun s => oxsRequest s 8 .mailbox false (some image)
  | .fwSvnCommit .mailbox => some fun s => oxsRequest s 8 .mailbox false none
  | .rmaUnlock .mailbox sigOk => some fun s => oxsRequest s 9 .mailbox sigOk none
  | .checkpointWrite => some checkpointWrite
  | .deepSleepRequest => some (askByPf0 .deep)
  | .offRequest => some (askByPf0 .off)
  | .registerWrite fn offset size value => some (registerWrite fn offset size value)
  | _ => none

def applyAccess (s : State) (i : Instr) : State :=
  match hostAccess i with
  | some f => f s
  | none => s

/-- DEEP_SLEEP_EXIT, and after it the requests to Oxsis and the accesses that waited, in order of arrival; a link reset, or a cold start in place of the exit, has ended
them (DEDUCED, assumption log 99). -/
def wakeUp (tagOk copyOk : Bool) (channels : List (Nat × Int × Bool)) (s : State) : State :=
  let t := deepExit tagOk copyOk channels s
  if s.power.chip ≠ .deepSleep || !s.power.waking || !imageGood s tagOk copyOk then t
  else (if s.pins.linkReset then [] else s.power.held).foldl applyAccess (serveHeld (t.onPower fun w => { w with held := [] }))

def execDeepSleepExit (tagOk : Bool) (copyOk : WakeFound) (s : State) : Host.Outcome State Fault Refusal :=
  .next (wakeUp tagOk copyOk.copyOk copyOk.channels s)

end Sys2Proof.Machine
end

