-- ==== Sys2Proof/Machine/Dispatch.lean ====
section
/-! DEFINITION. The dispatcher: one arm per command, each one call of the command's meaning. -/

namespace Sys2Proof.Machine

open Sys2Proof

def exec (i : Instr) (s : State) : Host.Outcome State Fault Refusal :=
  match i with
  | .jobCreate c => Sys2Proof.Machine.execJobCreate c s
  | .jobDestroy c => Sys2Proof.Machine.execJobDestroy c s
  | .jobBind c => Sys2Proof.Machine.execJobBind c s
  | .jobUnbind c => Sys2Proof.Machine.execJobUnbind c s
  | .jobReset c => Sys2Proof.Machine.execJobReset c s
  | .modelRegister c => Sys2Proof.Machine.execModelRegister c s
  | .modelUnregister c => Sys2Proof.Machine.execModelUnregister c s
  | .kernelLoad c => Sys2Proof.Machine.execKernelLoad c s
  | .kernelUnload c => Sys2Proof.Machine.execKernelUnload c s
  | .capRead c => Sys2Proof.Machine.execCapRead c s
  | .seqOpen c => Sys2Proof.Machine.execSeqOpen c s
  | .seqFork c => Sys2Proof.Machine.execSeqFork c s
  | .seqTrim c => Sys2Proof.Machine.execSeqTrim c s
  | .seqClose c => Sys2Proof.Machine.execSeqClose c s
  | .seqPark c => Sys2Proof.Machine.execSeqPark c s
  | .seqResume c => Sys2Proof.Machine.execSeqResume c s
  | .seqHint c => Sys2Proof.Machine.execSeqHint c s
  | .specCancel c => Sys2Proof.Machine.execSpecCancel c s
  | .seqQuery c => Sys2Proof.Machine.execSeqQuery c s
  | .kvRead c => Sys2Proof.Machine.execKvRead c s
  | .prefixProbe c => Sys2Proof.Machine.execPrefixProbe c s
  | .prefixPublish c => Sys2Proof.Machine.execPrefixPublish c s
  | .prefixRetain c => Sys2Proof.Machine.execPrefixRetain c s
  | .prefixEvictModel c => Sys2Proof.Machine.execPrefixEvictModel c s
  | .prefixEvictSequence c => Sys2Proof.Machine.execPrefixEvictSequence c s
  | .hostRegionAdd c => Sys2Proof.Machine.execHostRegionAdd c s
  | .hostRegionRemove c => Sys2Proof.Machine.execHostRegionRemove c s
  | .seqMigrate c => Sys2Proof.Machine.execSeqMigrate c s
  | .append c => Sys2Proof.Machine.execAppend c s
  | .attend c => Sys2Proof.Machine.execAttend c s
  | .extend c => Sys2Proof.Machine.execExtend c s
  | .kernelRun c => Sys2Proof.Machine.execKernelRun c s
  | .nop c => Sys2Proof.Machine.execNop c s
  | .fence c => Sys2Proof.Machine.execFence c s
  | .wait c => Sys2Proof.Machine.execWait c s
  | .signal c => Sys2Proof.Machine.execSignal c s
  | .acctRead c => Sys2Proof.Machine.execAcctRead c s
  | .eventPost c => Sys2Proof.Machine.execEventPost c s
  | .digestComplete core => Sys2Proof.Machine.execDigestComplete core s
  | .commandFetch part slot count defer => Sys2Proof.Machine.execCommandFetch part slot count defer s
  | .commitRequest c => Sys2Proof.Machine.execCommitRequest c s
  | .heldCommitRelease c => Sys2Proof.Machine.execHeldCommitRelease c s
  | .unitPlacement quad => Sys2Proof.Machine.execUnitPlacement quad s
  | .gangPlacement quad => Sys2Proof.Machine.execGangPlacement quad s
  | .unitStart tile => Sys2Proof.Machine.execUnitStart tile s
  | .unitEnd tile hc dt => Sys2Proof.Machine.execUnitEnd tile hc dt s
  | .attendElementRelease c elem => Sys2Proof.Machine.execAttendElementRelease c elem s
  | .mergeSpaceWaitEnd c elem => Sys2Proof.Machine.execMergeSpaceWaitEnd c elem s
  | .unitYield tile hc => Sys2Proof.Machine.execUnitYield tile hc s
  | .yieldedUnitReady unit => Sys2Proof.Machine.execYieldedUnitReady unit s
  | .unitEvict unit => Sys2Proof.Machine.execUnitEvict unit s
  | .virtualTimeUpdate => Sys2Proof.Machine.execVirtualTimeUpdate s
  | .tileUncorrectableError tile => Sys2Proof.Machine.execTileUncorrectableError tile s
  | .jobTeardownComplete part job => Sys2Proof.Machine.execJobTeardownComplete part job s
  | .add unit => Sys2Proof.Machine.execAdd unit s
  | .sub unit => Sys2Proof.Machine.execSub unit s
  | .mul unit => Sys2Proof.Machine.execMul unit s
  | .and unit => Sys2Proof.Machine.execAnd unit s
  | .or unit => Sys2Proof.Machine.execOr unit s
  | .xor unit => Sys2Proof.Machine.execXor unit s
  | .shl unit => Sys2Proof.Machine.execShl unit s
  | .shr unit => Sys2Proof.Machine.execShr unit s
  | .sra unit => Sys2Proof.Machine.execSra unit s
  | .slt unit => Sys2Proof.Machine.execSlt unit s
  | .sltu unit => Sys2Proof.Machine.execSltu unit s
  | .min unit => Sys2Proof.Machine.execMin unit s
  | .max unit => Sys2Proof.Machine.execMax unit s
  | .mov unit => Sys2Proof.Machine.execMov unit s
  | .fadd unit => Sys2Proof.Machine.execFadd unit s
  | .fsub unit => Sys2Proof.Machine.execFsub unit s
  | .fmul unit => Sys2Proof.Machine.execFmul unit s
  | .fmin unit => Sys2Proof.Machine.execFmin unit s
  | .fmax unit => Sys2Proof.Machine.execFmax unit s
  | .flt unit => Sys2Proof.Machine.execFlt unit s
  | .itof unit => Sys2Proof.Machine.execItof unit s
  | .ftoi unit => Sys2Proof.Machine.execFtoi unit s
  | .addi unit => Sys2Proof.Machine.execAddi unit s
  | .andi unit => Sys2Proof.Machine.execAndi unit s
  | .ori unit => Sys2Proof.Machine.execOri unit s
  | .lui unit => Sys2Proof.Machine.execLui unit s
  | .slti unit => Sys2Proof.Machine.execSlti unit s
  | .vadd unit => Sys2Proof.Machine.execVadd unit s
  | .vsub unit => Sys2Proof.Machine.execVsub unit s
  | .vmul unit => Sys2Proof.Machine.execVmul unit s
  | .vfma unit => Sys2Proof.Machine.execVfma unit s
  | .vmin unit => Sys2Proof.Machine.execVmin unit s
  | .vmax unit => Sys2Proof.Machine.execVmax unit s
  | .vabs unit => Sys2Proof.Machine.execVabs unit s
  | .vneg unit => Sys2Proof.Machine.execVneg unit s
  | .vmov unit => Sys2Proof.Machine.execVmov unit s
  | .vexp unit => Sys2Proof.Machine.execVexp unit s
  | .vrecip unit => Sys2Proof.Machine.execVrecip unit s
  | .vlog unit => Sys2Proof.Machine.execVlog unit s
  | .vitof unit => Sys2Proof.Machine.execVitof unit s
  | .vftoi unit => Sys2Proof.Machine.execVftoi unit s
  | .vidx unit => Sys2Proof.Machine.execVidx unit s
  | .vbcast unit => Sys2Proof.Machine.execVbcast unit s
  | .vlt unit => Sys2Proof.Machine.execVlt unit s
  | .vle unit => Sys2Proof.Machine.execVle unit s
  | .veq unit => Sys2Proof.Machine.execVeq unit s
  | .vne unit => Sys2Proof.Machine.execVne unit s
  | .vsum unit => Sys2Proof.Machine.execVsum unit s
  | .vmaxr unit => Sys2Proof.Machine.execVmaxr unit s
  | .vminr unit => Sys2Proof.Machine.execVminr unit s
  | .pand unit => Sys2Proof.Machine.execPand unit s
  | .por unit => Sys2Proof.Machine.execPor unit s
  | .pxor unit => Sys2Proof.Machine.execPxor unit s
  | .pandn unit => Sys2Proof.Machine.execPandn unit s
  | .pnot unit => Sys2Proof.Machine.execPnot unit s
  | .pset unit => Sys2Proof.Machine.execPset unit s
  | .pclr unit => Sys2Proof.Machine.execPclr unit s
  | .pcnt unit => Sys2Proof.Machine.execPcnt unit s
  | .pfroms unit => Sys2Proof.Machine.execPfroms unit s
  | .ptos unit => Sys2Proof.Machine.execPtos unit s
  | .ld unit => Sys2Proof.Machine.execLd unit s
  | .st unit => Sys2Proof.Machine.execSt unit s
  | .vld unit => Sys2Proof.Machine.execVld unit s
  | .vst unit => Sys2Proof.Machine.execVst unit s
  | .mma unit => Sys2Proof.Machine.execMma unit s
  | .br unit => Sys2Proof.Machine.execBr unit s
  | .bz unit => Sys2Proof.Machine.execBz unit s
  | .bnz unit => Sys2Proof.Machine.execBnz unit s
  | .bany unit => Sys2Proof.Machine.execBany unit s
  | .bnone unit => Sys2Proof.Machine.execBnone unit s
  | .ret unit => Sys2Proof.Machine.execRet unit s
  | .trap unit => Sys2Proof.Machine.execTrap unit s
  | .sqDoorbell part slot offset size value => Sys2Proof.Machine.execSqDoorbell part slot offset size value s
  | .inlineDoorbell part slot offset data => Sys2Proof.Machine.execInlineDoorbell part slot offset data s
  | .csqEnable part value => Sys2Proof.Machine.execCsqEnable part value s
  | .csqDisable part value => Sys2Proof.Machine.execCsqDisable part value s
  | .csqRingConfigWrite part isBase value => Sys2Proof.Machine.execCsqRingConfigWrite part isBase value s
  | .eqEnable fn queue value => Sys2Proof.Machine.execEqEnable fn queue value s
  | .eqDisable fn queue value => Sys2Proof.Machine.execEqDisable fn queue value s
  | .eqHeadWrite fn queue value => Sys2Proof.Machine.execEqHeadWrite fn queue value s
  | .eqArm fn queue => Sys2Proof.Machine.execEqArm fn queue s
  | .coalesceTimerExpiry fn queue => Sys2Proof.Machine.execCoalesceTimerExpiry fn queue s
  | .msixUnmask fn vector => Sys2Proof.Machine.execMsixUnmask fn vector s
  | .bufferPost part index e => Sys2Proof.Machine.execBufferPost part index e s
  | .bufferWithdraw part index e => Sys2Proof.Machine.execBufferWithdraw part index e s
  | .pushWindowWrite part offset data => Sys2Proof.Machine.execPushWindowWrite part offset data s
  | .acctSnapshotLatch fromPf0 part => Sys2Proof.Machine.execAcctSnapshotLatch fromPf0 part s
  | .quiesce vf => Sys2Proof.Machine.execQuiesce vf s
  | .vfFlr vf => Sys2Proof.Machine.execVfFlr vf s
  | .busMasterDisable vf => Sys2Proof.Machine.execBusMasterDisable vf s
  | .busMasterEnable vf => Sys2Proof.Machine.execBusMasterEnable vf s
  | .vfEnableClear => Sys2Proof.Machine.execVfEnableClear s
  | .vfEnableSet => Sys2Proof.Machine.execVfEnableSet s
  | .d3hotEntry vf => Sys2Proof.Machine.execD3hotEntry vf s
  | .d0Return vf => Sys2Proof.Machine.execD0Return vf s
  | .pf0Flr => Sys2Proof.Machine.execPf0Flr s
  | .disableDrainEnd vf drainUs => Sys2Proof.Machine.execDisableDrainEnd vf drainUs s
  | .hostReadCompletion id result => Sys2Proof.Machine.execHostReadCompletion id result s
  | .completionTimeout id => Sys2Proof.Machine.execCompletionTimeout id s
  | .ingressPolicerRelease part id elapsedNs => Sys2Proof.Machine.execIngressPolicerRelease part id elapsedNs s
  | .registerWrite fn offset size value => Sys2Proof.Machine.execRegisterWrite fn offset size value s
  | .oxsisCreate via => Sys2Proof.Machine.execOxsisCreate via s
  | .oxsisDestroy via => Sys2Proof.Machine.execOxsisDestroy via s
  | .attest via => Sys2Proof.Machine.execAttest via s
  | .certRead via => Sys2Proof.Machine.execCertRead via s
  | .consent via sigOk => Sys2Proof.Machine.execConsent via sigOk s
  | .debugRead via => Sys2Proof.Machine.execDebugRead via s
  | .profileRead via => Sys2Proof.Machine.execProfileRead via s
  | .fwStage via image => Sys2Proof.Machine.execFwStage via image s
  | .fwSvnCommit via => Sys2Proof.Machine.execFwSvnCommit via s
  | .rmaUnlock via sigOk => Sys2Proof.Machine.execRmaUnlock via sigOk s
  | .signatureRateRelease => Sys2Proof.Machine.execSignatureRateRelease s
  | .consentExpiry part => Sys2Proof.Machine.execConsentExpiry part s
  | .scrubResourceDone isFlash index => Sys2Proof.Machine.execScrubResourceDone isFlash index s
  | .stagingFlush part psn layer => Sys2Proof.Machine.execStagingFlush part psn layer s
  | .locationChangeCommit part move => Sys2Proof.Machine.execLocationChangeCommit part move s
  | .supersededCopyRelease part psn => Sys2Proof.Machine.execSupersededCopyRelease part psn s
  | .pageMove part move => Sys2Proof.Machine.execPageMove part move s
  | .parkingMoveStart part seq => Sys2Proof.Machine.execParkingMoveStart part seq s
  | .coolingMoveStart part => Sys2Proof.Machine.execCoolingMoveStart part s
  | .parkingRetry part seq => Sys2Proof.Machine.execParkingRetry part seq s
  | .parkToRest part seq => Sys2Proof.Machine.execParkToRest part seq s
  | .descriptorSegmentMove part segment => Sys2Proof.Machine.execDescriptorSegmentMove part segment s
  | .allocationResume c => Sys2Proof.Machine.execAllocationResume c s
  | .hotEntryResume c => Sys2Proof.Machine.execHotEntryResume c s
  | .moveBufferResume part move => Sys2Proof.Machine.execMoveBufferResume part move s
  | .specRestoreStart part seq => Sys2Proof.Machine.execSpecRestoreStart part seq s
  | .specRestoreResume part seq => Sys2Proof.Machine.execSpecRestoreResume part seq s
  | .holdEndExpiry part seq => Sys2Proof.Machine.execHoldEndExpiry part seq s
  | .prefetchCopyExpiry part psn layer => Sys2Proof.Machine.execPrefetchCopyExpiry part psn layer s
  | .directorySweep => Sys2Proof.Machine.execDirectorySweep s
  | .descriptorDirSweep part => Sys2Proof.Machine.execDescriptorDirSweep part s
  | .flashProgramComplete place pass => Sys2Proof.Machine.execFlashProgramComplete place pass s
  | .flashReadComplete id result => Sys2Proof.Machine.execFlashReadComplete id result s
  | .flashEraseComplete block pass => Sys2Proof.Machine.execFlashEraseComplete block pass s
  | .collectionStart channel => Sys2Proof.Machine.execCollectionStart channel s
  | .collectionIdleTimer channel => Sys2Proof.Machine.execCollectionIdleTimer channel s
  | .staticWearLevel channel => Sys2Proof.Machine.execStaticWearLevel channel s
  | .retentionLimitRefresh place => Sys2Proof.Machine.execRetentionLimitRefresh place s
  | .patrolRead place result => Sys2Proof.Machine.execPatrolRead place result s
  | .discardRecordProgram part => Sys2Proof.Machine.execDiscardRecordProgram part s
  | .dieReadyTimeout channel die => Sys2Proof.Machine.execDieReadyTimeout channel die s
  | .flashTempRetrain channel tempC trained => Sys2Proof.Machine.execFlashTempRetrain channel tempC trained s
  | .checkpointWrite => Sys2Proof.Machine.execCheckpointWrite s
  | .mapSegmentFetch part segment result => Sys2Proof.Machine.execMapSegmentFetch part segment result s
  | .mapSegmentRebuild part segment => Sys2Proof.Machine.execMapSegmentRebuild part segment s
  | .mapCheckpointLoad => Sys2Proof.Machine.execMapCheckpointLoad s
  | .mapRebuildScan => Sys2Proof.Machine.execMapRebuildScan s
  | .restStoreRebuild startupMs => Sys2Proof.Machine.execRestStoreRebuild startupMs s
  | .write pk => Sys2Proof.Machine.execWrite pk s
  | .send pk => Sys2Proof.Machine.execSend pk s
  | .rdreq pk => Sys2Proof.Machine.execRdreq pk s
  | .rdresp pk => Sys2Proof.Machine.execRdresp pk s
  | .ack pk => Sys2Proof.Machine.execAck pk s
  | .nak pk => Sys2Proof.Machine.execNak pk s
  | .credit pk => Sys2Proof.Machine.execCredit pk s
  | .connect pk => Sys2Proof.Machine.execConnect pk s
  | .disconnect pk => Sys2Proof.Machine.execDisconnect pk s
  | .packetLanding part qp seq => Sys2Proof.Machine.execPacketLanding part qp seq s
  | .qpContextFetchComplete part qp result => Sys2Proof.Machine.execQpContextFetchComplete part qp result s
  | .prpPacketSend part qp => Sys2Proof.Machine.execPrpPacketSend part qp s
  | .egressPolicerRelease part qp elapsedNs => Sys2Proof.Machine.execEgressPolicerRelease part qp elapsedNs s
  | .ackTimer part qp => Sys2Proof.Machine.execAckTimer part qp s
  | .retransmitTimeout part qp seq => Sys2Proof.Machine.execRetransmitTimeout part qp seq s
  | .connectRetry part qp => Sys2Proof.Machine.execConnectRetry part qp s
  | .qpConnect part index => Sys2Proof.Machine.execQpConnect part index s
  | .qpDisconnect part index => Sys2Proof.Machine.execQpDisconnect part index s
  | .qpReset part index => Sys2Proof.Machine.execQpReset part index s
  | .replayRequest port lack => Sys2Proof.Machine.execReplayRequest port lack s
  | .creditOnlyFrame port vc credits lack => Sys2Proof.Machine.execCreditOnlyFrame port vc credits lack s
  | .pfcFrame uplink pauseMask => Sys2Proof.Machine.execPfcFrame uplink pauseMask s
  | .joinSet => Sys2Proof.Machine.execJoinSet s
  | .joinClear => Sys2Proof.Machine.execJoinClear s
  | .linkTrained port live => Sys2Proof.Machine.execLinkTrained port live s
  | .linkLost port live => Sys2Proof.Machine.execLinkLost port live s
  | .quadrantIdleEntry quad => Sys2Proof.Machine.execQuadrantIdleEntry quad s
  | .quadrantSleepEntry quad => Sys2Proof.Machine.execQuadrantSleepEntry quad s
  | .quadrantWakeComplete quad => Sys2Proof.Machine.execQuadrantWakeComplete quad s
  | .selfRefreshReturn quad => Sys2Proof.Machine.execSelfRefreshReturn quad s
  | .deepSleepRequest => Sys2Proof.Machine.execDeepSleepRequest s
  | .offRequest => Sys2Proof.Machine.execOffRequest s
  | .autoDeepSleep => Sys2Proof.Machine.execAutoDeepSleep s
  | .handshakeAnswer block answer => Sys2Proof.Machine.execHandshakeAnswer block answer s
  | .deferLimitExpiry block => Sys2Proof.Machine.execDeferLimitExpiry block s
  | .deepSleepExit tagOk copyOk => Sys2Proof.Machine.execDeepSleepExit tagOk copyOk s
  | .wakeNLow => Sys2Proof.Machine.execWakeNLow s
  | .smbusAddressMatch address => Sys2Proof.Machine.execSmbusAddressMatch address s
  | .mctpMessage body => Sys2Proof.Machine.execMctpMessage body s
  | .clkreqAssert => Sys2Proof.Machine.execClkreqAssert s
  | .wakeAlarm => Sys2Proof.Machine.execWakeAlarm s
  | .governorTick packageDw tilesDw => Sys2Proof.Machine.execGovernorTick packageDw tilesDw s
  | .governorCorrection packageDw tilesDw => Sys2Proof.Machine.execGovernorCorrection packageDw tilesDw s
  | .capRaise => Sys2Proof.Machine.execCapRaise s
  | .dvfsPointChange quad => Sys2Proof.Machine.execDvfsPointChange quad s
  | .voltageRaiseDone quad millivolts => Sys2Proof.Machine.execVoltageRaiseDone quad millivolts s
  | .voltageMonitorDrop quad millivolts => Sys2Proof.Machine.execVoltageMonitorDrop quad millivolts s
  | .regulatorFault quad => Sys2Proof.Machine.execRegulatorFault quad s
  | .thermalEmergencyStart tempC => Sys2Proof.Machine.execThermalEmergencyStart tempC s
  | .thermalEmergencyEnd tempC => Sys2Proof.Machine.execThermalEmergencyEnd tempC s
  | .dutyCycleStep => Sys2Proof.Machine.execDutyCycleStep s
  | .thermalTrip tempC => Sys2Proof.Machine.execThermalTrip tempC s
  | .accountingWindowEnd => Sys2Proof.Machine.execAccountingWindowEnd s
  | .dramPatrol errors => Sys2Proof.Machine.execDramPatrol errors s
  | .rowRepairComplete channel row => Sys2Proof.Machine.execRowRepairComplete channel row s
  | .hotEntryShadowRestore part seq shadowOk => Sys2Proof.Machine.execHotEntryShadowRestore part seq shadowOk s
  | .directoryEntryInvalidate part entry => Sys2Proof.Machine.execDirectoryEntryInvalidate part entry s
  | .chipRestart => Sys2Proof.Machine.execChipRestart s
  | .ageingMeasure die driftBp => Sys2Proof.Machine.execAgeingMeasure die driftBp s
  | .lifeDailyRecord => Sys2Proof.Machine.execLifeDailyRecord s
  | .crystalSettled => Sys2Proof.Machine.execCrystalSettled s
  | .coldStart env => Sys2Proof.Machine.execColdStart env s
  | .pwrokFall => Sys2Proof.Machine.execPwrokFall s
  | .railEnRestart => Sys2Proof.Machine.execRailEnRestart s
  | .sysRst viaPerst => Sys2Proof.Machine.execSysRst viaPerst s
  | .hostLinkReset => Sys2Proof.Machine.execHostLinkReset s
  | .tapReset => Sys2Proof.Machine.execTapReset s
  | .waitTimeout c => Sys2Proof.Machine.execWaitTimeout c s
  | .linkFrameError port => Sys2Proof.Machine.execLinkFrameError port s
  | .ringTransitForward port vc pk => Sys2Proof.Machine.execRingTransitForward port vc pk s
  | .prpFrameDiscard reason part => Sys2Proof.Machine.execPrpFrameDiscard reason part s
  | .pciePostedCreditReturn credits => Sys2Proof.Machine.execPciePostedCreditReturn credits s
  | .vstbyLoss => Sys2Proof.Machine.execVstbyLoss s
  | .standbyPowerOn => Sys2Proof.Machine.execStandbyPowerOn s
  | .tileCorrectedError tile => Sys2Proof.Machine.execTileCorrectedError tile s
  | .jtagInstruction instr => Sys2Proof.Machine.execJtagInstruction instr s

end Sys2Proof.Machine
end

