-- ==== Sys2Proof/Machine/Step.lean ====
section
/-! DEFINITION. One step of the block: the command at the front of the queue runs on the state with the queue's rest. On an empty
queue the block idles but for the always-on seconds counter (DESIGN CHOICE, assumption log 1). -/

namespace Sys2Proof.Machine

open Sys2Proof

/-- One step (DESIGN CHOICE, assumption log 1) (DESIGN CHOICE, assumption log 23). -/
def step (s : State) : Host.Outcome State Fault Refusal :=
  match s.pending with
  | [] => .next (idleTick s)
  | c :: rest => exec c { s with pending := rest }

/-- The command that a word spells put at the front of the queue; the opcode table gives no row any bits, so no word spells one
(DESIGN CHOICE, assumption log 23; DEDUCED, assumption log 24). -/
def State.withFetchWord (s : State) (nbits w : Nat) : State :=
  match decodeTableWord nbits w with
  | none => s
  | some c => { s with pending := c :: s.pending }

end Sys2Proof.Machine
end

