-- ==== Sys2Proof/WellFormed.lean ====
section
/-! DEFINITION. The checks of a command as syntax: each operand lies within the width that the spec gives what it names. A command that
fails them spells nothing the interface can carry. -/

namespace Sys2Proof

/-- R36, R40: 16 partitions, 64 slots, ring indexes of 16 bits. -/
def CmdRef.wf (c : CmdRef) : Bool := c.part < 16 && c.slot < 64 && c.index < 2 ^ 16

/-- R295: the retry options are the 16 bits of the profile's table. -/
def FlashReadResult.wf : FlashReadResult → Bool
  | .decoded => true
  | .retried n _ => n < 16
  | .uncorrectable => true

/-- R271, R280: 32 channels, at most 16 dies of a channel, 16 bits for the block, 12 for the page. -/
def Place.wf (p : Place) : Bool := p.channel < 32 && p.die < 16 && p.block < 2 ^ 16 && p.page < 2 ^ 12

def BlockId.wf (b : BlockId) : Bool := b.channel < 32 && b.die < 16 && b.block < 2 ^ 16

/-- R333. -/
def BufFields.wf (e : BufFields) : Bool :=
  e.addr < 2 ^ 64 && e.length < 2 ^ 32 && e.kind < 256 && e.sync < 256 && e.eq < 256 && e.qp < 2 ^ 24 && e.btag < 2 ^ 64

/-- R318: the widths of the header's fields, and at most 4,096 payload bytes. -/
def Packet.wf (k : Packet) : Bool :=
  k.op < 32 && k.tc < 4 && k.dst < 2 ^ 15 && k.src < 2 ^ 15 && k.dstPart < 16 && k.srcPart < 16 && k.rail < 2 && k.dqp < 2 ^ 24 && k.epoch < 256 &&
    k.seq < 2 ^ 24 && k.ackSeq < 2 ^ 24 && k.ackCode < 256 && k.credit < 2 ^ 32 && k.unitRec < 2 ^ 16 && k.unitGen < 256 && k.group < 2 ^ 16 &&
    k.buf < 2 ^ 64 && k.offset < 2 ^ 32 && k.aux < 2 ^ 32 && k.payload.length ≤ 4096

/-- R386: the fields of an image entry. -/
def FwImage.wf (i : FwImage) : Bool :=
  i.id < 256 && i.svn < 2 ^ 32 && i.offset < 2 ^ 32 && i.bytes < 2 ^ 32 && i.version < 2 ^ 64 && i.digest.length = 32

def FwSlot.wf (f : FwSlot) : Bool := f.seq < 2 ^ 32 && f.images.all FwImage.wf

/-- R441: 640 DRAM channels. -/
def DramError.wf (e : DramError) : Bool := e.channel < 640

/-- R467: the channels found are among the 32, and each of the four quadrants has a tile regulator. -/
def ColdEnv.wf (e : ColdEnv) : Bool := e.channels.all (fun c => c.1 < 32 && c.2.dies ≤ 16) && e.regulatorsOk.length = 4 && e.badHeaders.all Place.wf

/-- The operands of a command are within their widths. -/
def Instr.wf : Instr → Bool
  | .jobCreate c | .jobDestroy c | .jobBind c | .jobUnbind c | .jobReset c | .modelRegister c | .modelUnregister c | .kernelLoad c
  | .kernelUnload c | .capRead c | .seqOpen c | .seqFork c | .seqTrim c | .seqClose c | .seqPark c | .seqResume c | .seqHint c | .specCancel c
  | .seqQuery c | .kvRead c | .prefixProbe c | .prefixPublish c | .prefixRetain c | .prefixEvictModel c | .prefixEvictSequence c | .hostRegionAdd c
  | .hostRegionRemove c | .seqMigrate c | .append c | .attend c | .extend c | .kernelRun c | .nop c | .fence c | .wait c | .signal c | .acctRead c
  | .eventPost c | .allocationResume c | .hotEntryResume c =>
    c.ref.wf
  | .digestComplete core => core < 8
  | .commandFetch part slot _ _ => part < 16 && slot < 64
  | .commitRequest c | .heldCommitRelease c | .waitTimeout c => c.wf
  | .unitPlacement quad | .gangPlacement quad | .quadrantIdleEntry quad | .quadrantSleepEntry quad | .quadrantWakeComplete quad
  | .selfRefreshReturn quad | .dvfsPointChange quad | .regulatorFault quad =>
    quad < 4
  | .unitStart tile | .tileUncorrectableError tile | .tileCorrectedError tile => tile < 1024
  | .unitEnd tile _ _ => tile < 1024
  | .attendElementRelease c elem | .mergeSpaceWaitEnd c elem => c.wf && elem < 256
  | .unitYield tile _ => tile < 1024
  | .yieldedUnitReady _ | .unitEvict _ | .add _ | .sub _ | .mul _ | .and _ | .or _ | .xor _ | .shl _ | .shr _ | .sra _ | .slt _ | .sltu _ | .min _
  | .max _ | .mov _ | .fadd _ | .fsub _ | .fmul _ | .fmin _ | .fmax _ | .flt _ | .itof _ | .ftoi _ | .addi _ | .andi _ | .ori _ | .lui _ | .slti _
  | .vadd _ | .vsub _ | .vmul _ | .vfma _ | .vmin _ | .vmax _ | .vabs _ | .vneg _ | .vmov _ | .vexp _ | .vrecip _ | .vlog _ | .vitof _ | .vftoi _
  | .vidx _ | .vbcast _ | .vlt _ | .vle _ | .veq _ | .vne _ | .vsum _ | .vmaxr _ | .vminr _ | .pand _ | .por _ | .pxor _ | .pandn _ | .pnot _
  | .pset _ | .pclr _ | .pcnt _ | .pfroms _ | .ptos _ | .ld _ | .st _ | .vld _ | .vst _ | .mma _ | .br _ | .bz _ | .bnz _ | .bany _ | .bnone _
  | .ret _ | .trap _ | .completionTimeout _ | .oxsisCreate _ | .oxsisDestroy _ | .attest _ | .certRead _ | .debugRead _ | .profileRead _
  | .fwSvnCommit _ | .mctpMessage _ | .thermalEmergencyStart _ | .thermalEmergencyEnd _ | .thermalTrip _ | .sysRst _
  | .pciePostedCreditReturn _ | .jtagInstruction _ =>
    true
  | .virtualTimeUpdate | .vfEnableClear | .vfEnableSet | .pf0Flr | .signatureRateRelease | .directorySweep | .checkpointWrite | .joinSet | .joinClear | .deepSleepRequest | .offRequest | .autoDeepSleep | .wakeNLow | .clkreqAssert | .wakeAlarm | .capRaise
  | .dutyCycleStep | .accountingWindowEnd | .chipRestart | .lifeDailyRecord | .crystalSettled | .pwrokFall | .railEnRestart | .hostLinkReset
  | .tapReset | .vstbyLoss | .standbyPowerOn =>
    true
  | .jobTeardownComplete part job => part < 16 && job < 256
  | .sqDoorbell part slot _ size value => part < 16 && slot < 64 && size ≤ 8 && value < 2 ^ 64
  | .inlineDoorbell part slot _ data => part < 16 && slot < 64 && data.length ≤ 64
  | .csqEnable part value | .csqDisable part value => part < 16 && value < 2 ^ 32
  | .csqRingConfigWrite part _ value => part < 16 && value < 2 ^ 64
  | .eqEnable fn queue value | .eqDisable fn queue value | .eqHeadWrite fn queue value => fn < 17 && queue < 16 && value < 2 ^ 32
  | .eqArm fn queue | .coalesceTimerExpiry fn queue => fn < 17 && queue < 16
  | .msixUnmask fn vector => fn < 17 && vector < 16
  | .bufferPost part index e | .bufferWithdraw part index e => part < 16 && index < 16384 && e.wf
  | .pushWindowWrite part offset _ => part < 16 && offset < 2 ^ 26
  | .acctSnapshotLatch _ part | .prpFrameDiscard _ part => part < 16
  | .quiesce vf | .vfFlr vf | .d3hotEntry vf | .d0Return vf => vf < 16
  | .busMasterDisable fn | .busMasterEnable fn => fn < 17
  | .disableDrainEnd vf _ => vf < 16
  | .hostReadCompletion _ _ | .consent _ _ | .rmaUnlock _ _ | .deepSleepExit _ _ | .governorTick _ _ | .governorCorrection _ _ | .ageingMeasure _ _ =>
    true
  | .ingressPolicerRelease part _ _ | .mapSegmentFetch part _ _ => part < 16
  | .registerWrite fn offset size value => fn < 17 && offset < 2 ^ 26 && size ≤ 8 && value < 2 ^ 64
  | .fwStage _ image => image.wf
  | .consentExpiry part | .coolingMoveStart part | .descriptorDirSweep part | .discardRecordProgram part => part < 16
  | .scrubResourceDone isFlash index => (if isFlash then index < 32 else index < 160)
  | .stagingFlush part psn layer | .prefetchCopyExpiry part psn layer => part < 16 && psn < 2 ^ 40 && layer < 256
  | .locationChangeCommit part _ | .pageMove part _ | .descriptorSegmentMove part _ | .moveBufferResume part _
  | .directoryEntryInvalidate part _ =>
    part < 16
  | .mapSegmentRebuild part segment => part < 16 && segment.bad.all Place.wf
  | .mapCheckpointLoad | .mapRebuildScan => true
  | .restStoreRebuild startupMs => startupMs.bad.all Place.wf
  | .supersededCopyRelease part psn => part < 16 && psn < 2 ^ 40
  | .parkingMoveStart part seq | .parkingRetry part seq | .parkToRest part seq | .specRestoreStart part seq | .specRestoreResume part seq
  | .holdEndExpiry part seq =>
    part < 16 && seq < 2 ^ 24
  | .flashProgramComplete place _ => place.wf
  | .flashReadComplete _ result => result.wf
  | .flashEraseComplete block _ => block.wf
  | .collectionStart channel | .collectionIdleTimer channel | .staticWearLevel channel => channel < 32
  | .retentionLimitRefresh place => place.wf
  | .patrolRead place result => place.wf && result.wf
  | .dieReadyTimeout channel die => channel < 32 && die < 16
  | .flashTempRetrain channel _ _ => channel < 32
  | .write pk | .send pk | .rdreq pk | .rdresp pk | .ack pk | .nak pk | .credit pk | .connect pk | .disconnect pk => pk.wf
  | .packetLanding part qp seq | .retransmitTimeout part qp seq => part < 16 && qp < 65536 && seq < 2 ^ 24
  | .qpContextFetchComplete part qp _ | .egressPolicerRelease part qp _ => part < 16 && qp < 65536
  | .prpPacketSend part qp | .ackTimer part qp | .connectRetry part qp => part < 16 && qp < 65536
  | .qpConnect part index | .qpDisconnect part index | .qpReset part index => part < 16 && index < 65536
  | .replayRequest port lack => port < 8 && lack < 4096
  | .creditOnlyFrame port vc credits lack => port < 8 && vc < 8 && credits < 4096 && lack < 4096
  | .pfcFrame uplink pauseMask => uplink < 4 && pauseMask < 256
  | .linkTrained port _ | .linkLost port _ => port < 8
  | .handshakeAnswer block _ => block < 12
  | .deferLimitExpiry block => block < 12
  | .smbusAddressMatch address => address < 128
  | .voltageRaiseDone quad millivolts | .voltageMonitorDrop quad millivolts => quad < 4 && millivolts < 65536
  | .dramPatrol errors => errors.all DramError.wf
  | .rowRepairComplete channel _ => channel < 640
  | .hotEntryShadowRestore part seq _ => part < 16 && seq < 2 ^ 24
  | .coldStart env => env.wf
  | .linkFrameError port => port < 8
  | .ringTransitForward port vc pk => port < 8 && vc < 8 && pk.wf

end Sys2Proof
end

