-- ==== Sys2Proof/Safety.lean ====
section
/-! DEFINITION. What a safe run is, and the words that statements use: the sparse memories of the state stay in their canonical form; fuses
only ever burn; a unit stands at a word of tile code; a command may start, has asked for its commit, has committed. -/

namespace Sys2Proof.Machine

open Sys2Proof

/-! ### Invariants -/

/-- The sparse memories of the state are in their canonical form: host memory, the functions and the page caches. -/
def State.canonical (s : State) : Bool := Memory.wf s.hostMem && Map.wf s.funcs && Map.wf s.cache

/-- R385: the fuses of b hold every bit that those of a hold. -/
structure FusesFrom (a b : Oxsis) : Prop where
  svn : ∀ i, a.svn.getD i 0 ≤ b.svn.getD i 0
  ranges : a.idRanges ≤ b.idRanges
  rma : a.lifecycle = .rma → b.lifecycle = .rma
  production : a.lifecycle = .production → b.lifecycle ≠ .manufacture

/-- The command answers this next state. -/
abbrev gives (i : Instr) (s t : State) : Prop := exec i s = .next t

/-! ### Tile code -/

/-- Unit uid runs on a tile, its kernel call is under way at a code word w, and its step limit is not reached (R233, R238). -/
structure AtWord (s : State) (uid : Nat) (u : Unit) (tile : Nat) (k : KMachine) (ker : Kernel) (w : Nat) : Prop where
  unit : s.unit uid = some u
  running : u.place = .running tile
  kernel : u.kernel = some k
  active : k.active = true
  stored : Map.look (s.part u.part).kernels k.kernel = some ker
  word : (ker.code.getD k.pc 0).toNat = w
  steps : k.steps < ker.stepLimit

/-- The unit after one instruction: its registers c, its next word pc, one step more; nothing else of the state differs. -/
def stepTo (s : State) (uid : Nat) (k : KMachine) (c : KCall) (pc : Nat) : State :=
  s.onUnit uid fun x => { x with kernel := some { k with regs := c, pc := pc, steps := k.steps + 1 } }

/-- The next state of an instruction that writes registers and goes on to the next word. -/
abbrev onward (s : State) (uid : Nat) (k : KMachine) (c : KCall) : Host.Outcome State Fault Refusal := .next (stepTo s uid k c (k.pc + 1))

/-- The rows of tile code (R235), by the unit that they name. -/
def tileRows : List (Nat → Instr) :=
  [.add, .sub, .mul, .and, .or, .xor, .shl, .shr, .sra, .slt, .sltu, .min, .max, .mov] ++
  [.fadd, .fsub, .fmul, .fmin, .fmax, .flt, .itof, .ftoi, .addi, .andi, .ori, .lui, .slti] ++
  [.vadd, .vsub, .vmul, .vfma, .vmin, .vmax, .vabs, .vneg, .vmov, .vexp, .vrecip, .vlog, .vitof, .vftoi, .vidx, .vbcast] ++
  [.vlt, .vle, .veq, .vne, .vsum, .vmaxr, .vminr, .pand, .por, .pxor, .pandn, .pnot, .pset, .pclr, .pcnt, .pfroms, .ptos] ++
  [.ld, .st, .vld, .vst, .mma, .br, .bz, .bnz, .bany, .bnone, .ret, .trap]

/-! ### Mbatas commands -/

/-- The rows of the Mbatas commands (R214). -/
def commandRows : List (CmdStep → Instr) :=
  [.jobCreate, .jobDestroy, .jobBind, .jobUnbind, .jobReset, .modelRegister, .modelUnregister, .kernelLoad, .kernelUnload, .capRead, .seqOpen, .seqFork, .seqTrim] ++
  [.seqClose, .seqPark, .seqResume, .seqHint, .specCancel, .seqQuery, .kvRead, .prefixProbe, .prefixPublish, .prefixRetain, .prefixEvictModel, .prefixEvictSequence, .hostRegionAdd] ++
  [.hostRegionRemove, .seqMigrate, .append, .attend, .extend, .kernelRun, .nop, .fence, .wait, .signal, .acctRead, .eventPost]

/-- A command of the fetch window may start, passes the checks of R213, nothing holds back its commit, and its record has room. -/
structure Ready (s : State) (c : CmdStep) (f : Flight) : Prop where
  now : c.defer = false
  flight : s.flight c.ref = some f
  starts : mayStart s c.ref f = true
  check : commandCheck c.ref.slot f.word = none
  alone : ((s.slot c.ref.part c.ref.slot).earlier f).all (fun g => g.seqs.all fun i => !(namesOf s c.ref.part f.word).contains i) = true
  room : (s.eq c.ref.part (s.slot c.ref.part c.ref.slot).eq).stuck = false
  running : (s.func c.ref.part).disable = none

/-- The state in which the command has started. -/
def begun (s : State) (c : CmdStep) : State := beginFlight c.ref s

/-- The command's flight as its start finds it. -/
def begunFlight (s : State) (c : CmdStep) (f : Flight) : Flight := 
  { f with order := s.sched.order, seqs := dedup (namesOf s c.ref.part f.word), kernels := kernelsOf (s.part c.ref.part) f.word }

/-- The state in which the command has issued its commit request. -/
def requestedIn (s : State) (c : CmdStep) : State := setStage s c.ref .requested

/-- The end of a command at its commit point: SIGNAL, then its outputs and its record with these values. -/
def committed (s : State) (c : CmdRef) (f : Flight) (status r0 r1 : Nat) (outs : List (Nat × List Byte)) : State :=
  let t := raiseSignal s c f.word
  endCommitted t c ((t.flight c).getD f) status r0 r1 outs

/-! ### Oxsis -/

/-- Oxsis takes a request at once: start-up has reached PARTITIONS, no request is before it, and the way that it comes is open. -/
structure OxsReady (s : State) (via : OxsVia) : Prop where
  idle : s.oxs.queue = []
  parted : s.parted = true
  serving : s.oxs.recovery = false
  mailbox : via = .mailbox → s.reaches 16 = true ∧ s.pf0Bme = true
  mctp : via ≠ .mailbox → s.mctpUp = true
  steady : s.holds 10 = false

/-- The request that Oxsis takes: a page of host memory, or the bytes of a message. -/
def requestOf (s : State) (op : Nat) (via : OxsVia) (sigOk : Bool) (image : Option FwSlot) : OxsReq :=
  match via with
  | .mctp b => ⟨op, b, true, sigOk, image⟩
  | .mailbox => ⟨op, s.hostBytes s.oxs.reqAddr 4096, false, sigOk, image⟩

/-- The state in which Oxsis has taken a request. -/
def taken (s : State) (via : OxsVia) (q : OxsReq) : State :=
  s.onOxs fun o => { o with op := if via = .mailbox then q.op else o.op, queue := [q] }

end Sys2Proof.Machine
end

