-- ==== Sys2Proof/Certificates/Slice0/Obligations.lean ====
section
/-! DEFINITION. The statements about the block, for the provers. Where a statement says that a command answers a next state it says which; the
next state differs from the given one in nothing that its expression does not change, so each such equation is its own frame. -/

open Sys2Proof Sys2Proof.Machine

/-- For every command c and every state s whose queue is c followed by rest, one step of s answers exactly what the command c answers on s
with the queue rest. Derived from spec/opcode_table.json. The model's choices that it rests on: assumption logs 23, 148. -/
def Obligations.StepRunsFront : Prop :=
  ∀ (c : Instr) (rest : List Instr) (s : State), s.pending = c :: rest → step s = exec c { s with pending := rest }

/-- On an empty queue a step answers a next state. While the chip runs or is in Deep sleep the seconds counter advances by one; in Off and
after a thermal trip nothing changes; every other field stays. That a step on an empty queue is one second is the model's choice
(assumption log 1). Derived from spec/14_power_clocks.md R413. The model's choices that it rests on: assumption log 23. -/
def Obligations.EmptyQueueIdles : Prop :=
  ∀ s : State, s.pending = [] →
    (s.power.chip = .on ∨ s.power.chip = .deepSleep → step s = .next { s with nowS := s.nowS + 1 }) ∧
    (s.power.chip ≠ .on → s.power.chip ≠ .deepSleep → step s = .next s)

/-- For every state whose host memory, function table and page caches are in their canonical form, every step answers a next state whose
sparse memories are in canonical form again, and whose queue is the old queue without its front (an empty queue stays empty). Derived from
spec/08_mbatas_reference.md; spec/12_host_interface.md R363. -/
def Obligations.EveryStepKeepsForm : Prop :=
  ∀ s : State, s.canonical = true → ∃ t, step s = .next t ∧ t.canonical = true ∧ t.pending = s.pending.tail

/-- Fuses are one-time: whatever command runs on a state in canonical form, no count of security-version fuses falls, the count of ID_RANGE
fuses does not fall, a chip in the RMA lifecycle stays in it, and a chip in PRODUCTION never returns to MANUFACTURE. (How an image with a
version above 64 is counted is assumption log 21.) Derived from spec/13_security.md R385. -/
def Obligations.FusesOnlyBurn : Prop :=
  ∀ (i : Instr) (s t : State), s.canonical = true → exec i s = .next t → FusesFrom s.oxs t.oxs

/-- After reset no command waits, the sparse memories are in canonical form, and the model's invariant therefore holds. STAGE is 0, no
partition exists, every queue pair, buffer and event queue is at rest, and the registers hold the reset values of their tables:
HUB_SCHED_*, FLS_*, LNK_*, EVT_EQ_* of PF0 (ARM 1, AUTO_ARM 1, PHASE 1, COAL_COUNT 1), OXS_MBX_*, PWR_*, HUB_ERR_*; a new partition's
MEM_PLC_*, LNK_P_QPC_ATTR, policers and slots hold theirs. (What the model names where the spec gives no value is in the assumption log
and is not stated here.) Derived from spec/05_tiers_placement.md R157; spec/09_scheduling.md R254; spec/10_flash_tier.md R306;
spec/11_fabric.md R350; spec/12_host_interface.md R357; spec/12_host_interface.md R362; spec/14_power_clocks.md R438; spec/15_health.md
R452; spec/16_pins_startup.md R467. The model's choices that it rests on: assumption logs 20, 34, 37. -/
def Obligations.ResetState : Prop :=
  State.reset.canonical = true ∧ State.reset.pending = [] ∧ State.reset.stage = 0 ∧ State.reset.parts = [] ∧ State.reset.vfEnable = false ∧
  (let d := State.reset.sched
   (d.classMode, d.beMin, d.snareTiles, d.evictWait, d.yieldWait) = (false, 0x10, 0x20, 0x0C80, 0x1000)) ∧
  (let f := State.reset.flash
   (f.patrolEn, f.patrolDays, f.phase, f.dirty, f.percent) = (false, 7, 0, false, 0) ∧ (f.mapHostBase, f.mapHostSegs, f.offGap) = (0, 0, 30)) ∧
  (let f := State.reset.fabric
   (f.position, f.ring, f.hall, f.ringSlots, f.join, f.ringChips, f.line) = (0, 0, 0, 1, false, 1, false) ∧
   (f.etype, f.vid, f.pfcPri, f.macBase) = (0x88B5, 0, 0, 0) ∧ (f.ackRing, f.ackHall, f.retryMax, f.qBe, f.qBulk, f.qCtl) = (20, 20, 8, 130, 65, 65) ∧
   f.bypassClosed = true ∧ ∀ n, (State.reset.port n).up = false) ∧
  (let e := State.reset.meq
   (e.base, e.entriesLog2, e.vector, e.coalCount, e.coalUs) = (0, 0, 0, 1, 0) ∧ (e.en, e.arm, e.autoArm, e.phase) = (false, true, true, true) ∧
   (e.head, e.tail, e.headErr, e.ovfFull, e.overflow) = (0, 0, false, false, [])) ∧
  (let o := State.reset.oxs
   (o.reqAddr, o.rspAddr, o.op, o.result, o.queue) = (0, 0, 0, 0, [])) ∧
  (let w := State.reset.power
   w.chip = .on ∧ (∀ q, quadState State.reset q = .run) ∧ (w.autoDeep, w.sleepHold, w.deepHold, w.lastResult, w.lastBlock) = (false, 100, 60, 0, 0) ∧
   (w.wake, w.alarmAt, w.freqReq, w.cap, w.limit) = (0, 0, 24, 24, 700) ∧ (∀ q, quadPoint State.reset q = 24) ∧
   (w.package, w.tiles, w.tEmerg, w.temp, w.emerg) = (0, 0, 100, 0, false)) ∧
  (let h := State.reset.health
   (h.head, h.tail, h.fatalPrev, h.degraded) = (0, 0, false, false) ∧ eolDays h.daily = 0xFFFF) ∧
  (let g := Part.absent.regs
   (g.maxAge, g.halfLife, g.parkHalfLife, g.demoteHeat) = (0, 8, 1, 0x1000) ∧ (g.restoreLead, g.hold, g.specEn, g.prefetchDepth) = (2, 30, true, 2) ∧
   (g.low, g.high, g.qptBase, g.qptSize) = (4, 8, 0, 0) ∧ (g.qpcPeer, g.qpcMirror, g.qpcAttr) = (0, 0, 0x00100001)) ∧
  (let p := Part.absent.egress
   (p.cir, p.pir, p.cbs, p.pbs, p.aware) = (0, 0, 64, 64, false)) ∧ Part.absent.ingress = Part.absent.egress

/-- For a canonical memory m, address a and bytes d: reading the written range gives d, every address outside it reads as before, and the
memory is canonical again. Derived from spec/12_host_interface.md R363. The model's choices that it rests on: assumption logs 3, 80. -/
def Obligations.MemoryReadAfterWrite : Prop :=
  ∀ (m : List Host.Cell) (a : Nat) (d : List Byte), Memory.wf m = true →
    Memory.readBytes (Memory.writeBytes m a d) a d.length = d ∧
    (∀ b, (b < a ∨ a + d.length ≤ b) → Memory.read (Memory.writeBytes m a d) b = Memory.read m b) ∧
    Memory.wf (Memory.writeBytes m a d) = true

/-- For each of the eight floating-point formats and every word of its width that is not a NaN, the encoding of the decoded value is the word
itself: no bit of a sign, exponent or mantissa is lost, subnormals, both zeros and both infinities among them. Derived from
spec/07_number_formats.md R190; spec/07_number_formats.md R191; spec/07_number_formats.md R193. -/
def Obligations.FloatFormatsAgree : Prop :=
  ∀ (code : Nat) (f : FloatFmt) (w : Nat), floatOf code = some f → w < 2 ^ (1 + f.eb + f.mb) → f.decode w ≠ .nan → f.encode (f.decode w) = w

/-- rne a s divides a by 2^s: the result differs from a / 2^s by at most one half, and where it differs by exactly one half it is even.
Derived from spec/07_number_formats.md R192. -/
def Obligations.RoundsToNearestEven : Prop :=
  ∀ a s : Nat, 2 * a ≤ 2 * (rne a s * 2 ^ s) + 2 ^ s ∧ 2 * (rne a s * 2 ^ s) ≤ 2 * a + 2 ^ s ∧
    ((2 * a = 2 * (rne a s * 2 ^ s) + 2 ^ s ∨ 2 * (rne a s * 2 ^ s) = 2 * a + 2 ^ s) → 1 ≤ s → rne a s % 2 = 0)

/-- For a unit at a word of OP 0x01 with FN 0 to 13 that is not the last word of its code: add, sub, mul, and, or, xor, shl, shr, sra, slt,
sltu, min, max and mov complete; sD gets sA op sB in 32 bits (shifts by sB[4:0], slt and sltu as 1 or 0, min and max signed), the step
count rises by one, the next word is the one after, and nothing else of the state changes. addi adds the sign-extended IMM to sA, andi and
ori take IMM zero-extended, lui writes IMM shifted left by 16, slti writes 1 if sA is below the signed IMM and 0 otherwise; nothing else
of the state changes but the step count and the next word. Derived from spec/08_mbatas_reference.md R235; spec/08_mbatas_reference.md
R234. -/
def Obligations.TileScalarInteger : Prop :=
  (∀ (s : State) (uid : Nat) (u : Machine.Unit) (tile : Nat) (k : KMachine) (ker : Kernel) (w : Nat),
    AtWord s uid u tile k ker w → k.pc + 1 < ker.code.length →
    let a := k.regs.s (iA w)
    let b := k.regs.s (iB w)
    (iOp w = 0x01 → iFN w = 0 → exec (.add uid) s = onward s uid k (k.regs.setS (iD w) (a + b))) ∧
    (iOp w = 0x01 → iFN w = 1 → exec (.sub uid) s = onward s uid k (k.regs.setS (iD w) (a - b))) ∧
    (iOp w = 0x01 → iFN w = 2 → exec (.mul uid) s = onward s uid k (k.regs.setS (iD w) (a * b))) ∧
    (iOp w = 0x01 → iFN w = 3 → exec (.and uid) s = onward s uid k (k.regs.setS (iD w) (a &&& b))) ∧
    (iOp w = 0x01 → iFN w = 4 → exec (.or uid) s = onward s uid k (k.regs.setS (iD w) (a ||| b))) ∧
    (iOp w = 0x01 → iFN w = 5 → exec (.xor uid) s = onward s uid k (k.regs.setS (iD w) (a ^^^ b))) ∧
    (iOp w = 0x01 → iFN w = 6 → exec (.shl uid) s = onward s uid k (k.regs.setS (iD w) (a <<< (b.toNat % 32)))) ∧
    (iOp w = 0x01 → iFN w = 7 → exec (.shr uid) s = onward s uid k (k.regs.setS (iD w) (a >>> (b.toNat % 32)))) ∧
    (iOp w = 0x01 → iFN w = 8 → exec (.sra uid) s = onward s uid k (k.regs.setS (iD w) (a.sshiftRight (b.toNat % 32)))) ∧
    (iOp w = 0x01 → iFN w = 9 → exec (.slt uid) s = onward s uid k (k.regs.setS (iD w) (if a.toInt < b.toInt then 1 else 0))) ∧
    (iOp w = 0x01 → iFN w = 10 → exec (.sltu uid) s = onward s uid k (k.regs.setS (iD w) (if a.toNat < b.toNat then 1 else 0))) ∧
    (iOp w = 0x01 → iFN w = 11 → exec (.min uid) s = onward s uid k (k.regs.setS (iD w) (if a.toInt < b.toInt then a else b))) ∧
    (iOp w = 0x01 → iFN w = 12 → exec (.max uid) s = onward s uid k (k.regs.setS (iD w) (if a.toInt < b.toInt then b else a))) ∧
    (iOp w = 0x01 → iFN w = 13 → exec (.mov uid) s = onward s uid k (k.regs.setS (iD w) (a)))) ∧
  (∀ (s : State) (uid : Nat) (u : Machine.Unit) (tile : Nat) (k : KMachine) (ker : Kernel) (w : Nat),
    AtWord s uid u tile k ker w → k.pc + 1 < ker.code.length →
    let a := k.regs.s (iA w)
    (iOp w = 0x02 → exec (.addi uid) s = onward s uid k (k.regs.setS (iD w) (a + BitVec.ofInt 32 (sext 16 (iImm w))))) ∧
    (iOp w = 0x03 → exec (.andi uid) s = onward s uid k (k.regs.setS (iD w) (a &&& BitVec.ofNat 32 (iImm w)))) ∧
    (iOp w = 0x04 → exec (.ori uid) s = onward s uid k (k.regs.setS (iD w) (a ||| BitVec.ofNat 32 (iImm w)))) ∧
    (iOp w = 0x05 → exec (.lui uid) s = onward s uid k (k.regs.setS (iD w) (BitVec.ofNat 32 (iImm w) <<< 16))) ∧
    (iOp w = 0x06 → exec (.slti uid) s = onward s uid k (k.regs.setS (iD w) (if a.toInt < sext 16 (iImm w) then 1 else 0))))

/-- For a unit at a word of OP 0x01 with FN 16 to 23: fadd, fsub and fmul write the exact result rounded once to FP32; flt writes 1 if sA is
below sB and 0 otherwise or on NaN; itof converts the signed integer; ftoi rounds to nearest with ties to even and saturates at 2^31 - 1
in magnitude, NaN giving 0; fmin and fmax give the lesser and the greater number, and on a NaN a free value (assumption log 30). Nothing
else of the state changes but the step count and the next word. Derived from spec/08_mbatas_reference.md R235; spec/07_number_formats.md
R194. -/
def Obligations.TileScalarFloat : Prop :=
  ∀ (s : State) (uid : Nat) (u : Machine.Unit) (tile : Nat) (k : KMachine) (ker : Kernel) (w : Nat),
    AtWord s uid u tile k ker w → k.pc + 1 < ker.code.length →
    let a := k.regs.s (iA w)
    let b := k.regs.s (iB w)
    (iOp w = 0x01 → iFN w = 16 → exec (.fadd uid) s = onward s uid k (k.regs.setS (iD w) (toF32 ((f32 a).add (f32 b))))) ∧
    (iOp w = 0x01 → iFN w = 17 → exec (.fsub uid) s = onward s uid k (k.regs.setS (iD w) (toF32 ((f32 a).sub (f32 b))))) ∧
    (iOp w = 0x01 → iFN w = 18 → exec (.fmul uid) s = onward s uid k (k.regs.setS (iD w) (toF32 ((f32 a).mul (f32 b))))) ∧
    (iOp w = 0x01 → iFN w = 19 → exec (.fmin uid) s = onward s uid k (k.regs.setS (iD w) (if isNaN32 a || isNaN32 b then Config.scalarMinMaxNaN false a b else fminN a b))) ∧
    (iOp w = 0x01 → iFN w = 20 → exec (.fmax uid) s = onward s uid k (k.regs.setS (iD w) (if isNaN32 a || isNaN32 b then Config.scalarMinMaxNaN true a b else fmaxN a b))) ∧
    (iOp w = 0x01 → iFN w = 21 → exec (.flt uid) s = onward s uid k (k.regs.setS (iD w) (if (f32 a).lt (f32 b) then 1 else 0))) ∧
    (iOp w = 0x01 → iFN w = 22 → exec (.itof uid) s = onward s uid k (k.regs.setS (iD w) (toF32 (ofInt a.toInt)))) ∧
    (iOp w = 0x01 → iFN w = 23 → exec (.ftoi uid) s = onward s uid k (k.regs.setS (iD w) (BitVec.ofInt 32 (toInt (2 ^ 31 - 1) (f32 a)))))

/-- vadd, vsub, vmul, vmin, vmax work lane by lane on vA and vB (or on sB in every lane where BS is set); vfma gives vD + vA x vB with one
rounding; vabs, vneg, vmov, vexp, vrecip, vlog, vitof and vftoi work on vA; vidx gives lane j the number j; vbcast writes the bits of sA.
Lanes that the guard excludes keep their contents, and nothing else of the state changes but the step count and the next word. (Within the
bounds of R209 the values of exp, recip and log are free: assumption log 31.) Derived from spec/08_mbatas_reference.md R235;
spec/08_mbatas_reference.md R234; spec/07_number_formats.md R209. -/
def Obligations.TileVector : Prop :=
  ∀ (s : State) (uid : Nat) (u : Machine.Unit) (tile : Nat) (k : KMachine) (ker : Kernel) (w : Nat),
    AtWord s uid u tile k ker w → k.pc + 1 < ker.code.length →
    let a := k.regs.v (iA w)
    let b := if iBS w then List.replicate 64 (k.regs.s (iB w)) else k.regs.v (iB w)
    let d := k.regs.v (iD w)
    (iOp w = 0x08 → iFn6 w = 0 → exec (.vadd uid) s = onward s uid k (k.regs.setV w (iD w) (List.zipWith fadd a b))) ∧
    (iOp w = 0x08 → iFn6 w = 1 → exec (.vsub uid) s = onward s uid k (k.regs.setV w (iD w) (List.zipWith fsub a b))) ∧
    (iOp w = 0x08 → iFn6 w = 2 → exec (.vmul uid) s = onward s uid k (k.regs.setV w (iD w) (List.zipWith fmul a b))) ∧
    (iOp w = 0x08 → iFn6 w = 4 → exec (.vmin uid) s = onward s uid k (k.regs.setV w (iD w) (List.zipWith fminN a b))) ∧
    (iOp w = 0x08 → iFn6 w = 5 → exec (.vmax uid) s = onward s uid k (k.regs.setV w (iD w) (List.zipWith fmaxN a b))) ∧
    (iOp w = 0x08 → iFn6 w = 3 → exec (.vfma uid) s = onward s uid k (k.regs.setV w (iD w) (List.zipWith (fun d e => ffma d e.1 e.2) d (List.zip a b)))) ∧
    (iOp w = 0x08 → iFN w = 6 → exec (.vabs uid) s = onward s uid k (k.regs.setV w (iD w) (a.map fun x => toF32 (f32 x).abs))) ∧
    (iOp w = 0x08 → iFN w = 7 → exec (.vneg uid) s = onward s uid k (k.regs.setV w (iD w) (a.map fun x => toF32 (f32 x).neg))) ∧
    (iOp w = 0x08 → iFN w = 8 → exec (.vmov uid) s = onward s uid k (k.regs.setV w (iD w) (a))) ∧
    (iOp w = 0x08 → iFN w = 9 → exec (.vexp uid) s = onward s uid k (k.regs.setV w (iD w) (a.map fexp))) ∧
    (iOp w = 0x08 → iFN w = 10 → exec (.vrecip uid) s = onward s uid k (k.regs.setV w (iD w) (a.map frecip))) ∧
    (iOp w = 0x08 → iFN w = 11 → exec (.vlog uid) s = onward s uid k (k.regs.setV w (iD w) (a.map flog))) ∧
    (iOp w = 0x08 → iFN w = 12 → exec (.vitof uid) s = onward s uid k (k.regs.setV w (iD w) (a.map itof32))) ∧
    (iOp w = 0x08 → iFN w = 13 → exec (.vftoi uid) s = onward s uid k (k.regs.setV w (iD w) (a.map ftoi32))) ∧
    (iOp w = 0x08 → iFN w = 14 → exec (.vidx uid) s = onward s uid k (k.regs.setV w (iD w) ((List.range 64).map fun (j : Nat) => toF32 (ofInt (j : Int))))) ∧
    (iOp w = 0x08 → iFN w = 15 → exec (.vbcast uid) s = onward s uid k (k.regs.setV w (iD w) (List.replicate 64 (k.regs.s (iA w)))))

/-- vlt, vle, veq and vne write one bit of pD per lane, 0 where the guard excludes the lane; pand, por, pxor, pandn, pnot, pset and pclr write
pD; pcnt counts the bits of pA into sD; pfroms and ptos move between a predicate and two scalar registers; vsum adds the admitted lanes in
ascending order into +0; vmaxr and vminr take the greatest and least admitted lane, a NaN as the canonical one and a subnormal as zero,
and a free value where the guard admits none (assumption log 32). Nothing else of the state changes but the step count and the next word.
Derived from spec/08_mbatas_reference.md R235; spec/08_mbatas_reference.md R234. The model's choices that it rests on: assumption log 2. -/
def Obligations.TilePredicatesAndReductions : Prop :=
  ∀ (s : State) (uid : Nat) (u : Machine.Unit) (tile : Nat) (k : KMachine) (ker : Kernel) (w : Nat),
    AtWord s uid u tile k ker w → k.pc + 1 < ker.code.length →
    let a := k.regs.v (iA w)
    let b := if iBS w then List.replicate 64 (k.regs.s (iB w)) else k.regs.v (iB w)
    let p := k.regs.p (iA w % 8)
    let q := k.regs.p (iB w % 8)
    let g := guardBits k.regs w
    let lanes := fun f : Word → Word → Bool => bitsOf ((List.zipWith f a b).zipIdx.map fun e => e.1 && bit g e.2)
    let on := (a.zipIdx.filter fun e => bit g e.2).map fun e => e.1
    (iOp w = 0x09 → iFn6 w = 0 → exec (.vlt uid) s = onward s uid k (k.regs.setP (iD w % 8) (lanes (flt)))) ∧
    (iOp w = 0x09 → iFn6 w = 1 → exec (.vle uid) s = onward s uid k (k.regs.setP (iD w % 8) (lanes (fun x y => flt x y || feq x y)))) ∧
    (iOp w = 0x09 → iFn6 w = 2 → exec (.veq uid) s = onward s uid k (k.regs.setP (iD w % 8) (lanes (feq)))) ∧
    (iOp w = 0x09 → iFn6 w = 3 → exec (.vne uid) s = onward s uid k (k.regs.setP (iD w % 8) (lanes (fun x y => !feq x y)))) ∧
    (iOp w = 0x0B → iFN w = 0 → exec (.pand uid) s = onward s uid k (k.regs.setP (iD w % 8) (p &&& q))) ∧
    (iOp w = 0x0B → iFN w = 1 → exec (.por uid) s = onward s uid k (k.regs.setP (iD w % 8) (p ||| q))) ∧
    (iOp w = 0x0B → iFN w = 2 → exec (.pxor uid) s = onward s uid k (k.regs.setP (iD w % 8) (p ^^^ q))) ∧
    (iOp w = 0x0B → iFN w = 3 → exec (.pandn uid) s = onward s uid k (k.regs.setP (iD w % 8) (p &&& ~~~q))) ∧
    (iOp w = 0x0B → iFN w = 4 → exec (.pnot uid) s = onward s uid k (k.regs.setP (iD w % 8) (~~~p))) ∧
    (iOp w = 0x0B → iFN w = 5 → exec (.pset uid) s = onward s uid k (k.regs.setP (iD w % 8) (BitVec.allOnes 64))) ∧
    (iOp w = 0x0B → iFN w = 6 → exec (.pclr uid) s = onward s uid k (k.regs.setP (iD w % 8) (0))) ∧
    (iOp w = 0x0B → iFN w = 7 → exec (.pcnt uid) s = onward s uid k (k.regs.setS (iD w) (BitVec.ofNat 32 (popcount 64 p.toNat)))) ∧
    (iOp w = 0x0B → iFN w = 8 → exec (.pfroms uid) s = onward s uid k (k.regs.setP (iD w % 8)
      (BitVec.ofNat 64 ((k.regs.s (iB w)).toNat * 2 ^ 32 + (k.regs.s (iA w)).toNat)))) ∧
    (iOp w = 0x0B → iFN w = 9 → exec (.ptos uid) s = onward s uid k
      ((k.regs.setS (iD w) (BitVec.ofNat 32 (p.toNat % 2 ^ 32))).setS (iD w + 1) (BitVec.ofNat 32 (p.toNat / 2 ^ 32)))) ∧
    (iOp w = 0x0A → iFN w = 0 → exec (.vsum uid) s = onward s uid k (k.regs.setS (iD w) (on.foldl fadd 0))) ∧
    (iOp w = 0x0A → iFN w = 1 → exec (.vmaxr uid) s = onward s uid k (k.regs.setS (iD w) (match on with | [] => Config.emptyReduction true | x :: r => r.foldl fmaxN (canon32 x)))) ∧
    (iOp w = 0x0A → iFN w = 2 → exec (.vminr uid) s = onward s uid k (k.regs.setS (iD w) (match on with | [] => Config.emptyReduction false | x :: r => r.foldl fminN (canon32 x))))

/-- With the address sA + scale x OFF modulo 2^32: ld and vld of bytes inside the read-write window or the constant window complete with the
loaded register; st and vst inside the read-write window complete with the bytes stored; outside both windows they fault with WINDOW (1),
ld and st at an address that is no multiple of 4 with ALIGN (2), a store into the constant window with RO_WRITE (6). mma with K a multiple
of 32 from 32 to 4,096 and its three matrices in the read-write window writes C + A x B^T; another K faults with MMA_K (5). A fault is the
fault of the job, with the code and the word index. Derived from spec/08_mbatas_reference.md R235; spec/08_mbatas_reference.md R238;
spec/08_mbatas_reference.md R239. The model's choices that it rests on: assumption logs 70, 71, 72, 73. -/
def Obligations.TileMemory : Prop :=
  ∀ (s : State) (uid : Nat) (u : Machine.Unit) (tile : Nat) (k : KMachine) (ker : Kernel) (w : Nat), AtWord s uid u tile k ker w →
    let stop := fun code : Nat => (Host.Outcome.next (faultJob s u tile 1 code k.pc 0) : Host.Outcome State Fault Refusal)
    let am := memAddr k.regs w 4
    let av := memAddr k.regs w 64
    let nv := vecBytes (iFmt w) 64
    let sb := leBytes 4 (k.regs.s (iD w)).toNat
    let vb := encodeLanes (iFmt w) (k.regs.v (iD w))
    let n := (k.regs.s (iD w + 1)).toNat
    let cA := (k.regs.s (iD w)).toNat
    let aA := (k.regs.s (iA w)).toNat
    let bA := (k.regs.s (iB w)).toNat
    (k.pc + 1 < ker.code.length → iOp w = 0x10 → (inRw ker am 4 ∨ inConst ker am 4) → am % 4 = 0 →
      exec (.ld uid) s = onward s uid k (k.regs.setS (iD w) (BitVec.ofNat 32 (leNat (readWin ker k.regs am 4))))) ∧
    (k.pc + 1 < ker.code.length → iOp w = 0x11 → inRw ker am 4 → ¬ inConst ker am 4 → am % 4 = 0 → exec (.st uid) s = onward s uid k (writeWin k.regs am sb)) ∧
    (k.pc + 1 < ker.code.length → iOp w = 0x12 → (inRw ker av nv ∨ inConst ker av nv) →
      exec (.vld uid) s = onward s uid k { k.regs with vectors := Map.put k.regs.vectors (iD w) (decodeLanes (iFmt w) (readWin ker k.regs av nv)) }) ∧
    (k.pc + 1 < ker.code.length → iOp w = 0x13 → inRw ker av vb.length → ¬ inConst ker av vb.length →
      exec (.vst uid) s = onward s uid k (writeWin k.regs av vb)) ∧
    (k.pc + 1 < ker.code.length → iOp w = 0x18 → n % 32 = 0 → 32 ≤ n → n ≤ 4096 → inRw ker cA 16384 → inRw ker aA (64 * vecBytes (iFA w) n) →
      inRw ker bA (64 * vecBytes (iFB w) n) → exec (.mma uid) s = onward s uid k (writeWin k.regs cA
        (((List.range 64).map (mmaRow ker k.regs aA (iFA w) n)).zipIdx.flatMap fun x =>
          ((List.range 64).map (mmaRow ker k.regs bA (iFB w) n)).zipIdx.flatMap fun y =>
            leBytes 4 (mmaElem (iFA w) n (w32 (field (readWin ker k.regs cA 16384) (4 * (64 * x.2 + y.2)) 4)) x.1 y.1).toNat))) ∧
    (iOp w = 0x10 → ¬ inRw ker am 4 → ¬ inConst ker am 4 → exec (.ld uid) s = stop 1) ∧
    (iOp w = 0x11 → ¬ inRw ker am 4 → ¬ inConst ker am 4 → exec (.st uid) s = stop 1) ∧
    (iOp w = 0x12 → ¬ inRw ker av nv → ¬ inConst ker av nv → exec (.vld uid) s = stop 1) ∧
    (iOp w = 0x13 → ¬ inRw ker av vb.length → ¬ inConst ker av vb.length → exec (.vst uid) s = stop 1) ∧
    (iOp w = 0x10 → (inRw ker am 4 ∨ inConst ker am 4) → am % 4 ≠ 0 → exec (.ld uid) s = stop 2) ∧
    (iOp w = 0x11 → (inRw ker am 4 ∨ inConst ker am 4) → am % 4 ≠ 0 → exec (.st uid) s = stop 2) ∧
    (iOp w = 0x11 → inConst ker am 4 → am % 4 = 0 → exec (.st uid) s = stop 6) ∧
    (iOp w = 0x13 → inConst ker av vb.length → exec (.vst uid) s = stop 6) ∧
    (iOp w = 0x18 → (n % 32 ≠ 0 ∨ n < 32 ∨ 4096 < n) → exec (.mma uid) s = stop 5)

/-- A branch whose condition holds goes to its own word plus the signed offset, where that is a word of the code; one whose condition does not
hold goes to the next word; registers stay. ret ends the call: its registers are its result, the next waiting call of the unit starts at
the kernel's entry, and where none waits the unit goes to its next kernel stage. trap faults the job with code 4, the word index and IMM.
Derived from spec/08_mbatas_reference.md R235; spec/08_mbatas_reference.md R239. -/
def Obligations.TileControl : Prop :=
  ∀ (s : State) (uid : Nat) (u : Machine.Unit) (tile : Nat) (k : KMachine) (ker : Kernel) (w : Nat), AtWord s uid u tile k ker w →
    let dest := (k.pc : Int) + iImmS w
    (iOp w = 0x20 → 0 ≤ dest → dest.toNat < ker.code.length → exec (.br uid) s = .next (stepTo s uid k k.regs dest.toNat)) ∧
    (iOp w = 0x21 → k.regs.s (iA w) = 0 → 0 ≤ dest → dest.toNat < ker.code.length → exec (.bz uid) s = .next (stepTo s uid k k.regs dest.toNat)) ∧
    (iOp w = 0x21 → ¬ (k.regs.s (iA w) = 0) → k.pc + 1 < ker.code.length → exec (.bz uid) s = onward s uid k k.regs) ∧
    (iOp w = 0x22 → k.regs.s (iA w) ≠ 0 → 0 ≤ dest → dest.toNat < ker.code.length → exec (.bnz uid) s = .next (stepTo s uid k k.regs dest.toNat)) ∧
    (iOp w = 0x22 → ¬ (k.regs.s (iA w) ≠ 0) → k.pc + 1 < ker.code.length → exec (.bnz uid) s = onward s uid k k.regs) ∧
    (iOp w = 0x23 → k.regs.p (iA w % 8) ≠ 0 → 0 ≤ dest → dest.toNat < ker.code.length → exec (.bany uid) s = .next (stepTo s uid k k.regs dest.toNat)) ∧
    (iOp w = 0x23 → ¬ (k.regs.p (iA w % 8) ≠ 0) → k.pc + 1 < ker.code.length → exec (.bany uid) s = onward s uid k k.regs) ∧
    (iOp w = 0x24 → k.regs.p (iA w % 8) = 0 → 0 ≤ dest → dest.toNat < ker.code.length → exec (.bnone uid) s = .next (stepTo s uid k k.regs dest.toNat)) ∧
    (iOp w = 0x24 → ¬ (k.regs.p (iA w % 8) = 0) → k.pc + 1 < ker.code.length → exec (.bnone uid) s = onward s uid k k.regs) ∧
    (iOp w = 0x30 → exec (.ret uid) s = .next (
      let k2 := KMachine.load (s.part u.part) { k with results := k.results ++ [(k.what, k.regs)], active := false }
      let t := s.onUnit uid fun x => { x with kernel := some k2 }
      if k2.active then t else nextStage t uid)) ∧
    (iOp w = 0x31 → exec (.trap uid) s = .next (faultJob s u tile 1 4 k.pc (iImm w)))

/-- For a unit at a word that kernel_load admits: where the step limit has been reached before the instruction, some row of tile code takes
the word and faults the job with code 3 (that the fault comes before the instruction beyond the limit is assumption log 33). On the last
code word, an instruction that only writes registers (every OP up to 0x0B) is taken by a row that faults the job with code 7, END. Both
report the word index. Derived from spec/08_mbatas_reference.md R238; spec/08_mbatas_reference.md R239. -/
def Obligations.TileStepAndEndFaults : Prop :=
  ∀ (s : State) (uid : Nat) (u : Machine.Unit) (tile : Nat) (k : KMachine) (ker : Kernel) (w : Nat),
    s.unit uid = some u → u.place = .running tile → u.kernel = some k → k.active = true →
    Map.look (s.part u.part).kernels k.kernel = some ker → (ker.code.getD k.pc 0).toNat = w → wordValid ker.code.length k.pc w = true →
    (ker.stepLimit ≤ k.steps → ∃ row ∈ tileRows, exec (row uid) s = .next (faultJob s u tile 1 3 k.pc 0)) ∧
    (k.steps < ker.stepLimit → ker.code.length ≤ k.pc + 1 → iOp w ≤ 0x0B → ∃ row ∈ tileRows, exec (row uid) s = .next (faultJob s u tile 1 7 k.pc 0))

/-- For a unit at a word that R236 admits: of the 72 rows of tile code exactly one does not leave the state as it is by reason of its word,
that is: at the step limit, where every row that takes the word faults the job, exactly one row answers a state other than the given one
(given that the fault changes the state). Derived from spec/08_mbatas_reference.md R235; spec/08_mbatas_reference.md R236. The model's
choices that it rests on: assumption log 75. -/
def Obligations.EveryValidWordIsOneRow : Prop :=
  ∀ (s : State) (uid : Nat) (u : Machine.Unit) (tile : Nat) (k : KMachine) (ker : Kernel) (w : Nat),
    s.unit uid = some u → u.place = .running tile → u.kernel = some k → k.active = true →
    Map.look (s.part u.part).kernels k.kernel = some ker → (ker.code.getD k.pc 0).toNat = w → ker.stepLimit ≤ k.steps →
    wordValid ker.code.length k.pc w = true → faultJob s u tile 1 3 k.pc 0 ≠ s →
    ∃ n, n < tileRows.length ∧ ∀ m, m < tileRows.length → (exec ((tileRows.getD m .ret) uid) s ≠ .next s ↔ m = n)

/-- After sD is written it reads as the value and every other scalar, vector and predicate register and every window byte reads as before;
likewise for pD; and after vD is written under a guard, lane j of vD is the new lane where the guard admits j and the old one elsewhere,
every other register as before. The state after an instruction that goes on differs from the state before in the schedule alone: every
other unit, every tile, queue and register of the schedule is as before, the unit keeps all but its kernel call, and every other field of
the state is the same. Derived from spec/08_mbatas_reference.md R233; spec/08_mbatas_reference.md R234; spec/08_mbatas_reference.md R235. -/
def Obligations.TileFrame : Prop :=
  (∀ (c : KCall) (n m w : Nat) (v : Word) (p : BitVec 64) (l : List Word),
    ((c.setS n v).s m = if m = n then v else c.s m) ∧ (c.setS n v).v m = c.v m ∧ (c.setS n v).p m = c.p m ∧ (c.setS n v).window = c.window ∧
    ((c.setP n p).p m = if m = n then p else c.p m) ∧ (c.setP n p).s m = c.s m ∧ (c.setP n p).v m = c.v m ∧ (c.setP n p).window = c.window ∧
    (m ≠ n → (c.setV w n l).v m = c.v m) ∧ (c.setV w n l).s m = c.s m ∧ (c.setV w n l).p m = c.p m ∧ (c.setV w n l).window = c.window ∧
    (∀ j, j < l.length → j < (c.v n).length → ((c.setV w n l).v n)[j]? = some (if bit (guardBits c w) j then l.getD j 0 else (c.v n).getD j 0))) ∧
  (∀ (s : State) (uid : Nat) (k : KMachine) (c : KCall) (pc : Nat) (u : Machine.Unit), s.unit uid = some u →
    let t := stepTo s uid k c pc
    t.unit uid = some { u with kernel := some { k with regs := c, pc := pc, steps := k.steps + 1 } } ∧
    (∀ v, v ≠ uid → t.unit v = s.unit v) ∧ { t.sched with units := s.sched.units } = s.sched ∧ { t with sched := s.sched } = s)

/-- A command that may start and passes the checks of R213 completes. nop and fence commit with SUCCESS and change nothing of their own;
event_post commits with its two values in RES0 and RES1; signal sets or adds to its counter modulo 2^64 and shows the value after the
increment of its header too; wait commits at once with SUCCESS where the counter has reached the value, with TIMEOUT where the timeout is
0, and otherwise goes on waiting. Every other field is as the end of a command leaves it. Derived from spec/02_programming_model.md R58;
spec/08_mbatas_reference.md R230; spec/08_mbatas_reference.md R231. The model's choices that it rests on: assumption log 141. -/
def Obligations.FenceCommands : Prop :=
  ∀ (s : State) (c : CmdStep) (f : Flight), Ready s c f →
    let p := c.ref.part
    let w := f.word
    let x := s.part p
    let b := begun s c
    let r := requestedIn b c
    (cOpcode w = Op.nop → exec (.nop c) s = .next (committed r c.ref f St.success 0 0 [])) ∧
    (cOpcode w = Op.fence → exec (.fence c) s = .next (committed r c.ref f St.success 0 0 [])) ∧
    (cOpcode w = Op.eventPost → exec (.eventPost c) s = .next (committed r c.ref f St.success (field w 0x10 4) (field w 0x14 4) [])) ∧
    (cOpcode w = Op.signal →
      let own := BitVec.ofNat 64 (cValue w)
      let v := if bit (field w 0x11 1) 0 then own else x.counter (cCtr w) + own
      let shown := if cSignal w && cSigCtr w = cCtr w then v + BitVec.ofNat 64 (cSigInc w) else v
      exec (.signal c) s = .next (committed (setCounter r p (cCtr w) v) c.ref f St.success (shown.toNat % 2 ^ 32) (shown.toNat / 2 ^ 32) [])) ∧
    (cOpcode w = Op.wait → cTimeout w ≤ 4000000 →
      let v := (x.counter (cCtr w)).toNat
      let q := fun late : Bool => requestedIn (setPlan b c.ref (.waitEnd late v)) c
      exec (.wait c) s = .next (
        if cValue w ≤ v then committed (q false) c.ref f St.success (v % 2 ^ 32) (v / 2 ^ 32) []
        else if cTimeout w = 0 then committed (q true) c.ref f St.timeout (v % 2 ^ 32) (v / 2 ^ 32) []
        else setStage b c.ref (.waiting .counter)))

/-- acct_read with a record of at least 256 bytes at a 64-byte boundary, and cap_read at a 64-byte boundary, commit with SUCCESS and RES0 256;
the bytes written are the accounting record and the capability record of the partition at the commit point. Derived from
spec/09_scheduling.md R265; spec/02_programming_model.md R67. The model's choices that it rests on: assumption log 3. -/
def Obligations.ReportCommands : Prop :=
  ∀ (s : State) (c : CmdStep) (f : Flight), Ready s c f →
    let p := c.ref.part
    let w := f.word
    let x := s.part p
    let b := begun s c
    let r := requestedIn b c
    (cOpcode w = Op.acctRead → 256 ≤ field w 0x14 4 → cAddr18 w % 64 = 0 → exec (.acctRead c) s = .next (committed r c.ref f St.success 256 0 [(cAddr18 w, acctRecord r p)])) ∧
    (cOpcode w = Op.capRead → cAddr18 w % 64 = 0 → exec (.capRead c) s = .next (committed r c.ref f St.success 256 0 [(cAddr18 w, capRecord r p)]))

/-- With operands in range and the job in the state that the command needs: job_create makes the job Idle with its ring count and descriptor
array; job_reset makes a Faulted job Idle; job_destroy of an Idle or Faulted job releases the reservations of its commands that will not
be fetched again and makes it Free; job_bind loads BASE, ENTRIES_LOG2, EQ, HEAD, TAIL and DONE_MASK of the ring descriptor into the free
slot, the job being Bound, and reports HEAD and TAIL; job_unbind of a bound slot whose window is empty writes HEAD, TAIL and DONE_MASK
back to the descriptor, frees the slot, and makes the job Idle where it was its last. Derived from spec/02_programming_model.md R37;
spec/02_programming_model.md R39; spec/02_programming_model.md R42; spec/02_programming_model.md R43; spec/08_mbatas_reference.md R217;
spec/08_mbatas_reference.md R218. The model's choices that it rests on: assumption logs 78, 131, 132. -/
def Obligations.JobCommands : Prop :=
  ∀ (s : State) (c : CmdStep) (f : Flight), Ready s c f →
    let p := c.ref.part
    let w := f.word
    let x := s.part p
    let b := begun s c
    let r := requestedIn b c
    (cOpcode w = Op.jobCreate → cJob w ≠ 0 → 1 ≤ field w 0x11 1 → field w 0x11 1 ≤ 4 → cAddr18 w % 128 = 0 → (x.job (cJob w)).state = .free → exec (.jobCreate c) s = .next (committed (r.onPart p fun x => x.onJob (cJob w) fun _ => ⟨.idle, field w 0x11 1, cAddr18 w, none⟩) c.ref f St.success 0 0 [])) ∧
    (cOpcode w = Op.jobReset → cJob w ≠ 0 → (x.job (cJob w)).state = .faulted → exec (.jobReset c) s = .next (committed (r.onPart p fun x => x.onJob (cJob w) fun j => { j with state := .idle }) c.ref f St.success 0 0 [])) ∧
    (cOpcode w = Op.jobDestroy → cJob w ≠ 0 → (x.job (cJob w)).state ≠ .free → (x.job (cJob w)).state ≠ .bound →
      let t := (x.kept.filter fun k => k.job = cJob w).foldl (fun t k => releaseReservations t c.ref k.rsv) r
      exec (.jobDestroy c) s = .next (committed (t.onPart p fun x =>
        { (x.onJob (cJob w) fun _ => Job.reset) with kept := x.kept.filter fun k => k.job != cJob w }) c.ref f St.success 0 0 [])) ∧
    (cOpcode w = Op.jobBind → cJob w ≠ 0 → field w 0x11 1 ≤ 3 → cSlot w ≠ 0 → cSlot w ≤ 63 → (x.job (cJob w)).state ≠ .free → (x.job (cJob w)).state ≠ .faulted →
      field w 0x11 1 < (x.job (cJob w)).rings → (x.slot (cSlot w)).bound = false →
      (x.slots.any fun e => e.1 ≠ 0 && e.2.bound && e.2.job = cJob w && e.2.ring = field w 0x11 1) = false →
      let a := (x.job (cJob w)).desc + 32 * field w 0x11 1
      let d := descriptorOf (s.hostBytes a 32)
      readOk c.bad a 32 = true → d.reserved = false → d.inRange = true → (x.eq d.eq).en = true →
      exec (.jobBind c) s = .next (committed ((requestedIn (setPlan (hostIn b c.ref 32) c.ref (.bytes (s.hostBytes a 32))) c).onPart p fun x =>
        (x.onSlot (cSlot w) fun y =>
          { Slot.reset with
            bound := true, ring := field w 0x11 1, job := cJob w, base := d.base, entriesLog2 := d.entriesLog2, eq := d.eq
            head := d.head, tail := d.tail, doneMask := BitVec.ofNat 64 d.done, snare := y.snare }).onJob (cJob w)
          fun j => { j with state := .bound }) c.ref f St.success d.head d.tail [])) ∧
    (cOpcode w = Op.jobUnbind → cSlot w ≠ 0 → cSlot w ≤ 63 → (x.slot (cSlot w)).bound = true → (x.slot (cSlot w)).window = [] →
      let t := requestedIn (setPlan (stopSlot b p (cSlot w)).1 c.ref (.unbind 0 0)) c
      let y := t.slot p (cSlot w)
      exec (.jobUnbind c) s = .next (committed (t.onPart p fun x => afterUnbind (x.onSlot (cSlot w) Slot.released) y.job) c.ref f
        St.success 0 y.head (descriptorWrites (t.part p) y)))

/-- model_register with a geometry in range, a free model number and tag, loaded kernels of the right kinds and a page that holds its
footprint registers the model and reports the footprint and the staging size. model_unregister of a model that nothing uses evicts its
prefix entries, counts them, and removes it. kernel_load of a readable valid image that fits the store loads it and reports the bytes in
use. kernel_unload of a kernel that no model names and no running command uses removes it and reports the bytes in use. Derived from
spec/02_programming_model.md R63; spec/02_programming_model.md R64; spec/02_programming_model.md R66; spec/08_mbatas_reference.md R219;
spec/08_mbatas_reference.md R220; spec/08_mbatas_reference.md R236; spec/08_mbatas_reference.md R237. The model's choices that it rests
on: assumption logs 75, 76, 131. -/
def Obligations.ModelAndKernelCommands : Prop :=
  ∀ (s : State) (c : CmdStep) (f : Flight), Ready s c f →
    let p := c.ref.part
    let w := f.word
    let x := s.part p
    let b := begun s c
    let r := requestedIn b c
    (cOpcode w = Op.modelRegister → (modelOf w).inRange = true → Map.has x.models (cModel w) = false →
      (x.models.any fun e => e.2.tag = (modelOf w).tag) = false →
      ((modelOf w).posKernel = 0 ∨ kernelOk x (modelOf w).posKernel 1) → ((modelOf w).scoreKernel = 0 ∨ kernelOk x (modelOf w).scoreKernel 2) →
      (modelOf w).footprint ≤ (modelOf w).pageKib * 1024 →
      exec (.modelRegister c) s = .next (committed (r.onPart p fun x => { x with models := Map.put x.models (cModel w) (modelOf w) }) c.ref f
        St.success (modelOf w).footprint (modelOf w).stagingBytes [])) ∧
    (cOpcode w = Op.modelUnregister → Map.has x.models (cModel w) = true → modelInUse x (cModel w) = false →
      exec (.modelUnregister c) s = .next (committed ((evictModel r p (cModel w)).1.onPart p fun x => { x with models := Map.del x.models (cModel w) })
        c.ref f St.success (x.dir.filter fun e => e.2.model = cModel w).length 0 [])) ∧
    (cOpcode w = Op.kernelLoad → cJob w ≠ 0 → 64 ≤ field w 0x14 4 → field w 0x14 4 ≤ 65536 → cAddr18 w % 64 = 0 → Map.has x.kernels (cJob w) = false →
      readOk c.bad (cAddr18 w) (field w 0x14 4) = true → storeUsed x + roundUp (field w 0x14 4) 256 ≤ 65536 →
      let img := s.hostBytes (cAddr18 w) (field w 0x14 4)
      ∀ k, kernelOf img = some k →
      let t := (requestedIn (setPlan (hostIn b c.ref (field w 0x14 4)) c.ref (.bytes img)) c).onPart p fun x => { x with kernels := Map.put x.kernels (cJob w) k }
      exec (.kernelLoad c) s = .next (committed t c.ref f St.success (storeUsed (t.part p)) 0 [])) ∧
    (cOpcode w = Op.kernelUnload → cJob w ≠ 0 → Map.has x.kernels (cJob w) = true →
      (x.models.any fun e => e.2.posKernel = cJob w || e.2.scoreKernel = cJob w) = false → kernelUsers x (cJob w) s.sched.order = false →
      let t := (requestedIn (setPlan (b.onPart p fun x => { x with kernels := Map.edit x.kernels (cJob w) fun e => { e with unloading := true } }) c.ref .unload) c).onPart p
        fun x => { x with kernels := Map.del x.kernels (cJob w) }
      exec (.kernelUnload c) s = .next (committed t c.ref f St.success (storeUsed (t.part p)) 0 []))

/-- Of a sequence that the handle names: seq_close closes it and reports its LENGTH. seq_park of an ACTIVE or swapped sequence parks it with
its PARK_WAIT and prediction and reports 2; of a PARKING one it only renews PARK_WAIT; of one at rest or restoring it reports the state.
seq_resume wakes it and reports its LENGTH and how many tentative copies became homes; of a sequence at REST, with a hot-table entry, room
for its tables and a rest frame that can be read, it takes them and goes to the commit stage. seq_hint on an ACTIVE or RESTORING sequence
changes nothing; on any other it predicts the resume at the seconds counter plus the delay. seq_query at a 64-byte boundary writes the
report of the sequence. spec_cancel releases the tentative copies that no running command has read and no committed reader keeps, is held
where one is left, and else reports how many it released. Derived from spec/03_kv_pages.md R91; spec/08_mbatas_reference.md R222;
spec/05_tiers_placement.md R151; spec/05_tiers_placement.md R153; spec/08_mbatas_reference.md R223. The model's choices that it rests on:
assumption logs 13, 27, 28. -/
def Obligations.SequenceStateCommands : Prop :=
  ∀ (s : State) (c : CmdStep) (f : Flight) (q : Seq), Ready s c f → (s.part c.ref.part).handle (cHandle f.word) = some q →
    let p := c.ref.part
    let w := f.word
    let i := handleIndex (cHandle w)
    let b := begun s c
    let r := requestedIn b c
    (cOpcode w = Op.seqClose → exec (.seqClose c) s = .next (committed (closeSeq r p i c.ref) c.ref f St.success q.length 0 [])) ∧
    (cOpcode w = Op.seqPark → (q.state = .active ∨ q.state = .swapped) → exec (.seqPark c) s = .next (committed
      (parkPredict ((parkSeq r p i).onSeq p i fun q => { q with lastUse := (parkSeq r p i).nowS }) p i (cWord14 w)) c.ref f St.success 2 0 [])) ∧
    (cOpcode w = Op.seqPark → q.state = .parking → exec (.seqPark c) s = .next (committed
      (r.onSeq p i fun q => { q with parkWait := cWord14 w, lastUse := r.nowS }) c.ref f St.success 2 0 [])) ∧
    (cOpcode w = Op.seqPark → (q.state = .rest ∨ q.state = .restoring) → exec (.seqPark c) s = .next (committed r c.ref f St.success q.state.code 0 [])) ∧
    (cOpcode w = Op.seqResume → (q.state = .active ∨ q.state = .swapped ∨ q.state = .restoring) →
      let d := dropReserve r c.ref
      ∀ t, wakeSeq d p i none ⟨c.ref, [], true, []⟩ w = .awake t →
      exec (.seqResume c) s = .next (committed (t.onSeq p i fun q => { q with lastUse := t.nowS }) c.ref f St.success q.length
        (if q.state = .restoring then (promoteAll r p i).2 else 0) [])) ∧
    (cOpcode w = Op.seqResume → q.state = .parking → exec (.seqResume c) s = .next (committed
      ((dropReserve (unpark r p i) c.ref).onSeq p i fun q => { q with lastUse := s.nowS }) c.ref f St.success q.length 0 [])) ∧
    (cOpcode w = Op.seqResume → q.state = .rest → takeHot b p = .free → ∀ u fs, wakeTables b p i q = .got u fs →
      let u := (setPlan u c.ref .resume).onFlight c.ref fun f => { f with slots := tableSlots q.pt.length }
      ∀ v, cmdReads u p c w q.homeQ [.rest i] = .done v → exec (.seqResume c) s = .next (commitCmd c.ref (requestedIn v c))) ∧
    (cOpcode w = Op.seqHint → (q.state = .active ∨ q.state = .restoring) → exec (.seqHint c) s = .next (committed r c.ref f St.success 0 0 [])) ∧
    (cOpcode w = Op.seqHint → q.state ≠ .active → q.state ≠ .restoring → exec (.seqHint c) s = .next (committed
      (trimWakeList ((useSeq r p i).onSeq p i fun q => { q with predTime := s.nowS + field w 0x14 2, predicted := true, hinted := true }))
      c.ref f St.success (s.nowS + field w 0x14 2) 0 [])) ∧
    (cOpcode w = Op.seqQuery → field w 0x18 8 % 64 = 0 → exec (.seqQuery c) s = .next (committed (useSeq r p i) c.ref f St.success q.state.code 0
      [(field w 0x18 8, queryReport ((useSeq r p i).part p) ((((useSeq r p i).part p).seq i).getD q) i)])) ∧
    (cOpcode w = Op.specCancel →
      let d := dropTents r p i
      ∀ q', (d.1.part p).seq i = some q' →
      ((d.1.part p).tentsOf q' = [] → exec (.specCancel c) s = .next (committed
        ((useSeq d.1 p i).onSeq p i fun q => if q.state = .restoring then ((useSeq d.1 p i).part p).backToRest q else q) c.ref f St.success d.2 0 [])) ∧
      ((d.1.part p).tentsOf q' ≠ [] → exec (.specCancel c) s = .next (setStage d.1 c.ref .held)))

/-- A spec_cancel whose handle names a sequence releases the tentative pages of that sequence. It commits with status success in a state where
the sequence has none left, neither copies of pages nor of tail pages, and so at once where it had none; where one is left, since a
running command has read it or a committed reader's promotion of it is under way, it is held and not committed. (R62) -/
def Obligations.SpecCancelReleases : Prop :=
  ∀ (s : State) (c : CmdStep) (f : Flight) (q q' : Seq), Ready s c f → (s.part c.ref.part).handle (cHandle f.word) = some q → cOpcode f.word = Op.specCancel →
    let p := c.ref.part
    let i := handleIndex (cHandle f.word)
    let d := dropTents (requestedIn (begun s c) c) p i
    (d.1.part p).seq i = some q' →
    ((d.1.part p).tentsOf q' = [] → ∃ t n, exec (.specCancel c) s = .next (committed t c.ref f St.success n 0 []) ∧
      (t.part p).tentsOf q' = [] ∧ ∃ u, (t.part p).seq i = some u ∧ u.pt = q'.pt ∧ u.tailTents = []) ∧
    ((s.part p).tentsOf q = [] → q.tailTents = [] → ∃ t, exec (.specCancel c) s = .next (committed t c.ref f St.success 0 0 [])) ∧
    ((d.1.part p).tentsOf q' ≠ [] → exec (.specCancel c) s = .next (setStage d.1 c.ref .held))

/-- seq_fork of an ACTIVE sequence with its step closed, with a hot-table entry free, DRAM for the child's tables and tail pages and every
tail page readable, copies the tail pages into the pages it allocated and asks for its commit with the lowest free index. seq_trim of such
a sequence at a length T that cuts within its tail or between page sets asks for its commit at once; inside page set k, whose descriptor
is in DRAM and whose pages can be read, it allocates a tail page per layer, reads and pins the set, decodes the kept positions into the
new pages, and asks for its commit. Derived from spec/03_kv_pages.md R94; spec/08_mbatas_reference.md R221. The model's choices that it
rests on: assumption logs 14, 40, 168. -/
def Obligations.SequenceCopyCommands : Prop :=
  ∀ (s : State) (c : CmdStep) (f : Flight) (q : Seq), Ready s c f → (s.part c.ref.part).handle (cHandle f.word) = some q →
    let p := c.ref.part
    let w := f.word
    let i := handleIndex (cHandle w)
    let b := begun s c
    let r := requestedIn b c
    (cOpcode w = Op.seqFork → q.isOpen = false → q.state = .active → takeHot b p = .free →
      let m := (b.part p).model q.model
      ∀ u fs, allocWithTables p q.homeQ (tableSlots q.pt.length) 0 (some i) (q.tails.map fun _ => m.stagingFrames) b = .got u fs →
      ∀ v, cmdReads u p c w q.homeQ (q.tails.map fun e => .tail i e.1) = .done v → (u.part p).model q.model = m →
      let v := (q.tails.zip fs).foldl
        (fun s e => newObject (touchObject s p (.tail i e.1.1) [(0, m.stagingBytes)]) p e.2 m.stagingFrames ((s.part p).bytesAt e.1.2)) v
      let tails := (q.tails.zip fs).map fun e => (e.1.1, (⟨.page, 0, e.2⟩ : Loc))
      let v := setPlan v c.ref (.copy q.length (freshIndex (v.part p) + 1) tails)
      exec (.seqFork c) s = .next (commitCmd c.ref
        (requestedIn (v.onFlight c.ref fun f => { f with startLen := q.length, slots := tableSlots q.pt.length }) c))) ∧
    (cOpcode w = Op.seqTrim → q.isOpen = false → q.state = .active → cWord14 w ≤ q.length → (q.length / 256 ≤ cWord14 w / 256 ∨ cWord14 w % 256 = 0) →
      exec (.seqTrim c) s = .next (commitCmd c.ref (requestedIn (setPlan (b.onFlight c.ref fun f => { f with startLen := q.length }) c.ref (.copy q.length 0 [])) c))) ∧
    (cOpcode w = Op.seqTrim → q.isOpen = false → q.state = .active → cWord14 w / 256 < q.length / 256 → cWord14 w % 256 ≠ 0 →
      let b := b.onFlight c.ref fun f => { f with startLen := q.length }
      let m := (b.part p).model q.model
      let t := cWord14 w % 256
      ∀ e u fs v, q.pt[cWord14 w / 256]? = some e → segmentsOut (b.part p) [e.psn] = [] →
      allocAll p q.homeQ (some i) (List.replicate m.layers m.stagingFrames) b = .got u fs → (u.part p).model q.model = m →
      cmdReads u p c w q.homeQ ((List.range m.layers).map fun l => .page e.psn l) = .done v →
      let loc := fun (s : State) (l : Nat) => match (s.part p).set e.psn with
        | some d => Map.get d.loc l Loc.none
        | none => Loc.none
      let v := fs.zipIdx.foldl
        (fun s a =>
          let l := loc s a.2
          let s := touchObject s p (.page e.psn a.2) (blockRanges m l.kind 0 m.kvHeads 0 t)
          newObject s p a.1 m.stagingFrames (decodeTail m l.kind ((s.part p).bytesAt l) t)) (pinFor v c.ref [e.psn])
      exec (.seqTrim c) s = .next (commitCmd c.ref (requestedIn (setPlan v c.ref (.copy q.length 0 (fs.zipIdx.map fun a => (a.2, (⟨.page, 0, a.1⟩ : Loc))))) c)))

/-- seq_open and prefix_probe whose operands are in range, whose model is registered and whose tokens can be read run their lookup and then go
to the commit stage; a seq_open needs a hot-table entry and DRAM for its tables. prefix_publish of n closed page sets of an ACTIVE
sequence, whose descriptors are in DRAM, runs and asks for its commit with what it found. prefix_retain sets or clears RETAIN of the
entries that hold the first n page sets, within the limit, and reports how many changed. prefix_evict of a model evicts its entries, of a
sequence the entries of its first n page sets; each reports how many. seq_open with T = 0 commits with a new ACTIVE sequence of LENGTH 0
at the lowest free index, its handle in RES0; the lookup counter rises by one unless NO_ADOPT is set. prefix_probe with T = 0 commits with
no set found and counts its lookup. Derived from spec/04_prefix_store.md R106; spec/04_prefix_store.md R108; spec/04_prefix_store.md R112;
spec/04_prefix_store.md R114; spec/04_prefix_store.md R117; spec/08_mbatas_reference.md R221; spec/08_mbatas_reference.md R225;
spec/04_prefix_store.md R110. The model's choices that it rests on: assumption logs 14, 74, 131, 165. -/
def Obligations.PrefixCommands : Prop :=
  (∀ (s : State) (c : CmdStep) (f : Flight), Ready s c f →
    let p := c.ref.part
    let w := f.word
    let b := begun s c
    let r := requestedIn b c
    (cOpcode w = Op.seqOpen → openCheck b p c.bad w = none → takeHot b p = .free →
      let n := tableSlots (if oNoAdopt w then 0 else hMaxOf w)
      ∀ u fs, allocWithTables p 0 n 0 none [] b = .got u fs →
      exec (.seqOpen c) s = .next (commitCmd c.ref (startLookup (u.onFlight c.ref fun f => { f with slots := n }) c w (freshIndex (u.part p) + 1)))) ∧
    (cOpcode w = Op.prefixProbe → openCheck b p c.bad w = none → exec (.prefixProbe c) s = .next (commitCmd c.ref (startLookup b c w 0))) ∧
    (cOpcode w = Op.prefixEvict → evictMode w = 0 → Map.has (s.part p).models (evictModelNo w) = true →
      exec (.prefixEvictModel c) s = .next (committed (evictModel r p (evictModelNo w)).1 c.ref f St.success
        ((s.part p).dir.filter fun e => e.2.model = evictModelNo w).length 0 [])) ∧
    (∀ q, (s.part p).handle (cHandle w) = some q → q.state = .active → 1 ≤ cWord14 w → cWord14 w ≤ 4096 →
      let i := handleIndex (cHandle w)
      let es := leadingEntries (s.part p) q (cWord14 w)
      let set := !bit (field w 0x18 1) 0
      (cOpcode w = Op.prefixPublish → cWord14 w ≤ q.stepBase / 256 →
        segmentsOut (b.part p) ((q.pt.take (cWord14 w)).map fun e => e.psn) = [] → exec (.prefixPublish c) s =
        .next (commitCmd c.ref (requestedIn (setPlan b c.ref (.publish (publishRun b p i (cWord14 w)).found)) c))) ∧
      (cOpcode w = Op.prefixRetain → cWord14 w ≤ q.length / 256 →
        (set = true → retained (s.part p) + (es.filter fun e => !e.2.retain).length ≤ Config.retainLimit) →
        exec (.prefixRetain c) s = .next (committed (useSeq ((es.filter fun e => e.2.retain != set).foldl (fun s e => s.onPart p fun x =>
          { x with dir := Map.edit x.dir e.1 fun d => { d with retain := set } }) r) p i) c.ref f St.success (es.filter fun e => e.2.retain != set).length 0 [])) ∧
      (cOpcode w = Op.prefixEvict → evictMode w = 1 → cWord14 w ≤ q.length / 256 →
        exec (.prefixEvictSequence c) s = .next (committed (useSeq (es.foldl (fun s e => evictEntry s p e.1) r) p i) c.ref f St.success es.length 0 [])))) ∧
  (∀ (s : State) (c : CmdStep) (f : Flight), Ready s c f →
    let p := c.ref.part
    let w := f.word
    let b := begun s c
    let r := requestedIn b c
    (cOpcode w = Op.seqOpen → oT w = 0 → oMaxSets w ≤ 4096 → (oTokPw w = true → oTokens w ≤ (s.part p).sliceBytes) → Map.has (s.part p).models (cModel w) = true →
      takeHot b p = .free → ∀ u fs, allocWithTables p 0 (tableSlots 0) 0 none [] b = .got u fs →
      u.slot p c.ref.slot = b.slot p c.ref.slot → (u.eq p (b.slot p c.ref.slot).eq).stuck = false → (u.func p).disable = none →
      let n := freshIndex (u.part p)
      let u := u.onFlight c.ref fun f => { f with slots := tableSlots 0 }
      let t := requestedIn (setPlan u c.ref (.lookup [] [] 0 (n + 1) (hMaxOf w) true)) c
      let q := newSeq t p n (cModel w) (openHome (t.part p) []) 0 []
      let u := onCnt (putSeq t p n q) p fun k => { k with lookups := if oNoAdopt w then k.lookups else k.lookups + 1 }
      exec (.seqOpen c) s = .next (committed (setPlan u c.ref .none) c.ref f St.success (q.handleOf n) 0 [])) ∧
    (cOpcode w = Op.prefixProbe → oT w = 0 → oMaxSets w ≤ 4096 → (oTokPw w = true → oTokens w ≤ (s.part p).sliceBytes) →
      Map.has (s.part p).models (cModel w) = true →
      exec (.prefixProbe c) s = .next (committed (onCnt (requestedIn (setPlan b c.ref (.lookup [] [] 0 0 (hMaxOf w) true)) c) p
        fun k => { k with lookups := k.lookups + 1 }) c.ref f St.success 0 0 [])))

/-- host_region_add of a free region number with an aligned base and size commits with the region in place and its count of frames.
host_region_remove of a region that is not being removed, with room for its frames, marks it, begins the moves of its objects and asks for
its commit. kv_read of 1 to 16,384 stored positions of a layer of an ACTIVE sequence, every page readable and every descriptor in DRAM, in
an output format, pins the sets, reads the pages, and asks for its commit with the bytes of the keys and values. Derived from
spec/05_tiers_placement.md R154; spec/05_tiers_placement.md R155; spec/08_mbatas_reference.md R224; spec/08_mbatas_reference.md R226. The
model's choices that it rests on: assumption logs 3, 40, 144. -/
def Obligations.RegionAndReadCommands : Prop :=
  ∀ (s : State) (c : CmdStep) (f : Flight), Ready s c f →
    let p := c.ref.part
    let w := f.word
    let b := begun s c
    let r := requestedIn b c
    (cOpcode w = Op.hostRegionAdd → cBase w % 65536 = 0 → cBytes w % 2048 = 0 → 67584 ≤ cBytes w → cBytes w ≤ 2 ^ 40 → Map.has (s.part p).regions (cRegion w) = false →
      exec (.hostRegionAdd c) s = .next (committed (r.onPart p fun x => { x with regions := Map.put x.regions (cRegion w) ⟨cBase w, cBytes w, false, []⟩ })
        c.ref f St.success (Region.frames ⟨cBase w, cBytes w, false, []⟩) 0 [])) ∧
    (cOpcode w = Op.hostRegionRemove → ∀ g, Map.look (s.part p).regions (cRegion w) = some g → g.removing = false →
      sum (g.alloc.map fun e => e.2.frames) ≤ removalRoom b p →
      let t := b.onPart p fun x => { x with regions := Map.edit x.regions (cRegion w) fun r => { r with removing := true } }
      exec (.hostRegionRemove c) s = .next (commitCmd c.ref (requestedIn (setPlan (evacuate t p (cRegion w) [] c.ref) c.ref (.region 0 [])) c))) ∧
    (cOpcode w = Op.kvRead → ∀ q, (s.part p).handle (cHandle w) = some q → q.state = .active →
      let m := (s.part p).model q.model
      let i := handleIndex (cHandle w)
      let layer := field w 0x14 1
      let fmt := field w 0x15 1 % 16
      let lo := field w 0x18 4
      let n := field w 0x1C 4
      layer < m.layers → fmt ≤ 3 → 1 ≤ n → n ≤ 16384 → lo + n ≤ q.lenOf layer → field w 0x20 8 % 64 = 0 →
      let sets := setsOf q layer lo n
      segmentsOut (b.part p) sets = [] →
      let os := kvObjects q i layer lo n
      let kind := fun (s : State) (o : MoveObj) => match o with
        | .page psn l => match (s.part p).set psn with
          | some d => (Map.get d.loc l Loc.none).kind
          | none => .page
        | _ => .staging
      ∀ v, cmdReads (pinFor b c.ref sets) p c w q.homeQ (os.map fun o => o.1) = .done v →
      let v := os.foldl (fun s o => touchObject s p o.1 (blockRanges m (kind s o.1) 0 m.kvHeads o.2.1 o.2.2)) v
      exec (.kvRead c) s = .next (commitCmd c.ref (requestedIn (setPlan v c.ref (.bytes (kvBytes (v.part p) m q layer fmt lo n))) c)))

/-- append, attend and extend that pass the checks of the command check and reserve their elements in list order, dispatch them as far as each
can go, and (where they read) prefetch the following layers; then they wait for their units, or go to the commit stage where no element is
left to run. kernel_run with operands in range, a loaded kernel of its kind, readable inputs and DRAM for its outputs puts one unit per
instance into the idlest quadrant and waits for them. seq_migrate of an ACTIVE sequence with its step closed, all its pages flushed and
readable and their descriptors in DRAM, over a ready queue pair, pins its sets, sends header and page table, and waits for their
acknowledgement. Derived from spec/06_attention.md R167; spec/06_attention.md R170; spec/08_mbatas_reference.md R227;
spec/08_mbatas_reference.md R228; spec/08_mbatas_reference.md R229; spec/11_fabric.md R341. The model's choices that it rests on:
assumption log 131. -/
def Obligations.RunCommands : Prop :=
  ∀ (s : State) (c : CmdStep) (f : Flight), Ready s c f →
    let p := c.ref.part
    let w := f.word
    let b := begun s c
    let r := requestedIn b c
    (∀ row, ((row = Instr.append ∧ cOpcode w = Op.append) ∨ (row = Instr.attend ∧ cOpcode w = Op.attend) ∨ (row = Instr.extend ∧ cOpcode w = Op.extend)) →
      attentionCheck b p c.bad w = none →
      let e := checkElements c (begunFlight s c f) (cN w) 0 [] [] (if cListPw w then b else hostIn b c.ref (64 * cN w))
      let good := e.2.filter fun a => a.status = 0
      let m := (b.part p).model (cModel w)
      let readers := if cOpcode w = Op.append then [] else good
      let ch := fitChunk e.1 p m readers 11 (chunkOf m (readers.map fun a => (a.count, a.extent)))
      let t := settleCommand (setStage (setPlan e.1 c.ref (.attention ch e.2)) c.ref (.waiting .units)) c.ref
      let t := (List.range (cN w)).foldl (fun s k => advanceElem s c k) t
      exec (row c) s = .next (commitCmd c.ref (if cOpcode w = Op.append then t else good.foldl (fun s a => prefetchFor s c.ref a) t))) ∧
    (cOpcode w = Op.kernelRun → field w 0x10 1 ≠ 0 → 1 ≤ kInstances w → kInstances w ≤ 1024 → kIn w % 64 = 0 → kOut w % 64 = 0 →
      kInBytes w ≤ 131072 → kInBytes w % 64 = 0 → kOutBytes w ≤ 131072 → kOutBytes w % 64 = 0 →
      (kInPw w = true → kIn w + kInstances w * kInBytes w ≤ (s.part p).sliceBytes) → kernelOk (s.part p) (field w 0x10 1) 3 = true →
      (kInPw w = false → readOk c.bad (kIn w) (kInstances w * kInBytes w) = true) →
      let quad := idlestQuad b
      ∀ u fs, allocAll p quad none (List.replicate (ceilDiv (kInstances w * kOutBytes w) 65536) 1) b = .got u fs →
      let t := if kInPw w then u else hostIn u c.ref (kInstances w * kInBytes w)
      let t := activate (setStage (setPlan t c.ref (.kernelRun [] (kInstances w) fs)) c.ref (.waiting .units)) p quad
      exec (.kernelRun c) s = .next (commitCmd c.ref ((List.range (kInstances w)).foldl (fun a k => addUnit a { blankUnit with
        part := p, slot := c.ref.slot, index := c.ref.index, elem := k, kind := .kernel, quad := quad, bestEffort := bestEffort a p
        order := s.sched.order * 16 * 2 ^ 32 + k }) t))) ∧
    (cOpcode w = Op.seqMigrate → ∀ q, (s.part p).handle (cHandle w) = some q → q.state = .active → q.isOpen = false → cQp w / 65536 = p →
      ((s.part p).qp (cQp w % 65536)).state = .ready → unflushed (b.part p) q = false →
      let m := (s.part p).model q.model
      let sets := q.pt.map fun e => e.psn
      let i := handleIndex (cHandle w)
      segmentsOut (b.part p) sets = [] → ∀ v, cmdReads b p c w q.homeQ (migrateObjs i q m) = .done v →
      let u := pinFor (t1Read v p (migrateDram (v.part p) q m)) c.ref sets
      let g := commandGroup u c.ref (cQp w % 65536)
      let head := (0, headerBytes u (u.part p) q i)
      let table := if q.pt = [] then [] else [(0x1000, q.pt.flatMap fun e => leBytes 8 e.word)]
      let u := sendParts p (cQp w % 65536) g.1 (field w 0x18 8) c.ref (head :: table) g.2
      exec (.seqMigrate c) s = .next (commitCmd c.ref (setStage (setPlan u c.ref (.migrate (cQp w % 65536) g.1 0 false)) c.ref (.waiting .migrateData))))

/-- A command of a slot's window with BARRIER set, or of the control class, that has an earlier command of its slot before it (in the window,
or still to be fetched) does not start: no row of a command changes anything. No command of a slot starts while an earlier command of the
control class (they run in slot 0) has not committed. Where nothing earlier is left, BARRIER holds nothing back: the command may start
under the same conditions as one without it. (R54) -/
def Obligations.BarrierHoldsBack : Prop :=
  ∀ (s : State) (c : CmdStep) (f : Flight), s.flight c.ref = some f →
    let x := s.slot c.ref.part c.ref.slot
    let barrier := cBarrier f.word = true ∨ isControl (cOpcode f.word) = true
    (barrier → (x.earlier f ≠ [] ∨ x.noGap f = false) → ∀ row ∈ commandRows, exec (row c) s = .next s) ∧
    ((x.earlier f).any (fun g => isControl (cOpcode g.word)) = true → ∀ row ∈ commandRows, exec (row c) s = .next s) ∧
    (barrier → x.earlier f = [] → x.noGap f = true → s.ready = true → (s.part c.ref.part).live = true → x.draining = false → x.stopped = false →
      (s.func c.ref.part).disable = none → f.stage = .fetched → mayStart s c.ref f = true)

/-- A commit request, or a held command, waits while an earlier command of its slot names one of the same sequences, and while its record has
no room. Otherwise the commit unit does what the opcode's commit point gives: the commit with its record and outputs, a kill, or a
rejection; a rejected command ends with its record. A held command is released the same way. With the sequence of its handle still ACTIVE,
its step closed and its LENGTH as at the start: seq_fork commits with a child at the reserved index that shares every page set and holds
the copied tail, its handle and LENGTH in the record. seq_trim whose length T lies above 0 in the tail commits with LENGTH, RESERVED_LEN
and STEP_BASE at T and the tail kept; no page set is dropped. A fork or trim whose LENGTH changed is killed. kv_read commits with the
bytes it gathered. Derived from spec/02_programming_model.md R49; spec/02_programming_model.md R53; spec/01_architecture.md R33;
spec/09_scheduling.md R257; spec/09_scheduling.md R259; spec/03_kv_pages.md R94; spec/08_mbatas_reference.md R221;
spec/08_mbatas_reference.md R224. -/
def Obligations.CommitUnit : Prop :=
  (∀ (s : State) (c : CmdRef) (f : Flight), s.flight c = some f →
    let x := s.slot c.part c.slot
    (∀ st, f.stage = .rejected st → (s.eq c.part x.eq).stuck = false → exec (.commitRequest c) s = .next (endRejected s c f st)) ∧
    ((f.stage = .requested ∨ f.stage = .held) → commitBlocked x f = true → exec (.commitRequest c) s = .next s) ∧
    ((f.stage = .requested ∨ f.stage = .held) → commitBlocked x f = false → (s.eq c.part x.eq).stuck = true → (s.eq c.part x.eq).en = true →
      s.stopping c = false →
      exec (.commitRequest c) s = .next (setStage (s.onEq c.part x.eq fun e => { e with ovfFull := true }) c .held)) ∧
    (∀ row, ((row = Instr.commitRequest ∧ (f.stage = .requested ∨ f.stage = .held)) ∨ (row = Instr.heldCommitRelease ∧ f.stage = .held)) →
      commitBlocked x f = false → (s.eq c.part x.eq).stuck = false →
      (∀ t st r0 r1 outs, commitOp (rewake s c f) c x f = .done t st r0 r1 outs → exec (row c) s = .next (committed t c f st r0 r1 outs)) ∧
      (∀ t, commitOp (rewake s c f) c x f = .kill t → exec (row c) s = .next (killCommand t c)) ∧
      (∀ t st, commitOp (rewake s c f) c x f = .reject t st → exec (row c) s = .next (endRejected t c ((t.flight c).getD f) st)))) ∧
  (∀ (s : State) (c : CmdRef) (f : Flight) (q : Seq), s.flight c = some f → (s.part c.part).handle (cHandle f.word) = some q → q.state = .active →
    f.stage = .requested → f.seqs = [handleIndex (cHandle f.word)] →
    let x := s.slot c.part c.slot
    let p := c.part
    let w := f.word
    let i := handleIndex (cHandle w)
    commitBlocked x f = false → (s.eq p x.eq).stuck = false →
    ((cOpcode w = Op.seqFork ∨ cOpcode w = Op.seqTrim) → q.isOpen = false → q.length ≠ f.startLen → exec (.commitRequest c) s = .next (killCommand s c)) ∧
    (cOpcode w = Op.seqFork → q.isOpen = false → q.length = f.startLen → ∀ n k tails, f.plan = .copy n (k + 1) tails →
      let child := { newSeq s p k q.model q.homeQ q.length (q.pt.map fun e => { e with shared := true }) with tails := tails, tokenTail := q.tokenTail }
      let t := putSeq (q.pt.foldl (fun s e => addRef s p e.psn) s) p k child
      let t := q.tails.foldl (fun s e => promoteTail s p i e.1) (useSeq t p i)
      exec (.commitRequest c) s = .next (committed (setPlan t c .none) c f St.success (child.handleOf k) q.length [])) ∧
    (cOpcode w = Op.seqTrim → q.isOpen = false → q.length = f.startLen → q.length / 256 ≤ cWord14 w / 256 → cWord14 w % 256 ≠ 0 → f.pins = [] →
      ∀ n tails, f.plan = .copy n 0 tails → q.pt.length ≤ cWord14 w / 256 →
      let t := s.onSeq p i fun q =>
        { q with
          length := cWord14 w, reservedLen := cWord14 w, stepBase := cWord14 w, pt := q.pt.take (cWord14 w / 256)
          sharedSets := leadingShared (q.pt.take (cWord14 w / 256)), tokenTail := q.tokenTail.take (cWord14 w % 256), lastUse := s.nowS }
      exec (.commitRequest c) s = .next (committed (setPlan (t.onPart p fun x => x.fitTables i) c .none) c f St.success (cWord14 w) 0 [])) ∧
    (cOpcode w = Op.kvRead → ∀ b, f.plan = .bytes b → f.pins = [] → (field w 0x18 4 + field w 0x1C 4 - 1) / 256 ≠ q.lenOf (field w 0x14 1) / 256 →
      exec (.commitRequest c) s = .next (committed (useSeq s p i) c f St.success b.length 0 [(field w 0x20 8, b)])))

/-- When a ring index is marked as ended, HEAD moves forward by some k of at most 64, past entries that were all marked (or the one just
marked), DONE_MASK is shifted by as many bits, and its bit 0 is then clear. Nothing else of the slot changes. A slot fetches only indices
less than 64 ahead of HEAD, none of them marked, and at most as many as asked for. Derived from spec/02_programming_model.md R40;
spec/02_programming_model.md R41; spec/02_programming_model.md R42. -/
def Obligations.DoneMaskWindow : Prop :=
  (∀ (x : Slot) (i : Nat), 0 < x.size → x.head < x.size →
    let m := x.doneMask ||| (1 : BitVec 64) <<< x.offset i
    ∃ k ≤ 64, x.markDone i = { x with head := (x.head + k) % x.size, doneMask := m >>> k } ∧
      (∀ j < k, m.getLsbD j = true) ∧ (m >>> k).getLsbD 0 = false) ∧
  (∀ (s : State) (p i n : Nat), (nextFetch s p i n).length ≤ n ∧
    ∀ j ∈ nextFetch s p i n, ∃ k < 64, j = ((s.slot p i).head + k) % (s.slot p i).size ∧ (s.slot p i).doneMask.getLsbD k = false)

/-- A slot that fetches, with commands to fetch and a tag free, meters its read. Where the read is not red and completes at once, the commands
enter the window in ring order; a red or deferred read is outstanding, waits for its release or completion, and takes no more than its
tag. A SHAKE256 core that holds a chain ends its digest: on a page set that matches, with more to look up, the chain waits for its next
digest; otherwise the lookup ends and the command asks for its commit. The digests of a prefix_publish pass through the core one by one,
and after the last the command has matched its sets and asks for its commit. The core is granted to the next waiting chain. Derived from
spec/02_programming_model.md R41; spec/04_prefix_store.md R101; spec/04_prefix_store.md R111; spec/12_host_interface.md R369;
spec/12_host_interface.md R370. The model's choices that it rests on: assumption log 95. -/
def Obligations.FetchAndDigestRows : Prop :=
  (∀ (s : State) (p i n : Nat) (defer : Bool), s.fetches p i = true → s.hostUp = true → nextFetch s p i n ≠ [] → tagFree s p = true →
    let l := nextFetch s p i n
    let m := meterRead s p (64 * l.length) (s.slot p i).snare
    (defer = false → m.1 ≠ .red → exec (.commandFetch p i n defer) s = .next
      (pcieIn (l.foldl (fun t k => enterWindow t p i k (t.hostBytes ((m.2.slot p i).base + 64 * k) 64) .fetched) m.2) p (64 * l.length))) ∧
    ((defer = true ∨ m.1 = .red) → exec (.commandFetch p i n defer) s = .next
      { m.2 with
        reads := Map.put m.2.reads m.2.nextRead ⟨p, .fetch i l, (s.slot p i).base + 64 * l.headD 0, 64 * l.length, false, m.1 = .red, none, []⟩
        nextRead := m.2.nextRead + 1 })) ∧
  (∀ (s : State) (core : Nat) (h : Chain) (f : Flight), Map.look s.sched.cores core = some h → s.flight h.ref = some f →
    let grant := fun (t : State) => t.onSched fun d => grantCore d core
    (cOpcode f.word = Op.prefixPublish → h.k + 1 < h.hMax → exec (.digestComplete core) s = .next (grant (chainOn s { h with k := h.k + 1 }))) ∧
    (cOpcode f.word = Op.prefixPublish → h.hMax ≤ h.k + 1 → exec (.digestComplete core) s = .next (grant (publishDone s h.ref f.word))) ∧
    (cOpcode f.word ≠ Op.prefixPublish →
    let r := lookupOne s h.ref h.model h.k h.prev h.tokens
    (r.2.2 = true → h.k + 1 < h.hMax → exec (.digestComplete core) s = .next (grant (chainOn r.1 { h with k := h.k + 1, prev := r.2.1 }))) ∧
    ((r.2.2 = false ∨ h.hMax ≤ h.k + 1) → exec (.digestComplete core) s = .next (grant (lookupDone r.1 h.ref)))))

/-- The timeout of a waiting wait command commits it with TIMEOUT and the counter's value in RES0 and RES1. A command that waits for a DRAM
page, a descriptor segment, move-buffer space or a hot-table entry takes its start again, and its elements that wait for one go on; a wait
that has ended then counts under its cause. An attend element whose extent has committed, and an element for which merge space is free,
goes on to its dispatch. Derived from spec/02_programming_model.md R58; spec/03_kv_pages.md R89; spec/03_kv_pages.md R95;
spec/06_attention.md R171; spec/06_attention.md R183; spec/05_tiers_placement.md R156. The model's choices that it rests on: assumption
logs 2, 88, 135. -/
def Obligations.WaitingCommandsGoOn : Prop :=
  (∀ (s : State) (c : CmdRef) (f : Flight), s.flight c = some f → f.stage = .waiting .counter → cOpcode f.word = Op.wait → f.seqs = [] →
    (s.eq c.part (s.slot c.part c.slot).eq).stuck = false →
    let v := ((s.part c.part).counter (cCtr f.word)).toNat
    let t := setStage (setPlan s c (.waitEnd true v)) c .requested
    exec (.waitTimeout c) s = .next (committed t c { f with plan := .waitEnd true v, stage := .requested } St.timeout (v % 2 ^ 32) (v / 2 ^ 32) [])) ∧
  (∀ (s : State) (c : CmdStep) (f : Flight), s.flight c.ref = some f → c.defer = false →
    let d := { c with defer := true }
    let x := s.slot c.ref.part c.ref.slot
    ((f.stage = .waiting .alloc ∨ f.stage = .waiting .segment ∨ f.stage = .waiting .moveBuf) → ∀ u, startOp f.word s d x f = .go u →
      exec (.allocationResume c) s = .next (commitCmd c.ref (noteCause u c.ref))) ∧
    (f.stage = .waiting .units →
      exec (.allocationResume c) s = .next (commitCmd c.ref (noteCause ((elemsIn isAllocPhase f).foldl (fun s k => advanceElem s d k) s) c.ref))) ∧
    (∀ v, f.stage = .waiting (.hotEntry v) → ∀ u, startOp f.word s d x f = .go u →
      exec (.hotEntryResume c) s = .next (commitCmd c.ref (noteCause u c.ref))) ∧
    (f.stage = .waiting .units →
      exec (.hotEntryResume c) s = .next (commitCmd c.ref (noteCause ((elemsIn isHotPhase f).foldl (fun s k => advanceElem s d k) s) c.ref)))) ∧
  (∀ (s : State) (c : CmdRef) (k : Nat) (e : Elem), elemOf s c k = some e →
    (e.phase = .extent → ∀ q, elemSeq s c e = some q → e.extent ≤ q.lenOf (cLayer (wordOf s c)) →
      exec (.attendElementRelease c k) s = .next (settleCommand (spacePhase (setElem s c k fun e => { e with phase := .space }) c k) c)) ∧
    (e.phase = .space → exec (.mergeSpaceWaitEnd c k) s = .next (settleCommand (spacePhase s c k) c)))

/-- The unit that the dispatcher chooses runs on the first idle tile of the scan where its quadrant is awake, else waits in that tile's next
place and wakes the quadrant; with no idle tile it joins the shortest steal queue with room, at its end, or, as a unit of the snare lane
within SNARE_TILES, at its head. A gang of two or more that fits one group takes that group's idle tiles, the rest its steal queue (those
of the snare lane its head, within SNARE_TILES), and a block that members which start together share is read once. A tile starts the unit
in its next place once nothing runs there, or the best-effort unit whose turn it is. The scan pointer moves on. Derived from
spec/09_scheduling.md R241; spec/09_scheduling.md R242; spec/09_scheduling.md R243; spec/09_scheduling.md R245; spec/09_scheduling.md
R249; spec/14_power_clocks.md R417. The model's choices that it rests on: assumption log 102. -/
def Obligations.PlacementOfUnits : Prop :=
  (∀ (s : State) (q uid : Nat) (u : Machine.Unit), nextReady s q = some (uid, u) → (gangOf s u).length < 2 →
    (∀ t, idleTile s u.quad = some t → (quadState s u.quad ≠ .sleep ∧ sleepAccepted s u.quad = false) → exec (.unitPlacement q) s = .next
      (movePointer (runUnit (s.onPower fun w => { w with quads := Map.put w.quads u.quad .run }) uid t) u.quad)) ∧
    (∀ t, idleTile s u.quad = some t → (quadState s u.quad = .sleep ∨ sleepAccepted s u.quad = true) → exec (.unitPlacement q) s = .next
      (movePointer (((s.onPower fun w => { w with quadWake := Map.put w.quadWake u.quad true }).onTile t fun y => { y with next := some uid }).onUnit uid
        fun x => { x with place := .next t }) u.quad)) ∧
    (idleTile s u.quad = none → snareAllowed s u = false → ∀ g, leastBy (fun g => (stealOf s u.quad g).length) (List.range 16) = some g →
      (stealOf s u.quad g).length < 8 → exec (.unitPlacement q) s = .next
      (fillNext (movePointer (setSteal s u.quad g (stealOf s u.quad g ++ [uid])) u.quad))) ∧
    (idleTile s u.quad = none → snareAllowed s u = true → ∀ g, leastBy (fun g => (stealOf s u.quad g).length) (List.range 16) = some g →
      (stealOf s u.quad g).length < 8 → exec (.unitPlacement q) s = .next
      (fillNext (movePointer (setSteal s u.quad g (uid :: stealOf s u.quad g)) u.quad)))) ∧
  (∀ (s : State) (q uid : Nat) (u : Machine.Unit), nextReady s q = some (uid, u) →
    let l := gangOf s u
    let g := gangGroup s q
    let idle := idleInGroup s q g
    2 ≤ l.length → l.length ≤ idle.length + (8 - (stealOf s q g).length) →
    let t := ((l.zip idle).foldl (fun a e => (putOnTileWith a.1 e.1.1 e.2 q a.2, gangPlacement.gangReads a.1 a.2 e.1)) (s, (⟨[], []⟩ : Mates))).1
    let rest := (l.map Prod.fst).drop idle.length
    let front := if u.snare then t.sched.snareTiles - snareHeld t u.part q else 0
    exec (.gangPlacement q) s = .next (fillNext (movePointer (setSteal t q g (rest.take front ++ stealOf t q g ++ rest.drop front)) q))) ∧
  (∀ (s : State) (tile uid : Nat), (tileOf s tile).running = none → (tileOf s tile).next = some uid → quadState s (tile / 256) ≠ .sleep →
    exec (.unitStart tile) s = .next (fillNext (runUnit s (startsOn s tile uid) tile)))

/-- A running unit whose reads have landed and whose kernel calls have ended: its partition's virtual time, tile time and unit count rise, its
result goes to its command, and it leaves its tile. A unit that waits for host memory or flash yields once: its tile time counts as lost
and it leaves its tile; it is ready again when its reads have landed. In class mode a latency-critical unit that is not running takes,
once, the tile of the best-effort unit that started last, whose run is taken back: its share of the virtual time and the bytes charged for
its reads. Derived from spec/09_scheduling.md R240; spec/09_scheduling.md R253; spec/09_scheduling.md R255; spec/09_scheduling.md R256;
spec/06_attention.md R185. The model's choices that it rests on: assumption logs 67, 107. -/
def Obligations.EndOfUnits : Prop :=
  (∀ (s : State) (tile uid : Nat) (u : Machine.Unit), (tileOf s tile).running = some uid → s.unit uid = some u →
    (u.reads = [] → u.kernelIdle = true → ∀ hc dt,
      let t := (chargeTile (addVtime s u.part u.quad dt) u.part u.quad hc u.snare false).onAcct u.part fun a => { a with units := a.units + 1 }
      let e := match u.kind with
        | .append => endAppend t u
        | .attend => endAttend t uid u
        | .kernel => endKernel t u
      exec (.unitEnd tile hc dt) s = .next (leaveTile (delUnit e uid) tile)) ∧
    (∀ k, u.reads.head? = some k → codeCause k ≠ Stall.moveBuf → u.hasYielded = false → s.sched.yieldWait ≠ 0 → ∀ hc,
      exec (.unitYield tile hc) s = .next (leaveTile ((leaveCalls (chargeTile s u.part u.quad hc u.snare true) uid).onUnit uid
        fun x => { x with place := .yielded, hasYielded := true, took := none }) tile)) ∧
    (u.reads = [] → ∀ hc, exec (.unitYield tile hc) s = .next s) ∧
    (u.hasYielded = true → ∀ hc, exec (.unitYield tile hc) s = .next s)) ∧
  (∀ (s : State) (uid : Nat) (u : Machine.Unit), s.unit uid = some u → u.place = .yielded →
    (u.reads = [] → exec (.yieldedUnitReady uid) s = .next ((activate s u.part u.quad).onUnit uid fun x => { x with place := .ready })) ∧
    (u.reads ≠ [] → exec (.yieldedUnitReady uid) s = .next s)) ∧
  (∀ (s : State) (uid v tile : Nat) (u x : Machine.Unit), s.unit uid = some u → s.sched.classMode = true → s.sched.evictWait ≠ 0 → u.bestEffort = false →
    u.caused = false → (u.place = .ready ∨ (∃ g, u.place = .steal g) ∨ ∃ k, u.place = .next k) → evictVictim s u.quad = some (v, x) →
    x.place = .running tile →
    let t := (unqueue s uid u).onPart x.part fun y =>
      { y with vtime := Map.put y.vtime x.quad (Map.get y.vtime x.quad 0 - ((x.counted : Nat) : Rat) / ((weightOf (unqueue s uid u) x.part : Nat) : Rat))
               evictions := y.evictions + 1 }
    let t := match x.took with
      | some k => t.onAcct x.part fun a => { a with t0 := a.t0 - k.1, t1Rd := a.t1Rd - k.2.1, t1Wr := a.t1Wr - k.2.2 }
      | none => t
    let t := (leaveCalls t v).onUnit v fun y => { y with place := .ready, hasEvicted := true, counted := 0 }
    let t := t.onUnit uid fun y => { y with caused := true }
    exec (.unitEvict uid) s = .next (fillNext (runUnit (t.onTile tile fun k => { k with running := none }) uid tile)))

/-- The row answers a state in which, for every live partition and every quadrant, the virtual time has risen by the number of the partition's
units that run there, times 64 hc less what the end of a unit has already added in this interval, over the share weight (1 in class mode),
and nothing of the interval is counted any more; the virtual times of partitions that do not exist are as before. Derived from
spec/09_scheduling.md R249. The model's choices that it rests on: assumption log 1. -/
def Obligations.VirtualTimeAdvances : Prop :=
  ∀ (s : State), ∃ t, exec .virtualTimeUpdate s = .next t ∧
    (∀ p ∈ s.livePartitions, ∀ q < 4,
      vtimeOf t p q = vtimeOf s p q + (((s.sched.units.filter fun e => e.2.runsFor p q).length * (64 - Map.get (s.part p).vdone q 0) : Nat) : Rat) /
        ((weightOf s p : Nat) : Rat) ∧ Map.get (t.part p).vdone q 0 = 0) ∧
    (∀ p, p ∉ s.livePartitions → ∀ q, vtimeOf t p q = vtimeOf s p q) ∧ t.hostMem = s.hostMem ∧ t.oxs = s.oxs ∧ t.flash = s.flash

/-- An uncorrectable error of a tile that holds units, running or next, faults their jobs and retires the tile; of an empty tile it retires
the tile with an error record. A corrected error counts with those of the 24 h before it, and more than 16 retire the tile. The teardown
of a faulted job ends, once no commit request is left, with its commands aborted, the error record, one ABORTED record per command, the
job-fault record in slot 0's event queue, the ring descriptors written, and the slots free; while a commit request is left it does
nothing. Derived from spec/09_scheduling.md R262; spec/09_scheduling.md R263; spec/09_scheduling.md R264; spec/15_health.md R449;
spec/15_health.md R446. The model's choices that it rests on: assumption logs 48, 103, 106. -/
def Obligations.JobFaultAndTeardown : Prop :=
  (∀ (s : State) (tile : Nat), tile < 1024 → s.power.chip = .on →
    (heldUnits s tile ≠ [] → exec (.tileUncorrectableError tile) s = .next
      (retireTile ((heldUnits s tile).foldl (fun s u => faultJob s u tile 2 0 0 0) s) tile)) ∧
    (heldUnits s tile = [] → exec (.tileUncorrectableError tile) s = .next
      (logError (retireTile s tile) { ErrRecord.blank with source := Src.tile, severity := 1, action := Act.tileRetired, loc0 := tile })) ∧
    (let t := tileOf s tile
     let l := lastDay s.nowS t.corrected
     let r := { ErrRecord.blank with source := Src.tile, action := Act.corrected, loc0 := tile }
     let u := s.onTile tile fun t => { t with corrected := l }
     (∀ n, n ∈ l ↔ n = s.nowS ∨ (n ∈ t.corrected ∧ s.nowS ≤ n + 86400)) ∧
     ((l.length ≤ 16 ∨ t.retired = true) → exec (.tileCorrectedError tile) s = .next (logError u r)) ∧
     (16 < l.length → t.retired = false → exec (.tileCorrectedError tile) s = .next (logError (retireTile u tile) { r with action := Act.tileRetired })))) ∧
  (∀ (s : State) (p j : Nat) (jf : JobFault), faultOf (s.part p) j = some jf →
    let slots := slotsOf (s.part p) j
    ((∃ i ∈ slots, ∃ f ∈ (s.slot p i).window, outlives f = true) → exec (.jobTeardownComplete p j) s = .next s) ∧
    ((∀ i ∈ slots, ∀ f ∈ (s.slot p i).window, outlives f = false) → j ≠ 0 →
      let gone := slots.flatMap fun i => (sortBy (fun f : Flight => (s.slot p i).offset f.index) (s.slot p i).window).map fun f => (i, f)
      let recs := gone.map fun e => ((s.slot p e.1).eq, commandRecord (s.slot p e.1) e.1 e.2 St.aborted 0 0)
      let t := gone.foldl (fun s e => endAborted s ⟨p, e.1, e.2.index⟩ e.2) s
      let t := logError t { ErrRecord.blank with
        source := if jf.fault = 1 then Src.kernel else Src.tile, severity := 1, action := Act.jobFaulted, part := p, status := St.aborted
        opcode := jf.opcode, code := jf.code, tag := jf.tag, loc0 := jf.tile, loc1 := jf.word }
      let t := recs.foldl (fun s r => postRecord s p r.1 r.2 none) t
      let t := postRecord t p (t.slot p 0).eq (jobFaultRecord jf j gone.length) none
      let t := t.onPart p fun x => x.onJob j fun k => { k with fault := none }
      exec (.jobTeardownComplete p j) s = .next (slots.foldl (fun s i =>
        ((descriptorWrites (s.part p) (s.slot p i)).foldl (fun s o => s.issue (.data p o.1 o.2 none)) s).onSlot p i Slot.released) t)))

/-- When a unit of a job faults for the first time, the job has its fault recorded with the slot, ring index, tag and opcode of the unit's
command and its state is Faulted (job 0 stays Bound); every slot bound to the job has stopped fetching, every other slot of the partition
fetches as before, and no unit is left of a command of those slots whose stage is the run. The same teardown in a second fault of the job
changes no slot. Derived from spec/09_scheduling.md R263; spec/02_programming_model.md R39. The model's choices that it rests on:
assumption log 103. -/
def Obligations.FaultStopsJob : Prop :=
  ∀ (s : State) (u : Machine.Unit) (tile kind code word imm : Nat),
    let p := u.part
    let y := s.slot p u.slot
    let t := faultJob s u tile kind code word imm
    faultOf (s.part p) y.job = none →
    (Map.get (t.part p).jobs y.job Job.reset).fault =
        some ⟨u.slot, u.index, y.ring, cTag (wordOf s u.cmd), cOpcode (wordOf s u.cmd), kind, code, word, imm, tile⟩ ∧
      (Map.get (t.part p).jobs y.job Job.reset).state = (if y.job = 0 then .bound else .faulted) ∧
      (∀ i ∈ slotsOf (s.part p) y.job, (t.slot p i).stopped = true) ∧
      (∀ i, i ∉ slotsOf (s.part p) y.job → (t.slot p i).stopped = (s.slot p i).stopped) ∧
      (∀ i ∈ slotsOf (s.part p) y.job, ∀ f ∈ (s.slot p i).window, outlives f = false → f.stage ≠ .fetched →
        ∀ e ∈ t.sched.units, e.2.isOf ⟨p, i, f.index⟩ = false)

/-- A 32-bit doorbell write at offset 0 whose TAIL is in range and moves forward without passing HEAD sets TAIL; any other write to a doorbell
page changes nothing but the drop count. A 64-byte write at offset 0x40 to a ring with room moves TAIL by one, and its command enters the
fetch window where it lies in it. EN of HUB_CSQ_CFG set on an empty ring with a size from 64 to 4,096 takes the fields and starts slot 0;
on a ring that is not empty it keeps HEAD, TAIL and the size. EN cleared stops slot 0. Written while EN is 0 on an empty ring, BASE and
ENTRIES_LOG2 reset HEAD and TAIL; while EN is 1 they are ignored. Derived from spec/02_programming_model.md R44;
spec/02_programming_model.md R45; spec/09_scheduling.md R247; spec/12_host_interface.md R358. The model's choices that it rests on:
assumption log 94. -/
def Obligations.SlotRegisterWrites : Prop :=
  ∀ (s : State) (p : Nat), s.reaches p = true →
    (∀ i, i < 64 →
      let x := s.slot p i
      (∀ v, s.bellOpen p i = true → x.bellForward (v % 65536) = true → exec (.sqDoorbell p i 0 4 v) s = .next (s.onSlot p i fun y => { y with tail := v % 65536 })) ∧
      (∀ off size v, (off ≠ 0 ∨ size ≠ 4 ∨ s.bellOpen p i = false ∨ x.bellForward (v % 65536) = false) → exec (.sqDoorbell p i off size v) s = .next (dropDoorbell s p i)) ∧
      (∀ d, d.length = 64 → s.bellOpen p i = true → (x.tail + 1) % x.size ≠ x.head →
        let t := pcieIn (s.onSlot p i fun y => { y with tail := (x.tail + 1) % x.size }) p 64
        exec (.inlineDoorbell p i 0x40 d) s = .next (if s.fetches p i && x.offset x.tail < 64 then enterWindow t p i x.tail d .fetched else t)) ∧
      (∀ off d, (off ≠ 0x40 ∨ d.length ≠ 64 ∨ s.bellOpen p i = false ∨ (x.tail + 1) % x.size = x.head) →
        exec (.inlineDoorbell p i off d) s = .next (dropDoorbell s p i))) ∧
    (∀ v, (s.slot p 0).csqEn = false → bit v 31 = true → (s.slot p 0).draining = false →
      ((s.slot p 0).ringEmpty = true → 6 ≤ bits v 0 5 → bits v 0 5 ≤ 12 → exec (.csqEnable p v) s = .next (s.onSlot p 0 fun x =>
        { x with eq := bits v 8 4, entriesLog2 := bits v 0 5, head := 0, tail := 0, csqEn := true, dbDrop := 0 })) ∧
      ((s.slot p 0).ringEmpty = false → 6 ≤ (s.slot p 0).entriesLog2 → (s.slot p 0).entriesLog2 ≤ 12 → exec (.csqEnable p v) s = .next (s.onSlot p 0 fun x =>
        { x with eq := bits v 8 4, csqEn := true, dbDrop := 0 }))) ∧
    (∀ v, (s.slot p 0).csqEn = true → bit v 31 = false →
      exec (.csqDisable p v) s = .next (stopSlot (s.onSlot p 0 fun x => { x with csqEn := false }) p 0).1) ∧
    (∀ v, (s.slot p 0).csqEn = false → (s.slot p 0).ringEmpty = true →
      exec (.csqRingConfigWrite p true v) s = .next (s.onSlot p 0 fun x => { x with base := v % 2 ^ 64 / 4096 * 4096, head := 0, tail := 0 }) ∧
      (bit v 31 = false → exec (.csqRingConfigWrite p false v) s = .next (s.onSlot p 0 fun x => { x with eq := bits v 8 4, entriesLog2 := bits v 0 5, head := 0, tail := 0 }))) ∧
    (∀ b v, (s.slot p 0).csqEn = true → exec (.csqRingConfigWrite p b v) s = .next s)

/-- EN set with a size from 2^7 to 2^20 on a disabled queue resets HEAD, TAIL, PHASE and the sequence number. EN cleared is ignored while a
ring, buffer or queue pair names the queue or its overflow ring holds records. A HEAD between the old one and TAIL frees space: records of
the overflow ring move into the ring, then an interrupt that is due is sent; any other HEAD sets HEAD_ERR and changes nothing else. ARM,
and the end of COAL_US with a record not signalled, let a due interrupt be sent. Unmasking a vector sends its pending message. Derived
from spec/12_host_interface.md R362; spec/12_host_interface.md R363; spec/12_host_interface.md R367; spec/12_host_interface.md R368. -/
def Obligations.EventQueueWrites : Prop :=
  ∀ (s : State) (fn q : Nat), s.reaches fn = true → q < 16 → (fn = 16 → q = 0) →
    let e := s.eq fn q
    (∀ v, bit v 31 = true → e.en = false → 7 ≤ bits v 0 5 → bits v 0 5 ≤ 20 → exec (.eqEnable fn q v) s = .next (signalIfDue (s.onEq fn q fun e =>
      { eqFields fn v e with en := true, head := 0, tail := 0, phase := true, eseq := 0, unsignalled := 0, timerDue := false }) fn q)) ∧
    (∀ v, bit v 31 = false → e.en = true → e.overflow = [] → (fn = 16 ∨ eqNamed (s.part fn) q = false) →
      exec (.eqDisable fn q v) s = .next ((s.onEq fn q (eqFields fn v)).onEq fn q fun e => { e with en := false })) ∧
    (∀ v, bit v 31 = false → (e.overflow ≠ [] ∨ (fn < 16 ∧ eqNamed (s.part fn) q = true)) → exec (.eqDisable fn q v) s = .next (s.onEq fn q (eqFields fn v))) ∧
    (∀ v, e.headOk (bits v 0 20) = true → exec (.eqHeadWrite fn q v) s = .next
      (signalIfDue (deliverOverflow fn q ((s.onEq fn q fun e => { e with head := bits v 0 20, arm := e.arm || e.autoArm }).eq fn q).backlog
        (s.onEq fn q fun e => { e with head := bits v 0 20, arm := e.arm || e.autoArm })) fn q)) ∧
    (∀ v, e.headOk (bits v 0 20) = false → exec (.eqHeadWrite fn q v) s = .next (s.onEq fn q fun e => { e with headErr := true })) ∧
    exec (.eqArm fn q) s = .next (signalIfDue (s.onEq fn q fun e => { e with arm := true }) fn q) ∧
    (e.coalUs ≠ 0 → e.unsignalled ≠ 0 → exec (.coalesceTimerExpiry fn q) s = .next (signalIfDue (s.onEq fn q fun e => { e with timerDue := true }) fn q)) ∧
    (let t := setVector s fn q { vector s fn q with masked := false, pending := false }
     exec (.msixUnmask fn q) s = .next (if (vector s fn q).pending then t.issue (.message fn q) else t))

/-- A record posted to an enabled queue with room, nothing in its overflow ring and a posted-write credit free: the 32 bytes at BASE + 32 TAIL
are the record with the queue's sequence number and its PHASE bit, every other byte of host memory reads as before, TAIL moves on by one,
wrapping at the ring's size, and PHASE flips at the wrap; the sequence number rises by one. When the ring is full, the record waits at the
end of the overflow ring, the overflow count rises by one, and no byte of host memory changes; one that finds 32,768 records there waits
for room in it (assumption log 164). A queue that is not enabled takes no record (assumption log 7). Derived from
spec/12_host_interface.md R363; spec/12_host_interface.md R364; spec/12_host_interface.md R367. -/
def Obligations.EventRecordLands : Prop :=
  ∀ (s : State) (fn q : Nat) (r : Record) (c : Option CmdRef), Memory.wf s.hostMem = true →
    let e := s.eq fn q
    let t := postRecord s fn q r c
    (e.en = true → e.full = false → e.overflow = [] → s.outq = [] → s.credits ≠ 0 →
      t.hostBytes (e.base + 32 * e.tail) 32 = r.bytes e.eseq ++ phaseWord e.phase ∧
      (∀ a, (a < e.base + 32 * e.tail ∨ e.base + 32 * e.tail + 32 ≤ a) → Memory.read t.hostMem a = Memory.read s.hostMem a) ∧
      (t.eq fn q).tail = (if e.tail + 1 = e.size then 0 else e.tail + 1) ∧ (t.eq fn q).phase = (if e.tail + 1 = e.size then !e.phase else e.phase) ∧
      (t.eq fn q).eseq = (e.eseq + 1) % 2 ^ 16 ∧ (t.eq fn q).overflow = [] ∧ (t.eq fn q).head = e.head) ∧
    (e.en = true → (e.full = true ∨ e.overflow ≠ []) → 32768 ≤ e.overflow.length →
      (t.eq fn q).waiting = e.waiting ++ [r.bytes e.eseq] ∧ (t.eq fn q).overflow = e.overflow ∧ (t.eq fn q).tail = e.tail ∧ t.hostMem = s.hostMem ∧ t.outq = s.outq) ∧
    (e.en = true → (e.full = true ∨ e.overflow ≠ []) → e.overflow.length < 32768 →
      (t.eq fn q).overflow = e.overflow ++ [r.bytes e.eseq] ∧ (t.eq fn q).ovfCount = e.ovfCount + 1 ∧ (t.eq fn q).tail = e.tail ∧ t.hostMem = s.hostMem ∧
      t.outq = s.outq) ∧
    (e.en = false → t = s)

/-- A write to BAR4 inside the slice lands whole; of one that begins inside and ends beyond, the bytes inside land; it, and one at or beyond
the slice, counts once as dropped. A buffer entry posted or withdrawn takes its fields and VALID, raises GEN (255 goes to 1) and gives
back what a migration reserved. A read of offset 0 of an accounting record latches the record. Returned credits are added, and waiting
writes go, oldest first. REGISTER_WRITE is one word, or, of 64 bits, two words in turn, low word first. One of any other size or
alignment, to a function that the host does not reach (its MSI-X table apart), or to an offset outside the blocks of a VF, changes
nothing. For the named registers the new fields are stated. (In Deep sleep each of these but the credit return waits instead.) Derived
from spec/12_host_interface.md R361; spec/11_fabric.md R333; spec/12_host_interface.md R357; spec/01_architecture.md R34;
spec/12_host_interface.md R356; spec/12_host_interface.md R354. The model's choices that it rests on: assumption logs 5, 99, 126, 127,
128. -/
def Obligations.WindowAndBufferWrites : Prop :=
  (∀ (s : State) (p off : Nat) (d : List Byte), s.hostUp = true → s.vfEnable = true → p < 16 → (s.func p).d3 = false → d ≠ [] →
    let n := (s.part p).sliceBytes
    let dropped := s.onFunc p fun f => { f with pushDrops := satAdd 0xFFFF f.pushDrops 1 }
    (off + d.length ≤ n → exec (.pushWindowWrite p off d) s = .next (pcieIn (s.onPart p fun x => { x with push := Memory.writeBytes x.push off d }) p d.length)) ∧
    (off < n → n < off + d.length → exec (.pushWindowWrite p off d) s =
      .next (pcieIn (dropped.onPart p fun x => { x with push := Memory.writeBytes x.push off (d.take (n - off)) }) p (n - off))) ∧
    (n ≤ off → exec (.pushWindowWrite p off d) s = .next dropped)) ∧
  (∀ (s : State) (p off : Nat) (d : List Byte), s.linkAsleep = false → (s.hostUp = false ∨ s.vfEnable = false ∨ 16 ≤ p ∨ (s.func p).d3 = true ∨ d = []) →
    exec (.pushWindowWrite p off d) s = .next s) ∧
  (∀ (s : State) (p i : Nat) (e : BufFields),
    (s.reaches p = true → i < 16384 →
      let t := dropMigration s p i
      let g := fun v : Bool => fun b : Buffer => { b with fields := e, gen := if b.gen = 255 then 1 else b.gen + 1, valid := v, data := [], posted := t.uses + 1, group := none }
      exec (.bufferPost p i e) s = .next (({ t with uses := t.uses + 1 } : State).onBuffer p i (g true)) ∧
      exec (.bufferWithdraw p i e) s = .next (({ t with uses := t.uses + 1 } : State).onBuffer p i (g false))) ∧
    (s.linkAsleep = false → (s.reaches p = false ∨ 16384 ≤ i) → exec (.bufferPost p i e) s = .next s ∧ exec (.bufferWithdraw p i e) s = .next s)) ∧
  (∀ (s : State) (p : Nat), p < 16 →
    (s.reaches p = true → exec (.acctSnapshotLatch false p) s = .next (s.onPart p fun x => { x with snapVf := acctRecord s p })) ∧
    (s.linkAsleep = false → s.reaches p = false → exec (.acctSnapshotLatch false p) s = .next s) ∧
    (s.reaches 16 = true → exec (.acctSnapshotLatch true p) s = .next (s.onPart p fun x => { x with snapPf := acctRecord s p })) ∧
    (s.linkAsleep = false → s.reaches 16 = false → exec (.acctSnapshotLatch true p) s = .next s)) ∧
  (∀ (s : State) (n : Nat), ∃ t, exec (.pciePostedCreditReturn n) s = .next t ∧ t = State.drainOut s.outq.length { s with credits := s.credits + n } ∧
    (s.outq.length ≤ s.credits + n → t.outq = [] ∧ t.credits = s.credits + n - s.outq.length) ∧
    (s.credits + n < s.outq.length → t.outq = s.outq.drop (s.credits + n) ∧ t.credits = 0)) ∧
  (∀ (s : State) (fn off v : Nat), s.linkAsleep = false →
    (off % 4 = 0 → exec (.registerWrite fn off 4 v) s = .next (writeWord fn off (v % 2 ^ 32) s)) ∧
    (off % 8 = 0 → ∀ u, exec (.registerWrite fn off 4 v) s = .next u → exec (.registerWrite fn off 8 v) s = exec (.registerWrite fn (off + 4) 4 (v / 2 ^ 32)) u) ∧
    (∀ size, ((size ≠ 4 ∧ size ≠ 8) ∨ off % size ≠ 0) → exec (.registerWrite fn off size v) s = .next s) ∧
    (∀ size, s.reaches fn = false → (off < 0x200000 ∨ 0x200100 ≤ off) → exec (.registerWrite fn off size v) s = .next s) ∧
    (∀ size, s.hostUp = false → exec (.registerWrite fn off size v) s = .next s) ∧
    (∀ size, fn < 16 → (off < 0x10000 ∨ (0x10800 ≤ off ∧ off < 0x11000) ∨ (0x11200 ≤ off ∧ off < 0x12000) ∨ (0x12008 ≤ off ∧ off < 0x13000) ∨
        (0x13060 ≤ off ∧ off < 0x15000) ∨ (0x15060 ≤ off ∧ off < 0x200000) ∨ 0x200100 ≤ off) → exec (.registerWrite fn off size v) s = .next s)) ∧
  (∀ (s : State) (p v : Nat), p < 16 → s.reaches p = true → v < 2 ^ 32 →
    exec (.registerWrite p 0x13000 4 v) s = .next (s.onPart p fun x => x.onRegs fun r =>
      { r with halfLife := bits v 0 8, parkHalfLife := bits v 8 8, demoteHeat := bits v 16 16 }) ∧
    exec (.registerWrite p 0x13008 4 v) s = .next (s.onPart p fun x => x.onRegs fun r => { r with low := bits v 0 16, high := bits v 16 16 }) ∧
    exec (.registerWrite p 0x12000 4 v) s = .next (s.onPart p fun x => x.onRegs fun r => { r with maxAge := bits v 0 8 })) ∧
  (∀ (s : State) (v : Nat), s.reaches 16 = true → v < 2 ^ 32 →
    exec (.registerWrite 16 0x10004 4 v) s = .next (s.onSched fun d => { d with evictWait := bits v 0 16, yieldWait := bits v 16 16 }) ∧
    exec (.registerWrite 16 0x80014 4 v) s = .next (s.onPower fun w => { w with freqReq := bits v 0 5 }))

/-- A host read that is not red ends: a read of commands that succeeds puts them into the fetch window in ring order; a read that fails, or
times out, is tried once more, and fails for good the second time: each command of a failed fetch ends rejected, any other read fails what
waits for it. While its function cannot read, it fails at once. A red read is metered again after the bucket gained tokens: still red, it
goes on waiting; else it takes its tokens and is issued. Derived from spec/05_tiers_placement.md R157; spec/12_host_interface.md R352;
spec/12_host_interface.md R369; spec/12_host_interface.md R371; spec/12_host_interface.md R374. The model's choices that it rests on:
assumption logs 2, 100, 135, 164. -/
def Obligations.HostReadsEnd : Prop :=
  (∀ (s : State) (id : Nat) (r : ReadReq), Map.look s.reads id = some r → r.red = false → s.hostUp = true → s.fnUsable r.part = true →
    let t : State := { s with reads := Map.del s.reads id }
    (∀ i l, r.what = .fetch i l → exec (.hostReadCompletion id .ok) s = .next (deliverFetch t r.part i l)) ∧
    ((∀ i l, r.what ≠ .fetch i l) → exec (.hostReadCompletion id .ok) s = .next (finishRead t (hostCode id) r true)) ∧
    (∀ row, (row = Instr.completionTimeout id ∨ row = Instr.hostReadCompletion id .error) →
      (r.retried = false → exec row s = .next { s with reads := Map.put s.reads id { r with retried := true } }) ∧
      (r.retried = true → ∀ i l, r.what = .fetch i l → exec row s = .next (failFetch t r.part i l)) ∧
      (r.retried = true → (∀ i l, r.what ≠ .fetch i l) → exec row s = .next (finishRead t (hostCode id) r false)))) ∧
  (∀ (s : State) (id : Nat) (r : ReadReq), Map.look s.reads id = some r → r.red = false → s.hostUp = true → s.fnUsable r.part = false →
    let t : State := { s with reads := Map.del s.reads id }
    ∀ row, (row = Instr.completionTimeout id ∨ ∃ res, row = Instr.hostReadCompletion id res) →
      (∀ i l, r.what = .fetch i l → exec row s = .next (failFetch t r.part i l)) ∧
      ((∀ i l, r.what ≠ .fetch i l) → exec row s = .next (finishRead t (hostCode id) r false))) ∧
  (∀ (s : State) (id : Nat) (r : ReadReq), Map.look s.reads id = some r → (r.red = true ∨ s.hostUp = false) →
    exec (.completionTimeout id) s = .next s ∧ ∀ res, exec (.hostReadCompletion id res) s = .next s) ∧
  (∀ (s : State) (p id ns : Nat) (r : ReadReq), Map.look s.reads id = some r → r.part = p → r.red = true →
    let t := s.onPart p fun x => { x with ingress := x.ingress.refill ns }
    let snare := match r.what with
      | .fetch i _ => (t.slot p i).snare
      | _ => false
    let m := meterRead t p r.bytes snare
    (m.1 = .red → exec (.ingressPolicerRelease p id ns) s = .next t) ∧
    (m.1 ≠ .red → exec (.ingressPolicerRelease p id ns) s = .next { m.2 with reads := Map.put m.2.reads id { r with red := false } }))

/-- A doorbell, a write to slot 0's registers, to an event queue, to an MSI-X entry, to a buffer entry, to the push window or to any other
register of partition p answers a next state in which every other partition and every other function is unchanged, and so are Oxsis
(fuses, mailbox, consents), the power controller and the pins; in Deep sleep the access, like any other of the host, waits in the PCIe
controller, sets PCIE of PWR_WAKE and starts the exit. Derived from spec/01_architecture.md R16; spec/09_scheduling.md R271;
spec/12_host_interface.md R353; spec/14_power_clocks.md R425; spec/14_power_clocks.md R437. The model's choices that it rests on:
assumption log 99. -/
def Obligations.PartitionsAreSeparate : Prop :=
  (∀ (s : State) (i : Instr) (f : State → State), hostAccess i = some f →
    exec i s = .next (if s.power.chip = .deepSleep ∧ s.pins.pcieUp = true ∧ s.pins.linkReset = false then
      { s with power := { s.power with held := s.power.held ++ [i], wake := s.power.wake ||| 2 ^ 2, waking := true } } else f s)) ∧
  (∀ (s : State) (p : Nat), p < 16 → ∀ row : Instr,
    ((∃ i off size v, row = .sqDoorbell p i off size v) ∨ (∃ i off d, row = .inlineDoorbell p i off d) ∨ (∃ v, row = .csqEnable p v) ∨
      (∃ v, row = .csqDisable p v) ∨ (∃ b v, row = .csqRingConfigWrite p b v) ∨ (∃ q v, row = .eqEnable p q v) ∨ (∃ q v, row = .eqDisable p q v) ∨
      (∃ q v, row = .eqHeadWrite p q v) ∨ (∃ q, row = .eqArm p q) ∨ (∃ v, row = .msixUnmask p v) ∨ (∃ i e, row = .bufferPost p i e) ∨
      (∃ i e, row = .bufferWithdraw p i e) ∨ (∃ off d, row = .pushWindowWrite p off d) ∨ (∃ off size v, row = .registerWrite p off size v)) →
    ∃ t, exec row s = .next t ∧ (∀ o, o ≠ p → t.part o = s.part o) ∧ (∀ o, o ≠ p → t.func o = s.func o) ∧ t.oxs = s.oxs ∧ t.power = (if s.linkAsleep then (s.hold row).power else s.power) ∧ t.pins = s.pins)

/-- Byte 6 of a partition's accounting record is 2 while the chip is in a thermal emergency; otherwise 1 if the last completed window was
counted in OVER_SLICE and 0 if not. What the record reads after a window has ended is whether that window raised the OVER_SLICE count.
(R270) -/
def Obligations.ThermalCode : Prop :=
  (∀ (s : State) (p : Nat), (acctRecord s p)[6]? = some (if s.power.emerg = true then 2 else if (s.part p).acct.lastOver = true then 1 else 0)) ∧
  (∀ (s : State) (p : Nat), s.power.chip = .on → p ∈ s.livePartitions → ∃ t, exec .accountingWindowEnd s = .next t ∧ t.power.emerg = s.power.emerg ∧
    (((t.part p).acct.overSlice = (s.part p).acct.overSlice + 1 ∧ (t.part p).acct.lastOver = true) ∨
      ((t.part p).acct.overSlice = (s.part p).acct.overSlice ∧ (t.part p).acct.lastOver = false)))

/-- Each cause disables its function: a QUIESCE bit gracefully, every other cause abruptly; an abrupt cause makes a graceful disable in
progress abrupt, a second graceful one changes nothing; an FLR or VF Enable cleared resets the function's MSI-X table even then. Bus
Master Enable, D3hot and VF Enable are set and cleared with the effect on their own bit. Clearing VF Enable disables every VF. FLR of PF0,
and clearing its Bus Master Enable, clear VF Enable, end the requested quiesces, and reset PF0's queue and vector. The drain ends once no
command of the function is left but those cut off and, for a graceful one, no write is still to issue; the commands then then leave with
the status ABORTED: a graceful one posts their records, an abrupt one drops its writes; reads are abandoned, the host side is reset, and
PF0 gets the QUIESCE record (stated where no request waits at Oxsis, so no destruction waits for this drain). Derived from
spec/12_host_interface.md R372; spec/12_host_interface.md R373; spec/12_host_interface.md R374; spec/12_host_interface.md R375;
spec/12_host_interface.md R376; spec/12_host_interface.md R379. The model's choices that it rests on: assumption logs 7, 50, 96, 97, 98. -/
def Obligations.DisablesOfFunctions : Prop :=
  (∀ (s : State) (p : Nat), p < 16 → s.hostUp = true → s.vfEnable = true →
    exec (.vfFlr p) s = .next (disable s p Cause.flr false false) ∧
    (s.reaches 16 = true → exec (.quiesce p) s = .next (disable { s with quiesce := s.quiesce - bits s.quiesce p 1 * 2 ^ p + 2 ^ p } p Cause.quiesce true false)) ∧
    ((s.func p).bme = true → exec (.busMasterDisable p) s = .next (disable (s.onFunc p fun f => { f with bme := false }) p Cause.busMaster false false)) ∧
    exec (.busMasterEnable p) s = .next (s.onFunc p fun f => { f with bme := true }) ∧
    ((s.func p).d3 = false → exec (.d3hotEntry p) s = .next (disable (s.onFunc p fun f => { f with d3 := true }) p Cause.d3hot false false)) ∧
    exec (.d0Return p) s = .next (s.onFunc p fun f => { f with d3 := false }) ∧
    exec .vfEnableClear s = .next ((List.range 16).foldl (fun s o => disable s o Cause.vfEnable false false) { s with vfEnable := false })) ∧
  (∀ (s : State), s.hostUp = true →
    exec .vfEnableSet s = .next { s with vfEnable := true } ∧
    (let t := (List.range 16).foldl (fun s o => disable s o Cause.vfEnable false true) { s with vfEnable := false, quiesce := 0 }
     exec .pf0Flr s = .next { t with
       meq := EventQueue.reset, pf0Vector := Vector16.reset
       outq := t.outq.filter fun w => match w with
         | .data n _ _ _ => n ≠ 16
         | .record n _ _ _ => n ≠ 16
         | .message n _ => n ≠ 16 }) ∧
    (s.pf0Bme = true → exec (.busMasterDisable 16) s = .next (pf0Reset { s with pf0Bme := false }))) ∧
  (∀ (s : State) (p cause : Nat) (d : Disable), (s.func p).disable = some d →
    let t := resetVectors s p cause
    (d.graceful = true → disable s p cause false false = onDisable t p fun d =>
      { d with cause := cause, graceful := false, records := [], recordsDropped := d.recordsDropped + d.records.length }) ∧
    (d.graceful = false → disable s p cause false false = onDisable t p id) ∧ disable s p cause true false = onDisable t p id) ∧
  (∀ (s : State) (p : Nat), (s.func p).disable = none → ∀ us, exec (.disableDrainEnd p us) s = .next s) ∧
  (∀ (s : State) (p us : Nat) (d : Disable), (s.func p).disable = some d →
    let waits := ((s.part p).slots.any fun y => y.2.window.any outlives) || (d.graceful && writesDue s p)
    ((waits = true ∨ s.ready = false ∨ (d.early = true ∧ s.meq.en = false ∧ d.silent = false)) → exec (.disableDrainEnd p us) s = .next s) ∧
    (waits = false → s.ready = true → (d.early = true → s.meq.en = true) →
      let v := endAborts s p
      ∀ g, (v.func p).disable = some g →
      let t := resetHostSide (abandonReads (if g.graceful then postAborted p g.records v else dropWrites v p) p) p g.cause g.graceful
      ∀ e, (t.func p).disable = some e → t.oxs.queue = [] →
      let u := t.onFunc p fun f => { f with disable := none }
      let u := { u with quiesce := u.quiesce - bits u.quiesce p 1 * 2 ^ p }
      exec (.disableDrainEnd p us) s = .next (if e.silent then u else postRecord u 16 0 (quiesceRecord e p us) none)))

/-- With Oxsis ready for a request, over the mailbox or MCTP, each request that passes its checks has its effect and ends with result 0 and
its response. CREATE makes the partition under its epoch with a fresh salt and identity, and the roots of its tables; DESTROY disables and
erases it and lists its sets and channels as scrubbing; ATTEST signs a report over its nonce with the next signature index; CERT_READ
answers the certificate; CONSENT takes the token's sequence, end and scopes and answers a report; DEBUG_READ and PROFILE_READ answer data
under consent; FW_STAGE writes the slot that is not booted; an SVN commit raises each fused SVN to the booted image's (at most 64,
assumption log 21); RMA_UNLOCK moves the part to RMA. Derived from spec/13_security.md R382; spec/13_security.md R384; spec/13_security.md
R385; spec/13_security.md R388; spec/13_security.md R389; spec/13_security.md R397; spec/13_security.md R398; spec/13_security.md R399;
spec/13_security.md R404; spec/13_security.md R407; spec/13_security.md R409; spec/13_security.md R410. The model's choices that it rests
on: assumption logs 2, 35, 51, 52, 53, 56, 57, 59. -/
def Obligations.OxsisRequests : Prop :=
  ∀ (s : State) (via : OxsVia), OxsReady s via →
    (let q := requestOf s 1 via false none
     let b := q.bytes
     let p := field b 0 1
     let d1 := (taken s via q).draw
     let d2 := d1.2.draw
     let g := { grantOf b with salt := Config.freeWide d1.1, partitionId := (Config.freeWide d2.1).toNat % 2 ^ 64, createdS := s.nowS }
     let old := s.part p
     s.oxs.lifecycle = .production → createRange s b = true → old.live = false → grantConflict s (grantOf b) = false → grantScrubbing s (grantOf b) = false →
     let t := sealSecure d2.2 fun c => { c with table := Map.put c.table p (g, old.epoch), epochs := Map.put c.epochs p old.epoch, mode := s.sched.classMode }
     exec (.oxsisCreate via) s = .next (respond (buildTables (t.setPart p (newPart old g old.epoch)) p) q Oxs.ok (leBytes 8 g.partitionId ++ leBytes 4 old.epoch))) ∧
    (let q := requestOf s 2 via false none
     let p := field q.bytes 0 1
     let t := disable (taken s via q) p 0 false true
     p ≤ 15 → zeroFrom q.bytes 1 = true → (s.part p).live = true → (t.ready = false ∨ (t.part p).slots.any (fun y => y.2.window ≠ []) = false) →
     ∀ d, (t.func p).disable = some d →
     let u := closeDisable p 0 t
     exec (.oxsisDestroy via) s = .next (respond (erasePart u p) q Oxs.ok (leBytes 4 d.aborted ++ leBytes 4 (u.part p).seqs.length ++
       leBytes 2 (u.part p).grant.sets.length ++ leBytes 1 (u.part p).flashChannels.length))) ∧
    (let q := requestOf s 3 via false none
     let r := signedReport (taken s via q) (slice q.bytes 0 32)
     zeroFrom q.bytes 32 = true → sigSpent s.oxs = false → mayNotSign s = false → exec (.attest via) s = .next (respond r.1 q Oxs.ok r.2)) ∧
    (let q := requestOf s 4 via false none
     zeroFrom q.bytes 0 = true → exec (.certRead via) s = .next (respond (taken s via q) q Oxs.ok (certificate s))) ∧
    (let q := requestOf s 5 via true none
     let b := q.bytes
     let p := field b 4 1
     let x := s.part p
     p ≤ 15 → x.live = true → field b 8 8 = x.grant.partitionId → x.grant.tenantKey.all (fun k => k = 0) = false → consentOid b = true →
     slice b 0 4 = [0x5A, 0x43, 0x4E, 0x31] → field b 5 1 ≤ 3 → field b 6 2 = 0 → x.consentSeq < field b 0x10 4 → shake256 (slice b 0x38 68) 32 = x.grant.tenantKey →
     sigSpent s.oxs = false → mayNotSign s = false →
     let e := if field b 0x14 4 = 0 then 0 else (s.nowS + field b 0x14 4) % 2 ^ 32
     let r := signedReport ((taken s via q).onPart p fun x =>
       { x with
         consentSeq := field b 0x10 4, consentEnd := e, consentDigest := shake256 (slice b 0 0x7C) 32
         debugUntil := if bit (field b 5 1) 0 then some e else none
         profileUntil := if bit (field b 5 1) 1 then some e else none }) (slice b 0x18 32)
     exec (.consent via true) s = .next (respond r.1 q Oxs.ok r.2)) ∧
    (let q := requestOf s 6 via false none
     let b := q.bytes
     let x := s.part (field b 0 1)
     field b 0 1 ≤ 15 → field b 1 1 ≤ 2 → field b 2 6 = 0 → field b 0x14 4 = 0 → zeroFrom b 0x24 = true → x.live = true → inForce s x.debugUntil = true →
     ∀ d, debugObject x b = some d →
     let d := d.take (field b 0x20 4)
     exec (.debugRead via) s = .next (if via = .mailbox then respond ((taken s via q).land 16 (field b 0x18 8) d) q Oxs.ok []
       else respond (taken s via q) q Oxs.ok (d.take 16384))) ∧
    (let q := requestOf s 7 via false none
     let b := q.bytes
     let x := s.part (field b 0 1)
     field b 0 1 ≤ 15 → field b 1 7 = 0 → zeroFrom b 0x24 = true → x.live = true → inForce s x.profileUntil = true →
     let fine := overlay 256 (overlay 256 (acctRecord (taken s via q) (field b 0 1)) 0x10 (leBytes 8 x.acct.tileHc ++ leBytes 8 x.acct.snareHc ++ leBytes 8 x.acct.lostHc)) 0x98
       (leBytes 8 ((x.acct.energyMj * 10 ^ 9 + pendingPj x.acct) / 1000))
     let r := fineStalls x (List.range 8) (taken s via q)
     let d := (fine ++ r.1).take (field b 0x20 4)
     exec (.profileRead via) s = .next (if via = .mailbox then respond (r.2.land 16 (field b 0x18 8) d) q Oxs.ok []
       else respond r.2 q Oxs.ok (d.take 16384))) ∧
    (∀ f g : FwSlot, s.oxs.booted = some g → slotValid f s.oxs.svn = true →
     let q := requestOf s 8 via false (some f)
     field q.bytes 8 4 ≤ 2 ^ 25 → field q.bytes 0xC 4 = 0 →
     let n := { f with seq := (g.seq + 1) % 2 ^ 32 }
     exec (.fwStage via f) s = .next (respond ((taken s via q).onOxs fun o => if o.bootedB then { o with norA := some n } else { o with norB := some n }) q Oxs.ok [])) ∧
    (∀ g : FwSlot, s.oxs.booted = some g →
     let q := requestOf s 8 via false none
     field q.bytes 8 4 ≤ 2 ^ 25 → field q.bytes 0xC 4 = 1 →
     exec (.fwSvnCommit via) s = .next (respond ((taken s via q).onOxs fun o =>
       { o with svn := s.oxs.svn.zipIdx.map fun e => Nat.max e.1 (Nat.min 64 ((g.images.map FwImage.svn).getD e.2 0)) }) q Oxs.ok [])) ∧
    (let q := requestOf s 9 via true none
     s.livePartitions = [] → s.flash.secure.scrubSets = [] → s.flash.secure.scrubFlash = [] → slice q.bytes 0 4 = [0x5A, 0x52, 0x4D, 0x31] →
     field q.bytes 4 16 = Config.chipId.toNat →
     exec (.rmaUnlock via true) s = .next (respond ((taken s via q).onOxs fun o => { o with lifecycle := .rma }) q Oxs.ok []))

/-- Each signature takes an index above every one before it, in its range or the next one. A request that waited for the rate of 64 in a
second is served in a later second, and while the rate is spent nothing happens. Consent ends once the seconds counter has reached
CONSENT_END_S, and not before. A set that has been scrubbed is listed no more, though not while the governor holds the quadrants below
their requested clock; a channel too, its blocks erased but for retired ones (on channels 0 and 16, which no partition has, the seal
itself takes a block). A CERT_READ message over MCTP is answered with the certificate; while Oxsis holds an entry of the chip it waits.
Derived from spec/13_security.md R382; spec/13_security.md R390; spec/13_security.md R391; spec/13_security.md R399; spec/13_security.md
R401; spec/13_security.md R408. The model's choices that it rests on: assumption logs 51, 54, 55, 169. -/
def Obligations.OxsisEvents : Prop :=
  (∀ (s : State), 1 ≤ s.oxs.idRanges → s.oxs.sigOffset ≤ rangeSize →
    let t := (takeIndex s).2
    (takeIndex s).1 < (takeIndex t).1 ∧ 1 ≤ t.oxs.idRanges ∧ t.oxs.sigOffset ≤ rangeSize ∧ s.oxs.idRanges ≤ t.oxs.idRanges) ∧
  (∀ (s : State) (q : OxsReq), s.oxs.queue = [q] → q.op = 3 → s.parted = true → s.oxs.recovery = false → zeroFrom q.bytes 32 = true → sigSpent s.oxs = false →
    (mayNotSign s = false → let r := signedReport s (slice q.bytes 0 32)
      exec .signatureRateRelease s = .next (respond r.1 q Oxs.ok r.2)) ∧
    (mayNotSign s = true → exec .signatureRateRelease s = .next s)) ∧
  (∀ (s : State) (p : Nat), (s.part p).live = true → (s.part p).consentEnd ≠ 0 →
    ((s.part p).consentEnd ≤ s.nowS → exec (.consentExpiry p) s = .next (s.onPart p fun x => { x with debugUntil := none, profileUntil := none })) ∧
    (s.nowS < (s.part p).consentEnd → exec (.consentExpiry p) s = .next s)) ∧
  (∀ (s : State) (i : Nat),
    (i ∈ s.flash.secure.scrubSets → s.power.cap < Nat.min s.power.freqReq 24 → exec (.scrubResourceDone false i) s = .next s) ∧
    (i ∈ s.flash.secure.scrubSets → Nat.min s.power.freqReq 24 ≤ s.power.cap → exec (.scrubResourceDone false i) s = .next (sealSecure s fun c => { c with scrubSets := c.scrubSets.filter fun n => n ≠ i })) ∧
    (i ∈ s.flash.secure.scrubFlash → ∃ t, exec (.scrubResourceDone true i) s = .next t ∧ i ∉ t.flash.secure.scrubFlash ∧
      (∀ n, n ≠ i → (n ∈ t.flash.secure.scrubFlash ↔ n ∈ s.flash.secure.scrubFlash)) ∧
      (i ≠ 0 → i ≠ 16 → ∀ e ∈ t.flash.blocks, blockChannel e.1 = i → e.2.state = .free ∨ e.2.state = .retired ∨ e.2.state = Block.reset.state) ∧
      t.parts = s.parts ∧ t.hostMem = s.hostMem ∧ t.oxs = s.oxs)) ∧
  (∀ (s : State) (b : List Byte), OxsReady s (.mctp b) → zeroFrom b 0 = true →
    let q : OxsReq := ⟨4, b, true, (Config.freeWord s.draw.1).getLsbD 0, none⟩
    exec (.mctpMessage (4 :: b)) s = .next (respond (taken s (.mctp b) q) q Oxs.ok (certificate s))) ∧
  (∀ (s : State) (b : List Byte), s.mctpUp = true → s.holds 10 = true →
    exec (.certRead (.mctp b)) s = .next (s.onOxs fun o => { o with queue := o.queue ++ [⟨4, b, true, false, none⟩] }))

/-- The oldest full staging page of its home quadrant, with frames free, is converted into a new page of the cache format, and a flush move
holds both until its commit. A selected move whose set has not become hot reserves its destination and reads its source; with no buffer
space it waits, and goes on when there is some, which counts one MOVE_BUF wait; a transit that waited has its read issued. A written move
of a page commits once the other epoch's pins allow it: the location word names the copy and the old one is superseded; until then only
the move's own pin passes to the current epoch. A parking or cooling move whose set has become hot is abandoned. A written move of a tail
page commits at once and frees the source. Superseded copies of an epoch without pins are freed. A cold segment out of use leaves DRAM; a
pinned one comes back. Derived from spec/03_kv_pages.md R81; spec/03_kv_pages.md R92; spec/05_tiers_placement.md R139;
spec/05_tiers_placement.md R140; spec/05_tiers_placement.md R142; spec/05_tiers_placement.md R147. The model's choices that it rests on:
assumption logs 15, 65, 140. -/
def Obligations.MovesOfPages : Prop :=
  (∀ (s : State) (p psn layer : Nat) (d : PageSet), (s.part p).set psn = some d → d.releasing = false →
    let x := s.part p
    let l := Map.get d.loc layer Loc.none
    let m := x.model d.model
    flushable x psn layer d = true →
    (Map.has d.staged layer = true → (leastBy (fun e : Nat × Nat × Nat × Nat => e.1) (flushQueue s p (setHome x psn))).map (fun e => e.2) = some (p, psn, layer)) →
    ∀ t f, allocFrames s p (setHome x psn) m.pageFrames none (x.dir.length + 2) = .got t f →
    let u := newObject (t1Read t p m.stagingBytes) p f m.pageFrames (encodePage m layer psn d ((t.part p).bytesAt l))
    exec (.stagingFlush p psn layer) s = .next (u.onPart p fun x => refreshMoving { x with
      moves := Map.put x.moves x.nextMove ⟨.page psn layer, .flush, .written, l, ⟨.page, 0, f⟩, m.footprint, [], none, 0, none, [], 0⟩
      nextMove := x.nextMove + 1 } psn)) ∧
  (∀ (s : State) (p id : Nat) (m : Move), Map.look (s.part p).moves id = some m →
    (m.step = .selected → tooHot s p m = true → exec (.pageMove p id) s = .next (abandonMove s p id)) ∧
    (m.step = .selected → tooHot s p m = false → moveBufAllows s p (objBuffer (s.part p) m.obj) = false → exec (.pageMove p id) s = .next (onMove s p id fun m => { m with step := .waitBuffer })) ∧
    (m.step = .selected → tooHot s p m = false → moveBufAllows s p (objBuffer (s.part p) m.obj) = true → (m.why = .parking ∨ m.why = .cooling ∨ m.why = .preempt) →
      (∀ r f, moveDest s p m = .region r f → exec (.pageMove p id) s = .next (readMove
        (onMove (s.onPart p fun x => putRegion x r f (objFrames (s.part p) m.obj) []) p id fun m => { m with step := .reading, dst := ⟨.page, 1, r * 2 ^ 24 + f⟩ }) p id)) ∧
      (moveDest s p m = .flash → let t := takeLfns (s.part p).flash (objFrames (s.part p) m.obj)
        exec (.pageMove p id) s = .next (readMove
          (onMove (s.onPart p fun x => { x with flash := t.2 }) p id fun m => { m with step := .reading, dst := ⟨.page, 2, t.1⟩ }) p id)) ∧
      (moveDest s p m = .none → exec (.pageMove p id) s = .next (moveNowhere (noteMapFull s p (objFrames (s.part p) m.obj)) p id m))) ∧
    (m.step = .waitBuffer → moveBufAllows s p (objBuffer (s.part p) m.obj) = true → m.why ≠ .transit → exec (.moveBufferResume p id) s = .next
      (reserveMove (onMove (stallFree s p Stall.moveBuf) p id fun m => { m with step := .selected }) p id)) ∧
    (m.step = .waitBuffer → moveBufAllows s p (objBuffer (s.part p) m.obj) = true → m.why = .transit → exec (.moveBufferResume p id) s = .next
      (transitResume s p id m)) ∧
    (m.step = .waitBuffer → moveBufAllows s p (objBuffer (s.part p) m.obj) = false → exec (.moveBufferResume p id) s = .next s) ∧
    (m.step ≠ .written → exec (.locationChangeCommit p id) s = .next s) ∧
    (∀ psn layer d, m.step = .written → m.obj = .page psn layer → (s.part p).set psn = some d → d.releasing = false →
      (tooHot s p m = true → exec (.locationChangeCommit p id) s = .next (abandonMove s p id)) ∧
      (tooHot s p m = false →
        let u := repin s p id psn
        let v := Map.get (u.part p).moves id m
        (((u.part p).set psn).any PageSet.canFlip = false → exec (.locationChangeCommit p id) s = .next u) ∧
        (((u.part p).set psn).any PageSet.canFlip = true → (v.why = .parking ∨ v.why = .cooling ∨ v.why = .preempt) → exec (.locationChangeCommit p id) s =
          .next (unpinMove ((flipLoc (landMove u p id v) p psn layer ⟨.page, v.dst.tier, v.dst.frame⟩).onPart p fun x => refreshMoving x psn) p v)))) ∧
    (∀ i layer q, m.step = .written → m.obj = .tail i layer → (s.part p).seq i = some q → exec (.locationChangeCommit p id) s = .next
      (freeLoc ((landMove s p id m).onSeq p i fun q => { q with tails := Map.put q.tails layer ⟨.page, m.dst.tier, m.dst.frame⟩ }) p m.src))) ∧
  (∀ (s : State) (p psn : Nat) (d : PageSet), (s.part p).set psn = some d →
    let free := fun o : OldCopy => if o.epoch then decide (d.pins1 = 0) else decide (d.pins0 = 0)
    exec (.supersededCopyRelease p psn) s = .next (((d.old.filter free).foldl (fun s o => freeLoc s p o.loc) s).onSet p psn
      fun d => { d with old := d.old.filter fun o => !free o })) ∧
  (∀ (s : State) (p n : Nat), (s.part p).moves.any (fun m => m.2.obj = .segment n) = false →
    (Map.look (s.part p).segments n = none → exec (.descriptorSegmentMove p n) s = .next s) ∧
    (∀ l, Map.look (s.part p).segments n = some l → l.tier = 0 → segmentCold s (s.part p) n = true → exec (.descriptorSegmentMove p n) s = .next
      (selectMove s p (.segment n) .descriptor l 65536 none)) ∧
    (∀ l, Map.look (s.part p).segments n = some l → l.tier ≠ 0 → segmentPinned (s.part p) n = true → exec (.descriptorSegmentMove p n) s = .next
      (selectMove s p (.segment n) .descriptor l 65536 none)))

/-- Of a PARKING sequence that is not stuck, own sets cool enough are sent to their rest place; with none left in DRAM, the tail pages; a
stuck one tries again when its rest destination has room. When everything has moved the rest frame is written, and once it is written the
sequence's copies go, the rest table names it, the tables of the sequence are free and it is at REST. Below LOW, cold sets are sent off. A
predicted sequence at REST enters RESTORING at PRED_TIME less RESTORE_LEAD with a hot entry and DRAM for its tables free, unless the
placement engine holds an entry of the chip; a paused restore goes on; at HOLD_END without a resume its copies go and it is back at REST.
A finished prefetch copy that nobody reads goes after 2 s. The sweep of the directory ages its entries by the periods of 64 s since the
last one, while the chip is on; the sweep of descriptors clears DIR where no entry holds the set. Derived from spec/05_tiers_placement.md
R134; spec/05_tiers_placement.md R136; spec/05_tiers_placement.md R145; spec/05_tiers_placement.md R150; spec/05_tiers_placement.md R152;
spec/05_tiers_placement.md R153; spec/04_prefix_store.md R115; spec/15_health.md R444. The model's choices that it rests on: assumption
logs 28, 146, 169. -/
def Obligations.ParkingAndRestore : Prop :=
  (∀ (s : State) (p i : Nat) (q : Seq), (s.part p).seq i = some q →
    (q.state = .parking → q.stuck = false → ownLeft (s.part p) q ≠ [] → exec (.parkingMoveStart p i) s = .next
      (sendSets s p ((ownLeft (s.part p) q).filter fun n => heatNow s (s.part p) n ≤ (s.part p).regs.demoteHeat) .parking)) ∧
    (q.state = .parking → q.stuck = false → ownLeft (s.part p) q = [] → exec (.parkingMoveStart p i) s = .next
      ((sortBy (fun e : Nat × Loc => e.2.frame) (q.tails.filter fun e => e.2.tier = 0 && !((s.part p).moves.any fun v => v.2.obj = .tail i e.1))).foldl
        (fun t e => selectMove t p (.tail i e.1) .parking e.2 ((s.part p).model q.model).stagingBytes none) s)) ∧
    (q.state = .parking → q.stuck = true → restDest s p 1 ≠ .none → exec (.parkingRetry p i) s = exec (.parkingMoveStart p i) (s.onSeq p i fun q => { q with stuck := false }) ∧
      ∃ t, exec (.parkingRetry p i) s = .next t) ∧
    (q.state = .parking → q.stuck = false → ownLeft (s.part p) q = [] →
      q.pt.any (fun e => match (s.part p).set e.psn with
        | some d => d.loc.any fun l => l.2.kind = .staging
        | none => false) = false → q.tails.any (fun e => e.2.tier = 0) = false →
      (s.part p).moves.any (fun m => m.2.why = .parking && (match m.2.obj with
        | .page n _ => ((s.part p).ownSets q).contains n
        | .tail j _ => j = i
        | _ => false)) = false →
      ∀ id m, (s.part p).moves.find? (fun m => m.2.obj = .rest i) = some (id, m) → m.step = .written →
      let l : Loc := ⟨.page, m.dst.tier, m.dst.frame⟩
      let t := (dropTents (landMove s p id m) p i).1.onPart p fun x => { x with restTable := Map.put x.restTable i l }
      exec (.parkToRest p i) s = .next (trimWakeList (trimTables (t.onSeq p i fun q => { q.dropTables with state := .rest, restRef := l }) p))) ∧
    (s.holds 7 = true → q.state = .rest → exec (.specRestoreStart p i) s = .next s) ∧
    (q.state = .rest → q.predicted = true → q.predTime ≤ s.nowS + (s.part p).regs.restoreLead → s.holds 7 = false →
      (mayTakeHot s p = true ∨ (s.part p).seqs.any (fun e => e.2.state = .parking) = false) → takeHot s p = .free →
      ∀ u, takeTables s p q.homeQ (tableSlots q.pt.length) 0 = some u →
      let home := returnHome (u.part p) i q.homeQ
      let t := u.onSeq p i fun r => { r with state := .restoring, homeQ := home, holdEnd := r.predTime + (s.part p).regs.hold, restored := false }
      let t := restoreFrame (t.onPart p fun x => x.fitTables i) p i
      ∀ r, (t.part p).seq i = some r → exec (.specRestoreStart p i) s = .next (restoreMore p i (restoreList (t.part p) r) t)) ∧
    (q.state = .restoring → q.restTent ≠ none → exec (.specRestoreResume p i) s = .next (restoreMore p i (restoreList (s.part p) q) s)) ∧
    (q.state = .restoring → q.holdEnd ≤ s.nowS → exec (.holdEndExpiry p i) s = .next
      (trimTables ((dropTents s p i).1.onSeq p i fun q => ((dropTents s p i).1.part p).backToRest q) p)) ∧
    (q.state = .restoring → s.nowS < q.holdEnd → exec (.holdEndExpiry p i) s = .next s)) ∧
  (∀ (s : State) (p : Nat), (s.part p).flashChannels ≠ [] → freeAboveLow s (s.part p) = false →
    let x := s.part p
    exec (.coolingMoveStart p) s = .next (sendSets s p (coolFrom x (Nat.max x.regs.high x.regs.low * 1024) ((victims s x).filter fun n => heatNow s x n ≤ x.regs.demoteHeat)
      (freeFrames s x + sum ((x.moves.filter fun m => m.2.src.tier = 0 && m.2.why != .flush && m.2.why != .promotion).map fun m => objDramFrames x m.2.obj))) .cooling)) ∧
  (∀ (s : State) (p psn layer : Nat) (d : PageSet) (t : Tent), (s.part p).set psn = some d → Map.look d.tents layer = some t → t.complete = true → t.restore = none →
    (s.part p).tentHeld psn layer = false →
    (t.doneS + 2 ≤ s.nowS → exec (.prefetchCopyExpiry p psn layer) s = .next (dropTent s p psn layer)) ∧
    (s.nowS < t.doneS + 2 → exec (.prefetchCopyExpiry p psn layer) s = .next s)) ∧
  (∀ (s : State), s.power.chip = .on → s.dirSweep < s.nowS / 64 → ∃ t, exec .directorySweep s = .next t ∧ t.dirSweep = s.nowS / 64 ∧ ∀ p ∈ s.livePartitions,
    ((s.part p).regs.maxAge = 0 → (t.part p).dir = Map.each (s.part p).dir fun e =>
      if e.held || e.retain then e else { e with age := satAdd 255 e.age (s.nowS / 64 - s.dirSweep) }) ∧
    ((s.part p).regs.maxAge ≠ 0 → ∀ e ∈ (t.part p).dir, e.2.held = true ∨ e.2.retain = true ∨ e.2.age < (s.part p).regs.maxAge)) ∧
  (∀ (s : State), (s.power.chip ≠ .on ∨ s.nowS / 64 ≤ s.dirSweep) → exec .directorySweep s = .next s) ∧
  (∀ (s : State) (p : Nat), exec (.descriptorDirSweep p) s = .next
    ((((s.part p).sets.filter fun e => e.2.dir && ((s.part p).entryOf e.1).isNone).map fun e => e.1).foldl
      (fun s n => maybeRelease (s.onSet p n fun d => { d with dir := false }) p n) s))

/-- A passed program is noted in its group: the last one seals the group, else the group goes on. A failed one retires its block, the group
begins again and the block is read out. An erase that passes counts and frees the block (retired at its endurance), one that fails retires
it, with a record. A read for collection enters the buffer or marks its page; another read ends with its data where each of its frames can
be read, else uncorrectable, and waits while its map segment is away. Collection takes a victim in its mode, and the idle timer acts only
without demand; a young block is levelled beyond 500 erases of difference, at most once a minute; old and weak frames are refreshed; the
patrol reads the next frame of a die that has no demand; a discard record takes up to 8,192 entries; a die that is not ready, and a
channel that does not train, go offline. While the flash manager holds an entry of the chip, collection, refresh, patrol and levelling
wait. Derived from spec/10_flash_tier.md R283; spec/10_flash_tier.md R285; spec/10_flash_tier.md R287; spec/10_flash_tier.md R288;
spec/10_flash_tier.md R290; spec/10_flash_tier.md R292; spec/10_flash_tier.md R295; spec/10_flash_tier.md R296; spec/10_flash_tier.md
R298; spec/10_flash_tier.md R299; spec/10_flash_tier.md R272. The model's choices that it rests on: assumption logs 41, 42, 46, 169. -/
def Obligations.FlashEvents : Prop :=
  (∀ (s : State) (a : Place) (gid : Nat) (g : Group), s.flash.groups.find? (fun g => g.2.waiting.contains a) = some (gid, g) →
    (let b := blockOf a
     let t := (mediaRecord (retireBlock s b) Src.flashProgram 1 Act.blockRetired a).onGroup gid fun g => { g with todo := g.frames, waiting := [], places := [], first := 0 }
     exec (.flashProgramComplete a false) s = .next (readOutBlock (pumpAll t a.channel) b)) ∧
    (let left := g.waiting.filter fun b => b ≠ a
     let t := fillBlock ((s.onFlash fun d => { d with frames := Map.edit d.frames (placeNo a) fun f => { f with passed := true } }).onGroup gid fun g => { g with waiting := left }) (blockOf a)
     ((left = [] ∧ g.todo = []) → exec (.flashProgramComplete a true) s = .next (pumpAll (sealGroup t gid { g with waiting := [] }) a.channel)) ∧
     ((left ≠ [] ∨ g.todo ≠ []) → exec (.flashProgramComplete a true) s = .next (pumpAll (pump gid 32 t) a.channel)))) ∧
  (∀ (s : State) (b : BlockId), (s.block (blockNo b.channel b.die b.block)).state = .erasing →
    let n := blockNo b.channel b.die b.block
    let t := (s.onFlash fun f => { f with frames := f.frames.filter fun e => e.1 / 4096 ≠ n }).onSecure fun c => { c with areas := Map.each c.areas fun l => l.filter fun m => m ≠ n }
    exec (.flashEraseComplete b false) s = .next (mediaRecord (retireBlock t n) Src.flashErase 1 Act.blockRetired ⟨b.channel, b.die, b.block, 0⟩) ∧
    (∀ ch, s.channel b.channel = some ch →
      let u := t.onBlock n fun k => { Block.reset with eraseCnt := k.eraseCnt + 1 }
      exec (.flashEraseComplete b true) s = .next (pumpAll (eraseEmpty (if ch.profile.endurance ≤ (s.block n).eraseCnt + 1 then retireBlock u n else u) b.channel) b.channel))) ∧
  (∀ (s : State) (id : Nat) (r : ReadReq), Map.look s.flash.reads id = some r →
    let t := s.onFlash fun f => { f with reads := Map.del f.reads id }
    let n := ceilDiv r.bytes 65536
    let cmds := (readVictims s id r).map (wordOf s)
    (∀ a refresh res, r.what = .copyOut a refresh → exec (.flashReadComplete id res) s = .next (copyOutRead t r.part a refresh (r.places.all fun e => s.placeUp e.2) res)) ∧
    ((∀ a b, r.what ≠ .copyOut a b) →
      (r.places = [] → segmentsAway s r.part r.addr n ≠ [] → ∀ res, exec (.flashReadComplete id res) s = .next s) ∧
      ((r.places ≠ [] ∨ segmentsAway s r.part r.addr n = []) →
        (∀ res, let u := endFlashRead t r.part r.addr n r.places res cmds
          exec (.flashReadComplete id res) s = .next ((dedup (r.places.map fun e => blockOf e.2)).foldl settleBlock (finishRead u.2 (flashCode id) r u.1))) ∧
        (endFlashRead t r.part r.addr n r.places .uncorrectable cmds).1 = false ∧
        (∀ e, n ≠ 0 → Map.look (s.part r.part).flash.map r.addr = some e → r.places.length = n → (r.places.all fun x => s.placeUp x.2) = true →
          (endFlashRead t r.part r.addr n r.places .decoded cmds).1 = true)))) ∧
  (∀ (s : State), s.holds 9 = true → ∀ c a res, exec (.collectionStart c) s = .next s ∧ exec (.collectionIdleTimer c) s = .next s ∧
    exec (.retentionLimitRefresh a) s = .next s ∧ exec (.patrolRead a res) s = .next s ∧ exec (.staticWearLevel c) s = .next s) ∧
  (∀ (s : State) (c : Nat) (ch : Channel), s.channel c = some ch → ch.online = true → s.holds 9 = false →
    (collectMode s c = .foreground → exec (.collectionStart c) s = .next (collect (eraseEmpty s c) c)) ∧
    (collectMode s c ≠ .foreground → exec (.collectionStart c) s = .next (eraseEmpty s c)) ∧
    (demandOn s c = true → exec (.collectionIdleTimer c) s = .next s) ∧
    (demandOn s c = false →
      (collectMode (eraseEmpty s c) c = .background → exec (.collectionIdleTimer c) s = .next (nextCopyOut (collect (eraseEmpty s c) c) c true)) ∧
      (collectMode (eraseEmpty s c) c ≠ .background → exec (.collectionIdleTimer c) s = .next (nextCopyOut (eraseEmpty s c) c true))) ∧
    (∀ tempC trained, 30 ≤ (tempC - ch.lastTempC).natAbs →
      let t := s.onChannel c fun k => { k with lastTempC := tempC, online := trained }
      exec (.flashTempRetrain c tempC trained) s = .next (if trained then t else t.onHealth fun h => { h with degraded := true })) ∧
    (∀ tempC trained, (tempC - ch.lastTempC).natAbs < 30 → exec (.flashTempRetrain c tempC trained) s = .next s) ∧
    (∀ die, ch.dead.contains die = false → die < ch.profile.dies →
      let t := (mediaRecord (s.onChannel c fun k => { k with dead := k.dead ++ [die] }) Src.flashDie 2 Act.dieOffline ⟨c, die, 0, 0⟩).onHealth fun h => { h with degraded := true }
      exec (.dieReadyTimeout c die) s = .next ((t.flash.groups.map fun g => g.1).foldl (reissue c die) t)) ∧
    (∀ a n, a.channel = c → s.namedBy a = some n → 
      (ch.profile.retentionLimitS < retentionAge s n.2.2 → exec (.retentionLimitRefresh a) s = .next (refreshFrame s a)) ∧
      (retentionAge s n.2.2 ≤ ch.profile.retentionLimitS → exec (.retentionLimitRefresh a) s = .next s)) ∧
    (∀ a n, a.channel = c → s.namedBy a = some n → s.flash.patrolEn = true → s.flash.phase = 5 → s.placeUp a = true →
      (dieDemand s c a.die = true → ∀ res, exec (.patrolRead a res) s = .next s) ∧
      (dieDemand s c a.die = false → patrolNext s c a.die (patrolAt s c a.die).1 = some (placeNo a) →
        let t := s.onFlash fun f => { f with patrol := Map.put f.patrol (16 * c + a.die) (placeNo a + 1, (patrolAt s c a.die).2) }
        exec (.patrolRead a .uncorrectable) s = .next (uncorrectable t n.1 n.2.1 (some n.2.2) []) ∧ exec (.patrolRead a .decoded) s = .next t ∧
        (∀ o, o < startOption t n.2.2 + 8 → o < ch.profile.retryOptions → exec (.patrolRead a (.retried o true)) s =
          .next (refreshFrame (noteRetry t n.1 [n.2.1] (.retried o true)) a))))) ∧
  (∀ (s : State) (c : Nat), (c = 0 ∨ c = 16) → levelledNow s c = true → exec (.staticWearLevel c) s = .next s) ∧
  (∀ (s : State) (c : Nat), (c = 0 ∨ c = 16) → levelledNow s c = false →
    let good := goodBlocks s c
    let up := good.filter fun e => s.placeUp ⟨c, blockDie e.1, 0, 0⟩
    let high := good.foldl (fun m e => Nat.max m e.2.eraseCnt) 0
    let low := good.foldl (fun m e => Nat.min m e.2.eraseCnt) high
    let filled := up.filter fun e => (e.2.state = .full || (e.2.state = .opened && pagesPerBlock s c ≤ e.2.nextPage)) && !e.2.stuck && !blockHeld s e.1 && !anchorBlock e.1
    ∀ young old, leastBy (fun e : Nat × Block => e.2.eraseCnt) filled = some young →
      leastBy (fun e : Nat × Block => high - e.2.eraseCnt) (up.filter fun e => e.2.state = .free && !anchorBlock e.1) = some old →
    (high ≤ low + 500 → exec (.staticWearLevel c) s = .next s) ∧
    (low + 500 < high →
      let t := (s.onBlock old.1 fun k => { k with state := .opened, forCopies := true }).onChannel c fun k => { k with wear := some old.1, wearAt := s.nowS }
      exec (.staticWearLevel c) s = .next (settleBlock (endWear (readOutBlock (t.onBlock young.1 fun k => { k with state := .victim }) young.1) c) young.1))) ∧
  (∀ (s : State) (p c : Nat), p < 16 → (s.part p).flash.discards ≠ [] → chooseChannel s p 1 = some c →
    let now := (s.part p).flash.discards.take 8192
    let f := { blankFrame with kind := 5, part := p, isSeal := true, epoch := (s.part p).epoch, glen := 1, obj := now.length, data := now.flatMap fun d => discardEntry d.1 d.2 }
    let t := s.onPart p fun x => { x with flash := { x.flash with discards := x.flash.discards.drop 8192 } }
    let die := ((t.channel c).map fun ch => ch.d0).getD 0
    exec (.discardRecordProgram p) s = .next (startGroup t ⟨c, p, [(die, f)], [(die, f)], [], [], [], false, true, now, none, 0, false, false⟩).1)

/-- A segment in the map host area comes into DRAM, which ends one flash wait, or, unreadable, is lost; a lost one is rebuilt from the frame
headers that can be read, once there is room for it. CKPT in the operating phase writes a checkpoint under the next number into the slot
that is not current, where both metadata channels are online and have the blocks for it. At stage 3 the checkpoint is loaded, or,
unreadable, the start goes on to the scan; at stage 4 the map is rebuilt by the scan; both end at stage 5. There the rest store is
rebuilt, and the device is READY: stage 6, the operating phase, and a READY record to PF0 and every partition. Derived from
spec/10_flash_tier.md R281; spec/10_flash_tier.md R282; spec/10_flash_tier.md R301; spec/10_flash_tier.md R303; spec/10_flash_tier.md
R304; spec/10_flash_tier.md R305; spec/12_host_interface.md R365. The model's choices that it rests on: assumption logs 19, 44, 49, 109,
110, 111, 113, 114, 115, 131. -/
def Obligations.FlashMapRows : Prop :=
  (∀ (s : State) (p g : Nat), (s.part p).flash.hostSegs.contains g = true →
    (s.pf0Bme = true → s.hostUp = true → exec (.mapSegmentFetch p g .ok) s = .next 
      (stallFree ((bringSegment s p g).onPart p fun x => { x with ingress := x.ingress.takeAll 67584 true }) p Stall.flashLate)) ∧
    exec (.mapSegmentFetch p g .error) s = .next (s.onPart p fun x => { x with flash := { x.flash with
      hostSegs := x.flash.hostSegs.filter fun n => n ≠ g
      lostSegs := if x.flash.lostSegs.contains g then x.flash.lostSegs else x.flash.lostSegs ++ [g] } })) ∧
  (∀ (s : State) (p g : Nat) (bad : List Place), (s.part p).flash.lostSegs.contains g = true →
    ((dramSegments (s.part p).flash).length < dramShare (s.part p) ∨ (s.part p).flash.hostSegs.length < hostShare s (s.part p) →
      let found := (mergeMap (scanFrames s (bad ++ unsettled s p)) p).map.filter fun e => segmentOf e.1 = g
      exec (.mapSegmentRebuild p ⟨g, bad⟩) s = .next (bringSegment (s.onPart p fun x => { x with flash := { x.flash with
        map := found.foldl (fun m e => Map.put m e.1 e.2) (x.flash.map.filter fun e => segmentOf e.1 ≠ g) } }) p g)) ∧
    (dramShare (s.part p) ≤ (dramSegments (s.part p).flash).length → hostShare s (s.part p) ≤ (s.part p).flash.hostSegs.length →
      exec (.mapSegmentRebuild p ⟨g, bad⟩) s = .next s)) ∧
  (∀ (s : State), s.linkAsleep = false → (s.reaches 16 = false ∨ s.flash.phase ≠ 5 ∨ metaOnline s = false) → exec .checkpointWrite s = .next s) ∧
  (∀ (s : State), s.reaches 16 = true → s.flash.phase = 5 → metaOnline s = true →
    let slot := match currentSlot s.flash with
      | some e => 1 - e.1
      | none => 0
    let a := Area.checkpoint slot
    let room := (stripe a 0 (checkpointFrames s) ([0, 16].foldl (fun s c => dropArea s a c) s)).bind fun u => (areaFrame u a 0 true []).bind fun u => areaFrame u a 16 true []
    (room = none → exec .checkpointWrite s = .next s) ∧
    (∀ u, room = some u → ∃ t, exec .checkpointWrite s = .next t ∧ t.flash.cpSeq = s.flash.cpSeq + 1 ∧
      t.flash.secure.openRecord = none ∧ t.flash.secure.logGaps = [] ∧ t.flash.dirty = false ∧ t.parts = s.parts ∧
      Map.look t.flash.secure.slots slot = some (checkpointOf s (s.flash.cpSeq + 1) (u.flash.wseq + 2)))) ∧
  (∀ (s : State) (c : Checkpoint), s.stage = 3 → s.checkpoint = some c →
    (let t := ({ s with parts := s.parts.map (loadPart s c) } : State).onFlash fun f =>
      { f with blocks := f.blocks.map (loadBlock s c), wseq := Nat.max f.wseq c.wseq, gaps := savedGaps s, dirty := false, rebuilt := false, phase := 4 }
     s.flash.cpReadable = true → exec .mapCheckpointLoad s = .next (freePercent { resumeClock (findOpen (applyBad t)) with stage := 5 })) ∧
    (s.flash.cpReadable = false → exec .mapCheckpointLoad s = .next ((freePercent { s with stage := 4 }).onFlash fun f => { f with phase := 2 }))) ∧
  (∀ (s : State), s.stage ≠ 3 → exec .mapCheckpointLoad s = .next s) ∧
  (∀ (s : State), s.stage = 4 →
    let bad := s.flash.badHeaders
    let b := applyBad s
    let t : State := { b with parts := b.parts.map (scanPart b (scanFrames b bad)) }
    let t := t.onFlash fun f =>
      { f with
        blocks := scanBlocks t bad f.blocks
        wseq := (t.flash.frames.filter fun e => !badHeader bad e.1 e.2).foldl (fun n e => Nat.max n e.2.wseq) 0 + 2 ^ 20
        dirty := f.secure.openRecord.isSome, rebuilt := true, phase := 4, gaps := savedGaps t }
    exec .mapRebuildScan s = .next (freePercent { resumeClock (findOpen t) with stage := 5 })) ∧
  (∀ (s : State), s.stage ≠ 4 → exec .mapRebuildScan s = .next s) ∧
  (∀ (s : State) (ms : Nat) (bad : List Place), s.stage = 5 →
    let t := s.livePartitions.foldl (recoverPart bad) s
    let t := (freePercent { t with stage := 6 }).onFlash fun f => { f with phase := 5 }
    let t := postRecord t 16 0 (readyRecord t 0 ms) none
    exec (.restStoreRebuild ⟨ms, bad⟩) s = .next (t.livePartitions.foldl (fun u p => postRecord u p 0 (readyRecord u (u.part p).seqs.length ms) none) t)) ∧
  (∀ (s : State) (ms : Nat) (bad : List Place), s.stage ≠ 5 → exec (.restStoreRebuild ⟨ms, bad⟩) s = .next s)

/-- A data packet for this chip with a reserved field set is discarded and counted in BADPKT. A well-formed one is counted in FABRIC_RX_BYTES.
It is parked where its context is not resident. With its context, of the context's epoch and from a peer: a new sequence number waits to
land, or is refused with the first cause that applies; a repeated one draws an ACK; one outside the window, or of another epoch, is
counted as stale. With no context it draws NAK NO_QP, from another chip or partition NAK PEER (an RDRESP draws nothing). A context fetched
becomes resident and its parked packets are processed in order; one that a CONNECT waited for begins to connect. A discarded frame counts
for its partition, or for the chip. Derived from spec/11_fabric.md R318; spec/11_fabric.md R319; spec/11_fabric.md R321; spec/11_fabric.md
R325; spec/11_fabric.md R329; spec/11_fabric.md R338; spec/11_fabric.md R349. The model's choices that it rests on: assumption logs 81,
82, 83, 87, 90, 92. -/
def Obligations.FabricDataPackets : Prop :=
  (∀ (s : State) (pk : Packet), addressed s pk = true →
    ∀ o ∈ ([(0x00, .write), (0x02, .send), (0x03, .rdreq), (0x04, .rdresp)] : List (Nat × (Packet → Instr))), pk.op = o.1 →
    (wellFormed o.1 pk = false → exec (o.2 pk) s = .next (tally s pk.dstPart fun n => { n with badPkt := n.badPkt + 1 })) ∧
    (wellFormed o.1 pk = true →
      let t := countRx s pk
      let i := dqpIndex pk
      let stale := tally t pk.dstPart fun n => { n with stale := n.stale + 1 }
      (contextOf t pk = none → exec (o.2 pk) s = .next (if o.1 = 0x04 then t else reportRefusal (sendNak t pk 1) pk 1)) ∧
      (∀ q, contextOf t pk = some q →
        (q.resident = false → exec (o.2 pk) s = .next (t.onQp pk.dstPart i fun q => { q with parked := q.parked ++ [pk] })) ∧
        (q.resident = true → pk.epoch ≠ q.epoch → exec (o.2 pk) s = .next stale) ∧
        (q.resident = true → pk.epoch = q.epoch → peerOf q pk = none →
          exec (o.2 pk) s = .next (if o.1 = 0x04 then t else reportRefusal (sendNak t pk 2) pk 2)) ∧
        (∀ k, q.resident = true → pk.epoch = q.epoch → peerOf q pk = some k →
          let waits := q.landing.any fun l => l.seq = pk.seq && l.src = pk.src && l.srcPart = pk.srcPart
          ((waits = true ∨ (q.flow k).order pk.seq = .duplicate) → exec (o.2 pk) s = .next (sendAck t pk.dstPart i k)) ∧
          (waits = false → (q.flow k).order pk.seq = .stale → exec (o.2 pk) s = .next stale) ∧
          (waits = false → (q.flow k).order pk.seq = .new →
            (∀ c, arrivalCause t q pk = some c → exec (o.2 pk) s = .next (settleFlow (reportRefusal (sendNak t pk c) pk c) pk.dstPart i k pk)) ∧
            (arrivalCause t q pk = none →
              exec (o.2 pk) s = .next ((claimBuffer t pk).onQp pk.dstPart i fun q => { q with landing := q.landing ++ [pk] }))))))) ∧
  (∀ (s t : State) (p i : Nat), ((s.part p).qp i).resident = false → s.fnUsable p = true → makeResident s p i = some t →
    (((s.part p).qp i).state ≠ .reset →
      exec (.qpContextFetchComplete p i .ok) s = .next (((s.part p).qp i).parked.foldl arrive (t.onQp p i fun q => { q with parked := [] }))) ∧
    (((s.part p).qp i).state = .reset → (s.part p).regs.qpcBusy = true → (s.part p).regs.qpcIndex = i →
      exec (.qpContextFetchComplete p i .ok) s = .next (beginConnect (t.onPart p fun x => { x with regs := { x.regs with qpcBusy := false } }) p i)) ∧
    (((s.part p).qp i).state = .reset → ((s.part p).regs.qpcBusy = false ∨ (s.part p).regs.qpcIndex ≠ i) →
      exec (.qpContextFetchComplete p i .ok) s = .next s)) ∧
  (∀ (s : State) (p i : Nat), exec (.qpContextFetchComplete p i .error) s = .next s) ∧
  (∀ (s : State) (r : DiscardReason) (p : Nat),
    ((r = .unknownOp ∨ r = .reservedField) → exec (.prpFrameDiscard r p) s = .next (tally s p fun n => { n with badPkt := n.badPkt + 1 })) ∧
    (r ≠ .unknownOp → r ≠ .reservedField → exec (.prpFrameDiscard r p) s = .next (s.onFabric fun f => { f with frameDrops := f.frameDrops + 1 })))

/-- A packet that waits leaves the landing queue. A WRITE that a check still refuses draws its NAK. Else its bytes go to ADDR + OFFSET of host
memory as posted writes, into the push slice, or into the buffer; a flag outside a migration then adds 1 to the buffer's counter and posts
the receive record. The header of a migration that fails its check draws MIGRATE, one that finds no memory NO_SPACE, and else its memory
is reserved; its flag commits the migration. A SEND with no RECV buffer is counted in NORECV. An RDREQ pins its set; a page in DRAM is
answered at once with RDRESP packets, another once its tentative copy is complete or its streamed read has ended, and without move-buffer
space the request still waits. Each is then taken: its bit is set and its credits are free. Derived from spec/11_fabric.md R329;
spec/11_fabric.md R331; spec/11_fabric.md R335; spec/11_fabric.md R338; spec/11_fabric.md R339; spec/11_fabric.md R340; spec/11_fabric.md
R342; spec/11_fabric.md R343. The model's choices that it rests on: assumption logs 84, 85. -/
def Obligations.PacketsLand : Prop :=
  ∀ (s : State) (p i : Nat) (pk : Packet) (k : Nat), ((s.part p).qp i).landing.find? (fun l => l.seq = pk.seq) = some pk → peerOf ((s.part p).qp i) pk = some k →
    let t := s.onQp p i fun q => { q with landing := q.landing.erase pk }
    let n := hIndex pk.buf
    let b := (t.part p).buffer n
    let done := fun u : State => (.next (settleFlow u p i k pk) : Host.Outcome State Fault Refusal)
    (pk.op = 0x00 →
      (∀ c, bufferCause t pk = some c → exec (.packetLanding p i pk.seq) s = .next (refuse t pk k c)) ∧
      (bufferCause t pk = none →
        (b.fields.kind = 0 → pk.payload ≠ [] →
          let u := t.issue (.data p (b.fields.addr + pk.offset) pk.payload none)
          (pk.flag = false → exec (.packetLanding p i pk.seq) s = done u) ∧ (pk.flag = true → exec (.packetLanding p i pk.seq) s = done (completeGroup u p n pk 0))) ∧
        (b.fields.kind = 1 → pk.payload ≠ [] →
          let a := b.fields.addr + pk.offset
          let u := t.onPart p fun x => { x with push := Memory.writeBytes x.push a (pk.payload.take (x.sliceBytes - a)) }
          (pk.flag = false → exec (.packetLanding p i pk.seq) s = done u) ∧ (pk.flag = true → exec (.packetLanding p i pk.seq) s = done (completeGroup u p n pk 0))) ∧
        (b.fields.kind ≠ 2 → pk.payload = [] → pk.flag = true → exec (.packetLanding p i pk.seq) s = done (completeGroup t p n pk 0)) ∧
        (b.fields.kind = 2 → landsHeader b pk = true → b.migration = none →
          (headerOk (t.part p) b pk.payload = false → exec (.packetLanding p i pk.seq) s = .next (refuse t pk k 9)) ∧
          (headerOk (t.part p) b pk.payload = true →
            let r := reserveMigration t p pk.payload
            (r.2 = none → exec (.packetLanding p i pk.seq) s = .next (refuse r.1 pk k 10)) ∧
            (∀ g, r.2 = some g →
              exec (.packetLanding p i pk.seq) s = done (landBytes (r.1.onBuffer p n fun b => { b with migration := some g }) p n b pk)))) ∧
        (b.fields.kind = 2 → landsHeader b pk = false → pk.flag = false → exec (.packetLanding p i pk.seq) s = done (landBytes t p n b pk)) ∧
        (b.fields.kind = 2 → landsHeader b pk = false → pk.flag = true →
          (b.migration = none → exec (.packetLanding p i pk.seq) s = .next (refuse t pk k 9)) ∧
          (∀ g, b.migration = some g →
            let u := landBytes t p n b pk
            let a := commitMigration u p n ((u.part p).buffer n) g
            exec (.packetLanding p i pk.seq) s = done (sendControl (completeGroup a.state p n pk a.handle) p i 1))))) ∧
    (pk.op = 0x02 → pk.buf = 0 →
      (recvBuffer (t.part p) i = none → exec (.packetLanding p i pk.seq) s = done (tally t p fun c => { c with noRecv := c.noRecv + 1 })) ∧
      (∀ m, recvBuffer (t.part p) i = some m →
        let u := landBytes t p m ((t.part p).buffer m) { pk with offset := 0 }
        exec (.packetLanding p i pk.seq) s = done (if pk.flag then completeGroup u p m pk 0 else u))) ∧
    (pk.op = 0x03 → (readTarget t pk = none → exec (.packetLanding p i pk.seq) s = .next (refuse t pk k 8)) ∧
      ∀ psn layer l, readTarget t pk = some (psn, layer, l) →
        let r := takeRead t p i k pk psn layer
        let copy := ((t.part p).set psn).bind fun d => Map.look d.tents layer
        let o : MoveObj := .transit 0 psn layer false
        (l.tier = 0 → exec (.packetLanding p i pk.seq) s = .next (answerRead r.1 p i k pk r.2 l)) ∧
        (l.tier ≠ 0 → ∀ c, copy = some c → exec (.packetLanding p i pk.seq) s =
          .next (if c.complete then answerRead r.1 p i k pk r.2 ⟨.page, 0, c.frame⟩ else awaitRead r.1 p i k pk r.2)) ∧
        (l.tier ≠ 0 → copy = none → freeAboveLow t (t.part p) = false →
          (moveBufAllows t p (objBuffer (t.part p) o) = true → exec (.packetLanding p i pk.seq) s =
            .next (awaitRead (readAt r.1 p (.serve i r.2.group psn layer) l (objBytes (t.part p) o) none).1 p i k pk { r.2 with streamed := true })) ∧
          (moveBufAllows t p (objBuffer (t.part p) o) = false → exec (.packetLanding p i pk.seq) s =
            .next (t.onQp p i fun q => { q with landing := q.landing ++ [pk] }))) ∧
        (l.tier ≠ 0 → copy = none → freeAboveLow t (t.part p) = true → ∀ b, beginTent r.1 p psn layer (setHome (t.part p) psn) none = some b →
          exec (.packetLanding p i pk.seq) s = .next (awaitRead b.1 p i k pk r.2))) ∧
    (pk.op = 0x04 → exec (.packetLanding p i pk.seq) s =
      done (if Map.get t.sched.generations pk.unitRec 0 ≠ pk.unitGen then tally t p fun c => { c with genDrop := c.genDrop + 1 } else t))

/-- A protocol packet for this chip with a reserved field set is counted in BADPKT; one that is well formed is counted as received, and does
no more where no queue pair of its partition has its sender as peer. An ACK, CREDIT, NAK or DISCONNECT of another epoch is counted as
stale. An ACK raises LIMIT and ends every packet of the flow up to ACKSEQ; in CONNECTING it acknowledges the CONNECT. A CREDIT raises
LIMIT. A NAK with cause 0 has the packet sent again; NO_QP puts a READY queue pair into ERROR; any other cause is counted, reported, and
fails the packet's group, but STALE on a retransmission counts as delivered. A CONNECT from a peer is acknowledged with LIMIT, and in
CONNECTING noted with its epoch. A DISCONNECT puts a READY queue pair into ERROR. (Cause 0 as a loss before landing is read from R441; the
queue pair that a NAK concerns, from assumption log 81.) Derived from spec/11_fabric.md R318; spec/11_fabric.md R324; spec/11_fabric.md
R326; spec/11_fabric.md R328; spec/11_fabric.md R329; spec/11_fabric.md R330; spec/11_fabric.md R331; spec/11_fabric.md R338;
spec/11_fabric.md R345. The model's choices that it rests on: assumption logs 82, 93. -/
def Obligations.ProtocolPackets : Prop :=
  (∀ (s : State) (pk : Packet), ∀ o ∈ ([(0x08, .ack), (0x09, .nak), (0x0A, .credit), (0x10, .connect), (0x11, .disconnect)] : List (Nat × (Packet → Instr))),
    ((addressed s pk = false ∨ pk.op ≠ o.1) → exec (o.2 pk) s = .next s) ∧
    (addressed s pk = true → pk.op = o.1 → wellFormed o.1 pk = false → exec (o.2 pk) s = .next (tally s pk.dstPart fun n => { n with badPkt := n.badPkt + 1 })) ∧
    (addressed s pk = true → wellFormed o.1 pk = true → (if o.1 = 0x09 then nakTarget (countRx s pk) pk else senderOf (countRx s pk) pk) = none →
      exec (o.2 pk) s = .next (countRx s pk))) ∧
  (∀ (s : State) (pk : Packet) (i k : Nat), addressed s pk = true → senderOf (countRx s pk) pk = some (i, k) →
    let t := countRx s pk
    let p := pk.dstPart
    let q := (t.part p).qp i
    let limited := t.onQp p i fun q => q.onFlow k fun f => f.raise pk.credit
    let stale := tally t p fun n => { n with stale := n.stale + 1 }
    (wellFormed 0x08 pk = true →
      (pk.epoch = q.epoch →
        (q.state = .connecting → exec (.ack pk) s = .next (tryReady (t.onQp p i fun q => q.onFlow k fun f => { f.raise pk.credit with connectAcked := true }) p i)) ∧
        ((q.state = .ready ∨ q.state = .draining) → exec (.ack pk) s =
          .next (deliver' limited p i (q.sent.filter fun t => t.peer = k && (pk.ackSeq + 2 ^ 24 - t.pk.seq) % 2 ^ 24 < 2 ^ 23))) ∧
        ((q.state = .reset ∨ q.state = .error) → exec (.ack pk) s = .next t)) ∧
      (pk.epoch ≠ q.epoch → exec (.ack pk) s = .next (if q.state = .reset then t else stale))) ∧
    (wellFormed 0x0A pk = true →
      ((q.state = .reset ∨ q.state = .error) → exec (.credit pk) s = .next t) ∧
      (q.state ≠ .reset → q.state ≠ .error → exec (.credit pk) s = .next (if pk.epoch = q.epoch then limited else stale))) ∧
    (wellFormed 0x10 pk = true →
      let ack := fun u : State =>
        let v := raiseGrant u p i k
        let f := ((v.part p).qp i).flow k
        sendProtocol (v.onQp p i fun q => q.onFlow k fun f => { f with sentLimit := f.grantLimit }) p i
          { packetTo v p i k 0x08 0 0 0 0 false [] with tc := 0, epoch := pk.aux % 256, ackSeq := 2 ^ 24 - 1, credit := f.grantLimit.toNat }
      (q.state = .connecting → exec (.connect pk) s =
        .next (tryReady (ack (t.onQp p i fun q => q.onFlow k fun f => { f with connectSeen := true, peerEpoch := pk.aux % 256 })) p i)) ∧
      (q.state = .ready → exec (.connect pk) s = .next (if (q.flow k).peerEpoch = pk.aux % 256 then ack t else t)) ∧
      (q.state ≠ .connecting → q.state ≠ .ready → exec (.connect pk) s = .next t)) ∧
    (wellFormed 0x11 pk = true →
      (q.state = .ready → exec (.disconnect pk) s = .next (if pk.epoch = q.epoch then qpError t p i 0x22 pk.seq else stale)) ∧
      (q.state ≠ .ready → exec (.disconnect pk) s = .next t))) ∧
  (∀ (s : State) (pk : Packet) (i k : Nat), addressed s pk = true → wellFormed 0x09 pk = true → nakTarget (countRx s pk) pk = some (i, k) →
    let t := countRx s pk
    let p := pk.dstPart
    let q := (t.part p).qp i
    let up := q.state = .ready ∨ q.state = .draining
    let sent := q.sent.find? fun t => t.peer = k && t.pk.seq = pk.seq
    (¬up → exec (.nak pk) s = .next t) ∧
    (up → pk.epoch ≠ q.epoch → exec (.nak pk) s = .next (tally t p fun n => { n with stale := n.stale + 1 })) ∧
    (up → pk.epoch = q.epoch → sent = none → exec (.nak pk) s = .next t) ∧
    (up → pk.epoch = q.epoch → ∀ u, sent = some u →
      let counted := tally (t.onQp p i fun q => q.onFlow k fun f => if 3 ≤ pk.aux then f.raise pk.credit else f) p fun n => { n with violTx := n.violTx + 1 }
      (pk.aux = 0 → exec (.nak pk) s = .next (resend p i u t)) ∧
      (pk.aux = 1 → q.state = .ready → exec (.nak pk) s = .next (qpError counted p i 1 pk.seq)) ∧
      (pk.aux = 16 → u.retries ≠ 0 → exec (.nak pk) s = .next (deliver' counted p i [u])) ∧
      (1 ≤ pk.aux → (pk.aux ≠ 1 ∨ q.state = .draining) → (pk.aux ≠ 16 ∨ u.retries = 0) → exec (.nak pk) s = .next (drainDone (dropReadPins (endNaked (reportNak counted pk i q u) p i u) p i) p i))))

/-- The first packet that credits and window admit takes the next SEQ and the credits used with it, is kept as sent, counts in FABRIC_TX_BYTES
and enters its route; a metered packet that is red stays, and a yellow LC packet goes as BE with YELLOW. A release refills the meter
first. The timer sends an ACK to each peer whose packets await one. A packet retransmitted RETRY_MAX times puts the queue pair into ERROR;
else it goes again, on the other rail or next plane. CONNECT takes the attributes and, with a context, the next epoch, and sends a CONNECT
to each peer; with none to be had it waits, BUSY; DISCONNECT leads from CONNECTING to RESET, from READY to DRAINING, where the pins of
remote reads are dropped; RESET leads from ERROR to RESET; each of the three is ignored while the host does not reach the partition or the
context is busy, and in any other state it only names the index. Derived from spec/11_fabric.md R324; spec/11_fabric.md R325;
spec/11_fabric.md R326; spec/11_fabric.md R328; spec/11_fabric.md R329; spec/11_fabric.md R330; spec/11_fabric.md R334; spec/11_fabric.md
R347; spec/11_fabric.md R349. The model's choices that it rests on: assumption logs 91, 100, 130. -/
def Obligations.QueuePairRows : Prop :=
  ∀ (s : State) (p i : Nat),
    let q := (s.part p).qp i
    let up := q.state = .ready ∨ q.state = .draining
    let cleared := fun q : Qp => { Qp.reset with lastEpoch := q.lastEpoch, nextGroup := q.nextGroup }
    (∀ n pk peer cmd, up → q.resident = true → sendable q = some (n, pk, peer, cmd) →
      let m := (s.part p).egress.meter (pkBytes pk) (q.yellowIn || bestEffort s p)
      let enters := fun (t : State) (yellow : Bool) =>
        let used := (q.flow peer).used + BitVec.ofNat 32 (pkCost pk)
        let pk := { pk with seq := (q.flow peer).nextSeq, credit := used.toNat, yellow := yellow, tc := if yellow && pk.tc = 0 then 1 else pk.tc }
        let t := t.onQp p i fun q => { (q.onFlow peer fun f => { f with nextSeq := (f.nextSeq + 1) % 2 ^ 24, used := used }) with
          queue := q.queue.eraseIdx n, sent := q.sent ++ [⟨pk, peer, 0, cmd, pk.unitGen⟩] }
        route (useQp (t.onAcct p fun a => { a with fabricTx := a.fabricTx + pkBytes pk }) p i) pk (i % 2) q.path
      (metered pk = false → exec (.prpPacketSend p i) s = .next (enters s false)) ∧
      (metered pk = true → m.1 = .red → exec (.prpPacketSend p i) s = .next s) ∧
      (metered pk = true → m.1 ≠ .red → exec (.prpPacketSend p i) s = .next (enters (s.onPart p fun x => { x with egress := m.2 }) (m.1 = .yellow)))) ∧
    (∀ ns, exec (.egressPolicerRelease p i ns) s = exec (.prpPacketSend p i) (s.onPart p fun x => { x with egress := x.egress.refill ns })) ∧
    (up → exec (.ackTimer p i) s = .next (q.peers.foldl (fun u k => if (q.flow k).unackedRx = 0 then u else sendAck u p i k) s)) ∧
    (¬up → exec (.ackTimer p i) s = .next s ∧ exec (.prpPacketSend p i) s = .next s ∧ ∀ seq, exec (.retransmitTimeout p i seq) s = .next s) ∧
    ((q.resident = false ∨ sendable q = none) → exec (.prpPacketSend p i) s = .next s) ∧
    (∀ seq, q.sent.find? (fun t => t.pk.seq = seq) = none → exec (.retransmitTimeout p i seq) s = .next s) ∧
    (∀ seq t, up → q.sent.find? (fun t => t.pk.seq = seq) = some t →
      (orOne s.fabric.retryMax ≤ t.retries → exec (.retransmitTimeout p i seq) s = .next (qpError s p i 0x20 seq)) ∧
      (t.retries < orOne s.fabric.retryMax →
        let u := s.onQp p i fun q => { q with sent := q.sent.map fun u => if u = t then { u with retries := t.retries + 1 } else u }
        let u := (tally u p fun c => { c with retx := c.retx + 1 }).onAcct p fun a => { a with fabricTx := a.fabricTx + pkBytes t.pk }
        exec (.retransmitTimeout p i seq) s = .next (route u { t.pk with retx := true } ((i + (t.retries + 1)) % 2) (q.path + (t.retries + 1))))) ∧
    (q.state = .connecting → exec (.connectRetry p i) s = .next (sendConnects s p i)) ∧
    (q.state ≠ .connecting → exec (.connectRetry p i) s = .next s) ∧
    (s.linkAsleep = false → (s.reaches p = false ∨ (s.part p).regs.qpcBusy = true) → exec (.qpConnect p i) s = .next s ∧ exec (.qpDisconnect p i) s = .next s ∧ exec (.qpReset p i) s = .next s) ∧
    (s.reaches p = true → (s.part p).regs.qpcBusy = false →
      let named := s.onPart p fun x => { x with regs := { x.regs with qpcIndex := i } }
      (∀ t, (s.func p).disable = none → i < 65536 → i < (s.part p).regs.qptSize → q.state = .reset →
        let g := (s.part p).regs
        let taken := fun (t : State) (busy : Bool) => (t.onPart p fun x => { x with regs := { x.regs with qpcIndex := i, qpcBusy := busy } }).onQp p i fun q =>
          { Qp.reset with
            peerChip := bits g.qpcPeer 0 15, peerPart := bits g.qpcPeer 16 4, peerQp := bits g.qpcPeer 24 24
            mirChip := bits g.qpcMirror 0 15, mirPart := bits g.qpcMirror 16 4, mirQp := bits g.qpcMirror 24 24
            tc := bits g.qpcAttr 0 2, mirrored := bit g.qpcAttr 2, yellowIn := bit g.qpcAttr 3, path := bits g.qpcAttr 4 2, rdOk := bit g.qpcAttr 6, eq := bits g.qpcAttr 8 4
            grant := bits g.qpcAttr 16 16, lastEpoch := q.lastEpoch, lastUse := q.lastUse, nextGroup := q.nextGroup }
        (makeResident s p i = some t → exec (.qpConnect p i) s = .next (sendConnects ((taken t false).onQp p i fun q =>
          { q with state := .connecting, resident := true, epoch := (q.lastEpoch + 1) % 256, lastEpoch := (q.lastEpoch + 1) % 256 }) p i)) ∧
        (makeResident s p i = none → exec (.qpConnect p i) s = .next (taken s true))) ∧
      (((s.func p).disable ≠ none ∨ 65536 ≤ i ∨ (s.part p).regs.qptSize ≤ i ∨ q.state ≠ .reset) → exec (.qpConnect p i) s = .next s) ∧
      (q.state ≠ .connecting → q.state ≠ .ready → exec (.qpDisconnect p i) s = .next named) ∧
      (q.state = .connecting → exec (.qpDisconnect p i) s = .next (named.onQp p i cleared)) ∧
      (q.state = .ready → exec (.qpDisconnect p i) s =
        .next (drainDone (dropAllPins ((sendControl named p i 3).onQp p i fun q => { q with state := .draining }) p i) p i)) ∧
      (q.state = .error → exec (.qpReset p i) s = .next (named.onQp p i cleared)) ∧
      (q.state ≠ .error → exec (.qpReset p i) s = .next named))

/-- JOIN set from stage PARTITIONS on opens the bypass switches; cleared, the ring ports lose their links and what waited in them, and the
chip is alone. A trained ring port comes up with its hop credits and the ring's live chips are known, an uplink comes up; a lost link
drops its packets. A bad frame is counted. A replay request sends every frame after LACK again. Returned hop credits, up to those of the
transit buffer, and an enabled pause, let the port send what it may. A transit packet goes on, on the same rail and in the same direction,
with DL set where it crosses the dateline. Each port keeps to its own state. Derived from spec/11_fabric.md R312; spec/11_fabric.md R313;
spec/11_fabric.md R314; spec/11_fabric.md R316; spec/11_fabric.md R320; spec/11_fabric.md R322; spec/16_pins_startup.md R468. The model's
choices that it rests on: assumption logs 89, 101, 149. -/
def Obligations.PortRows : Prop :=
  (∀ (s : State), s.reaches 16 = true →
    (2 ≤ s.stage → s.power.chip = .on → exec .joinSet s = .next (s.onFabric fun f => { f with join := true, bypassClosed := false })) ∧
    (s.stage < 2 → exec .joinSet s = .next s) ∧
    exec .joinClear s = .next (([0, 1, 2, 3].foldl (fun s n => s.onPort n fun x => { Port.reset with badFrames := x.badFrames }) (s.onFabric fun f => { f with join := false })).onFabric
      fun f => { f with bypassClosed := true, live := [], ringChips := 1, line := false })) ∧
  (∀ (s : State) (n : Nat) (live : List Nat), s.fabric.join = true →
    (n < 4 → exec (.linkTrained n live) s = .next (setRing (s.onPort n fun x =>
      { Port.reset with up := true, badFrames := x.badFrames, hopCredits := (List.range 6).map fun v => (v, 512) }) live)) ∧
    (4 ≤ n → n < 8 → exec (.linkTrained n live) s = .next (s.onPort n fun x => { Port.reset with up := true, badFrames := x.badFrames })) ∧
    (n < 4 → exec (.linkLost n live) s = .next (setRing (s.onPort n fun x => { Port.reset with badFrames := x.badFrames }) live))) ∧
  (∀ (s : State) (live : List Nat),
    let l := dedup (s.fabric.position :: live)
    setRing s live = s.onFabric fun f => { f with live := l, ringChips := l.length, line := 1 < l.length && !([0, 1, 2, 3].all fun n => (s.port n).up) }) ∧
  (∀ (s : State) (n lack : Nat), n < 4 → (s.port n).up = true →
    let kept := fun x : Port => { x with replay := x.replay.filter fun e => 2048 ≤ (lack + 4096 - e.1) % 4096 }
    exec (.linkFrameError n) s = .next (s.onPort n fun x => { x with badFrames := x.badFrames + 1 }) ∧
    (let t := s.onPort n kept
     exec (.replayRequest n lack) s = .next (t.onFabric fun f => { f with egress := f.egress ++ (t.port n).replay.map fun e => (n, e.2.2) })) ∧
    (∀ vc credits, vc < 6 → exec (.creditOnlyFrame n vc credits lack) s = .next (drainPort (s.onPort n fun x =>
      { kept x with hopCredits := Map.put x.hopCredits vc (Nat.min 512 (Map.get x.hopCredits vc 0 + credits)) }) n)) ∧
    (∀ pk, pk.dst ≠ ownAddress s → isRing s pk.dst = true →
      let west : Bool := n < 2
      let t := s.onPort n fun x => { x with lack := (x.lack + 1) % 4096 }
      exec (.ringTransitForward n (vcOf pk) pk) s =
        .next (portSend t (if west then n + 2 else n - 2) { pk with west := west, rail := n % 2, dl := pk.dl || onDateline t west }))) ∧
  (∀ (s : State) (u mask : Nat), u < 4 → (s.port (4 + u)).up = true →
    exec (.pfcFrame u mask) s = .next (drainPort (s.onPort (4 + u) fun x => { x with paused := mask &&& s.fabric.pfcPri }) (4 + u))) ∧
  (∀ (s : State) (n : Nat) (pk : Packet),
    ((s.port n).up = false → portSend s n pk = s) ∧
    ((s.port n).up = true → Map.get (s.port n).transit (portQueue s n pk) [] ≠ [] → portSend s n pk =
      s.onPort n fun x => { x with transit := Map.put x.transit (portQueue s n pk) (Map.get x.transit (portQueue s n pk) [] ++ [pk]) }) ∧
    ((s.port n).up = true → Map.get (s.port n).transit (portQueue s n pk) [] = [] → mayEmit (s.port n) n pk = true →
      (portSend s n pk).fabric.egress = s.fabric.egress ++ [(n, pk)] ∧ ∀ m, m ≠ n → (portSend s n pk).port m = s.port m))

/-- A quadrant of Run with no unit goes Idle; an idle one with no live sequence begins its Sleep entry; its wake ends in Run at point 0. A
chip entry first asks for the Sleep of the quadrants outside Sleep. A participant may refuse, which releases everyone with LAST_RESULT 2,
or accept; the last acceptance commits: Sleep drops the quadrant's page cache, Deep sleep seals the image and isolates the ports, Off
loses the rails. A defer limit ends an entry with LAST_RESULT 3. A wake event is latched during an entry and starts the exit in Deep
sleep. The exit restores a matching image, and the requests and host accesses that waited act in their order; else it is a cold start with
a record. Derived from spec/14_power_clocks.md R415; spec/14_power_clocks.md R416; spec/14_power_clocks.md R417; spec/14_power_clocks.md
R418; spec/14_power_clocks.md R419; spec/14_power_clocks.md R420; spec/14_power_clocks.md R421; spec/14_power_clocks.md R423;
spec/14_power_clocks.md R427; spec/14_power_clocks.md R428; spec/14_power_clocks.md R429; spec/13_security.md R390. The model's choices
that it rests on: assumption logs 60, 61, 99, 117, 118. -/
def Obligations.PowerStates : Prop :=
  (∀ (s : State) (q : Nat), q < 4 → s.power.chip = .on →
    (quadState s q = .run → quadBusy s q = false → tilesBusy s q = false → exec (.quadrantIdleEntry q) s = .next (s.onPower fun w => { w with quads := Map.put w.quads q .idle })) ∧
    ((quadBusy s q = true ∨ tilesBusy s q = true) → exec (.quadrantIdleEntry q) s = .next s) ∧
    (quadState s q = .idle → s.power.sleepHold ≠ 0 → homeLive s q = false → s.power.entry = none →
      exec (.quadrantSleepEntry q) s = .next (s.onPower fun w => { w with latched := 0, entry := some ⟨.sleep q, [], [], false⟩ })) ∧
    ((homeLive s q = true ∨ s.power.sleepHold = 0) → exec (.quadrantSleepEntry q) s = .next s) ∧
    (quadState s q = .sleep → Map.get s.power.quadWake q false = true → exec (.quadrantWakeComplete q) s = .next (s.onPower fun w =>
      { w with quads := Map.put w.quads q .run, points := Map.put w.points q 0, quadWake := Map.del w.quadWake q, dramAwake := Map.del w.dramAwake q })) ∧
    (quadState s q = .sleep → exec (.selfRefreshReturn q) s = .next (s.onPower fun w => { w with dramAwake := Map.del w.dramAwake q }))) ∧
  (∀ (s : State), s.power.entry = none →
    let want := fun k : EntryKind => s.onPower fun w =>
      { w with latched := 0, entry := some ⟨(([0, 1, 2, 3].filter fun q => quadState s q != .sleep).map EntryKind.sleep ++ [k]).headD k, [],
        (([0, 1, 2, 3].filter fun q => quadState s q != .sleep).map EntryKind.sleep ++ [k]).tail, true⟩ }
    (s.reaches 16 = true → exec .deepSleepRequest s = .next (want .deep) ∧ exec .offRequest s = .next (want .off)) ∧
    (s.power.chip = .on → s.power.autoDeep = true → allAsleep s = true → exec .autoDeepSleep s = .next (want .deep))) ∧
  (∀ (s : State) (e : Entry) (b : Nat), s.power.entry = some e → (participants e.kind).contains b = true → e.accepted.contains b = false →
    let ended := fun result : Nat =>
      let t := s.onPower fun w =>
        { w with entry := none, latched := 0, lastResult := if e.ofChip then result else w.lastResult, lastBlock := if e.ofChip then b else w.lastBlock }
      if e.accepted.contains 10 then serveHeld t else t
    (answerFits s e.kind b .refuse = true → exec (.handshakeAnswer b .refuse) s = .next (ended 2)) ∧
    (mayDefer e.kind b = true → exec (.deferLimitExpiry b) s = .next (ended 3)) ∧
    (mustRefuse s e.kind b = true → exec (.handshakeAnswer b .accept) s = .next s) ∧
    exec (.handshakeAnswer b .defer) s = .next s ∧
    (b ≠ 2 → b ≠ 9 → answerFits s e.kind b .accept = true →
      ((participants e.kind).all (fun x => (e.accepted ++ [b]).contains x) = false →
        exec (.handshakeAnswer b .accept) s = .next (s.onPower fun w => { w with entry := some { e with accepted := e.accepted ++ [b] } })) ∧
      ((participants e.kind).all (fun x => (e.accepted ++ [b]).contains x) = true →
        (∀ q, e.kind = .sleep q → e.next = [] → exec (.handshakeAnswer b .accept) s = .next ((setQuad (dropCache s q) q .sleep).onPower fun w =>
          { w with entry := none, latched := if e.ofChip then w.latched else 0 })) ∧
        (∀ q k r, e.kind = .sleep q → e.next = k :: r → exec (.handshakeAnswer b .accept) s = .next ((setQuad (dropCache s q) q .sleep).onPower fun w =>
          { w with entry := some ⟨k, [], r, e.ofChip⟩ })) ∧
        (e.kind = .deep → exec (.handshakeAnswer b .accept) s = .next (enterDeep s)) ∧
        (e.kind = .off → exec (.handshakeAnswer b .accept) s = .next (enterOff s))))) ∧
  (∀ s : State, (enterDeep s).power.chip = .deepSleep ∧ (enterDeep s).cache = [] ∧ (enterDeep s).fabric.bypassClosed = true ∧ (enterDeep s).power.entry = none ∧
    (enterOff s).power.chip = (if bit s.power.latched 0 then .on else .off) ∧ (enterOff s).flash.wseq = s.flash.wseq ∧ (enterOff s).oxs.svn = s.oxs.svn ∧
    (enterOff s).pending = s.pending ∧ (enterOff s).hostMem = s.hostMem) ∧
  (∀ (s : State),
    let woken := fun n : Nat => s.onPower fun w => { w with wake := orBit w.wake n, waking := true }
    let latch := fun n : Nat => s.onPower fun w => { w with latched := orBit w.latched n }
    (s.power.chip = .deepSleep → exec .clkreqAssert s = .next (woken 2) ∧ exec .wakeNLow s = .next (woken 0) ∧
      (∀ a, s.pins.smbusAddr = some a → exec (.smbusAddressMatch a) s = .next (woken 1)) ∧
      (s.power.alarm ≠ 0 → s.power.alarm ≤ s.nowS → exec .wakeAlarm s = .next (woken 3))) ∧
    (s.power.chip = .on → s.power.entry ≠ none → exec .clkreqAssert s = .next (latch 2) ∧ exec .wakeNLow s = .next (latch 0) ∧
      ∀ a, s.pins.smbusAddr = some a → exec (.smbusAddressMatch a) s = .next (latch 1)) ∧
    (s.power.chip = .off → s.pins.vstby = true → s.pins.tripHold = false → exec .wakeNLow s = .next (wakeFromOff false s))) ∧
  (∀ (s : State) (tagOk copyOk : Bool) (chs : List (Nat × Int × Bool)), s.power.chip = .deepSleep → s.power.waking = true →
    (((tagOk = false ∨ s.power.imageValid = false) ∧ copyOk = false) → exec (.deepSleepExit tagOk ⟨copyOk, chs⟩) s =
      .next (logError (coldState s) { ErrRecord.blank with source := Src.retention, severity := 3, action := Act.coldStart })) ∧
    (((tagOk = true ∧ s.power.imageValid = true) ∨ copyOk = true) → s.pins.linkReset = false → ∃ t, exec (.deepSleepExit tagOk ⟨copyOk, chs⟩) s = .next (s.power.held.foldl applyAccess (serveHeld t)) ∧
      t.power.held = [] ∧
      t.power.chip = .on ∧ t.power.waking = false ∧ t.power.lastResult = 1 ∧ t.power.imageValid = false ∧ t.pins.clkreqN = false ∧ t.oxs.sigOffset = s.oxs.sigBound ∧
      t.fabric.bypassClosed = !s.fabric.join ∧ t.parts = Map.each s.parts (ageDirectory ((s.nowS - s.power.sleptAtS) / 64)) ∧ t.sched = s.sched ∧ t.hostMem = s.hostMem ∧
      (tagOk = false → t.health.rseq = s.health.rseq + 1 ∨ t.health.lost = s.health.lost + 1)))

/-- A quadrant in Run above the smaller of FREQ_REQ and CAP falls at once, its voltage after it; below it the voltage is raised first and the
frequency rises once the monitor reads the voltage of the point; a reading below the voltage lowers the point to the highest that it
supports; a regulator fault is recorded. Above the limit CAP falls as far as the package needs; with 20 W of headroom and no emergency
duty cycling is undone, then CAP rises by one. An emergency starts at T_EMERG and ends 5 degrees below it; at CAP 0 duty steps by 25 %, to
75 %. A window counts a low ceiling once, under its cause, and closes each partition's. (How far CAP falls in an emergency is free.)
Derived from spec/14_power_clocks.md R432; spec/14_power_clocks.md R433; spec/14_power_clocks.md R434; spec/14_power_clocks.md R435;
spec/14_power_clocks.md R436; spec/14_power_clocks.md R439; spec/09_scheduling.md R266; spec/09_scheduling.md R269; spec/15_health.md
R446. The model's choices that it rests on: assumption logs 2, 62. -/
def Obligations.OperatingPoints : Prop :=
  (∀ (s : State) (q : Nat), s.power.chip = .on → q < 4 →
    let goal := Nat.min (Nat.min s.power.freqReq 24) s.power.cap
    (quadState s q = .run → s.power.regBad.contains q = false →
      (goal < quadPoint s q → exec (.dvfsPointChange q) s = .next (s.onPower fun w =>
        { w with points := Map.put w.points q goal, target := Map.del w.target q, millivolts := Map.put w.millivolts q (pointMv goal) })) ∧
      (quadPoint s q < goal → exec (.dvfsPointChange q) s = .next (s.onPower fun w => { w with target := Map.put w.target q goal }))) ∧
    (∀ k mv, Map.look s.power.target q = some k →
      (pointMv k ≤ mv → exec (.voltageRaiseDone q mv) s = .next (s.onPower fun w =>
        { w with points := Map.put w.points q k, target := Map.del w.target q, millivolts := Map.put w.millivolts q mv })) ∧
      (mv < pointMv k → exec (.voltageRaiseDone q mv) s = .next s)) ∧
    (∀ mv, quadState s q ≠ .sleep → mv < pointMv (quadPoint s q) → exec (.voltageMonitorDrop q mv) s = .next (s.onPower fun w =>
      { w with points := Map.put w.points q (supported mv (quadPoint s q)), millivolts := Map.put w.millivolts q mv })) ∧
    (let t := s.onPower fun w => { w with regBad := if w.regBad.contains q then w.regBad else w.regBad ++ [q], target := Map.del w.target q }
     exec (.regulatorFault q) s = .next (logError t { ErrRecord.blank with source := Src.regulator, severity := 1, loc0 := q }))) ∧
  (∀ mv k, supported mv k ≤ k ∧ (supported mv k ≠ 0 → pointMv (supported mv k) ≤ mv) ∧ ∀ j, supported mv k < j → j ≤ k → mv < pointMv j) ∧
  (∀ k, k ≤ 24 → (12 ≤ k → pointMv k = 900) ∧ pointMv k % 5 = 0 ∧ 700 ≤ pointMv k ∧ (k < 12 → 1000 * pointMv k < 700000 + 16650 * k + 5000 ∧ 700000 + 16650 * k ≤ 1000 * pointMv k)) ∧
  (∀ (s : State) (dw tiles : Nat), s.power.chip = .on →
    let w := s.power
    let p := corrected w dw
    let seen := s.onPower fun w => { w with package := p, tiles := tiles }
    (w.emerg = false → p ≤ limitDw w → exec (.governorTick dw tiles) s = .next (seen.onPower noteCap)) ∧
    (w.emerg = false → limitDw w < p → exec (.governorTick dw tiles) s = .next ((seen.onPower fun w =>
      { w with cap := capFor (limitDw w) (p - tiles) tiles w.cap w.cap }).onPower noteCap)) ∧
    exec (.governorCorrection dw tiles) s = .next (s.onPower fun w => { w with biasDw := w.biasDw + (Int.ofNat dw - Int.ofNat w.package), package := dw, tiles := tiles }) ∧
    (w.emerg = false → w.package + 200 ≤ limitDw w →
      (w.duty ≠ 0 → exec .capRaise s = .next (s.onPower fun w => { w with duty := w.duty - 25 })) ∧
      (w.duty = 0 → exec .capRaise s = .next (s.onPower fun w => noteCap { w with cap := Nat.min 24 (w.cap + 1) }))) ∧
    ((w.emerg = true ∨ limitDw w < w.package + 200) → exec .capRaise s = .next s)) ∧
  (∀ (s : State) (temp : Nat), s.power.chip = .on →
    (emergAt s.power ≤ temp → s.power.emerg = false →
      (s.power.cap = 0 → exec (.thermalEmergencyStart temp) s = .next ((s.onPower fun w => { w with emerg := true, temp := temp }).onPower noteCap)) ∧
      (s.power.cap ≠ 0 → ∃ t, exec (.thermalEmergencyStart temp) s = .next t ∧ t.power.emerg = true ∧ t.power.cap < s.power.cap)) ∧
    (temp < emergAt s.power → exec (.thermalEmergencyStart temp) s = .next s) ∧
    (s.power.emerg = true →
      (temp + 5 ≤ emergAt s.power → exec (.thermalEmergencyEnd temp) s = .next (s.onPower fun w => { w with emerg := false, temp := temp })) ∧
      (emergAt s.power < temp + 5 → exec (.thermalEmergencyEnd temp) s = .next s) ∧
      (s.power.cap = 0 → exec .dutyCycleStep s = .next (s.onPower fun w => { w with duty := Nat.min 75 (w.duty + 25) })))) ∧
  (∀ (s : State), s.power.chip = .on →
    exec .accountingWindowEnd s = .next ((s.livePartitions.foldl (fun s p => s.onPart p closeWindow) s).onPower fun w => noteCap { w with
      capPwr := if w.belowPwr then w.capPwr + 1 else w.capPwr, capTherm := if w.belowTherm then w.capTherm + 1 else w.capTherm
      belowPwr := false, belowTherm := false })) ∧
  (∀ x : Part, let a := (closeWindow x).acct
    a.windows = x.acct.windows + 1 ∧ a.tilePjWindow = 0 ∧ a.lastOver = decide (x.grant.sliceW * 10 ^ 10 < x.acct.tilePjWindow) ∧
    a.overSlice = (if x.grant.sliceW * 10 ^ 10 < x.acct.tilePjWindow then x.acct.overSlice + 1 else x.acct.overSlice) ∧
    a.energyMj * 10 ^ 9 + a.energyPj = x.acct.energyMj * 10 ^ 9 + pendingPj x.acct)

/-- The patrol takes its errors in turn: a corrected one is recorded and counted for its row, an uncorrectable one is recorded, poisons its
sector, fails its row, and in channel sets 0 and 1 acts on its owner; a quadrant in Sleep is not read. A failed row gets a spare row, of
64 per channel, or its frame is retired, of which a channel takes 32. A repaired row is sealed and recorded. A hot entry is restored from
its shadow, or the chip restarts; a directory entry is dropped. CHIP_RESTART seals its record and leaves what a reset leaves. A drift
above 4.5 % is reported once per die. The daily record keeps the last 30, and the next is due a day later. Except for the repair of a row,
the rows act only while the chip is on. Derived from spec/15_health.md R440; spec/15_health.md R441; spec/15_health.md R442;
spec/15_health.md R443; spec/15_health.md R444; spec/15_health.md R445; spec/15_health.md R449; spec/15_health.md R450; spec/15_health.md
R451; spec/15_health.md R452; spec/05_tiers_placement.md R139. The model's choices that it rests on: assumption logs 8, 48, 63, 121, 122,
124, 125. -/
def Obligations.HealthRows : Prop :=
  (∀ (s : State) (e : DramError) (r : List DramError), exec (.dramPatrol []) s = .next s ∧ exec (.dramPatrol (e :: r)) s = exec (.dramPatrol r) (patrolError s e)) ∧
  (∀ (s : State) (e : DramError), s.power.chip = .on → e.channel < 640 → e.sector < 2 ^ 23 →
    let frame := e.channel * channelFrames + e.sector / 256
    let addr := e.channel * 2 ^ 31 + e.sector * 256
    let p := channelOwner s e.channel
    (quadState s (e.channel % 4) = .sleep → exec (.dramPatrol [e]) s = .next s) ∧
    (quadState s (e.channel % 4) ≠ .sleep → e.corrected = true → exec (.dramPatrol [e]) s = .next (countRow
      (logError s { ErrRecord.blank with source := Src.dram, action := Act.corrected, part := p, loc0 := addr }) e.channel e.row frame)) ∧
    (quadState s (e.channel % 4) ≠ .sleep → e.corrected = false →
      let t := dramError s p addr 0 0 0
      let t := if p < 16 then poisonSector t p frame (e.sector % 256) else t
      let t := failRow t e.channel e.row frame
      exec (.dramPatrol [e]) s = .next (if e.channel < 8 then loseDevice t e.owner else t))) ∧
  (∀ (s : State) (ch row frame : Nat), (s.health.repairing.any fun r => r.1 = ch && r.2.1 = row) = false →
    (sparesUsed s.health ch < 64 → failRow s ch row frame = s.onHealth fun h => { h with repairing := h.repairing ++ [(ch, row, frame)] }) ∧
    (64 ≤ sparesUsed s.health ch → framesRetired s.health ch < 32 → Map.has s.health.retiredFrames frame = false → failRow s ch row frame = retireFrame s frame) ∧
    (64 ≤ sparesUsed s.health ch → (32 ≤ framesRetired s.health ch ∨ Map.has s.health.retiredFrames frame = true) → failRow s ch row frame = s) ∧
    exec (.rowRepairComplete ch row) s = .next s) ∧
  (∀ (s : State) (ch row frame : Nat), (s.health.repairing.any fun r => r.1 = ch && r.2.1 = row) = true → failRow s ch row frame = s) ∧
  (∀ (s : State) (p i die drift : Nat) (ok : Bool) (l : List DramError), s.power.chip ≠ .on →
    exec (.dramPatrol l) s = .next s ∧ exec (.hotEntryShadowRestore p i ok) s = .next s ∧ exec (.directoryEntryInvalidate p i) s = .next s ∧
    exec .chipRestart s = .next s ∧ exec (.ageingMeasure die drift) s = .next s ∧ exec .lifeDailyRecord s = .next s) ∧
  (∀ (s : State) (ch row : Nat), (s.health.repairing.any fun r => r.1 = ch && r.2.1 = row) = true →
    let n := Map.get s.health.spareRows ch 0 + 1
    let t := s.onHealth fun h => { h with
      repairing := h.repairing.filter fun r => !(r.1 = ch && r.2.1 = row), spareRows := Map.put h.spareRows ch n, rowErrors := Map.del h.rowErrors (rowKey ch row) }
    let t := sealSecure t fun c => { c with spareRows := Map.put c.spareRows ch n }
    exec (.rowRepairComplete ch row) s =
      .next (logError t { ErrRecord.blank with source := Src.dram, severity := 1, action := Act.rowRepaired, part := channelOwner t ch, loc0 := ch * 2 ^ 31 })) ∧
  (∀ (s : State) (p i : Nat), s.power.chip = .on →
    let core := { ErrRecord.blank with source := Src.core, severity := 3, action := Act.restarted, nowS := s.nowS }
    let restarted := coldState (sealSecure s fun c => { c with fatal := some core })
    exec .chipRestart s = .next restarted ∧
    ((∀ q, (s.part p).seq i = some q → q.state = .rest) → ∀ ok, exec (.hotEntryShadowRestore p i ok) s = .next s) ∧
    (∀ q, (s.part p).seq i = some q → q.state ≠ .rest →
      exec (.hotEntryShadowRestore p i false) s = .next restarted ∧
      exec (.hotEntryShadowRestore p i true) s = .next (logError s { ErrRecord.blank with source := Src.hubSram, severity := 1, action := Act.restored, part := p, loc1 := q.handleOf i })) ∧
    (Map.has (s.part p).dir i = true →
      let t := s.onPart p fun x => { x with dir := Map.del x.dir i, cnt := { x.cnt with evicted := x.cnt.evicted + 1 } }
      exec (.directoryEntryInvalidate p i) s = .next (logError t { ErrRecord.blank with source := Src.hubSram, severity := 1, action := Act.invalidated, part := p, loc1 := i / 8 })) ∧
    (Map.has (s.part p).dir i = false → exec (.directoryEntryInvalidate p i) s = .next s)) ∧
  (∀ (s : State) (die drift : Nat), 4 < die → exec (.ageingMeasure die drift) s = .next s) ∧
  (∀ (s : State) (die drift : Nat), s.power.chip = .on → die ≤ 4 →
    let t := s.onHealth fun h => { h with drift := Map.put h.drift die drift }
    ((drift ≤ 450 ∨ s.health.ageing.contains die = true) → exec (.ageingMeasure die drift) s = .next t) ∧
    (450 < drift → s.health.ageing.contains die = false → exec (.ageingMeasure die drift) s =
      .next (logError (t.onHealth fun h => { h with ageing := h.ageing ++ [die], degraded := true }) { ErrRecord.blank with source := Src.ageing, severity := 2, loc1 := drift }))) ∧
  (∀ (s : State), s.power.chip = .on → 
    (s.nowS < s.health.dailyDueS → exec .lifeDailyRecord s = .next s) ∧
    (s.health.dailyDueS ≤ s.nowS →
      let l := s.health.daily ++ [(s.nowS, (lifeFlash s).getD 10000, lifeDram s, lifeAgeing s)]
      let l := l.drop (l.length - 30)
      l.length ≤ 30 ∧ exec .lifeDailyRecord s =
        .next (sealSecure (s.onHealth fun h => { h with daily := l, dailyDueS := s.nowS + 86400 }) fun c => { c with life := l })))

/-- A reset or a loss of the rails leaves what flash, fuses and the boot NOR hold and everything else at its reset value. PWROK falling leaves
Off and starts the rail timer unless a trip holds; the timer's end brings the rails up. SYS_RST_N, or PERST_N with PERST_MODE 0, holds the
chip in reset; with PERST_MODE 1 only the PCIe link is reset. A die at 115 degrees trips the chip, and only a loss of VSTBY ends the hold.
In PRODUCTION JTAG admits IDCODE, BYPASS and SAMPLE/PRELOAD, the other boundary instructions only in reset. A cold start with no valid
slot stays in recovery; one with untrained stacks, or neither metadata channel, stops at MEMORY. Derived from spec/13_security.md R387;
spec/13_security.md R410; spec/16_pins_startup.md R460; spec/16_pins_startup.md R462; spec/16_pins_startup.md R463;
spec/16_pins_startup.md R464; spec/16_pins_startup.md R465; spec/16_pins_startup.md R466; spec/16_pins_startup.md R467;
spec/14_power_clocks.md R419; spec/14_power_clocks.md R435. The model's choices that it rests on: assumption logs 4, 113, 115, 119, 120,
136. -/
def Obligations.ResetsAndStart : Prop :=
  (∀ s : State,
    let t := coldState s
    t.stage = 0 ∧ t.parts = [] ∧ t.sched = Sched.reset ∧ t.fabric = Fabric.reset ∧ t.power = Power.reset ∧ t.health = Health.reset ∧ t.cache = [] ∧ t.outq = [] ∧
    t.oxs.svn = s.oxs.svn ∧ t.oxs.idRanges = s.oxs.idRanges ∧ t.oxs.lifecycle = s.oxs.lifecycle ∧ t.oxs.norA = s.oxs.norA ∧ t.oxs.norB = s.oxs.norB ∧
    t.flash.secure = { s.flash.secure with image := false } ∧ t.flash.frames.map (fun e => (e.1, { e.2 with torn := false })) = s.flash.frames.map (fun e => (e.1, { e.2 with torn := false })) ∧
    t.pending = s.pending ∧ t.hostMem = s.hostMem) ∧
  (∀ s : State, s.pins.pwrok = true → ∃ t, exec .pwrokFall s = .next t ∧ t = { railsLost s with
      power := { (railsLost s).power with chip := if s.power.chip = .tripped then .tripped else .off }
      pins := { (railsLost s).pins with railTimer := !s.pins.tripHold } } ∧ t.pins.railEn = false ∧ t.pins.clkreqN = true ∧ t.pins.crystal = false) ∧
  (∀ s : State, s.pins.pwrok = false → exec .pwrokFall s = .next s) ∧
  (∀ s : State, s.pins.railTimer = true → s.pins.vstby = true → s.pins.tripHold = false → exec .railEnRestart s = .next
    { s with power := { s.power with chip := .on }
             pins := { s.pins with pwrok := true, railEn := true, railTimer := false, clkreqN := false, sysRstN := true, perstN := true } }) ∧
  (∀ s : State, (s.pins.railTimer = false ∨ s.pins.tripHold = true) → exec .railEnRestart s = .next s) ∧
  (∀ s : State, (s.pins.vstby = false → exec .standbyPowerOn s = .next (s.onPins fun p => { p with vstby := true, railTimer := true })) ∧
    (s.pins.vstby = true → exec .standbyPowerOn s = .next s) ∧
    exec .vstbyLoss s = .next ((railsLost s).onPins fun p => { p with vstby := false, tripHold := false, thermtripN := true, railTimer := false }) ∧
    exec .tapReset s = .next (s.onPins fun p => { p with tap := none })) ∧
  (∀ (s : State), (s.power.chip = .on ∨ s.power.chip = .deepSleep) →
    exec (.sysRst false) s = .next ((coldState s).onPins fun p => { p with sysRstN := false, perstN := true, tap := s.pins.tap }) ∧
    (s.pins.perstMode = false → exec (.sysRst true) s = .next ((coldState s).onPins fun p => { p with sysRstN := true, perstN := false, tap := s.pins.tap })) ∧
    (s.pins.perstMode = true → exec (.sysRst true) s = .next s) ∧
    exec .crystalSettled s = .next (s.onPins fun p => { p with crystal := true }) ∧
    (∀ temp, temp < 115 → exec (.thermalTrip temp) s = .next s) ∧
    (∀ temp, 115 ≤ temp → exec (.thermalTrip temp) s = .next { railsLost s with
      power := { (railsLost s).power with chip := .tripped }, pins := { (railsLost s).pins with pwrok := true, thermtripN := false, tripHold := true } })) ∧
  (∀ s : State, s.pins.perstMode = false → exec .hostLinkReset s = .next s) ∧
  (∀ s : State, s.pins.perstMode = true →
    (s.power.chip = .on → s.power.entry = none → s.pins.pcieUp = true → exec .hostLinkReset s = .next (resetLink s)) ∧
    (s.power.chip = .deepSleep → exec .hostLinkReset s = .next ((s.onPins fun p => { p with linkReset := true }).onPower fun w => { w with wake := orBit w.wake 2, waking := true }))) ∧
  (∀ (s : State) (i : JtagInstr), s.power.chip ≠ .off → s.power.chip ≠ .tripped →
    (s.oxs.lifecycle ≠ .production → exec (.jtagInstruction i) s = .next (s.onPins fun p => { p with tap := some i })) ∧
    ((i = .idcode ∨ i = .bypass ∨ i = .samplePreload) → exec (.jtagInstruction i) s = .next (s.onPins fun p => { p with tap := some i })) ∧
    (s.oxs.lifecycle = .production → (i = .scanInternal ∨ (resetHeld s = false ∧ i ≠ .idcode ∧ i ≠ .bypass ∧ i ≠ .samplePreload)) → exec (.jtagInstruction i) s = .next s) ∧
    (resetHeld s = true → i ≠ .scanInternal → exec (.jtagInstruction i) s = .next (s.onPins fun p => { p with tap := some i }))) ∧
  (∀ (s : State) (env : ColdEnv), s.power.chip = .on → s.pins.pwrok = true → s.stage = 0 → s.oxs.recovery = false → s.halted = false →
    (bootSlot s.oxs = none → ∃ t, exec (.coldStart env) s = .next t ∧ t.oxs.recovery = true ∧ t.oxs.booted = none ∧ t.stage = 0) ∧
    (∀ f b r, bootSlot s.oxs = some (f, b, r) → ∃ t, exec (.coldStart env) s = .next t ∧ t.oxs.booted = some f ∧ t.oxs.bootedB = b ∧ t.oxs.recovered = r ∧
      t.oxs.recovery = false ∧ t.pins.pcieUp = true ∧ t.pins.smbusAddr = some (Config.smbusAddress f.seq).toNat ∧
      (env.stacksOk = false → t.stage = 1 ∧ t.halted = true) ∧
      (env.stacksOk = true → (∀ e ∈ env.channels, e.1 ≠ 0 ∧ e.1 ≠ 16) → s.channel 0 = none → s.channel 16 = none → t.stage = 1 ∧ t.halted = true) ∧
      (t.halted = false → t.parts = sealedParts s.flash.secure ∧ (t.stage = 3 ∨ t.stage = 4)))) ∧
  (∀ (s : State) (env : ColdEnv), (s.power.chip ≠ .on ∨ s.stage ≠ 0 ∨ s.oxs.recovery = true ∨ s.halted = true) → exec (.coldStart env) s = .next s)
end

