-- ==== Sys2Proof/Laws/Maps.lean ====
section
/-! SUPPORT. Laws of the sparse maps: reading what was written, leaving every other key alone, and the canonical form. -/

namespace Sys2Proof

variable {α : Type}

@[simp] theorem Map.look_nil (k : Nat) : Map.look ([] : Map α) k = none := rfl

theorem Map.look_cons (j k : Nat) (a : α) (r : Map α) : Map.look ((j, a) :: r) k = if j = k then some a else Map.look r k := rfl

theorem Map.look_filter_ne (m : Map α) (k i : Nat) (h : i ≠ k) : Map.look (m.filter fun e => e.1 != k) i = Map.look m i := by
  induction m with
  | nil => rfl
  | cons e r ih =>
    obtain ⟨j, a⟩ := e
    by_cases hj : j = k
    · subst hj
      have hi : ¬ j = i := fun e => h e.symm
      simp [Map.look_cons, ih, hi]
    · simp [hj, Map.look_cons, ih]

/-- A key that was deleted has no entry. -/
@[simp] theorem Map.look_del_same (m : Map α) (k : Nat) : Map.look (Map.del m k) k = none := by
  unfold Map.del
  induction m with
  | nil => rfl
  | cons e r ih =>
    obtain ⟨j, a⟩ := e
    by_cases hj : j = k <;> simp [hj, Map.look_cons, ih]

/-- Deleting a key leaves every other one alone. -/
@[simp] theorem Map.look_del_ne (m : Map α) (k i : Nat) (h : i ≠ k) : Map.look (Map.del m k) i = Map.look m i :=
  Map.look_filter_ne m k i h

theorem Map.look_place_same (m : Map α) (k : Nat) (a : α) (h : Map.look m k = none) : Map.look (Map.place m k a) k = some a := by
  induction m with
  | nil => simp [Map.place, Map.look_cons]
  | cons e r ih =>
    obtain ⟨j, b⟩ := e
    rw [Map.look_cons] at h
    by_cases hj : j = k
    · simp [hj] at h
    · simp only [hj, if_false] at h
      unfold Map.place
      split
      · simp [Map.look_cons]
      · simp [Map.look_cons, hj, ih h]

theorem Map.look_place_ne (m : Map α) (k i : Nat) (a : α) (h : i ≠ k) : Map.look (Map.place m k a) i = Map.look m i := by
  have hk : ¬ k = i := fun e => h e.symm
  induction m with
  | nil => simp [Map.place, Map.look_cons, hk]
  | cons e r ih =>
    obtain ⟨j, b⟩ := e
    unfold Map.place
    split
    · simp [Map.look_cons, hk]
    · simp [Map.look_cons, ih]

/-- A read after a write to the same key gives the value written. -/
@[simp] theorem Map.look_put_same (m : Map α) (k : Nat) (a : α) : Map.look (Map.put m k a) k = some a :=
  Map.look_place_same _ _ _ (Map.look_del_same m k)

/-- A write leaves every other key alone. -/
@[simp] theorem Map.look_put_ne (m : Map α) (k i : Nat) (a : α) (h : i ≠ k) : Map.look (Map.put m k a) i = Map.look m i := by
  unfold Map.put
  rw [Map.look_place_ne _ _ _ _ h, Map.look_del_ne _ _ _ h]

@[simp] theorem Map.get_put_same (m : Map α) (k : Nat) (a d : α) : Map.get (Map.put m k a) k d = a := by simp [Map.get]

@[simp] theorem Map.get_put_ne (m : Map α) (k i : Nat) (a d : α) (h : i ≠ k) : Map.get (Map.put m k a) i d = Map.get m i d := by
  simp [Map.get, h]

@[simp] theorem Map.look_edit_same (m : Map α) (k : Nat) (f : α → α) : Map.look (Map.edit m k f) k = (Map.look m k).map f := by
  unfold Map.edit
  cases h : Map.look m k <;> simp [h]

@[simp] theorem Map.look_edit_ne (m : Map α) (k i : Nat) (f : α → α) (h : i ≠ k) : Map.look (Map.edit m k f) i = Map.look m i := by
  unfold Map.edit
  cases Map.look m k <;> simp [h]

theorem Map.look_each {β : Type} (m : Map α) (f : α → β) (k : Nat) : Map.look (Map.each m f) k = (Map.look m k).map f := by
  induction m with
  | nil => rfl
  | cons e r ih =>
    obtain ⟨j, a⟩ := e
    have ih' : Map.look (List.map (fun e : Nat × α => (e.1, f e.2)) r) k = (Map.look r k).map f := ih
    by_cases hj : j = k <;> simp [Map.each, Map.look_cons, hj, ih']

/-! ### The canonical form -/

/-- Rising keys, said for every pair. -/
theorem Map.wf_iff (m : Map α) : Map.wf m = true ↔ m.Pairwise fun a b => a.1 < b.1 := by
  induction m with
  | nil => simp [Map.wf]
  | cons e r ih =>
    cases r with
    | nil => simp [Map.wf]
    | cons f t =>
      obtain ⟨j, a⟩ := e
      obtain ⟨k, b⟩ := f
      simp only [Map.wf, Bool.and_eq_true, decide_eq_true_eq, ih]
      constructor
      · rintro ⟨hjk, hp⟩
        refine List.pairwise_cons.2 ⟨?_, hp⟩
        intro x hx
        rcases List.mem_cons.1 hx with rfl | hx
        · exact hjk
        · exact Nat.lt_trans hjk ((List.pairwise_cons.1 hp).1 x hx)
      · intro hp
        have h := List.pairwise_cons.1 hp
        exact ⟨h.1 _ (List.mem_cons_self ..), h.2⟩

theorem Map.mem_place (m : Map α) (k : Nat) (a : α) (x : Nat × α) : x ∈ Map.place m k a → x = (k, a) ∨ x ∈ m := by
  induction m with
  | nil => intro h; exact Or.inl (by simpa [Map.place] using h)
  | cons e r ih =>
    obtain ⟨j, b⟩ := e
    unfold Map.place
    split
    · intro h
      rcases List.mem_cons.1 h with h | h
      · exact Or.inl h
      · exact Or.inr h
    · intro h
      rcases List.mem_cons.1 h with h | h
      · exact Or.inr (by simp [h])
      · rcases ih h with h | h
        · exact Or.inl h
        · exact Or.inr (List.mem_cons_of_mem _ h)

theorem Map.del_wf (m : Map α) (k : Nat) (h : Map.wf m = true) : Map.wf (Map.del m k) = true := by
  rw [Map.wf_iff] at *
  exact h.filter _

theorem Map.place_wf (m : Map α) (k : Nat) (a : α) (hk : ∀ x ∈ m, x.1 ≠ k) (h : Map.wf m = true) :
    Map.wf (Map.place m k a) = true := by
  rw [Map.wf_iff] at *
  induction m with
  | nil => simp [Map.place]
  | cons e r ih =>
    obtain ⟨j, b⟩ := e
    have hp := List.pairwise_cons.1 h
    have hj : j ≠ k := hk (j, b) (List.mem_cons_self ..)
    unfold Map.place
    split
    next hlt =>
      refine List.pairwise_cons.2 ⟨?_, h⟩
      intro x hx
      rcases List.mem_cons.1 hx with rfl | hx
      · exact hlt
      · exact Nat.lt_trans hlt (hp.1 x hx)
    next hge =>
      refine List.pairwise_cons.2 ⟨?_, ih (fun x hx => hk x (List.mem_cons_of_mem _ hx)) hp.2⟩
      intro x hx
      rcases Map.mem_place r k a x hx with rfl | hx
      · show j < k
        omega
      · exact hp.1 x hx

/-- Setting a key keeps the keys rising. -/
theorem Map.put_wf (m : Map α) (k : Nat) (a : α) (h : Map.wf m = true) : Map.wf (Map.put m k a) = true := by
  refine Map.place_wf _ k a ?_ (Map.del_wf m k h)
  intro x hx
  have := (List.mem_filter.1 hx).2
  simpa using this

theorem Map.edit_wf (m : Map α) (k : Nat) (f : α → α) (h : Map.wf m = true) : Map.wf (Map.edit m k f) = true := by
  unfold Map.edit
  split
  · exact h
  · exact Map.put_wf m k _ h

theorem Map.each_wf {β : Type} (m : Map α) (f : α → β) (h : Map.wf m = true) : Map.wf (Map.each m f) = true := by
  rw [Map.wf_iff] at *
  unfold Map.each
  rw [List.pairwise_map]
  exact h

theorem Map.filter_wf (m : Map α) (p : Nat × α → Bool) (h : Map.wf m = true) : Map.wf (m.filter p) = true := by
  rw [Map.wf_iff] at *
  exact h.filter _

/-! ### Folds -/

/-- What every step of a fold keeps, the fold keeps. -/
theorem foldl_keeps {β : Type} (P : α → Prop) (g : α → β → α) (hg : ∀ s b, P s → P (g s b)) (l : List β) (s : α) (h : P s) :
    P (l.foldl g s) := by
  induction l generalizing s with
  | nil => exact h
  | cons b r ih => exact ih _ (hg _ _ h)

/-- A field that no step of a fold changes, the fold does not change. -/
theorem foldl_same {β γ : Type} (φ : α → γ) (g : α → β → α) (hg : ∀ s b, φ (g s b) = φ s) (l : List β) (s : α) :
    φ (l.foldl g s) = φ s :=
  foldl_keeps (fun t => φ t = φ s) g (fun t b h => (hg t b).trans h) l s rfl

end Sys2Proof
end

