-- ==== Sys2Proof/Laws/State.lean ====
section
/-! SUPPORT. What each named update of the state and of a partition does to each field: the field it names changes, every other one
stays. -/

namespace Sys2Proof.Machine

open Sys2Proof

variable (s : State)

/-! ### State.setPart -/

@[simp] theorem State.setPart_pending (p : Nat) (x : Part) : (s.setPart p x).pending = s.pending := rfl
@[simp] theorem State.setPart_hostMem (p : Nat) (x : Part) : (s.setPart p x).hostMem = s.hostMem := rfl
@[simp] theorem State.setPart_nowS (p : Nat) (x : Part) : (s.setPart p x).nowS = s.nowS := rfl
@[simp] theorem State.setPart_dirSweep (p : Nat) (x : Part) : (s.setPart p x).dirSweep = s.dirSweep := rfl
@[simp] theorem State.setPart_stage (p : Nat) (x : Part) : (s.setPart p x).stage = s.stage := rfl
@[simp] theorem State.setPart_halted (p : Nat) (x : Part) : (s.setPart p x).halted = s.halted := rfl
@[simp] theorem State.setPart_funcs (p : Nat) (x : Part) : (s.setPart p x).funcs = s.funcs := rfl
@[simp] theorem State.setPart_vfEnable (p : Nat) (x : Part) : (s.setPart p x).vfEnable = s.vfEnable := rfl
@[simp] theorem State.setPart_meq (p : Nat) (x : Part) : (s.setPart p x).meq = s.meq := rfl
@[simp] theorem State.setPart_pf0Bme (p : Nat) (x : Part) : (s.setPart p x).pf0Bme = s.pf0Bme := rfl
@[simp] theorem State.setPart_pf0Vector (p : Nat) (x : Part) : (s.setPart p x).pf0Vector = s.pf0Vector := rfl
@[simp] theorem State.setPart_quiesce (p : Nat) (x : Part) : (s.setPart p x).quiesce = s.quiesce := rfl
@[simp] theorem State.setPart_sched (p : Nat) (x : Part) : (s.setPart p x).sched = s.sched := rfl
@[simp] theorem State.setPart_reads (p : Nat) (x : Part) : (s.setPart p x).reads = s.reads := rfl
@[simp] theorem State.setPart_nextRead (p : Nat) (x : Part) : (s.setPart p x).nextRead = s.nextRead := rfl
@[simp] theorem State.setPart_flash (p : Nat) (x : Part) : (s.setPart p x).flash = s.flash := rfl
@[simp] theorem State.setPart_fabric (p : Nat) (x : Part) : (s.setPart p x).fabric = s.fabric := rfl
@[simp] theorem State.setPart_oxs (p : Nat) (x : Part) : (s.setPart p x).oxs = s.oxs := rfl
@[simp] theorem State.setPart_power (p : Nat) (x : Part) : (s.setPart p x).power = s.power := rfl
@[simp] theorem State.setPart_health (p : Nat) (x : Part) : (s.setPart p x).health = s.health := rfl
@[simp] theorem State.setPart_pins (p : Nat) (x : Part) : (s.setPart p x).pins = s.pins := rfl
@[simp] theorem State.setPart_cache (p : Nat) (x : Part) : (s.setPart p x).cache = s.cache := rfl
@[simp] theorem State.setPart_uses (p : Nat) (x : Part) : (s.setPart p x).uses = s.uses := rfl
@[simp] theorem State.setPart_outq (p : Nat) (x : Part) : (s.setPart p x).outq = s.outq := rfl
@[simp] theorem State.setPart_credits (p : Nat) (x : Part) : (s.setPart p x).credits = s.credits := rfl
@[simp] theorem State.setPart_wakeDrop (p : Nat) (x : Part) : (s.setPart p x).wakeDrop = s.wakeDrop := rfl
@[simp] theorem State.setPart_draws (p : Nat) (x : Part) : (s.setPart p x).draws = s.draws := rfl
@[simp] theorem State.setPart_msix (p : Nat) (x : Part) : (s.setPart p x).msix = s.msix := rfl

/-! ### State.onPart -/

@[simp] theorem State.onPart_pending (p : Nat) (f : Part → Part) : (s.onPart p f).pending = s.pending := rfl
@[simp] theorem State.onPart_hostMem (p : Nat) (f : Part → Part) : (s.onPart p f).hostMem = s.hostMem := rfl
@[simp] theorem State.onPart_nowS (p : Nat) (f : Part → Part) : (s.onPart p f).nowS = s.nowS := rfl
@[simp] theorem State.onPart_dirSweep (p : Nat) (f : Part → Part) : (s.onPart p f).dirSweep = s.dirSweep := rfl
@[simp] theorem State.onPart_stage (p : Nat) (f : Part → Part) : (s.onPart p f).stage = s.stage := rfl
@[simp] theorem State.onPart_halted (p : Nat) (f : Part → Part) : (s.onPart p f).halted = s.halted := rfl
@[simp] theorem State.onPart_funcs (p : Nat) (f : Part → Part) : (s.onPart p f).funcs = s.funcs := rfl
@[simp] theorem State.onPart_vfEnable (p : Nat) (f : Part → Part) : (s.onPart p f).vfEnable = s.vfEnable := rfl
@[simp] theorem State.onPart_meq (p : Nat) (f : Part → Part) : (s.onPart p f).meq = s.meq := rfl
@[simp] theorem State.onPart_pf0Bme (p : Nat) (f : Part → Part) : (s.onPart p f).pf0Bme = s.pf0Bme := rfl
@[simp] theorem State.onPart_pf0Vector (p : Nat) (f : Part → Part) : (s.onPart p f).pf0Vector = s.pf0Vector := rfl
@[simp] theorem State.onPart_quiesce (p : Nat) (f : Part → Part) : (s.onPart p f).quiesce = s.quiesce := rfl
@[simp] theorem State.onPart_sched (p : Nat) (f : Part → Part) : (s.onPart p f).sched = s.sched := rfl
@[simp] theorem State.onPart_reads (p : Nat) (f : Part → Part) : (s.onPart p f).reads = s.reads := rfl
@[simp] theorem State.onPart_nextRead (p : Nat) (f : Part → Part) : (s.onPart p f).nextRead = s.nextRead := rfl
@[simp] theorem State.onPart_flash (p : Nat) (f : Part → Part) : (s.onPart p f).flash = s.flash := rfl
@[simp] theorem State.onPart_fabric (p : Nat) (f : Part → Part) : (s.onPart p f).fabric = s.fabric := rfl
@[simp] theorem State.onPart_oxs (p : Nat) (f : Part → Part) : (s.onPart p f).oxs = s.oxs := rfl
@[simp] theorem State.onPart_power (p : Nat) (f : Part → Part) : (s.onPart p f).power = s.power := rfl
@[simp] theorem State.onPart_health (p : Nat) (f : Part → Part) : (s.onPart p f).health = s.health := rfl
@[simp] theorem State.onPart_pins (p : Nat) (f : Part → Part) : (s.onPart p f).pins = s.pins := rfl
@[simp] theorem State.onPart_cache (p : Nat) (f : Part → Part) : (s.onPart p f).cache = s.cache := rfl
@[simp] theorem State.onPart_uses (p : Nat) (f : Part → Part) : (s.onPart p f).uses = s.uses := rfl
@[simp] theorem State.onPart_outq (p : Nat) (f : Part → Part) : (s.onPart p f).outq = s.outq := rfl
@[simp] theorem State.onPart_credits (p : Nat) (f : Part → Part) : (s.onPart p f).credits = s.credits := rfl
@[simp] theorem State.onPart_wakeDrop (p : Nat) (f : Part → Part) : (s.onPart p f).wakeDrop = s.wakeDrop := rfl
@[simp] theorem State.onPart_draws (p : Nat) (f : Part → Part) : (s.onPart p f).draws = s.draws := rfl
@[simp] theorem State.onPart_msix (p : Nat) (f : Part → Part) : (s.onPart p f).msix = s.msix := rfl

/-! ### State.onFunc -/

@[simp] theorem State.onFunc_pending (n : Nat) (f : Func → Func) : (s.onFunc n f).pending = s.pending := rfl
@[simp] theorem State.onFunc_hostMem (n : Nat) (f : Func → Func) : (s.onFunc n f).hostMem = s.hostMem := rfl
@[simp] theorem State.onFunc_nowS (n : Nat) (f : Func → Func) : (s.onFunc n f).nowS = s.nowS := rfl
@[simp] theorem State.onFunc_dirSweep (n : Nat) (f : Func → Func) : (s.onFunc n f).dirSweep = s.dirSweep := rfl
@[simp] theorem State.onFunc_stage (n : Nat) (f : Func → Func) : (s.onFunc n f).stage = s.stage := rfl
@[simp] theorem State.onFunc_halted (n : Nat) (f : Func → Func) : (s.onFunc n f).halted = s.halted := rfl
@[simp] theorem State.onFunc_parts (n : Nat) (f : Func → Func) : (s.onFunc n f).parts = s.parts := rfl
@[simp] theorem State.onFunc_vfEnable (n : Nat) (f : Func → Func) : (s.onFunc n f).vfEnable = s.vfEnable := rfl
@[simp] theorem State.onFunc_meq (n : Nat) (f : Func → Func) : (s.onFunc n f).meq = s.meq := rfl
@[simp] theorem State.onFunc_pf0Bme (n : Nat) (f : Func → Func) : (s.onFunc n f).pf0Bme = s.pf0Bme := rfl
@[simp] theorem State.onFunc_pf0Vector (n : Nat) (f : Func → Func) : (s.onFunc n f).pf0Vector = s.pf0Vector := rfl
@[simp] theorem State.onFunc_quiesce (n : Nat) (f : Func → Func) : (s.onFunc n f).quiesce = s.quiesce := rfl
@[simp] theorem State.onFunc_sched (n : Nat) (f : Func → Func) : (s.onFunc n f).sched = s.sched := rfl
@[simp] theorem State.onFunc_reads (n : Nat) (f : Func → Func) : (s.onFunc n f).reads = s.reads := rfl
@[simp] theorem State.onFunc_nextRead (n : Nat) (f : Func → Func) : (s.onFunc n f).nextRead = s.nextRead := rfl
@[simp] theorem State.onFunc_flash (n : Nat) (f : Func → Func) : (s.onFunc n f).flash = s.flash := rfl
@[simp] theorem State.onFunc_fabric (n : Nat) (f : Func → Func) : (s.onFunc n f).fabric = s.fabric := rfl
@[simp] theorem State.onFunc_oxs (n : Nat) (f : Func → Func) : (s.onFunc n f).oxs = s.oxs := rfl
@[simp] theorem State.onFunc_power (n : Nat) (f : Func → Func) : (s.onFunc n f).power = s.power := rfl
@[simp] theorem State.onFunc_health (n : Nat) (f : Func → Func) : (s.onFunc n f).health = s.health := rfl
@[simp] theorem State.onFunc_pins (n : Nat) (f : Func → Func) : (s.onFunc n f).pins = s.pins := rfl
@[simp] theorem State.onFunc_cache (n : Nat) (f : Func → Func) : (s.onFunc n f).cache = s.cache := rfl
@[simp] theorem State.onFunc_uses (n : Nat) (f : Func → Func) : (s.onFunc n f).uses = s.uses := rfl
@[simp] theorem State.onFunc_outq (n : Nat) (f : Func → Func) : (s.onFunc n f).outq = s.outq := rfl
@[simp] theorem State.onFunc_credits (n : Nat) (f : Func → Func) : (s.onFunc n f).credits = s.credits := rfl
@[simp] theorem State.onFunc_wakeDrop (n : Nat) (f : Func → Func) : (s.onFunc n f).wakeDrop = s.wakeDrop := rfl
@[simp] theorem State.onFunc_draws (n : Nat) (f : Func → Func) : (s.onFunc n f).draws = s.draws := rfl
@[simp] theorem State.onFunc_msix (n : Nat) (f : Func → Func) : (s.onFunc n f).msix = s.msix := rfl

/-! ### State.onSlot -/

@[simp] theorem State.onSlot_pending (p i : Nat) (f : Slot → Slot) : (s.onSlot p i f).pending = s.pending := rfl
@[simp] theorem State.onSlot_hostMem (p i : Nat) (f : Slot → Slot) : (s.onSlot p i f).hostMem = s.hostMem := rfl
@[simp] theorem State.onSlot_nowS (p i : Nat) (f : Slot → Slot) : (s.onSlot p i f).nowS = s.nowS := rfl
@[simp] theorem State.onSlot_dirSweep (p i : Nat) (f : Slot → Slot) : (s.onSlot p i f).dirSweep = s.dirSweep := rfl
@[simp] theorem State.onSlot_stage (p i : Nat) (f : Slot → Slot) : (s.onSlot p i f).stage = s.stage := rfl
@[simp] theorem State.onSlot_halted (p i : Nat) (f : Slot → Slot) : (s.onSlot p i f).halted = s.halted := rfl
@[simp] theorem State.onSlot_funcs (p i : Nat) (f : Slot → Slot) : (s.onSlot p i f).funcs = s.funcs := rfl
@[simp] theorem State.onSlot_vfEnable (p i : Nat) (f : Slot → Slot) : (s.onSlot p i f).vfEnable = s.vfEnable := rfl
@[simp] theorem State.onSlot_meq (p i : Nat) (f : Slot → Slot) : (s.onSlot p i f).meq = s.meq := rfl
@[simp] theorem State.onSlot_pf0Bme (p i : Nat) (f : Slot → Slot) : (s.onSlot p i f).pf0Bme = s.pf0Bme := rfl
@[simp] theorem State.onSlot_pf0Vector (p i : Nat) (f : Slot → Slot) : (s.onSlot p i f).pf0Vector = s.pf0Vector := rfl
@[simp] theorem State.onSlot_quiesce (p i : Nat) (f : Slot → Slot) : (s.onSlot p i f).quiesce = s.quiesce := rfl
@[simp] theorem State.onSlot_sched (p i : Nat) (f : Slot → Slot) : (s.onSlot p i f).sched = s.sched := rfl
@[simp] theorem State.onSlot_reads (p i : Nat) (f : Slot → Slot) : (s.onSlot p i f).reads = s.reads := rfl
@[simp] theorem State.onSlot_nextRead (p i : Nat) (f : Slot → Slot) : (s.onSlot p i f).nextRead = s.nextRead := rfl
@[simp] theorem State.onSlot_flash (p i : Nat) (f : Slot → Slot) : (s.onSlot p i f).flash = s.flash := rfl
@[simp] theorem State.onSlot_fabric (p i : Nat) (f : Slot → Slot) : (s.onSlot p i f).fabric = s.fabric := rfl
@[simp] theorem State.onSlot_oxs (p i : Nat) (f : Slot → Slot) : (s.onSlot p i f).oxs = s.oxs := rfl
@[simp] theorem State.onSlot_power (p i : Nat) (f : Slot → Slot) : (s.onSlot p i f).power = s.power := rfl
@[simp] theorem State.onSlot_health (p i : Nat) (f : Slot → Slot) : (s.onSlot p i f).health = s.health := rfl
@[simp] theorem State.onSlot_pins (p i : Nat) (f : Slot → Slot) : (s.onSlot p i f).pins = s.pins := rfl
@[simp] theorem State.onSlot_cache (p i : Nat) (f : Slot → Slot) : (s.onSlot p i f).cache = s.cache := rfl
@[simp] theorem State.onSlot_uses (p i : Nat) (f : Slot → Slot) : (s.onSlot p i f).uses = s.uses := rfl
@[simp] theorem State.onSlot_outq (p i : Nat) (f : Slot → Slot) : (s.onSlot p i f).outq = s.outq := rfl
@[simp] theorem State.onSlot_credits (p i : Nat) (f : Slot → Slot) : (s.onSlot p i f).credits = s.credits := rfl
@[simp] theorem State.onSlot_wakeDrop (p i : Nat) (f : Slot → Slot) : (s.onSlot p i f).wakeDrop = s.wakeDrop := rfl
@[simp] theorem State.onSlot_draws (p i : Nat) (f : Slot → Slot) : (s.onSlot p i f).draws = s.draws := rfl
@[simp] theorem State.onSlot_msix (p i : Nat) (f : Slot → Slot) : (s.onSlot p i f).msix = s.msix := rfl

/-! ### State.onSeq -/

@[simp] theorem State.onSeq_pending (p i : Nat) (f : Seq → Seq) : (s.onSeq p i f).pending = s.pending := rfl
@[simp] theorem State.onSeq_hostMem (p i : Nat) (f : Seq → Seq) : (s.onSeq p i f).hostMem = s.hostMem := rfl
@[simp] theorem State.onSeq_nowS (p i : Nat) (f : Seq → Seq) : (s.onSeq p i f).nowS = s.nowS := rfl
@[simp] theorem State.onSeq_dirSweep (p i : Nat) (f : Seq → Seq) : (s.onSeq p i f).dirSweep = s.dirSweep := rfl
@[simp] theorem State.onSeq_stage (p i : Nat) (f : Seq → Seq) : (s.onSeq p i f).stage = s.stage := rfl
@[simp] theorem State.onSeq_halted (p i : Nat) (f : Seq → Seq) : (s.onSeq p i f).halted = s.halted := rfl
@[simp] theorem State.onSeq_funcs (p i : Nat) (f : Seq → Seq) : (s.onSeq p i f).funcs = s.funcs := rfl
@[simp] theorem State.onSeq_vfEnable (p i : Nat) (f : Seq → Seq) : (s.onSeq p i f).vfEnable = s.vfEnable := rfl
@[simp] theorem State.onSeq_meq (p i : Nat) (f : Seq → Seq) : (s.onSeq p i f).meq = s.meq := rfl
@[simp] theorem State.onSeq_pf0Bme (p i : Nat) (f : Seq → Seq) : (s.onSeq p i f).pf0Bme = s.pf0Bme := rfl
@[simp] theorem State.onSeq_pf0Vector (p i : Nat) (f : Seq → Seq) : (s.onSeq p i f).pf0Vector = s.pf0Vector := rfl
@[simp] theorem State.onSeq_quiesce (p i : Nat) (f : Seq → Seq) : (s.onSeq p i f).quiesce = s.quiesce := rfl
@[simp] theorem State.onSeq_sched (p i : Nat) (f : Seq → Seq) : (s.onSeq p i f).sched = s.sched := rfl
@[simp] theorem State.onSeq_reads (p i : Nat) (f : Seq → Seq) : (s.onSeq p i f).reads = s.reads := rfl
@[simp] theorem State.onSeq_nextRead (p i : Nat) (f : Seq → Seq) : (s.onSeq p i f).nextRead = s.nextRead := rfl
@[simp] theorem State.onSeq_flash (p i : Nat) (f : Seq → Seq) : (s.onSeq p i f).flash = s.flash := rfl
@[simp] theorem State.onSeq_fabric (p i : Nat) (f : Seq → Seq) : (s.onSeq p i f).fabric = s.fabric := rfl
@[simp] theorem State.onSeq_oxs (p i : Nat) (f : Seq → Seq) : (s.onSeq p i f).oxs = s.oxs := rfl
@[simp] theorem State.onSeq_power (p i : Nat) (f : Seq → Seq) : (s.onSeq p i f).power = s.power := rfl
@[simp] theorem State.onSeq_health (p i : Nat) (f : Seq → Seq) : (s.onSeq p i f).health = s.health := rfl
@[simp] theorem State.onSeq_pins (p i : Nat) (f : Seq → Seq) : (s.onSeq p i f).pins = s.pins := rfl
@[simp] theorem State.onSeq_cache (p i : Nat) (f : Seq → Seq) : (s.onSeq p i f).cache = s.cache := rfl
@[simp] theorem State.onSeq_uses (p i : Nat) (f : Seq → Seq) : (s.onSeq p i f).uses = s.uses := rfl
@[simp] theorem State.onSeq_outq (p i : Nat) (f : Seq → Seq) : (s.onSeq p i f).outq = s.outq := rfl
@[simp] theorem State.onSeq_credits (p i : Nat) (f : Seq → Seq) : (s.onSeq p i f).credits = s.credits := rfl
@[simp] theorem State.onSeq_wakeDrop (p i : Nat) (f : Seq → Seq) : (s.onSeq p i f).wakeDrop = s.wakeDrop := rfl
@[simp] theorem State.onSeq_draws (p i : Nat) (f : Seq → Seq) : (s.onSeq p i f).draws = s.draws := rfl
@[simp] theorem State.onSeq_msix (p i : Nat) (f : Seq → Seq) : (s.onSeq p i f).msix = s.msix := rfl

/-! ### State.onSet -/

@[simp] theorem State.onSet_pending (p n : Nat) (f : PageSet → PageSet) : (s.onSet p n f).pending = s.pending := rfl
@[simp] theorem State.onSet_hostMem (p n : Nat) (f : PageSet → PageSet) : (s.onSet p n f).hostMem = s.hostMem := rfl
@[simp] theorem State.onSet_nowS (p n : Nat) (f : PageSet → PageSet) : (s.onSet p n f).nowS = s.nowS := rfl
@[simp] theorem State.onSet_dirSweep (p n : Nat) (f : PageSet → PageSet) : (s.onSet p n f).dirSweep = s.dirSweep := rfl
@[simp] theorem State.onSet_stage (p n : Nat) (f : PageSet → PageSet) : (s.onSet p n f).stage = s.stage := rfl
@[simp] theorem State.onSet_halted (p n : Nat) (f : PageSet → PageSet) : (s.onSet p n f).halted = s.halted := rfl
@[simp] theorem State.onSet_funcs (p n : Nat) (f : PageSet → PageSet) : (s.onSet p n f).funcs = s.funcs := rfl
@[simp] theorem State.onSet_vfEnable (p n : Nat) (f : PageSet → PageSet) : (s.onSet p n f).vfEnable = s.vfEnable := rfl
@[simp] theorem State.onSet_meq (p n : Nat) (f : PageSet → PageSet) : (s.onSet p n f).meq = s.meq := rfl
@[simp] theorem State.onSet_pf0Bme (p n : Nat) (f : PageSet → PageSet) : (s.onSet p n f).pf0Bme = s.pf0Bme := rfl
@[simp] theorem State.onSet_pf0Vector (p n : Nat) (f : PageSet → PageSet) : (s.onSet p n f).pf0Vector = s.pf0Vector := rfl
@[simp] theorem State.onSet_quiesce (p n : Nat) (f : PageSet → PageSet) : (s.onSet p n f).quiesce = s.quiesce := rfl
@[simp] theorem State.onSet_sched (p n : Nat) (f : PageSet → PageSet) : (s.onSet p n f).sched = s.sched := rfl
@[simp] theorem State.onSet_reads (p n : Nat) (f : PageSet → PageSet) : (s.onSet p n f).reads = s.reads := rfl
@[simp] theorem State.onSet_nextRead (p n : Nat) (f : PageSet → PageSet) : (s.onSet p n f).nextRead = s.nextRead := rfl
@[simp] theorem State.onSet_flash (p n : Nat) (f : PageSet → PageSet) : (s.onSet p n f).flash = s.flash := rfl
@[simp] theorem State.onSet_fabric (p n : Nat) (f : PageSet → PageSet) : (s.onSet p n f).fabric = s.fabric := rfl
@[simp] theorem State.onSet_oxs (p n : Nat) (f : PageSet → PageSet) : (s.onSet p n f).oxs = s.oxs := rfl
@[simp] theorem State.onSet_power (p n : Nat) (f : PageSet → PageSet) : (s.onSet p n f).power = s.power := rfl
@[simp] theorem State.onSet_health (p n : Nat) (f : PageSet → PageSet) : (s.onSet p n f).health = s.health := rfl
@[simp] theorem State.onSet_pins (p n : Nat) (f : PageSet → PageSet) : (s.onSet p n f).pins = s.pins := rfl
@[simp] theorem State.onSet_cache (p n : Nat) (f : PageSet → PageSet) : (s.onSet p n f).cache = s.cache := rfl
@[simp] theorem State.onSet_uses (p n : Nat) (f : PageSet → PageSet) : (s.onSet p n f).uses = s.uses := rfl
@[simp] theorem State.onSet_outq (p n : Nat) (f : PageSet → PageSet) : (s.onSet p n f).outq = s.outq := rfl
@[simp] theorem State.onSet_credits (p n : Nat) (f : PageSet → PageSet) : (s.onSet p n f).credits = s.credits := rfl
@[simp] theorem State.onSet_wakeDrop (p n : Nat) (f : PageSet → PageSet) : (s.onSet p n f).wakeDrop = s.wakeDrop := rfl
@[simp] theorem State.onSet_draws (p n : Nat) (f : PageSet → PageSet) : (s.onSet p n f).draws = s.draws := rfl
@[simp] theorem State.onSet_msix (p n : Nat) (f : PageSet → PageSet) : (s.onSet p n f).msix = s.msix := rfl

/-! ### State.onAcct -/

@[simp] theorem State.onAcct_pending (p : Nat) (f : Acct → Acct) : (s.onAcct p f).pending = s.pending := rfl
@[simp] theorem State.onAcct_hostMem (p : Nat) (f : Acct → Acct) : (s.onAcct p f).hostMem = s.hostMem := rfl
@[simp] theorem State.onAcct_nowS (p : Nat) (f : Acct → Acct) : (s.onAcct p f).nowS = s.nowS := rfl
@[simp] theorem State.onAcct_dirSweep (p : Nat) (f : Acct → Acct) : (s.onAcct p f).dirSweep = s.dirSweep := rfl
@[simp] theorem State.onAcct_stage (p : Nat) (f : Acct → Acct) : (s.onAcct p f).stage = s.stage := rfl
@[simp] theorem State.onAcct_halted (p : Nat) (f : Acct → Acct) : (s.onAcct p f).halted = s.halted := rfl
@[simp] theorem State.onAcct_funcs (p : Nat) (f : Acct → Acct) : (s.onAcct p f).funcs = s.funcs := rfl
@[simp] theorem State.onAcct_vfEnable (p : Nat) (f : Acct → Acct) : (s.onAcct p f).vfEnable = s.vfEnable := rfl
@[simp] theorem State.onAcct_meq (p : Nat) (f : Acct → Acct) : (s.onAcct p f).meq = s.meq := rfl
@[simp] theorem State.onAcct_pf0Bme (p : Nat) (f : Acct → Acct) : (s.onAcct p f).pf0Bme = s.pf0Bme := rfl
@[simp] theorem State.onAcct_pf0Vector (p : Nat) (f : Acct → Acct) : (s.onAcct p f).pf0Vector = s.pf0Vector := rfl
@[simp] theorem State.onAcct_quiesce (p : Nat) (f : Acct → Acct) : (s.onAcct p f).quiesce = s.quiesce := rfl
@[simp] theorem State.onAcct_sched (p : Nat) (f : Acct → Acct) : (s.onAcct p f).sched = s.sched := rfl
@[simp] theorem State.onAcct_reads (p : Nat) (f : Acct → Acct) : (s.onAcct p f).reads = s.reads := rfl
@[simp] theorem State.onAcct_nextRead (p : Nat) (f : Acct → Acct) : (s.onAcct p f).nextRead = s.nextRead := rfl
@[simp] theorem State.onAcct_flash (p : Nat) (f : Acct → Acct) : (s.onAcct p f).flash = s.flash := rfl
@[simp] theorem State.onAcct_fabric (p : Nat) (f : Acct → Acct) : (s.onAcct p f).fabric = s.fabric := rfl
@[simp] theorem State.onAcct_oxs (p : Nat) (f : Acct → Acct) : (s.onAcct p f).oxs = s.oxs := rfl
@[simp] theorem State.onAcct_power (p : Nat) (f : Acct → Acct) : (s.onAcct p f).power = s.power := rfl
@[simp] theorem State.onAcct_health (p : Nat) (f : Acct → Acct) : (s.onAcct p f).health = s.health := rfl
@[simp] theorem State.onAcct_pins (p : Nat) (f : Acct → Acct) : (s.onAcct p f).pins = s.pins := rfl
@[simp] theorem State.onAcct_cache (p : Nat) (f : Acct → Acct) : (s.onAcct p f).cache = s.cache := rfl
@[simp] theorem State.onAcct_uses (p : Nat) (f : Acct → Acct) : (s.onAcct p f).uses = s.uses := rfl
@[simp] theorem State.onAcct_outq (p : Nat) (f : Acct → Acct) : (s.onAcct p f).outq = s.outq := rfl
@[simp] theorem State.onAcct_credits (p : Nat) (f : Acct → Acct) : (s.onAcct p f).credits = s.credits := rfl
@[simp] theorem State.onAcct_wakeDrop (p : Nat) (f : Acct → Acct) : (s.onAcct p f).wakeDrop = s.wakeDrop := rfl
@[simp] theorem State.onAcct_draws (p : Nat) (f : Acct → Acct) : (s.onAcct p f).draws = s.draws := rfl
@[simp] theorem State.onAcct_msix (p : Nat) (f : Acct → Acct) : (s.onAcct p f).msix = s.msix := rfl

/-! ### State.onFlash -/

@[simp] theorem State.onFlash_pending (f : Flash → Flash) : (s.onFlash f).pending = s.pending := rfl
@[simp] theorem State.onFlash_hostMem (f : Flash → Flash) : (s.onFlash f).hostMem = s.hostMem := rfl
@[simp] theorem State.onFlash_nowS (f : Flash → Flash) : (s.onFlash f).nowS = s.nowS := rfl
@[simp] theorem State.onFlash_dirSweep (f : Flash → Flash) : (s.onFlash f).dirSweep = s.dirSweep := rfl
@[simp] theorem State.onFlash_stage (f : Flash → Flash) : (s.onFlash f).stage = s.stage := rfl
@[simp] theorem State.onFlash_halted (f : Flash → Flash) : (s.onFlash f).halted = s.halted := rfl
@[simp] theorem State.onFlash_parts (f : Flash → Flash) : (s.onFlash f).parts = s.parts := rfl
@[simp] theorem State.onFlash_funcs (f : Flash → Flash) : (s.onFlash f).funcs = s.funcs := rfl
@[simp] theorem State.onFlash_vfEnable (f : Flash → Flash) : (s.onFlash f).vfEnable = s.vfEnable := rfl
@[simp] theorem State.onFlash_meq (f : Flash → Flash) : (s.onFlash f).meq = s.meq := rfl
@[simp] theorem State.onFlash_pf0Bme (f : Flash → Flash) : (s.onFlash f).pf0Bme = s.pf0Bme := rfl
@[simp] theorem State.onFlash_pf0Vector (f : Flash → Flash) : (s.onFlash f).pf0Vector = s.pf0Vector := rfl
@[simp] theorem State.onFlash_quiesce (f : Flash → Flash) : (s.onFlash f).quiesce = s.quiesce := rfl
@[simp] theorem State.onFlash_sched (f : Flash → Flash) : (s.onFlash f).sched = s.sched := rfl
@[simp] theorem State.onFlash_reads (f : Flash → Flash) : (s.onFlash f).reads = s.reads := rfl
@[simp] theorem State.onFlash_nextRead (f : Flash → Flash) : (s.onFlash f).nextRead = s.nextRead := rfl
@[simp] theorem State.onFlash_flash (f : Flash → Flash) : (s.onFlash f).flash = f s.flash := rfl
@[simp] theorem State.onFlash_fabric (f : Flash → Flash) : (s.onFlash f).fabric = s.fabric := rfl
@[simp] theorem State.onFlash_oxs (f : Flash → Flash) : (s.onFlash f).oxs = s.oxs := rfl
@[simp] theorem State.onFlash_power (f : Flash → Flash) : (s.onFlash f).power = s.power := rfl
@[simp] theorem State.onFlash_health (f : Flash → Flash) : (s.onFlash f).health = s.health := rfl
@[simp] theorem State.onFlash_pins (f : Flash → Flash) : (s.onFlash f).pins = s.pins := rfl
@[simp] theorem State.onFlash_cache (f : Flash → Flash) : (s.onFlash f).cache = s.cache := rfl
@[simp] theorem State.onFlash_uses (f : Flash → Flash) : (s.onFlash f).uses = s.uses := rfl
@[simp] theorem State.onFlash_outq (f : Flash → Flash) : (s.onFlash f).outq = s.outq := rfl
@[simp] theorem State.onFlash_credits (f : Flash → Flash) : (s.onFlash f).credits = s.credits := rfl
@[simp] theorem State.onFlash_wakeDrop (f : Flash → Flash) : (s.onFlash f).wakeDrop = s.wakeDrop := rfl
@[simp] theorem State.onFlash_draws (f : Flash → Flash) : (s.onFlash f).draws = s.draws := rfl
@[simp] theorem State.onFlash_msix (f : Flash → Flash) : (s.onFlash f).msix = s.msix := rfl

/-! ### State.onPower -/

@[simp] theorem State.onPower_pending (f : Power → Power) : (s.onPower f).pending = s.pending := rfl
@[simp] theorem State.onPower_hostMem (f : Power → Power) : (s.onPower f).hostMem = s.hostMem := rfl
@[simp] theorem State.onPower_nowS (f : Power → Power) : (s.onPower f).nowS = s.nowS := rfl
@[simp] theorem State.onPower_dirSweep (f : Power → Power) : (s.onPower f).dirSweep = s.dirSweep := rfl
@[simp] theorem State.onPower_stage (f : Power → Power) : (s.onPower f).stage = s.stage := rfl
@[simp] theorem State.onPower_halted (f : Power → Power) : (s.onPower f).halted = s.halted := rfl
@[simp] theorem State.onPower_parts (f : Power → Power) : (s.onPower f).parts = s.parts := rfl
@[simp] theorem State.onPower_funcs (f : Power → Power) : (s.onPower f).funcs = s.funcs := rfl
@[simp] theorem State.onPower_vfEnable (f : Power → Power) : (s.onPower f).vfEnable = s.vfEnable := rfl
@[simp] theorem State.onPower_meq (f : Power → Power) : (s.onPower f).meq = s.meq := rfl
@[simp] theorem State.onPower_pf0Bme (f : Power → Power) : (s.onPower f).pf0Bme = s.pf0Bme := rfl
@[simp] theorem State.onPower_pf0Vector (f : Power → Power) : (s.onPower f).pf0Vector = s.pf0Vector := rfl
@[simp] theorem State.onPower_quiesce (f : Power → Power) : (s.onPower f).quiesce = s.quiesce := rfl
@[simp] theorem State.onPower_sched (f : Power → Power) : (s.onPower f).sched = s.sched := rfl
@[simp] theorem State.onPower_reads (f : Power → Power) : (s.onPower f).reads = s.reads := rfl
@[simp] theorem State.onPower_nextRead (f : Power → Power) : (s.onPower f).nextRead = s.nextRead := rfl
@[simp] theorem State.onPower_flash (f : Power → Power) : (s.onPower f).flash = s.flash := rfl
@[simp] theorem State.onPower_fabric (f : Power → Power) : (s.onPower f).fabric = s.fabric := rfl
@[simp] theorem State.onPower_oxs (f : Power → Power) : (s.onPower f).oxs = s.oxs := rfl
@[simp] theorem State.onPower_power (f : Power → Power) : (s.onPower f).power = f s.power := rfl
@[simp] theorem State.onPower_health (f : Power → Power) : (s.onPower f).health = s.health := rfl
@[simp] theorem State.onPower_pins (f : Power → Power) : (s.onPower f).pins = s.pins := rfl
@[simp] theorem State.onPower_cache (f : Power → Power) : (s.onPower f).cache = s.cache := rfl
@[simp] theorem State.onPower_uses (f : Power → Power) : (s.onPower f).uses = s.uses := rfl
@[simp] theorem State.onPower_outq (f : Power → Power) : (s.onPower f).outq = s.outq := rfl
@[simp] theorem State.onPower_credits (f : Power → Power) : (s.onPower f).credits = s.credits := rfl
@[simp] theorem State.onPower_wakeDrop (f : Power → Power) : (s.onPower f).wakeDrop = s.wakeDrop := rfl
@[simp] theorem State.onPower_draws (f : Power → Power) : (s.onPower f).draws = s.draws := rfl
@[simp] theorem State.onPower_msix (f : Power → Power) : (s.onPower f).msix = s.msix := rfl

/-! ### State.onSched -/

@[simp] theorem State.onSched_pending (f : Sched → Sched) : (s.onSched f).pending = s.pending := rfl
@[simp] theorem State.onSched_hostMem (f : Sched → Sched) : (s.onSched f).hostMem = s.hostMem := rfl
@[simp] theorem State.onSched_nowS (f : Sched → Sched) : (s.onSched f).nowS = s.nowS := rfl
@[simp] theorem State.onSched_dirSweep (f : Sched → Sched) : (s.onSched f).dirSweep = s.dirSweep := rfl
@[simp] theorem State.onSched_stage (f : Sched → Sched) : (s.onSched f).stage = s.stage := rfl
@[simp] theorem State.onSched_halted (f : Sched → Sched) : (s.onSched f).halted = s.halted := rfl
@[simp] theorem State.onSched_parts (f : Sched → Sched) : (s.onSched f).parts = s.parts := rfl
@[simp] theorem State.onSched_funcs (f : Sched → Sched) : (s.onSched f).funcs = s.funcs := rfl
@[simp] theorem State.onSched_vfEnable (f : Sched → Sched) : (s.onSched f).vfEnable = s.vfEnable := rfl
@[simp] theorem State.onSched_meq (f : Sched → Sched) : (s.onSched f).meq = s.meq := rfl
@[simp] theorem State.onSched_pf0Bme (f : Sched → Sched) : (s.onSched f).pf0Bme = s.pf0Bme := rfl
@[simp] theorem State.onSched_pf0Vector (f : Sched → Sched) : (s.onSched f).pf0Vector = s.pf0Vector := rfl
@[simp] theorem State.onSched_quiesce (f : Sched → Sched) : (s.onSched f).quiesce = s.quiesce := rfl
@[simp] theorem State.onSched_sched (f : Sched → Sched) : (s.onSched f).sched = f s.sched := rfl
@[simp] theorem State.onSched_reads (f : Sched → Sched) : (s.onSched f).reads = s.reads := rfl
@[simp] theorem State.onSched_nextRead (f : Sched → Sched) : (s.onSched f).nextRead = s.nextRead := rfl
@[simp] theorem State.onSched_flash (f : Sched → Sched) : (s.onSched f).flash = s.flash := rfl
@[simp] theorem State.onSched_fabric (f : Sched → Sched) : (s.onSched f).fabric = s.fabric := rfl
@[simp] theorem State.onSched_oxs (f : Sched → Sched) : (s.onSched f).oxs = s.oxs := rfl
@[simp] theorem State.onSched_power (f : Sched → Sched) : (s.onSched f).power = s.power := rfl
@[simp] theorem State.onSched_health (f : Sched → Sched) : (s.onSched f).health = s.health := rfl
@[simp] theorem State.onSched_pins (f : Sched → Sched) : (s.onSched f).pins = s.pins := rfl
@[simp] theorem State.onSched_cache (f : Sched → Sched) : (s.onSched f).cache = s.cache := rfl
@[simp] theorem State.onSched_uses (f : Sched → Sched) : (s.onSched f).uses = s.uses := rfl
@[simp] theorem State.onSched_outq (f : Sched → Sched) : (s.onSched f).outq = s.outq := rfl
@[simp] theorem State.onSched_credits (f : Sched → Sched) : (s.onSched f).credits = s.credits := rfl
@[simp] theorem State.onSched_wakeDrop (f : Sched → Sched) : (s.onSched f).wakeDrop = s.wakeDrop := rfl
@[simp] theorem State.onSched_draws (f : Sched → Sched) : (s.onSched f).draws = s.draws := rfl
@[simp] theorem State.onSched_msix (f : Sched → Sched) : (s.onSched f).msix = s.msix := rfl

/-! ### State.onHealth -/

@[simp] theorem State.onHealth_pending (f : Health → Health) : (s.onHealth f).pending = s.pending := rfl
@[simp] theorem State.onHealth_hostMem (f : Health → Health) : (s.onHealth f).hostMem = s.hostMem := rfl
@[simp] theorem State.onHealth_nowS (f : Health → Health) : (s.onHealth f).nowS = s.nowS := rfl
@[simp] theorem State.onHealth_dirSweep (f : Health → Health) : (s.onHealth f).dirSweep = s.dirSweep := rfl
@[simp] theorem State.onHealth_stage (f : Health → Health) : (s.onHealth f).stage = s.stage := rfl
@[simp] theorem State.onHealth_halted (f : Health → Health) : (s.onHealth f).halted = s.halted := rfl
@[simp] theorem State.onHealth_parts (f : Health → Health) : (s.onHealth f).parts = s.parts := rfl
@[simp] theorem State.onHealth_funcs (f : Health → Health) : (s.onHealth f).funcs = s.funcs := rfl
@[simp] theorem State.onHealth_vfEnable (f : Health → Health) : (s.onHealth f).vfEnable = s.vfEnable := rfl
@[simp] theorem State.onHealth_meq (f : Health → Health) : (s.onHealth f).meq = s.meq := rfl
@[simp] theorem State.onHealth_pf0Bme (f : Health → Health) : (s.onHealth f).pf0Bme = s.pf0Bme := rfl
@[simp] theorem State.onHealth_pf0Vector (f : Health → Health) : (s.onHealth f).pf0Vector = s.pf0Vector := rfl
@[simp] theorem State.onHealth_quiesce (f : Health → Health) : (s.onHealth f).quiesce = s.quiesce := rfl
@[simp] theorem State.onHealth_sched (f : Health → Health) : (s.onHealth f).sched = s.sched := rfl
@[simp] theorem State.onHealth_reads (f : Health → Health) : (s.onHealth f).reads = s.reads := rfl
@[simp] theorem State.onHealth_nextRead (f : Health → Health) : (s.onHealth f).nextRead = s.nextRead := rfl
@[simp] theorem State.onHealth_flash (f : Health → Health) : (s.onHealth f).flash = s.flash := rfl
@[simp] theorem State.onHealth_fabric (f : Health → Health) : (s.onHealth f).fabric = s.fabric := rfl
@[simp] theorem State.onHealth_oxs (f : Health → Health) : (s.onHealth f).oxs = s.oxs := rfl
@[simp] theorem State.onHealth_power (f : Health → Health) : (s.onHealth f).power = s.power := rfl
@[simp] theorem State.onHealth_health (f : Health → Health) : (s.onHealth f).health = f s.health := rfl
@[simp] theorem State.onHealth_pins (f : Health → Health) : (s.onHealth f).pins = s.pins := rfl
@[simp] theorem State.onHealth_cache (f : Health → Health) : (s.onHealth f).cache = s.cache := rfl
@[simp] theorem State.onHealth_uses (f : Health → Health) : (s.onHealth f).uses = s.uses := rfl
@[simp] theorem State.onHealth_outq (f : Health → Health) : (s.onHealth f).outq = s.outq := rfl
@[simp] theorem State.onHealth_credits (f : Health → Health) : (s.onHealth f).credits = s.credits := rfl
@[simp] theorem State.onHealth_wakeDrop (f : Health → Health) : (s.onHealth f).wakeDrop = s.wakeDrop := rfl
@[simp] theorem State.onHealth_draws (f : Health → Health) : (s.onHealth f).draws = s.draws := rfl
@[simp] theorem State.onHealth_msix (f : Health → Health) : (s.onHealth f).msix = s.msix := rfl

/-! ### State.onFabric -/

@[simp] theorem State.onFabric_pending (f : Fabric → Fabric) : (s.onFabric f).pending = s.pending := rfl
@[simp] theorem State.onFabric_hostMem (f : Fabric → Fabric) : (s.onFabric f).hostMem = s.hostMem := rfl
@[simp] theorem State.onFabric_nowS (f : Fabric → Fabric) : (s.onFabric f).nowS = s.nowS := rfl
@[simp] theorem State.onFabric_dirSweep (f : Fabric → Fabric) : (s.onFabric f).dirSweep = s.dirSweep := rfl
@[simp] theorem State.onFabric_stage (f : Fabric → Fabric) : (s.onFabric f).stage = s.stage := rfl
@[simp] theorem State.onFabric_halted (f : Fabric → Fabric) : (s.onFabric f).halted = s.halted := rfl
@[simp] theorem State.onFabric_parts (f : Fabric → Fabric) : (s.onFabric f).parts = s.parts := rfl
@[simp] theorem State.onFabric_funcs (f : Fabric → Fabric) : (s.onFabric f).funcs = s.funcs := rfl
@[simp] theorem State.onFabric_vfEnable (f : Fabric → Fabric) : (s.onFabric f).vfEnable = s.vfEnable := rfl
@[simp] theorem State.onFabric_meq (f : Fabric → Fabric) : (s.onFabric f).meq = s.meq := rfl
@[simp] theorem State.onFabric_pf0Bme (f : Fabric → Fabric) : (s.onFabric f).pf0Bme = s.pf0Bme := rfl
@[simp] theorem State.onFabric_pf0Vector (f : Fabric → Fabric) : (s.onFabric f).pf0Vector = s.pf0Vector := rfl
@[simp] theorem State.onFabric_quiesce (f : Fabric → Fabric) : (s.onFabric f).quiesce = s.quiesce := rfl
@[simp] theorem State.onFabric_sched (f : Fabric → Fabric) : (s.onFabric f).sched = s.sched := rfl
@[simp] theorem State.onFabric_reads (f : Fabric → Fabric) : (s.onFabric f).reads = s.reads := rfl
@[simp] theorem State.onFabric_nextRead (f : Fabric → Fabric) : (s.onFabric f).nextRead = s.nextRead := rfl
@[simp] theorem State.onFabric_flash (f : Fabric → Fabric) : (s.onFabric f).flash = s.flash := rfl
@[simp] theorem State.onFabric_fabric (f : Fabric → Fabric) : (s.onFabric f).fabric = f s.fabric := rfl
@[simp] theorem State.onFabric_oxs (f : Fabric → Fabric) : (s.onFabric f).oxs = s.oxs := rfl
@[simp] theorem State.onFabric_power (f : Fabric → Fabric) : (s.onFabric f).power = s.power := rfl
@[simp] theorem State.onFabric_health (f : Fabric → Fabric) : (s.onFabric f).health = s.health := rfl
@[simp] theorem State.onFabric_pins (f : Fabric → Fabric) : (s.onFabric f).pins = s.pins := rfl
@[simp] theorem State.onFabric_cache (f : Fabric → Fabric) : (s.onFabric f).cache = s.cache := rfl
@[simp] theorem State.onFabric_uses (f : Fabric → Fabric) : (s.onFabric f).uses = s.uses := rfl
@[simp] theorem State.onFabric_outq (f : Fabric → Fabric) : (s.onFabric f).outq = s.outq := rfl
@[simp] theorem State.onFabric_credits (f : Fabric → Fabric) : (s.onFabric f).credits = s.credits := rfl
@[simp] theorem State.onFabric_wakeDrop (f : Fabric → Fabric) : (s.onFabric f).wakeDrop = s.wakeDrop := rfl
@[simp] theorem State.onFabric_draws (f : Fabric → Fabric) : (s.onFabric f).draws = s.draws := rfl
@[simp] theorem State.onFabric_msix (f : Fabric → Fabric) : (s.onFabric f).msix = s.msix := rfl

/-! ### State.onOxs -/

@[simp] theorem State.onOxs_pending (f : Oxsis → Oxsis) : (s.onOxs f).pending = s.pending := rfl
@[simp] theorem State.onOxs_hostMem (f : Oxsis → Oxsis) : (s.onOxs f).hostMem = s.hostMem := rfl
@[simp] theorem State.onOxs_nowS (f : Oxsis → Oxsis) : (s.onOxs f).nowS = s.nowS := rfl
@[simp] theorem State.onOxs_dirSweep (f : Oxsis → Oxsis) : (s.onOxs f).dirSweep = s.dirSweep := rfl
@[simp] theorem State.onOxs_stage (f : Oxsis → Oxsis) : (s.onOxs f).stage = s.stage := rfl
@[simp] theorem State.onOxs_halted (f : Oxsis → Oxsis) : (s.onOxs f).halted = s.halted := rfl
@[simp] theorem State.onOxs_parts (f : Oxsis → Oxsis) : (s.onOxs f).parts = s.parts := rfl
@[simp] theorem State.onOxs_funcs (f : Oxsis → Oxsis) : (s.onOxs f).funcs = s.funcs := rfl
@[simp] theorem State.onOxs_vfEnable (f : Oxsis → Oxsis) : (s.onOxs f).vfEnable = s.vfEnable := rfl
@[simp] theorem State.onOxs_meq (f : Oxsis → Oxsis) : (s.onOxs f).meq = s.meq := rfl
@[simp] theorem State.onOxs_pf0Bme (f : Oxsis → Oxsis) : (s.onOxs f).pf0Bme = s.pf0Bme := rfl
@[simp] theorem State.onOxs_pf0Vector (f : Oxsis → Oxsis) : (s.onOxs f).pf0Vector = s.pf0Vector := rfl
@[simp] theorem State.onOxs_quiesce (f : Oxsis → Oxsis) : (s.onOxs f).quiesce = s.quiesce := rfl
@[simp] theorem State.onOxs_sched (f : Oxsis → Oxsis) : (s.onOxs f).sched = s.sched := rfl
@[simp] theorem State.onOxs_reads (f : Oxsis → Oxsis) : (s.onOxs f).reads = s.reads := rfl
@[simp] theorem State.onOxs_nextRead (f : Oxsis → Oxsis) : (s.onOxs f).nextRead = s.nextRead := rfl
@[simp] theorem State.onOxs_flash (f : Oxsis → Oxsis) : (s.onOxs f).flash = s.flash := rfl
@[simp] theorem State.onOxs_fabric (f : Oxsis → Oxsis) : (s.onOxs f).fabric = s.fabric := rfl
@[simp] theorem State.onOxs_oxs (f : Oxsis → Oxsis) : (s.onOxs f).oxs = f s.oxs := rfl
@[simp] theorem State.onOxs_power (f : Oxsis → Oxsis) : (s.onOxs f).power = s.power := rfl
@[simp] theorem State.onOxs_health (f : Oxsis → Oxsis) : (s.onOxs f).health = s.health := rfl
@[simp] theorem State.onOxs_pins (f : Oxsis → Oxsis) : (s.onOxs f).pins = s.pins := rfl
@[simp] theorem State.onOxs_cache (f : Oxsis → Oxsis) : (s.onOxs f).cache = s.cache := rfl
@[simp] theorem State.onOxs_uses (f : Oxsis → Oxsis) : (s.onOxs f).uses = s.uses := rfl
@[simp] theorem State.onOxs_outq (f : Oxsis → Oxsis) : (s.onOxs f).outq = s.outq := rfl
@[simp] theorem State.onOxs_credits (f : Oxsis → Oxsis) : (s.onOxs f).credits = s.credits := rfl
@[simp] theorem State.onOxs_wakeDrop (f : Oxsis → Oxsis) : (s.onOxs f).wakeDrop = s.wakeDrop := rfl
@[simp] theorem State.onOxs_draws (f : Oxsis → Oxsis) : (s.onOxs f).draws = s.draws := rfl
@[simp] theorem State.onOxs_msix (f : Oxsis → Oxsis) : (s.onOxs f).msix = s.msix := rfl

/-! ### State.onPins -/

@[simp] theorem State.onPins_pending (f : Pins → Pins) : (s.onPins f).pending = s.pending := rfl
@[simp] theorem State.onPins_hostMem (f : Pins → Pins) : (s.onPins f).hostMem = s.hostMem := rfl
@[simp] theorem State.onPins_nowS (f : Pins → Pins) : (s.onPins f).nowS = s.nowS := rfl
@[simp] theorem State.onPins_dirSweep (f : Pins → Pins) : (s.onPins f).dirSweep = s.dirSweep := rfl
@[simp] theorem State.onPins_stage (f : Pins → Pins) : (s.onPins f).stage = s.stage := rfl
@[simp] theorem State.onPins_halted (f : Pins → Pins) : (s.onPins f).halted = s.halted := rfl
@[simp] theorem State.onPins_parts (f : Pins → Pins) : (s.onPins f).parts = s.parts := rfl
@[simp] theorem State.onPins_funcs (f : Pins → Pins) : (s.onPins f).funcs = s.funcs := rfl
@[simp] theorem State.onPins_vfEnable (f : Pins → Pins) : (s.onPins f).vfEnable = s.vfEnable := rfl
@[simp] theorem State.onPins_meq (f : Pins → Pins) : (s.onPins f).meq = s.meq := rfl
@[simp] theorem State.onPins_pf0Bme (f : Pins → Pins) : (s.onPins f).pf0Bme = s.pf0Bme := rfl
@[simp] theorem State.onPins_pf0Vector (f : Pins → Pins) : (s.onPins f).pf0Vector = s.pf0Vector := rfl
@[simp] theorem State.onPins_quiesce (f : Pins → Pins) : (s.onPins f).quiesce = s.quiesce := rfl
@[simp] theorem State.onPins_sched (f : Pins → Pins) : (s.onPins f).sched = s.sched := rfl
@[simp] theorem State.onPins_reads (f : Pins → Pins) : (s.onPins f).reads = s.reads := rfl
@[simp] theorem State.onPins_nextRead (f : Pins → Pins) : (s.onPins f).nextRead = s.nextRead := rfl
@[simp] theorem State.onPins_flash (f : Pins → Pins) : (s.onPins f).flash = s.flash := rfl
@[simp] theorem State.onPins_fabric (f : Pins → Pins) : (s.onPins f).fabric = s.fabric := rfl
@[simp] theorem State.onPins_oxs (f : Pins → Pins) : (s.onPins f).oxs = s.oxs := rfl
@[simp] theorem State.onPins_power (f : Pins → Pins) : (s.onPins f).power = s.power := rfl
@[simp] theorem State.onPins_health (f : Pins → Pins) : (s.onPins f).health = s.health := rfl
@[simp] theorem State.onPins_pins (f : Pins → Pins) : (s.onPins f).pins = f s.pins := rfl
@[simp] theorem State.onPins_cache (f : Pins → Pins) : (s.onPins f).cache = s.cache := rfl
@[simp] theorem State.onPins_uses (f : Pins → Pins) : (s.onPins f).uses = s.uses := rfl
@[simp] theorem State.onPins_outq (f : Pins → Pins) : (s.onPins f).outq = s.outq := rfl
@[simp] theorem State.onPins_credits (f : Pins → Pins) : (s.onPins f).credits = s.credits := rfl
@[simp] theorem State.onPins_wakeDrop (f : Pins → Pins) : (s.onPins f).wakeDrop = s.wakeDrop := rfl
@[simp] theorem State.onPins_draws (f : Pins → Pins) : (s.onPins f).draws = s.draws := rfl
@[simp] theorem State.onPins_msix (f : Pins → Pins) : (s.onPins f).msix = s.msix := rfl

/-! ### State.onEq -/

@[simp] theorem State.onEq_pending (n q : Nat) (f : EventQueue → EventQueue) : (s.onEq n q f).pending = s.pending := by
  unfold State.onEq; split <;> rfl
@[simp] theorem State.onEq_hostMem (n q : Nat) (f : EventQueue → EventQueue) : (s.onEq n q f).hostMem = s.hostMem := by
  unfold State.onEq; split <;> rfl
@[simp] theorem State.onEq_nowS (n q : Nat) (f : EventQueue → EventQueue) : (s.onEq n q f).nowS = s.nowS := by
  unfold State.onEq; split <;> rfl
@[simp] theorem State.onEq_dirSweep (n q : Nat) (f : EventQueue → EventQueue) : (s.onEq n q f).dirSweep = s.dirSweep := by
  unfold State.onEq; split <;> rfl
@[simp] theorem State.onEq_stage (n q : Nat) (f : EventQueue → EventQueue) : (s.onEq n q f).stage = s.stage := by
  unfold State.onEq; split <;> rfl
@[simp] theorem State.onEq_halted (n q : Nat) (f : EventQueue → EventQueue) : (s.onEq n q f).halted = s.halted := by
  unfold State.onEq; split <;> rfl
@[simp] theorem State.onEq_funcs (n q : Nat) (f : EventQueue → EventQueue) : (s.onEq n q f).funcs = s.funcs := by
  unfold State.onEq; split <;> rfl
@[simp] theorem State.onEq_vfEnable (n q : Nat) (f : EventQueue → EventQueue) : (s.onEq n q f).vfEnable = s.vfEnable := by
  unfold State.onEq; split <;> rfl
@[simp] theorem State.onEq_pf0Bme (n q : Nat) (f : EventQueue → EventQueue) : (s.onEq n q f).pf0Bme = s.pf0Bme := by
  unfold State.onEq; split <;> rfl
@[simp] theorem State.onEq_pf0Vector (n q : Nat) (f : EventQueue → EventQueue) : (s.onEq n q f).pf0Vector = s.pf0Vector := by
  unfold State.onEq; split <;> rfl
@[simp] theorem State.onEq_quiesce (n q : Nat) (f : EventQueue → EventQueue) : (s.onEq n q f).quiesce = s.quiesce := by
  unfold State.onEq; split <;> rfl
@[simp] theorem State.onEq_sched (n q : Nat) (f : EventQueue → EventQueue) : (s.onEq n q f).sched = s.sched := by
  unfold State.onEq; split <;> rfl
@[simp] theorem State.onEq_reads (n q : Nat) (f : EventQueue → EventQueue) : (s.onEq n q f).reads = s.reads := by
  unfold State.onEq; split <;> rfl
@[simp] theorem State.onEq_nextRead (n q : Nat) (f : EventQueue → EventQueue) : (s.onEq n q f).nextRead = s.nextRead := by
  unfold State.onEq; split <;> rfl
@[simp] theorem State.onEq_flash (n q : Nat) (f : EventQueue → EventQueue) : (s.onEq n q f).flash = s.flash := by
  unfold State.onEq; split <;> rfl
@[simp] theorem State.onEq_fabric (n q : Nat) (f : EventQueue → EventQueue) : (s.onEq n q f).fabric = s.fabric := by
  unfold State.onEq; split <;> rfl
@[simp] theorem State.onEq_oxs (n q : Nat) (f : EventQueue → EventQueue) : (s.onEq n q f).oxs = s.oxs := by
  unfold State.onEq; split <;> rfl
@[simp] theorem State.onEq_power (n q : Nat) (f : EventQueue → EventQueue) : (s.onEq n q f).power = s.power := by
  unfold State.onEq; split <;> rfl
@[simp] theorem State.onEq_health (n q : Nat) (f : EventQueue → EventQueue) : (s.onEq n q f).health = s.health := by
  unfold State.onEq; split <;> rfl
@[simp] theorem State.onEq_pins (n q : Nat) (f : EventQueue → EventQueue) : (s.onEq n q f).pins = s.pins := by
  unfold State.onEq; split <;> rfl
@[simp] theorem State.onEq_cache (n q : Nat) (f : EventQueue → EventQueue) : (s.onEq n q f).cache = s.cache := by
  unfold State.onEq; split <;> rfl
@[simp] theorem State.onEq_uses (n q : Nat) (f : EventQueue → EventQueue) : (s.onEq n q f).uses = s.uses := by
  unfold State.onEq; split <;> rfl
@[simp] theorem State.onEq_outq (n q : Nat) (f : EventQueue → EventQueue) : (s.onEq n q f).outq = s.outq := by
  unfold State.onEq; split <;> rfl
@[simp] theorem State.onEq_credits (n q : Nat) (f : EventQueue → EventQueue) : (s.onEq n q f).credits = s.credits := by
  unfold State.onEq; split <;> rfl
@[simp] theorem State.onEq_wakeDrop (n q : Nat) (f : EventQueue → EventQueue) : (s.onEq n q f).wakeDrop = s.wakeDrop := by
  unfold State.onEq; split <;> rfl
@[simp] theorem State.onEq_draws (n q : Nat) (f : EventQueue → EventQueue) : (s.onEq n q f).draws = s.draws := by
  unfold State.onEq; split <;> rfl
@[simp] theorem State.onEq_msix (n q : Nat) (f : EventQueue → EventQueue) : (s.onEq n q f).msix = s.msix := by
  unfold State.onEq; split <;> rfl

/-! ### State.draw -/

@[simp] theorem State.draw_pending : s.draw.2.pending = s.pending := rfl
@[simp] theorem State.draw_hostMem : s.draw.2.hostMem = s.hostMem := rfl
@[simp] theorem State.draw_nowS : s.draw.2.nowS = s.nowS := rfl
@[simp] theorem State.draw_dirSweep : s.draw.2.dirSweep = s.dirSweep := rfl
@[simp] theorem State.draw_stage : s.draw.2.stage = s.stage := rfl
@[simp] theorem State.draw_halted : s.draw.2.halted = s.halted := rfl
@[simp] theorem State.draw_parts : s.draw.2.parts = s.parts := rfl
@[simp] theorem State.draw_funcs : s.draw.2.funcs = s.funcs := rfl
@[simp] theorem State.draw_vfEnable : s.draw.2.vfEnable = s.vfEnable := rfl
@[simp] theorem State.draw_meq : s.draw.2.meq = s.meq := rfl
@[simp] theorem State.draw_pf0Bme : s.draw.2.pf0Bme = s.pf0Bme := rfl
@[simp] theorem State.draw_pf0Vector : s.draw.2.pf0Vector = s.pf0Vector := rfl
@[simp] theorem State.draw_quiesce : s.draw.2.quiesce = s.quiesce := rfl
@[simp] theorem State.draw_sched : s.draw.2.sched = s.sched := rfl
@[simp] theorem State.draw_reads : s.draw.2.reads = s.reads := rfl
@[simp] theorem State.draw_nextRead : s.draw.2.nextRead = s.nextRead := rfl
@[simp] theorem State.draw_flash : s.draw.2.flash = s.flash := rfl
@[simp] theorem State.draw_fabric : s.draw.2.fabric = s.fabric := rfl
@[simp] theorem State.draw_oxs : s.draw.2.oxs = s.oxs := rfl
@[simp] theorem State.draw_power : s.draw.2.power = s.power := rfl
@[simp] theorem State.draw_health : s.draw.2.health = s.health := rfl
@[simp] theorem State.draw_pins : s.draw.2.pins = s.pins := rfl
@[simp] theorem State.draw_cache : s.draw.2.cache = s.cache := rfl
@[simp] theorem State.draw_uses : s.draw.2.uses = s.uses := rfl
@[simp] theorem State.draw_outq : s.draw.2.outq = s.outq := rfl
@[simp] theorem State.draw_credits : s.draw.2.credits = s.credits := rfl
@[simp] theorem State.draw_wakeDrop : s.draw.2.wakeDrop = s.wakeDrop := rfl
@[simp] theorem State.draw_msix : s.draw.2.msix = s.msix := rfl
@[simp] theorem State.draw_draws : s.draw.2.draws = s.draws + 1 := rfl
@[simp] theorem State.draw_number : s.draw.1 = s.draws := rfl

/-! ### Partitions -/

variable (x : Part)

@[simp] theorem Part.onSlot_live (i : Nat) (f : Slot → Slot) : (x.onSlot i f).live = x.live := rfl
@[simp] theorem Part.onSlot_epoch (i : Nat) (f : Slot → Slot) : (x.onSlot i f).epoch = x.epoch := rfl
@[simp] theorem Part.onSlot_grant (i : Nat) (f : Slot → Slot) : (x.onSlot i f).grant = x.grant := rfl
@[simp] theorem Part.onSlot_jobs (i : Nat) (f : Slot → Slot) : (x.onSlot i f).jobs = x.jobs := rfl
@[simp] theorem Part.onSlot_eqs (i : Nat) (f : Slot → Slot) : (x.onSlot i f).eqs = x.eqs := rfl
@[simp] theorem Part.onSlot_models (i : Nat) (f : Slot → Slot) : (x.onSlot i f).models = x.models := rfl
@[simp] theorem Part.onSlot_kernels (i : Nat) (f : Slot → Slot) : (x.onSlot i f).kernels = x.kernels := rfl
@[simp] theorem Part.onSlot_seqs (i : Nat) (f : Slot → Slot) : (x.onSlot i f).seqs = x.seqs := rfl
@[simp] theorem Part.onSlot_gens (i : Nat) (f : Slot → Slot) : (x.onSlot i f).gens = x.gens := rfl
@[simp] theorem Part.onSlot_sets (i : Nat) (f : Slot → Slot) : (x.onSlot i f).sets = x.sets := rfl
@[simp] theorem Part.onSlot_dir (i : Nat) (f : Slot → Slot) : (x.onSlot i f).dir = x.dir := rfl
@[simp] theorem Part.onSlot_segments (i : Nat) (f : Slot → Slot) : (x.onSlot i f).segments = x.segments := rfl
@[simp] theorem Part.onSlot_segRoot (i : Nat) (f : Slot → Slot) : (x.onSlot i f).segRoot = x.segRoot := rfl
@[simp] theorem Part.onSlot_segChunks (i : Nat) (f : Slot → Slot) : (x.onSlot i f).segChunks = x.segChunks := rfl
@[simp] theorem Part.onSlot_restRoot (i : Nat) (f : Slot → Slot) : (x.onSlot i f).restRoot = x.restRoot := rfl
@[simp] theorem Part.onSlot_restChunks (i : Nat) (f : Slot → Slot) : (x.onSlot i f).restChunks = x.restChunks := rfl
@[simp] theorem Part.onSlot_slabs (i : Nat) (f : Slot → Slot) : (x.onSlot i f).slabs = x.slabs := rfl
@[simp] theorem Part.onSlot_dram (i : Nat) (f : Slot → Slot) : (x.onSlot i f).dram = x.dram := rfl
@[simp] theorem Part.onSlot_regions (i : Nat) (f : Slot → Slot) : (x.onSlot i f).regions = x.regions := rfl
@[simp] theorem Part.onSlot_moves (i : Nat) (f : Slot → Slot) : (x.onSlot i f).moves = x.moves := rfl
@[simp] theorem Part.onSlot_nextMove (i : Nat) (f : Slot → Slot) : (x.onSlot i f).nextMove = x.nextMove := rfl
@[simp] theorem Part.onSlot_restSeq (i : Nat) (f : Slot → Slot) : (x.onSlot i f).restSeq = x.restSeq := rfl
@[simp] theorem Part.onSlot_restTable (i : Nat) (f : Slot → Slot) : (x.onSlot i f).restTable = x.restTable := rfl
@[simp] theorem Part.onSlot_counters (i : Nat) (f : Slot → Slot) : (x.onSlot i f).counters = x.counters := rfl
@[simp] theorem Part.onSlot_push (i : Nat) (f : Slot → Slot) : (x.onSlot i f).push = x.push := rfl
@[simp] theorem Part.onSlot_regs (i : Nat) (f : Slot → Slot) : (x.onSlot i f).regs = x.regs := rfl
@[simp] theorem Part.onSlot_cnt (i : Nat) (f : Slot → Slot) : (x.onSlot i f).cnt = x.cnt := rfl
@[simp] theorem Part.onSlot_stalls (i : Nat) (f : Slot → Slot) : (x.onSlot i f).stalls = x.stalls := rfl
@[simp] theorem Part.onSlot_stallUs (i : Nat) (f : Slot → Slot) : (x.onSlot i f).stallUs = x.stallUs := rfl
@[simp] theorem Part.onSlot_acct (i : Nat) (f : Slot → Slot) : (x.onSlot i f).acct = x.acct := rfl
@[simp] theorem Part.onSlot_flash (i : Nat) (f : Slot → Slot) : (x.onSlot i f).flash = x.flash := rfl
@[simp] theorem Part.onSlot_buffers (i : Nat) (f : Slot → Slot) : (x.onSlot i f).buffers = x.buffers := rfl
@[simp] theorem Part.onSlot_qps (i : Nat) (f : Slot → Slot) : (x.onSlot i f).qps = x.qps := rfl
@[simp] theorem Part.onSlot_egress (i : Nat) (f : Slot → Slot) : (x.onSlot i f).egress = x.egress := rfl
@[simp] theorem Part.onSlot_ingress (i : Nat) (f : Slot → Slot) : (x.onSlot i f).ingress = x.ingress := rfl
@[simp] theorem Part.onSlot_evictions (i : Nat) (f : Slot → Slot) : (x.onSlot i f).evictions = x.evictions := rfl
@[simp] theorem Part.onSlot_vtime (i : Nat) (f : Slot → Slot) : (x.onSlot i f).vtime = x.vtime := rfl
@[simp] theorem Part.onSlot_vdone (i : Nat) (f : Slot → Slot) : (x.onSlot i f).vdone = x.vdone := rfl
@[simp] theorem Part.onSlot_debugUntil (i : Nat) (f : Slot → Slot) : (x.onSlot i f).debugUntil = x.debugUntil := rfl
@[simp] theorem Part.onSlot_profileUntil (i : Nat) (f : Slot → Slot) : (x.onSlot i f).profileUntil = x.profileUntil := rfl
@[simp] theorem Part.onSlot_consentSeq (i : Nat) (f : Slot → Slot) : (x.onSlot i f).consentSeq = x.consentSeq := rfl
@[simp] theorem Part.onSlot_consentEnd (i : Nat) (f : Slot → Slot) : (x.onSlot i f).consentEnd = x.consentEnd := rfl
@[simp] theorem Part.onSlot_consentDigest (i : Nat) (f : Slot → Slot) : (x.onSlot i f).consentDigest = x.consentDigest := rfl
@[simp] theorem Part.onSlot_snapVf (i : Nat) (f : Slot → Slot) : (x.onSlot i f).snapVf = x.snapVf := rfl
@[simp] theorem Part.onSlot_snapPf (i : Nat) (f : Slot → Slot) : (x.onSlot i f).snapPf = x.snapPf := rfl
@[simp] theorem Part.onSlot_kept (i : Nat) (f : Slot → Slot) : (x.onSlot i f).kept = x.kept := rfl
@[simp] theorem Part.onSlot_orphans (i : Nat) (f : Slot → Slot) : (x.onSlot i f).orphans = x.orphans := rfl

@[simp] theorem Part.onEq_live (i : Nat) (f : EventQueue → EventQueue) : (x.onEq i f).live = x.live := rfl
@[simp] theorem Part.onEq_epoch (i : Nat) (f : EventQueue → EventQueue) : (x.onEq i f).epoch = x.epoch := rfl
@[simp] theorem Part.onEq_grant (i : Nat) (f : EventQueue → EventQueue) : (x.onEq i f).grant = x.grant := rfl
@[simp] theorem Part.onEq_jobs (i : Nat) (f : EventQueue → EventQueue) : (x.onEq i f).jobs = x.jobs := rfl
@[simp] theorem Part.onEq_slots (i : Nat) (f : EventQueue → EventQueue) : (x.onEq i f).slots = x.slots := rfl
@[simp] theorem Part.onEq_models (i : Nat) (f : EventQueue → EventQueue) : (x.onEq i f).models = x.models := rfl
@[simp] theorem Part.onEq_kernels (i : Nat) (f : EventQueue → EventQueue) : (x.onEq i f).kernels = x.kernels := rfl
@[simp] theorem Part.onEq_seqs (i : Nat) (f : EventQueue → EventQueue) : (x.onEq i f).seqs = x.seqs := rfl
@[simp] theorem Part.onEq_gens (i : Nat) (f : EventQueue → EventQueue) : (x.onEq i f).gens = x.gens := rfl
@[simp] theorem Part.onEq_sets (i : Nat) (f : EventQueue → EventQueue) : (x.onEq i f).sets = x.sets := rfl
@[simp] theorem Part.onEq_dir (i : Nat) (f : EventQueue → EventQueue) : (x.onEq i f).dir = x.dir := rfl
@[simp] theorem Part.onEq_segments (i : Nat) (f : EventQueue → EventQueue) : (x.onEq i f).segments = x.segments := rfl
@[simp] theorem Part.onEq_segRoot (i : Nat) (f : EventQueue → EventQueue) : (x.onEq i f).segRoot = x.segRoot := rfl
@[simp] theorem Part.onEq_segChunks (i : Nat) (f : EventQueue → EventQueue) : (x.onEq i f).segChunks = x.segChunks := rfl
@[simp] theorem Part.onEq_restRoot (i : Nat) (f : EventQueue → EventQueue) : (x.onEq i f).restRoot = x.restRoot := rfl
@[simp] theorem Part.onEq_restChunks (i : Nat) (f : EventQueue → EventQueue) : (x.onEq i f).restChunks = x.restChunks := rfl
@[simp] theorem Part.onEq_slabs (i : Nat) (f : EventQueue → EventQueue) : (x.onEq i f).slabs = x.slabs := rfl
@[simp] theorem Part.onEq_dram (i : Nat) (f : EventQueue → EventQueue) : (x.onEq i f).dram = x.dram := rfl
@[simp] theorem Part.onEq_regions (i : Nat) (f : EventQueue → EventQueue) : (x.onEq i f).regions = x.regions := rfl
@[simp] theorem Part.onEq_moves (i : Nat) (f : EventQueue → EventQueue) : (x.onEq i f).moves = x.moves := rfl
@[simp] theorem Part.onEq_nextMove (i : Nat) (f : EventQueue → EventQueue) : (x.onEq i f).nextMove = x.nextMove := rfl
@[simp] theorem Part.onEq_restSeq (i : Nat) (f : EventQueue → EventQueue) : (x.onEq i f).restSeq = x.restSeq := rfl
@[simp] theorem Part.onEq_restTable (i : Nat) (f : EventQueue → EventQueue) : (x.onEq i f).restTable = x.restTable := rfl
@[simp] theorem Part.onEq_counters (i : Nat) (f : EventQueue → EventQueue) : (x.onEq i f).counters = x.counters := rfl
@[simp] theorem Part.onEq_push (i : Nat) (f : EventQueue → EventQueue) : (x.onEq i f).push = x.push := rfl
@[simp] theorem Part.onEq_regs (i : Nat) (f : EventQueue → EventQueue) : (x.onEq i f).regs = x.regs := rfl
@[simp] theorem Part.onEq_cnt (i : Nat) (f : EventQueue → EventQueue) : (x.onEq i f).cnt = x.cnt := rfl
@[simp] theorem Part.onEq_stalls (i : Nat) (f : EventQueue → EventQueue) : (x.onEq i f).stalls = x.stalls := rfl
@[simp] theorem Part.onEq_stallUs (i : Nat) (f : EventQueue → EventQueue) : (x.onEq i f).stallUs = x.stallUs := rfl
@[simp] theorem Part.onEq_acct (i : Nat) (f : EventQueue → EventQueue) : (x.onEq i f).acct = x.acct := rfl
@[simp] theorem Part.onEq_flash (i : Nat) (f : EventQueue → EventQueue) : (x.onEq i f).flash = x.flash := rfl
@[simp] theorem Part.onEq_buffers (i : Nat) (f : EventQueue → EventQueue) : (x.onEq i f).buffers = x.buffers := rfl
@[simp] theorem Part.onEq_qps (i : Nat) (f : EventQueue → EventQueue) : (x.onEq i f).qps = x.qps := rfl
@[simp] theorem Part.onEq_egress (i : Nat) (f : EventQueue → EventQueue) : (x.onEq i f).egress = x.egress := rfl
@[simp] theorem Part.onEq_ingress (i : Nat) (f : EventQueue → EventQueue) : (x.onEq i f).ingress = x.ingress := rfl
@[simp] theorem Part.onEq_evictions (i : Nat) (f : EventQueue → EventQueue) : (x.onEq i f).evictions = x.evictions := rfl
@[simp] theorem Part.onEq_vtime (i : Nat) (f : EventQueue → EventQueue) : (x.onEq i f).vtime = x.vtime := rfl
@[simp] theorem Part.onEq_vdone (i : Nat) (f : EventQueue → EventQueue) : (x.onEq i f).vdone = x.vdone := rfl
@[simp] theorem Part.onEq_debugUntil (i : Nat) (f : EventQueue → EventQueue) : (x.onEq i f).debugUntil = x.debugUntil := rfl
@[simp] theorem Part.onEq_profileUntil (i : Nat) (f : EventQueue → EventQueue) : (x.onEq i f).profileUntil = x.profileUntil := rfl
@[simp] theorem Part.onEq_consentSeq (i : Nat) (f : EventQueue → EventQueue) : (x.onEq i f).consentSeq = x.consentSeq := rfl
@[simp] theorem Part.onEq_consentEnd (i : Nat) (f : EventQueue → EventQueue) : (x.onEq i f).consentEnd = x.consentEnd := rfl
@[simp] theorem Part.onEq_consentDigest (i : Nat) (f : EventQueue → EventQueue) : (x.onEq i f).consentDigest = x.consentDigest := rfl
@[simp] theorem Part.onEq_snapVf (i : Nat) (f : EventQueue → EventQueue) : (x.onEq i f).snapVf = x.snapVf := rfl
@[simp] theorem Part.onEq_snapPf (i : Nat) (f : EventQueue → EventQueue) : (x.onEq i f).snapPf = x.snapPf := rfl
@[simp] theorem Part.onEq_kept (i : Nat) (f : EventQueue → EventQueue) : (x.onEq i f).kept = x.kept := rfl
@[simp] theorem Part.onEq_orphans (i : Nat) (f : EventQueue → EventQueue) : (x.onEq i f).orphans = x.orphans := rfl

@[simp] theorem Part.onJob_live (i : Nat) (f : Job → Job) : (x.onJob i f).live = x.live := rfl
@[simp] theorem Part.onJob_epoch (i : Nat) (f : Job → Job) : (x.onJob i f).epoch = x.epoch := rfl
@[simp] theorem Part.onJob_grant (i : Nat) (f : Job → Job) : (x.onJob i f).grant = x.grant := rfl
@[simp] theorem Part.onJob_slots (i : Nat) (f : Job → Job) : (x.onJob i f).slots = x.slots := rfl
@[simp] theorem Part.onJob_eqs (i : Nat) (f : Job → Job) : (x.onJob i f).eqs = x.eqs := rfl
@[simp] theorem Part.onJob_models (i : Nat) (f : Job → Job) : (x.onJob i f).models = x.models := rfl
@[simp] theorem Part.onJob_kernels (i : Nat) (f : Job → Job) : (x.onJob i f).kernels = x.kernels := rfl
@[simp] theorem Part.onJob_seqs (i : Nat) (f : Job → Job) : (x.onJob i f).seqs = x.seqs := rfl
@[simp] theorem Part.onJob_gens (i : Nat) (f : Job → Job) : (x.onJob i f).gens = x.gens := rfl
@[simp] theorem Part.onJob_sets (i : Nat) (f : Job → Job) : (x.onJob i f).sets = x.sets := rfl
@[simp] theorem Part.onJob_dir (i : Nat) (f : Job → Job) : (x.onJob i f).dir = x.dir := rfl
@[simp] theorem Part.onJob_segments (i : Nat) (f : Job → Job) : (x.onJob i f).segments = x.segments := rfl
@[simp] theorem Part.onJob_segRoot (i : Nat) (f : Job → Job) : (x.onJob i f).segRoot = x.segRoot := rfl
@[simp] theorem Part.onJob_segChunks (i : Nat) (f : Job → Job) : (x.onJob i f).segChunks = x.segChunks := rfl
@[simp] theorem Part.onJob_restRoot (i : Nat) (f : Job → Job) : (x.onJob i f).restRoot = x.restRoot := rfl
@[simp] theorem Part.onJob_restChunks (i : Nat) (f : Job → Job) : (x.onJob i f).restChunks = x.restChunks := rfl
@[simp] theorem Part.onJob_slabs (i : Nat) (f : Job → Job) : (x.onJob i f).slabs = x.slabs := rfl
@[simp] theorem Part.onJob_dram (i : Nat) (f : Job → Job) : (x.onJob i f).dram = x.dram := rfl
@[simp] theorem Part.onJob_regions (i : Nat) (f : Job → Job) : (x.onJob i f).regions = x.regions := rfl
@[simp] theorem Part.onJob_moves (i : Nat) (f : Job → Job) : (x.onJob i f).moves = x.moves := rfl
@[simp] theorem Part.onJob_nextMove (i : Nat) (f : Job → Job) : (x.onJob i f).nextMove = x.nextMove := rfl
@[simp] theorem Part.onJob_restSeq (i : Nat) (f : Job → Job) : (x.onJob i f).restSeq = x.restSeq := rfl
@[simp] theorem Part.onJob_restTable (i : Nat) (f : Job → Job) : (x.onJob i f).restTable = x.restTable := rfl
@[simp] theorem Part.onJob_counters (i : Nat) (f : Job → Job) : (x.onJob i f).counters = x.counters := rfl
@[simp] theorem Part.onJob_push (i : Nat) (f : Job → Job) : (x.onJob i f).push = x.push := rfl
@[simp] theorem Part.onJob_regs (i : Nat) (f : Job → Job) : (x.onJob i f).regs = x.regs := rfl
@[simp] theorem Part.onJob_cnt (i : Nat) (f : Job → Job) : (x.onJob i f).cnt = x.cnt := rfl
@[simp] theorem Part.onJob_stalls (i : Nat) (f : Job → Job) : (x.onJob i f).stalls = x.stalls := rfl
@[simp] theorem Part.onJob_stallUs (i : Nat) (f : Job → Job) : (x.onJob i f).stallUs = x.stallUs := rfl
@[simp] theorem Part.onJob_acct (i : Nat) (f : Job → Job) : (x.onJob i f).acct = x.acct := rfl
@[simp] theorem Part.onJob_flash (i : Nat) (f : Job → Job) : (x.onJob i f).flash = x.flash := rfl
@[simp] theorem Part.onJob_buffers (i : Nat) (f : Job → Job) : (x.onJob i f).buffers = x.buffers := rfl
@[simp] theorem Part.onJob_qps (i : Nat) (f : Job → Job) : (x.onJob i f).qps = x.qps := rfl
@[simp] theorem Part.onJob_egress (i : Nat) (f : Job → Job) : (x.onJob i f).egress = x.egress := rfl
@[simp] theorem Part.onJob_ingress (i : Nat) (f : Job → Job) : (x.onJob i f).ingress = x.ingress := rfl
@[simp] theorem Part.onJob_evictions (i : Nat) (f : Job → Job) : (x.onJob i f).evictions = x.evictions := rfl
@[simp] theorem Part.onJob_vtime (i : Nat) (f : Job → Job) : (x.onJob i f).vtime = x.vtime := rfl
@[simp] theorem Part.onJob_vdone (i : Nat) (f : Job → Job) : (x.onJob i f).vdone = x.vdone := rfl
@[simp] theorem Part.onJob_debugUntil (i : Nat) (f : Job → Job) : (x.onJob i f).debugUntil = x.debugUntil := rfl
@[simp] theorem Part.onJob_profileUntil (i : Nat) (f : Job → Job) : (x.onJob i f).profileUntil = x.profileUntil := rfl
@[simp] theorem Part.onJob_consentSeq (i : Nat) (f : Job → Job) : (x.onJob i f).consentSeq = x.consentSeq := rfl
@[simp] theorem Part.onJob_consentEnd (i : Nat) (f : Job → Job) : (x.onJob i f).consentEnd = x.consentEnd := rfl
@[simp] theorem Part.onJob_consentDigest (i : Nat) (f : Job → Job) : (x.onJob i f).consentDigest = x.consentDigest := rfl
@[simp] theorem Part.onJob_snapVf (i : Nat) (f : Job → Job) : (x.onJob i f).snapVf = x.snapVf := rfl
@[simp] theorem Part.onJob_snapPf (i : Nat) (f : Job → Job) : (x.onJob i f).snapPf = x.snapPf := rfl
@[simp] theorem Part.onJob_kept (i : Nat) (f : Job → Job) : (x.onJob i f).kept = x.kept := rfl
@[simp] theorem Part.onJob_orphans (i : Nat) (f : Job → Job) : (x.onJob i f).orphans = x.orphans := rfl

@[simp] theorem Part.onSeq_live (i : Nat) (f : Seq → Seq) : (x.onSeq i f).live = x.live := rfl
@[simp] theorem Part.onSeq_epoch (i : Nat) (f : Seq → Seq) : (x.onSeq i f).epoch = x.epoch := rfl
@[simp] theorem Part.onSeq_grant (i : Nat) (f : Seq → Seq) : (x.onSeq i f).grant = x.grant := rfl
@[simp] theorem Part.onSeq_jobs (i : Nat) (f : Seq → Seq) : (x.onSeq i f).jobs = x.jobs := rfl
@[simp] theorem Part.onSeq_slots (i : Nat) (f : Seq → Seq) : (x.onSeq i f).slots = x.slots := rfl
@[simp] theorem Part.onSeq_eqs (i : Nat) (f : Seq → Seq) : (x.onSeq i f).eqs = x.eqs := rfl
@[simp] theorem Part.onSeq_models (i : Nat) (f : Seq → Seq) : (x.onSeq i f).models = x.models := rfl
@[simp] theorem Part.onSeq_kernels (i : Nat) (f : Seq → Seq) : (x.onSeq i f).kernels = x.kernels := rfl
@[simp] theorem Part.onSeq_gens (i : Nat) (f : Seq → Seq) : (x.onSeq i f).gens = x.gens := rfl
@[simp] theorem Part.onSeq_sets (i : Nat) (f : Seq → Seq) : (x.onSeq i f).sets = x.sets := rfl
@[simp] theorem Part.onSeq_dir (i : Nat) (f : Seq → Seq) : (x.onSeq i f).dir = x.dir := rfl
@[simp] theorem Part.onSeq_segments (i : Nat) (f : Seq → Seq) : (x.onSeq i f).segments = x.segments := rfl
@[simp] theorem Part.onSeq_segRoot (i : Nat) (f : Seq → Seq) : (x.onSeq i f).segRoot = x.segRoot := rfl
@[simp] theorem Part.onSeq_segChunks (i : Nat) (f : Seq → Seq) : (x.onSeq i f).segChunks = x.segChunks := rfl
@[simp] theorem Part.onSeq_restRoot (i : Nat) (f : Seq → Seq) : (x.onSeq i f).restRoot = x.restRoot := rfl
@[simp] theorem Part.onSeq_restChunks (i : Nat) (f : Seq → Seq) : (x.onSeq i f).restChunks = x.restChunks := rfl
@[simp] theorem Part.onSeq_slabs (i : Nat) (f : Seq → Seq) : (x.onSeq i f).slabs = x.slabs := rfl
@[simp] theorem Part.onSeq_dram (i : Nat) (f : Seq → Seq) : (x.onSeq i f).dram = x.dram := rfl
@[simp] theorem Part.onSeq_regions (i : Nat) (f : Seq → Seq) : (x.onSeq i f).regions = x.regions := rfl
@[simp] theorem Part.onSeq_moves (i : Nat) (f : Seq → Seq) : (x.onSeq i f).moves = x.moves := rfl
@[simp] theorem Part.onSeq_nextMove (i : Nat) (f : Seq → Seq) : (x.onSeq i f).nextMove = x.nextMove := rfl
@[simp] theorem Part.onSeq_restSeq (i : Nat) (f : Seq → Seq) : (x.onSeq i f).restSeq = x.restSeq := rfl
@[simp] theorem Part.onSeq_restTable (i : Nat) (f : Seq → Seq) : (x.onSeq i f).restTable = x.restTable := rfl
@[simp] theorem Part.onSeq_counters (i : Nat) (f : Seq → Seq) : (x.onSeq i f).counters = x.counters := rfl
@[simp] theorem Part.onSeq_push (i : Nat) (f : Seq → Seq) : (x.onSeq i f).push = x.push := rfl
@[simp] theorem Part.onSeq_regs (i : Nat) (f : Seq → Seq) : (x.onSeq i f).regs = x.regs := rfl
@[simp] theorem Part.onSeq_cnt (i : Nat) (f : Seq → Seq) : (x.onSeq i f).cnt = x.cnt := rfl
@[simp] theorem Part.onSeq_stalls (i : Nat) (f : Seq → Seq) : (x.onSeq i f).stalls = x.stalls := rfl
@[simp] theorem Part.onSeq_stallUs (i : Nat) (f : Seq → Seq) : (x.onSeq i f).stallUs = x.stallUs := rfl
@[simp] theorem Part.onSeq_acct (i : Nat) (f : Seq → Seq) : (x.onSeq i f).acct = x.acct := rfl
@[simp] theorem Part.onSeq_flash (i : Nat) (f : Seq → Seq) : (x.onSeq i f).flash = x.flash := rfl
@[simp] theorem Part.onSeq_buffers (i : Nat) (f : Seq → Seq) : (x.onSeq i f).buffers = x.buffers := rfl
@[simp] theorem Part.onSeq_qps (i : Nat) (f : Seq → Seq) : (x.onSeq i f).qps = x.qps := rfl
@[simp] theorem Part.onSeq_egress (i : Nat) (f : Seq → Seq) : (x.onSeq i f).egress = x.egress := rfl
@[simp] theorem Part.onSeq_ingress (i : Nat) (f : Seq → Seq) : (x.onSeq i f).ingress = x.ingress := rfl
@[simp] theorem Part.onSeq_evictions (i : Nat) (f : Seq → Seq) : (x.onSeq i f).evictions = x.evictions := rfl
@[simp] theorem Part.onSeq_vtime (i : Nat) (f : Seq → Seq) : (x.onSeq i f).vtime = x.vtime := rfl
@[simp] theorem Part.onSeq_vdone (i : Nat) (f : Seq → Seq) : (x.onSeq i f).vdone = x.vdone := rfl
@[simp] theorem Part.onSeq_debugUntil (i : Nat) (f : Seq → Seq) : (x.onSeq i f).debugUntil = x.debugUntil := rfl
@[simp] theorem Part.onSeq_profileUntil (i : Nat) (f : Seq → Seq) : (x.onSeq i f).profileUntil = x.profileUntil := rfl
@[simp] theorem Part.onSeq_consentSeq (i : Nat) (f : Seq → Seq) : (x.onSeq i f).consentSeq = x.consentSeq := rfl
@[simp] theorem Part.onSeq_consentEnd (i : Nat) (f : Seq → Seq) : (x.onSeq i f).consentEnd = x.consentEnd := rfl
@[simp] theorem Part.onSeq_consentDigest (i : Nat) (f : Seq → Seq) : (x.onSeq i f).consentDigest = x.consentDigest := rfl
@[simp] theorem Part.onSeq_snapVf (i : Nat) (f : Seq → Seq) : (x.onSeq i f).snapVf = x.snapVf := rfl
@[simp] theorem Part.onSeq_snapPf (i : Nat) (f : Seq → Seq) : (x.onSeq i f).snapPf = x.snapPf := rfl
@[simp] theorem Part.onSeq_kept (i : Nat) (f : Seq → Seq) : (x.onSeq i f).kept = x.kept := rfl
@[simp] theorem Part.onSeq_orphans (i : Nat) (f : Seq → Seq) : (x.onSeq i f).orphans = x.orphans := rfl

@[simp] theorem Part.onSet_live (n : Nat) (f : PageSet → PageSet) : (x.onSet n f).live = x.live := rfl
@[simp] theorem Part.onSet_epoch (n : Nat) (f : PageSet → PageSet) : (x.onSet n f).epoch = x.epoch := rfl
@[simp] theorem Part.onSet_grant (n : Nat) (f : PageSet → PageSet) : (x.onSet n f).grant = x.grant := rfl
@[simp] theorem Part.onSet_jobs (n : Nat) (f : PageSet → PageSet) : (x.onSet n f).jobs = x.jobs := rfl
@[simp] theorem Part.onSet_slots (n : Nat) (f : PageSet → PageSet) : (x.onSet n f).slots = x.slots := rfl
@[simp] theorem Part.onSet_eqs (n : Nat) (f : PageSet → PageSet) : (x.onSet n f).eqs = x.eqs := rfl
@[simp] theorem Part.onSet_models (n : Nat) (f : PageSet → PageSet) : (x.onSet n f).models = x.models := rfl
@[simp] theorem Part.onSet_kernels (n : Nat) (f : PageSet → PageSet) : (x.onSet n f).kernels = x.kernels := rfl
@[simp] theorem Part.onSet_seqs (n : Nat) (f : PageSet → PageSet) : (x.onSet n f).seqs = x.seqs := rfl
@[simp] theorem Part.onSet_gens (n : Nat) (f : PageSet → PageSet) : (x.onSet n f).gens = x.gens := rfl
@[simp] theorem Part.onSet_dir (n : Nat) (f : PageSet → PageSet) : (x.onSet n f).dir = x.dir := rfl
@[simp] theorem Part.onSet_segments (n : Nat) (f : PageSet → PageSet) : (x.onSet n f).segments = x.segments := rfl
@[simp] theorem Part.onSet_segRoot (n : Nat) (f : PageSet → PageSet) : (x.onSet n f).segRoot = x.segRoot := rfl
@[simp] theorem Part.onSet_segChunks (n : Nat) (f : PageSet → PageSet) : (x.onSet n f).segChunks = x.segChunks := rfl
@[simp] theorem Part.onSet_restRoot (n : Nat) (f : PageSet → PageSet) : (x.onSet n f).restRoot = x.restRoot := rfl
@[simp] theorem Part.onSet_restChunks (n : Nat) (f : PageSet → PageSet) : (x.onSet n f).restChunks = x.restChunks := rfl
@[simp] theorem Part.onSet_slabs (n : Nat) (f : PageSet → PageSet) : (x.onSet n f).slabs = x.slabs := rfl
@[simp] theorem Part.onSet_dram (n : Nat) (f : PageSet → PageSet) : (x.onSet n f).dram = x.dram := rfl
@[simp] theorem Part.onSet_regions (n : Nat) (f : PageSet → PageSet) : (x.onSet n f).regions = x.regions := rfl
@[simp] theorem Part.onSet_moves (n : Nat) (f : PageSet → PageSet) : (x.onSet n f).moves = x.moves := rfl
@[simp] theorem Part.onSet_nextMove (n : Nat) (f : PageSet → PageSet) : (x.onSet n f).nextMove = x.nextMove := rfl
@[simp] theorem Part.onSet_restSeq (n : Nat) (f : PageSet → PageSet) : (x.onSet n f).restSeq = x.restSeq := rfl
@[simp] theorem Part.onSet_restTable (n : Nat) (f : PageSet → PageSet) : (x.onSet n f).restTable = x.restTable := rfl
@[simp] theorem Part.onSet_counters (n : Nat) (f : PageSet → PageSet) : (x.onSet n f).counters = x.counters := rfl
@[simp] theorem Part.onSet_push (n : Nat) (f : PageSet → PageSet) : (x.onSet n f).push = x.push := rfl
@[simp] theorem Part.onSet_regs (n : Nat) (f : PageSet → PageSet) : (x.onSet n f).regs = x.regs := rfl
@[simp] theorem Part.onSet_cnt (n : Nat) (f : PageSet → PageSet) : (x.onSet n f).cnt = x.cnt := rfl
@[simp] theorem Part.onSet_stalls (n : Nat) (f : PageSet → PageSet) : (x.onSet n f).stalls = x.stalls := rfl
@[simp] theorem Part.onSet_stallUs (n : Nat) (f : PageSet → PageSet) : (x.onSet n f).stallUs = x.stallUs := rfl
@[simp] theorem Part.onSet_acct (n : Nat) (f : PageSet → PageSet) : (x.onSet n f).acct = x.acct := rfl
@[simp] theorem Part.onSet_flash (n : Nat) (f : PageSet → PageSet) : (x.onSet n f).flash = x.flash := rfl
@[simp] theorem Part.onSet_buffers (n : Nat) (f : PageSet → PageSet) : (x.onSet n f).buffers = x.buffers := rfl
@[simp] theorem Part.onSet_qps (n : Nat) (f : PageSet → PageSet) : (x.onSet n f).qps = x.qps := rfl
@[simp] theorem Part.onSet_egress (n : Nat) (f : PageSet → PageSet) : (x.onSet n f).egress = x.egress := rfl
@[simp] theorem Part.onSet_ingress (n : Nat) (f : PageSet → PageSet) : (x.onSet n f).ingress = x.ingress := rfl
@[simp] theorem Part.onSet_evictions (n : Nat) (f : PageSet → PageSet) : (x.onSet n f).evictions = x.evictions := rfl
@[simp] theorem Part.onSet_vtime (n : Nat) (f : PageSet → PageSet) : (x.onSet n f).vtime = x.vtime := rfl
@[simp] theorem Part.onSet_vdone (n : Nat) (f : PageSet → PageSet) : (x.onSet n f).vdone = x.vdone := rfl
@[simp] theorem Part.onSet_debugUntil (n : Nat) (f : PageSet → PageSet) : (x.onSet n f).debugUntil = x.debugUntil := rfl
@[simp] theorem Part.onSet_profileUntil (n : Nat) (f : PageSet → PageSet) : (x.onSet n f).profileUntil = x.profileUntil := rfl
@[simp] theorem Part.onSet_consentSeq (n : Nat) (f : PageSet → PageSet) : (x.onSet n f).consentSeq = x.consentSeq := rfl
@[simp] theorem Part.onSet_consentEnd (n : Nat) (f : PageSet → PageSet) : (x.onSet n f).consentEnd = x.consentEnd := rfl
@[simp] theorem Part.onSet_consentDigest (n : Nat) (f : PageSet → PageSet) : (x.onSet n f).consentDigest = x.consentDigest := rfl
@[simp] theorem Part.onSet_snapVf (n : Nat) (f : PageSet → PageSet) : (x.onSet n f).snapVf = x.snapVf := rfl
@[simp] theorem Part.onSet_snapPf (n : Nat) (f : PageSet → PageSet) : (x.onSet n f).snapPf = x.snapPf := rfl
@[simp] theorem Part.onSet_kept (n : Nat) (f : PageSet → PageSet) : (x.onSet n f).kept = x.kept := rfl
@[simp] theorem Part.onSet_orphans (n : Nat) (f : PageSet → PageSet) : (x.onSet n f).orphans = x.orphans := rfl

@[simp] theorem Part.onRegs_live (f : PartRegs → PartRegs) : (x.onRegs f).live = x.live := rfl
@[simp] theorem Part.onRegs_epoch (f : PartRegs → PartRegs) : (x.onRegs f).epoch = x.epoch := rfl
@[simp] theorem Part.onRegs_grant (f : PartRegs → PartRegs) : (x.onRegs f).grant = x.grant := rfl
@[simp] theorem Part.onRegs_jobs (f : PartRegs → PartRegs) : (x.onRegs f).jobs = x.jobs := rfl
@[simp] theorem Part.onRegs_slots (f : PartRegs → PartRegs) : (x.onRegs f).slots = x.slots := rfl
@[simp] theorem Part.onRegs_eqs (f : PartRegs → PartRegs) : (x.onRegs f).eqs = x.eqs := rfl
@[simp] theorem Part.onRegs_models (f : PartRegs → PartRegs) : (x.onRegs f).models = x.models := rfl
@[simp] theorem Part.onRegs_kernels (f : PartRegs → PartRegs) : (x.onRegs f).kernels = x.kernels := rfl
@[simp] theorem Part.onRegs_seqs (f : PartRegs → PartRegs) : (x.onRegs f).seqs = x.seqs := rfl
@[simp] theorem Part.onRegs_gens (f : PartRegs → PartRegs) : (x.onRegs f).gens = x.gens := rfl
@[simp] theorem Part.onRegs_sets (f : PartRegs → PartRegs) : (x.onRegs f).sets = x.sets := rfl
@[simp] theorem Part.onRegs_dir (f : PartRegs → PartRegs) : (x.onRegs f).dir = x.dir := rfl
@[simp] theorem Part.onRegs_segments (f : PartRegs → PartRegs) : (x.onRegs f).segments = x.segments := rfl
@[simp] theorem Part.onRegs_segRoot (f : PartRegs → PartRegs) : (x.onRegs f).segRoot = x.segRoot := rfl
@[simp] theorem Part.onRegs_segChunks (f : PartRegs → PartRegs) : (x.onRegs f).segChunks = x.segChunks := rfl
@[simp] theorem Part.onRegs_restRoot (f : PartRegs → PartRegs) : (x.onRegs f).restRoot = x.restRoot := rfl
@[simp] theorem Part.onRegs_restChunks (f : PartRegs → PartRegs) : (x.onRegs f).restChunks = x.restChunks := rfl
@[simp] theorem Part.onRegs_slabs (f : PartRegs → PartRegs) : (x.onRegs f).slabs = x.slabs := rfl
@[simp] theorem Part.onRegs_dram (f : PartRegs → PartRegs) : (x.onRegs f).dram = x.dram := rfl
@[simp] theorem Part.onRegs_regions (f : PartRegs → PartRegs) : (x.onRegs f).regions = x.regions := rfl
@[simp] theorem Part.onRegs_moves (f : PartRegs → PartRegs) : (x.onRegs f).moves = x.moves := rfl
@[simp] theorem Part.onRegs_nextMove (f : PartRegs → PartRegs) : (x.onRegs f).nextMove = x.nextMove := rfl
@[simp] theorem Part.onRegs_restSeq (f : PartRegs → PartRegs) : (x.onRegs f).restSeq = x.restSeq := rfl
@[simp] theorem Part.onRegs_restTable (f : PartRegs → PartRegs) : (x.onRegs f).restTable = x.restTable := rfl
@[simp] theorem Part.onRegs_counters (f : PartRegs → PartRegs) : (x.onRegs f).counters = x.counters := rfl
@[simp] theorem Part.onRegs_push (f : PartRegs → PartRegs) : (x.onRegs f).push = x.push := rfl
@[simp] theorem Part.onRegs_cnt (f : PartRegs → PartRegs) : (x.onRegs f).cnt = x.cnt := rfl
@[simp] theorem Part.onRegs_stalls (f : PartRegs → PartRegs) : (x.onRegs f).stalls = x.stalls := rfl
@[simp] theorem Part.onRegs_stallUs (f : PartRegs → PartRegs) : (x.onRegs f).stallUs = x.stallUs := rfl
@[simp] theorem Part.onRegs_acct (f : PartRegs → PartRegs) : (x.onRegs f).acct = x.acct := rfl
@[simp] theorem Part.onRegs_flash (f : PartRegs → PartRegs) : (x.onRegs f).flash = x.flash := rfl
@[simp] theorem Part.onRegs_buffers (f : PartRegs → PartRegs) : (x.onRegs f).buffers = x.buffers := rfl
@[simp] theorem Part.onRegs_qps (f : PartRegs → PartRegs) : (x.onRegs f).qps = x.qps := rfl
@[simp] theorem Part.onRegs_egress (f : PartRegs → PartRegs) : (x.onRegs f).egress = x.egress := rfl
@[simp] theorem Part.onRegs_ingress (f : PartRegs → PartRegs) : (x.onRegs f).ingress = x.ingress := rfl
@[simp] theorem Part.onRegs_evictions (f : PartRegs → PartRegs) : (x.onRegs f).evictions = x.evictions := rfl
@[simp] theorem Part.onRegs_vtime (f : PartRegs → PartRegs) : (x.onRegs f).vtime = x.vtime := rfl
@[simp] theorem Part.onRegs_vdone (f : PartRegs → PartRegs) : (x.onRegs f).vdone = x.vdone := rfl
@[simp] theorem Part.onRegs_debugUntil (f : PartRegs → PartRegs) : (x.onRegs f).debugUntil = x.debugUntil := rfl
@[simp] theorem Part.onRegs_profileUntil (f : PartRegs → PartRegs) : (x.onRegs f).profileUntil = x.profileUntil := rfl
@[simp] theorem Part.onRegs_consentSeq (f : PartRegs → PartRegs) : (x.onRegs f).consentSeq = x.consentSeq := rfl
@[simp] theorem Part.onRegs_consentEnd (f : PartRegs → PartRegs) : (x.onRegs f).consentEnd = x.consentEnd := rfl
@[simp] theorem Part.onRegs_consentDigest (f : PartRegs → PartRegs) : (x.onRegs f).consentDigest = x.consentDigest := rfl
@[simp] theorem Part.onRegs_snapVf (f : PartRegs → PartRegs) : (x.onRegs f).snapVf = x.snapVf := rfl
@[simp] theorem Part.onRegs_snapPf (f : PartRegs → PartRegs) : (x.onRegs f).snapPf = x.snapPf := rfl
@[simp] theorem Part.onRegs_kept (f : PartRegs → PartRegs) : (x.onRegs f).kept = x.kept := rfl
@[simp] theorem Part.onRegs_orphans (f : PartRegs → PartRegs) : (x.onRegs f).orphans = x.orphans := rfl

@[simp] theorem Part.onCnt_live (f : PartCounters → PartCounters) : (x.onCnt f).live = x.live := rfl
@[simp] theorem Part.onCnt_epoch (f : PartCounters → PartCounters) : (x.onCnt f).epoch = x.epoch := rfl
@[simp] theorem Part.onCnt_grant (f : PartCounters → PartCounters) : (x.onCnt f).grant = x.grant := rfl
@[simp] theorem Part.onCnt_jobs (f : PartCounters → PartCounters) : (x.onCnt f).jobs = x.jobs := rfl
@[simp] theorem Part.onCnt_slots (f : PartCounters → PartCounters) : (x.onCnt f).slots = x.slots := rfl
@[simp] theorem Part.onCnt_eqs (f : PartCounters → PartCounters) : (x.onCnt f).eqs = x.eqs := rfl
@[simp] theorem Part.onCnt_models (f : PartCounters → PartCounters) : (x.onCnt f).models = x.models := rfl
@[simp] theorem Part.onCnt_kernels (f : PartCounters → PartCounters) : (x.onCnt f).kernels = x.kernels := rfl
@[simp] theorem Part.onCnt_seqs (f : PartCounters → PartCounters) : (x.onCnt f).seqs = x.seqs := rfl
@[simp] theorem Part.onCnt_gens (f : PartCounters → PartCounters) : (x.onCnt f).gens = x.gens := rfl
@[simp] theorem Part.onCnt_sets (f : PartCounters → PartCounters) : (x.onCnt f).sets = x.sets := rfl
@[simp] theorem Part.onCnt_dir (f : PartCounters → PartCounters) : (x.onCnt f).dir = x.dir := rfl
@[simp] theorem Part.onCnt_segments (f : PartCounters → PartCounters) : (x.onCnt f).segments = x.segments := rfl
@[simp] theorem Part.onCnt_segRoot (f : PartCounters → PartCounters) : (x.onCnt f).segRoot = x.segRoot := rfl
@[simp] theorem Part.onCnt_segChunks (f : PartCounters → PartCounters) : (x.onCnt f).segChunks = x.segChunks := rfl
@[simp] theorem Part.onCnt_restRoot (f : PartCounters → PartCounters) : (x.onCnt f).restRoot = x.restRoot := rfl
@[simp] theorem Part.onCnt_restChunks (f : PartCounters → PartCounters) : (x.onCnt f).restChunks = x.restChunks := rfl
@[simp] theorem Part.onCnt_slabs (f : PartCounters → PartCounters) : (x.onCnt f).slabs = x.slabs := rfl
@[simp] theorem Part.onCnt_dram (f : PartCounters → PartCounters) : (x.onCnt f).dram = x.dram := rfl
@[simp] theorem Part.onCnt_regions (f : PartCounters → PartCounters) : (x.onCnt f).regions = x.regions := rfl
@[simp] theorem Part.onCnt_moves (f : PartCounters → PartCounters) : (x.onCnt f).moves = x.moves := rfl
@[simp] theorem Part.onCnt_nextMove (f : PartCounters → PartCounters) : (x.onCnt f).nextMove = x.nextMove := rfl
@[simp] theorem Part.onCnt_restSeq (f : PartCounters → PartCounters) : (x.onCnt f).restSeq = x.restSeq := rfl
@[simp] theorem Part.onCnt_restTable (f : PartCounters → PartCounters) : (x.onCnt f).restTable = x.restTable := rfl
@[simp] theorem Part.onCnt_counters (f : PartCounters → PartCounters) : (x.onCnt f).counters = x.counters := rfl
@[simp] theorem Part.onCnt_push (f : PartCounters → PartCounters) : (x.onCnt f).push = x.push := rfl
@[simp] theorem Part.onCnt_regs (f : PartCounters → PartCounters) : (x.onCnt f).regs = x.regs := rfl
@[simp] theorem Part.onCnt_stalls (f : PartCounters → PartCounters) : (x.onCnt f).stalls = x.stalls := rfl
@[simp] theorem Part.onCnt_stallUs (f : PartCounters → PartCounters) : (x.onCnt f).stallUs = x.stallUs := rfl
@[simp] theorem Part.onCnt_acct (f : PartCounters → PartCounters) : (x.onCnt f).acct = x.acct := rfl
@[simp] theorem Part.onCnt_flash (f : PartCounters → PartCounters) : (x.onCnt f).flash = x.flash := rfl
@[simp] theorem Part.onCnt_buffers (f : PartCounters → PartCounters) : (x.onCnt f).buffers = x.buffers := rfl
@[simp] theorem Part.onCnt_qps (f : PartCounters → PartCounters) : (x.onCnt f).qps = x.qps := rfl
@[simp] theorem Part.onCnt_egress (f : PartCounters → PartCounters) : (x.onCnt f).egress = x.egress := rfl
@[simp] theorem Part.onCnt_ingress (f : PartCounters → PartCounters) : (x.onCnt f).ingress = x.ingress := rfl
@[simp] theorem Part.onCnt_evictions (f : PartCounters → PartCounters) : (x.onCnt f).evictions = x.evictions := rfl
@[simp] theorem Part.onCnt_vtime (f : PartCounters → PartCounters) : (x.onCnt f).vtime = x.vtime := rfl
@[simp] theorem Part.onCnt_vdone (f : PartCounters → PartCounters) : (x.onCnt f).vdone = x.vdone := rfl
@[simp] theorem Part.onCnt_debugUntil (f : PartCounters → PartCounters) : (x.onCnt f).debugUntil = x.debugUntil := rfl
@[simp] theorem Part.onCnt_profileUntil (f : PartCounters → PartCounters) : (x.onCnt f).profileUntil = x.profileUntil := rfl
@[simp] theorem Part.onCnt_consentSeq (f : PartCounters → PartCounters) : (x.onCnt f).consentSeq = x.consentSeq := rfl
@[simp] theorem Part.onCnt_consentEnd (f : PartCounters → PartCounters) : (x.onCnt f).consentEnd = x.consentEnd := rfl
@[simp] theorem Part.onCnt_consentDigest (f : PartCounters → PartCounters) : (x.onCnt f).consentDigest = x.consentDigest := rfl
@[simp] theorem Part.onCnt_snapVf (f : PartCounters → PartCounters) : (x.onCnt f).snapVf = x.snapVf := rfl
@[simp] theorem Part.onCnt_snapPf (f : PartCounters → PartCounters) : (x.onCnt f).snapPf = x.snapPf := rfl
@[simp] theorem Part.onCnt_kept (f : PartCounters → PartCounters) : (x.onCnt f).kept = x.kept := rfl
@[simp] theorem Part.onCnt_orphans (f : PartCounters → PartCounters) : (x.onCnt f).orphans = x.orphans := rfl

@[simp] theorem Part.onAcct_live (f : Acct → Acct) : (x.onAcct f).live = x.live := rfl
@[simp] theorem Part.onAcct_epoch (f : Acct → Acct) : (x.onAcct f).epoch = x.epoch := rfl
@[simp] theorem Part.onAcct_grant (f : Acct → Acct) : (x.onAcct f).grant = x.grant := rfl
@[simp] theorem Part.onAcct_jobs (f : Acct → Acct) : (x.onAcct f).jobs = x.jobs := rfl
@[simp] theorem Part.onAcct_slots (f : Acct → Acct) : (x.onAcct f).slots = x.slots := rfl
@[simp] theorem Part.onAcct_eqs (f : Acct → Acct) : (x.onAcct f).eqs = x.eqs := rfl
@[simp] theorem Part.onAcct_models (f : Acct → Acct) : (x.onAcct f).models = x.models := rfl
@[simp] theorem Part.onAcct_kernels (f : Acct → Acct) : (x.onAcct f).kernels = x.kernels := rfl
@[simp] theorem Part.onAcct_seqs (f : Acct → Acct) : (x.onAcct f).seqs = x.seqs := rfl
@[simp] theorem Part.onAcct_gens (f : Acct → Acct) : (x.onAcct f).gens = x.gens := rfl
@[simp] theorem Part.onAcct_sets (f : Acct → Acct) : (x.onAcct f).sets = x.sets := rfl
@[simp] theorem Part.onAcct_dir (f : Acct → Acct) : (x.onAcct f).dir = x.dir := rfl
@[simp] theorem Part.onAcct_segments (f : Acct → Acct) : (x.onAcct f).segments = x.segments := rfl
@[simp] theorem Part.onAcct_segRoot (f : Acct → Acct) : (x.onAcct f).segRoot = x.segRoot := rfl
@[simp] theorem Part.onAcct_segChunks (f : Acct → Acct) : (x.onAcct f).segChunks = x.segChunks := rfl
@[simp] theorem Part.onAcct_restRoot (f : Acct → Acct) : (x.onAcct f).restRoot = x.restRoot := rfl
@[simp] theorem Part.onAcct_restChunks (f : Acct → Acct) : (x.onAcct f).restChunks = x.restChunks := rfl
@[simp] theorem Part.onAcct_slabs (f : Acct → Acct) : (x.onAcct f).slabs = x.slabs := rfl
@[simp] theorem Part.onAcct_dram (f : Acct → Acct) : (x.onAcct f).dram = x.dram := rfl
@[simp] theorem Part.onAcct_regions (f : Acct → Acct) : (x.onAcct f).regions = x.regions := rfl
@[simp] theorem Part.onAcct_moves (f : Acct → Acct) : (x.onAcct f).moves = x.moves := rfl
@[simp] theorem Part.onAcct_nextMove (f : Acct → Acct) : (x.onAcct f).nextMove = x.nextMove := rfl
@[simp] theorem Part.onAcct_restSeq (f : Acct → Acct) : (x.onAcct f).restSeq = x.restSeq := rfl
@[simp] theorem Part.onAcct_restTable (f : Acct → Acct) : (x.onAcct f).restTable = x.restTable := rfl
@[simp] theorem Part.onAcct_counters (f : Acct → Acct) : (x.onAcct f).counters = x.counters := rfl
@[simp] theorem Part.onAcct_push (f : Acct → Acct) : (x.onAcct f).push = x.push := rfl
@[simp] theorem Part.onAcct_regs (f : Acct → Acct) : (x.onAcct f).regs = x.regs := rfl
@[simp] theorem Part.onAcct_cnt (f : Acct → Acct) : (x.onAcct f).cnt = x.cnt := rfl
@[simp] theorem Part.onAcct_stalls (f : Acct → Acct) : (x.onAcct f).stalls = x.stalls := rfl
@[simp] theorem Part.onAcct_stallUs (f : Acct → Acct) : (x.onAcct f).stallUs = x.stallUs := rfl
@[simp] theorem Part.onAcct_flash (f : Acct → Acct) : (x.onAcct f).flash = x.flash := rfl
@[simp] theorem Part.onAcct_buffers (f : Acct → Acct) : (x.onAcct f).buffers = x.buffers := rfl
@[simp] theorem Part.onAcct_qps (f : Acct → Acct) : (x.onAcct f).qps = x.qps := rfl
@[simp] theorem Part.onAcct_egress (f : Acct → Acct) : (x.onAcct f).egress = x.egress := rfl
@[simp] theorem Part.onAcct_ingress (f : Acct → Acct) : (x.onAcct f).ingress = x.ingress := rfl
@[simp] theorem Part.onAcct_evictions (f : Acct → Acct) : (x.onAcct f).evictions = x.evictions := rfl
@[simp] theorem Part.onAcct_vtime (f : Acct → Acct) : (x.onAcct f).vtime = x.vtime := rfl
@[simp] theorem Part.onAcct_vdone (f : Acct → Acct) : (x.onAcct f).vdone = x.vdone := rfl
@[simp] theorem Part.onAcct_debugUntil (f : Acct → Acct) : (x.onAcct f).debugUntil = x.debugUntil := rfl
@[simp] theorem Part.onAcct_profileUntil (f : Acct → Acct) : (x.onAcct f).profileUntil = x.profileUntil := rfl
@[simp] theorem Part.onAcct_consentSeq (f : Acct → Acct) : (x.onAcct f).consentSeq = x.consentSeq := rfl
@[simp] theorem Part.onAcct_consentEnd (f : Acct → Acct) : (x.onAcct f).consentEnd = x.consentEnd := rfl
@[simp] theorem Part.onAcct_consentDigest (f : Acct → Acct) : (x.onAcct f).consentDigest = x.consentDigest := rfl
@[simp] theorem Part.onAcct_snapVf (f : Acct → Acct) : (x.onAcct f).snapVf = x.snapVf := rfl
@[simp] theorem Part.onAcct_snapPf (f : Acct → Acct) : (x.onAcct f).snapPf = x.snapPf := rfl
@[simp] theorem Part.onAcct_kept (f : Acct → Acct) : (x.onAcct f).kept = x.kept := rfl
@[simp] theorem Part.onAcct_orphans (f : Acct → Acct) : (x.onAcct f).orphans = x.orphans := rfl

/-! ### Reading a partition and a function after an update -/

@[simp] theorem State.part_setPart (p : Nat) : (s.setPart p x).part p = x := Map.get_put_same _ _ _ _
@[simp] theorem State.part_setPart_ne (p q : Nat) (h : q ≠ p) : (s.setPart p x).part q = s.part q := Map.get_put_ne _ _ _ _ _ h
@[simp] theorem State.part_onPart (p : Nat) (f : Part → Part) : (s.onPart p f).part p = f (s.part p) := Map.get_put_same _ _ _ _
@[simp] theorem State.part_onPart_ne (p q : Nat) (f : Part → Part) (h : q ≠ p) : (s.onPart p f).part q = s.part q :=
  Map.get_put_ne _ _ _ _ _ h
@[simp] theorem State.part_onSlot (p i : Nat) (f : Slot → Slot) : (s.onSlot p i f).part p = (s.part p).onSlot i f :=
  State.part_onPart s p _
@[simp] theorem State.part_onSeq (p i : Nat) (f : Seq → Seq) : (s.onSeq p i f).part p = (s.part p).onSeq i f := State.part_onPart s p _
@[simp] theorem State.part_onSet (p n : Nat) (f : PageSet → PageSet) : (s.onSet p n f).part p = (s.part p).onSet n f :=
  State.part_onPart s p _
@[simp] theorem State.part_onAcct (p : Nat) (f : Acct → Acct) : (s.onAcct p f).part p = (s.part p).onAcct f := State.part_onPart s p _
@[simp] theorem State.func_onFunc (n : Nat) (f : Func → Func) : (s.onFunc n f).func n = f (s.func n) := Map.get_put_same _ _ _ _
@[simp] theorem State.func_onFunc_ne (n m : Nat) (f : Func → Func) (h : m ≠ n) : (s.onFunc n f).func m = s.func m :=
  Map.get_put_ne _ _ _ _ _ h
@[simp] theorem State.slot_onSlot (p i : Nat) (f : Slot → Slot) : (s.onSlot p i f).slot p i = f (s.slot p i) := by
  simp [State.slot, Part.onSlot, Part.slot]
@[simp] theorem Part.slot_onSlot (i : Nat) (f : Slot → Slot) : (x.onSlot i f).slot i = f (x.slot i) := Map.get_put_same _ _ _ _
@[simp] theorem Part.slot_onSlot_ne (i j : Nat) (f : Slot → Slot) (h : j ≠ i) : (x.onSlot i f).slot j = x.slot j :=
  Map.get_put_ne _ _ _ _ _ h
@[simp] theorem Part.seq_onSeq (i : Nat) (f : Seq → Seq) : (x.onSeq i f).seq i = (x.seq i).map f := Map.look_edit_same _ _ _
@[simp] theorem Part.seq_onSeq_ne (i j : Nat) (f : Seq → Seq) (h : j ≠ i) : (x.onSeq i f).seq j = x.seq j := Map.look_edit_ne _ _ _ _ h
@[simp] theorem Part.set_onSet (n : Nat) (f : PageSet → PageSet) : (x.onSet n f).set n = (x.set n).map f := Map.look_edit_same _ _ _
@[simp] theorem Part.set_onSet_ne (n m : Nat) (f : PageSet → PageSet) (h : m ≠ n) : (x.onSet n f).set m = x.set m :=
  Map.look_edit_ne _ _ _ _ h
@[simp] theorem Part.eq_onEq (i : Nat) (f : EventQueue → EventQueue) : (x.onEq i f).eq i = f (x.eq i) := Map.get_put_same _ _ _ _

theorem State.part_of_parts (t : State) (h : t.parts = s.parts) (p : Nat) : t.part p = s.part p := by
  simp [State.part, h]

end Sys2Proof.Machine
end

