-- ==== Sys2Proof/Laws/Memory.lean ====
section
/-! SUPPORT. Laws of host memory: a read after a write, every other byte left alone, and the canonical form. -/

namespace Sys2Proof.Machine

open Sys2Proof

theorem Memory.read_write_same (m : List Host.Cell) (a : Nat) (b : Byte) : Memory.read (Memory.write m a b) a = b := by
  unfold Memory.write Memory.read
  split
  next h => simp [Map.get, h]
  next => simp

theorem Memory.read_write_ne (m : List Host.Cell) (a i : Nat) (b : Byte) (h : i ≠ a) :
    Memory.read (Memory.write m a b) i = Memory.read m i := by
  unfold Memory.write Memory.read
  split <;> simp [Map.get, h]

/-- Writing bytes leaves every byte outside them alone. -/
theorem Memory.read_writeBytes_outside (m : List Host.Cell) (a i : Nat) (l : List Byte) (h : i < a ∨ a + l.length ≤ i) :
    Memory.read (Memory.writeBytes m a l) i = Memory.read m i := by
  induction l generalizing m a with
  | nil => rfl
  | cons b r ih =>
    have hl : (b :: r).length = r.length + 1 := rfl
    unfold Memory.writeBytes
    rw [ih _ _ (by omega), Memory.read_write_ne _ _ _ _ (by omega)]

/-- A byte written reads back. -/
theorem Memory.read_writeBytes_inside (m : List Host.Cell) (a i : Nat) (l : List Byte) (h : i < l.length) :
    Memory.read (Memory.writeBytes m a l) (a + i) = l[i] := by
  induction l generalizing m a i with
  | nil => simp at h
  | cons b r ih =>
    unfold Memory.writeBytes
    cases i with
    | zero =>
      rw [Memory.read_writeBytes_outside _ _ _ _ (by omega)]
      simpa using Memory.read_write_same m a b
    | succ n =>
      have e : a + (n + 1) = a + 1 + n := by omega
      rw [e, ih _ _ _ (by simpa using h)]
      rfl

theorem Map.all_del {α : Type} (m : Map α) (k : Nat) (p : Nat × α → Bool) (h : m.all p = true) : (Map.del m k).all p = true := by
  rw [List.all_eq_true] at *
  intro x hx
  exact h x (List.mem_filter.1 hx).1

theorem Map.all_put {α : Type} (m : Map α) (k : Nat) (a : α) (p : Nat × α → Bool) (h : m.all p = true) (ha : p (k, a) = true) :
    (Map.put m k a).all p = true := by
  have hd := Map.all_del m k p h
  rw [List.all_eq_true] at *
  intro x hx
  rcases Map.mem_place _ _ _ _ hx with rfl | hx
  · exact ha
  · exact hd x hx

/-- A write keeps the canonical form of host memory. -/
theorem Memory.write_wf (m : List Host.Cell) (a : Nat) (b : Byte) (h : Memory.wf m = true) : Memory.wf (Memory.write m a b) = true := by
  unfold Memory.wf at *
  rw [Bool.and_eq_true] at *
  unfold Memory.write
  split
  next => exact ⟨Map.del_wf m a h.1, Map.all_del m a _ h.2⟩
  next hb => exact ⟨Map.put_wf m a b h.1, Map.all_put m a b _ h.2 (by simpa using hb)⟩

/-- Writing bytes keeps the canonical form of host memory. -/
theorem Memory.writeBytes_wf (m : List Host.Cell) (a : Nat) (l : List Byte) (h : Memory.wf m = true) :
    Memory.wf (Memory.writeBytes m a l) = true := by
  induction l generalizing m a with
  | nil => exact h
  | cons b r ih => exact ih _ _ (Memory.write_wf m a b h)

end Sys2Proof.Machine
end

