-- ==== Sys2Proof/Laws/Keeps.lean ====
section
/-! SUPPORT. What every command keeps: the queue as it is, the canonical form of the sparse memories, and every fuse that is set. -/

namespace Sys2Proof.Machine

open Sys2Proof

/-- The queue is q, the sparse memories are canonical, and every fuse set in o is set. -/
structure Keeps (q : List Instr) (o : Oxsis) (s : State) : Prop where
  queue : s.pending = q
  mem : Memory.wf s.hostMem = true
  funcs : Map.wf s.funcs = true
  cache : Map.wf s.cache = true
  fuses : FusesFrom o s.oxs

theorem FusesFrom.refl (o : Oxsis) : FusesFrom o o := ⟨fun _ => Nat.le_refl _, Nat.le_refl _, id, fun h => by simp [h]⟩

theorem FusesFrom.trans {a b c : Oxsis} (h : FusesFrom a b) (k : FusesFrom b c) : FusesFrom a c where
  svn i := Nat.le_trans (h.svn i) (k.svn i)
  ranges := Nat.le_trans h.ranges k.ranges
  rma e := k.rma (h.rma e)
  production e := by
    cases hb : b.lifecycle
    · exact absurd hb (h.production e)
    · exact k.production hb
    · simp [k.rma hb]

/-- A change of other fields of Oxsis leaves the fuses as they are. -/
theorem FusesFrom.of_eq {a b : Oxsis} (h1 : b.svn = a.svn) (h2 : b.idRanges = a.idRanges) (h3 : b.lifecycle = a.lifecycle) : FusesFrom a b :=
  ⟨fun _ => Nat.le_of_eq (by rw [h1]), Nat.le_of_eq h2.symm, fun e => h3.trans e, fun h e => nomatch (h.symm.trans h3.symm).trans e⟩

theorem Keeps.of_canonical (s : State) (h : s.canonical = true) : Keeps s.pending s.oxs s := by
  unfold State.canonical at h
  simp only [Bool.and_eq_true] at h
  exact ⟨rfl, h.1.1, h.1.2, h.2, FusesFrom.refl _⟩

theorem Keeps.canonical {cq : List Instr} {co : Oxsis} {s : State} (h : Keeps cq co s) : s.canonical = true := by
  unfold State.canonical
  simp [h.mem, h.funcs, h.cache]

variable {cq : List Instr} {co : Oxsis} {s : State}

/-- A change of other fields keeps what is kept. -/
theorem Keeps.of_eq {t : State} (h : Keeps cq co s) (h1 : t.pending = s.pending) (h2 : t.hostMem = s.hostMem) (h3 : t.funcs = s.funcs)
    (h4 : t.cache = s.cache) (h5 : t.oxs = s.oxs) : Keeps cq co t :=
  ⟨h1 ▸ h.queue, h2 ▸ h.mem, h3 ▸ h.funcs, h4 ▸ h.cache, h5 ▸ h.fuses⟩

/-- An outcome whose next state keeps. -/
inductive OutKeeps (q : List Instr) (o : Oxsis) : Host.Outcome State Fault Refusal → Prop
  | next {t : State} (h : Keeps q o t) : OutKeeps q o (.next t)
  | fault {r : Fault} : OutKeeps q o (.fault r)
  | refused {r : Refusal} : OutKeeps q o (.refused r)

/-- Either branch keeps. -/
theorem Keeps.ite {c : Prop} [Decidable c] {u v : State} (hu : Keeps cq co u) (hv : Keeps cq co v) : Keeps cq co (if c then u else v) := by
  split
  · exact hu
  · exact hv

/-- A state built from s by other fields keeps what s keeps. -/
theorem Keeps.lit {nowS dirSweep stage : Nat} {halted : Bool} {parts : Map Part} {vfEnable : Bool} {meq : EventQueue} {pf0Bme : Bool} {pf0Vector : Vector16} {quiesce : Nat} {sched : Sched} {reads : Map ReadReq} {nextRead : Nat} {flash : Flash} {fabric : Fabric} {power : Power} {health : Health} {pins : Pins} {uses : Nat} {outq : List OutWrite} {credits : Nat} {wakeDrop : BitVec 32} {draws : Nat} {msix : List (Nat × Nat)}
    (h : Keeps cq co s) : Keeps cq co (State.mk s.pending s.hostMem nowS dirSweep stage halted parts s.funcs vfEnable meq pf0Bme pf0Vector quiesce sched reads nextRead flash fabric s.oxs power health pins s.cache uses outq credits wakeDrop draws msix) :=
  h.of_eq rfl rfl rfl rfl rfl

/-- The same where host memory changes. -/
theorem Keeps.lit_mem {nowS dirSweep stage : Nat} {halted : Bool} {parts : Map Part} {vfEnable : Bool} {meq : EventQueue} {pf0Bme : Bool} {pf0Vector : Vector16} {quiesce : Nat} {sched : Sched} {reads : Map ReadReq} {nextRead : Nat} {flash : Flash} {fabric : Fabric} {power : Power} {health : Health} {pins : Pins} {uses : Nat} {outq : List OutWrite} {credits : Nat} {wakeDrop : BitVec 32} {draws : Nat} {msix : List (Nat × Nat)}
    {x : List Host.Cell} (hx : Memory.wf s.hostMem = true → Memory.wf x = true) (h : Keeps cq co s) : Keeps cq co (State.mk s.pending x nowS dirSweep stage halted parts s.funcs vfEnable meq pf0Bme pf0Vector quiesce sched reads nextRead flash fabric s.oxs power health pins s.cache uses outq credits wakeDrop draws msix) :=
  ⟨h.queue, hx h.mem, h.funcs, h.cache, h.fuses⟩

/-- The same where the functions change. -/
theorem Keeps.lit_funcs {nowS dirSweep stage : Nat} {halted : Bool} {parts : Map Part} {vfEnable : Bool} {meq : EventQueue} {pf0Bme : Bool} {pf0Vector : Vector16} {quiesce : Nat} {sched : Sched} {reads : Map ReadReq} {nextRead : Nat} {flash : Flash} {fabric : Fabric} {power : Power} {health : Health} {pins : Pins} {uses : Nat} {outq : List OutWrite} {credits : Nat} {wakeDrop : BitVec 32} {draws : Nat} {msix : List (Nat × Nat)}
    {x : Map Func} (hx : Map.wf s.funcs = true → Map.wf x = true) (h : Keeps cq co s) : Keeps cq co (State.mk s.pending s.hostMem nowS dirSweep stage halted parts x vfEnable meq pf0Bme pf0Vector quiesce sched reads nextRead flash fabric s.oxs power health pins s.cache uses outq credits wakeDrop draws msix) :=
  ⟨h.queue, h.mem, hx h.funcs, h.cache, h.fuses⟩

/-- The same where the page caches change. -/
theorem Keeps.lit_cache {nowS dirSweep stage : Nat} {halted : Bool} {parts : Map Part} {vfEnable : Bool} {meq : EventQueue} {pf0Bme : Bool} {pf0Vector : Vector16} {quiesce : Nat} {sched : Sched} {reads : Map ReadReq} {nextRead : Nat} {flash : Flash} {fabric : Fabric} {power : Power} {health : Health} {pins : Pins} {uses : Nat} {outq : List OutWrite} {credits : Nat} {wakeDrop : BitVec 32} {draws : Nat} {msix : List (Nat × Nat)}
    {x : Map CacheLine} (hx : Map.wf s.cache = true → Map.wf x = true) (h : Keeps cq co s) : Keeps cq co (State.mk s.pending s.hostMem nowS dirSweep stage halted parts s.funcs vfEnable meq pf0Bme pf0Vector quiesce sched reads nextRead flash fabric s.oxs power health pins x uses outq credits wakeDrop draws msix) :=
  ⟨h.queue, h.mem, h.funcs, hx h.cache, h.fuses⟩

/-- The same where Oxsis changes and no fuse is lost. -/
theorem Keeps.lit_oxs {nowS dirSweep stage : Nat} {halted : Bool} {parts : Map Part} {vfEnable : Bool} {meq : EventQueue} {pf0Bme : Bool} {pf0Vector : Vector16} {quiesce : Nat} {sched : Sched} {reads : Map ReadReq} {nextRead : Nat} {flash : Flash} {fabric : Fabric} {power : Power} {health : Health} {pins : Pins} {uses : Nat} {outq : List OutWrite} {credits : Nat} {wakeDrop : BitVec 32} {draws : Nat} {msix : List (Nat × Nat)}
    {x : Oxsis} (hx : FusesFrom s.oxs x) (h : Keeps cq co s) : Keeps cq co (State.mk s.pending s.hostMem nowS dirSweep stage halted parts s.funcs vfEnable meq pf0Bme pf0Vector quiesce sched reads nextRead flash fabric x power health pins s.cache uses outq credits wakeDrop draws msix) :=
  ⟨h.queue, h.mem, h.funcs, h.cache, h.fuses.trans hx⟩

end Sys2Proof.Machine
end

