-- ==== Sys2Proof/Laws/Keeps/Ops.lean ====
section
/-! SUPPORT. What the operations of Machine/Ops.lean keep. -/

namespace Sys2Proof.Machine

open Sys2Proof

variable {cq : List Instr} {co : Oxsis}

theorem State.setPart_keeps (s : State) (p : Nat) (x : Part) (hs : Keeps cq co s) : Keeps cq co (State.setPart s p x) := by
  unfold State.setPart
  repeat any_goals first
    | with_reducible assumption
    | dsimp only
    | intro _ _ _
    | split
    | with_reducible apply Keeps.lit


theorem State.onPart_keeps (s : State) (p : Nat) (f : Part → Part) (hs : Keeps cq co s) : Keeps cq co (State.onPart s p f) := by
  unfold State.onPart
  repeat any_goals first
    | with_reducible assumption
    | with_reducible apply State.setPart_keeps
    | dsimp only
    | intro _ _ _
    | split


theorem State.onFunc_keeps (s : State) (n : Nat) (f : Func → Func) (hs : Keeps cq co s) : Keeps cq co (State.onFunc s n f) :=
  ⟨hs.queue, hs.mem, Map.put_wf _ _ _ hs.funcs, hs.cache, hs.fuses⟩

theorem State.onSlot_keeps (s : State) (p i : Nat) (f : Slot → Slot) (hs : Keeps cq co s) : Keeps cq co (State.onSlot s p i f) := by
  unfold State.onSlot
  repeat any_goals first
    | with_reducible assumption
    | with_reducible apply State.onPart_keeps
    | dsimp only
    | intro _ _ _
    | split


theorem State.onSeq_keeps (s : State) (p i : Nat) (f : Seq → Seq) (hs : Keeps cq co s) : Keeps cq co (State.onSeq s p i f) := by
  unfold State.onSeq
  repeat any_goals first
    | with_reducible assumption
    | with_reducible apply State.onPart_keeps
    | dsimp only
    | intro _ _ _
    | split


theorem State.onSet_keeps (s : State) (p psn : Nat) (f : PageSet → PageSet) (hs : Keeps cq co s) : Keeps cq co (State.onSet s p psn f) := by
  unfold State.onSet
  repeat any_goals first
    | with_reducible assumption
    | with_reducible apply State.onPart_keeps
    | dsimp only
    | intro _ _ _
    | split


theorem State.onAcct_keeps (s : State) (p : Nat) (f : Acct → Acct) (hs : Keeps cq co s) : Keeps cq co (State.onAcct s p f) := by
  unfold State.onAcct
  repeat any_goals first
    | with_reducible assumption
    | with_reducible apply State.onPart_keeps
    | dsimp only
    | intro _ _ _
    | split


theorem State.onFlash_keeps (s : State) (f : Flash → Flash) (hs : Keeps cq co s) : Keeps cq co (State.onFlash s f) := by
  unfold State.onFlash
  repeat any_goals first
    | with_reducible assumption
    | dsimp only
    | intro _ _ _
    | split
    | with_reducible apply Keeps.lit


theorem State.onPower_keeps (s : State) (f : Power → Power) (hs : Keeps cq co s) : Keeps cq co (State.onPower s f) := by
  unfold State.onPower
  repeat any_goals first
    | with_reducible assumption
    | dsimp only
    | intro _ _ _
    | split
    | with_reducible apply Keeps.lit


theorem State.onSched_keeps (s : State) (f : Sched → Sched) (hs : Keeps cq co s) : Keeps cq co (State.onSched s f) := by
  unfold State.onSched
  repeat any_goals first
    | with_reducible assumption
    | dsimp only
    | intro _ _ _
    | split
    | with_reducible apply Keeps.lit


theorem State.onHealth_keeps (s : State) (f : Health → Health) (hs : Keeps cq co s) : Keeps cq co (State.onHealth s f) := by
  unfold State.onHealth
  repeat any_goals first
    | with_reducible assumption
    | dsimp only
    | intro _ _ _
    | split
    | with_reducible apply Keeps.lit


theorem State.onFabric_keeps (s : State) (f : Fabric → Fabric) (hs : Keeps cq co s) : Keeps cq co (State.onFabric s f) := by
  unfold State.onFabric
  repeat any_goals first
    | with_reducible assumption
    | dsimp only
    | intro _ _ _
    | split
    | with_reducible apply Keeps.lit


/-- A change of Oxsis that loses no fuse. -/
theorem State.onOxs_keeps (s : State) (f : Oxsis → Oxsis) (hf : FusesFrom s.oxs (f s.oxs)) (hs : Keeps cq co s) :
    Keeps cq co (State.onOxs s f) :=
  ⟨hs.queue, hs.mem, hs.funcs, hs.cache, hs.fuses.trans hf⟩

theorem State.onPins_keeps (s : State) (f : Pins → Pins) (hs : Keeps cq co s) : Keeps cq co (State.onPins s f) := by
  unfold State.onPins
  repeat any_goals first
    | with_reducible assumption
    | dsimp only
    | intro _ _ _
    | split
    | with_reducible apply Keeps.lit


theorem State.hold_keeps (s : State) (i : Instr) (hs : Keeps cq co s) : Keeps cq co (State.hold s i) := by
  unfold State.hold
  repeat any_goals first
    | with_reducible assumption
    | dsimp only
    | intro _ _ _
    | split
    | with_reducible apply Keeps.lit


theorem State.access_keeps (s : State) (i : Instr) (f : State → State) (hs : Keeps cq co s) (hf : ∀ t : State, Keeps cq co t → Keeps cq co (f t)) : Keeps cq co (State.access s i f) := by
  unfold State.access
  repeat any_goals first
    | with_reducible assumption
    | with_reducible apply State.hold_keeps
    | with_reducible refine hf _ ?_
    | dsimp only
    | intro _ _ _
    | split


theorem State.mailbox_keeps (s : State) (via : OxsVia) (i : Instr) (f : State → State) (hs : Keeps cq co s) (hf : ∀ t : State, Keeps cq co t → Keeps cq co (f t)) : Keeps cq co (State.mailbox s via i f) := by
  unfold State.mailbox
  repeat any_goals first
    | with_reducible assumption
    | with_reducible apply State.access_keeps
    | with_reducible refine hf _ ?_
    | dsimp only
    | intro _ _ _
    | split


theorem State.draw_keeps (s : State) (hs : Keeps cq co s) : Keeps cq co (State.draw s).2 := by
  unfold State.draw
  repeat any_goals first
    | with_reducible assumption
    | dsimp only
    | intro _ _ _
    | split
    | with_reducible apply Keeps.lit


theorem State.draw_keeps_eq {s : State} {t : State} {a} (e : State.draw s = (a, t)) (hs : Keeps cq co s) : Keeps cq co t := by
  have k := State.draw_keeps s hs
  rw [e] at k
  exact k

theorem State.land_keeps (s : State) (fn addr : Nat) (b : List Byte) (hs : Keeps cq co s) : Keeps cq co (State.land s fn addr b) := by
  have h : Keeps cq co { s with hostMem := Memory.writeBytes s.hostMem addr b } :=
    ⟨hs.queue, Memory.writeBytes_wf _ _ _ hs.mem, hs.funcs, hs.cache, hs.fuses⟩
  unfold State.land
  dsimp only
  split
  · exact State.onAcct_keeps _ _ _ h
  · exact h

theorem State.perform_keeps (s : State) (w : OutWrite) (hs : Keeps cq co s) : Keeps cq co (State.perform s w) := by
  unfold State.perform
  repeat any_goals first
    | with_reducible assumption
    | with_reducible apply State.land_keeps
    | with_reducible apply State.draw_keeps
    | dsimp only
    | intro _ _ _
    | split
    | with_reducible apply Keeps.lit


theorem State.issue_keeps (s : State) (w : OutWrite) (hs : Keeps cq co s) : Keeps cq co (State.issue s w) := by
  unfold State.issue
  repeat any_goals first
    | with_reducible assumption
    | with_reducible apply State.perform_keeps
    | with_reducible apply State.draw_keeps
    | dsimp only
    | intro _ _ _
    | split
    | with_reducible apply Keeps.lit


theorem State.drainOut_keeps   : ∀ (v0 : Nat) (v1 : State), Keeps cq co v1 → Keeps cq co (State.drainOut v0 v1) := by
  intro v0
  induction v0 with
  | zero =>
    intro v1 hv1
    unfold State.drainOut
    repeat any_goals first
      | with_reducible assumption
      | with_reducible apply State.perform_keeps
      | with_reducible apply State.draw_keeps
      | dsimp only
      | intro _ _ _
      | split
      | with_reducible apply Keeps.lit
  | succ n ih =>
    intro v1 hv1
    unfold State.drainOut
    repeat any_goals first
      | assumption
      | with_reducible apply ih
      | with_reducible apply State.perform_keeps
      | with_reducible apply State.draw_keeps
      | dsimp only
      | intro _ _ _
      | split
      | with_reducible apply Keeps.lit


theorem State.onEq_keeps (s : State) (fn q : Nat) (f : EventQueue → EventQueue) (hs : Keeps cq co s) : Keeps cq co (State.onEq s fn q f) := by
  unfold State.onEq
  repeat any_goals first
    | with_reducible assumption
    | with_reducible apply State.onPart_keeps
    | with_reducible apply State.draw_keeps
    | dsimp only
    | intro _ _ _
    | split
    | with_reducible apply Keeps.lit


theorem setVector_keeps (s : State) (fn v : Nat) (x : Vector16) (hs : Keeps cq co s) : Keeps cq co (setVector s fn v x) := by
  unfold setVector
  repeat any_goals first
    | with_reducible assumption
    | with_reducible apply State.onFunc_keeps
    | with_reducible apply State.draw_keeps
    | dsimp only
    | intro _ _ _
    | split
    | with_reducible apply Keeps.lit


theorem sendMessage_keeps (s : State) (fn v : Nat) (hs : Keeps cq co s) : Keeps cq co (sendMessage s fn v) := by
  unfold sendMessage
  repeat any_goals first
    | with_reducible assumption
    | with_reducible apply setVector_keeps
    | with_reducible apply State.issue_keeps
    | with_reducible apply State.draw_keeps
    | dsimp only
    | intro _ _ _
    | split
    | with_reducible apply Keeps.lit


theorem signalIfDue_keeps (s : State) (fn q : Nat) (hs : Keeps cq co s) : Keeps cq co (signalIfDue s fn q) := by
  unfold signalIfDue
  repeat any_goals first
    | with_reducible assumption
    | with_reducible apply sendMessage_keeps
    | with_reducible apply State.onEq_keeps
    | with_reducible apply State.draw_keeps
    | dsimp only
    | intro _ _ _
    | split
    | with_reducible apply Keeps.lit


theorem writeRecord_keeps (s : State) (fn q : Nat) (b : List Byte) (cmd : Option CmdRef) (hs : Keeps cq co s) : Keeps cq co (writeRecord s fn q b cmd) := by
  unfold writeRecord
  repeat any_goals first
    | with_reducible assumption
    | with_reducible apply State.issue_keeps
    | with_reducible apply State.onEq_keeps
    | with_reducible apply signalIfDue_keeps
    | with_reducible apply State.draw_keeps
    | dsimp only
    | intro _ _ _
    | split
    | with_reducible apply Keeps.lit


theorem postRaw_keeps (s : State) (fn q : Nat) (raw : List Byte) (cmd : Option CmdRef) (hs : Keeps cq co s) : Keeps cq co (postRaw s fn q raw cmd) := by
  unfold postRaw
  repeat any_goals first
    | with_reducible assumption
    | with_reducible apply State.onEq_keeps
    | with_reducible apply writeRecord_keeps
    | with_reducible apply State.draw_keeps
    | dsimp only
    | intro _ _ _
    | split
    | with_reducible apply Keeps.lit


theorem postRecord_keeps (s : State) (fn q : Nat) (r : Record) (cmd : Option CmdRef) (hs : Keeps cq co s) : Keeps cq co (postRecord s fn q r cmd) := by
  unfold postRecord
  repeat any_goals first
    | with_reducible assumption
    | with_reducible apply postRaw_keeps
    | with_reducible apply State.draw_keeps
    | dsimp only
    | intro _ _ _
    | split


theorem deliverOverflow_keeps (fn q : Nat)  : ∀ (v0 : Nat) (v1 : State), Keeps cq co v1 → Keeps cq co (deliverOverflow fn q v0 v1) := by
  intro v0
  induction v0 with
  | zero =>
    intro v1 hv1
    unfold deliverOverflow
    repeat any_goals first
      | with_reducible assumption
      | with_reducible apply writeRecord_keeps
      | with_reducible apply State.onEq_keeps
      | with_reducible apply State.draw_keeps
      | dsimp only
      | intro _ _ _
      | split
  | succ n ih =>
    intro v1 hv1
    unfold deliverOverflow
    repeat any_goals first
      | assumption
      | with_reducible apply ih
      | with_reducible apply writeRecord_keeps
      | with_reducible apply State.onEq_keeps
      | with_reducible apply State.draw_keeps
      | dsimp only
      | intro _ _ _
      | split


theorem logError_keeps (s : State) (r : ErrRecord) (hs : Keeps cq co s) : Keeps cq co (logError s r) := by
  unfold logError
  repeat any_goals first
    | with_reducible assumption
    | with_reducible apply State.onHealth_keeps
    | with_reducible apply State.draw_keeps
    | dsimp only
    | intro _ _ _
    | split
    | with_reducible apply Keeps.lit


theorem stall_keeps (s : State) (p cause us : Nat) (hs : Keeps cq co s) : Keeps cq co (stall s p cause us) := by
  unfold stall
  repeat any_goals first
    | with_reducible assumption
    | with_reducible apply State.onPart_keeps
    | with_reducible apply State.draw_keeps
    | dsimp only
    | intro _ _ _
    | split
    | with_reducible apply Keeps.lit


theorem stallFree_keeps (s : State) (p cause : Nat) (hs : Keeps cq co s) : Keeps cq co (stallFree s p cause) := by
  unfold stallFree
  repeat any_goals first
    | with_reducible assumption
    | with_reducible apply State.draw_keeps
    | with_reducible refine State.draw_keeps_eq ‹_› ?_
    | with_reducible apply stall_keeps
    | dsimp only
    | intro _ _ _
    | split


theorem countTier_keeps (s : State) (p tier : Nat) (write : Bool) (n : Nat) (hs : Keeps cq co s) : Keeps cq co (countTier s p tier write n) := by
  unfold countTier
  repeat any_goals first
    | with_reducible assumption
    | with_reducible apply State.onAcct_keeps
    | with_reducible apply State.draw_keeps
    | dsimp only
    | intro _ _ _
    | split
    | with_reducible apply Keeps.lit


theorem pcieIn_keeps (s : State) (p n : Nat) (hs : Keeps cq co s) : Keeps cq co (pcieIn s p n) := by
  unfold pcieIn
  repeat any_goals first
    | with_reducible assumption
    | with_reducible apply State.onAcct_keeps
    | with_reducible apply State.draw_keeps
    | dsimp only
    | intro _ _ _
    | split
    | with_reducible apply Keeps.lit


theorem hostIn_keeps (s : State) (c : CmdRef) (n : Nat) (hs : Keeps cq co s) : Keeps cq co (hostIn s c n) := by
  unfold hostIn
  repeat any_goals first
    | with_reducible assumption
    | with_reducible apply pcieIn_keeps
    | with_reducible apply State.onPart_keeps
    | with_reducible apply State.draw_keeps
    | dsimp only
    | intro _ _ _
    | split
    | with_reducible apply Keeps.lit


theorem t1Read_keeps (s : State) (p n : Nat) (hs : Keeps cq co s) : Keeps cq co (t1Read s p n) := by
  unfold t1Read
  repeat any_goals first
    | with_reducible assumption
    | with_reducible apply State.onAcct_keeps
    | with_reducible apply State.draw_keeps
    | dsimp only
    | intro _ _ _
    | split
    | with_reducible apply Keeps.lit


theorem t1Write_keeps (s : State) (p n : Nat) (hs : Keeps cq co s) : Keeps cq co (t1Write s p n) := by
  unfold t1Write
  repeat any_goals first
    | with_reducible assumption
    | with_reducible apply State.onAcct_keeps
    | with_reducible apply State.draw_keeps
    | dsimp only
    | intro _ _ _
    | split
    | with_reducible apply Keeps.lit


theorem chargeTile_keeps (s : State) (p quad hc : Nat) (snare lost : Bool) (hs : Keeps cq co s) : Keeps cq co (chargeTile s p quad hc snare lost) := by
  unfold chargeTile
  repeat any_goals first
    | with_reducible assumption
    | with_reducible apply State.onAcct_keeps
    | with_reducible apply State.draw_keeps
    | dsimp only
    | intro _ _ _
    | split
    | with_reducible apply Keeps.lit


theorem wakeDram_keeps (s : State) (p q : Nat) (hs : Keeps cq co s) : Keeps cq co (wakeDram s p q) := by
  unfold wakeDram
  repeat any_goals first
    | with_reducible assumption
    | with_reducible apply State.draw_keeps
    | with_reducible refine State.draw_keeps_eq ‹_› ?_
    | with_reducible apply stall_keeps
    | with_reducible apply State.onPower_keeps
    | dsimp only
    | intro _ _ _
    | split
    | with_reducible apply Keeps.lit


theorem useLine_keeps (s : State) (p line n : Nat) (dirty prefetch : Bool) (hs : Keeps cq co s) :
    Keeps cq co (useLine s p line n dirty prefetch) := by
  have put : ∀ (t : State) (u : Nat) (l : CacheLine), Keeps cq co t → Keeps cq co { t with uses := u, cache := Map.put t.cache line l } :=
    fun t u l h => Keeps.lit_cache (Map.put_wf _ _ _) h
  have del : ∀ (t : State) (v : Nat), Keeps cq co t → Keeps cq co { t with cache := Map.del t.cache v } :=
    fun t v h => Keeps.lit_cache (Map.del_wf _ _) h
  have read : ∀ t : State, Keeps cq co t → Keeps cq co (if prefetch || !dirty then t1Read t p 4096 else t) := by
    intro t h
    split
    · exact t1Read_keeps _ _ _ h
    · exact h
  have wake : Keeps cq co (if !prefetch && !dirty then wakeDram s p (frameQuad (line / 16)) else s) := by
    split
    · exact wakeDram_keeps _ _ _ hs
    · exact hs
  have evict : ∀ (t : State) (w : Nat) (m : List (Nat × CacheLine)), Keeps cq co t →
      Keeps cq co (if m.length < w then t
        else match leastBy (fun e : Nat × CacheLine => e.2.used) m with
          | none => t
          | some v => if v.2.dirty then t1Write { t with cache := Map.del t.cache v.1 } p 4096 else { t with cache := Map.del t.cache v.1 }) := by
    intro t w m h
    split
    · exact h
    · split
      · exact h
      · split
        · exact t1Write_keeps _ _ _ (del _ _ h)
        · exact del _ _ h
  unfold useLine
  dsimp only
  split
  · split
    · exact put _ _ _ hs
    · exact State.onAcct_keeps _ _ _ (put _ _ _ hs)
  · exact put _ _ _ (evict _ _ _ (read _ wake))

theorem touchDram_keeps (s : State) (p frame off n : Nat) (dirty prefetch : Bool) (hs : Keeps cq co s) : Keeps cq co (touchDram s p frame off n dirty prefetch) := by
  unfold touchDram
  repeat any_goals first
    | with_reducible assumption
    | with_reducible apply useLine_keeps
    | with_reducible apply State.draw_keeps
    | with_reducible apply foldl_keeps (Keeps cq co)
    | dsimp only
    | intro _ _ _
    | split
    | intro _ _


theorem dropLines_keeps (s : State) (p frame n : Nat) (hs : Keeps cq co s) : Keeps cq co (dropLines s p frame n) := by
  unfold dropLines
  repeat any_goals first
    | with_reducible assumption
    | with_reducible apply t1Write_keeps
    | with_reducible apply State.draw_keeps
    | dsimp only
    | intro _ _ _
    | split
    | with_reducible apply Keeps.lit
    | with_reducible refine Keeps.lit_cache (fun _ => rfl) ?_
    | with_reducible refine Keeps.lit_cache (Map.put_wf _ _ _) ?_
    | with_reducible refine Keeps.lit_cache (Map.del_wf _ _) ?_
    | with_reducible refine Keeps.lit_cache (Map.filter_wf _ _) ?_
    | with_reducible refine Keeps.lit_cache (Map.edit_wf _ _ _) ?_


theorem newObject_keeps (s : State) (p frame n : Nat) (data : List Byte) (hs : Keeps cq co s) : Keeps cq co (newObject s p frame n data) := by
  unfold newObject
  repeat any_goals first
    | with_reducible assumption
    | with_reducible apply dropLines_keeps
    | with_reducible apply t1Write_keeps
    | with_reducible apply State.onPart_keeps
    | with_reducible apply State.draw_keeps
    | dsimp only
    | intro _ _ _
    | split


theorem freeObject_keeps (s : State) (p frame : Nat) (hs : Keeps cq co s) : Keeps cq co (freeObject s p frame) := by
  unfold freeObject
  repeat any_goals first
    | with_reducible assumption
    | with_reducible apply dropLines_keeps
    | with_reducible apply State.onPart_keeps
    | with_reducible apply State.draw_keeps
    | dsimp only
    | intro _ _ _
    | split


end Sys2Proof.Machine
end

