-- ==== Sys2Proof/Laws/Keeps/Tables.lean ====
section
/-! SUPPORT. What the operations of Machine/Tables.lean keep. -/

namespace Sys2Proof.Machine

open Sys2Proof

variable {cq : List Instr} {co : Oxsis}

theorem trimTables_keeps (s : State) (p : Nat) (hs : Keeps cq co s) : Keeps cq co (trimTables s p) := by
  unfold trimTables
  repeat any_goals first
    | with_reducible assumption
    | with_reducible apply freeObject_keeps
    | with_reducible apply State.onPart_keeps
    | with_reducible apply State.draw_keeps
    | with_reducible apply foldl_keeps (Keeps cq co)
    | dsimp only
    | intro _ _ _
    | split
    | with_reducible apply Keeps.lit


theorem takeFrames_keeps_eq {p home : Nat} {l : List Nat} :
    ∀ {s t : State} {a : List Nat}, takeFrames p home l s = some (t, a) → Keeps cq co s → Keeps cq co t := by
  induction l with
  | nil =>
    intro s t a e hs
    cases e
    exact hs
  | cons n r ih =>
    intro s t a e hs
    unfold takeFrames at e
    generalize findFrames s (s.part p) home n = f at e
    cases f with
    | none => cases e
    | some f =>
      replace e : (match takeFrames p home r (newObject s p f n []) with
        | none => none
        | some t => some (t.1, f :: t.2)) = some (t, a) := e
      generalize k : takeFrames p home r (newObject s p f n []) = x at e
      cases x with
      | none => cases e
      | some x =>
        cases e
        exact ih (a := x.2) k (newObject_keeps _ _ _ _ _ hs)

theorem takeTables_keeps_eq {s : State} {p home slots descs : Nat} {t : State} (e : takeTables s p home slots descs = some t) (hs : Keeps cq co s) :
    Keeps cq co t := by
  unfold takeTables at e
  obtain ⟨r, k, rfl⟩ := Option.map_eq_some_iff.mp e
  exact State.onPart_keeps _ _ _ (takeFrames_keeps_eq (a := r.2) k hs)

theorem buildTables_keeps (s : State) (p : Nat) (hs : Keeps cq co s) : Keeps cq co (buildTables s p) := by
  unfold buildTables
  extract_lets
  split
  · exact hs
  next r k => exact State.onPart_keeps _ _ _ (takeFrames_keeps_eq (a := r.2) k hs)

end Sys2Proof.Machine
end

