-- ==== Sys2Proof/Laws/Keeps/Pages.lean ====
section
/-! SUPPORT. What the operations of Machine/Pages.lean keep. -/

namespace Sys2Proof.Machine

open Sys2Proof

variable {cq : List Instr} {co : Oxsis}

/-- Every state that an outcome carries keeps what the state before kept. -/
inductive HotEntryKeeps (q : List Instr) (o : Oxsis) : HotEntry → Prop
  | free : HotEntryKeeps q o (.free)
  | parked {t : State} {a1} (h : Keeps q o t) : HotEntryKeeps q o (.parked t a1)
  | none : HotEntryKeeps q o (.none)


theorem discardFlash_keeps (s : State) (p lfn : Nat) (hs : Keeps cq co s) : Keeps cq co (discardFlash s p lfn) := by
  unfold discardFlash
  repeat any_goals first
    | with_reducible assumption
    | with_reducible apply State.onPart_keeps
    | with_reducible apply State.draw_keeps
    | dsimp only
    | intro _ _ _
    | split
    | with_reducible apply Keeps.lit


theorem freeLoc_keeps (s : State) (p : Nat) (l : Loc) (hs : Keeps cq co s) : Keeps cq co (freeLoc s p l) := by
  unfold freeLoc
  repeat any_goals first
    | with_reducible assumption
    | with_reducible apply freeObject_keeps
    | with_reducible apply State.onPart_keeps
    | with_reducible apply discardFlash_keeps
    | with_reducible apply State.draw_keeps
    | dsimp only
    | intro _ _ _
    | split
    | with_reducible apply Keeps.lit


theorem releaseDest_keeps (s : State) (p : Nat) (m : Move) (hs : Keeps cq co s) : Keeps cq co (releaseDest s p m) := by
  unfold releaseDest
  repeat any_goals first
    | with_reducible assumption
    | with_reducible apply State.onPart_keeps
    | with_reducible apply State.onFlash_keeps
    | with_reducible apply freeLoc_keeps
    | with_reducible apply State.draw_keeps
    | dsimp only
    | intro _ _ _
    | split
    | with_reducible apply Keeps.lit


theorem abandonMove_keeps (s : State) (p id : Nat) (hs : Keeps cq co s) : Keeps cq co (abandonMove s p id) := by
  unfold abandonMove
  repeat any_goals first
    | with_reducible assumption
    | with_reducible apply releaseDest_keeps
    | with_reducible apply State.onPart_keeps
    | with_reducible apply State.onSet_keeps
    | with_reducible apply State.draw_keeps
    | dsimp only
    | intro _ _ _
    | split
    | with_reducible apply Keeps.lit


theorem abandonMoves_keeps (s : State) (p : Nat) (tk : Move → Bool) (hs : Keeps cq co s) : Keeps cq co (abandonMoves s p tk) := by
  unfold abandonMoves
  repeat any_goals first
    | with_reducible assumption
    | with_reducible apply abandonMove_keeps
    | with_reducible apply State.draw_keeps
    | with_reducible apply foldl_keeps (Keeps cq co)
    | dsimp only
    | intro _ _ _
    | split


theorem lowerSpec_keeps (s : State) (p : Nat) (tk : Tent) (hs : Keeps cq co s) : Keeps cq co (lowerSpec s p tk) := by
  unfold lowerSpec
  repeat any_goals first
    | with_reducible assumption
    | with_reducible apply State.onSeq_keeps
    | with_reducible apply State.draw_keeps
    | dsimp only
    | intro _ _ _
    | split
    | with_reducible apply Keeps.lit


theorem forgetTent_keeps (s : State) (p psn layer : Nat) (tk : Tent) (hs : Keeps cq co s) : Keeps cq co (forgetTent s p psn layer tk) := by
  unfold forgetTent
  repeat any_goals first
    | with_reducible assumption
    | with_reducible apply lowerSpec_keeps
    | with_reducible apply State.onSet_keeps
    | with_reducible apply State.draw_keeps
    | dsimp only
    | intro _ _ _
    | split
    | with_reducible apply Keeps.lit


theorem forgetTailTent_keeps (s : State) (p i layer : Nat) (tk : Tent) (hs : Keeps cq co s) : Keeps cq co (forgetTailTent s p i layer tk) := by
  unfold forgetTailTent
  repeat any_goals first
    | with_reducible assumption
    | with_reducible apply lowerSpec_keeps
    | with_reducible apply State.onSeq_keeps
    | with_reducible apply State.draw_keeps
    | dsimp only
    | intro _ _ _
    | split
    | with_reducible apply Keeps.lit


theorem dropTent_keeps (s : State) (p psn layer : Nat) (hs : Keeps cq co s) : Keeps cq co (dropTent s p psn layer) := by
  unfold dropTent
  repeat any_goals first
    | with_reducible assumption
    | with_reducible apply forgetTent_keeps
    | with_reducible apply freeObject_keeps
    | with_reducible apply State.draw_keeps
    | dsimp only
    | intro _ _ _
    | split


theorem dropTailTent_keeps (s : State) (p i layer : Nat) (hs : Keeps cq co s) : Keeps cq co (dropTailTent s p i layer) := by
  unfold dropTailTent
  repeat any_goals first
    | with_reducible assumption
    | with_reducible apply forgetTailTent_keeps
    | with_reducible apply freeObject_keeps
    | with_reducible apply State.draw_keeps
    | dsimp only
    | intro _ _ _
    | split


theorem dropRestTent_keeps (s : State) (p i : Nat) (hs : Keeps cq co s) : Keeps cq co (dropRestTent s p i) := by
  unfold dropRestTent
  repeat any_goals first
    | with_reducible assumption
    | with_reducible apply freeObject_keeps
    | with_reducible apply State.onSeq_keeps
    | with_reducible apply State.draw_keeps
    | dsimp only
    | intro _ _ _
    | split
    | with_reducible apply Keeps.lit


theorem bareSegment_keeps (s : State) (p n : Nat) (hs : Keeps cq co s) : Keeps cq co (bareSegment s p n) := by
  unfold bareSegment
  repeat any_goals first
    | with_reducible assumption
    | with_reducible apply abandonMoves_keeps
    | with_reducible apply freeLoc_keeps
    | with_reducible apply State.onPart_keeps
    | with_reducible apply State.draw_keeps
    | dsimp only
    | intro _ _ _
    | split
    | with_reducible apply Keeps.lit


theorem releaseSet_keeps (s : State) (p psn : Nat) (hs : Keeps cq co s) : Keeps cq co (releaseSet s p psn) := by
  unfold releaseSet
  repeat any_goals first
    | with_reducible assumption
    | with_reducible apply abandonMoves_keeps
    | with_reducible apply freeObject_keeps
    | with_reducible apply lowerSpec_keeps
    | with_reducible apply freeLoc_keeps
    | with_reducible apply trimTables_keeps
    | with_reducible apply bareSegment_keeps
    | with_reducible apply State.onPart_keeps
    | with_reducible apply State.draw_keeps
    | with_reducible apply foldl_keeps (Keeps cq co)
    | dsimp only
    | intro _ _ _
    | split
    | with_reducible apply Keeps.lit


theorem maybeRelease_keeps (s : State) (p psn : Nat) (hs : Keeps cq co s) : Keeps cq co (maybeRelease s p psn) := by
  unfold maybeRelease
  repeat any_goals first
    | with_reducible assumption
    | with_reducible apply releaseSet_keeps
    | with_reducible apply abandonMoves_keeps
    | with_reducible apply State.onSet_keeps
    | with_reducible apply State.draw_keeps
    | dsimp only
    | intro _ _ _
    | split
    | with_reducible apply Keeps.lit


theorem heatAbandons_keeps (s : State) (p psn heat : Nat) (hs : Keeps cq co s) : Keeps cq co (heatAbandons s p psn heat) := by
  unfold heatAbandons
  repeat any_goals first
    | with_reducible assumption
    | with_reducible apply abandonMoves_keeps
    | with_reducible apply State.draw_keeps
    | dsimp only
    | intro _ _ _
    | split


theorem pinSet_keeps (s : State) (p psn : Nat) (hs : Keeps cq co s) : Keeps cq co (pinSet s p psn).1 := by
  unfold pinSet
  repeat any_goals first
    | with_reducible assumption
    | with_reducible apply heatAbandons_keeps
    | with_reducible apply State.onSet_keeps
    | with_reducible apply State.draw_keeps
    | dsimp only
    | intro _ _ _
    | split
    | with_reducible apply Keeps.lit


theorem pinSet_keeps_eq {s : State} {p psn : Nat} {t : State} {a} (e : pinSet s p psn = (t, a)) (hs : Keeps cq co s) : Keeps cq co t := by
  have k := pinSet_keeps s p psn hs
  rw [e] at k
  exact k

theorem unpinSet_keeps (s : State) (p psn : Nat) (epoch : Bool) (hs : Keeps cq co s) : Keeps cq co (unpinSet s p psn epoch) := by
  unfold unpinSet
  repeat any_goals first
    | with_reducible assumption
    | with_reducible apply maybeRelease_keeps
    | with_reducible apply State.onSet_keeps
    | with_reducible apply State.draw_keeps
    | dsimp only
    | intro _ _ _
    | split


theorem unpinAll_keeps (s : State) (p : Nat) (l : List (Nat × Bool)) (hs : Keeps cq co s) : Keeps cq co (unpinAll s p l) := by
  unfold unpinAll
  repeat any_goals first
    | with_reducible assumption
    | with_reducible apply unpinSet_keeps
    | with_reducible apply State.draw_keeps
    | with_reducible apply foldl_keeps (Keeps cq co)
    | dsimp only
    | intro _ _ _
    | split


theorem addRef_keeps (s : State) (p psn : Nat) (hs : Keeps cq co s) : Keeps cq co (addRef s p psn) := by
  unfold addRef
  repeat any_goals first
    | with_reducible assumption
    | with_reducible apply State.onSet_keeps
    | with_reducible apply State.onPart_keeps
    | with_reducible apply State.draw_keeps
    | dsimp only
    | intro _ _ _
    | split
    | with_reducible apply Keeps.lit


theorem dropRef_keeps (s : State) (p psn : Nat) (hs : Keeps cq co s) : Keeps cq co (dropRef s p psn) := by
  unfold dropRef
  repeat any_goals first
    | with_reducible assumption
    | with_reducible apply State.onSet_keeps
    | with_reducible apply State.onPart_keeps
    | with_reducible apply maybeRelease_keeps
    | with_reducible apply State.draw_keeps
    | dsimp only
    | intro _ _ _
    | split
    | with_reducible apply Keeps.lit


theorem evictEntry_keeps (s : State) (p i : Nat) (hs : Keeps cq co s) : Keeps cq co (evictEntry s p i) := by
  unfold evictEntry
  repeat any_goals first
    | with_reducible assumption
    | with_reducible apply State.onPart_keeps
    | with_reducible apply maybeRelease_keeps
    | with_reducible apply State.onSet_keeps
    | with_reducible apply State.draw_keeps
    | dsimp only
    | intro _ _ _
    | split
    | with_reducible apply Keeps.lit


theorem flipLoc_keeps (s : State) (p psn layer : Nat) (l : Loc) (hs : Keeps cq co s) : Keeps cq co (flipLoc s p psn layer l) := by
  unfold flipLoc
  repeat any_goals first
    | with_reducible assumption
    | with_reducible apply State.onSet_keeps
    | with_reducible apply State.draw_keeps
    | dsimp only
    | intro _ _ _
    | split
    | with_reducible apply Keeps.lit


theorem releaseOld_keeps (s : State) (p psn : Nat) (hs : Keeps cq co s) : Keeps cq co (releaseOld s p psn) := by
  unfold releaseOld
  repeat any_goals first
    | with_reducible assumption
    | with_reducible apply freeLoc_keeps
    | with_reducible apply State.onSet_keeps
    | with_reducible apply State.draw_keeps
    | with_reducible apply foldl_keeps (Keeps cq co)
    | dsimp only
    | intro _ _ _
    | split
    | with_reducible apply Keeps.lit


theorem promote_keeps (s : State) (p psn layer : Nat) (hs : Keeps cq co s) : Keeps cq co (promote s p psn layer) := by
  unfold promote
  repeat any_goals first
    | with_reducible assumption
    | with_reducible apply abandonMoves_keeps
    | with_reducible apply forgetTent_keeps
    | with_reducible apply flipLoc_keeps
    | with_reducible apply State.onPart_keeps
    | with_reducible apply State.draw_keeps
    | dsimp only
    | intro _ _ _
    | split
    | with_reducible apply Keeps.lit


theorem promoteTail_keeps (s : State) (p i layer : Nat) (hs : Keeps cq co s) : Keeps cq co (promoteTail s p i layer) := by
  unfold promoteTail
  repeat any_goals first
    | with_reducible assumption
    | with_reducible apply freeLoc_keeps
    | with_reducible apply forgetTailTent_keeps
    | with_reducible apply State.onSeq_keeps
    | with_reducible apply State.draw_keeps
    | dsimp only
    | intro _ _ _
    | split
    | with_reducible apply Keeps.lit


theorem dropTents_keeps (s : State) (p i : Nat) (hs : Keeps cq co s) : Keeps cq co (dropTents s p i).1 := by
  unfold dropTents
  repeat any_goals first
    | with_reducible assumption
    | with_reducible apply dropTent_keeps
    | with_reducible apply dropTailTent_keeps
    | with_reducible apply dropRestTent_keeps
    | with_reducible apply State.onSeq_keeps
    | with_reducible apply State.draw_keeps
    | with_reducible apply foldl_keeps (Keeps cq co)
    | dsimp only
    | intro _ _ _
    | split
    | with_reducible apply Keeps.lit


theorem dropTents_keeps_eq {s : State} {p i : Nat} {t : State} {a} (e : dropTents s p i = (t, a)) (hs : Keeps cq co s) : Keeps cq co t := by
  have k := dropTents_keeps s p i hs
  rw [e] at k
  exact k

theorem promoteAll_keeps (s : State) (p i : Nat) (hs : Keeps cq co s) : Keeps cq co (promoteAll s p i).1 := by
  unfold promoteAll
  repeat any_goals first
    | with_reducible assumption
    | with_reducible apply promote_keeps
    | with_reducible apply promoteTail_keeps
    | with_reducible apply State.onSeq_keeps
    | with_reducible apply State.draw_keeps
    | with_reducible apply foldl_keeps (Keeps cq co)
    | dsimp only
    | intro _ _ _
    | split
    | with_reducible apply Keeps.lit


theorem promoteAll_keeps_eq {s : State} {p i : Nat} {t : State} {a} (e : promoteAll s p i = (t, a)) (hs : Keeps cq co s) : Keeps cq co t := by
  have k := promoteAll_keeps s p i hs
  rw [e] at k
  exact k

theorem updateOwn_keeps (s : State) (p i hl : Nat) (hs : Keeps cq co s) : Keeps cq co (updateOwn s p i hl) := by
  unfold updateOwn
  repeat any_goals first
    | with_reducible assumption
    | with_reducible apply State.onSet_keeps
    | with_reducible apply State.draw_keeps
    | with_reducible apply foldl_keeps (Keeps cq co)
    | dsimp only
    | intro _ _ _
    | split


theorem parkSeq_keeps (s : State) (p i : Nat) (hs : Keeps cq co s) : Keeps cq co (parkSeq s p i) := by
  unfold parkSeq
  repeat any_goals first
    | with_reducible assumption
    | with_reducible apply updateOwn_keeps
    | with_reducible apply State.onSeq_keeps
    | with_reducible apply State.draw_keeps
    | dsimp only
    | intro _ _ _
    | split
    | with_reducible apply Keeps.lit


theorem useSeq_keeps (s : State) (p i : Nat) (hs : Keeps cq co s) : Keeps cq co (useSeq s p i) := by
  unfold useSeq
  repeat any_goals first
    | with_reducible assumption
    | with_reducible apply State.onSeq_keeps
    | with_reducible apply State.draw_keeps
    | dsimp only
    | intro _ _ _
    | split
    | with_reducible apply Keeps.lit


theorem takeHot_keeps (s : State) (p : Nat) (hs : Keeps cq co s) : HotEntryKeeps cq co (takeHot s p) := by
  unfold takeHot
  repeat any_goals first
    | with_reducible assumption
    | with_reducible apply HotEntryKeeps.free
    | with_reducible apply HotEntryKeeps.parked
    | with_reducible apply HotEntryKeeps.none
    | with_reducible apply parkSeq_keeps
    | with_reducible apply State.draw_keeps
    | dsimp only
    | intro _ _ _
    | split


theorem takeHot_keeps_eq_parked {s : State} {p : Nat} {t : State} {a0} (e : takeHot s p = .parked t a0) (hs : Keeps cq co s) : Keeps cq co t := by
  have k := takeHot_keeps s p hs
  rw [e] at k
  cases k
  assumption

theorem unpark_keeps (s : State) (p i : Nat) (hs : Keeps cq co s) : Keeps cq co (unpark s p i) := by
  unfold unpark
  repeat any_goals first
    | with_reducible assumption
    | with_reducible apply updateOwn_keeps
    | with_reducible apply abandonMoves_keeps
    | with_reducible apply State.onSeq_keeps
    | with_reducible apply State.draw_keeps
    | dsimp only
    | intro _ _ _
    | split
    | with_reducible apply Keeps.lit


end Sys2Proof.Machine
end

