-- ==== Sys2Proof/Laws/Keeps/Sealed.lean ====
section
/-! SUPPORT. What the operations of Machine/Sealed.lean keep. -/

namespace Sys2Proof.Machine

open Sys2Proof

variable {cq : List Instr} {co : Oxsis}

theorem writeRegion_keeps (s : State) (p r f bytes : Nat) (bad : List Nat) (data : List Byte) (hs : Keeps cq co s) :
    Keeps cq co (writeRegion s p r f bytes bad data) := by
  unfold writeRegion
  exact Keeps.lit_mem (fun h => Memory.writeBytes_wf _ _ _ (Memory.writeBytes_wf _ _ _ h)) hs

end Sys2Proof.Machine
end

