-- ==== Sys2Proof/Laws/Keeps/Flow.lean ====
section
/-! SUPPORT. What the operations of Machine/Flow.lean keep. -/

namespace Sys2Proof.Machine

open Sys2Proof

variable {cq : List Instr} {co : Oxsis}

/-- Every state that an outcome carries keeps what the state before kept. -/
inductive CommitKeeps (q : List Instr) (o : Oxsis) : Commit → Prop
  | hold {t : State} (h : Keeps q o t) : CommitKeeps q o (.hold t)
  | kill {t : State} (h : Keeps q o t) : CommitKeeps q o (.kill t)
  | reject {t : State} {a1} (h : Keeps q o t) : CommitKeeps q o (.reject t a1)
  | done {t : State} {a1} {a2} {a3} {a4} (h : Keeps q o t) : CommitKeeps q o (.done t a1 a2 a3 a4)


/-- Every state that an outcome carries keeps what the state before kept. -/
inductive StartKeeps (q : List Instr) (o : Oxsis) : Start → Prop
  | reject {t : State} {a1} (h : Keeps q o t) : StartKeeps q o (.reject t a1)
  | go {t : State} (h : Keeps q o t) : StartKeeps q o (.go t)


theorem State.onFlight_keeps (s : State) (c : CmdRef) (g : Flight → Flight) (hs : Keeps cq co s) : Keeps cq co (State.onFlight s c g) := by
  unfold State.onFlight
  repeat any_goals first
    | with_reducible assumption
    | with_reducible apply State.onSlot_keeps
    | with_reducible apply State.draw_keeps
    | dsimp only
    | intro _ _ _
    | split
    | with_reducible apply Keeps.lit


theorem setStage_keeps (s : State) (c : CmdRef) (st : Stage) (hs : Keeps cq co s) : Keeps cq co (setStage s c st) := by
  unfold setStage
  repeat any_goals first
    | with_reducible assumption
    | with_reducible apply State.onFlight_keeps
    | with_reducible apply State.draw_keeps
    | dsimp only
    | intro _ _ _
    | split
    | with_reducible apply Keeps.lit


theorem setPlan_keeps (s : State) (c : CmdRef) (p : Plan) (hs : Keeps cq co s) : Keeps cq co (setPlan s c p) := by
  unfold setPlan
  repeat any_goals first
    | with_reducible assumption
    | with_reducible apply State.onFlight_keeps
    | with_reducible apply State.draw_keeps
    | dsimp only
    | intro _ _ _
    | split
    | with_reducible apply Keeps.lit


theorem checkWaits_keeps (s : State) (p : Nat) (hs : Keeps cq co s) : Keeps cq co (checkWaits s p) := by
  unfold checkWaits
  repeat any_goals first
    | with_reducible assumption
    | with_reducible apply State.onPart_keeps
    | with_reducible apply State.draw_keeps
    | dsimp only
    | intro _ _ _
    | split
    | with_reducible apply Keeps.lit


theorem setCounter_keeps (s : State) (p c : Nat) (v : BitVec 64) (hs : Keeps cq co s) : Keeps cq co (setCounter s p c v) := by
  unfold setCounter
  repeat any_goals first
    | with_reducible assumption
    | with_reducible apply checkWaits_keeps
    | with_reducible apply State.onPart_keeps
    | with_reducible apply State.draw_keeps
    | dsimp only
    | intro _ _ _
    | split
    | with_reducible apply Keeps.lit


theorem addCounter_keeps (s : State) (p c n : Nat) (hs : Keeps cq co s) : Keeps cq co (addCounter s p c n) := by
  unfold addCounter
  repeat any_goals first
    | with_reducible assumption
    | with_reducible apply setCounter_keeps
    | with_reducible apply State.draw_keeps
    | dsimp only
    | intro _ _ _
    | split


theorem raiseSignal_keeps (s : State) (c : CmdRef) (w : List Byte) (hs : Keeps cq co s) : Keeps cq co (raiseSignal s c w) := by
  unfold raiseSignal
  repeat any_goals first
    | with_reducible assumption
    | with_reducible apply addCounter_keeps
    | with_reducible apply State.draw_keeps
    | dsimp only
    | intro _ _ _
    | split


theorem fillNext_keeps (s : State) (hs : Keeps cq co s) : Keeps cq co (fillNext s) := by
  unfold fillNext
  repeat any_goals first
    | with_reducible assumption
    | with_reducible apply State.onSched_keeps
    | with_reducible apply State.draw_keeps
    | with_reducible apply foldl_keeps (Keeps cq co)
    | dsimp only
    | intro _ _ _
    | split


theorem removeUnits_keeps (s : State) (lost : Bool) (tk : Unit → Bool) (hs : Keeps cq co s) : Keeps cq co (removeUnits s lost tk) := by
  unfold removeUnits
  repeat any_goals first
    | with_reducible assumption
    | with_reducible apply State.draw_keeps
    | with_reducible refine State.draw_keeps_eq ‹_› ?_
    | with_reducible apply chargeTile_keeps
    | with_reducible apply abandonMoves_keeps
    | with_reducible apply fillNext_keeps
    | with_reducible apply State.onSched_keeps
    | with_reducible apply foldl_keeps (Keeps cq co)
    | dsimp only
    | intro _ _ _
    | split
    | with_reducible apply Keeps.lit


theorem noteCause_keeps (s : State) (c : CmdRef) (hs : Keeps cq co s) : Keeps cq co (noteCause s c) := by
  unfold noteCause
  repeat any_goals first
    | with_reducible assumption
    | with_reducible apply State.onFlight_keeps
    | with_reducible apply stallFree_keeps
    | with_reducible apply State.draw_keeps
    | dsimp only
    | intro _ _ _
    | split
    | with_reducible apply Keeps.lit


theorem endCause_keeps (s : State) (p : Nat) (f : Flight) (hs : Keeps cq co s) : Keeps cq co (endCause s p f) := by
  unfold endCause
  repeat any_goals first
    | with_reducible assumption
    | with_reducible apply stallFree_keeps
    | with_reducible apply State.draw_keeps
    | dsimp only
    | intro _ _ _
    | split


theorem freeOrphans_keeps (s : State) (p : Nat) (hs : Keeps cq co s) : Keeps cq co (freeOrphans s p) := by
  unfold freeOrphans
  repeat any_goals first
    | with_reducible assumption
    | with_reducible apply freeLoc_keeps
    | with_reducible apply State.onPart_keeps
    | with_reducible apply State.draw_keeps
    | with_reducible apply foldl_keeps (Keeps cq co)
    | dsimp only
    | intro _ _ _
    | split
    | with_reducible apply Keeps.lit


theorem unmark_keeps (s : State) (c : CmdRef) (f : Flight) (hs : Keeps cq co s) : Keeps cq co (unmark s c f) := by
  unfold unmark
  repeat any_goals first
    | with_reducible assumption
    | with_reducible apply State.onPart_keeps
    | with_reducible apply State.onSlot_keeps
    | with_reducible apply State.draw_keeps
    | dsimp only
    | intro _ _ _
    | split
    | with_reducible apply Keeps.lit


theorem abandonPackets_keeps (s : State) (c : CmdRef) (g : Nat → Bool) (hs : Keeps cq co s) : Keeps cq co (abandonPackets s c g) := by
  unfold abandonPackets
  repeat any_goals first
    | with_reducible assumption
    | with_reducible apply State.onPart_keeps
    | with_reducible apply State.onSched_keeps
    | with_reducible apply State.draw_keeps
    | with_reducible apply foldl_keeps (Keeps cq co)
    | dsimp only
    | intro _ _ _
    | split
    | with_reducible apply Keeps.lit


theorem releaseRun_keeps (s : State) (kill : Bool) (c : CmdRef) (f : Flight) (hs : Keeps cq co s) : Keeps cq co (releaseRun s kill c f) := by
  unfold releaseRun
  repeat any_goals first
    | with_reducible assumption
    | with_reducible apply abandonPackets_keeps
    | with_reducible apply unmark_keeps
    | with_reducible apply removeUnits_keeps
    | with_reducible apply freeObject_keeps
    | with_reducible apply abandonMoves_keeps
    | with_reducible apply unpinAll_keeps
    | with_reducible apply endCause_keeps
    | with_reducible apply trimTables_keeps
    | with_reducible apply State.onFlight_keeps
    | with_reducible apply State.draw_keeps
    | with_reducible apply foldl_keeps (Keeps cq co)
    | dsimp only
    | intro _ _ _
    | split
    | with_reducible apply Keeps.lit


theorem returnToRing_keeps (s : State) (c : CmdRef) (f : Flight) (hs : Keeps cq co s) : Keeps cq co (returnToRing s c f) := by
  unfold returnToRing
  repeat any_goals first
    | with_reducible assumption
    | with_reducible apply State.onPart_keeps
    | with_reducible apply State.onSlot_keeps
    | with_reducible apply State.draw_keeps
    | dsimp only
    | intro _ _ _
    | split
    | with_reducible apply Keeps.lit


theorem afterKill_keeps (s : State) (c : CmdRef) (hs : Keeps cq co s) : Keeps cq co (afterKill s c) := by
  unfold afterKill
  repeat any_goals first
    | with_reducible assumption
    | with_reducible apply State.onFlight_keeps
    | with_reducible apply returnToRing_keeps
    | with_reducible apply State.onSlot_keeps
    | with_reducible apply setStage_keeps
    | with_reducible apply State.draw_keeps
    | dsimp only
    | intro _ _ _
    | split
    | with_reducible apply Keeps.lit


theorem killCommand_keeps (s : State) (c : CmdRef) (hs : Keeps cq co s) : Keeps cq co (killCommand s c) := by
  unfold killCommand
  repeat any_goals first
    | with_reducible assumption
    | with_reducible apply releaseRun_keeps
    | with_reducible apply afterKill_keeps
    | with_reducible apply State.onAcct_keeps
    | with_reducible apply State.draw_keeps
    | dsimp only
    | intro _ _ _
    | split
    | with_reducible apply Keeps.lit


theorem stopHeld_keeps (s : State) (c : CmdRef) (hs : Keeps cq co s) : Keeps cq co (stopHeld s c) := by
  unfold stopHeld
  repeat any_goals first
    | with_reducible assumption
    | with_reducible apply afterKill_keeps
    | with_reducible apply releaseRun_keeps
    | with_reducible apply killCommand_keeps
    | with_reducible apply State.draw_keeps
    | dsimp only
    | intro _ _ _
    | split


theorem setElem_keeps (s : State) (c : CmdRef) (k : Nat) (g : Elem → Elem) (hs : Keeps cq co s) : Keeps cq co (setElem s c k g) := by
  unfold setElem
  repeat any_goals first
    | with_reducible assumption
    | with_reducible apply State.onFlight_keeps
    | with_reducible apply State.draw_keeps
    | dsimp only
    | intro _ _ _
    | split
    | with_reducible apply Keeps.lit


theorem settleCommand_keeps (s : State) (c : CmdRef) (hs : Keeps cq co s) : Keeps cq co (settleCommand s c) := by
  unfold settleCommand
  repeat any_goals first
    | with_reducible assumption
    | with_reducible apply noteCause_keeps
    | with_reducible apply State.onFlight_keeps
    | with_reducible apply State.draw_keeps
    | dsimp only
    | intro _ _ _
    | split


theorem failElem_keeps (s : State) (c : CmdRef) (k st : Nat) (hs : Keeps cq co s) : Keeps cq co (failElem s c k st) := by
  unfold failElem
  repeat any_goals first
    | with_reducible assumption
    | with_reducible apply removeUnits_keeps
    | with_reducible apply freeObject_keeps
    | with_reducible apply setElem_keeps
    | with_reducible apply State.draw_keeps
    | with_reducible apply foldl_keeps (Keeps cq co)
    | dsimp only
    | intro _ _ _
    | split
    | with_reducible apply Keeps.lit


theorem refixElem_keeps (s : State) (c : CmdRef) (k x : Nat) (hs : Keeps cq co s) : Keeps cq co (refixElem s c k x) := by
  unfold refixElem
  repeat any_goals first
    | with_reducible assumption
    | with_reducible apply removeUnits_keeps
    | with_reducible apply freeObject_keeps
    | with_reducible apply setElem_keeps
    | with_reducible apply State.draw_keeps
    | with_reducible apply foldl_keeps (Keeps cq co)
    | dsimp only
    | intro _ _ _
    | split
    | with_reducible apply Keeps.lit


theorem releaseElem_keeps (s : State) (c : CmdRef) (k : Nat) (r : Released) (hs : Keeps cq co s) : Keeps cq co (releaseElem s c k r) := by
  unfold releaseElem
  repeat any_goals first
    | with_reducible assumption
    | with_reducible apply failElem_keeps
    | with_reducible apply refixElem_keeps
    | with_reducible apply State.draw_keeps
    | dsimp only
    | intro _ _ _
    | split


theorem releaseReader_keeps (seq committed : Nat) (s : State) (c : CmdRef) (hs : Keeps cq co s) : Keeps cq co (releaseReader seq committed s c) := by
  unfold releaseReader
  repeat any_goals first
    | with_reducible assumption
    | with_reducible apply killCommand_keeps
    | with_reducible apply noteCause_keeps
    | with_reducible apply releaseElem_keeps
    | with_reducible apply State.onFlight_keeps
    | with_reducible apply State.draw_keeps
    | with_reducible apply foldl_keeps (Keeps cq co)
    | dsimp only
    | intro _ _ _
    | split


theorem releaseReaders_keeps (s : State) (p seq committed : Nat) (own : CmdRef) (hs : Keeps cq co s) : Keeps cq co (releaseReaders s p seq committed own) := by
  unfold releaseReaders
  repeat any_goals first
    | with_reducible assumption
    | with_reducible apply releaseReader_keeps
    | with_reducible apply State.draw_keeps
    | with_reducible apply foldl_keeps (Keeps cq co)
    | dsimp only
    | intro _ _ _
    | split


theorem forgetReservations_keeps (s : State) (p : Nat) (tk : Nat × Nat → Bool) (hs : Keeps cq co s) : Keeps cq co (forgetReservations s p tk) := by
  unfold forgetReservations
  repeat any_goals first
    | with_reducible assumption
    | with_reducible apply State.onPart_keeps
    | with_reducible apply State.draw_keeps
    | dsimp only
    | intro _ _ _
    | split
    | with_reducible apply Keeps.lit


theorem releaseReservation_keeps (s : State) (p : Nat) (own : CmdRef) (r : Nat × Nat) (hs : Keeps cq co s) : Keeps cq co (releaseReservation s p own r) := by
  unfold releaseReservation
  repeat any_goals first
    | with_reducible assumption
    | with_reducible apply State.onSeq_keeps
    | with_reducible apply releaseReaders_keeps
    | with_reducible apply forgetReservations_keeps
    | with_reducible apply State.draw_keeps
    | dsimp only
    | intro _ _ _
    | split
    | with_reducible apply Keeps.lit


theorem releaseReservations_keeps (s : State) (c : CmdRef) (l : List (Nat × Nat)) (hs : Keeps cq co s) : Keeps cq co (releaseReservations s c l) := by
  unfold releaseReservations
  repeat any_goals first
    | with_reducible assumption
    | with_reducible apply releaseReservation_keeps
    | with_reducible apply State.draw_keeps
    | with_reducible apply foldl_keeps (Keeps cq co)
    | dsimp only
    | intro _ _ _
    | split


theorem issueOutputs_keeps (s : State) (c : CmdRef) (outs : List (Nat × List Byte)) (hs : Keeps cq co s) : Keeps cq co (issueOutputs s c outs) := by
  unfold issueOutputs
  repeat any_goals first
    | with_reducible assumption
    | with_reducible apply State.issue_keeps
    | with_reducible apply State.draw_keeps
    | with_reducible apply foldl_keeps (Keeps cq co)
    | dsimp only
    | intro _ _ _
    | split


theorem onDisable_keeps (s : State) (p : Nat) (g : Disable → Disable) (hs : Keeps cq co s) : Keeps cq co (onDisable s p g) := by
  unfold onDisable
  repeat any_goals first
    | with_reducible assumption
    | with_reducible apply State.onFunc_keeps
    | with_reducible apply State.draw_keeps
    | dsimp only
    | intro _ _ _
    | split
    | with_reducible apply Keeps.lit


theorem deliver_keeps (s : State) (c : CmdRef) (q : Nat) (r : Record) (outs : List (Nat × List Byte)) (committed : Bool) (hs : Keeps cq co s) : Keeps cq co (deliver s c q r outs committed) := by
  unfold deliver
  repeat any_goals first
    | with_reducible assumption
    | with_reducible apply postRecord_keeps
    | with_reducible apply issueOutputs_keeps
    | with_reducible apply onDisable_keeps
    | with_reducible apply State.draw_keeps
    | dsimp only
    | intro _ _ _
    | split
    | with_reducible apply Keeps.lit


theorem leaveWindow_keeps (s : State) (c : CmdRef) (hs : Keeps cq co s) : Keeps cq co (leaveWindow s c) := by
  unfold leaveWindow
  repeat any_goals first
    | with_reducible assumption
    | with_reducible apply State.onSlot_keeps
    | with_reducible apply trimTables_keeps
    | with_reducible apply freeOrphans_keeps
    | with_reducible apply State.draw_keeps
    | dsimp only
    | intro _ _ _
    | split
    | with_reducible apply Keeps.lit


theorem endCommitted_keeps (s : State) (c : CmdRef) (f : Flight) (status r0 r1 : Nat) (outs : List (Nat × List Byte)) (hs : Keeps cq co s) : Keeps cq co (endCommitted s c f status r0 r1 outs) := by
  unfold endCommitted
  repeat any_goals first
    | with_reducible assumption
    | with_reducible apply State.onAcct_keeps
    | with_reducible apply leaveWindow_keeps
    | with_reducible apply endCause_keeps
    | with_reducible apply unpinAll_keeps
    | with_reducible apply deliver_keeps
    | with_reducible apply State.draw_keeps
    | dsimp only
    | intro _ _ _
    | split
    | with_reducible apply Keeps.lit


theorem endRejected_keeps (s : State) (c : CmdRef) (f : Flight) (status : Nat) (hs : Keeps cq co s) : Keeps cq co (endRejected s c f status) := by
  unfold endRejected
  repeat any_goals first
    | with_reducible assumption
    | with_reducible apply releaseRun_keeps
    | with_reducible apply releaseReservations_keeps
    | with_reducible apply leaveWindow_keeps
    | with_reducible apply raiseSignal_keeps
    | with_reducible apply deliver_keeps
    | with_reducible apply State.draw_keeps
    | dsimp only
    | intro _ _ _
    | split


theorem endAborted_keeps (s : State) (c : CmdRef) (f : Flight) (hs : Keeps cq co s) : Keeps cq co (endAborted s c f) := by
  unfold endAborted
  repeat any_goals first
    | with_reducible assumption
    | with_reducible apply releaseRun_keeps
    | with_reducible apply releaseReservations_keeps
    | with_reducible apply leaveWindow_keeps
    | with_reducible apply State.draw_keeps
    | dsimp only
    | intro _ _ _
    | split


theorem rewake_keeps (s : State) (c : CmdRef) (f : Flight) (hs : Keeps cq co s) : Keeps cq co (rewake s c f) := by
  unfold rewake
  repeat any_goals first
    | with_reducible assumption
    | with_reducible apply unpark_keeps
    | with_reducible apply State.draw_keeps
    | with_reducible apply foldl_keeps (Keeps cq co)
    | dsimp only
    | intro _ _ _
    | split


/-- The commit stage keeps what each opcode's own commit keeps. -/
theorem commitWith_keeps (op : State → CmdRef → Slot → Flight → Commit)
    (hop : ∀ s c x f, Keeps cq co s → CommitKeeps cq co (op s c x f)) (c : CmdRef) (s : State) (hs : Keeps cq co s) :
    Keeps cq co (commitWith op c s) := by
  unfold commitWith
  split
  · exact hs
  next f _ =>
    have main : ∀ x, Keeps cq co (match op (rewake s c f) c x f with
        | .hold s =>
          match s.flight c with
          | none => s
          | some g =>
            if s.stopping c && !g.excepted then stopHeld s c
            else match g.stage with
              | Stage.waiting _ => s
              | _ => setStage s c .held
        | .kill s => killCommand s c
        | .reject s st => endRejected s c ((s.flight c).getD f) st
        | .done s st r0 r1 outs => endCommitted (raiseSignal s c f.word) c (((raiseSignal s c f.word).flight c).getD f) st r0 r1 outs) := by
      intro x
      have h := hop _ c x f (rewake_keeps s c f hs)
      generalize op (rewake s c f) c x f = r at h
      cases h with
      | hold h =>
        dsimp only
        split
        · exact h
        · split
          · exact stopHeld_keeps _ _ h
          · split
            · exact h
            · exact setStage_keeps _ _ _ h
      | kill h => exact killCommand_keeps _ _ h
      | reject h => exact endRejected_keeps _ _ _ _ h
      | done h => exact endCommitted_keeps _ _ _ _ _ _ _ (raiseSignal_keeps _ _ _ h)
    have room : ∀ x, Keeps cq co (if (s.onEq c.part x fun e => { e with ovfFull := true }).stopping c && !f.excepted
        then stopHeld (s.onEq c.part x fun e => { e with ovfFull := true }) c
        else setStage (s.onEq c.part x fun e => { e with ovfFull := true }) c .held) := by
      intro x
      split
      · exact stopHeld_keeps _ _ (State.onEq_keeps _ _ _ _ hs)
      · exact setStage_keeps _ _ _ (State.onEq_keeps _ _ _ _ hs)
    have full : ∀ (b : Bool) (x : Nat) (u v : State), Keeps cq co u → Keeps cq co v → Keeps cq co (if b then u else v) := by
      intro b x u v hu hv
      split
      · exact hu
      · exact hv
    extract_lets x graceful
    generalize graceful = g
    split
    · exact full _ 0 _ _ (State.onEq_keeps _ _ _ _ hs) (endRejected_keeps _ _ _ _ hs)
    · exact full _ 0 _ _ hs (full _ 0 _ _ (room _) (main _))
    · exact full _ 0 _ _ hs (full _ 0 _ _ (room _) (main _))
    · exact hs

theorem beginFlight_keeps (c : CmdRef) (s : State) (hs : Keeps cq co s) : Keeps cq co (beginFlight c s) := by
  unfold beginFlight
  repeat any_goals first
    | with_reducible assumption
    | with_reducible apply State.onFlight_keeps
    | with_reducible apply State.draw_keeps
    | dsimp only
    | intro _ _ _
    | split
    | with_reducible apply Keeps.lit


/-- The start of a command keeps what each row's own start keeps. -/
theorem startCommand_keeps (start : State → CmdStep → Slot → Flight → Start)
    (hst : ∀ s c x f, Keeps cq co s → StartKeeps cq co (start s c x f)) (c : CmdStep) (f : Flight) (s : State) (hs : Keeps cq co s) :
    Keeps cq co (startCommand start c f s) := by
  have hb := beginFlight_keeps c.ref s hs
  unfold startCommand
  dsimp only
  split
  · exact setStage_keeps _ _ _ hb
  · have h := hst _ c ((beginFlight c.ref s).slot c.ref.part c.ref.slot) (((beginFlight c.ref s).flight c.ref).getD f) hb
    generalize start (beginFlight c.ref s) c ((beginFlight c.ref s).slot c.ref.part c.ref.slot)
      (((beginFlight c.ref s).flight c.ref).getD f) = r at h
    cases h with
    | reject h => exact setStage_keeps _ _ _ h
    | go h => exact h

/-- A row keeps what its start and the commit stage keep. -/
theorem runCommand_keeps (isRow : List Byte → Bool) (start : State → CmdStep → Slot → Flight → Start) (commit : CmdRef → State → State)
    (hst : ∀ s c x f, Keeps cq co s → StartKeeps cq co (start s c x f)) (hc : ∀ c s, Keeps cq co s → Keeps cq co (commit c s))
    (c : CmdStep) (s : State) (hs : Keeps cq co s) : Keeps cq co (runCommand isRow start commit c s) := by
  unfold runCommand
  split
  · exact hs
  next f _ =>
    have h := startCommand_keeps start hst c f s hs
    dsimp only
    split
    · split
      · exact h
      · exact hc _ _ h
    · exact hs

theorem resumeCommand_keeps (w : Wait → Bool) (start : State → CmdStep → Slot → Flight → Start) (commit : CmdRef → State → State)
    (hst : ∀ s c x f, Keeps cq co s → StartKeeps cq co (start s c x f)) (hc : ∀ c s, Keeps cq co s → Keeps cq co (commit c s))
    (c : CmdStep) (s : State) (hs : Keeps cq co s) : Keeps cq co (resumeCommand w start commit c s) := by
  unfold resumeCommand
  split
  · exact hs
  next f _ =>
    have h : Keeps cq co (match start s c (s.slot c.ref.part c.ref.slot) f with
        | .reject s st => setStage s c.ref (.rejected st)
        | .go s => s) := by
      have h := hst s c (s.slot c.ref.part c.ref.slot) f hs
      generalize start s c (s.slot c.ref.part c.ref.slot) f = r at h
      cases h with
      | reject h => exact setStage_keeps _ _ _ h
      | go h => exact h
    split
    · split
      · exact hs
      · dsimp only
        split
        · exact h
        · exact hc _ _ h
    · exact hs

theorem request_keeps (s : State) (c : CmdRef) (hs : Keeps cq co s) : StartKeeps cq co (request s c) := by
  unfold request
  repeat any_goals first
    | with_reducible assumption
    | with_reducible apply StartKeeps.reject
    | with_reducible apply StartKeeps.go
    | with_reducible apply setStage_keeps
    | with_reducible apply State.draw_keeps
    | dsimp only
    | intro _ _ _
    | split


theorem request_keeps_eq_reject {s : State} {c : CmdRef} {t : State} {a0} (e : request s c = .reject t a0) (hs : Keeps cq co s) : Keeps cq co t := by
  have k := request_keeps s c hs
  rw [e] at k
  cases k
  assumption

theorem request_keeps_eq_go {s : State} {c : CmdRef} {t : State}  (e : request s c = .go t) (hs : Keeps cq co s) : Keeps cq co t := by
  have k := request_keeps s c hs
  rw [e] at k
  cases k
  assumption

end Sys2Proof.Machine
end

