-- ==== Sys2Proof/Laws/Keeps/Media.lean ====
section
/-! SUPPORT. What the operations of Machine/Media.lean keep. -/

namespace Sys2Proof.Machine

open Sys2Proof

variable {cq : List Instr} {co : Oxsis}

theorem State.onBlock_keeps (s : State) (b : Nat) (f : Block → Block) (hs : Keeps cq co s) : Keeps cq co (State.onBlock s b f) := by
  unfold State.onBlock
  repeat any_goals first
    | with_reducible assumption
    | with_reducible apply State.onFlash_keeps
    | with_reducible apply State.draw_keeps
    | dsimp only
    | intro _ _ _
    | split
    | with_reducible apply Keeps.lit


theorem State.onChannel_keeps (s : State) (c : Nat) (f : Channel → Channel) (hs : Keeps cq co s) : Keeps cq co (State.onChannel s c f) := by
  unfold State.onChannel
  repeat any_goals first
    | with_reducible assumption
    | with_reducible apply State.onFlash_keeps
    | with_reducible apply State.draw_keeps
    | dsimp only
    | intro _ _ _
    | split
    | with_reducible apply Keeps.lit


theorem State.onGroup_keeps (s : State) (g : Nat) (f : Group → Group) (hs : Keeps cq co s) : Keeps cq co (State.onGroup s g f) := by
  unfold State.onGroup
  repeat any_goals first
    | with_reducible assumption
    | with_reducible apply State.onFlash_keeps
    | with_reducible apply State.draw_keeps
    | dsimp only
    | intro _ _ _
    | split
    | with_reducible apply Keeps.lit


theorem noteMapFull_keeps (s : State) (p n : Nat) (hs : Keeps cq co s) : Keeps cq co (noteMapFull s p n) := by
  unfold noteMapFull
  repeat any_goals first
    | with_reducible assumption
    | with_reducible apply State.onPart_keeps
    | with_reducible apply State.draw_keeps
    | dsimp only
    | intro _ _ _
    | split
    | with_reducible apply Keeps.lit


theorem useSegment_keeps (s : State) (p g : Nat) (hs : Keeps cq co s) : Keeps cq co (useSegment s p g) := by
  unfold useSegment
  repeat any_goals first
    | with_reducible assumption
    | with_reducible apply State.onPart_keeps
    | with_reducible apply State.draw_keeps
    | dsimp only
    | intro _ _ _
    | split
    | with_reducible apply Keeps.lit


theorem takePage_keeps_eq {s : State} {c d : Nat} {copies : Bool} {t : State} {a} (e : takePage s c d copies = some (a, t)) (hs : Keeps cq co s) : Keeps cq co t := by
  unfold takePage at e
  repeat any_goals first
    | dsimp only at e
    | (cases e; done)
    | cases e
    | split at e
    | with_reducible assumption
    | with_reducible apply State.onBlock_keeps
    | with_reducible apply State.onChannel_keeps
    | with_reducible apply State.draw_keeps
    | dsimp only
    | intro _ _ _
    | split
    | with_reducible apply Keeps.lit


theorem takeNear_keeps_eq {s : State} {c d : Nat} {copies : Bool} {t : State} {a} (e : takeNear s c d copies = some (a, t))
    (hs : Keeps cq co s) : Keeps cq co t := by
  unfold takeNear at e
  obtain ⟨i, _, h⟩ := List.exists_of_findSome?_eq_some e
  exact takePage_keeps_eq h hs

theorem dieTemperature_keeps (s : State) (hs : Keeps cq co s) : Keeps cq co (dieTemperature s).2 := by
  unfold dieTemperature
  repeat any_goals first
    | with_reducible assumption
    | with_reducible apply State.draw_keeps
    | with_reducible refine State.draw_keeps_eq ‹_› ?_
    | dsimp only
    | intro _ _ _
    | split


theorem dieTemperature_keeps_eq {s : State} {t : State} {a} (e : dieTemperature s = (a, t)) (hs : Keeps cq co s) : Keeps cq co t := by
  have k := dieTemperature_keeps s hs
  rw [e] at k
  exact k

theorem State.onSecure_keeps (s : State) (g : Secure → Secure) (hs : Keeps cq co s) : Keeps cq co (State.onSecure s g) := by
  unfold State.onSecure
  repeat any_goals first
    | with_reducible assumption
    | with_reducible apply State.onFlash_keeps
    | with_reducible apply State.draw_keeps
    | dsimp only
    | intro _ _ _
    | split
    | with_reducible apply Keeps.lit


theorem putDevice_keeps (s : State) (kind b : Nat) (isSeal : Bool) (data : List Byte) (hs : Keeps cq co s) : Keeps cq co (putDevice s kind b isSeal data) := by
  unfold putDevice
  repeat any_goals first
    | with_reducible assumption
    | with_reducible apply dieTemperature_keeps
    | with_reducible refine dieTemperature_keeps_eq ‹_› ?_
    | with_reducible apply State.onFlash_keeps
    | with_reducible apply State.onBlock_keeps
    | with_reducible apply State.draw_keeps
    | dsimp only
    | intro _ _ _
    | split
    | with_reducible apply Keeps.lit


theorem areaFrame_keeps_eq {s : State} {a : Area} {c : Nat} {isSeal : Bool} {data : List Byte} {t : State} (e : areaFrame s a c isSeal data = some t) (hs : Keeps cq co s) : Keeps cq co t := by
  unfold areaFrame at e
  repeat any_goals first
    | dsimp only at e
    | (cases e; done)
    | cases e
    | split at e
    | with_reducible assumption
    | with_reducible apply putDevice_keeps
    | with_reducible apply State.onSecure_keeps
    | with_reducible apply State.draw_keeps
    | dsimp only
    | intro _ _ _
    | split
    | with_reducible apply Keeps.lit


theorem mirrorFrame_keeps (s : State) (a : Area) (data : List Byte) (hs : Keeps cq co s) : Keeps cq co (mirrorFrame s a data) := by
  unfold mirrorFrame
  refine foldl_keeps (Keeps cq co) _ ?_ _ _ hs
  intro t c ht
  cases e : areaFrame t a c true data with
  | none => exact ht
  | some u => exact areaFrame_keeps_eq e ht

theorem dropArea_keeps (s : State) (a : Area) (c : Nat) (hs : Keeps cq co s) : Keeps cq co (dropArea s a c) := by
  unfold dropArea
  repeat any_goals first
    | with_reducible assumption
    | with_reducible apply State.onSecure_keeps
    | with_reducible apply State.onBlock_keeps
    | with_reducible apply State.draw_keeps
    | with_reducible apply foldl_keeps (Keeps cq co)
    | dsimp only
    | intro _ _ _
    | split
    | with_reducible apply Keeps.lit


theorem putAnchor_keeps (data : List Byte) (s : State) (c : Nat) (hs : Keeps cq co s) : Keeps cq co (putAnchor data s c) := by
  unfold putAnchor
  repeat any_goals first
    | with_reducible assumption
    | with_reducible apply putDevice_keeps
    | with_reducible apply State.onFlash_keeps
    | with_reducible apply State.onBlock_keeps
    | with_reducible apply State.draw_keeps
    | dsimp only
    | intro _ _ _
    | split
    | with_reducible apply Keeps.lit


theorem logEntry_keeps (s : State) (data : List Byte) (g : Secure → Secure) (hs : Keeps cq co s) : Keeps cq co (logEntry s data g) := by
  unfold logEntry
  repeat any_goals first
    | with_reducible assumption
    | with_reducible apply mirrorFrame_keeps
    | with_reducible apply State.onSecure_keeps
    | with_reducible apply State.draw_keeps
    | dsimp only
    | intro _ _ _
    | split


theorem openRecord_keeps (s : State) (hs : Keeps cq co s) : Keeps cq co (openRecord s) := by
  unfold openRecord
  repeat any_goals first
    | with_reducible assumption
    | with_reducible apply logEntry_keeps
    | with_reducible apply State.onFlash_keeps
    | with_reducible apply State.draw_keeps
    | dsimp only
    | intro _ _ _
    | split
    | with_reducible apply Keeps.lit


theorem sealSecure_keeps (s : State) (g : Secure → Secure) (hs : Keeps cq co s) : Keeps cq co (sealSecure s g) := by
  unfold sealSecure
  repeat any_goals first
    | with_reducible assumption
    | with_reducible apply mirrorFrame_keeps
    | with_reducible apply openRecord_keeps
    | with_reducible apply State.onSecure_keeps
    | with_reducible apply State.draw_keeps
    | dsimp only
    | intro _ _ _
    | split


theorem issueFrame_keeps (s : State) (gid : Nat) (g : Group) (a : Place) (f : Frame) (rest : List (Nat × Frame)) (hs : Keeps cq co s) : Keeps cq co (issueFrame s gid g a f rest) := by
  unfold issueFrame
  repeat any_goals first
    | with_reducible assumption
    | with_reducible apply openRecord_keeps
    | with_reducible apply dieTemperature_keeps
    | with_reducible refine dieTemperature_keeps_eq ‹_› ?_
    | with_reducible apply State.onFlash_keeps
    | with_reducible apply State.onChannel_keeps
    | with_reducible apply State.onGroup_keeps
    | with_reducible apply State.draw_keeps
    | dsimp only
    | intro _ _ _
    | split
    | with_reducible apply Keeps.lit


theorem endThrottle_keeps (s : State) (gid : Nat) (g : Group) (hs : Keeps cq co s) : Keeps cq co (endThrottle s gid g) := by
  unfold endThrottle
  repeat any_goals first
    | with_reducible assumption
    | with_reducible apply State.draw_keeps
    | with_reducible refine State.draw_keeps_eq ‹_› ?_
    | with_reducible apply State.onPart_keeps
    | with_reducible apply State.onGroup_keeps
    | dsimp only
    | intro _ _ _
    | split
    | with_reducible apply Keeps.lit


theorem pump_keeps (gid : Nat)  : ∀ (v0 : Nat) (v1 : State), Keeps cq co v1 → Keeps cq co (pump gid v0 v1) := by
  intro v0
  induction v0 with
  | zero =>
    intro v1 hv1
    unfold pump
    repeat any_goals first
      | with_reducible assumption
      | with_reducible apply State.onGroup_keeps
      | with_reducible refine takeNear_keeps_eq ‹_› ?_
      | with_reducible apply endThrottle_keeps
      | with_reducible apply issueFrame_keeps
      | with_reducible apply State.draw_keeps
      | dsimp only
      | intro _ _ _
      | split
      | with_reducible apply Keeps.lit
  | succ n ih =>
    intro v1 hv1
    unfold pump
    repeat any_goals first
      | assumption
      | with_reducible apply ih
      | with_reducible apply State.onGroup_keeps
      | with_reducible refine takeNear_keeps_eq ‹_› ?_
      | with_reducible apply endThrottle_keeps
      | with_reducible apply issueFrame_keeps
      | with_reducible apply State.draw_keeps
      | dsimp only
      | intro _ _ _
      | split
      | with_reducible apply Keeps.lit


theorem pumpAll_keeps (s : State) (c : Nat) (hs : Keeps cq co s) : Keeps cq co (pumpAll s c) := by
  unfold pumpAll
  repeat any_goals first
    | with_reducible assumption
    | with_reducible apply pump_keeps
    | with_reducible apply State.draw_keeps
    | with_reducible apply foldl_keeps (Keeps cq co)
    | dsimp only
    | intro _ _ _
    | split


theorem startGroup_keeps (s : State) (g : Group) (hs : Keeps cq co s) : Keeps cq co (startGroup s g).1 := by
  unfold startGroup
  repeat any_goals first
    | with_reducible assumption
    | with_reducible apply pump_keeps
    | with_reducible apply State.onFlash_keeps
    | with_reducible apply State.draw_keeps
    | dsimp only
    | intro _ _ _
    | split
    | with_reducible apply Keeps.lit


theorem startGroup_keeps_eq {s : State} {g : Group} {t : State} {a} (e : startGroup s g = (t, a)) (hs : Keeps cq co s) : Keeps cq co t := by
  have k := startGroup_keeps s g hs
  rw [e] at k
  exact k

theorem programObject_keeps_eq {s : State} {p lfn n : Nat} {o : MoveObj} {srcAge : Nat} {data : List Byte} {move : Option (Nat × Nat)}
    {t : State} {a} (e : programObject s p lfn n o srcAge data move = some (t, a)) (hs : Keeps cq co s) : Keeps cq co t := by
  unfold programObject at e
  split at e
  · cases e
  · obtain ⟨rfl, rfl⟩ := Option.some.inj e
    exact startGroup_keeps _ _ (foldl_keeps (Keeps cq co) _ (fun s b h => useSegment_keeps s p b h) _ _ (State.onChannel_keeps _ _ _ hs))

theorem issueFlashRead_keeps (s : State) (p : Nat) (what : ReadFor) (lfn bytes : Nat) (unit : Option Nat) (hs : Keeps cq co s) : Keeps cq co (issueFlashRead s p what lfn bytes unit).1 := by
  unfold issueFlashRead
  repeat any_goals first
    | with_reducible assumption
    | with_reducible apply State.onFlash_keeps
    | with_reducible apply State.draw_keeps
    | dsimp only
    | intro _ _ _
    | split
    | with_reducible apply Keeps.lit


theorem issueFlashRead_keeps_eq {s : State} {p : Nat} {what : ReadFor} {lfn bytes : Nat} {unit : Option Nat} {t : State} {a} (e : issueFlashRead s p what lfn bytes unit = (t, a)) (hs : Keeps cq co s) : Keeps cq co t := by
  have k := issueFlashRead_keeps s p what lfn bytes unit hs
  rw [e] at k
  exact k

theorem issueHostRead_keeps (s : State) (p : Nat) (what : ReadFor) (addr bytes : Nat) (unit : Option Nat) (hs : Keeps cq co s) : Keeps cq co (issueHostRead s p what addr bytes unit).1 := by
  unfold issueHostRead
  repeat any_goals first
    | with_reducible assumption
    | with_reducible apply State.draw_keeps
    | dsimp only
    | intro _ _ _
    | split
    | with_reducible apply Keeps.lit


theorem issueHostRead_keeps_eq {s : State} {p : Nat} {what : ReadFor} {addr bytes : Nat} {unit : Option Nat} {t : State} {a} (e : issueHostRead s p what addr bytes unit = (t, a)) (hs : Keeps cq co s) : Keeps cq co t := by
  have k := issueHostRead_keeps s p what addr bytes unit hs
  rw [e] at k
  exact k

theorem State.onOwner_keeps (s : State) (c : Nat) (g : PartCounters → PartCounters) (hs : Keeps cq co s) : Keeps cq co (State.onOwner s c g) := by
  unfold State.onOwner
  repeat any_goals first
    | with_reducible assumption
    | with_reducible apply State.onPart_keeps
    | with_reducible apply State.draw_keeps
    | dsimp only
    | intro _ _ _
    | split


theorem noteRetry_keeps (s : State) (p : Nat) (lfns : List Nat) (r : FlashReadResult) (hs : Keeps cq co s) : Keeps cq co (noteRetry s p lfns r) := by
  unfold noteRetry
  repeat any_goals first
    | with_reducible assumption
    | with_reducible apply State.onPart_keeps
    | with_reducible apply State.draw_keeps
    | with_reducible apply foldl_keeps (Keeps cq co)
    | dsimp only
    | intro _ _ _
    | split
    | with_reducible apply Keeps.lit


theorem dramError_keeps (s : State) (p addr status opcode tag : Nat) (hs : Keeps cq co s) : Keeps cq co (dramError s p addr status opcode tag) := by
  unfold dramError
  repeat any_goals first
    | with_reducible assumption
    | with_reducible apply State.onHealth_keeps
    | with_reducible apply logError_keeps
    | with_reducible apply State.draw_keeps
    | dsimp only
    | intro _ _ _
    | split
    | with_reducible apply Keeps.lit


theorem hostReadError_keeps (s : State) (p addr : Nat) (status opcode tag : Nat) (hs : Keeps cq co s) : Keeps cq co (hostReadError s p addr status opcode tag) := by
  unfold hostReadError
  repeat any_goals first
    | with_reducible assumption
    | with_reducible apply logError_keeps
    | with_reducible apply State.draw_keeps
    | dsimp only
    | intro _ _ _
    | split
    | with_reducible apply Keeps.lit


theorem uncorrectable_keeps (s : State) (p lfn : Nat) (e : Option MapEntry) (cmds : List (List Byte)) (hs : Keeps cq co s) : Keeps cq co (uncorrectable s p lfn e cmds) := by
  unfold uncorrectable
  repeat any_goals first
    | with_reducible assumption
    | with_reducible apply State.onPart_keeps
    | with_reducible apply noteRetry_keeps
    | with_reducible apply logError_keeps
    | with_reducible apply State.draw_keeps
    | dsimp only
    | intro _ _ _
    | split
    | with_reducible apply Keeps.lit


theorem nextCopyOut_keeps (s : State) (c : Nat) (idle : Bool) (hs : Keeps cq co s) : Keeps cq co (nextCopyOut s c idle) := by
  unfold nextCopyOut
  repeat any_goals first
    | with_reducible assumption
    | with_reducible apply State.onChannel_keeps
    | with_reducible apply State.onFlash_keeps
    | with_reducible apply State.draw_keeps
    | dsimp only
    | intro _ _ _
    | split
    | with_reducible apply Keeps.lit


theorem queueCopies_keeps (s : State) (c : Nat) (l : List (Place × Bool)) (hs : Keeps cq co s) : Keeps cq co (queueCopies s c l) := by
  unfold queueCopies
  repeat any_goals first
    | with_reducible assumption
    | with_reducible apply State.onChannel_keeps
    | with_reducible apply State.draw_keeps
    | dsimp only
    | intro _ _ _
    | split
    | with_reducible apply Keeps.lit


theorem readOutBlock_keeps (s : State) (b : Nat) (hs : Keeps cq co s) : Keeps cq co (readOutBlock s b) := by
  unfold readOutBlock
  repeat any_goals first
    | with_reducible assumption
    | with_reducible apply nextCopyOut_keeps
    | with_reducible apply queueCopies_keeps
    | with_reducible apply State.draw_keeps
    | dsimp only
    | intro _ _ _
    | split


theorem refreshFrame_keeps (s : State) (a : Place) (hs : Keeps cq co s) : Keeps cq co (refreshFrame s a) := by
  unfold refreshFrame
  repeat any_goals first
    | with_reducible assumption
    | with_reducible apply nextCopyOut_keeps
    | with_reducible apply queueCopies_keeps
    | with_reducible apply State.draw_keeps
    | dsimp only
    | intro _ _ _
    | split


theorem landObject_keeps (s : State) (p gid lfn : Nat) (o : MoveObj) (data : List Byte) (hs : Keeps cq co s) : Keeps cq co (landObject s p gid lfn o data) := by
  unfold landObject
  repeat any_goals first
    | with_reducible assumption
    | with_reducible apply State.onPart_keeps
    | with_reducible apply State.onFlash_keeps
    | with_reducible apply nextCopyOut_keeps
    | with_reducible apply queueCopies_keeps
    | with_reducible apply State.draw_keeps
    | with_reducible apply foldl_keeps (Keeps cq co)
    | dsimp only
    | intro _ _ _
    | split
    | with_reducible apply Keeps.lit


theorem bringSegment_keeps (s : State) (p g : Nat) (hs : Keeps cq co s) : Keeps cq co (bringSegment s p g) := by
  unfold bringSegment
  repeat any_goals first
    | with_reducible assumption
    | with_reducible apply State.onPart_keeps
    | with_reducible apply useSegment_keeps
    | with_reducible apply State.onFlash_keeps
    | with_reducible apply State.draw_keeps
    | dsimp only
    | intro _ _ _
    | split
    | with_reducible apply Keeps.lit


theorem logBadBlock_keeps (s : State) (b : Nat) (hs : Keeps cq co s) : Keeps cq co (logBadBlock s b) := by
  unfold logBadBlock
  repeat any_goals first
    | with_reducible assumption
    | with_reducible apply logEntry_keeps
    | with_reducible apply State.draw_keeps
    | dsimp only
    | intro _ _ _
    | split
    | with_reducible apply Keeps.lit


theorem emptyVictim_keeps (s : State) (b : Nat) (hs : Keeps cq co s) : Keeps cq co (emptyVictim s b) := by
  unfold emptyVictim
  repeat any_goals first
    | with_reducible assumption
    | with_reducible apply State.onBlock_keeps
    | with_reducible apply State.onChannel_keeps
    | with_reducible apply State.onOwner_keeps
    | with_reducible apply State.draw_keeps
    | dsimp only
    | intro _ _ _
    | split
    | with_reducible apply Keeps.lit


theorem eraseIfEmpty_keeps (s : State) (b : Nat) (hs : Keeps cq co s) : Keeps cq co (eraseIfEmpty s b) := by
  unfold eraseIfEmpty
  repeat any_goals first
    | with_reducible assumption
    | with_reducible apply emptyVictim_keeps
    | with_reducible apply logBadBlock_keeps
    | with_reducible apply State.onBlock_keeps
    | with_reducible apply State.draw_keeps
    | dsimp only
    | intro _ _ _
    | split
    | with_reducible apply Keeps.lit


theorem eraseEmpty_keeps (s : State) (c : Nat) (hs : Keeps cq co s) : Keeps cq co (eraseEmpty s c) := by
  unfold eraseEmpty
  repeat any_goals first
    | with_reducible assumption
    | with_reducible apply eraseIfEmpty_keeps
    | with_reducible apply State.draw_keeps
    | with_reducible apply foldl_keeps (Keeps cq co)
    | dsimp only
    | intro _ _ _
    | split


theorem settleBlock_keeps (s : State) (b : Nat) (hs : Keeps cq co s) : Keeps cq co (settleBlock s b) := by
  unfold settleBlock
  repeat any_goals first
    | with_reducible assumption
    | with_reducible apply eraseIfEmpty_keeps
    | with_reducible apply State.onBlock_keeps
    | with_reducible apply State.draw_keeps
    | dsimp only
    | intro _ _ _
    | split
    | with_reducible apply Keeps.lit


theorem endFlashRead_keeps (s : State) (p lfn n : Nat) (places : List (Nat × Place)) (result : FlashReadResult) (cmds : List (List Byte)) (hs : Keeps cq co s) : Keeps cq co (endFlashRead s p lfn n places result cmds).2 := by
  unfold endFlashRead
  repeat any_goals first
    | with_reducible assumption
    | with_reducible apply uncorrectable_keeps
    | with_reducible apply useSegment_keeps
    | with_reducible apply noteRetry_keeps
    | with_reducible apply refreshFrame_keeps
    | with_reducible apply State.draw_keeps
    | with_reducible apply foldl_keeps (Keeps cq co)
    | dsimp only
    | intro _ _ _
    | split


theorem endFlashRead_keeps_eq {s : State} {p lfn n : Nat} {places : List (Nat × Place)} {result : FlashReadResult} {cmds : List (List Byte)} {t : State} {a} (e : endFlashRead s p lfn n places result cmds = (a, t)) (hs : Keeps cq co s) : Keeps cq co t := by
  have k := endFlashRead_keeps s p lfn n places result cmds hs
  rw [e] at k
  exact k

end Sys2Proof.Machine
end

