-- ==== Sys2Proof/Laws/Keeps/Control.lean ====
section
/-! SUPPORT. What the operations of Machine/Control.lean keep. -/

namespace Sys2Proof.Machine

open Sys2Proof

variable {cq : List Instr} {co : Oxsis}

theorem startJobCreate_keeps (s : State) (c : CmdStep) (x1 : Slot) (f : Flight) (hs : Keeps cq co s) : StartKeeps cq co (startJobCreate s c x1 f) := by
  unfold startJobCreate
  repeat any_goals first
    | with_reducible assumption
    | with_reducible apply StartKeeps.reject
    | with_reducible apply StartKeeps.go
    | with_reducible apply request_keeps
    | with_reducible refine request_keeps_eq_reject ‹_› ?_
    | with_reducible refine request_keeps_eq_go ‹_› ?_
    | with_reducible apply State.draw_keeps
    | dsimp only
    | intro _ _ _
    | split


theorem startJobCreate_keeps_eq_reject {s : State} {c : CmdStep} {x1 : Slot} {f : Flight} {t : State} {a0} (e : startJobCreate s c x1 f = .reject t a0) (hs : Keeps cq co s) : Keeps cq co t := by
  have k := startJobCreate_keeps s c x1 f hs
  rw [e] at k
  cases k
  assumption

theorem startJobCreate_keeps_eq_go {s : State} {c : CmdStep} {x1 : Slot} {f : Flight} {t : State}  (e : startJobCreate s c x1 f = .go t) (hs : Keeps cq co s) : Keeps cq co t := by
  have k := startJobCreate_keeps s c x1 f hs
  rw [e] at k
  cases k
  assumption

theorem commitJobCreate_keeps (s : State) (c : CmdRef) (x1 : Slot) (f : Flight) (hs : Keeps cq co s) : CommitKeeps cq co (commitJobCreate s c x1 f) := by
  unfold commitJobCreate
  repeat any_goals first
    | with_reducible assumption
    | with_reducible apply CommitKeeps.hold
    | with_reducible apply CommitKeeps.kill
    | with_reducible apply CommitKeeps.reject
    | with_reducible apply CommitKeeps.done
    | with_reducible apply State.onPart_keeps
    | with_reducible apply State.draw_keeps
    | dsimp only
    | intro _ _ _
    | split


theorem commitJobCreate_keeps_eq_hold {s : State} {c : CmdRef} {x1 : Slot} {f : Flight} {t : State}  (e : commitJobCreate s c x1 f = .hold t) (hs : Keeps cq co s) : Keeps cq co t := by
  have k := commitJobCreate_keeps s c x1 f hs
  rw [e] at k
  cases k
  assumption

theorem commitJobCreate_keeps_eq_kill {s : State} {c : CmdRef} {x1 : Slot} {f : Flight} {t : State}  (e : commitJobCreate s c x1 f = .kill t) (hs : Keeps cq co s) : Keeps cq co t := by
  have k := commitJobCreate_keeps s c x1 f hs
  rw [e] at k
  cases k
  assumption

theorem commitJobCreate_keeps_eq_reject {s : State} {c : CmdRef} {x1 : Slot} {f : Flight} {t : State} {a0} (e : commitJobCreate s c x1 f = .reject t a0) (hs : Keeps cq co s) : Keeps cq co t := by
  have k := commitJobCreate_keeps s c x1 f hs
  rw [e] at k
  cases k
  assumption

theorem commitJobCreate_keeps_eq_done {s : State} {c : CmdRef} {x1 : Slot} {f : Flight} {t : State} {a0} {a1} {a2} {a3} (e : commitJobCreate s c x1 f = .done t a0 a1 a2 a3) (hs : Keeps cq co s) : Keeps cq co t := by
  have k := commitJobCreate_keeps s c x1 f hs
  rw [e] at k
  cases k
  assumption

theorem startJobDestroy_keeps (s : State) (c : CmdStep) (x1 : Slot) (f : Flight) (hs : Keeps cq co s) : StartKeeps cq co (startJobDestroy s c x1 f) := by
  unfold startJobDestroy
  repeat any_goals first
    | with_reducible assumption
    | with_reducible apply StartKeeps.reject
    | with_reducible apply StartKeeps.go
    | with_reducible apply request_keeps
    | with_reducible refine request_keeps_eq_reject ‹_› ?_
    | with_reducible refine request_keeps_eq_go ‹_› ?_
    | with_reducible apply State.draw_keeps
    | dsimp only
    | intro _ _ _
    | split


theorem startJobDestroy_keeps_eq_reject {s : State} {c : CmdStep} {x1 : Slot} {f : Flight} {t : State} {a0} (e : startJobDestroy s c x1 f = .reject t a0) (hs : Keeps cq co s) : Keeps cq co t := by
  have k := startJobDestroy_keeps s c x1 f hs
  rw [e] at k
  cases k
  assumption

theorem startJobDestroy_keeps_eq_go {s : State} {c : CmdStep} {x1 : Slot} {f : Flight} {t : State}  (e : startJobDestroy s c x1 f = .go t) (hs : Keeps cq co s) : Keeps cq co t := by
  have k := startJobDestroy_keeps s c x1 f hs
  rw [e] at k
  cases k
  assumption

theorem commitJobDestroy_keeps (s : State) (c : CmdRef) (x1 : Slot) (f : Flight) (hs : Keeps cq co s) : CommitKeeps cq co (commitJobDestroy s c x1 f) := by
  unfold commitJobDestroy
  repeat any_goals first
    | with_reducible assumption
    | with_reducible apply CommitKeeps.hold
    | with_reducible apply CommitKeeps.kill
    | with_reducible apply CommitKeeps.reject
    | with_reducible apply CommitKeeps.done
    | with_reducible apply releaseReservations_keeps
    | with_reducible apply State.onPart_keeps
    | with_reducible apply State.draw_keeps
    | with_reducible apply foldl_keeps (Keeps cq co)
    | dsimp only
    | intro _ _ _
    | split
    | with_reducible apply Keeps.lit


theorem commitJobDestroy_keeps_eq_hold {s : State} {c : CmdRef} {x1 : Slot} {f : Flight} {t : State}  (e : commitJobDestroy s c x1 f = .hold t) (hs : Keeps cq co s) : Keeps cq co t := by
  have k := commitJobDestroy_keeps s c x1 f hs
  rw [e] at k
  cases k
  assumption

theorem commitJobDestroy_keeps_eq_kill {s : State} {c : CmdRef} {x1 : Slot} {f : Flight} {t : State}  (e : commitJobDestroy s c x1 f = .kill t) (hs : Keeps cq co s) : Keeps cq co t := by
  have k := commitJobDestroy_keeps s c x1 f hs
  rw [e] at k
  cases k
  assumption

theorem commitJobDestroy_keeps_eq_reject {s : State} {c : CmdRef} {x1 : Slot} {f : Flight} {t : State} {a0} (e : commitJobDestroy s c x1 f = .reject t a0) (hs : Keeps cq co s) : Keeps cq co t := by
  have k := commitJobDestroy_keeps s c x1 f hs
  rw [e] at k
  cases k
  assumption

theorem commitJobDestroy_keeps_eq_done {s : State} {c : CmdRef} {x1 : Slot} {f : Flight} {t : State} {a0} {a1} {a2} {a3} (e : commitJobDestroy s c x1 f = .done t a0 a1 a2 a3) (hs : Keeps cq co s) : Keeps cq co t := by
  have k := commitJobDestroy_keeps s c x1 f hs
  rw [e] at k
  cases k
  assumption

theorem startJobReset_keeps (s : State) (c : CmdStep) (x1 : Slot) (f : Flight) (hs : Keeps cq co s) : StartKeeps cq co (startJobReset s c x1 f) := by
  unfold startJobReset
  repeat any_goals first
    | with_reducible assumption
    | with_reducible apply StartKeeps.reject
    | with_reducible apply StartKeeps.go
    | with_reducible apply request_keeps
    | with_reducible refine request_keeps_eq_reject ‹_› ?_
    | with_reducible refine request_keeps_eq_go ‹_› ?_
    | with_reducible apply State.draw_keeps
    | dsimp only
    | intro _ _ _
    | split


theorem startJobReset_keeps_eq_reject {s : State} {c : CmdStep} {x1 : Slot} {f : Flight} {t : State} {a0} (e : startJobReset s c x1 f = .reject t a0) (hs : Keeps cq co s) : Keeps cq co t := by
  have k := startJobReset_keeps s c x1 f hs
  rw [e] at k
  cases k
  assumption

theorem startJobReset_keeps_eq_go {s : State} {c : CmdStep} {x1 : Slot} {f : Flight} {t : State}  (e : startJobReset s c x1 f = .go t) (hs : Keeps cq co s) : Keeps cq co t := by
  have k := startJobReset_keeps s c x1 f hs
  rw [e] at k
  cases k
  assumption

theorem commitJobReset_keeps (s : State) (c : CmdRef) (x1 : Slot) (f : Flight) (hs : Keeps cq co s) : CommitKeeps cq co (commitJobReset s c x1 f) := by
  unfold commitJobReset
  repeat any_goals first
    | with_reducible assumption
    | with_reducible apply CommitKeeps.hold
    | with_reducible apply CommitKeeps.kill
    | with_reducible apply CommitKeeps.reject
    | with_reducible apply CommitKeeps.done
    | with_reducible apply State.onPart_keeps
    | with_reducible apply State.draw_keeps
    | dsimp only
    | intro _ _ _
    | split
    | with_reducible apply Keeps.lit


theorem commitJobReset_keeps_eq_hold {s : State} {c : CmdRef} {x1 : Slot} {f : Flight} {t : State}  (e : commitJobReset s c x1 f = .hold t) (hs : Keeps cq co s) : Keeps cq co t := by
  have k := commitJobReset_keeps s c x1 f hs
  rw [e] at k
  cases k
  assumption

theorem commitJobReset_keeps_eq_kill {s : State} {c : CmdRef} {x1 : Slot} {f : Flight} {t : State}  (e : commitJobReset s c x1 f = .kill t) (hs : Keeps cq co s) : Keeps cq co t := by
  have k := commitJobReset_keeps s c x1 f hs
  rw [e] at k
  cases k
  assumption

theorem commitJobReset_keeps_eq_reject {s : State} {c : CmdRef} {x1 : Slot} {f : Flight} {t : State} {a0} (e : commitJobReset s c x1 f = .reject t a0) (hs : Keeps cq co s) : Keeps cq co t := by
  have k := commitJobReset_keeps s c x1 f hs
  rw [e] at k
  cases k
  assumption

theorem commitJobReset_keeps_eq_done {s : State} {c : CmdRef} {x1 : Slot} {f : Flight} {t : State} {a0} {a1} {a2} {a3} (e : commitJobReset s c x1 f = .done t a0 a1 a2 a3) (hs : Keeps cq co s) : Keeps cq co t := by
  have k := commitJobReset_keeps s c x1 f hs
  rw [e] at k
  cases k
  assumption

theorem startJobBind_keeps (s : State) (c : CmdStep) (x1 : Slot) (f : Flight) (hs : Keeps cq co s) : StartKeeps cq co (startJobBind s c x1 f) := by
  unfold startJobBind
  repeat any_goals first
    | with_reducible assumption
    | with_reducible apply StartKeeps.reject
    | with_reducible apply StartKeeps.go
    | with_reducible apply hostIn_keeps
    | with_reducible apply request_keeps
    | with_reducible refine request_keeps_eq_reject ‹_› ?_
    | with_reducible refine request_keeps_eq_go ‹_› ?_
    | with_reducible apply setPlan_keeps
    | with_reducible apply State.draw_keeps
    | dsimp only
    | intro _ _ _
    | split


theorem startJobBind_keeps_eq_reject {s : State} {c : CmdStep} {x1 : Slot} {f : Flight} {t : State} {a0} (e : startJobBind s c x1 f = .reject t a0) (hs : Keeps cq co s) : Keeps cq co t := by
  have k := startJobBind_keeps s c x1 f hs
  rw [e] at k
  cases k
  assumption

theorem startJobBind_keeps_eq_go {s : State} {c : CmdStep} {x1 : Slot} {f : Flight} {t : State}  (e : startJobBind s c x1 f = .go t) (hs : Keeps cq co s) : Keeps cq co t := by
  have k := startJobBind_keeps s c x1 f hs
  rw [e] at k
  cases k
  assumption

theorem commitJobBind_keeps (s : State) (c : CmdRef) (x1 : Slot) (f : Flight) (hs : Keeps cq co s) : CommitKeeps cq co (commitJobBind s c x1 f) := by
  unfold commitJobBind
  repeat any_goals first
    | with_reducible assumption
    | with_reducible apply CommitKeeps.hold
    | with_reducible apply CommitKeeps.kill
    | with_reducible apply CommitKeeps.reject
    | with_reducible apply CommitKeeps.done
    | with_reducible apply State.onPart_keeps
    | with_reducible apply State.onSlot_keeps
    | with_reducible apply State.draw_keeps
    | dsimp only
    | intro _ _ _
    | split
    | with_reducible apply Keeps.lit


theorem commitJobBind_keeps_eq_hold {s : State} {c : CmdRef} {x1 : Slot} {f : Flight} {t : State}  (e : commitJobBind s c x1 f = .hold t) (hs : Keeps cq co s) : Keeps cq co t := by
  have k := commitJobBind_keeps s c x1 f hs
  rw [e] at k
  cases k
  assumption

theorem commitJobBind_keeps_eq_kill {s : State} {c : CmdRef} {x1 : Slot} {f : Flight} {t : State}  (e : commitJobBind s c x1 f = .kill t) (hs : Keeps cq co s) : Keeps cq co t := by
  have k := commitJobBind_keeps s c x1 f hs
  rw [e] at k
  cases k
  assumption

theorem commitJobBind_keeps_eq_reject {s : State} {c : CmdRef} {x1 : Slot} {f : Flight} {t : State} {a0} (e : commitJobBind s c x1 f = .reject t a0) (hs : Keeps cq co s) : Keeps cq co t := by
  have k := commitJobBind_keeps s c x1 f hs
  rw [e] at k
  cases k
  assumption

theorem commitJobBind_keeps_eq_done {s : State} {c : CmdRef} {x1 : Slot} {f : Flight} {t : State} {a0} {a1} {a2} {a3} (e : commitJobBind s c x1 f = .done t a0 a1 a2 a3) (hs : Keeps cq co s) : Keeps cq co t := by
  have k := commitJobBind_keeps s c x1 f hs
  rw [e] at k
  cases k
  assumption

theorem dropFetches_keeps (s : State) (p i : Nat) (hs : Keeps cq co s) : Keeps cq co (dropFetches s p i) := by
  unfold dropFetches
  repeat any_goals first
    | with_reducible assumption
    | with_reducible apply State.draw_keeps
    | dsimp only
    | intro _ _ _
    | split
    | with_reducible apply Keeps.lit


theorem stopSlot_keeps (s : State) (p i : Nat) (hs : Keeps cq co s) : Keeps cq co (stopSlot s p i).1 := by
  unfold stopSlot
  repeat any_goals first
    | with_reducible assumption
    | with_reducible apply State.onSlot_keeps
    | with_reducible apply returnToRing_keeps
    | with_reducible apply releaseRun_keeps
    | with_reducible apply State.onAcct_keeps
    | with_reducible apply dropFetches_keeps
    | with_reducible apply State.draw_keeps
    | with_reducible apply foldl_keeps (Keeps cq co)
    | dsimp only
    | intro _ _ _
    | split
    | with_reducible apply Keeps.lit


theorem stopSlot_keeps_eq {s : State} {p i : Nat} {t : State} {a} (e : stopSlot s p i = (t, a)) (hs : Keeps cq co s) : Keeps cq co t := by
  have k := stopSlot_keeps s p i hs
  rw [e] at k
  exact k

theorem startJobUnbind_keeps (s : State) (c : CmdStep) (x1 : Slot) (f : Flight) (hs : Keeps cq co s) : StartKeeps cq co (startJobUnbind s c x1 f) := by
  unfold startJobUnbind
  repeat any_goals first
    | with_reducible assumption
    | with_reducible apply StartKeeps.reject
    | with_reducible apply StartKeeps.go
    | with_reducible apply stopSlot_keeps
    | with_reducible refine stopSlot_keeps_eq ‹_› ?_
    | with_reducible apply request_keeps
    | with_reducible refine request_keeps_eq_reject ‹_› ?_
    | with_reducible refine request_keeps_eq_go ‹_› ?_
    | with_reducible apply setPlan_keeps
    | with_reducible apply State.draw_keeps
    | dsimp only
    | intro _ _ _
    | split


theorem startJobUnbind_keeps_eq_reject {s : State} {c : CmdStep} {x1 : Slot} {f : Flight} {t : State} {a0} (e : startJobUnbind s c x1 f = .reject t a0) (hs : Keeps cq co s) : Keeps cq co t := by
  have k := startJobUnbind_keeps s c x1 f hs
  rw [e] at k
  cases k
  assumption

theorem startJobUnbind_keeps_eq_go {s : State} {c : CmdStep} {x1 : Slot} {f : Flight} {t : State}  (e : startJobUnbind s c x1 f = .go t) (hs : Keeps cq co s) : Keeps cq co t := by
  have k := startJobUnbind_keeps s c x1 f hs
  rw [e] at k
  cases k
  assumption

theorem commitJobUnbind_keeps (s : State) (c : CmdRef) (x1 : Slot) (f : Flight) (hs : Keeps cq co s) : CommitKeeps cq co (commitJobUnbind s c x1 f) := by
  unfold commitJobUnbind
  repeat any_goals first
    | with_reducible assumption
    | with_reducible apply CommitKeeps.hold
    | with_reducible apply CommitKeeps.kill
    | with_reducible apply CommitKeeps.reject
    | with_reducible apply CommitKeeps.done
    | with_reducible apply State.hold_keeps
    | with_reducible apply State.onPart_keeps
    | with_reducible apply State.onSlot_keeps
    | with_reducible apply State.draw_keeps
    | dsimp only
    | intro _ _ _
    | split


theorem commitJobUnbind_keeps_eq_hold {s : State} {c : CmdRef} {x1 : Slot} {f : Flight} {t : State}  (e : commitJobUnbind s c x1 f = .hold t) (hs : Keeps cq co s) : Keeps cq co t := by
  have k := commitJobUnbind_keeps s c x1 f hs
  rw [e] at k
  cases k
  assumption

theorem commitJobUnbind_keeps_eq_kill {s : State} {c : CmdRef} {x1 : Slot} {f : Flight} {t : State}  (e : commitJobUnbind s c x1 f = .kill t) (hs : Keeps cq co s) : Keeps cq co t := by
  have k := commitJobUnbind_keeps s c x1 f hs
  rw [e] at k
  cases k
  assumption

theorem commitJobUnbind_keeps_eq_reject {s : State} {c : CmdRef} {x1 : Slot} {f : Flight} {t : State} {a0} (e : commitJobUnbind s c x1 f = .reject t a0) (hs : Keeps cq co s) : Keeps cq co t := by
  have k := commitJobUnbind_keeps s c x1 f hs
  rw [e] at k
  cases k
  assumption

theorem commitJobUnbind_keeps_eq_done {s : State} {c : CmdRef} {x1 : Slot} {f : Flight} {t : State} {a0} {a1} {a2} {a3} (e : commitJobUnbind s c x1 f = .done t a0 a1 a2 a3) (hs : Keeps cq co s) : Keeps cq co t := by
  have k := commitJobUnbind_keeps s c x1 f hs
  rw [e] at k
  cases k
  assumption

theorem startModelRegister_keeps (s : State) (c : CmdStep) (x1 : Slot) (f : Flight) (hs : Keeps cq co s) : StartKeeps cq co (startModelRegister s c x1 f) := by
  unfold startModelRegister
  repeat any_goals first
    | with_reducible assumption
    | with_reducible apply StartKeeps.reject
    | with_reducible apply StartKeeps.go
    | with_reducible apply request_keeps
    | with_reducible refine request_keeps_eq_reject ‹_› ?_
    | with_reducible refine request_keeps_eq_go ‹_› ?_
    | with_reducible apply State.draw_keeps
    | dsimp only
    | intro _ _ _
    | split


theorem startModelRegister_keeps_eq_reject {s : State} {c : CmdStep} {x1 : Slot} {f : Flight} {t : State} {a0} (e : startModelRegister s c x1 f = .reject t a0) (hs : Keeps cq co s) : Keeps cq co t := by
  have k := startModelRegister_keeps s c x1 f hs
  rw [e] at k
  cases k
  assumption

theorem startModelRegister_keeps_eq_go {s : State} {c : CmdStep} {x1 : Slot} {f : Flight} {t : State}  (e : startModelRegister s c x1 f = .go t) (hs : Keeps cq co s) : Keeps cq co t := by
  have k := startModelRegister_keeps s c x1 f hs
  rw [e] at k
  cases k
  assumption

theorem commitModelRegister_keeps (s : State) (c : CmdRef) (x1 : Slot) (f : Flight) (hs : Keeps cq co s) : CommitKeeps cq co (commitModelRegister s c x1 f) := by
  unfold commitModelRegister
  repeat any_goals first
    | with_reducible assumption
    | with_reducible apply CommitKeeps.hold
    | with_reducible apply CommitKeeps.kill
    | with_reducible apply CommitKeeps.reject
    | with_reducible apply CommitKeeps.done
    | with_reducible apply State.onPart_keeps
    | with_reducible apply State.draw_keeps
    | dsimp only
    | intro _ _ _
    | split
    | with_reducible apply Keeps.lit


theorem commitModelRegister_keeps_eq_hold {s : State} {c : CmdRef} {x1 : Slot} {f : Flight} {t : State}  (e : commitModelRegister s c x1 f = .hold t) (hs : Keeps cq co s) : Keeps cq co t := by
  have k := commitModelRegister_keeps s c x1 f hs
  rw [e] at k
  cases k
  assumption

theorem commitModelRegister_keeps_eq_kill {s : State} {c : CmdRef} {x1 : Slot} {f : Flight} {t : State}  (e : commitModelRegister s c x1 f = .kill t) (hs : Keeps cq co s) : Keeps cq co t := by
  have k := commitModelRegister_keeps s c x1 f hs
  rw [e] at k
  cases k
  assumption

theorem commitModelRegister_keeps_eq_reject {s : State} {c : CmdRef} {x1 : Slot} {f : Flight} {t : State} {a0} (e : commitModelRegister s c x1 f = .reject t a0) (hs : Keeps cq co s) : Keeps cq co t := by
  have k := commitModelRegister_keeps s c x1 f hs
  rw [e] at k
  cases k
  assumption

theorem commitModelRegister_keeps_eq_done {s : State} {c : CmdRef} {x1 : Slot} {f : Flight} {t : State} {a0} {a1} {a2} {a3} (e : commitModelRegister s c x1 f = .done t a0 a1 a2 a3) (hs : Keeps cq co s) : Keeps cq co t := by
  have k := commitModelRegister_keeps s c x1 f hs
  rw [e] at k
  cases k
  assumption

theorem startModelUnregister_keeps (s : State) (c : CmdStep) (x1 : Slot) (f : Flight) (hs : Keeps cq co s) : StartKeeps cq co (startModelUnregister s c x1 f) := by
  unfold startModelUnregister
  repeat any_goals first
    | with_reducible assumption
    | with_reducible apply StartKeeps.reject
    | with_reducible apply StartKeeps.go
    | with_reducible apply request_keeps
    | with_reducible refine request_keeps_eq_reject ‹_› ?_
    | with_reducible refine request_keeps_eq_go ‹_› ?_
    | with_reducible apply State.draw_keeps
    | dsimp only
    | intro _ _ _
    | split


theorem startModelUnregister_keeps_eq_reject {s : State} {c : CmdStep} {x1 : Slot} {f : Flight} {t : State} {a0} (e : startModelUnregister s c x1 f = .reject t a0) (hs : Keeps cq co s) : Keeps cq co t := by
  have k := startModelUnregister_keeps s c x1 f hs
  rw [e] at k
  cases k
  assumption

theorem startModelUnregister_keeps_eq_go {s : State} {c : CmdStep} {x1 : Slot} {f : Flight} {t : State}  (e : startModelUnregister s c x1 f = .go t) (hs : Keeps cq co s) : Keeps cq co t := by
  have k := startModelUnregister_keeps s c x1 f hs
  rw [e] at k
  cases k
  assumption

theorem evictModel_keeps (s : State) (p m : Nat) (hs : Keeps cq co s) : Keeps cq co (evictModel s p m).1 := by
  unfold evictModel
  repeat any_goals first
    | with_reducible assumption
    | with_reducible apply evictEntry_keeps
    | with_reducible apply State.draw_keeps
    | with_reducible apply foldl_keeps (Keeps cq co)
    | dsimp only
    | intro _ _ _
    | split


theorem evictModel_keeps_eq {s : State} {p m : Nat} {t : State} {a} (e : evictModel s p m = (t, a)) (hs : Keeps cq co s) : Keeps cq co t := by
  have k := evictModel_keeps s p m hs
  rw [e] at k
  exact k

theorem commitModelUnregister_keeps (s : State) (c : CmdRef) (x1 : Slot) (f : Flight) (hs : Keeps cq co s) : CommitKeeps cq co (commitModelUnregister s c x1 f) := by
  unfold commitModelUnregister
  repeat any_goals first
    | with_reducible assumption
    | with_reducible apply CommitKeeps.hold
    | with_reducible apply CommitKeeps.kill
    | with_reducible apply CommitKeeps.reject
    | with_reducible apply CommitKeeps.done
    | with_reducible apply evictModel_keeps
    | with_reducible refine evictModel_keeps_eq ‹_› ?_
    | with_reducible apply State.onPart_keeps
    | with_reducible apply State.draw_keeps
    | dsimp only
    | intro _ _ _
    | split
    | with_reducible apply Keeps.lit


theorem commitModelUnregister_keeps_eq_hold {s : State} {c : CmdRef} {x1 : Slot} {f : Flight} {t : State}  (e : commitModelUnregister s c x1 f = .hold t) (hs : Keeps cq co s) : Keeps cq co t := by
  have k := commitModelUnregister_keeps s c x1 f hs
  rw [e] at k
  cases k
  assumption

theorem commitModelUnregister_keeps_eq_kill {s : State} {c : CmdRef} {x1 : Slot} {f : Flight} {t : State}  (e : commitModelUnregister s c x1 f = .kill t) (hs : Keeps cq co s) : Keeps cq co t := by
  have k := commitModelUnregister_keeps s c x1 f hs
  rw [e] at k
  cases k
  assumption

theorem commitModelUnregister_keeps_eq_reject {s : State} {c : CmdRef} {x1 : Slot} {f : Flight} {t : State} {a0} (e : commitModelUnregister s c x1 f = .reject t a0) (hs : Keeps cq co s) : Keeps cq co t := by
  have k := commitModelUnregister_keeps s c x1 f hs
  rw [e] at k
  cases k
  assumption

theorem commitModelUnregister_keeps_eq_done {s : State} {c : CmdRef} {x1 : Slot} {f : Flight} {t : State} {a0} {a1} {a2} {a3} (e : commitModelUnregister s c x1 f = .done t a0 a1 a2 a3) (hs : Keeps cq co s) : Keeps cq co t := by
  have k := commitModelUnregister_keeps s c x1 f hs
  rw [e] at k
  cases k
  assumption

theorem startKernelLoad_keeps (s : State) (c : CmdStep) (x1 : Slot) (f : Flight) (hs : Keeps cq co s) : StartKeeps cq co (startKernelLoad s c x1 f) := by
  unfold startKernelLoad
  repeat any_goals first
    | with_reducible assumption
    | with_reducible apply StartKeeps.reject
    | with_reducible apply StartKeeps.go
    | with_reducible apply hostIn_keeps
    | with_reducible apply request_keeps
    | with_reducible refine request_keeps_eq_reject ‹_› ?_
    | with_reducible refine request_keeps_eq_go ‹_› ?_
    | with_reducible apply setPlan_keeps
    | with_reducible apply State.draw_keeps
    | dsimp only
    | intro _ _ _
    | split


theorem startKernelLoad_keeps_eq_reject {s : State} {c : CmdStep} {x1 : Slot} {f : Flight} {t : State} {a0} (e : startKernelLoad s c x1 f = .reject t a0) (hs : Keeps cq co s) : Keeps cq co t := by
  have k := startKernelLoad_keeps s c x1 f hs
  rw [e] at k
  cases k
  assumption

theorem startKernelLoad_keeps_eq_go {s : State} {c : CmdStep} {x1 : Slot} {f : Flight} {t : State}  (e : startKernelLoad s c x1 f = .go t) (hs : Keeps cq co s) : Keeps cq co t := by
  have k := startKernelLoad_keeps s c x1 f hs
  rw [e] at k
  cases k
  assumption

theorem commitKernelLoad_keeps (s : State) (c : CmdRef) (x1 : Slot) (f : Flight) (hs : Keeps cq co s) : CommitKeeps cq co (commitKernelLoad s c x1 f) := by
  unfold commitKernelLoad
  repeat any_goals first
    | with_reducible assumption
    | with_reducible apply CommitKeeps.hold
    | with_reducible apply CommitKeeps.kill
    | with_reducible apply CommitKeeps.reject
    | with_reducible apply CommitKeeps.done
    | with_reducible apply State.onPart_keeps
    | with_reducible apply State.draw_keeps
    | dsimp only
    | intro _ _ _
    | split
    | with_reducible apply Keeps.lit


theorem commitKernelLoad_keeps_eq_hold {s : State} {c : CmdRef} {x1 : Slot} {f : Flight} {t : State}  (e : commitKernelLoad s c x1 f = .hold t) (hs : Keeps cq co s) : Keeps cq co t := by
  have k := commitKernelLoad_keeps s c x1 f hs
  rw [e] at k
  cases k
  assumption

theorem commitKernelLoad_keeps_eq_kill {s : State} {c : CmdRef} {x1 : Slot} {f : Flight} {t : State}  (e : commitKernelLoad s c x1 f = .kill t) (hs : Keeps cq co s) : Keeps cq co t := by
  have k := commitKernelLoad_keeps s c x1 f hs
  rw [e] at k
  cases k
  assumption

theorem commitKernelLoad_keeps_eq_reject {s : State} {c : CmdRef} {x1 : Slot} {f : Flight} {t : State} {a0} (e : commitKernelLoad s c x1 f = .reject t a0) (hs : Keeps cq co s) : Keeps cq co t := by
  have k := commitKernelLoad_keeps s c x1 f hs
  rw [e] at k
  cases k
  assumption

theorem commitKernelLoad_keeps_eq_done {s : State} {c : CmdRef} {x1 : Slot} {f : Flight} {t : State} {a0} {a1} {a2} {a3} (e : commitKernelLoad s c x1 f = .done t a0 a1 a2 a3) (hs : Keeps cq co s) : Keeps cq co t := by
  have k := commitKernelLoad_keeps s c x1 f hs
  rw [e] at k
  cases k
  assumption

theorem startKernelUnload_keeps (s : State) (c : CmdStep) (x1 : Slot) (f : Flight) (hs : Keeps cq co s) : StartKeeps cq co (startKernelUnload s c x1 f) := by
  unfold startKernelUnload
  repeat any_goals first
    | with_reducible assumption
    | with_reducible apply StartKeeps.reject
    | with_reducible apply StartKeeps.go
    | with_reducible apply request_keeps
    | with_reducible refine request_keeps_eq_reject ‹_› ?_
    | with_reducible refine request_keeps_eq_go ‹_› ?_
    | with_reducible apply setPlan_keeps
    | with_reducible apply State.onPart_keeps
    | with_reducible apply State.draw_keeps
    | dsimp only
    | intro _ _ _
    | split
    | with_reducible apply Keeps.lit


theorem startKernelUnload_keeps_eq_reject {s : State} {c : CmdStep} {x1 : Slot} {f : Flight} {t : State} {a0} (e : startKernelUnload s c x1 f = .reject t a0) (hs : Keeps cq co s) : Keeps cq co t := by
  have k := startKernelUnload_keeps s c x1 f hs
  rw [e] at k
  cases k
  assumption

theorem startKernelUnload_keeps_eq_go {s : State} {c : CmdStep} {x1 : Slot} {f : Flight} {t : State}  (e : startKernelUnload s c x1 f = .go t) (hs : Keeps cq co s) : Keeps cq co t := by
  have k := startKernelUnload_keeps s c x1 f hs
  rw [e] at k
  cases k
  assumption

theorem commitKernelUnload_keeps (s : State) (c : CmdRef) (x1 : Slot) (f : Flight) (hs : Keeps cq co s) : CommitKeeps cq co (commitKernelUnload s c x1 f) := by
  unfold commitKernelUnload
  repeat any_goals first
    | with_reducible assumption
    | with_reducible apply CommitKeeps.hold
    | with_reducible apply CommitKeeps.kill
    | with_reducible apply CommitKeeps.reject
    | with_reducible apply CommitKeeps.done
    | with_reducible apply State.hold_keeps
    | with_reducible apply State.onPart_keeps
    | with_reducible apply State.draw_keeps
    | dsimp only
    | intro _ _ _
    | split
    | with_reducible apply Keeps.lit


theorem commitKernelUnload_keeps_eq_hold {s : State} {c : CmdRef} {x1 : Slot} {f : Flight} {t : State}  (e : commitKernelUnload s c x1 f = .hold t) (hs : Keeps cq co s) : Keeps cq co t := by
  have k := commitKernelUnload_keeps s c x1 f hs
  rw [e] at k
  cases k
  assumption

theorem commitKernelUnload_keeps_eq_kill {s : State} {c : CmdRef} {x1 : Slot} {f : Flight} {t : State}  (e : commitKernelUnload s c x1 f = .kill t) (hs : Keeps cq co s) : Keeps cq co t := by
  have k := commitKernelUnload_keeps s c x1 f hs
  rw [e] at k
  cases k
  assumption

theorem commitKernelUnload_keeps_eq_reject {s : State} {c : CmdRef} {x1 : Slot} {f : Flight} {t : State} {a0} (e : commitKernelUnload s c x1 f = .reject t a0) (hs : Keeps cq co s) : Keeps cq co t := by
  have k := commitKernelUnload_keeps s c x1 f hs
  rw [e] at k
  cases k
  assumption

theorem commitKernelUnload_keeps_eq_done {s : State} {c : CmdRef} {x1 : Slot} {f : Flight} {t : State} {a0} {a1} {a2} {a3} (e : commitKernelUnload s c x1 f = .done t a0 a1 a2 a3) (hs : Keeps cq co s) : Keeps cq co t := by
  have k := commitKernelUnload_keeps s c x1 f hs
  rw [e] at k
  cases k
  assumption

theorem startCapRead_keeps (s : State) (c : CmdStep) (x1 : Slot) (f : Flight) (hs : Keeps cq co s) : StartKeeps cq co (startCapRead s c x1 f) := by
  unfold startCapRead
  repeat any_goals first
    | with_reducible assumption
    | with_reducible apply StartKeeps.reject
    | with_reducible apply StartKeeps.go
    | with_reducible apply request_keeps
    | with_reducible refine request_keeps_eq_reject ‹_› ?_
    | with_reducible refine request_keeps_eq_go ‹_› ?_
    | with_reducible apply State.draw_keeps
    | dsimp only
    | intro _ _ _
    | split


theorem startCapRead_keeps_eq_reject {s : State} {c : CmdStep} {x1 : Slot} {f : Flight} {t : State} {a0} (e : startCapRead s c x1 f = .reject t a0) (hs : Keeps cq co s) : Keeps cq co t := by
  have k := startCapRead_keeps s c x1 f hs
  rw [e] at k
  cases k
  assumption

theorem startCapRead_keeps_eq_go {s : State} {c : CmdStep} {x1 : Slot} {f : Flight} {t : State}  (e : startCapRead s c x1 f = .go t) (hs : Keeps cq co s) : Keeps cq co t := by
  have k := startCapRead_keeps s c x1 f hs
  rw [e] at k
  cases k
  assumption

theorem commitCapRead_keeps (s : State) (c : CmdRef) (x1 : Slot) (f : Flight) (hs : Keeps cq co s) : CommitKeeps cq co (commitCapRead s c x1 f) := by
  unfold commitCapRead
  repeat any_goals first
    | with_reducible assumption
    | with_reducible apply CommitKeeps.hold
    | with_reducible apply CommitKeeps.kill
    | with_reducible apply CommitKeeps.reject
    | with_reducible apply CommitKeeps.done
    | with_reducible apply State.draw_keeps
    | dsimp only
    | intro _ _ _
    | split


theorem commitCapRead_keeps_eq_hold {s : State} {c : CmdRef} {x1 : Slot} {f : Flight} {t : State}  (e : commitCapRead s c x1 f = .hold t) (hs : Keeps cq co s) : Keeps cq co t := by
  have k := commitCapRead_keeps s c x1 f hs
  rw [e] at k
  cases k
  assumption

theorem commitCapRead_keeps_eq_kill {s : State} {c : CmdRef} {x1 : Slot} {f : Flight} {t : State}  (e : commitCapRead s c x1 f = .kill t) (hs : Keeps cq co s) : Keeps cq co t := by
  have k := commitCapRead_keeps s c x1 f hs
  rw [e] at k
  cases k
  assumption

theorem commitCapRead_keeps_eq_reject {s : State} {c : CmdRef} {x1 : Slot} {f : Flight} {t : State} {a0} (e : commitCapRead s c x1 f = .reject t a0) (hs : Keeps cq co s) : Keeps cq co t := by
  have k := commitCapRead_keeps s c x1 f hs
  rw [e] at k
  cases k
  assumption

theorem commitCapRead_keeps_eq_done {s : State} {c : CmdRef} {x1 : Slot} {f : Flight} {t : State} {a0} {a1} {a2} {a3} (e : commitCapRead s c x1 f = .done t a0 a1 a2 a3) (hs : Keeps cq co s) : Keeps cq co t := by
  have k := commitCapRead_keeps s c x1 f hs
  rw [e] at k
  cases k
  assumption

end Sys2Proof.Machine
end

