-- ==== Sys2Proof/Laws/Keeps/Space.lean ====
section
/-! SUPPORT. What the operations of Machine/Space.lean keep. -/

namespace Sys2Proof.Machine

open Sys2Proof

variable {cq : List Instr} {co : Oxsis}

/-- Every state that an outcome carries keeps what the state before kept. -/
inductive AllocKeeps (q : List Instr) (o : Oxsis) : Alloc → Prop
  | got {t : State} {a1} (h : Keeps q o t) : AllocKeeps q o (.got t a1)
  | wait {t : State} (h : Keeps q o t) : AllocKeeps q o (.wait t)
  | none {t : State} (h : Keeps q o t) : AllocKeeps q o (.none t)


/-- Every state that an outcome carries keeps what the state before kept. -/
inductive AllocAllKeeps (q : List Instr) (o : Oxsis) : AllocAll → Prop
  | got {t : State} {a1} (h : Keeps q o t) : AllocAllKeeps q o (.got t a1)
  | wait {t : State} (h : Keeps q o t) : AllocAllKeeps q o (.wait t)
  | none {t : State} (h : Keeps q o t) : AllocAllKeeps q o (.none t)


theorem selectMove_keeps (s : State) (p : Nat) (obj : MoveObj) (why : MoveWhy) (src : Loc) (bytes : Nat) (cmd : Option CmdRef) (hs : Keeps cq co s) : Keeps cq co (selectMove s p obj why src bytes cmd) := by
  unfold selectMove
  repeat any_goals first
    | with_reducible assumption
    | with_reducible apply State.onPart_keeps
    | with_reducible apply State.draw_keeps
    | dsimp only
    | intro _ _ _
    | split
    | with_reducible apply Keeps.lit


theorem sendSets_keeps (s : State) (p : Nat) (psns : List Nat) (why : MoveWhy) (hs : Keeps cq co s) : Keeps cq co (sendSets s p psns why) := by
  unfold sendSets
  repeat any_goals first
    | with_reducible assumption
    | with_reducible apply selectMove_keeps
    | with_reducible apply State.draw_keeps
    | with_reducible apply foldl_keeps (Keeps cq co)
    | dsimp only
    | intro _ _ _
    | split


theorem sendPages_keeps (s : State) (p psn : Nat) (why : MoveWhy) (hs : Keeps cq co s) : Keeps cq co (sendPages s p psn why) := by
  unfold sendPages
  repeat any_goals first
    | with_reducible assumption
    | with_reducible apply sendSets_keeps
    | with_reducible apply State.draw_keeps
    | dsimp only
    | intro _ _ _
    | split


theorem killUsers_keeps (s : State) (p i : Nat) (hs : Keeps cq co s) : Keeps cq co (killUsers s p i) := by
  unfold killUsers
  repeat any_goals first
    | with_reducible assumption
    | with_reducible apply killCommand_keeps
    | with_reducible refine request_keeps_eq_reject ‹_› ?_
    | with_reducible refine request_keeps_eq_go ‹_› ?_
    | with_reducible apply State.draw_keeps
    | with_reducible apply foldl_keeps (Keeps cq co)
    | dsimp only
    | intro _ _ _
    | split


theorem preempt_keeps (s : State) (p i : Nat) (hs : Keeps cq co s) : Keeps cq co (preempt s p i) := by
  unfold preempt
  repeat any_goals first
    | with_reducible assumption
    | with_reducible apply killUsers_keeps
    | with_reducible apply State.onSeq_keeps
    | with_reducible apply sendSets_keeps
    | with_reducible apply State.draw_keeps
    | dsimp only
    | intro _ _ _
    | split
    | with_reducible apply Keeps.lit


theorem dropCopy_keeps (s : State) (p : Nat) (c : Copy) (hs : Keeps cq co s) : Keeps cq co (dropCopy s p c) := by
  cases c with
  | page n l => exact dropTent_keeps _ _ _ _ hs
  | tail i l => exact dropTailTent_keeps _ _ _ _ hs
  | rest i => exact dropRestTent_keeps _ _ _ hs

theorem reclaim_keeps (p home frames n : Nat) : ∀ s : State, Keeps cq co s → Keeps cq co (reclaim p home frames n s).1 := by
  induction n with
  | zero => intro s hs; exact hs
  | succ n ih =>
    intro s hs
    unfold reclaim
    dsimp only
    split
    · exact hs
    · split
      · exact ih _ (dropCopy_keeps _ _ _ hs)
      · split
        · exact ih _ (releaseOld_keeps _ _ _ hs)
        · exact hs

theorem preemptOr_keeps (s : State) (p : Nat) (own : Option Nat) (hs : Keeps cq co s) : AllocKeeps cq co (preemptOr s p own) := by
  unfold preemptOr
  dsimp only
  split
  · split
    · exact .none hs
    · exact .wait (preempt_keeps _ _ _ hs)
  · exact .none hs

theorem allocFrames_keeps (p home frames : Nat) (own : Option Nat) (n : Nat) :
    ∀ s : State, Keeps cq co s → AllocKeeps cq co (allocFrames s p home frames own n) := by
  induction n with
  | zero => intro s hs; exact .none hs
  | succ n ih =>
    intro s hs
    have h := reclaim_keeps p home frames (reclaimTries (s.part p)) s hs
    unfold allocFrames
    dsimp only
    split
    · exact .got (newObject_keeps _ _ _ _ _ h)
    · split
      · exact .wait h
      · split
        · split
          · exact .wait (sendPages_keeps _ _ _ _ h)
          · exact preemptOr_keeps _ _ _ h
        · split
          · exact ih _ (evictEntry_keeps _ _ _ h)
          · exact preemptOr_keeps _ _ _ h

theorem allocFrames_keeps_eq_got {s : State} {p home frames : Nat} {own : Option Nat} {n : Nat} {t : State} {a}
    (e : allocFrames s p home frames own n = .got t a) (hs : Keeps cq co s) : Keeps cq co t := by
  have k := allocFrames_keeps p home frames own n s hs
  rw [e] at k
  cases k
  assumption

theorem allocFrames_keeps_eq_wait {s : State} {p home frames : Nat} {own : Option Nat} {n : Nat} {t : State}
    (e : allocFrames s p home frames own n = .wait t) (hs : Keeps cq co s) : Keeps cq co t := by
  have k := allocFrames_keeps p home frames own n s hs
  rw [e] at k
  cases k
  assumption

theorem allocFrames_keeps_eq_none {s : State} {p home frames : Nat} {own : Option Nat} {n : Nat} {t : State}
    (e : allocFrames s p home frames own n = .none t) (hs : Keeps cq co s) : Keeps cq co t := by
  have k := allocFrames_keeps p home frames own n s hs
  rw [e] at k
  cases k
  assumption

theorem allocAll_keeps (p home : Nat) (own : Option Nat) (l : List Nat) :
    ∀ s : State, Keeps cq co s → AllocAllKeeps cq co (allocAll p home own l s) := by
  induction l with
  | nil => intro s hs; exact .got hs
  | cons n r ih =>
    intro s hs
    unfold allocAll
    split
    next e => exact .none (allocFrames_keeps_eq_none e hs)
    next e => exact .wait (allocFrames_keeps_eq_wait e hs)
    next s1 f e =>
      have h := ih _ (allocFrames_keeps_eq_got e hs)
      generalize allocAll p home own r s1 = x at h
      cases h with
      | got h => exact .got h
      | wait h => exact .wait (freeObject_keeps _ _ _ h)
      | none h => exact .none (freeObject_keeps _ _ _ h)

theorem allocAll_keeps_eq_got {p home : Nat} {own : Option Nat} {l : List Nat} {s t : State} {a}
    (e : allocAll p home own l s = .got t a) (hs : Keeps cq co s) : Keeps cq co t := by
  have k := allocAll_keeps p home own l s hs
  rw [e] at k
  cases k
  assumption

theorem allocAll_keeps_eq_wait {p home : Nat} {own : Option Nat} {l : List Nat} {s t : State}
    (e : allocAll p home own l s = .wait t) (hs : Keeps cq co s) : Keeps cq co t := by
  have k := allocAll_keeps p home own l s hs
  rw [e] at k
  cases k
  assumption

theorem allocAll_keeps_eq_none {p home : Nat} {own : Option Nat} {l : List Nat} {s t : State}
    (e : allocAll p home own l s = .none t) (hs : Keeps cq co s) : Keeps cq co t := by
  have k := allocAll_keeps p home own l s hs
  rw [e] at k
  cases k
  assumption

theorem allocWithTables_keeps (p home slots descs : Nat) (own : Option Nat) (objs : List Nat) (s : State) (hs : Keeps cq co s) :
    AllocAllKeeps cq co (allocWithTables p home slots descs own objs s) := by
  unfold allocWithTables
  extract_lets t
  have h := allocAll_keeps p home own (t.frames ++ objs) s hs
  generalize allocAll p home own (t.frames ++ objs) s = x at h
  cases h with
  | got h => exact .got (State.onPart_keeps _ _ _ h)
  | wait h => exact .wait h
  | none h => exact .none h

theorem allocWithTables_keeps_eq_got {p home slots descs : Nat} {own : Option Nat} {objs : List Nat} {s t : State} {a}
    (e : allocWithTables p home slots descs own objs s = .got t a) (hs : Keeps cq co s) : Keeps cq co t := by
  have k := allocWithTables_keeps p home slots descs own objs s hs
  rw [e] at k
  cases k
  assumption

theorem allocWithTables_keeps_eq_wait {p home slots descs : Nat} {own : Option Nat} {objs : List Nat} {s t : State}
    (e : allocWithTables p home slots descs own objs s = .wait t) (hs : Keeps cq co s) : Keeps cq co t := by
  have k := allocWithTables_keeps p home slots descs own objs s hs
  rw [e] at k
  cases k
  assumption

theorem allocWithTables_keeps_eq_none {p home slots descs : Nat} {own : Option Nat} {objs : List Nat} {s t : State}
    (e : allocWithTables p home slots descs own objs s = .none t) (hs : Keeps cq co s) : Keeps cq co t := by
  have k := allocWithTables_keeps p home slots descs own objs s hs
  rw [e] at k
  cases k
  assumption

end Sys2Proof.Machine
end

