-- ==== Sys2Proof/Laws/Keeps/Wake.lean ====
section
/-! SUPPORT. What the operations of Machine/Wake.lean keep. -/

namespace Sys2Proof.Machine

open Sys2Proof

variable {cq : List Instr} {co : Oxsis}

/-- Every state that an outcome carries keeps what the state before kept. -/
inductive WakeKeeps (q : List Instr) (o : Oxsis) : Wake → Prop
  | awake {t : State} (h : Keeps q o t) : WakeKeeps q o (.awake t)
  | wait {t : State} {a1} (h : Keeps q o t) : WakeKeeps q o (.wait t a1)
  | alloc {t : State} (h : Keeps q o t) : WakeKeeps q o (.alloc t)
  | fails {t : State} {a1} (h : Keeps q o t) : WakeKeeps q o (.fails t a1)


/-- Every state that an outcome carries keeps what the state before kept. -/
inductive ReadEndKeeps (q : List Instr) (o : Oxsis) : ReadEnd → Prop
  | done {t : State} (h : Keeps q o t) : ReadEndKeeps q o (.done t)
  | wait {t : State} (h : Keeps q o t) : ReadEndKeeps q o (.wait t)
  | fails {t : State} (h : Keeps q o t) : ReadEndKeeps q o (.fails t)


theorem waitFor_keeps (s : State) (c : CmdRef) (w : Wait) (cause : Nat) (hs : Keeps cq co s) : Keeps cq co (waitFor s c w cause) := by
  unfold waitFor
  repeat any_goals first
    | with_reducible assumption
    | with_reducible apply endCause_keeps
    | with_reducible apply State.onFlight_keeps
    | with_reducible apply State.draw_keeps
    | dsimp only
    | intro _ _ _
    | split
    | with_reducible apply Keeps.lit


theorem waitFree_keeps (s : State) (c : CmdRef) (w : Wait) (hs : Keeps cq co s) : Keeps cq co (waitFree s c w) := by
  unfold waitFree
  repeat any_goals first
    | with_reducible assumption
    | with_reducible apply endCause_keeps
    | with_reducible apply State.onFlight_keeps
    | with_reducible apply State.draw_keeps
    | dsimp only
    | intro _ _ _
    | split
    | with_reducible apply Keeps.lit


theorem dropReads_keeps (s : State) (tk : ReadReq → Bool) (hs : Keeps cq co s) : Keeps cq co (dropReads s tk) := by
  unfold dropReads
  repeat any_goals first
    | with_reducible assumption
    | with_reducible apply State.draw_keeps
    | dsimp only
    | intro _ _ _
    | split
    | with_reducible apply Keeps.lit


theorem needSegment_keeps (p : Nat) (s : State) (g : Nat) (hs : Keeps cq co s) : Keeps cq co (needSegment p s g) := by
  unfold needSegment
  repeat any_goals first
    | with_reducible assumption
    | with_reducible apply bringSegment_keeps
    | with_reducible apply State.onPart_keeps
    | with_reducible apply State.draw_keeps
    | dsimp only
    | intro _ _ _
    | split
    | with_reducible apply Keeps.lit


theorem readObject_keeps (s : State) (p : Nat) (c : CmdStep) (w : List Byte) (bytes : Nat) (l : Loc) (hs : Keeps cq co s) : Keeps cq co (readObject s p c w bytes l).1 := by
  unfold readObject
  repeat any_goals first
    | with_reducible assumption
    | with_reducible apply dramError_keeps
    | with_reducible apply hostReadError_keeps
    | with_reducible apply countTier_keeps
    | with_reducible apply needSegment_keeps
    | with_reducible apply endFlashRead_keeps
    | with_reducible refine endFlashRead_keeps_eq ‹_› ?_
    | with_reducible apply State.draw_keeps
    | with_reducible apply foldl_keeps (Keeps cq co)
    | dsimp only
    | intro _ _ _
    | split


theorem readObject_keeps_eq {s : State} {p : Nat} {c : CmdStep} {w : List Byte} {bytes : Nat} {l : Loc} {t : State} {a} (e : readObject s p c w bytes l = (t, a)) (hs : Keeps cq co s) : Keeps cq co t := by
  have k := readObject_keeps s p c w bytes l hs
  rw [e] at k
  exact k

theorem keepCopy_keeps (s : State) (p home : Nat) (o : MoveObj) (l : Loc) (hs : Keeps cq co s) : Keeps cq co (keepCopy s p home o l) := by
  unfold keepCopy
  repeat any_goals first
    | with_reducible assumption
    | with_reducible apply newObject_keeps
    | with_reducible apply dropReads_keeps
    | with_reducible apply State.onSet_keeps
    | with_reducible apply State.onSeq_keeps
    | with_reducible apply State.draw_keeps
    | dsimp only
    | intro _ _ _
    | split
    | with_reducible apply Keeps.lit


theorem readStep_keeps (p : Nat) (c : CmdStep) (w : List Byte) (home : Nat) (a : CmdReads) (o : MoveObj) (ha : Keeps cq co a.s) :
    Keeps cq co (readStep p c w home a o).s := by
  unfold readStep
  split
  · exact ha
  · extract_lets x
    split
    · exact ha
    next l _ =>
      extract_lets keeps r late
      have h := readObject_keeps a.s p c w (objBytes x o) l ha
      split
      · exact ha
      · split
        · dsimp only
          split
          · exact keepCopy_keeps _ _ _ _ _ h
          · exact h
        · exact h

theorem cmdReads_keeps (s : State) (p : Nat) (c : CmdStep) (w : List Byte) (home : Nat) (l : List MoveObj) (hs : Keeps cq co s) :
    ReadEndKeeps cq co (cmdReads s p c w home l) := by
  unfold cmdReads
  extract_lets a t
  have h : Keeps cq co a.s := foldl_keeps (fun a : CmdReads => Keeps cq co a.s) _ (fun a o ha => readStep_keeps p c w home a o ha) _ _ hs
  clear_value a
  have ht : Keeps cq co t := by
    show Keeps cq co (match a.late with | some k => stallFree a.s p k | none => a.s)
    split
    · exact stallFree_keeps _ _ _ h
    · exact h
  clear_value t
  split
  · refine .fails ?_
    split
    · exact ht
    · exact stall_keeps _ _ _ _ ht
  · split
    · exact .wait (waitFor_keeps _ _ _ _ ht)
    · exact .done ht

theorem cmdReads_keeps_eq_done {s : State} {p : Nat} {c : CmdStep} {w : List Byte} {home : Nat} {l : List MoveObj} {t : State}
    (e : cmdReads s p c w home l = .done t) (hs : Keeps cq co s) : Keeps cq co t := by
  have k := cmdReads_keeps s p c w home l hs
  rw [e] at k
  cases k
  assumption

theorem cmdReads_keeps_eq_wait {s : State} {p : Nat} {c : CmdStep} {w : List Byte} {home : Nat} {l : List MoveObj} {t : State}
    (e : cmdReads s p c w home l = .wait t) (hs : Keeps cq co s) : Keeps cq co t := by
  have k := cmdReads_keeps s p c w home l hs
  rw [e] at k
  cases k
  assumption

theorem cmdReads_keeps_eq_fails {s : State} {p : Nat} {c : CmdStep} {w : List Byte} {home : Nat} {l : List MoveObj} {t : State}
    (e : cmdReads s p c w home l = .fails t) (hs : Keeps cq co s) : Keeps cq co t := by
  have k := cmdReads_keeps s p c w home l hs
  rw [e] at k
  cases k
  assumption

theorem touchObject_keeps (s : State) (p : Nat) (o : MoveObj) (l : List (Nat × Nat)) (hs : Keeps cq co s) : Keeps cq co (touchObject s p o l) := by
  unfold touchObject
  repeat any_goals first
    | with_reducible assumption
    | with_reducible apply touchDram_keeps
    | with_reducible apply State.draw_keeps
    | with_reducible apply foldl_keeps (Keeps cq co)
    | dsimp only
    | intro _ _ _
    | split


theorem recallSegments_keeps (s : State) (p : Nat) (l : List Nat) (hs : Keeps cq co s) : Keeps cq co (recallSegments s p l) := by
  unfold recallSegments
  repeat any_goals first
    | with_reducible assumption
    | with_reducible apply selectMove_keeps
    | with_reducible apply State.draw_keeps
    | with_reducible apply foldl_keeps (Keeps cq co)
    | dsimp only
    | intro _ _ _
    | split


theorem waitSegments_keeps_eq {s : State} {c : CmdRef} {psns : List Nat} {t : State} (e : waitSegments s c psns = some t) (hs : Keeps cq co s) : Keeps cq co t := by
  unfold waitSegments at e
  repeat any_goals first
    | dsimp only at e
    | (cases e; done)
    | cases e
    | split at e
    | with_reducible assumption
    | with_reducible apply waitFor_keeps
    | with_reducible apply recallSegments_keeps
    | with_reducible apply State.draw_keeps
    | dsimp only
    | intro _ _ _
    | split


theorem hotOr_keeps (s : State) (p : Nat) (victim : Option Nat) (hs : Keeps cq co s) : HotEntryKeeps cq co (hotOr s p victim) := by
  unfold hotOr
  repeat any_goals first
    | with_reducible assumption
    | with_reducible apply HotEntryKeeps.free
    | with_reducible apply HotEntryKeeps.parked
    | with_reducible apply HotEntryKeeps.none
    | with_reducible apply takeHot_keeps
    | with_reducible refine takeHot_keeps_eq_parked ‹_› ?_
    | with_reducible apply State.draw_keeps
    | dsimp only
    | intro _ _ _
    | split


theorem hotOr_keeps_eq_parked {s : State} {p : Nat} {victim : Option Nat} {t : State} {a0} (e : hotOr s p victim = .parked t a0) (hs : Keeps cq co s) : Keeps cq co t := by
  have k := hotOr_keeps s p victim hs
  rw [e] at k
  cases k
  assumption

theorem needHot_keeps (s : State) (p : Nat) (f : Flight) (hs : Keeps cq co s) : HotEntryKeeps cq co (needHot s p f) := by
  unfold needHot
  repeat any_goals first
    | with_reducible assumption
    | with_reducible apply HotEntryKeeps.free
    | with_reducible apply HotEntryKeeps.parked
    | with_reducible apply HotEntryKeeps.none
    | with_reducible apply hotOr_keeps
    | with_reducible refine hotOr_keeps_eq_parked ‹_› ?_
    | with_reducible apply State.draw_keeps
    | dsimp only
    | intro _ _ _
    | split


theorem needHot_keeps_eq_parked {s : State} {p : Nat} {f : Flight} {t : State} {a0} (e : needHot s p f = .parked t a0) (hs : Keeps cq co s) : Keeps cq co t := by
  have k := needHot_keeps s p f hs
  rw [e] at k
  cases k
  assumption

theorem restWake_keeps (s : State) (p i : Nat) (hs : Keeps cq co s) : Keeps cq co (restWake s p i) := by
  unfold restWake
  repeat any_goals first
    | with_reducible assumption
    | with_reducible apply freeLoc_keeps
    | with_reducible apply State.onPart_keeps
    | with_reducible apply State.onSeq_keeps
    | with_reducible apply State.draw_keeps
    | dsimp only
    | intro _ _ _
    | split
    | with_reducible apply Keeps.lit


theorem restoringWake_keeps (s : State) (p i : Nat) (hs : Keeps cq co s) : Keeps cq co (restoringWake s p i) := by
  unfold restoringWake
  repeat any_goals first
    | with_reducible assumption
    | with_reducible apply dropRestTent_keeps
    | with_reducible apply promoteAll_keeps
    | with_reducible refine promoteAll_keeps_eq ‹_› ?_
    | with_reducible apply freeLoc_keeps
    | with_reducible apply State.onPart_keeps
    | with_reducible apply State.onSeq_keeps
    | with_reducible apply State.draw_keeps
    | dsimp only
    | intro _ _ _
    | split
    | with_reducible apply Keeps.lit


theorem wakeTables_keeps (s : State) (p i : Nat) (q : Seq) (hs : Keeps cq co s) : AllocAllKeeps cq co (wakeTables s p i q) := by
  unfold wakeTables
  repeat any_goals first
    | with_reducible assumption
    | with_reducible apply AllocAllKeeps.got
    | with_reducible apply AllocAllKeeps.wait
    | with_reducible apply AllocAllKeeps.none
    | with_reducible apply allocWithTables_keeps
    | with_reducible refine allocWithTables_keeps_eq_got ‹_› ?_
    | with_reducible refine allocWithTables_keeps_eq_wait ‹_› ?_
    | with_reducible refine allocWithTables_keeps_eq_none ‹_› ?_
    | with_reducible apply State.draw_keeps
    | dsimp only
    | intro _ _ _
    | split


theorem wakeTables_keeps_eq_got {s : State} {p i : Nat} {q : Seq} {t : State} {a0} (e : wakeTables s p i q = .got t a0) (hs : Keeps cq co s) : Keeps cq co t := by
  have k := wakeTables_keeps s p i q hs
  rw [e] at k
  cases k
  assumption

theorem wakeTables_keeps_eq_wait {s : State} {p i : Nat} {q : Seq} {t : State}  (e : wakeTables s p i q = .wait t) (hs : Keeps cq co s) : Keeps cq co t := by
  have k := wakeTables_keeps s p i q hs
  rw [e] at k
  cases k
  assumption

theorem wakeTables_keeps_eq_none {s : State} {p i : Nat} {q : Seq} {t : State}  (e : wakeTables s p i q = .none t) (hs : Keeps cq co s) : Keeps cq co t := by
  have k := wakeTables_keeps s p i q hs
  rw [e] at k
  cases k
  assumption

theorem wakeSeq_keeps (s : State) (p i : Nat) (victim : Option Nat) (c : CmdStep) (w : List Byte) (hs : Keeps cq co s) : WakeKeeps cq co (wakeSeq s p i victim c w) := by
  unfold wakeSeq
  repeat any_goals first
    | with_reducible assumption
    | with_reducible apply WakeKeeps.awake
    | with_reducible apply WakeKeeps.wait
    | with_reducible apply WakeKeeps.alloc
    | with_reducible apply WakeKeeps.fails
    | with_reducible apply State.onSeq_keeps
    | with_reducible apply unpark_keeps
    | with_reducible apply restoringWake_keeps
    | with_reducible apply hotOr_keeps
    | with_reducible refine hotOr_keeps_eq_parked ‹_› ?_
    | with_reducible apply wakeTables_keeps
    | with_reducible refine wakeTables_keeps_eq_got ‹_› ?_
    | with_reducible refine wakeTables_keeps_eq_wait ‹_› ?_
    | with_reducible refine wakeTables_keeps_eq_none ‹_› ?_
    | with_reducible apply cmdReads_keeps
    | with_reducible refine cmdReads_keeps_eq_done ‹_› ?_
    | with_reducible refine cmdReads_keeps_eq_wait ‹_› ?_
    | with_reducible refine cmdReads_keeps_eq_fails ‹_› ?_
    | with_reducible apply restWake_keeps
    | with_reducible apply State.draw_keeps
    | dsimp only
    | intro _ _ _
    | split
    | with_reducible apply Keeps.lit


theorem wakeSeq_keeps_eq_awake {s : State} {p i : Nat} {victim : Option Nat} {c : CmdStep} {w : List Byte} {t : State}  (e : wakeSeq s p i victim c w = .awake t) (hs : Keeps cq co s) : Keeps cq co t := by
  have k := wakeSeq_keeps s p i victim c w hs
  rw [e] at k
  cases k
  assumption

theorem wakeSeq_keeps_eq_wait {s : State} {p i : Nat} {victim : Option Nat} {c : CmdStep} {w : List Byte} {t : State} {a0} (e : wakeSeq s p i victim c w = .wait t a0) (hs : Keeps cq co s) : Keeps cq co t := by
  have k := wakeSeq_keeps s p i victim c w hs
  rw [e] at k
  cases k
  assumption

theorem wakeSeq_keeps_eq_alloc {s : State} {p i : Nat} {victim : Option Nat} {c : CmdStep} {w : List Byte} {t : State}  (e : wakeSeq s p i victim c w = .alloc t) (hs : Keeps cq co s) : Keeps cq co t := by
  have k := wakeSeq_keeps s p i victim c w hs
  rw [e] at k
  cases k
  assumption

theorem wakeSeq_keeps_eq_fails {s : State} {p i : Nat} {victim : Option Nat} {c : CmdStep} {w : List Byte} {t : State} {a0} (e : wakeSeq s p i victim c w = .fails t a0) (hs : Keeps cq co s) : Keeps cq co t := by
  have k := wakeSeq_keeps s p i victim c w hs
  rw [e] at k
  cases k
  assumption

theorem wakeThen_keeps (s : State) (c : CmdStep) (f : Flight) (i : Nat) (next : State → Start) (hs : Keeps cq co s)
    (hn : ∀ t, Keeps cq co t → StartKeeps cq co (next t)) : StartKeeps cq co (wakeThen s c f i next) := by
  unfold wakeThen
  have h := wakeSeq_keeps s c.ref.part i f.victim c f.word hs
  generalize wakeSeq s c.ref.part i f.victim c f.word = r at h
  cases h with
  | fails h => exact .reject h
  | wait h => exact .go (setStage_keeps _ _ _ h)
  | alloc h => exact .go (waitFor_keeps _ _ _ _ h)
  | awake h => exact hn _ h

end Sys2Proof.Machine
end

