-- ==== Sys2Proof/Laws/Keeps/Sequence.lean ====
section
/-! SUPPORT. What the operations of Machine/Sequence.lean keep. -/

namespace Sys2Proof.Machine

open Sys2Proof

variable {cq : List Instr} {co : Oxsis}

theorem freeAll_keeps (s : State) (p : Nat) (fs : List Nat) (hs : Keeps cq co s) : Keeps cq co (freeAll s p fs) := by
  unfold freeAll
  repeat any_goals first
    | with_reducible assumption
    | with_reducible apply freeObject_keeps
    | with_reducible apply State.draw_keeps
    | with_reducible apply foldl_keeps (Keeps cq co)
    | dsimp only
    | intro _ _ _
    | split


theorem forkTails_keeps (s : State) (c : CmdStep) (f : Flight) (i : Nat) (q : Seq) (fs : List Nat) (hs : Keeps cq co s) : StartKeeps cq co (forkTails s c f i q fs) := by
  unfold forkTails
  repeat any_goals first
    | with_reducible assumption
    | with_reducible apply StartKeeps.reject
    | with_reducible apply StartKeeps.go
    | with_reducible apply cmdReads_keeps
    | with_reducible refine cmdReads_keeps_eq_done ‹_› ?_
    | with_reducible refine cmdReads_keeps_eq_wait ‹_› ?_
    | with_reducible refine cmdReads_keeps_eq_fails ‹_› ?_
    | with_reducible apply freeAll_keeps
    | with_reducible apply newObject_keeps
    | with_reducible apply touchObject_keeps
    | with_reducible apply setPlan_keeps
    | with_reducible apply request_keeps
    | with_reducible refine request_keeps_eq_reject ‹_› ?_
    | with_reducible refine request_keeps_eq_go ‹_› ?_
    | with_reducible apply State.onFlight_keeps
    | with_reducible apply State.draw_keeps
    | with_reducible apply foldl_keeps (Keeps cq co)
    | dsimp only
    | intro _ _ _
    | split
    | with_reducible apply Keeps.lit


theorem forkTails_keeps_eq_reject {s : State} {c : CmdStep} {f : Flight} {i : Nat} {q : Seq} {fs : List Nat} {t : State} {a0} (e : forkTails s c f i q fs = .reject t a0) (hs : Keeps cq co s) : Keeps cq co t := by
  have k := forkTails_keeps s c f i q fs hs
  rw [e] at k
  cases k
  assumption

theorem forkTails_keeps_eq_go {s : State} {c : CmdStep} {f : Flight} {i : Nat} {q : Seq} {fs : List Nat} {t : State}  (e : forkTails s c f i q fs = .go t) (hs : Keeps cq co s) : Keeps cq co t := by
  have k := forkTails_keeps s c f i q fs hs
  rw [e] at k
  cases k
  assumption

theorem forkRoom_keeps (s : State) (c : CmdStep) (f : Flight) (i : Nat) (hs : Keeps cq co s) : StartKeeps cq co (forkRoom s c f i) := by
  unfold forkRoom
  repeat any_goals first
    | with_reducible assumption
    | with_reducible apply StartKeeps.reject
    | with_reducible apply StartKeeps.go
    | with_reducible apply needHot_keeps
    | with_reducible refine needHot_keeps_eq_parked ‹_› ?_
    | with_reducible apply setStage_keeps
    | with_reducible apply allocWithTables_keeps
    | with_reducible refine allocWithTables_keeps_eq_got ‹_› ?_
    | with_reducible refine allocWithTables_keeps_eq_wait ‹_› ?_
    | with_reducible refine allocWithTables_keeps_eq_none ‹_› ?_
    | with_reducible apply waitFor_keeps
    | with_reducible apply forkTails_keeps
    | with_reducible refine forkTails_keeps_eq_reject ‹_› ?_
    | with_reducible refine forkTails_keeps_eq_go ‹_› ?_
    | with_reducible apply State.draw_keeps
    | dsimp only
    | intro _ _ _
    | split


theorem forkRoom_keeps_eq_reject {s : State} {c : CmdStep} {f : Flight} {i : Nat} {t : State} {a0} (e : forkRoom s c f i = .reject t a0) (hs : Keeps cq co s) : Keeps cq co t := by
  have k := forkRoom_keeps s c f i hs
  rw [e] at k
  cases k
  assumption

theorem forkRoom_keeps_eq_go {s : State} {c : CmdStep} {f : Flight} {i : Nat} {t : State}  (e : forkRoom s c f i = .go t) (hs : Keeps cq co s) : Keeps cq co t := by
  have k := forkRoom_keeps s c f i hs
  rw [e] at k
  cases k
  assumption

theorem startSeqFork_keeps (s : State) (c : CmdStep) (x1 : Slot) (f : Flight) (hs : Keeps cq co s) : StartKeeps cq co (startSeqFork s c x1 f) := by
  unfold startSeqFork
  repeat any_goals first
    | with_reducible assumption
    | with_reducible apply StartKeeps.reject
    | with_reducible apply StartKeeps.go
    | with_reducible apply wakeThen_keeps
    | with_reducible apply forkRoom_keeps
    | with_reducible refine forkRoom_keeps_eq_reject ‹_› ?_
    | with_reducible refine forkRoom_keeps_eq_go ‹_› ?_
    | with_reducible apply State.draw_keeps
    | dsimp only
    | intro _ _ _
    | split
    | intro _ _


theorem startSeqFork_keeps_eq_reject {s : State} {c : CmdStep} {x1 : Slot} {f : Flight} {t : State} {a0} (e : startSeqFork s c x1 f = .reject t a0) (hs : Keeps cq co s) : Keeps cq co t := by
  have k := startSeqFork_keeps s c x1 f hs
  rw [e] at k
  cases k
  assumption

theorem startSeqFork_keeps_eq_go {s : State} {c : CmdStep} {x1 : Slot} {f : Flight} {t : State}  (e : startSeqFork s c x1 f = .go t) (hs : Keeps cq co s) : Keeps cq co t := by
  have k := startSeqFork_keeps s c x1 f hs
  rw [e] at k
  cases k
  assumption

theorem copyCheck_keeps_eq {s : State} {c : CmdRef} {f : Flight} {r : Commit} (e : copyCheck s c f = some r) (hs : Keeps cq co s) : CommitKeeps cq co r := by
  unfold copyCheck at e
  repeat any_goals first
    | dsimp only at e
    | (cases e; done)
    | cases e
    | split at e
    | with_reducible apply CommitKeeps.hold
    | with_reducible apply CommitKeeps.kill
    | with_reducible apply CommitKeeps.reject
    | with_reducible apply CommitKeeps.done
    | with_reducible assumption
    | with_reducible apply State.draw_keeps
    | dsimp only
    | intro _ _ _
    | split


theorem putSeq_keeps (s : State) (p i : Nat) (q : Seq) (hs : Keeps cq co s) : Keeps cq co (putSeq s p i q) := by
  unfold putSeq
  repeat any_goals first
    | with_reducible assumption
    | with_reducible apply State.onPart_keeps
    | with_reducible apply State.draw_keeps
    | dsimp only
    | intro _ _ _
    | split
    | with_reducible apply Keeps.lit


theorem commitSeqFork_keeps (s : State) (c : CmdRef) (x1 : Slot) (f : Flight) (hs : Keeps cq co s) : CommitKeeps cq co (commitSeqFork s c x1 f) := by
  unfold commitSeqFork
  repeat any_goals first
    | with_reducible assumption
    | with_reducible apply CommitKeeps.hold
    | with_reducible apply CommitKeeps.kill
    | with_reducible apply CommitKeeps.reject
    | with_reducible apply CommitKeeps.done
    | with_reducible refine copyCheck_keeps_eq ‹_› ?_
    | with_reducible apply addRef_keeps
    | with_reducible apply putSeq_keeps
    | with_reducible apply useSeq_keeps
    | with_reducible apply promoteTail_keeps
    | with_reducible apply setPlan_keeps
    | with_reducible apply State.draw_keeps
    | with_reducible apply foldl_keeps (Keeps cq co)
    | dsimp only
    | intro _ _ _
    | split
    | with_reducible apply Keeps.lit


theorem commitSeqFork_keeps_eq_hold {s : State} {c : CmdRef} {x1 : Slot} {f : Flight} {t : State}  (e : commitSeqFork s c x1 f = .hold t) (hs : Keeps cq co s) : Keeps cq co t := by
  have k := commitSeqFork_keeps s c x1 f hs
  rw [e] at k
  cases k
  assumption

theorem commitSeqFork_keeps_eq_kill {s : State} {c : CmdRef} {x1 : Slot} {f : Flight} {t : State}  (e : commitSeqFork s c x1 f = .kill t) (hs : Keeps cq co s) : Keeps cq co t := by
  have k := commitSeqFork_keeps s c x1 f hs
  rw [e] at k
  cases k
  assumption

theorem commitSeqFork_keeps_eq_reject {s : State} {c : CmdRef} {x1 : Slot} {f : Flight} {t : State} {a0} (e : commitSeqFork s c x1 f = .reject t a0) (hs : Keeps cq co s) : Keeps cq co t := by
  have k := commitSeqFork_keeps s c x1 f hs
  rw [e] at k
  cases k
  assumption

theorem commitSeqFork_keeps_eq_done {s : State} {c : CmdRef} {x1 : Slot} {f : Flight} {t : State} {a0} {a1} {a2} {a3} (e : commitSeqFork s c x1 f = .done t a0 a1 a2 a3) (hs : Keeps cq co s) : Keeps cq co t := by
  have k := commitSeqFork_keeps s c x1 f hs
  rw [e] at k
  cases k
  assumption

theorem pinFor_keeps (s : State) (c : CmdRef) (sets : List Nat) (hs : Keeps cq co s) : Keeps cq co (pinFor s c sets) := by
  unfold pinFor
  repeat any_goals first
    | with_reducible assumption
    | with_reducible apply pinSet_keeps
    | with_reducible refine pinSet_keeps_eq ‹_› ?_
    | with_reducible apply State.onFlight_keeps
    | with_reducible apply State.draw_keeps
    | with_reducible apply foldl_keeps (Keeps cq co)
    | dsimp only
    | intro _ _ _
    | split
    | with_reducible apply Keeps.lit


theorem trimPages_keeps (s : State) (c : CmdStep) (f : Flight) (q : Seq) (psn slots : Nat) (fs : List Nat) (hs : Keeps cq co s) : StartKeeps cq co (trimPages s c f q psn slots fs) := by
  unfold trimPages
  repeat any_goals first
    | with_reducible assumption
    | with_reducible apply StartKeeps.reject
    | with_reducible apply StartKeeps.go
    | with_reducible apply cmdReads_keeps
    | with_reducible refine cmdReads_keeps_eq_done ‹_› ?_
    | with_reducible refine cmdReads_keeps_eq_wait ‹_› ?_
    | with_reducible refine cmdReads_keeps_eq_fails ‹_› ?_
    | with_reducible apply freeAll_keeps
    | with_reducible apply pinFor_keeps
    | with_reducible apply touchObject_keeps
    | with_reducible apply newObject_keeps
    | with_reducible apply request_keeps
    | with_reducible refine request_keeps_eq_reject ‹_› ?_
    | with_reducible refine request_keeps_eq_go ‹_› ?_
    | with_reducible apply setPlan_keeps
    | with_reducible apply State.draw_keeps
    | with_reducible apply foldl_keeps (Keeps cq co)
    | dsimp only
    | intro _ _ _
    | split


theorem trimPages_keeps_eq_reject {s : State} {c : CmdStep} {f : Flight} {q : Seq} {psn slots : Nat} {fs : List Nat} {t : State} {a0} (e : trimPages s c f q psn slots fs = .reject t a0) (hs : Keeps cq co s) : Keeps cq co t := by
  have k := trimPages_keeps s c f q psn slots fs hs
  rw [e] at k
  cases k
  assumption

theorem trimPages_keeps_eq_go {s : State} {c : CmdStep} {f : Flight} {q : Seq} {psn slots : Nat} {fs : List Nat} {t : State}  (e : trimPages s c f q psn slots fs = .go t) (hs : Keeps cq co s) : Keeps cq co t := by
  have k := trimPages_keeps s c f q psn slots fs hs
  rw [e] at k
  cases k
  assumption

theorem trimRoom_keeps (s : State) (c : CmdStep) (f : Flight) (i tk : Nat) (hs : Keeps cq co s) : StartKeeps cq co (trimRoom s c f i tk) := by
  unfold trimRoom
  repeat any_goals first
    | with_reducible assumption
    | with_reducible apply StartKeeps.reject
    | with_reducible apply StartKeeps.go
    | with_reducible apply State.onFlight_keeps
    | with_reducible apply request_keeps
    | with_reducible refine request_keeps_eq_reject ‹_› ?_
    | with_reducible refine request_keeps_eq_go ‹_› ?_
    | with_reducible apply setPlan_keeps
    | with_reducible refine waitSegments_keeps_eq ‹_› ?_
    | with_reducible apply allocAll_keeps
    | with_reducible refine allocAll_keeps_eq_got ‹_› ?_
    | with_reducible refine allocAll_keeps_eq_wait ‹_› ?_
    | with_reducible refine allocAll_keeps_eq_none ‹_› ?_
    | with_reducible apply waitFor_keeps
    | with_reducible apply trimPages_keeps
    | with_reducible refine trimPages_keeps_eq_reject ‹_› ?_
    | with_reducible refine trimPages_keeps_eq_go ‹_› ?_
    | with_reducible apply State.draw_keeps
    | dsimp only
    | intro _ _ _
    | split
    | with_reducible apply Keeps.lit


theorem trimRoom_keeps_eq_reject {s : State} {c : CmdStep} {f : Flight} {i tk : Nat} {t : State} {a0} (e : trimRoom s c f i tk = .reject t a0) (hs : Keeps cq co s) : Keeps cq co t := by
  have k := trimRoom_keeps s c f i tk hs
  rw [e] at k
  cases k
  assumption

theorem trimRoom_keeps_eq_go {s : State} {c : CmdStep} {f : Flight} {i tk : Nat} {t : State}  (e : trimRoom s c f i tk = .go t) (hs : Keeps cq co s) : Keeps cq co t := by
  have k := trimRoom_keeps s c f i tk hs
  rw [e] at k
  cases k
  assumption

theorem startSeqTrim_keeps (s : State) (c : CmdStep) (x1 : Slot) (f : Flight) (hs : Keeps cq co s) : StartKeeps cq co (startSeqTrim s c x1 f) := by
  unfold startSeqTrim
  repeat any_goals first
    | with_reducible assumption
    | with_reducible apply StartKeeps.reject
    | with_reducible apply StartKeeps.go
    | with_reducible apply wakeThen_keeps
    | with_reducible apply trimRoom_keeps
    | with_reducible refine trimRoom_keeps_eq_reject ‹_› ?_
    | with_reducible refine trimRoom_keeps_eq_go ‹_› ?_
    | with_reducible apply State.draw_keeps
    | dsimp only
    | intro _ _ _
    | split
    | intro _ _


theorem startSeqTrim_keeps_eq_reject {s : State} {c : CmdStep} {x1 : Slot} {f : Flight} {t : State} {a0} (e : startSeqTrim s c x1 f = .reject t a0) (hs : Keeps cq co s) : Keeps cq co t := by
  have k := startSeqTrim_keeps s c x1 f hs
  rw [e] at k
  cases k
  assumption

theorem startSeqTrim_keeps_eq_go {s : State} {c : CmdStep} {x1 : Slot} {f : Flight} {t : State}  (e : startSeqTrim s c x1 f = .go t) (hs : Keeps cq co s) : Keeps cq co t := by
  have k := startSeqTrim_keeps s c x1 f hs
  rw [e] at k
  cases k
  assumption

theorem commitSeqTrim_keeps (s : State) (c : CmdRef) (x1 : Slot) (f : Flight) (hs : Keeps cq co s) :
    CommitKeeps cq co (commitSeqTrim s c x1 f) := by
  have proms : ∀ t, Keeps cq co t →
      Keeps cq co (f.pins.foldl (fun s e => (List.range 256).foldl (fun s l => promote s c.part e.1 l) s) t) := fun t ht =>
    foldl_keeps (Keeps cq co) _ (fun s e h => foldl_keeps (Keeps cq co) _ (fun s l h => promote_keeps _ _ _ _ h) _ _ h) _ _ ht
  have locs : ∀ (l : Map Loc) t, Keeps cq co t → Keeps cq co (l.foldl (fun s e => freeLoc s c.part e.2) t) := fun l t ht =>
    foldl_keeps (Keeps cq co) _ (fun s e h => freeLoc_keeps _ _ _ h) _ _ ht
  have tents : ∀ (l : Map Tent) t, Keeps cq co t → Keeps cq co (l.foldl (fun s e => freeObject s c.part e.2.frame) t) := fun l t ht =>
    foldl_keeps (Keeps cq co) _ (fun s e h => freeObject_keeps _ _ _ h) _ _ ht
  have refs : ∀ (l : List PtEntry) t, Keeps cq co t → Keeps cq co (l.foldl (fun s e => dropRef s c.part e.psn) t) := fun l t ht =>
    foldl_keeps (Keeps cq co) _ (fun s e h => dropRef_keeps _ _ _ h) _ _ ht
  unfold commitSeqTrim
  split
  next e => exact copyCheck_keeps_eq e hs
  · split
    · have h1 := proms s hs
      exact .done (setPlan_keeps _ _ _ (refs _ _ (State.onPart_keeps _ _ _ (State.onSeq_keeps _ _ _ _ (.ite (.ite h1 (locs _ _ h1)) (tents _ _ (.ite h1 (locs _ _ h1))))))))
    · exact .reject hs

theorem closeElems_keeps (s : State) (c : CmdRef) (i : Nat) (es : List Elem) (hs : Keeps cq co s) : Keeps cq co (closeElems s c i es) := by
  unfold closeElems
  repeat any_goals first
    | with_reducible assumption
    | with_reducible apply abandonPackets_keeps
    | with_reducible apply failElem_keeps
    | with_reducible apply removeUnits_keeps
    | with_reducible apply State.draw_keeps
    | with_reducible apply foldl_keeps (Keeps cq co)
    | dsimp only
    | intro _ _ _
    | split


theorem failUsers_keeps (s : State) (p i : Nat) (own : CmdRef) (hs : Keeps cq co s) : Keeps cq co (failUsers s p i own) := by
  unfold failUsers
  repeat any_goals first
    | with_reducible assumption
    | with_reducible apply closeElems_keeps
    | with_reducible apply State.onAcct_keeps
    | with_reducible apply State.onFlight_keeps
    | with_reducible apply releaseRun_keeps
    | with_reducible apply setStage_keeps
    | with_reducible apply State.draw_keeps
    | with_reducible apply foldl_keeps (Keeps cq co)
    | dsimp only
    | intro _ _ _
    | split
    | with_reducible apply Keeps.lit


theorem closeSeq_keeps (s : State) (p i : Nat) (own : CmdRef) (hs : Keeps cq co s) : Keeps cq co (closeSeq s p i own) := by
  unfold closeSeq
  repeat any_goals first
    | with_reducible assumption
    | with_reducible apply forgetReservations_keeps
    | with_reducible apply failUsers_keeps
    | with_reducible apply dropTents_keeps
    | with_reducible refine dropTents_keeps_eq ‹_› ?_
    | with_reducible apply abandonMoves_keeps
    | with_reducible apply freeLoc_keeps
    | with_reducible apply State.onPart_keeps
    | with_reducible apply dropRef_keeps
    | with_reducible apply State.draw_keeps
    | with_reducible apply foldl_keeps (Keeps cq co)
    | dsimp only
    | intro _ _ _
    | split
    | with_reducible apply Keeps.lit


theorem startHandle_keeps (s : State) (c : CmdStep) (f : Flight) (hs : Keeps cq co s) : StartKeeps cq co (startHandle s c f) := by
  unfold startHandle
  repeat any_goals first
    | with_reducible assumption
    | with_reducible apply StartKeeps.reject
    | with_reducible apply StartKeeps.go
    | with_reducible apply request_keeps
    | with_reducible refine request_keeps_eq_reject ‹_› ?_
    | with_reducible refine request_keeps_eq_go ‹_› ?_
    | with_reducible apply State.draw_keeps
    | dsimp only
    | intro _ _ _
    | split


theorem startHandle_keeps_eq_reject {s : State} {c : CmdStep} {f : Flight} {t : State} {a0} (e : startHandle s c f = .reject t a0) (hs : Keeps cq co s) : Keeps cq co t := by
  have k := startHandle_keeps s c f hs
  rw [e] at k
  cases k
  assumption

theorem startHandle_keeps_eq_go {s : State} {c : CmdStep} {f : Flight} {t : State}  (e : startHandle s c f = .go t) (hs : Keeps cq co s) : Keeps cq co t := by
  have k := startHandle_keeps s c f hs
  rw [e] at k
  cases k
  assumption

theorem startSeqClose_keeps (s : State) (c : CmdStep) (x1 : Slot) (f : Flight) (hs : Keeps cq co s) : StartKeeps cq co (startSeqClose s c x1 f) := by
  unfold startSeqClose
  repeat any_goals first
    | with_reducible assumption
    | with_reducible apply StartKeeps.reject
    | with_reducible apply StartKeeps.go
    | with_reducible apply startHandle_keeps
    | with_reducible refine startHandle_keeps_eq_reject ‹_› ?_
    | with_reducible refine startHandle_keeps_eq_go ‹_› ?_
    | with_reducible apply State.draw_keeps
    | dsimp only
    | intro _ _ _
    | split


theorem startSeqClose_keeps_eq_reject {s : State} {c : CmdStep} {x1 : Slot} {f : Flight} {t : State} {a0} (e : startSeqClose s c x1 f = .reject t a0) (hs : Keeps cq co s) : Keeps cq co t := by
  have k := startSeqClose_keeps s c x1 f hs
  rw [e] at k
  cases k
  assumption

theorem startSeqClose_keeps_eq_go {s : State} {c : CmdStep} {x1 : Slot} {f : Flight} {t : State}  (e : startSeqClose s c x1 f = .go t) (hs : Keeps cq co s) : Keeps cq co t := by
  have k := startSeqClose_keeps s c x1 f hs
  rw [e] at k
  cases k
  assumption

theorem commitSeqClose_keeps (s : State) (c : CmdRef) (x1 : Slot) (f : Flight) (hs : Keeps cq co s) : CommitKeeps cq co (commitSeqClose s c x1 f) := by
  unfold commitSeqClose
  repeat any_goals first
    | with_reducible assumption
    | with_reducible apply CommitKeeps.hold
    | with_reducible apply CommitKeeps.kill
    | with_reducible apply CommitKeeps.reject
    | with_reducible apply CommitKeeps.done
    | with_reducible apply closeSeq_keeps
    | with_reducible apply State.draw_keeps
    | dsimp only
    | intro _ _ _
    | split


theorem commitSeqClose_keeps_eq_hold {s : State} {c : CmdRef} {x1 : Slot} {f : Flight} {t : State}  (e : commitSeqClose s c x1 f = .hold t) (hs : Keeps cq co s) : Keeps cq co t := by
  have k := commitSeqClose_keeps s c x1 f hs
  rw [e] at k
  cases k
  assumption

theorem commitSeqClose_keeps_eq_kill {s : State} {c : CmdRef} {x1 : Slot} {f : Flight} {t : State}  (e : commitSeqClose s c x1 f = .kill t) (hs : Keeps cq co s) : Keeps cq co t := by
  have k := commitSeqClose_keeps s c x1 f hs
  rw [e] at k
  cases k
  assumption

theorem commitSeqClose_keeps_eq_reject {s : State} {c : CmdRef} {x1 : Slot} {f : Flight} {t : State} {a0} (e : commitSeqClose s c x1 f = .reject t a0) (hs : Keeps cq co s) : Keeps cq co t := by
  have k := commitSeqClose_keeps s c x1 f hs
  rw [e] at k
  cases k
  assumption

theorem commitSeqClose_keeps_eq_done {s : State} {c : CmdRef} {x1 : Slot} {f : Flight} {t : State} {a0} {a1} {a2} {a3} (e : commitSeqClose s c x1 f = .done t a0 a1 a2 a3) (hs : Keeps cq co s) : Keeps cq co t := by
  have k := commitSeqClose_keeps s c x1 f hs
  rw [e] at k
  cases k
  assumption

theorem parkPredict_keeps (s : State) (p i wait : Nat) (hs : Keeps cq co s) : Keeps cq co (parkPredict s p i wait) := by
  unfold parkPredict
  repeat any_goals first
    | with_reducible assumption
    | with_reducible apply State.onSeq_keeps
    | with_reducible apply State.draw_keeps
    | dsimp only
    | intro _ _ _
    | split
    | with_reducible apply Keeps.lit


theorem startSeqPark_keeps (s : State) (c : CmdStep) (x1 : Slot) (f : Flight) (hs : Keeps cq co s) : StartKeeps cq co (startSeqPark s c x1 f) := by
  unfold startSeqPark
  repeat any_goals first
    | with_reducible assumption
    | with_reducible apply StartKeeps.reject
    | with_reducible apply StartKeeps.go
    | with_reducible apply startHandle_keeps
    | with_reducible refine startHandle_keeps_eq_reject ‹_› ?_
    | with_reducible refine startHandle_keeps_eq_go ‹_› ?_
    | with_reducible apply State.draw_keeps
    | dsimp only
    | intro _ _ _
    | split


theorem startSeqPark_keeps_eq_reject {s : State} {c : CmdStep} {x1 : Slot} {f : Flight} {t : State} {a0} (e : startSeqPark s c x1 f = .reject t a0) (hs : Keeps cq co s) : Keeps cq co t := by
  have k := startSeqPark_keeps s c x1 f hs
  rw [e] at k
  cases k
  assumption

theorem startSeqPark_keeps_eq_go {s : State} {c : CmdStep} {x1 : Slot} {f : Flight} {t : State}  (e : startSeqPark s c x1 f = .go t) (hs : Keeps cq co s) : Keeps cq co t := by
  have k := startSeqPark_keeps s c x1 f hs
  rw [e] at k
  cases k
  assumption

theorem commitSeqPark_keeps (s : State) (c : CmdRef) (x1 : Slot) (f : Flight) (hs : Keeps cq co s) : CommitKeeps cq co (commitSeqPark s c x1 f) := by
  unfold commitSeqPark
  repeat any_goals first
    | with_reducible assumption
    | with_reducible apply CommitKeeps.hold
    | with_reducible apply CommitKeeps.kill
    | with_reducible apply CommitKeeps.reject
    | with_reducible apply CommitKeeps.done
    | with_reducible apply parkPredict_keeps
    | with_reducible apply parkSeq_keeps
    | with_reducible apply State.onSeq_keeps
    | with_reducible apply State.draw_keeps
    | dsimp only
    | intro _ _ _
    | split
    | with_reducible apply Keeps.lit


theorem commitSeqPark_keeps_eq_hold {s : State} {c : CmdRef} {x1 : Slot} {f : Flight} {t : State}  (e : commitSeqPark s c x1 f = .hold t) (hs : Keeps cq co s) : Keeps cq co t := by
  have k := commitSeqPark_keeps s c x1 f hs
  rw [e] at k
  cases k
  assumption

theorem commitSeqPark_keeps_eq_kill {s : State} {c : CmdRef} {x1 : Slot} {f : Flight} {t : State}  (e : commitSeqPark s c x1 f = .kill t) (hs : Keeps cq co s) : Keeps cq co t := by
  have k := commitSeqPark_keeps s c x1 f hs
  rw [e] at k
  cases k
  assumption

theorem commitSeqPark_keeps_eq_reject {s : State} {c : CmdRef} {x1 : Slot} {f : Flight} {t : State} {a0} (e : commitSeqPark s c x1 f = .reject t a0) (hs : Keeps cq co s) : Keeps cq co t := by
  have k := commitSeqPark_keeps s c x1 f hs
  rw [e] at k
  cases k
  assumption

theorem commitSeqPark_keeps_eq_done {s : State} {c : CmdRef} {x1 : Slot} {f : Flight} {t : State} {a0} {a1} {a2} {a3} (e : commitSeqPark s c x1 f = .done t a0 a1 a2 a3) (hs : Keeps cq co s) : Keeps cq co t := by
  have k := commitSeqPark_keeps s c x1 f hs
  rw [e] at k
  cases k
  assumption

theorem startSeqResume_keeps (s : State) (c : CmdStep) (x1 : Slot) (f : Flight) (hs : Keeps cq co s) : StartKeeps cq co (startSeqResume s c x1 f) := by
  unfold startSeqResume
  repeat any_goals first
    | with_reducible assumption
    | with_reducible apply StartKeeps.reject
    | with_reducible apply StartKeeps.go
    | with_reducible apply request_keeps
    | with_reducible refine request_keeps_eq_reject ‹_› ?_
    | with_reducible refine request_keeps_eq_go ‹_› ?_
    | with_reducible apply needHot_keeps
    | with_reducible refine needHot_keeps_eq_parked ‹_› ?_
    | with_reducible apply setStage_keeps
    | with_reducible apply wakeTables_keeps
    | with_reducible refine wakeTables_keeps_eq_got ‹_› ?_
    | with_reducible refine wakeTables_keeps_eq_wait ‹_› ?_
    | with_reducible refine wakeTables_keeps_eq_none ‹_› ?_
    | with_reducible apply waitFor_keeps
    | with_reducible apply setPlan_keeps
    | with_reducible apply State.onFlight_keeps
    | with_reducible apply issueFlashRead_keeps
    | with_reducible refine issueFlashRead_keeps_eq ‹_› ?_
    | with_reducible apply cmdReads_keeps
    | with_reducible refine cmdReads_keeps_eq_done ‹_› ?_
    | with_reducible refine cmdReads_keeps_eq_wait ‹_› ?_
    | with_reducible refine cmdReads_keeps_eq_fails ‹_› ?_
    | with_reducible apply State.draw_keeps
    | dsimp only
    | intro _ _ _
    | split
    | with_reducible apply Keeps.lit


theorem startSeqResume_keeps_eq_reject {s : State} {c : CmdStep} {x1 : Slot} {f : Flight} {t : State} {a0} (e : startSeqResume s c x1 f = .reject t a0) (hs : Keeps cq co s) : Keeps cq co t := by
  have k := startSeqResume_keeps s c x1 f hs
  rw [e] at k
  cases k
  assumption

theorem startSeqResume_keeps_eq_go {s : State} {c : CmdStep} {x1 : Slot} {f : Flight} {t : State}  (e : startSeqResume s c x1 f = .go t) (hs : Keeps cq co s) : Keeps cq co t := by
  have k := startSeqResume_keeps s c x1 f hs
  rw [e] at k
  cases k
  assumption

theorem dropReserve_keeps (s : State) (c : CmdRef) (hs : Keeps cq co s) : Keeps cq co (dropReserve s c) := by
  unfold dropReserve
  repeat any_goals first
    | with_reducible assumption
    | with_reducible apply State.onFlight_keeps
    | with_reducible apply State.draw_keeps
    | dsimp only
    | intro _ _ _
    | split
    | with_reducible apply Keeps.lit


theorem commitSeqResume_keeps (s : State) (c : CmdRef) (x1 : Slot) (f : Flight) (hs : Keeps cq co s) : CommitKeeps cq co (commitSeqResume s c x1 f) := by
  unfold commitSeqResume
  repeat any_goals first
    | with_reducible assumption
    | with_reducible apply CommitKeeps.hold
    | with_reducible apply CommitKeeps.kill
    | with_reducible apply CommitKeeps.reject
    | with_reducible apply CommitKeeps.done
    | with_reducible apply State.onSeq_keeps
    | with_reducible apply restWake_keeps
    | with_reducible apply dropReserve_keeps
    | with_reducible apply promoteAll_keeps
    | with_reducible refine promoteAll_keeps_eq ‹_› ?_
    | with_reducible apply wakeSeq_keeps
    | with_reducible refine wakeSeq_keeps_eq_awake ‹_› ?_
    | with_reducible refine wakeSeq_keeps_eq_wait ‹_› ?_
    | with_reducible refine wakeSeq_keeps_eq_alloc ‹_› ?_
    | with_reducible refine wakeSeq_keeps_eq_fails ‹_› ?_
    | with_reducible apply State.hold_keeps
    | with_reducible apply setStage_keeps
    | with_reducible apply waitFor_keeps
    | with_reducible apply State.draw_keeps
    | dsimp only
    | intro _ _ _
    | split
    | with_reducible apply Keeps.lit


theorem commitSeqResume_keeps_eq_hold {s : State} {c : CmdRef} {x1 : Slot} {f : Flight} {t : State}  (e : commitSeqResume s c x1 f = .hold t) (hs : Keeps cq co s) : Keeps cq co t := by
  have k := commitSeqResume_keeps s c x1 f hs
  rw [e] at k
  cases k
  assumption

theorem commitSeqResume_keeps_eq_kill {s : State} {c : CmdRef} {x1 : Slot} {f : Flight} {t : State}  (e : commitSeqResume s c x1 f = .kill t) (hs : Keeps cq co s) : Keeps cq co t := by
  have k := commitSeqResume_keeps s c x1 f hs
  rw [e] at k
  cases k
  assumption

theorem commitSeqResume_keeps_eq_reject {s : State} {c : CmdRef} {x1 : Slot} {f : Flight} {t : State} {a0} (e : commitSeqResume s c x1 f = .reject t a0) (hs : Keeps cq co s) : Keeps cq co t := by
  have k := commitSeqResume_keeps s c x1 f hs
  rw [e] at k
  cases k
  assumption

theorem commitSeqResume_keeps_eq_done {s : State} {c : CmdRef} {x1 : Slot} {f : Flight} {t : State} {a0} {a1} {a2} {a3} (e : commitSeqResume s c x1 f = .done t a0 a1 a2 a3) (hs : Keeps cq co s) : Keeps cq co t := by
  have k := commitSeqResume_keeps s c x1 f hs
  rw [e] at k
  cases k
  assumption

theorem trimWakeList_keeps (s : State) (hs : Keeps cq co s) : Keeps cq co (trimWakeList s) := by
  unfold trimWakeList
  repeat any_goals first
    | with_reducible assumption
    | with_reducible apply State.onSeq_keeps
    | with_reducible apply State.draw_keeps
    | dsimp only
    | intro _ _ _
    | split
    | with_reducible apply Keeps.lit


theorem startSeqHint_keeps (s : State) (c : CmdStep) (x1 : Slot) (f : Flight) (hs : Keeps cq co s) : StartKeeps cq co (startSeqHint s c x1 f) := by
  unfold startSeqHint
  repeat any_goals first
    | with_reducible assumption
    | with_reducible apply StartKeeps.reject
    | with_reducible apply StartKeeps.go
    | with_reducible apply startHandle_keeps
    | with_reducible refine startHandle_keeps_eq_reject ‹_› ?_
    | with_reducible refine startHandle_keeps_eq_go ‹_› ?_
    | with_reducible apply State.draw_keeps
    | dsimp only
    | intro _ _ _
    | split


theorem startSeqHint_keeps_eq_reject {s : State} {c : CmdStep} {x1 : Slot} {f : Flight} {t : State} {a0} (e : startSeqHint s c x1 f = .reject t a0) (hs : Keeps cq co s) : Keeps cq co t := by
  have k := startSeqHint_keeps s c x1 f hs
  rw [e] at k
  cases k
  assumption

theorem startSeqHint_keeps_eq_go {s : State} {c : CmdStep} {x1 : Slot} {f : Flight} {t : State}  (e : startSeqHint s c x1 f = .go t) (hs : Keeps cq co s) : Keeps cq co t := by
  have k := startSeqHint_keeps s c x1 f hs
  rw [e] at k
  cases k
  assumption

theorem commitSeqHint_keeps (s : State) (c : CmdRef) (x1 : Slot) (f : Flight) (hs : Keeps cq co s) : CommitKeeps cq co (commitSeqHint s c x1 f) := by
  unfold commitSeqHint
  repeat any_goals first
    | with_reducible assumption
    | with_reducible apply CommitKeeps.hold
    | with_reducible apply CommitKeeps.kill
    | with_reducible apply CommitKeeps.reject
    | with_reducible apply CommitKeeps.done
    | with_reducible apply useSeq_keeps
    | with_reducible apply State.onSeq_keeps
    | with_reducible apply trimWakeList_keeps
    | with_reducible apply State.draw_keeps
    | dsimp only
    | intro _ _ _
    | split
    | with_reducible apply Keeps.lit


theorem commitSeqHint_keeps_eq_hold {s : State} {c : CmdRef} {x1 : Slot} {f : Flight} {t : State}  (e : commitSeqHint s c x1 f = .hold t) (hs : Keeps cq co s) : Keeps cq co t := by
  have k := commitSeqHint_keeps s c x1 f hs
  rw [e] at k
  cases k
  assumption

theorem commitSeqHint_keeps_eq_kill {s : State} {c : CmdRef} {x1 : Slot} {f : Flight} {t : State}  (e : commitSeqHint s c x1 f = .kill t) (hs : Keeps cq co s) : Keeps cq co t := by
  have k := commitSeqHint_keeps s c x1 f hs
  rw [e] at k
  cases k
  assumption

theorem commitSeqHint_keeps_eq_reject {s : State} {c : CmdRef} {x1 : Slot} {f : Flight} {t : State} {a0} (e : commitSeqHint s c x1 f = .reject t a0) (hs : Keeps cq co s) : Keeps cq co t := by
  have k := commitSeqHint_keeps s c x1 f hs
  rw [e] at k
  cases k
  assumption

theorem commitSeqHint_keeps_eq_done {s : State} {c : CmdRef} {x1 : Slot} {f : Flight} {t : State} {a0} {a1} {a2} {a3} (e : commitSeqHint s c x1 f = .done t a0 a1 a2 a3) (hs : Keeps cq co s) : Keeps cq co t := by
  have k := commitSeqHint_keeps s c x1 f hs
  rw [e] at k
  cases k
  assumption

theorem startSpecCancel_keeps (s : State) (c : CmdStep) (x1 : Slot) (f : Flight) (hs : Keeps cq co s) : StartKeeps cq co (startSpecCancel s c x1 f) := by
  unfold startSpecCancel
  repeat any_goals first
    | with_reducible assumption
    | with_reducible apply StartKeeps.reject
    | with_reducible apply StartKeeps.go
    | with_reducible apply startHandle_keeps
    | with_reducible refine startHandle_keeps_eq_reject ‹_› ?_
    | with_reducible refine startHandle_keeps_eq_go ‹_› ?_
    | with_reducible apply State.draw_keeps
    | dsimp only
    | intro _ _ _
    | split


theorem startSpecCancel_keeps_eq_reject {s : State} {c : CmdStep} {x1 : Slot} {f : Flight} {t : State} {a0} (e : startSpecCancel s c x1 f = .reject t a0) (hs : Keeps cq co s) : Keeps cq co t := by
  have k := startSpecCancel_keeps s c x1 f hs
  rw [e] at k
  cases k
  assumption

theorem startSpecCancel_keeps_eq_go {s : State} {c : CmdStep} {x1 : Slot} {f : Flight} {t : State}  (e : startSpecCancel s c x1 f = .go t) (hs : Keeps cq co s) : Keeps cq co t := by
  have k := startSpecCancel_keeps s c x1 f hs
  rw [e] at k
  cases k
  assumption

theorem commitSpecCancel_keeps (s : State) (c : CmdRef) (x1 : Slot) (f : Flight) (hs : Keeps cq co s) : CommitKeeps cq co (commitSpecCancel s c x1 f) := by
  unfold commitSpecCancel
  repeat any_goals first
    | with_reducible assumption
    | with_reducible apply CommitKeeps.hold
    | with_reducible apply CommitKeeps.kill
    | with_reducible apply CommitKeeps.reject
    | with_reducible apply CommitKeeps.done
    | with_reducible apply dropTents_keeps
    | with_reducible refine dropTents_keeps_eq ‹_› ?_
    | with_reducible apply State.hold_keeps
    | with_reducible apply useSeq_keeps
    | with_reducible apply State.onSeq_keeps
    | with_reducible apply State.draw_keeps
    | dsimp only
    | intro _ _ _
    | split


theorem commitSpecCancel_keeps_eq_hold {s : State} {c : CmdRef} {x1 : Slot} {f : Flight} {t : State}  (e : commitSpecCancel s c x1 f = .hold t) (hs : Keeps cq co s) : Keeps cq co t := by
  have k := commitSpecCancel_keeps s c x1 f hs
  rw [e] at k
  cases k
  assumption

theorem commitSpecCancel_keeps_eq_kill {s : State} {c : CmdRef} {x1 : Slot} {f : Flight} {t : State}  (e : commitSpecCancel s c x1 f = .kill t) (hs : Keeps cq co s) : Keeps cq co t := by
  have k := commitSpecCancel_keeps s c x1 f hs
  rw [e] at k
  cases k
  assumption

theorem commitSpecCancel_keeps_eq_reject {s : State} {c : CmdRef} {x1 : Slot} {f : Flight} {t : State} {a0} (e : commitSpecCancel s c x1 f = .reject t a0) (hs : Keeps cq co s) : Keeps cq co t := by
  have k := commitSpecCancel_keeps s c x1 f hs
  rw [e] at k
  cases k
  assumption

theorem commitSpecCancel_keeps_eq_done {s : State} {c : CmdRef} {x1 : Slot} {f : Flight} {t : State} {a0} {a1} {a2} {a3} (e : commitSpecCancel s c x1 f = .done t a0 a1 a2 a3) (hs : Keeps cq co s) : Keeps cq co t := by
  have k := commitSpecCancel_keeps s c x1 f hs
  rw [e] at k
  cases k
  assumption

theorem startSeqQuery_keeps (s : State) (c : CmdStep) (x1 : Slot) (f : Flight) (hs : Keeps cq co s) : StartKeeps cq co (startSeqQuery s c x1 f) := by
  unfold startSeqQuery
  repeat any_goals first
    | with_reducible assumption
    | with_reducible apply StartKeeps.reject
    | with_reducible apply StartKeeps.go
    | with_reducible apply request_keeps
    | with_reducible refine request_keeps_eq_reject ‹_› ?_
    | with_reducible refine request_keeps_eq_go ‹_› ?_
    | with_reducible apply State.draw_keeps
    | dsimp only
    | intro _ _ _
    | split


theorem startSeqQuery_keeps_eq_reject {s : State} {c : CmdStep} {x1 : Slot} {f : Flight} {t : State} {a0} (e : startSeqQuery s c x1 f = .reject t a0) (hs : Keeps cq co s) : Keeps cq co t := by
  have k := startSeqQuery_keeps s c x1 f hs
  rw [e] at k
  cases k
  assumption

theorem startSeqQuery_keeps_eq_go {s : State} {c : CmdStep} {x1 : Slot} {f : Flight} {t : State}  (e : startSeqQuery s c x1 f = .go t) (hs : Keeps cq co s) : Keeps cq co t := by
  have k := startSeqQuery_keeps s c x1 f hs
  rw [e] at k
  cases k
  assumption

theorem commitSeqQuery_keeps (s : State) (c : CmdRef) (x1 : Slot) (f : Flight) (hs : Keeps cq co s) : CommitKeeps cq co (commitSeqQuery s c x1 f) := by
  unfold commitSeqQuery
  repeat any_goals first
    | with_reducible assumption
    | with_reducible apply CommitKeeps.hold
    | with_reducible apply CommitKeeps.kill
    | with_reducible apply CommitKeeps.reject
    | with_reducible apply CommitKeeps.done
    | with_reducible apply useSeq_keeps
    | with_reducible apply State.draw_keeps
    | dsimp only
    | intro _ _ _
    | split


theorem commitSeqQuery_keeps_eq_hold {s : State} {c : CmdRef} {x1 : Slot} {f : Flight} {t : State}  (e : commitSeqQuery s c x1 f = .hold t) (hs : Keeps cq co s) : Keeps cq co t := by
  have k := commitSeqQuery_keeps s c x1 f hs
  rw [e] at k
  cases k
  assumption

theorem commitSeqQuery_keeps_eq_kill {s : State} {c : CmdRef} {x1 : Slot} {f : Flight} {t : State}  (e : commitSeqQuery s c x1 f = .kill t) (hs : Keeps cq co s) : Keeps cq co t := by
  have k := commitSeqQuery_keeps s c x1 f hs
  rw [e] at k
  cases k
  assumption

theorem commitSeqQuery_keeps_eq_reject {s : State} {c : CmdRef} {x1 : Slot} {f : Flight} {t : State} {a0} (e : commitSeqQuery s c x1 f = .reject t a0) (hs : Keeps cq co s) : Keeps cq co t := by
  have k := commitSeqQuery_keeps s c x1 f hs
  rw [e] at k
  cases k
  assumption

theorem commitSeqQuery_keeps_eq_done {s : State} {c : CmdRef} {x1 : Slot} {f : Flight} {t : State} {a0} {a1} {a2} {a3} (e : commitSeqQuery s c x1 f = .done t a0 a1 a2 a3) (hs : Keeps cq co s) : Keeps cq co t := by
  have k := commitSeqQuery_keeps s c x1 f hs
  rw [e] at k
  cases k
  assumption

theorem kvReadPages_keeps (s : State) (c : CmdStep) (f : Flight) (i layer fmt lo n : Nat) (hs : Keeps cq co s) : StartKeeps cq co (kvReadPages s c f i layer fmt lo n) := by
  unfold kvReadPages
  repeat any_goals first
    | with_reducible assumption
    | with_reducible apply StartKeeps.reject
    | with_reducible apply StartKeeps.go
    | with_reducible refine waitSegments_keeps_eq ‹_› ?_
    | with_reducible apply pinFor_keeps
    | with_reducible apply cmdReads_keeps
    | with_reducible refine cmdReads_keeps_eq_done ‹_› ?_
    | with_reducible refine cmdReads_keeps_eq_wait ‹_› ?_
    | with_reducible refine cmdReads_keeps_eq_fails ‹_› ?_
    | with_reducible apply touchObject_keeps
    | with_reducible apply request_keeps
    | with_reducible refine request_keeps_eq_reject ‹_› ?_
    | with_reducible refine request_keeps_eq_go ‹_› ?_
    | with_reducible apply setPlan_keeps
    | with_reducible apply State.draw_keeps
    | with_reducible apply foldl_keeps (Keeps cq co)
    | dsimp only
    | intro _ _ _
    | split


theorem kvReadPages_keeps_eq_reject {s : State} {c : CmdStep} {f : Flight} {i layer fmt lo n : Nat} {t : State} {a0} (e : kvReadPages s c f i layer fmt lo n = .reject t a0) (hs : Keeps cq co s) : Keeps cq co t := by
  have k := kvReadPages_keeps s c f i layer fmt lo n hs
  rw [e] at k
  cases k
  assumption

theorem kvReadPages_keeps_eq_go {s : State} {c : CmdStep} {f : Flight} {i layer fmt lo n : Nat} {t : State}  (e : kvReadPages s c f i layer fmt lo n = .go t) (hs : Keeps cq co s) : Keeps cq co t := by
  have k := kvReadPages_keeps s c f i layer fmt lo n hs
  rw [e] at k
  cases k
  assumption

theorem startKvRead_keeps (s : State) (c : CmdStep) (x1 : Slot) (f : Flight) (hs : Keeps cq co s) : StartKeeps cq co (startKvRead s c x1 f) := by
  unfold startKvRead
  repeat any_goals first
    | with_reducible assumption
    | with_reducible apply StartKeeps.reject
    | with_reducible apply StartKeeps.go
    | with_reducible apply wakeThen_keeps
    | with_reducible apply kvReadPages_keeps
    | with_reducible refine kvReadPages_keeps_eq_reject ‹_› ?_
    | with_reducible refine kvReadPages_keeps_eq_go ‹_› ?_
    | with_reducible apply State.draw_keeps
    | dsimp only
    | intro _ _ _
    | split
    | intro _ _


theorem startKvRead_keeps_eq_reject {s : State} {c : CmdStep} {x1 : Slot} {f : Flight} {t : State} {a0} (e : startKvRead s c x1 f = .reject t a0) (hs : Keeps cq co s) : Keeps cq co t := by
  have k := startKvRead_keeps s c x1 f hs
  rw [e] at k
  cases k
  assumption

theorem startKvRead_keeps_eq_go {s : State} {c : CmdStep} {x1 : Slot} {f : Flight} {t : State}  (e : startKvRead s c x1 f = .go t) (hs : Keeps cq co s) : Keeps cq co t := by
  have k := startKvRead_keeps s c x1 f hs
  rw [e] at k
  cases k
  assumption

theorem commitKvRead_keeps (s : State) (c : CmdRef) (x1 : Slot) (f : Flight) (hs : Keeps cq co s) : CommitKeeps cq co (commitKvRead s c x1 f) := by
  unfold commitKvRead
  repeat any_goals first
    | with_reducible assumption
    | with_reducible apply CommitKeeps.hold
    | with_reducible apply CommitKeeps.kill
    | with_reducible apply CommitKeeps.reject
    | with_reducible apply CommitKeeps.done
    | with_reducible apply promote_keeps
    | with_reducible apply useSeq_keeps
    | with_reducible apply promoteTail_keeps
    | with_reducible apply State.draw_keeps
    | with_reducible apply foldl_keeps (Keeps cq co)
    | dsimp only
    | intro _ _ _
    | split


theorem commitKvRead_keeps_eq_hold {s : State} {c : CmdRef} {x1 : Slot} {f : Flight} {t : State}  (e : commitKvRead s c x1 f = .hold t) (hs : Keeps cq co s) : Keeps cq co t := by
  have k := commitKvRead_keeps s c x1 f hs
  rw [e] at k
  cases k
  assumption

theorem commitKvRead_keeps_eq_kill {s : State} {c : CmdRef} {x1 : Slot} {f : Flight} {t : State}  (e : commitKvRead s c x1 f = .kill t) (hs : Keeps cq co s) : Keeps cq co t := by
  have k := commitKvRead_keeps s c x1 f hs
  rw [e] at k
  cases k
  assumption

theorem commitKvRead_keeps_eq_reject {s : State} {c : CmdRef} {x1 : Slot} {f : Flight} {t : State} {a0} (e : commitKvRead s c x1 f = .reject t a0) (hs : Keeps cq co s) : Keeps cq co t := by
  have k := commitKvRead_keeps s c x1 f hs
  rw [e] at k
  cases k
  assumption

theorem commitKvRead_keeps_eq_done {s : State} {c : CmdRef} {x1 : Slot} {f : Flight} {t : State} {a0} {a1} {a2} {a3} (e : commitKvRead s c x1 f = .done t a0 a1 a2 a3) (hs : Keeps cq co s) : Keeps cq co t := by
  have k := commitKvRead_keeps s c x1 f hs
  rw [e] at k
  cases k
  assumption

end Sys2Proof.Machine
end

