-- ==== Sys2Proof/Laws/Keeps/Prefix.lean ====
section
/-! SUPPORT. What the operations of Machine/Prefix.lean keep. -/

namespace Sys2Proof.Machine

open Sys2Proof

variable {cq : List Instr} {co : Oxsis}

theorem lookupOne_keeps (s : State) (c : CmdRef) (model k : Nat) (prev : BitVec 128) (tokens : List Word) (hs : Keeps cq co s) : Keeps cq co (lookupOne s c model k prev tokens).1 := by
  unfold lookupOne
  repeat any_goals first
    | with_reducible assumption
    | with_reducible apply pinFor_keeps
    | with_reducible apply State.onFlight_keeps
    | with_reducible apply State.draw_keeps
    | dsimp only
    | intro _ _ _
    | split
    | with_reducible apply Keeps.lit


theorem lookupOne_keeps_eq {s : State} {c : CmdRef} {model k : Nat} {prev : BitVec 128} {tokens : List Word} {t : State} {a} (e : lookupOne s c model k prev tokens = (t, a)) (hs : Keeps cq co s) : Keeps cq co t := by
  have k := lookupOne_keeps s c model k prev tokens hs
  rw [e] at k
  exact k

theorem lookupDone_keeps (s : State) (c : CmdRef) (hs : Keeps cq co s) : Keeps cq co (lookupDone s c) := by
  unfold lookupDone
  repeat any_goals first
    | with_reducible assumption
    | with_reducible refine waitSegments_keeps_eq ‹_› ?_
    | with_reducible apply setPlan_keeps
    | with_reducible apply State.onFlight_keeps
    | with_reducible apply setStage_keeps
    | with_reducible apply State.draw_keeps
    | dsimp only
    | intro _ _ _
    | split
    | with_reducible apply Keeps.lit


theorem lookupAll_keeps (c : CmdRef) (model : Nat) (tokens : List Word)  : ∀ (v0 : Nat) (v1 : Nat) (v2 : BitVec 128) (v3 : State), Keeps cq co v3 → Keeps cq co (lookupAll c model tokens v0 v1 v2 v3) := by
  intro v0
  induction v0 with
  | zero =>
    intro v1 v2 v3 hv3
    unfold lookupAll
    repeat any_goals first
      | with_reducible assumption
      | with_reducible apply lookupDone_keeps
      | with_reducible apply lookupOne_keeps
      | with_reducible refine lookupOne_keeps_eq ‹_› ?_
      | with_reducible apply State.draw_keeps
      | dsimp only
      | intro _ _ _
      | split
  | succ n ih =>
    intro v1 v2 v3 hv3
    unfold lookupAll
    repeat any_goals first
      | assumption
      | with_reducible apply ih
      | with_reducible apply lookupDone_keeps
      | with_reducible apply lookupOne_keeps
      | with_reducible refine lookupOne_keeps_eq ‹_› ?_
      | with_reducible apply State.draw_keeps
      | dsimp only
      | intro _ _ _
      | split


theorem addChain_keeps (s : State) (c : Chain) (hs : Keeps cq co s) : Keeps cq co (addChain s c) := by
  unfold addChain
  repeat any_goals first
    | with_reducible assumption
    | with_reducible apply State.onSched_keeps
    | with_reducible apply State.draw_keeps
    | dsimp only
    | intro _ _ _
    | split
    | with_reducible apply Keeps.lit


theorem startLookup_keeps (s : State) (c : CmdStep) (w : List Byte) (index : Nat) (hs : Keeps cq co s) : Keeps cq co (startLookup s c w index) := by
  unfold startLookup
  repeat any_goals first
    | with_reducible assumption
    | with_reducible apply setPlan_keeps
    | with_reducible apply lookupDone_keeps
    | with_reducible apply hostIn_keeps
    | with_reducible apply addChain_keeps
    | with_reducible apply setStage_keeps
    | with_reducible apply lookupAll_keeps
    | with_reducible apply State.draw_keeps
    | dsimp only
    | intro _ _ _
    | split


theorem startSeqOpen_keeps (s : State) (c : CmdStep) (x1 : Slot) (f : Flight) (hs : Keeps cq co s) : StartKeeps cq co (startSeqOpen s c x1 f) := by
  unfold startSeqOpen
  repeat any_goals first
    | with_reducible assumption
    | with_reducible apply StartKeeps.reject
    | with_reducible apply StartKeeps.go
    | with_reducible apply needHot_keeps
    | with_reducible refine needHot_keeps_eq_parked ‹_› ?_
    | with_reducible apply setStage_keeps
    | with_reducible apply allocWithTables_keeps
    | with_reducible refine allocWithTables_keeps_eq_got ‹_› ?_
    | with_reducible refine allocWithTables_keeps_eq_wait ‹_› ?_
    | with_reducible refine allocWithTables_keeps_eq_none ‹_› ?_
    | with_reducible apply waitFor_keeps
    | with_reducible apply startLookup_keeps
    | with_reducible apply State.onFlight_keeps
    | with_reducible apply State.draw_keeps
    | dsimp only
    | intro _ _ _
    | split
    | with_reducible apply Keeps.lit


theorem startSeqOpen_keeps_eq_reject {s : State} {c : CmdStep} {x1 : Slot} {f : Flight} {t : State} {a0} (e : startSeqOpen s c x1 f = .reject t a0) (hs : Keeps cq co s) : Keeps cq co t := by
  have k := startSeqOpen_keeps s c x1 f hs
  rw [e] at k
  cases k
  assumption

theorem startSeqOpen_keeps_eq_go {s : State} {c : CmdStep} {x1 : Slot} {f : Flight} {t : State}  (e : startSeqOpen s c x1 f = .go t) (hs : Keeps cq co s) : Keeps cq co t := by
  have k := startSeqOpen_keeps s c x1 f hs
  rw [e] at k
  cases k
  assumption

theorem onCnt_keeps (s : State) (p : Nat) (g : PartCounters → PartCounters) (hs : Keeps cq co s) : Keeps cq co (onCnt s p g) := by
  unfold onCnt
  repeat any_goals first
    | with_reducible assumption
    | with_reducible apply State.onPart_keeps
    | with_reducible apply State.draw_keeps
    | dsimp only
    | intro _ _ _
    | split


theorem commitSeqOpen_keeps (s : State) (c : CmdRef) (x1 : Slot) (f : Flight) (hs : Keeps cq co s) : CommitKeeps cq co (commitSeqOpen s c x1 f) := by
  unfold commitSeqOpen
  repeat any_goals first
    | with_reducible assumption
    | with_reducible apply CommitKeeps.hold
    | with_reducible apply CommitKeeps.kill
    | with_reducible apply CommitKeeps.reject
    | with_reducible apply CommitKeeps.done
    | with_reducible apply addRef_keeps
    | with_reducible apply putSeq_keeps
    | with_reducible apply onCnt_keeps
    | with_reducible apply setPlan_keeps
    | with_reducible apply State.draw_keeps
    | with_reducible apply foldl_keeps (Keeps cq co)
    | dsimp only
    | intro _ _ _
    | split
    | with_reducible apply Keeps.lit


theorem commitSeqOpen_keeps_eq_hold {s : State} {c : CmdRef} {x1 : Slot} {f : Flight} {t : State}  (e : commitSeqOpen s c x1 f = .hold t) (hs : Keeps cq co s) : Keeps cq co t := by
  have k := commitSeqOpen_keeps s c x1 f hs
  rw [e] at k
  cases k
  assumption

theorem commitSeqOpen_keeps_eq_kill {s : State} {c : CmdRef} {x1 : Slot} {f : Flight} {t : State}  (e : commitSeqOpen s c x1 f = .kill t) (hs : Keeps cq co s) : Keeps cq co t := by
  have k := commitSeqOpen_keeps s c x1 f hs
  rw [e] at k
  cases k
  assumption

theorem commitSeqOpen_keeps_eq_reject {s : State} {c : CmdRef} {x1 : Slot} {f : Flight} {t : State} {a0} (e : commitSeqOpen s c x1 f = .reject t a0) (hs : Keeps cq co s) : Keeps cq co t := by
  have k := commitSeqOpen_keeps s c x1 f hs
  rw [e] at k
  cases k
  assumption

theorem commitSeqOpen_keeps_eq_done {s : State} {c : CmdRef} {x1 : Slot} {f : Flight} {t : State} {a0} {a1} {a2} {a3} (e : commitSeqOpen s c x1 f = .done t a0 a1 a2 a3) (hs : Keeps cq co s) : Keeps cq co t := by
  have k := commitSeqOpen_keeps s c x1 f hs
  rw [e] at k
  cases k
  assumption

theorem startPrefixProbe_keeps (s : State) (c : CmdStep) (x1 : Slot) (f : Flight) (hs : Keeps cq co s) : StartKeeps cq co (startPrefixProbe s c x1 f) := by
  unfold startPrefixProbe
  repeat any_goals first
    | with_reducible assumption
    | with_reducible apply StartKeeps.reject
    | with_reducible apply StartKeeps.go
    | with_reducible apply startLookup_keeps
    | with_reducible apply State.draw_keeps
    | dsimp only
    | intro _ _ _
    | split


theorem startPrefixProbe_keeps_eq_reject {s : State} {c : CmdStep} {x1 : Slot} {f : Flight} {t : State} {a0} (e : startPrefixProbe s c x1 f = .reject t a0) (hs : Keeps cq co s) : Keeps cq co t := by
  have k := startPrefixProbe_keeps s c x1 f hs
  rw [e] at k
  cases k
  assumption

theorem startPrefixProbe_keeps_eq_go {s : State} {c : CmdStep} {x1 : Slot} {f : Flight} {t : State}  (e : startPrefixProbe s c x1 f = .go t) (hs : Keeps cq co s) : Keeps cq co t := by
  have k := startPrefixProbe_keeps s c x1 f hs
  rw [e] at k
  cases k
  assumption

theorem commitPrefixProbe_keeps (s : State) (c : CmdRef) (x1 : Slot) (f : Flight) (hs : Keeps cq co s) : CommitKeeps cq co (commitPrefixProbe s c x1 f) := by
  unfold commitPrefixProbe
  repeat any_goals first
    | with_reducible assumption
    | with_reducible apply CommitKeeps.hold
    | with_reducible apply CommitKeeps.kill
    | with_reducible apply CommitKeeps.reject
    | with_reducible apply CommitKeeps.done
    | with_reducible apply onCnt_keeps
    | with_reducible apply State.draw_keeps
    | dsimp only
    | intro _ _ _
    | split
    | with_reducible apply Keeps.lit


theorem commitPrefixProbe_keeps_eq_hold {s : State} {c : CmdRef} {x1 : Slot} {f : Flight} {t : State}  (e : commitPrefixProbe s c x1 f = .hold t) (hs : Keeps cq co s) : Keeps cq co t := by
  have k := commitPrefixProbe_keeps s c x1 f hs
  rw [e] at k
  cases k
  assumption

theorem commitPrefixProbe_keeps_eq_kill {s : State} {c : CmdRef} {x1 : Slot} {f : Flight} {t : State}  (e : commitPrefixProbe s c x1 f = .kill t) (hs : Keeps cq co s) : Keeps cq co t := by
  have k := commitPrefixProbe_keeps s c x1 f hs
  rw [e] at k
  cases k
  assumption

theorem commitPrefixProbe_keeps_eq_reject {s : State} {c : CmdRef} {x1 : Slot} {f : Flight} {t : State} {a0} (e : commitPrefixProbe s c x1 f = .reject t a0) (hs : Keeps cq co s) : Keeps cq co t := by
  have k := commitPrefixProbe_keeps s c x1 f hs
  rw [e] at k
  cases k
  assumption

theorem commitPrefixProbe_keeps_eq_done {s : State} {c : CmdRef} {x1 : Slot} {f : Flight} {t : State} {a0} {a1} {a2} {a3} (e : commitPrefixProbe s c x1 f = .done t a0 a1 a2 a3) (hs : Keeps cq co s) : Keeps cq co t := by
  have k := commitPrefixProbe_keeps s c x1 f hs
  rw [e] at k
  cases k
  assumption

theorem writeDigests_keeps (p tag : Nat) (salt : BitVec 128) (l : List PtEntry) :
    ∀ (d : BitVec 128) (s : State), Keeps cq co s → Keeps cq co (writeDigests p tag salt l d s) := by
  induction l with
  | nil => intro d s hs; exact hs
  | cons e r ih =>
    intro d s hs
    unfold writeDigests
    split
    · exact hs
    · exact ih _ _ (State.onSet_keeps _ _ _ _ hs)

theorem publishFrom_keeps (p i model tag : Nat) (salt : BitVec 128) (l : List PtEntry) :
    ∀ (k : Nat) (d : BitVec 128) (a : Publish), Keeps cq co a.s → Keeps cq co (publishFrom p i model tag salt l k d a).s := by
  induction l with
  | nil => intro k d a ha; exact ha
  | cons e r ih =>
    intro k d a ha
    unfold publishFrom
    split
    · exact ha
    · dsimp only
      split
      · exact ih _ _ _ (State.onSet_keeps _ _ _ _ ha)
      · split
        · exact ih _ _ _ (dropRef_keeps _ _ _ (addRef_keeps _ _ _ (State.onSeq_keeps _ _ _ _ (State.onSeq_keeps _ _ _ _
            (State.onSet_keeps _ _ _ _ ha)))))
        · split
          · exact ih _ _ _ (State.onSet_keeps _ _ _ _ (State.onPart_keeps _ _ _
              (.ite (evictEntry_keeps _ _ _ (State.onSet_keeps _ _ _ _ ha)) (State.onSet_keeps _ _ _ _ ha))))
          · exact writeDigests_keeps _ _ _ _ _ _ (State.onSet_keeps _ _ _ _ ha)

theorem publishRun_keeps (s : State) (p i n : Nat) (hs : Keeps cq co s) : Keeps cq co (publishRun s p i n).s := by
  unfold publishRun
  split
  · exact hs
  · exact publishFrom_keeps _ _ _ _ _ _ _ _ _ hs

theorem publishDone_keeps (s : State) (c : CmdRef) (w : List Byte) (hs : Keeps cq co s) : Keeps cq co (publishDone s c w) := by
  unfold publishDone
  repeat any_goals first
    | with_reducible assumption
    | with_reducible apply setStage_keeps
    | with_reducible apply setPlan_keeps
    | with_reducible apply publishRun_keeps
    | with_reducible apply State.draw_keeps
    | dsimp only
    | intro _ _ _
    | split


theorem startPrefixPublish_keeps (s : State) (c : CmdStep) (x1 : Slot) (f : Flight) (hs : Keeps cq co s) : StartKeeps cq co (startPrefixPublish s c x1 f) := by
  unfold startPrefixPublish
  repeat any_goals first
    | with_reducible assumption
    | with_reducible apply StartKeeps.reject
    | with_reducible apply StartKeeps.go
    | with_reducible apply wakeThen_keeps
    | with_reducible refine waitSegments_keeps_eq ‹_› ?_
    | with_reducible apply addChain_keeps
    | with_reducible apply setStage_keeps
    | with_reducible apply request_keeps
    | with_reducible refine request_keeps_eq_reject ‹_› ?_
    | with_reducible refine request_keeps_eq_go ‹_› ?_
    | with_reducible apply setPlan_keeps
    | with_reducible apply publishRun_keeps
    | with_reducible apply State.draw_keeps
    | dsimp only
    | intro _ _ _
    | split
    | intro _ _


theorem startPrefixPublish_keeps_eq_reject {s : State} {c : CmdStep} {x1 : Slot} {f : Flight} {t : State} {a0} (e : startPrefixPublish s c x1 f = .reject t a0) (hs : Keeps cq co s) : Keeps cq co t := by
  have k := startPrefixPublish_keeps s c x1 f hs
  rw [e] at k
  cases k
  assumption

theorem startPrefixPublish_keeps_eq_go {s : State} {c : CmdStep} {x1 : Slot} {f : Flight} {t : State}  (e : startPrefixPublish s c x1 f = .go t) (hs : Keeps cq co s) : Keeps cq co t := by
  have k := startPrefixPublish_keeps s c x1 f hs
  rw [e] at k
  cases k
  assumption

theorem commitPrefixPublish_keeps (s : State) (c : CmdRef) (x1 : Slot) (f : Flight) (hs : Keeps cq co s) : CommitKeeps cq co (commitPrefixPublish s c x1 f) := by
  unfold commitPrefixPublish
  repeat any_goals first
    | with_reducible assumption
    | with_reducible apply CommitKeeps.hold
    | with_reducible apply CommitKeeps.kill
    | with_reducible apply CommitKeeps.reject
    | with_reducible apply CommitKeeps.done
    | with_reducible apply publishRun_keeps
    | with_reducible apply onCnt_keeps
    | with_reducible apply State.onSeq_keeps
    | with_reducible apply State.draw_keeps
    | dsimp only
    | intro _ _ _
    | split
    | with_reducible apply Keeps.lit


theorem commitPrefixPublish_keeps_eq_hold {s : State} {c : CmdRef} {x1 : Slot} {f : Flight} {t : State}  (e : commitPrefixPublish s c x1 f = .hold t) (hs : Keeps cq co s) : Keeps cq co t := by
  have k := commitPrefixPublish_keeps s c x1 f hs
  rw [e] at k
  cases k
  assumption

theorem commitPrefixPublish_keeps_eq_kill {s : State} {c : CmdRef} {x1 : Slot} {f : Flight} {t : State}  (e : commitPrefixPublish s c x1 f = .kill t) (hs : Keeps cq co s) : Keeps cq co t := by
  have k := commitPrefixPublish_keeps s c x1 f hs
  rw [e] at k
  cases k
  assumption

theorem commitPrefixPublish_keeps_eq_reject {s : State} {c : CmdRef} {x1 : Slot} {f : Flight} {t : State} {a0} (e : commitPrefixPublish s c x1 f = .reject t a0) (hs : Keeps cq co s) : Keeps cq co t := by
  have k := commitPrefixPublish_keeps s c x1 f hs
  rw [e] at k
  cases k
  assumption

theorem commitPrefixPublish_keeps_eq_done {s : State} {c : CmdRef} {x1 : Slot} {f : Flight} {t : State} {a0} {a1} {a2} {a3} (e : commitPrefixPublish s c x1 f = .done t a0 a1 a2 a3) (hs : Keeps cq co s) : Keeps cq co t := by
  have k := commitPrefixPublish_keeps s c x1 f hs
  rw [e] at k
  cases k
  assumption

theorem chainOn_keeps (s : State) (c : Chain) (hs : Keeps cq co s) : Keeps cq co (chainOn s c) := by
  unfold chainOn
  repeat any_goals first
    | with_reducible assumption
    | with_reducible apply State.onSched_keeps
    | with_reducible apply State.draw_keeps
    | dsimp only
    | intro _ _ _
    | split
    | with_reducible apply Keeps.lit


theorem digestComplete_keeps (core : Nat) (s : State) (hs : Keeps cq co s) : Keeps cq co (digestComplete core s) := by
  unfold digestComplete
  repeat any_goals first
    | with_reducible assumption
    | with_reducible apply publishDone_keeps
    | with_reducible apply chainOn_keeps
    | with_reducible apply lookupOne_keeps
    | with_reducible refine lookupOne_keeps_eq ‹_› ?_
    | with_reducible apply lookupDone_keeps
    | with_reducible apply State.onSched_keeps
    | with_reducible apply State.draw_keeps
    | dsimp only
    | intro _ _ _
    | split
    | with_reducible apply Keeps.lit


theorem startLeading_keeps (s : State) (c : CmdStep) (f : Flight) (hs : Keeps cq co s) : StartKeeps cq co (startLeading s c f) := by
  unfold startLeading
  repeat any_goals first
    | with_reducible assumption
    | with_reducible apply StartKeeps.reject
    | with_reducible apply StartKeeps.go
    | with_reducible apply wakeThen_keeps
    | with_reducible apply request_keeps
    | with_reducible refine request_keeps_eq_reject ‹_› ?_
    | with_reducible refine request_keeps_eq_go ‹_› ?_
    | with_reducible apply State.draw_keeps
    | dsimp only
    | intro _ _ _
    | split
    | intro _ _


theorem startLeading_keeps_eq_reject {s : State} {c : CmdStep} {f : Flight} {t : State} {a0} (e : startLeading s c f = .reject t a0) (hs : Keeps cq co s) : Keeps cq co t := by
  have k := startLeading_keeps s c f hs
  rw [e] at k
  cases k
  assumption

theorem startLeading_keeps_eq_go {s : State} {c : CmdStep} {f : Flight} {t : State}  (e : startLeading s c f = .go t) (hs : Keeps cq co s) : Keeps cq co t := by
  have k := startLeading_keeps s c f hs
  rw [e] at k
  cases k
  assumption

theorem startPrefixRetain_keeps (s : State) (c : CmdStep) (x1 : Slot) (f : Flight) (hs : Keeps cq co s) : StartKeeps cq co (startPrefixRetain s c x1 f) := by
  unfold startPrefixRetain
  repeat any_goals first
    | with_reducible assumption
    | with_reducible apply StartKeeps.reject
    | with_reducible apply StartKeeps.go
    | with_reducible apply startLeading_keeps
    | with_reducible refine startLeading_keeps_eq_reject ‹_› ?_
    | with_reducible refine startLeading_keeps_eq_go ‹_› ?_
    | with_reducible apply State.draw_keeps
    | dsimp only
    | intro _ _ _
    | split


theorem startPrefixRetain_keeps_eq_reject {s : State} {c : CmdStep} {x1 : Slot} {f : Flight} {t : State} {a0} (e : startPrefixRetain s c x1 f = .reject t a0) (hs : Keeps cq co s) : Keeps cq co t := by
  have k := startPrefixRetain_keeps s c x1 f hs
  rw [e] at k
  cases k
  assumption

theorem startPrefixRetain_keeps_eq_go {s : State} {c : CmdStep} {x1 : Slot} {f : Flight} {t : State}  (e : startPrefixRetain s c x1 f = .go t) (hs : Keeps cq co s) : Keeps cq co t := by
  have k := startPrefixRetain_keeps s c x1 f hs
  rw [e] at k
  cases k
  assumption

theorem commitPrefixRetain_keeps (s : State) (c : CmdRef) (x1 : Slot) (f : Flight) (hs : Keeps cq co s) : CommitKeeps cq co (commitPrefixRetain s c x1 f) := by
  unfold commitPrefixRetain
  repeat any_goals first
    | with_reducible assumption
    | with_reducible apply CommitKeeps.hold
    | with_reducible apply CommitKeeps.kill
    | with_reducible apply CommitKeeps.reject
    | with_reducible apply CommitKeeps.done
    | with_reducible apply State.onPart_keeps
    | with_reducible apply useSeq_keeps
    | with_reducible apply State.draw_keeps
    | with_reducible apply foldl_keeps (Keeps cq co)
    | dsimp only
    | intro _ _ _
    | split
    | with_reducible apply Keeps.lit


theorem commitPrefixRetain_keeps_eq_hold {s : State} {c : CmdRef} {x1 : Slot} {f : Flight} {t : State}  (e : commitPrefixRetain s c x1 f = .hold t) (hs : Keeps cq co s) : Keeps cq co t := by
  have k := commitPrefixRetain_keeps s c x1 f hs
  rw [e] at k
  cases k
  assumption

theorem commitPrefixRetain_keeps_eq_kill {s : State} {c : CmdRef} {x1 : Slot} {f : Flight} {t : State}  (e : commitPrefixRetain s c x1 f = .kill t) (hs : Keeps cq co s) : Keeps cq co t := by
  have k := commitPrefixRetain_keeps s c x1 f hs
  rw [e] at k
  cases k
  assumption

theorem commitPrefixRetain_keeps_eq_reject {s : State} {c : CmdRef} {x1 : Slot} {f : Flight} {t : State} {a0} (e : commitPrefixRetain s c x1 f = .reject t a0) (hs : Keeps cq co s) : Keeps cq co t := by
  have k := commitPrefixRetain_keeps s c x1 f hs
  rw [e] at k
  cases k
  assumption

theorem commitPrefixRetain_keeps_eq_done {s : State} {c : CmdRef} {x1 : Slot} {f : Flight} {t : State} {a0} {a1} {a2} {a3} (e : commitPrefixRetain s c x1 f = .done t a0 a1 a2 a3) (hs : Keeps cq co s) : Keeps cq co t := by
  have k := commitPrefixRetain_keeps s c x1 f hs
  rw [e] at k
  cases k
  assumption

theorem startPrefixEvictModel_keeps (s : State) (c : CmdStep) (x1 : Slot) (f : Flight) (hs : Keeps cq co s) : StartKeeps cq co (startPrefixEvictModel s c x1 f) := by
  unfold startPrefixEvictModel
  repeat any_goals first
    | with_reducible assumption
    | with_reducible apply StartKeeps.reject
    | with_reducible apply StartKeeps.go
    | with_reducible apply request_keeps
    | with_reducible refine request_keeps_eq_reject ‹_› ?_
    | with_reducible refine request_keeps_eq_go ‹_› ?_
    | with_reducible apply State.draw_keeps
    | dsimp only
    | intro _ _ _
    | split


theorem startPrefixEvictModel_keeps_eq_reject {s : State} {c : CmdStep} {x1 : Slot} {f : Flight} {t : State} {a0} (e : startPrefixEvictModel s c x1 f = .reject t a0) (hs : Keeps cq co s) : Keeps cq co t := by
  have k := startPrefixEvictModel_keeps s c x1 f hs
  rw [e] at k
  cases k
  assumption

theorem startPrefixEvictModel_keeps_eq_go {s : State} {c : CmdStep} {x1 : Slot} {f : Flight} {t : State}  (e : startPrefixEvictModel s c x1 f = .go t) (hs : Keeps cq co s) : Keeps cq co t := by
  have k := startPrefixEvictModel_keeps s c x1 f hs
  rw [e] at k
  cases k
  assumption

theorem commitPrefixEvictModel_keeps (s : State) (c : CmdRef) (x1 : Slot) (f : Flight) (hs : Keeps cq co s) : CommitKeeps cq co (commitPrefixEvictModel s c x1 f) := by
  unfold commitPrefixEvictModel
  repeat any_goals first
    | with_reducible assumption
    | with_reducible apply CommitKeeps.hold
    | with_reducible apply CommitKeeps.kill
    | with_reducible apply CommitKeeps.reject
    | with_reducible apply CommitKeeps.done
    | with_reducible apply evictModel_keeps
    | with_reducible refine evictModel_keeps_eq ‹_› ?_
    | with_reducible apply State.draw_keeps
    | dsimp only
    | intro _ _ _
    | split


theorem commitPrefixEvictModel_keeps_eq_hold {s : State} {c : CmdRef} {x1 : Slot} {f : Flight} {t : State}  (e : commitPrefixEvictModel s c x1 f = .hold t) (hs : Keeps cq co s) : Keeps cq co t := by
  have k := commitPrefixEvictModel_keeps s c x1 f hs
  rw [e] at k
  cases k
  assumption

theorem commitPrefixEvictModel_keeps_eq_kill {s : State} {c : CmdRef} {x1 : Slot} {f : Flight} {t : State}  (e : commitPrefixEvictModel s c x1 f = .kill t) (hs : Keeps cq co s) : Keeps cq co t := by
  have k := commitPrefixEvictModel_keeps s c x1 f hs
  rw [e] at k
  cases k
  assumption

theorem commitPrefixEvictModel_keeps_eq_reject {s : State} {c : CmdRef} {x1 : Slot} {f : Flight} {t : State} {a0} (e : commitPrefixEvictModel s c x1 f = .reject t a0) (hs : Keeps cq co s) : Keeps cq co t := by
  have k := commitPrefixEvictModel_keeps s c x1 f hs
  rw [e] at k
  cases k
  assumption

theorem commitPrefixEvictModel_keeps_eq_done {s : State} {c : CmdRef} {x1 : Slot} {f : Flight} {t : State} {a0} {a1} {a2} {a3} (e : commitPrefixEvictModel s c x1 f = .done t a0 a1 a2 a3) (hs : Keeps cq co s) : Keeps cq co t := by
  have k := commitPrefixEvictModel_keeps s c x1 f hs
  rw [e] at k
  cases k
  assumption

theorem startPrefixEvictSequence_keeps (s : State) (c : CmdStep) (x1 : Slot) (f : Flight) (hs : Keeps cq co s) : StartKeeps cq co (startPrefixEvictSequence s c x1 f) := by
  unfold startPrefixEvictSequence
  repeat any_goals first
    | with_reducible assumption
    | with_reducible apply StartKeeps.reject
    | with_reducible apply StartKeeps.go
    | with_reducible apply startLeading_keeps
    | with_reducible refine startLeading_keeps_eq_reject ‹_› ?_
    | with_reducible refine startLeading_keeps_eq_go ‹_› ?_
    | with_reducible apply State.draw_keeps
    | dsimp only
    | intro _ _ _
    | split


theorem startPrefixEvictSequence_keeps_eq_reject {s : State} {c : CmdStep} {x1 : Slot} {f : Flight} {t : State} {a0} (e : startPrefixEvictSequence s c x1 f = .reject t a0) (hs : Keeps cq co s) : Keeps cq co t := by
  have k := startPrefixEvictSequence_keeps s c x1 f hs
  rw [e] at k
  cases k
  assumption

theorem startPrefixEvictSequence_keeps_eq_go {s : State} {c : CmdStep} {x1 : Slot} {f : Flight} {t : State}  (e : startPrefixEvictSequence s c x1 f = .go t) (hs : Keeps cq co s) : Keeps cq co t := by
  have k := startPrefixEvictSequence_keeps s c x1 f hs
  rw [e] at k
  cases k
  assumption

theorem commitPrefixEvictSequence_keeps (s : State) (c : CmdRef) (x1 : Slot) (f : Flight) (hs : Keeps cq co s) : CommitKeeps cq co (commitPrefixEvictSequence s c x1 f) := by
  unfold commitPrefixEvictSequence
  repeat any_goals first
    | with_reducible assumption
    | with_reducible apply CommitKeeps.hold
    | with_reducible apply CommitKeeps.kill
    | with_reducible apply CommitKeeps.reject
    | with_reducible apply CommitKeeps.done
    | with_reducible apply useSeq_keeps
    | with_reducible apply evictEntry_keeps
    | with_reducible apply State.draw_keeps
    | with_reducible apply foldl_keeps (Keeps cq co)
    | dsimp only
    | intro _ _ _
    | split


theorem commitPrefixEvictSequence_keeps_eq_hold {s : State} {c : CmdRef} {x1 : Slot} {f : Flight} {t : State}  (e : commitPrefixEvictSequence s c x1 f = .hold t) (hs : Keeps cq co s) : Keeps cq co t := by
  have k := commitPrefixEvictSequence_keeps s c x1 f hs
  rw [e] at k
  cases k
  assumption

theorem commitPrefixEvictSequence_keeps_eq_kill {s : State} {c : CmdRef} {x1 : Slot} {f : Flight} {t : State}  (e : commitPrefixEvictSequence s c x1 f = .kill t) (hs : Keeps cq co s) : Keeps cq co t := by
  have k := commitPrefixEvictSequence_keeps s c x1 f hs
  rw [e] at k
  cases k
  assumption

theorem commitPrefixEvictSequence_keeps_eq_reject {s : State} {c : CmdRef} {x1 : Slot} {f : Flight} {t : State} {a0} (e : commitPrefixEvictSequence s c x1 f = .reject t a0) (hs : Keeps cq co s) : Keeps cq co t := by
  have k := commitPrefixEvictSequence_keeps s c x1 f hs
  rw [e] at k
  cases k
  assumption

theorem commitPrefixEvictSequence_keeps_eq_done {s : State} {c : CmdRef} {x1 : Slot} {f : Flight} {t : State} {a0} {a1} {a2} {a3} (e : commitPrefixEvictSequence s c x1 f = .done t a0 a1 a2 a3) (hs : Keeps cq co s) : Keeps cq co t := by
  have k := commitPrefixEvictSequence_keeps s c x1 f hs
  rw [e] at k
  cases k
  assumption

theorem sweepPart_keeps (periods : Nat) (s : State) (p : Nat) (hs : Keeps cq co s) : Keeps cq co (sweepPart periods s p) := by
  unfold sweepPart
  repeat any_goals first
    | with_reducible assumption
    | with_reducible apply State.onPart_keeps
    | with_reducible apply evictEntry_keeps
    | with_reducible apply State.draw_keeps
    | with_reducible apply foldl_keeps (Keeps cq co)
    | dsimp only
    | intro _ _ _
    | split


theorem directorySweep_keeps (s : State) (hs : Keeps cq co s) : Keeps cq co (directorySweep s) := by
  unfold directorySweep
  repeat any_goals first
    | with_reducible assumption
    | with_reducible apply sweepPart_keeps
    | with_reducible apply State.draw_keeps
    | with_reducible apply foldl_keeps (Keeps cq co)
    | dsimp only
    | intro _ _ _
    | split
    | with_reducible apply Keeps.lit


theorem descriptorDirSweep_keeps (p : Nat) (s : State) (hs : Keeps cq co s) : Keeps cq co (descriptorDirSweep p s) := by
  unfold descriptorDirSweep
  repeat any_goals first
    | with_reducible assumption
    | with_reducible apply maybeRelease_keeps
    | with_reducible apply State.onSet_keeps
    | with_reducible apply State.draw_keeps
    | with_reducible apply foldl_keeps (Keeps cq co)
    | dsimp only
    | intro _ _ _
    | split
    | with_reducible apply Keeps.lit


theorem execDigestComplete_keeps (core : Nat) (s : State) (hs : Keeps cq co s) : OutKeeps cq co (execDigestComplete core s) := by
  unfold execDigestComplete
  repeat any_goals first
    | with_reducible assumption
    | with_reducible apply OutKeeps.next
    | intro _ _
    | with_reducible apply digestComplete_keeps
    | with_reducible apply State.draw_keeps
    | dsimp only
    | intro _ _ _
    | split


theorem execDirectorySweep_keeps (s : State) (hs : Keeps cq co s) : OutKeeps cq co (execDirectorySweep s) := by
  unfold execDirectorySweep
  repeat any_goals first
    | with_reducible assumption
    | with_reducible apply OutKeeps.next
    | intro _ _
    | with_reducible apply directorySweep_keeps
    | with_reducible apply State.draw_keeps
    | dsimp only
    | intro _ _ _
    | split


theorem execDescriptorDirSweep_keeps (part : Nat) (s : State) (hs : Keeps cq co s) : OutKeeps cq co (execDescriptorDirSweep part s) := by
  unfold execDescriptorDirSweep
  repeat any_goals first
    | with_reducible assumption
    | with_reducible apply OutKeeps.next
    | intro _ _
    | with_reducible apply descriptorDirSweep_keeps
    | with_reducible apply State.draw_keeps
    | dsimp only
    | intro _ _ _
    | split


end Sys2Proof.Machine
end

