-- ==== Sys2Proof/Laws/Keeps/Tiers.lean ====
section
/-! SUPPORT. What the operations of Machine/Tiers.lean keep. -/

namespace Sys2Proof.Machine

open Sys2Proof

variable {cq : List Instr} {co : Oxsis}

theorem startHostRegionAdd_keeps (s : State) (c : CmdStep) (x1 : Slot) (f : Flight) (hs : Keeps cq co s) : StartKeeps cq co (startHostRegionAdd s c x1 f) := by
  unfold startHostRegionAdd
  repeat any_goals first
    | with_reducible assumption
    | with_reducible apply StartKeeps.reject
    | with_reducible apply StartKeeps.go
    | with_reducible apply request_keeps
    | with_reducible refine request_keeps_eq_reject ‹_› ?_
    | with_reducible refine request_keeps_eq_go ‹_› ?_
    | with_reducible apply State.draw_keeps
    | dsimp only
    | intro _ _ _
    | split


theorem startHostRegionAdd_keeps_eq_reject {s : State} {c : CmdStep} {x1 : Slot} {f : Flight} {t : State} {a0} (e : startHostRegionAdd s c x1 f = .reject t a0) (hs : Keeps cq co s) : Keeps cq co t := by
  have k := startHostRegionAdd_keeps s c x1 f hs
  rw [e] at k
  cases k
  assumption

theorem startHostRegionAdd_keeps_eq_go {s : State} {c : CmdStep} {x1 : Slot} {f : Flight} {t : State}  (e : startHostRegionAdd s c x1 f = .go t) (hs : Keeps cq co s) : Keeps cq co t := by
  have k := startHostRegionAdd_keeps s c x1 f hs
  rw [e] at k
  cases k
  assumption

theorem commitHostRegionAdd_keeps (s : State) (c : CmdRef) (x1 : Slot) (f : Flight) (hs : Keeps cq co s) : CommitKeeps cq co (commitHostRegionAdd s c x1 f) := by
  unfold commitHostRegionAdd
  repeat any_goals first
    | with_reducible assumption
    | with_reducible apply CommitKeeps.hold
    | with_reducible apply CommitKeeps.kill
    | with_reducible apply CommitKeeps.reject
    | with_reducible apply CommitKeeps.done
    | with_reducible apply State.onPart_keeps
    | with_reducible apply State.draw_keeps
    | dsimp only
    | intro _ _ _
    | split
    | with_reducible apply Keeps.lit


theorem commitHostRegionAdd_keeps_eq_hold {s : State} {c : CmdRef} {x1 : Slot} {f : Flight} {t : State}  (e : commitHostRegionAdd s c x1 f = .hold t) (hs : Keeps cq co s) : Keeps cq co t := by
  have k := commitHostRegionAdd_keeps s c x1 f hs
  rw [e] at k
  cases k
  assumption

theorem commitHostRegionAdd_keeps_eq_kill {s : State} {c : CmdRef} {x1 : Slot} {f : Flight} {t : State}  (e : commitHostRegionAdd s c x1 f = .kill t) (hs : Keeps cq co s) : Keeps cq co t := by
  have k := commitHostRegionAdd_keeps s c x1 f hs
  rw [e] at k
  cases k
  assumption

theorem commitHostRegionAdd_keeps_eq_reject {s : State} {c : CmdRef} {x1 : Slot} {f : Flight} {t : State} {a0} (e : commitHostRegionAdd s c x1 f = .reject t a0) (hs : Keeps cq co s) : Keeps cq co t := by
  have k := commitHostRegionAdd_keeps s c x1 f hs
  rw [e] at k
  cases k
  assumption

theorem commitHostRegionAdd_keeps_eq_done {s : State} {c : CmdRef} {x1 : Slot} {f : Flight} {t : State} {a0} {a1} {a2} {a3} (e : commitHostRegionAdd s c x1 f = .done t a0 a1 a2 a3) (hs : Keeps cq co s) : Keeps cq co t := by
  have k := commitHostRegionAdd_keeps s c x1 f hs
  rw [e] at k
  cases k
  assumption

theorem evacuate_keeps (s : State) (p r : Nat) (failed : List MoveObj) (c : CmdRef) (hs : Keeps cq co s) : Keeps cq co (evacuate s p r failed c) := by
  unfold evacuate
  repeat any_goals first
    | with_reducible assumption
    | with_reducible apply selectMove_keeps
    | with_reducible apply State.draw_keeps
    | with_reducible apply foldl_keeps (Keeps cq co)
    | dsimp only
    | intro _ _ _
    | split


theorem startHostRegionRemove_keeps (s : State) (c : CmdStep) (x1 : Slot) (f : Flight) (hs : Keeps cq co s) : StartKeeps cq co (startHostRegionRemove s c x1 f) := by
  unfold startHostRegionRemove
  repeat any_goals first
    | with_reducible assumption
    | with_reducible apply StartKeeps.reject
    | with_reducible apply StartKeeps.go
    | with_reducible apply State.onPart_keeps
    | with_reducible apply evacuate_keeps
    | with_reducible apply request_keeps
    | with_reducible refine request_keeps_eq_reject ‹_› ?_
    | with_reducible refine request_keeps_eq_go ‹_› ?_
    | with_reducible apply setPlan_keeps
    | with_reducible apply State.draw_keeps
    | dsimp only
    | intro _ _ _
    | split
    | with_reducible apply Keeps.lit


theorem startHostRegionRemove_keeps_eq_reject {s : State} {c : CmdStep} {x1 : Slot} {f : Flight} {t : State} {a0} (e : startHostRegionRemove s c x1 f = .reject t a0) (hs : Keeps cq co s) : Keeps cq co t := by
  have k := startHostRegionRemove_keeps s c x1 f hs
  rw [e] at k
  cases k
  assumption

theorem startHostRegionRemove_keeps_eq_go {s : State} {c : CmdStep} {x1 : Slot} {f : Flight} {t : State}  (e : startHostRegionRemove s c x1 f = .go t) (hs : Keeps cq co s) : Keeps cq co t := by
  have k := startHostRegionRemove_keeps s c x1 f hs
  rw [e] at k
  cases k
  assumption

theorem commitHostRegionRemove_keeps (s : State) (c : CmdRef) (x1 : Slot) (f : Flight) (hs : Keeps cq co s) : CommitKeeps cq co (commitHostRegionRemove s c x1 f) := by
  unfold commitHostRegionRemove
  repeat any_goals first
    | with_reducible assumption
    | with_reducible apply CommitKeeps.hold
    | with_reducible apply CommitKeeps.kill
    | with_reducible apply CommitKeeps.reject
    | with_reducible apply CommitKeeps.done
    | with_reducible apply State.onPart_keeps
    | with_reducible apply setPlan_keeps
    | with_reducible apply evacuate_keeps
    | with_reducible apply State.hold_keeps
    | with_reducible apply State.draw_keeps
    | dsimp only
    | intro _ _ _
    | split
    | with_reducible apply Keeps.lit


theorem commitHostRegionRemove_keeps_eq_hold {s : State} {c : CmdRef} {x1 : Slot} {f : Flight} {t : State}  (e : commitHostRegionRemove s c x1 f = .hold t) (hs : Keeps cq co s) : Keeps cq co t := by
  have k := commitHostRegionRemove_keeps s c x1 f hs
  rw [e] at k
  cases k
  assumption

theorem commitHostRegionRemove_keeps_eq_kill {s : State} {c : CmdRef} {x1 : Slot} {f : Flight} {t : State}  (e : commitHostRegionRemove s c x1 f = .kill t) (hs : Keeps cq co s) : Keeps cq co t := by
  have k := commitHostRegionRemove_keeps s c x1 f hs
  rw [e] at k
  cases k
  assumption

theorem commitHostRegionRemove_keeps_eq_reject {s : State} {c : CmdRef} {x1 : Slot} {f : Flight} {t : State} {a0} (e : commitHostRegionRemove s c x1 f = .reject t a0) (hs : Keeps cq co s) : Keeps cq co t := by
  have k := commitHostRegionRemove_keeps s c x1 f hs
  rw [e] at k
  cases k
  assumption

theorem commitHostRegionRemove_keeps_eq_done {s : State} {c : CmdRef} {x1 : Slot} {f : Flight} {t : State} {a0} {a1} {a2} {a3} (e : commitHostRegionRemove s c x1 f = .done t a0 a1 a2 a3) (hs : Keeps cq co s) : Keeps cq co t := by
  have k := commitHostRegionRemove_keeps s c x1 f hs
  rw [e] at k
  cases k
  assumption

theorem onMove_keeps (s : State) (p id : Nat) (g : Move → Move) (hs : Keeps cq co s) : Keeps cq co (onMove s p id g) := by
  unfold onMove
  repeat any_goals first
    | with_reducible assumption
    | with_reducible apply State.onPart_keeps
    | with_reducible apply State.draw_keeps
    | dsimp only
    | intro _ _ _
    | split
    | with_reducible apply Keeps.lit


theorem pinQuiet_keeps (s : State) (p psn : Nat) (hs : Keeps cq co s) : Keeps cq co (pinQuiet s p psn).1 := by
  unfold pinQuiet
  repeat any_goals first
    | with_reducible assumption
    | with_reducible apply State.onSet_keeps
    | with_reducible apply State.draw_keeps
    | dsimp only
    | intro _ _ _
    | split
    | with_reducible apply Keeps.lit


theorem pinQuiet_keeps_eq {s : State} {p psn : Nat} {t : State} {a} (e : pinQuiet s p psn = (t, a)) (hs : Keeps cq co s) : Keeps cq co t := by
  have k := pinQuiet_keeps s p psn hs
  rw [e] at k
  exact k

theorem moveNowhere_keeps (s : State) (p id : Nat) (m : Move) (hs : Keeps cq co s) : Keeps cq co (moveNowhere s p id m) := by
  unfold moveNowhere
  repeat any_goals first
    | with_reducible assumption
    | with_reducible apply abandonMove_keeps
    | with_reducible apply State.onPart_keeps
    | with_reducible apply State.draw_keeps
    | dsimp only
    | intro _ _ _
    | split
    | with_reducible apply Keeps.lit


theorem writeMove_keeps (s : State) (p id : Nat) (data : List Byte) (hs : Keeps cq co s) : Keeps cq co (writeMove s p id data) := by
  unfold writeMove
  split
  · exact hs
  next m _ =>
    have h1 : ∀ f g, Keeps cq co (onMove (onMove (countTier s p m.dst.tier true m.bytes) p id f) p id g) := fun f g =>
      onMove_keeps _ _ _ _ (onMove_keeps _ _ _ _ (countTier_keeps _ _ _ _ _ hs))
    dsimp only
    split
    · exact onMove_keeps _ _ _ _ (State.onPart_keeps _ _ _ (newObject_keeps _ _ _ _ _ (h1 _ _)))
    · refine onMove_keeps _ _ _ _ (issueHostRead_keeps _ _ _ _ _ _ ?_)
      have h2 := fun f g k => State.onPart_keeps _ p k (h1 f g)
      split
      · exact writeRegion_keeps _ _ _ _ _ _ _ (h2 _ _ _)
      · exact h2 _ _ _
    · split
      · exact moveNowhere_keeps _ _ _ _ (h1 _ _)
      next r e =>
        obtain ⟨t, a⟩ := r
        exact onMove_keeps _ _ _ _ (programObject_keeps_eq e (h1 _ _))

theorem readMove_keeps (s : State) (p id : Nat) (hs : Keeps cq co s) : Keeps cq co (readMove s p id) := by
  unfold readMove
  repeat any_goals first
    | with_reducible assumption
    | with_reducible apply pinQuiet_keeps
    | with_reducible refine pinQuiet_keeps_eq ‹_› ?_
    | with_reducible apply onMove_keeps
    | with_reducible apply writeMove_keeps
    | with_reducible apply countTier_keeps
    | with_reducible apply issueHostRead_keeps
    | with_reducible refine issueHostRead_keeps_eq ‹_› ?_
    | with_reducible apply issueFlashRead_keeps
    | with_reducible refine issueFlashRead_keeps_eq ‹_› ?_
    | with_reducible apply State.draw_keeps
    | with_reducible apply foldl_keeps (Keeps cq co)
    | dsimp only
    | intro _ _ _
    | split
    | with_reducible apply Keeps.lit
    | with_reducible refine Keeps.lit_cache (fun _ => rfl) ?_
    | with_reducible refine Keeps.lit_cache (Map.put_wf _ _ _) ?_
    | with_reducible refine Keeps.lit_cache (Map.del_wf _ _) ?_
    | with_reducible refine Keeps.lit_cache (Map.filter_wf _ _) ?_
    | with_reducible refine Keeps.lit_cache (Map.edit_wf _ _ _) ?_


theorem reserveMove_keeps (s : State) (p id : Nat) (hs : Keeps cq co s) : Keeps cq co (reserveMove s p id) := by
  unfold reserveMove
  repeat any_goals first
    | with_reducible assumption
    | with_reducible apply abandonMove_keeps
    | with_reducible apply onMove_keeps
    | with_reducible apply State.onPart_keeps
    | with_reducible apply readMove_keeps
    | with_reducible apply moveNowhere_keeps
    | with_reducible apply noteMapFull_keeps
    | with_reducible apply State.draw_keeps
    | dsimp only
    | intro _ _ _
    | split
    | with_reducible apply Keeps.lit


theorem pageMove_keeps (p id : Nat) (s : State) (hs : Keeps cq co s) : Keeps cq co (pageMove p id s) := by
  unfold pageMove
  repeat any_goals first
    | with_reducible assumption
    | with_reducible apply reserveMove_keeps
    | with_reducible apply State.draw_keeps
    | dsimp only
    | intro _ _ _
    | split


theorem readAt_keeps (s : State) (p : Nat) (what : ReadFor) (l : Loc) (bytes : Nat) (unit : Option Nat) (hs : Keeps cq co s) : Keeps cq co (readAt s p what l bytes unit).1 := by
  unfold readAt
  repeat any_goals first
    | with_reducible assumption
    | with_reducible apply issueHostRead_keeps
    | with_reducible refine issueHostRead_keeps_eq ‹_› ?_
    | with_reducible apply issueFlashRead_keeps
    | with_reducible refine issueFlashRead_keeps_eq ‹_› ?_
    | with_reducible apply State.draw_keeps
    | dsimp only
    | intro _ _ _
    | split


theorem readAt_keeps_eq {s : State} {p : Nat} {what : ReadFor} {l : Loc} {bytes : Nat} {unit : Option Nat} {t : State} {a} (e : readAt s p what l bytes unit = (t, a)) (hs : Keeps cq co s) : Keeps cq co t := by
  have k := readAt_keeps s p what l bytes unit hs
  rw [e] at k
  exact k

theorem State.onUnit_keeps (s : State) (u : Nat) (g : Unit → Unit) (hs : Keeps cq co s) : Keeps cq co (State.onUnit s u g) := by
  unfold State.onUnit
  repeat any_goals first
    | with_reducible assumption
    | with_reducible apply State.onSched_keeps
    | with_reducible apply State.draw_keeps
    | dsimp only
    | intro _ _ _
    | split
    | with_reducible apply Keeps.lit


theorem addRead_keeps (s : State) (u code : Nat) (hs : Keeps cq co s) : Keeps cq co (addRead s u code) := by
  unfold addRead
  repeat any_goals first
    | with_reducible assumption
    | with_reducible apply State.onUnit_keeps
    | with_reducible apply State.draw_keeps
    | dsimp only
    | intro _ _ _
    | split
    | with_reducible apply Keeps.lit


theorem streamTo_keeps (s : State) (p uid : Nat) (o : MoveObj) (hs : Keeps cq co s) : Keeps cq co (streamTo s p uid o) := by
  unfold streamTo
  repeat any_goals first
    | with_reducible assumption
    | with_reducible apply addRead_keeps
    | with_reducible apply State.onPart_keeps
    | with_reducible apply readAt_keeps
    | with_reducible refine readAt_keeps_eq ‹_› ?_
    | with_reducible apply State.draw_keeps
    | dsimp only
    | intro _ _ _
    | split
    | with_reducible apply Keeps.lit


theorem transitResume_keeps (s : State) (p id : Nat) (m : Move) (hs : Keeps cq co s) : Keeps cq co (transitResume s p id m) := by
  unfold transitResume
  repeat any_goals first
    | with_reducible assumption
    | with_reducible apply State.onPart_keeps
    | with_reducible apply streamTo_keeps
    | with_reducible apply settleCommand_keeps
    | with_reducible apply State.onUnit_keeps
    | with_reducible apply State.draw_keeps
    | with_reducible apply foldl_keeps (Keeps cq co)
    | dsimp only
    | intro _ _ _
    | split
    | with_reducible apply Keeps.lit


theorem moveBufferResume_keeps (p id : Nat) (s : State) (hs : Keeps cq co s) : Keeps cq co (moveBufferResume p id s) := by
  unfold moveBufferResume
  repeat any_goals first
    | with_reducible assumption
    | with_reducible apply transitResume_keeps
    | with_reducible apply reserveMove_keeps
    | with_reducible apply onMove_keeps
    | with_reducible apply stallFree_keeps
    | with_reducible apply State.draw_keeps
    | dsimp only
    | intro _ _ _
    | split
    | with_reducible apply Keeps.lit


theorem descriptorSegmentMove_keeps (p n : Nat) (s : State) (hs : Keeps cq co s) : Keeps cq co (descriptorSegmentMove p n s) := by
  unfold descriptorSegmentMove
  repeat any_goals first
    | with_reducible assumption
    | with_reducible apply selectMove_keeps
    | with_reducible apply State.draw_keeps
    | dsimp only
    | intro _ _ _
    | split


theorem repin_keeps (s : State) (p id psn : Nat) (hs : Keeps cq co s) : Keeps cq co (repin s p id psn) := by
  unfold repin
  repeat any_goals first
    | with_reducible assumption
    | with_reducible apply pinQuiet_keeps
    | with_reducible refine pinQuiet_keeps_eq ‹_› ?_
    | with_reducible apply State.onSet_keeps
    | with_reducible apply onMove_keeps
    | with_reducible apply State.draw_keeps
    | dsimp only
    | intro _ _ _
    | split
    | with_reducible apply Keeps.lit


theorem poisonFrames_keeps (s : State) (gid : Nat) (bad : List Nat) (hs : Keeps cq co s) : Keeps cq co (poisonFrames s gid bad) := by
  unfold poisonFrames
  repeat any_goals first
    | with_reducible assumption
    | with_reducible apply State.onFlash_keeps
    | with_reducible apply State.draw_keeps
    | with_reducible apply foldl_keeps (Keeps cq co)
    | dsimp only
    | intro _ _ _
    | split
    | with_reducible apply Keeps.lit


theorem landMove_keeps (s : State) (p id : Nat) (m : Move) (hs : Keeps cq co s) : Keeps cq co (landMove s p id m) := by
  unfold landMove
  repeat any_goals first
    | with_reducible assumption
    | with_reducible apply landObject_keeps
    | with_reducible apply poisonFrames_keeps
    | with_reducible apply State.onPart_keeps
    | with_reducible apply State.onFlight_keeps
    | with_reducible apply State.draw_keeps
    | dsimp only
    | intro _ _ _
    | split
    | with_reducible apply Keeps.lit


theorem unpinMove_keeps (s : State) (p : Nat) (m : Move) (hs : Keeps cq co s) : Keeps cq co (unpinMove s p m) := by
  unfold unpinMove
  repeat any_goals first
    | with_reducible assumption
    | with_reducible apply unpinSet_keeps
    | with_reducible apply State.draw_keeps
    | dsimp only
    | intro _ _ _
    | split


theorem locationChangeCommit_keeps (p id : Nat) (s : State) (hs : Keeps cq co s) : Keeps cq co (locationChangeCommit p id s) := by
  unfold locationChangeCommit
  repeat any_goals first
    | with_reducible assumption
    | with_reducible apply abandonMove_keeps
    | with_reducible apply repin_keeps
    | with_reducible apply landMove_keeps
    | with_reducible apply flipLoc_keeps
    | with_reducible apply State.onSet_keeps
    | with_reducible apply forgetTent_keeps
    | with_reducible apply unpinMove_keeps
    | with_reducible apply State.onPart_keeps
    | with_reducible apply sendSets_keeps
    | with_reducible apply preempt_keeps
    | with_reducible apply State.onSeq_keeps
    | with_reducible apply freeLoc_keeps
    | with_reducible apply State.draw_keeps
    | dsimp only
    | intro _ _ _
    | split
    | with_reducible apply Keeps.lit


theorem stagingFlush_keeps (p psn layer : Nat) (s : State) (hs : Keeps cq co s) : Keeps cq co (stagingFlush p psn layer s) := by
  unfold stagingFlush
  repeat any_goals first
    | with_reducible assumption
    | with_reducible refine allocFrames_keeps_eq_got ‹_› ?_
    | with_reducible refine allocFrames_keeps_eq_wait ‹_› ?_
    | with_reducible refine allocFrames_keeps_eq_none ‹_› ?_
    | with_reducible apply newObject_keeps
    | with_reducible apply t1Read_keeps
    | with_reducible apply State.onPart_keeps
    | with_reducible apply State.draw_keeps
    | dsimp only
    | intro _ _ _
    | split
    | with_reducible apply Keeps.lit


theorem supersededCopyRelease_keeps (p psn : Nat) (s : State) (hs : Keeps cq co s) : Keeps cq co (supersededCopyRelease p psn s) := by
  unfold supersededCopyRelease
  repeat any_goals first
    | with_reducible assumption
    | with_reducible apply releaseOld_keeps
    | with_reducible apply State.draw_keeps
    | dsimp only
    | intro _ _ _
    | split


theorem parkingStart_keeps (p i : Nat) (s : State) (hs : Keeps cq co s) : Keeps cq co (parkingStart p i s) := by
  unfold parkingStart
  repeat any_goals first
    | with_reducible assumption
    | with_reducible apply sendSets_keeps
    | with_reducible apply selectMove_keeps
    | with_reducible apply State.draw_keeps
    | with_reducible apply foldl_keeps (Keeps cq co)
    | dsimp only
    | intro _ _ _
    | split


theorem parkingRetry_keeps (p i : Nat) (s : State) (hs : Keeps cq co s) : Keeps cq co (parkingRetry p i s) := by
  unfold parkingRetry
  repeat any_goals first
    | with_reducible assumption
    | with_reducible apply parkingStart_keeps
    | with_reducible apply State.onSeq_keeps
    | with_reducible apply State.draw_keeps
    | dsimp only
    | intro _ _ _
    | split
    | with_reducible apply Keeps.lit


theorem restChunkRoom_keeps_eq {s : State} {p i : Nat} {t : State} (e : restChunkRoom s p i = some t) (hs : Keeps cq co s) : Keeps cq co t := by
  unfold restChunkRoom at e
  repeat any_goals first
    | dsimp only at e
    | (cases e; done)
    | cases e
    | split at e
    | with_reducible assumption
    | with_reducible refine allocAll_keeps_eq_got ‹_› ?_
    | with_reducible refine allocAll_keeps_eq_wait ‹_› ?_
    | with_reducible refine allocAll_keeps_eq_none ‹_› ?_
    | with_reducible apply State.onPart_keeps
    | with_reducible apply State.draw_keeps
    | dsimp only
    | intro _ _ _
    | split
    | with_reducible apply Keeps.lit


theorem parkToRest_keeps (p i : Nat) (s : State) (hs : Keeps cq co s) : Keeps cq co (parkToRest p i s) := by
  unfold parkToRest
  repeat any_goals first
    | with_reducible assumption
    | with_reducible refine restChunkRoom_keeps_eq ‹_› ?_
    | with_reducible apply State.onPart_keeps
    | with_reducible apply State.onSeq_keeps
    | with_reducible apply pageMove_keeps
    | with_reducible apply selectMove_keeps
    | with_reducible apply landMove_keeps
    | with_reducible apply dropTents_keeps
    | with_reducible refine dropTents_keeps_eq ‹_› ?_
    | with_reducible apply trimWakeList_keeps
    | with_reducible apply trimTables_keeps
    | with_reducible apply State.draw_keeps
    | dsimp only
    | intro _ _ _
    | split
    | with_reducible apply Keeps.lit


theorem coolingStart_keeps (p : Nat) (s : State) (hs : Keeps cq co s) : Keeps cq co (coolingStart p s) := by
  unfold coolingStart
  repeat any_goals first
    | with_reducible assumption
    | with_reducible apply sendSets_keeps
    | with_reducible apply State.draw_keeps
    | dsimp only
    | intro _ _ _
    | split


theorem beginTent_keeps_eq {s : State} {p psn layer home : Nat} {restore : Option Nat} {t : State} {a}
    (e : beginTent s p psn layer home restore = some (t, a)) (hs : Keeps cq co s) : Keeps cq co t := by
  unfold beginTent at e
  dsimp only at e
  split at e
  · cases e
  · split at e
    · cases e
    · split at e
      · cases e
      · exact readAt_keeps_eq (Option.some.inj e) (State.onSet_keeps _ _ _ _ (State.onPart_keeps _ _ _ hs))

theorem beginTailTent_keeps_eq {s : State} {p i layer : Nat} {restore : Option Nat} {t : State} {a}
    (e : beginTailTent s p i layer restore = some (t, a)) (hs : Keeps cq co s) : Keeps cq co t := by
  unfold beginTailTent at e
  dsimp only at e
  split at e
  · cases e
  · split at e
    · cases e
    · split at e
      · cases e
      · exact readAt_keeps_eq (Option.some.inj e) (State.onSeq_keeps _ _ _ _ (State.onPart_keeps _ _ _ hs))

theorem addSpec_keeps (s : State) (p i : Nat) (hs : Keeps cq co s) : Keeps cq co (addSpec s p i) := by
  unfold addSpec
  repeat any_goals first
    | with_reducible assumption
    | with_reducible apply State.onSeq_keeps
    | with_reducible apply State.draw_keeps
    | dsimp only
    | intro _ _ _
    | split
    | with_reducible apply Keeps.lit


theorem restoreMore_keeps (p i : Nat) (l : List (Option Nat × Nat)) : ∀ s : State, Keeps cq co s → Keeps cq co (restoreMore p i l s) := by
  induction l with
  | nil => intro s hs; exact hs
  | cons b r ih =>
    intro s hs
    unfold restoreMore
    split
    · exact hs
    next q _ =>
      split
      · exact hs
      · have key : ∀ t : State × Nat, (match b.1 with
            | some n => beginTent s p n b.2 q.homeQ (some i)
            | none => beginTailTent s p i b.2 (some i)) = some t → Keeps cq co t.1 := by
          rintro ⟨t, a⟩ e
          split at e
          · exact beginTent_keeps_eq e hs
          · exact beginTailTent_keeps_eq e hs
        dsimp only
        split
        next t e => exact ih _ (addSpec_keeps _ _ _ (key t e))
        · exact ih _ hs

theorem restoreFrame_keeps (s : State) (p i : Nat) (hs : Keeps cq co s) : Keeps cq co (restoreFrame s p i) := by
  unfold restoreFrame
  repeat any_goals first
    | with_reducible assumption
    | with_reducible apply State.onPart_keeps
    | with_reducible apply State.onSeq_keeps
    | with_reducible apply readAt_keeps
    | with_reducible refine readAt_keeps_eq ‹_› ?_
    | with_reducible apply State.draw_keeps
    | dsimp only
    | intro _ _ _
    | split
    | with_reducible apply Keeps.lit


theorem specRestoreStart_keeps (p i : Nat) (s : State) (hs : Keeps cq co s) : Keeps cq co (specRestoreStart p i s) := by
  unfold specRestoreStart
  repeat any_goals first
    | with_reducible assumption
    | with_reducible refine takeHot_keeps_eq_parked ‹_› ?_
    | with_reducible refine takeTables_keeps_eq ‹_› ?_
    | with_reducible apply State.onSeq_keeps
    | with_reducible apply State.hold_keeps
    | with_reducible apply restoreFrame_keeps
    | with_reducible apply State.onPart_keeps
    | with_reducible apply restoreMore_keeps
    | with_reducible apply State.draw_keeps
    | dsimp only
    | intro _ _ _
    | split
    | with_reducible apply Keeps.lit


theorem specRestoreResume_keeps (p i : Nat) (s : State) (hs : Keeps cq co s) : Keeps cq co (specRestoreResume p i s) := by
  unfold specRestoreResume
  repeat any_goals first
    | with_reducible assumption
    | with_reducible apply restoreFrame_keeps
    | with_reducible apply restoreMore_keeps
    | with_reducible apply State.draw_keeps
    | dsimp only
    | intro _ _ _
    | split


theorem noteRestored_keeps (s : State) (p i : Nat) (hs : Keeps cq co s) : Keeps cq co (noteRestored s p i) := by
  unfold noteRestored
  repeat any_goals first
    | with_reducible assumption
    | with_reducible apply State.onSeq_keeps
    | with_reducible apply State.draw_keeps
    | dsimp only
    | intro _ _ _
    | split
    | with_reducible apply Keeps.lit


theorem endRestore_keeps (s : State) (p i : Nat) (hs : Keeps cq co s) : Keeps cq co (endRestore s p i) := by
  unfold endRestore
  repeat any_goals first
    | with_reducible assumption
    | with_reducible apply dropTents_keeps
    | with_reducible refine dropTents_keeps_eq ‹_› ?_
    | with_reducible apply trimTables_keeps
    | with_reducible apply State.onSeq_keeps
    | with_reducible apply State.draw_keeps
    | dsimp only
    | intro _ _ _
    | split


theorem holdEndExpiry_keeps (p i : Nat) (s : State) (hs : Keeps cq co s) : Keeps cq co (holdEndExpiry p i s) := by
  unfold holdEndExpiry
  repeat any_goals first
    | with_reducible assumption
    | with_reducible apply endRestore_keeps
    | with_reducible apply State.draw_keeps
    | dsimp only
    | intro _ _ _
    | split


theorem prefetchCopyExpiry_keeps (p psn layer : Nat) (s : State) (hs : Keeps cq co s) : Keeps cq co (prefetchCopyExpiry p psn layer s) := by
  unfold prefetchCopyExpiry
  repeat any_goals first
    | with_reducible assumption
    | with_reducible apply dropTent_keeps
    | with_reducible apply State.draw_keeps
    | dsimp only
    | intro _ _ _
    | split


theorem prefetchPage_keeps (s : State) (p psn layer home layerBytes : Nat) (hs : Keeps cq co s) : Keeps cq co (prefetchPage s p psn layer home layerBytes) := by
  unfold prefetchPage
  repeat any_goals first
    | with_reducible assumption
    | with_reducible refine beginTent_keeps_eq ‹_› ?_
    | with_reducible apply touchDram_keeps
    | with_reducible apply State.draw_keeps
    | dsimp only
    | intro _ _ _
    | split


theorem execPageMove_keeps (part move : Nat) (s : State) (hs : Keeps cq co s) : OutKeeps cq co (execPageMove part move s) := by
  unfold execPageMove
  repeat any_goals first
    | with_reducible assumption
    | with_reducible apply OutKeeps.next
    | intro _ _
    | with_reducible apply pageMove_keeps
    | with_reducible apply State.draw_keeps
    | dsimp only
    | intro _ _ _
    | split


theorem execMoveBufferResume_keeps (part move : Nat) (s : State) (hs : Keeps cq co s) : OutKeeps cq co (execMoveBufferResume part move s) := by
  unfold execMoveBufferResume
  repeat any_goals first
    | with_reducible assumption
    | with_reducible apply OutKeeps.next
    | intro _ _
    | with_reducible apply moveBufferResume_keeps
    | with_reducible apply State.draw_keeps
    | dsimp only
    | intro _ _ _
    | split


theorem execDescriptorSegmentMove_keeps (part segment : Nat) (s : State) (hs : Keeps cq co s) : OutKeeps cq co (execDescriptorSegmentMove part segment s) := by
  unfold execDescriptorSegmentMove
  repeat any_goals first
    | with_reducible assumption
    | with_reducible apply OutKeeps.next
    | intro _ _
    | with_reducible apply descriptorSegmentMove_keeps
    | with_reducible apply State.draw_keeps
    | dsimp only
    | intro _ _ _
    | split


theorem execLocationChangeCommit_keeps (part move : Nat) (s : State) (hs : Keeps cq co s) : OutKeeps cq co (execLocationChangeCommit part move s) := by
  unfold execLocationChangeCommit
  repeat any_goals first
    | with_reducible assumption
    | with_reducible apply OutKeeps.next
    | intro _ _
    | with_reducible apply locationChangeCommit_keeps
    | with_reducible apply State.draw_keeps
    | dsimp only
    | intro _ _ _
    | split


theorem execStagingFlush_keeps (part psn layer : Nat) (s : State) (hs : Keeps cq co s) : OutKeeps cq co (execStagingFlush part psn layer s) := by
  unfold execStagingFlush
  repeat any_goals first
    | with_reducible assumption
    | with_reducible apply OutKeeps.next
    | intro _ _
    | with_reducible apply stagingFlush_keeps
    | with_reducible apply State.draw_keeps
    | dsimp only
    | intro _ _ _
    | split


theorem execSupersededCopyRelease_keeps (part psn : Nat) (s : State) (hs : Keeps cq co s) : OutKeeps cq co (execSupersededCopyRelease part psn s) := by
  unfold execSupersededCopyRelease
  repeat any_goals first
    | with_reducible assumption
    | with_reducible apply OutKeeps.next
    | intro _ _
    | with_reducible apply supersededCopyRelease_keeps
    | with_reducible apply State.draw_keeps
    | dsimp only
    | intro _ _ _
    | split


theorem execParkingMoveStart_keeps (part seq : Nat) (s : State) (hs : Keeps cq co s) : OutKeeps cq co (execParkingMoveStart part seq s) := by
  unfold execParkingMoveStart
  repeat any_goals first
    | with_reducible assumption
    | with_reducible apply OutKeeps.next
    | intro _ _
    | with_reducible apply parkingStart_keeps
    | with_reducible apply State.draw_keeps
    | dsimp only
    | intro _ _ _
    | split


theorem execParkingRetry_keeps (part seq : Nat) (s : State) (hs : Keeps cq co s) : OutKeeps cq co (execParkingRetry part seq s) := by
  unfold execParkingRetry
  repeat any_goals first
    | with_reducible assumption
    | with_reducible apply OutKeeps.next
    | intro _ _
    | with_reducible apply parkingRetry_keeps
    | with_reducible apply State.draw_keeps
    | dsimp only
    | intro _ _ _
    | split


theorem execParkToRest_keeps (part seq : Nat) (s : State) (hs : Keeps cq co s) : OutKeeps cq co (execParkToRest part seq s) := by
  unfold execParkToRest
  repeat any_goals first
    | with_reducible assumption
    | with_reducible apply OutKeeps.next
    | intro _ _
    | with_reducible apply parkToRest_keeps
    | with_reducible apply State.draw_keeps
    | dsimp only
    | intro _ _ _
    | split


theorem execCoolingMoveStart_keeps (part : Nat) (s : State) (hs : Keeps cq co s) : OutKeeps cq co (execCoolingMoveStart part s) := by
  unfold execCoolingMoveStart
  repeat any_goals first
    | with_reducible assumption
    | with_reducible apply OutKeeps.next
    | intro _ _
    | with_reducible apply coolingStart_keeps
    | with_reducible apply State.draw_keeps
    | dsimp only
    | intro _ _ _
    | split


theorem execSpecRestoreStart_keeps (part seq : Nat) (s : State) (hs : Keeps cq co s) : OutKeeps cq co (execSpecRestoreStart part seq s) := by
  unfold execSpecRestoreStart
  repeat any_goals first
    | with_reducible assumption
    | with_reducible apply OutKeeps.next
    | intro _ _
    | with_reducible apply specRestoreStart_keeps
    | with_reducible apply State.draw_keeps
    | dsimp only
    | intro _ _ _
    | split


theorem execSpecRestoreResume_keeps (part seq : Nat) (s : State) (hs : Keeps cq co s) : OutKeeps cq co (execSpecRestoreResume part seq s) := by
  unfold execSpecRestoreResume
  repeat any_goals first
    | with_reducible assumption
    | with_reducible apply OutKeeps.next
    | intro _ _
    | with_reducible apply specRestoreResume_keeps
    | with_reducible apply State.draw_keeps
    | dsimp only
    | intro _ _ _
    | split


theorem execHoldEndExpiry_keeps (part seq : Nat) (s : State) (hs : Keeps cq co s) : OutKeeps cq co (execHoldEndExpiry part seq s) := by
  unfold execHoldEndExpiry
  repeat any_goals first
    | with_reducible assumption
    | with_reducible apply OutKeeps.next
    | intro _ _
    | with_reducible apply holdEndExpiry_keeps
    | with_reducible apply State.draw_keeps
    | dsimp only
    | intro _ _ _
    | split


theorem execPrefetchCopyExpiry_keeps (part psn layer : Nat) (s : State) (hs : Keeps cq co s) : OutKeeps cq co (execPrefetchCopyExpiry part psn layer s) := by
  unfold execPrefetchCopyExpiry
  repeat any_goals first
    | with_reducible assumption
    | with_reducible apply OutKeeps.next
    | intro _ _
    | with_reducible apply prefetchCopyExpiry_keeps
    | with_reducible apply State.draw_keeps
    | dsimp only
    | intro _ _ _
    | split


end Sys2Proof.Machine
end

