-- ==== Sys2Proof/Laws/Keeps/Prp.lean ====
section
/-! SUPPORT. What the operations of Machine/Prp.lean keep. -/

namespace Sys2Proof.Machine

open Sys2Proof

variable {cq : List Instr} {co : Oxsis}

theorem State.onPort_keeps (s : State) (n : Nat) (g : Port → Port) (hs : Keeps cq co s) : Keeps cq co (State.onPort s n g) := by
  unfold State.onPort
  repeat any_goals first
    | with_reducible assumption
    | with_reducible apply State.onFabric_keeps
    | with_reducible apply State.draw_keeps
    | dsimp only
    | intro _ _ _
    | split
    | with_reducible apply Keeps.lit


theorem emit_keeps (s : State) (n : Nat) (p : Packet) (hs : Keeps cq co s) : Keeps cq co (emit s n p) := by
  unfold emit
  repeat any_goals first
    | with_reducible assumption
    | with_reducible apply State.onFabric_keeps
    | with_reducible apply State.onPort_keeps
    | with_reducible apply State.draw_keeps
    | dsimp only
    | intro _ _ _
    | split
    | with_reducible apply Keeps.lit


theorem portSend_keeps (s : State) (n : Nat) (p : Packet) (hs : Keeps cq co s) : Keeps cq co (portSend s n p) := by
  unfold portSend
  repeat any_goals first
    | with_reducible assumption
    | with_reducible apply emit_keeps
    | with_reducible apply State.onPort_keeps
    | with_reducible apply State.draw_keeps
    | dsimp only
    | intro _ _ _
    | split
    | with_reducible apply Keeps.lit


theorem servePort_keeps (n : Nat)  : ∀ (v0 : Nat) (v1 : State), Keeps cq co v1 → Keeps cq co (servePort n v0 v1) := by
  intro v0
  induction v0 with
  | zero =>
    intro v1 hv1
    unfold servePort
    repeat any_goals first
      | with_reducible assumption
      | with_reducible apply emit_keeps
      | with_reducible apply State.onPort_keeps
      | with_reducible apply State.draw_keeps
      | dsimp only
      | intro _ _ _
      | split
  | succ n ih =>
    intro v1 hv1
    unfold servePort
    repeat any_goals first
      | assumption
      | with_reducible apply ih
      | with_reducible apply emit_keeps
      | with_reducible apply State.onPort_keeps
      | with_reducible apply State.draw_keeps
      | dsimp only
      | intro _ _ _
      | split


theorem drainPort_keeps (s : State) (n : Nat) (hs : Keeps cq co s) : Keeps cq co (drainPort s n) := by
  unfold drainPort
  repeat any_goals first
    | with_reducible assumption
    | with_reducible apply servePort_keeps
    | with_reducible apply State.draw_keeps
    | dsimp only
    | intro _ _ _
    | split


theorem route_keeps (s : State) (p : Packet) (rail path : Nat) (hs : Keeps cq co s) : Keeps cq co (route s p rail path) := by
  unfold route
  repeat any_goals first
    | with_reducible assumption
    | with_reducible apply portSend_keeps
    | with_reducible apply State.draw_keeps
    | dsimp only
    | intro _ _ _
    | split
    | with_reducible apply Keeps.lit


theorem State.onQp_keeps (s : State) (p i : Nat) (g : Qp → Qp) (hs : Keeps cq co s) : Keeps cq co (State.onQp s p i g) := by
  unfold State.onQp
  repeat any_goals first
    | with_reducible assumption
    | with_reducible apply State.onPart_keeps
    | with_reducible apply State.draw_keeps
    | dsimp only
    | intro _ _ _
    | split
    | with_reducible apply Keeps.lit


theorem sendProtocol_keeps (s : State) (p i : Nat) (pk : Packet) (hs : Keeps cq co s) : Keeps cq co (sendProtocol s p i pk) := by
  unfold sendProtocol
  repeat any_goals first
    | with_reducible assumption
    | with_reducible apply State.onAcct_keeps
    | with_reducible apply route_keeps
    | with_reducible apply State.draw_keeps
    | dsimp only
    | intro _ _ _
    | split
    | with_reducible apply Keeps.lit


theorem raiseGrant_keeps (s : State) (p i peer : Nat) (hs : Keeps cq co s) : Keeps cq co (raiseGrant s p i peer) := by
  unfold raiseGrant
  repeat any_goals first
    | with_reducible assumption
    | with_reducible apply State.onQp_keeps
    | with_reducible apply State.draw_keeps
    | dsimp only
    | intro _ _ _
    | split
    | with_reducible apply Keeps.lit


theorem sendAck_keeps (s : State) (p i peer : Nat) (hs : Keeps cq co s) : Keeps cq co (sendAck s p i peer) := by
  unfold sendAck
  repeat any_goals first
    | with_reducible assumption
    | with_reducible apply raiseGrant_keeps
    | with_reducible apply sendProtocol_keeps
    | with_reducible apply State.onQp_keeps
    | with_reducible apply State.draw_keeps
    | dsimp only
    | intro _ _ _
    | split
    | with_reducible apply Keeps.lit


theorem newGroup_keeps (s : State) (p i : Nat) (hs : Keeps cq co s) : Keeps cq co (newGroup s p i).2 := by
  unfold newGroup
  repeat any_goals first
    | with_reducible assumption
    | with_reducible apply State.onQp_keeps
    | with_reducible apply State.draw_keeps
    | dsimp only
    | intro _ _ _
    | split
    | with_reducible apply Keeps.lit


theorem newGroup_keeps_eq {s : State} {p i : Nat} {t : State} {a} (e : newGroup s p i = (a, t)) (hs : Keeps cq co s) : Keeps cq co t := by
  have k := newGroup_keeps s p i hs
  rw [e] at k
  exact k

theorem commandGroup_keeps (s : State) (c : CmdRef) (i : Nat) (hs : Keeps cq co s) : Keeps cq co (commandGroup s c i).2 := by
  unfold commandGroup
  repeat any_goals first
    | with_reducible assumption
    | with_reducible apply newGroup_keeps
    | with_reducible refine newGroup_keeps_eq ‹_› ?_
    | with_reducible apply State.onQp_keeps
    | with_reducible apply State.draw_keeps
    | dsimp only
    | intro _ _ _
    | split
    | with_reducible apply Keeps.lit


theorem commandGroup_keeps_eq {s : State} {c : CmdRef} {i : Nat} {t : State} {a} (e : commandGroup s c i = (a, t)) (hs : Keeps cq co s) : Keeps cq co t := by
  have k := commandGroup_keeps s c i hs
  rw [e] at k
  exact k

theorem enqueue_keeps (s : State) (p i : Nat) (mk : Nat → Packet) (cmd : Option CmdRef) (hs : Keeps cq co s) : Keeps cq co (enqueue s p i mk cmd) := by
  unfold enqueue
  repeat any_goals first
    | with_reducible assumption
    | with_reducible apply State.onQp_keeps
    | with_reducible apply State.draw_keeps
    | dsimp only
    | intro _ _ _
    | split
    | with_reducible apply Keeps.lit


theorem enqueueBytes_keeps (p i group buf off : Nat) (urec ugen : Nat) (cmd : Option CmdRef)  : ∀ (v0 : List (List Byte)) (v1 : Nat) (v2 : State), Keeps cq co v2 → Keeps cq co (enqueueBytes p i group buf off urec ugen cmd v0 v1 v2) := by
  intro v0
  induction v0 with
  | nil =>
    intro v1 v2 hv2
    unfold enqueueBytes
    repeat any_goals first
      | with_reducible assumption
      | with_reducible apply enqueue_keeps
      | with_reducible apply State.draw_keeps
      | dsimp only
      | intro _ _ _
      | split
      | with_reducible apply Keeps.lit
      | intro _ _
  | cons b r ih =>
    intro v1 v2 hv2
    unfold enqueueBytes
    repeat any_goals first
      | assumption
      | with_reducible apply ih
      | with_reducible apply enqueue_keeps
      | with_reducible apply State.draw_keeps
      | dsimp only
      | intro _ _ _
      | split
      | with_reducible apply Keeps.lit
      | intro _ _


theorem dropReadPins_keeps (s : State) (p i : Nat) (hs : Keeps cq co s) : Keeps cq co (dropReadPins s p i) := by
  unfold dropReadPins
  repeat any_goals first
    | with_reducible assumption
    | with_reducible apply State.onQp_keeps
    | with_reducible apply unpinSet_keeps
    | with_reducible apply State.draw_keeps
    | with_reducible apply foldl_keeps (Keeps cq co)
    | dsimp only
    | intro _ _ _
    | split
    | with_reducible apply Keeps.lit


theorem dropAllPins_keeps (s : State) (p i : Nat) (hs : Keeps cq co s) : Keeps cq co (dropAllPins s p i) := by
  unfold dropAllPins
  repeat any_goals first
    | with_reducible assumption
    | with_reducible apply unpinSet_keeps
    | with_reducible apply State.onQp_keeps
    | with_reducible apply State.draw_keeps
    | with_reducible apply foldl_keeps (Keeps cq co)
    | dsimp only
    | intro _ _ _
    | split
    | with_reducible apply Keeps.lit


theorem respondRead_keeps (s : State) (p i : Nat) (v : Serving) (l : Loc) (hs : Keeps cq co s) : Keeps cq co (respondRead s p i v l) := by
  unfold respondRead
  repeat any_goals first
    | with_reducible assumption
    | with_reducible apply State.onQp_keeps
    | with_reducible apply State.draw_keeps
    | with_reducible apply foldl_keeps (Keeps cq co)
    | dsimp only
    | intro _ _ _
    | split
    | with_reducible apply Keeps.lit


theorem serveWaiting_keeps (s : State) (p : Nat) (tk : Nat → Serving → Bool) (ok : Bool) (hs : Keeps cq co s) : Keeps cq co (serveWaiting s p tk ok) := by
  unfold serveWaiting
  repeat any_goals first
    | with_reducible assumption
    | with_reducible apply State.onQp_keeps
    | with_reducible apply respondRead_keeps
    | with_reducible apply dropReadPins_keeps
    | with_reducible apply State.draw_keeps
    | with_reducible apply foldl_keeps (Keeps cq co)
    | dsimp only
    | intro _ _ _
    | split
    | with_reducible apply Keeps.lit


theorem useQp_keeps (s : State) (p i : Nat) (hs : Keeps cq co s) : Keeps cq co (useQp s p i) := by
  unfold useQp
  repeat any_goals first
    | with_reducible assumption
    | with_reducible apply State.onQp_keeps
    | with_reducible apply State.draw_keeps
    | dsimp only
    | intro _ _ _
    | split
    | with_reducible apply Keeps.lit


theorem sendNext_keeps (s : State) (p i : Nat) (hs : Keeps cq co s) : Keeps cq co (sendNext s p i) := by
  unfold sendNext
  repeat any_goals first
    | with_reducible assumption
    | with_reducible apply State.onPart_keeps
    | with_reducible apply State.onQp_keeps
    | with_reducible apply State.onAcct_keeps
    | with_reducible apply route_keeps
    | with_reducible apply useQp_keeps
    | with_reducible apply State.draw_keeps
    | dsimp only
    | intro _ _ _
    | split
    | with_reducible apply Keeps.lit


theorem fabricRecord_keeps (s : State) (fn q cause qp side part chip seq handle group tag : Nat) (hs : Keeps cq co s) : Keeps cq co (fabricRecord s fn q cause qp side part chip seq handle group tag) := by
  unfold fabricRecord
  repeat any_goals first
    | with_reducible assumption
    | with_reducible apply postRecord_keeps
    | with_reducible apply State.draw_keeps
    | dsimp only
    | intro _ _ _
    | split


theorem failGroup_keeps (s : State) (c : CmdRef) (i group : Nat) (hs : Keeps cq co s) : Keeps cq co (failGroup s c i group) := by
  unfold failGroup
  repeat any_goals first
    | with_reducible assumption
    | with_reducible apply State.onFlight_keeps
    | with_reducible apply State.draw_keeps
    | dsimp only
    | intro _ _ _
    | split
    | with_reducible apply Keeps.lit


theorem dropGroup_keeps (s : State) (p i : Nat) (c : CmdRef) (group : Nat) (hs : Keeps cq co s) : Keeps cq co (dropGroup s p i c group) := by
  unfold dropGroup
  repeat any_goals first
    | with_reducible assumption
    | with_reducible apply State.onQp_keeps
    | with_reducible apply State.draw_keeps
    | dsimp only
    | intro _ _ _
    | split
    | with_reducible apply Keeps.lit


theorem remoteStep_keeps (s : State) (c : CmdRef) (i : Nat) (hs : Keeps cq co s) : Keeps cq co (remoteStep s c i) := by
  unfold remoteStep
  repeat any_goals first
    | with_reducible assumption
    | with_reducible apply setStage_keeps
    | with_reducible apply State.draw_keeps
    | dsimp only
    | intro _ _ _
    | split


theorem qpError_keeps (s : State) (p i cause seq : Nat) (hs : Keeps cq co s) : Keeps cq co (qpError s p i cause seq) := by
  unfold qpError
  repeat any_goals first
    | with_reducible assumption
    | with_reducible apply dropAllPins_keeps
    | with_reducible apply State.onQp_keeps
    | with_reducible apply remoteStep_keeps
    | with_reducible apply failGroup_keeps
    | with_reducible apply fabricRecord_keeps
    | with_reducible apply State.onPart_keeps
    | with_reducible apply onCnt_keeps
    | with_reducible apply State.draw_keeps
    | with_reducible apply foldl_keeps (Keeps cq co)
    | dsimp only
    | intro _ _ _
    | split
    | with_reducible apply Keeps.lit


end Sys2Proof.Machine
end

