-- ==== Sys2Proof/Laws/Keeps/Attend.lean ====
section
/-! SUPPORT. What the operations of Machine/Attend.lean keep. -/

namespace Sys2Proof.Machine

open Sys2Proof

variable {cq : List Instr} {co : Oxsis}



end Sys2Proof.Machine
end

