-- ==== Sys2Proof/Laws/Keeps/Attention.lean ====
section
/-! SUPPORT. What the operations of Machine/Attention.lean keep. -/

namespace Sys2Proof.Machine

open Sys2Proof

variable {cq : List Instr} {co : Oxsis}

theorem reserve_keeps (s : State) (c : CmdRef) (f : Flight) (layer : Nat) (e : Elem) (hs : Keeps cq co s) : Keeps cq co (reserve s c f layer e) := by
  unfold reserve
  repeat any_goals first
    | with_reducible assumption
    | with_reducible apply State.onSeq_keeps
    | with_reducible apply State.onFlight_keeps
    | with_reducible apply State.draw_keeps
    | dsimp only
    | intro _ _ _
    | split
    | with_reducible apply Keeps.lit


theorem elemWaits_keeps (s : State) (c : CmdRef) (k cause : Nat) (hs : Keeps cq co s) : Keeps cq co (elemWaits s c k cause) := by
  unfold elemWaits
  repeat any_goals first
    | with_reducible assumption
    | with_reducible apply setElem_keeps
    | with_reducible apply State.draw_keeps
    | dsimp only
    | intro _ _ _
    | split
    | with_reducible apply Keeps.lit


theorem hotPhase_keeps (s : State) (c : CmdStep) (k : Nat) (hs : Keeps cq co s) : Keeps cq co (hotPhase s c k) := by
  unfold hotPhase
  repeat any_goals first
    | with_reducible assumption
    | with_reducible apply failElem_keeps
    | with_reducible refine wakeSeq_keeps_eq_awake ‹_› ?_
    | with_reducible refine wakeSeq_keeps_eq_wait ‹_› ?_
    | with_reducible refine wakeSeq_keeps_eq_alloc ‹_› ?_
    | with_reducible refine wakeSeq_keeps_eq_fails ‹_› ?_
    | with_reducible apply setElem_keeps
    | with_reducible apply State.draw_keeps
    | dsimp only
    | intro _ _ _
    | split
    | with_reducible apply Keeps.lit


theorem addUnit_keeps (s : State) (u : Unit) (hs : Keeps cq co s) : Keeps cq co (addUnit s u) := by
  unfold addUnit
  repeat any_goals first
    | with_reducible assumption
    | with_reducible apply State.onSched_keeps
    | with_reducible apply State.draw_keeps
    | dsimp only
    | intro _ _ _
    | split
    | with_reducible apply Keeps.lit


theorem activate_keeps (s : State) (p q : Nat) (hs : Keeps cq co s) : Keeps cq co (activate s p q) := by
  unfold activate
  repeat any_goals first
    | with_reducible assumption
    | with_reducible apply State.onPart_keeps
    | with_reducible apply State.draw_keeps
    | with_reducible apply foldl_keeps (Keeps cq co)
    | dsimp only
    | intro _ _ _
    | split
    | with_reducible apply Keeps.lit


theorem allocPhase_keeps (s : State) (c : CmdRef) (k : Nat) (hs : Keeps cq co s) : Keeps cq co (allocPhase s c k) := by
  unfold allocPhase
  repeat any_goals first
    | with_reducible assumption
    | with_reducible apply failElem_keeps
    | with_reducible refine allocWithTables_keeps_eq_got ‹_› ?_
    | with_reducible refine allocWithTables_keeps_eq_wait ‹_› ?_
    | with_reducible refine allocWithTables_keeps_eq_none ‹_› ?_
    | with_reducible apply elemWaits_keeps
    | with_reducible apply State.onFlight_keeps
    | with_reducible apply setElem_keeps
    | with_reducible apply activate_keeps
    | with_reducible apply addUnit_keeps
    | with_reducible apply State.draw_keeps
    | dsimp only
    | intro _ _ _
    | split
    | with_reducible apply Keeps.lit


theorem extentPhase_keeps (s : State) (c : CmdRef) (k : Nat) (hs : Keeps cq co s) : Keeps cq co (extentPhase s c k) := by
  unfold extentPhase
  repeat any_goals first
    | with_reducible assumption
    | with_reducible apply failElem_keeps
    | with_reducible apply setElem_keeps
    | with_reducible apply State.draw_keeps
    | dsimp only
    | intro _ _ _
    | split
    | with_reducible apply Keeps.lit


theorem enqueueRows_keeps (s : State) (c : CmdRef) (e : Elem) (i group buf n : Nat) (ps : List (List Byte)) (hs : Keeps cq co s) : Keeps cq co (enqueueRows s c e i group buf n ps) := by
  unfold enqueueRows
  repeat any_goals first
    | with_reducible assumption
    | with_reducible apply enqueue_keeps
    | with_reducible apply State.draw_keeps
    | with_reducible apply foldl_keeps (Keeps cq co)
    | dsimp only
    | intro _ _ _
    | split
    | with_reducible apply Keeps.lit


theorem sendRemote_keeps (s : State) (c : CmdRef) (k : Nat) (hs : Keeps cq co s) : Keeps cq co (sendRemote s c k) := by
  unfold sendRemote
  repeat any_goals first
    | with_reducible assumption
    | with_reducible apply setElem_keeps
    | with_reducible apply commandGroup_keeps
    | with_reducible refine commandGroup_keeps_eq ‹_› ?_
    | with_reducible apply enqueueRows_keeps
    | with_reducible apply State.draw_keeps
    | dsimp only
    | intro _ _ _
    | split
    | with_reducible apply Keeps.lit


theorem finishElem_keeps (s : State) (c : CmdRef) (k : Nat) (hs : Keeps cq co s) : Keeps cq co (finishElem s c k) := by
  unfold finishElem
  repeat any_goals first
    | with_reducible assumption
    | with_reducible apply setElem_keeps
    | with_reducible apply settleCommand_keeps
    | with_reducible apply sendRemote_keeps
    | with_reducible apply State.draw_keeps
    | dsimp only
    | intro _ _ _
    | split
    | with_reducible apply Keeps.lit


theorem spacePhase_keeps (s : State) (c : CmdRef) (k : Nat) (hs : Keeps cq co s) : Keeps cq co (spacePhase s c k) := by
  unfold spacePhase
  split
  · split
    · exact hs
    · split
      · exact failElem_keeps _ _ _ _ hs
      · dsimp only
        split
        · exact elemWaits_keeps _ _ _ _ (recallSegments_keeps _ _ _ hs)
        split
        next t e => exact failElem_keeps _ _ _ _ (allocAll_keeps_eq_none e hs)
        next t e => exact elemWaits_keeps _ _ _ _ (allocAll_keeps_eq_wait e hs)
        next t fs e =>
          have h1 := allocAll_keeps_eq_got e hs
          have h2 : ∀ u ch g l, Keeps cq co u → Keeps cq co (setElem (pinFor (u.onFlight c ch) c l) c k g) := fun u ch g l h =>
            setElem_keeps _ _ _ _ (pinFor_keeps _ _ _ (State.onFlight_keeps _ _ _ h))
          exact .ite (finishElem_keeps _ _ _ (h2 _ _ _ _ h1))
            (foldl_keeps (Keeps cq co) _ (fun s u h => addUnit_keeps _ _ h) _ _ (activate_keeps _ _ _ (h2 _ _ _ _ h1)))
  · exact hs

theorem advanceElem_keeps (s : State) (c : CmdStep) (k : Nat) (hs : Keeps cq co s) : Keeps cq co (advanceElem s c k) := by
  unfold advanceElem
  repeat any_goals first
    | with_reducible assumption
    | with_reducible apply settleCommand_keeps
    | with_reducible apply spacePhase_keeps
    | with_reducible apply extentPhase_keeps
    | with_reducible apply allocPhase_keeps
    | with_reducible apply hotPhase_keeps
    | with_reducible apply State.draw_keeps
    | dsimp only
    | intro _ _ _
    | split


theorem moveOn_keeps (s : State) (c : CmdRef) (k : Nat) (hs : Keeps cq co s) : Keeps cq co (moveOn s c k) := by
  unfold moveOn
  repeat any_goals first
    | with_reducible assumption
    | with_reducible apply advanceElem_keeps
    | with_reducible apply State.draw_keeps
    | dsimp only
    | intro _ _ _
    | split


theorem prefetchFor_keeps (s : State) (c : CmdRef) (e : Elem) (hs : Keeps cq co s) : Keeps cq co (prefetchFor s c e) := by
  unfold prefetchFor
  repeat any_goals first
    | with_reducible assumption
    | with_reducible apply prefetchPage_keeps
    | with_reducible apply State.draw_keeps
    | with_reducible apply foldl_keeps (Keeps cq co)
    | dsimp only
    | intro _ _ _
    | split


theorem checkElements_keeps (c : CmdStep) (f : Flight)  : ∀ (v0 : Nat) (v1 : Nat) (v2 : List Nat) (v3 : List Elem) (v4 : State), Keeps cq co v4 → Keeps cq co (checkElements c f v0 v1 v2 v3 v4).1 := by
  intro v0
  induction v0 with
  | zero =>
    intro v1 v2 v3 v4 hv4
    unfold checkElements
    repeat any_goals first
      | with_reducible assumption
      | with_reducible apply reserve_keeps
      | with_reducible apply hostIn_keeps
      | with_reducible apply State.draw_keeps
      | dsimp only
      | intro _ _ _
      | split
      | with_reducible apply Keeps.lit
  | succ n ih =>
    intro v1 v2 v3 v4 hv4
    unfold checkElements
    repeat any_goals first
      | assumption
      | with_reducible apply ih
      | with_reducible apply reserve_keeps
      | with_reducible apply hostIn_keeps
      | with_reducible apply State.draw_keeps
      | dsimp only
      | intro _ _ _
      | split
      | with_reducible apply Keeps.lit


theorem startAttention_keeps (s : State) (c : CmdStep) (x : Slot) (f : Flight) (hs : Keeps cq co s) :
    StartKeeps cq co (startAttention s c x f) := by
  unfold startAttention
  split
  · exact .reject hs
  · have h0 : Keeps cq co (if cListPw f.word then s else hostIn s c.ref (64 * cN f.word)) := .ite hs (hostIn_keeps _ _ _ hs)
    have h1 := checkElements_keeps c f (cN f.word) 0 [] [] _ h0
    have h2 : ∀ pl st, Keeps cq co ((List.range (cN f.word)).foldl (fun s k => advanceElem s c k)
        (settleCommand (setStage (setPlan (checkElements c f (cN f.word) 0 [] []
          (if cListPw f.word then s else hostIn s c.ref (64 * cN f.word))).1 c.ref pl) c.ref st) c.ref)) := fun pl st =>
      foldl_keeps (Keeps cq co) _ (fun s k h => advanceElem_keeps _ _ _ h) _ _
        (settleCommand_keeps _ _ (setStage_keeps _ _ _ (setPlan_keeps _ _ _ h1)))
    exact .go (.ite (foldl_keeps (Keeps cq co) _ (fun s e h => prefetchFor_keeps _ _ _ h) _ _ (h2 _ _)) (h2 _ _))

theorem completePage_keeps (s : State) (p i layer k frame : Nat) (tokens : List Word) (q : Seq) (hs : Keeps cq co s) : Keeps cq co (completePage s p i layer k frame tokens q) := by
  unfold completePage
  repeat any_goals first
    | with_reducible assumption
    | with_reducible apply State.onPart_keeps
    | with_reducible apply State.onSeq_keeps
    | with_reducible apply State.onSet_keeps
    | with_reducible apply State.draw_keeps
    | dsimp only
    | intro _ _ _
    | split
    | with_reducible apply Keeps.lit


theorem homeTail_keeps (s : State) (p i layer : Nat) (m : Model) (frame : Option Nat) (hs : Keeps cq co s) : Keeps cq co (homeTail s p i layer m frame) := by
  unfold homeTail
  repeat any_goals first
    | with_reducible assumption
    | with_reducible apply promoteTail_keeps
    | with_reducible apply dropTailTent_keeps
    | with_reducible apply freeObject_keeps
    | with_reducible apply newObject_keeps
    | with_reducible apply State.onPart_keeps
    | with_reducible apply freeLoc_keeps
    | with_reducible apply State.onSeq_keeps
    | with_reducible apply State.draw_keeps
    | dsimp only
    | intro _ _ _
    | split
    | with_reducible apply Keeps.lit


theorem fillPage_keeps (s : State) (p frame : Nat) (m : Model) (lo : Nat) (vecs : List (List Byte × List Byte)) (hs : Keeps cq co s) : Keeps cq co (fillPage s p frame m lo vecs) := by
  unfold fillPage
  repeat any_goals first
    | with_reducible assumption
    | with_reducible apply touchDram_keeps
    | with_reducible apply State.onPart_keeps
    | with_reducible apply State.draw_keeps
    | dsimp only
    | intro _ _ _
    | split


theorem closeStep_keeps (s : State) (p i layers : Nat) (hs : Keeps cq co s) : Keeps cq co (closeStep s p i layers) := by
  unfold closeStep
  repeat any_goals first
    | with_reducible assumption
    | with_reducible apply State.onSeq_keeps
    | with_reducible apply State.draw_keeps
    | dsimp only
    | intro _ _ _
    | split
    | with_reducible apply Keeps.lit


theorem commitKv_keeps (s : State) (c : CmdRef) (layer : Nat) (e : Elem) (hs : Keeps cq co s) : Keeps cq co (commitKv s c layer e) := by
  unfold commitKv
  repeat any_goals first
    | with_reducible assumption
    | with_reducible apply homeTail_keeps
    | with_reducible apply fillPage_keeps
    | with_reducible apply completePage_keeps
    | with_reducible apply State.onSeq_keeps
    | with_reducible apply closeStep_keeps
    | with_reducible apply State.draw_keeps
    | with_reducible apply foldl_keeps (Keeps cq co)
    | dsimp only
    | intro _ _ _
    | split
    | with_reducible apply Keeps.lit


theorem commitRead_keeps (s : State) (c : CmdRef) (layer : Nat) (e : Elem) (hs : Keeps cq co s) : Keeps cq co (commitRead s c layer e) := by
  unfold commitRead
  repeat any_goals first
    | with_reducible assumption
    | with_reducible apply promote_keeps
    | with_reducible apply promoteTail_keeps
    | with_reducible apply State.draw_keeps
    | with_reducible apply foldl_keeps (Keeps cq co)
    | dsimp only
    | intro _ _ _
    | split


theorem sendFlag_keeps (s : State) (c : CmdRef) (k : Nat) (cmd : Option CmdRef) (hs : Keeps cq co s) : Keeps cq co (sendFlag s c k cmd) := by
  unfold sendFlag
  repeat any_goals first
    | with_reducible assumption
    | with_reducible apply enqueue_keeps
    | with_reducible apply setElem_keeps
    | with_reducible apply State.draw_keeps
    | dsimp only
    | intro _ _ _
    | split
    | with_reducible apply Keeps.lit
    | intro _ _


theorem remoteFailures_keeps (s : State) (c : CmdRef) (es : List Elem) (hs : Keeps cq co s) : Keeps cq co (remoteFailures s c es) := by
  unfold remoteFailures
  repeat any_goals first
    | with_reducible assumption
    | with_reducible apply failElem_keeps
    | with_reducible apply dropGroup_keeps
    | with_reducible apply State.draw_keeps
    | with_reducible apply foldl_keeps (Keeps cq co)
    | dsimp only
    | intro _ _ _
    | split


theorem attentionDone_keeps (s : State) (c : CmdRef) (f : Flight) (hs : Keeps cq co s) : CommitKeeps cq co (attentionDone s c f) := by
  unfold attentionDone
  repeat any_goals first
    | with_reducible assumption
    | with_reducible apply CommitKeeps.hold
    | with_reducible apply CommitKeeps.kill
    | with_reducible apply CommitKeeps.reject
    | with_reducible apply CommitKeeps.done
    | with_reducible apply commitKv_keeps
    | with_reducible apply commitRead_keeps
    | with_reducible apply State.onSeq_keeps
    | with_reducible apply sendFlag_keeps
    | with_reducible apply freeObject_keeps
    | with_reducible apply releaseReservation_keeps
    | with_reducible apply setPlan_keeps
    | with_reducible apply State.draw_keeps
    | with_reducible apply foldl_keeps (Keeps cq co)
    | dsimp only
    | intro _ _ _
    | split
    | with_reducible apply Keeps.lit


theorem attentionDone_keeps_eq_hold {s : State} {c : CmdRef} {f : Flight} {t : State}  (e : attentionDone s c f = .hold t) (hs : Keeps cq co s) : Keeps cq co t := by
  have k := attentionDone_keeps s c f hs
  rw [e] at k
  cases k
  assumption

theorem attentionDone_keeps_eq_kill {s : State} {c : CmdRef} {f : Flight} {t : State}  (e : attentionDone s c f = .kill t) (hs : Keeps cq co s) : Keeps cq co t := by
  have k := attentionDone_keeps s c f hs
  rw [e] at k
  cases k
  assumption

theorem attentionDone_keeps_eq_reject {s : State} {c : CmdRef} {f : Flight} {t : State} {a0} (e : attentionDone s c f = .reject t a0) (hs : Keeps cq co s) : Keeps cq co t := by
  have k := attentionDone_keeps s c f hs
  rw [e] at k
  cases k
  assumption

theorem attentionDone_keeps_eq_done {s : State} {c : CmdRef} {f : Flight} {t : State} {a0} {a1} {a2} {a3} (e : attentionDone s c f = .done t a0 a1 a2 a3) (hs : Keeps cq co s) : Keeps cq co t := by
  have k := attentionDone_keeps s c f hs
  rw [e] at k
  cases k
  assumption

theorem staleElems_keeps (s : State) (c : CmdRef) (f : Flight) (hs : Keeps cq co s) : Keeps cq co (staleElems s c f) := by
  unfold staleElems
  repeat any_goals first
    | with_reducible assumption
    | with_reducible apply failElem_keeps
    | with_reducible apply State.draw_keeps
    | with_reducible apply foldl_keeps (Keeps cq co)
    | dsimp only
    | intro _ _ _
    | split


theorem commitAttention.mirrored_keeps (s : State) (c : CmdRef) (f : Flight) (es : List Elem) (hs : Keeps cq co s) :
    CommitKeeps cq co (commitAttention.mirrored s c f es) := by
  unfold commitAttention.mirrored
  dsimp only
  split
  · exact attentionDone_keeps _ _ _ hs
  · exact .hold (setStage_keeps _ _ _ (foldl_keeps (Keeps cq co) _ (fun s e h => sendFlag_keeps _ _ _ _ h) _ _ hs))

theorem commitAttention_keeps (s : State) (c : CmdRef) (x : Slot) (f : Flight) (hs : Keeps cq co s) :
    CommitKeeps cq co (commitAttention s c x f) := by
  unfold commitAttention
  dsimp only
  have hs := staleElems_keeps s c f hs
  generalize staleElems s c f = s at hs
  split
  · exact .hold hs
  · have h1 := remoteFailures_keeps s c (elemsOf s c) hs
    generalize remoteFailures s c (elemsOf s c) = t at h1
    split
    · exact .hold h1
    · split
      · exact .reject h1
      · split
        · split
          · exact .reject h1
          · exact commitAttention.mirrored_keeps _ _ _ _ h1
        · exact commitAttention.mirrored_keeps _ _ _ _ h1

theorem startKernelRun_keeps (s : State) (c : CmdStep) (x1 : Slot) (f : Flight) (hs : Keeps cq co s) : StartKeeps cq co (startKernelRun s c x1 f) := by
  unfold startKernelRun
  repeat any_goals first
    | with_reducible assumption
    | with_reducible apply StartKeeps.reject
    | with_reducible apply StartKeeps.go
    | with_reducible apply allocAll_keeps
    | with_reducible refine allocAll_keeps_eq_got ‹_› ?_
    | with_reducible refine allocAll_keeps_eq_wait ‹_› ?_
    | with_reducible refine allocAll_keeps_eq_none ‹_› ?_
    | with_reducible apply waitFor_keeps
    | with_reducible apply hostIn_keeps
    | with_reducible apply setStage_keeps
    | with_reducible apply setPlan_keeps
    | with_reducible apply activate_keeps
    | with_reducible apply addUnit_keeps
    | with_reducible apply State.draw_keeps
    | with_reducible apply foldl_keeps (Keeps cq co)
    | dsimp only
    | intro _ _ _
    | split
    | with_reducible apply Keeps.lit


theorem startKernelRun_keeps_eq_reject {s : State} {c : CmdStep} {x1 : Slot} {f : Flight} {t : State} {a0} (e : startKernelRun s c x1 f = .reject t a0) (hs : Keeps cq co s) : Keeps cq co t := by
  have k := startKernelRun_keeps s c x1 f hs
  rw [e] at k
  cases k
  assumption

theorem startKernelRun_keeps_eq_go {s : State} {c : CmdStep} {x1 : Slot} {f : Flight} {t : State}  (e : startKernelRun s c x1 f = .go t) (hs : Keeps cq co s) : Keeps cq co t := by
  have k := startKernelRun_keeps s c x1 f hs
  rw [e] at k
  cases k
  assumption

theorem commitKernelRun_keeps (s : State) (c : CmdRef) (x1 : Slot) (f : Flight) (hs : Keeps cq co s) : CommitKeeps cq co (commitKernelRun s c x1 f) := by
  unfold commitKernelRun
  repeat any_goals first
    | with_reducible assumption
    | with_reducible apply CommitKeeps.hold
    | with_reducible apply CommitKeeps.kill
    | with_reducible apply CommitKeeps.reject
    | with_reducible apply CommitKeeps.done
    | with_reducible apply freeObject_keeps
    | with_reducible apply setPlan_keeps
    | with_reducible apply State.draw_keeps
    | with_reducible apply foldl_keeps (Keeps cq co)
    | dsimp only
    | intro _ _ _
    | split


theorem commitKernelRun_keeps_eq_hold {s : State} {c : CmdRef} {x1 : Slot} {f : Flight} {t : State}  (e : commitKernelRun s c x1 f = .hold t) (hs : Keeps cq co s) : Keeps cq co t := by
  have k := commitKernelRun_keeps s c x1 f hs
  rw [e] at k
  cases k
  assumption

theorem commitKernelRun_keeps_eq_kill {s : State} {c : CmdRef} {x1 : Slot} {f : Flight} {t : State}  (e : commitKernelRun s c x1 f = .kill t) (hs : Keeps cq co s) : Keeps cq co t := by
  have k := commitKernelRun_keeps s c x1 f hs
  rw [e] at k
  cases k
  assumption

theorem commitKernelRun_keeps_eq_reject {s : State} {c : CmdRef} {x1 : Slot} {f : Flight} {t : State} {a0} (e : commitKernelRun s c x1 f = .reject t a0) (hs : Keeps cq co s) : Keeps cq co t := by
  have k := commitKernelRun_keeps s c x1 f hs
  rw [e] at k
  cases k
  assumption

theorem commitKernelRun_keeps_eq_done {s : State} {c : CmdRef} {x1 : Slot} {f : Flight} {t : State} {a0} {a1} {a2} {a3} (e : commitKernelRun s c x1 f = .done t a0 a1 a2 a3) (hs : Keeps cq co s) : Keeps cq co t := by
  have k := commitKernelRun_keeps s c x1 f hs
  rw [e] at k
  cases k
  assumption

end Sys2Proof.Machine
end

