-- ==== Sys2Proof/Laws/Keeps/Account.lean ====
section
/-! SUPPORT. What the operations of Machine/Account.lean keep. -/

namespace Sys2Proof.Machine

open Sys2Proof

variable {cq : List Instr} {co : Oxsis}

theorem startNop_keeps (s : State) (c : CmdStep) (x1 : Slot) (x2 : Flight) (hs : Keeps cq co s) : StartKeeps cq co (startNop s c x1 x2) := by
  unfold startNop
  repeat any_goals first
    | with_reducible assumption
    | with_reducible apply StartKeeps.reject
    | with_reducible apply StartKeeps.go
    | with_reducible apply request_keeps
    | with_reducible refine request_keeps_eq_reject ‹_› ?_
    | with_reducible refine request_keeps_eq_go ‹_› ?_
    | with_reducible apply State.draw_keeps
    | dsimp only
    | intro _ _ _
    | split


theorem startNop_keeps_eq_reject {s : State} {c : CmdStep} {x1 : Slot} {x2 : Flight} {t : State} {a0} (e : startNop s c x1 x2 = .reject t a0) (hs : Keeps cq co s) : Keeps cq co t := by
  have k := startNop_keeps s c x1 x2 hs
  rw [e] at k
  cases k
  assumption

theorem startNop_keeps_eq_go {s : State} {c : CmdStep} {x1 : Slot} {x2 : Flight} {t : State}  (e : startNop s c x1 x2 = .go t) (hs : Keeps cq co s) : Keeps cq co t := by
  have k := startNop_keeps s c x1 x2 hs
  rw [e] at k
  cases k
  assumption

theorem commitNop_keeps (s : State) (x1 : CmdRef) (x2 : Slot) (x3 : Flight) (hs : Keeps cq co s) : CommitKeeps cq co (commitNop s x1 x2 x3) := by
  unfold commitNop
  repeat any_goals first
    | with_reducible assumption
    | with_reducible apply CommitKeeps.hold
    | with_reducible apply CommitKeeps.kill
    | with_reducible apply CommitKeeps.reject
    | with_reducible apply CommitKeeps.done
    | with_reducible apply State.draw_keeps
    | dsimp only
    | intro _ _ _
    | split


theorem commitNop_keeps_eq_hold {s : State} {x1 : CmdRef} {x2 : Slot} {x3 : Flight} {t : State}  (e : commitNop s x1 x2 x3 = .hold t) (hs : Keeps cq co s) : Keeps cq co t := by
  have k := commitNop_keeps s x1 x2 x3 hs
  rw [e] at k
  cases k
  assumption

theorem commitNop_keeps_eq_kill {s : State} {x1 : CmdRef} {x2 : Slot} {x3 : Flight} {t : State}  (e : commitNop s x1 x2 x3 = .kill t) (hs : Keeps cq co s) : Keeps cq co t := by
  have k := commitNop_keeps s x1 x2 x3 hs
  rw [e] at k
  cases k
  assumption

theorem commitNop_keeps_eq_reject {s : State} {x1 : CmdRef} {x2 : Slot} {x3 : Flight} {t : State} {a0} (e : commitNop s x1 x2 x3 = .reject t a0) (hs : Keeps cq co s) : Keeps cq co t := by
  have k := commitNop_keeps s x1 x2 x3 hs
  rw [e] at k
  cases k
  assumption

theorem commitNop_keeps_eq_done {s : State} {x1 : CmdRef} {x2 : Slot} {x3 : Flight} {t : State} {a0} {a1} {a2} {a3} (e : commitNop s x1 x2 x3 = .done t a0 a1 a2 a3) (hs : Keeps cq co s) : Keeps cq co t := by
  have k := commitNop_keeps s x1 x2 x3 hs
  rw [e] at k
  cases k
  assumption

theorem startFence_keeps (s : State) (c : CmdStep) (x1 : Slot) (x2 : Flight) (hs : Keeps cq co s) : StartKeeps cq co (startFence s c x1 x2) := by
  unfold startFence
  repeat any_goals first
    | with_reducible assumption
    | with_reducible apply StartKeeps.reject
    | with_reducible apply StartKeeps.go
    | with_reducible apply request_keeps
    | with_reducible refine request_keeps_eq_reject ‹_› ?_
    | with_reducible refine request_keeps_eq_go ‹_› ?_
    | with_reducible apply State.draw_keeps
    | dsimp only
    | intro _ _ _
    | split


theorem startFence_keeps_eq_reject {s : State} {c : CmdStep} {x1 : Slot} {x2 : Flight} {t : State} {a0} (e : startFence s c x1 x2 = .reject t a0) (hs : Keeps cq co s) : Keeps cq co t := by
  have k := startFence_keeps s c x1 x2 hs
  rw [e] at k
  cases k
  assumption

theorem startFence_keeps_eq_go {s : State} {c : CmdStep} {x1 : Slot} {x2 : Flight} {t : State}  (e : startFence s c x1 x2 = .go t) (hs : Keeps cq co s) : Keeps cq co t := by
  have k := startFence_keeps s c x1 x2 hs
  rw [e] at k
  cases k
  assumption

theorem commitFence_keeps (s : State) (x1 : CmdRef) (x2 : Slot) (x3 : Flight) (hs : Keeps cq co s) : CommitKeeps cq co (commitFence s x1 x2 x3) := by
  unfold commitFence
  repeat any_goals first
    | with_reducible assumption
    | with_reducible apply CommitKeeps.hold
    | with_reducible apply CommitKeeps.kill
    | with_reducible apply CommitKeeps.reject
    | with_reducible apply CommitKeeps.done
    | with_reducible apply State.draw_keeps
    | dsimp only
    | intro _ _ _
    | split


theorem commitFence_keeps_eq_hold {s : State} {x1 : CmdRef} {x2 : Slot} {x3 : Flight} {t : State}  (e : commitFence s x1 x2 x3 = .hold t) (hs : Keeps cq co s) : Keeps cq co t := by
  have k := commitFence_keeps s x1 x2 x3 hs
  rw [e] at k
  cases k
  assumption

theorem commitFence_keeps_eq_kill {s : State} {x1 : CmdRef} {x2 : Slot} {x3 : Flight} {t : State}  (e : commitFence s x1 x2 x3 = .kill t) (hs : Keeps cq co s) : Keeps cq co t := by
  have k := commitFence_keeps s x1 x2 x3 hs
  rw [e] at k
  cases k
  assumption

theorem commitFence_keeps_eq_reject {s : State} {x1 : CmdRef} {x2 : Slot} {x3 : Flight} {t : State} {a0} (e : commitFence s x1 x2 x3 = .reject t a0) (hs : Keeps cq co s) : Keeps cq co t := by
  have k := commitFence_keeps s x1 x2 x3 hs
  rw [e] at k
  cases k
  assumption

theorem commitFence_keeps_eq_done {s : State} {x1 : CmdRef} {x2 : Slot} {x3 : Flight} {t : State} {a0} {a1} {a2} {a3} (e : commitFence s x1 x2 x3 = .done t a0 a1 a2 a3) (hs : Keeps cq co s) : Keeps cq co t := by
  have k := commitFence_keeps s x1 x2 x3 hs
  rw [e] at k
  cases k
  assumption

theorem startEventPost_keeps (s : State) (c : CmdStep) (x1 : Slot) (x2 : Flight) (hs : Keeps cq co s) : StartKeeps cq co (startEventPost s c x1 x2) := by
  unfold startEventPost
  repeat any_goals first
    | with_reducible assumption
    | with_reducible apply StartKeeps.reject
    | with_reducible apply StartKeeps.go
    | with_reducible apply request_keeps
    | with_reducible refine request_keeps_eq_reject ‹_› ?_
    | with_reducible refine request_keeps_eq_go ‹_› ?_
    | with_reducible apply State.draw_keeps
    | dsimp only
    | intro _ _ _
    | split


theorem startEventPost_keeps_eq_reject {s : State} {c : CmdStep} {x1 : Slot} {x2 : Flight} {t : State} {a0} (e : startEventPost s c x1 x2 = .reject t a0) (hs : Keeps cq co s) : Keeps cq co t := by
  have k := startEventPost_keeps s c x1 x2 hs
  rw [e] at k
  cases k
  assumption

theorem startEventPost_keeps_eq_go {s : State} {c : CmdStep} {x1 : Slot} {x2 : Flight} {t : State}  (e : startEventPost s c x1 x2 = .go t) (hs : Keeps cq co s) : Keeps cq co t := by
  have k := startEventPost_keeps s c x1 x2 hs
  rw [e] at k
  cases k
  assumption

theorem commitEventPost_keeps (s : State) (x1 : CmdRef) (x2 : Slot) (f : Flight) (hs : Keeps cq co s) : CommitKeeps cq co (commitEventPost s x1 x2 f) := by
  unfold commitEventPost
  repeat any_goals first
    | with_reducible assumption
    | with_reducible apply CommitKeeps.hold
    | with_reducible apply CommitKeeps.kill
    | with_reducible apply CommitKeeps.reject
    | with_reducible apply CommitKeeps.done
    | with_reducible apply State.draw_keeps
    | dsimp only
    | intro _ _ _
    | split


theorem commitEventPost_keeps_eq_hold {s : State} {x1 : CmdRef} {x2 : Slot} {f : Flight} {t : State}  (e : commitEventPost s x1 x2 f = .hold t) (hs : Keeps cq co s) : Keeps cq co t := by
  have k := commitEventPost_keeps s x1 x2 f hs
  rw [e] at k
  cases k
  assumption

theorem commitEventPost_keeps_eq_kill {s : State} {x1 : CmdRef} {x2 : Slot} {f : Flight} {t : State}  (e : commitEventPost s x1 x2 f = .kill t) (hs : Keeps cq co s) : Keeps cq co t := by
  have k := commitEventPost_keeps s x1 x2 f hs
  rw [e] at k
  cases k
  assumption

theorem commitEventPost_keeps_eq_reject {s : State} {x1 : CmdRef} {x2 : Slot} {f : Flight} {t : State} {a0} (e : commitEventPost s x1 x2 f = .reject t a0) (hs : Keeps cq co s) : Keeps cq co t := by
  have k := commitEventPost_keeps s x1 x2 f hs
  rw [e] at k
  cases k
  assumption

theorem commitEventPost_keeps_eq_done {s : State} {x1 : CmdRef} {x2 : Slot} {f : Flight} {t : State} {a0} {a1} {a2} {a3} (e : commitEventPost s x1 x2 f = .done t a0 a1 a2 a3) (hs : Keeps cq co s) : Keeps cq co t := by
  have k := commitEventPost_keeps s x1 x2 f hs
  rw [e] at k
  cases k
  assumption

theorem startWait_keeps (s : State) (c : CmdStep) (x1 : Slot) (f : Flight) (hs : Keeps cq co s) : StartKeeps cq co (startWait s c x1 f) := by
  unfold startWait
  repeat any_goals first
    | with_reducible assumption
    | with_reducible apply StartKeeps.reject
    | with_reducible apply StartKeeps.go
    | with_reducible apply request_keeps
    | with_reducible refine request_keeps_eq_reject ‹_› ?_
    | with_reducible refine request_keeps_eq_go ‹_› ?_
    | with_reducible apply setPlan_keeps
    | with_reducible apply setStage_keeps
    | with_reducible apply State.draw_keeps
    | dsimp only
    | intro _ _ _
    | split


theorem startWait_keeps_eq_reject {s : State} {c : CmdStep} {x1 : Slot} {f : Flight} {t : State} {a0} (e : startWait s c x1 f = .reject t a0) (hs : Keeps cq co s) : Keeps cq co t := by
  have k := startWait_keeps s c x1 f hs
  rw [e] at k
  cases k
  assumption

theorem startWait_keeps_eq_go {s : State} {c : CmdStep} {x1 : Slot} {f : Flight} {t : State}  (e : startWait s c x1 f = .go t) (hs : Keeps cq co s) : Keeps cq co t := by
  have k := startWait_keeps s c x1 f hs
  rw [e] at k
  cases k
  assumption

theorem commitWait_keeps (s : State) (x1 : CmdRef) (x2 : Slot) (f : Flight) (hs : Keeps cq co s) : CommitKeeps cq co (commitWait s x1 x2 f) := by
  unfold commitWait
  repeat any_goals first
    | with_reducible assumption
    | with_reducible apply CommitKeeps.hold
    | with_reducible apply CommitKeeps.kill
    | with_reducible apply CommitKeeps.reject
    | with_reducible apply CommitKeeps.done
    | with_reducible apply State.hold_keeps
    | with_reducible apply State.draw_keeps
    | dsimp only
    | intro _ _ _
    | split


theorem commitWait_keeps_eq_hold {s : State} {x1 : CmdRef} {x2 : Slot} {f : Flight} {t : State}  (e : commitWait s x1 x2 f = .hold t) (hs : Keeps cq co s) : Keeps cq co t := by
  have k := commitWait_keeps s x1 x2 f hs
  rw [e] at k
  cases k
  assumption

theorem commitWait_keeps_eq_kill {s : State} {x1 : CmdRef} {x2 : Slot} {f : Flight} {t : State}  (e : commitWait s x1 x2 f = .kill t) (hs : Keeps cq co s) : Keeps cq co t := by
  have k := commitWait_keeps s x1 x2 f hs
  rw [e] at k
  cases k
  assumption

theorem commitWait_keeps_eq_reject {s : State} {x1 : CmdRef} {x2 : Slot} {f : Flight} {t : State} {a0} (e : commitWait s x1 x2 f = .reject t a0) (hs : Keeps cq co s) : Keeps cq co t := by
  have k := commitWait_keeps s x1 x2 f hs
  rw [e] at k
  cases k
  assumption

theorem commitWait_keeps_eq_done {s : State} {x1 : CmdRef} {x2 : Slot} {f : Flight} {t : State} {a0} {a1} {a2} {a3} (e : commitWait s x1 x2 f = .done t a0 a1 a2 a3) (hs : Keeps cq co s) : Keeps cq co t := by
  have k := commitWait_keeps s x1 x2 f hs
  rw [e] at k
  cases k
  assumption

theorem startSignal_keeps (s : State) (c : CmdStep) (x1 : Slot) (x2 : Flight) (hs : Keeps cq co s) : StartKeeps cq co (startSignal s c x1 x2) := by
  unfold startSignal
  repeat any_goals first
    | with_reducible assumption
    | with_reducible apply StartKeeps.reject
    | with_reducible apply StartKeeps.go
    | with_reducible apply request_keeps
    | with_reducible refine request_keeps_eq_reject ‹_› ?_
    | with_reducible refine request_keeps_eq_go ‹_› ?_
    | with_reducible apply State.draw_keeps
    | dsimp only
    | intro _ _ _
    | split


theorem startSignal_keeps_eq_reject {s : State} {c : CmdStep} {x1 : Slot} {x2 : Flight} {t : State} {a0} (e : startSignal s c x1 x2 = .reject t a0) (hs : Keeps cq co s) : Keeps cq co t := by
  have k := startSignal_keeps s c x1 x2 hs
  rw [e] at k
  cases k
  assumption

theorem startSignal_keeps_eq_go {s : State} {c : CmdStep} {x1 : Slot} {x2 : Flight} {t : State}  (e : startSignal s c x1 x2 = .go t) (hs : Keeps cq co s) : Keeps cq co t := by
  have k := startSignal_keeps s c x1 x2 hs
  rw [e] at k
  cases k
  assumption

theorem commitSignal_keeps (s : State) (c : CmdRef) (x1 : Slot) (f : Flight) (hs : Keeps cq co s) : CommitKeeps cq co (commitSignal s c x1 f) := by
  unfold commitSignal
  repeat any_goals first
    | with_reducible assumption
    | with_reducible apply CommitKeeps.hold
    | with_reducible apply CommitKeeps.kill
    | with_reducible apply CommitKeeps.reject
    | with_reducible apply CommitKeeps.done
    | with_reducible apply setCounter_keeps
    | with_reducible apply State.draw_keeps
    | dsimp only
    | intro _ _ _
    | split


theorem commitSignal_keeps_eq_hold {s : State} {c : CmdRef} {x1 : Slot} {f : Flight} {t : State}  (e : commitSignal s c x1 f = .hold t) (hs : Keeps cq co s) : Keeps cq co t := by
  have k := commitSignal_keeps s c x1 f hs
  rw [e] at k
  cases k
  assumption

theorem commitSignal_keeps_eq_kill {s : State} {c : CmdRef} {x1 : Slot} {f : Flight} {t : State}  (e : commitSignal s c x1 f = .kill t) (hs : Keeps cq co s) : Keeps cq co t := by
  have k := commitSignal_keeps s c x1 f hs
  rw [e] at k
  cases k
  assumption

theorem commitSignal_keeps_eq_reject {s : State} {c : CmdRef} {x1 : Slot} {f : Flight} {t : State} {a0} (e : commitSignal s c x1 f = .reject t a0) (hs : Keeps cq co s) : Keeps cq co t := by
  have k := commitSignal_keeps s c x1 f hs
  rw [e] at k
  cases k
  assumption

theorem commitSignal_keeps_eq_done {s : State} {c : CmdRef} {x1 : Slot} {f : Flight} {t : State} {a0} {a1} {a2} {a3} (e : commitSignal s c x1 f = .done t a0 a1 a2 a3) (hs : Keeps cq co s) : Keeps cq co t := by
  have k := commitSignal_keeps s c x1 f hs
  rw [e] at k
  cases k
  assumption

theorem startAcctRead_keeps (s : State) (c : CmdStep) (x1 : Slot) (f : Flight) (hs : Keeps cq co s) : StartKeeps cq co (startAcctRead s c x1 f) := by
  unfold startAcctRead
  repeat any_goals first
    | with_reducible assumption
    | with_reducible apply StartKeeps.reject
    | with_reducible apply StartKeeps.go
    | with_reducible apply request_keeps
    | with_reducible refine request_keeps_eq_reject ‹_› ?_
    | with_reducible refine request_keeps_eq_go ‹_› ?_
    | with_reducible apply State.draw_keeps
    | dsimp only
    | intro _ _ _
    | split


theorem startAcctRead_keeps_eq_reject {s : State} {c : CmdStep} {x1 : Slot} {f : Flight} {t : State} {a0} (e : startAcctRead s c x1 f = .reject t a0) (hs : Keeps cq co s) : Keeps cq co t := by
  have k := startAcctRead_keeps s c x1 f hs
  rw [e] at k
  cases k
  assumption

theorem startAcctRead_keeps_eq_go {s : State} {c : CmdStep} {x1 : Slot} {f : Flight} {t : State}  (e : startAcctRead s c x1 f = .go t) (hs : Keeps cq co s) : Keeps cq co t := by
  have k := startAcctRead_keeps s c x1 f hs
  rw [e] at k
  cases k
  assumption

theorem commitAcctRead_keeps (s : State) (c : CmdRef) (x1 : Slot) (f : Flight) (hs : Keeps cq co s) : CommitKeeps cq co (commitAcctRead s c x1 f) := by
  unfold commitAcctRead
  repeat any_goals first
    | with_reducible assumption
    | with_reducible apply CommitKeeps.hold
    | with_reducible apply CommitKeeps.kill
    | with_reducible apply CommitKeeps.reject
    | with_reducible apply CommitKeeps.done
    | with_reducible apply State.draw_keeps
    | dsimp only
    | intro _ _ _
    | split


theorem commitAcctRead_keeps_eq_hold {s : State} {c : CmdRef} {x1 : Slot} {f : Flight} {t : State}  (e : commitAcctRead s c x1 f = .hold t) (hs : Keeps cq co s) : Keeps cq co t := by
  have k := commitAcctRead_keeps s c x1 f hs
  rw [e] at k
  cases k
  assumption

theorem commitAcctRead_keeps_eq_kill {s : State} {c : CmdRef} {x1 : Slot} {f : Flight} {t : State}  (e : commitAcctRead s c x1 f = .kill t) (hs : Keeps cq co s) : Keeps cq co t := by
  have k := commitAcctRead_keeps s c x1 f hs
  rw [e] at k
  cases k
  assumption

theorem commitAcctRead_keeps_eq_reject {s : State} {c : CmdRef} {x1 : Slot} {f : Flight} {t : State} {a0} (e : commitAcctRead s c x1 f = .reject t a0) (hs : Keeps cq co s) : Keeps cq co t := by
  have k := commitAcctRead_keeps s c x1 f hs
  rw [e] at k
  cases k
  assumption

theorem commitAcctRead_keeps_eq_done {s : State} {c : CmdRef} {x1 : Slot} {f : Flight} {t : State} {a0} {a1} {a2} {a3} (e : commitAcctRead s c x1 f = .done t a0 a1 a2 a3) (hs : Keeps cq co s) : Keeps cq co t := by
  have k := commitAcctRead_keeps s c x1 f hs
  rw [e] at k
  cases k
  assumption

end Sys2Proof.Machine
end

