-- ==== Sys2Proof/Laws/Keeps/Units.lean ====
section
/-! SUPPORT. What the operations of Machine/Units.lean keep. -/

namespace Sys2Proof.Machine

open Sys2Proof

variable {cq : List Instr} {co : Oxsis}

theorem State.onTile_keeps (s : State) (tk : Nat) (g : Tile → Tile) (hs : Keeps cq co s) : Keeps cq co (State.onTile s tk g) := by
  unfold State.onTile
  repeat any_goals first
    | with_reducible assumption
    | with_reducible apply State.onSched_keeps
    | with_reducible apply State.draw_keeps
    | dsimp only
    | intro _ _ _
    | split
    | with_reducible apply Keeps.lit


theorem movePointer_keeps (s : State) (q : Nat) (hs : Keeps cq co s) : Keeps cq co (movePointer s q) := by
  unfold movePointer
  repeat any_goals first
    | with_reducible assumption
    | with_reducible apply State.onSched_keeps
    | with_reducible apply State.draw_keeps
    | dsimp only
    | intro _ _ _
    | split
    | with_reducible apply Keeps.lit


theorem readDram_keeps (s : State) (p frame : Nat) (l : List (Nat × Nat)) (hs : Keeps cq co s) : Keeps cq co (readDram s p frame l).1 := by
  unfold readDram
  repeat any_goals first
    | with_reducible assumption
    | with_reducible apply touchDram_keeps
    | with_reducible apply State.draw_keeps
    | with_reducible apply foldl_keeps (Keeps cq co)
    | dsimp only
    | intro _ _ _
    | split


theorem readDram_keeps_eq {s : State} {p frame : Nat} {l : List (Nat × Nat)} {t : State} {a} (e : readDram s p frame l = (t, a)) (hs : Keeps cq co s) : Keeps cq co t := by
  have k := readDram_keeps s p frame l hs
  rw [e] at k
  exact k

theorem failPoison_keeps (s : State) (c : CmdRef) (k addr : Nat) (hs : Keeps cq co s) : Keeps cq co (failPoison s c k addr) := by
  unfold failPoison
  repeat any_goals first
    | with_reducible assumption
    | with_reducible apply settleCommand_keeps
    | with_reducible apply failElem_keeps
    | with_reducible apply dramError_keeps
    | with_reducible apply State.draw_keeps
    | dsimp only
    | intro _ _ _
    | split


theorem streamOnce_keeps (s : State) (uid : Nat) (u : Unit) (g : Mates) (what : ReadFor) (o : MoveObj) (hs : Keeps cq co s) : Keeps cq co (streamOnce s uid u g what o) := by
  unfold streamOnce
  repeat any_goals first
    | with_reducible assumption
    | with_reducible apply addRead_keeps
    | with_reducible apply streamTo_keeps
    | with_reducible apply State.draw_keeps
    | dsimp only
    | intro _ _ _
    | split


theorem readPage_keeps (s : State) (uid : Nat) (u : Unit) (g : Mates) (c : CmdRef) (layer psn : Nat) (rs : LocKind → List (Nat × Nat)) (hs : Keeps cq co s) : Keeps cq co (readPage s uid u g c layer psn rs) := by
  unfold readPage
  repeat any_goals first
    | with_reducible assumption
    | with_reducible apply setElem_keeps
    | with_reducible apply readDram_keeps
    | with_reducible refine readDram_keeps_eq ‹_› ?_
    | with_reducible apply failPoison_keeps
    | with_reducible apply addRead_keeps
    | with_reducible apply streamOnce_keeps
    | with_reducible refine beginTent_keeps_eq ‹_› ?_
    | with_reducible apply State.draw_keeps
    | dsimp only
    | intro _ _ _
    | split
    | with_reducible apply Keeps.lit


theorem readTail_keeps (s : State) (uid : Nat) (u : Unit) (g : Mates) (c : CmdRef) (i layer : Nat) (rs : List (Nat × Nat)) (hs : Keeps cq co s) : Keeps cq co (readTail s uid u g c i layer rs) := by
  unfold readTail
  repeat any_goals first
    | with_reducible assumption
    | with_reducible apply readDram_keeps
    | with_reducible refine readDram_keeps_eq ‹_› ?_
    | with_reducible apply failPoison_keeps
    | with_reducible apply addRead_keeps
    | with_reducible apply streamOnce_keeps
    | with_reducible refine beginTailTent_keeps_eq ‹_› ?_
    | with_reducible apply State.draw_keeps
    | dsimp only
    | intro _ _ _
    | split


theorem takeSources_keeps (s : State) (uid : Nat) (c : CmdRef) (q : Seq) (layer : Nat) (l : List (Nat × Option Nat × List Nat)) (hs : Keeps cq co s) : Keeps cq co (takeSources s uid c q layer l) := by
  unfold takeSources
  repeat any_goals first
    | with_reducible assumption
    | with_reducible apply pinFor_keeps
    | with_reducible apply State.onUnit_keeps
    | with_reducible apply State.draw_keeps
    | dsimp only
    | intro _ _ _
    | split
    | with_reducible apply Keeps.lit


theorem startReads_keeps (s : State) (uid : Nat) (u : Unit) (g : Mates) (hs : Keeps cq co s) : Keeps cq co (startReads s uid u g) := by
  unfold startReads
  repeat any_goals first
    | with_reducible assumption
    | with_reducible apply readTail_keeps
    | with_reducible apply readPage_keeps
    | with_reducible apply takeSources_keeps
    | with_reducible apply State.draw_keeps
    | with_reducible apply foldl_keeps (Keeps cq co)
    | dsimp only
    | intro _ _ _
    | split


theorem setCalls_keeps (s : State) (uid p kernel : Nat) (l : List (CallFor × KCall)) (hs : Keeps cq co s) : Keeps cq co (setCalls s uid p kernel l) := by
  unfold setCalls
  repeat any_goals first
    | with_reducible assumption
    | with_reducible apply State.onUnit_keeps
    | with_reducible apply State.draw_keeps
    | dsimp only
    | intro _ _ _
    | split
    | with_reducible apply Keeps.lit


theorem keepCalls_keeps (s : State) (uid : Nat) (hs : Keeps cq co s) : Keeps cq co (keepCalls s uid) := by
  unfold keepCalls
  repeat any_goals first
    | with_reducible assumption
    | with_reducible apply setElem_keeps
    | with_reducible apply State.draw_keeps
    | with_reducible apply foldl_keeps (Keeps cq co)
    | dsimp only
    | intro _ _ _
    | split
    | with_reducible apply Keeps.lit


theorem enterStage_keeps (s : State) (uid : Nat) (hs : Keeps cq co s) : Keeps cq co (enterStage s uid) := by
  unfold enterStage
  repeat any_goals first
    | with_reducible assumption
    | with_reducible apply setCalls_keeps
    | with_reducible apply State.onUnit_keeps
    | with_reducible apply State.draw_keeps
    | dsimp only
    | intro _ _ _
    | split
    | with_reducible apply Keeps.lit


theorem nextStage_keeps (s : State) (uid : Nat) (hs : Keeps cq co s) : Keeps cq co (nextStage s uid) := by
  unfold nextStage
  repeat any_goals first
    | with_reducible assumption
    | with_reducible apply enterStage_keeps
    | with_reducible apply keepCalls_keeps
    | with_reducible apply State.draw_keeps
    | with_reducible apply foldl_keeps (Keeps cq co)
    | dsimp only
    | intro _ _ _
    | split


theorem leaveCalls_keeps (s : State) (uid : Nat) (hs : Keeps cq co s) : Keeps cq co (leaveCalls s uid) := by
  unfold leaveCalls
  repeat any_goals first
    | with_reducible assumption
    | with_reducible apply keepCalls_keeps
    | with_reducible apply State.onUnit_keeps
    | with_reducible apply enterStage_keeps
    | with_reducible apply State.draw_keeps
    | with_reducible apply foldl_keeps (Keeps cq co)
    | dsimp only
    | intro _ _ _
    | split
    | with_reducible apply Keeps.lit


theorem runUnitWith.chargeReads_keeps (b : State) (uid : Nat) (u : Unit) (s : State) (hs : Keeps cq co s) :
    Keeps cq co (runUnitWith.chargeReads b uid u s) :=
  State.onUnit_keeps _ _ _ (State.onAcct_keeps _ _ _ hs)

theorem runUnitWith_keeps (s : State) (uid tile : Nat) (g : Mates) (hs : Keeps cq co s) : Keeps cq co (runUnitWith s uid tile g) := by
  unfold runUnitWith
  split
  · exact hs
  · exact noteCause_keeps _ _ (enterStage_keeps _ _ (runUnitWith.chargeReads_keeps _ _ _ _ (startReads_keeps _ _ _ _
      (State.onUnit_keeps _ _ _ (State.onTile_keeps _ _ _ (State.onSched_keeps _ _ hs))))))

theorem runUnit_keeps (s : State) (uid tile : Nat) (hs : Keeps cq co s) : Keeps cq co (runUnit s uid tile) := by
  unfold runUnit
  repeat any_goals first
    | with_reducible assumption
    | with_reducible apply runUnitWith.chargeReads_keeps
    | with_reducible apply runUnitWith_keeps
    | with_reducible apply State.draw_keeps
    | dsimp only
    | intro _ _ _
    | split


theorem putOnTileWith_keeps (s : State) (uid tile q : Nat) (g : Mates) (hs : Keeps cq co s) : Keeps cq co (putOnTileWith s uid tile q g) := by
  unfold putOnTileWith
  repeat any_goals first
    | with_reducible assumption
    | with_reducible apply State.onPower_keeps
    | with_reducible apply State.onTile_keeps
    | with_reducible apply State.onUnit_keeps
    | with_reducible apply runUnitWith.chargeReads_keeps
    | with_reducible apply runUnitWith_keeps
    | with_reducible apply State.draw_keeps
    | dsimp only
    | intro _ _ _
    | split
    | with_reducible apply Keeps.lit


theorem putOnTile_keeps (s : State) (uid tile q : Nat) (hs : Keeps cq co s) : Keeps cq co (putOnTile s uid tile q) := by
  unfold putOnTile
  repeat any_goals first
    | with_reducible assumption
    | with_reducible apply putOnTileWith_keeps
    | with_reducible apply State.draw_keeps
    | dsimp only
    | intro _ _ _
    | split


theorem setSteal_keeps (s : State) (q g : Nat) (l : List Nat) (hs : Keeps cq co s) : Keeps cq co (setSteal s q g l) := by
  unfold setSteal
  repeat any_goals first
    | with_reducible assumption
    | with_reducible apply State.onSched_keeps
    | with_reducible apply State.onUnit_keeps
    | with_reducible apply State.draw_keeps
    | with_reducible apply foldl_keeps (Keeps cq co)
    | dsimp only
    | intro _ _ _
    | split
    | with_reducible apply Keeps.lit


theorem placeUnit_keeps (s : State) (uid : Nat) (u : Unit) (hs : Keeps cq co s) : Keeps cq co (placeUnit s uid u) := by
  unfold placeUnit
  repeat any_goals first
    | with_reducible assumption
    | with_reducible apply movePointer_keeps
    | with_reducible apply putOnTile_keeps
    | with_reducible apply fillNext_keeps
    | with_reducible apply setSteal_keeps
    | with_reducible apply State.onUnit_keeps
    | with_reducible apply State.draw_keeps
    | dsimp only
    | intro _ _ _
    | split
    | with_reducible apply Keeps.lit


theorem unitPlacement_keeps (q : Nat) (s : State) (hs : Keeps cq co s) : Keeps cq co (unitPlacement q s) := by
  unfold unitPlacement
  repeat any_goals first
    | with_reducible assumption
    | with_reducible apply placeUnit_keeps
    | with_reducible apply State.draw_keeps
    | dsimp only
    | intro _ _ _
    | split


theorem gangPlacement_keeps (q : Nat) (s : State) (hs : Keeps cq co s) : Keeps cq co (gangPlacement q s) := by
  unfold gangPlacement
  split
  · exact hs
  · dsimp only
    split
    · exact hs
    · exact fillNext_keeps _ (movePointer_keeps _ _ (setSteal_keeps _ _ _ _ (foldl_keeps (fun a : State × Mates => Keeps cq co a.1) _
        (fun a e h => putOnTileWith_keeps _ _ _ _ _ h) _ _ hs)))

theorem unitStart_keeps (tile : Nat) (s : State) (hs : Keeps cq co s) : Keeps cq co (unitStart tile s) := by
  unfold unitStart
  repeat any_goals first
    | with_reducible assumption
    | with_reducible apply fillNext_keeps
    | with_reducible apply runUnit_keeps
    | with_reducible apply State.draw_keeps
    | dsimp only
    | intro _ _ _
    | split


theorem addVtime_keeps (s : State) (p q dt : Nat) (hs : Keeps cq co s) : Keeps cq co (addVtime s p q dt) := by
  unfold addVtime
  repeat any_goals first
    | with_reducible assumption
    | with_reducible apply State.onPart_keeps
    | with_reducible apply State.onSched_keeps
    | with_reducible apply State.draw_keeps
    | dsimp only
    | intro _ _ _
    | split
    | with_reducible apply Keeps.lit


theorem virtualTimeUpdate_keeps (s : State) (hs : Keeps cq co s) : Keeps cq co (virtualTimeUpdate s) := by
  unfold virtualTimeUpdate
  repeat any_goals first
    | with_reducible assumption
    | with_reducible apply addVtime_keeps
    | with_reducible apply State.onPart_keeps
    | with_reducible apply State.draw_keeps
    | with_reducible apply foldl_keeps (Keeps cq co)
    | dsimp only
    | intro _ _ _
    | split
    | with_reducible apply Keeps.lit


theorem leaveTile_keeps (s : State) (tile : Nat) (hs : Keeps cq co s) : Keeps cq co (leaveTile s tile) := by
  unfold leaveTile
  repeat any_goals first
    | with_reducible assumption
    | with_reducible apply fillNext_keeps
    | with_reducible apply State.onTile_keeps
    | with_reducible apply State.draw_keeps
    | dsimp only
    | intro _ _ _
    | split
    | with_reducible apply Keeps.lit


theorem delUnit_keeps (s : State) (uid : Nat) (hs : Keeps cq co s) : Keeps cq co (delUnit s uid) := by
  unfold delUnit
  repeat any_goals first
    | with_reducible assumption
    | with_reducible apply State.onSched_keeps
    | with_reducible apply State.draw_keeps
    | dsimp only
    | intro _ _ _
    | split
    | with_reducible apply Keeps.lit


theorem endAttend_keeps (s : State) (uid : Nat) (u : Unit) (hs : Keeps cq co s) : Keeps cq co (endAttend s uid u) := by
  unfold endAttend
  repeat any_goals first
    | with_reducible assumption
    | with_reducible apply setElem_keeps
    | with_reducible apply finishElem_keeps
    | with_reducible apply State.draw_keeps
    | with_reducible apply foldl_keeps (Keeps cq co)
    | dsimp only
    | intro _ _ _
    | split
    | with_reducible apply Keeps.lit


theorem endAppend_keeps (s : State) (u : Unit) (hs : Keeps cq co s) : Keeps cq co (endAppend s u) := by
  unfold endAppend
  repeat any_goals first
    | with_reducible assumption
    | with_reducible apply setElem_keeps
    | with_reducible apply moveOn_keeps
    | with_reducible apply settleCommand_keeps
    | with_reducible apply State.draw_keeps
    | dsimp only
    | intro _ _ _
    | split
    | with_reducible apply Keeps.lit


theorem endKernel_keeps (s : State) (u : Unit) (hs : Keeps cq co s) : Keeps cq co (endKernel s u) := by
  unfold endKernel
  repeat any_goals first
    | with_reducible assumption
    | with_reducible apply t1Write_keeps
    | with_reducible apply State.onFlight_keeps
    | with_reducible apply State.draw_keeps
    | dsimp only
    | intro _ _ _
    | split
    | with_reducible apply Keeps.lit


theorem unitEnd_keeps (tile hc dt : Nat) (s : State) (hs : Keeps cq co s) : Keeps cq co (unitEnd tile hc dt s) := by
  unfold unitEnd
  repeat any_goals first
    | with_reducible assumption
    | with_reducible apply addVtime_keeps
    | with_reducible apply chargeTile_keeps
    | with_reducible apply State.onAcct_keeps
    | with_reducible apply endAppend_keeps
    | with_reducible apply endAttend_keeps
    | with_reducible apply endKernel_keeps
    | with_reducible apply leaveTile_keeps
    | with_reducible apply delUnit_keeps
    | with_reducible apply State.draw_keeps
    | dsimp only
    | intro _ _ _
    | split
    | with_reducible apply Keeps.lit


theorem elementRelease_keeps (c : CmdRef) (k : Nat) (s : State) (hs : Keeps cq co s) : Keeps cq co (elementRelease c k s) := by
  unfold elementRelease
  repeat any_goals first
    | with_reducible assumption
    | with_reducible apply moveOn_keeps
    | with_reducible apply State.draw_keeps
    | dsimp only
    | intro _ _ _
    | split


theorem mergeSpaceEnd_keeps (c : CmdRef) (k : Nat) (s : State) (hs : Keeps cq co s) : Keeps cq co (mergeSpaceEnd c k s) := by
  unfold mergeSpaceEnd
  repeat any_goals first
    | with_reducible assumption
    | with_reducible apply moveOn_keeps
    | with_reducible apply State.draw_keeps
    | dsimp only
    | intro _ _ _
    | split


theorem unitYield_keeps (tile hc : Nat) (s : State) (hs : Keeps cq co s) : Keeps cq co (unitYield tile hc s) := by
  unfold unitYield
  repeat any_goals first
    | with_reducible assumption
    | with_reducible apply chargeTile_keeps
    | with_reducible apply leaveCalls_keeps
    | with_reducible apply State.onUnit_keeps
    | with_reducible apply leaveTile_keeps
    | with_reducible apply State.draw_keeps
    | dsimp only
    | intro _ _ _
    | split
    | with_reducible apply Keeps.lit


theorem yieldedReady_keeps (uid : Nat) (s : State) (hs : Keeps cq co s) : Keeps cq co (yieldedReady uid s) := by
  unfold yieldedReady
  repeat any_goals first
    | with_reducible assumption
    | with_reducible apply activate_keeps
    | with_reducible apply State.onUnit_keeps
    | with_reducible apply State.draw_keeps
    | dsimp only
    | intro _ _ _
    | split
    | with_reducible apply Keeps.lit


theorem unqueue_keeps (s : State) (uid : Nat) (u : Unit) (hs : Keeps cq co s) : Keeps cq co (unqueue s uid u) := by
  unfold unqueue
  repeat any_goals first
    | with_reducible assumption
    | with_reducible apply State.onSched_keeps
    | with_reducible apply State.onTile_keeps
    | with_reducible apply State.draw_keeps
    | dsimp only
    | intro _ _ _
    | split
    | with_reducible apply Keeps.lit


theorem unitEvict_keeps (uid : Nat) (s : State) (hs : Keeps cq co s) : Keeps cq co (unitEvict uid s) := by
  unfold unitEvict
  repeat any_goals first
    | with_reducible assumption
    | with_reducible apply unqueue_keeps
    | with_reducible apply State.onPart_keeps
    | with_reducible apply State.onAcct_keeps
    | with_reducible apply leaveCalls_keeps
    | with_reducible apply State.onUnit_keeps
    | with_reducible apply fillNext_keeps
    | with_reducible apply runUnit_keeps
    | with_reducible apply State.onTile_keeps
    | with_reducible apply State.draw_keeps
    | dsimp only
    | intro _ _ _
    | split
    | with_reducible apply Keeps.lit


theorem cutOff_keeps (s : State) (c : CmdRef) (f : Flight) (hs : Keeps cq co s) : Keeps cq co (cutOff s c f) := by
  unfold cutOff
  repeat any_goals first
    | with_reducible assumption
    | with_reducible apply releaseRun_keeps
    | with_reducible apply State.onFlight_keeps
    | with_reducible apply State.draw_keeps
    | dsimp only
    | intro _ _ _
    | split
    | with_reducible apply Keeps.lit


theorem faultJob_keeps (s : State) (u : Unit) (tile kind code word imm : Nat) (hs : Keeps cq co s) : Keeps cq co (faultJob s u tile kind code word imm) := by
  unfold faultJob
  repeat any_goals first
    | with_reducible assumption
    | with_reducible apply removeUnits_keeps
    | with_reducible apply State.onPart_keeps
    | with_reducible apply dropFetches_keeps
    | with_reducible apply State.onSlot_keeps
    | with_reducible apply cutOff_keeps
    | with_reducible apply State.draw_keeps
    | with_reducible apply foldl_keeps (Keeps cq co)
    | dsimp only
    | intro _ _ _
    | split
    | with_reducible apply Keeps.lit
    | intro _ _


theorem retireTile_keeps (s : State) (tile : Nat) (hs : Keeps cq co s) : Keeps cq co (retireTile s tile) := by
  unfold retireTile
  repeat any_goals first
    | with_reducible assumption
    | with_reducible apply State.onUnit_keeps
    | with_reducible apply State.onTile_keeps
    | with_reducible apply sealSecure_keeps
    | with_reducible apply State.draw_keeps
    | dsimp only
    | intro _ _ _
    | split
    | with_reducible apply Keeps.lit


theorem tileError_keeps (tile : Nat) (s : State) (hs : Keeps cq co s) : Keeps cq co (tileError tile s) := by
  unfold tileError
  repeat any_goals first
    | with_reducible assumption
    | with_reducible apply logError_keeps
    | with_reducible apply retireTile_keeps
    | with_reducible apply faultJob_keeps
    | with_reducible apply State.draw_keeps
    | with_reducible apply foldl_keeps (Keeps cq co)
    | dsimp only
    | intro _ _ _
    | split
    | with_reducible apply Keeps.lit


theorem tileCorrected_keeps (tile : Nat) (s : State) (hs : Keeps cq co s) : Keeps cq co (tileCorrected tile s) := by
  unfold tileCorrected
  repeat any_goals first
    | with_reducible assumption
    | with_reducible apply State.onTile_keeps
    | with_reducible apply logError_keeps
    | with_reducible apply retireTile_keeps
    | with_reducible apply State.draw_keeps
    | dsimp only
    | intro _ _ _
    | split
    | with_reducible apply Keeps.lit


theorem jobTeardown_keeps (p j : Nat) (s : State) (hs : Keeps cq co s) : Keeps cq co (jobTeardown p j s) := by
  unfold jobTeardown
  repeat any_goals first
    | with_reducible assumption
    | with_reducible apply endAborted_keeps
    | with_reducible apply logError_keeps
    | with_reducible apply postRecord_keeps
    | with_reducible apply State.onPart_keeps
    | with_reducible apply State.onSlot_keeps
    | with_reducible apply State.issue_keeps
    | with_reducible apply State.draw_keeps
    | with_reducible apply foldl_keeps (Keeps cq co)
    | dsimp only
    | intro _ _ _
    | split
    | with_reducible apply Keeps.lit


theorem execUnitPlacement_keeps (quad : Nat) (s : State) (hs : Keeps cq co s) : OutKeeps cq co (execUnitPlacement quad s) := by
  unfold execUnitPlacement
  repeat any_goals first
    | with_reducible assumption
    | with_reducible apply OutKeeps.next
    | intro _ _
    | with_reducible apply unitPlacement_keeps
    | with_reducible apply State.draw_keeps
    | dsimp only
    | intro _ _ _
    | split


theorem execGangPlacement_keeps (quad : Nat) (s : State) (hs : Keeps cq co s) : OutKeeps cq co (execGangPlacement quad s) := by
  unfold execGangPlacement
  repeat any_goals first
    | with_reducible assumption
    | with_reducible apply OutKeeps.next
    | intro _ _
    | with_reducible apply gangPlacement_keeps
    | with_reducible apply State.draw_keeps
    | dsimp only
    | intro _ _ _
    | split


theorem execUnitStart_keeps (tile : Nat) (s : State) (hs : Keeps cq co s) : OutKeeps cq co (execUnitStart tile s) := by
  unfold execUnitStart
  repeat any_goals first
    | with_reducible assumption
    | with_reducible apply OutKeeps.next
    | intro _ _
    | with_reducible apply unitStart_keeps
    | with_reducible apply State.draw_keeps
    | dsimp only
    | intro _ _ _
    | split


theorem execUnitEnd_keeps (tile hc dt : Nat) (s : State) (hs : Keeps cq co s) : OutKeeps cq co (execUnitEnd tile hc dt s) := by
  unfold execUnitEnd
  repeat any_goals first
    | with_reducible assumption
    | with_reducible apply OutKeeps.next
    | intro _ _
    | with_reducible apply unitEnd_keeps
    | with_reducible apply State.draw_keeps
    | dsimp only
    | intro _ _ _
    | split


theorem execAttendElementRelease_keeps (c : CmdRef) (elem : Nat) (s : State) (hs : Keeps cq co s) : OutKeeps cq co (execAttendElementRelease c elem s) := by
  unfold execAttendElementRelease
  repeat any_goals first
    | with_reducible assumption
    | with_reducible apply OutKeeps.next
    | intro _ _
    | with_reducible apply elementRelease_keeps
    | with_reducible apply State.draw_keeps
    | dsimp only
    | intro _ _ _
    | split


theorem execMergeSpaceWaitEnd_keeps (c : CmdRef) (elem : Nat) (s : State) (hs : Keeps cq co s) : OutKeeps cq co (execMergeSpaceWaitEnd c elem s) := by
  unfold execMergeSpaceWaitEnd
  repeat any_goals first
    | with_reducible assumption
    | with_reducible apply OutKeeps.next
    | intro _ _
    | with_reducible apply mergeSpaceEnd_keeps
    | with_reducible apply State.draw_keeps
    | dsimp only
    | intro _ _ _
    | split


theorem execUnitYield_keeps (tile hc : Nat) (s : State) (hs : Keeps cq co s) : OutKeeps cq co (execUnitYield tile hc s) := by
  unfold execUnitYield
  repeat any_goals first
    | with_reducible assumption
    | with_reducible apply OutKeeps.next
    | intro _ _
    | with_reducible apply unitYield_keeps
    | with_reducible apply State.draw_keeps
    | dsimp only
    | intro _ _ _
    | split


theorem execYieldedUnitReady_keeps (unit : Nat) (s : State) (hs : Keeps cq co s) : OutKeeps cq co (execYieldedUnitReady unit s) := by
  unfold execYieldedUnitReady
  repeat any_goals first
    | with_reducible assumption
    | with_reducible apply OutKeeps.next
    | intro _ _
    | with_reducible apply yieldedReady_keeps
    | with_reducible apply State.draw_keeps
    | dsimp only
    | intro _ _ _
    | split


theorem execUnitEvict_keeps (unit : Nat) (s : State) (hs : Keeps cq co s) : OutKeeps cq co (execUnitEvict unit s) := by
  unfold execUnitEvict
  repeat any_goals first
    | with_reducible assumption
    | with_reducible apply OutKeeps.next
    | intro _ _
    | with_reducible apply unitEvict_keeps
    | with_reducible apply State.draw_keeps
    | dsimp only
    | intro _ _ _
    | split


theorem execVirtualTimeUpdate_keeps (s : State) (hs : Keeps cq co s) : OutKeeps cq co (execVirtualTimeUpdate s) := by
  unfold execVirtualTimeUpdate
  repeat any_goals first
    | with_reducible assumption
    | with_reducible apply OutKeeps.next
    | intro _ _
    | with_reducible apply virtualTimeUpdate_keeps
    | with_reducible apply State.draw_keeps
    | dsimp only
    | intro _ _ _
    | split


theorem execTileUncorrectableError_keeps (tile : Nat) (s : State) (hs : Keeps cq co s) : OutKeeps cq co (execTileUncorrectableError tile s) := by
  unfold execTileUncorrectableError
  repeat any_goals first
    | with_reducible assumption
    | with_reducible apply OutKeeps.next
    | intro _ _
    | with_reducible apply tileError_keeps
    | with_reducible apply State.draw_keeps
    | dsimp only
    | intro _ _ _
    | split


theorem execTileCorrectedError_keeps (tile : Nat) (s : State) (hs : Keeps cq co s) : OutKeeps cq co (execTileCorrectedError tile s) := by
  unfold execTileCorrectedError
  repeat any_goals first
    | with_reducible assumption
    | with_reducible apply OutKeeps.next
    | intro _ _
    | with_reducible apply tileCorrected_keeps
    | with_reducible apply State.draw_keeps
    | dsimp only
    | intro _ _ _
    | split


theorem execJobTeardownComplete_keeps (part job : Nat) (s : State) (hs : Keeps cq co s) : OutKeeps cq co (execJobTeardownComplete part job s) := by
  unfold execJobTeardownComplete
  repeat any_goals first
    | with_reducible assumption
    | with_reducible apply OutKeeps.next
    | intro _ _
    | with_reducible apply jobTeardown_keeps
    | with_reducible apply State.draw_keeps
    | dsimp only
    | intro _ _ _
    | split


end Sys2Proof.Machine
end

