-- ==== Sys2Proof/Laws/Keeps/TileCode.lean ====
section
/-! SUPPORT. What the operations of Machine/TileCode.lean keep. -/

namespace Sys2Proof.Machine

open Sys2Proof

variable {cq : List Instr} {co : Oxsis}

theorem tileRun_keeps (uid : Nat) (row : Nat → Bool) (eff : Kernel → KCall → Nat → Effect) (s : State) (hs : Keeps cq co s) : Keeps cq co (tileRun uid row eff s) := by
  unfold tileRun
  repeat any_goals first
    | with_reducible assumption
    | with_reducible apply faultJob_keeps
    | with_reducible apply State.onUnit_keeps
    | with_reducible apply nextStage_keeps
    | with_reducible apply State.draw_keeps
    | dsimp only
    | intro _ _ _
    | split
    | with_reducible apply Keeps.lit
    | intro _ _


theorem execAdd_keeps (unit : Nat) (s : State) (hs : Keeps cq co s) : OutKeeps cq co (execAdd unit s) := by
  unfold execAdd
  repeat any_goals first
    | with_reducible assumption
    | with_reducible apply OutKeeps.next
    | intro _ _
    | with_reducible apply tileRun_keeps
    | with_reducible apply State.draw_keeps
    | dsimp only
    | intro _ _ _
    | split


theorem execSub_keeps (unit : Nat) (s : State) (hs : Keeps cq co s) : OutKeeps cq co (execSub unit s) := by
  unfold execSub
  repeat any_goals first
    | with_reducible assumption
    | with_reducible apply OutKeeps.next
    | intro _ _
    | with_reducible apply tileRun_keeps
    | with_reducible apply State.draw_keeps
    | dsimp only
    | intro _ _ _
    | split


theorem execMul_keeps (unit : Nat) (s : State) (hs : Keeps cq co s) : OutKeeps cq co (execMul unit s) := by
  unfold execMul
  repeat any_goals first
    | with_reducible assumption
    | with_reducible apply OutKeeps.next
    | intro _ _
    | with_reducible apply tileRun_keeps
    | with_reducible apply State.draw_keeps
    | dsimp only
    | intro _ _ _
    | split


theorem execAnd_keeps (unit : Nat) (s : State) (hs : Keeps cq co s) : OutKeeps cq co (execAnd unit s) := by
  unfold execAnd
  repeat any_goals first
    | with_reducible assumption
    | with_reducible apply OutKeeps.next
    | intro _ _
    | with_reducible apply tileRun_keeps
    | with_reducible apply State.draw_keeps
    | dsimp only
    | intro _ _ _
    | split


theorem execOr_keeps (unit : Nat) (s : State) (hs : Keeps cq co s) : OutKeeps cq co (execOr unit s) := by
  unfold execOr
  repeat any_goals first
    | with_reducible assumption
    | with_reducible apply OutKeeps.next
    | intro _ _
    | with_reducible apply tileRun_keeps
    | with_reducible apply State.draw_keeps
    | dsimp only
    | intro _ _ _
    | split


theorem execXor_keeps (unit : Nat) (s : State) (hs : Keeps cq co s) : OutKeeps cq co (execXor unit s) := by
  unfold execXor
  repeat any_goals first
    | with_reducible assumption
    | with_reducible apply OutKeeps.next
    | intro _ _
    | with_reducible apply tileRun_keeps
    | with_reducible apply State.draw_keeps
    | dsimp only
    | intro _ _ _
    | split


theorem execShl_keeps (unit : Nat) (s : State) (hs : Keeps cq co s) : OutKeeps cq co (execShl unit s) := by
  unfold execShl
  repeat any_goals first
    | with_reducible assumption
    | with_reducible apply OutKeeps.next
    | intro _ _
    | with_reducible apply tileRun_keeps
    | with_reducible apply State.draw_keeps
    | dsimp only
    | intro _ _ _
    | split


theorem execShr_keeps (unit : Nat) (s : State) (hs : Keeps cq co s) : OutKeeps cq co (execShr unit s) := by
  unfold execShr
  repeat any_goals first
    | with_reducible assumption
    | with_reducible apply OutKeeps.next
    | intro _ _
    | with_reducible apply tileRun_keeps
    | with_reducible apply State.draw_keeps
    | dsimp only
    | intro _ _ _
    | split


theorem execSra_keeps (unit : Nat) (s : State) (hs : Keeps cq co s) : OutKeeps cq co (execSra unit s) := by
  unfold execSra
  repeat any_goals first
    | with_reducible assumption
    | with_reducible apply OutKeeps.next
    | intro _ _
    | with_reducible apply tileRun_keeps
    | with_reducible apply State.draw_keeps
    | dsimp only
    | intro _ _ _
    | split


theorem execSlt_keeps (unit : Nat) (s : State) (hs : Keeps cq co s) : OutKeeps cq co (execSlt unit s) := by
  unfold execSlt
  repeat any_goals first
    | with_reducible assumption
    | with_reducible apply OutKeeps.next
    | intro _ _
    | with_reducible apply tileRun_keeps
    | with_reducible apply State.draw_keeps
    | dsimp only
    | intro _ _ _
    | split


theorem execSltu_keeps (unit : Nat) (s : State) (hs : Keeps cq co s) : OutKeeps cq co (execSltu unit s) := by
  unfold execSltu
  repeat any_goals first
    | with_reducible assumption
    | with_reducible apply OutKeeps.next
    | intro _ _
    | with_reducible apply tileRun_keeps
    | with_reducible apply State.draw_keeps
    | dsimp only
    | intro _ _ _
    | split


theorem execMin_keeps (unit : Nat) (s : State) (hs : Keeps cq co s) : OutKeeps cq co (execMin unit s) := by
  unfold execMin
  repeat any_goals first
    | with_reducible assumption
    | with_reducible apply OutKeeps.next
    | intro _ _
    | with_reducible apply tileRun_keeps
    | with_reducible apply State.draw_keeps
    | dsimp only
    | intro _ _ _
    | split


theorem execMax_keeps (unit : Nat) (s : State) (hs : Keeps cq co s) : OutKeeps cq co (execMax unit s) := by
  unfold execMax
  repeat any_goals first
    | with_reducible assumption
    | with_reducible apply OutKeeps.next
    | intro _ _
    | with_reducible apply tileRun_keeps
    | with_reducible apply State.draw_keeps
    | dsimp only
    | intro _ _ _
    | split


theorem execMov_keeps (unit : Nat) (s : State) (hs : Keeps cq co s) : OutKeeps cq co (execMov unit s) := by
  unfold execMov
  repeat any_goals first
    | with_reducible assumption
    | with_reducible apply OutKeeps.next
    | intro _ _
    | with_reducible apply tileRun_keeps
    | with_reducible apply State.draw_keeps
    | dsimp only
    | intro _ _ _
    | split


theorem execFadd_keeps (unit : Nat) (s : State) (hs : Keeps cq co s) : OutKeeps cq co (execFadd unit s) := by
  unfold execFadd
  repeat any_goals first
    | with_reducible assumption
    | with_reducible apply OutKeeps.next
    | intro _ _
    | with_reducible apply tileRun_keeps
    | with_reducible apply State.draw_keeps
    | dsimp only
    | intro _ _ _
    | split


theorem execFsub_keeps (unit : Nat) (s : State) (hs : Keeps cq co s) : OutKeeps cq co (execFsub unit s) := by
  unfold execFsub
  repeat any_goals first
    | with_reducible assumption
    | with_reducible apply OutKeeps.next
    | intro _ _
    | with_reducible apply tileRun_keeps
    | with_reducible apply State.draw_keeps
    | dsimp only
    | intro _ _ _
    | split


theorem execFmul_keeps (unit : Nat) (s : State) (hs : Keeps cq co s) : OutKeeps cq co (execFmul unit s) := by
  unfold execFmul
  repeat any_goals first
    | with_reducible assumption
    | with_reducible apply OutKeeps.next
    | intro _ _
    | with_reducible apply tileRun_keeps
    | with_reducible apply State.draw_keeps
    | dsimp only
    | intro _ _ _
    | split


theorem execFmin_keeps (unit : Nat) (s : State) (hs : Keeps cq co s) : OutKeeps cq co (execFmin unit s) := by
  unfold execFmin
  repeat any_goals first
    | with_reducible assumption
    | with_reducible apply OutKeeps.next
    | intro _ _
    | with_reducible apply tileRun_keeps
    | with_reducible apply State.draw_keeps
    | dsimp only
    | intro _ _ _
    | split


theorem execFmax_keeps (unit : Nat) (s : State) (hs : Keeps cq co s) : OutKeeps cq co (execFmax unit s) := by
  unfold execFmax
  repeat any_goals first
    | with_reducible assumption
    | with_reducible apply OutKeeps.next
    | intro _ _
    | with_reducible apply tileRun_keeps
    | with_reducible apply State.draw_keeps
    | dsimp only
    | intro _ _ _
    | split


theorem execFlt_keeps (unit : Nat) (s : State) (hs : Keeps cq co s) : OutKeeps cq co (execFlt unit s) := by
  unfold execFlt
  repeat any_goals first
    | with_reducible assumption
    | with_reducible apply OutKeeps.next
    | intro _ _
    | with_reducible apply tileRun_keeps
    | with_reducible apply State.draw_keeps
    | dsimp only
    | intro _ _ _
    | split


theorem execItof_keeps (unit : Nat) (s : State) (hs : Keeps cq co s) : OutKeeps cq co (execItof unit s) := by
  unfold execItof
  repeat any_goals first
    | with_reducible assumption
    | with_reducible apply OutKeeps.next
    | intro _ _
    | with_reducible apply tileRun_keeps
    | with_reducible apply State.draw_keeps
    | dsimp only
    | intro _ _ _
    | split


theorem execFtoi_keeps (unit : Nat) (s : State) (hs : Keeps cq co s) : OutKeeps cq co (execFtoi unit s) := by
  unfold execFtoi
  repeat any_goals first
    | with_reducible assumption
    | with_reducible apply OutKeeps.next
    | intro _ _
    | with_reducible apply tileRun_keeps
    | with_reducible apply State.draw_keeps
    | dsimp only
    | intro _ _ _
    | split


theorem execAddi_keeps (unit : Nat) (s : State) (hs : Keeps cq co s) : OutKeeps cq co (execAddi unit s) := by
  unfold execAddi
  repeat any_goals first
    | with_reducible assumption
    | with_reducible apply OutKeeps.next
    | intro _ _
    | with_reducible apply tileRun_keeps
    | with_reducible apply State.draw_keeps
    | dsimp only
    | intro _ _ _
    | split


theorem execAndi_keeps (unit : Nat) (s : State) (hs : Keeps cq co s) : OutKeeps cq co (execAndi unit s) := by
  unfold execAndi
  repeat any_goals first
    | with_reducible assumption
    | with_reducible apply OutKeeps.next
    | intro _ _
    | with_reducible apply tileRun_keeps
    | with_reducible apply State.draw_keeps
    | dsimp only
    | intro _ _ _
    | split


theorem execOri_keeps (unit : Nat) (s : State) (hs : Keeps cq co s) : OutKeeps cq co (execOri unit s) := by
  unfold execOri
  repeat any_goals first
    | with_reducible assumption
    | with_reducible apply OutKeeps.next
    | intro _ _
    | with_reducible apply tileRun_keeps
    | with_reducible apply State.draw_keeps
    | dsimp only
    | intro _ _ _
    | split


theorem execLui_keeps (unit : Nat) (s : State) (hs : Keeps cq co s) : OutKeeps cq co (execLui unit s) := by
  unfold execLui
  repeat any_goals first
    | with_reducible assumption
    | with_reducible apply OutKeeps.next
    | intro _ _
    | with_reducible apply tileRun_keeps
    | with_reducible apply State.draw_keeps
    | dsimp only
    | intro _ _ _
    | split


theorem execSlti_keeps (unit : Nat) (s : State) (hs : Keeps cq co s) : OutKeeps cq co (execSlti unit s) := by
  unfold execSlti
  repeat any_goals first
    | with_reducible assumption
    | with_reducible apply OutKeeps.next
    | intro _ _
    | with_reducible apply tileRun_keeps
    | with_reducible apply State.draw_keeps
    | dsimp only
    | intro _ _ _
    | split


theorem execVadd_keeps (unit : Nat) (s : State) (hs : Keeps cq co s) : OutKeeps cq co (execVadd unit s) := by
  unfold execVadd
  repeat any_goals first
    | with_reducible assumption
    | with_reducible apply OutKeeps.next
    | intro _ _
    | with_reducible apply tileRun_keeps
    | with_reducible apply State.draw_keeps
    | dsimp only
    | intro _ _ _
    | split


theorem execVsub_keeps (unit : Nat) (s : State) (hs : Keeps cq co s) : OutKeeps cq co (execVsub unit s) := by
  unfold execVsub
  repeat any_goals first
    | with_reducible assumption
    | with_reducible apply OutKeeps.next
    | intro _ _
    | with_reducible apply tileRun_keeps
    | with_reducible apply State.draw_keeps
    | dsimp only
    | intro _ _ _
    | split


theorem execVmul_keeps (unit : Nat) (s : State) (hs : Keeps cq co s) : OutKeeps cq co (execVmul unit s) := by
  unfold execVmul
  repeat any_goals first
    | with_reducible assumption
    | with_reducible apply OutKeeps.next
    | intro _ _
    | with_reducible apply tileRun_keeps
    | with_reducible apply State.draw_keeps
    | dsimp only
    | intro _ _ _
    | split


theorem execVfma_keeps (unit : Nat) (s : State) (hs : Keeps cq co s) : OutKeeps cq co (execVfma unit s) := by
  unfold execVfma
  repeat any_goals first
    | with_reducible assumption
    | with_reducible apply OutKeeps.next
    | intro _ _
    | with_reducible apply tileRun_keeps
    | with_reducible apply State.draw_keeps
    | dsimp only
    | intro _ _ _
    | split


theorem execVmin_keeps (unit : Nat) (s : State) (hs : Keeps cq co s) : OutKeeps cq co (execVmin unit s) := by
  unfold execVmin
  repeat any_goals first
    | with_reducible assumption
    | with_reducible apply OutKeeps.next
    | intro _ _
    | with_reducible apply tileRun_keeps
    | with_reducible apply State.draw_keeps
    | dsimp only
    | intro _ _ _
    | split


theorem execVmax_keeps (unit : Nat) (s : State) (hs : Keeps cq co s) : OutKeeps cq co (execVmax unit s) := by
  unfold execVmax
  repeat any_goals first
    | with_reducible assumption
    | with_reducible apply OutKeeps.next
    | intro _ _
    | with_reducible apply tileRun_keeps
    | with_reducible apply State.draw_keeps
    | dsimp only
    | intro _ _ _
    | split


theorem execVabs_keeps (unit : Nat) (s : State) (hs : Keeps cq co s) : OutKeeps cq co (execVabs unit s) := by
  unfold execVabs
  repeat any_goals first
    | with_reducible assumption
    | with_reducible apply OutKeeps.next
    | intro _ _
    | with_reducible apply tileRun_keeps
    | with_reducible apply State.draw_keeps
    | dsimp only
    | intro _ _ _
    | split


theorem execVneg_keeps (unit : Nat) (s : State) (hs : Keeps cq co s) : OutKeeps cq co (execVneg unit s) := by
  unfold execVneg
  repeat any_goals first
    | with_reducible assumption
    | with_reducible apply OutKeeps.next
    | intro _ _
    | with_reducible apply tileRun_keeps
    | with_reducible apply State.draw_keeps
    | dsimp only
    | intro _ _ _
    | split


theorem execVmov_keeps (unit : Nat) (s : State) (hs : Keeps cq co s) : OutKeeps cq co (execVmov unit s) := by
  unfold execVmov
  repeat any_goals first
    | with_reducible assumption
    | with_reducible apply OutKeeps.next
    | intro _ _
    | with_reducible apply tileRun_keeps
    | with_reducible apply State.draw_keeps
    | dsimp only
    | intro _ _ _
    | split


theorem execVexp_keeps (unit : Nat) (s : State) (hs : Keeps cq co s) : OutKeeps cq co (execVexp unit s) := by
  unfold execVexp
  repeat any_goals first
    | with_reducible assumption
    | with_reducible apply OutKeeps.next
    | intro _ _
    | with_reducible apply tileRun_keeps
    | with_reducible apply State.draw_keeps
    | dsimp only
    | intro _ _ _
    | split


theorem execVrecip_keeps (unit : Nat) (s : State) (hs : Keeps cq co s) : OutKeeps cq co (execVrecip unit s) := by
  unfold execVrecip
  repeat any_goals first
    | with_reducible assumption
    | with_reducible apply OutKeeps.next
    | intro _ _
    | with_reducible apply tileRun_keeps
    | with_reducible apply State.draw_keeps
    | dsimp only
    | intro _ _ _
    | split


theorem execVlog_keeps (unit : Nat) (s : State) (hs : Keeps cq co s) : OutKeeps cq co (execVlog unit s) := by
  unfold execVlog
  repeat any_goals first
    | with_reducible assumption
    | with_reducible apply OutKeeps.next
    | intro _ _
    | with_reducible apply tileRun_keeps
    | with_reducible apply State.draw_keeps
    | dsimp only
    | intro _ _ _
    | split


theorem execVitof_keeps (unit : Nat) (s : State) (hs : Keeps cq co s) : OutKeeps cq co (execVitof unit s) := by
  unfold execVitof
  repeat any_goals first
    | with_reducible assumption
    | with_reducible apply OutKeeps.next
    | intro _ _
    | with_reducible apply tileRun_keeps
    | with_reducible apply State.draw_keeps
    | dsimp only
    | intro _ _ _
    | split


theorem execVftoi_keeps (unit : Nat) (s : State) (hs : Keeps cq co s) : OutKeeps cq co (execVftoi unit s) := by
  unfold execVftoi
  repeat any_goals first
    | with_reducible assumption
    | with_reducible apply OutKeeps.next
    | intro _ _
    | with_reducible apply tileRun_keeps
    | with_reducible apply State.draw_keeps
    | dsimp only
    | intro _ _ _
    | split


theorem execVidx_keeps (unit : Nat) (s : State) (hs : Keeps cq co s) : OutKeeps cq co (execVidx unit s) := by
  unfold execVidx
  repeat any_goals first
    | with_reducible assumption
    | with_reducible apply OutKeeps.next
    | intro _ _
    | with_reducible apply tileRun_keeps
    | with_reducible apply State.draw_keeps
    | dsimp only
    | intro _ _ _
    | split


theorem execVbcast_keeps (unit : Nat) (s : State) (hs : Keeps cq co s) : OutKeeps cq co (execVbcast unit s) := by
  unfold execVbcast
  repeat any_goals first
    | with_reducible assumption
    | with_reducible apply OutKeeps.next
    | intro _ _
    | with_reducible apply tileRun_keeps
    | with_reducible apply State.draw_keeps
    | dsimp only
    | intro _ _ _
    | split


theorem execVlt_keeps (unit : Nat) (s : State) (hs : Keeps cq co s) : OutKeeps cq co (execVlt unit s) := by
  unfold execVlt
  repeat any_goals first
    | with_reducible assumption
    | with_reducible apply OutKeeps.next
    | intro _ _
    | with_reducible apply tileRun_keeps
    | with_reducible apply State.draw_keeps
    | dsimp only
    | intro _ _ _
    | split


theorem execVle_keeps (unit : Nat) (s : State) (hs : Keeps cq co s) : OutKeeps cq co (execVle unit s) := by
  unfold execVle
  repeat any_goals first
    | with_reducible assumption
    | with_reducible apply OutKeeps.next
    | intro _ _
    | with_reducible apply tileRun_keeps
    | with_reducible apply State.draw_keeps
    | dsimp only
    | intro _ _ _
    | split


theorem execVeq_keeps (unit : Nat) (s : State) (hs : Keeps cq co s) : OutKeeps cq co (execVeq unit s) := by
  unfold execVeq
  repeat any_goals first
    | with_reducible assumption
    | with_reducible apply OutKeeps.next
    | intro _ _
    | with_reducible apply tileRun_keeps
    | with_reducible apply State.draw_keeps
    | dsimp only
    | intro _ _ _
    | split


theorem execVne_keeps (unit : Nat) (s : State) (hs : Keeps cq co s) : OutKeeps cq co (execVne unit s) := by
  unfold execVne
  repeat any_goals first
    | with_reducible assumption
    | with_reducible apply OutKeeps.next
    | intro _ _
    | with_reducible apply tileRun_keeps
    | with_reducible apply State.draw_keeps
    | dsimp only
    | intro _ _ _
    | split


theorem execVsum_keeps (unit : Nat) (s : State) (hs : Keeps cq co s) : OutKeeps cq co (execVsum unit s) := by
  unfold execVsum
  repeat any_goals first
    | with_reducible assumption
    | with_reducible apply OutKeeps.next
    | intro _ _
    | with_reducible apply tileRun_keeps
    | with_reducible apply State.draw_keeps
    | dsimp only
    | intro _ _ _
    | split


theorem execVmaxr_keeps (unit : Nat) (s : State) (hs : Keeps cq co s) : OutKeeps cq co (execVmaxr unit s) := by
  unfold execVmaxr
  repeat any_goals first
    | with_reducible assumption
    | with_reducible apply OutKeeps.next
    | intro _ _
    | with_reducible apply tileRun_keeps
    | with_reducible apply State.draw_keeps
    | dsimp only
    | intro _ _ _
    | split


theorem execVminr_keeps (unit : Nat) (s : State) (hs : Keeps cq co s) : OutKeeps cq co (execVminr unit s) := by
  unfold execVminr
  repeat any_goals first
    | with_reducible assumption
    | with_reducible apply OutKeeps.next
    | intro _ _
    | with_reducible apply tileRun_keeps
    | with_reducible apply State.draw_keeps
    | dsimp only
    | intro _ _ _
    | split


theorem execPand_keeps (unit : Nat) (s : State) (hs : Keeps cq co s) : OutKeeps cq co (execPand unit s) := by
  unfold execPand
  repeat any_goals first
    | with_reducible assumption
    | with_reducible apply OutKeeps.next
    | intro _ _
    | with_reducible apply tileRun_keeps
    | with_reducible apply State.draw_keeps
    | dsimp only
    | intro _ _ _
    | split


theorem execPor_keeps (unit : Nat) (s : State) (hs : Keeps cq co s) : OutKeeps cq co (execPor unit s) := by
  unfold execPor
  repeat any_goals first
    | with_reducible assumption
    | with_reducible apply OutKeeps.next
    | intro _ _
    | with_reducible apply tileRun_keeps
    | with_reducible apply State.draw_keeps
    | dsimp only
    | intro _ _ _
    | split


theorem execPxor_keeps (unit : Nat) (s : State) (hs : Keeps cq co s) : OutKeeps cq co (execPxor unit s) := by
  unfold execPxor
  repeat any_goals first
    | with_reducible assumption
    | with_reducible apply OutKeeps.next
    | intro _ _
    | with_reducible apply tileRun_keeps
    | with_reducible apply State.draw_keeps
    | dsimp only
    | intro _ _ _
    | split


theorem execPandn_keeps (unit : Nat) (s : State) (hs : Keeps cq co s) : OutKeeps cq co (execPandn unit s) := by
  unfold execPandn
  repeat any_goals first
    | with_reducible assumption
    | with_reducible apply OutKeeps.next
    | intro _ _
    | with_reducible apply tileRun_keeps
    | with_reducible apply State.draw_keeps
    | dsimp only
    | intro _ _ _
    | split


theorem execPnot_keeps (unit : Nat) (s : State) (hs : Keeps cq co s) : OutKeeps cq co (execPnot unit s) := by
  unfold execPnot
  repeat any_goals first
    | with_reducible assumption
    | with_reducible apply OutKeeps.next
    | intro _ _
    | with_reducible apply tileRun_keeps
    | with_reducible apply State.draw_keeps
    | dsimp only
    | intro _ _ _
    | split


theorem execPset_keeps (unit : Nat) (s : State) (hs : Keeps cq co s) : OutKeeps cq co (execPset unit s) := by
  unfold execPset
  repeat any_goals first
    | with_reducible assumption
    | with_reducible apply OutKeeps.next
    | intro _ _
    | with_reducible apply tileRun_keeps
    | with_reducible apply State.draw_keeps
    | dsimp only
    | intro _ _ _
    | split


theorem execPclr_keeps (unit : Nat) (s : State) (hs : Keeps cq co s) : OutKeeps cq co (execPclr unit s) := by
  unfold execPclr
  repeat any_goals first
    | with_reducible assumption
    | with_reducible apply OutKeeps.next
    | intro _ _
    | with_reducible apply tileRun_keeps
    | with_reducible apply State.draw_keeps
    | dsimp only
    | intro _ _ _
    | split


theorem execPcnt_keeps (unit : Nat) (s : State) (hs : Keeps cq co s) : OutKeeps cq co (execPcnt unit s) := by
  unfold execPcnt
  repeat any_goals first
    | with_reducible assumption
    | with_reducible apply OutKeeps.next
    | intro _ _
    | with_reducible apply tileRun_keeps
    | with_reducible apply State.draw_keeps
    | dsimp only
    | intro _ _ _
    | split


theorem execPfroms_keeps (unit : Nat) (s : State) (hs : Keeps cq co s) : OutKeeps cq co (execPfroms unit s) := by
  unfold execPfroms
  repeat any_goals first
    | with_reducible assumption
    | with_reducible apply OutKeeps.next
    | intro _ _
    | with_reducible apply tileRun_keeps
    | with_reducible apply State.draw_keeps
    | dsimp only
    | intro _ _ _
    | split


theorem execPtos_keeps (unit : Nat) (s : State) (hs : Keeps cq co s) : OutKeeps cq co (execPtos unit s) := by
  unfold execPtos
  repeat any_goals first
    | with_reducible assumption
    | with_reducible apply OutKeeps.next
    | intro _ _
    | with_reducible apply tileRun_keeps
    | with_reducible apply State.draw_keeps
    | dsimp only
    | intro _ _ _
    | split


theorem execLd_keeps (unit : Nat) (s : State) (hs : Keeps cq co s) : OutKeeps cq co (execLd unit s) := by
  unfold execLd
  repeat any_goals first
    | with_reducible assumption
    | with_reducible apply OutKeeps.next
    | intro _ _
    | with_reducible apply tileRun_keeps
    | with_reducible apply State.draw_keeps
    | dsimp only
    | intro _ _ _
    | split


theorem execSt_keeps (unit : Nat) (s : State) (hs : Keeps cq co s) : OutKeeps cq co (execSt unit s) := by
  unfold execSt
  repeat any_goals first
    | with_reducible assumption
    | with_reducible apply OutKeeps.next
    | intro _ _
    | with_reducible apply tileRun_keeps
    | with_reducible apply State.draw_keeps
    | dsimp only
    | intro _ _ _
    | split


theorem execVld_keeps (unit : Nat) (s : State) (hs : Keeps cq co s) : OutKeeps cq co (execVld unit s) := by
  unfold execVld
  repeat any_goals first
    | with_reducible assumption
    | with_reducible apply OutKeeps.next
    | intro _ _
    | with_reducible apply tileRun_keeps
    | with_reducible apply State.draw_keeps
    | dsimp only
    | intro _ _ _
    | split


theorem execVst_keeps (unit : Nat) (s : State) (hs : Keeps cq co s) : OutKeeps cq co (execVst unit s) := by
  unfold execVst
  repeat any_goals first
    | with_reducible assumption
    | with_reducible apply OutKeeps.next
    | intro _ _
    | with_reducible apply tileRun_keeps
    | with_reducible apply State.draw_keeps
    | dsimp only
    | intro _ _ _
    | split


theorem execMma_keeps (unit : Nat) (s : State) (hs : Keeps cq co s) : OutKeeps cq co (execMma unit s) := by
  unfold execMma
  repeat any_goals first
    | with_reducible assumption
    | with_reducible apply OutKeeps.next
    | intro _ _
    | with_reducible apply tileRun_keeps
    | with_reducible apply State.draw_keeps
    | dsimp only
    | intro _ _ _
    | split


theorem execBr_keeps (unit : Nat) (s : State) (hs : Keeps cq co s) : OutKeeps cq co (execBr unit s) := by
  unfold execBr
  repeat any_goals first
    | with_reducible assumption
    | with_reducible apply OutKeeps.next
    | intro _ _
    | with_reducible apply tileRun_keeps
    | with_reducible apply State.draw_keeps
    | dsimp only
    | intro _ _ _
    | split


theorem execBz_keeps (unit : Nat) (s : State) (hs : Keeps cq co s) : OutKeeps cq co (execBz unit s) := by
  unfold execBz
  repeat any_goals first
    | with_reducible assumption
    | with_reducible apply OutKeeps.next
    | intro _ _
    | with_reducible apply tileRun_keeps
    | with_reducible apply State.draw_keeps
    | dsimp only
    | intro _ _ _
    | split


theorem execBnz_keeps (unit : Nat) (s : State) (hs : Keeps cq co s) : OutKeeps cq co (execBnz unit s) := by
  unfold execBnz
  repeat any_goals first
    | with_reducible assumption
    | with_reducible apply OutKeeps.next
    | intro _ _
    | with_reducible apply tileRun_keeps
    | with_reducible apply State.draw_keeps
    | dsimp only
    | intro _ _ _
    | split


theorem execBany_keeps (unit : Nat) (s : State) (hs : Keeps cq co s) : OutKeeps cq co (execBany unit s) := by
  unfold execBany
  repeat any_goals first
    | with_reducible assumption
    | with_reducible apply OutKeeps.next
    | intro _ _
    | with_reducible apply tileRun_keeps
    | with_reducible apply State.draw_keeps
    | dsimp only
    | intro _ _ _
    | split


theorem execBnone_keeps (unit : Nat) (s : State) (hs : Keeps cq co s) : OutKeeps cq co (execBnone unit s) := by
  unfold execBnone
  repeat any_goals first
    | with_reducible assumption
    | with_reducible apply OutKeeps.next
    | intro _ _
    | with_reducible apply tileRun_keeps
    | with_reducible apply State.draw_keeps
    | dsimp only
    | intro _ _ _
    | split


theorem execRet_keeps (unit : Nat) (s : State) (hs : Keeps cq co s) : OutKeeps cq co (execRet unit s) := by
  unfold execRet
  repeat any_goals first
    | with_reducible assumption
    | with_reducible apply OutKeeps.next
    | intro _ _
    | with_reducible apply tileRun_keeps
    | with_reducible apply State.draw_keeps
    | dsimp only
    | intro _ _ _
    | split


theorem execTrap_keeps (unit : Nat) (s : State) (hs : Keeps cq co s) : OutKeeps cq co (execTrap unit s) := by
  unfold execTrap
  repeat any_goals first
    | with_reducible assumption
    | with_reducible apply OutKeeps.next
    | intro _ _
    | with_reducible apply tileRun_keeps
    | with_reducible apply State.draw_keeps
    | dsimp only
    | intro _ _ _
    | split


end Sys2Proof.Machine
end

