-- ==== Sys2Proof/Laws/Keeps/HostIf.lean ====
section
/-! SUPPORT. What the operations of Machine/HostIf.lean keep. -/

namespace Sys2Proof.Machine

open Sys2Proof

variable {cq : List Instr} {co : Oxsis}

theorem dropDoorbell_keeps (s : State) (p i : Nat) (hs : Keeps cq co s) : Keeps cq co (dropDoorbell s p i) := by
  unfold dropDoorbell
  repeat any_goals first
    | with_reducible assumption
    | with_reducible apply State.onSlot_keeps
    | with_reducible apply State.draw_keeps
    | dsimp only
    | intro _ _ _
    | split
    | with_reducible apply Keeps.lit


theorem sqDoorbell_keeps (p i offset size value : Nat) (s : State) (hs : Keeps cq co s) : Keeps cq co (sqDoorbell p i offset size value s) := by
  unfold sqDoorbell
  repeat any_goals first
    | with_reducible assumption
    | with_reducible apply State.onSlot_keeps
    | with_reducible apply dropDoorbell_keeps
    | with_reducible apply State.draw_keeps
    | dsimp only
    | intro _ _ _
    | split
    | with_reducible apply Keeps.lit


theorem enterWindow_keeps (s : State) (p i index : Nat) (w : List Byte) (st : Stage) (hs : Keeps cq co s) : Keeps cq co (enterWindow s p i index w st) := by
  unfold enterWindow
  repeat any_goals first
    | with_reducible assumption
    | with_reducible apply State.onPart_keeps
    | with_reducible apply State.onSlot_keeps
    | with_reducible apply State.draw_keeps
    | dsimp only
    | intro _ _ _
    | split
    | with_reducible apply Keeps.lit


theorem inlineDoorbell_keeps (p i offset : Nat) (data : List Byte) (s : State) (hs : Keeps cq co s) : Keeps cq co (inlineDoorbell p i offset data s) := by
  unfold inlineDoorbell
  repeat any_goals first
    | with_reducible assumption
    | with_reducible apply pcieIn_keeps
    | with_reducible apply State.onSlot_keeps
    | with_reducible apply enterWindow_keeps
    | with_reducible apply dropDoorbell_keeps
    | with_reducible apply State.draw_keeps
    | dsimp only
    | intro _ _ _
    | split
    | with_reducible apply Keeps.lit


theorem csqCfg_keeps (s : State) (p value : Nat) (hs : Keeps cq co s) : Keeps cq co (csqCfg s p value) := by
  unfold csqCfg
  repeat any_goals first
    | with_reducible assumption
    | with_reducible apply stopSlot_keeps
    | with_reducible refine stopSlot_keeps_eq ‹_› ?_
    | with_reducible apply State.onSlot_keeps
    | with_reducible apply State.draw_keeps
    | dsimp only
    | intro _ _ _
    | split
    | with_reducible apply Keeps.lit


theorem csqEnable_keeps (p value : Nat) (s : State) (hs : Keeps cq co s) : Keeps cq co (csqEnable p value s) := by
  unfold csqEnable
  repeat any_goals first
    | with_reducible assumption
    | with_reducible apply csqCfg_keeps
    | with_reducible apply State.draw_keeps
    | dsimp only
    | intro _ _ _
    | split


theorem csqDisable_keeps (p value : Nat) (s : State) (hs : Keeps cq co s) : Keeps cq co (csqDisable p value s) := by
  unfold csqDisable
  repeat any_goals first
    | with_reducible assumption
    | with_reducible apply csqCfg_keeps
    | with_reducible apply State.draw_keeps
    | dsimp only
    | intro _ _ _
    | split


theorem csqRingConfig_keeps (p : Nat) (isBase : Bool) (value : Nat) (s : State) (hs : Keeps cq co s) : Keeps cq co (csqRingConfig p isBase value s) := by
  unfold csqRingConfig
  repeat any_goals first
    | with_reducible assumption
    | with_reducible apply State.onSlot_keeps
    | with_reducible apply csqCfg_keeps
    | with_reducible apply State.draw_keeps
    | dsimp only
    | intro _ _ _
    | split
    | with_reducible apply Keeps.lit


theorem meterRead_keeps (s : State) (p n : Nat) (snare : Bool) (hs : Keeps cq co s) : Keeps cq co (meterRead s p n snare).2 := by
  unfold meterRead
  repeat any_goals first
    | with_reducible assumption
    | with_reducible apply State.onPart_keeps
    | with_reducible apply State.draw_keeps
    | dsimp only
    | intro _ _ _
    | split
    | with_reducible apply Keeps.lit


theorem meterRead_keeps_eq {s : State} {p n : Nat} {snare : Bool} {t : State} {a} (e : meterRead s p n snare = (a, t)) (hs : Keeps cq co s) : Keeps cq co t := by
  have k := meterRead_keeps s p n snare hs
  rw [e] at k
  exact k

theorem endWait_keeps (s : State) (code : Nat) (hs : Keeps cq co s) : Keeps cq co (endWait s code) := by
  unfold endWait
  repeat any_goals first
    | with_reducible assumption
    | with_reducible apply State.onUnit_keeps
    | with_reducible apply noteCause_keeps
    | with_reducible apply State.draw_keeps
    | with_reducible apply foldl_keeps (Keeps cq co)
    | dsimp only
    | intro _ _ _
    | split
    | with_reducible apply Keeps.lit


theorem readError_keeps (s : State) (p code addr status opcode tag : Nat) (hs : Keeps cq co s) : Keeps cq co (readError s p code addr status opcode tag) := by
  unfold readError
  repeat any_goals first
    | with_reducible assumption
    | with_reducible apply hostReadError_keeps
    | with_reducible apply State.draw_keeps
    | dsimp only
    | intro _ _ _
    | split


theorem failWait_keeps (s : State) (p code addr : Nat) (hs : Keeps cq co s) : Keeps cq co (failWait s p code addr) := by
  unfold failWait
  repeat any_goals first
    | with_reducible assumption
    | with_reducible apply readError_keeps
    | with_reducible apply settleCommand_keeps
    | with_reducible apply failElem_keeps
    | with_reducible apply endWait_keeps
    | with_reducible apply State.draw_keeps
    | with_reducible apply foldl_keeps (Keeps cq co)
    | dsimp only
    | intro _ _ _
    | split


theorem failMove_keeps (s : State) (p id code addr : Nat) (hs : Keeps cq co s) : Keeps cq co (failMove s p id code addr) := by
  unfold failMove
  repeat any_goals first
    | with_reducible assumption
    | with_reducible apply readError_keeps
    | with_reducible apply abandonMove_keeps
    | with_reducible apply State.onFlight_keeps
    | with_reducible apply State.draw_keeps
    | dsimp only
    | intro _ _ _
    | split
    | with_reducible apply Keeps.lit


theorem fillTent_keeps (s : State) (p frame : Nat) (home : Loc) (bytes tier : Nat) (hs : Keeps cq co s) : Keeps cq co (fillTent s p frame home bytes tier) := by
  unfold fillTent
  repeat any_goals first
    | with_reducible assumption
    | with_reducible apply countTier_keeps
    | with_reducible apply t1Write_keeps
    | with_reducible apply State.onPart_keeps
    | with_reducible apply State.draw_keeps
    | dsimp only
    | intro _ _ _
    | split


theorem landRead_keeps (s : State) (code : Nat) (r : ReadReq) (ok : Bool) (hs : Keeps cq co s) : Keeps cq co (landRead s code r ok) := by
  unfold landRead
  repeat any_goals first
    | with_reducible assumption
    | with_reducible apply failMove_keeps
    | with_reducible apply writeMove_keeps
    | with_reducible apply countTier_keeps
    | with_reducible apply onMove_keeps
    | with_reducible apply endWait_keeps
    | with_reducible apply stall_keeps
    | with_reducible apply dropTent_keeps
    | with_reducible apply failWait_keeps
    | with_reducible apply noteRestored_keeps
    | with_reducible apply fillTent_keeps
    | with_reducible apply State.onSet_keeps
    | with_reducible apply dropTailTent_keeps
    | with_reducible apply State.onSeq_keeps
    | with_reducible apply noteCause_keeps
    | with_reducible apply setStage_keeps
    | with_reducible apply readError_keeps
    | with_reducible apply endRestore_keeps
    | with_reducible apply State.draw_keeps
    | with_reducible apply foldl_keeps (Keeps cq co)
    | dsimp only
    | intro _ _ _
    | split
    | with_reducible apply Keeps.lit


theorem finishRead_keeps (s : State) (code : Nat) (r : ReadReq) (ok : Bool) (hs : Keeps cq co s) : Keeps cq co (finishRead s code r ok) := by
  unfold finishRead
  repeat any_goals first
    | with_reducible assumption
    | with_reducible apply landRead_keeps
    | with_reducible apply serveWaiting_keeps
    | with_reducible apply State.draw_keeps
    | dsimp only
    | intro _ _ _
    | split


theorem deliverFetch_keeps (s : State) (p i : Nat) (l : List Nat) (hs : Keeps cq co s) : Keeps cq co (deliverFetch s p i l) := by
  unfold deliverFetch
  repeat any_goals first
    | with_reducible assumption
    | with_reducible apply pcieIn_keeps
    | with_reducible apply enterWindow_keeps
    | with_reducible apply State.draw_keeps
    | with_reducible apply foldl_keeps (Keeps cq co)
    | dsimp only
    | intro _ _ _
    | split


theorem failFetch_keeps (s : State) (p i : Nat) (l : List Nat) (hs : Keeps cq co s) : Keeps cq co (failFetch s p i l) :=
  foldl_keeps (Keeps cq co) _ (fun s k h => commitWith_keeps _ (fun _ _ _ _ h => .hold h) _ _ (enterWindow_keeps s _ _ _ _ _ h)) _ _ hs

theorem commandFetch_keeps (p i count : Nat) (defer : Bool) (s : State) (hs : Keeps cq co s) : Keeps cq co (commandFetch p i count defer s) := by
  unfold commandFetch
  repeat any_goals first
    | with_reducible assumption
    | with_reducible apply meterRead_keeps
    | with_reducible refine meterRead_keeps_eq ‹_› ?_
    | with_reducible apply deliverFetch_keeps
    | with_reducible apply State.draw_keeps
    | dsimp only
    | intro _ _ _
    | split
    | with_reducible apply Keeps.lit


theorem hostReadCompletion_keeps (id : Nat) (result : ReadResult) (s : State) (hs : Keeps cq co s) : Keeps cq co (hostReadCompletion id result s) := by
  unfold hostReadCompletion
  repeat any_goals first
    | with_reducible assumption
    | with_reducible apply deliverFetch_keeps
    | with_reducible apply failFetch_keeps
    | with_reducible apply finishRead_keeps
    | with_reducible apply State.draw_keeps
    | dsimp only
    | intro _ _ _
    | split
    | with_reducible apply Keeps.lit


theorem ingressRelease_keeps (p id ns : Nat) (s : State) (hs : Keeps cq co s) : Keeps cq co (ingressRelease p id ns s) := by
  unfold ingressRelease
  repeat any_goals first
    | with_reducible assumption
    | with_reducible apply State.onPart_keeps
    | with_reducible apply meterRead_keeps
    | with_reducible refine meterRead_keeps_eq ‹_› ?_
    | with_reducible apply State.draw_keeps
    | dsimp only
    | intro _ _ _
    | split
    | with_reducible apply Keeps.lit


theorem eqEnable_keeps (fn q value : Nat) (s : State) (hs : Keeps cq co s) : Keeps cq co (eqEnable fn q value s) := by
  unfold eqEnable
  repeat any_goals first
    | with_reducible assumption
    | with_reducible apply State.onEq_keeps
    | with_reducible apply signalIfDue_keeps
    | with_reducible apply State.draw_keeps
    | dsimp only
    | intro _ _ _
    | split
    | with_reducible apply Keeps.lit


theorem eqDisable_keeps (fn q value : Nat) (s : State) (hs : Keeps cq co s) : Keeps cq co (eqDisable fn q value s) := by
  unfold eqDisable
  repeat any_goals first
    | with_reducible assumption
    | with_reducible apply State.onEq_keeps
    | with_reducible apply State.draw_keeps
    | dsimp only
    | intro _ _ _
    | split
    | with_reducible apply Keeps.lit


theorem eqHeadWrite_keeps (fn q value : Nat) (s : State) (hs : Keeps cq co s) : Keeps cq co (eqHeadWrite fn q value s) := by
  unfold eqHeadWrite
  repeat any_goals first
    | with_reducible assumption
    | with_reducible apply State.onEq_keeps
    | with_reducible apply signalIfDue_keeps
    | with_reducible apply deliverOverflow_keeps
    | with_reducible apply State.draw_keeps
    | dsimp only
    | intro _ _ _
    | split
    | with_reducible apply Keeps.lit


theorem eqArm_keeps (fn q : Nat) (s : State) (hs : Keeps cq co s) : Keeps cq co (eqArm fn q s) := by
  unfold eqArm
  repeat any_goals first
    | with_reducible assumption
    | with_reducible apply signalIfDue_keeps
    | with_reducible apply State.onEq_keeps
    | with_reducible apply State.draw_keeps
    | dsimp only
    | intro _ _ _
    | split
    | with_reducible apply Keeps.lit


theorem coalesceTimer_keeps (fn q : Nat) (s : State) (hs : Keeps cq co s) : Keeps cq co (coalesceTimer fn q s) := by
  unfold coalesceTimer
  repeat any_goals first
    | with_reducible assumption
    | with_reducible apply signalIfDue_keeps
    | with_reducible apply State.onEq_keeps
    | with_reducible apply State.draw_keeps
    | dsimp only
    | intro _ _ _
    | split
    | with_reducible apply Keeps.lit


theorem msixUnmask_keeps (fn v : Nat) (s : State) (hs : Keeps cq co s) : Keeps cq co (msixUnmask fn v s) := by
  unfold msixUnmask
  repeat any_goals first
    | with_reducible assumption
    | with_reducible apply setVector_keeps
    | with_reducible apply State.issue_keeps
    | with_reducible apply State.draw_keeps
    | dsimp only
    | intro _ _ _
    | split
    | with_reducible apply Keeps.lit


theorem State.onBuffer_keeps (s : State) (p i : Nat) (g : Buffer → Buffer) (hs : Keeps cq co s) : Keeps cq co (State.onBuffer s p i g) := by
  unfold State.onBuffer
  repeat any_goals first
    | with_reducible assumption
    | with_reducible apply State.onPart_keeps
    | with_reducible apply State.draw_keeps
    | dsimp only
    | intro _ _ _
    | split
    | with_reducible apply Keeps.lit


theorem dropMigration_keeps (s : State) (p i : Nat) (hs : Keeps cq co s) : Keeps cq co (dropMigration s p i) := by
  unfold dropMigration
  repeat any_goals first
    | with_reducible assumption
    | with_reducible apply trimTables_keeps
    | with_reducible apply freeObject_keeps
    | with_reducible apply State.onBuffer_keeps
    | with_reducible apply State.draw_keeps
    | with_reducible apply foldl_keeps (Keeps cq co)
    | dsimp only
    | intro _ _ _
    | split
    | with_reducible apply Keeps.lit


theorem rewriteBuffer_keeps (s : State) (p i : Nat) (e : BufFields) (valid : Bool) (hs : Keeps cq co s) : Keeps cq co (rewriteBuffer s p i e valid) := by
  unfold rewriteBuffer
  repeat any_goals first
    | with_reducible assumption
    | with_reducible apply dropMigration_keeps
    | with_reducible apply State.onBuffer_keeps
    | with_reducible apply State.draw_keeps
    | dsimp only
    | intro _ _ _
    | split
    | with_reducible apply Keeps.lit


theorem setBuffer_keeps (s : State) (p i : Nat) (e : BufFields) (valid : Bool) (hs : Keeps cq co s) : Keeps cq co (setBuffer s p i e valid) := by
  unfold setBuffer
  repeat any_goals first
    | with_reducible assumption
    | with_reducible apply rewriteBuffer_keeps
    | with_reducible apply State.draw_keeps
    | dsimp only
    | intro _ _ _
    | split


theorem pushWrite_keeps (p offset : Nat) (data : List Byte) (s : State) (hs : Keeps cq co s) : Keeps cq co (pushWrite p offset data s) := by
  unfold pushWrite
  repeat any_goals first
    | with_reducible assumption
    | with_reducible apply State.onFunc_keeps
    | with_reducible apply pcieIn_keeps
    | with_reducible apply State.onPart_keeps
    | with_reducible apply State.draw_keeps
    | dsimp only
    | intro _ _ _
    | split
    | with_reducible apply Keeps.lit


theorem acctSnapshot_keeps (fromPf0 : Bool) (p : Nat) (s : State) (hs : Keeps cq co s) : Keeps cq co (acctSnapshot fromPf0 p s) := by
  unfold acctSnapshot
  repeat any_goals first
    | with_reducible assumption
    | with_reducible apply State.onPart_keeps
    | with_reducible apply State.draw_keeps
    | dsimp only
    | intro _ _ _
    | split
    | with_reducible apply Keeps.lit


theorem creditReturn_keeps (n : Nat) (s : State) (hs : Keeps cq co s) : Keeps cq co (creditReturn n s) := by
  unfold creditReturn
  repeat any_goals first
    | with_reducible assumption
    | with_reducible apply State.drainOut_keeps
    | with_reducible apply State.draw_keeps
    | dsimp only
    | intro _ _ _
    | split
    | with_reducible apply Keeps.lit


theorem execSqDoorbell_keeps (part slot offset size value : Nat) (s : State) (hs : Keeps cq co s) : OutKeeps cq co (execSqDoorbell part slot offset size value s) := by
  unfold execSqDoorbell
  repeat any_goals first
    | with_reducible assumption
    | with_reducible apply OutKeeps.next
    | intro _ _
    | with_reducible apply State.access_keeps
    | with_reducible apply sqDoorbell_keeps
    | with_reducible apply State.draw_keeps
    | dsimp only
    | intro _ _ _
    | split


theorem execInlineDoorbell_keeps (part slot offset : Nat) (data : List Byte) (s : State) (hs : Keeps cq co s) : OutKeeps cq co (execInlineDoorbell part slot offset data s) := by
  unfold execInlineDoorbell
  repeat any_goals first
    | with_reducible assumption
    | with_reducible apply OutKeeps.next
    | intro _ _
    | with_reducible apply State.access_keeps
    | with_reducible apply inlineDoorbell_keeps
    | with_reducible apply State.draw_keeps
    | dsimp only
    | intro _ _ _
    | split


theorem execCsqEnable_keeps (part value : Nat) (s : State) (hs : Keeps cq co s) : OutKeeps cq co (execCsqEnable part value s) := by
  unfold execCsqEnable
  repeat any_goals first
    | with_reducible assumption
    | with_reducible apply OutKeeps.next
    | intro _ _
    | with_reducible apply State.access_keeps
    | with_reducible apply csqEnable_keeps
    | with_reducible apply State.draw_keeps
    | dsimp only
    | intro _ _ _
    | split


theorem execCsqDisable_keeps (part value : Nat) (s : State) (hs : Keeps cq co s) : OutKeeps cq co (execCsqDisable part value s) := by
  unfold execCsqDisable
  repeat any_goals first
    | with_reducible assumption
    | with_reducible apply OutKeeps.next
    | intro _ _
    | with_reducible apply State.access_keeps
    | with_reducible apply csqDisable_keeps
    | with_reducible apply State.draw_keeps
    | dsimp only
    | intro _ _ _
    | split


theorem execCsqRingConfigWrite_keeps (part : Nat) (isBase : Bool) (value : Nat) (s : State) (hs : Keeps cq co s) : OutKeeps cq co (execCsqRingConfigWrite part isBase value s) := by
  unfold execCsqRingConfigWrite
  repeat any_goals first
    | with_reducible assumption
    | with_reducible apply OutKeeps.next
    | intro _ _
    | with_reducible apply State.access_keeps
    | with_reducible apply csqRingConfig_keeps
    | with_reducible apply State.draw_keeps
    | dsimp only
    | intro _ _ _
    | split


theorem execCommandFetch_keeps (part slot count : Nat) (defer : Bool) (s : State) (hs : Keeps cq co s) : OutKeeps cq co (execCommandFetch part slot count defer s) := by
  unfold execCommandFetch
  repeat any_goals first
    | with_reducible assumption
    | with_reducible apply OutKeeps.next
    | intro _ _
    | with_reducible apply commandFetch_keeps
    | with_reducible apply State.draw_keeps
    | dsimp only
    | intro _ _ _
    | split


theorem execHostReadCompletion_keeps (id : Nat) (result : ReadResult) (s : State) (hs : Keeps cq co s) : OutKeeps cq co (execHostReadCompletion id result s) := by
  unfold execHostReadCompletion
  repeat any_goals first
    | with_reducible assumption
    | with_reducible apply OutKeeps.next
    | intro _ _
    | with_reducible apply hostReadCompletion_keeps
    | with_reducible apply State.draw_keeps
    | dsimp only
    | intro _ _ _
    | split


theorem execCompletionTimeout_keeps (id : Nat) (s : State) (hs : Keeps cq co s) : OutKeeps cq co (execCompletionTimeout id s) := by
  unfold execCompletionTimeout
  repeat any_goals first
    | with_reducible assumption
    | with_reducible apply OutKeeps.next
    | intro _ _
    | with_reducible apply hostReadCompletion_keeps
    | with_reducible apply State.draw_keeps
    | dsimp only
    | intro _ _ _
    | split


theorem execIngressPolicerRelease_keeps (part id elapsedNs : Nat) (s : State) (hs : Keeps cq co s) : OutKeeps cq co (execIngressPolicerRelease part id elapsedNs s) := by
  unfold execIngressPolicerRelease
  repeat any_goals first
    | with_reducible assumption
    | with_reducible apply OutKeeps.next
    | intro _ _
    | with_reducible apply ingressRelease_keeps
    | with_reducible apply State.draw_keeps
    | dsimp only
    | intro _ _ _
    | split


theorem execEqEnable_keeps (fn queue value : Nat) (s : State) (hs : Keeps cq co s) : OutKeeps cq co (execEqEnable fn queue value s) := by
  unfold execEqEnable
  repeat any_goals first
    | with_reducible assumption
    | with_reducible apply OutKeeps.next
    | intro _ _
    | with_reducible apply State.access_keeps
    | with_reducible apply eqEnable_keeps
    | with_reducible apply State.draw_keeps
    | dsimp only
    | intro _ _ _
    | split


theorem execEqDisable_keeps (fn queue value : Nat) (s : State) (hs : Keeps cq co s) : OutKeeps cq co (execEqDisable fn queue value s) := by
  unfold execEqDisable
  repeat any_goals first
    | with_reducible assumption
    | with_reducible apply OutKeeps.next
    | intro _ _
    | with_reducible apply State.access_keeps
    | with_reducible apply eqDisable_keeps
    | with_reducible apply State.draw_keeps
    | dsimp only
    | intro _ _ _
    | split


theorem execEqHeadWrite_keeps (fn queue value : Nat) (s : State) (hs : Keeps cq co s) : OutKeeps cq co (execEqHeadWrite fn queue value s) := by
  unfold execEqHeadWrite
  repeat any_goals first
    | with_reducible assumption
    | with_reducible apply OutKeeps.next
    | intro _ _
    | with_reducible apply State.access_keeps
    | with_reducible apply eqHeadWrite_keeps
    | with_reducible apply State.draw_keeps
    | dsimp only
    | intro _ _ _
    | split


theorem execEqArm_keeps (fn queue : Nat) (s : State) (hs : Keeps cq co s) : OutKeeps cq co (execEqArm fn queue s) := by
  unfold execEqArm
  repeat any_goals first
    | with_reducible assumption
    | with_reducible apply OutKeeps.next
    | intro _ _
    | with_reducible apply State.access_keeps
    | with_reducible apply eqArm_keeps
    | with_reducible apply State.draw_keeps
    | dsimp only
    | intro _ _ _
    | split


theorem execCoalesceTimerExpiry_keeps (fn queue : Nat) (s : State) (hs : Keeps cq co s) : OutKeeps cq co (execCoalesceTimerExpiry fn queue s) := by
  unfold execCoalesceTimerExpiry
  repeat any_goals first
    | with_reducible assumption
    | with_reducible apply OutKeeps.next
    | intro _ _
    | with_reducible apply coalesceTimer_keeps
    | with_reducible apply State.draw_keeps
    | dsimp only
    | intro _ _ _
    | split


theorem execMsixUnmask_keeps (fn vector : Nat) (s : State) (hs : Keeps cq co s) : OutKeeps cq co (execMsixUnmask fn vector s) := by
  unfold execMsixUnmask
  repeat any_goals first
    | with_reducible assumption
    | with_reducible apply OutKeeps.next
    | intro _ _
    | with_reducible apply State.access_keeps
    | with_reducible apply msixUnmask_keeps
    | with_reducible apply State.draw_keeps
    | dsimp only
    | intro _ _ _
    | split


theorem execBufferPost_keeps (part index : Nat) (e : BufFields) (s : State) (hs : Keeps cq co s) : OutKeeps cq co (execBufferPost part index e s) := by
  unfold execBufferPost
  repeat any_goals first
    | with_reducible assumption
    | with_reducible apply OutKeeps.next
    | intro _ _
    | with_reducible apply State.access_keeps
    | with_reducible apply setBuffer_keeps
    | with_reducible apply State.draw_keeps
    | dsimp only
    | intro _ _ _
    | split


theorem execBufferWithdraw_keeps (part index : Nat) (e : BufFields) (s : State) (hs : Keeps cq co s) : OutKeeps cq co (execBufferWithdraw part index e s) := by
  unfold execBufferWithdraw
  repeat any_goals first
    | with_reducible assumption
    | with_reducible apply OutKeeps.next
    | intro _ _
    | with_reducible apply State.access_keeps
    | with_reducible apply setBuffer_keeps
    | with_reducible apply State.draw_keeps
    | dsimp only
    | intro _ _ _
    | split


theorem execPushWindowWrite_keeps (part offset : Nat) (data : List Byte) (s : State) (hs : Keeps cq co s) : OutKeeps cq co (execPushWindowWrite part offset data s) := by
  unfold execPushWindowWrite
  repeat any_goals first
    | with_reducible assumption
    | with_reducible apply OutKeeps.next
    | intro _ _
    | with_reducible apply State.access_keeps
    | with_reducible apply pushWrite_keeps
    | with_reducible apply State.draw_keeps
    | dsimp only
    | intro _ _ _
    | split


theorem execAcctSnapshotLatch_keeps (fromPf0 : Bool) (part : Nat) (s : State) (hs : Keeps cq co s) : OutKeeps cq co (execAcctSnapshotLatch fromPf0 part s) := by
  unfold execAcctSnapshotLatch
  repeat any_goals first
    | with_reducible assumption
    | with_reducible apply OutKeeps.next
    | intro _ _
    | with_reducible apply State.access_keeps
    | with_reducible apply acctSnapshot_keeps
    | with_reducible apply State.draw_keeps
    | dsimp only
    | intro _ _ _
    | split


theorem execPciePostedCreditReturn_keeps (credits : Nat) (s : State) (hs : Keeps cq co s) : OutKeeps cq co (execPciePostedCreditReturn credits s) := by
  unfold execPciePostedCreditReturn
  repeat any_goals first
    | with_reducible assumption
    | with_reducible apply OutKeeps.next
    | intro _ _
    | with_reducible apply creditReturn_keeps
    | with_reducible apply State.draw_keeps
    | dsimp only
    | intro _ _ _
    | split


end Sys2Proof.Machine
end

