-- ==== Sys2Proof/Laws/Keeps/Migrate.lean ====
section
/-! SUPPORT. What the operations of Machine/Migrate.lean keep. -/

namespace Sys2Proof.Machine

open Sys2Proof

variable {cq : List Instr} {co : Oxsis}

theorem sendParts_keeps (p qp group buf : Nat) (c : CmdRef)  : ∀ (v0 : List (Nat × List Byte)) (v1 : State), Keeps cq co v1 → Keeps cq co (sendParts p qp group buf c v0 v1) := by
  intro v0
  induction v0 with
  | nil =>
    intro v1 hv1
    unfold sendParts
    repeat any_goals first
      | with_reducible assumption
      | with_reducible apply enqueueBytes_keeps
      | with_reducible apply State.draw_keeps
      | dsimp only
      | intro _ _ _
      | split
  | cons b r ih =>
    intro v1 hv1
    unfold sendParts
    repeat any_goals first
      | assumption
      | with_reducible apply ih
      | with_reducible apply enqueueBytes_keeps
      | with_reducible apply State.draw_keeps
      | dsimp only
      | intro _ _ _
      | split


theorem startSeqMigrate_keeps (s : State) (c : CmdStep) (x1 : Slot) (f : Flight) (hs : Keeps cq co s) : StartKeeps cq co (startSeqMigrate s c x1 f) := by
  unfold startSeqMigrate
  repeat any_goals first
    | with_reducible assumption
    | with_reducible apply StartKeeps.reject
    | with_reducible apply StartKeeps.go
    | with_reducible apply wakeThen_keeps
    | with_reducible refine waitSegments_keeps_eq ‹_› ?_
    | with_reducible apply waitFree_keeps
    | with_reducible apply cmdReads_keeps
    | with_reducible refine cmdReads_keeps_eq_done ‹_› ?_
    | with_reducible refine cmdReads_keeps_eq_wait ‹_› ?_
    | with_reducible refine cmdReads_keeps_eq_fails ‹_› ?_
    | with_reducible apply pinFor_keeps
    | with_reducible apply t1Read_keeps
    | with_reducible apply commandGroup_keeps
    | with_reducible refine commandGroup_keeps_eq ‹_› ?_
    | with_reducible apply sendParts_keeps
    | with_reducible apply setStage_keeps
    | with_reducible apply setPlan_keeps
    | with_reducible apply State.draw_keeps
    | dsimp only
    | intro _ _ _
    | split
    | intro _ _


theorem startSeqMigrate_keeps_eq_reject {s : State} {c : CmdStep} {x1 : Slot} {f : Flight} {t : State} {a0} (e : startSeqMigrate s c x1 f = .reject t a0) (hs : Keeps cq co s) : Keeps cq co t := by
  have k := startSeqMigrate_keeps s c x1 f hs
  rw [e] at k
  cases k
  assumption

theorem startSeqMigrate_keeps_eq_go {s : State} {c : CmdStep} {x1 : Slot} {f : Flight} {t : State}  (e : startSeqMigrate s c x1 f = .go t) (hs : Keeps cq co s) : Keeps cq co t := by
  have k := startSeqMigrate_keeps s c x1 f hs
  rw [e] at k
  cases k
  assumption

theorem commitSeqMigrate_keeps (s : State) (c : CmdRef) (x1 : Slot) (f : Flight) (hs : Keeps cq co s) : CommitKeeps cq co (commitSeqMigrate s c x1 f) := by
  unfold commitSeqMigrate
  repeat any_goals first
    | with_reducible assumption
    | with_reducible apply CommitKeeps.hold
    | with_reducible apply CommitKeeps.kill
    | with_reducible apply CommitKeeps.reject
    | with_reducible apply CommitKeeps.done
    | with_reducible apply dropGroup_keeps
    | with_reducible apply State.hold_keeps
    | with_reducible apply sendParts_keeps
    | with_reducible apply setStage_keeps
    | with_reducible apply setPlan_keeps
    | with_reducible apply enqueue_keeps
    | with_reducible apply promote_keeps
    | with_reducible apply closeSeq_keeps
    | with_reducible apply State.draw_keeps
    | with_reducible apply foldl_keeps (Keeps cq co)
    | dsimp only
    | intro _ _ _
    | split


theorem commitSeqMigrate_keeps_eq_hold {s : State} {c : CmdRef} {x1 : Slot} {f : Flight} {t : State}  (e : commitSeqMigrate s c x1 f = .hold t) (hs : Keeps cq co s) : Keeps cq co t := by
  have k := commitSeqMigrate_keeps s c x1 f hs
  rw [e] at k
  cases k
  assumption

theorem commitSeqMigrate_keeps_eq_kill {s : State} {c : CmdRef} {x1 : Slot} {f : Flight} {t : State}  (e : commitSeqMigrate s c x1 f = .kill t) (hs : Keeps cq co s) : Keeps cq co t := by
  have k := commitSeqMigrate_keeps s c x1 f hs
  rw [e] at k
  cases k
  assumption

theorem commitSeqMigrate_keeps_eq_reject {s : State} {c : CmdRef} {x1 : Slot} {f : Flight} {t : State} {a0} (e : commitSeqMigrate s c x1 f = .reject t a0) (hs : Keeps cq co s) : Keeps cq co t := by
  have k := commitSeqMigrate_keeps s c x1 f hs
  rw [e] at k
  cases k
  assumption

theorem commitSeqMigrate_keeps_eq_done {s : State} {c : CmdRef} {x1 : Slot} {f : Flight} {t : State} {a0} {a1} {a2} {a3} (e : commitSeqMigrate s c x1 f = .done t a0 a1 a2 a3) (hs : Keeps cq co s) : Keeps cq co t := by
  have k := commitSeqMigrate_keeps s c x1 f hs
  rw [e] at k
  cases k
  assumption

theorem reserveFrames_keeps (p home : Nat) (l : List Nat) : ∀ s : State, Keeps cq co s → Keeps cq co (reserveFrames p home l s).1 := by
  induction l with
  | nil => intro s hs; exact hs
  | cons n r ih =>
    intro s hs
    have h1 := reclaim_keeps p home n (reclaimTries (s.part p)) s hs
    rw [reserveFrames]
    generalize reclaim p home n (reclaimTries (s.part p)) s = t at h1 ⊢
    obtain ⟨t, o⟩ := t
    cases o with
    | none => exact h1
    | some f =>
      have h2 := ih _ (State.onPart_keeps _ p (fun x => putDram x f n []) h1)
      dsimp only at h2 ⊢
      generalize reserveFrames p home r (t.onPart p fun x => putDram x f n []) = u at h2 ⊢
      obtain ⟨u, o⟩ := u
      cases o with
      | none => exact freeObject_keeps _ _ _ h2
      | some l => exact h2

theorem reserveMigration_keeps (s : State) (p : Nat) (h : List Byte) (hs : Keeps cq co s) : Keeps cq co (reserveMigration s p h).1 := by
  unfold reserveMigration
  split
  · exact hs
  · dsimp only
    split
    · exact hs
    · generalize hr : reserveFrames p _ _ s = r
      have h1 : Keeps cq co r.1 := hr ▸ reserveFrames_keeps _ _ _ _ hs
      obtain ⟨t, o⟩ := r
      cases o with
      | none => exact h1
      | some l =>
        dsimp only
        exact State.onPart_keeps _ _ _ h1

theorem reserveMigration_keeps_eq {s : State} {p : Nat} {h : List Byte} {t : State} {a} (e : reserveMigration s p h = (t, a))
    (hs : Keeps cq co s) : Keeps cq co t := by
  have k := reserveMigration_keeps s p h hs
  rw [e] at k
  exact k

theorem takeSet_keeps (s : State) (p : Nat) (b : Buffer) (g : Migration) (k : Nat) (d : BitVec 128) (hs : Keeps cq co s) : Keeps cq co (takeSet s p b g k d).1 := by
  unfold takeSet
  repeat any_goals first
    | with_reducible assumption
    | with_reducible apply newObject_keeps
    | with_reducible apply State.onPart_keeps
    | with_reducible apply State.draw_keeps
    | with_reducible apply foldl_keeps (Keeps cq co)
    | dsimp only
    | intro _ _ _
    | split
    | with_reducible apply Keeps.lit


theorem takeSet_keeps_eq {s : State} {p : Nat} {b : Buffer} {g : Migration} {k : Nat} {d : BitVec 128} {t : State} {a} (e : takeSet s p b g k d = (t, a)) (hs : Keeps cq co s) : Keeps cq co t := by
  have k := takeSet_keeps s p b g k d hs
  rw [e] at k
  exact k

theorem takeSets_keeps (p : Nat) (b : Buffer) (g : Migration)  : ∀ (v0 : Nat) (v1 : Nat) (v2 : Bool) (v3 : BitVec 128) (v4 : State), Keeps cq co v4 → Keeps cq co (takeSets p b g v0 v1 v2 v3 v4).1 := by
  intro v0
  induction v0 with
  | zero =>
    intro v1 v2 v3 v4 hv4
    unfold takeSets
    repeat any_goals first
      | with_reducible assumption
      | with_reducible apply freeObject_keeps
      | with_reducible apply addRef_keeps
      | with_reducible apply takeSet_keeps
      | with_reducible refine takeSet_keeps_eq ‹_› ?_
      | with_reducible apply State.draw_keeps
      | with_reducible apply foldl_keeps (Keeps cq co)
      | dsimp only
      | intro _ _ _
      | split
  | succ n ih =>
    intro v1 v2 v3 v4 hv4
    unfold takeSets
    repeat any_goals first
      | assumption
      | with_reducible apply ih
      | with_reducible apply freeObject_keeps
      | with_reducible apply addRef_keeps
      | with_reducible apply takeSet_keeps
      | with_reducible refine takeSet_keeps_eq ‹_› ?_
      | with_reducible apply State.draw_keeps
      | with_reducible apply foldl_keeps (Keeps cq co)
      | dsimp only
      | intro _ _ _
      | split


theorem returnToFlash_keeps (s : State) (p : Nat) (b : Buffer) (g : Migration) (pt : List PtEntry) (hs : Keeps cq co s) : Keeps cq co (returnToFlash s p b g pt) := by
  unfold returnToFlash
  repeat any_goals first
    | with_reducible assumption
    | with_reducible apply onMove_keeps
    | with_reducible apply selectMove_keeps
    | with_reducible apply State.draw_keeps
    | with_reducible apply foldl_keeps (Keeps cq co)
    | dsimp only
    | intro _ _ _
    | split
    | with_reducible apply Keeps.lit


theorem commitMigration_keeps (s : State) (p k : Nat) (b : Buffer) (g : Migration) (hs : Keeps cq co s) :
    Keeps cq co (commitMigration s p k b g).state := by
  have h1 := takeSets_keeps p b g (g.length / 256) 0 true 0 _ (State.onBuffer_keeps s p k (fun b => { b with migration := none }) hs)
  have h2 := foldl_keeps (Keeps cq co)
    (fun s (f : Nat × Nat) => newObject s p f.1 ((s.part p).model g.model).stagingFrames (b.bytes (tailAt ((s.part p).model g.model) f.2)
      ((s.part p).model g.model).stagingBytes)) (fun s f h => newObject_keeps _ _ _ _ _ h) g.tails.zipIdx _ h1
  exact trimTables_keeps _ _ (returnToFlash_keeps _ _ _ _ _ (putSeq_keeps _ _ _ _ (foldl_keeps (Keeps cq co) _ (fun s f h => newObject_keeps _ _ _ _ _ h) _ _ h1)))

end Sys2Proof.Machine
end

