-- ==== Sys2Proof/Laws/Keeps/Fabric.lean ====
section
/-! SUPPORT. What the operations of Machine/Fabric.lean keep. -/

namespace Sys2Proof.Machine

open Sys2Proof

variable {cq : List Instr} {co : Oxsis}

theorem tally_keeps (s : State) (p : Nat) (g : PartCounters → PartCounters) (hs : Keeps cq co s) : Keeps cq co (tally s p g) := by
  unfold tally
  repeat any_goals first
    | with_reducible assumption
    | with_reducible apply State.onPart_keeps
    | with_reducible apply onCnt_keeps
    | with_reducible apply State.draw_keeps
    | dsimp only
    | intro _ _ _
    | split


theorem countRx_keeps (s : State) (pk : Packet) (hs : Keeps cq co s) : Keeps cq co (countRx s pk) := by
  unfold countRx
  repeat any_goals first
    | with_reducible assumption
    | with_reducible apply useQp_keeps
    | with_reducible apply State.onAcct_keeps
    | with_reducible apply State.draw_keeps
    | dsimp only
    | intro _ _ _
    | split
    | with_reducible apply Keeps.lit


theorem park_keeps (s : State) (pk : Packet) (hs : Keeps cq co s) : Keeps cq co (park s pk) := by
  unfold park
  repeat any_goals first
    | with_reducible assumption
    | with_reducible apply State.onQp_keeps
    | with_reducible apply State.draw_keeps
    | dsimp only
    | intro _ _ _
    | split
    | with_reducible apply Keeps.lit


theorem sendControl_keeps (s : State) (p i type : Nat) (hs : Keeps cq co s) : Keeps cq co (sendControl s p i type) := by
  unfold sendControl
  repeat any_goals first
    | with_reducible assumption
    | with_reducible apply newGroup_keeps
    | with_reducible refine newGroup_keeps_eq ‹_› ?_
    | with_reducible apply enqueue_keeps
    | with_reducible apply State.draw_keeps
    | dsimp only
    | intro _ _ _
    | split
    | with_reducible apply Keeps.lit


theorem sendNak_keeps (s : State) (pk : Packet) (cause : Nat) (hs : Keeps cq co s) : Keeps cq co (sendNak s pk cause) := by
  unfold sendNak
  repeat any_goals first
    | with_reducible assumption
    | with_reducible apply route_keeps
    | with_reducible apply sendProtocol_keeps
    | with_reducible apply State.onQp_keeps
    | with_reducible apply State.draw_keeps
    | dsimp only
    | intro _ _ _
    | split
    | with_reducible apply Keeps.lit


theorem reportRefusal_keeps (s : State) (pk : Packet) (cause : Nat) (hs : Keeps cq co s) : Keeps cq co (reportRefusal s pk cause) := by
  unfold reportRefusal
  repeat any_goals first
    | with_reducible assumption
    | with_reducible apply tally_keeps
    | with_reducible apply sendControl_keeps
    | with_reducible apply fabricRecord_keeps
    | with_reducible apply State.draw_keeps
    | dsimp only
    | intro _ _ _
    | split
    | with_reducible apply Keeps.lit


theorem sendCredit_keeps (s : State) (p i k : Nat) (hs : Keeps cq co s) : Keeps cq co (sendCredit s p i k) := by
  unfold sendCredit
  repeat any_goals first
    | with_reducible assumption
    | with_reducible apply raiseGrant_keeps
    | with_reducible apply sendProtocol_keeps
    | with_reducible apply State.onQp_keeps
    | with_reducible apply State.draw_keeps
    | dsimp only
    | intro _ _ _
    | split
    | with_reducible apply Keeps.lit


theorem settleFlow_keeps (s : State) (p i k : Nat) (pk : Packet) (hs : Keeps cq co s) : Keeps cq co (settleFlow s p i k pk) := by
  unfold settleFlow
  repeat any_goals first
    | with_reducible assumption
    | with_reducible apply State.onQp_keeps
    | with_reducible apply sendAck_keeps
    | with_reducible apply sendCredit_keeps
    | with_reducible apply State.draw_keeps
    | dsimp only
    | intro _ _ _
    | split


theorem refuse_keeps (s : State) (pk : Packet) (k cause : Nat) (hs : Keeps cq co s) : Keeps cq co (refuse s pk k cause) := by
  unfold refuse
  repeat any_goals first
    | with_reducible assumption
    | with_reducible apply settleFlow_keeps
    | with_reducible apply reportRefusal_keeps
    | with_reducible apply sendNak_keeps
    | with_reducible apply State.draw_keeps
    | dsimp only
    | intro _ _ _
    | split


theorem claimBuffer_keeps (s : State) (pk : Packet) (hs : Keeps cq co s) : Keeps cq co (claimBuffer s pk) := by
  unfold claimBuffer
  repeat any_goals first
    | with_reducible assumption
    | with_reducible apply State.onBuffer_keeps
    | with_reducible apply State.draw_keeps
    | dsimp only
    | intro _ _ _
    | split
    | with_reducible apply Keeps.lit


theorem arrive_keeps (s : State) (pk : Packet) (hs : Keeps cq co s) : Keeps cq co (arrive s pk) := by
  unfold arrive
  split
  · exact .ite hs (reportRefusal_keeps _ _ _ (sendNak_keeps _ _ _ hs))
  · split
    · exact tally_keeps _ _ _ hs
    · split
      · exact .ite hs (reportRefusal_keeps _ _ _ (sendNak_keeps _ _ _ hs))
      · split
        · exact sendAck_keeps _ _ _ _ hs
        · split
          · exact tally_keeps _ _ _ hs
          · exact sendAck_keeps _ _ _ _ hs
          · split
            · exact refuse_keeps _ _ _ _ hs
            · exact State.onQp_keeps _ _ _ _ (claimBuffer_keeps _ _ hs)

theorem dataPacket_keeps (op : Nat) (pk : Packet) (s : State) (hs : Keeps cq co s) : Keeps cq co (dataPacket op pk s) := by
  unfold dataPacket
  repeat any_goals first
    | with_reducible assumption
    | with_reducible apply tally_keeps
    | with_reducible apply countRx_keeps
    | with_reducible apply park_keeps
    | with_reducible apply arrive_keeps
    | with_reducible apply State.draw_keeps
    | dsimp only
    | intro _ _ _
    | split
    | with_reducible apply Keeps.lit


theorem landBytes_keeps (s : State) (p k : Nat) (b : Buffer) (pk : Packet) (hs : Keeps cq co s) : Keeps cq co (landBytes s p k b pk) := by
  unfold landBytes
  repeat any_goals first
    | with_reducible assumption
    | with_reducible apply State.issue_keeps
    | with_reducible apply State.onPart_keeps
    | with_reducible apply t1Write_keeps
    | with_reducible apply State.onBuffer_keeps
    | with_reducible apply State.draw_keeps
    | with_reducible apply foldl_keeps (Keeps cq co)
    | dsimp only
    | intro _ _ _
    | split
    | with_reducible apply Keeps.lit


theorem completeGroup_keeps (s : State) (p k : Nat) (pk : Packet) (newHandle : Nat) (hs : Keeps cq co s) : Keeps cq co (completeGroup s p k pk newHandle) := by
  unfold completeGroup
  repeat any_goals first
    | with_reducible assumption
    | with_reducible apply addCounter_keeps
    | with_reducible apply postRecord_keeps
    | with_reducible apply rewriteBuffer_keeps
    | with_reducible apply State.draw_keeps
    | dsimp only
    | intro _ _ _
    | split


theorem landWrite_keeps (s : State) (p i k : Nat) (pk : Packet) (hs : Keeps cq co s) : Keeps cq co (landWrite s p i k pk) := by
  have bytes : ∀ t n b, Keeps cq co t → Keeps cq co (landBytes t p n b pk) := fun t n b h => landBytes_keeps _ _ _ _ _ h
  unfold landWrite
  dsimp only
  split
  · exact refuse_keeps _ _ _ _ hs
  · split
    · split
      · exact refuse_keeps _ _ _ _ hs
      · have h1 := reserveMigration_keeps s p pk.payload hs
        split
        · exact refuse_keeps _ _ _ _ h1
        · exact settleFlow_keeps _ _ _ _ _ (bytes _ _ _ (State.onBuffer_keeps _ _ _ _ h1))
    · split
      · exact settleFlow_keeps _ _ _ _ _ (bytes _ _ _ hs)
      · split
        · split
          · exact refuse_keeps _ _ _ _ hs
          · exact settleFlow_keeps _ _ _ _ _ (sendControl_keeps _ _ _ _ (completeGroup_keeps _ _ _ _ _
              (commitMigration_keeps _ _ _ _ _ (bytes _ _ _ hs))))
        · exact settleFlow_keeps _ _ _ _ _ (completeGroup_keeps _ _ _ _ _ (bytes _ _ _ hs))

theorem landSend_keeps (s : State) (p i k : Nat) (pk : Packet) (hs : Keeps cq co s) : Keeps cq co (landSend s p i k pk) := by
  unfold landSend
  repeat any_goals first
    | with_reducible assumption
    | with_reducible apply settleFlow_keeps
    | with_reducible apply tally_keeps
    | with_reducible apply refuse_keeps
    | with_reducible apply landBytes_keeps
    | with_reducible apply completeGroup_keeps
    | with_reducible apply State.draw_keeps
    | dsimp only
    | intro _ _ _
    | split
    | with_reducible apply Keeps.lit


theorem takeRead_keeps (s : State) (p i k : Nat) (pk : Packet) (psn layer : Nat) (hs : Keeps cq co s) : Keeps cq co (takeRead s p i k pk psn layer).1 := by
  unfold takeRead
  repeat any_goals first
    | with_reducible assumption
    | with_reducible apply pinSet_keeps
    | with_reducible refine pinSet_keeps_eq ‹_› ?_
    | with_reducible apply newGroup_keeps
    | with_reducible refine newGroup_keeps_eq ‹_› ?_
    | with_reducible apply State.onQp_keeps
    | with_reducible apply unpinSet_keeps
    | with_reducible apply State.draw_keeps
    | dsimp only
    | intro _ _ _
    | split
    | with_reducible apply Keeps.lit


theorem takeRead_keeps_eq {s : State} {p i k : Nat} {pk : Packet} {psn layer : Nat} {t : State} {a} (e : takeRead s p i k pk psn layer = (t, a)) (hs : Keeps cq co s) : Keeps cq co t := by
  have k := takeRead_keeps s p i k pk psn layer hs
  rw [e] at k
  exact k

theorem awaitRead_keeps (s : State) (p i k : Nat) (pk : Packet) (v : Serving) (hs : Keeps cq co s) : Keeps cq co (awaitRead s p i k pk v) := by
  unfold awaitRead
  repeat any_goals first
    | with_reducible assumption
    | with_reducible apply settleFlow_keeps
    | with_reducible apply State.onQp_keeps
    | with_reducible apply State.draw_keeps
    | dsimp only
    | intro _ _ _
    | split
    | with_reducible apply Keeps.lit


theorem answerRead_keeps (s : State) (p i k : Nat) (pk : Packet) (v : Serving) (l : Loc) (hs : Keeps cq co s) : Keeps cq co (answerRead s p i k pk v l) := by
  unfold answerRead
  repeat any_goals first
    | with_reducible assumption
    | with_reducible apply settleFlow_keeps
    | with_reducible apply respondRead_keeps
    | with_reducible apply countTier_keeps
    | with_reducible apply State.draw_keeps
    | dsimp only
    | intro _ _ _
    | split


theorem serveRead_keeps (s : State) (p i k : Nat) (pk : Packet) (hs : Keeps cq co s) : Keeps cq co (serveRead s p i k pk) := by
  have h1 : ∀ psn layer, Keeps cq co (takeRead s p i k pk psn layer).1 := fun psn layer => takeRead_keeps s p i k pk psn layer hs
  unfold serveRead
  dsimp only
  split
  · exact refuse_keeps _ _ _ _ hs
  · split
    · exact answerRead_keeps _ _ _ _ _ _ _ (h1 _ _)
    · split
      · split
        · exact answerRead_keeps _ _ _ _ _ _ _ (h1 _ _)
        · exact awaitRead_keeps _ _ _ _ _ _ (h1 _ _)
      · split
        · rename_i e
          split at e
          · exact awaitRead_keeps _ _ _ _ _ _ (beginTent_keeps_eq e (h1 _ _))
          · cases e
        · split
          · exact awaitRead_keeps _ _ _ _ _ _ (readAt_keeps _ _ _ _ _ _ (h1 _ _))
          · exact State.onQp_keeps _ _ _ _ hs

theorem landResponse_keeps (s : State) (p i k : Nat) (pk : Packet) (hs : Keeps cq co s) : Keeps cq co (landResponse s p i k pk) := by
  unfold landResponse
  repeat any_goals first
    | with_reducible assumption
    | with_reducible apply tally_keeps
    | with_reducible apply settleFlow_keeps
    | with_reducible apply State.draw_keeps
    | dsimp only
    | intro _ _ _
    | split
    | with_reducible apply Keeps.lit


theorem packetLanding_keeps (p i seq : Nat) (s : State) (hs : Keeps cq co s) : Keeps cq co (packetLanding p i seq s) := by
  unfold packetLanding
  repeat any_goals first
    | with_reducible assumption
    | with_reducible apply State.onQp_keeps
    | with_reducible apply landWrite_keeps
    | with_reducible apply landSend_keeps
    | with_reducible apply serveRead_keeps
    | with_reducible apply landResponse_keeps
    | with_reducible apply State.draw_keeps
    | dsimp only
    | intro _ _ _
    | split
    | with_reducible apply Keeps.lit


theorem drainDone_keeps (s : State) (p i : Nat) (hs : Keeps cq co s) : Keeps cq co (drainDone s p i) := by
  unfold drainDone
  repeat any_goals first
    | with_reducible assumption
    | with_reducible apply dropAllPins_keeps
    | with_reducible apply sendProtocol_keeps
    | with_reducible apply State.onQp_keeps
    | with_reducible apply State.draw_keeps
    | with_reducible apply foldl_keeps (Keeps cq co)
    | dsimp only
    | intro _ _ _
    | split
    | with_reducible apply Keeps.lit


theorem delivered_keeps (s : State) (p i : Nat) (tk : Sent) (hs : Keeps cq co s) : Keeps cq co (delivered s p i tk) := by
  unfold delivered
  repeat any_goals first
    | with_reducible assumption
    | with_reducible apply tally_keeps
    | with_reducible apply State.onQp_keeps
    | with_reducible apply remoteStep_keeps
    | with_reducible apply State.draw_keeps
    | dsimp only
    | intro _ _ _
    | split
    | with_reducible apply Keeps.lit


theorem deliver'_keeps (s : State) (p i : Nat) (l : List Sent) (hs : Keeps cq co s) : Keeps cq co (deliver' s p i l) := by
  unfold deliver'
  repeat any_goals first
    | with_reducible assumption
    | with_reducible apply State.onQp_keeps
    | with_reducible apply drainDone_keeps
    | with_reducible apply dropReadPins_keeps
    | with_reducible apply delivered_keeps
    | with_reducible apply State.draw_keeps
    | with_reducible apply foldl_keeps (Keeps cq co)
    | dsimp only
    | intro _ _ _
    | split
    | with_reducible apply Keeps.lit


theorem tryReady_keeps (s : State) (p i : Nat) (hs : Keeps cq co s) : Keeps cq co (tryReady s p i) := by
  unfold tryReady
  repeat any_goals first
    | with_reducible assumption
    | with_reducible apply State.onQp_keeps
    | with_reducible apply State.draw_keeps
    | with_reducible apply foldl_keeps (Keeps cq co)
    | dsimp only
    | intro _ _ _
    | split
    | with_reducible apply Keeps.lit


theorem ackPacket_keeps (pk : Packet) (s : State) (hs : Keeps cq co s) : Keeps cq co (ackPacket pk s) := by
  unfold ackPacket
  repeat any_goals first
    | with_reducible assumption
    | with_reducible apply tally_keeps
    | with_reducible apply countRx_keeps
    | with_reducible apply tryReady_keeps
    | with_reducible apply State.onQp_keeps
    | with_reducible apply deliver'_keeps
    | with_reducible apply State.draw_keeps
    | dsimp only
    | intro _ _ _
    | split
    | with_reducible apply Keeps.lit


theorem creditPacket_keeps (pk : Packet) (s : State) (hs : Keeps cq co s) : Keeps cq co (creditPacket pk s) := by
  unfold creditPacket
  repeat any_goals first
    | with_reducible assumption
    | with_reducible apply tally_keeps
    | with_reducible apply countRx_keeps
    | with_reducible apply State.onQp_keeps
    | with_reducible apply State.draw_keeps
    | dsimp only
    | intro _ _ _
    | split
    | with_reducible apply Keeps.lit


theorem resend_keeps (p i : Nat) (tk : Sent) (s : State) (hs : Keeps cq co s) : Keeps cq co (resend p i tk s) := by
  unfold resend
  repeat any_goals first
    | with_reducible assumption
    | with_reducible apply qpError_keeps
    | with_reducible apply State.onQp_keeps
    | with_reducible apply tally_keeps
    | with_reducible apply State.onAcct_keeps
    | with_reducible apply route_keeps
    | with_reducible apply State.draw_keeps
    | dsimp only
    | intro _ _ _
    | split
    | with_reducible apply Keeps.lit


theorem retransmit_keeps (p i seq : Nat) (s : State) (hs : Keeps cq co s) : Keeps cq co (retransmit p i seq s) := by
  unfold retransmit
  repeat any_goals first
    | with_reducible assumption
    | with_reducible apply resend_keeps
    | with_reducible apply State.draw_keeps
    | dsimp only
    | intro _ _ _
    | split


theorem countNak_keeps (s : State) (pk : Packet) (i k : Nat) (hs : Keeps cq co s) : Keeps cq co (countNak s pk i k) := by
  unfold countNak
  repeat any_goals first
    | with_reducible assumption
    | with_reducible apply tally_keeps
    | with_reducible apply State.onQp_keeps
    | with_reducible apply State.draw_keeps
    | dsimp only
    | intro _ _ _
    | split
    | with_reducible apply Keeps.lit


theorem reportNak_keeps (s : State) (pk : Packet) (i : Nat) (q : Qp) (tk : Sent) (hs : Keeps cq co s) : Keeps cq co (reportNak s pk i q tk) := by
  unfold reportNak
  repeat any_goals first
    | with_reducible assumption
    | with_reducible apply fabricRecord_keeps
    | with_reducible apply State.draw_keeps
    | dsimp only
    | intro _ _ _
    | split


theorem endNaked_keeps (s : State) (p i : Nat) (tk : Sent) (hs : Keeps cq co s) : Keeps cq co (endNaked s p i tk) := by
  unfold endNaked
  repeat any_goals first
    | with_reducible assumption
    | with_reducible apply State.onQp_keeps
    | with_reducible apply remoteStep_keeps
    | with_reducible apply failGroup_keeps
    | with_reducible apply dropGroup_keeps
    | with_reducible apply State.draw_keeps
    | dsimp only
    | intro _ _ _
    | split
    | with_reducible apply Keeps.lit


theorem nakPacket.nakAt_keeps (pk : Packet) (i k : Nat) (q : Qp) (s : State) (hs : Keeps cq co s) :
    Keeps cq co (nakPacket.nakAt pk i k q s) := by
  have h1 := countNak_keeps s pk i k hs
  unfold nakPacket.nakAt
  dsimp only
  split
  · exact hs
  · split
    · exact tally_keeps _ _ _ hs
    · split
      · exact hs
      · split
        · exact resend_keeps _ _ _ _ hs
        · split
          · exact qpError_keeps _ _ _ _ _ h1
          · split
            · exact deliver'_keeps _ _ _ _ h1
            · exact drainDone_keeps _ _ _ (dropReadPins_keeps _ _ _ (endNaked_keeps _ _ _ _ (reportNak_keeps _ _ _ _ _ h1)))

theorem nakPacket_keeps (pk : Packet) (s : State) (hs : Keeps cq co s) : Keeps cq co (nakPacket pk s) := by
  have h1 := countRx_keeps s pk hs
  unfold nakPacket
  split
  · exact hs
  · split
    · exact tally_keeps _ _ _ hs
    · split
      · exact h1
      · exact nakPacket.nakAt_keeps _ _ _ _ _ h1

theorem connectPacket_keeps (pk : Packet) (s : State) (hs : Keeps cq co s) : Keeps cq co (connectPacket pk s) := by
  unfold connectPacket
  repeat any_goals first
    | with_reducible assumption
    | with_reducible apply tally_keeps
    | with_reducible apply countRx_keeps
    | with_reducible apply raiseGrant_keeps
    | with_reducible apply sendProtocol_keeps
    | with_reducible apply State.onQp_keeps
    | with_reducible apply tryReady_keeps
    | with_reducible apply State.draw_keeps
    | dsimp only
    | intro _ _ _
    | split
    | with_reducible apply Keeps.lit


theorem disconnectPacket_keeps (pk : Packet) (s : State) (hs : Keeps cq co s) : Keeps cq co (disconnectPacket pk s) := by
  unfold disconnectPacket
  repeat any_goals first
    | with_reducible assumption
    | with_reducible apply tally_keeps
    | with_reducible apply countRx_keeps
    | with_reducible apply qpError_keeps
    | with_reducible apply State.draw_keeps
    | dsimp only
    | intro _ _ _
    | split
    | with_reducible apply Keeps.lit


theorem makeResident_keeps_eq {s : State} {p i : Nat} {t : State} (e : makeResident s p i = some t) (hs : Keeps cq co s) : Keeps cq co t := by
  have h1 : Keeps cq co { s with uses := s.uses + 1 } := .lit hs
  unfold makeResident at e
  dsimp only at e
  split at e
  · cases e
  split at e
  · cases e
    exact State.onQp_keeps _ _ _ _ h1
  · simp only [Option.map_eq_some_iff] at e
    obtain ⟨v, _, rfl⟩ := e
    exact State.onQp_keeps _ _ _ _ (State.onQp_keeps _ _ _ _ h1)

theorem replayParked_keeps (s : State) (pk : Packet) (hs : Keeps cq co s) : Keeps cq co (replayParked s pk) := by
  unfold replayParked
  repeat any_goals first
    | with_reducible assumption
    | with_reducible apply arrive_keeps
    | with_reducible apply State.draw_keeps
    | dsimp only
    | intro _ _ _
    | split


theorem sendConnects_keeps (s : State) (p i : Nat) (hs : Keeps cq co s) : Keeps cq co (sendConnects s p i) := by
  unfold sendConnects
  repeat any_goals first
    | with_reducible assumption
    | with_reducible apply sendProtocol_keeps
    | with_reducible apply State.draw_keeps
    | with_reducible apply foldl_keeps (Keeps cq co)
    | dsimp only
    | intro _ _ _
    | split
    | with_reducible apply Keeps.lit


theorem beginConnect_keeps (s : State) (p i : Nat) (hs : Keeps cq co s) : Keeps cq co (beginConnect s p i) := by
  unfold beginConnect
  repeat any_goals first
    | with_reducible assumption
    | with_reducible apply sendConnects_keeps
    | with_reducible apply State.onQp_keeps
    | with_reducible apply State.draw_keeps
    | dsimp only
    | intro _ _ _
    | split
    | with_reducible apply Keeps.lit


theorem contextFetched_keeps (p i : Nat) (r : ReadResult) (s : State) (hs : Keeps cq co s) : Keeps cq co (contextFetched p i r s) := by
  unfold contextFetched
  repeat any_goals first
    | with_reducible assumption
    | with_reducible refine makeResident_keeps_eq ‹_› ?_
    | with_reducible apply beginConnect_keeps
    | with_reducible apply State.onPart_keeps
    | with_reducible apply replayParked_keeps
    | with_reducible apply State.onQp_keeps
    | with_reducible apply State.draw_keeps
    | with_reducible apply foldl_keeps (Keeps cq co)
    | dsimp only
    | intro _ _ _
    | split
    | with_reducible apply Keeps.lit


theorem qpConnect_keeps (p i : Nat) (s : State) (hs : Keeps cq co s) : Keeps cq co (qpConnect p i s) := by
  unfold qpConnect
  repeat any_goals first
    | with_reducible assumption
    | with_reducible apply State.onPart_keeps
    | with_reducible apply State.onQp_keeps
    | with_reducible refine makeResident_keeps_eq ‹_› ?_
    | with_reducible apply beginConnect_keeps
    | with_reducible apply State.draw_keeps
    | dsimp only
    | intro _ _ _
    | split
    | with_reducible apply Keeps.lit


theorem qpDisconnect_keeps (p i : Nat) (s : State) (hs : Keeps cq co s) : Keeps cq co (qpDisconnect p i s) := by
  unfold qpDisconnect
  repeat any_goals first
    | with_reducible assumption
    | with_reducible apply State.onPart_keeps
    | with_reducible apply State.onQp_keeps
    | with_reducible apply drainDone_keeps
    | with_reducible apply dropAllPins_keeps
    | with_reducible apply sendControl_keeps
    | with_reducible apply State.draw_keeps
    | dsimp only
    | intro _ _ _
    | split
    | with_reducible apply Keeps.lit


theorem qpResetCmd_keeps (p i : Nat) (s : State) (hs : Keeps cq co s) : Keeps cq co (qpResetCmd p i s) := by
  unfold qpResetCmd
  repeat any_goals first
    | with_reducible assumption
    | with_reducible apply State.onPart_keeps
    | with_reducible apply State.onQp_keeps
    | with_reducible apply State.draw_keeps
    | dsimp only
    | intro _ _ _
    | split
    | with_reducible apply Keeps.lit


theorem connectRetry_keeps (p i : Nat) (s : State) (hs : Keeps cq co s) : Keeps cq co (connectRetry p i s) := by
  unfold connectRetry
  repeat any_goals first
    | with_reducible assumption
    | with_reducible apply sendConnects_keeps
    | with_reducible apply State.draw_keeps
    | dsimp only
    | intro _ _ _
    | split


theorem ackTimer_keeps (p i : Nat) (s : State) (hs : Keeps cq co s) : Keeps cq co (ackTimer p i s) := by
  unfold ackTimer
  repeat any_goals first
    | with_reducible assumption
    | with_reducible apply sendAck_keeps
    | with_reducible apply State.draw_keeps
    | with_reducible apply foldl_keeps (Keeps cq co)
    | dsimp only
    | intro _ _ _
    | split


theorem egressRelease_keeps (p i ns : Nat) (s : State) (hs : Keeps cq co s) : Keeps cq co (egressRelease p i ns s) := by
  unfold egressRelease
  repeat any_goals first
    | with_reducible assumption
    | with_reducible apply sendNext_keeps
    | with_reducible apply State.onPart_keeps
    | with_reducible apply State.draw_keeps
    | dsimp only
    | intro _ _ _
    | split
    | with_reducible apply Keeps.lit


theorem replayRequest_keeps (n lack : Nat) (s : State) (hs : Keeps cq co s) : Keeps cq co (replayRequest n lack s) := by
  unfold replayRequest
  repeat any_goals first
    | with_reducible assumption
    | with_reducible apply State.onPort_keeps
    | with_reducible apply State.onFabric_keeps
    | with_reducible apply State.draw_keeps
    | dsimp only
    | intro _ _ _
    | split
    | with_reducible apply Keeps.lit


theorem creditFrame_keeps (n vc credits lack : Nat) (s : State) (hs : Keeps cq co s) : Keeps cq co (creditFrame n vc credits lack s) := by
  unfold creditFrame
  repeat any_goals first
    | with_reducible assumption
    | with_reducible apply drainPort_keeps
    | with_reducible apply State.onPort_keeps
    | with_reducible apply State.draw_keeps
    | dsimp only
    | intro _ _ _
    | split
    | with_reducible apply Keeps.lit


theorem pfcFrame_keeps (u mask : Nat) (s : State) (hs : Keeps cq co s) : Keeps cq co (pfcFrame u mask s) := by
  unfold pfcFrame
  repeat any_goals first
    | with_reducible assumption
    | with_reducible apply drainPort_keeps
    | with_reducible apply State.onPort_keeps
    | with_reducible apply State.draw_keeps
    | dsimp only
    | intro _ _ _
    | split
    | with_reducible apply Keeps.lit


theorem setRing_keeps (s : State) (live : List Nat) (hs : Keeps cq co s) : Keeps cq co (setRing s live) := by
  unfold setRing
  repeat any_goals first
    | with_reducible assumption
    | with_reducible apply State.onFabric_keeps
    | with_reducible apply State.draw_keeps
    | dsimp only
    | intro _ _ _
    | split
    | with_reducible apply Keeps.lit


theorem joinSet_keeps (s : State) (hs : Keeps cq co s) : Keeps cq co (joinSet s) := by
  unfold joinSet
  repeat any_goals first
    | with_reducible assumption
    | with_reducible apply State.onFabric_keeps
    | with_reducible apply State.draw_keeps
    | dsimp only
    | intro _ _ _
    | split
    | with_reducible apply Keeps.lit


theorem isolate_keeps (s : State) (hs : Keeps cq co s) : Keeps cq co (isolate s) := by
  unfold isolate
  repeat any_goals first
    | with_reducible assumption
    | with_reducible apply State.onPort_keeps
    | with_reducible apply State.onFabric_keeps
    | with_reducible apply State.draw_keeps
    | with_reducible apply foldl_keeps (Keeps cq co)
    | dsimp only
    | intro _ _ _
    | split
    | with_reducible apply Keeps.lit


theorem joinClear_keeps (s : State) (hs : Keeps cq co s) : Keeps cq co (joinClear s) := by
  unfold joinClear
  repeat any_goals first
    | with_reducible assumption
    | with_reducible apply isolate_keeps
    | with_reducible apply State.onFabric_keeps
    | with_reducible apply State.draw_keeps
    | dsimp only
    | intro _ _ _
    | split
    | with_reducible apply Keeps.lit


theorem linkTrained_keeps (n : Nat) (live : List Nat) (s : State) (hs : Keeps cq co s) : Keeps cq co (linkTrained n live s) := by
  unfold linkTrained
  repeat any_goals first
    | with_reducible assumption
    | with_reducible apply State.onPort_keeps
    | with_reducible apply setRing_keeps
    | with_reducible apply State.draw_keeps
    | dsimp only
    | intro _ _ _
    | split
    | with_reducible apply Keeps.lit


theorem linkLost_keeps (n : Nat) (live : List Nat) (s : State) (hs : Keeps cq co s) : Keeps cq co (linkLost n live s) := by
  unfold linkLost
  repeat any_goals first
    | with_reducible assumption
    | with_reducible apply setRing_keeps
    | with_reducible apply State.onPort_keeps
    | with_reducible apply State.draw_keeps
    | dsimp only
    | intro _ _ _
    | split
    | with_reducible apply Keeps.lit


theorem linkFrameError_keeps (n : Nat) (s : State) (hs : Keeps cq co s) : Keeps cq co (linkFrameError n s) := by
  unfold linkFrameError
  repeat any_goals first
    | with_reducible assumption
    | with_reducible apply State.onPort_keeps
    | with_reducible apply State.draw_keeps
    | dsimp only
    | intro _ _ _
    | split
    | with_reducible apply Keeps.lit


theorem transitForward_keeps (n vc : Nat) (pk : Packet) (s : State) (hs : Keeps cq co s) : Keeps cq co (transitForward n vc pk s) := by
  unfold transitForward
  repeat any_goals first
    | with_reducible assumption
    | with_reducible apply State.onPort_keeps
    | with_reducible apply portSend_keeps
    | with_reducible apply State.draw_keeps
    | dsimp only
    | intro _ _ _
    | split
    | with_reducible apply Keeps.lit


theorem frameDiscard_keeps (r : DiscardReason) (p : Nat) (s : State) (hs : Keeps cq co s) : Keeps cq co (frameDiscard r p s) := by
  unfold frameDiscard
  repeat any_goals first
    | with_reducible assumption
    | with_reducible apply tally_keeps
    | with_reducible apply State.onFabric_keeps
    | with_reducible apply State.draw_keeps
    | dsimp only
    | intro _ _ _
    | split
    | with_reducible apply Keeps.lit


theorem execWrite_keeps (pk : Packet) (s : State) (hs : Keeps cq co s) : OutKeeps cq co (execWrite pk s) := by
  unfold execWrite
  repeat any_goals first
    | with_reducible assumption
    | with_reducible apply OutKeeps.next
    | intro _ _
    | with_reducible apply dataPacket_keeps
    | with_reducible apply State.draw_keeps
    | dsimp only
    | intro _ _ _
    | split


theorem execSend_keeps (pk : Packet) (s : State) (hs : Keeps cq co s) : OutKeeps cq co (execSend pk s) := by
  unfold execSend
  repeat any_goals first
    | with_reducible assumption
    | with_reducible apply OutKeeps.next
    | intro _ _
    | with_reducible apply dataPacket_keeps
    | with_reducible apply State.draw_keeps
    | dsimp only
    | intro _ _ _
    | split


theorem execRdreq_keeps (pk : Packet) (s : State) (hs : Keeps cq co s) : OutKeeps cq co (execRdreq pk s) := by
  unfold execRdreq
  repeat any_goals first
    | with_reducible assumption
    | with_reducible apply OutKeeps.next
    | intro _ _
    | with_reducible apply dataPacket_keeps
    | with_reducible apply State.draw_keeps
    | dsimp only
    | intro _ _ _
    | split


theorem execRdresp_keeps (pk : Packet) (s : State) (hs : Keeps cq co s) : OutKeeps cq co (execRdresp pk s) := by
  unfold execRdresp
  repeat any_goals first
    | with_reducible assumption
    | with_reducible apply OutKeeps.next
    | intro _ _
    | with_reducible apply dataPacket_keeps
    | with_reducible apply State.draw_keeps
    | dsimp only
    | intro _ _ _
    | split


theorem execAck_keeps (pk : Packet) (s : State) (hs : Keeps cq co s) : OutKeeps cq co (execAck pk s) := by
  unfold execAck
  repeat any_goals first
    | with_reducible assumption
    | with_reducible apply OutKeeps.next
    | intro _ _
    | with_reducible apply ackPacket_keeps
    | with_reducible apply State.draw_keeps
    | dsimp only
    | intro _ _ _
    | split


theorem execNak_keeps (pk : Packet) (s : State) (hs : Keeps cq co s) : OutKeeps cq co (execNak pk s) := by
  unfold execNak
  repeat any_goals first
    | with_reducible assumption
    | with_reducible apply OutKeeps.next
    | intro _ _
    | with_reducible apply nakPacket.nakAt_keeps
    | with_reducible apply nakPacket_keeps
    | with_reducible apply State.draw_keeps
    | dsimp only
    | intro _ _ _
    | split


theorem execCredit_keeps (pk : Packet) (s : State) (hs : Keeps cq co s) : OutKeeps cq co (execCredit pk s) := by
  unfold execCredit
  repeat any_goals first
    | with_reducible assumption
    | with_reducible apply OutKeeps.next
    | intro _ _
    | with_reducible apply creditPacket_keeps
    | with_reducible apply State.draw_keeps
    | dsimp only
    | intro _ _ _
    | split


theorem execConnect_keeps (pk : Packet) (s : State) (hs : Keeps cq co s) : OutKeeps cq co (execConnect pk s) := by
  unfold execConnect
  repeat any_goals first
    | with_reducible assumption
    | with_reducible apply OutKeeps.next
    | intro _ _
    | with_reducible apply connectPacket_keeps
    | with_reducible apply State.draw_keeps
    | dsimp only
    | intro _ _ _
    | split


theorem execDisconnect_keeps (pk : Packet) (s : State) (hs : Keeps cq co s) : OutKeeps cq co (execDisconnect pk s) := by
  unfold execDisconnect
  repeat any_goals first
    | with_reducible assumption
    | with_reducible apply OutKeeps.next
    | intro _ _
    | with_reducible apply disconnectPacket_keeps
    | with_reducible apply State.draw_keeps
    | dsimp only
    | intro _ _ _
    | split


theorem execPacketLanding_keeps (part qp seq : Nat) (s : State) (hs : Keeps cq co s) : OutKeeps cq co (execPacketLanding part qp seq s) := by
  unfold execPacketLanding
  repeat any_goals first
    | with_reducible assumption
    | with_reducible apply OutKeeps.next
    | intro _ _
    | with_reducible apply packetLanding_keeps
    | with_reducible apply State.draw_keeps
    | dsimp only
    | intro _ _ _
    | split


theorem execQpContextFetchComplete_keeps (part qp : Nat) (result : ReadResult) (s : State) (hs : Keeps cq co s) : OutKeeps cq co (execQpContextFetchComplete part qp result s) := by
  unfold execQpContextFetchComplete
  repeat any_goals first
    | with_reducible assumption
    | with_reducible apply OutKeeps.next
    | intro _ _
    | with_reducible apply contextFetched_keeps
    | with_reducible apply State.draw_keeps
    | dsimp only
    | intro _ _ _
    | split


theorem execPrpPacketSend_keeps (part qp : Nat) (s : State) (hs : Keeps cq co s) : OutKeeps cq co (execPrpPacketSend part qp s) := by
  unfold execPrpPacketSend
  repeat any_goals first
    | with_reducible assumption
    | with_reducible apply OutKeeps.next
    | intro _ _
    | with_reducible apply sendNext_keeps
    | with_reducible apply State.draw_keeps
    | dsimp only
    | intro _ _ _
    | split


theorem execEgressPolicerRelease_keeps (part qp elapsedNs : Nat) (s : State) (hs : Keeps cq co s) : OutKeeps cq co (execEgressPolicerRelease part qp elapsedNs s) := by
  unfold execEgressPolicerRelease
  repeat any_goals first
    | with_reducible assumption
    | with_reducible apply OutKeeps.next
    | intro _ _
    | with_reducible apply egressRelease_keeps
    | with_reducible apply State.draw_keeps
    | dsimp only
    | intro _ _ _
    | split


theorem execAckTimer_keeps (part qp : Nat) (s : State) (hs : Keeps cq co s) : OutKeeps cq co (execAckTimer part qp s) := by
  unfold execAckTimer
  repeat any_goals first
    | with_reducible assumption
    | with_reducible apply OutKeeps.next
    | intro _ _
    | with_reducible apply ackTimer_keeps
    | with_reducible apply State.draw_keeps
    | dsimp only
    | intro _ _ _
    | split


theorem execRetransmitTimeout_keeps (part qp seq : Nat) (s : State) (hs : Keeps cq co s) : OutKeeps cq co (execRetransmitTimeout part qp seq s) := by
  unfold execRetransmitTimeout
  repeat any_goals first
    | with_reducible assumption
    | with_reducible apply OutKeeps.next
    | intro _ _
    | with_reducible apply retransmit_keeps
    | with_reducible apply State.draw_keeps
    | dsimp only
    | intro _ _ _
    | split


theorem execConnectRetry_keeps (part qp : Nat) (s : State) (hs : Keeps cq co s) : OutKeeps cq co (execConnectRetry part qp s) := by
  unfold execConnectRetry
  repeat any_goals first
    | with_reducible assumption
    | with_reducible apply OutKeeps.next
    | intro _ _
    | with_reducible apply connectRetry_keeps
    | with_reducible apply State.draw_keeps
    | dsimp only
    | intro _ _ _
    | split


theorem execQpConnect_keeps (part index : Nat) (s : State) (hs : Keeps cq co s) : OutKeeps cq co (execQpConnect part index s) := by
  unfold execQpConnect
  repeat any_goals first
    | with_reducible assumption
    | with_reducible apply OutKeeps.next
    | intro _ _
    | with_reducible apply State.access_keeps
    | with_reducible apply qpConnect_keeps
    | with_reducible apply State.draw_keeps
    | dsimp only
    | intro _ _ _
    | split


theorem execQpDisconnect_keeps (part index : Nat) (s : State) (hs : Keeps cq co s) : OutKeeps cq co (execQpDisconnect part index s) := by
  unfold execQpDisconnect
  repeat any_goals first
    | with_reducible assumption
    | with_reducible apply OutKeeps.next
    | intro _ _
    | with_reducible apply State.access_keeps
    | with_reducible apply qpDisconnect_keeps
    | with_reducible apply State.draw_keeps
    | dsimp only
    | intro _ _ _
    | split


theorem execQpReset_keeps (part index : Nat) (s : State) (hs : Keeps cq co s) : OutKeeps cq co (execQpReset part index s) := by
  unfold execQpReset
  repeat any_goals first
    | with_reducible assumption
    | with_reducible apply OutKeeps.next
    | intro _ _
    | with_reducible apply State.access_keeps
    | with_reducible apply qpResetCmd_keeps
    | with_reducible apply State.draw_keeps
    | dsimp only
    | intro _ _ _
    | split


theorem execReplayRequest_keeps (port lack : Nat) (s : State) (hs : Keeps cq co s) : OutKeeps cq co (execReplayRequest port lack s) := by
  unfold execReplayRequest
  repeat any_goals first
    | with_reducible assumption
    | with_reducible apply OutKeeps.next
    | intro _ _
    | with_reducible apply replayRequest_keeps
    | with_reducible apply State.draw_keeps
    | dsimp only
    | intro _ _ _
    | split


theorem execCreditOnlyFrame_keeps (port vc credits lack : Nat) (s : State) (hs : Keeps cq co s) : OutKeeps cq co (execCreditOnlyFrame port vc credits lack s) := by
  unfold execCreditOnlyFrame
  repeat any_goals first
    | with_reducible assumption
    | with_reducible apply OutKeeps.next
    | intro _ _
    | with_reducible apply creditFrame_keeps
    | with_reducible apply State.draw_keeps
    | dsimp only
    | intro _ _ _
    | split


theorem execPfcFrame_keeps (uplink pauseMask : Nat) (s : State) (hs : Keeps cq co s) : OutKeeps cq co (execPfcFrame uplink pauseMask s) := by
  unfold execPfcFrame
  repeat any_goals first
    | with_reducible assumption
    | with_reducible apply OutKeeps.next
    | intro _ _
    | with_reducible apply pfcFrame_keeps
    | with_reducible apply State.draw_keeps
    | dsimp only
    | intro _ _ _
    | split


theorem execJoinSet_keeps (s : State) (hs : Keeps cq co s) : OutKeeps cq co (execJoinSet s) := by
  unfold execJoinSet
  repeat any_goals first
    | with_reducible assumption
    | with_reducible apply OutKeeps.next
    | intro _ _
    | with_reducible apply State.access_keeps
    | with_reducible apply joinSet_keeps
    | with_reducible apply State.draw_keeps
    | dsimp only
    | intro _ _ _
    | split


theorem execJoinClear_keeps (s : State) (hs : Keeps cq co s) : OutKeeps cq co (execJoinClear s) := by
  unfold execJoinClear
  repeat any_goals first
    | with_reducible assumption
    | with_reducible apply OutKeeps.next
    | intro _ _
    | with_reducible apply State.access_keeps
    | with_reducible apply joinClear_keeps
    | with_reducible apply State.draw_keeps
    | dsimp only
    | intro _ _ _
    | split


theorem execLinkTrained_keeps (port : Nat) (live : List Nat) (s : State) (hs : Keeps cq co s) : OutKeeps cq co (execLinkTrained port live s) := by
  unfold execLinkTrained
  repeat any_goals first
    | with_reducible assumption
    | with_reducible apply OutKeeps.next
    | intro _ _
    | with_reducible apply linkTrained_keeps
    | with_reducible apply State.draw_keeps
    | dsimp only
    | intro _ _ _
    | split


theorem execLinkLost_keeps (port : Nat) (live : List Nat) (s : State) (hs : Keeps cq co s) : OutKeeps cq co (execLinkLost port live s) := by
  unfold execLinkLost
  repeat any_goals first
    | with_reducible assumption
    | with_reducible apply OutKeeps.next
    | intro _ _
    | with_reducible apply linkLost_keeps
    | with_reducible apply State.draw_keeps
    | dsimp only
    | intro _ _ _
    | split


theorem execLinkFrameError_keeps (port : Nat) (s : State) (hs : Keeps cq co s) : OutKeeps cq co (execLinkFrameError port s) := by
  unfold execLinkFrameError
  repeat any_goals first
    | with_reducible assumption
    | with_reducible apply OutKeeps.next
    | intro _ _
    | with_reducible apply linkFrameError_keeps
    | with_reducible apply State.draw_keeps
    | dsimp only
    | intro _ _ _
    | split


theorem execRingTransitForward_keeps (port vc : Nat) (pk : Packet) (s : State) (hs : Keeps cq co s) : OutKeeps cq co (execRingTransitForward port vc pk s) := by
  unfold execRingTransitForward
  repeat any_goals first
    | with_reducible assumption
    | with_reducible apply OutKeeps.next
    | intro _ _
    | with_reducible apply transitForward_keeps
    | with_reducible apply State.draw_keeps
    | dsimp only
    | intro _ _ _
    | split


theorem execPrpFrameDiscard_keeps (reason : DiscardReason) (part : Nat) (s : State) (hs : Keeps cq co s) : OutKeeps cq co (execPrpFrameDiscard reason part s) := by
  unfold execPrpFrameDiscard
  repeat any_goals first
    | with_reducible assumption
    | with_reducible apply OutKeeps.next
    | intro _ _
    | with_reducible apply frameDiscard_keeps
    | with_reducible apply State.draw_keeps
    | dsimp only
    | intro _ _ _
    | split


end Sys2Proof.Machine
end

