-- ==== Sys2Proof/Laws/Keeps/Disable.lean ====
section
/-! SUPPORT. What the operations of Machine/Disable.lean keep. -/

namespace Sys2Proof.Machine

open Sys2Proof

variable {cq : List Instr} {co : Oxsis}

theorem beginDisable_keeps (s : State) (p cause : Nat) (graceful silent : Bool) (hs : Keeps cq co s) : Keeps cq co (beginDisable s p cause graceful silent) := by
  unfold beginDisable
  repeat any_goals first
    | with_reducible assumption
    | with_reducible apply releaseReservations_keeps
    | with_reducible apply cutOff_keeps
    | with_reducible apply State.onFlight_keeps
    | with_reducible apply dropReads_keeps
    | with_reducible apply abandonMoves_keeps
    | with_reducible apply State.onFunc_keeps
    | with_reducible apply State.draw_keeps
    | with_reducible apply foldl_keeps (Keeps cq co)
    | dsimp only
    | intro _ _ _
    | split
    | with_reducible apply Keeps.lit
    | intro _ _


theorem endAborts_keeps (s : State) (p : Nat) (hs : Keeps cq co s) : Keeps cq co (endAborts s p) := by
  unfold endAborts
  repeat any_goals first
    | with_reducible assumption
    | with_reducible apply endAborted_keeps
    | with_reducible apply onDisable_keeps
    | with_reducible apply State.draw_keeps
    | with_reducible apply foldl_keeps (Keeps cq co)
    | dsimp only
    | intro _ _ _
    | split
    | with_reducible apply Keeps.lit


theorem resetVectors_keeps (s : State) (p cause : Nat) (hs : Keeps cq co s) : Keeps cq co (resetVectors s p cause) := by
  unfold resetVectors
  repeat any_goals first
    | with_reducible assumption
    | with_reducible apply State.onFunc_keeps
    | with_reducible apply State.draw_keeps
    | dsimp only
    | intro _ _ _
    | split
    | with_reducible apply Keeps.lit


theorem disable_keeps (s : State) (p cause : Nat) (graceful silent : Bool) (hs : Keeps cq co s) : Keeps cq co (disable s p cause graceful silent) := by
  unfold disable
  repeat any_goals first
    | with_reducible assumption
    | with_reducible apply beginDisable_keeps
    | with_reducible apply onDisable_keeps
    | with_reducible apply resetVectors_keeps
    | with_reducible apply State.draw_keeps
    | dsimp only
    | intro _ _ _
    | split
    | with_reducible apply Keeps.lit


theorem postAborted_keeps (p : Nat)  : ∀ (v0 : List (Nat × List Byte)) (v1 : State), Keeps cq co v1 → Keeps cq co (postAborted p v0 v1) := by
  intro v0
  induction v0 with
  | nil =>
    intro v1 hv1
    unfold postAborted
    repeat any_goals first
      | with_reducible assumption
      | with_reducible apply onDisable_keeps
      | with_reducible apply postRaw_keeps
      | with_reducible apply State.draw_keeps
      | dsimp only
      | intro _ _ _
      | split
      | with_reducible apply Keeps.lit
  | cons b r ih =>
    intro v1 hv1
    unfold postAborted
    repeat any_goals first
      | assumption
      | with_reducible apply ih
      | with_reducible apply onDisable_keeps
      | with_reducible apply postRaw_keeps
      | with_reducible apply State.draw_keeps
      | dsimp only
      | intro _ _ _
      | split
      | with_reducible apply Keeps.lit


theorem dropWrites_keeps (s : State) (p : Nat) (hs : Keeps cq co s) : Keeps cq co (dropWrites s p) := by
  unfold dropWrites
  repeat any_goals first
    | with_reducible assumption
    | with_reducible apply onDisable_keeps
    | with_reducible apply State.draw_keeps
    | dsimp only
    | intro _ _ _
    | split
    | with_reducible apply Keeps.lit


theorem abandonReads_keeps (s : State) (p : Nat) (hs : Keeps cq co s) : Keeps cq co (abandonReads s p) := by
  unfold abandonReads
  repeat any_goals first
    | with_reducible assumption
    | with_reducible apply finishRead_keeps
    | with_reducible apply State.draw_keeps
    | with_reducible apply foldl_keeps (Keeps cq co)
    | dsimp only
    | intro _ _ _
    | split
    | with_reducible apply Keeps.lit


theorem resetQps_keeps (s : State) (p : Nat) (hs : Keeps cq co s) : Keeps cq co (resetQps s p) := by
  unfold resetQps
  repeat any_goals first
    | with_reducible assumption
    | with_reducible apply dropAllPins_keeps
    | with_reducible apply State.onPart_keeps
    | with_reducible apply State.draw_keeps
    | with_reducible apply foldl_keeps (Keeps cq co)
    | dsimp only
    | intro _ _ _
    | split
    | with_reducible apply Keeps.lit


theorem withdrawBuffers_keeps (s : State) (p : Nat) (hs : Keeps cq co s) : Keeps cq co (withdrawBuffers s p) := by
  unfold withdrawBuffers
  repeat any_goals first
    | with_reducible assumption
    | with_reducible apply rewriteBuffer_keeps
    | with_reducible apply State.draw_keeps
    | with_reducible apply foldl_keeps (Keeps cq co)
    | dsimp only
    | intro _ _ _
    | split


theorem resetHostSide_keeps (s : State) (p cause : Nat) (graceful : Bool) (hs : Keeps cq co s) : Keeps cq co (resetHostSide s p cause graceful) := by
  unfold resetHostSide
  repeat any_goals first
    | with_reducible assumption
    | with_reducible apply State.issue_keeps
    | with_reducible apply releaseReservations_keeps
    | with_reducible apply onDisable_keeps
    | with_reducible apply resetQps_keeps
    | with_reducible apply withdrawBuffers_keeps
    | with_reducible apply State.onPart_keeps
    | with_reducible apply resetVectors_keeps
    | with_reducible apply State.onFunc_keeps
    | with_reducible apply State.draw_keeps
    | with_reducible apply foldl_keeps (Keeps cq co)
    | dsimp only
    | intro _ _ _
    | split
    | with_reducible apply Keeps.lit


theorem closeDisable_keeps (p drainUs : Nat) (s : State) (hs : Keeps cq co s) : Keeps cq co (closeDisable p drainUs s) := by
  unfold closeDisable
  repeat any_goals first
    | with_reducible assumption
    | with_reducible apply disable_keeps
    | with_reducible apply postAborted_keeps
    | with_reducible apply dropWrites_keeps
    | with_reducible apply resetHostSide_keeps
    | with_reducible apply abandonReads_keeps
    | with_reducible apply State.onFunc_keeps
    | with_reducible apply postRecord_keeps
    | with_reducible apply State.draw_keeps
    | dsimp only
    | intro _ _ _
    | split
    | with_reducible apply Keeps.lit


theorem drainEnd_keeps (p drainUs : Nat) (s : State) (hs : Keeps cq co s) : Keeps cq co (drainEnd p drainUs s) := by
  unfold drainEnd
  repeat any_goals first
    | with_reducible assumption
    | with_reducible apply disable_keeps
    | with_reducible apply closeDisable_keeps
    | with_reducible apply endAborts_keeps
    | with_reducible apply State.draw_keeps
    | dsimp only
    | intro _ _ _
    | split


theorem quiesce_keeps (p : Nat) (s : State) (hs : Keeps cq co s) : Keeps cq co (quiesce p s) := by
  unfold quiesce
  repeat any_goals first
    | with_reducible assumption
    | with_reducible apply disable_keeps
    | with_reducible apply State.draw_keeps
    | dsimp only
    | intro _ _ _
    | split
    | with_reducible apply Keeps.lit


theorem vfFlr_keeps (p : Nat) (s : State) (hs : Keeps cq co s) : Keeps cq co (vfFlr p s) := by
  unfold vfFlr
  repeat any_goals first
    | with_reducible assumption
    | with_reducible apply disable_keeps
    | with_reducible apply State.draw_keeps
    | dsimp only
    | intro _ _ _
    | split


theorem pf0Reset_keeps (s : State) (hs : Keeps cq co s) : Keeps cq co (pf0Reset s) := by
  unfold pf0Reset
  repeat any_goals first
    | with_reducible assumption
    | with_reducible apply quiesce_keeps
    | with_reducible apply disable_keeps
    | with_reducible apply State.draw_keeps
    | with_reducible apply foldl_keeps (Keeps cq co)
    | dsimp only
    | intro _ _ _
    | split
    | with_reducible apply Keeps.lit


theorem pf0Flr_keeps (s : State) (hs : Keeps cq co s) : Keeps cq co (pf0Flr s) := by
  unfold pf0Flr
  repeat any_goals first
    | with_reducible assumption
    | with_reducible apply pf0Reset_keeps
    | with_reducible apply State.draw_keeps
    | dsimp only
    | intro _ _ _
    | split


theorem busMasterDisable_keeps (p : Nat) (s : State) (hs : Keeps cq co s) : Keeps cq co (busMasterDisable p s) := by
  unfold busMasterDisable
  repeat any_goals first
    | with_reducible assumption
    | with_reducible apply pf0Reset_keeps
    | with_reducible apply disable_keeps
    | with_reducible apply State.onFunc_keeps
    | with_reducible apply State.draw_keeps
    | dsimp only
    | intro _ _ _
    | split
    | with_reducible apply Keeps.lit


theorem busMasterEnable_keeps (p : Nat) (s : State) (hs : Keeps cq co s) : Keeps cq co (busMasterEnable p s) := by
  unfold busMasterEnable
  repeat any_goals first
    | with_reducible assumption
    | with_reducible apply State.onFunc_keeps
    | with_reducible apply State.draw_keeps
    | dsimp only
    | intro _ _ _
    | split
    | with_reducible apply Keeps.lit


theorem vfEnableClear_keeps (s : State) (hs : Keeps cq co s) : Keeps cq co (vfEnableClear s) := by
  unfold vfEnableClear
  repeat any_goals first
    | with_reducible assumption
    | with_reducible apply disable_keeps
    | with_reducible apply State.draw_keeps
    | with_reducible apply foldl_keeps (Keeps cq co)
    | dsimp only
    | intro _ _ _
    | split
    | with_reducible apply Keeps.lit


theorem vfEnableSet_keeps (s : State) (hs : Keeps cq co s) : Keeps cq co (vfEnableSet s) := by
  unfold vfEnableSet
  repeat any_goals first
    | with_reducible assumption
    | with_reducible apply State.draw_keeps
    | dsimp only
    | intro _ _ _
    | split
    | with_reducible apply Keeps.lit


theorem d3hotEntry_keeps (p : Nat) (s : State) (hs : Keeps cq co s) : Keeps cq co (d3hotEntry p s) := by
  unfold d3hotEntry
  repeat any_goals first
    | with_reducible assumption
    | with_reducible apply disable_keeps
    | with_reducible apply State.onFunc_keeps
    | with_reducible apply State.draw_keeps
    | dsimp only
    | intro _ _ _
    | split
    | with_reducible apply Keeps.lit


theorem d0Return_keeps (p : Nat) (s : State) (hs : Keeps cq co s) : Keeps cq co (d0Return p s) := by
  unfold d0Return
  repeat any_goals first
    | with_reducible assumption
    | with_reducible apply State.onFunc_keeps
    | with_reducible apply State.draw_keeps
    | dsimp only
    | intro _ _ _
    | split
    | with_reducible apply Keeps.lit


theorem execQuiesce_keeps (vf : Nat) (s : State) (hs : Keeps cq co s) : OutKeeps cq co (execQuiesce vf s) := by
  unfold execQuiesce
  repeat any_goals first
    | with_reducible assumption
    | with_reducible apply OutKeeps.next
    | intro _ _
    | with_reducible apply State.access_keeps
    | with_reducible apply quiesce_keeps
    | with_reducible apply State.draw_keeps
    | dsimp only
    | intro _ _ _
    | split


theorem execVfFlr_keeps (vf : Nat) (s : State) (hs : Keeps cq co s) : OutKeeps cq co (execVfFlr vf s) := by
  unfold execVfFlr
  repeat any_goals first
    | with_reducible assumption
    | with_reducible apply OutKeeps.next
    | intro _ _
    | with_reducible apply State.access_keeps
    | with_reducible apply vfFlr_keeps
    | with_reducible apply State.draw_keeps
    | dsimp only
    | intro _ _ _
    | split


theorem execBusMasterDisable_keeps (vf : Nat) (s : State) (hs : Keeps cq co s) : OutKeeps cq co (execBusMasterDisable vf s) := by
  unfold execBusMasterDisable
  repeat any_goals first
    | with_reducible assumption
    | with_reducible apply OutKeeps.next
    | intro _ _
    | with_reducible apply State.access_keeps
    | with_reducible apply busMasterDisable_keeps
    | with_reducible apply State.draw_keeps
    | dsimp only
    | intro _ _ _
    | split


theorem execBusMasterEnable_keeps (vf : Nat) (s : State) (hs : Keeps cq co s) : OutKeeps cq co (execBusMasterEnable vf s) := by
  unfold execBusMasterEnable
  repeat any_goals first
    | with_reducible assumption
    | with_reducible apply OutKeeps.next
    | intro _ _
    | with_reducible apply State.access_keeps
    | with_reducible apply busMasterEnable_keeps
    | with_reducible apply State.draw_keeps
    | dsimp only
    | intro _ _ _
    | split


theorem execVfEnableClear_keeps (s : State) (hs : Keeps cq co s) : OutKeeps cq co (execVfEnableClear s) := by
  unfold execVfEnableClear
  repeat any_goals first
    | with_reducible assumption
    | with_reducible apply OutKeeps.next
    | intro _ _
    | with_reducible apply State.access_keeps
    | with_reducible apply vfEnableClear_keeps
    | with_reducible apply State.draw_keeps
    | dsimp only
    | intro _ _ _
    | split


theorem execVfEnableSet_keeps (s : State) (hs : Keeps cq co s) : OutKeeps cq co (execVfEnableSet s) := by
  unfold execVfEnableSet
  repeat any_goals first
    | with_reducible assumption
    | with_reducible apply OutKeeps.next
    | intro _ _
    | with_reducible apply State.access_keeps
    | with_reducible apply vfEnableSet_keeps
    | with_reducible apply State.draw_keeps
    | dsimp only
    | intro _ _ _
    | split


theorem execD3hotEntry_keeps (vf : Nat) (s : State) (hs : Keeps cq co s) : OutKeeps cq co (execD3hotEntry vf s) := by
  unfold execD3hotEntry
  repeat any_goals first
    | with_reducible assumption
    | with_reducible apply OutKeeps.next
    | intro _ _
    | with_reducible apply State.access_keeps
    | with_reducible apply d3hotEntry_keeps
    | with_reducible apply State.draw_keeps
    | dsimp only
    | intro _ _ _
    | split


theorem execD0Return_keeps (vf : Nat) (s : State) (hs : Keeps cq co s) : OutKeeps cq co (execD0Return vf s) := by
  unfold execD0Return
  repeat any_goals first
    | with_reducible assumption
    | with_reducible apply OutKeeps.next
    | intro _ _
    | with_reducible apply State.access_keeps
    | with_reducible apply d0Return_keeps
    | with_reducible apply State.draw_keeps
    | dsimp only
    | intro _ _ _
    | split


theorem execPf0Flr_keeps (s : State) (hs : Keeps cq co s) : OutKeeps cq co (execPf0Flr s) := by
  unfold execPf0Flr
  repeat any_goals first
    | with_reducible assumption
    | with_reducible apply OutKeeps.next
    | intro _ _
    | with_reducible apply State.access_keeps
    | with_reducible apply pf0Flr_keeps
    | with_reducible apply State.draw_keeps
    | dsimp only
    | intro _ _ _
    | split


end Sys2Proof.Machine
end

