-- ==== Sys2Proof/Laws/Keeps/Flash.lean ====
section
/-! SUPPORT. What the operations of Machine/Flash.lean keep. -/

namespace Sys2Proof.Machine

open Sys2Proof

variable {cq : List Instr} {co : Oxsis}

theorem mediaRecord_keeps (s : State) (source severity action : Nat) (a : Place) (hs : Keeps cq co s) : Keeps cq co (mediaRecord s source severity action a) := by
  unfold mediaRecord
  repeat any_goals first
    | with_reducible assumption
    | with_reducible apply logError_keeps
    | with_reducible apply State.draw_keeps
    | dsimp only
    | intro _ _ _
    | split
    | with_reducible apply Keeps.lit


theorem retireBlock_keeps (s : State) (b : Nat) (hs : Keeps cq co s) : Keeps cq co (retireBlock s b) := by
  unfold retireBlock
  repeat any_goals first
    | with_reducible assumption
    | with_reducible apply logBadBlock_keeps
    | with_reducible apply State.onBlock_keeps
    | with_reducible apply State.onChannel_keeps
    | with_reducible apply State.draw_keeps
    | dsimp only
    | intro _ _ _
    | split
    | with_reducible apply Keeps.lit


theorem startCopyGroup_keeps (s : State) (c : Nat) (hs : Keeps cq co s) : Keeps cq co (startCopyGroup s c) := by
  unfold startCopyGroup
  repeat any_goals first
    | with_reducible assumption
    | with_reducible apply State.onChannel_keeps
    | with_reducible apply countTier_keeps
    | with_reducible apply startGroup_keeps
    | with_reducible refine startGroup_keeps_eq ‹_› ?_
    | with_reducible apply State.draw_keeps
    | dsimp only
    | intro _ _ _
    | split
    | with_reducible apply Keeps.lit


theorem tryCopy_keeps (c : Nat)  : ∀ (v0 : Nat) (v1 : State), Keeps cq co v1 → Keeps cq co (tryCopy c v0 v1) := by
  intro v0
  induction v0 with
  | zero =>
    intro v1 hv1
    unfold tryCopy
    repeat any_goals first
      | with_reducible assumption
      | with_reducible apply startCopyGroup_keeps
      | with_reducible apply State.draw_keeps
      | dsimp only
      | intro _ _ _
      | split
  | succ n ih =>
    intro v1 hv1
    unfold tryCopy
    repeat any_goals first
      | assumption
      | with_reducible apply ih
      | with_reducible apply startCopyGroup_keeps
      | with_reducible apply State.draw_keeps
      | dsimp only
      | intro _ _ _
      | split


theorem endWear_keeps (s : State) (c : Nat) (hs : Keeps cq co s) : Keeps cq co (endWear s c) := by
  unfold endWear
  repeat any_goals first
    | with_reducible assumption
    | with_reducible apply State.onChannel_keeps
    | with_reducible apply State.onBlock_keeps
    | with_reducible apply State.draw_keeps
    | dsimp only
    | intro _ _ _
    | split
    | with_reducible apply Keeps.lit


theorem switchCopy_keeps (places : List Place) (s : State) (src : Nat × Place × Bool) (hs : Keeps cq co s) : Keeps cq co (switchCopy places s src) := by
  unfold switchCopy
  repeat any_goals first
    | with_reducible assumption
    | with_reducible apply State.onSecure_keeps
    | with_reducible apply State.onPart_keeps
    | with_reducible apply State.draw_keeps
    | dsimp only
    | intro _ _ _
    | split
    | with_reducible apply Keeps.lit


theorem sealGroup_keeps (s : State) (gid : Nat) (g : Group) (hs : Keeps cq co s) : Keeps cq co (sealGroup s gid g) := by
  unfold sealGroup
  repeat any_goals first
    | with_reducible assumption
    | with_reducible apply switchCopy_keeps
    | with_reducible apply State.onFlash_keeps
    | with_reducible apply endWear_keeps
    | with_reducible apply tryCopy_keeps
    | with_reducible apply settleBlock_keeps
    | with_reducible apply eraseEmpty_keeps
    | with_reducible apply State.onGroup_keeps
    | with_reducible apply onMove_keeps
    | with_reducible apply State.draw_keeps
    | with_reducible apply foldl_keeps (Keeps cq co)
    | dsimp only
    | intro _ _ _
    | split
    | with_reducible apply Keeps.lit


theorem programFailed_keeps (s : State) (gid : Nat) (a : Place) (hs : Keeps cq co s) : Keeps cq co (programFailed s gid a) := by
  unfold programFailed
  repeat any_goals first
    | with_reducible assumption
    | with_reducible apply mediaRecord_keeps
    | with_reducible apply retireBlock_keeps
    | with_reducible apply State.onGroup_keeps
    | with_reducible apply readOutBlock_keeps
    | with_reducible apply pumpAll_keeps
    | with_reducible apply State.draw_keeps
    | dsimp only
    | intro _ _ _
    | split
    | with_reducible apply Keeps.lit


theorem fillBlock_keeps (s : State) (b : Nat) (hs : Keeps cq co s) : Keeps cq co (fillBlock s b) := by
  unfold fillBlock
  repeat any_goals first
    | with_reducible assumption
    | with_reducible apply State.onBlock_keeps
    | with_reducible apply State.draw_keeps
    | dsimp only
    | intro _ _ _
    | split
    | with_reducible apply Keeps.lit


theorem programComplete_keeps (a : Place) (pass : Bool) (s : State) (hs : Keeps cq co s) : Keeps cq co (programComplete a pass s) := by
  unfold programComplete
  repeat any_goals first
    | with_reducible assumption
    | with_reducible apply programFailed_keeps
    | with_reducible apply State.onFlash_keeps
    | with_reducible apply fillBlock_keeps
    | with_reducible apply State.onGroup_keeps
    | with_reducible apply sealGroup_keeps
    | with_reducible apply pump_keeps
    | with_reducible apply pumpAll_keeps
    | with_reducible apply State.draw_keeps
    | dsimp only
    | intro _ _ _
    | split
    | with_reducible apply Keeps.lit


theorem copyOutRead_keeps (s : State) (p : Nat) (a : Place) (refresh ok : Bool) (r : FlashReadResult) (hs : Keeps cq co s) : Keeps cq co (copyOutRead s p a refresh ok r) := by
  unfold copyOutRead
  repeat any_goals first
    | with_reducible assumption
    | with_reducible apply uncorrectable_keeps
    | with_reducible apply noteRetry_keeps
    | with_reducible apply countTier_keeps
    | with_reducible apply State.onChannel_keeps
    | with_reducible apply State.onBlock_keeps
    | with_reducible apply settleBlock_keeps
    | with_reducible apply endWear_keeps
    | with_reducible apply tryCopy_keeps
    | with_reducible apply nextCopyOut_keeps
    | with_reducible apply State.draw_keeps
    | dsimp only
    | intro _ _ _
    | split
    | with_reducible apply Keeps.lit


theorem flashReadComplete_keeps (id : Nat) (result : FlashReadResult) (s : State) (hs : Keeps cq co s) : Keeps cq co (flashReadComplete id result s) := by
  unfold flashReadComplete
  repeat any_goals first
    | with_reducible assumption
    | with_reducible apply State.onFlash_keeps
    | with_reducible apply copyOutRead_keeps
    | with_reducible apply endFlashRead_keeps
    | with_reducible refine endFlashRead_keeps_eq ‹_› ?_
    | with_reducible apply finishRead_keeps
    | with_reducible apply settleBlock_keeps
    | with_reducible apply State.draw_keeps
    | with_reducible apply foldl_keeps (Keeps cq co)
    | dsimp only
    | intro _ _ _
    | split
    | with_reducible apply Keeps.lit


theorem takeVictim_keeps (s : State) (c b : Nat) (hs : Keeps cq co s) : Keeps cq co (takeVictim s c b) := by
  unfold takeVictim
  repeat any_goals first
    | with_reducible assumption
    | with_reducible apply State.onBlock_keeps
    | with_reducible apply State.onChannel_keeps
    | with_reducible apply State.onOwner_keeps
    | with_reducible apply settleBlock_keeps
    | with_reducible apply readOutBlock_keeps
    | with_reducible apply State.draw_keeps
    | dsimp only
    | intro _ _ _
    | split
    | with_reducible apply Keeps.lit


theorem collect_keeps (s : State) (c : Nat) (hs : Keeps cq co s) : Keeps cq co (collect s c) := by
  unfold collect
  repeat any_goals first
    | with_reducible assumption
    | with_reducible apply settleBlock_keeps
    | with_reducible apply endWear_keeps
    | with_reducible apply tryCopy_keeps
    | with_reducible apply nextCopyOut_keeps
    | with_reducible apply readOutBlock_keeps
    | with_reducible apply pumpAll_keeps
    | with_reducible apply takeVictim_keeps
    | with_reducible apply State.draw_keeps
    | dsimp only
    | intro _ _ _
    | split


theorem collectionStart_keeps (c : Nat) (s : State) (hs : Keeps cq co s) : Keeps cq co (collectionStart c s) := by
  unfold collectionStart
  repeat any_goals first
    | with_reducible assumption
    | with_reducible apply collect_keeps
    | with_reducible apply eraseEmpty_keeps
    | with_reducible apply State.draw_keeps
    | dsimp only
    | intro _ _ _
    | split


theorem collectionIdle_keeps (c : Nat) (s : State) (hs : Keeps cq co s) : Keeps cq co (collectionIdle c s) := by
  unfold collectionIdle
  repeat any_goals first
    | with_reducible assumption
    | with_reducible apply eraseEmpty_keeps
    | with_reducible apply collect_keeps
    | with_reducible apply nextCopyOut_keeps
    | with_reducible apply State.draw_keeps
    | dsimp only
    | intro _ _ _
    | split


theorem eraseComplete_keeps (b : BlockId) (pass : Bool) (s : State) (hs : Keeps cq co s) : Keeps cq co (eraseComplete b pass s) := by
  unfold eraseComplete
  repeat any_goals first
    | with_reducible assumption
    | with_reducible apply State.onFlash_keeps
    | with_reducible apply State.onSecure_keeps
    | with_reducible apply mediaRecord_keeps
    | with_reducible apply retireBlock_keeps
    | with_reducible apply State.onBlock_keeps
    | with_reducible apply pumpAll_keeps
    | with_reducible apply eraseEmpty_keeps
    | with_reducible apply State.draw_keeps
    | dsimp only
    | intro _ _ _
    | split
    | with_reducible apply Keeps.lit


theorem staticWearLevel_keeps (c : Nat) (s : State) (hs : Keeps cq co s) : Keeps cq co (staticWearLevel c s) := by
  unfold staticWearLevel
  repeat any_goals first
    | with_reducible assumption
    | with_reducible apply State.onBlock_keeps
    | with_reducible apply State.onChannel_keeps
    | with_reducible apply settleBlock_keeps
    | with_reducible apply endWear_keeps
    | with_reducible apply readOutBlock_keeps
    | with_reducible apply State.draw_keeps
    | with_reducible apply foldl_keeps (Keeps cq co)
    | dsimp only
    | intro _ _ _
    | split
    | with_reducible apply Keeps.lit


theorem retentionRefresh_keeps (a : Place) (s : State) (hs : Keeps cq co s) : Keeps cq co (retentionRefresh a s) := by
  unfold retentionRefresh
  repeat any_goals first
    | with_reducible assumption
    | with_reducible apply refreshFrame_keeps
    | with_reducible apply State.draw_keeps
    | dsimp only
    | intro _ _ _
    | split


theorem patrolRead_keeps (a : Place) (result : FlashReadResult) (s : State) (hs : Keeps cq co s) : Keeps cq co (patrolRead a result s) := by
  unfold patrolRead
  repeat any_goals first
    | with_reducible assumption
    | with_reducible apply State.onFlash_keeps
    | with_reducible apply uncorrectable_keeps
    | with_reducible apply noteRetry_keeps
    | with_reducible apply refreshFrame_keeps
    | with_reducible apply State.draw_keeps
    | dsimp only
    | intro _ _ _
    | split
    | with_reducible apply Keeps.lit


theorem discardProgram_keeps (p : Nat) (s : State) (hs : Keeps cq co s) : Keeps cq co (discardProgram p s) := by
  unfold discardProgram
  repeat any_goals first
    | with_reducible assumption
    | with_reducible apply State.onPart_keeps
    | with_reducible apply startGroup_keeps
    | with_reducible refine startGroup_keeps_eq ‹_› ?_
    | with_reducible apply State.draw_keeps
    | dsimp only
    | intro _ _ _
    | split
    | with_reducible apply Keeps.lit


theorem reissue_keeps (c die : Nat) (s : State) (gid : Nat) (hs : Keeps cq co s) : Keeps cq co (reissue c die s gid) := by
  unfold reissue
  repeat any_goals first
    | with_reducible assumption
    | with_reducible apply State.onFlash_keeps
    | with_reducible apply State.onGroup_keeps
    | with_reducible apply pump_keeps
    | with_reducible apply State.draw_keeps
    | with_reducible apply foldl_keeps (Keeps cq co)
    | dsimp only
    | intro _ _ _
    | split
    | with_reducible apply Keeps.lit


theorem dieReadyTimeout_keeps (c die : Nat) (s : State) (hs : Keeps cq co s) : Keeps cq co (dieReadyTimeout c die s) := by
  unfold dieReadyTimeout
  repeat any_goals first
    | with_reducible assumption
    | with_reducible apply State.onChannel_keeps
    | with_reducible apply mediaRecord_keeps
    | with_reducible apply State.onHealth_keeps
    | with_reducible apply reissue_keeps
    | with_reducible apply State.draw_keeps
    | with_reducible apply foldl_keeps (Keeps cq co)
    | dsimp only
    | intro _ _ _
    | split
    | with_reducible apply Keeps.lit


theorem flashTempRetrain_keeps (c : Nat) (tempC : Int) (trained : Bool) (s : State) (hs : Keeps cq co s) : Keeps cq co (flashTempRetrain c tempC trained s) := by
  unfold flashTempRetrain
  repeat any_goals first
    | with_reducible assumption
    | with_reducible apply State.onChannel_keeps
    | with_reducible apply State.onHealth_keeps
    | with_reducible apply State.draw_keeps
    | dsimp only
    | intro _ _ _
    | split
    | with_reducible apply Keeps.lit


theorem mapSegmentFetch_keeps (p g : Nat) (result : ReadResult) (s : State) (hs : Keeps cq co s) : Keeps cq co (mapSegmentFetch p g result s) := by
  unfold mapSegmentFetch
  repeat any_goals first
    | with_reducible assumption
    | with_reducible apply stallFree_keeps
    | with_reducible apply bringSegment_keeps
    | with_reducible apply State.onPart_keeps
    | with_reducible apply State.draw_keeps
    | dsimp only
    | intro _ _ _
    | split
    | with_reducible apply Keeps.lit


theorem execFlashProgramComplete_keeps (place : Place) (pass : Bool) (s : State) (hs : Keeps cq co s) : OutKeeps cq co (execFlashProgramComplete place pass s) := by
  unfold execFlashProgramComplete
  repeat any_goals first
    | with_reducible assumption
    | with_reducible apply OutKeeps.next
    | intro _ _
    | with_reducible apply programComplete_keeps
    | with_reducible apply State.draw_keeps
    | dsimp only
    | intro _ _ _
    | split


theorem execFlashReadComplete_keeps (id : Nat) (result : FlashReadResult) (s : State) (hs : Keeps cq co s) : OutKeeps cq co (execFlashReadComplete id result s) := by
  unfold execFlashReadComplete
  repeat any_goals first
    | with_reducible assumption
    | with_reducible apply OutKeeps.next
    | intro _ _
    | with_reducible apply flashReadComplete_keeps
    | with_reducible apply State.draw_keeps
    | dsimp only
    | intro _ _ _
    | split


theorem execFlashEraseComplete_keeps (block : BlockId) (pass : Bool) (s : State) (hs : Keeps cq co s) : OutKeeps cq co (execFlashEraseComplete block pass s) := by
  unfold execFlashEraseComplete
  repeat any_goals first
    | with_reducible assumption
    | with_reducible apply OutKeeps.next
    | intro _ _
    | with_reducible apply eraseComplete_keeps
    | with_reducible apply State.draw_keeps
    | dsimp only
    | intro _ _ _
    | split


theorem execCollectionStart_keeps (channel : Nat) (s : State) (hs : Keeps cq co s) : OutKeeps cq co (execCollectionStart channel s) := by
  unfold execCollectionStart
  repeat any_goals first
    | with_reducible assumption
    | with_reducible apply OutKeeps.next
    | intro _ _
    | with_reducible apply collectionStart_keeps
    | with_reducible apply State.draw_keeps
    | dsimp only
    | intro _ _ _
    | split


theorem execCollectionIdleTimer_keeps (channel : Nat) (s : State) (hs : Keeps cq co s) : OutKeeps cq co (execCollectionIdleTimer channel s) := by
  unfold execCollectionIdleTimer
  repeat any_goals first
    | with_reducible assumption
    | with_reducible apply OutKeeps.next
    | intro _ _
    | with_reducible apply collectionIdle_keeps
    | with_reducible apply State.draw_keeps
    | dsimp only
    | intro _ _ _
    | split


theorem execStaticWearLevel_keeps (channel : Nat) (s : State) (hs : Keeps cq co s) : OutKeeps cq co (execStaticWearLevel channel s) := by
  unfold execStaticWearLevel
  repeat any_goals first
    | with_reducible assumption
    | with_reducible apply OutKeeps.next
    | intro _ _
    | with_reducible apply staticWearLevel_keeps
    | with_reducible apply State.draw_keeps
    | dsimp only
    | intro _ _ _
    | split


theorem execRetentionLimitRefresh_keeps (place : Place) (s : State) (hs : Keeps cq co s) : OutKeeps cq co (execRetentionLimitRefresh place s) := by
  unfold execRetentionLimitRefresh
  repeat any_goals first
    | with_reducible assumption
    | with_reducible apply OutKeeps.next
    | intro _ _
    | with_reducible apply retentionRefresh_keeps
    | with_reducible apply State.draw_keeps
    | dsimp only
    | intro _ _ _
    | split


theorem execPatrolRead_keeps (place : Place) (result : FlashReadResult) (s : State) (hs : Keeps cq co s) : OutKeeps cq co (execPatrolRead place result s) := by
  unfold execPatrolRead
  repeat any_goals first
    | with_reducible assumption
    | with_reducible apply OutKeeps.next
    | intro _ _
    | with_reducible apply patrolRead_keeps
    | with_reducible apply State.draw_keeps
    | dsimp only
    | intro _ _ _
    | split


theorem execDiscardRecordProgram_keeps (part : Nat) (s : State) (hs : Keeps cq co s) : OutKeeps cq co (execDiscardRecordProgram part s) := by
  unfold execDiscardRecordProgram
  repeat any_goals first
    | with_reducible assumption
    | with_reducible apply OutKeeps.next
    | intro _ _
    | with_reducible apply discardProgram_keeps
    | with_reducible apply State.draw_keeps
    | dsimp only
    | intro _ _ _
    | split


theorem execDieReadyTimeout_keeps (channel die : Nat) (s : State) (hs : Keeps cq co s) : OutKeeps cq co (execDieReadyTimeout channel die s) := by
  unfold execDieReadyTimeout
  repeat any_goals first
    | with_reducible assumption
    | with_reducible apply OutKeeps.next
    | intro _ _
    | with_reducible apply dieReadyTimeout_keeps
    | with_reducible apply State.draw_keeps
    | dsimp only
    | intro _ _ _
    | split


theorem execFlashTempRetrain_keeps (channel : Nat) (tempC : Int) (trained : Bool) (s : State) (hs : Keeps cq co s) : OutKeeps cq co (execFlashTempRetrain channel tempC trained s) := by
  unfold execFlashTempRetrain
  repeat any_goals first
    | with_reducible assumption
    | with_reducible apply OutKeeps.next
    | intro _ _
    | with_reducible apply flashTempRetrain_keeps
    | with_reducible apply State.draw_keeps
    | dsimp only
    | intro _ _ _
    | split


theorem execMapSegmentFetch_keeps (part segment : Nat) (result : ReadResult) (s : State) (hs : Keeps cq co s) : OutKeeps cq co (execMapSegmentFetch part segment result s) := by
  unfold execMapSegmentFetch
  repeat any_goals first
    | with_reducible assumption
    | with_reducible apply OutKeeps.next
    | intro _ _
    | with_reducible apply mapSegmentFetch_keeps
    | with_reducible apply State.draw_keeps
    | dsimp only
    | intro _ _ _
    | split


end Sys2Proof.Machine
end

