-- ==== Sys2Proof/Laws/Keeps/Oxsis.lean ====
section
/-! SUPPORT. What the operations of Machine/Oxsis.lean keep. -/

namespace Sys2Proof.Machine

open Sys2Proof

variable {cq : List Instr} {co : Oxsis}

/-- Every state that an outcome carries keeps what the state before kept. -/
inductive ReplyKeeps (q : List Instr) (o : Oxsis) : Reply → Prop
  | done {t : State} {a1} {a2} (h : Keeps q o t) : ReplyKeeps q o (.done t a1 a2)
  | later {t : State} (h : Keeps q o t) : ReplyKeeps q o (.later t)


theorem create_keeps (s : State) (b : List Byte) (hs : Keeps cq co s) : ReplyKeeps cq co (create s b) := by
  unfold create
  repeat any_goals first
    | with_reducible assumption
    | with_reducible apply ReplyKeeps.done
    | with_reducible apply ReplyKeeps.later
    | with_reducible apply State.draw_keeps
    | with_reducible refine State.draw_keeps_eq ‹_› ?_
    | with_reducible apply sealSecure_keeps
    | with_reducible apply buildTables_keeps
    | with_reducible apply State.setPart_keeps
    | dsimp only
    | intro _ _ _
    | split
    | with_reducible apply Keeps.lit


theorem create_keeps_eq_done {s : State} {b : List Byte} {t : State} {a0} {a1} (e : create s b = .done t a0 a1) (hs : Keeps cq co s) : Keeps cq co t := by
  have k := create_keeps s b hs
  rw [e] at k
  cases k
  assumption

theorem create_keeps_eq_later {s : State} {b : List Byte} {t : State}  (e : create s b = .later t) (hs : Keeps cq co s) : Keeps cq co t := by
  have k := create_keeps s b hs
  rw [e] at k
  cases k
  assumption

theorem erasePart_keeps (s : State) (p : Nat) (hs : Keeps cq co s) : Keeps cq co (erasePart s p) := by
  have k := State.onFabric_keeps _ (fun f => { f with egress := f.egress.filter fun e => e.2.srcPart ≠ p })
    (State.onSched_keeps _ (fun d =>
      { d with
        units := d.units.filter fun u => u.2.part ≠ p
        chains := d.chains.filter fun c => c.ref.part ≠ p
        cores := d.cores.filter fun c => c.2.ref.part ≠ p })
    (State.onFlash_keeps _ (fun f => { f with channels := f.channels.map fun c => if (s.part p).flashChannels.contains c.1 then (c.1, { c.2 with buffer := [] }) else c })
    (State.onFlash_keeps _ (fun f => { f with groups := f.groups.filter fun g => g.2.part ≠ p, reads := f.reads.filter fun r => r.2.part ≠ p })
    (State.setPart_keeps _ p { Part.absent with epoch := ((s.part p).epoch + 1) % 2 ^ 32, egress := (s.part p).egress, ingress := (s.part p).ingress, evictions := (s.part p).evictions }
    (sealSecure_keeps s (fun c =>
      { c with
        table := Map.del c.table p
        epochs := Map.put c.epochs p (((s.part p).epoch + 1) % 2 ^ 32)
        scrubSets := c.scrubSets ++ (s.part p).grant.sets
        scrubFlash := c.scrubFlash ++ (s.part p).flashChannels }) hs)))))
  exact ⟨k.queue, k.mem, k.funcs, Map.filter_wf _ _ k.cache, k.fuses.trans (FusesFrom.of_eq rfl rfl rfl)⟩

theorem finishDestroy_keeps (s : State) (p aborted : Nat) (hs : Keeps cq co s) : ReplyKeeps cq co (finishDestroy s p aborted) := by
  unfold finishDestroy
  repeat any_goals first
    | with_reducible assumption
    | with_reducible apply ReplyKeeps.done
    | with_reducible apply ReplyKeeps.later
    | with_reducible apply erasePart_keeps
    | with_reducible apply State.draw_keeps
    | dsimp only
    | intro _ _ _
    | split


theorem finishDestroy_keeps_eq_done {s : State} {p aborted : Nat} {t : State} {a0} {a1} (e : finishDestroy s p aborted = .done t a0 a1) (hs : Keeps cq co s) : Keeps cq co t := by
  have k := finishDestroy_keeps s p aborted hs
  rw [e] at k
  cases k
  assumption

theorem finishDestroy_keeps_eq_later {s : State} {p aborted : Nat} {t : State}  (e : finishDestroy s p aborted = .later t) (hs : Keeps cq co s) : Keeps cq co t := by
  have k := finishDestroy_keeps s p aborted hs
  rw [e] at k
  cases k
  assumption

theorem destroy_keeps (s : State) (b : List Byte) (hs : Keeps cq co s) : ReplyKeeps cq co (destroy s b) := by
  unfold destroy
  repeat any_goals first
    | with_reducible assumption
    | with_reducible apply ReplyKeeps.done
    | with_reducible apply ReplyKeeps.later
    | with_reducible apply disable_keeps
    | with_reducible apply finishDestroy_keeps
    | with_reducible refine finishDestroy_keeps_eq_done ‹_› ?_
    | with_reducible refine finishDestroy_keeps_eq_later ‹_› ?_
    | with_reducible apply closeDisable_keeps
    | with_reducible apply State.draw_keeps
    | dsimp only
    | intro _ _ _
    | split


theorem destroy_keeps_eq_done {s : State} {b : List Byte} {t : State} {a0} {a1} (e : destroy s b = .done t a0 a1) (hs : Keeps cq co s) : Keeps cq co t := by
  have k := destroy_keeps s b hs
  rw [e] at k
  cases k
  assumption

theorem destroy_keeps_eq_later {s : State} {b : List Byte} {t : State}  (e : destroy s b = .later t) (hs : Keeps cq co s) : Keeps cq co t := by
  have k := destroy_keeps s b hs
  rw [e] at k
  cases k
  assumption

theorem nextRange_from (o : Oxsis) : FusesFrom o (nextRange o) := by
  unfold nextRange
  split
  · exact FusesFrom.refl _
  · exact ⟨fun _ => Nat.le_refl _, Nat.le_succ _, id, fun h => by simp [h]⟩

theorem sealIndex_keeps (o : Oxsis) (s : State) (ho : FusesFrom s.oxs o) (hs : Keeps cq co s) : Keeps cq co (sealIndex o s) := by
  unfold sealIndex
  split
  · exact hs.lit_oxs ho
  · exact sealSecure_keeps _ _ (hs.lit_oxs (ho.trans (FusesFrom.of_eq rfl rfl rfl)))

theorem countSignature_keeps (s : State) (hs : Keeps cq co s) : Keeps cq co (countSignature s) := by
  unfold countSignature
  repeat any_goals first
    | with_reducible assumption
    | with_reducible apply State.onOxs_keeps
    | with_reducible apply State.draw_keeps
    | dsimp only
    | intro _ _ _
    | split
    | with_reducible apply Keeps.lit
    | with_reducible apply Keeps.lit_oxs
    | exact FusesFrom.of_eq rfl rfl rfl


theorem takeIndex_keeps (s : State) (hs : Keeps cq co s) : Keeps cq co (takeIndex s).2 :=
  countSignature_keeps _ (sealIndex_keeps _ s (nextRange_from _) hs)

theorem takeIndex_keeps_eq {s : State} {t : State} {a} (e : takeIndex s = (a, t)) (hs : Keeps cq co s) : Keeps cq co t := by
  have k := takeIndex_keeps s hs
  rw [e] at k
  exact k

theorem signedReport_keeps (s : State) (nonce : List Byte) (hs : Keeps cq co s) : Keeps cq co (signedReport s nonce).1 := by
  unfold signedReport
  repeat any_goals first
    | with_reducible assumption
    | with_reducible apply takeIndex_keeps
    | with_reducible refine takeIndex_keeps_eq ‹_› ?_
    | with_reducible apply State.draw_keeps
    | dsimp only
    | intro _ _ _
    | split


theorem signedReport_keeps_eq {s : State} {nonce : List Byte} {t : State} {a} (e : signedReport s nonce = (t, a)) (hs : Keeps cq co s) : Keeps cq co t := by
  have k := signedReport_keeps s nonce hs
  rw [e] at k
  exact k

theorem attest_keeps (s : State) (b : List Byte) (hs : Keeps cq co s) : ReplyKeeps cq co (attest s b) := by
  unfold attest
  repeat any_goals first
    | with_reducible assumption
    | with_reducible apply ReplyKeeps.done
    | with_reducible apply ReplyKeeps.later
    | with_reducible apply signedReport_keeps
    | with_reducible refine signedReport_keeps_eq ‹_› ?_
    | with_reducible apply State.draw_keeps
    | dsimp only
    | intro _ _ _
    | split


theorem attest_keeps_eq_done {s : State} {b : List Byte} {t : State} {a0} {a1} (e : attest s b = .done t a0 a1) (hs : Keeps cq co s) : Keeps cq co t := by
  have k := attest_keeps s b hs
  rw [e] at k
  cases k
  assumption

theorem attest_keeps_eq_later {s : State} {b : List Byte} {t : State}  (e : attest s b = .later t) (hs : Keeps cq co s) : Keeps cq co t := by
  have k := attest_keeps s b hs
  rw [e] at k
  cases k
  assumption

theorem certRead_keeps (s : State) (b : List Byte) (hs : Keeps cq co s) : ReplyKeeps cq co (certRead s b) := by
  unfold certRead
  repeat any_goals first
    | with_reducible assumption
    | with_reducible apply ReplyKeeps.done
    | with_reducible apply ReplyKeeps.later
    | with_reducible apply State.draw_keeps
    | dsimp only
    | intro _ _ _
    | split


theorem certRead_keeps_eq_done {s : State} {b : List Byte} {t : State} {a0} {a1} (e : certRead s b = .done t a0 a1) (hs : Keeps cq co s) : Keeps cq co t := by
  have k := certRead_keeps s b hs
  rw [e] at k
  cases k
  assumption

theorem certRead_keeps_eq_later {s : State} {b : List Byte} {t : State}  (e : certRead s b = .later t) (hs : Keeps cq co s) : Keeps cq co t := by
  have k := certRead_keeps s b hs
  rw [e] at k
  cases k
  assumption

theorem consent_keeps (s : State) (b : List Byte) (sigOk : Bool) (hs : Keeps cq co s) : ReplyKeeps cq co (consent s b sigOk) := by
  unfold consent
  repeat any_goals first
    | with_reducible assumption
    | with_reducible apply ReplyKeeps.done
    | with_reducible apply ReplyKeeps.later
    | with_reducible apply State.onPart_keeps
    | with_reducible apply signedReport_keeps
    | with_reducible refine signedReport_keeps_eq ‹_› ?_
    | with_reducible apply State.draw_keeps
    | dsimp only
    | intro _ _ _
    | split
    | with_reducible apply Keeps.lit


theorem consent_keeps_eq_done {s : State} {b : List Byte} {sigOk : Bool} {t : State} {a0} {a1} (e : consent s b sigOk = .done t a0 a1) (hs : Keeps cq co s) : Keeps cq co t := by
  have k := consent_keeps s b sigOk hs
  rw [e] at k
  cases k
  assumption

theorem consent_keeps_eq_later {s : State} {b : List Byte} {sigOk : Bool} {t : State}  (e : consent s b sigOk = .later t) (hs : Keeps cq co s) : Keeps cq co t := by
  have k := consent_keeps s b sigOk hs
  rw [e] at k
  cases k
  assumption

theorem consentExpiry_keeps (p : Nat) (s : State) (hs : Keeps cq co s) : Keeps cq co (consentExpiry p s) := by
  unfold consentExpiry
  repeat any_goals first
    | with_reducible assumption
    | with_reducible apply State.onPart_keeps
    | with_reducible apply State.draw_keeps
    | dsimp only
    | intro _ _ _
    | split
    | with_reducible apply Keeps.lit


theorem returnData_keeps (s : State) (b data : List Byte) (mctp : Bool) (hs : Keeps cq co s) : ReplyKeeps cq co (returnData s b data mctp) := by
  unfold returnData
  repeat any_goals first
    | with_reducible assumption
    | with_reducible apply ReplyKeeps.done
    | with_reducible apply ReplyKeeps.later
    | with_reducible apply State.land_keeps
    | with_reducible apply State.draw_keeps
    | dsimp only
    | intro _ _ _
    | split


theorem returnData_keeps_eq_done {s : State} {b data : List Byte} {mctp : Bool} {t : State} {a0} {a1} (e : returnData s b data mctp = .done t a0 a1) (hs : Keeps cq co s) : Keeps cq co t := by
  have k := returnData_keeps s b data mctp hs
  rw [e] at k
  cases k
  assumption

theorem returnData_keeps_eq_later {s : State} {b data : List Byte} {mctp : Bool} {t : State}  (e : returnData s b data mctp = .later t) (hs : Keeps cq co s) : Keeps cq co t := by
  have k := returnData_keeps s b data mctp hs
  rw [e] at k
  cases k
  assumption

theorem debugRead_keeps (s : State) (b : List Byte) (mctp : Bool) (hs : Keeps cq co s) : ReplyKeeps cq co (debugRead s b mctp) := by
  unfold debugRead
  repeat any_goals first
    | with_reducible assumption
    | with_reducible apply ReplyKeeps.done
    | with_reducible apply ReplyKeeps.later
    | with_reducible apply returnData_keeps
    | with_reducible refine returnData_keeps_eq_done ‹_› ?_
    | with_reducible refine returnData_keeps_eq_later ‹_› ?_
    | with_reducible apply State.draw_keeps
    | dsimp only
    | intro _ _ _
    | split


theorem debugRead_keeps_eq_done {s : State} {b : List Byte} {mctp : Bool} {t : State} {a0} {a1} (e : debugRead s b mctp = .done t a0 a1) (hs : Keeps cq co s) : Keeps cq co t := by
  have k := debugRead_keeps s b mctp hs
  rw [e] at k
  cases k
  assumption

theorem debugRead_keeps_eq_later {s : State} {b : List Byte} {mctp : Bool} {t : State}  (e : debugRead s b mctp = .later t) (hs : Keeps cq co s) : Keeps cq co t := by
  have k := debugRead_keeps s b mctp hs
  rw [e] at k
  cases k
  assumption

theorem fineStalls_keeps (x : Part) (l : List Nat) : ∀ s : State, Keeps cq co s → Keeps cq co (fineStalls x l s).2 := by
  induction l with
  | nil => exact fun _ h => h
  | cons c r ih => exact fun s h => ih _ (State.draw_keeps s h)

theorem profileRead_keeps (s : State) (b : List Byte) (mctp : Bool) (hs : Keeps cq co s) : ReplyKeeps cq co (profileRead s b mctp) := by
  unfold profileRead
  repeat any_goals first
    | with_reducible assumption
    | with_reducible apply ReplyKeeps.done
    | with_reducible apply ReplyKeeps.later
    | with_reducible apply fineStalls_keeps
    | with_reducible apply returnData_keeps
    | with_reducible refine returnData_keeps_eq_done ‹_› ?_
    | with_reducible refine returnData_keeps_eq_later ‹_› ?_
    | with_reducible apply State.draw_keeps
    | dsimp only
    | intro _ _ _
    | split


theorem profileRead_keeps_eq_done {s : State} {b : List Byte} {mctp : Bool} {t : State} {a0} {a1} (e : profileRead s b mctp = .done t a0 a1) (hs : Keeps cq co s) : Keeps cq co t := by
  have k := profileRead_keeps s b mctp hs
  rw [e] at k
  cases k
  assumption

theorem profileRead_keeps_eq_later {s : State} {b : List Byte} {mctp : Bool} {t : State}  (e : profileRead s b mctp = .later t) (hs : Keeps cq co s) : Keeps cq co t := by
  have k := profileRead_keeps s b mctp hs
  rw [e] at k
  cases k
  assumption

/-- Programming fuses in unary leaves every fused count at least what it was. -/
theorem raised_getD (f : Nat → Nat) (l : List Nat) (i : Nat) : l.getD i 0 ≤ (l.zipIdx.map fun e => Nat.max e.1 (f e.2)).getD i 0 := by
  by_cases h : i < l.length
  · have e : (l.zipIdx.map fun e => Nat.max e.1 (f e.2)).getD i 0 = Nat.max (l.getD i 0) (f i) := by simp [List.getD, h]
    exact e ▸ Nat.le_max_left _ _
  · simp [List.getD, Nat.le_of_not_lt h]

theorem fwStage_keeps (s : State) (b : List Byte) (image : Option FwSlot) (mctp : Bool) (hs : Keeps cq co s) : ReplyKeeps cq co (fwStage s b image mctp) := by
  unfold fwStage
  repeat any_goals first
    | exact ReplyKeeps.done hs
    | exact ReplyKeeps.done (State.onOxs_keeps _ _ ⟨fun i => raised_getD (fun n => Nat.min 64 (List.getD _ n 0)) _ i, Nat.le_refl _, id, fun h => by simp [h]⟩ hs)
    | (refine ReplyKeeps.done (State.onOxs_keeps _ _ ?_ hs); split <;> exact FusesFrom.of_eq rfl rfl rfl)
    | split
    | dsimp only

theorem fwStage_keeps_eq_done {s : State} {b : List Byte} {image : Option FwSlot} {mctp : Bool} {t : State} {a0 a1} (e : fwStage s b image mctp = .done t a0 a1) (hs : Keeps cq co s) : Keeps cq co t := by
  have k := fwStage_keeps s b image mctp hs
  rw [e] at k
  cases k
  assumption

theorem fwStage_keeps_eq_later {s : State} {b : List Byte} {image : Option FwSlot} {mctp : Bool} {t : State} (e : fwStage s b image mctp = .later t) (hs : Keeps cq co s) : Keeps cq co t := by
  have k := fwStage_keeps s b image mctp hs
  rw [e] at k
  cases k
  assumption

theorem rmaUnlock_keeps (s : State) (b : List Byte) (sigOk : Bool) (hs : Keeps cq co s) : ReplyKeeps cq co (rmaUnlock s b sigOk) := by
  unfold rmaUnlock
  repeat any_goals first
    | exact ReplyKeeps.done hs
    | exact ReplyKeeps.done (State.onOxs_keeps _ _ ⟨fun _ => Nat.le_refl _, Nat.le_refl _, fun _ => rfl, fun _ => by simp⟩ hs)
    | split
    | dsimp only

theorem rmaUnlock_keeps_eq_done {s : State} {b : List Byte} {sigOk : Bool} {t : State} {a0 a1} (e : rmaUnlock s b sigOk = .done t a0 a1) (hs : Keeps cq co s) : Keeps cq co t := by
  have k := rmaUnlock_keeps s b sigOk hs
  rw [e] at k
  cases k
  assumption

theorem rmaUnlock_keeps_eq_later {s : State} {b : List Byte} {sigOk : Bool} {t : State} (e : rmaUnlock s b sigOk = .later t) (hs : Keeps cq co s) : Keeps cq co t := by
  have k := rmaUnlock_keeps s b sigOk hs
  rw [e] at k
  cases k
  assumption

theorem runRequest_keeps (s : State) (q : OxsReq) (hs : Keeps cq co s) : ReplyKeeps cq co (runRequest s q) := by
  unfold runRequest
  repeat any_goals first
    | with_reducible assumption
    | with_reducible apply ReplyKeeps.done
    | with_reducible apply ReplyKeeps.later
    | with_reducible apply create_keeps
    | with_reducible refine create_keeps_eq_done ‹_› ?_
    | with_reducible refine create_keeps_eq_later ‹_› ?_
    | with_reducible apply destroy_keeps
    | with_reducible refine destroy_keeps_eq_done ‹_› ?_
    | with_reducible refine destroy_keeps_eq_later ‹_› ?_
    | with_reducible apply attest_keeps
    | with_reducible refine attest_keeps_eq_done ‹_› ?_
    | with_reducible refine attest_keeps_eq_later ‹_› ?_
    | with_reducible apply certRead_keeps
    | with_reducible refine certRead_keeps_eq_done ‹_› ?_
    | with_reducible refine certRead_keeps_eq_later ‹_› ?_
    | with_reducible apply consent_keeps
    | with_reducible refine consent_keeps_eq_done ‹_› ?_
    | with_reducible refine consent_keeps_eq_later ‹_› ?_
    | with_reducible apply debugRead_keeps
    | with_reducible refine debugRead_keeps_eq_done ‹_› ?_
    | with_reducible refine debugRead_keeps_eq_later ‹_› ?_
    | with_reducible apply profileRead_keeps
    | with_reducible refine profileRead_keeps_eq_done ‹_› ?_
    | with_reducible refine profileRead_keeps_eq_later ‹_› ?_
    | with_reducible apply raised_getD
    | with_reducible apply fwStage_keeps
    | with_reducible refine fwStage_keeps_eq_done ‹_› ?_
    | with_reducible refine fwStage_keeps_eq_later ‹_› ?_
    | with_reducible apply rmaUnlock_keeps
    | with_reducible refine rmaUnlock_keeps_eq_done ‹_› ?_
    | with_reducible refine rmaUnlock_keeps_eq_later ‹_› ?_
    | with_reducible apply State.draw_keeps
    | dsimp only
    | intro _ _ _
    | split


theorem runRequest_keeps_eq_done {s : State} {q : OxsReq} {t : State} {a0} {a1} (e : runRequest s q = .done t a0 a1) (hs : Keeps cq co s) : Keeps cq co t := by
  have k := runRequest_keeps s q hs
  rw [e] at k
  cases k
  assumption

theorem runRequest_keeps_eq_later {s : State} {q : OxsReq} {t : State}  (e : runRequest s q = .later t) (hs : Keeps cq co s) : Keeps cq co t := by
  have k := runRequest_keeps s q hs
  rw [e] at k
  cases k
  assumption

theorem respond_keeps (s : State) (q : OxsReq) (result : Nat) (response : List Byte) (hs : Keeps cq co s) : Keeps cq co (respond s q result response) := by
  unfold respond
  repeat any_goals first
    | with_reducible assumption
    | with_reducible apply State.onOxs_keeps
    | with_reducible apply State.land_keeps
    | with_reducible apply State.draw_keeps
    | dsimp only
    | intro _ _ _
    | split
    | with_reducible apply Keeps.lit
    | with_reducible apply Keeps.lit_oxs
    | exact FusesFrom.of_eq rfl rfl rfl


theorem serve_keeps   : ∀ (v0 : Nat) (v1 : State), Keeps cq co v1 → Keeps cq co (serve v0 v1) := by
  intro v0
  induction v0 with
  | zero =>
    intro v1 hv1
    unfold serve
    repeat any_goals first
      | with_reducible assumption
      | with_reducible refine runRequest_keeps_eq_done ‹_› ?_
      | with_reducible refine runRequest_keeps_eq_later ‹_› ?_
      | with_reducible apply respond_keeps
      | with_reducible apply State.draw_keeps
      | dsimp only
      | intro _ _ _
      | split
  | succ n ih =>
    intro v1 hv1
    unfold serve
    repeat any_goals first
      | assumption
      | with_reducible apply ih
      | with_reducible refine runRequest_keeps_eq_done ‹_› ?_
      | with_reducible refine runRequest_keeps_eq_later ‹_› ?_
      | with_reducible apply respond_keeps
      | with_reducible apply State.draw_keeps
      | dsimp only
      | intro _ _ _
      | split


theorem oxsArrive_keeps (s : State) (q : OxsReq) (hs : Keeps cq co s) : Keeps cq co (oxsArrive s q) := by
  unfold oxsArrive
  repeat any_goals first
    | with_reducible assumption
    | with_reducible apply State.onOxs_keeps
    | with_reducible apply serve_keeps
    | with_reducible apply State.draw_keeps
    | dsimp only
    | intro _ _ _
    | split
    | with_reducible apply Keeps.lit
    | with_reducible apply Keeps.lit_oxs
    | exact FusesFrom.of_eq rfl rfl rfl


theorem serveHeld_keeps (s : State) (hs : Keeps cq co s) : Keeps cq co (serveHeld s) := by
  unfold serveHeld
  repeat any_goals first
    | with_reducible assumption
    | with_reducible apply serve_keeps
    | with_reducible apply State.draw_keeps
    | dsimp only
    | intro _ _ _
    | split


theorem oxsRequest_keeps (s : State) (op : Nat) (via : OxsVia) (sigOk : Bool) (image : Option FwSlot) (hs : Keeps cq co s) : Keeps cq co (oxsRequest s op via sigOk image) := by
  unfold oxsRequest
  repeat any_goals first
    | with_reducible assumption
    | with_reducible apply oxsArrive_keeps
    | with_reducible apply State.mailbox_keeps
    | with_reducible apply State.onOxs_keeps
    | with_reducible apply State.draw_keeps
    | dsimp only
    | intro _ _ _
    | split
    | with_reducible apply Keeps.lit
    | with_reducible apply Keeps.lit_oxs
    | exact FusesFrom.of_eq rfl rfl rfl


theorem disableDrainEnd_keeps (p drainUs : Nat) (s : State) (hs : Keeps cq co s) : Keeps cq co (disableDrainEnd p drainUs s) := by
  unfold disableDrainEnd
  repeat any_goals first
    | with_reducible assumption
    | with_reducible apply disable_keeps
    | with_reducible apply drainEnd_keeps
    | with_reducible refine finishDestroy_keeps_eq_done ‹_› ?_
    | with_reducible refine finishDestroy_keeps_eq_later ‹_› ?_
    | with_reducible apply serve_keeps
    | with_reducible apply respond_keeps
    | with_reducible apply State.draw_keeps
    | dsimp only
    | intro _ _ _
    | split


theorem signatureRelease_keeps (s : State) (hs : Keeps cq co s) : Keeps cq co (signatureRelease s) := by
  unfold signatureRelease
  repeat any_goals first
    | with_reducible assumption
    | with_reducible apply serve_keeps
    | with_reducible apply State.draw_keeps
    | dsimp only
    | intro _ _ _
    | split


theorem scrubDone_keeps (isFlash : Bool) (i : Nat) (s : State) (hs : Keeps cq co s) : Keeps cq co (scrubDone isFlash i s) := by
  unfold scrubDone
  repeat any_goals first
    | with_reducible assumption
    | with_reducible apply State.onFlash_keeps
    | with_reducible apply sealSecure_keeps
    | with_reducible apply State.draw_keeps
    | dsimp only
    | intro _ _ _
    | split
    | with_reducible apply Keeps.lit


theorem mctpMessage_keeps (body : List Byte) (s : State) (hs : Keeps cq co s) : Keeps cq co (mctpMessage body s) := by
  unfold mctpMessage
  repeat any_goals first
    | with_reducible assumption
    | with_reducible apply State.draw_keeps
    | with_reducible refine State.draw_keeps_eq ‹_› ?_
    | with_reducible apply oxsRequest_keeps
    | with_reducible apply State.onOxs_keeps
    | dsimp only
    | intro _ _ _
    | split
    | with_reducible apply Keeps.lit
    | with_reducible apply Keeps.lit_oxs
    | exact FusesFrom.of_eq rfl rfl rfl
    | intro _ _


theorem execOxsisCreate_keeps (via : OxsVia) (s : State) (hs : Keeps cq co s) : OutKeeps cq co (execOxsisCreate via s) := by
  unfold execOxsisCreate
  repeat any_goals first
    | with_reducible assumption
    | with_reducible apply OutKeeps.next
    | intro _ _
    | with_reducible apply State.mailbox_keeps
    | with_reducible apply oxsRequest_keeps
    | with_reducible apply State.draw_keeps
    | dsimp only
    | intro _ _ _
    | split


theorem execOxsisDestroy_keeps (via : OxsVia) (s : State) (hs : Keeps cq co s) : OutKeeps cq co (execOxsisDestroy via s) := by
  unfold execOxsisDestroy
  repeat any_goals first
    | with_reducible assumption
    | with_reducible apply OutKeeps.next
    | intro _ _
    | with_reducible apply State.mailbox_keeps
    | with_reducible apply oxsRequest_keeps
    | with_reducible apply State.draw_keeps
    | dsimp only
    | intro _ _ _
    | split


theorem execAttest_keeps (via : OxsVia) (s : State) (hs : Keeps cq co s) : OutKeeps cq co (execAttest via s) := by
  unfold execAttest
  repeat any_goals first
    | with_reducible assumption
    | with_reducible apply OutKeeps.next
    | intro _ _
    | with_reducible apply State.mailbox_keeps
    | with_reducible refine attest_keeps_eq_done ‹_› ?_
    | with_reducible refine attest_keeps_eq_later ‹_› ?_
    | with_reducible apply oxsRequest_keeps
    | with_reducible apply State.draw_keeps
    | dsimp only
    | intro _ _ _
    | split


theorem execCertRead_keeps (via : OxsVia) (s : State) (hs : Keeps cq co s) : OutKeeps cq co (execCertRead via s) := by
  unfold execCertRead
  repeat any_goals first
    | with_reducible assumption
    | with_reducible apply OutKeeps.next
    | intro _ _
    | with_reducible apply State.mailbox_keeps
    | with_reducible refine certRead_keeps_eq_done ‹_› ?_
    | with_reducible refine certRead_keeps_eq_later ‹_› ?_
    | with_reducible apply oxsRequest_keeps
    | with_reducible apply State.draw_keeps
    | dsimp only
    | intro _ _ _
    | split


theorem execConsent_keeps (via : OxsVia) (sigOk : Bool) (s : State) (hs : Keeps cq co s) : OutKeeps cq co (execConsent via sigOk s) := by
  unfold execConsent
  repeat any_goals first
    | with_reducible assumption
    | with_reducible apply OutKeeps.next
    | intro _ _
    | with_reducible apply State.mailbox_keeps
    | with_reducible refine consent_keeps_eq_done ‹_› ?_
    | with_reducible refine consent_keeps_eq_later ‹_› ?_
    | with_reducible apply oxsRequest_keeps
    | with_reducible apply State.draw_keeps
    | dsimp only
    | intro _ _ _
    | split


theorem execDebugRead_keeps (via : OxsVia) (s : State) (hs : Keeps cq co s) : OutKeeps cq co (execDebugRead via s) := by
  unfold execDebugRead
  repeat any_goals first
    | with_reducible assumption
    | with_reducible apply OutKeeps.next
    | intro _ _
    | with_reducible apply State.mailbox_keeps
    | with_reducible refine debugRead_keeps_eq_done ‹_› ?_
    | with_reducible refine debugRead_keeps_eq_later ‹_› ?_
    | with_reducible apply oxsRequest_keeps
    | with_reducible apply State.draw_keeps
    | dsimp only
    | intro _ _ _
    | split


theorem execProfileRead_keeps (via : OxsVia) (s : State) (hs : Keeps cq co s) : OutKeeps cq co (execProfileRead via s) := by
  unfold execProfileRead
  repeat any_goals first
    | with_reducible assumption
    | with_reducible apply OutKeeps.next
    | intro _ _
    | with_reducible apply State.mailbox_keeps
    | with_reducible refine profileRead_keeps_eq_done ‹_› ?_
    | with_reducible refine profileRead_keeps_eq_later ‹_› ?_
    | with_reducible apply oxsRequest_keeps
    | with_reducible apply State.draw_keeps
    | dsimp only
    | intro _ _ _
    | split


theorem execFwStage_keeps (via : OxsVia) (image : FwSlot) (s : State) (hs : Keeps cq co s) : OutKeeps cq co (execFwStage via image s) := by
  unfold execFwStage
  repeat any_goals first
    | with_reducible assumption
    | with_reducible apply OutKeeps.next
    | intro _ _
    | with_reducible apply State.mailbox_keeps
    | with_reducible apply raised_getD
    | with_reducible refine fwStage_keeps_eq_done ‹_› ?_
    | with_reducible refine fwStage_keeps_eq_later ‹_› ?_
    | with_reducible apply oxsRequest_keeps
    | with_reducible apply State.draw_keeps
    | dsimp only
    | intro _ _ _
    | split


theorem execFwSvnCommit_keeps (via : OxsVia) (s : State) (hs : Keeps cq co s) : OutKeeps cq co (execFwSvnCommit via s) := by
  unfold execFwSvnCommit
  repeat any_goals first
    | with_reducible assumption
    | with_reducible apply OutKeeps.next
    | intro _ _
    | with_reducible apply State.mailbox_keeps
    | with_reducible apply oxsRequest_keeps
    | with_reducible apply State.draw_keeps
    | dsimp only
    | intro _ _ _
    | split


theorem execRmaUnlock_keeps (via : OxsVia) (sigOk : Bool) (s : State) (hs : Keeps cq co s) : OutKeeps cq co (execRmaUnlock via sigOk s) := by
  unfold execRmaUnlock
  repeat any_goals first
    | with_reducible assumption
    | with_reducible apply OutKeeps.next
    | intro _ _
    | with_reducible apply State.mailbox_keeps
    | with_reducible refine rmaUnlock_keeps_eq_done ‹_› ?_
    | with_reducible refine rmaUnlock_keeps_eq_later ‹_› ?_
    | with_reducible apply oxsRequest_keeps
    | with_reducible apply State.draw_keeps
    | dsimp only
    | intro _ _ _
    | split


theorem execSignatureRateRelease_keeps (s : State) (hs : Keeps cq co s) : OutKeeps cq co (execSignatureRateRelease s) := by
  unfold execSignatureRateRelease
  repeat any_goals first
    | with_reducible assumption
    | with_reducible apply OutKeeps.next
    | intro _ _
    | with_reducible apply signatureRelease_keeps
    | with_reducible apply State.draw_keeps
    | dsimp only
    | intro _ _ _
    | split


theorem execConsentExpiry_keeps (part : Nat) (s : State) (hs : Keeps cq co s) : OutKeeps cq co (execConsentExpiry part s) := by
  unfold execConsentExpiry
  repeat any_goals first
    | with_reducible assumption
    | with_reducible apply OutKeeps.next
    | intro _ _
    | with_reducible apply consentExpiry_keeps
    | with_reducible apply State.draw_keeps
    | dsimp only
    | intro _ _ _
    | split


theorem execScrubResourceDone_keeps (isFlash : Bool) (index : Nat) (s : State) (hs : Keeps cq co s) : OutKeeps cq co (execScrubResourceDone isFlash index s) := by
  unfold execScrubResourceDone
  repeat any_goals first
    | with_reducible assumption
    | with_reducible apply OutKeeps.next
    | intro _ _
    | with_reducible apply scrubDone_keeps
    | with_reducible apply State.draw_keeps
    | dsimp only
    | intro _ _ _
    | split


theorem execMctpMessage_keeps (body : List Byte) (s : State) (hs : Keeps cq co s) : OutKeeps cq co (execMctpMessage body s) := by
  unfold execMctpMessage
  repeat any_goals first
    | with_reducible assumption
    | with_reducible apply OutKeeps.next
    | intro _ _
    | with_reducible apply mctpMessage_keeps
    | with_reducible apply State.draw_keeps
    | dsimp only
    | intro _ _ _
    | split


theorem execDisableDrainEnd_keeps (vf drainUs : Nat) (s : State) (hs : Keeps cq co s) : OutKeeps cq co (execDisableDrainEnd vf drainUs s) := by
  unfold execDisableDrainEnd
  repeat any_goals first
    | with_reducible assumption
    | with_reducible apply OutKeeps.next
    | intro _ _
    | with_reducible apply disableDrainEnd_keeps
    | with_reducible apply State.draw_keeps
    | dsimp only
    | intro _ _ _
    | split


end Sys2Proof.Machine
end

