-- ==== Sys2Proof/Laws/Keeps/Power.lean ====
section
/-! SUPPORT. What the operations of Machine/Power.lean keep. -/

namespace Sys2Proof.Machine

open Sys2Proof

variable {cq : List Instr} {co : Oxsis}

theorem stripe_keeps (a : Area) (n : Nat) : ∀ (i : Nat) (s t : State), stripe a i n s = some t → Keeps cq co s → Keeps cq co t := by
  induction n with
  | zero =>
    intro i s t e hs
    cases e
    exact hs
  | succ n ih =>
    intro i s t e hs
    unfold stripe at e
    obtain ⟨u, hu, e⟩ := Option.bind_eq_some_iff.mp e
    exact ih _ _ _ e (areaFrame_keeps_eq hu hs)

theorem writeCheckpoint_keeps (s : State) (hs : Keeps cq co s) : Keeps cq co (writeCheckpoint s) := by
  have drop : ∀ a t, Keeps cq co t → Keeps cq co (([0, 16] : List Nat).foldl (fun s c => dropArea s a c) t) := fun a t h =>
    foldl_keeps (Keeps cq co) _ (fun s c h => dropArea_keeps _ _ _ h) _ _ h
  unfold writeCheckpoint
  split
  · exact hs
  · extract_lets slot a seq t0 sealed
    have key : ∀ t, sealed = some t → Keeps cq co t := by
      intro t e
      obtain ⟨u, hu, e⟩ := Option.bind_eq_some_iff.mp e
      obtain ⟨v, hv, e⟩ := Option.bind_eq_some_iff.mp e
      exact areaFrame_keeps_eq e (areaFrame_keeps_eq hv (stripe_keeps _ _ _ _ _ hu (drop _ _ hs)))
    clear_value sealed
    cases sealed with
    | none => exact hs
    | some t =>
      exact State.onFlash_keeps _ _ (foldl_keeps (Keeps cq co) _ (fun s c h => putAnchor_keeps _ _ _ h) _ _
        (drop _ _ (State.onSecure_keeps _ _ (key t rfl))))

theorem checkpointWrite_keeps (s : State) (hs : Keeps cq co s) : Keeps cq co (checkpointWrite s) := by
  unfold checkpointWrite
  repeat any_goals first
    | with_reducible assumption
    | with_reducible apply writeCheckpoint_keeps
    | with_reducible apply State.draw_keeps
    | dsimp only
    | intro _ _ _
    | split


theorem setPoint_keeps (s : State) (q k : Nat) (hs : Keeps cq co s) : Keeps cq co (setPoint s q k) := by
  unfold setPoint
  repeat any_goals first
    | with_reducible assumption
    | with_reducible apply State.onPower_keeps
    | with_reducible apply State.draw_keeps
    | dsimp only
    | intro _ _ _
    | split
    | with_reducible apply Keeps.lit


theorem dvfsChange_keeps (q : Nat) (s : State) (hs : Keeps cq co s) : Keeps cq co (dvfsChange q s) := by
  unfold dvfsChange
  repeat any_goals first
    | with_reducible assumption
    | with_reducible apply setPoint_keeps
    | with_reducible apply State.onPower_keeps
    | with_reducible apply State.draw_keeps
    | dsimp only
    | intro _ _ _
    | split
    | with_reducible apply Keeps.lit


theorem voltageDone_keeps (q mv : Nat) (s : State) (hs : Keeps cq co s) : Keeps cq co (voltageDone q mv s) := by
  unfold voltageDone
  repeat any_goals first
    | with_reducible assumption
    | with_reducible apply setPoint_keeps
    | with_reducible apply State.onPower_keeps
    | with_reducible apply State.draw_keeps
    | dsimp only
    | intro _ _ _
    | split
    | with_reducible apply Keeps.lit


theorem voltageDrop_keeps (q mv : Nat) (s : State) (hs : Keeps cq co s) : Keeps cq co (voltageDrop q mv s) := by
  unfold voltageDrop
  repeat any_goals first
    | with_reducible assumption
    | with_reducible apply setPoint_keeps
    | with_reducible apply State.onPower_keeps
    | with_reducible apply State.draw_keeps
    | dsimp only
    | intro _ _ _
    | split
    | with_reducible apply Keeps.lit


theorem regulatorFault_keeps (q : Nat) (s : State) (hs : Keeps cq co s) : Keeps cq co (regulatorFault q s) := by
  unfold regulatorFault
  repeat any_goals first
    | with_reducible assumption
    | with_reducible apply State.onPower_keeps
    | with_reducible apply logError_keeps
    | with_reducible apply State.draw_keeps
    | dsimp only
    | intro _ _ _
    | split
    | with_reducible apply Keeps.lit


theorem governorTick_keeps (packageDw tilesDw : Nat) (s : State) (hs : Keeps cq co s) : Keeps cq co (governorTick packageDw tilesDw s) := by
  unfold governorTick
  repeat any_goals first
    | with_reducible assumption
    | with_reducible apply State.onPower_keeps
    | with_reducible apply State.draw_keeps
    | with_reducible refine State.draw_keeps_eq ‹_› ?_
    | dsimp only
    | intro _ _ _
    | split
    | with_reducible apply Keeps.lit


theorem governorCorrection_keeps (packageDw tilesDw : Nat) (s : State) (hs : Keeps cq co s) : Keeps cq co (governorCorrection packageDw tilesDw s) := by
  unfold governorCorrection
  repeat any_goals first
    | with_reducible assumption
    | with_reducible apply State.onPower_keeps
    | with_reducible apply State.draw_keeps
    | dsimp only
    | intro _ _ _
    | split
    | with_reducible apply Keeps.lit


theorem capRaise_keeps (s : State) (hs : Keeps cq co s) : Keeps cq co (capRaise s) := by
  unfold capRaise
  repeat any_goals first
    | with_reducible assumption
    | with_reducible apply State.onPower_keeps
    | with_reducible apply State.draw_keeps
    | dsimp only
    | intro _ _ _
    | split
    | with_reducible apply Keeps.lit


theorem emergencyStart_keeps (tempC : Nat) (s : State) (hs : Keeps cq co s) : Keeps cq co (emergencyStart tempC s) := by
  unfold emergencyStart
  repeat any_goals first
    | with_reducible assumption
    | with_reducible apply State.onPower_keeps
    | with_reducible apply State.draw_keeps
    | with_reducible refine State.draw_keeps_eq ‹_› ?_
    | dsimp only
    | intro _ _ _
    | split
    | with_reducible apply Keeps.lit


theorem emergencyEnd_keeps (tempC : Nat) (s : State) (hs : Keeps cq co s) : Keeps cq co (emergencyEnd tempC s) := by
  unfold emergencyEnd
  repeat any_goals first
    | with_reducible assumption
    | with_reducible apply State.onPower_keeps
    | with_reducible apply State.draw_keeps
    | dsimp only
    | intro _ _ _
    | split
    | with_reducible apply Keeps.lit


theorem dutyStep_keeps (s : State) (hs : Keeps cq co s) : Keeps cq co (dutyStep s) := by
  unfold dutyStep
  repeat any_goals first
    | with_reducible assumption
    | with_reducible apply State.onPower_keeps
    | with_reducible apply State.draw_keeps
    | dsimp only
    | intro _ _ _
    | split
    | with_reducible apply Keeps.lit


theorem windowEnd_keeps (s : State) (hs : Keeps cq co s) : Keeps cq co (windowEnd s) := by
  unfold windowEnd
  repeat any_goals first
    | with_reducible assumption
    | with_reducible apply State.onPart_keeps
    | with_reducible apply State.onPower_keeps
    | with_reducible apply State.draw_keeps
    | with_reducible apply foldl_keeps (Keeps cq co)
    | dsimp only
    | intro _ _ _
    | split
    | with_reducible apply Keeps.lit


theorem setQuad_keeps (s : State) (q : Nat) (v : QState) (hs : Keeps cq co s) : Keeps cq co (setQuad s q v) := by
  unfold setQuad
  repeat any_goals first
    | with_reducible assumption
    | with_reducible apply State.onPower_keeps
    | with_reducible apply State.draw_keeps
    | dsimp only
    | intro _ _ _
    | split
    | with_reducible apply Keeps.lit


theorem quadIdle_keeps (q : Nat) (s : State) (hs : Keeps cq co s) : Keeps cq co (quadIdle q s) := by
  unfold quadIdle
  repeat any_goals first
    | with_reducible assumption
    | with_reducible apply setQuad_keeps
    | with_reducible apply State.draw_keeps
    | dsimp only
    | intro _ _ _
    | split


theorem quadWakeDone_keeps (q : Nat) (s : State) (hs : Keeps cq co s) : Keeps cq co (quadWakeDone q s) := by
  unfold quadWakeDone
  repeat any_goals first
    | with_reducible assumption
    | with_reducible apply setPoint_keeps
    | with_reducible apply setQuad_keeps
    | with_reducible apply State.onPower_keeps
    | with_reducible apply State.draw_keeps
    | dsimp only
    | intro _ _ _
    | split
    | with_reducible apply Keeps.lit


theorem selfRefresh_keeps (q : Nat) (s : State) (hs : Keeps cq co s) : Keeps cq co (selfRefresh q s) := by
  unfold selfRefresh
  repeat any_goals first
    | with_reducible assumption
    | with_reducible apply State.onPower_keeps
    | with_reducible apply State.draw_keeps
    | dsimp only
    | intro _ _ _
    | split
    | with_reducible apply Keeps.lit


theorem abandonEntry_keeps (s : State) (result block : Nat) (hs : Keeps cq co s) : Keeps cq co (abandonEntry s result block) := by
  unfold abandonEntry
  repeat any_goals first
    | with_reducible assumption
    | with_reducible apply State.onPower_keeps
    | with_reducible apply serveHeld_keeps
    | with_reducible apply State.draw_keeps
    | dsimp only
    | intro _ _ _
    | split
    | with_reducible apply Keeps.lit


theorem nextEntry_keeps (ofChip : Bool) (l : List EntryKind) (s : State) (hs : Keeps cq co s) : Keeps cq co (nextEntry ofChip l s) := by
  unfold nextEntry
  repeat any_goals first
    | with_reducible assumption
    | with_reducible apply State.onPower_keeps
    | with_reducible apply State.draw_keeps
    | dsimp only
    | intro _ _ _
    | split
    | with_reducible apply Keeps.lit


theorem dropCache_keeps (s : State) (q : Nat) (hs : Keeps cq co s) : Keeps cq co (dropCache s q) := by
  unfold dropCache
  repeat any_goals first
    | with_reducible assumption
    | with_reducible apply t1Write_keeps
    | with_reducible apply State.draw_keeps
    | with_reducible apply foldl_keeps (Keeps cq co)
    | dsimp only
    | intro _ _ _
    | split
    | with_reducible apply Keeps.lit
    | with_reducible refine Keeps.lit_cache (fun _ => rfl) ?_
    | with_reducible refine Keeps.lit_cache (Map.put_wf _ _ _) ?_
    | with_reducible refine Keeps.lit_cache (Map.del_wf _ _) ?_
    | with_reducible refine Keeps.lit_cache (Map.filter_wf _ _) ?_
    | with_reducible refine Keeps.lit_cache (Map.edit_wf _ _ _) ?_


theorem enterDeep_keeps (s : State) (hs : Keeps cq co s) : Keeps cq co (enterDeep s) := by
  unfold enterDeep
  repeat any_goals first
    | with_reducible assumption
    | with_reducible apply State.onPower_keeps
    | with_reducible apply isolate_keeps
    | with_reducible apply sealSecure_keeps
    | with_reducible apply State.onPins_keeps
    | with_reducible apply State.draw_keeps
    | dsimp only
    | intro _ _ _
    | split
    | with_reducible apply Keeps.lit
    | with_reducible refine Keeps.lit_cache (fun _ => rfl) ?_
    | with_reducible refine Keeps.lit_cache (Map.put_wf _ _ _) ?_
    | with_reducible refine Keeps.lit_cache (Map.del_wf _ _) ?_
    | with_reducible refine Keeps.lit_cache (Map.filter_wf _ _) ?_
    | with_reducible refine Keeps.lit_cache (Map.edit_wf _ _ _) ?_


theorem commitEntry_keeps (off : State → State) (e : Entry) (s : State) (hoff : ∀ t : State, Keeps cq co t → Keeps cq co (off t)) (hs : Keeps cq co s) : Keeps cq co (commitEntry off e s) := by
  unfold commitEntry
  repeat any_goals first
    | with_reducible assumption
    | with_reducible apply nextEntry_keeps
    | with_reducible apply setQuad_keeps
    | with_reducible apply dropCache_keeps
    | with_reducible apply enterDeep_keeps
    | with_reducible apply State.draw_keeps
    | with_reducible refine hoff _ ?_
    | dsimp only
    | intro _ _ _
    | split
    | intro _ _


theorem handshake_keeps (off : State → State) (block : Nat) (a : Answer) (s : State) (hoff : ∀ t : State, Keeps cq co t → Keeps cq co (off t)) (hs : Keeps cq co s) : Keeps cq co (handshake off block a s) := by
  unfold handshake
  repeat any_goals first
    | with_reducible assumption
    | with_reducible apply refuse_keeps
    | with_reducible apply abandonEntry_keeps
    | with_reducible apply dropCache_keeps
    | with_reducible apply writeCheckpoint_keeps
    | with_reducible apply commitEntry_keeps
    | with_reducible apply State.onPower_keeps
    | with_reducible apply State.draw_keeps
    | with_reducible apply foldl_keeps (Keeps cq co)
    | with_reducible refine hoff _ ?_
    | dsimp only
    | intro _ _ _
    | split
    | with_reducible apply Keeps.lit
    | intro _ _


theorem deferExpiry_keeps (block : Nat) (s : State) (hs : Keeps cq co s) : Keeps cq co (deferExpiry block s) := by
  unfold deferExpiry
  repeat any_goals first
    | with_reducible assumption
    | with_reducible apply abandonEntry_keeps
    | with_reducible apply State.draw_keeps
    | dsimp only
    | intro _ _ _
    | split


theorem quadSleep_keeps (q : Nat) (s : State) (hs : Keeps cq co s) : Keeps cq co (quadSleep q s) := by
  unfold quadSleep
  repeat any_goals first
    | with_reducible assumption
    | with_reducible apply nextEntry_keeps
    | with_reducible apply State.onPower_keeps
    | with_reducible apply State.draw_keeps
    | dsimp only
    | intro _ _ _
    | split
    | with_reducible apply Keeps.lit


theorem askChip_keeps (k : EntryKind) (s : State) (hs : Keeps cq co s) : Keeps cq co (askChip k s) := by
  unfold askChip
  repeat any_goals first
    | with_reducible assumption
    | with_reducible apply nextEntry_keeps
    | with_reducible apply State.onPower_keeps
    | with_reducible apply State.draw_keeps
    | dsimp only
    | intro _ _ _
    | split
    | with_reducible apply Keeps.lit


theorem askByPf0_keeps (k : EntryKind) (s : State) (hs : Keeps cq co s) : Keeps cq co (askByPf0 k s) := by
  unfold askByPf0
  repeat any_goals first
    | with_reducible assumption
    | with_reducible apply askChip_keeps
    | with_reducible apply State.draw_keeps
    | dsimp only
    | intro _ _ _
    | split


theorem autoDeep_keeps (s : State) (hs : Keeps cq co s) : Keeps cq co (autoDeep s) := by
  unfold autoDeep
  repeat any_goals first
    | with_reducible assumption
    | with_reducible apply askChip_keeps
    | with_reducible apply State.draw_keeps
    | dsimp only
    | intro _ _ _
    | split


theorem wakeEvent_keeps (bitNo : Nat) (s : State) (hs : Keeps cq co s) : Keeps cq co (wakeEvent bitNo s) := by
  unfold wakeEvent
  repeat any_goals first
    | with_reducible assumption
    | with_reducible apply State.onPower_keeps
    | with_reducible apply State.draw_keeps
    | dsimp only
    | intro _ _ _
    | split
    | with_reducible apply Keeps.lit


theorem smbusMatch_keeps (address : Nat) (s : State) (hs : Keeps cq co s) : Keeps cq co (smbusMatch address s) := by
  unfold smbusMatch
  repeat any_goals first
    | with_reducible assumption
    | with_reducible apply wakeEvent_keeps
    | with_reducible apply State.draw_keeps
    | dsimp only
    | intro _ _ _
    | split


theorem clkreqAssert_keeps (s : State) (hs : Keeps cq co s) : Keeps cq co (clkreqAssert s) := by
  unfold clkreqAssert
  repeat any_goals first
    | with_reducible assumption
    | with_reducible apply wakeEvent_keeps
    | with_reducible apply State.draw_keeps
    | dsimp only
    | intro _ _ _
    | split


theorem wakeAlarm_keeps (s : State) (hs : Keeps cq co s) : Keeps cq co (wakeAlarm s) := by
  unfold wakeAlarm
  repeat any_goals first
    | with_reducible assumption
    | with_reducible apply wakeEvent_keeps
    | with_reducible apply State.draw_keeps
    | dsimp only
    | intro _ _ _
    | split


theorem execCheckpointWrite_keeps (s : State) (hs : Keeps cq co s) : OutKeeps cq co (execCheckpointWrite s) := by
  unfold execCheckpointWrite
  repeat any_goals first
    | with_reducible assumption
    | with_reducible apply OutKeeps.next
    | intro _ _
    | with_reducible apply State.access_keeps
    | with_reducible apply checkpointWrite_keeps
    | with_reducible apply State.draw_keeps
    | dsimp only
    | intro _ _ _
    | split


theorem execDvfsPointChange_keeps (quad : Nat) (s : State) (hs : Keeps cq co s) : OutKeeps cq co (execDvfsPointChange quad s) := by
  unfold execDvfsPointChange
  repeat any_goals first
    | with_reducible assumption
    | with_reducible apply OutKeeps.next
    | intro _ _
    | with_reducible apply dvfsChange_keeps
    | with_reducible apply State.draw_keeps
    | dsimp only
    | intro _ _ _
    | split


theorem execVoltageRaiseDone_keeps (quad millivolts : Nat) (s : State) (hs : Keeps cq co s) : OutKeeps cq co (execVoltageRaiseDone quad millivolts s) := by
  unfold execVoltageRaiseDone
  repeat any_goals first
    | with_reducible assumption
    | with_reducible apply OutKeeps.next
    | intro _ _
    | with_reducible apply voltageDone_keeps
    | with_reducible apply State.draw_keeps
    | dsimp only
    | intro _ _ _
    | split


theorem execVoltageMonitorDrop_keeps (quad millivolts : Nat) (s : State) (hs : Keeps cq co s) : OutKeeps cq co (execVoltageMonitorDrop quad millivolts s) := by
  unfold execVoltageMonitorDrop
  repeat any_goals first
    | with_reducible assumption
    | with_reducible apply OutKeeps.next
    | intro _ _
    | with_reducible apply voltageDrop_keeps
    | with_reducible apply State.draw_keeps
    | dsimp only
    | intro _ _ _
    | split


theorem execRegulatorFault_keeps (quad : Nat) (s : State) (hs : Keeps cq co s) : OutKeeps cq co (execRegulatorFault quad s) := by
  unfold execRegulatorFault
  repeat any_goals first
    | with_reducible assumption
    | with_reducible apply OutKeeps.next
    | intro _ _
    | with_reducible apply regulatorFault_keeps
    | with_reducible apply State.draw_keeps
    | dsimp only
    | intro _ _ _
    | split


theorem execGovernorTick_keeps (packageDw tilesDw : Nat) (s : State) (hs : Keeps cq co s) : OutKeeps cq co (execGovernorTick packageDw tilesDw s) := by
  unfold execGovernorTick
  repeat any_goals first
    | with_reducible assumption
    | with_reducible apply OutKeeps.next
    | intro _ _
    | with_reducible apply governorTick_keeps
    | with_reducible apply State.draw_keeps
    | dsimp only
    | intro _ _ _
    | split


theorem execGovernorCorrection_keeps (packageDw tilesDw : Nat) (s : State) (hs : Keeps cq co s) : OutKeeps cq co (execGovernorCorrection packageDw tilesDw s) := by
  unfold execGovernorCorrection
  repeat any_goals first
    | with_reducible assumption
    | with_reducible apply OutKeeps.next
    | intro _ _
    | with_reducible apply governorCorrection_keeps
    | with_reducible apply State.draw_keeps
    | dsimp only
    | intro _ _ _
    | split


theorem execCapRaise_keeps (s : State) (hs : Keeps cq co s) : OutKeeps cq co (execCapRaise s) := by
  unfold execCapRaise
  repeat any_goals first
    | with_reducible assumption
    | with_reducible apply OutKeeps.next
    | intro _ _
    | with_reducible apply capRaise_keeps
    | with_reducible apply State.draw_keeps
    | dsimp only
    | intro _ _ _
    | split


theorem execThermalEmergencyStart_keeps (tempC : Nat) (s : State) (hs : Keeps cq co s) : OutKeeps cq co (execThermalEmergencyStart tempC s) := by
  unfold execThermalEmergencyStart
  repeat any_goals first
    | with_reducible assumption
    | with_reducible apply OutKeeps.next
    | intro _ _
    | with_reducible apply emergencyStart_keeps
    | with_reducible apply State.draw_keeps
    | dsimp only
    | intro _ _ _
    | split


theorem execThermalEmergencyEnd_keeps (tempC : Nat) (s : State) (hs : Keeps cq co s) : OutKeeps cq co (execThermalEmergencyEnd tempC s) := by
  unfold execThermalEmergencyEnd
  repeat any_goals first
    | with_reducible assumption
    | with_reducible apply OutKeeps.next
    | intro _ _
    | with_reducible apply emergencyEnd_keeps
    | with_reducible apply State.draw_keeps
    | dsimp only
    | intro _ _ _
    | split


theorem execDutyCycleStep_keeps (s : State) (hs : Keeps cq co s) : OutKeeps cq co (execDutyCycleStep s) := by
  unfold execDutyCycleStep
  repeat any_goals first
    | with_reducible assumption
    | with_reducible apply OutKeeps.next
    | intro _ _
    | with_reducible apply dutyStep_keeps
    | with_reducible apply State.draw_keeps
    | dsimp only
    | intro _ _ _
    | split


theorem execAccountingWindowEnd_keeps (s : State) (hs : Keeps cq co s) : OutKeeps cq co (execAccountingWindowEnd s) := by
  unfold execAccountingWindowEnd
  repeat any_goals first
    | with_reducible assumption
    | with_reducible apply OutKeeps.next
    | intro _ _
    | with_reducible apply windowEnd_keeps
    | with_reducible apply State.draw_keeps
    | dsimp only
    | intro _ _ _
    | split


theorem execQuadrantIdleEntry_keeps (quad : Nat) (s : State) (hs : Keeps cq co s) : OutKeeps cq co (execQuadrantIdleEntry quad s) := by
  unfold execQuadrantIdleEntry
  repeat any_goals first
    | with_reducible assumption
    | with_reducible apply OutKeeps.next
    | intro _ _
    | with_reducible apply quadIdle_keeps
    | with_reducible apply State.draw_keeps
    | dsimp only
    | intro _ _ _
    | split


theorem execQuadrantSleepEntry_keeps (quad : Nat) (s : State) (hs : Keeps cq co s) : OutKeeps cq co (execQuadrantSleepEntry quad s) := by
  unfold execQuadrantSleepEntry
  repeat any_goals first
    | with_reducible assumption
    | with_reducible apply OutKeeps.next
    | intro _ _
    | with_reducible apply quadSleep_keeps
    | with_reducible apply State.draw_keeps
    | dsimp only
    | intro _ _ _
    | split


theorem execQuadrantWakeComplete_keeps (quad : Nat) (s : State) (hs : Keeps cq co s) : OutKeeps cq co (execQuadrantWakeComplete quad s) := by
  unfold execQuadrantWakeComplete
  repeat any_goals first
    | with_reducible assumption
    | with_reducible apply OutKeeps.next
    | intro _ _
    | with_reducible apply quadWakeDone_keeps
    | with_reducible apply State.draw_keeps
    | dsimp only
    | intro _ _ _
    | split


theorem execSelfRefreshReturn_keeps (quad : Nat) (s : State) (hs : Keeps cq co s) : OutKeeps cq co (execSelfRefreshReturn quad s) := by
  unfold execSelfRefreshReturn
  repeat any_goals first
    | with_reducible assumption
    | with_reducible apply OutKeeps.next
    | intro _ _
    | with_reducible apply selfRefresh_keeps
    | with_reducible apply State.draw_keeps
    | dsimp only
    | intro _ _ _
    | split


theorem execDeepSleepRequest_keeps (s : State) (hs : Keeps cq co s) : OutKeeps cq co (execDeepSleepRequest s) := by
  unfold execDeepSleepRequest
  repeat any_goals first
    | with_reducible assumption
    | with_reducible apply OutKeeps.next
    | intro _ _
    | with_reducible apply State.access_keeps
    | with_reducible apply askByPf0_keeps
    | with_reducible apply State.draw_keeps
    | dsimp only
    | intro _ _ _
    | split


theorem execOffRequest_keeps (s : State) (hs : Keeps cq co s) : OutKeeps cq co (execOffRequest s) := by
  unfold execOffRequest
  repeat any_goals first
    | with_reducible assumption
    | with_reducible apply OutKeeps.next
    | intro _ _
    | with_reducible apply State.access_keeps
    | with_reducible apply askByPf0_keeps
    | with_reducible apply State.draw_keeps
    | dsimp only
    | intro _ _ _
    | split
    | intro _ _


theorem execAutoDeepSleep_keeps (s : State) (hs : Keeps cq co s) : OutKeeps cq co (execAutoDeepSleep s) := by
  unfold execAutoDeepSleep
  repeat any_goals first
    | with_reducible assumption
    | with_reducible apply OutKeeps.next
    | intro _ _
    | with_reducible apply autoDeep_keeps
    | with_reducible apply State.draw_keeps
    | dsimp only
    | intro _ _ _
    | split


theorem execDeferLimitExpiry_keeps (block : Nat) (s : State) (hs : Keeps cq co s) : OutKeeps cq co (execDeferLimitExpiry block s) := by
  unfold execDeferLimitExpiry
  repeat any_goals first
    | with_reducible assumption
    | with_reducible apply OutKeeps.next
    | intro _ _
    | with_reducible apply deferExpiry_keeps
    | with_reducible apply State.draw_keeps
    | dsimp only
    | intro _ _ _
    | split


theorem execSmbusAddressMatch_keeps (address : Nat) (s : State) (hs : Keeps cq co s) : OutKeeps cq co (execSmbusAddressMatch address s) := by
  unfold execSmbusAddressMatch
  repeat any_goals first
    | with_reducible assumption
    | with_reducible apply OutKeeps.next
    | intro _ _
    | with_reducible apply smbusMatch_keeps
    | with_reducible apply State.draw_keeps
    | dsimp only
    | intro _ _ _
    | split


theorem execClkreqAssert_keeps (s : State) (hs : Keeps cq co s) : OutKeeps cq co (execClkreqAssert s) := by
  unfold execClkreqAssert
  repeat any_goals first
    | with_reducible assumption
    | with_reducible apply OutKeeps.next
    | intro _ _
    | with_reducible apply clkreqAssert_keeps
    | with_reducible apply State.draw_keeps
    | dsimp only
    | intro _ _ _
    | split


theorem execWakeAlarm_keeps (s : State) (hs : Keeps cq co s) : OutKeeps cq co (execWakeAlarm s) := by
  unfold execWakeAlarm
  repeat any_goals first
    | with_reducible assumption
    | with_reducible apply OutKeeps.next
    | intro _ _
    | with_reducible apply wakeAlarm_keeps
    | with_reducible apply State.draw_keeps
    | dsimp only
    | intro _ _ _
    | split


end Sys2Proof.Machine
end

