-- ==== Sys2Proof/Laws/Keeps/Health.lean ====
section
/-! SUPPORT. What the operations of Machine/Health.lean keep. -/

namespace Sys2Proof.Machine

open Sys2Proof

variable {cq : List Instr} {co : Oxsis}

theorem coldState_keeps (s : State) (hs : Keeps cq co s) : Keeps cq co (coldState s) :=
  ⟨hs.queue, hs.mem, (rfl : Map.wf State.reset.funcs = true), (rfl : Map.wf State.reset.cache = true), hs.fuses.trans (FusesFrom.of_eq rfl rfl rfl)⟩

theorem restartChip_keeps (r : ErrRecord) (s : State) (hs : Keeps cq co s) : Keeps cq co (restartChip r s) := by
  unfold restartChip
  repeat any_goals first
    | with_reducible assumption
    | with_reducible apply coldState_keeps
    | with_reducible apply sealSecure_keeps
    | with_reducible apply State.draw_keeps
    | dsimp only
    | intro _ _ _
    | split
    | with_reducible apply Keeps.lit


theorem retireFrame_keeps (s : State) (frame : Nat) (hs : Keeps cq co s) : Keeps cq co (retireFrame s frame) := by
  unfold retireFrame
  repeat any_goals first
    | with_reducible assumption
    | with_reducible apply State.onHealth_keeps
    | with_reducible apply sealSecure_keeps
    | with_reducible apply logError_keeps
    | with_reducible apply sendPages_keeps
    | with_reducible apply State.draw_keeps
    | with_reducible apply foldl_keeps (Keeps cq co)
    | dsimp only
    | intro _ _ _
    | split
    | with_reducible apply Keeps.lit


theorem failRow_keeps (s : State) (ch row frame : Nat) (hs : Keeps cq co s) : Keeps cq co (failRow s ch row frame) := by
  unfold failRow
  repeat any_goals first
    | with_reducible assumption
    | with_reducible apply State.onHealth_keeps
    | with_reducible apply retireFrame_keeps
    | with_reducible apply State.draw_keeps
    | dsimp only
    | intro _ _ _
    | split
    | with_reducible apply Keeps.lit


theorem rowRepaired_keeps (ch row : Nat) (s : State) (hs : Keeps cq co s) : Keeps cq co (rowRepaired ch row s) := by
  unfold rowRepaired
  repeat any_goals first
    | with_reducible assumption
    | with_reducible apply State.onHealth_keeps
    | with_reducible apply sealSecure_keeps
    | with_reducible apply logError_keeps
    | with_reducible apply State.draw_keeps
    | dsimp only
    | intro _ _ _
    | split
    | with_reducible apply Keeps.lit


theorem countRow_keeps (s : State) (ch row frame : Nat) (hs : Keeps cq co s) : Keeps cq co (countRow s ch row frame) := by
  unfold countRow
  repeat any_goals first
    | with_reducible assumption
    | with_reducible apply State.onHealth_keeps
    | with_reducible apply failRow_keeps
    | with_reducible apply State.draw_keeps
    | dsimp only
    | intro _ _ _
    | split
    | with_reducible apply Keeps.lit


theorem poisonSector_keeps (s : State) (p frame inFrame : Nat) (hs : Keeps cq co s) : Keeps cq co (poisonSector s p frame inFrame) := by
  unfold poisonSector
  repeat any_goals first
    | with_reducible assumption
    | with_reducible apply State.onPart_keeps
    | with_reducible apply State.draw_keeps
    | dsimp only
    | intro _ _ _
    | split
    | with_reducible apply Keeps.lit


theorem loseRun_keeps (s : State) (c : CmdRef) (hs : Keeps cq co s) : Keeps cq co (loseRun s c) := by
  unfold loseRun
  repeat any_goals first
    | with_reducible assumption
    | with_reducible apply setStage_keeps
    | with_reducible apply releaseRun_keeps
    | with_reducible apply killCommand_keeps
    | with_reducible apply State.onFlight_keeps
    | with_reducible apply State.draw_keeps
    | dsimp only
    | intro _ _ _
    | split
    | with_reducible apply Keeps.lit


theorem loseDevice_keeps (s : State) (o : DeviceOwner) (hs : Keeps cq co s) : Keeps cq co (loseDevice s o) := by
  unfold loseDevice
  repeat any_goals first
    | with_reducible assumption
    | with_reducible apply State.onPart_keeps
    | with_reducible apply abandonMove_keeps
    | with_reducible apply loseRun_keeps
    | with_reducible apply sendNak_keeps
    | with_reducible apply State.onQp_keeps
    | with_reducible apply State.onEq_keeps
    | with_reducible apply restartChip_keeps
    | with_reducible apply State.draw_keeps
    | dsimp only
    | intro _ _ _
    | split
    | with_reducible apply Keeps.lit


theorem patrolError_keeps (s : State) (e : DramError) (hs : Keeps cq co s) : Keeps cq co (patrolError s e) := by
  unfold patrolError
  repeat any_goals first
    | with_reducible assumption
    | with_reducible apply countRow_keeps
    | with_reducible apply logError_keeps
    | with_reducible apply dramError_keeps
    | with_reducible apply poisonSector_keeps
    | with_reducible apply failRow_keeps
    | with_reducible apply loseDevice_keeps
    | with_reducible apply State.draw_keeps
    | dsimp only
    | intro _ _ _
    | split
    | with_reducible apply Keeps.lit


theorem dramPatrol_keeps (errors : List DramError) (s : State) (hs : Keeps cq co s) : Keeps cq co (dramPatrol errors s) := by
  unfold dramPatrol
  repeat any_goals first
    | with_reducible assumption
    | with_reducible apply patrolError_keeps
    | with_reducible apply State.draw_keeps
    | with_reducible apply foldl_keeps (Keeps cq co)
    | dsimp only
    | intro _ _ _
    | split


theorem hotRestore_keeps (p i : Nat) (shadowOk : Bool) (s : State) (hs : Keeps cq co s) : Keeps cq co (hotRestore p i shadowOk s) := by
  unfold hotRestore
  repeat any_goals first
    | with_reducible assumption
    | with_reducible apply restartChip_keeps
    | with_reducible apply logError_keeps
    | with_reducible apply State.draw_keeps
    | dsimp only
    | intro _ _ _
    | split
    | with_reducible apply Keeps.lit


theorem entryInvalid_keeps (p i : Nat) (s : State) (hs : Keeps cq co s) : Keeps cq co (entryInvalid p i s) := by
  unfold entryInvalid
  repeat any_goals first
    | with_reducible assumption
    | with_reducible apply State.onPart_keeps
    | with_reducible apply logError_keeps
    | with_reducible apply State.draw_keeps
    | dsimp only
    | intro _ _ _
    | split
    | with_reducible apply Keeps.lit


theorem ageingMeasure_keeps (die driftBp : Nat) (s : State) (hs : Keeps cq co s) : Keeps cq co (ageingMeasure die driftBp s) := by
  unfold ageingMeasure
  repeat any_goals first
    | with_reducible assumption
    | with_reducible apply State.onHealth_keeps
    | with_reducible apply logError_keeps
    | with_reducible apply State.draw_keeps
    | dsimp only
    | intro _ _ _
    | split
    | with_reducible apply Keeps.lit


theorem lifeDaily_keeps (s : State) (hs : Keeps cq co s) : Keeps cq co (lifeDaily s) := by
  unfold lifeDaily
  repeat any_goals first
    | with_reducible assumption
    | with_reducible apply sealSecure_keeps
    | with_reducible apply State.onHealth_keeps
    | with_reducible apply State.draw_keeps
    | dsimp only
    | intro _ _ _
    | split
    | with_reducible apply Keeps.lit


theorem execDramPatrol_keeps (errors : List DramError) (s : State) (hs : Keeps cq co s) : OutKeeps cq co (execDramPatrol errors s) := by
  unfold execDramPatrol
  repeat any_goals first
    | with_reducible assumption
    | with_reducible apply OutKeeps.next
    | intro _ _
    | with_reducible apply dramPatrol_keeps
    | with_reducible apply State.draw_keeps
    | dsimp only
    | intro _ _ _
    | split


theorem execRowRepairComplete_keeps (channel row : Nat) (s : State) (hs : Keeps cq co s) : OutKeeps cq co (execRowRepairComplete channel row s) := by
  unfold execRowRepairComplete
  repeat any_goals first
    | with_reducible assumption
    | with_reducible apply OutKeeps.next
    | intro _ _
    | with_reducible apply rowRepaired_keeps
    | with_reducible apply State.draw_keeps
    | dsimp only
    | intro _ _ _
    | split


theorem execHotEntryShadowRestore_keeps (part seq : Nat) (shadowOk : Bool) (s : State) (hs : Keeps cq co s) : OutKeeps cq co (execHotEntryShadowRestore part seq shadowOk s) := by
  unfold execHotEntryShadowRestore
  repeat any_goals first
    | with_reducible assumption
    | with_reducible apply OutKeeps.next
    | intro _ _
    | with_reducible apply hotRestore_keeps
    | with_reducible apply State.draw_keeps
    | dsimp only
    | intro _ _ _
    | split


theorem execDirectoryEntryInvalidate_keeps (part entry : Nat) (s : State) (hs : Keeps cq co s) : OutKeeps cq co (execDirectoryEntryInvalidate part entry s) := by
  unfold execDirectoryEntryInvalidate
  repeat any_goals first
    | with_reducible assumption
    | with_reducible apply OutKeeps.next
    | intro _ _
    | with_reducible apply entryInvalid_keeps
    | with_reducible apply State.draw_keeps
    | dsimp only
    | intro _ _ _
    | split


theorem execChipRestart_keeps (s : State) (hs : Keeps cq co s) : OutKeeps cq co (execChipRestart s) := by
  unfold execChipRestart
  repeat any_goals first
    | with_reducible assumption
    | with_reducible apply OutKeeps.next
    | intro _ _
    | with_reducible apply restartChip_keeps
    | with_reducible apply State.draw_keeps
    | dsimp only
    | intro _ _ _
    | split


theorem execAgeingMeasure_keeps (die driftBp : Nat) (s : State) (hs : Keeps cq co s) : OutKeeps cq co (execAgeingMeasure die driftBp s) := by
  unfold execAgeingMeasure
  repeat any_goals first
    | with_reducible assumption
    | with_reducible apply OutKeeps.next
    | intro _ _
    | with_reducible apply ageingMeasure_keeps
    | with_reducible apply State.draw_keeps
    | dsimp only
    | intro _ _ _
    | split


theorem execLifeDailyRecord_keeps (s : State) (hs : Keeps cq co s) : OutKeeps cq co (execLifeDailyRecord s) := by
  unfold execLifeDailyRecord
  repeat any_goals first
    | with_reducible assumption
    | with_reducible apply OutKeeps.next
    | intro _ _
    | with_reducible apply lifeDaily_keeps
    | with_reducible apply State.draw_keeps
    | dsimp only
    | intro _ _ _
    | split


end Sys2Proof.Machine
end

