-- ==== Sys2Proof/Laws/Keeps/Startup.lean ====
section
/-! SUPPORT. What the operations of Machine/Startup.lean keep. -/

namespace Sys2Proof.Machine

open Sys2Proof

variable {cq : List Instr} {co : Oxsis}

theorem railsLost_keeps (s : State) (hs : Keeps cq co s) : Keeps cq co (railsLost s) := by
  unfold railsLost
  repeat any_goals first
    | with_reducible assumption
    | with_reducible apply coldState_keeps
    | with_reducible apply State.draw_keeps
    | dsimp only
    | intro _ _ _
    | split
    | with_reducible apply Keeps.lit
    | intro _ _


theorem railsUp_keeps (s : State) (hs : Keeps cq co s) : Keeps cq co (railsUp s) := by
  unfold railsUp
  repeat any_goals first
    | with_reducible assumption
    | with_reducible apply State.draw_keeps
    | dsimp only
    | intro _ _ _
    | split
    | with_reducible apply Keeps.lit


theorem wakeFromOff_keeps (latched : Bool) (s : State) (hs : Keeps cq co s) : Keeps cq co (wakeFromOff latched s) := by
  unfold wakeFromOff
  repeat any_goals first
    | with_reducible assumption
    | with_reducible apply railsUp_keeps
    | with_reducible apply State.onPower_keeps
    | with_reducible apply State.draw_keeps
    | dsimp only
    | intro _ _ _
    | split
    | with_reducible apply Keeps.lit


theorem enterOff_keeps (s : State) (hs : Keeps cq co s) : Keeps cq co (enterOff s) := by
  unfold enterOff
  repeat any_goals first
    | with_reducible assumption
    | with_reducible apply railsLost_keeps
    | with_reducible apply wakeFromOff_keeps
    | with_reducible apply State.draw_keeps
    | dsimp only
    | intro _ _ _
    | split
    | intro _ _


theorem handshakeAnswer_keeps (block : Nat) (a : Answer) (s : State) (hs : Keeps cq co s) : Keeps cq co (handshakeAnswer block a s) := by
  unfold handshakeAnswer
  repeat any_goals first
    | with_reducible assumption
    | with_reducible apply handshake_keeps
    | with_reducible apply enterOff_keeps
    | with_reducible apply State.draw_keeps
    | dsimp only
    | intro _ _ _
    | split
    | intro _ _


theorem pwrokFall_keeps (s : State) (hs : Keeps cq co s) : Keeps cq co (pwrokFall s) := by
  unfold pwrokFall
  repeat any_goals first
    | with_reducible assumption
    | with_reducible apply railsLost_keeps
    | with_reducible apply State.draw_keeps
    | dsimp only
    | intro _ _ _
    | split
    | with_reducible apply Keeps.lit
    | intro _ _


theorem railRestart_keeps (s : State) (hs : Keeps cq co s) : Keeps cq co (railRestart s) := by
  unfold railRestart
  repeat any_goals first
    | with_reducible assumption
    | with_reducible apply railsUp_keeps
    | with_reducible apply State.draw_keeps
    | dsimp only
    | intro _ _ _
    | split


theorem standbyOn_keeps (s : State) (hs : Keeps cq co s) : Keeps cq co (standbyOn s) := by
  unfold standbyOn
  repeat any_goals first
    | with_reducible assumption
    | with_reducible apply State.onPins_keeps
    | with_reducible apply State.draw_keeps
    | dsimp only
    | intro _ _ _
    | split
    | with_reducible apply Keeps.lit


theorem vstbyLoss_keeps (s : State) (hs : Keeps cq co s) : Keeps cq co (vstbyLoss s) := by
  unfold vstbyLoss
  repeat any_goals first
    | with_reducible assumption
    | with_reducible apply railsLost_keeps
    | with_reducible apply State.onPins_keeps
    | with_reducible apply State.draw_keeps
    | dsimp only
    | intro _ _ _
    | split
    | with_reducible apply Keeps.lit


theorem sysRst_keeps (viaPerst : Bool) (s : State) (hs : Keeps cq co s) : Keeps cq co (sysRst viaPerst s) := by
  unfold sysRst
  repeat any_goals first
    | with_reducible assumption
    | with_reducible apply coldState_keeps
    | with_reducible apply State.onPins_keeps
    | with_reducible apply State.draw_keeps
    | dsimp only
    | intro _ _ _
    | split
    | with_reducible apply Keeps.lit
    | intro _ _


theorem thermalTrip_keeps (tempC : Nat) (s : State) (hs : Keeps cq co s) : Keeps cq co (thermalTrip tempC s) := by
  unfold thermalTrip
  repeat any_goals first
    | with_reducible assumption
    | with_reducible apply railsLost_keeps
    | with_reducible apply State.draw_keeps
    | dsimp only
    | intro _ _ _
    | split
    | with_reducible apply Keeps.lit
    | intro _ _


theorem resetLink_keeps (s : State) (hs : Keeps cq co s) : Keeps cq co (resetLink s) :=
  Keeps.lit_funcs (Map.each_wf _ _) (pf0Reset_keeps s hs)

theorem hostLinkReset_keeps (s : State) (hs : Keeps cq co s) : Keeps cq co (hostLinkReset s) := by
  unfold hostLinkReset
  repeat any_goals first
    | with_reducible assumption
    | with_reducible apply abandonEntry_keeps
    | with_reducible apply wakeEvent_keeps
    | with_reducible apply resetLink_keeps
    | with_reducible apply State.onPins_keeps
    | with_reducible apply State.draw_keeps
    | dsimp only
    | intro _ _ _
    | split
    | with_reducible apply Keeps.lit


theorem wakeNLow_keeps (s : State) (hs : Keeps cq co s) : Keeps cq co (wakeNLow s) := by
  unfold wakeNLow
  repeat any_goals first
    | with_reducible assumption
    | with_reducible apply wakeFromOff_keeps
    | with_reducible apply wakeEvent_keeps
    | with_reducible apply State.draw_keeps
    | dsimp only
    | intro _ _ _
    | split
    | intro _ _


theorem crystalSettled_keeps (s : State) (hs : Keeps cq co s) : Keeps cq co (crystalSettled s) := by
  unfold crystalSettled
  repeat any_goals first
    | with_reducible assumption
    | with_reducible apply State.onPins_keeps
    | with_reducible apply State.draw_keeps
    | dsimp only
    | intro _ _ _
    | split
    | with_reducible apply Keeps.lit
    | intro _ _


theorem jtagInstruction_keeps (i : JtagInstr) (s : State) (hs : Keeps cq co s) : Keeps cq co (jtagInstruction i s) := by
  unfold jtagInstruction
  repeat any_goals first
    | with_reducible assumption
    | with_reducible apply State.onPins_keeps
    | with_reducible apply State.draw_keeps
    | dsimp only
    | intro _ _ _
    | split
    | with_reducible apply Keeps.lit
    | intro _ _


theorem tapReset_keeps (s : State) (hs : Keeps cq co s) : Keeps cq co (tapReset s) := by
  unfold tapReset
  repeat any_goals first
    | with_reducible assumption
    | with_reducible apply State.onPins_keeps
    | with_reducible apply State.draw_keeps
    | dsimp only
    | intro _ _ _
    | split
    | with_reducible apply Keeps.lit


theorem freePercent_keeps (s : State) (hs : Keeps cq co s) : Keeps cq co (freePercent s) := by
  unfold freePercent
  repeat any_goals first
    | with_reducible assumption
    | with_reducible apply State.draw_keeps
    | with_reducible refine State.draw_keeps_eq ‹_› ?_
    | with_reducible apply State.onFlash_keeps
    | dsimp only
    | intro _ _ _
    | split
    | with_reducible apply Keeps.lit


theorem retrainChannel_keeps (s : State) (e : Nat × Int × Bool) (hs : Keeps cq co s) : Keeps cq co (retrainChannel s e) := by
  unfold retrainChannel
  repeat any_goals first
    | with_reducible assumption
    | with_reducible apply State.onChannel_keeps
    | with_reducible apply State.onHealth_keeps
    | with_reducible apply State.draw_keeps
    | dsimp only
    | intro _ _ _
    | split
    | with_reducible apply Keeps.lit


theorem drivePins_keeps (s : State) (hs : Keeps cq co s) : Keeps cq co (drivePins s) := by
  unfold drivePins
  repeat any_goals first
    | with_reducible assumption
    | with_reducible apply State.onPins_keeps
    | with_reducible apply State.draw_keeps
    | dsimp only
    | intro _ _ _
    | split
    | with_reducible apply Keeps.lit


theorem deepExit_keeps (tagOk copyOk : Bool) (channels : List (Nat × Int × Bool)) (s : State) (hs : Keeps cq co s) : Keeps cq co (deepExit tagOk copyOk channels s) := by
  unfold deepExit
  repeat any_goals first
    | with_reducible assumption
    | with_reducible apply logError_keeps
    | with_reducible apply coldState_keeps
    | with_reducible apply State.onPower_keeps
    | with_reducible apply State.onPins_keeps
    | with_reducible apply State.onFabric_keeps
    | with_reducible apply drivePins_keeps
    | with_reducible apply retrainChannel_keeps
    | with_reducible apply State.onOxs_keeps
    | with_reducible apply State.onSecure_keeps
    | with_reducible apply resetLink_keeps
    | with_reducible apply State.draw_keeps
    | with_reducible apply foldl_keeps (Keeps cq co)
    | dsimp only
    | intro _ _ _
    | split
    | with_reducible apply Keeps.lit
    | with_reducible apply Keeps.lit_oxs
    | exact FusesFrom.of_eq rfl rfl rfl


theorem findChannel_keeps (s : State) (e : Nat × ChannelFound) (hs : Keeps cq co s) : Keeps cq co (findChannel s e) := by
  unfold findChannel
  repeat any_goals first
    | with_reducible assumption
    | with_reducible apply State.onFlash_keeps
    | with_reducible apply State.onPins_keeps
    | with_reducible apply State.draw_keeps
    | with_reducible apply foldl_keeps (Keeps cq co)
    | dsimp only
    | intro _ _ _
    | split
    | with_reducible apply Keeps.lit


theorem readMeta_keeps (s : State) (hs : Keeps cq co s) : Keeps cq co (readMeta s) := by
  unfold readMeta
  repeat any_goals first
    | with_reducible assumption
    | with_reducible apply State.onFlash_keeps
    | with_reducible apply State.draw_keeps
    | dsimp only
    | intro _ _ _
    | split
    | with_reducible apply Keeps.lit


theorem logFactory_keeps (bad : List BlockId) (s : State) (hs : Keeps cq co s) : Keeps cq co (logFactory bad s) := by
  unfold logFactory
  repeat any_goals first
    | with_reducible assumption
    | with_reducible apply logEntry_keeps
    | with_reducible apply State.draw_keeps
    | with_reducible apply foldl_keeps (Keeps cq co)
    | dsimp only
    | intro _ _ _
    | split
    | with_reducible apply Keeps.lit


theorem haltStart_keeps (s : State) (source : Nat) (hs : Keeps cq co s) : Keeps cq co (haltStart s source) := by
  unfold haltStart
  repeat any_goals first
    | with_reducible assumption
    | with_reducible apply logError_keeps
    | with_reducible apply State.draw_keeps
    | dsimp only
    | intro _ _ _
    | split
    | with_reducible apply Keeps.lit


theorem startRange_from (o : Oxsis) : FusesFrom o (startRange o) := by
  unfold startRange
  split
  · exact ⟨fun _ => Nat.le_refl _, Nat.le_succ _, id, fun h => by simp [h]⟩
  · exact FusesFrom.of_eq rfl rfl rfl

theorem loadSealed_keeps (s : State) (hs : Keeps cq co s) : Keeps cq co (loadSealed s) :=
  State.onHealth_keeps _ _ (State.onOxs_keeps _ _ (startRange_from _) (State.onSched_keeps _ _ hs.lit))

theorem headFatal_keeps (s : State) (hs : Keeps cq co s) : Keeps cq co (headFatal s) := by
  unfold headFatal
  repeat any_goals first
    | with_reducible assumption
    | with_reducible apply State.onFlash_keeps
    | with_reducible apply State.onHealth_keeps
    | with_reducible apply State.draw_keeps
    | dsimp only
    | intro _ _ _
    | split
    | with_reducible apply Keeps.lit


theorem startMemory_keeps (env : ColdEnv) (s : State) (hs : Keeps cq co s) : Keeps cq co (startMemory env s) := by
  unfold startMemory
  repeat any_goals first
    | with_reducible assumption
    | with_reducible apply State.onFlash_keeps
    | with_reducible apply haltStart_keeps
    | with_reducible apply findChannel_keeps
    | with_reducible apply State.onHealth_keeps
    | with_reducible apply startRange_from
    | with_reducible apply loadSealed_keeps
    | with_reducible apply logFactory_keeps
    | with_reducible apply readMeta_keeps
    | with_reducible apply freePercent_keeps
    | with_reducible apply State.draw_keeps
    | with_reducible apply foldl_keeps (Keeps cq co)
    | dsimp only
    | intro _ _ _
    | split
    | with_reducible apply Keeps.lit


theorem coldStart_keeps (env : ColdEnv) (s : State) (hs : Keeps cq co s) : Keeps cq co (coldStart env s) := by
  unfold coldStart
  repeat any_goals first
    | with_reducible assumption
    | with_reducible apply headFatal_keeps
    | with_reducible apply State.onPins_keeps
    | with_reducible apply State.onOxs_keeps
    | with_reducible apply setPoint_keeps
    | with_reducible apply logError_keeps
    | with_reducible apply State.onPower_keeps
    | with_reducible apply startMemory_keeps
    | with_reducible apply State.draw_keeps
    | with_reducible apply foldl_keeps (Keeps cq co)
    | dsimp only
    | intro _ _ _
    | split
    | with_reducible apply Keeps.lit
    | with_reducible apply Keeps.lit_oxs
    | exact FusesFrom.of_eq rfl rfl rfl


theorem resumeClock_keeps (s : State) (hs : Keeps cq co s) : Keeps cq co (resumeClock s) := by
  unfold resumeClock
  repeat any_goals first
    | with_reducible assumption
    | with_reducible apply logEntry_keeps
    | with_reducible apply State.onFlash_keeps
    | with_reducible apply State.draw_keeps
    | with_reducible apply foldl_keeps (Keeps cq co)
    | dsimp only
    | intro _ _ _
    | split
    | with_reducible apply Keeps.lit


theorem applyBad_keeps (s : State) (hs : Keeps cq co s) : Keeps cq co (applyBad s) := by
  unfold applyBad
  repeat any_goals first
    | with_reducible assumption
    | with_reducible apply State.onBlock_keeps
    | with_reducible apply State.draw_keeps
    | with_reducible apply foldl_keeps (Keeps cq co)
    | dsimp only
    | intro _ _ _
    | split
    | with_reducible apply Keeps.lit


theorem findOpen_keeps (s : State) (hs : Keeps cq co s) : Keeps cq co (findOpen s) := by
  unfold findOpen
  repeat any_goals first
    | with_reducible assumption
    | with_reducible apply State.onChannel_keeps
    | with_reducible apply State.draw_keeps
    | with_reducible apply foldl_keeps (Keeps cq co)
    | dsimp only
    | intro _ _ _
    | split
    | with_reducible apply Keeps.lit


theorem mapLoad_keeps (s : State) (hs : Keeps cq co s) : Keeps cq co (mapLoad s) := by
  unfold mapLoad
  repeat any_goals first
    | with_reducible assumption
    | with_reducible apply freePercent_keeps
    | with_reducible apply State.onFlash_keeps
    | with_reducible apply resumeClock_keeps
    | with_reducible apply findOpen_keeps
    | with_reducible apply applyBad_keeps
    | with_reducible apply State.draw_keeps
    | dsimp only
    | intro _ _ _
    | split
    | with_reducible apply Keeps.lit


theorem mapScan_keeps (s : State) (hs : Keeps cq co s) : Keeps cq co (mapScan s) := by
  unfold mapScan
  repeat any_goals first
    | with_reducible assumption
    | with_reducible apply applyBad_keeps
    | with_reducible apply State.onFlash_keeps
    | with_reducible apply freePercent_keeps
    | with_reducible apply resumeClock_keeps
    | with_reducible apply findOpen_keeps
    | with_reducible apply State.draw_keeps
    | with_reducible apply foldl_keeps (Keeps cq co)
    | dsimp only
    | intro _ _ _
    | split
    | with_reducible apply Keeps.lit


theorem mapSegmentRebuild_keeps (p g : Nat) (bad : List Place) (s : State) (hs : Keeps cq co s) : Keeps cq co (mapSegmentRebuild p g bad s) := by
  unfold mapSegmentRebuild
  repeat any_goals first
    | with_reducible assumption
    | with_reducible apply State.onPart_keeps
    | with_reducible apply bringSegment_keeps
    | with_reducible apply State.draw_keeps
    | with_reducible apply foldl_keeps (Keeps cq co)
    | dsimp only
    | intro _ _ _
    | split
    | with_reducible apply Keeps.lit


theorem recoverPart_keeps (bad : List Place) (s : State) (p : Nat) (hs : Keeps cq co s) : Keeps cq co (recoverPart bad s p) := by
  unfold recoverPart
  repeat any_goals first
    | with_reducible assumption
    | with_reducible apply State.onPart_keeps
    | with_reducible apply discardFlash_keeps
    | with_reducible apply buildTables_keeps
    | with_reducible apply State.draw_keeps
    | with_reducible apply foldl_keeps (Keeps cq co)
    | dsimp only
    | intro _ _ _
    | split
    | with_reducible apply Keeps.lit


theorem restStore_keeps (startupMs : Nat) (bad : List Place) (s : State) (hs : Keeps cq co s) : Keeps cq co (restStore startupMs bad s) := by
  unfold restStore
  repeat any_goals first
    | with_reducible assumption
    | with_reducible apply recoverPart_keeps
    | with_reducible apply freePercent_keeps
    | with_reducible apply State.onFlash_keeps
    | with_reducible apply postRecord_keeps
    | with_reducible apply State.draw_keeps
    | with_reducible apply foldl_keeps (Keeps cq co)
    | dsimp only
    | intro _ _ _
    | split
    | with_reducible apply Keeps.lit


theorem execHandshakeAnswer_keeps (block : Nat) (answer : Answer) (s : State) (hs : Keeps cq co s) : OutKeeps cq co (execHandshakeAnswer block answer s) := by
  unfold execHandshakeAnswer
  repeat any_goals first
    | with_reducible assumption
    | with_reducible apply OutKeeps.next
    | intro _ _
    | with_reducible apply handshakeAnswer_keeps
    | with_reducible apply State.draw_keeps
    | dsimp only
    | intro _ _ _
    | split


theorem execWakeNLow_keeps (s : State) (hs : Keeps cq co s) : OutKeeps cq co (execWakeNLow s) := by
  unfold execWakeNLow
  repeat any_goals first
    | with_reducible assumption
    | with_reducible apply OutKeeps.next
    | intro _ _
    | with_reducible apply wakeNLow_keeps
    | with_reducible apply State.draw_keeps
    | dsimp only
    | intro _ _ _
    | split


theorem execThermalTrip_keeps (tempC : Nat) (s : State) (hs : Keeps cq co s) : OutKeeps cq co (execThermalTrip tempC s) := by
  unfold execThermalTrip
  repeat any_goals first
    | with_reducible assumption
    | with_reducible apply OutKeeps.next
    | intro _ _
    | with_reducible apply thermalTrip_keeps
    | with_reducible apply State.draw_keeps
    | dsimp only
    | intro _ _ _
    | split


theorem execCrystalSettled_keeps (s : State) (hs : Keeps cq co s) : OutKeeps cq co (execCrystalSettled s) := by
  unfold execCrystalSettled
  repeat any_goals first
    | with_reducible assumption
    | with_reducible apply OutKeeps.next
    | intro _ _
    | with_reducible apply crystalSettled_keeps
    | with_reducible apply State.draw_keeps
    | dsimp only
    | intro _ _ _
    | split


theorem execColdStart_keeps (env : ColdEnv) (s : State) (hs : Keeps cq co s) : OutKeeps cq co (execColdStart env s) := by
  unfold execColdStart
  repeat any_goals first
    | with_reducible assumption
    | with_reducible apply OutKeeps.next
    | intro _ _
    | with_reducible apply coldStart_keeps
    | with_reducible apply State.draw_keeps
    | dsimp only
    | intro _ _ _
    | split


theorem execPwrokFall_keeps (s : State) (hs : Keeps cq co s) : OutKeeps cq co (execPwrokFall s) := by
  unfold execPwrokFall
  repeat any_goals first
    | with_reducible assumption
    | with_reducible apply OutKeeps.next
    | intro _ _
    | with_reducible apply pwrokFall_keeps
    | with_reducible apply State.draw_keeps
    | dsimp only
    | intro _ _ _
    | split


theorem execRailEnRestart_keeps (s : State) (hs : Keeps cq co s) : OutKeeps cq co (execRailEnRestart s) := by
  unfold execRailEnRestart
  repeat any_goals first
    | with_reducible assumption
    | with_reducible apply OutKeeps.next
    | intro _ _
    | with_reducible apply railRestart_keeps
    | with_reducible apply State.draw_keeps
    | dsimp only
    | intro _ _ _
    | split


theorem execSysRst_keeps (viaPerst : Bool) (s : State) (hs : Keeps cq co s) : OutKeeps cq co (execSysRst viaPerst s) := by
  unfold execSysRst
  repeat any_goals first
    | with_reducible assumption
    | with_reducible apply OutKeeps.next
    | intro _ _
    | with_reducible apply sysRst_keeps
    | with_reducible apply State.draw_keeps
    | dsimp only
    | intro _ _ _
    | split


theorem execHostLinkReset_keeps (s : State) (hs : Keeps cq co s) : OutKeeps cq co (execHostLinkReset s) := by
  unfold execHostLinkReset
  repeat any_goals first
    | with_reducible assumption
    | with_reducible apply OutKeeps.next
    | intro _ _
    | with_reducible apply hostLinkReset_keeps
    | with_reducible apply State.draw_keeps
    | dsimp only
    | intro _ _ _
    | split


theorem execTapReset_keeps (s : State) (hs : Keeps cq co s) : OutKeeps cq co (execTapReset s) := by
  unfold execTapReset
  repeat any_goals first
    | with_reducible assumption
    | with_reducible apply OutKeeps.next
    | intro _ _
    | with_reducible apply tapReset_keeps
    | with_reducible apply State.draw_keeps
    | dsimp only
    | intro _ _ _
    | split


theorem execVstbyLoss_keeps (s : State) (hs : Keeps cq co s) : OutKeeps cq co (execVstbyLoss s) := by
  unfold execVstbyLoss
  repeat any_goals first
    | with_reducible assumption
    | with_reducible apply OutKeeps.next
    | intro _ _
    | with_reducible apply vstbyLoss_keeps
    | with_reducible apply State.draw_keeps
    | dsimp only
    | intro _ _ _
    | split


theorem execStandbyPowerOn_keeps (s : State) (hs : Keeps cq co s) : OutKeeps cq co (execStandbyPowerOn s) := by
  unfold execStandbyPowerOn
  repeat any_goals first
    | with_reducible assumption
    | with_reducible apply OutKeeps.next
    | intro _ _
    | with_reducible apply standbyOn_keeps
    | with_reducible apply State.draw_keeps
    | dsimp only
    | intro _ _ _
    | split


theorem execJtagInstruction_keeps (instr : JtagInstr) (s : State) (hs : Keeps cq co s) : OutKeeps cq co (execJtagInstruction instr s) := by
  unfold execJtagInstruction
  repeat any_goals first
    | with_reducible assumption
    | with_reducible apply OutKeeps.next
    | intro _ _
    | with_reducible apply jtagInstruction_keeps
    | with_reducible apply State.draw_keeps
    | dsimp only
    | intro _ _ _
    | split


theorem execMapCheckpointLoad_keeps (s : State) (hs : Keeps cq co s) : OutKeeps cq co (execMapCheckpointLoad s) := by
  unfold execMapCheckpointLoad
  repeat any_goals first
    | with_reducible assumption
    | with_reducible apply OutKeeps.next
    | intro _ _
    | with_reducible apply mapLoad_keeps
    | with_reducible apply State.draw_keeps
    | dsimp only
    | intro _ _ _
    | split


theorem execMapRebuildScan_keeps (s : State) (hs : Keeps cq co s) : OutKeeps cq co (execMapRebuildScan s) := by
  unfold execMapRebuildScan
  repeat any_goals first
    | with_reducible assumption
    | with_reducible apply OutKeeps.next
    | intro _ _
    | with_reducible apply mapScan_keeps
    | with_reducible apply State.draw_keeps
    | dsimp only
    | intro _ _ _
    | split


theorem execMapSegmentRebuild_keeps (part : Nat) (segment : SegmentScan) (s : State) (hs : Keeps cq co s) : OutKeeps cq co (execMapSegmentRebuild part segment s) := by
  unfold execMapSegmentRebuild
  repeat any_goals first
    | with_reducible assumption
    | with_reducible apply OutKeeps.next
    | intro _ _
    | with_reducible apply mapSegmentRebuild_keeps
    | with_reducible apply State.draw_keeps
    | dsimp only
    | intro _ _ _
    | split


theorem execRestStoreRebuild_keeps (startupMs : RestReads) (s : State) (hs : Keeps cq co s) : OutKeeps cq co (execRestStoreRebuild startupMs s) := by
  unfold execRestStoreRebuild
  repeat any_goals first
    | with_reducible assumption
    | with_reducible apply OutKeeps.next
    | intro _ _
    | with_reducible apply restStore_keeps
    | with_reducible apply State.draw_keeps
    | dsimp only
    | intro _ _ _
    | split


end Sys2Proof.Machine
end

