-- ==== Sys2Proof/Laws/Keeps/RegWrite.lean ====
section
/-! SUPPORT. What the operations of Machine/RegWrite.lean keep. -/

namespace Sys2Proof.Machine

open Sys2Proof

variable {cq : List Instr} {co : Oxsis}

theorem writeEq_keeps (fn q off v : Nat) (s : State) (hs : Keeps cq co s) : Keeps cq co (writeEq fn q off v s) := by
  unfold writeEq
  repeat any_goals first
    | with_reducible assumption
    | with_reducible apply State.onEq_keeps
    | with_reducible apply signalIfDue_keeps
    | with_reducible apply State.draw_keeps
    | dsimp only
    | intro _ _ _
    | split
    | with_reducible apply Keeps.lit
    | intro _ _


theorem writePlacement_keeps (p off v : Nat) (s : State) (hs : Keeps cq co s) : Keeps cq co (writePlacement p off v s) := by
  unfold writePlacement
  repeat any_goals first
    | with_reducible assumption
    | with_reducible apply State.onPart_keeps
    | with_reducible apply State.hold_keeps
    | with_reducible apply State.draw_keeps
    | dsimp only
    | intro _ _ _
    | split
    | with_reducible apply Keeps.lit
    | intro _ _


theorem writeFabricBlock_keeps (p off v : Nat) (s : State) (hs : Keeps cq co s) : Keeps cq co (writeFabricBlock p off v s) := by
  unfold writeFabricBlock
  repeat any_goals first
    | with_reducible assumption
    | with_reducible apply State.onPart_keeps
    | with_reducible apply State.draw_keeps
    | dsimp only
    | intro _ _ _
    | split
    | with_reducible apply Keeps.lit
    | intro _ _


theorem writeVector_keeps (fn off v : Nat) (s : State) (hs : Keeps cq co s) : Keeps cq co (writeVector fn off v s) := by
  unfold writeVector
  repeat any_goals first
    | with_reducible assumption
    | with_reducible apply setVector_keeps
    | with_reducible apply State.draw_keeps
    | dsimp only
    | intro _ _ _
    | split
    | with_reducible apply Keeps.lit
    | intro _ _


theorem writeVf_keeps (p off v : Nat) (s : State) (hs : Keeps cq co s) : Keeps cq co (writeVf p off v s) := by
  unfold writeVf
  repeat any_goals first
    | with_reducible assumption
    | with_reducible apply State.onSlot_keeps
    | with_reducible apply writeEq_keeps
    | with_reducible apply State.onPart_keeps
    | with_reducible apply writePlacement_keeps
    | with_reducible apply writeFabricBlock_keeps
    | with_reducible apply State.draw_keeps
    | dsimp only
    | intro _ _ _
    | split
    | with_reducible apply Keeps.lit
    | intro _ _


theorem writeSched_keeps (off v : Nat) (s : State) (hs : Keeps cq co s) : Keeps cq co (writeSched off v s) := by
  unfold writeSched
  repeat any_goals first
    | with_reducible assumption
    | with_reducible apply State.onSched_keeps
    | with_reducible apply State.draw_keeps
    | dsimp only
    | intro _ _ _
    | split
    | with_reducible apply Keeps.lit
    | intro _ _


theorem writeFlash_keeps (off v : Nat) (s : State) (hs : Keeps cq co s) : Keeps cq co (writeFlash off v s) := by
  unfold writeFlash
  repeat any_goals first
    | with_reducible assumption
    | with_reducible apply State.onFlash_keeps
    | with_reducible apply State.draw_keeps
    | dsimp only
    | intro _ _ _
    | split
    | with_reducible apply Keeps.lit
    | intro _ _


theorem writePolicer_keeps (egress : Bool) (off v : Nat) (s : State) (hs : Keeps cq co s) : Keeps cq co (writePolicer egress off v s) := by
  unfold writePolicer
  repeat any_goals first
    | with_reducible assumption
    | with_reducible apply State.onPart_keeps
    | with_reducible apply State.draw_keeps
    | dsimp only
    | intro _ _ _
    | split
    | with_reducible apply Keeps.lit
    | intro _ _


theorem writeLink_keeps (off v : Nat) (s : State) (hs : Keeps cq co s) : Keeps cq co (writeLink off v s) := by
  unfold writeLink
  repeat any_goals first
    | with_reducible assumption
    | with_reducible apply writePolicer_keeps
    | with_reducible apply State.onFabric_keeps
    | with_reducible apply State.draw_keeps
    | dsimp only
    | intro _ _ _
    | split
    | with_reducible apply Keeps.lit
    | intro _ _


theorem writePower_keeps (off v : Nat) (s : State) (hs : Keeps cq co s) : Keeps cq co (writePower off v s) := by
  unfold writePower
  repeat any_goals first
    | with_reducible assumption
    | with_reducible apply State.onPower_keeps
    | with_reducible apply autoDeep_keeps
    | with_reducible apply State.draw_keeps
    | dsimp only
    | intro _ _ _
    | split
    | with_reducible apply Keeps.lit
    | intro _ _


theorem writeMailbox_keeps (off v : Nat) (s : State) (hs : Keeps cq co s) : Keeps cq co (writeMailbox off v s) := by
  unfold writeMailbox
  repeat any_goals first
    | with_reducible assumption
    | with_reducible apply State.onOxs_keeps
    | with_reducible apply State.draw_keeps
    | dsimp only
    | intro _ _ _
    | split
    | with_reducible apply Keeps.lit
    | with_reducible apply Keeps.lit_oxs
    | exact FusesFrom.of_eq rfl rfl rfl
    | intro _ _


theorem writeErrors_keeps (off v : Nat) (s : State) (hs : Keeps cq co s) : Keeps cq co (writeErrors off v s) := by
  unfold writeErrors
  repeat any_goals first
    | with_reducible assumption
    | with_reducible apply State.onHealth_keeps
    | with_reducible apply State.draw_keeps
    | dsimp only
    | intro _ _ _
    | split
    | with_reducible apply Keeps.lit
    | intro _ _


theorem writePf0_keeps (off v : Nat) (s : State) (hs : Keeps cq co s) : Keeps cq co (writePf0 off v s) := by
  unfold writePf0
  repeat any_goals first
    | with_reducible assumption
    | with_reducible apply writeSched_keeps
    | with_reducible apply writeFlash_keeps
    | with_reducible apply writeLink_keeps
    | with_reducible apply writePolicer_keeps
    | with_reducible apply writeEq_keeps
    | with_reducible apply writePower_keeps
    | with_reducible apply writeMailbox_keeps
    | with_reducible apply writeErrors_keeps
    | with_reducible apply writeVector_keeps
    | with_reducible apply State.draw_keeps
    | dsimp only
    | intro _ _ _
    | split
    | intro _ _


theorem writeWord_keeps (fn off v : Nat) (s : State) (hs : Keeps cq co s) : Keeps cq co (writeWord fn off v s) := by
  unfold writeWord
  repeat any_goals first
    | with_reducible assumption
    | with_reducible apply writePf0_keeps
    | with_reducible apply writeVector_keeps
    | with_reducible apply writeVf_keeps
    | with_reducible apply State.draw_keeps
    | dsimp only
    | intro _ _ _
    | split
    | intro _ _


theorem registerWrite_keeps (fn off size v : Nat) (s : State) (hs : Keeps cq co s) : Keeps cq co (registerWrite fn off size v s) := by
  unfold registerWrite
  repeat any_goals first
    | with_reducible assumption
    | with_reducible apply writeWord_keeps
    | with_reducible apply State.draw_keeps
    | dsimp only
    | intro _ _ _
    | split
    | intro _ _


theorem execRegisterWrite_keeps (fn offset size value : Nat) (s : State) (hs : Keeps cq co s) : OutKeeps cq co (execRegisterWrite fn offset size value s) := by
  unfold execRegisterWrite
  repeat any_goals first
    | with_reducible assumption
    | with_reducible apply OutKeeps.next
    | intro _ _
    | with_reducible apply State.access_keeps
    | with_reducible apply registerWrite_keeps
    | with_reducible apply State.draw_keeps
    | dsimp only
    | intro _ _ _
    | split


theorem hostAccess_keeps_eq {i : Instr} {f : State → State} (e : hostAccess i = some f) {s : State} (hs : Keeps cq co s) : Keeps cq co (f s) := by
  unfold hostAccess at e
  split at e <;> cases e <;> try dsimp only
  all_goals first
    | (with_reducible apply sqDoorbell_keeps; exact hs)
    | (with_reducible apply inlineDoorbell_keeps; exact hs)
    | (with_reducible apply csqEnable_keeps; exact hs)
    | (with_reducible apply csqDisable_keeps; exact hs)
    | (with_reducible apply csqRingConfig_keeps; exact hs)
    | (with_reducible apply eqEnable_keeps; exact hs)
    | (with_reducible apply eqDisable_keeps; exact hs)
    | (with_reducible apply eqHeadWrite_keeps; exact hs)
    | (with_reducible apply eqArm_keeps; exact hs)
    | (with_reducible apply msixUnmask_keeps; exact hs)
    | (with_reducible apply setBuffer_keeps; exact hs)
    | (with_reducible apply pushWrite_keeps; exact hs)
    | (with_reducible apply acctSnapshot_keeps; exact hs)
    | (with_reducible apply quiesce_keeps; exact hs)
    | (with_reducible apply vfFlr_keeps; exact hs)
    | (with_reducible apply busMasterDisable_keeps; exact hs)
    | (with_reducible apply busMasterEnable_keeps; exact hs)
    | (with_reducible apply d3hotEntry_keeps; exact hs)
    | (with_reducible apply d0Return_keeps; exact hs)
    | (with_reducible apply vfEnableClear_keeps; exact hs)
    | (with_reducible apply vfEnableSet_keeps; exact hs)
    | (with_reducible apply pf0Flr_keeps; exact hs)
    | (with_reducible apply qpConnect_keeps; exact hs)
    | (with_reducible apply qpDisconnect_keeps; exact hs)
    | (with_reducible apply qpResetCmd_keeps; exact hs)
    | (with_reducible apply joinSet_keeps; exact hs)
    | (with_reducible apply joinClear_keeps; exact hs)
    | (with_reducible apply oxsRequest_keeps; exact hs)
    | (with_reducible apply checkpointWrite_keeps; exact hs)
    | (with_reducible apply askByPf0_keeps; exact hs)
    | (with_reducible apply registerWrite_keeps; exact hs)

theorem applyAccess_keeps (s : State) (i : Instr) (hs : Keeps cq co s) : Keeps cq co (applyAccess s i) := by
  unfold applyAccess
  split
  · exact hostAccess_keeps_eq ‹_› hs
  · exact hs

theorem wakeUp_keeps (tagOk copyOk : Bool) (channels : List (Nat × Int × Bool)) (s : State) (hs : Keeps cq co s) : Keeps cq co (wakeUp tagOk copyOk channels s) := by
  unfold wakeUp
  repeat any_goals first
    | with_reducible assumption
    | with_reducible apply deepExit_keeps
    | with_reducible refine hostAccess_keeps_eq ‹_› ?_
    | with_reducible apply applyAccess_keeps
    | with_reducible apply serveHeld_keeps
    | with_reducible apply State.onPower_keeps
    | with_reducible apply State.draw_keeps
    | with_reducible apply foldl_keeps (Keeps cq co)
    | dsimp only
    | intro _ _ _
    | split
    | with_reducible apply Keeps.lit


theorem execDeepSleepExit_keeps (tagOk : Bool) (copyOk : WakeFound) (s : State) (hs : Keeps cq co s) : OutKeeps cq co (execDeepSleepExit tagOk copyOk s) := by
  unfold execDeepSleepExit
  repeat any_goals first
    | with_reducible assumption
    | with_reducible apply OutKeeps.next
    | intro _ _
    | with_reducible apply wakeUp_keeps
    | with_reducible apply State.draw_keeps
    | dsimp only
    | intro _ _ _
    | split


end Sys2Proof.Machine
end

