-- ==== Sys2Proof/Laws/Keeps/Commands.lean ====
section
/-! SUPPORT. What the operations of Machine/Commands.lean keep. -/

namespace Sys2Proof.Machine

open Sys2Proof

variable {cq : List Instr} {co : Oxsis}

theorem refuseStart_keeps (s : State) (x1 : CmdStep) (x2 : Slot) (x3 : Flight) (hs : Keeps cq co s) : StartKeeps cq co (refuseStart s x1 x2 x3) := by
  unfold refuseStart
  repeat any_goals first
    | with_reducible assumption
    | with_reducible apply StartKeeps.reject
    | with_reducible apply StartKeeps.go
    | with_reducible apply State.draw_keeps
    | dsimp only
    | intro _ _ _
    | split


theorem refuseStart_keeps_eq_reject {s : State} {x1 : CmdStep} {x2 : Slot} {x3 : Flight} {t : State} {a0} (e : refuseStart s x1 x2 x3 = .reject t a0) (hs : Keeps cq co s) : Keeps cq co t := by
  have k := refuseStart_keeps s x1 x2 x3 hs
  rw [e] at k
  cases k
  assumption

theorem refuseStart_keeps_eq_go {s : State} {x1 : CmdStep} {x2 : Slot} {x3 : Flight} {t : State}  (e : refuseStart s x1 x2 x3 = .go t) (hs : Keeps cq co s) : Keeps cq co t := by
  have k := refuseStart_keeps s x1 x2 x3 hs
  rw [e] at k
  cases k
  assumption

theorem refuseCommit_keeps (s : State) (x1 : CmdRef) (x2 : Slot) (x3 : Flight) (hs : Keeps cq co s) : CommitKeeps cq co (refuseCommit s x1 x2 x3) := by
  unfold refuseCommit
  repeat any_goals first
    | with_reducible assumption
    | with_reducible apply CommitKeeps.hold
    | with_reducible apply CommitKeeps.kill
    | with_reducible apply CommitKeeps.reject
    | with_reducible apply CommitKeeps.done
    | with_reducible apply State.draw_keeps
    | dsimp only
    | intro _ _ _
    | split


theorem refuseCommit_keeps_eq_hold {s : State} {x1 : CmdRef} {x2 : Slot} {x3 : Flight} {t : State}  (e : refuseCommit s x1 x2 x3 = .hold t) (hs : Keeps cq co s) : Keeps cq co t := by
  have k := refuseCommit_keeps s x1 x2 x3 hs
  rw [e] at k
  cases k
  assumption

theorem refuseCommit_keeps_eq_kill {s : State} {x1 : CmdRef} {x2 : Slot} {x3 : Flight} {t : State}  (e : refuseCommit s x1 x2 x3 = .kill t) (hs : Keeps cq co s) : Keeps cq co t := by
  have k := refuseCommit_keeps s x1 x2 x3 hs
  rw [e] at k
  cases k
  assumption

theorem refuseCommit_keeps_eq_reject {s : State} {x1 : CmdRef} {x2 : Slot} {x3 : Flight} {t : State} {a0} (e : refuseCommit s x1 x2 x3 = .reject t a0) (hs : Keeps cq co s) : Keeps cq co t := by
  have k := refuseCommit_keeps s x1 x2 x3 hs
  rw [e] at k
  cases k
  assumption

theorem refuseCommit_keeps_eq_done {s : State} {x1 : CmdRef} {x2 : Slot} {x3 : Flight} {t : State} {a0} {a1} {a2} {a3} (e : refuseCommit s x1 x2 x3 = .done t a0 a1 a2 a3) (hs : Keeps cq co s) : Keeps cq co t := by
  have k := refuseCommit_keeps s x1 x2 x3 hs
  rw [e] at k
  cases k
  assumption

/-- The start and the commit of every opcode keep. -/
def OpsKeep (cq : List Instr) (co : Oxsis) (o : (State → CmdStep → Slot → Flight → Start) × (State → CmdRef → Slot → Flight → Commit)) : Prop :=
  (∀ s c x f, Keeps cq co s → StartKeeps cq co (o.1 s c x f)) ∧ ∀ s c x f, Keeps cq co s → CommitKeeps cq co (o.2 s c x f)

theorem get_of_all {α : Type} {P : α → Prop} {d : α} (hd : P d) (k : Nat) : ∀ m : List (Nat × α), (∀ e ∈ m, P e.2) → P (Map.get m k d) := by
  intro m
  induction m with
  | nil => exact fun _ => hd
  | cons e r ih =>
    intro h
    have hr := ih fun x hx => h x (List.mem_cons_of_mem _ hx)
    have he := h e (List.mem_cons_self ..)
    obtain ⟨j, a⟩ := e
    unfold Map.get at hr ⊢
    rw [show Map.look ((j, a) :: r) k = if j = k then some a else Map.look r k from rfl]
    split
    · exact he
    · exact hr

theorem opTable_keeps : ∀ e ∈ opTable, OpsKeep cq co e.2 := by
  intro e h
  unfold opTable at h
  simp only [List.mem_append, List.mem_cons, List.not_mem_nil, or_false] at h
  rcases h with (h | h) | h
  all_goals repeat' rcases h with h | h
  all_goals try subst h
  all_goals constructor
  all_goals intro s c x f hs
  all_goals first
    | with_reducible apply startJobCreate_keeps
    | with_reducible apply commitJobCreate_keeps
    | with_reducible apply startJobDestroy_keeps
    | with_reducible apply commitJobDestroy_keeps
    | with_reducible apply startJobBind_keeps
    | with_reducible apply commitJobBind_keeps
    | with_reducible apply startJobUnbind_keeps
    | with_reducible apply commitJobUnbind_keeps
    | with_reducible apply startJobReset_keeps
    | with_reducible apply commitJobReset_keeps
    | with_reducible apply startModelRegister_keeps
    | with_reducible apply commitModelRegister_keeps
    | with_reducible apply startModelUnregister_keeps
    | with_reducible apply commitModelUnregister_keeps
    | with_reducible apply startKernelLoad_keeps
    | with_reducible apply commitKernelLoad_keeps
    | with_reducible apply startKernelUnload_keeps
    | with_reducible apply commitKernelUnload_keeps
    | with_reducible apply startCapRead_keeps
    | with_reducible apply commitCapRead_keeps
    | with_reducible apply startSeqOpen_keeps
    | with_reducible apply commitSeqOpen_keeps
    | with_reducible apply startSeqFork_keeps
    | with_reducible apply commitSeqFork_keeps
    | with_reducible apply startSeqTrim_keeps
    | with_reducible apply commitSeqTrim_keeps
    | with_reducible apply startSeqClose_keeps
    | with_reducible apply commitSeqClose_keeps
    | with_reducible apply startSeqPark_keeps
    | with_reducible apply commitSeqPark_keeps
    | with_reducible apply startSeqResume_keeps
    | with_reducible apply commitSeqResume_keeps
    | with_reducible apply startSeqHint_keeps
    | with_reducible apply commitSeqHint_keeps
    | with_reducible apply startSpecCancel_keeps
    | with_reducible apply commitSpecCancel_keeps
    | with_reducible apply startSeqQuery_keeps
    | with_reducible apply commitSeqQuery_keeps
    | with_reducible apply startKvRead_keeps
    | with_reducible apply commitKvRead_keeps
    | with_reducible apply startPrefixProbe_keeps
    | with_reducible apply commitPrefixProbe_keeps
    | with_reducible apply startPrefixPublish_keeps
    | with_reducible apply commitPrefixPublish_keeps
    | with_reducible apply startPrefixRetain_keeps
    | with_reducible apply commitPrefixRetain_keeps
    | with_reducible apply startHostRegionAdd_keeps
    | with_reducible apply commitHostRegionAdd_keeps
    | with_reducible apply startHostRegionRemove_keeps
    | with_reducible apply commitHostRegionRemove_keeps
    | with_reducible apply startSeqMigrate_keeps
    | with_reducible apply commitSeqMigrate_keeps
    | with_reducible apply startKernelRun_keeps
    | with_reducible apply commitKernelRun_keeps
    | with_reducible apply startNop_keeps
    | with_reducible apply commitNop_keeps
    | with_reducible apply startFence_keeps
    | with_reducible apply commitFence_keeps
    | with_reducible apply startWait_keeps
    | with_reducible apply commitWait_keeps
    | with_reducible apply startSignal_keeps
    | with_reducible apply commitSignal_keeps
    | with_reducible apply startAcctRead_keeps
    | with_reducible apply commitAcctRead_keeps
    | with_reducible apply startEventPost_keeps
    | with_reducible apply commitEventPost_keeps
    | with_reducible apply startAttention_keeps
    | with_reducible apply commitAttention_keeps
  all_goals exact hs

theorem opOf_keeps (n : Nat) : OpsKeep cq co (Map.get opTable n (refuseStart, refuseCommit)) :=
  get_of_all (P := OpsKeep cq co) ⟨fun _ _ _ _ h => .reject h, fun _ _ _ _ h => .reject h⟩ n opTable opTable_keeps

theorem startOp_keeps (w : List Byte) (s : State) (c : CmdStep) (x : Slot) (f : Flight) (hs : Keeps cq co s) :
    StartKeeps cq co (startOp w s c x f) := by
  unfold startOp
  split
  · exact startPrefixEvictSequence_keeps s c x f hs
  · split
    · exact startPrefixEvictModel_keeps s c x f hs
    · exact (opOf_keeps _).1 s c x f hs

theorem commitOp_keeps (s : State) (c : CmdRef) (x : Slot) (f : Flight) (hs : Keeps cq co s) : CommitKeeps cq co (commitOp s c x f) := by
  unfold commitOp
  split
  · exact commitPrefixEvictSequence_keeps s c x f hs
  · split
    · exact commitPrefixEvictModel_keeps s c x f hs
    · exact (opOf_keeps _).2 s c x f hs

theorem commitCmd_keeps (c : CmdRef) (s : State) (hs : Keeps cq co s) : Keeps cq co (commitCmd c s) :=
  commitWith_keeps commitOp commitOp_keeps c s hs

theorem execJobCreate_keeps (c : CmdStep) (s : State) (hs : Keeps cq co s) : OutKeeps cq co (execJobCreate c s) :=
  .next (runCommand_keeps _ _ _ startJobCreate_keeps commitCmd_keeps c s hs)

theorem execJobDestroy_keeps (c : CmdStep) (s : State) (hs : Keeps cq co s) : OutKeeps cq co (execJobDestroy c s) :=
  .next (runCommand_keeps _ _ _ startJobDestroy_keeps commitCmd_keeps c s hs)

theorem execJobBind_keeps (c : CmdStep) (s : State) (hs : Keeps cq co s) : OutKeeps cq co (execJobBind c s) :=
  .next (runCommand_keeps _ _ _ startJobBind_keeps commitCmd_keeps c s hs)

theorem execJobUnbind_keeps (c : CmdStep) (s : State) (hs : Keeps cq co s) : OutKeeps cq co (execJobUnbind c s) :=
  .next (runCommand_keeps _ _ _ startJobUnbind_keeps commitCmd_keeps c s hs)

theorem execJobReset_keeps (c : CmdStep) (s : State) (hs : Keeps cq co s) : OutKeeps cq co (execJobReset c s) :=
  .next (runCommand_keeps _ _ _ startJobReset_keeps commitCmd_keeps c s hs)

theorem execModelRegister_keeps (c : CmdStep) (s : State) (hs : Keeps cq co s) : OutKeeps cq co (execModelRegister c s) :=
  .next (runCommand_keeps _ _ _ startModelRegister_keeps commitCmd_keeps c s hs)

theorem execModelUnregister_keeps (c : CmdStep) (s : State) (hs : Keeps cq co s) : OutKeeps cq co (execModelUnregister c s) :=
  .next (runCommand_keeps _ _ _ startModelUnregister_keeps commitCmd_keeps c s hs)

theorem execKernelLoad_keeps (c : CmdStep) (s : State) (hs : Keeps cq co s) : OutKeeps cq co (execKernelLoad c s) :=
  .next (runCommand_keeps _ _ _ startKernelLoad_keeps commitCmd_keeps c s hs)

theorem execKernelUnload_keeps (c : CmdStep) (s : State) (hs : Keeps cq co s) : OutKeeps cq co (execKernelUnload c s) :=
  .next (runCommand_keeps _ _ _ startKernelUnload_keeps commitCmd_keeps c s hs)

theorem execCapRead_keeps (c : CmdStep) (s : State) (hs : Keeps cq co s) : OutKeeps cq co (execCapRead c s) :=
  .next (runCommand_keeps _ _ _ startCapRead_keeps commitCmd_keeps c s hs)

theorem execSeqOpen_keeps (c : CmdStep) (s : State) (hs : Keeps cq co s) : OutKeeps cq co (execSeqOpen c s) :=
  .next (runCommand_keeps _ _ _ startSeqOpen_keeps commitCmd_keeps c s hs)

theorem execSeqFork_keeps (c : CmdStep) (s : State) (hs : Keeps cq co s) : OutKeeps cq co (execSeqFork c s) :=
  .next (runCommand_keeps _ _ _ startSeqFork_keeps commitCmd_keeps c s hs)

theorem execSeqTrim_keeps (c : CmdStep) (s : State) (hs : Keeps cq co s) : OutKeeps cq co (execSeqTrim c s) :=
  .next (runCommand_keeps _ _ _ startSeqTrim_keeps commitCmd_keeps c s hs)

theorem execSeqClose_keeps (c : CmdStep) (s : State) (hs : Keeps cq co s) : OutKeeps cq co (execSeqClose c s) :=
  .next (runCommand_keeps _ _ _ startSeqClose_keeps commitCmd_keeps c s hs)

theorem execSeqPark_keeps (c : CmdStep) (s : State) (hs : Keeps cq co s) : OutKeeps cq co (execSeqPark c s) :=
  .next (runCommand_keeps _ _ _ startSeqPark_keeps commitCmd_keeps c s hs)

theorem execSeqResume_keeps (c : CmdStep) (s : State) (hs : Keeps cq co s) : OutKeeps cq co (execSeqResume c s) :=
  .next (runCommand_keeps _ _ _ startSeqResume_keeps commitCmd_keeps c s hs)

theorem execSeqHint_keeps (c : CmdStep) (s : State) (hs : Keeps cq co s) : OutKeeps cq co (execSeqHint c s) :=
  .next (runCommand_keeps _ _ _ startSeqHint_keeps commitCmd_keeps c s hs)

theorem execSpecCancel_keeps (c : CmdStep) (s : State) (hs : Keeps cq co s) : OutKeeps cq co (execSpecCancel c s) :=
  .next (runCommand_keeps _ _ _ startSpecCancel_keeps commitCmd_keeps c s hs)

theorem execSeqQuery_keeps (c : CmdStep) (s : State) (hs : Keeps cq co s) : OutKeeps cq co (execSeqQuery c s) :=
  .next (runCommand_keeps _ _ _ startSeqQuery_keeps commitCmd_keeps c s hs)

theorem execKvRead_keeps (c : CmdStep) (s : State) (hs : Keeps cq co s) : OutKeeps cq co (execKvRead c s) :=
  .next (runCommand_keeps _ _ _ startKvRead_keeps commitCmd_keeps c s hs)

theorem execPrefixProbe_keeps (c : CmdStep) (s : State) (hs : Keeps cq co s) : OutKeeps cq co (execPrefixProbe c s) :=
  .next (runCommand_keeps _ _ _ startPrefixProbe_keeps commitCmd_keeps c s hs)

theorem execPrefixPublish_keeps (c : CmdStep) (s : State) (hs : Keeps cq co s) : OutKeeps cq co (execPrefixPublish c s) :=
  .next (runCommand_keeps _ _ _ startPrefixPublish_keeps commitCmd_keeps c s hs)

theorem execPrefixRetain_keeps (c : CmdStep) (s : State) (hs : Keeps cq co s) : OutKeeps cq co (execPrefixRetain c s) :=
  .next (runCommand_keeps _ _ _ startPrefixRetain_keeps commitCmd_keeps c s hs)

theorem execHostRegionAdd_keeps (c : CmdStep) (s : State) (hs : Keeps cq co s) : OutKeeps cq co (execHostRegionAdd c s) :=
  .next (runCommand_keeps _ _ _ startHostRegionAdd_keeps commitCmd_keeps c s hs)

theorem execHostRegionRemove_keeps (c : CmdStep) (s : State) (hs : Keeps cq co s) : OutKeeps cq co (execHostRegionRemove c s) :=
  .next (runCommand_keeps _ _ _ startHostRegionRemove_keeps commitCmd_keeps c s hs)

theorem execSeqMigrate_keeps (c : CmdStep) (s : State) (hs : Keeps cq co s) : OutKeeps cq co (execSeqMigrate c s) :=
  .next (runCommand_keeps _ _ _ startSeqMigrate_keeps commitCmd_keeps c s hs)

theorem execKernelRun_keeps (c : CmdStep) (s : State) (hs : Keeps cq co s) : OutKeeps cq co (execKernelRun c s) :=
  .next (runCommand_keeps _ _ _ startKernelRun_keeps commitCmd_keeps c s hs)

theorem execNop_keeps (c : CmdStep) (s : State) (hs : Keeps cq co s) : OutKeeps cq co (execNop c s) :=
  .next (runCommand_keeps _ _ _ startNop_keeps commitCmd_keeps c s hs)

theorem execFence_keeps (c : CmdStep) (s : State) (hs : Keeps cq co s) : OutKeeps cq co (execFence c s) :=
  .next (runCommand_keeps _ _ _ startFence_keeps commitCmd_keeps c s hs)

theorem execWait_keeps (c : CmdStep) (s : State) (hs : Keeps cq co s) : OutKeeps cq co (execWait c s) :=
  .next (runCommand_keeps _ _ _ startWait_keeps commitCmd_keeps c s hs)

theorem execSignal_keeps (c : CmdStep) (s : State) (hs : Keeps cq co s) : OutKeeps cq co (execSignal c s) :=
  .next (runCommand_keeps _ _ _ startSignal_keeps commitCmd_keeps c s hs)

theorem execAcctRead_keeps (c : CmdStep) (s : State) (hs : Keeps cq co s) : OutKeeps cq co (execAcctRead c s) :=
  .next (runCommand_keeps _ _ _ startAcctRead_keeps commitCmd_keeps c s hs)

theorem execEventPost_keeps (c : CmdStep) (s : State) (hs : Keeps cq co s) : OutKeeps cq co (execEventPost c s) :=
  .next (runCommand_keeps _ _ _ startEventPost_keeps commitCmd_keeps c s hs)

theorem execAppend_keeps (c : CmdStep) (s : State) (hs : Keeps cq co s) : OutKeeps cq co (execAppend c s) :=
  .next (runCommand_keeps _ _ _ startAttention_keeps commitCmd_keeps c s hs)

theorem execAttend_keeps (c : CmdStep) (s : State) (hs : Keeps cq co s) : OutKeeps cq co (execAttend c s) :=
  .next (runCommand_keeps _ _ _ startAttention_keeps commitCmd_keeps c s hs)

theorem execExtend_keeps (c : CmdStep) (s : State) (hs : Keeps cq co s) : OutKeeps cq co (execExtend c s) :=
  .next (runCommand_keeps _ _ _ startAttention_keeps commitCmd_keeps c s hs)

theorem execPrefixEvictModel_keeps (c : CmdStep) (s : State) (hs : Keeps cq co s) : OutKeeps cq co (execPrefixEvictModel c s) :=
  .next (runCommand_keeps _ _ _ startPrefixEvictModel_keeps commitCmd_keeps c s hs)

theorem execPrefixEvictSequence_keeps (c : CmdStep) (s : State) (hs : Keeps cq co s) : OutKeeps cq co (execPrefixEvictSequence c s) :=
  .next (runCommand_keeps _ _ _ startPrefixEvictSequence_keeps commitCmd_keeps c s hs)

theorem execCommitRequest_keeps (c : CmdRef) (s : State) (hs : Keeps cq co s) : OutKeeps cq co (execCommitRequest c s) := by
  unfold execCommitRequest
  repeat any_goals first
    | with_reducible assumption
    | with_reducible apply OutKeeps.next
    | intro _ _
    | with_reducible apply commitCmd_keeps
    | with_reducible apply State.draw_keeps
    | dsimp only
    | intro _ _ _
    | split


theorem execHeldCommitRelease_keeps (c : CmdRef) (s : State) (hs : Keeps cq co s) : OutKeeps cq co (execHeldCommitRelease c s) := by
  unfold execHeldCommitRelease
  repeat any_goals first
    | with_reducible assumption
    | with_reducible apply OutKeeps.next
    | intro _ _
    | with_reducible apply commitCmd_keeps
    | with_reducible apply State.draw_keeps
    | dsimp only
    | intro _ _ _
    | split


theorem waitTimeout_keeps (c : CmdRef) (s : State) (hs : Keeps cq co s) : Keeps cq co (waitTimeout c s) := by
  unfold waitTimeout
  repeat any_goals first
    | with_reducible assumption
    | with_reducible apply commitCmd_keeps
    | with_reducible apply setStage_keeps
    | with_reducible apply setPlan_keeps
    | with_reducible apply State.draw_keeps
    | dsimp only
    | intro _ _ _
    | split


theorem execWaitTimeout_keeps (c : CmdRef) (s : State) (hs : Keeps cq co s) : OutKeeps cq co (execWaitTimeout c s) := by
  unfold execWaitTimeout
  repeat any_goals first
    | with_reducible assumption
    | with_reducible apply OutKeeps.next
    | intro _ _
    | with_reducible apply waitTimeout_keeps
    | with_reducible apply State.draw_keeps
    | dsimp only
    | intro _ _ _
    | split


theorem resumeElems_keeps (tk : ElemPhase → Bool) (c : CmdStep) (f : Flight) (s : State) (hs : Keeps cq co s) : Keeps cq co (resumeElems tk c f s) := by
  unfold resumeElems
  repeat any_goals first
    | with_reducible assumption
    | with_reducible apply advanceElem_keeps
    | with_reducible apply commitCmd_keeps
    | with_reducible apply State.draw_keeps
    | with_reducible apply foldl_keeps (Keeps cq co)
    | dsimp only
    | intro _ _ _
    | split


theorem allocationResume_keeps (c : CmdStep) (s : State) (hs : Keeps cq co s) : Keeps cq co (allocationResume c s) := by
  unfold allocationResume
  split
  · exact hs
  · rename_i f _
    have h1 : Keeps cq co (noteCause (if f.stage = Stage.waiting Wait.units then resumeElems isAllocPhase { c with defer := true } f s
        else resumeCommand isAllocWait (startOp f.word) commitCmd { c with defer := true } s) c.ref) :=
      noteCause_keeps _ _
        (.ite (resumeElems_keeps _ _ _ _ hs) (resumeCommand_keeps _ _ _ (startOp_keeps _) commitCmd_keeps _ _ hs))
    exact .ite h1 (commitCmd_keeps _ _ h1)

theorem execAllocationResume_keeps (c : CmdStep) (s : State) (hs : Keeps cq co s) : OutKeeps cq co (execAllocationResume c s) := by
  unfold execAllocationResume
  repeat any_goals first
    | with_reducible assumption
    | with_reducible apply OutKeeps.next
    | intro _ _
    | with_reducible apply allocationResume_keeps
    | with_reducible apply State.draw_keeps
    | dsimp only
    | intro _ _ _
    | split


theorem hotEntryResume_keeps (c : CmdStep) (s : State) (hs : Keeps cq co s) : Keeps cq co (hotEntryResume c s) := by
  unfold hotEntryResume
  split
  · exact hs
  · rename_i f _
    have h1 : Keeps cq co (noteCause (if f.stage = Stage.waiting Wait.units then resumeElems isHotPhase { c with defer := true } f s
        else resumeCommand isHotWait (startOp f.word) commitCmd { c with defer := true } s) c.ref) :=
      noteCause_keeps _ _
        (.ite (resumeElems_keeps _ _ _ _ hs) (resumeCommand_keeps _ _ _ (startOp_keeps _) commitCmd_keeps _ _ hs))
    exact .ite h1 (commitCmd_keeps _ _ h1)

theorem execHotEntryResume_keeps (c : CmdStep) (s : State) (hs : Keeps cq co s) : OutKeeps cq co (execHotEntryResume c s) := by
  unfold execHotEntryResume
  repeat any_goals first
    | with_reducible assumption
    | with_reducible apply OutKeeps.next
    | intro _ _
    | with_reducible apply hotEntryResume_keeps
    | with_reducible apply State.draw_keeps
    | dsimp only
    | intro _ _ _
    | split


theorem idleTick_keeps (s : State) (hs : Keeps cq co s) : Keeps cq co (idleTick s) := by
  unfold idleTick
  repeat any_goals first
    | with_reducible assumption
    | with_reducible apply State.draw_keeps
    | dsimp only
    | intro _ _ _
    | split
    | with_reducible apply Keeps.lit


end Sys2Proof.Machine
end

