-- ==== Sys2Proof/Laws/Exec.lean ====
section
/-! SUPPORT. What one command and one step keep, over all commands. -/

namespace Sys2Proof.Machine

open Sys2Proof

variable {cq : List Instr} {co : Oxsis}

theorem exec_keeps (i : Instr) (s : State) (h : Keeps cq co s) : OutKeeps cq co (exec i s) :=
  match i with
  | .jobCreate c => execJobCreate_keeps c s h
  | .jobDestroy c => execJobDestroy_keeps c s h
  | .jobBind c => execJobBind_keeps c s h
  | .jobUnbind c => execJobUnbind_keeps c s h
  | .jobReset c => execJobReset_keeps c s h
  | .modelRegister c => execModelRegister_keeps c s h
  | .modelUnregister c => execModelUnregister_keeps c s h
  | .kernelLoad c => execKernelLoad_keeps c s h
  | .kernelUnload c => execKernelUnload_keeps c s h
  | .capRead c => execCapRead_keeps c s h
  | .seqOpen c => execSeqOpen_keeps c s h
  | .seqFork c => execSeqFork_keeps c s h
  | .seqTrim c => execSeqTrim_keeps c s h
  | .seqClose c => execSeqClose_keeps c s h
  | .seqPark c => execSeqPark_keeps c s h
  | .seqResume c => execSeqResume_keeps c s h
  | .seqHint c => execSeqHint_keeps c s h
  | .specCancel c => execSpecCancel_keeps c s h
  | .seqQuery c => execSeqQuery_keeps c s h
  | .kvRead c => execKvRead_keeps c s h
  | .prefixProbe c => execPrefixProbe_keeps c s h
  | .prefixPublish c => execPrefixPublish_keeps c s h
  | .prefixRetain c => execPrefixRetain_keeps c s h
  | .prefixEvictModel c => execPrefixEvictModel_keeps c s h
  | .prefixEvictSequence c => execPrefixEvictSequence_keeps c s h
  | .hostRegionAdd c => execHostRegionAdd_keeps c s h
  | .hostRegionRemove c => execHostRegionRemove_keeps c s h
  | .seqMigrate c => execSeqMigrate_keeps c s h
  | .append c => execAppend_keeps c s h
  | .attend c => execAttend_keeps c s h
  | .extend c => execExtend_keeps c s h
  | .kernelRun c => execKernelRun_keeps c s h
  | .nop c => execNop_keeps c s h
  | .fence c => execFence_keeps c s h
  | .wait c => execWait_keeps c s h
  | .signal c => execSignal_keeps c s h
  | .acctRead c => execAcctRead_keeps c s h
  | .eventPost c => execEventPost_keeps c s h
  | .digestComplete core => execDigestComplete_keeps core s h
  | .commandFetch part slot count defer => execCommandFetch_keeps part slot count defer s h
  | .commitRequest c => execCommitRequest_keeps c s h
  | .heldCommitRelease c => execHeldCommitRelease_keeps c s h
  | .unitPlacement quad => execUnitPlacement_keeps quad s h
  | .gangPlacement quad => execGangPlacement_keeps quad s h
  | .unitStart tile => execUnitStart_keeps tile s h
  | .unitEnd tile hc dt => execUnitEnd_keeps tile hc dt s h
  | .attendElementRelease c elem => execAttendElementRelease_keeps c elem s h
  | .mergeSpaceWaitEnd c elem => execMergeSpaceWaitEnd_keeps c elem s h
  | .unitYield tile hc => execUnitYield_keeps tile hc s h
  | .yieldedUnitReady unit => execYieldedUnitReady_keeps unit s h
  | .unitEvict unit => execUnitEvict_keeps unit s h
  | .virtualTimeUpdate => execVirtualTimeUpdate_keeps s h
  | .tileUncorrectableError tile => execTileUncorrectableError_keeps tile s h
  | .jobTeardownComplete part job => execJobTeardownComplete_keeps part job s h
  | .add unit => execAdd_keeps unit s h
  | .sub unit => execSub_keeps unit s h
  | .mul unit => execMul_keeps unit s h
  | .and unit => execAnd_keeps unit s h
  | .or unit => execOr_keeps unit s h
  | .xor unit => execXor_keeps unit s h
  | .shl unit => execShl_keeps unit s h
  | .shr unit => execShr_keeps unit s h
  | .sra unit => execSra_keeps unit s h
  | .slt unit => execSlt_keeps unit s h
  | .sltu unit => execSltu_keeps unit s h
  | .min unit => execMin_keeps unit s h
  | .max unit => execMax_keeps unit s h
  | .mov unit => execMov_keeps unit s h
  | .fadd unit => execFadd_keeps unit s h
  | .fsub unit => execFsub_keeps unit s h
  | .fmul unit => execFmul_keeps unit s h
  | .fmin unit => execFmin_keeps unit s h
  | .fmax unit => execFmax_keeps unit s h
  | .flt unit => execFlt_keeps unit s h
  | .itof unit => execItof_keeps unit s h
  | .ftoi unit => execFtoi_keeps unit s h
  | .addi unit => execAddi_keeps unit s h
  | .andi unit => execAndi_keeps unit s h
  | .ori unit => execOri_keeps unit s h
  | .lui unit => execLui_keeps unit s h
  | .slti unit => execSlti_keeps unit s h
  | .vadd unit => execVadd_keeps unit s h
  | .vsub unit => execVsub_keeps unit s h
  | .vmul unit => execVmul_keeps unit s h
  | .vfma unit => execVfma_keeps unit s h
  | .vmin unit => execVmin_keeps unit s h
  | .vmax unit => execVmax_keeps unit s h
  | .vabs unit => execVabs_keeps unit s h
  | .vneg unit => execVneg_keeps unit s h
  | .vmov unit => execVmov_keeps unit s h
  | .vexp unit => execVexp_keeps unit s h
  | .vrecip unit => execVrecip_keeps unit s h
  | .vlog unit => execVlog_keeps unit s h
  | .vitof unit => execVitof_keeps unit s h
  | .vftoi unit => execVftoi_keeps unit s h
  | .vidx unit => execVidx_keeps unit s h
  | .vbcast unit => execVbcast_keeps unit s h
  | .vlt unit => execVlt_keeps unit s h
  | .vle unit => execVle_keeps unit s h
  | .veq unit => execVeq_keeps unit s h
  | .vne unit => execVne_keeps unit s h
  | .vsum unit => execVsum_keeps unit s h
  | .vmaxr unit => execVmaxr_keeps unit s h
  | .vminr unit => execVminr_keeps unit s h
  | .pand unit => execPand_keeps unit s h
  | .por unit => execPor_keeps unit s h
  | .pxor unit => execPxor_keeps unit s h
  | .pandn unit => execPandn_keeps unit s h
  | .pnot unit => execPnot_keeps unit s h
  | .pset unit => execPset_keeps unit s h
  | .pclr unit => execPclr_keeps unit s h
  | .pcnt unit => execPcnt_keeps unit s h
  | .pfroms unit => execPfroms_keeps unit s h
  | .ptos unit => execPtos_keeps unit s h
  | .ld unit => execLd_keeps unit s h
  | .st unit => execSt_keeps unit s h
  | .vld unit => execVld_keeps unit s h
  | .vst unit => execVst_keeps unit s h
  | .mma unit => execMma_keeps unit s h
  | .br unit => execBr_keeps unit s h
  | .bz unit => execBz_keeps unit s h
  | .bnz unit => execBnz_keeps unit s h
  | .bany unit => execBany_keeps unit s h
  | .bnone unit => execBnone_keeps unit s h
  | .ret unit => execRet_keeps unit s h
  | .trap unit => execTrap_keeps unit s h
  | .sqDoorbell part slot offset size value => execSqDoorbell_keeps part slot offset size value s h
  | .inlineDoorbell part slot offset data => execInlineDoorbell_keeps part slot offset data s h
  | .csqEnable part value => execCsqEnable_keeps part value s h
  | .csqDisable part value => execCsqDisable_keeps part value s h
  | .csqRingConfigWrite part isBase value => execCsqRingConfigWrite_keeps part isBase value s h
  | .eqEnable fn queue value => execEqEnable_keeps fn queue value s h
  | .eqDisable fn queue value => execEqDisable_keeps fn queue value s h
  | .eqHeadWrite fn queue value => execEqHeadWrite_keeps fn queue value s h
  | .eqArm fn queue => execEqArm_keeps fn queue s h
  | .coalesceTimerExpiry fn queue => execCoalesceTimerExpiry_keeps fn queue s h
  | .msixUnmask fn vector => execMsixUnmask_keeps fn vector s h
  | .bufferPost part index e => execBufferPost_keeps part index e s h
  | .bufferWithdraw part index e => execBufferWithdraw_keeps part index e s h
  | .pushWindowWrite part offset data => execPushWindowWrite_keeps part offset data s h
  | .acctSnapshotLatch fromPf0 part => execAcctSnapshotLatch_keeps fromPf0 part s h
  | .quiesce vf => execQuiesce_keeps vf s h
  | .vfFlr vf => execVfFlr_keeps vf s h
  | .busMasterDisable vf => execBusMasterDisable_keeps vf s h
  | .busMasterEnable vf => execBusMasterEnable_keeps vf s h
  | .vfEnableClear => execVfEnableClear_keeps s h
  | .vfEnableSet => execVfEnableSet_keeps s h
  | .d3hotEntry vf => execD3hotEntry_keeps vf s h
  | .d0Return vf => execD0Return_keeps vf s h
  | .pf0Flr => execPf0Flr_keeps s h
  | .disableDrainEnd vf drainUs => execDisableDrainEnd_keeps vf drainUs s h
  | .hostReadCompletion id result => execHostReadCompletion_keeps id result s h
  | .completionTimeout id => execCompletionTimeout_keeps id s h
  | .ingressPolicerRelease part id elapsedNs => execIngressPolicerRelease_keeps part id elapsedNs s h
  | .registerWrite fn offset size value => execRegisterWrite_keeps fn offset size value s h
  | .oxsisCreate via => execOxsisCreate_keeps via s h
  | .oxsisDestroy via => execOxsisDestroy_keeps via s h
  | .attest via => execAttest_keeps via s h
  | .certRead via => execCertRead_keeps via s h
  | .consent via sigOk => execConsent_keeps via sigOk s h
  | .debugRead via => execDebugRead_keeps via s h
  | .profileRead via => execProfileRead_keeps via s h
  | .fwStage via image => execFwStage_keeps via image s h
  | .fwSvnCommit via => execFwSvnCommit_keeps via s h
  | .rmaUnlock via sigOk => execRmaUnlock_keeps via sigOk s h
  | .signatureRateRelease => execSignatureRateRelease_keeps s h
  | .consentExpiry part => execConsentExpiry_keeps part s h
  | .scrubResourceDone isFlash index => execScrubResourceDone_keeps isFlash index s h
  | .stagingFlush part psn layer => execStagingFlush_keeps part psn layer s h
  | .locationChangeCommit part move => execLocationChangeCommit_keeps part move s h
  | .supersededCopyRelease part psn => execSupersededCopyRelease_keeps part psn s h
  | .pageMove part move => execPageMove_keeps part move s h
  | .parkingMoveStart part seq => execParkingMoveStart_keeps part seq s h
  | .coolingMoveStart part => execCoolingMoveStart_keeps part s h
  | .parkingRetry part seq => execParkingRetry_keeps part seq s h
  | .parkToRest part seq => execParkToRest_keeps part seq s h
  | .descriptorSegmentMove part segment => execDescriptorSegmentMove_keeps part segment s h
  | .allocationResume c => execAllocationResume_keeps c s h
  | .hotEntryResume c => execHotEntryResume_keeps c s h
  | .moveBufferResume part move => execMoveBufferResume_keeps part move s h
  | .specRestoreStart part seq => execSpecRestoreStart_keeps part seq s h
  | .specRestoreResume part seq => execSpecRestoreResume_keeps part seq s h
  | .holdEndExpiry part seq => execHoldEndExpiry_keeps part seq s h
  | .prefetchCopyExpiry part psn layer => execPrefetchCopyExpiry_keeps part psn layer s h
  | .directorySweep => execDirectorySweep_keeps s h
  | .descriptorDirSweep part => execDescriptorDirSweep_keeps part s h
  | .flashProgramComplete place pass => execFlashProgramComplete_keeps place pass s h
  | .flashReadComplete id result => execFlashReadComplete_keeps id result s h
  | .flashEraseComplete block pass => execFlashEraseComplete_keeps block pass s h
  | .collectionStart channel => execCollectionStart_keeps channel s h
  | .collectionIdleTimer channel => execCollectionIdleTimer_keeps channel s h
  | .staticWearLevel channel => execStaticWearLevel_keeps channel s h
  | .retentionLimitRefresh place => execRetentionLimitRefresh_keeps place s h
  | .patrolRead place result => execPatrolRead_keeps place result s h
  | .discardRecordProgram part => execDiscardRecordProgram_keeps part s h
  | .dieReadyTimeout channel die => execDieReadyTimeout_keeps channel die s h
  | .flashTempRetrain channel tempC trained => execFlashTempRetrain_keeps channel tempC trained s h
  | .checkpointWrite => execCheckpointWrite_keeps s h
  | .mapSegmentFetch part segment result => execMapSegmentFetch_keeps part segment result s h
  | .mapSegmentRebuild part segment => execMapSegmentRebuild_keeps part segment s h
  | .mapCheckpointLoad => execMapCheckpointLoad_keeps s h
  | .mapRebuildScan => execMapRebuildScan_keeps s h
  | .restStoreRebuild startupMs => execRestStoreRebuild_keeps startupMs s h
  | .write pk => execWrite_keeps pk s h
  | .send pk => execSend_keeps pk s h
  | .rdreq pk => execRdreq_keeps pk s h
  | .rdresp pk => execRdresp_keeps pk s h
  | .ack pk => execAck_keeps pk s h
  | .nak pk => execNak_keeps pk s h
  | .credit pk => execCredit_keeps pk s h
  | .connect pk => execConnect_keeps pk s h
  | .disconnect pk => execDisconnect_keeps pk s h
  | .packetLanding part qp seq => execPacketLanding_keeps part qp seq s h
  | .qpContextFetchComplete part qp result => execQpContextFetchComplete_keeps part qp result s h
  | .prpPacketSend part qp => execPrpPacketSend_keeps part qp s h
  | .egressPolicerRelease part qp elapsedNs => execEgressPolicerRelease_keeps part qp elapsedNs s h
  | .ackTimer part qp => execAckTimer_keeps part qp s h
  | .retransmitTimeout part qp seq => execRetransmitTimeout_keeps part qp seq s h
  | .connectRetry part qp => execConnectRetry_keeps part qp s h
  | .qpConnect part index => execQpConnect_keeps part index s h
  | .qpDisconnect part index => execQpDisconnect_keeps part index s h
  | .qpReset part index => execQpReset_keeps part index s h
  | .replayRequest port lack => execReplayRequest_keeps port lack s h
  | .creditOnlyFrame port vc credits lack => execCreditOnlyFrame_keeps port vc credits lack s h
  | .pfcFrame uplink pauseMask => execPfcFrame_keeps uplink pauseMask s h
  | .joinSet => execJoinSet_keeps s h
  | .joinClear => execJoinClear_keeps s h
  | .linkTrained port live => execLinkTrained_keeps port live s h
  | .linkLost port live => execLinkLost_keeps port live s h
  | .quadrantIdleEntry quad => execQuadrantIdleEntry_keeps quad s h
  | .quadrantSleepEntry quad => execQuadrantSleepEntry_keeps quad s h
  | .quadrantWakeComplete quad => execQuadrantWakeComplete_keeps quad s h
  | .selfRefreshReturn quad => execSelfRefreshReturn_keeps quad s h
  | .deepSleepRequest => execDeepSleepRequest_keeps s h
  | .offRequest => execOffRequest_keeps s h
  | .autoDeepSleep => execAutoDeepSleep_keeps s h
  | .handshakeAnswer block answer => execHandshakeAnswer_keeps block answer s h
  | .deferLimitExpiry block => execDeferLimitExpiry_keeps block s h
  | .deepSleepExit tagOk copyOk => execDeepSleepExit_keeps tagOk copyOk s h
  | .wakeNLow => execWakeNLow_keeps s h
  | .smbusAddressMatch address => execSmbusAddressMatch_keeps address s h
  | .mctpMessage body => execMctpMessage_keeps body s h
  | .clkreqAssert => execClkreqAssert_keeps s h
  | .wakeAlarm => execWakeAlarm_keeps s h
  | .governorTick packageDw tilesDw => execGovernorTick_keeps packageDw tilesDw s h
  | .governorCorrection packageDw tilesDw => execGovernorCorrection_keeps packageDw tilesDw s h
  | .capRaise => execCapRaise_keeps s h
  | .dvfsPointChange quad => execDvfsPointChange_keeps quad s h
  | .voltageRaiseDone quad millivolts => execVoltageRaiseDone_keeps quad millivolts s h
  | .voltageMonitorDrop quad millivolts => execVoltageMonitorDrop_keeps quad millivolts s h
  | .regulatorFault quad => execRegulatorFault_keeps quad s h
  | .thermalEmergencyStart tempC => execThermalEmergencyStart_keeps tempC s h
  | .thermalEmergencyEnd tempC => execThermalEmergencyEnd_keeps tempC s h
  | .dutyCycleStep => execDutyCycleStep_keeps s h
  | .thermalTrip tempC => execThermalTrip_keeps tempC s h
  | .accountingWindowEnd => execAccountingWindowEnd_keeps s h
  | .dramPatrol errors => execDramPatrol_keeps errors s h
  | .rowRepairComplete channel row => execRowRepairComplete_keeps channel row s h
  | .hotEntryShadowRestore part seq shadowOk => execHotEntryShadowRestore_keeps part seq shadowOk s h
  | .directoryEntryInvalidate part entry => execDirectoryEntryInvalidate_keeps part entry s h
  | .chipRestart => execChipRestart_keeps s h
  | .ageingMeasure die driftBp => execAgeingMeasure_keeps die driftBp s h
  | .lifeDailyRecord => execLifeDailyRecord_keeps s h
  | .crystalSettled => execCrystalSettled_keeps s h
  | .coldStart env => execColdStart_keeps env s h
  | .pwrokFall => execPwrokFall_keeps s h
  | .railEnRestart => execRailEnRestart_keeps s h
  | .sysRst viaPerst => execSysRst_keeps viaPerst s h
  | .hostLinkReset => execHostLinkReset_keeps s h
  | .tapReset => execTapReset_keeps s h
  | .waitTimeout c => execWaitTimeout_keeps c s h
  | .linkFrameError port => execLinkFrameError_keeps port s h
  | .ringTransitForward port vc pk => execRingTransitForward_keeps port vc pk s h
  | .prpFrameDiscard reason part => execPrpFrameDiscard_keeps reason part s h
  | .pciePostedCreditReturn credits => execPciePostedCreditReturn_keeps credits s h
  | .vstbyLoss => execVstbyLoss_keeps s h
  | .standbyPowerOn => execStandbyPowerOn_keeps s h
  | .tileCorrectedError tile => execTileCorrectedError_keeps tile s h
  | .jtagInstruction instr => execJtagInstruction_keeps instr s h

theorem OutKeeps.of_next {t : State} (h : OutKeeps cq co (.next t)) : Keeps cq co t := by
  cases h
  assumption

theorem exec_next_keeps {i : Instr} {s t : State} (h : Keeps cq co s) (e : exec i s = .next t) : Keeps cq co t :=
  OutKeeps.of_next (e ▸ exec_keeps i s h)

end Sys2Proof.Machine
end

