-- ==== Sys2Proof/Tests/Slice0.lean ====
section
/-! SUPPORT. The author's tests: ill-formed commands that WellFormed refuses, states that meet the hypotheses of every statement of
Certificates/Slice0/Obligations.lean (witness_<statement>, clause by clause in the statement's order), and small checks against worked values of
spec/. -/

namespace Sys2Proof.Tests

-- one check at a time: the checks of this file, run side by side, need more memory than one process may have
set_option Elab.async false

open Sys2Proof Sys2Proof.Machine

/-! ### A small board -/

/-- A command word: values at byte offsets. -/
def word (l : List (Nat × Nat)) : List Byte := leBytes 64 (l.foldl (fun n e => n + e.2 * 2 ^ (8 * e.1)) 0)

def grant : Grant := ⟨1, 4, 100, 2, 0x04040404, [2, 3], [], 7, 0, 0⟩

def ring : Slot := { Slot.reset with bound := true, entriesLog2 := 6, csqEn := true, tail := 40 }

def queue : EventQueue := { EventQueue.reset with en := true, entriesLog2 := 7, base := 0x100000 }

/-- One partition with two slots and one event queue. -/
def tenant : Part := { Part.absent with live := true, grant := grant, slots := [(0, ring), (1, ring)], eqs := [(0, queue)] }

/-- The chip after start-up, with the host on its link. -/
def board : State :=
  { State.reset with
    stage := 6, vfEnable := true, pf0Bme := true, funcs := [(0, { Func.reset with bme := true })], parts := [(0, tenant)]
    pins := { Pins.reset with pcieUp := true }, flash := { Flash.reset with phase := 5 } }

def flightOf (w : List Byte) (st : Stage) : Flight := ⟨0, w, false, 0, st, .none, [], [], 0, [], false, [], 0, 0, none⟩

/-- A command in the fetch window of a slot, at ring index 0. -/
def with1 (s : State) (slot : Nat) (f : Flight) : State := s.onSlot 0 slot fun x => { x with window := [f] }

/-- The row of a command in partition 0's slot at ring index 0. -/
def at0 (slot : Nat) : CmdStep := ⟨⟨0, slot, 0⟩, [], false, []⟩

def readyNow (s : State) (c : CmdStep) (f : Flight) : Bool :=
  !c.defer && s.flight c.ref = some f && mayStart s c.ref f && commandCheck c.ref.slot f.word = none &&
    ((s.slot c.ref.part c.ref.slot).earlier f).all (fun g => g.seqs.all fun i => !(namesOf s c.ref.part f.word).contains i) &&
    !(s.eq c.ref.part (s.slot c.ref.part c.ref.slot).eq).stuck && (s.func c.ref.part).disable.isNone

theorem ready_of (s : State) (c : CmdStep) (f : Flight) (h : readyNow s c f = true) : Ready s c f := by
  simp only [readyNow, Bool.and_eq_true, Bool.not_eq_true', decide_eq_true_eq, Option.isNone_iff_eq_none] at h
  exact ⟨h.1.1.1.1.1.1, h.1.1.1.1.1.2, h.1.1.1.1.2, h.1.1.1.2, h.1.1.2, h.1.2, h.2⟩

/-! ### Core statements -/

theorem witness_StepRunsFront : ({ State.reset with pending := [Instr.joinSet, .tapReset] } : State).pending = .joinSet :: [.tapReset] := by decide +kernel

theorem witness_EmptyQueueIdles :
    State.reset.pending = [] ∧ State.reset.power.chip = .on ∧
    (State.reset.onPower fun w => { w with chip := .deepSleep }).pending = [] ∧ (State.reset.onPower fun w => { w with chip := .deepSleep }).power.chip = .deepSleep ∧
    (State.reset.onPower fun w => { w with chip := .off }).pending = [] ∧ (State.reset.onPower fun w => { w with chip := .off }).power.chip ≠ .on ∧
    (State.reset.onPower fun w => { w with chip := .off }).power.chip ≠ .deepSleep := by decide +kernel

theorem witness_EveryStepKeepsForm : board.canonical = true := by decide +kernel

theorem witness_FusesOnlyBurn : board.canonical = true ∧ exec .tapReset board = .next (board.onPins fun p => { p with tap := none }) := ⟨by decide +kernel, rfl⟩

theorem witness_MemoryReadAfterWrite : Memory.wf [(4, 7), (5, 1)] = true ∧ (3 < 4 ∨ 4 + 2 ≤ 3) ∧ (6 < 4 ∨ 4 + 2 ≤ 6) := by decide +kernel

theorem witness_FloatFormatsAgree :
    ((List.range 16).filter fun c => (floatOf c).isSome).length = 8 ∧
    ((List.range 16).filterMap floatOf).all (fun f => f.decode 1 != .nan && f.decode (2 ^ (f.eb + f.mb)) != .nan && 1 < 2 ^ (1 + f.eb + f.mb)) = true := by decide +kernel

theorem witness_RoundsToNearestEven : 2 * 3 = 2 * (rne 3 1 * 2 ^ 1) - 2 ^ 1 ∧ rne 3 1 = 2 ∧ 2 * 1 = 2 * (rne 1 1 * 2 ^ 1) + 2 ^ 1 ∧ rne 1 1 = 0 ∧ 1 ≤ 1 := by decide +kernel

theorem test_reset_is_canonical : State.reset.canonical = true := by decide +kernel

/-! ### Tile code -/

def calm : KCall := ⟨0, [(0, 0), (1, 1), (2, 0x100000), (3, 0x40000), (4, 32), (5, 3), (6, 8192), (7, 64), (8, 0x40002)], [(1, List.replicate 64 0)], [(0, 0), (1, 1)], []⟩
def calls (steps : Nat) : KMachine := ⟨1, true, .perInst, 0, steps, calm, [], []⟩
def kernelUnit (k : KMachine) : Machine.Unit := ⟨0, 1, 0, 0, .kernel, 0, 0, 0, 0, 0, 0, 0, 0, 0, false, false, .running 0, 0, false, false, [], some k, 0, 0, 0, 0, [], false, none⟩
def constants : List Byte := List.replicate 256 1
def image (w : Nat) (n : Nat) : Kernel := ⟨3, BitVec.ofNat 32 w :: List.replicate n 0, constants, 0, 10, 512, false⟩
/-- Unit 1 runs on tile 0 at word 0 of its kernel, the word w, with n words after it. -/
def tiled (w n steps : Nat) : State :=
  { board with
    parts := [(0, { tenant with kernels := [(1, image w n)] })]
    sched := { board.sched with units := [(1, kernelUnit (calls steps))], tiles := [(0, { Tile.reset with running := some 1 })] } }

/-- A word by its op, D, A, B and low bits. -/
def code (op d a b low : Nat) : Nat := op * 2 ^ 26 + d * 2 ^ 21 + a * 2 ^ 16 + b * 2 ^ 11 + low

theorem tiled_at (w n : Nat) (h : w < 2 ^ 32) : AtWord (tiled w n 0) 1 (kernelUnit (calls 0)) 0 (calls 0) (image w n) w :=
  ⟨rfl, rfl, rfl, rfl, rfl, by simp [calls, image]; omega, by simp [calls, image]⟩

theorem tiled_more (w n : Nat) (h : 0 < n) : (calls 0).pc + 1 < (image w n).code.length := by simp [calls, image]; omega

theorem witness_TileScalarInteger :
    (∀ n ∈ List.range 14, AtWord (tiled (code 1 1 2 3 n) 1 0) 1 (kernelUnit (calls 0)) 0 (calls 0) (image (code 1 1 2 3 n) 1) (code 1 1 2 3 n) ∧
      (calls 0).pc + 1 < (image (code 1 1 2 3 n) 1).code.length ∧ iOp (code 1 1 2 3 n) = 0x01 ∧ iFN (code 1 1 2 3 n) = n) ∧
    (∀ o ∈ [2, 3, 4, 5, 6], AtWord (tiled (code o 1 2 0 9) 1 0) 1 (kernelUnit (calls 0)) 0 (calls 0) (image (code o 1 2 0 9) 1) (code o 1 2 0 9) ∧
      (calls 0).pc + 1 < (image (code o 1 2 0 9) 1).code.length ∧ iOp (code o 1 2 0 9) = o) := by
  refine ⟨fun n h => ⟨tiled_at _ _ ?_, tiled_more _ _ (by omega), ?_⟩, fun o h => ⟨tiled_at _ _ ?_, tiled_more _ _ (by omega), ?_⟩⟩ <;> revert h <;>
    (try revert n) <;> (try revert o) <;> decide +kernel

theorem witness_TileScalarFloat :
    ∀ n ∈ [16, 17, 18, 19, 20, 21, 22, 23], AtWord (tiled (code 1 1 2 3 n) 1 0) 1 (kernelUnit (calls 0)) 0 (calls 0) (image (code 1 1 2 3 n) 1) (code 1 1 2 3 n) ∧
      (calls 0).pc + 1 < (image (code 1 1 2 3 n) 1).code.length ∧ iOp (code 1 1 2 3 n) = 0x01 ∧ iFN (code 1 1 2 3 n) = n := by
  refine fun n h => ⟨tiled_at _ _ ?_, tiled_more _ _ (by omega), ?_⟩ <;> revert h <;> revert n <;> decide +kernel

theorem witness_TileVector :
    ∀ n ∈ List.range 16, AtWord (tiled (code 8 1 2 0 n) 1 0) 1 (kernelUnit (calls 0)) 0 (calls 0) (image (code 8 1 2 0 n) 1) (code 8 1 2 0 n) ∧
      (calls 0).pc + 1 < (image (code 8 1 2 0 n) 1).code.length ∧ iOp (code 8 1 2 0 n) = 0x08 ∧ iFN (code 8 1 2 0 n) = n ∧ iFn6 (code 8 1 2 0 n) = n := by
  refine fun n h => ⟨tiled_at _ _ ?_, tiled_more _ _ (by omega), ?_⟩ <;> revert h <;> revert n <;> decide +kernel

theorem witness_TilePredicatesAndReductions :
    ∀ e ∈ [(9, 0), (9, 1), (9, 2), (9, 3), (11, 0), (11, 1), (11, 2), (11, 3), (11, 4), (11, 5), (11, 6), (11, 7), (11, 8), (11, 9), (10, 0), (10, 1), (10, 2)],
      AtWord (tiled (code e.1 1 2 0 e.2) 1 0) 1 (kernelUnit (calls 0)) 0 (calls 0) (image (code e.1 1 2 0 e.2) 1) (code e.1 1 2 0 e.2) ∧
      (calls 0).pc + 1 < (image (code e.1 1 2 0 e.2) 1).code.length ∧ iOp (code e.1 1 2 0 e.2) = e.1 ∧ iFN (code e.1 1 2 0 e.2) = e.2 ∧ iFn6 (code e.1 1 2 0 e.2) = e.2 := by
  refine fun n h => ⟨tiled_at _ _ ?_, tiled_more _ _ (by omega), ?_⟩ <;> revert h <;> revert n <;> decide +kernel

/-- The clauses of TileMemory in order: loads and stores in the windows, mma, then each fault. Scalar register 0 holds 0, 2 the first constant byte,
3 the end of the window, 4 the K of 32, 5 a K of 3, 8 a misaligned address past the window. -/
theorem witness_TileMemory :
    let at' := fun w : Nat => AtWord (tiled w 1 0) 1 (kernelUnit (calls 0)) 0 (calls 0) (image w 1) w ∧ (calls 0).pc + 1 < (image w 1).code.length
    let ker := image 0 1
    (at' (code 0x10 1 0 0 0xFFF) ∧ inRw ker (memAddr calm (code 0x10 1 0 0 0xFFF) 4) 4 = true ∧ memAddr calm (code 0x10 1 0 0 0xFFF) 4 % 4 = 0) ∧
    (at' (code 0x10 1 2 0 15) ∧ inConst ker (memAddr calm (code 0x10 1 2 0 15) 4) 4 = true) ∧
    (at' (code 0x11 1 0 0 0) ∧ inRw ker (memAddr calm (code 0x11 1 0 0 0) 4) 4 = true ∧ inConst ker (memAddr calm (code 0x11 1 0 0 0) 4) 4 = false) ∧
    (at' (code 0x12 1 0 0 0) ∧ inRw ker (memAddr calm (code 0x12 1 0 0 0) 64) (vecBytes 0 64) = true) ∧
    (at' (code 0x13 1 0 0 0) ∧ inRw ker (memAddr calm (code 0x13 1 0 0 0) 64) (encodeLanes 0 (calm.v 1)).length = true ∧
      inConst ker (memAddr calm (code 0x13 1 0 0 0) 64) (encodeLanes 0 (calm.v 1)).length = false) ∧
    (at' (code 0x18 3 0 0 0x280) ∧ (calm.s 4).toNat = 32 ∧ inRw ker 0 16384 = true ∧ inRw ker 0 (64 * vecBytes (iFA (code 0x18 3 0 0 0x280)) 32) = true) ∧
    (at' (code 0x10 1 3 0 0) ∧ inRw ker (memAddr calm (code 0x10 1 3 0 0) 4) 4 = false ∧ inConst ker (memAddr calm (code 0x10 1 3 0 0) 4) 4 = false) ∧
    (at' (code 0x11 1 3 0 0) ∧ inRw ker (memAddr calm (code 0x11 1 3 0 0) 4) 4 = false ∧ inConst ker (memAddr calm (code 0x11 1 3 0 0) 4) 4 = false) ∧
    (at' (code 0x12 1 3 0 0) ∧ inRw ker (memAddr calm (code 0x12 1 3 0 0) 64) (vecBytes 0 64) = false ∧ inConst ker (memAddr calm (code 0x12 1 3 0 0) 64) (vecBytes 0 64) = false) ∧
    (at' (code 0x13 1 3 0 0) ∧ inRw ker (memAddr calm (code 0x13 1 3 0 0) 64) 256 = false ∧ inConst ker (memAddr calm (code 0x13 1 3 0 0) 64) 256 = false) ∧
    (at' (code 0x10 1 1 0 0) ∧ inRw ker (memAddr calm (code 0x10 1 1 0 0) 4) 4 = true ∧ memAddr calm (code 0x10 1 1 0 0) 4 % 4 ≠ 0) ∧
    (at' (code 0x11 1 1 0 0) ∧ inRw ker (memAddr calm (code 0x11 1 1 0 0) 4) 4 = true ∧ memAddr calm (code 0x11 1 1 0 0) 4 % 4 ≠ 0) ∧
    (at' (code 0x11 1 2 0 0) ∧ inConst ker (memAddr calm (code 0x11 1 2 0 0) 4) 4 = true ∧ memAddr calm (code 0x11 1 2 0 0) 4 % 4 = 0) ∧
    (at' (code 0x13 1 2 0 0x1000) ∧ inConst ker (memAddr calm (code 0x13 1 2 0 0x1000) 64) (encodeLanes (iFmt (code 0x13 1 2 0 0x1000)) (calm.v 1)).length = true) ∧
    (at' (code 0x18 4 0 0 0) ∧ (calm.s 5).toNat % 32 ≠ 0) := by
  have q : ∀ w, w < 2 ^ 32 → AtWord (tiled w 1 0) 1 (kernelUnit (calls 0)) 0 (calls 0) (image w 1) w ∧ (calls 0).pc + 1 < (image w 1).code.length :=
    fun w h => ⟨tiled_at w 1 h, tiled_more w 1 (by omega)⟩
  refine ⟨⟨q _ ?_, ?_⟩, ⟨q _ ?_, ?_⟩, ⟨q _ ?_, ?_⟩, ⟨q _ ?_, ?_⟩, ⟨q _ ?_, ?_⟩, ⟨q _ ?_, ?_⟩, ⟨q _ ?_, ?_⟩, ⟨q _ ?_, ?_⟩, ⟨q _ ?_, ?_⟩, ⟨q _ ?_, ?_⟩,
    ⟨q _ ?_, ?_⟩, ⟨q _ ?_, ?_⟩, ⟨q _ ?_, ?_⟩, ⟨q _ ?_, ?_⟩, ⟨q _ ?_, ?_⟩⟩ <;> decide +kernel

theorem witness_TileControl :
    (∀ e ∈ [(0x20, 0), (0x21, 0), (0x21, 1), (0x22, 1), (0x22, 0), (0x23, 1), (0x23, 0), (0x24, 0), (0x24, 1), (0x30, 0), (0x31, 0)],
      AtWord (tiled (code e.1 0 e.2 0 1) 1 0) 1 (kernelUnit (calls 0)) 0 (calls 0) (image (code e.1 0 e.2 0 1) 1) (code e.1 0 e.2 0 1) ∧
      iOp (code e.1 0 e.2 0 1) = e.1 ∧ iA (code e.1 0 e.2 0 1) = e.2 ∧ 0 ≤ ((calls 0).pc : Int) + iImmS (code e.1 0 e.2 0 1) ∧
      (((calls 0).pc : Int) + iImmS (code e.1 0 e.2 0 1)).toNat < (image (code e.1 0 e.2 0 1) 1).code.length ∧
      (calls 0).pc + 1 < (image (code e.1 0 e.2 0 1) 1).code.length) ∧
    calm.s 0 = 0 ∧ calm.s 1 ≠ 0 ∧ calm.p 0 = 0 ∧ calm.p 1 ≠ 0 := by
  refine ⟨fun n h => ⟨tiled_at _ _ ?_, ?_⟩, by decide +kernel⟩ <;> revert h <;> revert n <;> decide +kernel

theorem witness_TileStepAndEndFaults :
    let w := code 1 1 2 3 0
    (tiled w 0 10).unit 1 = some (kernelUnit (calls 10)) ∧ Map.look ((tiled w 0 10).part 0).kernels 1 = some (image w 0) ∧ ((image w 0).code.getD 0 0).toNat = w ∧
    wordValid 1 0 w = true ∧ (image w 0).stepLimit ≤ (calls 10).steps ∧ (calls 0).steps < (image w 0).stepLimit ∧ (image w 0).code.length ≤ 0 + 1 ∧ iOp w ≤ 0x0B ∧
    (tiled w 0 0).unit 1 = some (kernelUnit (calls 0)) := by decide +kernel

theorem witness_EveryValidWordIsOneRow :
    let w := code 1 1 2 3 0
    (tiled w 0 10).unit 1 = some (kernelUnit (calls 10)) ∧ Map.look ((tiled w 0 10).part 0).kernels 1 = some (image w 0) ∧ ((image w 0).code.getD 0 0).toNat = w ∧
    wordValid 1 0 w = true ∧ (image w 0).stepLimit ≤ (calls 10).steps ∧ faultJob (tiled w 0 10) (kernelUnit (calls 10)) 0 1 3 0 0 ≠ tiled w 0 10 := by decide +kernel

theorem witness_TileFrame : (0 : Nat) < [(5 : Word)].length ∧ 0 < (calm.v 1).length ∧ (2 : Nat) ≠ 1 ∧ (tiled 0 0 0).unit 1 = some (kernelUnit (calls 0)) ∧ (2 : Nat) ≠ 1 := by
  decide +kernel

/-! ### Commands. full holds a model, a kernel, jobs, and sequences in every state. -/

def model1 : Model := ⟨9, 1, 1, 1, 64, 64, 3, 0, 0, 0x3F800000⟩
def blankSeq : Seq :=
  ⟨1, .active, 1, 0, 0, 0, 0, 0, 0, 0, [], [], [], 0, 0, 0, 0, 0, 0, false, false, false, Loc.none, 0, none, [], false, [], none⟩
/-- Two page sets and 20 positions of a tail page. -/
def long : Seq :=
  { blankSeq with length := 532, reservedLen := 532, stepBase := 532, pt := [⟨1, false⟩, ⟨2, false⟩], tails := [(0, ⟨.page, 0, 50⟩)], tokenTail := List.replicate 20 7 }
def set1 (d : BitVec 128) (n frame : Nat) : PageSet :=
  ⟨1, n, true, true, false, false, 1, 1, 0, 0, d, List.replicate 256 7, [(0, ⟨.page, 0, frame⟩)], 0, 0, 0, false, [], [], []⟩
def job (st : JobState) : Job := ⟨st, 2, 0x200000, none⟩
def richSeqs : Map Seq :=
  [(1, blankSeq), (2, long), (3, { long with state := .parking }), (4, { blankSeq with state := .rest, restRef := ⟨.page, 0, 60⟩ }),
    (5, { blankSeq with state := .restoring }), (6, { blankSeq with state := .swapped })]
def rich : Part :=
  { tenant with
    models := [(1, model1)], kernels := [(1, image (code 1 1 2 3 0) 1)], jobs := [(1, job .idle), (2, job .faulted), (3, job .bound)]
    slots := [(0, ring), (1, ring), (5, { ring with job := 3, tail := 0 })], seqs := richSeqs
    sets := [(1, set1 11 0 70), (2, set1 12 1 71)], dir := [(0, ⟨11, 1, 0, 1, true, false, 0⟩)]
    dram := [(50, ⟨1, [], []⟩), (60, ⟨1, [], []⟩), (70, ⟨1, [], []⟩), (71, ⟨1, [], []⟩)]
    regions := [(2, ⟨0x10000000, 2 ^ 20, false, []⟩)]
    qps := [(0, { Qp.reset with state := .ready, resident := true, peerChip := 5, peerPart := 3, peerQp := 0x30007 })] }
def full : State := { board with parts := [(0, rich)] }

/-- The command w just fetched in a slot of full. -/
def run (slot : Nat) (w : List Byte) : State := with1 full slot (flightOf w .fetched)
def okRun (slot : Nat) (w : List Byte) : Bool := readyNow (run slot w) (at0 slot) (flightOf w .fetched)
theorem run_ready (slot : Nat) (w : List Byte) (h : okRun slot w = true) : Ready (run slot w) (at0 slot) (flightOf w .fetched) := ready_of _ _ _ h

/-- The handle of a sequence of rich. -/
def hnd (i : Nat) : Nat := 2 ^ 24 + i
def got : AllocAll → Bool
  | .got _ _ => true
  | _ => false
def gotState (d : State) : AllocAll → State
  | .got s _ => s
  | _ => d
def awake : Wake → Bool
  | .awake _ => true
  | _ => false
def read : ReadEnd → Bool
  | .done _ => true
  | _ => false

def wNop : List Byte := word [(0, 0x60)]
def wSignal : List Byte := word [(0, 0x63), (1, 2), (2, 5), (4, 3), (0x10, 5), (0x18, 9)]
def wWait (v t : Nat) : List Byte := word [(0, 0x62), (0x10, 5), (0x14, t), (0x18, v)]

theorem witness_FenceCommands :
    (∀ w ∈ [(wNop, Op.nop), (word [(0, 0x61)], Op.fence), (word [(0, 0x80), (0x10, 1)], Op.eventPost), (wSignal, Op.signal), (wWait 1 4000000, Op.wait), (wWait 0 0, Op.wait)],
      Ready (run 1 w.1) (at0 1) (flightOf w.1 .fetched) ∧ cOpcode w.1 = w.2) ∧ cTimeout (wWait 1 4000000) ≤ 4000000 := by
  refine ⟨fun w h => ⟨run_ready _ _ ?_, ?_⟩, by decide +kernel⟩ <;> revert h <;> revert w <;> decide +kernel

theorem witness_ReportCommands :
    let a := word [(0, 0x70), (0x14, 256), (0x18, 64)]
    let c := word [(0, 0x0A), (0x18, 64)]
    (Ready (run 1 a) (at0 1) (flightOf a .fetched) ∧ cOpcode a = Op.acctRead ∧ 256 ≤ field a 0x14 4 ∧ cAddr18 a % 64 = 0) ∧
    (Ready (run 0 c) (at0 0) (flightOf c .fetched) ∧ cOpcode c = Op.capRead ∧ cAddr18 c % 64 = 0) := by
  refine ⟨⟨run_ready _ _ ?_, ?_⟩, ⟨run_ready _ _ ?_, ?_⟩⟩ <;> decide +kernel

def wBind : List Byte := word [(0, 3), (0x10, 1), (0x11, 0), (0x12, 6)]
/-- full with a ring descriptor of 64 entries on event queue 0 in host memory. -/
def described : State := { full with hostMem := [(0x200008, 6)] }

theorem witness_JobCommands :
    (∀ w ∈ [(word [(0, 1), (0x10, 9), (0x11, 4), (0x18, 128)], Op.jobCreate), (word [(0, 5), (0x10, 2)], Op.jobReset), (word [(0, 2), (0x10, 1)], Op.jobDestroy),
        (word [(0, 2), (0x10, 2)], Op.jobDestroy), (wBind, Op.jobBind), (word [(0, 4), (0x12, 5)], Op.jobUnbind)],
      Ready (run 0 w.1) (at0 0) (flightOf w.1 .fetched) ∧ cOpcode w.1 = w.2) ∧
    (rich.job 9).state = .free ∧ (rich.job 2).state = .faulted ∧ (rich.job 1).state = .idle ∧ (rich.slot 6).bound = false ∧ (rich.slot 5).bound = true ∧
    (rich.slot 5).window = [] ∧ 0 < (rich.job 1).rings := by
  refine ⟨fun w h => ⟨run_ready _ _ ?_, ?_⟩, by decide +kernel⟩ <;> revert h <;> revert w <;> decide +kernel

theorem witness_JobCommands_bind :
    let s := with1 described 0 (flightOf wBind .fetched)
    let d := descriptorOf (s.hostBytes 0x200000 32)
    Ready s (at0 0) (flightOf wBind .fetched) ∧ ((s.part 0).slots.any fun e => e.1 ≠ 0 && e.2.bound && e.2.job = 1 && e.2.ring = 0) = false ∧
    readOk [] 0x200000 32 = true ∧ d.reserved = false ∧ d.inRange = true ∧ ((s.part 0).eq d.eq).en = true := by
  refine ⟨ready_of _ _ _ ?_, ?_⟩ <;> decide +kernel

def wModel : List Byte :=
  word [(0, 6), (0x10, 2), (0x11, 3), (0x12, 1), (0x14, 1), (0x15, 1), (0x16, 64), (0x18, 64), (0x1C, 0x3F800000), (0x20, 10)]
def wKernel : List Byte := word [(0, 8), (0x10, 7), (0x14, 128), (0x18, 0x300000)]
/-- A kernel image of 128 bytes: one word, ret. -/
def kernelImage : List Byte := leBytes 4 0x314B424D ++ leBytes 2 1 ++ [3, 0] ++ leBytes 4 1 ++ leBytes 52 0 ++ leBytes 4 0xC0000000 ++ leBytes 60 0
def withImage : State := with1 { full with hostMem := Memory.writeBytes [] 0x300000 kernelImage } 0 (flightOf wKernel .fetched)
/-- full without a sequence or a model that names kernel 1. -/
def unused : State := with1 { full with parts := [(0, { rich with seqs := [] })] } 0 (flightOf (word [(0, 7), (0x10, 1)]) .fetched)

theorem witness_ModelAndKernelCommands :
    (Ready (run 0 wModel) (at0 0) (flightOf wModel .fetched) ∧ cOpcode wModel = Op.modelRegister ∧ (modelOf wModel).inRange = true ∧ Map.has rich.models (cModel wModel) = false ∧
      (rich.models.any fun e => e.2.tag = (modelOf wModel).tag) = false ∧ (modelOf wModel).posKernel = 0 ∧ (modelOf wModel).scoreKernel = 0 ∧
      (modelOf wModel).footprint ≤ (modelOf wModel).pageKib * 1024) ∧
    (Ready unused (at0 0) (flightOf (word [(0, 7), (0x10, 1)]) .fetched) ∧ Map.has (unused.part 0).models 1 = true ∧ modelInUse (unused.part 0) 1 = false) ∧
    (Ready withImage (at0 0) (flightOf wKernel .fetched) ∧ cOpcode wKernel = Op.kernelLoad ∧ field wKernel 0x14 4 = 128 ∧ cAddr18 wKernel % 64 = 0 ∧ Map.has rich.kernels 7 = false ∧
      storeUsed rich + roundUp 128 256 ≤ 65536 ∧ (kernelOf (withImage.hostBytes 0x300000 128)).isSome = true) ∧
    (Ready (run 0 (word [(0, 9), (0x10, 1)])) (at0 0) (flightOf (word [(0, 9), (0x10, 1)]) .fetched) ∧ Map.has rich.kernels 1 = true ∧
      (rich.models.any fun e => e.2.posKernel = 1 || e.2.scoreKernel = 1) = false ∧ kernelUsers ((run 0 (word [(0, 9), (0x10, 1)])).part 0) 1 0 = false) := by
  refine ⟨⟨run_ready _ _ ?_, ?_⟩, ⟨ready_of _ _ _ ?_, ?_⟩, ⟨ready_of _ _ _ ?_, ?_⟩, ⟨run_ready _ _ ?_, ?_⟩⟩ <;> decide +kernel

/-- The sequence commands with a handle of the named sequence of rich. -/
theorem witness_SequenceStateCommands :
    (∀ w ∈ [(0x13, 1, SeqState.active), (0x14, 1, .active), (0x14, 6, .swapped), (0x14, 3, .parking), (0x14, 4, .rest), (0x14, 5, .restoring), (0x15, 4, .rest), (0x15, 5, .restoring),
        (0x15, 1, .active), (0x16, 1, .active), (0x16, 5, .restoring), (0x16, 4, .rest), (0x18, 1, .active)],
      let b := word [(0, w.1), (0x10, hnd w.2.1)]
      Ready (run 1 b) (at0 1) (flightOf b .fetched) ∧ cOpcode b = w.1 ∧ (((run 1 b).part 0).handle (cHandle b)).map (·.state) = some w.2.2) ∧
    (∀ i ∈ [1, 5, 6], let b := word [(0, 0x15), (0x10, hnd i)]
      awake (wakeSeq (dropReserve (requestedIn (begun (run 1 b) (at0 1)) (at0 1)) ⟨0, 1, 0⟩) 0 i none ⟨⟨0, 1, 0⟩, [], true, []⟩ b) = true) ∧
    (let b := word [(0, 0x15), (0x10, hnd 4)]
     let v := begun (run 1 b) (at0 1)
     let q : Seq := { blankSeq with state := .rest, restRef := ⟨.page, 0, 60⟩ }
     ((run 1 b).part 0).handle (cHandle b) = some q ∧ mayTakeHot v 0 = true ∧ got (wakeTables v 0 4 q) = true ∧
       read (cmdReads ((setPlan (gotState v (wakeTables v 0 4 q)) ⟨0, 1, 0⟩ .resume).onFlight ⟨0, 1, 0⟩ fun f => { f with slots := tableSlots 0 }) 0 (at0 1) b 0 [.rest 4]) =
         true) := by
  refine ⟨fun w h => ⟨run_ready _ _ ?_, ?_⟩, ?_, ?_⟩
  · revert h; revert w; decide +kernel
  · revert h; revert w; decide +kernel
  · decide +kernel
  · decide +kernel

theorem witness_takeHot (s : State) (p : Nat) (h : mayTakeHot s p = true) : takeHot s p = .free := by unfold takeHot; exact if_pos h

def wCancel (i : Nat) : List Byte := word [(0, 0x17), (0x10, hnd i)]

theorem witness_SpecCancelReleases :
    Ready (run 1 (wCancel 2)) (at0 1) (flightOf (wCancel 2) .fetched) ∧ ((run 1 (wCancel 2)).part 0).handle (cHandle (wCancel 2)) = some long ∧
    cOpcode (wCancel 2) = Op.specCancel ∧
    (let d := dropTents (requestedIn (begun (run 1 (wCancel 2)) (at0 1)) (at0 1)) 0 2
     ((d.1.part 0).seq 2).isSome = true ∧ (d.1.part 0).tentsOf long = []) ∧
    ((run 1 (wCancel 2)).part 0).tentsOf long = [] ∧ long.tailTents = [] := by
  refine ⟨run_ready _ _ ?_, ?_⟩ <;> decide +kernel

/-- A promotion of the copy that a committed reader asked for waits for its commit point. -/
def promoting : State :=
  (run 1 (wCancel 2)).onPart 0 fun x =>
    { x with
      sets := [(1, { set1 11 0 70 with tents := [(0, ⟨90, true, 0, none⟩)] }), (2, set1 12 1 71)]
      moves := [(1, ⟨.page 1 0, .promotion, .written, ⟨.page, 2, 9⟩, ⟨.page, 0, 90⟩, 65536, [], none, 0, none, [], 0⟩)] }

theorem witness_SpecCancelReleases_held :
    Ready promoting (at0 1) (flightOf (wCancel 2) .fetched) ∧ (promoting.part 0).handle (cHandle (wCancel 2)) = some long ∧
    (let d := dropTents (requestedIn (begun promoting (at0 1)) (at0 1)) 0 2
     (d.1.part 0).seq 2 = some long ∧ (d.1.part 0).tentsOf long ≠ []) := by
  refine ⟨ready_of _ _ _ ?_, ?_⟩ <;> decide +kernel

def wFork : List Byte := word [(0, 0x11), (0x10, hnd 2)]
def wTrim (t : Nat) : List Byte := word [(0, 0x12), (0x10, hnd 2), (0x14, t)]

theorem witness_SequenceCopyCommands :
    (Ready (run 1 wFork) (at0 1) (flightOf wFork .fetched) ∧ ((run 1 wFork).part 0).handle (cHandle wFork) = some long ∧ long.isOpen = false ∧ long.state = .active ∧
      (let b := begun (run 1 wFork) (at0 1)
       let a := allocWithTables 0 long.homeQ (tableSlots 2) 0 (some 2) (long.tails.map fun _ => ((b.part 0).model 1).stagingFrames) b
       mayTakeHot b 0 = true ∧ got a = true ∧ read (cmdReads (gotState b a) 0 (at0 1) wFork 0 [.tail 2 0]) = true ∧
         (((gotState b a).part 0).model 1).stagingFrames = ((b.part 0).model 1).stagingFrames)) ∧
    (∀ t ∈ [532, 520, 512, 256, 0], Ready (run 1 (wTrim t)) (at0 1) (flightOf (wTrim t) .fetched) ∧ ((run 1 (wTrim t)).part 0).handle (cHandle (wTrim t)) = some long ∧
      cWord14 (wTrim t) ≤ long.length ∧ (long.length / 256 ≤ cWord14 (wTrim t) / 256 ∨ cWord14 (wTrim t) % 256 = 0)) ∧
    (Ready (run 1 (wTrim 300)) (at0 1) (flightOf (wTrim 300) .fetched) ∧ ((run 1 (wTrim 300)).part 0).handle (cHandle (wTrim 300)) = some long ∧
      cWord14 (wTrim 300) / 256 < long.length / 256 ∧ cWord14 (wTrim 300) % 256 ≠ 0 ∧ long.pt[cWord14 (wTrim 300) / 256]? = some ⟨2, false⟩ ∧
      (let b := (begun (run 1 (wTrim 300)) (at0 1)).onFlight ⟨0, 1, 0⟩ fun f => { f with startLen := 532 }
       let a := allocAll 0 0 (some 2) (List.replicate 1 ((b.part 0).model 1).stagingFrames) b
       segmentsOut (b.part 0) [2] = [] ∧ got a = true ∧ read (cmdReads (gotState b a) 0 (at0 1) (wTrim 300) 0 [.page 2 0]) = true)) := by
  refine ⟨⟨run_ready _ _ ?_, ?_⟩, fun t h => ⟨run_ready _ _ ?_, ?_⟩, run_ready _ _ ?_, ?_⟩
  · decide +kernel
  · decide +kernel
  · revert h; revert t; decide +kernel
  · revert h; revert t; decide +kernel
  · decide +kernel
  · decide +kernel

def wOpen (t : Nat) : List Byte := word [(0, 0x10), (0x10, 1), (0x14, t), (0x18, if t = 0 then 0 else 0x400000)]
def wProbe (t : Nat) : List Byte := word [(0, 0x30), (0x10, 1), (0x14, t), (0x18, if t = 0 then 0 else 0x400000)]

theorem witness_PrefixCommands :
    (∀ w ∈ [(wOpen 0, 0x10), (wOpen 300, 0x10), (wProbe 0, 0x30), (wProbe 300, 0x30)], Ready (run 1 w.1) (at0 1) (flightOf w.1 .fetched) ∧ cOpcode w.1 = w.2 ∧
      openCheck (begun (run 1 w.1) (at0 1)) 0 [] w.1 = none ∧ mayTakeHot (begun (run 1 w.1) (at0 1)) 0 = true ∧
      got (allocWithTables 0 0 (tableSlots (if oNoAdopt w.1 then 0 else hMaxOf w.1)) 0 none [] (begun (run 1 w.1) (at0 1))) = true ∧ oMaxSets w.1 ≤ 4096 ∧ oTokPw w.1 = false ∧
      Map.has ((run 1 w.1).part 0).models (cModel w.1) = true) ∧ oT (wOpen 0) = 0 ∧ oT (wProbe 0) = 0 ∧
    (∀ w ∈ [(word [(0, 0x33), (0x18, 0), (0x19, 1)], 0x33), (word [(0, 0x31), (0x10, hnd 2), (0x14, 2)], 0x31), (word [(0, 0x32), (0x10, hnd 2), (0x14, 2), (0x18, 0)], 0x32),
        (word [(0, 0x32), (0x10, hnd 2), (0x14, 2), (0x18, 1)], 0x32), (word [(0, 0x33), (0x10, hnd 2), (0x14, 2), (0x18, 1)], 0x33)],
      Ready (run 1 w.1) (at0 1) (flightOf w.1 .fetched) ∧ cOpcode w.1 = w.2) ∧
    evictMode (word [(0, 0x33), (0x18, 0), (0x19, 1)]) = 0 ∧ Map.has rich.models (evictModelNo (word [(0, 0x33), (0x18, 0), (0x19, 1)])) = true ∧
    rich.handle (hnd 2) = some long ∧ long.state = .active ∧ segmentsOut rich [1, 2] = [] ∧ 1 ≤ 2 ∧ 2 ≤ 4096 ∧ 2 ≤ long.stepBase / 256 ∧ 2 ≤ long.length / 256 ∧
    retained rich + ((leadingEntries rich long 2).filter fun e => !e.2.retain).length ≤ Config.retainLimit ∧ evictMode (word [(0, 0x33), (0x10, hnd 2), (0x14, 2), (0x18, 1)]) = 1 := by
  refine ⟨fun w h => ⟨run_ready _ _ ?_, ?_⟩, by decide +kernel, by decide +kernel, fun w h => ⟨run_ready _ _ ?_, ?_⟩, by decide +kernel⟩ <;> revert h <;> revert w <;> decide +kernel

def wAdd : List Byte := word [(0, 0x40), (0x10, 3), (0x18, 0x20000000), (0x20, 67584)]
def wRemove : List Byte := word [(0, 0x41), (0x10, 2)]
def wKv : List Byte := word [(0, 0x20), (0x10, hnd 2), (0x14, 0), (0x15, 1), (0x18, 500), (0x1C, 32), (0x20, 64)]

theorem witness_RegionAndReadCommands :
    (Ready (run 1 wAdd) (at0 1) (flightOf wAdd .fetched) ∧ cOpcode wAdd = Op.hostRegionAdd ∧ cBase wAdd % 65536 = 0 ∧ cBytes wAdd % 2048 = 0 ∧ 67584 ≤ cBytes wAdd ∧
      cBytes wAdd ≤ 2 ^ 40 ∧ Map.has rich.regions (cRegion wAdd) = false) ∧
    (Ready (run 1 wRemove) (at0 1) (flightOf wRemove .fetched) ∧ cOpcode wRemove = Op.hostRegionRemove ∧ Map.look rich.regions (cRegion wRemove) = some ⟨0x10000000, 2 ^ 20, false, []⟩) ∧
    (Ready (run 1 wKv) (at0 1) (flightOf wKv .fetched) ∧ cOpcode wKv = Op.kvRead ∧ ((run 1 wKv).part 0).handle (cHandle wKv) = some long ∧ field wKv 0x14 1 < model1.layers ∧
      field wKv 0x15 1 % 16 ≤ 3 ∧ field wKv 0x18 4 + field wKv 0x1C 4 = 532 ∧ long.lenOf 0 = 532 ∧ field wKv 0x20 8 % 64 = 0 ∧
      (let b := begun (run 1 wKv) (at0 1)
       let sets := setsOf long 0 500 32
       sets = [2] ∧ segmentsOut (b.part 0) sets = [] ∧
         read (cmdReads (pinFor b ⟨0, 1, 0⟩ sets) 0 (at0 1) wKv 0 ((kvObjects long 2 0 500 32).map fun o => o.1)) = true)) := by
  refine ⟨⟨run_ready _ _ ?_, ?_⟩, ⟨run_ready _ _ ?_, ?_⟩, run_ready _ _ ?_, ?_⟩ <;> decide +kernel

/-- Attention commands of one element, whose list of zeros names no sequence: the element fails, and the command goes on to its commit. -/
def wAttn (op : Nat) : List Byte := word [(0, op), (0x10, 1), (0x12, 1), (0x18, 0x500000)]
def wRun : List Byte := word [(0, 0x53), (0x10, 1), (0x12, 1024), (0x28, 64), (0x2C, 64), (0x18, 0x500000), (0x20, 0x600000)]
def wMigrate : List Byte := word [(0, 0x42), (0x10, hnd 1), (0x14, 0), (0x18, 5 * 2 ^ 36 + 3 * 2 ^ 32 + 2 ^ 24)]

theorem witness_RunCommands :
    (∀ op ∈ [0x50, 0x51, 0x52], Ready (run 1 (wAttn op)) (at0 1) (flightOf (wAttn op) .fetched) ∧ cOpcode (wAttn op) = op ∧
      attentionCheck (begun (run 1 (wAttn op)) (at0 1)) 0 [] (wAttn op) = none) ∧
    (Ready (run 1 wRun) (at0 1) (flightOf wRun .fetched) ∧ cOpcode wRun = Op.kernelRun ∧ kInstances wRun = 1024 ∧ kIn wRun % 64 = 0 ∧ kOut wRun % 64 = 0 ∧ kInBytes wRun = 64 ∧
      kOutBytes wRun = 64 ∧ kInPw wRun = false ∧ kernelOk ((run 1 wRun).part 0) 1 3 = true ∧
      got (allocAll 0 (idlestQuad (begun (run 1 wRun) (at0 1))) none (List.replicate (ceilDiv (kInstances wRun * kOutBytes wRun) 65536) 1) (begun (run 1 wRun) (at0 1))) = true) ∧
    (Ready (run 1 wMigrate) (at0 1) (flightOf wMigrate .fetched) ∧ cOpcode wMigrate = Op.seqMigrate ∧ ((run 1 wMigrate).part 0).handle (cHandle wMigrate) = some blankSeq ∧
      blankSeq.isOpen = false ∧ cQp wMigrate / 65536 = 0 ∧ (((run 1 wMigrate).part 0).qp (cQp wMigrate % 65536)).state = .ready ∧
      unflushed ((begun (run 1 wMigrate) (at0 1)).part 0) blankSeq = false ∧
      read (cmdReads (begun (run 1 wMigrate) (at0 1)) 0 (at0 1) wMigrate 0 (migrateObjs 1 blankSeq model1)) = true) := by
  refine ⟨fun w h => ⟨run_ready _ _ ?_, ?_⟩, ⟨run_ready _ _ ?_, ?_⟩, run_ready _ _ ?_, ?_⟩
  · revert h; revert w; decide +kernel
  · revert h; revert w; decide +kernel
  · decide +kernel
  · decide +kernel
  · decide +kernel
  · decide +kernel


/-! ### The fetch window and the commit unit -/

def flightAt (i : Nat) (w : List Byte) (st : Stage) : Flight := { flightOf w st with index := i }
/-- Commands of slot 1 of full. -/
def win (l : List Flight) : State := full.onSlot 0 1 fun x => { x with window := l }
def ref1 (i : Nat) : CmdRef := ⟨0, 1, i⟩
def wBarrier : List Byte := word [(0, 0x60), (1, 1)]
def isDone : Commit → Bool
  | .done _ _ _ _ _ => true
  | _ => false
def isKill : Commit → Bool
  | .kill _ => true
  | _ => false
def isReject : Commit → Bool
  | .reject _ _ => true
  | _ => false

theorem witness_BarrierHoldsBack :
    (let f := flightAt 1 wBarrier .fetched
     (win [flightAt 0 wNop .fetched, f]).flight (ref1 1) = some f ∧ cBarrier wBarrier = true ∧ ((win [flightAt 0 wNop .fetched, f]).slot 0 1).earlier f ≠ [] ∧
       (win [f]).flight (ref1 1) = some f ∧ ((win [f]).slot 0 1).noGap f = false) ∧
    (let f := flightAt 1 wNop .fetched
     let s := win [flightAt 0 (word [(0, 3), (0x10, 1)]) .fetched, f]
     s.flight (ref1 1) = some f ∧ ((s.slot 0 1).earlier f).any (fun g => isControl (cOpcode g.word)) = true) ∧
    (let f := flightAt 0 wBarrier .fetched
     let x := (win [f]).slot 0 1
     (win [f]).flight (ref1 0) = some f ∧ x.earlier f = [] ∧ x.noGap f = true ∧ (win [f]).ready = true ∧ ((win [f]).part 0).live = true ∧ x.draining = false ∧
       x.stopped = false ∧ f.stage = .fetched) := by decide +kernel

/-- A command whose commit is asked for, its start at LENGTH n. -/
def asks (w : List Byte) (seqs : List Nat) (n : Nat) (plan : Plan) (st : Stage) : Flight :=
  { flightAt 0 w st with seqs := seqs, startLen := n, plan := plan }
def records : List (List Byte) := List.replicate 32768 []
/-- full with event queue 0's overflow ring full of records. -/
def crowded (l : List Flight) : State := (win l).onEq 0 0 fun e => { e with overflow := records }
theorem stuck_of (e : EventQueue) (h : e.overflow = records) : e.stuck = true := by
  have n : records.length = 32768 := List.length_replicate ..
  have e : records ≠ [] := fun e => by rw [e] at n; exact absurd n (by decide)
  simp only [EventQueue.stuck, h, n, ne_eq, e, not_false_eq_true, decide_true, Bool.or_true, Config.overflowRecords, Bool.true_and]
  decide
def wUnregister : List Byte := word [(0, 7), (0x10, 1)]

theorem witness_CommitUnit_rows :
    (let f := flightAt 0 wNop (.rejected 3)
     (win [f]).flight (ref1 0) = some f ∧ ((win [f]).eq 0 ((win [f]).slot 0 1).eq).stuck = false) ∧
    (∀ st ∈ [Stage.requested, .held], let f := { flightAt 1 wNop st with seqs := [2] }
     let s := win [asks wFork [2] 532 .none .requested, f]
     s.flight (ref1 1) = some f ∧ commitBlocked (s.slot 0 1) f = true) ∧
    (∀ st ∈ [Stage.requested, .held], let f := flightAt 0 wNop st
     let s := crowded [f]
     s.flight (ref1 0) = some f ∧ commitBlocked (s.slot 0 1) f = false ∧ (s.eq 0 (s.slot 0 1).eq).stuck = true ∧ (s.eq 0 (s.slot 0 1).eq).en = true ∧
       s.stopping (ref1 0) = false) ∧
    (∀ st ∈ [Stage.requested, .held], ∀ f ∈ [(flightAt 0 wNop st, isDone), (asks wFork [2] 400 (.copy 400 7 []) st, isKill), (flightAt 0 wUnregister st, isReject)],
     let s := win [f.1]
     s.flight (ref1 0) = some f.1 ∧ commitBlocked (s.slot 0 1) f.1 = false ∧ (s.eq 0 (s.slot 0 1).eq).stuck = false ∧
       f.2 (commitOp (rewake s (ref1 0) f.1) (ref1 0) (s.slot 0 1) f.1) = true) := by
  refine ⟨?_, fun st h => ?_, fun st h => ?_, fun st h f g => ?_⟩
  · decide +kernel
  · revert h; revert st; decide +kernel
  · have h1 : ((crowded [flightAt 0 wNop st]).eq 0 ((crowded [flightAt 0 wNop st]).slot 0 1).eq).stuck = true := stuck_of _ rfl
    refine ⟨?_, ?_, h1, ?_⟩ <;> revert h <;> clear h1 <;> revert st <;> decide +kernel
  · simp only [List.mem_cons, List.not_mem_nil, or_false] at h g
    rcases h with rfl | rfl <;> rcases g with rfl | rfl | rfl <;> decide +kernel

theorem witness_CommitUnit_sequences :
    (∀ f ∈ [asks wFork [2] 400 (.copy 400 7 []) .requested, asks wFork [2] 532 (.copy 532 7 [(0, ⟨.page, 0, 90⟩)]) .requested,
        asks (wTrim 520) [2] 400 (.copy 400 0 []) .requested, asks (wTrim 520) [2] 532 (.copy 532 0 []) .requested, asks wKv [2] 532 (.bytes (List.replicate 4 9)) .requested],
      let s := win [f]
      s.flight (ref1 0) = some f ∧ (s.part 0).handle (cHandle f.word) = some long ∧ f.seqs = [handleIndex (cHandle f.word)] ∧ f.pins = [] ∧
        commitBlocked (s.slot 0 1) f = false ∧ (s.eq 0 (s.slot 0 1).eq).stuck = false) ∧
    long.state = .active ∧ long.isOpen = false ∧ long.length = 532 ∧ cOpcode wFork = Op.seqFork ∧ cOpcode (wTrim 520) = Op.seqTrim ∧ cOpcode wKv = Op.kvRead ∧
    532 / 256 ≤ cWord14 (wTrim 520) / 256 ∧ cWord14 (wTrim 520) % 256 ≠ 0 ∧ long.pt.length ≤ cWord14 (wTrim 520) / 256 ∧
    (let w := word [(0, 0x20), (0x10, hnd 2), (0x14, 0), (0x15, 1), (0x18, 100), (0x1C, 32), (0x20, 64)]
     (field w 0x18 4 + field w 0x1C 4 - 1) / 256 ≠ long.lenOf (field w 0x14 1) / 256 ∧ ((win [asks w [2] 532 (.bytes [9]) .requested]).part 0).handle (cHandle w) = some long) := by
  refine ⟨fun f h => ?_, ?_⟩
  · revert h; revert f; decide +kernel
  · decide +kernel

theorem witness_DoneMaskWindow : 0 < ring.size ∧ ring.head < ring.size ∧ (nextFetch full 0 1 3).length = 3 := by decide +kernel

def chainOf (k hMax : Nat) : Chain := ⟨ref1 0, k, hMax, 1, 0, List.replicate 512 7⟩
/-- A shaking core; its command waits for digests. The directory holds the digest that the core ends with. -/
def hashing (dir : Map DirEntry) (k hMax : Nat) : State :=
  { (win [flightAt 0 (wOpen 300) (.waiting .digests)]).onPart 0 fun x => { x with dir := dir } with
    sched := { full.sched with cores := [(0, chainOf k hMax)] } }

theorem witness_FetchAndDigestRows_fetch :
    full.fetches 0 1 = true ∧ full.hostUp = true ∧ nextFetch full 0 1 3 ≠ [] ∧ tagFree full 0 = true ∧
      (meterRead full 0 (64 * (nextFetch full 0 1 3).length) (full.slot 0 1).snare).1 ≠ .red := by decide +kernel

theorem probe_hits (x : Part) (d : BitVec 128) (m k : Nat) (e : DirEntry) (h : Map.look x.dir (dirBase d + 0) = some e) (h1 : e.digest = d)
    (h2 : e.model = m) (h3 : e.index = k) : probe x d m k = some (dirBase d + 0, e) := by
  have r : List.range 8 = 0 :: [1, 2, 3, 4, 5, 6, 7] := rfl
  unfold probe
  rw [r, List.findSome?_cons]
  simp only [h, h1, h2, h3, decide_true, Bool.and_self, if_true]

theorem lookup_hits (s : State) (c : CmdRef) (m k : Nat) (prev : BitVec 128) (l : List Word) (e : Nat × DirEntry) (g : PageSet)
    (h : probe (s.part c.part) (digestOf ((s.part c.part).model m).tag (s.part c.part).grant.salt prev ((l.drop (256 * k)).take 256)) m k = some e)
    (hg : (s.part c.part).set e.2.psn = some g) (ht : g.tokens = (l.drop (256 * k)).take 256) : (lookupOne s c m k prev l).2.2 = true := by
  unfold lookupOne
  simp only [h, hg, ht, decide_true]

theorem lookup_misses (s : State) (c : CmdRef) (m k : Nat) (prev : BitVec 128) (l : List Word) (h : (s.part c.part).dir = []) :
    (lookupOne s c m k prev l).2.2 = false := by
  have e : ∀ d, probe (s.part c.part) d m k = none := fun d => by unfold probe; rw [h]; rfl
  unfold lookupOne
  simp only [e]

/-- The digest of the first page set of chainOf. -/
def digest1 : BitVec 128 := digestOf 9 0 0 (List.replicate 256 7)
theorem digest1_eq : digest1 = digestOf 9 0 0 (List.replicate 256 7) := by unfold digest1; rfl
def entry1 : DirEntry := ⟨digest1, 1, 0, 1, true, false, 0⟩
def foundDir : Map DirEntry := [(dirBase digest1 + 0, entry1)]

def wPublish : List Byte := word [(0, 0x31), (0x10, hnd 2), (0x14, 2)]
theorem witness_FetchAndDigestRows_publish :
    ∀ k ∈ [0, 1], let f := flightAt 0 wPublish (.waiting .digests)
      let s := { win [f] with sched := { full.sched with cores := [(0, chainOf k 2)] } }
      Map.look s.sched.cores 0 = some (chainOf k 2) ∧ s.flight (ref1 0) = some f ∧ cOpcode f.word = Op.prefixPublish ∧ ((chainOf k 2).k + 1 < (chainOf k 2).hMax ↔ k = 0) := by
  decide +kernel

theorem witness_FetchAndDigestRows_digest :
    cOpcode (wOpen 300) ≠ Op.prefixPublish ∧ (hashing [] 0 2).flight (ref1 0) = some (flightAt 0 (wOpen 300) (.waiting .digests)) ∧
    Map.look (hashing foundDir 0 2).sched.cores 0 = some (chainOf 0 2) ∧ Map.look (hashing [] 0 2).sched.cores 0 = some (chainOf 0 2) ∧
    Map.look (hashing foundDir 0 1).sched.cores 0 = some (chainOf 0 1) ∧ (chainOf 0 2).k + 1 < (chainOf 0 2).hMax ∧ (chainOf 0 1).hMax ≤ (chainOf 0 1).k + 1 ∧
    (lookupOne (hashing foundDir 0 2) (ref1 0) 1 0 0 (chainOf 0 2).tokens).2.2 = true ∧
    (lookupOne (hashing [] 0 2) (ref1 0) 1 0 0 (chainOf 0 2).tokens).2.2 = false := by
  refine ⟨by decide +kernel, by decide +kernel, rfl, rfl, rfl, by decide, by decide, ?_, lookup_misses _ _ _ _ _ _ rfl⟩
  refine lookup_hits _ _ _ _ _ _ (dirBase digest1 + 0, entry1) (set1 11 0 70) ?_ ?_ ?_
  · rw [show (List.drop (256 * 0) (chainOf 0 2).tokens).take 256 = List.replicate 256 7 from by decide +kernel,
      show (((hashing foundDir 0 2).part (ref1 0).part).model 1).tag = 9 from by decide +kernel,
      show ((hashing foundDir 0 2).part (ref1 0).part).grant.salt = 0 from by decide +kernel,
      ← digest1_eq]
    refine probe_hits _ digest1 1 0 entry1 ?_ (by simp only [entry1]) (by simp only [entry1]) (by simp only [entry1])
    show Map.look foundDir _ = _
    exact if_pos rfl
  · decide +kernel
  · decide +kernel

/-! ### Waits, units and tiles -/

def isGo : Start → Bool
  | .go _ => true
  | _ => false
def elem0 (ph : ElemPhase) : Elem :=
  ⟨hnd 2, 532, 1, 0, 0, 0, 0, 0, 0, 0, 0, 0, 500, ph, [], [], [], [], [], [], 0, 0, 0, [], [], [], [], [], 0, 0, [], none, false, [], [], none⟩
def attending (ph : ElemPhase) : State := win [{ flightAt 0 (wAttn 0x51) (.waiting .units) with plan := .attention 1 [elem0 ph] }]

theorem witness_WaitingCommandsGoOn :
    (let f := flightAt 0 (wWait 3 400) (.waiting .counter)
     (win [f]).flight (ref1 0) = some f ∧ cOpcode f.word = Op.wait ∧ f.seqs = [] ∧ ((win [f]).eq 0 ((win [f]).slot 0 1).eq).stuck = false) ∧
    (∀ w ∈ [Wait.alloc, .segment, .moveBuf], let f := flightAt 0 wFork (.waiting w)
     (win [f]).flight (ref1 0) = some f ∧ isGo (startOp f.word (win [f]) { at0 1 with defer := true } ((win [f]).slot 0 1) f) = true) ∧
    (let f := flightAt 0 (wOpen 0) (.waiting (.hotEntry 4))
     (win [f]).flight (ref1 0) = some f ∧ isGo (startOp f.word (win [f]) { at0 1 with defer := true } ((win [f]).slot 0 1) f) = true) ∧
    (let f := { flightAt 0 (wAttn 0x51) (.waiting .units) with plan := .attention 1 [elem0 .alloc, elem0 (.hot none)] }
     (win [f]).flight (ref1 0) = some f ∧ elemsIn isAllocPhase f = [0, 1] ∧ elemsIn isHotPhase f = [1]) ∧
    (elemOf (attending .extent) (ref1 0) 0 = some (elem0 .extent) ∧ (elemSeq (attending .extent) (ref1 0) (elem0 .extent)).map (fun q => q.lenOf 0) = some 532 ∧
      (elem0 .extent).extent ≤ 532) ∧
    elemOf (attending .space) (ref1 0) 0 = some (elem0 .space) := by
  refine ⟨?_, fun w h => ?_, ?_⟩
  · decide +kernel
  · revert h; revert w; decide +kernel
  · decide +kernel

/-- A unit of the command in slot 1; units are kept by number. -/
def unit0 (pl : UnitPlace) : Machine.Unit :=
  ⟨0, 1, 0, 0, .attend, 1, 0, 1, 0, 1, 0, 0, 256, 0, false, false, pl, 3, false, false, [], none, 2, 0, 2, 0, [], false, none⟩
def sched0 (us : List Machine.Unit) (tiles : Map Tile) : State :=
  (attending .running).onSched fun d => { d with units := us.zipIdx.map (fun e => (e.2 + 1, e.1)), tiles := tiles, nextUnit := 9, yieldWait := 10, evictWait := 10 }
def inGang (us : List Machine.Unit) : List Machine.Unit := us.zipIdx.map fun e => { e.1 with gang := 4, order := e.2 }
/-- Every tile of quadrant 1 runs a unit. -/
def allBusy : Map Tile := (List.range 256).map fun i => (256 + i, { Tile.reset with running := some 1 })

theorem witness_PlacementOfUnits :
    (let s := sched0 [unit0 .ready] []
     nextReady s 1 = some (1, unit0 .ready) ∧ (gangOf s (unit0 .ready)).length < 2 ∧ idleTile s 1 = some 256 ∧ quadState s 1 ≠ .sleep ∧ sleepAccepted s 1 = false) ∧
    (let s := (sched0 [unit0 .ready] []).onPower fun w => { w with quads := [(1, .sleep)] }
     nextReady s 1 = some (1, unit0 .ready) ∧ idleTile s 1 = some 256 ∧ quadState s 1 = .sleep) ∧
    (let s := sched0 [unit0 .ready] allBusy
     nextReady s 1 = some (1, unit0 .ready) ∧ idleTile s 1 = none ∧ snareAllowed s (unit0 .ready) = false ∧
       leastBy (fun g => (stealOf s 1 g).length) (List.range 16) = some 0 ∧ (stealOf s 1 0).length < 8) ∧
    (let v := { unit0 .ready with snare := true }
     let s := sched0 [v] allBusy
     nextReady s 1 = some (1, v) ∧ (gangOf s v).length < 2 ∧ idleTile s 1 = none ∧ snareAllowed s v = true ∧
       leastBy (fun g => (stealOf s 1 g).length) (List.range 16) = some 0 ∧ (stealOf s 1 0).length < 8) ∧
    (let us := inGang [unit0 .ready, unit0 .ready]
     let s := sched0 us []
     (nextReady s 1).map Prod.fst = some 1 ∧ (nextReady s 1).map (fun e => (gangOf s e.2).length) = some 2 ∧
       2 ≤ (idleInGroup s 1 (gangGroup s 1)).length + (8 - (stealOf s 1 (gangGroup s 1)).length)) ∧
    (let s := sched0 [unit0 (.next 256)] [(256, { Tile.reset with next := some 1 })]
     (tileOf s 256).running = none ∧ (tileOf s 256).next = some 1 ∧ quadState s (256 / 256) ≠ .sleep) := by
  refine ⟨?_, ?_, ?_, ?_, ?_, ?_⟩ <;> decide +kernel

def onTile1 : Map Tile := [(256, { Tile.reset with running := some 1 })]
def worst : Machine.Unit := { unit0 (.running 256) with part := 1, bestEffort := true }
def classed : State := (sched0 [worst, unit0 .ready] onTile1).onSched fun d => { d with classMode := true, beMin := 0 }

theorem witness_EndOfUnits :
    (∀ u ∈ [unit0 (.running 256), { unit0 (.running 256) with kind := .append }, { unit0 (.running 256) with kind := .kernel }],
      (tileOf (sched0 [u] onTile1) 256).running = some 1 ∧ (sched0 [u] onTile1).unit 1 = some u ∧ u.reads = [] ∧ u.kernelIdle = true) ∧
    (∀ y ∈ [false, true], let u := { unit0 (.running 256) with reads := [12], hasYielded := y }
      u.reads.head? = some 12 ∧ codeCause 12 ≠ Stall.moveBuf ∧
      (tileOf (sched0 [u] onTile1) 256).running = some 1 ∧ (sched0 [u] onTile1).unit 1 = some u ∧ (sched0 [u] onTile1).sched.yieldWait ≠ 0) ∧
    (∀ r ∈ [[], [4]], (sched0 [{ unit0 .yielded with reads := r }] []).unit 1 = some { unit0 .yielded with reads := r }) ∧
    (classed.unit 2 = some (unit0 .ready) ∧ classed.sched.classMode = true ∧ classed.sched.evictWait ≠ 0 ∧ (unit0 .ready).bestEffort = false ∧
      (unit0 .ready).caused = false ∧ evictVictim classed 1 = some (1, worst) ∧ worst.place = .running 256) := by
  refine ⟨fun u h => ?_, fun y h => ?_, fun r h => ?_, by decide +kernel⟩
  · revert h; revert u; decide +kernel
  · revert h; revert y; decide +kernel
  · revert h; revert r; decide +kernel

theorem witness_VirtualTimeAdvances :
    0 ∈ (sched0 [unit0 (.running 256)] onTile1).livePartitions ∧ 1 ∉ (sched0 [unit0 (.running 256)] onTile1).livePartitions ∧
      ((sched0 [unit0 (.running 256)] onTile1).sched.units.filter fun e => e.2.runsFor 0 1).length = 1 := by decide +kernel

def jobFault0 : JobFault := ⟨1, 0, 0, 5, 0x51, 2, 0, 0, 0, 256⟩
/-- Job 3 is under teardown; its slot is slot 5. -/
def torn (l : List Flight) : State :=
  { full with parts := [(0, { rich with
    jobs := [(3, { job .faulted with fault := some jobFault0 })], slots := [(0, ring), (1, ring), (5, { ring with job := 3, stopped := true, window := l })] })] }

theorem witness_JobFaultAndTeardown :
    (heldUnits (sched0 [unit0 (.running 256)] onTile1) 256 = [unit0 (.running 256)] ∧ heldUnits full 256 = [] ∧ full.power.chip = .on) ∧
    (tileOf full 256).corrected = [] ∧
    (let s := full.onSched fun d => { d with tiles := [(256, { Tile.reset with corrected := List.replicate 16 full.nowS }), (257, { Tile.reset with corrected := [full.nowS] })] }
     16 < (lastDay s.nowS (tileOf s 256).corrected).length ∧ (tileOf s 256).retired = false ∧ (lastDay s.nowS (tileOf s 257).corrected).length ≤ 16) ∧
    lastDay 100000 [13599, 13600] = [13600, 100000] ∧
    (let f := flightAt 0 wNop .requested
     faultOf ((torn [f]).part 0) 3 = some jobFault0 ∧ slotsOf ((torn [f]).part 0) 3 = [5] ∧ ((torn [f]).slot 0 5).window = [f] ∧ outlives f = true) ∧
    (let f := flightAt 0 wNop .fetched
     faultOf ((torn [f]).part 0) 3 = some jobFault0 ∧ slotsOf ((torn [f]).part 0) 3 = [5] ∧ ((torn [f]).slot 0 5).window = [f] ∧ outlives f = false) := by
  decide +kernel

theorem witness_FaultStopsJob :
    let s := sched0 [unit0 (.running 256)] onTile1
    faultOf (s.part 0) (s.slot 0 1).job = none ∧ slotsOf (s.part 0) (s.slot 0 1).job = [0, 1] ∧ 5 ∉ slotsOf (s.part 0) (s.slot 0 1).job ∧
      (∃ f ∈ (s.slot 0 1).window, outlives f = false ∧ f.stage ≠ .fetched) := by decide +kernel

/-! ### The host interface -/

def slot0 (g : Slot → Slot) : State := full.onSlot 0 0 g
def csq (n size : Nat) : Nat := 2 ^ 31 + n * 2 ^ 8 + size

theorem witness_SlotRegisterWrites :
    full.reaches 0 = true ∧
    (full.bellOpen 0 1 = true ∧ (full.slot 0 1).bellForward 40 = true ∧ (full.slot 0 1).bellForward 63 = true ∧ (full.slot 0 1).bellForward 39 = false ∧
      (full.slot 0 1).bellForward 64 = false ∧ full.bellOpen 0 9 = false ∧ ((full.slot 0 1).tail + 1) % (full.slot 0 1).size ≠ (full.slot 0 1).head) ∧
    (∀ n ∈ [6, 12], let s := slot0 fun x => { x with csqEn := false, tail := 0 }
      bit (csq 3 n) 31 = true ∧ bits (csq 3 n) 0 5 = n ∧ (s.slot 0 0).csqEn = false ∧ (s.slot 0 0).draining = false ∧ (s.slot 0 0).ringEmpty = true) ∧
    (let s := slot0 fun x => { x with csqEn := false }
     (s.slot 0 0).csqEn = false ∧ (s.slot 0 0).draining = false ∧ (s.slot 0 0).ringEmpty = false ∧ (s.slot 0 0).entriesLog2 = 6) ∧
    (full.slot 0 0).csqEn = true ∧ bit 6 31 = false := by decide +kernel

def eq0 (g : EventQueue → EventQueue) : State := full.onEq 0 0 g

theorem witness_EventQueueWrites :
    full.reaches 0 = true ∧ full.reaches 16 = true ∧
    (∀ n ∈ [7, 20], bit (2 ^ 31 + n) 31 = true ∧ bits (2 ^ 31 + n) 0 5 = n ∧ (full.eq 0 3).en = false ∧ (full.eq 16 0).en = false) ∧
    (let s := full.onEq 0 3 fun e => { e with en := true }
     (s.eq 0 3).en = true ∧ (s.eq 0 3).overflow = [] ∧ eqNamed (s.part 0) 3 = false) ∧
    eqNamed (full.part 0) 0 = true ∧ ((eq0 fun e => { e with overflow := [[1]] }).eq 0 0).overflow ≠ [] ∧
    (let s := eq0 fun e => { e with head := 100, tail := 5 }
     (∀ v ∈ [100, 127, 0, 5], (s.eq 0 0).headOk (bits v 0 20) = true) ∧ ∀ v ∈ [6, 99, 128], (s.eq 0 0).headOk (bits v 0 20) = false) ∧
    (let s := eq0 fun e => { e with coalUs := 50, unsignalled := 1 }
     (s.eq 0 0).coalUs ≠ 0 ∧ (s.eq 0 0).unsignalled ≠ 0) ∧
    (∀ b ∈ [false, true], (vector (setVector full 0 0 { vector full 0 0 with pending := b }) 0 0).pending = b) := by decide +kernel

theorem witness_EventRecordLands :
    Memory.wf full.hostMem = true ∧
    (∀ t ∈ [5, 127], let s := eq0 fun e => { e with head := 4, tail := t }
      (s.eq 0 0).en = true ∧ (s.eq 0 0).full = false ∧ (s.eq 0 0).overflow = [] ∧ s.outq = [] ∧ s.credits ≠ 0) ∧
    (let s := eq0 fun e => { e with head := 4, tail := 3 }
     (s.eq 0 0).en = true ∧ (s.eq 0 0).full = true ∧ (s.eq 0 0).overflow.length < 32768) ∧
    ((eq0 fun e => { e with overflow := [[1]] }).eq 0 0).overflow ≠ [] ∧ (full.eq 0 3).en = false := by decide +kernel

theorem witness_EventRecordLands_waiting :
    let e := (crowded []).eq 0 0
    e.en = true ∧ e.overflow = records ∧ records.length = 32768 ∧ records ≠ [] ∧ 32768 ≤ records.length := by
  have n : records.length = 32768 := List.length_replicate ..
  refine ⟨by decide +kernel, rfl, n, fun h => ?_, by omega⟩
  rw [h] at n; exact absurd n (by decide)

theorem witness_WindowAndBufferWrites :
    full.hostUp = true ∧ full.vfEnable = true ∧ (full.func 0).d3 = false ∧ (List.replicate 4 (9 : Byte)) ≠ [] ∧
    (∀ off ∈ [0, (full.part 0).sliceBytes - 4], off + (List.replicate 4 (9 : Byte)).length ≤ (full.part 0).sliceBytes) ∧
    (∀ off ∈ [(full.part 0).sliceBytes - 3, (full.part 0).sliceBytes - 1], off < (full.part 0).sliceBytes ∧
      (full.part 0).sliceBytes < off + (List.replicate 4 (9 : Byte)).length) ∧
    (full.part 0).sliceBytes ≤ (full.part 0).sliceBytes ∧ full.reaches 0 = true ∧ 16383 < 16384 ∧ 16384 ≤ 16384 ∧ full.reaches 16 = true ∧
    (∀ n ∈ [0, 16], State.reset.reaches n = false) ∧ 0x13000 % 4 = 0 ∧ 0x13000 % 8 = 0 ∧
    ((2 ≠ 4 ∧ 2 ≠ 8) ∨ 2 % 2 ≠ 0) ∧ (6 % 4 ≠ 0) ∧ State.reset.hostUp = false ∧ 0xFFFFFFFF < 2 ^ 32 ∧ 0xFFFC < 0x10000 ∧ 0x200000 < 0x200100 := by decide +kernel

/-- Three posted writes that wait, with too few credits, with just enough, and with one over. -/
theorem witness_WindowAndBufferWrites_credits :
    let s : State := { full with outq := List.replicate 3 (.message 0 0), credits := 0 }
    s.outq.length = 3 ∧ (s.credits + 2 < s.outq.length) ∧ s.outq.length ≤ s.credits + 3 ∧ s.outq.length ≤ s.credits + 4 := by decide +kernel

def fetchReq (retried red : Bool) : ReadReq := ⟨0, .fetch 1 [0, 1], 0x1000, 128, retried, red, none, []⟩
def tentReq (retried red : Bool) : ReadReq := ⟨0, .tentative 1 0, 0x1000, 4096, retried, red, none, []⟩
def reading (r : ReadReq) : State := { full with reads := [(4, r)], nextRead := 5 }
/-- Without a committed rate the bucket holds its burst only; here it is empty. -/
def dry (r : ReadReq) : State := (reading r).onPart 0 fun x => { x with ingress := { x.ingress with cir := 1, pir := 1, cbs := 4096, pbs := 4096, tc := 0, tp := 0 } }

theorem witness_HostReadsEnd :
    (∀ r ∈ [fetchReq false false, fetchReq true false, tentReq false false, tentReq true false], Map.look (reading r).reads 4 = some r ∧ r.red = false ∧
      (reading r).hostUp = true ∧ (reading r).fnUsable r.part = true) ∧
    (∀ ns ∈ [0, 10 ^ 9], let s := dry (tentReq false true)
     Map.look s.reads 4 = some (tentReq false true) ∧
       ((meterRead (s.onPart 0 fun x => { x with ingress := x.ingress.refill ns }) 0 4096 false).1 = .red ↔ ns = 0)) ∧
    (∀ r ∈ [fetchReq false false, tentReq false false], let s := (reading r).onFunc 0 fun f => { f with bme := false }
     Map.look s.reads 4 = some r ∧ r.red = false ∧ s.hostUp = true ∧ s.fnUsable r.part = false) ∧
    (fetchReq false true).red = true ∧ { reading (fetchReq false false) with pins := Pins.reset }.hostUp = false := by decide +kernel

theorem witness_PartitionsAreSeparate : 0 < 16 ∧ ∃ t, exec (.sqDoorbell 0 1 0 4 41) full = .next t ∧ (t.slot 0 1).tail = 41 :=
  ⟨by decide, _, rfl, by decide +kernel⟩

theorem witness_ThermalCode : full.power.chip = .on ∧ 0 ∈ full.livePartitions := by decide +kernel

def disabled (g : Bool) (l : List Flight) : State :=
  (win l).onFunc 0 fun f => { f with disable := some ⟨Cause.quiesce, g, 0, 0, 0, 0, [], false, false⟩ }

theorem witness_DisablesOfFunctions :
    full.hostUp = true ∧ full.vfEnable = true ∧ full.reaches 16 = true ∧ (full.func 0).bme = true ∧ (full.func 0).d3 = false ∧ full.pf0Bme = true ∧
    (full.func 0).disable = none ∧
    writesDue { disabled true [] with outq := [.data 0 0 [] none] } 0 = true ∧ writesDue (disabled true []) 0 = false ∧
    (∀ g ∈ [false, true], (((disabled g []).func 0).disable.map fun d => d.graceful) = some g ∧
      ((disabled g [flightAt 0 wNop .requested]).part 0).slots.any (fun y => y.2.window.any outlives) = true ∧
      (let s := disabled g [flightAt 0 wNop .fetched]
       (s.part 0).slots.any (fun y => y.2.window.any outlives) = false ∧ s.ready = true ∧ ((s.func 0).disable.map fun d => d.early) = some false ∧
         (let v := endAborts s 0
          ((v.func 0).disable.map fun d => (d.graceful, d.cause)) = some (g, Cause.quiesce) ∧
          (let t := resetHostSide (abandonReads (if g then postAborted 0 ((((v.func 0).disable).map fun d => d.records).getD []) v else dropWrites v 0) 0) 0 Cause.quiesce g
           (t.func 0).disable.isSome = true ∧ t.oxs.queue = [])))) := by decide +kernel

/-! ### Oxsis -/

def oxsReady (s : State) (via : OxsVia) : Bool :=
  s.oxs.queue = [] && s.parted && !s.oxs.recovery && !s.holds 10 && (if via = .mailbox then s.reaches 16 && s.pf0Bme else s.mctpUp)

theorem oxsReady_of (s : State) (via : OxsVia) (h : oxsReady s via = true) : OxsReady s via := by
  simp only [oxsReady, Bool.and_eq_true, Bool.not_eq_true', decide_eq_true_eq] at h
  obtain ⟨⟨⟨⟨h1, h2⟩, h3⟩, h5⟩, h4⟩ := h
  refine ⟨h1, h2, h3, fun e => ?_, fun e => ?_, h5⟩
  · rw [if_pos e, Bool.and_eq_true] at h4; exact h4
  · rw [if_neg e] at h4; exact h4

/-- Bytes of a request: values at byte offsets. -/
def req (n : Nat) (l : List (Nat × Nat)) : List Byte := leBytes n (l.foldl (fun n e => n + e.2 * 2 ^ (8 * e.1)) 0)
/-- full with the management bus up. -/
def managed : State := { full with pins := { full.pins with smbusAddr := some 0x38 } }
/-- The same with a request page for the mailbox. -/
def mailed (b : List Byte) : State := { managed with hostMem := Memory.writeBytes [] 0x700000 b, oxs := { managed.oxs with reqAddr := 0x700000, rspAddr := 0x710000 } }
def createReq : List Byte := req 64 [(0, 2), (1, 16), (2, 8), (3, 50), (4, 4), (8, 0x01010101), (0xC, 2 ^ 9), (0x20, 5)]

theorem witness_OxsisRequests_create :
    OxsReady managed (.mctp createReq) ∧ OxsReady (mailed createReq) .mailbox ∧
    (∀ s ∈ [(managed, (requestOf managed 1 (.mctp createReq) false none).bytes), (mailed createReq, (requestOf (mailed createReq) 1 .mailbox false none).bytes)],
      s.1.oxs.lifecycle = .production ∧ createRange s.1 s.2 = true ∧ (s.1.part (field s.2 0 1)).live = false ∧ grantConflict s.1 (grantOf s.2) = false ∧
        grantScrubbing s.1 (grantOf s.2) = false) := by
  refine ⟨oxsReady_of _ _ (by decide +kernel), oxsReady_of _ _ (by decide +kernel), fun s h => ?_⟩
  simp only [List.mem_cons, List.not_mem_nil, or_false] at h
  rcases h with rfl | rfl <;> decide +kernel

theorem witness_OxsisRequests_simple :
    (∀ b ∈ [req 1 [], req 33 [(0, 7)], []], OxsReady managed (.mctp b)) ∧ OxsReady (mailed []) .mailbox ∧
    (let t := disable (taken managed (.mctp []) (requestOf managed 2 (.mctp []) false none)) 0 0 false true
     field (requestOf managed 2 (.mctp []) false none).bytes 0 1 = 0 ∧ zeroFrom (requestOf managed 2 (.mctp []) false none).bytes 1 = true ∧ (managed.part 0).live = true ∧
       (t.part 0).slots.any (fun y => y.2.window ≠ []) = false ∧ (t.func 0).disable.isSome = true) ∧
    (zeroFrom (requestOf managed 3 (.mctp (req 33 [(0, 7)])) false none).bytes 32 = true ∧ sigSpent managed.oxs = false ∧ mayNotSign managed = false) ∧
    zeroFrom (requestOf (mailed []) 4 .mailbox false none).bytes 0 = true := by
  refine ⟨fun b h => oxsReady_of _ _ ?_, oxsReady_of _ _ (by decide +kernel), by decide +kernel⟩
  revert h; revert b; decide +kernel

/-- A token with a public key of OID 7, its tenant's key hash, and the partition that holds it. -/
def token : List Byte := req 0x7C [(0, 0x314E435A), (5, 3), (8, 7), (0x10, 1), (0x14, 600), (0x3B, 7)]
@[irreducible] def tenantKey : List Byte := shake256 (slice token 0x38 68) 32
def keyed : State := managed.onPart 0 fun x => { x with grant := { x.grant with tenantKey := tenantKey } }
theorem keyed_key : (keyed.part 0).grant.tenantKey = tenantKey := by rfl

theorem witness_OxsisRequests_consent :
    OxsReady keyed (.mctp token) ∧
    (let b := (requestOf keyed 5 (.mctp token) true none).bytes
     b = token ∧ (keyed.part 0).live = true ∧ field b 8 8 = (keyed.part 0).grant.partitionId ∧ consentOid b = true ∧ slice b 0 4 = [0x5A, 0x43, 0x4E, 0x31] ∧ field b 5 1 ≤ 3 ∧
       field b 6 2 = 0 ∧ (keyed.part 0).consentSeq < field b 0x10 4 ∧ sigSpent keyed.oxs = false ∧ mayNotSign keyed = false) ∧
    shake256 (slice token 0x38 68) 32 = (keyed.part 0).grant.tenantKey ∧ (keyed.part 0).grant.tenantKey.all (fun k => k = 0) = false := by
  refine ⟨oxsReady_of _ _ (by decide +kernel), by decide +kernel, ?_, ?_⟩ <;> rw [keyed_key]
  · unfold tenantKey; rfl
  unfold tenantKey
  decide +kernel

def consented : State := managed.onPart 0 fun x => { x with debugUntil := some 0, profileUntil := some 900 }
def debugReq (kind obj : Nat) : List Byte := req 0x24 [(1, kind), (8, obj), (0x18, 0x800000), (0x20, 4096)]

theorem witness_OxsisRequests_debug :
    (∀ d ∈ [(0, 1), (1, hnd 2), (2, 0)], let b := (requestOf consented 6 (.mctp (debugReq d.1 d.2)) false none).bytes
      OxsReady consented (.mctp (debugReq d.1 d.2)) ∧ field b 0 1 = 0 ∧ field b 1 1 ≤ 2 ∧ field b 2 6 = 0 ∧ field b 0x14 4 = 0 ∧ zeroFrom b 0x24 = true ∧
        (debugObject (consented.part 0) b).isSome = true) ∧
    (consented.part 0).live = true ∧ inForce consented (consented.part 0).debugUntil = true ∧ inForce consented (consented.part 0).profileUntil = true ∧
    (let b := (requestOf consented 7 (.mctp (debugReq 0 0)) false none).bytes
     field b 0 1 ≤ 15 ∧ field b 1 7 = 0 ∧ zeroFrom b 0x24 = true) := by
  refine ⟨fun d h => ⟨oxsReady_of _ _ ?_, ?_⟩, by decide +kernel⟩ <;> revert h <;> revert d <;> decide +kernel

def fwOf (seq svn : Nat) : FwSlot := ⟨true, seq, (List.range 4).map fun i => ⟨i, svn, 0, 0, 1, [], true⟩, true, true⟩
def booted : State := { managed with oxs := { managed.oxs with booted := some (fwOf 3 1), norA := some (fwOf 3 1) } }
def commitReq : List Byte := req 16 [(0xC, 1)]
def rmaReq : List Byte := [0x5A, 0x52, 0x4D, 0x31] ++ leBytes 16 Config.chipId.toNat
def bare : State := { managed with parts := [] }

theorem witness_OxsisRequests_firmware :
    OxsReady booted (.mctp []) ∧ OxsReady booted (.mctp commitReq) ∧ booted.oxs.booted = some (fwOf 3 1) ∧ slotValid (fwOf 9 0) booted.oxs.svn = true ∧
    field (requestOf booted 8 (.mctp []) false (some (fwOf 9 0))).bytes 8 4 ≤ 2 ^ 25 ∧ field (requestOf booted 8 (.mctp []) false (some (fwOf 9 0))).bytes 0xC 4 = 0 ∧
    field (requestOf booted 8 (.mctp commitReq) false none).bytes 8 4 ≤ 2 ^ 25 ∧ field (requestOf booted 8 (.mctp commitReq) false none).bytes 0xC 4 = 1 ∧
    OxsReady bare (.mctp rmaReq) ∧ bare.livePartitions = [] ∧ bare.flash.secure.scrubSets = [] ∧ bare.flash.secure.scrubFlash = [] := by
  refine ⟨oxsReady_of _ _ ?_, oxsReady_of _ _ ?_, ?_, ?_, ?_, ?_, ?_, ?_, oxsReady_of _ _ ?_, ?_⟩ <;> decide +kernel

theorem leNat_leBytes (n v : Nat) : leNat (leBytes n v) = v % 256 ^ n := by
  induction n generalizing v with
  | zero => simp [leBytes, leNat, Nat.mod_one]
  | succ n ih => rw [leBytes, leNat, ih, BitVec.toNat_ofNat]; exact (Nat.pow_succ' (m := 256) (n := n) ▸ Nat.mod_mul).symm

theorem witness_OxsisRequests_rma :
    slice (requestOf bare 9 (.mctp rmaReq) true none).bytes 0 4 = [0x5A, 0x52, 0x4D, 0x31] ∧
    field (requestOf bare 9 (.mctp rmaReq) true none).bytes 4 16 = Config.chipId.toNat := by
  refine ⟨rfl, ?_⟩
  have h : slice (requestOf bare 9 (.mctp rmaReq) true none).bytes 4 16 = leBytes 16 Config.chipId.toNat := rfl
  rw [field, h, leNat_leBytes]
  exact Nat.mod_eq_of_lt Config.chipId.isLt

def limited (n : Nat) : State :=
  { managed with oxs := { managed.oxs with queue := [⟨3, req 32 [(0, 7)], true, true, none⟩], idRanges := 1, sigSecond := 0, sigThisSecond := n } }

theorem witness_OxsisEvents :
    (∀ n ∈ [0, rangeSize], 1 ≤ { managed.oxs with idRanges := 1, sigOffset := n }.idRanges ∧ n ≤ rangeSize) ∧
    (∀ n ∈ [63, 64], (limited n).oxs.queue.length = 1 ∧ (limited n).parted = true ∧ (limited n).oxs.recovery = false ∧ zeroFrom (req 32 [(0, 7)]) 32 = true ∧
      sigSpent (limited n).oxs = false ∧ (mayNotSign (limited n) = true ↔ n = 64)) ∧
    (∀ e ∈ [1, 2], let s := { managed.onPart 0 fun x => { x with consentEnd := e } with nowS := 1 }
      (s.part 0).live = true ∧ (s.part 0).consentEnd ≠ 0 ∧ ((s.part 0).consentEnd ≤ s.nowS ↔ e = 1)) ∧
    (let s := managed.onFlash fun f => { f with secure := { f.secure with scrubSets := [4], scrubFlash := [16] } }
     (∀ c ∈ [23, 24], (let u := { s with power := { s.power with cap := c } }
       4 ∈ u.flash.secure.scrubSets ∧ (u.power.cap < Nat.min u.power.freqReq 24 ↔ c = 23))) ∧ 4 ∈ s.flash.secure.scrubSets ∧ 16 ∈ s.flash.secure.scrubFlash) ∧
    zeroFrom [] 0 = true := by decide +kernel

/-! ### Pages, places and flash -/

def chan : Channel := ⟨true, ⟨true, true, 4, 64, 256, 3000, 7776000, [0, 1], true, 30, [], 16384, 2208, 4, 16, 60, 700, 3500⟩, [], 0, [], [], 0, 30, 0, 0, 0, [], [], none⟩
/-- Channels 0, 1 and 16; the blocks of channel c that l gives. -/
def withFlash (s : State) (c : Nat) (l : List Block) : State :=
  s.onFlash fun f => { f with channels := [(0, chan), (1, chan), (16, chan)], blocks := l.zipIdx.map fun e => (blockNo c (e.2 % 4) (e.2 / 4), e.1) }
def freeBlocks40 : List Block := List.replicate 40 Block.reset

def setOf (g : PageSet → PageSet) : State := full.onPart 0 fun x => { x with sets := [(1, g (set1 11 0 70)), (2, set1 12 1 71)] }
def staged : State := setOf fun d => { d with loc := [(0, ⟨.staging, 0, 70⟩)] }
def mv (o : MoveObj) (w : MoveWhy) (st : MoveStep) : Move := ⟨o, w, st, ⟨.page, 0, 70⟩, ⟨.page, 1, 2 * 2 ^ 24⟩, 65536, [], none, 0, none, [], 0⟩
def moving (s : State) (l : List Move) : State := s.onPart 0 fun x => { x with moves := l.zipIdx.map fun e => (e.2 + 1, e.1), nextMove := 9 }
def hot : State := setOf fun d => { d with heat := 0xFFFF }
def page0 : MoveObj := .page 1 0

def gotFrames : Alloc → Bool
  | .got _ _ => true
  | _ => false

theorem witness_MovesOfPages_flush :
    ((staged.part 0).set 1).isSome = true ∧ ((staged.part 0).set 1).map (fun d => (d.releasing, (Map.get d.loc 0 Loc.none).kind)) = some (false, .staging) ∧
    ((staged.part 0).set 1).map (fun d => flushable (staged.part 0) 1 0 d) = some true ∧
    (let s := setOf fun d => { d with loc := [(0, ⟨.staging, 0, 70⟩)], staged := [(0, 5)] }
     ((s.part 0).set 1).map (fun d => (flushable (s.part 0) 1 0 d, Map.has d.staged 0)) = some (true, true) ∧
       (leastBy (fun e : Nat × Nat × Nat × Nat => e.1) (flushQueue s 0 (setHome (s.part 0) 1))).map (fun e => e.2) = some (0, 1, 0)) ∧
    gotFrames (allocFrames staged 0 (setHome (staged.part 0) 1) ((staged.part 0).model 1).pageFrames none ((staged.part 0).dir.length + 2)) = true := by decide +kernel

/-- A move beside one whose page of 512 MiB is in the move buffers. -/
def crammed (m : Move) : State :=
  (moving full [m, mv (.page 9 0) .parking .reading]).onPart 0 fun x =>
    { x with models := (2, { model1 with pageKib := 2 ^ 19 }) :: x.models, sets := (9, { set1 13 0 90 with model := 2 }) :: x.sets }

theorem witness_MovesOfPages_transit :
    let m := { mv (.transit 0 1 0 false) .transit .waitBuffer with src := ⟨.page, 1, 2 * 2 ^ 24⟩ }
    Map.look ((moving full [m]).part 0).moves 1 = some m ∧ moveBufAllows (moving full [m]) 0 (objBuffer rich m.obj) = true := by decide +kernel

theorem witness_MovesOfPages_moves :
    (∀ e ∈ [(hot, MoveWhy.cooling, true), (full, .cooling, false), (full, .parking, false), (full, .preempt, false)],
      tooHot e.1 0 (mv page0 e.2.1 .selected) = e.2.2) ∧
    (∀ st ∈ [MoveStep.selected, .waitBuffer], let m := mv page0 .parking st
      moveBufAllows (crammed m) 0 (objBuffer rich m.obj) = false ∧ moveBufAllows (moving full [m]) 0 (objBuffer rich m.obj) = true ∧
        Map.look ((crammed m).part 0).moves 1 = some m) ∧
    moveDest (moving full [mv page0 .parking .selected]) 0 (mv page0 .parking .selected) = .region 2 0 ∧
    moveDest (moving (withFlash full 1 freeBlocks40) [mv page0 .parking .selected]) 0 (mv page0 .parking .selected) = .flash ∧
    moveDest (moving full [mv page0 .cooling .selected]) 0 (mv page0 .cooling .selected) = .none ∧
    (∀ e ∈ [(0, true), (1, false)], let s := moving (setOf fun d => { d with pins1 := e.1 }) [mv page0 .cooling .written]
      ((s.part 0).set 1).map (fun d => d.releasing) = some false ∧ tooHot s 0 (mv page0 .cooling .written) = false ∧
        (((repin s 0 1 1).part 0).set 1).any PageSet.canFlip = e.2 ∧ (Map.get ((repin s 0 1 1).part 0).moves 1 (mv page0 .flush .selected)).why = .cooling) ∧
    (let s := moving hot [mv page0 .cooling .written]
     ((s.part 0).set 1).map (fun d => d.releasing) = some false ∧ tooHot s 0 (mv page0 .cooling .written) = true) ∧
    ((moving full [mv (.tail 2 0) .parking .written]).part 0).seq 2 = some long := by decide +kernel

theorem witness_MovesOfPages_rest :
    ((setOf fun d => { d with old := [⟨0, ⟨.page, 0, 70⟩, false⟩] }).part 0).set 1 ≠ none ∧
    (let cold := full.onPart 0 fun x => { x with sets := [(1, { set1 11 0 70 with loc := [] })] }
     (cold.part 0).moves = [] ∧ Map.look (cold.part 0).segments 0 = none ∧ segmentCold cold (cold.part 0) 0 = true) ∧
    (let s := (setOf fun d => { d with pins0 := 1 }).onPart 0 fun x => { x with segments := [(0, ⟨.page, 2, 9⟩)] }
     Map.look (s.part 0).segments 0 = some ⟨.page, 2, 9⟩ ∧ segmentPinned (s.part 0) 0 = true) := by decide +kernel

/-- full with sequence 3 as given. -/
def seq3 (q : Seq) : State := full.onPart 0 fun x => { x with seqs := [(3, q)], sets := [(1, set1 11 0 70)], dir := [] }
def parking : Seq := { blankSeq with state := .parking }
def resting : Seq := { blankSeq with state := .rest, restRef := ⟨.page, 0, 60⟩, predicted := true, predTime := 5 }
def restoring (t : Option Tent) (e : Nat) : Seq := { blankSeq with state := .restoring, restRef := ⟨.page, 0, 60⟩, restTent := t, holdEnd := e }
def tent61 : Tent := ⟨61, true, 0, some 3⟩
def finished (doneS : Nat) : State :=
  { setOf (fun d => { d with loc := [(0, ⟨.page, 1, 2 * 2 ^ 24⟩)], tents := [(0, ⟨80, true, doneS, none⟩)] }) with nowS := 10 }
theorem witness_ParkingAndRestore_parking :
    (let q := { parking with pt := [⟨1, false⟩] }
     ((seq3 q).part 0).seq 3 = some q ∧ q.stuck = false ∧ ownLeft ((seq3 q).part 0) q ≠ []) ∧
    (let q := { parking with tails := [(0, ⟨.page, 0, 50⟩)] }
     ((seq3 q).part 0).seq 3 = some q ∧ ownLeft ((seq3 q).part 0) q = []) ∧
    (let q := { parking with stuck := true }
     ((seq3 q).part 0).seq 3 = some q ∧ restDest (seq3 q) 0 1 ≠ .none) ∧
    (let q := parking
     let s := moving (seq3 q) [mv (.rest 3) .flush .written]
     (s.part 0).seq 3 = some q ∧ ownLeft (s.part 0) q = [] ∧ q.pt = [] ∧ q.tails = [] ∧ ((s.part 0).moves.find? fun m => m.2.obj = .rest 3) = some (1, mv (.rest 3) .flush .written) ∧
       (s.part 0).moves.any (fun m => m.2.why = .parking) = false) := by decide +kernel

theorem witness_ParkingAndRestore_restore :
    ((seq3 resting).part 0).seq 3 = some resting ∧ resting.predicted = true ∧
    resting.predTime ≤ { seq3 resting with nowS := 3 }.nowS + ((seq3 resting).part 0).regs.restoreLead ∧ mayTakeHot { seq3 resting with nowS := 3 } 0 = true ∧
    State.holds (full.onPower fun w => { w with entry := some ⟨.deep, [7], [], true⟩ }) 7 = true ∧ full.holds 7 = false ∧
    ((seq3 (restoring (some tent61) 9)).part 0).seq 3 = some (restoring (some tent61) 9) ∧ (restoring (some tent61) 9).restTent ≠ none ∧
    (∀ e ∈ [0, 1], ((restoring none e).holdEnd ≤ (seq3 (restoring none e)).nowS ↔ e = 0)) ∧
    (let s := full.onPart 0 fun x => x.onRegs fun r => { r with low := 0xFFFF }
     (s.part 0).flashChannels ≠ [] ∧ freeAboveLow s (s.part 0) = false) ∧
    (∀ e ∈ [8, 9], let s := finished e
      ((s.part 0).set 1).map (fun d => Map.look d.tents 0) = some (some ⟨80, true, e, none⟩) ∧ (s.part 0).tentHeld 1 0 = false ∧
        (e + 2 ≤ s.nowS ↔ e = 8)) := by decide +kernel

def due : State := { seq3 resting with nowS := 3 }
def dueTables : State := (takeTables due 0 resting.homeQ (tableSlots 0) 0).getD due
def restoredFrom (home : Nat) : State :=
  restoreFrame ((dueTables.onSeq 0 3 fun r =>
    { r with state := .restoring, homeQ := home, holdEnd := r.predTime + (due.part 0).regs.hold, restored := false }).onPart 0 fun x => x.fitTables 3) 0 3

/-- Whichever home quadrant the restore gets, the sequence is there afterwards. -/
theorem restoredFrom_any (v : BitVec 2) : (((restoredFrom v.toNat).part 0).seq 3).isSome = true := by revert v; decide +kernel

theorem witness_ParkingAndRestore_start :
    takeHot due 0 = .free ∧ takeTables due 0 resting.homeQ (tableSlots 0) 0 = some dueTables ∧
      (((restoredFrom (returnHome (dueTables.part 0) 3 resting.homeQ)).part 0).seq 3).isSome = true :=
  ⟨witness_takeHot _ _ (by decide +kernel), by decide +kernel, restoredFrom_any (Config.homeChoice _)⟩

theorem witness_ParkingAndRestore_sweep :
    (∀ e ∈ [(0, 64), (1, 128), (0, 640)], let s : State := { full with dirSweep := e.1, nowS := e.2 }
      s.power.chip = .on ∧ s.dirSweep < s.nowS / 64 ∧ 0 ∈ s.livePartitions) ∧ (full.part 0).regs.maxAge = 0 ∧
    ((full.onPart 0 fun x => x.onRegs fun r => { r with maxAge := 9 }).part 0).regs.maxAge ≠ 0 ∧
    (∀ n ∈ [0, 63], { full with nowS := n }.nowS / 64 ≤ full.dirSweep) ∧ (full.onPower fun w => { w with chip := .off }).power.chip ≠ .on := by decide +kernel

def groupOf (todo : List (Nat × Frame)) (waiting : List Place) : Group := ⟨1, 0, [(0, blankFrame)], todo, waiting, [], [], false, false, [], none, 0, false, false⟩
def placeA : Place := ⟨1, 0, 0, 3⟩
def placeB : Place := ⟨1, 1, 0, 0⟩
def programming (g : Group) : State := (withFlash full 1 freeBlocks40).onFlash fun f => { f with groups := [(7, g)], nextGroup := 8 }
def flashRead (w : ReadFor) (lfn : Nat) : ReadReq := ⟨0, w, lfn, 65536, false, false, none, [(lfn, placeA)]⟩
/-- A frame of partition 0 at placeA, named by its map under logical frame 5. -/
def mapped (r : ReadReq) : State :=
  ((withFlash full 1 freeBlocks40).onFlash fun f =>
    { f with frames := [(placeNo placeA, { blankFrame with lfn := 5, passed := true })], reads := [(2, r)], patrolEn := true, phase := 5 }).onPart 0
    fun x => { x with flash := { x.flash with map := [(5, ⟨placeA, true, 0, 30, 0⟩)] } }

theorem witness_FlashEvents_media :
    (∀ e ∈ [([], [placeA]), ([], [placeA, placeB]), ([(1, blankFrame)], [placeA])], let s := programming (groupOf e.1 e.2)
      (s.flash.groups.find? fun g => g.2.waiting.contains placeA) = some (7, groupOf e.1 e.2)) ∧
    (let s := withFlash full 1 [{ Block.reset with state := .erasing, eraseCnt := 2998 }, { Block.reset with state := .erasing, eraseCnt := 2999 }]
     (s.block (blockNo 1 0 0)).state = .erasing ∧ (s.block (blockNo 1 1 0)).state = .erasing ∧ s.channel 1 = some chan ∧ ¬(3000 ≤ (s.block (blockNo 1 0 0)).eraseCnt + 1) ∧
       chan.profile.endurance ≤ (s.block (blockNo 1 1 0)).eraseCnt + 1) ∧
    (∀ w ∈ [ReadFor.copyOut placeA false, .move 4], Map.look (mapped (flashRead w 5)).flash.reads 2 = some (flashRead w 5)) ∧
    (let r := flashRead (.move 4) 5
     let s := mapped r
     r.places ≠ [] ∧ segmentsAway s 0 5 (ceilDiv r.bytes 65536) = [] ∧ ceilDiv r.bytes 65536 ≠ 0 ∧ r.places.length = ceilDiv r.bytes 65536 ∧
       Map.look (s.part 0).flash.map 5 = some ⟨placeA, true, 0, 30, 0⟩ ∧ (r.places.all fun e => s.placeUp e.2) = true) ∧
    (let r := { flashRead (.move 4) 5 with places := [] }
     let s := (mapped r).onPart 0 fun x => { x with flash := { x.flash with hostSegs := [segmentOf 5] } }
     Map.look s.flash.reads 2 = some r ∧ r.places = [] ∧ segmentsAway s 0 5 (ceilDiv r.bytes 65536) ≠ []) := by decide +kernel

def fullBlock : Block := { Block.reset with state := .full, nextPage := 32 }
def worn (n : Nat) : Block := { Block.reset with eraseCnt := n }

theorem witness_FlashEvents_channel :
    (∀ e ∈ [(withFlash full 1 (List.replicate 40 fullBlock), Mode.foreground), (withFlash full 1 (List.replicate 37 fullBlock ++ List.replicate 3 Block.reset), .background)],
      e.1.channel 1 = some chan ∧ chan.online = true ∧ collectMode e.1 1 = e.2) ∧
    (∀ t ∈ [(60, true), (0, true), (59, false), (1, false)], (30 ≤ ((t.1 : Int) - chan.lastTempC).natAbs ↔ t.2 = true)) ∧
    chan.dead.contains 3 = false ∧ 3 < chan.profile.dies ∧
    (∀ e ∈ [(7776001, true), (7776000, false)], let s : State := { mapped (flashRead (.move 4) 5) with nowS := e.1 }
     s.namedBy placeA = some (0, 5, ⟨placeA, true, 0, 30, 0⟩) ∧ s.channel 1 = some chan ∧ s.flash.patrolEn = true ∧ s.flash.phase = 5 ∧ s.placeUp placeA = true ∧
       (chan.profile.retentionLimitS < retentionAge s ⟨placeA, true, 0, 30, 0⟩ ↔ e.2 = true) ∧ dieDemand s 1 placeA.die = true) ∧
    (let s := (mapped (flashRead (.move 4) 5)).onFlash fun f => { f with reads := [] }
     dieDemand s 1 placeA.die = false ∧ patrolNext s 1 placeA.die (patrolAt s 1 placeA.die).1 = some (placeNo placeA) ∧
       0 < startOption s ⟨placeA, true, 0, 30, 0⟩ + 8 ∧ 0 < chan.profile.retryOptions ∧ s.namedBy placeA = some (0, 5, ⟨placeA, true, 0, 30, 0⟩)) ∧
    demandOn (mapped (flashRead (.move 4) 5)) 1 = true ∧
    (∀ e ∈ [(withFlash full 1 (List.replicate 37 fullBlock ++ List.replicate 3 Block.reset), true), (withFlash full 1 (List.replicate 40 Block.reset), false)],
      demandOn e.1 1 = false ∧ (collectMode (eraseEmpty e.1 1) 1 = .background ↔ e.2 = true)) ∧
    (∀ n ∈ [500, 501], let s := withFlash full 16 [{ Block.reset with state := .retired }, fullBlock, worn n]
      let good := goodBlocks s 16
      let up := good.filter fun e => s.placeUp ⟨16, blockDie e.1, 0, 0⟩
      let filled := up.filter fun e => (e.2.state = .full || (e.2.state = .opened && pagesPerBlock s 16 ≤ e.2.nextPage)) && !e.2.stuck && !blockHeld s e.1 && !anchorBlock e.1
      levelledNow s 16 = false ∧ leastBy (fun e : Nat × Block => e.2.eraseCnt) filled = some (blockNo 16 1 0, fullBlock) ∧
        leastBy (fun e : Nat × Block => n - e.2.eraseCnt) (up.filter fun e => e.2.state = .free && !anchorBlock e.1) = some (blockNo 16 2 0, worn n) ∧
        good.foldl (fun m e => Nat.max m e.2.eraseCnt) 0 = n ∧ good.foldl (fun m e => Nat.min m e.2.eraseCnt) n = 0) ∧
    levelledNow full 0 = true ∧
    (let s := (withFlash full 1 freeBlocks40).onPart 0 fun x => { x with flash := { x.flash with discards := [(placeA, 5)] } }
     (s.part 0).flash.discards ≠ [] ∧ chooseChannel s 0 1 = some 1) := by
  refine ⟨fun e h => ?_, ?_, ?_, ?_, ?_, ?_, ?_, fun e h => ?_, fun n h => ?_, ?_, ?_⟩
  · simp only [List.mem_cons, List.not_mem_nil, or_false] at h
    rcases h with rfl | rfl <;> decide +kernel
  · decide +kernel
  · decide +kernel
  · decide +kernel
  · decide +kernel
  · decide +kernel
  · decide +kernel
  · simp only [List.mem_cons, List.not_mem_nil, or_false] at h
    rcases h with rfl | rfl <;> decide +kernel
  · revert h; revert n; decide +kernel
  · decide +kernel
  · decide +kernel

def checkpoint0 : Checkpoint := ⟨[], [], [], [], [], 9, 4, [], 0⟩
/-- An anchor of channel 0 that names checkpoint 4. -/
def anchor4 : Frame := { blankFrame with kind := 8, passed := true, data := leBytes 8 4 }
/-- Channels 0 and 16 with 8 free blocks each. -/
def metaFlash : State :=
  (withFlash full 1 []).onFlash fun f => { f with blocks := [0, 16].flatMap fun c => (List.range 8).map fun b => (blockNo c 0 b, Block.reset) }
def checkpointRoom (s : State) : Option State :=
  let slot := match currentSlot s.flash with
    | some e => 1 - e.1
    | none => 0
  let a := Area.checkpoint slot
  (stripe a 0 (checkpointFrames s) ([0, 16].foldl (fun s c => dropArea s a c) s)).bind fun u => (areaFrame u a 0 true []).bind fun u => areaFrame u a 16 true []

theorem witness_FlashMapRows :
    (let s := full.onPart 0 fun x => { x with flash := { x.flash with hostSegs := [3], lostSegs := [4] } }
     (s.part 0).flash.hostSegs.contains 3 = true ∧ s.pf0Bme = true ∧ s.hostUp = true ∧ (s.part 0).flash.lostSegs.contains 4 = true ∧
       (dramSegments (s.part 0).flash).length < dramShare (s.part 0)) ∧
    (let s := full.onPart 0 fun x => { x with grant := { x.grant with flashMask := 0 }, flash := { x.flash with lostSegs := [4] } }
     (s.part 0).flash.lostSegs.contains 4 = true ∧ dramShare (s.part 0) ≤ (dramSegments (s.part 0).flash).length ∧ hostShare s (s.part 0) ≤ (s.part 0).flash.hostSegs.length) ∧
    (∀ s ∈ [(metaFlash, true), (withFlash full 1 [], false)], s.1.reaches 16 = true ∧ s.1.flash.phase = 5 ∧ metaOnline s.1 = true ∧ (checkpointRoom s.1).isSome = s.2) ∧
    metaOnline full = false ∧ State.reset.reaches 16 = false ∧ State.reset.flash.phase ≠ 5 ∧
    (let s := { full with stage := 3 }.onFlash fun f => { f with frames := [(0, anchor4)], secure := { f.secure with slots := [(0, checkpoint0)] } }
     s.stage = 3 ∧ s.checkpoint = some checkpoint0 ∧ s.flash.cpReadable = true ∧ (s.onFlash fun f => { f with cpReadable := false }).flash.cpReadable = false) ∧
    full.stage ≠ 3 ∧ full.stage ≠ 4 ∧ full.stage ≠ 5 ∧ { full with stage := 4 }.stage = 4 ∧ { full with stage := 5 }.stage = 5 := by
  refine ⟨?_, ?_, fun s h => ?_, ?_⟩
  · decide +kernel
  · decide +kernel
  · simp only [List.mem_cons, List.not_mem_nil, or_false] at h
    rcases h with rfl | rfl <;> decide +kernel
  · decide +kernel

/-! ### The fabric -/

def pkt (op seq buf : Nat) (flag : Bool) (payload : List Byte) : Packet :=
  ⟨op, 0, false, flag, false, false, 0, 5, 0, 3, false, 0, false, 0, 2, seq, 0, 0, 0, 0, 0, 1, buf, 0, 0, payload, 0⟩
def qpR : Qp := { Qp.reset with state := .ready, resident := true, peerChip := 5, peerPart := 3, peerQp := 0x30007, epoch := 2, lastEpoch := 2, rdOk := true }
def buf (kind : Nat) : Buffer := { Buffer.reset with valid := true, gen := 1, fields := ⟨0x900000, 4096, kind, false, true, 0, 0, 0, 0⟩ }
/-- full with queue pair 0 as given and buffers 0 to 3, one of each kind. -/
def netted (q : Qp) : State :=
  full.onPart 0 fun x => { x with qps := [(0, q)], buffers := (List.range 4).map fun k => (k, buf k) }
def handleOf (k : Nat) : Nat := 2 ^ 24 + k
def wr (seq k : Nat) : Packet := pkt 0 seq (handleOf k) false [1, 2, 3, 4]

theorem witness_FabricDataPackets_arrival :
    (∀ op ∈ [0x00, 0x02, 0x03, 0x04], addressed full (pkt op 0 0 false []) = true ∧ wellFormed op (pkt op 0 0 false []) = true ∧
      wellFormed op { pkt op 0 0 false [] with reserved := 1 } = false ∧
      contextOf (netted { qpR with state := .error }) (pkt op 0 0 false []) = none ∧
      (∀ q ∈ [qpR, { qpR with resident := false }, { qpR with epoch := 3 }, { qpR with peerChip := 6 }], contextOf (netted q) (pkt op 0 0 false []) = some q)) ∧
    peerOf { qpR with peerChip := 6 } (wr 0 0) = none ∧ peerOf qpR (wr 0 0) = some 0 ∧
    (let f := { Flow.reset with expected := 7, bitmap := [9] }
     f.order 6 = .duplicate ∧ f.order 9 = .duplicate ∧ f.order 7 = .new ∧ f.order 1030 = .new ∧ f.order 1031 = .stale) ∧
    ({ qpR with landing := [wr 4 0] }.landing.any fun l => l.seq = 4 && l.src = 5 && l.srcPart = 3) = true ∧
    arrivalCause (netted qpR) qpR (wr 0 0) = none ∧ arrivalCause (netted qpR) qpR (wr 0 3) = some 6 ∧ arrivalCause (netted qpR) qpR { pkt 3 0 1 false [] with aux := 64 } = none := by
  decide +kernel

theorem witness_FabricDataPackets_fetch :
    (let s := netted { qpR with resident := false }
     ((s.part 0).qp 0).state ≠ .reset ∧ ((s.part 0).qp 0).resident = false ∧ s.fnUsable 0 = true ∧ (makeResident s 0 0).isSome = true) ∧
    (∀ b ∈ [true, false], let s := (netted Qp.reset).onPart 0 fun x => x.onRegs fun r => { r with qpcBusy := b }
     ((s.part 0).qp 0).state = .reset ∧ ((s.part 0).qp 0).resident = false ∧ s.fnUsable 0 = true ∧ (makeResident s 0 0).isSome = true ∧
       (s.part 0).regs.qpcIndex = 0 ∧ (s.part 0).regs.qpcBusy = b) ∧
    (let s := netted Qp.reset
     makeResident (s.onPower fun w => { w with entry := some ⟨.deep, [8], [], true⟩ }) 0 0 = none) ∧
    DiscardReason.wrongFcs ≠ DiscardReason.unknownOp ∧ DiscardReason.wrongFcs ≠ DiscardReason.reservedField := by decide +kernel

/-- A packet that waits to land at queue pair 0. -/
def waits (pk : Packet) : State := netted { qpR with landing := [pk] }
def lands (s : State) (pk : Packet) : Bool := ((s.part 0).qp 0).landing.find? (fun l => l.seq = pk.seq) = some pk && peerOf ((s.part 0).qp 0) pk = some 0
def unqueued (s : State) (pk : Packet) : State := s.onQp 0 0 fun q => { q with landing := q.landing.erase pk }
/-- The header of a migration of one whole page set of model 1 (R343). -/
def header1 : List Byte := headerBytes full rich { long with length := 256, pt := [⟨1, false⟩] } 2 |>.take 64
def moved : Migration := ⟨1, 0, 0, [], []⟩
def buffer2 (g : Option Migration) (pk : Packet) (sets : List Nat) : State :=
  (waits pk).onPart 0 fun x => { x with grant := { x.grant with sets := sets }, buffers := Map.put x.buffers 2 { buf 2 with migration := g, fields := { (buf 2).fields with length := 2 ^ 30 } } }
def head (h : List Byte) : Packet := pkt 0 3 (handleOf 2) false h

theorem witness_PacketsLand_write :
    (∀ pk ∈ [wr 3 3, wr 3 0, { wr 3 0 with flag := true }, wr 3 1, { wr 3 1 with flag := true }, pkt 0 3 (handleOf 0) true []],
      lands (waits pk) pk = true ∧ ((unqueued (waits pk) pk).part 0).buffer (hIndex pk.buf) = buf (hIndex pk.buf)) ∧
    bufferCause (unqueued (waits (wr 3 3)) (wr 3 3)) (wr 3 3) = some 6 ∧
    (∀ pk ∈ [wr 3 0, { wr 3 0 with flag := true }, wr 3 1, { wr 3 1 with flag := true }, pkt 0 3 (handleOf 0) true []], bufferCause (unqueued (waits pk) pk) pk = none) := by
  refine ⟨fun pk h => ?_, by decide +kernel, fun pk h => ?_⟩ <;> revert h <;> revert pk <;> decide +kernel

def headCase (s : State) (h : List Byte) : Bool × Bool × Bool :=
  let t := unqueued s (head h)
  let b := (t.part 0).buffer 2
  (lands s (head h) && bufferCause t (head h) = none && landsHeader b (head h) && b.migration = none, headerOk (t.part 0) b h, (reserveMigration t 0 h).2.isSome)

theorem witness_PacketsLand_migration :
    headCase (buffer2 none (head (List.replicate 64 0)) [2]) (List.replicate 64 0) = (true, false, false) ∧
    headCase (buffer2 none (head header1) []) header1 = (true, true, false) ∧ headCase (buffer2 none (head header1) [2]) header1 = (true, true, true) ∧
    (∀ e ∈ [(some moved, false), (some moved, true), (none, true)], let pk := { wr 3 2 with offset := 4096, flag := e.2 }
      let s := buffer2 e.1 pk [2]
      lands s pk = true ∧ bufferCause (unqueued s pk) pk = none ∧ landsHeader (((unqueued s pk).part 0).buffer 2) pk = false ∧ (((unqueued s pk).part 0).buffer 2).migration = e.1) := by
  refine ⟨?_, ?_, ?_, ?_⟩ <;> decide +kernel

/-- A remote read of set 1 waits to land; the set's home is flash, with the tentative copies and the grant of channel sets given. -/
def remote (tents : Map Tent) (sets : List Nat) : State :=
  ((waits (pkt 3 3 1 false [])).onPart 0 fun x => { x with grant := { x.grant with sets := sets } }).onSet 0 1 fun d =>
    { d with loc := [(0, ⟨.page, 2, 5⟩)], tents := tents }
/-- What decides how it is served: its home, its copy, and the DRAM and buffer space. -/
def served (s : State) : Option (Nat × Nat × Loc) × Option Bool × Bool × Bool × Bool :=
  let pk := pkt 3 3 1 false []
  let t := unqueued s pk
  (readTarget t pk, (((t.part 0).set 1).bind fun d => Map.look d.tents 0).map fun c => c.complete, freeAboveLow t (t.part 0),
    (beginTent (takeRead t 0 0 0 pk 1 0).1 0 1 0 (setHome (t.part 0) 1) none).isSome, moveBufAllows t 0 (objBuffer (t.part 0) (.transit 0 1 0 false)))

theorem witness_PacketsLand_read :
    (∀ b ∈ [false, true], served (remote [(0, ⟨70, b, 0, none⟩)] [2]) = (some (1, 0, ⟨.page, 2, 5⟩), some b, true, false, true)) ∧
    served (remote [] [2]) = (some (1, 0, ⟨.page, 2, 5⟩), none, true, true, true) ∧
    served (remote [] []) = (some (1, 0, ⟨.page, 2, 5⟩), none, false, false, true) ∧
    served ((remote [] []).onPart 0 fun x =>
      { x with models := (2, { model1 with pageKib := 2 ^ 19 }) :: x.models, sets := x.sets ++ [(9, { set1 13 0 90 with model := 2 })], moves := [(1, mv (.page 9 0) .parking .reading)] }) =
      (some (1, 0, ⟨.page, 2, 5⟩), none, false, false, false) := by
  refine ⟨fun b h => ?_, ?_, ?_, ?_⟩ <;> first | (revert h; revert b; decide +kernel) | decide +kernel

theorem witness_PacketsLand_others :
    (∀ pk ∈ [pkt 2 3 0 false [1], pkt 3 3 1 false [], pkt 3 3 9 false [], pkt 4 3 0 false [1]], lands (waits pk) pk = true) ∧
    recvBuffer ((unqueued (waits (pkt 2 3 0 false [1])) (pkt 2 3 0 false [1])).part 0) 0 = some 3 ∧
    recvBuffer (((unqueued (waits (pkt 2 3 0 false [1])) (pkt 2 3 0 false [1])).onPart 0 fun x => { x with buffers := [] }).part 0) 0 = none ∧
    readTarget (unqueued (waits (pkt 3 3 9 false [])) (pkt 3 3 9 false [])) (pkt 3 3 9 false []) = none ∧
    readTarget (unqueued (waits (pkt 3 3 1 false [])) (pkt 3 3 1 false [])) (pkt 3 3 1 false []) = some (1, 0, ⟨.page, 0, 70⟩) := by decide +kernel

def sent0 (retries seq : Nat) : Sent := ⟨wr seq 0, 0, retries, none, 0⟩
/-- A protocol packet: its AUX field, and the epoch 2. -/
def ctl (op aux : Nat) : Packet := { pkt op 3 0 false [] with aux := aux }
def paired (st : QpState) (sent : List Sent) : State := netted { qpR with state := st, sent := sent }

theorem witness_ProtocolPackets_wellFormed :
    (∀ op ∈ [0x08, 0x09, 0x0A, 0x10, 0x11], addressed full (ctl op 0) = true ∧ wellFormed op (ctl op 0) = true ∧ wellFormed op { ctl op 0 with reserved := 1 } = false ∧
      (∀ st ∈ [QpState.reset, .connecting, .ready, .draining, .error], senderOf (countRx (paired st []) (ctl op 0)) (ctl op 0) = some (0, 0) ∧
        (((countRx (paired st []) (ctl op 0)).part 0).qp 0).state = st ∧ (((countRx (paired st []) (ctl op 0)).part 0).qp 0).epoch = 2)) ∧
    (∀ op ∈ [0x08, 0x0A], { ctl op 0 with epoch := 3 }.epoch ≠ qpR.epoch) ∧ (ctl 0x08 0).epoch = qpR.epoch ∧ { ctl 0x11 0 with epoch := 3 }.epoch ≠ qpR.epoch ∧
    (∀ op ∈ [0x08, 0x0A, 0x10, 0x11], let pk := { ctl op 0 with src := 6 }
      addressed full pk = true ∧ wellFormed op pk = true ∧ senderOf (countRx (paired .ready []) pk) pk = none) ∧
    (∀ a ∈ [0, 1], nakTarget (countRx (paired .ready []) { ctl 0x09 a with src := 6 }) { ctl 0x09 a with src := 6 } = none) ∧
    addressed full { ctl 0x08 0 with dst := 77 } = false := by decide +kernel

theorem witness_ProtocolPackets_nak :
    (∀ st ∈ [QpState.connecting, .error, .ready], nakTarget (countRx (paired st []) (ctl 0x09 3)) (ctl 0x09 3) = some (0, 0) ∧
      (((countRx (paired st []) (ctl 0x09 3)).part 0).qp 0).sent.find? (fun t => t.peer = 0 && t.pk.seq = 3) = none) ∧
    { ctl 0x09 3 with epoch := 3 }.epoch ≠ qpR.epoch := by decide +kernel

theorem witness_ProtocolPackets_connect_nak :
    (let s := netted { qpR with flows := [(0, { Flow.reset with peerEpoch := 7 })] }
     (((countRx s (ctl 0x10 0x107)).part 0).qp 0).flow 0 = { Flow.reset with peerEpoch := 7 } ∧ (ctl 0x10 0x107).aux % 256 = 7) ∧
    (∀ e ∈ [(0, 0), (16, 1), (16, 0), (4, 0)], let s := paired .ready [sent0 e.2 3]
      senderOf (countRx s (ctl 0x09 e.1)) (ctl 0x09 e.1) = some (0, 0) ∧
        (((countRx s (ctl 0x09 e.1)).part 0).qp 0).sent.find? (fun t => t.peer = 0 && t.pk.seq = 3) = some (sent0 e.2 3)) ∧
    (∀ st ∈ [QpState.ready, .draining], let pk := { ctl 0x09 1 with dqp := 0x30007 }
     let s := paired st [sent0 0 3]
     (((countRx s pk).part 0).qp 0).state = st ∧
     addressed s pk = true ∧ wellFormed 0x09 pk = true ∧ nakTarget (countRx s pk) pk = some (0, 0) ∧
       (((countRx s pk).part 0).qp 0).sent.find? (fun t => t.peer = 0 && t.pk.seq = 3) = some (sent0 0 3)) := by decide +kernel

def queued (pk : Packet) : State := netted { qpR with queue := [(pk, 0, none)], flows := [(0, { Flow.reset with limit := 1 })] }

theorem witness_QueuePairRows :
    (∀ e ∈ [(wr 0 0, true), (pkt 4 0 0 false [1], false)], sendable ((queued e.1).part 0 |>.qp 0) = some (0, e.1, 0, none) ∧ metered e.1 = e.2) ∧
    (let dry := (queued (wr 0 0)).onPart 0 fun x => { x with egress := { x.egress with cir := 1, pir := 1, tc := 0, tp := 0 } }
     ((dry.part 0).egress.meter (pkBytes (wr 0 0)) (qpR.yellowIn || bestEffort dry 0)).1 = .red) ∧
    (((queued (wr 0 0)).part 0).egress.meter (pkBytes (wr 0 0)) (qpR.yellowIn || bestEffort (queued (wr 0 0)) 0)).1 ≠ .red ∧ qpR.mirrored = false ∧
    (∀ e ∈ [(7, false), (8, true)], let s := paired .ready [sent0 e.1 3]
      ((s.part 0).qp 0).sent.find? (fun t => t.pk.seq = 3) = some (sent0 e.1 3) ∧ (orOne s.fabric.retryMax ≤ e.1 ↔ e.2 = true)) ∧
    (∀ st ∈ [QpState.reset, .connecting, .ready, .draining, .error], let s := (paired st []).onPart 0 fun x => x.onRegs fun r => { r with qptSize := 4 }
      s.reaches 0 = true ∧ (s.part 0).regs.qpcBusy = false ∧ (s.func 0).disable = none ∧ 0 < (s.part 0).regs.qptSize ∧ ((s.part 0).qp 0).state = st ∧ (makeResident s 0 0).isSome = true) := by
  refine ⟨?_, ?_, ?_, ?_, ?_, fun st h => ?_⟩
  · decide +kernel
  · decide +kernel
  · decide +kernel
  · decide +kernel
  · decide +kernel
  · revert h; revert st; decide +kernel

theorem witness_QueuePairRows_nothing :
    sendable { qpR with queue := [] } = none ∧ qpR.sent.find? (fun t => t.pk.seq = 3) = none ∧ State.reset.reaches 0 = false ∧
    ((full.onPart 0 fun x => x.onRegs fun r => { r with qpcBusy := true }).part 0).regs.qpcBusy = true ∧
    (let s := (paired .reset []).onPart 0 fun x => x.onRegs fun r => { r with qptSize := 4 }
     (s.part 0).regs.qptSize ≤ 4 ∧ 65536 ≤ 65536 ∧ ((s.onFunc 0 fun f => { f with disable := some ⟨Cause.flr, false, 0, 0, 0, 0, [], false, false⟩ }).func 0).disable ≠ none) := by
  decide +kernel

def joined : State := full.onFabric fun f => { f with join := true, ports := (List.range 8).map fun n => (n, { Port.reset with up := true, hopCredits := (List.range 6).map fun v => (v, 1) }) }

theorem witness_PortRows :
    full.reaches 16 = true ∧ 2 ≤ full.stage ∧ full.power.chip = .on ∧ { full with stage := 1 }.stage < 2 ∧ joined.fabric.join = true ∧
    (∀ n ∈ [0, 3], (joined.port n).up = true) ∧
    (let pk := { wr 0 0 with dst := 1 }
     pk.dst ≠ ownAddress joined ∧ isRing joined pk.dst = true) ∧ (joined.port 7).up = true ∧ (full.port 0).up = false ∧
    Map.get (joined.port 0).transit (portQueue joined 0 (wr 0 0)) [] = [] ∧ mayEmit (joined.port 0) 0 (wr 0 0) = true ∧
    (let s := joined.onPort 0 fun x => { x with transit := [(portQueue joined 0 (wr 0 0), [wr 1 0])] }
     (s.port 0).up = true ∧ Map.get (s.port 0).transit (portQueue joined 0 (wr 0 0)) [] ≠ []) := by decide +kernel

/-! ### Power, health and start-up -/

def powered (g : Power → Power) : State := managed.onPower g
def entering (k : EntryKind) (acc : List Nat) (next : List EntryKind) : State := powered fun w => { w with entry := some ⟨k, acc, next, true⟩ }

theorem witness_PowerStates_quadrants :
    full.power.chip = .on ∧ quadState full 2 = .run ∧ quadBusy full 2 = false ∧ tilesBusy full 2 = false ∧
    (let s := sched0 [unit0 (.running 256)] onTile1
     quadBusy s 1 = true ∧ tilesBusy s 1 = true) ∧
    (let s := powered fun w => { w with quads := [(2, .idle)], sleepHold := 5 }
     quadState s 2 = .idle ∧ s.power.sleepHold ≠ 0 ∧ homeLive s 2 = false ∧ s.power.entry = none) ∧
    homeLive full 0 = true ∧ (powered fun w => { w with sleepHold := 0 }).power.sleepHold = 0 ∧
    (let s := powered fun w => { w with quads := [(2, .sleep)], quadWake := [(2, true)] }
     quadState s 2 = .sleep ∧ Map.get s.power.quadWake 2 false = true) ∧
    full.power.entry = none ∧ full.reaches 16 = true ∧
    (let s := powered fun w => { w with quads := [(0, .sleep), (1, .sleep), (2, .sleep), (3, .sleep)], autoDeep := true }
     s.power.autoDeep = true ∧ allAsleep s = true ∧ s.power.entry = none ∧ s.power.chip = .on) := by decide +kernel

theorem witness_PowerStates_answers :
    (let s := sched0 [unit0 (.running 256)] onTile1 |>.onPower fun w => { w with entry := some ⟨.sleep 1, [], [], false⟩ }
     s.power.entry = some ⟨.sleep 1, [], [], false⟩ ∧ (participants (.sleep 1)).contains 1 = true ∧ mustRefuse s (.sleep 1) 1 = true ∧ answerFits s (.sleep 1) 1 .refuse = true ∧
       mayDefer (.sleep 1) 2 = true) ∧
    (let s := entering (.sleep 2) [] []
     (participants (.sleep 2)).contains 1 = true ∧ answerFits s (.sleep 2) 1 .accept = true ∧ (participants (.sleep 2)).all (fun x => ([] ++ [1]).contains x) = false) ∧
    (∀ next ∈ [[], [EntryKind.deep]], let s := entering (.sleep 2) [2, 3, 4] next
      s.power.entry = some ⟨.sleep 2, [2, 3, 4], next, true⟩ ∧ [2, 3, 4].contains 1 = false ∧ answerFits s (.sleep 2) 1 .accept = true ∧
        (participants (.sleep 2)).all (fun x => ([2, 3, 4] ++ [1]).contains x) = true) ∧
    (∀ k ∈ [EntryKind.deep, .off], let s := entering k [3, 4, 5, 6, 7, 8, 9, 10] []
      s.power.entry = some ⟨k, [3, 4, 5, 6, 7, 8, 9, 10], [], true⟩ ∧ (participants k).contains 11 = true ∧ answerFits s k 11 .accept = true ∧
        (participants k).all (fun x => ([3, 4, 5, 6, 7, 8, 9, 10] ++ [11]).contains x) = true) := by
  refine ⟨by decide +kernel, by decide +kernel, fun n h => ?_, fun k h => ?_⟩
  · revert h; revert n; decide +kernel
  · simp only [List.mem_cons, List.not_mem_nil, or_false] at h
    rcases h with rfl | rfl <;> decide +kernel

def asleep (g : Power → Power) : State := powered fun w => g { w with chip := .deepSleep }

theorem witness_PowerStates_wake :
    (let s := { asleep (fun w => { w with alarm := 4 }) with nowS := 4 }
     s.power.chip = .deepSleep ∧ s.pins.smbusAddr = some 0x38 ∧ s.power.alarm ≠ 0 ∧ s.power.alarm ≤ s.nowS) ∧
    ((entering .deep [] []).power.chip = .on ∧ (entering .deep [] []).power.entry ≠ none ∧ (entering .deep [] []).pins.smbusAddr = some 0x38) ∧
    (let s := (powered fun w => { w with chip := .off }).onPins fun p => { p with vstby := true }
     s.power.chip = .off ∧ s.pins.vstby = true ∧ s.pins.tripHold = false) ∧
    (let s := asleep fun w => { w with waking := true, imageValid := true }
     s.power.chip = .deepSleep ∧ s.power.waking = true ∧ s.power.imageValid = true ∧ s.pins.linkReset = false) ∧
    (asleep fun w => { w with waking := true, imageValid := false }).power.imageValid = false := by decide +kernel

theorem witness_OperatingPoints_quadrants :
    (∀ e ∈ [(24, 0), (0, 24)], let s := powered fun w => { w with freqReq := 31, cap := e.1, points := [(2, e.2)], target := [(2, 12)] }
      s.power.chip = .on ∧ quadState s 2 = .run ∧ s.power.regBad.contains 2 = false ∧ Nat.min (Nat.min s.power.freqReq 24) s.power.cap = e.1 ∧ quadPoint s 2 = e.2 ∧
        Map.look s.power.target 2 = some 12) ∧
    pointMv 12 ≤ 900 ∧ 899 < pointMv 12 ∧ quadState full 2 ≠ .sleep ∧ 0 < pointMv (quadPoint full 2) ∧
    (∀ k ∈ [0, 11, 12, 24], k ≤ 24) ∧ supported 880 24 = 10 := by decide +kernel

theorem witness_OperatingPoints_governor :
    (∀ e ∈ [(0, true), (1, false)], let w := (powered fun w => { w with limit := 500, package := 0 }).power
      w.emerg = false ∧ (corrected w (limitDw w + e.1) ≤ limitDw w ↔ e.2 = true)) ∧
    (∀ d ∈ [0, 25], let w := (powered fun w => { w with limit := 500, duty := d, package := 0 }).power
      w.emerg = false ∧ w.package + 200 ≤ limitDw w) ∧
    (let w := (powered fun w => { w with limit := 500, package := 5401 }).power
     limitDw w < w.package + 200) ∧
    (powered fun w => { w with emerg := true }).power.emerg = true ∧
    (∀ c ∈ [0, 3], let s := powered fun w => { w with cap := c }
      emergAt s.power ≤ emergAt s.power ∧ s.power.emerg = false ∧ (s.power.cap = 0 ↔ c = 0)) ∧ emergAt full.power - 1 < emergAt full.power ∧
    (let w := (powered fun w => { w with emerg := true, cap := 0 }).power
     emergAt w - 5 + 5 ≤ emergAt w ∧ emergAt w < emergAt w - 4 + 5) := by decide +kernel

def dramErr (ok : Bool) : DramError := ⟨8, 300, 2, ok, .nothing⟩
def worked (g : Health → Health) : State := managed.onHealth g

theorem witness_HealthRows :
    full.power.chip = .on ∧ (dramErr true).channel < 640 ∧ (dramErr true).sector < 2 ^ 23 ∧ (dramErr true).corrected = true ∧ (dramErr false).corrected = false ∧
    quadState full ((dramErr true).channel % 4) ≠ .sleep ∧ quadState (powered fun w => { w with quads := [(0, .sleep)] }) ((dramErr true).channel % 4) = .sleep ∧
    (full.health.repairing.any fun r => r.1 = 8 && r.2.1 = 2) = false ∧ sparesUsed full.health 8 < 64 ∧
    (let h := (worked fun h => { h with spareRows := [(8, 64)] }).health
     64 ≤ sparesUsed h 8 ∧ framesRetired h 8 < 32 ∧ Map.has h.retiredFrames 5 = false) ∧
    (let h := (worked fun h => { h with spareRows := [(8, 64)], retiredFrames := [(5, 8)] }).health
     64 ≤ sparesUsed h 8 ∧ Map.has h.retiredFrames 5 = true) ∧
    (let h := (worked fun h => { h with spareRows := [(8, 64)], retiredFrames := (List.range 32).map fun n => (8 * channelFrames + n, 8) }).health
     64 ≤ sparesUsed h 8 ∧ 32 ≤ framesRetired h 8) ∧
    (∀ c ∈ [ChipState.deepSleep, .off, .tripped], (powered fun w => { w with chip := c }).power.chip ≠ .on) ∧
    ((full.part 0).seq 4).map (fun q => q.state) = some .rest ∧ 4 < 5 ∧
    ((worked fun h => { h with repairing := [(8, 2, 5)] }).health.repairing.any fun r => r.1 = 8 && r.2.1 = 2) = true ∧
    ((full.part 0).seq 2 = some long ∧ long.state ≠ .rest) ∧ Map.has (full.part 0).dir 0 = true ∧ Map.has (full.part 0).dir 7 = false ∧
    full.health.ageing.contains 4 = false ∧ (worked fun h => { h with ageing := [4] }).health.ageing.contains 4 = true ∧
    (∀ t ∈ [7, 8], let s := worked fun h => { h with dailyDueS := t }
      ({ s with nowS := 7 }.nowS < s.health.dailyDueS ↔ t = 8)) := by decide +kernel

def pinned (g : Pins → Pins) : State := managed.onPins g
def chip0 (g : Oxsis → Oxsis) : State := { State.reset with oxs := g { Oxsis.reset with norA := some (fwOf 3 1) } }

theorem witness_ResetsAndStart :
    (pinned fun p => { p with pwrok := true }).pins.pwrok = true ∧ (pinned fun p => { p with pwrok := false }).pins.pwrok = false ∧
    (let p := (pinned fun p => { p with railTimer := true, vstby := true }).pins
     p.railTimer = true ∧ p.vstby = true ∧ p.tripHold = false) ∧
    (pinned fun p => { p with tripHold := true }).pins.tripHold = true ∧ (pinned fun p => { p with vstby := false }).pins.vstby = false ∧
    (∀ b ∈ [false, true], (pinned fun p => { p with perstMode := b }).pins.perstMode = b ∧ (pinned fun p => { p with perstMode := b }).power.chip = .on) ∧
    (pinned fun p => { p with perstMode := true }).power.entry = none ∧ managed.pins.pcieUp = true ∧
    managed.oxs.lifecycle = .production ∧ ({ managed with oxs := { managed.oxs with lifecycle := .rma } }.oxs.lifecycle ≠ .production) ∧ resetHeld managed = false ∧
    resetHeld (pinned fun p => { p with sysRstN := false }) = true ∧
    (let s := chip0 fun o => { o with norA := none }
     s.power.chip = .on ∧ s.pins.pwrok = true ∧ s.stage = 0 ∧ s.oxs.recovery = false ∧ s.halted = false ∧ bootSlot s.oxs = none) ∧
    bootSlot (chip0 id).oxs = some (fwOf 3 1, false, false) ∧ ({ chip0 id with halted := true }).halted = true ∧
    (powered fun w => { w with chip := .deepSleep }).power.chip = .deepSleep ∧ (powered fun w => { w with chip := .off }).power.chip ≠ .on ∧ (chip0 id).channel 0 = none ∧ (chip0 id).channel 16 = none ∧ managed.stage ≠ 0 := by decide +kernel

/-- Deep sleep with the link in L1.2, and a doorbell waiting. -/
def asleepLink : State := { full with power := { full.power with chip := .deepSleep, waking := true, imageValid := true, held := [.sqDoorbell 0 1 0 4 1] } }
theorem witness_PartitionsAreSeparate_asleep :
    asleepLink.linkAsleep = true ∧ full.linkAsleep = false ∧ { full with pins := { full.pins with pcieUp := false } }.linkAsleep = false ∧
    { full with pins := { full.pins with pcieUp := false } }.reaches 16 = false ∧
    (∀ i ∈ [Instr.sqDoorbell 0 1 0 4 1, .eqArm 16 0, .oxsisCreate .mailbox, .registerWrite 16 0 4 0, .vfFlr 3], (hostAccess i).isSome = true) ∧
    (hostAccess (.oxsisCreate (.mctp []))).isSome = false ∧ imageGood asleepLink true false = true := by
  refine ⟨?_, ?_, ?_, ?_, ?_, ?_, ?_⟩ <;> decide +kernel

/-- Participants that have accepted an entry of the chip. -/
theorem witness_HandshakeHolds :
    (let s := { managed with power := { managed.power with entry := some ⟨.deep, [9, 10], [], true⟩ } }
     s.mctpUp = true ∧ s.holds 10 = true ∧ s.holds 9 = true ∧ s.holds 5 = false) := by decide +kernel

/-- A tentative copy of page set 1 that an element of slot 0's command reads stays, and sequence 2 waits for it. -/
def shared : State :=
  (setOf fun d => { d with tents := [(0, ⟨80, true, 0, none⟩)] }).onSlot 0 0 fun x =>
    { x with window := [{ flightAt 0 (wAttn 0x51) (.waiting .units) with plan := .attention 1 [{ elem0 .running with touched := [(1, 0)] }] }] }

theorem witness_SpecCancelReleases_read :
    Ready (with1 shared 1 (flightOf (wCancel 2) .fetched)) (at0 1) (flightOf (wCancel 2) .fetched) ∧
    (let d := dropTents (requestedIn (begun (with1 shared 1 (flightOf (wCancel 2) .fetched)) (at0 1)) (at0 1)) 0 2
     ((d.1.part 0).seq 2).map (fun q => decide ((d.1.part 0).tentsOf q = [])) = some false) := by
  refine ⟨ready_of _ _ _ ?_, ?_⟩ <;> decide +kernel

/-! ### Ill-formed commands: one for each check of WellFormed.lean -/

def placeBad : List Place := [⟨32, 0, 0, 0⟩, ⟨0, 16, 0, 0⟩, ⟨0, 0, 65536, 0⟩, ⟨0, 0, 0, 4096⟩]
def blockBad : List BlockId := [⟨32, 0, 0⟩, ⟨0, 16, 0⟩, ⟨0, 0, 65536⟩]
def fields0 : BufFields := ⟨0, 0, 0, false, false, 0, 0, 0, 0⟩
def fieldsBad : List BufFields :=
  [{ fields0 with addr := 2 ^ 64 }, { fields0 with length := 2 ^ 32 }, { fields0 with kind := 256 }, { fields0 with sync := 256 }, { fields0 with eq := 256 },
    { fields0 with qp := 2 ^ 24 }, { fields0 with btag := 2 ^ 64 }]
def pk0 : Packet := pkt 0 0 0 false []
def packetBad : List Packet :=
  [{ pk0 with op := 32 }, { pk0 with tc := 4 }, { pk0 with dst := 2 ^ 15 }, { pk0 with src := 2 ^ 15 }, { pk0 with dstPart := 16 }, { pk0 with srcPart := 16 },
    { pk0 with rail := 2 }, { pk0 with dqp := 2 ^ 24 }, { pk0 with epoch := 256 }, { pk0 with seq := 2 ^ 24 }, { pk0 with ackSeq := 2 ^ 24 }, { pk0 with ackCode := 256 },
    { pk0 with credit := 2 ^ 32 }, { pk0 with unitRec := 2 ^ 16 }, { pk0 with unitGen := 256 }, { pk0 with group := 2 ^ 16 }, { pk0 with buf := 2 ^ 64 },
    { pk0 with offset := 2 ^ 32 }, { pk0 with aux := 2 ^ 32 }]
def image0 : FwImage := ⟨0, 0, 0, 0, 0, List.replicate 32 0, true⟩
def imageBad : List FwImage :=
  [{ image0 with id := 256 }, { image0 with svn := 2 ^ 32 }, { image0 with offset := 2 ^ 32 }, { image0 with bytes := 2 ^ 32 }, { image0 with version := 2 ^ 64 },
    { image0 with digest := [] }]
def found0 : ChannelFound := chan.profile
def ref (p s i : Nat) : CmdStep := ⟨⟨p, s, i⟩, [], false, []⟩

theorem test_ill_formed_values :
    (placeBad.all fun x => !x.wf) = true ∧ (blockBad.all fun x => !x.wf) = true ∧ (fieldsBad.all fun x => !x.wf) = true ∧ (packetBad.all fun x => !x.wf) = true ∧
    (imageBad.all fun x => !x.wf) = true ∧ (FwSlot.wf ⟨true, 2 ^ 32, [], true, true⟩) = false ∧ (FwSlot.wf ⟨true, 0, [{ image0 with id := 256 }], true, true⟩) = false ∧
    (FlashReadResult.retried 16 false).wf = false ∧ (DramError.wf ⟨640, 0, 0, true, .nothing⟩) = false ∧
    (ColdEnv.wf ⟨true, [(32, found0)], List.replicate 4 true, true, true, []⟩) = false ∧ (ColdEnv.wf ⟨true, [(0, { found0 with dies := 17 })], List.replicate 4 true, true, true, []⟩) = false ∧
    (ColdEnv.wf ⟨true, [], [true], true, true, []⟩) = false ∧ (ColdEnv.wf ⟨true, [], List.replicate 4 true, true, true, [⟨32, 0, 0, 0⟩]⟩) = false ∧ Place.wf ⟨31, 15, 65535, 4095⟩ = true ∧ pk0.wf = true ∧ image0.wf = true := by decide +kernel

theorem test_ill_formed_payload (n : Nat) (h : 4096 < n) : { pk0 with payload := List.replicate n 0 }.wf = false := by
  simp [Packet.wf, Nat.not_le.mpr h]

/-- Rows of commands, engines and registers with one operand too large. -/
theorem test_ill_formed_rows :
    (([.nop (ref 16 0 0), .nop (ref 0 64 0), .nop (ref 0 0 65536), .digestComplete 8, .commandFetch 16 0 1 false, .commandFetch 0 64 1 false, .waitTimeout ⟨16, 0, 0⟩,
        .unitPlacement 4, .unitStart 1024, .unitEnd 1024 0 0, .unitYield 1024 0, .attendElementRelease ⟨0, 64, 0⟩ 0, .attendElementRelease ⟨0, 0, 0⟩ 256,
        .jobTeardownComplete 16 0, .jobTeardownComplete 0 256, .sqDoorbell 16 0 0 4 0, .sqDoorbell 0 64 0 4 0, .sqDoorbell 0 0 0 9 0, .sqDoorbell 0 0 0 8 (2 ^ 64),
        .inlineDoorbell 16 0 0 [], .inlineDoorbell 0 64 0 [], .inlineDoorbell 0 0 0 (List.replicate 65 0), .csqEnable 16 0, .csqEnable 0 (2 ^ 32),
        .csqRingConfigWrite 16 true 0, .csqRingConfigWrite 0 true (2 ^ 64), .eqEnable 17 0 0, .eqEnable 0 16 0, .eqEnable 0 0 (2 ^ 32), .eqArm 17 0, .eqArm 0 16,
        .msixUnmask 17 0, .msixUnmask 0 16, .bufferPost 16 0 fields0, .bufferPost 0 16384 fields0, .bufferPost 0 0 { fields0 with kind := 256 },
        .pushWindowWrite 16 0 [], .pushWindowWrite 0 (2 ^ 26) [], .acctSnapshotLatch false 16, .quiesce 16, .busMasterDisable 17, .disableDrainEnd 16 0,
        .ingressPolicerRelease 16 0 0, .registerWrite 17 0 4 0, .registerWrite 0 (2 ^ 26) 4 0, .registerWrite 0 0 9 0, .registerWrite 0 0 8 (2 ^ 64)] :
      List Instr).all fun c => !c.wf) = true := by decide +kernel

/-- Rows of Oxsis, pages, flash, fabric and power with one operand too large. -/
theorem test_ill_formed_rows_2 :
    (([.fwStage .mailbox ⟨true, 2 ^ 32, [], true, true⟩, .consentExpiry 16, .scrubResourceDone true 32, .scrubResourceDone false 160, .stagingFlush 16 0 0,
        .stagingFlush 0 (2 ^ 40) 0, .stagingFlush 0 0 256, .pageMove 16 0, .supersededCopyRelease 16 0, .supersededCopyRelease 0 (2 ^ 40), .parkToRest 16 0,
        .parkToRest 0 (2 ^ 24), .flashProgramComplete ⟨32, 0, 0, 0⟩ true, .flashReadComplete 0 (.retried 16 true), .flashEraseComplete ⟨32, 0, 0⟩ true, .collectionStart 32,
        .retentionLimitRefresh ⟨32, 0, 0, 0⟩, .patrolRead ⟨32, 0, 0, 0⟩ .decoded, .patrolRead ⟨0, 0, 0, 0⟩ (.retried 16 true), .dieReadyTimeout 32 0, .dieReadyTimeout 0 16,
        .flashTempRetrain 32 0 true, .write { pk0 with op := 32 }, .packetLanding 16 0 0, .packetLanding 0 65536 0, .packetLanding 0 0 (2 ^ 24),
        .qpContextFetchComplete 16 0 .ok, .qpContextFetchComplete 0 65536 .ok, .ackTimer 16 0, .ackTimer 0 65536, .qpConnect 16 0, .qpConnect 0 65536, .replayRequest 8 0,
        .replayRequest 0 4096, .creditOnlyFrame 8 0 0 0, .creditOnlyFrame 0 8 0 0, .creditOnlyFrame 0 0 4096 0, .creditOnlyFrame 0 0 0 4096, .pfcFrame 4 0, .pfcFrame 0 256,
        .linkTrained 8 [], .handshakeAnswer 12 .accept, .deferLimitExpiry 12, .smbusAddressMatch 128, .voltageRaiseDone 4 0, .voltageRaiseDone 0 65536,
        .dramPatrol [⟨640, 0, 0, true, .nothing⟩], .rowRepairComplete 640 0, .hotEntryShadowRestore 16 0 true, .hotEntryShadowRestore 0 (2 ^ 24) true,
        .coldStart ⟨true, [], [], true, true, []⟩, .mapSegmentRebuild 16 ⟨0, []⟩, .mapSegmentRebuild 0 ⟨0, [⟨32, 0, 0, 0⟩]⟩, .restStoreRebuild ⟨0, [⟨32, 0, 0, 0⟩]⟩,
        .linkFrameError 8, .ringTransitForward 8 0 pk0, .ringTransitForward 0 8 pk0, .ringTransitForward 0 0 { pk0 with op := 32 }] :
      List Instr).all fun c => !c.wf) = true := by decide +kernel

theorem test_well_formed_rows :
    (([.nop (ref 15 63 65535), .sqDoorbell 15 63 0 8 (2 ^ 64 - 1), .stagingFlush 15 (2 ^ 40 - 1) 255, .write pk0, .scrubResourceDone false 159, .busMasterDisable 16] :
      List Instr).all fun c => c.wf) = true := by decide +kernel

/-- No row of the opcode table gives bits. -/
theorem test_no_word_is_a_command : (decodeTableWord 32 0 = none) ∧ (full.withFetchWord 32 7 = full) := ⟨rfl, rfl⟩

/-! ### Worked values of the spec, and one step of a few commands worked by hand -/

/-- Model M of the examples: 80 layers, 8 KV heads, head dimension 128, ZK2, pages of 256 KiB. -/
def modelM : Model := ⟨1, 80, 8, 8, 128, 256, 14, 0, 0, 0x3DB504F3⟩

/-- The example of spec/02_programming_model.md before R64 (staging page 524,288 bytes), of spec/04_prefix_store.md (footprint 141,312 bytes) and of
spec/11_fabric.md (MSG_BYTES of a migration of 19 page sets 399,769,600). -/
theorem test_model_geometry :
    modelM.inRange = true ∧ modelM.footprint = 141312 ∧ modelM.stagingBytes = 524288 ∧ messageBytes modelM 19 false = 399769600 ∧
    modelM.footprint ≤ modelM.pageKib * 1024 ∧ ¬(modelM.footprint ≤ 128 * 1024) := by decide +kernel

/-- The example of spec/05_tiers_placement.md: a region of 64 GiB holds 1,016,800 frames. -/
theorem test_region_frames : (⟨0, 68719476736, false, []⟩ : Region).frames = 1016800 := by decide +kernel

/-- The example of spec/11_fabric.md after R326: a WRITE of 4,096 bytes takes 65 credits. -/
theorem test_packet_credits : pkCost { pk0 with payload := List.replicate 4096 0 } = 65 := by
  simp only [pkCost, pkBytes, List.length_replicate]
  decide

/-- The group of the example of spec/07_number_formats.md after R199, in the rotated domain: 2, -2, 1/2 and -1/2 in turn. -/
def group4 : List Word := (List.range 64).map fun i => if i % 4 = 0 then 0x40000000 else if i % 4 = 1 then 0xC0000000 else if i % 4 = 2 then 0x3F000000 else 0xBF000000

/-- Its scale is 0x3C and code byte 0 is 0x63; the elements decode to 2.25, -2.25, 0.75 and -0.75. -/
theorem test_zk2_example :
    rotate64 (unrotate64 group4) = group4 ∧ (zk2Encode (unrotate64 group4)).1 = 0x3C ∧ (zk2Encode (unrotate64 group4)).2.head? = some 0x63 ∧
    (zk2Decode (zk2Encode (unrotate64 group4)).2 0x3C).take 4 = [0x40100000, 0xC0100000, 0x3F400000, 0xBF400000] := by decide +kernel

/-- SHAKE256 of no bytes (R98; its value is that of FIPS 202): the first 8 bytes. -/
theorem test_shake256_empty : shake256 [] 8 = [0x46, 0xB9, 0xDD, 0x2B, 0x0B, 0xA8, 0x8D, 0x13] := by decide +kernel

/-- Operating point voltages (R432): 700 mV at point 0, 900 mV from point 12 on. -/
theorem test_point_voltages : pointMv 0 = 700 ∧ pointMv 12 = 900 ∧ pointMv 24 = 900 := by decide

/-- The state that a row answers. -/
def after (c : Instr) (s : State) : State :=
  match exec c s with
  | .next t => t
  | _ => s

/-- A nop with TAG 0x1234 from slot 1: STATUS 0, KIND 0, SLOT 1, INDEX 0, RING 0, JOB 0, TAG, RES0, RES1, OPCODE 0x60, ESEQ 0, PHASE 1 (R364, R366). -/
def wTagged : List Byte := word [(0, 0x60), (8, 0x1234)]

theorem test_nop_record :
    (after (.nop (at0 1)) (run 1 wTagged)).hostBytes 0x100000 32 =
      [0, 0, 0, 1, 0, 0, 0, 0, 0x34, 0x12, 0, 0, 0, 0, 0, 0, 0, 0, 0, 0, 0x60, 0, 0, 0, 0, 0, 0, 0, 0, 0, 0, 0x80] := by decide +kernel

/-- After it HEAD has passed the command, and the queue's TAIL has moved (R40, R363). -/
theorem test_nop_moves_head :
    let t := after (.nop (at0 1)) (run 1 wTagged)
    (t.slot 0 1).head = 1 ∧ (t.slot 0 1).window = [] ∧ (t.eq 0 0).tail = 1 ∧ (t.eq 0 0).eseq = 1 := by decide +kernel

/-- signal adds its value 9 to counter 5, and its SIGNAL field 3 to the same counter (R58, R231). -/
theorem test_signal_counts : ((after (.signal (at0 1)) (run 1 wSignal)).part 0).counter 5 = 12 := by decide +kernel

/-- add s1, s2, s3 with 0x100000 and 0x40000 (R235). -/
theorem test_tile_add :
    ((after (.add 1) (tiled (code 1 1 2 3 0) 1 0)).unit 1).bind (fun u => u.kernel.map fun k => (k.regs.s 1, k.pc, k.steps)) = some (0x140000, 1, 1) := by decide +kernel

/-- A doorbell that would pass the end of the ring is dropped and counted (R44). -/
theorem test_doorbell_out_of_range :
    let t := after (.sqDoorbell 0 1 0 4 64) full
    (t.slot 0 1).tail = 40 ∧ (t.slot 0 1).dbDrop = 1 := by decide +kernel

/-- Uplink 0 resumes with three BE and two BULK packets of 65 units: with quanta 130 and 65 it sends two BE, one BULK, and so on (R348). -/
def fair (tc seq : Nat) : Packet := { wr seq 0 with src := ownAddress joined, tc := tc, payload := List.replicate 4096 0 }

theorem test_deficit_round_robin :
    (let s := joined.onPort 4 fun x => { x with
        paused := 3
        transit := [(portQueue joined 4 (fair 1 0), [fair 1 1, fair 1 2, fair 1 3]), (portQueue joined 4 (fair 2 0), [fair 2 4, fair 2 5])] }
     (after (.pfcFrame 0 0) (s.onFabric fun f => { f with qBe := 130, qBulk := 65 })).fabric.egress.map fun e => (e.1, e.2.seq)) =
      [(4, 1), (4, 2), (4, 4), (4, 3), (4, 5)] := by decide +kernel

end Sys2Proof.Tests
end

section
/-! SUPPORT and THEOREM. What a host write through one virtual function leaves alone (R16, R353): the operations that it runs, from those
on the state up to the accesses themselves, keep every other partition and function, Oxsis, the power controller and the pins. A proof here
has the shape of its definition: .ite for an if, the lemma of an update or an operation for each of its steps, the last one outermost. -/

namespace Sys2Proof.Machine

open Sys2Proof

/-- From s to t nothing changes in another partition or function than p, in Oxsis, the power controller or the pins. -/
structure ConfinedTo (p : Nat) (s t : State) : Prop where
  part : ∀ o, o ≠ p → t.part o = s.part o
  func : ∀ o, o ≠ p → t.func o = s.func o
  oxs : t.oxs = s.oxs
  power : t.power = s.power
  pins : t.pins = s.pins

/-! ### The updates of the state -/

namespace ConfinedTo

variable {p : Nat} {b s t : State}

theorem refl (p : Nat) (s : State) : ConfinedTo p s s := ⟨fun _ _ => rfl, fun _ _ => rfl, rfl, rfl, rfl⟩

theorem trans (h : ConfinedTo p b s) (k : ConfinedTo p s t) : ConfinedTo p b t where
  part o ho := (k.part o ho).trans (h.part o ho)
  func o ho := (k.func o ho).trans (h.func o ho)
  oxs := k.oxs.trans h.oxs
  power := k.power.trans h.power
  pins := k.pins.trans h.pins

/-- A change of other fields, such as the units, the page caches or host memory, is confined to any partition. -/
theorem of_eq (h : ConfinedTo p b s) (h1 : t.parts = s.parts := by rfl) (h2 : t.funcs = s.funcs := by rfl)
    (h3 : t.oxs = s.oxs := by rfl) (h4 : t.power = s.power := by rfl) (h5 : t.pins = s.pins := by rfl) : ConfinedTo p b t where
  part o ho := (State.part_of_parts s t h1 o).trans (h.part o ho)
  func o ho := by rw [← h.func o ho, State.func, State.func, h2]
  oxs := h3.trans h.oxs
  power := h4.trans h.power
  pins := h5.trans h.pins

theorem onPart (h : ConfinedTo p b s) (f : Part → Part) : ConfinedTo p b (s.onPart p f) :=
  ⟨fun o ho => (State.part_onPart_ne s p o f ho).trans (h.part o ho), h.func, h.oxs, h.power, h.pins⟩

theorem onFunc (h : ConfinedTo p b s) (f : Func → Func) : ConfinedTo p b (s.onFunc p f) :=
  ⟨h.part, fun o ho => (State.func_onFunc_ne s p o f ho).trans (h.func o ho), h.oxs, h.power, h.pins⟩

theorem onSlot (h : ConfinedTo p b s) (i : Nat) (f : Slot → Slot) : ConfinedTo p b (s.onSlot p i f) := h.onPart _
theorem onSeq (h : ConfinedTo p b s) (i : Nat) (f : Seq → Seq) : ConfinedTo p b (s.onSeq p i f) := h.onPart _
theorem onSet (h : ConfinedTo p b s) (n : Nat) (f : PageSet → PageSet) : ConfinedTo p b (s.onSet p n f) := h.onPart _
theorem onAcct (h : ConfinedTo p b s) (f : Acct → Acct) : ConfinedTo p b (s.onAcct p f) := h.onPart _
theorem onBuffer (h : ConfinedTo p b s) (i : Nat) (f : Buffer → Buffer) : ConfinedTo p b (s.onBuffer p i f) := h.onPart _
theorem onFlight {c : CmdRef} (h : ConfinedTo c.part b s) (f : Flight → Flight) : ConfinedTo c.part b (s.onFlight c f) := h.onSlot _ _
theorem onSched (h : ConfinedTo p b s) (f : Sched → Sched) : ConfinedTo p b (s.onSched f) := h.of_eq
theorem onFlash (h : ConfinedTo p b s) (f : Flash → Flash) : ConfinedTo p b (s.onFlash f) := h.of_eq
theorem draw (h : ConfinedTo p b s) : ConfinedTo p b s.draw.2 := h.of_eq

theorem onEq (h : ConfinedTo p b s) (q : Nat) (f : EventQueue → EventQueue) : ConfinedTo p b (s.onEq p q f) := by
  unfold State.onEq
  split
  · exact h.onPart _
  · exact h.of_eq

theorem ite {c : Prop} [Decidable c] (hs : ConfinedTo p b s) (ht : ConfinedTo p b t) : ConfinedTo p b (if c then s else t) := by
  split
  · exact hs
  · exact ht

/-- A fold whose every step on an element of the list is confined. -/
theorem foldl {β : Type} {g : State → β → State} (h : ConfinedTo p b s) (l : List β)
    (hg : ∀ u, ∀ e ∈ l, ConfinedTo p b u → ConfinedTo p b (g u e)) : ConfinedTo p b (l.foldl g s) := by
  induction l generalizing s with
  | nil => exact h
  | cons e r ih => exact ih (hg s e (by simp) h) fun u d hd => hg u d (by simp [hd])

end ConfinedTo

section Operations

variable {p : Nat} {b s : State}

/-! ### Bytes, stalls, DRAM objects and places -/

theorem pcieIn_confined (h : ConfinedTo p b s) (n : Nat) : ConfinedTo p b (pcieIn s p n) := h.onAcct _

theorem stallFree_confined (h : ConfinedTo p b s) (cause : Nat) : ConfinedTo p b (stallFree s p cause) := by
  unfold stallFree stall
  exact h.draw.onPart _

theorem freeObject_confined (h : ConfinedTo p b s) (frame : Nat) : ConfinedTo p b (freeObject s p frame) := by
  unfold freeObject dropLines t1Write
  exact .onPart (.onAcct h.of_eq _) _

theorem trimTables_confined (h : ConfinedTo p b s) : ConfinedTo p b (trimTables s p) := by
  unfold trimTables
  exact .onPart (h.foldl _ fun _ _ _ hu => freeObject_confined hu _) _

theorem freeLoc_confined (h : ConfinedTo p b s) (l : Loc) : ConfinedTo p b (freeLoc s p l) := by
  unfold freeLoc
  split
  · exact h
  · split
    · exact freeObject_confined h _
    · exact h.onPart _
    · unfold discardFlash
      exact h.onPart _

/-! ### Moves, page sets and pins -/

theorem releaseDest_confined (h : ConfinedTo p b s) (m : Move) : ConfinedTo p b (releaseDest s p m) := by
  unfold releaseDest
  split
  · exact h
  · split
    · exact (h.onPart _).onFlash _
    · exact freeLoc_confined h _

theorem abandonMove_confined (h : ConfinedTo p b s) (id : Nat) : ConfinedTo p b (abandonMove s p id) := by
  unfold abandonMove
  split
  · exact h
  · exact (releaseDest_confined h _).onPart _

theorem abandonMoves_confined (h : ConfinedTo p b s) (t : Move → Bool) : ConfinedTo p b (abandonMoves s p t) :=
  h.foldl _ fun _ _ _ hu => abandonMove_confined hu _

theorem lowerSpec_confined (h : ConfinedTo p b s) (t : Tent) : ConfinedTo p b (lowerSpec s p t) := by
  unfold lowerSpec
  split
  · exact h.onSeq _ _
  · exact h

theorem bareSegment_confined (h : ConfinedTo p b s) (n : Nat) : ConfinedTo p b (bareSegment s p n) := by
  unfold bareSegment
  split
  · exact h
  · split
    · exact h
    · exact (freeLoc_confined (abandonMoves_confined h _) _).onPart _

theorem releaseSet_confined (h : ConfinedTo p b s) (psn : Nat) : ConfinedTo p b (releaseSet s p psn) := by
  unfold releaseSet
  split
  · exact h
  next d _ =>
    refine trimTables_confined (bareSegment_confined (.onPart ?_ _) _)
    refine .foldl (.foldl (.foldl (abandonMoves_confined h _) _ ?tents) _ ?old) _ ?homes
    case tents => exact fun _ _ _ hu => freeObject_confined (lowerSpec_confined hu _) _
    case old => exact fun _ _ _ hu => freeLoc_confined hu _
    case homes => exact fun _ _ _ hu => freeLoc_confined hu _

theorem maybeRelease_confined (h : ConfinedTo p b s) (psn : Nat) : ConfinedTo p b (maybeRelease s p psn) := by
  unfold maybeRelease
  split
  · exact h
  · refine h.ite (.ite (releaseSet_confined h psn) ?_)
    have marked := abandonMoves_confined (h.onSet psn fun d => { d with releasing := true }) fun m => m.touches psn
    dsimp only
    split
    · exact marked
    · exact .ite (releaseSet_confined marked psn) marked

theorem unpinAll_confined (h : ConfinedTo p b s) (l : List (Nat × Bool)) : ConfinedTo p b (unpinAll s p l) :=
  h.foldl l fun _ _ _ hu => maybeRelease_confined (hu.onSet _ _) _

/-! ### The end of a command's run, and a slot that stops -/

theorem endCause_confined (h : ConfinedTo p b s) (f : Flight) : ConfinedTo p b (endCause s p f) := by
  unfold endCause
  split
  · exact h
  · exact stallFree_confined h _

theorem unmark_confined {c : CmdRef} (h : ConfinedTo c.part b s) (f : Flight) : ConfinedTo c.part b (unmark s c f) :=
  h.ite (.ite (h.onPart _) (.ite (h.onPart _) (.ite (h.onSlot _ _) h)))

theorem abandonPackets_confined {c : CmdRef} (h : ConfinedTo c.part b s) (g : Nat → Bool) : ConfinedTo c.part b (abandonPackets s c g) := by
  unfold abandonPackets
  exact (h.onPart _).onSched _

/-- Units of one partition alone leave the tiles: what is charged and abandoned is that partition's. -/
theorem removeUnits_confined (h : ConfinedTo p b s) (lost : Bool) (t : Unit → Bool) (ht : ∀ u, t u = true → u.part = p) :
    ConfinedTo p b (removeUnits s lost t) := by
  have own : ∀ e ∈ s.sched.units.filter fun e => t e.2, e.2.part = p := fun e he => ht _ (List.mem_filter.1 he).2
  unfold removeUnits fillNext
  refine .onSched (.onSched (.foldl (.foldl h _ ?charge) _ ?moves) _) _
  case charge =>
    intro u e he hu
    split
    · rw [own e he]
      exact hu.draw.onAcct _
    · exact hu
  case moves =>
    intro u e he hu
    rw [own e he]
    exact abandonMoves_confined hu _

theorem Unit.part_of_isOf {c : CmdRef} (u : Unit) (h : u.isOf c = true) : u.part = c.part := by
  simp only [Unit.isOf, Bool.and_eq_true, decide_eq_true_eq] at h
  exact h.1.1

theorem releaseRun_confined {c : CmdRef} (h : ConfinedTo c.part b s) (kill : Bool) (f : Flight) :
    ConfinedTo c.part b (releaseRun s kill c f) := by
  have packets := abandonPackets_confined (unmark_confined h f) fun _ => true
  have units := removeUnits_confined packets kill (fun u => u.isOf c) Unit.part_of_isOf
  have frames := units.foldl (planFrames f.plan) (g := fun s n => freeObject s c.part n) fun _ _ _ hu => freeObject_confined hu _
  have moves := abandonMoves_confined frames fun m => m.cmd = some c
  unfold releaseRun
  exact trimTables_confined (.onFlight (unpinAll_confined (endCause_confined moves.of_eq f) f.pins) _)

theorem returnToRing_confined {c : CmdRef} (h : ConfinedTo c.part b s) (f : Flight) : ConfinedTo c.part b (returnToRing s c f) :=
  (h.onPart _).onSlot _ _

theorem dropFetches_confined (h : ConfinedTo p b s) (i : Nat) : ConfinedTo p b (dropFetches s p i) := h.of_eq

theorem stopSlot_confined (h : ConfinedTo p b s) (i : Nat) : ConfinedTo p b (stopSlot s p i).1 := by
  have drained (t : State) (ht : ConfinedTo p b t) : ConfinedTo p b (if i = 0 then t.onSlot p 0 Slot.endDrain else t) :=
    .ite (ht.onSlot _ _) ht
  refine drained _ (dropFetches_confined (.foldl (h.onSlot _ _) _ fun u f _ hu => ?_) i)
  have hc : ConfinedTo (CmdRef.part ⟨p, i, f.index⟩) b u := hu
  exact .ite (returnToRing_confined hc f) (returnToRing_confined ((releaseRun_confined hc true f).onAcct _) f)

/-! ### Posted writes, interrupts and event queues -/

theorem land_confined (h : ConfinedTo p b s) (addr : Nat) (bytes : List Byte) : ConfinedTo p b (s.land p addr bytes) := by
  unfold State.land
  exact .ite (.onAcct h.of_eq _) h.of_eq

/-- A record of a function is issued, or waits for a credit. -/
theorem issue_record_confined (h : ConfinedTo p b s) (addr : Nat) (bytes : List Byte) (cmd : Option CmdRef) :
    ConfinedTo p b (s.issue (.record p addr bytes cmd)) :=
  .ite (land_confined h.of_eq _ _) h.of_eq

/-- The same of a message, which changes no partition at all. -/
theorem issue_message_confined (h : ConfinedTo p b s) (fn v : Nat) : ConfinedTo p b (s.issue (.message fn v)) :=
  .ite h.of_eq h.of_eq

theorem setVector_confined (h : ConfinedTo p b s) (v : Nat) (x : Vector16) : ConfinedTo p b (setVector s p v x) :=
  .ite (h.onFunc _) h.of_eq

theorem sendMessage_confined (h : ConfinedTo p b s) (v : Nat) : ConfinedTo p b (sendMessage s p v) :=
  .ite (setVector_confined h _ _) (issue_message_confined h _ _)

theorem signalIfDue_confined (h : ConfinedTo p b s) (q : Nat) : ConfinedTo p b (signalIfDue s p q) :=
  .ite (sendMessage_confined (h.onEq _ _) _) h

theorem writeRecord_confined (h : ConfinedTo p b s) (q : Nat) (bytes : List Byte) (cmd : Option CmdRef) :
    ConfinedTo p b (writeRecord s p q bytes cmd) :=
  signalIfDue_confined ((issue_record_confined h _ _ _).onEq _ _) q

theorem deliverOverflow_confined (n q : Nat) (h : ConfinedTo p b s) : ConfinedTo p b (deliverOverflow p q n s) := by
  induction n generalizing s with
  | zero => exact h
  | succ n ih =>
    unfold deliverOverflow
    dsimp only
    split
    · exact h
    · exact h.ite (ih (writeRecord_confined (h.onEq _ _) _ _ _))

end Operations

/-! ### The accesses of a host through one function -/

section Accesses

variable (s : State) (p : Nat)

theorem sqDoorbell_confined (i offset size value : Nat) : ConfinedTo p s (sqDoorbell p i offset size value s) :=
  have h := ConfinedTo.refl p s
  h.ite (.ite (h.onSlot _ _) (h.onSlot _ _))

theorem inlineDoorbell_confined (i offset : Nat) (data : List Byte) : ConfinedTo p s (inlineDoorbell p i offset data s) :=
  have h := ConfinedTo.refl p s
  have bytes := pcieIn_confined (h.onSlot i fun x => { x with tail := ((s.slot p i).tail + 1) % (s.slot p i).size }) 64
  h.ite (.ite (.ite ((bytes.onPart _).onSlot _ _) bytes) (h.onSlot _ _))

theorem csqCfg_confined (value : Nat) : ConfinedTo p s (csqCfg s p value) :=
  have h := ConfinedTo.refl p s
  .ite (h.ite (stopSlot_confined (h.onSlot _ _) 0)) (h.onSlot _ _)

theorem csqEnable_confined (value : Nat) : ConfinedTo p s (csqEnable p value s) :=
  (csqCfg_confined s p value).ite (.refl p s)

theorem csqDisable_confined (value : Nat) : ConfinedTo p s (csqDisable p value s) :=
  (csqCfg_confined s p value).ite (.refl p s)

theorem csqRingConfig_confined (isBase : Bool) (value : Nat) : ConfinedTo p s (csqRingConfig p isBase value s) :=
  have h := ConfinedTo.refl p s
  h.ite (.ite (h.onSlot _ _) (h.ite (csqCfg_confined s p value)))

theorem eqEnable_confined (q value : Nat) : ConfinedTo p s (eqEnable p q value s) :=
  have h := ConfinedTo.refl p s
  h.ite (signalIfDue_confined (h.onEq _ _) q)

theorem eqDisable_confined (q value : Nat) : ConfinedTo p s (eqDisable p q value s) :=
  have h := ConfinedTo.refl p s
  have fields := h.onEq q (eqFields p value)
  h.ite (.ite fields (fields.onEq _ _))

theorem eqHeadWrite_confined (q value : Nat) : ConfinedTo p s (eqHeadWrite p q value s) :=
  have h := ConfinedTo.refl p s
  h.ite (.ite (signalIfDue_confined (deliverOverflow_confined _ q (h.onEq _ _)) q) (h.onEq _ _))

theorem eqArm_confined (q : Nat) : ConfinedTo p s (eqArm p q s) :=
  have h := ConfinedTo.refl p s
  h.ite (signalIfDue_confined (h.onEq _ _) q)

theorem msixUnmask_confined (v : Nat) : ConfinedTo p s (msixUnmask p v s) :=
  have h := ConfinedTo.refl p s
  have clear := setVector_confined h v { vector s p v with masked := false, pending := false }
  h.ite (.ite (issue_message_confined clear _ _) clear)

theorem dropMigration_confined (i : Nat) : ConfinedTo p s (dropMigration s p i) := by
  have h := ConfinedTo.refl p s
  unfold dropMigration
  split
  · exact h
  · exact trimTables_confined (.onBuffer (h.foldl _ fun _ _ _ hu => freeObject_confined hu _) _ _)

theorem setBuffer_confined (i : Nat) (e : BufFields) (valid : Bool) : ConfinedTo p s (setBuffer s p i e valid) := by
  unfold setBuffer rewriteBuffer
  exact .ite (.refl p s) (.onBuffer (dropMigration_confined s p i).of_eq _ _)

theorem pushWrite_confined (offset : Nat) (data : List Byte) : ConfinedTo p s (pushWrite p offset data s) :=
  have h := ConfinedTo.refl p s
  have dropped := (h.onFunc fun f => { f with pushDrops := satAdd 0xFFFF f.pushDrops 1 }).ite h
  h.ite (dropped.ite (pcieIn_confined (dropped.onPart _) _))

/-! ### Register writes -/

theorem writeEq_confined (q off v : Nat) : ConfinedTo p s (writeEq p q off v s) := by
  have h := ConfinedTo.refl p s
  unfold writeEq
  dsimp only
  split
  · exact h.ite (h.onEq _ _)
  · exact h.ite (h.onEq _ _)
  · exact .ite (signalIfDue_confined (h.onEq _ _) q) h
  · exact h.onEq _ _
  · exact h.onEq _ _
  · exact h

theorem writeVector_confined (off v : Nat) : ConfinedTo p s (writeVector p off v s) := by
  have h := ConfinedTo.refl p s
  have set (x : Vector16) := setVector_confined h (off / 16) x
  refine h.ite ?_
  split
  · exact set _
  · exact set _
  · exact set _
  · exact (set _).ite h

theorem writeVf_confined (off v : Nat) : ConfinedTo p s (writeVf p off v s) := by
  have h := ConfinedTo.refl p s
  unfold writeVf writePlacement writeFabricBlock
  exact h.ite (.ite (.ite (h.onSlot _ _) h) (.ite (writeEq_confined s p _ _ v) (.ite (h.onPart _) (.ite (h.onPart _) (.ite (h.onPart _) h)))))

/-- A virtual function reaches no register of PF0. -/
theorem writeWord_confined (hp : p < 16) (off v : Nat) : ConfinedTo p s (writeWord p off v s) := by
  unfold writeWord
  rw [if_neg (by omega), if_neg (by omega)]
  exact .ite (.ite (writeVector_confined s p _ v) (.refl p s)) (writeVf_confined s p off v)

end Accesses

theorem registerWrite_confined (s : State) (p : Nat) (hp : p < 16) (off size v : Nat) : ConfinedTo p s (registerWrite p off size v s) :=
  have low := writeWord_confined s p hp off (v % 2 ^ 32)
  low.ite (.ite (low.trans (writeWord_confined _ p hp _ _)) (.refl p s))

/-! ### Deep sleep -/

/-- Every host access acts at once, or waits in Deep sleep (R425, R437). -/
theorem exec_hostAccess {i : Instr} {f : State → State} (h : hostAccess i = some f) (s : State) : exec i s = .next (s.access i f) := by
  unfold hostAccess at h
  split at h <;> cases h <;> rfl

theorem State.linkAsleep_iff (s : State) :
    s.linkAsleep = true ↔ s.power.chip = .deepSleep ∧ s.pins.pcieUp = true ∧ s.pins.linkReset = false := by
  simp [State.linkAsleep, and_assoc]

/-- A host access whose action is confined to p, awake or in Deep sleep. -/
theorem exec_confined {i : Instr} {f : State → State} {s : State} {p : Nat} (hi : hostAccess i = some f) (hf : ConfinedTo p s (f s)) :
    ∃ t, exec i s = .next t ∧ (∀ o, o ≠ p → t.part o = s.part o) ∧ (∀ o, o ≠ p → t.func o = s.func o) ∧ t.oxs = s.oxs ∧
      t.power = (if s.linkAsleep then (s.hold i).power else s.power) ∧ t.pins = s.pins := by
  refine ⟨_, exec_hostAccess hi s, ?_⟩
  unfold State.access
  split
  · exact ⟨fun _ _ => rfl, fun _ _ => rfl, rfl, rfl, rfl⟩
  · exact ⟨hf.part, hf.func, hf.oxs, hf.power, hf.pins⟩

/-- Settles O43: the first part is exec_hostAccess, the second the confinement of each kind of write through a virtual function. -/
theorem partitionsAreSeparate : Obligations.PartitionsAreSeparate := by
  unfold Obligations.PartitionsAreSeparate
  refine ⟨fun s i f hi => ?_, fun s p hp row hrow => ?_⟩
  · rw [exec_hostAccess hi, State.access]
    simp only [State.linkAsleep_iff]
    rfl
  · rcases hrow with ⟨i, off, size, v, rfl⟩ | ⟨i, off, d, rfl⟩ | ⟨v, rfl⟩ | ⟨v, rfl⟩ | ⟨isBase, v, rfl⟩ | ⟨q, v, rfl⟩ |
      ⟨q, v, rfl⟩ | ⟨q, v, rfl⟩ | ⟨q, rfl⟩ | ⟨v, rfl⟩ | ⟨i, e, rfl⟩ | ⟨i, e, rfl⟩ | ⟨off, d, rfl⟩ | ⟨off, size, v, rfl⟩
    · exact exec_confined rfl (sqDoorbell_confined s p i off size v)
    · exact exec_confined rfl (inlineDoorbell_confined s p i off d)
    · exact exec_confined rfl (csqEnable_confined s p v)
    · exact exec_confined rfl (csqDisable_confined s p v)
    · exact exec_confined rfl (csqRingConfig_confined s p isBase v)
    · exact exec_confined rfl (eqEnable_confined s p q v)
    · exact exec_confined rfl (eqDisable_confined s p q v)
    · exact exec_confined rfl (eqHeadWrite_confined s p q v)
    · exact exec_confined rfl (eqArm_confined s p q)
    · exact exec_confined rfl (msixUnmask_confined s p v)
    · exact exec_confined rfl (setBuffer_confined s p i e true)
    · exact exec_confined rfl (setBuffer_confined s p i e false)
    · exact exec_confined rfl (pushWrite_confined s p off d)
    · exact exec_confined rfl (registerWrite_confined s p hp off size v)

end Sys2Proof.Machine
end

section
/-! SUPPORT. A key of a sparse memory that is set twice, and the members of a list without repetitions. -/

namespace Sys2Proof

theorem Map.del_place {α : Type} (m : Map α) (k : Nat) (a : α) : Map.del (Map.place m k a) k = Map.del m k := by
  unfold Map.del
  induction m with
  | nil => simp [Map.place]
  | cons e r ih =>
    unfold Map.place
    split
    · simp
    · simp [List.filter_cons, ih]

@[simp] theorem Map.put_put {α : Type} (m : Map α) (k : Nat) (a b : α) : Map.put (Map.put m k a) k b = Map.put m k b := by
  have twice : Map.del (Map.del m k) k = Map.del m k := by simp [Map.del]
  unfold Map.put
  rw [Map.del_place, twice]

/-- Leaving out repetitions keeps the members. -/
theorem mem_dedup (l : List Nat) (a : Nat) : a ∈ dedup l ↔ a ∈ l := by
  have onto : ∀ l r : List Nat, a ∈ l.foldl (fun r a => if r.contains a then r else a :: r) r ↔ a ∈ l ∨ a ∈ r := by
    intro l
    induction l with
    | nil => simp
    | cons b l ih =>
      intro r
      rw [List.foldl_cons, ih]
      have head : a ∈ (if r.contains b then r else b :: r) ↔ a = b ∨ a ∈ r := by
        by_cases hb : b ∈ r
        · rw [if_pos (List.contains_iff_mem.2 hb)]
          exact ⟨Or.inr, fun h => h.elim (fun e => e ▸ hb) id⟩
        · rw [if_neg fun h => hb (List.contains_iff_mem.1 h), List.mem_cons]
      rw [head, List.mem_cons, ← or_assoc, or_comm (a := a ∈ l)]
  simp only [dedup, List.mem_reverse, onto, List.not_mem_nil, or_false]

end Sys2Proof
end

section
/-! SUPPORT. The start and the commit of a command that is Ready (R49, R54, R213): what an update of a command in the window leaves alone,
what the start of a row makes of the state, and when the commit unit lets the command's request through. -/

namespace Sys2Proof.Machine

open Sys2Proof

/-! ### An update written over another -/

theorem Part.onSlot_onSlot (x : Part) (i : Nat) (f g : Slot → Slot) : (x.onSlot i f).onSlot i g = x.onSlot i fun y => g (f y) := by
  simp [Part.onSlot, Part.slot]

theorem State.onPart_onPart (s : State) (p : Nat) (f g : Part → Part) : (s.onPart p f).onPart p g = s.onPart p fun x => g (f x) := by
  simp [State.onPart, State.setPart, State.part]

/-! ### An update of a command in the window -/

/-- An update of a command in the window changes of its partition only the slots. -/
theorem State.part_onFlight_but_slots {α : Type} (φ : Part → α) (hφ : ∀ x y, φ { x with slots := y } = φ x) (s : State) (c : CmdRef)
    (g : Flight → Flight) : φ ((s.onFlight c g).part c.part) = φ (s.part c.part) := by
  rw [State.onFlight, State.part_onSlot]
  exact hφ _ _

section OnFlight

variable {c : CmdRef} {g h : Flight → Flight}

theorem State.flight_onFlight (s : State) (hg : ∀ f, (g f).index = f.index) : (s.onFlight c g).flight c = (s.flight c).map g := by
  have kept : ∀ f : Flight, (if f.index = c.index then g f else f).index = f.index := fun f => by split <;> simp [hg]
  simp only [State.flight, State.onFlight, State.slot_onSlot, List.find?_map, Function.comp_def, kept]
  refine Option.map_congr fun f hf => ?_
  have hi : f.index = c.index := by simpa using List.find?_some hf
  simp [hi]

theorem State.onFlight_onFlight (s : State) (hg : ∀ f, (g f).index = f.index) :
    (s.onFlight c g).onFlight c h = s.onFlight c fun f => h (g f) := by
  have both : ∀ f : Flight, (if (if f.index = c.index then g f else f).index = c.index then h (if f.index = c.index then g f else f)
      else if f.index = c.index then g f else f) = if f.index = c.index then h (g f) else f := fun f => by
    by_cases hi : f.index = c.index <;> simp [hi, hg]
  simp only [State.onFlight, State.onSlot, State.onPart_onPart, Part.onSlot_onSlot, List.map_map, Function.comp_def, both]

theorem flight_setPlan (s : State) (a : Plan) : (setPlan s c a).flight c = (s.flight c).map fun f => { f with plan := a } :=
  State.flight_onFlight s fun _ => rfl

theorem setPlan_setPlan (s : State) (a b : Plan) : setPlan (setPlan s c a) c b = setPlan s c b := State.onFlight_onFlight s fun _ => rfl

theorem Slot.offset_window (x : Slot) (l : List Flight) (i : Nat) : ({ x with window := l } : Slot).offset i = x.offset i := rfl

/-- Whether an earlier command holds back the commit does not depend on what the window says of the command itself. -/
theorem commitBlocked_onFlight (s : State) (f : Flight) (hf : f.index = c.index) (hg : ∀ f, (g f).index = f.index) :
    commitBlocked ((s.onFlight c g).slot c.part c.slot) f = commitBlocked (s.slot c.part c.slot) f := by
  simp only [State.onFlight, State.slot_onSlot, commitBlocked, Slot.earlier, Slot.offset_window, List.any_filter, List.any_map]
  congr 1
  funext e
  by_cases he : e.index = c.index <;> simp [he, hg, hf]

theorem State.eq_onFlight (s : State) (q : Nat) : (s.onFlight c g).eq c.part q = s.eq c.part q := by
  unfold State.eq
  rw [State.part_onFlight_but_slots (fun x => x.eq q) fun _ _ => rfl]
  rfl

theorem State.slot_eq_onFlight (s : State) : ((s.onFlight c g).slot c.part c.slot).eq = (s.slot c.part c.slot).eq := by
  rw [State.onFlight, State.slot_onSlot]

end OnFlight

theorem State.flight_of_slots {s t : State} (c : CmdRef) (h : (t.part c.part).slots = (s.part c.part).slots) : t.flight c = s.flight c := by
  unfold State.flight State.slot Part.slot
  rw [h]

theorem State.index_of_flight {s : State} {c : CmdRef} {f : Flight} (h : s.flight c = some f) : f.index = c.index := by
  simpa using List.find?_some h

theorem flight_checkWaits (s : State) (c : CmdRef) : (checkWaits s c.part).flight c = (s.flight c).map (checkWait (s.part c.part)) := by
  have kept : ∀ f : Flight, (checkWait (s.part c.part) f).index = f.index := fun f => by unfold checkWait; simp only; split <;> rfl
  have window : ((checkWaits s c.part).slot c.part c.slot).window = (s.slot c.part c.slot).window.map (checkWait (s.part c.part)) := by
    unfold checkWaits State.slot Part.slot Map.get
    rw [State.part_onPart, Map.look_each]
    cases Map.look (s.part c.part).slots c.slot <;> rfl
  unfold State.flight
  rw [window, List.find?_map]
  simp only [Function.comp_def, kept]

/-- SIGNAL takes no command out of its window. -/
theorem flight_raiseSignal_isSome (s : State) (c : CmdRef) (w : List Byte) (h : (s.flight c).isSome) :
    ((raiseSignal s c w).flight c).isSome := by
  unfold raiseSignal addCounter setCounter
  split
  · rw [flight_checkWaits, Option.isSome_map, State.flight_of_slots (s := s) c (by rw [State.part_onPart])]
    exact h
  · exact h

/-! ### The commit unit lets a request through -/

/-- No earlier command holds back the commit of the command, and its record has room (R33, R53). -/
structure Cleared (t : State) (c : CmdRef) (g : Flight) : Prop where
  flight : t.flight c = some g
  free : commitBlocked (t.slot c.part c.slot) g = false
  room : (t.eq c.part (t.slot c.part c.slot).eq).stuck = false

namespace Cleared

variable {t : State} {c : CmdRef} {g : Flight}

theorem onFlight (h : Cleared t c g) {k : Flight → Flight} (hi : ∀ f, (k f).index = f.index) (hs : ∀ f, (k f).seqs = f.seqs) :
    Cleared (t.onFlight c k) c (k g) where
  flight := by rw [State.flight_onFlight t hi, h.flight]; rfl
  free := by
    rw [commitBlocked_onFlight t _ ((hi g).trans (State.index_of_flight h.flight)) hi, ← h.free]
    simp only [commitBlocked, Slot.earlier, hi, hs]
  room := by rw [State.eq_onFlight, State.slot_eq_onFlight, h.room]

theorem planned (h : Cleared t c g) (a : Plan) : Cleared (setPlan t c a) c { g with plan := a } := h.onFlight (fun _ => rfl) fun _ => rfl

theorem requested {c : CmdStep} (h : Cleared t c.ref g) : Cleared (requestedIn t c) c.ref { g with stage := .requested } :=
  h.onFlight (fun _ => rfl) fun _ => rfl

/-- The same where the slot stands as it did. -/
theorem of_slot (h : Cleared t c g) {u : State} (hu : u.slot c.part c.slot = t.slot c.part c.slot)
    (room : (u.eq c.part (t.slot c.part c.slot).eq).stuck = false) : Cleared u c g where
  flight := by rw [State.flight, hu]; exact h.flight
  free := by rw [hu]; exact h.free
  room := by rw [hu]; exact room

/-- A request that the commit unit lets through and whose row has reached its commit point is committed. -/
theorem commitCmd_eq (h : Cleared t c g) (stage : g.stage = .requested) {u : State} {st r0 r1 : Nat} {outs : List (Nat × List Byte)}
    (point : commitOp (rewake t c g) c (t.slot c.part c.slot) g = .done u st r0 r1 outs) {f : Flight} (word : g.word = f.word)
    (there : (u.flight c).isSome) : commitCmd c t = committed u c f st r0 r1 outs := by
  obtain ⟨k, hk⟩ := Option.isSome_iff_exists.1 (flight_raiseSignal_isSome u c f.word there)
  simp only [commitCmd, commitWith, h.flight, stage, h.free, h.room, point, committed, word, hk, Option.getD_some, Bool.false_eq_true,
    if_false, Bool.false_and]

end Cleared

/-! ### A command that is Ready starts -/

/-- The start counts on in the start order, and updates the command's flight. -/
theorem begun_eq (s : State) (c : CmdStep) :
    begun s c = (s.onSched fun d => { d with order := d.order + 1 }).onFlight c.ref (begunFlight s c) := rfl

theorem begunFlight_word (s : State) (c : CmdStep) (f : Flight) : (begunFlight s c f).word = f.word := (rfl)

section Ready

variable {s : State} {c : CmdStep} {f : Flight} (R : Ready s c f)
include R

theorem Ready.fetched : f.stage = .fetched := by
  have starts := R.starts
  simp only [mayStart, Bool.and_eq_true, decide_eq_true_eq] at starts
  obtain ⟨⟨⟨⟨⟨_, fetched⟩, _⟩, _⟩, _⟩, _⟩ := starts
  exact fetched

theorem Ready.cleared : Cleared (begun s c) c.ref (begunFlight s c f) where
  flight := by
    rw [begun_eq, State.flight_onFlight (g := begunFlight s c) _ fun _ => rfl]
    exact congrArg (Option.map _) R.flight
  free := by
    have index : (begunFlight s c f).index = c.ref.index := State.index_of_flight (f := f) R.flight
    rw [begun_eq, commitBlocked_onFlight (g := begunFlight s c) _ _ index fun _ => rfl]
    simp only [commitBlocked, List.any_eq_false, Bool.not_eq_true]
    intro e he i hi
    have apart := List.all_eq_true.1 (List.all_eq_true.1 R.alone e he) i hi
    simpa [begunFlight, mem_dedup] using apart
  room := by
    rw [begun_eq, State.eq_onFlight, State.slot_eq_onFlight]
    exact R.room

/-- The row of a command that is Ready, whose start goes on to the state t, runs the commit stage on t. -/
theorem Ready.runCommand_go {isRow : List Byte → Bool} {start : State → CmdStep → Slot → Flight → Start} {t : State}
    (row : isRow f.word = true) (go : ∀ x, start (begun s c) c x (begunFlight s c f) = .go t) :
    runCommand isRow start commitCmd c s = commitCmd c.ref t := by
  have check : commitCmd c.ref (startCommand start c f s) = commitCmd c.ref t := by
    simp only [startCommand, R.check]
    rw [show beginFlight c.ref s = begun s c from rfl, R.cleared.flight, Option.getD_some, go]
  simp [runCommand, R.flight, R.starts, R.now, rowTakes, row, check]

/-- The row of a command that is Ready, whose start asks for the commit at once and whose commit point then gives u, commits. -/
theorem Ready.runCommand_request {isRow : List Byte → Bool} {start : State → CmdStep → Slot → Flight → Start} {u : State} {r0 r1 : Nat}
    {outs : List (Nat × List Byte)} (row : isRow f.word = true)
    (go : ∀ x, start (begun s c) c x (begunFlight s c f) = request (begun s c) c.ref)
    (point : ∀ x g, g.word = f.word → g.seqs = dedup (namesOf s c.ref.part f.word) →
      commitOp (rewake (requestedIn (begun s c) c) c.ref g) c.ref x g = .done u St.success r0 r1 outs)
    (there : (u.part c.ref.part).slots = ((requestedIn (begun s c) c).part c.ref.part).slots) :
    runCommand isRow start commitCmd c s = committed u c.ref f St.success r0 r1 outs := by
  have asked := R.cleared.requested
  have goes : ∀ x, start (begun s c) c x (begunFlight s c f) = .go (requestedIn (begun s c) c) := go
  rw [R.runCommand_go row goes]
  refine asked.commitCmd_eq rfl (point _ _ rfl rfl) rfl ?_
  rw [State.flight_of_slots c.ref there, asked.flight]
  rfl

end Ready

/-- The start of a command and its request change of its partition only the slots. -/
theorem part_begun {α : Type} (φ : Part → α) (hφ : ∀ x y, φ { x with slots := y } = φ x) (s : State) (c : CmdStep) :
    φ ((begun s c).part c.ref.part) = φ (s.part c.ref.part) :=
  State.part_onFlight_but_slots φ hφ (s.onSched fun d => { d with order := d.order + 1 }) c.ref _

theorem part_requestedIn {α : Type} (φ : Part → α) (hφ : ∀ x y, φ { x with slots := y } = φ x) (s : State) (c : CmdStep) :
    φ ((requestedIn (begun s c) c).part c.ref.part) = φ (s.part c.ref.part) :=
  (State.part_onFlight_but_slots φ hφ (begun s c) c.ref _).trans (part_begun φ hφ s c)

/-! ### Waking -/

theorem rewake_of_not_wakes (s : State) (c : CmdRef) (f : Flight) (h : wakes f.word = false) : rewake s c f = s := by
  simp [rewake, h]

theorem wakes_of_looksUp {w : List Byte} (h : cOpcode w = Op.seqOpen ∨ cOpcode w = Op.prefixProbe) : wakes w = false := by
  rcases h with op | op <;> rw [wakes, op] <;> rfl

/-- A command whose one sequence is ACTIVE wakes nothing (R23). -/
theorem rewake_of_active {s : State} {c : CmdRef} {f : Flight} {i : Nat} {q : Seq} (names : f.seqs = [i])
    (seq : (s.part c.part).seq i = some q) (active : q.state = .active) : rewake s c f = s := by
  simp [rewake, names, seq, active]

theorem wakeThen_of_active {s : State} {c : CmdStep} {i : Nat} {q : Seq} (seq : (s.part c.ref.part).seq i = some q)
    (active : q.state = .active) (f : Flight) (next : State → Start) : wakeThen s c f i next = next s := by
  simp [wakeThen, wakeSeq, seq, active]

theorem Part.seq_of_handle {x : Part} {h : Nat} {q : Seq} (hq : x.handle h = some q) : x.seq (handleIndex h) = some q := by
  unfold Part.handle at hq
  split at hq
  next r hr =>
    split at hq
    · cases hq
      exact hr
    · cases hq
  · cases hq

theorem waitSegments_eq_none {s : State} {c : CmdRef} {psns : List Nat} (h : segmentsOut (s.part c.part) psns = []) :
    waitSegments s c psns = none := by
  simp [waitSegments, h]

end Sys2Proof.Machine
end

section
/-! SUPPORT and THEOREM. The commands that look up, publish, retain and evict page sets (R106 to R117, R221, R225). -/

namespace Sys2Proof.Machine

open Sys2Proof

/-! ### Releasing page sets leaves the slots alone -/

section Slots

variable (s : State) (p : Nat)

@[simp] theorem slots_onSeq (i : Nat) (f : Seq → Seq) : ((s.onSeq p i f).part p).slots = (s.part p).slots := by
  rw [State.part_onSeq]
  rfl

@[simp] theorem slots_onSet (n : Nat) (f : PageSet → PageSet) : ((s.onSet p n f).part p).slots = (s.part p).slots := by
  rw [State.part_onSet]
  rfl

/-- A fold whose every step leaves the slots alone leaves them alone. -/
theorem slots_foldl {β : Type} {g : State → β → State} (hg : ∀ s e, ((g s e).part p).slots = (s.part p).slots) (l : List β) :
    ((l.foldl g s).part p).slots = (s.part p).slots :=
  foldl_same (fun s : State => (s.part p).slots) g hg l s

@[simp] theorem slots_freeObject (frame : Nat) : ((freeObject s p frame).part p).slots = (s.part p).slots := by
  rw [freeObject, State.part_onPart, dropLines, t1Write, State.part_onAcct]
  rfl

@[simp] theorem slots_trimTables : ((trimTables s p).part p).slots = (s.part p).slots := by
  rw [trimTables, State.part_onPart]
  exact slots_foldl s p (fun s f => slots_freeObject s p f) _

@[simp] theorem slots_freeLoc (l : Loc) : ((freeLoc s p l).part p).slots = (s.part p).slots := by
  unfold freeLoc
  split
  · rfl
  · split
    · exact slots_freeObject s p _
    · rw [State.part_onPart]
    · rw [discardFlash, State.part_onPart]

@[simp] theorem slots_releaseDest (m : Move) : ((releaseDest s p m).part p).slots = (s.part p).slots := by
  unfold releaseDest
  split
  · rfl
  · split
    · rw [State.part_of_parts _ _ (State.onFlash_parts _ _), State.part_onPart]
    · exact slots_freeLoc s p _

@[simp] theorem slots_abandonMove (id : Nat) : ((abandonMove s p id).part p).slots = (s.part p).slots := by
  unfold abandonMove
  split
  · rfl
  next m _ =>
    rw [State.part_onPart, ← slots_releaseDest s p m]
    dsimp only
    split <;> rfl

@[simp] theorem slots_abandonMoves (t : Move → Bool) : ((abandonMoves s p t).part p).slots = (s.part p).slots :=
  slots_foldl s p (fun s id => slots_abandonMove s p id) _

@[simp] theorem slots_lowerSpec (t : Tent) : ((lowerSpec s p t).part p).slots = (s.part p).slots := by
  unfold lowerSpec
  split
  · exact slots_onSeq s p _ _
  · rfl

@[simp] theorem slots_bareSegment (n : Nat) : ((bareSegment s p n).part p).slots = (s.part p).slots := by
  unfold bareSegment
  split
  · rfl
  · split
    · rfl
    · rw [State.part_onPart]
      exact (slots_freeLoc _ p _).trans (slots_abandonMoves s p _)

@[simp] theorem slots_releaseSet (psn : Nat) : ((releaseSet s p psn).part p).slots = (s.part p).slots := by
  unfold releaseSet
  split
  · rfl
  next d _ =>
    rw [slots_trimTables, slots_bareSegment, State.part_onPart]
    refine (slots_foldl _ p (fun s e => slots_freeLoc s p _) d.loc).trans ?_
    refine (slots_foldl _ p (fun s o => slots_freeLoc s p _) d.old).trans ?_
    refine (slots_foldl _ p (fun s e => ?_) d.tents).trans (slots_abandonMoves s p _)
    rw [slots_freeObject, slots_lowerSpec]

@[simp] theorem slots_maybeRelease (psn : Nat) : ((maybeRelease s p psn).part p).slots = (s.part p).slots := by
  unfold maybeRelease
  split
  · rfl
  · split
    · rfl
    · split
      · exact slots_releaseSet s p psn
      · have marked := (slots_abandonMoves (s.onSet p psn fun d => { d with releasing := true }) p fun m => m.touches psn).trans
          (slots_onSet s p psn _)
        dsimp only
        split
        · exact marked
        · split
          · exact (slots_releaseSet _ p psn).trans marked
          · exact marked

@[simp] theorem slots_evictEntry (i : Nat) : ((evictEntry s p i).part p).slots = (s.part p).slots := by
  unfold evictEntry
  split
  · rfl
  · rw [slots_maybeRelease, slots_onSet, State.part_onPart]

@[simp] theorem slots_useSeq (i : Nat) : ((useSeq s p i).part p).slots = (s.part p).slots := slots_onSeq s p i _

@[simp] theorem slots_putSeq (i : Nat) (q : Seq) : ((putSeq s p i q).part p).slots = (s.part p).slots := by
  rw [putSeq, State.part_onPart, Part.fitTables]
  split <;> rfl

@[simp] theorem slots_onCnt (g : PartCounters → PartCounters) : ((onCnt s p g).part p).slots = (s.part p).slots := by
  rw [onCnt, State.part_onPart, Part.onCnt_slots]

end Slots

/-! ### Their lookup where T is 0 -/

theorem hMaxOf_of_zero {w : List Byte} (h : oT w = 0) : hMaxOf w = 0 := by
  simp [hMaxOf, h]

/-- With no token there is nothing to look up, and the command asks for its commit at once. -/
theorem startLookup_of_zero {s : State} {c : CmdStep} {w : List Byte} (h : hMaxOf w = 0) (there : (s.flight c.ref).isSome) (index : Nat) :
    startLookup s c w index = requestedIn (setPlan s c.ref (.lookup [] [] 0 index (hMaxOf w) true)) c := by
  obtain ⟨f, hf⟩ := Option.isSome_iff_exists.1 there
  have planned : ∀ p, (setPlan s c.ref p).flight c.ref = some { f with plan := p } := fun p => by
    rw [flight_setPlan, hf]
    rfl
  have inDram : ∀ t : State, waitSegments t c.ref [] = none := fun t => waitSegments_eq_none rfl
  simp [startLookup, h, lookupDone, planned, inDram, setPlan_setPlan, requestedIn]

theorem openCheck_of_zero {s : State} {p : Nat} {bad : List (Nat × Nat)} {w : List Byte} (t : oT w = 0) (sets : oMaxSets w ≤ 4096)
    (inside : oTokPw w = true → oTokens w ≤ (s.part p).sliceBytes) (model : Map.has (s.part p).models (cModel w) = true) :
    openCheck s p bad w = none := by
  have fits : ¬ (oTokPw w = true ∧ (s.part p).sliceBytes < oTokens w) := fun h => absurd (inside h.1) (by omega)
  simp [openCheck, t, Nat.not_lt.2 sets, fits, model]

/-- The commit of a command that looks nothing up: its request is let through, and its row's commit point gives the state u. -/
theorem Cleared.commitCmd_startLookup {t r : State} {c : CmdStep} {g f : Flight} (h : Cleared t c.ref g) (word : g.word = f.word)
    (empty : hMaxOf f.word = 0) {index r0 r1 : Nat} (hr : r = requestedIn (setPlan t c.ref (.lookup [] [] 0 index (hMaxOf f.word) true)) c) {u : State}
    (point : ∀ x g, g.word = f.word → g.plan = .lookup [] [] 0 index (hMaxOf f.word) true →
      commitOp (rewake r c.ref g) c.ref x g = .done u St.success r0 r1 [])
    (there : (u.flight c.ref).isSome = (r.flight c.ref).isSome) :
    commitCmd c.ref (startLookup t c f.word index) = committed u c.ref f St.success r0 r1 [] := by
  have asked := (h.planned (.lookup [] [] 0 index (hMaxOf f.word) true)).requested
  rw [startLookup_of_zero empty (by rw [h.flight]; rfl), ← hr]
  rw [← hr] at asked
  exact asked.commitCmd_eq rfl (point _ _ word rfl) word (there.trans (by rw [asked.flight]; rfl))

/-- What the commit of a seq_open that looked nothing up adds: the sequence and its count (R110, R221). -/
theorem commitSeqOpen_of_zero {t : State} {c : CmdRef} {x : Slot} {g : Flight} {n h : Nat} (plan : g.plan = .lookup [] [] 0 (n + 1) h true) :
    let q := newSeq t c.part n (cModel g.word) (openHome (t.part c.part) []) 0 []
    commitSeqOpen t c x g = .done (setPlan (onCnt (putSeq t c.part n q) c.part fun k =>
      { k with lookups := if oNoAdopt g.word then k.lookups else k.lookups + 1 }) c .none) St.success (q.handleOf n) 0 [] := by
  simp [commitSeqOpen, plan]

theorem commitPrefixProbe_of_zero {t : State} {c : CmdRef} {x : Slot} {g : Flight} {h : Nat} (plan : g.plan = .lookup [] [] 0 0 h true) :
    commitPrefixProbe t c x g = .done (onCnt t c.part fun k => { k with lookups := k.lookups + 1 }) St.success 0 0 [] := by
  simp [commitPrefixProbe, plan]

/-! ### Their commits -/

/-- RETAIN set or cleared in entries of the directory (R117). -/
def retainAll (p : Nat) (set : Bool) (es : List (Nat × DirEntry)) (s : State) : State :=
  es.foldl (fun s e => s.onPart p fun x => { x with dir := Map.edit x.dir e.1 fun d => { d with retain := set } }) s

@[simp] theorem slots_retainAll (p : Nat) (set : Bool) (es : List (Nat × DirEntry)) (s : State) :
    ((retainAll p set es s).part p).slots = (s.part p).slots :=
  slots_foldl s p (fun s e => by rw [State.part_onPart]) es

theorem commitPrefixRetain_of_handle {t : State} {c : CmdRef} {x : Slot} {g : Flight} {q : Seq} {set : Bool} {es : List (Nat × DirEntry)}
    (handle : (t.part c.part).handle (cHandle g.word) = some q) (hset : set = !bit (field g.word 0x18 1) 0)
    (hes : es = (leadingEntries (t.part c.part) q (cWord14 g.word)).filter fun e => e.2.retain != set)
    (limit : set = true → retained (t.part c.part) + es.length ≤ Config.retainLimit) :
    commitPrefixRetain t c x g = .done (useSeq (retainAll c.part set es t) c.part (handleIndex (cHandle g.word))) St.success es.length 0 [] := by
  have within : ¬ (set = true ∧ Config.retainLimit < retained (t.part c.part) + es.length) := fun h => absurd (limit h.1) (by omega)
  simp only [commitPrefixRetain, handle, ← hset, ← hes]
  rw [if_neg (by simpa using within)]
  rfl

theorem commitOp_of_opcode {s : State} {c : CmdRef} {x : Slot} {f : Flight} (h : cOpcode f.word ≠ Op.prefixEvict) :
    commitOp s c x f = (Map.get opTable (cOpcode f.word) (refuseStart, refuseCommit)).2 s c x f := by
  simp [commitOp, isPrefixEvictSequence, isPrefixEvictModel, h]

theorem commitOp_seqOpen {s : State} {c : CmdRef} {x : Slot} {f : Flight} (h : cOpcode f.word = Op.seqOpen) :
    commitOp s c x f = commitSeqOpen s c x f := by
  rw [commitOp_of_opcode (by rw [h]; decide), h]
  rfl

theorem commitOp_prefixProbe {s : State} {c : CmdRef} {x : Slot} {f : Flight} (h : cOpcode f.word = Op.prefixProbe) :
    commitOp s c x f = commitPrefixProbe s c x f := by
  rw [commitOp_of_opcode (by rw [h]; decide), h]
  rfl

theorem commitOp_prefixRetain {s : State} {c : CmdRef} {x : Slot} {f : Flight} (h : cOpcode f.word = Op.prefixRetain) :
    commitOp s c x f = commitPrefixRetain s c x f := by
  rw [commitOp_of_opcode (by rw [h]; decide), h]
  rfl

/-- At the commit of a command that names one ACTIVE sequence the sequence stands as the start found it, and nothing is woken. -/
theorem rewake_requestedIn {s : State} {c : CmdStep} {h : Nat} {q : Seq} {g : Flight} (handle : (s.part c.ref.part).handle h = some q)
    (active : q.state = .active) (names : g.seqs = [handleIndex h]) :
    rewake (requestedIn (begun s c) c) c.ref g = requestedIn (begun s c) c ∧
      ((requestedIn (begun s c) c).part c.ref.part).handle h = some q := by
  have found := (part_requestedIn (fun x => x.handle h) (fun _ _ => rfl) s c).trans handle
  exact ⟨rewake_of_active names (Part.seq_of_handle found) active, found⟩

/-! ### The rows -/

theorem openCheck_begun {s : State} {c : CmdStep} {w : List Byte} (t : oT w = 0) (sets : oMaxSets w ≤ 4096)
    (inside : oTokPw w = true → oTokens w ≤ (s.part c.ref.part).sliceBytes)
    (model : Map.has (s.part c.ref.part).models (cModel w) = true) : openCheck (begun s c) c.ref.part c.bad w = none :=
  openCheck_of_zero t sets (fun h => Nat.le_trans (inside h) (Nat.le_of_eq (part_begun Part.sliceBytes (fun _ _ => rfl) s c).symm))
    ((part_begun (fun x => Map.has x.models (cModel w)) (fun _ _ => rfl) s c).trans model)

/-- The commands on the entries of a sequence's leading page sets check sequence and number alike, and ask for their commit (R114, R117). -/
theorem startLeading_requests {s : State} {c : CmdStep} {f : Flight} {q : Seq}
    (handle : (s.part c.ref.part).handle (cHandle f.word) = some q) (active : q.state = .active) (least : 1 ≤ cWord14 f.word)
    (most : cWord14 f.word ≤ 4096) (short : cWord14 f.word ≤ q.length / 256)
    (limit : cOpcode f.word = Op.prefixRetain → bit (field f.word 0x18 1) 0 = false →
      retained (s.part c.ref.part) + ((leadingEntries (s.part c.ref.part) q (cWord14 f.word)).filter fun e => !e.2.retain).length ≤ Config.retainLimit) :
    startLeading (begun s c) c (begunFlight s c f) = request (begun s c) c.ref := by
  have found := (part_begun (fun x => x.handle (cHandle f.word)) (fun _ _ => rfl) s c).trans handle
  have count := part_begun retained (fun _ _ => rfl) s c
  have entries := part_begun (fun x => leadingEntries x q (cWord14 f.word)) (fun _ _ => rfl) s c
  have inRange : ¬ (cWord14 f.word = 0 ∨ 4096 < cWord14 f.word) := by omega
  simp only [startLeading, begunFlight_word, found, wakeThen_of_active (Part.seq_of_handle found) active, count, entries]
  simp only [Bool.or_eq_true, decide_eq_true_eq, inRange, Nat.not_lt.2 short, if_false]
  refine if_neg ?_
  simp only [Bool.and_eq_true, decide_eq_true_eq, Bool.not_eq_true', not_and, Nat.not_lt]
  exact fun h => limit h.1 h.2

section Rows

variable {s : State} {c : CmdStep} {f : Flight} (R : Ready s c f)
include R

theorem needHot_begunFlight : needHot (begun s c) c.ref.part (begunFlight s c f) = takeHot (begun s c) c.ref.part := by
  have unparked : (begunFlight s c f).victim = none := by
    rw [Flight.victim, show (begunFlight s c f).stage = .fetched from R.fetched]
  rw [needHot, unparked, hotOr]

theorem seqOpen_looksUp (op : cOpcode f.word = Op.seqOpen) (check : openCheck (begun s c) c.ref.part c.bad f.word = none)
    (hot : takeHot (begun s c) c.ref.part = .free) {u : State} {fs : List Nat} {n : Nat}
    (hn : n = tableSlots (if oNoAdopt f.word then 0 else hMaxOf f.word))
    (tables : allocWithTables c.ref.part 0 n 0 none [] (begun s c) = .got u fs) :
    exec (.seqOpen c) s =
      .next (commitCmd c.ref (startLookup (u.onFlight c.ref fun f => { f with slots := n }) c f.word (freshIndex (u.part c.ref.part) + 1))) := by
  refine congrArg Host.Outcome.next (R.runCommand_go (by simpa using op) fun x => ?_)
  simp only [startSeqOpen, begunFlight_word, check, needHot_begunFlight R, hot, ← hn, tables]

theorem prefixProbe_looksUp (op : cOpcode f.word = Op.prefixProbe) (check : openCheck (begun s c) c.ref.part c.bad f.word = none) :
    exec (.prefixProbe c) s = .next (commitCmd c.ref (startLookup (begun s c) c f.word 0)) := by
  refine congrArg Host.Outcome.next (R.runCommand_go (by simpa using op) fun x => ?_)
  simp only [startPrefixProbe, begunFlight_word, check]

theorem prefixEvictModel_commits (op : cOpcode f.word = Op.prefixEvict) (mode : evictMode f.word = 0)
    (model : Map.has (s.part c.ref.part).models (evictModelNo f.word) = true) :
    exec (.prefixEvictModel c) s = .next (committed (evictModel (requestedIn (begun s c) c) c.ref.part (evictModelNo f.word)).1 c.ref f
      St.success ((s.part c.ref.part).dir.filter fun e => e.2.model = evictModelNo f.word).length 0 []) := by
  have form : isPrefixEvictModel f.word = true := by simp [isPrefixEvictModel, op, mode]
  have other : isPrefixEvictSequence f.word = false := by simp [isPrefixEvictSequence, mode]
  refine congrArg Host.Outcome.next (R.runCommand_request form (fun x => ?start) (fun x g word names => ?commit) ?slots)
  case start =>
    have has := (part_begun (fun x => Map.has x.models (evictModelNo f.word)) (fun _ _ => rfl) s c).trans model
    simp [startPrefixEvictModel, begunFlight_word, mode, has]
  case commit =>
    have asleep : wakes g.word = false := by
      unfold evictMode at mode
      rw [wakes, word, op, mode]
      rfl
    have dir := part_requestedIn Part.dir (fun _ _ => rfl) s c
    simp [rewake_of_not_wakes _ _ _ asleep, commitOp, other, word, form, commitPrefixEvictModel, evictModel, dir]
  case slots => exact slots_foldl _ _ (fun s i => slots_evictEntry s _ i) _

section OfSequence

variable {q : Seq} (handle : (s.part c.ref.part).handle (cHandle f.word) = some q) (active : q.state = .active)
  (least : 1 ≤ cWord14 f.word) (most : cWord14 f.word ≤ 4096)
include handle active least most

theorem prefixPublish_asks (op : cOpcode f.word = Op.prefixPublish) (closed : cWord14 f.word ≤ q.stepBase / 256)
    (inDram : segmentsOut ((begun s c).part c.ref.part) ((q.pt.take (cWord14 f.word)).map fun e => e.psn) = []) :
    exec (.prefixPublish c) s = .next (commitCmd c.ref (requestedIn (setPlan (begun s c) c.ref
      (.publish (publishRun (begun s c) c.ref.part (handleIndex (cHandle f.word)) (cWord14 f.word)).found)) c)) := by
  have found := (part_begun (fun x => x.handle (cHandle f.word)) (fun _ _ => rfl) s c).trans handle
  refine congrArg Host.Outcome.next (R.runCommand_go (by simpa using op) fun x => ?_)
  have inRange : ¬ (cWord14 f.word = 0 ∨ 4096 < cWord14 f.word) := by omega
  simp only [startPrefixPublish, begunFlight_word, found, wakeThen_of_active (Part.seq_of_handle found) active, waitSegments_eq_none inDram, R.now]
  simp [inRange, Nat.not_lt.2 closed, request, requestedIn]

theorem prefixRetain_commits (op : cOpcode f.word = Op.prefixRetain) (short : cWord14 f.word ≤ q.length / 256) {set : Bool}
    (hset : set = !bit (field f.word 0x18 1) 0)
    (limit : set = true →
      retained (s.part c.ref.part) + ((leadingEntries (s.part c.ref.part) q (cWord14 f.word)).filter fun e => !e.2.retain).length ≤ Config.retainLimit) :
    let es := (leadingEntries (s.part c.ref.part) q (cWord14 f.word)).filter fun e => e.2.retain != set
    exec (.prefixRetain c) s = .next (committed (useSeq (retainAll c.ref.part set es (requestedIn (begun s c) c)) c.ref.part
      (handleIndex (cHandle f.word))) c.ref f St.success es.length 0 []) := by
  refine congrArg Host.Outcome.next (R.runCommand_request (by simpa using op) (fun x => ?start) (fun x g word names => ?commit) ?slots)
  case start => exact startLeading_requests handle active least most short fun _ h => limit (by rw [hset, h]; rfl)
  case commit =>
    have count := part_requestedIn retained (fun _ _ => rfl) s c
    have entries := part_requestedIn (fun x => leadingEntries x q (cWord14 f.word)) (fun _ _ => rfl) s c
    have name : dedup (namesOf s c.ref.part f.word) = [handleIndex (cHandle f.word)] := by
      rw [namesOf, op]
      rfl
    obtain ⟨asleep, found⟩ := rewake_requestedIn handle active (names.trans name)
    rw [asleep, commitOp_prefixRetain (by rw [word, op]), ← word]
    refine commitPrefixRetain_of_handle (by rw [word]; exact found) (by rw [word]; exact hset) (by rw [word, entries]) fun h => ?_
    rw [count]
    subst h
    simpa [word] using limit rfl
  case slots => rw [slots_useSeq, slots_retainAll]

theorem prefixEvictSequence_commits (op : cOpcode f.word = Op.prefixEvict) (mode : evictMode f.word = 1)
    (short : cWord14 f.word ≤ q.length / 256) :
    let es := leadingEntries (s.part c.ref.part) q (cWord14 f.word)
    exec (.prefixEvictSequence c) s = .next (committed (useSeq (es.foldl (fun s e => evictEntry s c.ref.part e.1) (requestedIn (begun s c) c))
      c.ref.part (handleIndex (cHandle f.word))) c.ref f St.success es.length 0 []) := by
  have form : isPrefixEvictSequence f.word = true := by simp [isPrefixEvictSequence, op, mode]
  refine congrArg Host.Outcome.next (R.runCommand_request form (fun x => ?start) (fun x g word names => ?commit) ?slots)
  case start =>
    have start := startLeading_requests handle active least most short fun h => absurd (op.symm.trans h) (by decide)
    simpa [startPrefixEvictSequence, begunFlight_word, mode] using start
  case commit =>
    have entries := part_requestedIn (fun x => leadingEntries x q (cWord14 f.word)) (fun _ _ => rfl) s c
    have name : dedup (namesOf s c.ref.part f.word) = [handleIndex (cHandle f.word)] := by
      unfold evictMode at mode
      rw [namesOf, op, mode]
      rfl
    obtain ⟨asleep, found⟩ := rewake_requestedIn handle active (names.trans name)
    simp only [asleep, commitOp, word, form, if_true, commitPrefixEvictSequence, found, entries]
  case slots => exact (slots_useSeq _ _ _).trans (slots_foldl _ _ (fun s e => slots_evictEntry s _ _) _)

end OfSequence

theorem prefixProbe_of_zero (op : cOpcode f.word = Op.prefixProbe) (zero : oT f.word = 0)
    (check : openCheck (begun s c) c.ref.part c.bad f.word = none) :
    exec (.prefixProbe c) s = .next (committed (onCnt (requestedIn (setPlan (begun s c) c.ref (.lookup [] [] 0 0 (hMaxOf f.word) true)) c) c.ref.part
      fun k => { k with lookups := k.lookups + 1 }) c.ref f St.success 0 0 []) := by
  rw [prefixProbe_looksUp R op check]
  refine congrArg Host.Outcome.next (R.cleared.commitCmd_startLookup (f := f) rfl (hMaxOf_of_zero zero) rfl (fun x g word plan => ?point) ?slots)
  case point =>
    rw [rewake_of_not_wakes _ _ _ (wakes_of_looksUp (by rw [word]; exact .inr op)), commitOp_prefixProbe (by rw [word, op])]
    exact commitPrefixProbe_of_zero plan
  case slots => rw [State.flight_of_slots c.ref (slots_onCnt _ _ _)]

theorem seqOpen_of_zero (op : cOpcode f.word = Op.seqOpen) (zero : oT f.word = 0)
    (check : openCheck (begun s c) c.ref.part c.bad f.word = none) (hot : takeHot (begun s c) c.ref.part = .free) {u : State} {fs : List Nat}
    (tables : allocWithTables c.ref.part 0 (tableSlots 0) 0 none [] (begun s c) = .got u fs)
    (slot : u.slot c.ref.part c.ref.slot = (begun s c).slot c.ref.part c.ref.slot)
    (room : (u.eq c.ref.part ((begun s c).slot c.ref.part c.ref.slot).eq).stuck = false) {n : Nat} (hn : n = freshIndex (u.part c.ref.part))
    {t : State} (ht : t = requestedIn (setPlan (u.onFlight c.ref fun f => { f with slots := tableSlots 0 }) c.ref
      (.lookup [] [] 0 (n + 1) (hMaxOf f.word) true)) c) :
    let q := newSeq t c.ref.part n (cModel f.word) (openHome (t.part c.ref.part) []) 0 []
    exec (.seqOpen c) s = .next (committed (setPlan (onCnt (putSeq t c.ref.part n q) c.ref.part fun k =>
      { k with lookups := if oNoAdopt f.word then k.lookups else k.lookups + 1 }) c.ref .none) c.ref f St.success (q.handleOf n) 0 []) := by
  have empty := hMaxOf_of_zero zero
  have cleared := (R.cleared.of_slot slot room).onFlight (k := fun f => { f with slots := tableSlots 0 }) (fun _ => rfl) fun _ => rfl
  rw [seqOpen_looksUp R op check hot (by simp [empty]) tables, ← hn]
  refine congrArg Host.Outcome.next (cleared.commitCmd_startLookup (f := f) rfl empty ht (fun x g word plan => ?point) ?slots)
  case point =>
    rw [rewake_of_not_wakes _ _ _ (wakes_of_looksUp (by rw [word]; exact .inl op)), commitOp_seqOpen (by rw [word, op]), ← word]
    exact commitSeqOpen_of_zero plan
  case slots =>
    rw [flight_setPlan, Option.isSome_map, State.flight_of_slots c.ref ((slots_onCnt _ _ _).trans (slots_putSeq _ _ _ _))]

end Rows

/-- Settles O25: each row by its own lemma, from what its start does in a state that is Ready and from its commit point. -/
theorem prefixCommands : Obligations.PrefixCommands := by
  unfold Obligations.PrefixCommands
  refine ⟨fun s c f R => ⟨?_, ?_, ?_, fun q handle active least most => ⟨?_, ?_, ?_⟩⟩, fun s c f R => ⟨?_, ?_⟩⟩
  · exact fun op check hot u fs tables => seqOpen_looksUp R op check hot rfl tables
  · exact prefixProbe_looksUp R
  · exact prefixEvictModel_commits R
  · exact prefixPublish_asks R handle active least most
  · exact fun op short limit => prefixRetain_commits R handle active least most op short rfl limit
  · exact prefixEvictSequence_commits R handle active least most
  · intro op zero sets inside model hot u fs tables slot room _
    exact seqOpen_of_zero R op zero (openCheck_begun zero sets inside model) hot tables slot room rfl rfl
  · intro op zero sets inside model
    exact prefixProbe_of_zero R op zero (openCheck_begun zero sets inside model)

end Sys2Proof.Machine
end

section
/-! THEOREM. What reset leaves (R157, R254, R306, R350, R357, R362, R438, R452, R467). -/

namespace Sys2Proof.Machine

open Sys2Proof

/-! ### The sparse maps are empty after reset, so each of their entries reads its default -/

theorem port_reset (n : Nat) : State.reset.port n = Port.reset := rfl
theorem quadState_reset (q : Nat) : quadState State.reset q = .run := rfl
theorem quadPoint_reset (q : Nat) : quadPoint State.reset q = 24 := rfl

/-- With no daily record there is no prediction. -/
theorem eolDays_nil : eolDays [] = 0xFFFF := rfl

/-- Settles O5: each block of registers by its reset value, and the ports and quadrants, which no map of the reset state lists, by their defaults. -/
theorem resetState : Obligations.ResetState := by
  unfold Obligations.ResetState
  refine ⟨rfl, rfl, rfl, rfl, rfl, ?sched, ?flash, ?fabric, ?eventQueue, ?oxsis, ?power, ?health, ?placement, ?egress, ?ingress⟩
  case fabric => exact ⟨rfl, rfl, rfl, rfl, fun n => by rw [port_reset]; rfl⟩
  case power => exact ⟨rfl, quadState_reset, rfl, rfl, quadPoint_reset, rfl⟩
  case health => exact ⟨rfl, eolDays_nil⟩
  case eventQueue => exact ⟨rfl, rfl, rfl⟩
  case flash => exact ⟨rfl, rfl⟩
  case placement => exact ⟨rfl, rfl, rfl, rfl⟩
  case sched => rfl
  case oxsis => rfl
  case egress => rfl
  case ingress => rfl

end Sys2Proof.Machine
end

section
/-! THEOREM. The end of a host read: its completion, its timeout, and its release by the ingress policer (R157, R352, R369, R371, R374). -/

namespace Sys2Proof.Machine

open Sys2Proof

section

variable {s : State} {id : Nat} {r : ReadReq} (read : Map.look s.reads id = some r)
include read

/-- A read that is not issued yet, or that waits while the host is away, goes on waiting (R369, R377). -/
theorem hostReadCompletion_waits (away : r.red = true ∨ s.hostUp = false) (res : ReadResult) : hostReadCompletion id res s = s := by
  have waits : (r.red || !s.hostUp) = true := by simpa using away
  simp only [hostReadCompletion, read, waits, if_true]

section

variable (issued : r.red = false) (up : s.hostUp = true)
include issued up

/-- The first failure of a read whose function is usable: the read is tried once more (R371). -/
theorem hostReadCompletion_retries {res : ReadResult} (failed : res ≠ .ok) (usable : s.fnUsable r.part = true) (fresh : r.retried = false) :
    hostReadCompletion id res s = { s with reads := Map.put s.reads id { r with retried := true } } := by
  simp [hostReadCompletion, read, issued, up, failed, usable, fresh]

variable {res : ReadResult} {ok : Bool} (hok : ok = (decide (res = .ok) && s.fnUsable r.part))
  (ends : ok = true ∨ s.fnUsable r.part = false ∨ r.retried = true)
include hok ends

/-- Any other completion ends a read of commands: with its data they enter the window, without it they end rejected (R371). -/
theorem hostReadCompletion_fetch {i : Nat} {l : List Nat} (what : r.what = .fetch i l) :
    let t : State := { s with reads := Map.del s.reads id }
    hostReadCompletion id res s = if ok then deliverFetch t r.part i l else failFetch t r.part i l := by
  have ended : (!ok && s.fnUsable r.part && !r.retried) = false := by rcases ends with h | h | h <;> simp [h]
  simp only [hostReadCompletion, read, issued, up, ← hok, ended, what, Bool.not_true, Bool.or_self, Bool.false_eq_true, if_false]

/-- The same of a read of anything else: what waits for it goes on, or fails (R157). -/
theorem hostReadCompletion_other (what : ∀ i l, r.what ≠ .fetch i l) :
    hostReadCompletion id res s = finishRead { s with reads := Map.del s.reads id } (hostCode id) r ok := by
  have ended : (!ok && s.fnUsable r.part && !r.retried) = false := by rcases ends with h | h | h <;> simp [h]
  simp only [hostReadCompletion, read, issued, up, ← hok, ended, Bool.not_true, Bool.or_self, Bool.false_eq_true, if_false]

end

/-- A red read meets the meter again after the bucket gained tokens (R369). -/
theorem ingressRelease_meters (red : r.red = true) (ns : Nat) {t : State} (ht : t = s.onPart r.part fun x => { x with ingress := x.ingress.refill ns })
    {m : Colour × State} (hm : m = meterRead t r.part r.bytes (match r.what with
      | .fetch i _ => (t.slot r.part i).snare
      | _ => false)) :
    ingressRelease r.part id ns s = if m.1 = .red then t else { m.2 with reads := Map.put m.2.reads id { r with red := false } } := by
  subst ht hm
  have meters : (decide (r.part ≠ r.part) || !r.red) = false := by simp [red]
  simp only [ingressRelease, read]
  exact if_neg (Bool.eq_false_iff.1 meters)

end

/-- A read that failed, or that timed out, is one and the same to the completion. -/
theorem exec_readFailed {s : State} {id : Nat} {row : Instr} (h : row = .completionTimeout id ∨ row = .hostReadCompletion id .error) :
    exec row s = .next (hostReadCompletion id .error s) := by
  rcases h with rfl | rfl <;> rfl

/-- A completion with any result, or a timeout. -/
theorem exec_readEnded {id : Nat} {row : Instr} (h : row = .completionTimeout id ∨ ∃ res, row = .hostReadCompletion id res) :
    ∃ res, ∀ s : State, exec row s = .next (hostReadCompletion id res s) := by
  rcases h with rfl | ⟨res, rfl⟩
  · exact ⟨.error, fun _ => rfl⟩
  · exact ⟨res, fun _ => rfl⟩

/-- Settles O42: a completion ends its read, has it tried again, or leaves it waiting. -/
theorem hostReadsEnd : Obligations.HostReadsEnd := by
  unfold Obligations.HostReadsEnd
  refine ⟨fun s id r read issued up usable => ⟨fun i l what => ?_, fun what => ?_, fun row failed =>
      ⟨fun fresh => ?_, fun last i l what => ?_, fun last what => ?_⟩⟩,
    fun s id r read issued up lost => ?_, fun s id r read away => ⟨?_, fun res => ?_⟩, fun s p id ns r read own red => ?_⟩
  · exact congrArg _ (hostReadCompletion_fetch read issued up (by rw [usable]; rfl) (.inl rfl) what)
  · exact congrArg _ (hostReadCompletion_other read issued up (by rw [usable]; rfl) (.inl rfl) what)
  · rw [exec_readFailed failed, hostReadCompletion_retries read issued up (by decide) usable fresh]
  · rw [exec_readFailed failed, hostReadCompletion_fetch read issued up rfl (.inr (.inr last)) what]
    rfl
  · rw [exec_readFailed failed, hostReadCompletion_other read issued up rfl (.inr (.inr last)) what]
    rfl
  · intro t row ended
    obtain ⟨res, hrow⟩ := exec_readEnded ended
    have nothing : false = (decide (res = .ok) && s.fnUsable r.part) := by rw [lost, Bool.and_false]
    refine ⟨fun i l what => ?_, fun what => ?_⟩
    · rw [hrow, hostReadCompletion_fetch read issued up nothing (.inr (.inl lost)) what]
      rfl
    · rw [hrow, hostReadCompletion_other read issued up nothing (.inr (.inl lost)) what]
  · exact congrArg _ (hostReadCompletion_waits read away .error)
  · exact congrArg _ (hostReadCompletion_waits read away res)
  · subst own
    have metered := ingressRelease_meters read red ns rfl rfl
    exact ⟨fun h => congrArg _ (metered.trans (if_pos h)), fun h => congrArg _ (metered.trans (if_neg h))⟩

end Sys2Proof.Machine
end

section
/-! THEOREM. The commands on host regions, and the read of stored keys and values (R154, R155, R224, R226). -/

namespace Sys2Proof.Machine

open Sys2Proof

/-! ### Their starts and commit points -/

theorem startHostRegionAdd_requests {s : State} {c : CmdStep} {x : Slot} {f : Flight} (base : cBase f.word % 65536 = 0)
    (whole : cBytes f.word % 2048 = 0) (least : 67584 ≤ cBytes f.word) (most : cBytes f.word ≤ 2 ^ 40)
    (fresh : Map.has (s.part c.ref.part).regions (cRegion f.word) = false) : startHostRegionAdd s c x f = request s c.ref := by
  have taken : (decide (cBase f.word % 65536 ≠ 0) || decide (cBytes f.word % 2048 ≠ 0) || decide (cBytes f.word < 67584) ||
      decide (2 ^ 40 < cBytes f.word)) = false := by simpa [base, whole, least] using most
  simp only [startHostRegionAdd, taken, fresh, Bool.false_eq_true, if_false]

theorem commitOp_hostRegionAdd {s : State} {c : CmdRef} {x : Slot} {f : Flight} (op : cOpcode f.word = Op.hostRegionAdd)
    (fresh : Map.has (s.part c.part).regions (cRegion f.word) = false) :
    let r : Region := ⟨cBase f.word, cBytes f.word, false, []⟩
    commitOp s c x f = .done (s.onPart c.part fun x => { x with regions := Map.put x.regions (cRegion f.word) r }) St.success r.frames 0 [] := by
  have row : commitOp s c x f = commitHostRegionAdd s c x f := by
    rw [commitOp_of_opcode (by rw [op]; decide), op]
    rfl
  simp [row, commitHostRegionAdd, fresh]

/-- A region marked as being removed takes no new frames, and every object in it begins to move (R155). -/
def markRemoving (s : State) (p r : Nat) : State :=
  s.onPart p fun x => { x with regions := Map.edit x.regions r fun g => { g with removing := true } }

theorem startHostRegionRemove_requests {s : State} {c : CmdStep} {x : Slot} {f : Flight} {g : Region}
    (region : Map.look (s.part c.ref.part).regions (cRegion f.word) = some g) (stays : g.removing = false)
    (room : sum (g.alloc.map fun e => e.2.frames) ≤ removalRoom s c.ref.part) :
    startHostRegionRemove s c x f = .go (requestedIn (setPlan (evacuate (markRemoving s c.ref.part (cRegion f.word)) c.ref.part (cRegion f.word) [] c.ref)
      c.ref (.region 0 [])) c) := by
  simp only [startHostRegionRemove, region, stays, Nat.not_lt.2 room, Bool.false_eq_true, if_false]
  rfl

/-- The kind of the location at which an object of a sequence is read. -/
def objKind (p : Nat) (s : State) (o : MoveObj) : LocKind :=
  match o with
  | .page psn l => match (s.part p).set psn with
    | some d => (Map.get d.loc l Loc.none).kind
    | none => .page
  | _ => .staging

/-- The objects of a read of keys and values, delivered through the page cache. -/
def touchObjects (p : Nat) (m : Model) (os : List (MoveObj × Nat × Nat)) (s : State) : State :=
  os.foldl (fun s o => touchObject s p o.1 (blockRanges m (objKind p s o.1) 0 m.kvHeads o.2.1 o.2.2)) s

/-- The pages read, with their sets pinned, are what the command delivers at its commit (R224). -/
theorem kvReadPages_requests {s v : State} {c : CmdStep} {f : Flight} {i layer fmt lo n : Nat} {q : Seq} {m : Model}
    (seq : (s.part c.ref.part).seq i = some q) (hm : m = (s.part c.ref.part).model q.model)
    (inDram : segmentsOut (s.part c.ref.part) (setsOf q layer lo n) = [])
    (read : cmdReads (pinFor s c.ref (setsOf q layer lo n)) c.ref.part c f.word q.homeQ ((kvObjects q i layer lo n).map fun o => o.1) = .done v) :
    let v := touchObjects c.ref.part m (kvObjects q i layer lo n) v
    kvReadPages s c f i layer fmt lo n = .go (requestedIn (setPlan v c.ref (.bytes (kvBytes (v.part c.ref.part) m q layer fmt lo n))) c) := by
  simp only [kvReadPages, seq, waitSegments_eq_none inDram, read, ← hm]
  rfl

theorem startKvRead_reads {s : State} {c : CmdStep} {x : Slot} {f : Flight} {q : Seq} (handle : (s.part c.ref.part).handle (cHandle f.word) = some q)
    (active : q.state = .active) (inModel : field f.word 0x14 1 < ((s.part c.ref.part).model q.model).layers) (format : field f.word 0x15 1 % 16 ≤ 3)
    (least : 1 ≤ field f.word 0x1C 4) (most : field f.word 0x1C 4 ≤ 16384)
    (stored : field f.word 0x18 4 + field f.word 0x1C 4 ≤ q.lenOf (field f.word 0x14 1)) (aligned : field f.word 0x20 8 % 64 = 0) :
    startKvRead s c x f = kvReadPages s c f (handleIndex (cHandle f.word)) (field f.word 0x14 1) (field f.word 0x15 1 % 16) (field f.word 0x18 4)
      (field f.word 0x1C 4) := by
  have counted : ¬ (field f.word 0x1C 4 = 0 ∨ 16384 < field f.word 0x1C 4 ∨ q.lenOf (field f.word 0x14 1) < field f.word 0x18 4 + field f.word 0x1C 4) := by
    omega
  simp only [startKvRead, handle, wakeThen_of_active (Part.seq_of_handle handle) active, Nat.not_le.2 inModel, Nat.not_lt.2 format, aligned]
  simp [counted, or_assoc]

/-! ### The rows -/

section Rows

variable {s : State} {c : CmdStep} {f : Flight} (R : Ready s c f)
include R

theorem hostRegionAdd_commits (op : cOpcode f.word = Op.hostRegionAdd) (base : cBase f.word % 65536 = 0) (whole : cBytes f.word % 2048 = 0)
    (least : 67584 ≤ cBytes f.word) (most : cBytes f.word ≤ 2 ^ 40) (fresh : Map.has (s.part c.ref.part).regions (cRegion f.word) = false) :
    let r : Region := ⟨cBase f.word, cBytes f.word, false, []⟩
    exec (.hostRegionAdd c) s = .next (committed ((requestedIn (begun s c) c).onPart c.ref.part fun x =>
      { x with regions := Map.put x.regions (cRegion f.word) r }) c.ref f St.success r.frames 0 []) := by
  refine congrArg Host.Outcome.next (R.runCommand_request (by simpa using op) (fun x => ?start) (fun x g word names => ?commit) ?slots)
  case start =>
    have still := (part_begun (fun x => Map.has x.regions (cRegion f.word)) (fun _ _ => rfl) s c).trans fresh
    exact startHostRegionAdd_requests base whole least most still
  case commit =>
    have still := (part_requestedIn (fun x => Map.has x.regions (cRegion f.word)) (fun _ _ => rfl) s c).trans fresh
    have asleep : wakes g.word = false := by
      rw [wakes, word, op]
      rfl
    rw [rewake_of_not_wakes _ _ _ asleep, commitOp_hostRegionAdd (by rw [word, op]) (by rw [word]; exact still), word]
  case slots => rw [State.part_onPart]

theorem hostRegionRemove_asks (op : cOpcode f.word = Op.hostRegionRemove) {g : Region}
    (region : Map.look (s.part c.ref.part).regions (cRegion f.word) = some g) (stays : g.removing = false)
    (room : sum (g.alloc.map fun e => e.2.frames) ≤ removalRoom (begun s c) c.ref.part) :
    exec (.hostRegionRemove c) s = .next (commitCmd c.ref (requestedIn (setPlan (evacuate (markRemoving (begun s c) c.ref.part (cRegion f.word))
      c.ref.part (cRegion f.word) [] c.ref) c.ref (.region 0 [])) c)) := by
  have still := (part_begun (fun x => Map.look x.regions (cRegion f.word)) (fun _ _ => rfl) s c).trans region
  exact congrArg Host.Outcome.next (R.runCommand_go (by simpa using op) fun x => startHostRegionRemove_requests still stays room)

theorem kvRead_asks (op : cOpcode f.word = Op.kvRead) {q : Seq} (handle : (s.part c.ref.part).handle (cHandle f.word) = some q)
    (active : q.state = .active) :
    let m := (s.part c.ref.part).model q.model
    let layer := field f.word 0x14 1
    let fmt := field f.word 0x15 1 % 16
    let lo := field f.word 0x18 4
    let n := field f.word 0x1C 4
    let sets := setsOf q layer lo n
    let os := kvObjects q (handleIndex (cHandle f.word)) layer lo n
    layer < m.layers → fmt ≤ 3 → 1 ≤ n → n ≤ 16384 → lo + n ≤ q.lenOf layer → field f.word 0x20 8 % 64 = 0 →
    segmentsOut ((begun s c).part c.ref.part) sets = [] →
    ∀ v, cmdReads (pinFor (begun s c) c.ref sets) c.ref.part c f.word q.homeQ (os.map fun o => o.1) = .done v →
    let v := touchObjects c.ref.part m os v
    exec (.kvRead c) s = .next (commitCmd c.ref (requestedIn (setPlan v c.ref (.bytes (kvBytes (v.part c.ref.part) m q layer fmt lo n))) c)) := by
  intro m layer fmt lo n sets os inModel format least most stored aligned inDram v read
  have found := (part_begun (fun x => x.handle (cHandle f.word)) (fun _ _ => rfl) s c).trans handle
  have model : (s.part c.ref.part).model q.model = _ := (part_begun (fun x => x.model q.model) (fun _ _ => rfl) s c).symm
  have reads (x : Slot) := startKvRead_reads (x := x) (f := begunFlight s c f) found active (model ▸ inModel) format least most stored aligned
  exact congrArg Host.Outcome.next (R.runCommand_go (by simpa using op) fun x =>
    (reads x).trans (kvReadPages_requests (Part.seq_of_handle found) model inDram read))

end Rows

/-- Settles O26: each row by its own lemma. -/
theorem regionAndReadCommands : Obligations.RegionAndReadCommands := by
  unfold Obligations.RegionAndReadCommands
  refine fun s c f R => ⟨?_, ?_, ?_⟩
  · exact hostRegionAdd_commits R
  · exact fun op g region stays room => hostRegionRemove_asks R op region stays room
  · exact fun op q handle active => kvRead_asks R op handle active

end Sys2Proof.Machine
end

section
/-! SUPPORT. The sweep of the directory (R115): the release of page sets keeps the directory, the registers and the sweep's own count, an
eviction takes one entry out, and the sweep of one partition is confined to it. -/

namespace Sys2Proof

/-! ### Keys deleted one after another -/

theorem Map.del_of_look_none {α : Type} {m : Map α} {k : Nat} (h : Map.look m k = none) : Map.del m k = m := by
  induction m with
  | nil => rfl
  | cons e r ih =>
    by_cases hk : e.1 = k
    · simp [Map.look, hk] at h
    · have rest : Map.look r k = none := by simpa [Map.look, hk] using h
      have kept := ih rest
      simp only [Map.del] at kept
      simp [Map.del, hk, kept]

/-- What is left after some keys are deleted had none of them. -/
theorem Map.mem_foldl_del {α : Type} (l : List Nat) {m : Map α} {e : Nat × α} (h : e ∈ l.foldl Map.del m) : e ∈ m ∧ e.1 ∉ l := by
  induction l generalizing m with
  | nil => exact ⟨h, by simp⟩
  | cons k l ih =>
    obtain ⟨there, other⟩ := ih h
    obtain ⟨before, ne⟩ := List.mem_filter.1 there
    have apart : e.1 ≠ k := by simpa using ne
    exact ⟨before, by simp [apart, other]⟩

end Sys2Proof

namespace Sys2Proof.Machine

open Sys2Proof

/-! ### What keeps the directory -/

/-- From s to t the directory and the registers of partition p, and the count of the directory sweep, are kept. -/
structure KeepsDir (p : Nat) (s t : State) : Prop where
  sweep : t.dirSweep = s.dirSweep
  dir : (t.part p).dir = (s.part p).dir
  regs : (t.part p).regs = (s.part p).regs

namespace KeepsDir

variable {p : Nat} {b s t : State}

theorem refl (p : Nat) (s : State) : KeepsDir p s s := ⟨rfl, rfl, rfl⟩

theorem trans (h : KeepsDir p b s) (k : KeepsDir p s t) : KeepsDir p b t :=
  ⟨k.sweep.trans h.sweep, k.dir.trans h.dir, k.regs.trans h.regs⟩

theorem onPart (h : KeepsDir p b s) {f : Part → Part} (hd : ∀ x, (f x).dir = x.dir := by intro _; rfl)
    (hr : ∀ x, (f x).regs = x.regs := by intro _; rfl) : KeepsDir p b (s.onPart p f) :=
  h.trans ⟨rfl, by rw [State.part_onPart, hd], by rw [State.part_onPart, hr]⟩

/-- A change of other fields, such as the page caches or the flash. -/
theorem of_eq (h : KeepsDir p b s) (h1 : t.parts = s.parts := by rfl) (h2 : t.dirSweep = s.dirSweep := by rfl) : KeepsDir p b t :=
  have same := State.part_of_parts s t h1 p
  h.trans ⟨h2, by rw [same], by rw [same]⟩

theorem onSeq (h : KeepsDir p b s) (i : Nat) (f : Seq → Seq) : KeepsDir p b (s.onSeq p i f) := h.onPart
theorem onSet (h : KeepsDir p b s) (n : Nat) (f : PageSet → PageSet) : KeepsDir p b (s.onSet p n f) := h.onPart
theorem onFlash (h : KeepsDir p b s) (f : Flash → Flash) : KeepsDir p b (s.onFlash f) := h.of_eq

theorem foldl {β : Type} {g : State → β → State} (h : KeepsDir p b s) (l : List β) (hg : ∀ u e, KeepsDir p b u → KeepsDir p b (g u e)) :
    KeepsDir p b (l.foldl g s) := foldl_keeps (KeepsDir p b) g hg l s h

end KeepsDir

variable {p : Nat} {b s : State}

theorem freeObject_keepsDir (h : KeepsDir p b s) (frame : Nat) : KeepsDir p b (freeObject s p frame) := by
  unfold freeObject dropLines t1Write
  exact .onPart (.onPart h.of_eq)

theorem trimTables_keepsDir (h : KeepsDir p b s) : KeepsDir p b (trimTables s p) := by
  unfold trimTables
  exact .onPart (h.foldl _ fun _ _ hu => freeObject_keepsDir hu _)

theorem freeLoc_keepsDir (h : KeepsDir p b s) (l : Loc) : KeepsDir p b (freeLoc s p l) := by
  unfold freeLoc
  split
  · exact h
  · split
    · exact freeObject_keepsDir h _
    · exact h.onPart
    · unfold discardFlash
      exact h.onPart

theorem releaseDest_keepsDir (h : KeepsDir p b s) (m : Move) : KeepsDir p b (releaseDest s p m) := by
  unfold releaseDest
  split
  · exact h
  · split
    · exact h.onPart.onFlash _
    · exact freeLoc_keepsDir h _

theorem abandonMove_keepsDir (h : KeepsDir p b s) (id : Nat) : KeepsDir p b (abandonMove s p id) := by
  unfold abandonMove
  split
  · exact h
  · refine (releaseDest_keepsDir h _).onPart (fun x => ?_) (fun x => ?_) <;> dsimp only <;> split <;> rfl

theorem abandonMoves_keepsDir (h : KeepsDir p b s) (t : Move → Bool) : KeepsDir p b (abandonMoves s p t) :=
  h.foldl _ fun _ _ hu => abandonMove_keepsDir hu _

theorem lowerSpec_keepsDir (h : KeepsDir p b s) (t : Tent) : KeepsDir p b (lowerSpec s p t) := by
  unfold lowerSpec
  split
  · exact h.onSeq _ _
  · exact h

theorem bareSegment_keepsDir (h : KeepsDir p b s) (n : Nat) : KeepsDir p b (bareSegment s p n) := by
  unfold bareSegment
  split
  · exact h
  · split
    · exact h
    · exact (freeLoc_keepsDir (abandonMoves_keepsDir h _) _).onPart

theorem releaseSet_keepsDir (h : KeepsDir p b s) (psn : Nat) : KeepsDir p b (releaseSet s p psn) := by
  unfold releaseSet
  split
  · exact h
  next d _ =>
    refine trimTables_keepsDir (bareSegment_keepsDir (.onPart ?_) _)
    refine .foldl (.foldl (.foldl (abandonMoves_keepsDir h _) _ ?tents) _ ?old) _ ?homes
    case tents => exact fun _ _ hu => freeObject_keepsDir (lowerSpec_keepsDir hu _) _
    case old => exact fun _ _ hu => freeLoc_keepsDir hu _
    case homes => exact fun _ _ hu => freeLoc_keepsDir hu _

theorem maybeRelease_keepsDir (h : KeepsDir p b s) (psn : Nat) : KeepsDir p b (maybeRelease s p psn) := by
  unfold maybeRelease
  split
  · exact h
  · split
    · exact h
    · split
      · exact releaseSet_keepsDir h psn
      · have marked := abandonMoves_keepsDir (h.onSet psn fun d => { d with releasing := true }) fun m => m.touches psn
        dsimp only
        split
        · exact marked
        · split
          · exact releaseSet_keepsDir marked psn
          · exact marked

/-! ### The eviction of an entry -/

/-- The entry goes, and with it nothing else of the directory (R114). -/
theorem dir_evictEntry (s : State) (p i : Nat) : ((evictEntry s p i).part p).dir = Map.del (s.part p).dir i := by
  unfold evictEntry
  split
  next gone => exact (Map.del_of_look_none gone).symm
  · rw [(maybeRelease_keepsDir (.refl p _) _).dir, State.part_onSet, Part.onSet_dir, State.part_onPart]

theorem dirSweep_evictEntry (s : State) (p i : Nat) : (evictEntry s p i).dirSweep = s.dirSweep := by
  unfold evictEntry
  split
  · rfl
  · exact (maybeRelease_keepsDir (.refl p _) _).sweep

theorem evictEntry_confined (h : ConfinedTo p b s) (i : Nat) : ConfinedTo p b (evictEntry s p i) := by
  unfold evictEntry
  split
  · exact h
  · exact maybeRelease_confined (.onSet (h.onPart _) _ _) _

theorem dir_foldl_evictEntry (l : List Nat) (s : State) (p : Nat) :
    ((l.foldl (fun s i => evictEntry s p i) s).part p).dir = l.foldl Map.del (s.part p).dir := by
  induction l generalizing s with
  | nil => rfl
  | cons i l ih => rw [List.foldl_cons, List.foldl_cons, ih, dir_evictEntry]

/-! ### The sweep of the partitions -/

theorem sweepPart_confined (h : ConfinedTo p b s) (n : Nat) : ConfinedTo p b (sweepPart n s p) :=
  .ite (h.onPart _) (.foldl (h.onPart _) _ fun _ _ _ hu => evictEntry_confined hu _)

theorem dirSweep_sweepPart (n : Nat) (s : State) (p : Nat) : (sweepPart n s p).dirSweep = s.dirSweep := by
  unfold sweepPart
  dsimp only
  split
  · rfl
  · exact foldl_same State.dirSweep _ (fun s i => dirSweep_evictEntry s p i) _ _

/-- Without an age limit the entries only grow older. -/
theorem sweepPart_of_no_limit (n : Nat) (h : (s.part p).regs.maxAge = 0) : (sweepPart n s p).part p = ageDirectory n (s.part p) := by
  have limit : (((s.onPart p (ageDirectory n)).part p).regs).maxAge = 0 := by rw [State.part_onPart]; exact h
  rw [sweepPart, if_pos limit, State.part_onPart]

/-- With a limit no entry that it is for reaches it (R115). -/
theorem dir_sweepPart (n : Nat) (limit : (s.part p).regs.maxAge ≠ 0) {e : Nat × DirEntry} (he : e ∈ ((sweepPart n s p).part p).dir) :
    e.2.held = true ∨ e.2.retain = true ∨ e.2.age < (s.part p).regs.maxAge := by
  have aged : (s.onPart p (ageDirectory n)).part p = ageDirectory n (s.part p) := State.part_onPart s p _
  have still : (ageDirectory n (s.part p)).regs = (s.part p).regs := rfl
  simp only [sweepPart, aged, still, limit, if_false, dir_foldl_evictEntry] at he
  obtain ⟨there, stays⟩ := Map.mem_foldl_del _ he
  have spared : (!e.2.held && !e.2.retain && decide ((s.part p).regs.maxAge ≤ e.2.age)) = false :=
    Bool.eq_false_iff.2 fun due => stays (List.mem_map_of_mem (List.mem_filter.2 ⟨there, due⟩))
  simp only [Bool.and_eq_false_iff, Bool.not_eq_false', decide_eq_false_iff_not, Nat.not_le, or_assoc] at spared
  exact spared

/-- Each partition is swept once, as if alone: the sweeps before it and after it leave it as it is. -/
theorem foldl_sweepPart (n : Nat) {l : List Nat} (once : l.Nodup) (hp : p ∈ l) (s : State) :
    ∃ u : State, u.part p = s.part p ∧ (l.foldl (sweepPart n) s).part p = (sweepPart n u p).part p := by
  have others (l : List Nat) (hl : p ∉ l) (t : State) : (l.foldl (sweepPart n) t).part p = t.part p := by
    induction l generalizing t with
    | nil => rfl
    | cons o l ih =>
      obtain ⟨ne, out⟩ : p ≠ o ∧ p ∉ l := by simpa using hl
      exact (ih out _).trans ((sweepPart_confined (.refl o t) n).part p ne)
  induction l generalizing s with
  | nil => cases hp
  | cons o l ih =>
    obtain ⟨out, rest⟩ := List.nodup_cons.1 once
    by_cases here : p = o
    · subst here
      exact ⟨s, rfl, others l out _⟩
    · obtain ⟨u, hu, swept⟩ := ih rest (by simpa [here] using hp) (sweepPart n s o)
      exact ⟨u, hu.trans ((sweepPart_confined (.refl o s) n).part p here), swept⟩

theorem nodup_livePartitions (s : State) : s.livePartitions.Nodup := List.nodup_range.filter _

/-- The sweep once every period of 64 s, while the chip is on. -/
theorem directorySweep_due (on : s.power.chip = .on) (due : s.dirSweep < s.nowS / 64) :
    directorySweep s = s.livePartitions.foldl (sweepPart (s.nowS / 64 - s.dirSweep)) { s with dirSweep := s.nowS / 64 } :=
  if_neg (by simp [on, due])

theorem directorySweep_not_due (h : s.power.chip ≠ .on ∨ s.nowS / 64 ≤ s.dirSweep) : directorySweep s = s := if_pos (by simpa using h)

end Sys2Proof.Machine
end

section
/-! THEOREM. Parking, cooling, speculative restore, and the sweeps of directory and descriptors (R115, R134, R136, R145, R150, R152, R153, R444). -/

namespace Sys2Proof.Machine

open Sys2Proof

/-! ### One sequence -/

section Sequence

variable {s : State} {p i : Nat} {q : Seq} (seq : (s.part p).seq i = some q)
include seq

theorem parkingStart_sets (parking : q.state = .parking) (goes : q.stuck = false) (left : ownLeft (s.part p) q ≠ []) :
    parkingStart p i s = sendSets s p ((ownLeft (s.part p) q).filter fun n => heatNow s (s.part p) n ≤ (s.part p).regs.demoteHeat) .parking := by
  simp [parkingStart, seq, parking, goes, left]

theorem parkingStart_tails (parking : q.state = .parking) (goes : q.stuck = false) (left : ownLeft (s.part p) q = []) :
    parkingStart p i s =
      (sortBy (fun e : Nat × Loc => e.2.frame) (q.tails.filter fun e => e.2.tier = 0 && !((s.part p).moves.any fun v => v.2.obj = .tail i e.1))).foldl
        (fun t e => selectMove t p (.tail i e.1) .parking e.2 ((s.part p).model q.model).stagingBytes none) s := by
  simp [parkingStart, seq, parking, goes, left]

theorem parkingRetry_room (parking : q.state = .parking) (stuck : q.stuck = true) (room : restDest s p 1 ≠ .none) :
    parkingRetry p i s = parkingStart p i (s.onSeq p i fun q => { q with stuck := false }) := by
  simp [parkingRetry, seq, parking, stuck, room]

/-- A page of the sequence lies in a staging page. -/
def hasStaging (x : Part) (q : Seq) : Bool :=
  q.pt.any fun e => match x.set e.psn with
    | some d => d.loc.any fun l => l.2.kind = .staging
    | none => false

/-- A parking move of an own page or of a tail page of the sequence is under way. -/
def parkMoving (x : Part) (q : Seq) (i : Nat) : Bool :=
  x.moves.any fun m => m.2.why = .parking && (match m.2.obj with
    | .page n _ => (x.ownSets q).contains n
    | .tail j _ => j = i
    | _ => false)

/-- With the rest frame written the sequence comes to REST (R145). -/
theorem parkToRest_rests (parking : q.state = .parking) (goes : q.stuck = false) (left : ownLeft (s.part p) q = [])
    (flushed : hasStaging (s.part p) q = false) (tails : q.tails.any (fun e => e.2.tier = 0) = false) (moved : parkMoving (s.part p) q i = false)
    {id : Nat} {m : Move} (frame : (s.part p).moves.find? (fun m => m.2.obj = .rest i) = some (id, m)) (written : m.step = .written) :
    let l : Loc := ⟨.page, m.dst.tier, m.dst.frame⟩
    let t := (dropTents (landMove s p id m) p i).1.onPart p fun x => { x with restTable := Map.put x.restTable i l }
    parkToRest p i s = trimWakeList (trimTables (t.onSeq p i fun q => { q.dropTables with state := .rest, restRef := l }) p) := by
  have done : (q.state != .parking || q.stuck || decide (ownLeft (s.part p) q ≠ []) || hasStaging (s.part p) q ||
      q.tails.any (fun e => e.2.tier = 0) || parkMoving (s.part p) q i) = false := by
    simp only [parking, goes, left, flushed, tails, moved]
    rfl
  simp only [parkToRest, seq]
  refine (if_neg (Bool.eq_false_iff.1 done)).trans ?_
  simp only [frame, written]
  rfl

theorem specRestoreStart_held (resting : q.state = .rest) (held : s.holds 7 = true) : specRestoreStart p i s = s := by
  simp [specRestoreStart, seq, resting, held]

/-- A predicted sequence starts its restore with a hot entry and its tables (R152). -/
theorem specRestoreStart_restores (resting : q.state = .rest) (predicted : q.predicted = true)
    (time : q.predTime ≤ s.nowS + (s.part p).regs.restoreLead) (free : s.holds 7 = false)
    (may : mayTakeHot s p = true ∨ (s.part p).seqs.any (fun e => e.2.state = .parking) = false) (hot : takeHot s p = .free) {u t : State}
    (tables : takeTables s p q.homeQ (tableSlots q.pt.length) 0 = some u)
    (ht : t = restoreFrame ((u.onSeq p i fun r =>
      { r with state := .restoring, homeQ := returnHome (u.part p) i q.homeQ, holdEnd := r.predTime + (s.part p).regs.hold, restored := false }).onPart p
        fun x => x.fitTables i) p i)
    {r : Seq} (restoring : (t.part p).seq i = some r) : specRestoreStart p i s = restoreMore p i (restoreList (t.part p) r) t := by
  have due : (q.state != .rest || !q.predicted || decide (s.nowS + (s.part p).regs.restoreLead < q.predTime) || s.holds 7) = false := by
    simp [resting, predicted, time, free]
  have entry : (!mayTakeHot s p && (s.part p).seqs.any fun e => e.2.state = .parking) = false := by
    rcases may with h | h <;> simp [h]
  simp only [specRestoreStart, seq, due, entry, hot, tables, Bool.false_eq_true, if_false, ← ht, restoring]

theorem specRestoreResume_goes_on (restoring : q.state = .restoring) (begun : q.restTent ≠ none) :
    specRestoreResume p i s = restoreMore p i (restoreList (s.part p) q) s := by
  simp [specRestoreResume, seq, restoring, begun]

theorem holdEndExpiry_due (restoring : q.state = .restoring) (due : q.holdEnd ≤ s.nowS) : holdEndExpiry p i s = endRestore s p i := by
  simp [holdEndExpiry, seq, restoring, due]

theorem holdEndExpiry_early (early : s.nowS < q.holdEnd) : holdEndExpiry p i s = s := by
  simp [holdEndExpiry, seq, Nat.not_le.2 early]

end Sequence

/-! ### One partition -/

theorem coolingStart_below {s : State} {p : Nat} (flash : (s.part p).flashChannels ≠ []) (low : freeAboveLow s (s.part p) = false) :
    let x := s.part p
    coolingStart p s = sendSets s p (coolFrom x (Nat.max x.regs.high x.regs.low * 1024) ((victims s x).filter fun n => heatNow s x n ≤ x.regs.demoteHeat)
      (freeFrames s x + sum ((x.moves.filter fun m => m.2.src.tier = 0 && m.2.why != .flush && m.2.why != .promotion).map fun m => objDramFrames x m.2.obj))) .cooling :=
  if_neg (by simp [flash, low])

section Copy

variable {s : State} {p psn layer : Nat} {d : PageSet} {t : Tent} (set : (s.part p).set psn = some d) (copy : Map.look d.tents layer = some t)
include set copy

theorem prefetchCopyExpiry_due (complete : t.complete = true) (prefetched : t.restore = none) (unread : (s.part p).tentHeld psn layer = false)
    (due : t.doneS + 2 ≤ s.nowS) : prefetchCopyExpiry p psn layer s = dropTent s p psn layer := by
  simp [prefetchCopyExpiry, set, copy, complete, prefetched, unread, due]

theorem prefetchCopyExpiry_early (early : s.nowS < t.doneS + 2) : prefetchCopyExpiry p psn layer s = s := by
  simp [prefetchCopyExpiry, set, copy, Nat.not_le.2 early]

end Copy

/-- Settles O49: each row by its own lemma, the sweep of the directory by that of one partition among the live ones. -/
theorem parkingAndRestore : Obligations.ParkingAndRestore := by
  unfold Obligations.ParkingAndRestore
  refine ⟨fun s p i q seq => ⟨?_, ?_, ?_, ?_, ?_, ?_, ?_, ?_, ?_⟩, ?cooling, fun s p psn layer d t set copy complete prefetched unread => ⟨?_, ?_⟩,
    ?sweep, fun s idle => congrArg _ (directorySweep_not_due idle), fun s p => rfl⟩
  · exact fun parking goes left => congrArg _ (parkingStart_sets seq parking goes left)
  · exact fun parking goes left => congrArg _ (parkingStart_tails seq parking goes left)
  · exact fun parking stuck room => ⟨congrArg _ (parkingRetry_room seq parking stuck room), _, rfl⟩
  · exact fun parking goes left flushed tails moved id m frame written =>
      congrArg _ (parkToRest_rests seq parking goes left flushed tails moved frame written)
  · exact fun held resting => congrArg _ (specRestoreStart_held seq resting held)
  · exact fun resting predicted time free may hot u tables r restoring =>
      congrArg _ (specRestoreStart_restores seq resting predicted time free may hot tables rfl restoring)
  · exact fun restoring begun => congrArg _ (specRestoreResume_goes_on seq restoring begun)
  · exact fun restoring due => congrArg _ (holdEndExpiry_due seq restoring due)
  · exact fun _ early => congrArg _ (holdEndExpiry_early seq early)
  case cooling => exact fun s p flash low => congrArg _ (coolingStart_below flash low)
  · exact fun due => congrArg _ (prefetchCopyExpiry_due set copy complete prefetched unread due)
  · exact fun early => congrArg _ (prefetchCopyExpiry_early set copy early)
  case sweep =>
    intro s on due
    refine ⟨_, congrArg Host.Outcome.next (directorySweep_due on due), foldl_same State.dirSweep _ (dirSweep_sweepPart _) _ _, fun p live => ?_⟩
    obtain ⟨u, hu, swept⟩ := foldl_sweepPart (s.nowS / 64 - s.dirSweep) (nodup_livePartitions s) live { s with dirSweep := s.nowS / 64 }
    have same : u.part p = s.part p := hu
    rw [swept, ← same]
    exact ⟨fun none => by rw [sweepPart_of_no_limit _ none]; rfl, fun limit e he => dir_sweepPart _ limit he⟩

end Sys2Proof.Machine
end

section
/-! THEOREM. The commands that run as units, and the migration of a sequence: how their run starts (R167, R170, R227 to R229, R341). -/

namespace Sys2Proof.Machine

open Sys2Proof

/-! ### append, attend and extend -/

/-- The transfer of the element list of an attention command, where it lies in host memory. -/
def listIn (s : State) (c : CmdRef) (w : List Byte) : State := if cListPw w then s else hostIn s c (64 * cN w)

theorem model_hostIn (s : State) (c : CmdRef) (n k : Nat) : ((hostIn s c n).part c.part).model k = (s.part c.part).model k := by
  simp [hostIn, pcieIn, Part.model]

theorem model_listIn (s : State) (c : CmdRef) (w : List Byte) (k : Nat) : ((listIn s c w).part c.part).model k = (s.part c.part).model k := by
  unfold listIn
  split
  · rfl
  · exact model_hostIn s c _ k

/-- The elements that passed their checks. -/
def passed (es : List Elem) : List Elem := es.filter fun e => e.status = 0

/-- The chunk of a command whose elements in the list read: that of its longest element, doubled until their partials fit (R180, R183). -/
def commandChunk (s : State) (p : Nat) (m : Model) (readers : List Elem) : Nat :=
  fitChunk s p m readers 11 (chunkOf m (readers.map fun e => (e.count, e.extent)))

/-- The command waits for its units while each of its n elements goes on as far as it can. -/
def dispatchElems (s : State) (c : CmdStep) (n chunk : Nat) (es : List Elem) : State :=
  (List.range n).foldl (fun s k => advanceElem s c k)
    (settleCommand (setStage (setPlan s c.ref (.attention chunk es)) c.ref (.waiting .units)) c.ref)

section Attention

variable {s : State} {c : CmdStep} {x : Slot} {f : Flight} (check : attentionCheck s c.ref.part c.bad f.word = none)
include check

/-- An append reads nothing, so that no element bounds its chunk, and it prefetches nothing. -/
theorem startAttention_append (op : cOpcode f.word = Op.append) :
    let r := checkElements c f (cN f.word) 0 [] [] (listIn s c.ref f.word)
    startAttention s c x f =
      .go (dispatchElems r.1 c (cN f.word) (commandChunk r.1 c.ref.part ((s.part c.ref.part).model (cModel f.word)) []) r.2) := by
  have writes : readsQ (cOpcode f.word) = false := by
    rw [op]
    rfl
  have noReaders (es : List Elem) : es.filter (fun e => decide (e.status = 0) && false) = [] :=
    List.filter_eq_nil_iff.2 fun e _ => by rw [Bool.and_false]; exact Bool.false_ne_true
  rw [← model_listIn s c.ref f.word]
  simp only [startAttention, check, writes, noReaders, Bool.false_eq_true, if_false]
  rfl

theorem startAttention_reads (op : cOpcode f.word ≠ Op.append) :
    let r := checkElements c f (cN f.word) 0 [] [] (listIn s c.ref f.word)
    startAttention s c x f = .go ((passed r.2).foldl (fun s e => prefetchFor s c.ref e)
      (dispatchElems r.1 c (cN f.word) (commandChunk r.1 c.ref.part ((s.part c.ref.part).model (cModel f.word)) (passed r.2)) r.2)) := by
  have reads : readsQ (cOpcode f.word) = true := decide_eq_true op
  rw [← model_listIn s c.ref f.word]
  simp only [startAttention, check, reads, Bool.and_true, if_true]
  rfl

end Attention

/-- The rows of the attention commands, each with its opcode. -/
def AttentionRow (row : CmdStep → Instr) (op : Nat) : Prop :=
  (row = Instr.append ∧ op = Op.append) ∨ (row = Instr.attend ∧ op = Op.attend) ∨ (row = Instr.extend ∧ op = Op.extend)

theorem exec_attentionRow {s t : State} {c : CmdStep} {f : Flight} (R : Ready s c f) {row : CmdStep → Instr}
    (taken : AttentionRow row (cOpcode f.word)) (go : ∀ x, startAttention (begun s c) c x (begunFlight s c f) = .go t) :
    exec (row c) s = .next (commitCmd c.ref t) := by
  obtain ⟨rfl, op⟩ | ⟨rfl, op⟩ | ⟨rfl, op⟩ := taken <;>
    exact congrArg Host.Outcome.next (R.runCommand_go (decide_eq_true op) go)

theorem attention_runs {s : State} {c : CmdStep} {f : Flight} (R : Ready s c f) {row : CmdStep → Instr}
    (taken : AttentionRow row (cOpcode f.word)) (check : attentionCheck (begun s c) c.ref.part c.bad f.word = none) :
    let r := checkElements c (begunFlight s c f) (cN f.word) 0 [] [] (listIn (begun s c) c.ref f.word)
    let m := ((begun s c).part c.ref.part).model (cModel f.word)
    let readers := if cOpcode f.word = Op.append then [] else passed r.2
    let t := dispatchElems r.1 c (cN f.word) (commandChunk r.1 c.ref.part m readers) r.2
    exec (row c) s =
      .next (commitCmd c.ref (if cOpcode f.word = Op.append then t else (passed r.2).foldl (fun s e => prefetchFor s c.ref e) t)) := by
  intro r m readers t
  refine exec_attentionRow R taken fun x => ?_
  by_cases op : cOpcode f.word = Op.append
  · simp only [t, readers, if_pos op]
    exact startAttention_append check op
  · simp only [t, readers, if_neg op]
    exact startAttention_reads check op

/-! ### kernel_run -/

/-- The operands of kernel_run are in range (R229). -/
structure KernelOperands (w : List Byte) (sliceBytes : Nat) : Prop where
  kernel : field w 0x10 1 ≠ 0
  least : 1 ≤ kInstances w
  most : kInstances w ≤ 1024
  inAligned : kIn w % 64 = 0
  outAligned : kOut w % 64 = 0
  inMost : kInBytes w ≤ 131072
  inWhole : kInBytes w % 64 = 0
  outMost : kOutBytes w ≤ 131072
  outWhole : kOutBytes w % 64 = 0
  inWindow : kInPw w = true → kIn w + kInstances w * kInBytes w ≤ sliceBytes

/-- The transfer of the inputs of kernel_run, where they lie in host memory. -/
def inputsIn (s : State) (c : CmdRef) (w : List Byte) : State := if kInPw w then s else hostIn s c (kInstances w * kInBytes w)

/-- One unit for each of n instances, after one another in the quadrant (R229). -/
def addInstances (s : State) (c : CmdRef) (quad n order : Nat) : State :=
  (List.range n).foldl
    (fun s k => addUnit s { blankUnit with
      part := c.part, slot := c.slot, index := c.index, elem := k, kind := .kernel, quad := quad, bestEffort := bestEffort s c.part
      order := order * 16 * 2 ^ 32 + k }) s

theorem startKernelRun_runs {s u : State} {c : CmdStep} {x : Slot} {f : Flight} {fs : List Nat}
    (operands : KernelOperands f.word (s.part c.ref.part).sliceBytes) (kernel : kernelOk (s.part c.ref.part) (field f.word 0x10 1) 3 = true)
    (readable : kInPw f.word = false → readOk c.bad (kIn f.word) (kInstances f.word * kInBytes f.word) = true)
    (room : allocAll c.ref.part (idlestQuad s) none (List.replicate (ceilDiv (kInstances f.word * kOutBytes f.word) 65536) 1) s = .got u fs) :
    startKernelRun s c x f = .go (addInstances
      (activate (setStage (setPlan (inputsIn u c.ref f.word) c.ref (.kernelRun [] (kInstances f.word) fs)) c.ref (.waiting .units)) c.ref.part
        (idlestQuad s)) c.ref (idlestQuad s) (kInstances f.word) f.order) := by
  obtain ⟨given, least, most, inAligned, outAligned, inMost, inWhole, outMost, outWhole, inWindow⟩ := operands
  have nonempty : kInstances f.word ≠ 0 := Nat.one_le_iff_ne_zero.1 least
  have window : (kInPw f.word && decide ((s.part c.ref.part).sliceBytes < kIn f.word + kInstances f.word * kInBytes f.word)) = false := by
    simpa using inWindow
  have inputs : (!kInPw f.word && !readOk c.bad (kIn f.word) (kInstances f.word * kInBytes f.word)) = false := by simpa using readable
  simp only [startKernelRun, given, nonempty, Nat.not_lt.2 most, inAligned, outAligned, Nat.not_lt.2 inMost, inWhole, Nat.not_lt.2 outMost, outWhole, window,
    kernel, inputs, room, ne_eq, not_true_eq_false, decide_false, Bool.or_false, Bool.not_true, Bool.false_eq_true, if_false]
  rfl

theorem kernelRun_runs {s u : State} {c : CmdStep} {f : Flight} {fs : List Nat} (R : Ready s c f) (op : cOpcode f.word = Op.kernelRun)
    (operands : KernelOperands f.word (s.part c.ref.part).sliceBytes) (kernel : kernelOk (s.part c.ref.part) (field f.word 0x10 1) 3 = true)
    (readable : kInPw f.word = false → readOk c.bad (kIn f.word) (kInstances f.word * kInBytes f.word) = true) :
    let quad := idlestQuad (begun s c)
    allocAll c.ref.part quad none (List.replicate (ceilDiv (kInstances f.word * kOutBytes f.word) 65536) 1) (begun s c) = .got u fs →
    exec (.kernelRun c) s = .next (commitCmd c.ref (addInstances
      (activate (setStage (setPlan (inputsIn u c.ref f.word) c.ref (.kernelRun [] (kInstances f.word) fs)) c.ref (.waiting .units)) c.ref.part quad)
      c.ref quad (kInstances f.word) s.sched.order)) := by
  intro quad room
  have inRange : KernelOperands f.word ((begun s c).part c.ref.part).sliceBytes := by rwa [part_begun Part.sliceBytes (fun _ _ => rfl) s c]
  have loaded := (part_begun (fun x => kernelOk x (field f.word 0x10 1) 3) (fun _ _ => rfl) s c).trans kernel
  exact congrArg Host.Outcome.next (R.runCommand_go (by simpa using op) fun x =>
    startKernelRun_runs (f := begunFlight s c f) inRange loaded readable room)

/-! ### seq_migrate -/

/-- Header and page table, the first packets of the message (R341). -/
def headParts (s : State) (p i : Nat) (q : Seq) : List (Nat × List Byte) :=
  (0, headerBytes s (s.part p) q i) :: if q.pt = [] then [] else [(0x1000, q.pt.flatMap fun e => leBytes 8 e.word)]

/-- The page sets pinned, and header and page table sent; the command waits for their acknowledgement (R227, R341). -/
def migrateHead (s : State) (c : CmdRef) (w : List Byte) (q : Seq) (m : Model) : State :=
  let qp := cQp w % 65536
  let s := pinFor (t1Read s c.part (migrateDram (s.part c.part) q m)) c (q.pt.map fun e => e.psn)
  let g := commandGroup s c qp
  setStage (setPlan (sendParts c.part qp g.1 (field w 0x18 8) c (headParts s c.part (handleIndex (cHandle w)) q) g.2) c (.migrate qp g.1 0 false)) c
    (.waiting .migrateData)

theorem startSeqMigrate_sends {s v : State} {c : CmdStep} {x : Slot} {f : Flight} {q : Seq} (handle : (s.part c.ref.part).handle (cHandle f.word) = some q)
    (active : q.state = .active) (closed : q.isOpen = false) (own : cQp f.word / 65536 = c.ref.part)
    (connected : ((s.part c.ref.part).qp (cQp f.word % 65536)).state = .ready) (flushed : unflushed (s.part c.ref.part) q = false)
    (inDram : segmentsOut (s.part c.ref.part) (q.pt.map fun e => e.psn) = []) :
    let m := (s.part c.ref.part).model q.model
    cmdReads s c.ref.part c f.word q.homeQ (migrateObjs (handleIndex (cHandle f.word)) q m) = .done v →
    startSeqMigrate s c x f = .go (migrateHead v c.ref f.word q m) := by
  intro m read
  have seq := Part.seq_of_handle handle
  have ready : (decide (cQp f.word / 65536 ≠ c.ref.part) || ((s.part c.ref.part).qp (cQp f.word % 65536)).state != .ready) = false := by
    simp [own, connected]
  simp only [startSeqMigrate, handle, closed, ready, wakeThen_of_active seq active, seq, waitSegments_eq_none inDram, flushed, read, m, Bool.false_eq_true,
    if_false]
  rfl

theorem seqMigrate_sends {s v : State} {c : CmdStep} {f : Flight} (R : Ready s c f) (op : cOpcode f.word = Op.seqMigrate) {q : Seq}
    (handle : (s.part c.ref.part).handle (cHandle f.word) = some q) (active : q.state = .active) (closed : q.isOpen = false)
    (own : cQp f.word / 65536 = c.ref.part) (connected : ((s.part c.ref.part).qp (cQp f.word % 65536)).state = .ready)
    (flushed : unflushed ((begun s c).part c.ref.part) q = false)
    (inDram : segmentsOut ((begun s c).part c.ref.part) (q.pt.map fun e => e.psn) = []) :
    let m := (s.part c.ref.part).model q.model
    cmdReads (begun s c) c.ref.part c f.word q.homeQ (migrateObjs (handleIndex (cHandle f.word)) q m) = .done v →
    exec (.seqMigrate c) s = .next (commitCmd c.ref (migrateHead v c.ref f.word q m)) := by
  intro m read
  have found := (part_begun (fun x => x.handle (cHandle f.word)) (fun _ _ => rfl) s c).trans handle
  have up := (part_begun (fun x => (x.qp (cQp f.word % 65536)).state) (fun _ _ => rfl) s c).trans connected
  have model : m = ((begun s c).part c.ref.part).model q.model := (part_begun (fun x => x.model q.model) (fun _ _ => rfl) s c).symm
  rw [model] at read ⊢
  exact congrArg Host.Outcome.next (R.runCommand_go (by simpa using op) fun x =>
    startSeqMigrate_sends (f := begunFlight s c f) found active closed own up flushed inDram read)

/-- Settles O27: each row by its own lemma, the three attention rows by one. -/
theorem runCommands : Obligations.RunCommands := by
  unfold Obligations.RunCommands
  refine fun s c f R => ⟨?attention, ?kernelRun, ?seqMigrate⟩
  case attention => exact fun row taken check => attention_runs R taken check
  case kernelRun =>
    intro op given least most inAligned outAligned inMost inWhole outMost outWhole inWindow kernel readable quad u fs room
    exact kernelRun_runs R op ⟨given, least, most, inAligned, outAligned, inMost, inWhole, outMost, outWhole, inWindow⟩ kernel readable room
  case seqMigrate =>
    exact fun op q handle active closed own connected flushed inDram v read => seqMigrate_sends R op handle active closed own connected flushed inDram read

end Sys2Proof.Machine
end

section
/-! THEOREM. The number formats and their rounding (R190 to R193): an element decoded and encoded again, and the rounding of a quotient. -/

namespace Sys2Proof

/-! ### Rounding to nearest, ties to even (R192) -/

/-- The quotient of a by 2^s is kept below one half and raised above it; at one half the result is an even neighbour. -/
theorem rne_cases (a s : Nat) :
    (rne a s = a / 2 ^ s ∧ 2 * (a % 2 ^ s) < 2 ^ s) ∨ (rne a s = a / 2 ^ s + 1 ∧ 2 ^ s < 2 * (a % 2 ^ s)) ∨
    (2 * (a % 2 ^ s) = 2 ^ s ∧ rne a s % 2 = 0 ∧ (rne a s = a / 2 ^ s ∨ rne a s = a / 2 ^ s + 1)) := by
  simp only [rne]
  split
  case isTrue below => exact .inl ⟨rfl, below⟩
  case isFalse notBelow =>
    split
    case isTrue above => exact .inr (.inl ⟨rfl, above⟩)
    case isFalse notAbove => exact .inr (.inr (by omega))

/-- Settles O8: the cases of rne against a = (a / 2^s) * 2^s + a % 2^s; a tie is only met where the result is even. -/
theorem roundsToNearestEven : Obligations.RoundsToNearestEven := by
  unfold Obligations.RoundsToNearestEven
  intro a s
  have whole := Nat.div_add_mod' a (2 ^ s)
  have small := Nat.mod_lt a (Nat.two_pow_pos s)
  have raised := Nat.add_one_mul (a / 2 ^ s) (2 ^ s)
  obtain ⟨kept, below⟩ | ⟨up, above⟩ | ⟨tie, even, kept | up⟩ := rne_cases a s
  · rw [kept]; omega
  · rw [up]; omega
  · exact ⟨by rw [kept]; omega, by rw [kept]; omega, fun _ _ => even⟩
  · exact ⟨by rw [up]; omega, by rw [up]; omega, fun _ _ => even⟩

/-! ### The fields of an encoding (R191) -/

theorem bits_zero (w n : Nat) : bits w 0 n = w % 2 ^ n := by simp [bits]

theorem bits_lt (w lo n : Nat) : bits w lo n < 2 ^ n := Nat.mod_lt _ (Nat.two_pow_pos n)

/-- A field is its upper part above its lower. -/
theorem bits_zero_add (w n k : Nat) : bits w 0 (k + n) = bits w n k * 2 ^ n + bits w 0 n := by
  rw [bits_zero, bits_zero, bits, Nat.add_comm k n, Nat.pow_add, Nat.mod_mul, Nat.add_comm, Nat.mul_comm]

theorem bit_bit (w i : Nat) : Bool.bit (bit w i) = w / 2 ^ i % 2 := by
  simp only [Bool.bit, bit, decide_eq_true_eq]
  split <;> omega

namespace FloatFmt

variable (f : FloatFmt)

/-- A word is its sign above its magnitude. -/
theorem signed_bit_bits {w : Nat} (width : w < 2 ^ (1 + f.eb + f.mb)) :
    f.signed (bit w (f.eb + f.mb)) (bits w 0 (f.eb + f.mb)) = w := by
  have sign : w / 2 ^ (f.eb + f.mb) < 2 := Nat.div_lt_of_lt_mul (by rwa [← Nat.pow_succ, Nat.succ_eq_add_one, Nat.add_comm, ← Nat.add_assoc])
  rw [signed, bit_bit, Nat.mod_eq_of_lt sign, bits_zero, Nat.div_add_mod']

/-! ### A magnitude of the format rounds to its own encoding (R192) -/

/-- The unit of the smallest exponent divides a subnormal exactly. -/
theorem round_subnormal {m : Nat} (fits : m < 2 ^ f.mb) : f.round m (1 - (f.bias : Int) - f.mb) = m := by
  by_cases zero : m = 0
  · simp [round, zero]
  · have log : Nat.log2 m < f.mb := (Nat.log2_lt zero).2 fits
    have under : (Nat.log2 m : Int) + (1 - (f.bias : Int) - f.mb) < 1 - (f.bias : Int) := by omega
    simp [round, zero, under, pow2]

/-- A significand with its leading one has the exponent that its field gives. -/
theorem round_normal {e m : Nat} (positive : e ≠ 0) (fits : m < 2 ^ f.mb) :
    f.round (2 ^ f.mb + m) ((e : Int) - f.bias - f.mb) = e * 2 ^ f.mb + m := by
  have nonzero : 2 ^ f.mb + m ≠ 0 := by have := Nat.two_pow_pos f.mb; omega
  have log : Nat.log2 (2 ^ f.mb + m) = f.mb := (Nat.log2_eq_iff nonzero).2 ⟨by omega, by rw [Nat.pow_succ]; omega⟩
  have exponent : (f.mb : Int) + ((e : Int) - f.bias - f.mb) = e - f.bias := by omega
  have notUnder : ¬ (e : Int) - f.bias < 1 - (f.bias : Int) := by omega
  have leading : (e - 1) * 2 ^ f.mb + 2 ^ f.mb = e * 2 ^ f.mb := by
    rw [← Nat.add_one_mul, Nat.sub_one_add_one positive]
  simpa [round, log, exponent, notUnder, pow2, ← Nat.add_assoc] using leading

/-- A number whose rounded magnitude does not overflow is encoded as that magnitude with its sign. -/
theorem encode_fin {s : Bool} {m c : Nat} {e : Int} (rounds : f.round m e = c) (finite : ¬ f.top < c) :
    f.encode (.fin s m e) = f.signed s c := by
  simp [encode, rounds, finite]

/-- An encoding that is not a NaN decodes to an infinity, a subnormal or zero, or a normal number, and each encodes to the sign and
magnitude that it came from. -/
theorem encode_decode_eq_signed {w : Nat} (number : f.decode w ≠ .nan) :
    f.encode (f.decode w) = f.signed (bit w (f.eb + f.mb)) (bits w 0 (f.eb + f.mb)) := by
  have fields := bits_zero_add w f.mb f.eb
  have fits := bits_lt w 0 f.mb
  revert number
  simp only [decode]
  split
  case isTrue above =>
    split
    case isTrue infinite =>
      obtain ⟨inf, mag⟩ := Bool.and_eq_true_iff.1 infinite
      intro
      simp [encode, inf, of_decide_eq_true mag]
    case isFalse => exact fun number => absurd rfl number
  case isFalse finite =>
    intro
    split
    case isTrue zero => exact f.encode_fin ((f.round_subnormal fits).trans (by simp [fields, zero])) finite
    case isFalse positive => exact f.encode_fin ((f.round_normal positive fits).trans fields.symm) finite

theorem encode_decode {w : Nat} (width : w < 2 ^ (1 + f.eb + f.mb)) (number : f.decode w ≠ .nan) : f.encode (f.decode w) = w :=
  (f.encode_decode_eq_signed number).trans (f.signed_bit_bits width)

end FloatFmt

/-- Settles O7: encode_decode holds of any format, so of the eight. -/
theorem floatFormatsAgree : Obligations.FloatFormatsAgree := by
  unfold Obligations.FloatFormatsAgree
  exact fun _ f _ _ width number => f.encode_decode width number

end Sys2Proof
end

section
/-! SUPPORT. One step of tile code (R233, R238, R239): what a row does of a word that it takes and of one that it does not. -/

namespace Sys2Proof.Machine

open Sys2Proof

/-- Unit uid runs on a tile and its kernel call stands at the code word w, whether or not its step limit is reached. -/
structure OnWord (s : State) (uid : Nat) (u : Unit) (tile : Nat) (k : KMachine) (ker : Kernel) (w : Nat) : Prop where
  unit : s.unit uid = some u
  running : u.place = .running tile
  kernel : u.kernel = some k
  active : k.active = true
  stored : Map.look (s.part u.part).kernels k.kernel = some ker
  word : (ker.code.getD k.pc 0).toNat = w

section Step

variable {s : State} {uid : Nat} {u : Unit} {tile : Nat} {k : KMachine} {ker : Kernel} {w : Nat} {row : Nat → Bool}
  {eff : Kernel → KCall → Nat → Effect}

theorem OnWord.tileRun_other (h : OnWord s uid u tile k ker w) (other : row w = false) : tileRun uid row eff s = s := by
  simp only [tileRun, h.unit, h.running, h.kernel, h.stored, h.word, other, Bool.not_false, Bool.or_true, if_true]

theorem OnWord.tileRun_limit (h : OnWord s uid u tile k ker w) (taken : row w = true) (limit : ker.stepLimit ≤ k.steps) :
    tileRun uid row eff s = faultJob s u tile 1 3 k.pc 0 := by
  simp only [tileRun, h.unit, h.running, h.kernel, h.active, h.stored, h.word, taken, limit, Bool.not_true, Bool.or_self, Bool.false_eq_true,
    if_false, if_true]

variable (h : AtWord s uid u tile k ker w) (taken : row w = true)
include h taken

theorem AtWord.tileRun_next {c : KCall} (effect : eff ker k.regs w = .next c) (more : k.pc + 1 < ker.code.length) :
    tileRun uid row eff s = stepTo s uid k c (k.pc + 1) := by
  simp only [tileRun, h.unit, h.running, h.kernel, h.active, h.stored, h.word, taken, effect, Nat.not_le.2 h.steps, Nat.not_le.2 more,
    Bool.not_true, Bool.or_self, Bool.false_eq_true, if_false, stepTo]

theorem AtWord.tileRun_end {c : KCall} (effect : eff ker k.regs w = .next c) (last : ker.code.length ≤ k.pc + 1) :
    tileRun uid row eff s = faultJob s u tile 1 7 k.pc 0 := by
  simp only [tileRun, h.unit, h.running, h.kernel, h.active, h.stored, h.word, taken, effect, Nat.not_le.2 h.steps, last,
    Bool.not_true, Bool.or_self, Bool.false_eq_true, if_false, if_true]

theorem AtWord.tileRun_jump {off : Int} (effect : eff ker k.regs w = .jump off) (inside : ((k.pc : Int) + off).toNat < ker.code.length) :
    tileRun uid row eff s = stepTo s uid k k.regs ((k.pc : Int) + off).toNat := by
  simp only [tileRun, h.unit, h.running, h.kernel, h.active, h.stored, h.word, taken, effect, Nat.not_le.2 h.steps, Nat.not_le.2 inside,
    Bool.not_true, Bool.or_self, Bool.false_eq_true, if_false, stepTo]

theorem AtWord.tileRun_fault {code imm : Nat} (effect : eff ker k.regs w = .fault code imm) :
    tileRun uid row eff s = faultJob s u tile 1 code k.pc imm := by
  simp only [tileRun, h.unit, h.running, h.kernel, h.active, h.stored, h.word, taken, effect, Nat.not_le.2 h.steps,
    Bool.not_true, Bool.or_self, Bool.false_eq_true, if_false]

theorem AtWord.tileRun_ret (effect : eff ker k.regs w = .ret) :
    tileRun uid row eff s =
      let k2 := KMachine.load (s.part u.part) { k with results := k.results ++ [(k.what, k.regs)], active := false }
      let t := s.onUnit uid fun x => { x with kernel := some k2 }
      if k2.active then t else nextStage t uid := by
  simp only [tileRun, h.unit, h.running, h.kernel, h.active, h.stored, h.word, taken, effect, Nat.not_le.2 h.steps,
    Bool.not_true, Bool.or_self, Bool.false_eq_true, if_false]

end Step

/-! ### The words of a row -/

theorem rowOp_iff {o w : Nat} : rowOp o w = true ↔ iOp w = o := by simp [rowOp]
theorem rowFn_iff {o n w : Nat} : rowFn o n w = true ↔ iOp w = o ∧ iFN w = n := by simp [rowFn]
theorem rowFn6_iff {o n w : Nat} : rowFn6 o n w = true ↔ iOp w = o ∧ iFn6 w = n := by simp [rowFn6]

/-- FN without its bit BS. -/
theorem iFn6_eq (w : Nat) : iFn6 w = iFN w % 64 := by simp only [iFn6, iFN, bits]; omega

end Sys2Proof.Machine
end

section
/-! SUPPORT and THEOREM. Which words each row of tile code takes (R235, R236), and the faults STEP and END (R239). -/

namespace Sys2Proof.Machine

open Sys2Proof

/-! ### The table of the rows -/

/-- How R235 tells the words of a row: by OP alone, by OP and FN, or by OP and FN without BS. -/
inductive TileWords where
  | op (o : Nat)
  | fn (o n : Nat)
  | fn6 (o n : Nat)

namespace TileWords

def takes : TileWords → Nat → Bool
  | op o => rowOp o
  | fn o n => rowFn o n
  | fn6 o n => rowFn6 o n

/-- OP, and the function number of the row, 0 where it has none. -/
def key : TileWords → Nat × Nat
  | op o => (o, 0)
  | fn o n => (o, n)
  | fn6 o n => (o, n)

/-- The row names the fields that tell the words of its OP apart: FN for 0x01, 0x0A and 0x0B, FN without BS for 0x09, and for 0x08 the one or
the other as the function is below 6 or not. -/
def fit : TileWords → Bool
  | op o => !([0x01, 0x08, 0x09, 0x0A, 0x0B].contains o)
  | fn o n => [0x01, 0x0A, 0x0B].contains o || (o = 0x08 && 6 ≤ n && n < 64)
  | fn6 o n => o = 0x09 || (o = 0x08 && n < 6)

end TileWords

/-- The words of each of the rows, in the order of tileRows. -/
def tileWords : List TileWords :=
  (List.range 14).map (.fn 0x01) ++ (List.range' 16 8).map (.fn 0x01) ++ (List.range' 0x02 5).map .op ++
  (List.range 6).map (.fn6 0x08) ++ (List.range' 6 10).map (.fn 0x08) ++ (List.range 4).map (.fn6 0x09) ++
  (List.range 3).map (.fn 0x0A) ++ (List.range 10).map (.fn 0x0B) ++
  [0x10, 0x11, 0x12, 0x13, 0x18, 0x20, 0x21, 0x22, 0x23, 0x24, 0x30, 0x31].map .op

/-- The row runs tile code on the words x with this effect, which of an OP up to 0x0B only writes registers. -/
structure RunsWith (row : Nat → Instr) (x : TileWords) (eff : Kernel → KCall → Nat → Effect) : Prop where
  runs : ∀ uid s, exec (row uid) s = .next (tileRun uid x.takes eff s)
  writes : x.key.1 ≤ 0x0B → ∀ ker c w, ∃ d, eff ker c w = .next d

theorem tileRows_run : ∀ e ∈ tileRows.zip tileWords, ∃ eff, RunsWith e.1 e.2 eff := by
  iterate 60 refine List.forall_mem_cons.2 ⟨⟨_, fun _ _ => rfl, fun _ _ _ _ => ⟨_, rfl⟩⟩, ?_⟩
  iterate 12 refine List.forall_mem_cons.2 ⟨⟨_, fun _ _ => rfl, fun low => absurd low (by decide)⟩, ?_⟩
  exact List.forall_mem_nil _

theorem length_tileRows : tileRows.length = tileWords.length := rfl

theorem row_runs {n : Nat} (h : n < tileWords.length) : ∃ row, tileRows[n]? = some row ∧ ∃ eff, RunsWith row tileWords[n] eff :=
  have hr : n < tileRows.length := length_tileRows ▸ h
  ⟨tileRows[n]'hr, List.getElem?_eq_getElem hr, tileRows_run (tileRows[n]'hr, tileWords[n]'h)
    (List.mem_iff_getElem.2 ⟨n, by rw [List.length_zip, length_tileRows, Nat.min_self]; exact h, List.getElem_zip⟩)⟩

/-! ### A word has the key of at most one row -/

/-- What OP and FN say of the row of a word. -/
def wordKey (op fn : Nat) : Nat × Nat :=
  (op, if [0x01, 0x0A, 0x0B].contains op then fn
    else if op = 0x08 then if fn % 64 < 6 then fn % 64 else fn
    else if op = 0x09 then fn % 64
    else 0)

theorem wordKey_eq_iff {op fn o n : Nat} : wordKey op fn = (o, n) ↔ op = o ∧ (wordKey op fn).2 = n := Prod.ext_iff

theorem wordKey_fn {o : Nat} (named : o ∈ [0x01, 0x0A, 0x0B]) (f : Nat) : wordKey o f = (o, f) := by
  rw [wordKey, if_pos (List.contains_iff_mem.2 named)]

theorem wordKey_vector (f : Nat) : wordKey 0x08 f = (0x08, if f % 64 < 6 then f % 64 else f) := rfl

theorem wordKey_compare (f : Nat) : wordKey 0x09 f = (0x09, f % 64) := rfl

theorem wordKey_op {o : Nat} (other : o ∉ [0x01, 0x08, 0x09, 0x0A, 0x0B]) (f : Nat) : wordKey o f = (o, 0) := by
  simp only [List.mem_cons, List.not_mem_nil, or_false, not_or] at other
  simp [wordKey, other]

theorem TileWords.takes_iff {x : TileWords} (fit : x.fit = true) (w : Nat) : x.takes w = true ↔ wordKey (iOp w) (iFN w) = x.key := by
  cases x with
  | op o =>
    have other : o ∉ [0x01, 0x08, 0x09, 0x0A, 0x0B] := by simpa [TileWords.fit] using fit
    exact rowOp_iff.trans ⟨fun op => op ▸ wordKey_op (op ▸ other) _, congrArg Prod.fst⟩
  | fn o n =>
    have named : o ∈ [0x01, 0x0A, 0x0B] ∨ (o = 0x08 ∧ 6 ≤ n) ∧ n < 64 := by simpa [TileWords.fit] using fit
    refine rowFn_iff.trans ((and_congr_right fun op => ?_).trans wordKey_eq_iff.symm)
    rcases named with plain | ⟨⟨rfl, least⟩, most⟩
    · rw [op, wordKey_fn plain]
    · rw [op, wordKey_vector]
      dsimp only [key]
      split <;> omega
  | fn6 o n =>
    have named : o = 0x09 ∨ o = 0x08 ∧ n < 6 := by simpa [TileWords.fit] using fit
    refine rowFn6_iff.trans ((and_congr_right fun op => ?_).trans wordKey_eq_iff.symm)
    rcases named with rfl | ⟨rfl, most⟩
    · rw [op, wordKey_compare, iFn6_eq]
    · rw [op, wordKey_vector, iFn6_eq]
      dsimp only [key]
      split <;> omega

theorem fit_of_mem : ∀ x ∈ tileWords, x.fit = true := by decide

theorem nodup_keys : (tileWords.map TileWords.key).Nodup := by decide

/-! ### An admitted word has the key of some row -/

/-- The OPs whose words are told by OP alone. -/
def plainOps : List Nat := [0x02, 0x03, 0x04, 0x05, 0x06, 0x10, 0x11, 0x12, 0x13, 0x18, 0x20, 0x21, 0x22, 0x23, 0x24, 0x30, 0x31]

section Admitted

variable {n i w : Nat} (valid : wordValid n i w = true)
include valid

theorem op_of_valid : iOp w ∈ plainOps ∨ iOp w = 0x01 ∨ iOp w = 0x08 ∨ iOp w = 0x09 ∨ iOp w = 0x0A ∨ iOp w = 0x0B := by
  refine Decidable.byContradiction fun other => ?_
  simp only [plainOps, List.mem_cons, List.not_mem_nil, or_false, not_or] at other
  simp [wordValid, other] at valid

theorem fn_of_valid_scalar (op : iOp w = 0x01) : iFN w < 14 ∨ 16 ≤ iFN w ∧ iFN w < 24 := by
  simp [wordValid, op] at valid
  omega

theorem fn_of_valid_vector (op : iOp w = 0x08) : iFN w % 64 < 6 ∨ iFN w < 16 := by
  simp [wordValid, op, iFn6_eq] at valid
  omega

theorem fn_of_valid_compare (op : iOp w = 0x09) : iFN w % 64 < 4 := by
  simp [wordValid, op, iFn6_eq] at valid
  omega

theorem fn_of_valid_reduce (op : iOp w = 0x0A) : iFN w < 3 := by
  simp [wordValid, op] at valid
  omega

theorem fn_of_valid_logic (op : iOp w = 0x0B) : iFN w < 10 := by
  refine Decidable.byContradiction fun above => ?_
  have other : ∀ f < 10, iFN w ≠ f := by omega
  simp [wordValid, op, other] at valid

/-- The key of an admitted word is that of some row. -/
theorem wordKey_mem_keys : wordKey (iOp w) (iFN w) ∈ tileWords.map TileWords.key := by
  have scalar : ∀ f < 24, f < 14 ∨ 16 ≤ f → (0x01, f) ∈ tileWords.map TileWords.key := by decide
  have vector : ∀ f < 16, (0x08, f) ∈ tileWords.map TileWords.key := by decide
  have compare : ∀ f < 4, (0x09, f) ∈ tileWords.map TileWords.key := by decide
  have reduce : ∀ f < 3, (0x0A, f) ∈ tileWords.map TileWords.key := by decide
  have logic : ∀ f < 10, (0x0B, f) ∈ tileWords.map TileWords.key := by decide
  have plain : ∀ o ∈ plainOps, o ∉ [0x01, 0x08, 0x09, 0x0A, 0x0B] ∧ (o, 0) ∈ tileWords.map TileWords.key := by decide
  rcases op_of_valid valid with op | op | op | op | op | op
  · obtain ⟨other, mem⟩ := plain _ op
    rwa [wordKey_op other]
  · have fn := fn_of_valid_scalar valid op
    rw [op, wordKey_fn (by decide)]
    exact scalar _ (by omega) (by omega)
  · have fn := fn_of_valid_vector valid op
    rw [op, wordKey_vector]
    exact vector _ (by split <;> omega)
  · rw [op]
    exact compare _ (fn_of_valid_compare valid op)
  · rw [op, wordKey_fn (by decide)]
    exact reduce _ (fn_of_valid_reduce valid op)
  · rw [op, wordKey_fn (by decide)]
    exact logic _ (fn_of_valid_logic valid op)

/-- Some row takes an admitted word. -/
theorem exists_row_takes : ∃ n, ∃ h : n < tileWords.length, tileWords[n].takes w = true := by
  obtain ⟨x, hx, key⟩ := List.mem_map.1 (wordKey_mem_keys valid)
  obtain ⟨n, hn, rfl⟩ := List.getElem_of_mem hx
  exact ⟨n, hn, (TileWords.takes_iff (fit_of_mem _ hx) w).2 key.symm⟩

end Admitted

/-- Two rows that take the same word are one. -/
theorem row_unique {w m n : Nat} (hm : m < tileWords.length) (hn : n < tileWords.length) (takesM : tileWords[m].takes w = true)
    (takesN : tileWords[n].takes w = true) : m = n := by
  have keyM := (TileWords.takes_iff (fit_of_mem _ (List.getElem_mem hm)) w).1 takesM
  have keyN := (TileWords.takes_iff (fit_of_mem _ (List.getElem_mem hn)) w).1 takesN
  have same : (tileWords.map TileWords.key)[m]'(by rwa [List.length_map]) = (tileWords.map TileWords.key)[n]'(by rwa [List.length_map]) := by
    rw [List.getElem_map, List.getElem_map, ← keyM, ← keyN]
  exact (List.getElem_inj nodup_keys).1 same

theorem op_of_takes {x : TileWords} {w : Nat} (takes : x.takes w = true) : x.key.1 = iOp w := by
  cases x with
  | op o => exact (rowOp_iff.1 takes).symm
  | fn o n => exact (rowFn_iff.1 takes).1.symm
  | fn6 o n => exact (rowFn6_iff.1 takes).1.symm

/-- Settles O15: the row that takes the word faults at the step limit, and past the last word where its OP only writes registers. -/
theorem tileStepAndEndFaults : Obligations.TileStepAndEndFaults := by
  unfold Obligations.TileStepAndEndFaults
  intro s uid u tile k ker w unit running kernel active stored word valid
  obtain ⟨n, hn, takes⟩ := exists_row_takes valid
  obtain ⟨row, place, eff, run⟩ := row_runs hn
  refine ⟨fun limit => ⟨row, List.mem_of_getElem? place, ?_⟩, fun steps last low => ⟨row, List.mem_of_getElem? place, ?_⟩⟩
  · rw [run.runs, OnWord.tileRun_limit ⟨unit, running, kernel, active, stored, word⟩ takes limit]
  · obtain ⟨c, writes⟩ := run.writes (op_of_takes takes ▸ low) ker k.regs w
    rw [run.runs, AtWord.tileRun_end ⟨unit, running, kernel, active, stored, word, steps⟩ takes writes last]

/-- At the step limit a row changes the state exactly where it takes the word. -/
theorem row_changes_iff {s : State} {uid : Nat} {u : Unit} {tile : Nat} {k : KMachine} {ker : Kernel} {w : Nat}
    (h : OnWord s uid u tile k ker w) (limit : ker.stepLimit ≤ k.steps) (faults : faultJob s u tile 1 3 k.pc 0 ≠ s) {m : Nat}
    (hm : m < tileWords.length) : exec ((tileRows.getD m .ret) uid) s ≠ .next s ↔ tileWords[m].takes w = true := by
  obtain ⟨row, place, eff, run⟩ := row_runs hm
  rw [List.getD_eq_getElem?_getD, place, Option.getD_some, run.runs]
  cases takes : tileWords[m].takes w with
  | true => simpa [h.tileRun_limit takes limit] using faults
  | false => simp [h.tileRun_other takes]

/-- Settles O16: the key of the word is that of one row. -/
theorem everyValidWordIsOneRow : Obligations.EveryValidWordIsOneRow := by
  unfold Obligations.EveryValidWordIsOneRow
  intro s uid u tile k ker w unit running kernel active stored word limit valid faults
  obtain ⟨n, hn, takes⟩ := exists_row_takes valid
  refine ⟨n, length_tileRows ▸ hn, fun m hm => ?_⟩
  have hx : m < tileWords.length := length_tileRows ▸ hm
  rw [row_changes_iff ⟨unit, running, kernel, active, stored, word⟩ limit faults hx]
  exact ⟨fun taken => row_unique hx hn taken takes, fun same => by subst same; exact takes⟩

end Sys2Proof.Machine
end

section
/-! SUPPORT and THEOREM. What a register write of tile code and the state after an instruction leave alone (R233 to R235). -/

namespace Sys2Proof.Machine

open Sys2Proof

/-! ### Registers -/

namespace KCall

variable (c : KCall) (n m w : Nat) (v : Word) (p : BitVec 64) (l : List Word)

theorem s_setS : (c.setS n v).s m = if m = n then v else c.s m := by
  by_cases h : m = n <;> simp [s, setS, h]

theorem v_setS : (c.setS n v).v m = c.v m := rfl
theorem p_setS : (c.setS n v).p m = c.p m := rfl

theorem p_setP : (c.setP n p).p m = if m = n then p else c.p m := by
  by_cases h : m = n <;> simp [KCall.p, setP, h]

theorem s_setP : (c.setP n p).s m = c.s m := rfl
theorem v_setP : (c.setP n p).v m = c.v m := rfl

theorem v_setV_ne (h : m ≠ n) : (c.setV w n l).v m = c.v m := by simp [KCall.v, setV, h]

theorem s_setV : (c.setV w n l).s m = c.s m := rfl
theorem p_setV : (c.setV w n l).p m = c.p m := rfl

/-- Each lane of the register written takes the new value where the guard admits it. -/
theorem v_setV_same :
    (c.setV w n l).v n = ((c.v n).zip l).zipIdx.map fun e => if bit (guardBits c w) e.2 then e.1.2 else e.1.1 := by
  simp [KCall.v, setV]

theorem getElem?_v_setV {j : Nat} (new : j < l.length) (old : j < (c.v n).length) :
    ((c.setV w n l).v n)[j]? = some (if bit (guardBits c w) j then l.getD j 0 else (c.v n).getD j 0) := by
  have pair : ((c.v n).zip l)[j]? = some ((c.v n)[j], l[j]) := by
    rw [List.getElem?_eq_getElem (by rw [List.length_zip]; omega), List.getElem_zip]
  rw [v_setV_same, List.getElem?_map, List.getElem?_zipIdx, pair, List.getD_eq_getElem?_getD, List.getD_eq_getElem?_getD,
    List.getElem?_eq_getElem new, List.getElem?_eq_getElem old]
  simp only [Option.map_some, Option.getD_some, Nat.zero_add]

end KCall

/-! ### The state after an instruction -/

theorem State.unit_onUnit_same (s : State) (uid : Nat) (g : Unit → Unit) : (s.onUnit uid g).unit uid = (s.unit uid).map g :=
  Map.look_edit_same _ _ _

theorem State.unit_onUnit_ne (s : State) {uid v : Nat} (g : Unit → Unit) (h : v ≠ uid) : (s.onUnit uid g).unit v = s.unit v :=
  Map.look_edit_ne _ _ _ _ h

/-- Settles O17: the registers by the laws of their sparse memories, the state by those of the units. -/
theorem tileFrame : Obligations.TileFrame := by
  unfold Obligations.TileFrame
  refine ⟨fun c n m w v p l => ?registers, fun s uid k c pc u found => ?state⟩
  case registers =>
    exact ⟨c.s_setS n m v, c.v_setS n m v, c.p_setS n m v, rfl, c.p_setP n m p, c.s_setP n m p, c.v_setP n m p, rfl,
      c.v_setV_ne n m w l, c.s_setV n m w l, c.p_setV n m w l, rfl, fun _ => c.getElem?_v_setV n w l⟩
  case state => exact ⟨by rw [stepTo, s.unit_onUnit_same, found, Option.map_some], fun _ => s.unit_onUnit_ne _, rfl, rfl⟩

end Sys2Proof.Machine
end

section
/-! THEOREM. The instructions of tile code that write registers and go on (R235). -/

namespace Sys2Proof.Machine

open Sys2Proof

/-! ### Values -/

theorem slt32_eq (a b : Word) : slt32 a b = if a.toInt < b.toInt then 1 else 0 := by simp [slt32, word1, BitVec.slt]
theorem sltu32_eq (a b : Word) : sltu32 a b = if a.toNat < b.toNat then 1 else 0 := by simp [sltu32, word1, BitVec.ult]
theorem min32_eq (a b : Word) : min32 a b = if a.toInt < b.toInt then a else b := by simp [min32, BitVec.slt]
theorem max32_eq (a b : Word) : max32 a b = if a.toInt < b.toInt then b else a := by simp [max32, BitVec.slt]

/-- A sign-extended immediate is its value as a word. -/
theorem toInt_immS (i : Nat) : (immS i).toInt = sext 16 i := by
  have range : -2 ^ 15 ≤ sext 16 i ∧ sext 16 i < 2 ^ 15 := by
    unfold sext
    split <;> omega
  rw [immS, BitVec.toInt_ofInt_eq_self] <;> omega

theorem slti_eq (a : Word) (i : Nat) : word1 (a.slt (immS i)) = if a.toInt < sext 16 i then 1 else 0 := by
  simp [word1, BitVec.slt, toInt_immS]

/-- A multiplication into the lanes of a third register, one lane at a time. -/
theorem map_zip_zip (f : Word → Word → Word → Word) (d a b : List Word) :
    (d.zip (a.zip b)).map (fun e => f e.1 e.2.1 e.2.2) = List.zipWith (fun x e => f x e.1 e.2) d (List.zip a b) := by
  rw [List.zip, List.map_zipWith]

/-! ### Going on, and stopping -/

section Onward

variable {s : State} {uid : Nat} {u : Unit} {tile : Nat} {k : KMachine} {ker : Kernel} {w : Nat} (h : AtWord s uid u tile k ker w)
  (more : k.pc + 1 < ker.code.length) {eff : Kernel → KCall → Nat → Effect} {c : KCall} {o n : Nat}
include h more

/-- A row told by OP whose effect is to go on. -/
theorem AtWord.onward_op (op : iOp w = o) (effect : eff ker k.regs w = .next c) :
    Host.Outcome.next (tileRun uid (rowOp o) eff s) = onward s uid k c :=
  congrArg _ (h.tileRun_next (rowOp_iff.2 op) effect more)

theorem AtWord.onward_fn (op : iOp w = o) (fn : iFN w = n) (effect : eff ker k.regs w = .next c) :
    Host.Outcome.next (tileRun uid (rowFn o n) eff s) = onward s uid k c :=
  congrArg _ (h.tileRun_next (rowFn_iff.2 ⟨op, fn⟩) effect more)

theorem AtWord.onward_fn6 (op : iOp w = o) (fn : iFn6 w = n) (effect : eff ker k.regs w = .next c) :
    Host.Outcome.next (tileRun uid (rowFn6 o n) eff s) = onward s uid k c :=
  congrArg _ (h.tileRun_next (rowFn6_iff.2 ⟨op, fn⟩) effect more)

end Onward

theorem AtWord.stop_op {s : State} {uid : Nat} {u : Unit} {tile : Nat} {k : KMachine} {ker : Kernel} {w : Nat} (h : AtWord s uid u tile k ker w)
    {o code imm : Nat} {eff : Kernel → KCall → Nat → Effect} (op : iOp w = o) (effect : eff ker k.regs w = .fault code imm) :
    (.next (tileRun uid (rowOp o) eff s) : Host.Outcome State Fault Refusal) = .next (faultJob s u tile 1 code k.pc imm) :=
  congrArg _ (h.tileRun_fault (rowOp_iff.2 op) effect)

theorem scalarOp_eq {f : Word → Word → Word} {ker : Kernel} {c : KCall} {w : Nat} {v : Word} (value : f (c.s (iA w)) (c.s (iB w)) = v) :
    scalarOp f ker c w = .next (c.setS (iD w) v) :=
  value ▸ rfl

theorem immOp_eq {f : Word → Nat → Word} {ker : Kernel} {c : KCall} {w : Nat} {v : Word} (value : f (c.s (iA w)) (iImm w) = v) :
    immOp f ker c w = .next (c.setS (iD w) v) :=
  value ▸ rfl

theorem vfmaOp_eq (ker : Kernel) (c : KCall) (w : Nat) :
    vfmaOp ker c w = .next (c.setV w (iD w) (List.zipWith (fun d e => ffma d e.1 e.2) (c.v (iD w)) (List.zip (c.v (iA w)) (vecB c w)))) :=
  congrArg (fun l => Effect.next (c.setV w (iD w) l)) (map_zip_zip ffma _ _ _)

/-- A move writes the lanes as they are. -/
theorem laneOp_id (ker : Kernel) (c : KCall) (w : Nat) : laneOp (fun a => a) ker c w = .next (c.setV w (iD w) (c.v (iA w))) := by
  rw [laneOp, List.map_id']

/-- Settles O9: each row by its value. -/
theorem tileScalarInteger : Obligations.TileScalarInteger := by
  unfold Obligations.TileScalarInteger
  refine ⟨fun s uid u tile k ker w h more => ?_, fun s uid u tile k ker w h more =>
    ⟨fun op => ?addi, fun op => ?andi, fun op => ?ori, fun op => ?lui, fun op => ?slti⟩⟩
  · refine ⟨fun op fn => ?add, fun op fn => ?sub, fun op fn => ?mul, fun op fn => ?and, fun op fn => ?or, fun op fn => ?xor, fun op fn => ?shl,
      fun op fn => ?shr, fun op fn => ?sra, fun op fn => ?slt, fun op fn => ?sltu, fun op fn => ?min, fun op fn => ?max, fun op fn => ?mov⟩
    case slt => exact h.onward_fn more op fn (scalarOp_eq (slt32_eq _ _))
    case sltu => exact h.onward_fn more op fn (scalarOp_eq (sltu32_eq _ _))
    case min => exact h.onward_fn more op fn (scalarOp_eq (min32_eq _ _))
    case max => exact h.onward_fn more op fn (scalarOp_eq (max32_eq _ _))
    all_goals exact h.onward_fn more op fn rfl
  case slti => exact h.onward_op more op (immOp_eq (slti_eq _ _))
  all_goals exact h.onward_op more op rfl

/-- Settles O10: the value of each row is as the statement writes it. -/
theorem tileScalarFloat : Obligations.TileScalarFloat := by
  unfold Obligations.TileScalarFloat
  intro s uid u tile k ker w h more
  refine ⟨?_, ?_, ?_, ?_, ?_, ?_, ?_, ?_⟩
  all_goals exact fun op fn => h.onward_fn more op fn rfl

/-- Settles O11: the rows of two operands are told by FN without BS, the others by FN. -/
theorem tileVector : Obligations.TileVector := by
  unfold Obligations.TileVector
  intro s uid u tile k ker w h more
  refine ⟨?vadd, ?vsub, ?vmul, ?vmin, ?vmax, ?vfma, ?_⟩
  case vfma => exact fun op fn => h.onward_fn6 more op fn (vfmaOp_eq _ _ _)
  case vadd | vsub | vmul | vmin | vmax => exact fun op fn => h.onward_fn6 more op fn rfl
  refine ⟨?vabs, ?vneg, ?vmov, ?vexp, ?vrecip, ?vlog, ?vitof, ?vftoi, ?vidx, ?vbcast⟩
  case vmov => exact fun op fn => h.onward_fn more op fn (laneOp_id _ _ _)
  all_goals exact fun op fn => h.onward_fn more op fn rfl

/-- Settles O12: the comparisons are told by FN without BS, the others by FN. -/
theorem tilePredicatesAndReductions : Obligations.TilePredicatesAndReductions := by
  unfold Obligations.TilePredicatesAndReductions
  intro s uid u tile k ker w h more
  refine ⟨?vlt, ?vle, ?veq, ?vne, ?_⟩
  case vlt | vle | veq | vne => exact fun op fn => h.onward_fn6 more op fn rfl
  refine ⟨?pand, ?por, ?pxor, ?pandn, ?pnot, ?pset, ?pclr, ?pcnt, ?pfroms, ?ptos, ?vsum, ?vmaxr, ?vminr⟩
  all_goals exact fun op fn => h.onward_fn more op fn rfl

end Sys2Proof.Machine
end

section
/-! THEOREM. Loads, stores and mma of tile code (R235, R238, R239). -/

namespace Sys2Proof.Machine

open Sys2Proof

/-! ### The windows -/

section Windows

variable {k : Kernel} {c : KCall} {a n : Nat} {aligned : Bool} {f : List Byte → KCall} {b : List Byte}

theorem not_outside (inside : inRw k a n ∨ inConst k a n) : (!inRw k a n && !inConst k a n) = false := by
  rcases inside with h | h <;> simp [h]

theorem not_misaligned (whole : aligned = true → a % 4 = 0) : (aligned && decide (a % 4 ≠ 0)) = false := by
  cases aligned <;> simp_all

theorem loadOp_reads (inside : inRw k a n ∨ inConst k a n) (whole : aligned = true → a % 4 = 0) :
    loadOp k c a n aligned f = .next (f (readWin k c a n)) := by
  simp only [loadOp, not_outside inside, not_misaligned whole, Bool.false_eq_true, if_false]

theorem loadOp_outside (notRw : ¬ inRw k a n) (notConst : ¬ inConst k a n) : loadOp k c a n aligned f = .fault 1 0 := by
  simp [loadOp, notRw, notConst]

theorem loadOp_misaligned (inside : inRw k a n ∨ inConst k a n) (odd : a % 4 ≠ 0) : loadOp k c a n true f = .fault 2 0 := by
  simp [loadOp, not_outside inside, odd]

theorem storeOp_writes (inside : inRw k a b.length) (notConst : ¬ inConst k a b.length) (whole : aligned = true → a % 4 = 0) :
    storeOp k c a b aligned = .next (writeWin c a b) := by
  simp only [storeOp, inside, notConst, not_misaligned whole, Bool.not_true, Bool.false_and, Bool.false_eq_true, if_false]

theorem storeOp_outside (notRw : ¬ inRw k a b.length) (notConst : ¬ inConst k a b.length) : storeOp k c a b aligned = .fault 1 0 := by
  simp [storeOp, notRw, notConst]

theorem storeOp_misaligned (inside : inRw k a b.length ∨ inConst k a b.length) (odd : a % 4 ≠ 0) : storeOp k c a b true = .fault 2 0 := by
  simp [storeOp, not_outside inside, odd]

theorem storeOp_readOnly (inside : inConst k a b.length) (whole : aligned = true → a % 4 = 0) : storeOp k c a b aligned = .fault 6 0 := by
  simp only [storeOp, inside, not_misaligned whole, Bool.not_true, Bool.and_false, Bool.false_eq_true, if_false, if_true]

end Windows

/-- The products of mma, from its rows of A and B and the C that it finds (R205, R238). -/
def mmaOut (ker : Kernel) (c : KCall) (w n : Nat) : List Byte :=
  ((List.range 64).map (mmaRow ker c (c.s (iA w)).toNat (iFA w) n)).zipIdx.flatMap fun x =>
    ((List.range 64).map (mmaRow ker c (c.s (iB w)).toNat (iFB w) n)).zipIdx.flatMap fun y =>
      leBytes 4 (mmaElem (iFA w) n (w32 (field (readWin ker c (c.s (iD w)).toNat 16384) (4 * (64 * x.2 + y.2)) 4)) x.1 y.1).toNat

section Mma

variable {ker : Kernel} {c : KCall} {w n : Nat} (hn : (c.s (iD w + 1)).toNat = n)
include hn

theorem mmaOp_writes (whole : n % 32 = 0) (least : 32 ≤ n) (most : n ≤ 4096) (inC : inRw ker (c.s (iD w)).toNat 16384)
    (inA : inRw ker (c.s (iA w)).toNat (64 * vecBytes (iFA w) n)) (inB : inRw ker (c.s (iB w)).toNat (64 * vecBytes (iFB w) n)) :
    mmaOp ker c w = .next (writeWin c (c.s (iD w)).toNat (mmaOut ker c w n)) := by
  simp [mmaOp, mmaOut, hn, whole, least, most, inC, inA, inB]

theorem mmaOp_refuses (bad : n % 32 ≠ 0 ∨ n < 32 ∨ 4096 < n) : mmaOp ker c w = .fault 5 0 := by
  simp only [mmaOp, hn]
  exact if_pos (by simpa [or_assoc] using bad)

end Mma

/-- Settles O13: the windows say what each access does. -/
theorem tileMemory : Obligations.TileMemory := by
  unfold Obligations.TileMemory
  intro s uid u tile k ker w h
  refine ⟨?ld, ?st, ?vld, ?vst, ?mma, ?ldOutside, ?stOutside, ?vldOutside, ?vstOutside, ?ldMisaligned, ?stMisaligned, ?stReadOnly, ?vstReadOnly,
    ?mmaRefused⟩
  case ld => exact fun more op inside whole => h.onward_op more op (loadOp_reads inside fun _ => whole)
  case st => exact fun more op inside notConst whole => h.onward_op more op (storeOp_writes inside notConst fun _ => whole)
  case vld => exact fun more op inside => h.onward_op more op (loadOp_reads inside nofun)
  case vst => exact fun more op inside notConst => h.onward_op more op (storeOp_writes inside notConst nofun)
  case mma => exact fun more op whole least most inC inA inB => h.onward_op more op (mmaOp_writes rfl whole least most inC inA inB)
  case ldOutside => exact fun op notRw notConst => h.stop_op op (loadOp_outside notRw notConst)
  case stOutside => exact fun op notRw notConst => h.stop_op op (storeOp_outside notRw notConst)
  case vldOutside => exact fun op notRw notConst => h.stop_op op (loadOp_outside notRw notConst)
  case vstOutside => exact fun op notRw notConst => h.stop_op op (storeOp_outside notRw notConst)
  case ldMisaligned => exact fun op inside odd => h.stop_op op (loadOp_misaligned inside odd)
  case stMisaligned => exact fun op inside odd => h.stop_op op (storeOp_misaligned inside odd)
  case stReadOnly => exact fun op inside whole => h.stop_op op (storeOp_readOnly inside fun _ => whole)
  case vstReadOnly => exact fun op inside => h.stop_op op (storeOp_readOnly inside nofun)
  case mmaRefused => exact fun op bad => h.stop_op op (mmaOp_refuses rfl bad)

end Sys2Proof.Machine
end

section
/-! THEOREM. Branches, ret and trap of tile code (R235, R239). -/

namespace Sys2Proof.Machine

open Sys2Proof

section Branch

variable {s : State} {uid : Nat} {u : Unit} {tile : Nat} {k : KMachine} {ker : Kernel} {w : Nat} (h : AtWord s uid u tile k ker w)
  {o : Nat} {t : KCall → Nat → Bool}
include h

theorem AtWord.jump_branch (op : iOp w = o) (holds : t k.regs w = true) (inside : ((k.pc : Int) + iImmS w).toNat < ker.code.length) :
    (.next (tileRun uid (rowOp o) (branchOp t) s) : Host.Outcome State Fault Refusal) =
      .next (stepTo s uid k k.regs ((k.pc : Int) + iImmS w).toNat) :=
  congrArg _ (h.tileRun_jump (rowOp_iff.2 op) (if_pos holds) inside)

theorem AtWord.onward_branch (more : k.pc + 1 < ker.code.length) (op : iOp w = o) (fails : t k.regs w = false) :
    .next (tileRun uid (rowOp o) (branchOp t) s) = onward s uid k k.regs :=
  h.onward_op more op (if_neg (Bool.eq_false_iff.1 fails))

end Branch

/-- Settles O14: each branch jumps where its condition holds and goes on where it does not. -/
theorem tileControl : Obligations.TileControl := by
  unfold Obligations.TileControl
  intro s uid u tile k ker w h
  refine ⟨fun op _ inside => h.jump_branch op rfl inside, ?bz, ?bzNot, ?bnz, ?bnzNot, ?bany, ?banyNot, ?bnone, ?bnoneNot, ?ret, ?trap⟩
  case bz | bnz | bany | bnone => exact fun op holds _ inside => h.jump_branch op (decide_eq_true holds) inside
  case bzNot | bnzNot | banyNot | bnoneNot => exact fun op fails more => h.onward_branch more op (decide_eq_false fails)
  case ret => exact fun op => congrArg _ (h.tileRun_ret (rowOp_iff.2 op) rfl)
  case trap => exact fun op => h.stop_op op rfl

end Sys2Proof.Machine
end

section
/-! SUPPORT. The end of a run (R258, R263): what it gives back changes neither the jobs nor the slots of its partition, and with its units
off the tiles no unit of the command is left. -/

namespace Sys2Proof

/-! ### Entries of a map -/

theorem Map.mem_of_look {α : Type} {m : Map α} {k : Nat} {a : α} (h : Map.look m k = some a) : (k, a) ∈ m := by
  induction m with
  | nil => cases h
  | cons e r ih =>
    rw [Map.look_cons] at h
    split at h
    next same =>
      cases h
      exact same ▸ List.mem_cons_self
    · exact List.mem_cons_of_mem _ (ih h)

theorem Map.mem_edit {α : Type} {m : Map α} {k : Nat} {f : α → α} {e : Nat × α} (h : e ∈ Map.edit m k f) :
    e ∈ m ∨ ∃ a, (k, a) ∈ m ∧ e = (k, f a) := by
  unfold Map.edit at h
  split at h
  · exact .inl h
  next a found =>
    rcases Map.mem_place _ _ _ _ h with rfl | other
    · exact .inr ⟨a, Map.mem_of_look found, rfl⟩
    · exact .inl (List.mem_filter.1 other).1

end Sys2Proof

namespace Sys2Proof.Machine

open Sys2Proof

/-! ### Commands with units -/

theorem Unit.isOf_iff (u : Unit) (c : CmdRef) : u.isOf c = true ↔ u.cmd = c := by
  cases c
  simp [Unit.isOf, Unit.cmd, and_assoc]

/-- Every unit of e is of a command that has a unit in d. -/
def UnitsFrom (d e : Sched) : Prop := ∀ a ∈ e.units, ∃ b ∈ d.units, b.2.cmd = a.2.cmd

theorem UnitsFrom.of_units {d e : Sched} (h : e.units = d.units := by rfl) : UnitsFrom d e := fun a ha => ⟨a, h ▸ ha, rfl⟩

theorem UnitsFrom.trans {d e k : Sched} (h : UnitsFrom d e) (m : UnitsFrom e k) : UnitsFrom d k := fun a ha => by
  obtain ⟨b, hb, same⟩ := m a ha
  obtain ⟨b', hb', same'⟩ := h b hb
  exact ⟨b', hb', same'.trans same⟩

/-- A command without units gets none. -/
theorem UnitsFrom.none_left {d e : Sched} (h : UnitsFrom d e) {c : CmdRef} (absent : ∀ a ∈ d.units, a.2.isOf c = false) :
    ∀ a ∈ e.units, a.2.isOf c = false := by
  intro a ha
  obtain ⟨b, hb, same⟩ := h a ha
  have gone := absent b hb
  rw [Bool.eq_false_iff] at gone ⊢
  exact fun mine => gone ((b.2.isOf_iff c).2 (same.trans ((a.2.isOf_iff c).1 mine)))

/-! ### What keeps jobs and slots -/

/-- From s to t the jobs and the slots of partition p are kept, and no command gets its first unit. -/
structure KeepsWork (p : Nat) (s t : State) : Prop where
  jobs : (t.part p).jobs = (s.part p).jobs
  slots : (t.part p).slots = (s.part p).slots
  units : UnitsFrom s.sched t.sched

namespace KeepsWork

variable {p : Nat} {b s t : State}

theorem refl (p : Nat) (s : State) : KeepsWork p s s := ⟨rfl, rfl, .of_units⟩

theorem trans (h : KeepsWork p b s) (k : KeepsWork p s t) : KeepsWork p b t :=
  ⟨k.jobs.trans h.jobs, k.slots.trans h.slots, h.units.trans k.units⟩

theorem onPart (h : KeepsWork p b s) {f : Part → Part} (hj : ∀ x, (f x).jobs = x.jobs := by intro _; rfl)
    (hs : ∀ x, (f x).slots = x.slots := by intro _; rfl) : KeepsWork p b (s.onPart p f) :=
  h.trans ⟨by rw [State.part_onPart, hj], by rw [State.part_onPart, hs], .of_units⟩

/-- A change of other fields, such as the page caches or the flash. -/
theorem of_parts (h : KeepsWork p b s) (parts : t.parts = s.parts := by rfl) (units : UnitsFrom s.sched t.sched := by exact .of_units) :
    KeepsWork p b t :=
  have same := State.part_of_parts s t parts p
  h.trans ⟨by rw [same], by rw [same], units⟩

theorem onSeq (h : KeepsWork p b s) (i : Nat) (f : Seq → Seq) : KeepsWork p b (s.onSeq p i f) := h.onPart
theorem onSet (h : KeepsWork p b s) (n : Nat) (f : PageSet → PageSet) : KeepsWork p b (s.onSet p n f) := h.onPart
theorem onFlash (h : KeepsWork p b s) (f : Flash → Flash) : KeepsWork p b (s.onFlash f) := h.of_parts

theorem onSched (h : KeepsWork p b s) {f : Sched → Sched} (units : UnitsFrom s.sched (f s.sched) := by exact .of_units) :
    KeepsWork p b (s.onSched f) := h.of_parts rfl units

/-- A fold whose every step on an element of the list keeps them. -/
theorem foldl {β : Type} {g : State → β → State} (h : KeepsWork p b s) (l : List β)
    (hg : ∀ u, ∀ e ∈ l, KeepsWork p b u → KeepsWork p b (g u e)) : KeepsWork p b (l.foldl g s) := by
  induction l generalizing s with
  | nil => exact h
  | cons e r ih => exact ih (hg s e (by simp) h) fun u d hd => hg u d (by simp [hd])

end KeepsWork

section Release

variable {p : Nat} {b s : State}

theorem freeObject_keepsWork (h : KeepsWork p b s) (frame : Nat) : KeepsWork p b (freeObject s p frame) := by
  unfold freeObject dropLines t1Write
  exact .onPart (.onPart h.of_parts)

theorem trimTables_keepsWork (h : KeepsWork p b s) : KeepsWork p b (trimTables s p) := by
  unfold trimTables
  exact .onPart (h.foldl _ fun _ _ _ hu => freeObject_keepsWork hu _)

theorem freeLoc_keepsWork (h : KeepsWork p b s) (l : Loc) : KeepsWork p b (freeLoc s p l) := by
  unfold freeLoc
  split
  · exact h
  · split
    · exact freeObject_keepsWork h _
    · exact h.onPart
    · unfold discardFlash
      exact h.onPart

theorem releaseDest_keepsWork (h : KeepsWork p b s) (m : Move) : KeepsWork p b (releaseDest s p m) := by
  unfold releaseDest
  split
  · exact h
  · split
    · exact h.onPart.onFlash _
    · exact freeLoc_keepsWork h _

theorem abandonMove_keepsWork (h : KeepsWork p b s) (id : Nat) : KeepsWork p b (abandonMove s p id) := by
  unfold abandonMove
  split
  · exact h
  · refine (releaseDest_keepsWork h _).onPart (fun x => ?_) (fun x => ?_) <;> dsimp only <;> split <;> rfl

theorem abandonMoves_keepsWork (h : KeepsWork p b s) (t : Move → Bool) : KeepsWork p b (abandonMoves s p t) :=
  h.foldl _ fun _ _ _ hu => abandonMove_keepsWork hu _

theorem lowerSpec_keepsWork (h : KeepsWork p b s) (t : Tent) : KeepsWork p b (lowerSpec s p t) := by
  unfold lowerSpec
  split
  · exact h.onSeq _ _
  · exact h

theorem bareSegment_keepsWork (h : KeepsWork p b s) (n : Nat) : KeepsWork p b (bareSegment s p n) := by
  unfold bareSegment
  split
  · exact h
  · split
    · exact h
    · exact (freeLoc_keepsWork (abandonMoves_keepsWork h _) _).onPart

theorem releaseSet_keepsWork (h : KeepsWork p b s) (psn : Nat) : KeepsWork p b (releaseSet s p psn) := by
  unfold releaseSet
  split
  · exact h
  next d _ =>
    refine trimTables_keepsWork (bareSegment_keepsWork (.onPart ?_) _)
    refine .foldl (.foldl (.foldl (abandonMoves_keepsWork h _) _ ?tents) _ ?old) _ ?homes
    case tents => exact fun _ _ _ hu => freeObject_keepsWork (lowerSpec_keepsWork hu _) _
    case old => exact fun _ _ _ hu => freeLoc_keepsWork hu _
    case homes => exact fun _ _ _ hu => freeLoc_keepsWork hu _

theorem maybeRelease_keepsWork (h : KeepsWork p b s) (psn : Nat) : KeepsWork p b (maybeRelease s p psn) := by
  have marked := abandonMoves_keepsWork (h.onSet psn fun d => { d with releasing := true }) fun m => m.touches psn
  unfold maybeRelease
  split
  · exact h
  · split
    · exact h
    · split
      · exact releaseSet_keepsWork h psn
      · dsimp only
        split
        · exact marked
        · split
          · exact releaseSet_keepsWork marked psn
          · exact marked

theorem unpinAll_keepsWork (h : KeepsWork p b s) (l : List (Nat × Bool)) : KeepsWork p b (unpinAll s p l) :=
  h.foldl l fun _ _ _ hu => maybeRelease_keepsWork (hu.onSet _ _) _

theorem endCause_keepsWork (h : KeepsWork p b s) (f : Flight) : KeepsWork p b (endCause s p f) := by
  unfold endCause
  split
  · exact h
  · unfold stallFree stall
    exact .onPart h.of_parts

end Release

/-! ### Units that leave the tiles -/

theorem popSteal_units {d e : Sched} {t u : Nat} (h : popSteal d t = some (u, e)) : e.units = d.units := by
  obtain ⟨k, _, hk⟩ := List.exists_of_findSome?_eq_some h
  split at hk
  · cases hk
  · cases hk
    rfl

theorem fillTile_unitsFrom (d : Sched) (t : Nat) : UnitsFrom d (fillTile d t) := by
  unfold fillTile
  dsimp only
  split
  · exact .of_units
  · split
    · exact .of_units
    next u e taken =>
      intro a ha
      rcases Map.mem_edit ha with there | ⟨b, there, rfl⟩
      · exact ⟨a, popSteal_units taken ▸ there, rfl⟩
      · exact ⟨(u, b), popSteal_units taken ▸ there, rfl⟩

theorem fillNext_unitsFrom (s : State) : UnitsFrom s.sched (fillNext s).sched :=
  foldl_keeps (UnitsFrom s.sched) _
    (fun _ _ hd => foldl_keeps (UnitsFrom s.sched) _ (fun _ _ hu => hu.trans (fillTile_unitsFrom _ _)) _ _ hd) _ _ .of_units

section Command

variable {c : CmdRef} {b s : State}

theorem removeUnits_keepsWork (h : KeepsWork c.part b s) (lost : Bool) : KeepsWork c.part b (removeUnits s lost fun u => u.isOf c) := by
  have own : ∀ e ∈ s.sched.units.filter fun e => e.2.isOf c, e.2.part = c.part := fun e he => e.2.part_of_isOf (List.mem_filter.1 he).2
  unfold removeUnits
  refine .onSched (.onSched (.foldl (.foldl h _ ?charge) _ ?moves) fun a ha => ⟨a, (List.mem_filter.1 ha).1, rfl⟩) (fillNext_unitsFrom _)
  case charge =>
    intro u e he hu
    split
    · rw [own e he]
      unfold chargeTile
      exact .onPart hu.of_parts
    · exact hu
  case moves =>
    intro u e he hu
    rw [own e he]
    exact abandonMoves_keepsWork hu _

/-- The units of the command are gone. -/
theorem removeUnits_none_left (lost : Bool) : ∀ a ∈ (removeUnits s lost fun u => u.isOf c).sched.units, a.2.isOf c = false :=
  (fillNext_unitsFrom _).none_left fun a ha => by simpa using (List.mem_filter.1 ha).2

theorem abandonPackets_keepsWork (h : KeepsWork c.part b s) (g : Nat → Bool) : KeepsWork c.part b (abandonPackets s c g) := by
  unfold abandonPackets
  exact .onSched (.onPart h)

end Command

/-! ### The end of the run of a command -/

/-- From s to t runs of commands of slot i of partition p have ended. -/
structure EndsRuns (p i : Nat) (s t : State) : Prop where
  jobs : (t.part p).jobs = (s.part p).jobs
  stopped : ∀ j, (t.slot p j).stopped = (s.slot p j).stopped
  window : ∀ j, j ≠ i → (t.slot p j).window = (s.slot p j).window
  units : UnitsFrom s.sched t.sched

namespace EndsRuns

variable {p i : Nat} {b s t : State}

theorem trans (h : EndsRuns p i b s) (k : EndsRuns p i s t) : EndsRuns p i b t where
  jobs := k.jobs.trans h.jobs
  stopped j := (k.stopped j).trans (h.stopped j)
  window j hj := (k.window j hj).trans (h.window j hj)
  units := h.units.trans k.units

theorem of_keepsWork (k : KeepsWork p s t) : EndsRuns p i s t :=
  have same (j : Nat) : t.slot p j = s.slot p j := congrArg (fun l => Map.get l j Slot.reset) k.slots
  ⟨k.jobs, fun j => by rw [same], fun j _ => by rw [same], k.units⟩

/-- A change of one slot that neither stops it nor, in another slot than i, changes its window. -/
theorem onSlot (s : State) (j : Nat) {f : Slot → Slot} (stopped : ∀ x, (f x).stopped = x.stopped)
    (window : j ≠ i → ∀ x, (f x).window = x.window) : EndsRuns p i s (s.onSlot p j f) := by
  have other (k : Nat) (hk : k ≠ j) : (s.onSlot p j f).slot p k = s.slot p k := by
    rw [State.slot, State.part_onSlot, Part.slot_onSlot_ne _ _ _ _ hk]
    rfl
  refine ⟨by rw [State.part_onSlot]; rfl, fun k => ?_, fun k hk => ?_, .of_units⟩
  · by_cases here : k = j
    · rw [here, State.slot_onSlot, stopped]
    · rw [other k here]
  · by_cases here : k = j
    · rw [here, State.slot_onSlot, window (here ▸ hk)]
    · rw [other k here]

theorem onFlight (s : State) (c : CmdRef) (g : Flight → Flight) : EndsRuns c.part c.slot s (s.onFlight c g) :=
  onSlot s c.slot (fun _ => rfl) fun h => absurd rfl h

end EndsRuns

theorem unmark_endsRuns (s : State) (c : CmdRef) (f : Flight) : EndsRuns c.part c.slot s (unmark s c f) := by
  have h := KeepsWork.refl c.part s
  unfold unmark
  split
  · exact .of_keepsWork h
  · split
    · exact .of_keepsWork h.onPart
    · split
      · exact .of_keepsWork h.onPart
      · split
        · exact .onSlot s _ (fun _ => rfl) fun _ _ => rfl
        · exact .of_keepsWork h

/-- The state in which the units of a command have left the tiles, its marks undone and its packets abandoned. -/
def unitsGone (s : State) (kill : Bool) (c : CmdRef) (f : Flight) : State :=
  removeUnits (abandonPackets (unmark s c f) c fun _ => true) kill fun u => u.isOf c

theorem unitsGone_endsRuns (s : State) (kill : Bool) (c : CmdRef) (f : Flight) : EndsRuns c.part c.slot s (unitsGone s kill c f) :=
  (unmark_endsRuns s c f).trans (.of_keepsWork (removeUnits_keepsWork (abandonPackets_keepsWork (.refl c.part _) _) kill))

theorem releaseRun_of_unitsGone (s : State) (kill : Bool) (c : CmdRef) (f : Flight) :
    EndsRuns c.part c.slot (unitsGone s kill c f) (releaseRun s kill c f) := by
  have frames := (KeepsWork.refl c.part (unitsGone s kill c f)).foldl (planFrames f.plan) (g := fun s n => freeObject s c.part n)
    fun _ _ _ hu => freeObject_keepsWork hu _
  have moves := abandonMoves_keepsWork frames fun m => m.cmd = some c
  unfold releaseRun
  refine .trans (.trans (.of_keepsWork (unpinAll_keepsWork (endCause_keepsWork ?cores f) f.pins)) (.onFlight _ c _))
    (.of_keepsWork (trimTables_keepsWork (.refl c.part _)))
  case cores => exact moves.of_parts

theorem releaseRun_endsRuns (s : State) (kill : Bool) (c : CmdRef) (f : Flight) : EndsRuns c.part c.slot s (releaseRun s kill c f) :=
  (unitsGone_endsRuns s kill c f).trans (releaseRun_of_unitsGone s kill c f)

/-- A run that has ended leaves no unit. -/
theorem releaseRun_none_left (s : State) (kill : Bool) (c : CmdRef) (f : Flight) :
    ∀ a ∈ (releaseRun s kill c f).sched.units, a.2.isOf c = false :=
  (releaseRun_of_unitsGone s kill c f).units.none_left (removeUnits_none_left kill)

end Sys2Proof.Machine
end

section
/-! THEOREM. A fault of a unit stops the slots of its job, and no unit of their runs is left (R37, R263). -/

namespace Sys2Proof.Machine

open Sys2Proof

/-! ### The commands of a slot are cut off -/

section Cut

variable {s : State} {p i : Nat}

theorem cutOff_endsRuns (s : State) (c : CmdRef) (f : Flight) : EndsRuns c.part c.slot s (cutOff s c f) := by
  unfold cutOff
  split
  · exact .onFlight s c _
  · exact (releaseRun_endsRuns s false c f).trans (.onFlight _ c _)

theorem cutOff_none_left {c : CmdRef} {f : Flight} (started : f.stage ≠ .fetched) :
    ∀ a ∈ (cutOff s c f).sched.units, a.2.isOf c = false := by
  unfold cutOff
  rw [if_neg started]
  exact releaseRun_none_left s false c f

/-- The commands of a list cut off in slot i. -/
def cutAll (p i : Nat) (s : State) (l : List Flight) : State := l.foldl (fun s f => cutOff s ⟨p, i, f.index⟩ f) s

theorem cutAll_endsRuns (s : State) (l : List Flight) : EndsRuns p i s (cutAll p i s l) :=
  foldl_keeps (EndsRuns p i s) _ (fun _ f h => h.trans (cutOff_endsRuns _ ⟨p, i, f.index⟩ f)) l s (.of_keepsWork (.refl p s))

theorem cutAll_none_left {l : List Flight} {f : Flight} (hf : f ∈ l) (started : f.stage ≠ .fetched) (s : State) :
    ∀ a ∈ (cutAll p i s l).sched.units, a.2.isOf ⟨p, i, f.index⟩ = false := by
  induction l generalizing s with
  | nil => cases hf
  | cons g l ih =>
    rcases List.mem_cons.1 hf with rfl | later
    · exact (cutAll_endsRuns _ l).units.none_left (cutOff_none_left started)
    · exact ih later _

end Cut

/-! ### A slot stops -/

/-- A slot stops fetching, and what it is fetching is dropped (R263 step 2). -/
def stopFetching (p : Nat) (s : State) (i : Nat) : State := dropFetches (s.onSlot p i fun z => { z with stopped := true }) p i

theorem slot_stopFetching_same (s : State) (p i : Nat) : (stopFetching p s i).slot p i = { s.slot p i with stopped := true } :=
  State.slot_onSlot s p i _

theorem slot_stopFetching_ne (s : State) (p : Nat) {i j : Nat} (h : j ≠ i) : (stopFetching p s i).slot p j = s.slot p j :=
  (congrArg (fun x : Part => x.slot j) (State.part_onSlot s p i _)).trans (Part.slot_onSlot_ne _ i j _ h)

/-- The slot stops fetching, and its commands are cut off (R263 steps 2 and 3). -/
def haltSlot (p : Nat) (s : State) (i : Nat) : State :=
  cutAll p i (stopFetching p s i) (((stopFetching p s i).slot p i).window.filter fun f => !outlives f)

section Halt

variable (s : State) (p i j : Nat)

theorem haltSlot_endsRuns : EndsRuns p i (stopFetching p s i) (haltSlot p s i) := cutAll_endsRuns _ _

theorem haltSlot_jobs : ((haltSlot p s i).part p).jobs = (s.part p).jobs := by
  have kept : (stopFetching p s i).part p = (s.part p).onSlot i _ := State.part_onSlot s p i _
  rw [(haltSlot_endsRuns s p i).jobs, kept, Part.onSlot_jobs]

theorem haltSlot_stopped : ((haltSlot p s i).slot p j).stopped = (decide (j = i) || (s.slot p j).stopped) := by
  rw [(haltSlot_endsRuns s p i).stopped]
  by_cases here : j = i
  · simp [here, slot_stopFetching_same]
  · simp [here, slot_stopFetching_ne]

theorem haltSlot_window (h : j ≠ i) : ((haltSlot p s i).slot p j).window = (s.slot p j).window := by
  rw [(haltSlot_endsRuns s p i).window j h, slot_stopFetching_ne s p h]

theorem haltSlot_units : UnitsFrom s.sched (haltSlot p s i).sched := (haltSlot_endsRuns s p i).units

variable {s p i}

theorem haltSlot_none_left {f : Flight} (here : f ∈ (s.slot p i).window) (cut : outlives f = false) (started : f.stage ≠ .fetched) :
    ∀ a ∈ (haltSlot p s i).sched.units, a.2.isOf ⟨p, i, f.index⟩ = false :=
  cutAll_none_left (List.mem_filter.2 ⟨by rw [slot_stopFetching_same]; exact here, by rw [cut]; rfl⟩) started _

end Halt

/-! ### The slots of a job stop -/

section Slots

variable (p : Nat) (l : List Nat) (s : State)

theorem foldl_haltSlot_jobs : ((l.foldl (haltSlot p) s).part p).jobs = (s.part p).jobs :=
  foldl_same (fun s : State => (s.part p).jobs) _ (fun s i => haltSlot_jobs s p i) l s

theorem foldl_haltSlot_stopped (j : Nat) : ((l.foldl (haltSlot p) s).slot p j).stopped = (decide (j ∈ l) || (s.slot p j).stopped) := by
  induction l generalizing s with
  | nil => simp
  | cons i l ih => rw [List.foldl_cons, ih, haltSlot_stopped]; simp [Bool.or_left_comm, Bool.or_assoc]

theorem foldl_haltSlot_units : UnitsFrom s.sched (l.foldl (haltSlot p) s).sched :=
  foldl_keeps (fun t => UnitsFrom s.sched t.sched) _ (fun t i h => h.trans (haltSlot_units t p i)) l s .of_units

variable {p l s}

theorem foldl_haltSlot_none_left {i : Nat} (hi : i ∈ l) {f : Flight} (here : f ∈ (s.slot p i).window) (cut : outlives f = false)
    (started : f.stage ≠ .fetched) : ∀ a ∈ (l.foldl (haltSlot p) s).sched.units, a.2.isOf ⟨p, i, f.index⟩ = false := by
  induction l generalizing s with
  | nil => cases hi
  | cons j l ih =>
    by_cases first : i = j
    · subst first
      exact (foldl_haltSlot_units p l _).none_left (haltSlot_none_left here cut started)
    · refine ih (by simpa [first] using hi) ?_
      rw [haltSlot_window s p j i first]
      exact here

end Slots

/-! ### The fault of a job -/

/-- The fault's entry in the job table (R263 step 1); job 0 stays Bound. -/
def recordFault (s : State) (p j : Nat) (jf : JobFault) : State :=
  s.onPart p fun x => { x with jobs := Map.put x.jobs j { Map.get (s.part p).jobs j Job.reset with
    state := if j = 0 then .bound else .faulted, fault := some jf } }

theorem slot_recordFault (s : State) (p j : Nat) (jf : JobFault) (i : Nat) : (recordFault s p j jf).slot p i = s.slot p i := by
  rw [State.slot, recordFault, State.part_onPart]
  rfl

theorem job_recordFault (s : State) (p j : Nat) (jf : JobFault) : Map.get ((recordFault s p j jf).part p).jobs j Job.reset =
    { Map.get (s.part p).jobs j Job.reset with state := if j = 0 then .bound else .faulted, fault := some jf } := by
  rw [recordFault, State.part_onPart, Map.get_put_same]

/-- The first fault of a job is recorded, and its slots are halted. -/
theorem faultJob_first {s : State} {u : Unit} {j : Nat} (hj : j = (s.slot u.part u.slot).job) (first : faultOf (s.part u.part) j = none)
    (tile kind code word imm : Nat) :
    faultJob s u tile kind code word imm = (slotsOf (s.part u.part) j).foldl (haltSlot u.part)
      (recordFault s u.part j ⟨u.slot, u.index, (s.slot u.part u.slot).ring, cTag (wordOf s u.cmd), cOpcode (wordOf s u.cmd), kind, code, word,
        imm, tile⟩) := by
  subst hj
  have bound (jf : JobFault) (k : Nat) : slotsOf ((recordFault s u.part k jf).part u.part) k = slotsOf (s.part u.part) k := by
    rw [recordFault, State.part_onPart]
    rfl
  rw [← bound]
  exact if_neg (by rw [Option.not_isSome_iff_eq_none]; exact first)

/-- Settles O37: the record of the fault is the job's new entry, and halting each slot of the job stops it and ends its runs. -/
theorem faultStopsJob : Obligations.FaultStopsJob := by
  unfold Obligations.FaultStopsJob
  intro s u tile kind code word imm p y t first
  have halted := faultJob_first rfl first tile kind code word imm
  have entry : Map.get (t.part p).jobs y.job Job.reset = _ :=
    (congrArg (fun s : State => Map.get (s.part p).jobs y.job Job.reset) halted).trans
      ((congrArg (fun l => Map.get l y.job Job.reset) (foldl_haltSlot_jobs p _ _)).trans (job_recordFault s p y.job _))
  have stopped (i : Nat) : (t.slot p i).stopped = (decide (i ∈ slotsOf (s.part p) y.job) || (s.slot p i).stopped) := by
    rw [show t = _ from halted, foldl_haltSlot_stopped, slot_recordFault]
  refine ⟨by rw [entry], by rw [entry], fun i hi => by simp [stopped, hi], fun i hi => by simp [stopped, hi], fun i hi f here cut started => ?_⟩
  rw [show t = _ from halted]
  exact foldl_haltSlot_none_left hi (by rw [slot_recordFault]; exact here) cut started

end Sys2Proof.Machine
end

section
/-! THEOREM. The virtual times of an interval, and the THERMAL code of the accounting record (R249, R270): what is done for each partition, and in
each quadrant, is done once and leaves the others alone. -/

namespace Sys2Proof

/-! ### A fold that visits each place once -/

section Once

variable {α β γ : Type} {g : α → β → α} (φ : α → β → γ) (other : ∀ s b c, c ≠ b → φ (g s b) c = φ s c) {l : List β} {b : β}
include other

theorem foldl_elsewhere (hb : b ∉ l) (s : α) : φ (l.foldl g s) b = φ s b := by
  induction l generalizing s with
  | nil => rfl
  | cons c l ih =>
    obtain ⟨ne, out⟩ : b ≠ c ∧ b ∉ l := by simpa using hb
    exact (ih out _).trans (other s c b ne)

/-- Where a step changes one place alone and keeps P, the fold leaves at a place what its one visit there makes of what stood there. -/
theorem foldl_once {P : α → Prop} (keeps : ∀ s c, P s → P (g s c)) (once : l.Nodup) (hb : b ∈ l) {s : α} (hs : P s) :
    ∃ u, P u ∧ φ u b = φ s b ∧ φ (l.foldl g s) b = φ (g u b) b := by
  induction l generalizing s with
  | nil => cases hb
  | cons c l ih =>
    obtain ⟨out, rest⟩ := List.nodup_cons.1 once
    by_cases here : b = c
    · subst here
      exact ⟨s, hs, rfl, foldl_elsewhere φ other out _⟩
    · obtain ⟨u, hu, same, made⟩ := ih rest (by simpa [here] using hb) (keeps s c hs)
      exact ⟨u, hu, same.trans (other s c b here), made⟩

end Once

end Sys2Proof

namespace Sys2Proof.Machine

open Sys2Proof

/-! ### Virtual time -/

/-- The units of a partition that run in a quadrant. -/
def runCount (s : State) (p q : Nat) : Nat := (s.sched.units.filter fun e => e.2.runsFor p q).length

/-- The units that run, and the weights, are in t as in s: the virtual times depend on them. -/
structure SameLoad (s t : State) : Prop where
  runs : ∀ p q, runCount t p q = runCount s p q
  weight : ∀ p, weightOf t p = weightOf s p

theorem SameLoad.refl (s : State) : SameLoad s s := ⟨fun _ _ => rfl, fun _ => rfl⟩

theorem SameLoad.trans {s t u : State} (h : SameLoad s t) (k : SameLoad t u) : SameLoad s u :=
  ⟨fun p q => (k.runs p q).trans (h.runs p q), fun p => (k.weight p).trans (h.weight p)⟩

/-- The whole interval counted for a partition in a quadrant, and the next one begun. -/
def closeInterval (p : Nat) (s : State) (q : Nat) : State := (addVtime s p q 64).onPart p fun x => { x with vdone := Map.put x.vdone q 0 }

theorem State.part_onSched (s : State) (f : Sched → Sched) (p : Nat) : (s.onSched f).part p = s.part p := rfl

theorem part_addVtime (s : State) (p q dt : Nat) : (addVtime s p q dt).part p = { s.part p with
    vtime := Map.put (s.part p).vtime q
      (vtimeOf s p q + ((runCount s p q * (dt - Map.get (s.part p).vdone q 0) : Nat) : Rat) / ((weightOf s p : Nat) : Rat))
    vdone := Map.put (s.part p).vdone q (Nat.max (Map.get (s.part p).vdone q 0) dt) } := by
  rw [addVtime, State.part_onSched, State.part_onPart]
  rfl

theorem part_addVtime_ne (s : State) {p o : Nat} (q dt : Nat) (h : o ≠ p) : (addVtime s p q dt).part o = s.part o := by
  rw [addVtime, State.part_onSched, State.part_onPart_ne s p o _ h]

theorem part_closeInterval (s : State) (p q : Nat) : (closeInterval p s q).part p = { s.part p with
    vtime := Map.put (s.part p).vtime q
      (vtimeOf s p q + ((runCount s p q * (64 - Map.get (s.part p).vdone q 0) : Nat) : Rat) / ((weightOf s p : Nat) : Rat))
    vdone := Map.put (s.part p).vdone q 0 } := by
  rw [closeInterval, State.part_onPart, part_addVtime, Map.put_put]

theorem part_closeInterval_ne (s : State) {p o : Nat} (q : Nat) (h : o ≠ p) : (closeInterval p s q).part o = s.part o :=
  (State.part_onPart_ne _ p o _ h).trans (part_addVtime_ne s q 64 h)

/-- Counting a run changes neither where a unit runs nor for whom. -/
theorem runCount_addVtime (s : State) (p q dt o r : Nat) : runCount (addVtime s p q dt) o r = runCount s o r := by
  have same (d : Nat) (u : Unit) : (if u.runsFor p q then { u with counted := u.counted + d } else u).runsFor o r = u.runsFor o r := by
    split <;> rfl
  simp only [runCount, addVtime, State.onSched_sched, State.onPart_sched, Map.each, List.filter_map, List.length_map, Function.comp_def, same]

theorem closeInterval_sameLoad (s : State) (p q : Nat) : SameLoad s (closeInterval p s q) := by
  refine ⟨fun o r => runCount_addVtime s p q 64 o r, fun o => ?_⟩
  have grant : ((closeInterval p s q).part o).grant = (s.part o).grant := by
    by_cases own : o = p
    · rw [own, part_closeInterval]
    · rw [part_closeInterval_ne s q own]
  rw [weightOf, grant]
  rfl

theorem foldl_closeInterval_sameLoad (p : Nat) (l : List Nat) (s : State) : SameLoad s (l.foldl (closeInterval p) s) :=
  foldl_keeps (SameLoad s) _ (fun t q h => h.trans (closeInterval_sameLoad t p q)) l s (.refl s)

/-- The intervals of a partition are closed in the four quadrants. -/
def closeIntervals (s : State) (p : Nat) : State := [0, 1, 2, 3].foldl (closeInterval p) s

theorem part_closeIntervals_ne (s : State) (p o : Nat) (h : o ≠ p) : (closeIntervals s p).part o = s.part o :=
  foldl_same (fun s : State => s.part o) _ (fun s q => part_closeInterval_ne s q h) _ s

/-- The virtual time of a partition in a quadrant, and what of the interval it has counted. -/
def vclock (p : Nat) (s : State) (q : Nat) : Rat × Nat := (vtimeOf s p q, Map.get (s.part p).vdone q 0)

theorem vclock_closeInterval_ne (p : Nat) (s : State) (q r : Nat) (h : r ≠ q) : vclock p (closeInterval p s q) r = vclock p s r := by
  simp [vclock, vtimeOf, part_closeInterval, h]

theorem vclock_closeInterval (p : Nat) (s : State) (q : Nat) : vclock p (closeInterval p s q) q =
    ((vclock p s q).1 + ((runCount s p q * (64 - (vclock p s q).2) : Nat) : Rat) / ((weightOf s p : Nat) : Rat), 0) := by
  simp [vclock, vtimeOf, part_closeInterval]

/-- Each quadrant's clock goes on by its own interval. -/
theorem vclock_closeIntervals (s : State) (p : Nat) {q : Nat} (hq : q < 4) : vclock p (closeIntervals s p) q =
    ((vclock p s q).1 + ((runCount s p q * (64 - (vclock p s q).2) : Nat) : Rat) / ((weightOf s p : Nat) : Rat), 0) := by
  have there : q ∈ [0, 1, 2, 3] := by simp; omega
  obtain ⟨u, load, same, made⟩ := foldl_once (vclock p) (vclock_closeInterval_ne p) (P := SameLoad s)
    (fun t r h => h.trans (closeInterval_sameLoad t p r)) (by decide) there (.refl s)
  rw [closeIntervals, made, vclock_closeInterval, same, load.runs, load.weight]

theorem virtualTimeUpdate_eq (s : State) : virtualTimeUpdate s = s.livePartitions.foldl closeIntervals s := rfl

/-- What the virtual times are no part of. -/
def besideVtime (s : State) : List Host.Cell × Oxsis × Flash := (s.hostMem, s.oxs, s.flash)

theorem besideVtime_virtualTimeUpdate (s : State) : besideVtime (virtualTimeUpdate s) = besideVtime s :=
  foldl_same besideVtime _ (fun s p => foldl_same besideVtime (closeInterval p) (fun _ _ => rfl) _ s) _ s

/-- Settles O35: each live partition's intervals are closed once, in each quadrant once. -/
theorem virtualTimeAdvances : Obligations.VirtualTimeAdvances := by
  unfold Obligations.VirtualTimeAdvances
  intro s
  refine ⟨virtualTimeUpdate s, rfl, fun p live q hq => ?_, fun p absent q => ?_, ?_⟩
  · obtain ⟨u, load, same, made⟩ := foldl_once State.part part_closeIntervals_ne (P := SameLoad s)
      (fun t o h => h.trans (foldl_closeInterval_sameLoad o _ t)) (nodup_livePartitions s) live (.refl s)
    have clock := vclock_closeIntervals u p hq
    rw [load.runs, load.weight] at clock
    simp only [vclock, vtimeOf, same, ← made] at clock
    exact Prod.mk.inj clock
  · rw [vtimeOf, virtualTimeUpdate_eq, foldl_elsewhere State.part part_closeIntervals_ne absent, vtimeOf]
  · simpa [besideVtime] using besideVtime_virtualTimeUpdate s

/-! ### The THERMAL code -/

theorem leBytes_seventh (a b c d e : Nat) (r : List Byte) :
    (leBytes 2 a ++ (leBytes 2 b ++ (leBytes 1 c ++ (leBytes 1 d ++ (leBytes 1 e ++ r)))))[6]? = some (BitVec.ofNat 8 e) := rfl

theorem acctRecord_thermal (s : State) (p : Nat) : (acctRecord s p)[6]? = some (BitVec.ofNat 8 (thermalCode s (s.part p))) := by
  unfold acctRecord
  simp only [List.append_assoc]
  generalize leBytes 4 s.nowS ++ _ = rest
  exact leBytes_seventh 1 256 p _ _ _

/-- A window that ends raises OVER_SLICE and notes it, or does neither (R269, R270). -/
theorem closeWindow_over (x : Part) :
    ((closeWindow x).acct.overSlice = x.acct.overSlice + 1 ∧ (closeWindow x).acct.lastOver = true) ∨
      ((closeWindow x).acct.overSlice = x.acct.overSlice ∧ (closeWindow x).acct.lastOver = false) := by
  by_cases above : x.grant.sliceW * 10 ^ 10 < x.acct.tilePjWindow
  · exact .inl ⟨if_pos above, decide_eq_true above⟩
  · exact .inr ⟨if_neg above, decide_eq_false above⟩

/-- The window of each live partition ends once. -/
theorem part_windowEnd {s : State} (on : s.power.chip = .on) {p : Nat} (live : p ∈ s.livePartitions) :
    (windowEnd s).part p = closeWindow (s.part p) := by
  obtain ⟨u, -, same, made⟩ := foldl_once State.part (g := fun s p => s.onPart p closeWindow) (fun s p o h => State.part_onPart_ne s p o _ h)
    (P := fun _ => True) (fun _ _ _ => trivial) (nodup_livePartitions s) live (s := s) trivial
  rw [State.part_onPart, same] at made
  rw [windowEnd, if_neg (by simp [on])]
  exact made

theorem emerg_noteCap (w : Power) : (noteCap w).emerg = w.emerg := by
  unfold noteCap
  split
  · split <;> rfl
  · rfl

theorem emerg_windowEnd (s : State) : (windowEnd s).power.emerg = s.power.emerg := by
  unfold windowEnd
  split
  · rfl
  · exact (emerg_noteCap _).trans (foldl_same (fun s : State => s.power.emerg) (fun s p => s.onPart p closeWindow) (fun _ _ => rfl) _ s)

end Sys2Proof.Machine

namespace Sys2Proof

open Machine

/-- Settles O44: byte 6 of the record is the code, and what it notes of a window is whether that window was counted. -/
theorem thermalCode : Obligations.ThermalCode := by
  unfold Obligations.ThermalCode
  refine ⟨fun s p => ?_, fun s p on live => ⟨windowEnd s, rfl, emerg_windowEnd s, ?_⟩⟩
  · rw [acctRecord_thermal, Machine.thermalCode]
    cases s.power.emerg
    · cases (s.part p).acct.lastOver <;> rfl
    · rfl
  · rw [part_windowEnd on live]
    exact closeWindow_over _

end Sys2Proof
end

section
/-! THEOREM. The commands that write a report: acct_read and cap_read (R67, R265). -/

namespace Sys2Proof.Machine

open Sys2Proof

section Report

variable {s : State} {c : CmdStep} {f : Flight} (R : Ready s c f)
include R

/-- A command that asks for its commit at once, wakes no sequence and writes a record of 256 bytes that it reads at its commit point. -/
theorem Ready.runCommand_report {isRow : List Byte → Bool} {start : State → CmdStep → Slot → Flight → Start}
    {record : State → Nat → List Byte} {a : Nat} (row : isRow f.word = true) (asleep : wakes f.word = false)
    (go : ∀ x, start (begun s c) c x (begunFlight s c f) = request (begun s c) c.ref)
    (point : ∀ t x g, g.word = f.word → commitOp t c.ref x g = .done t St.success 256 0 [(a, record t c.ref.part)]) :
    let r := requestedIn (begun s c) c
    runCommand isRow start commitCmd c s = committed r c.ref f St.success 256 0 [(a, record r c.ref.part)] := by
  refine R.runCommand_request row go (fun x g word _ => ?_) rfl
  rw [rewake_of_not_wakes _ _ _ (by rw [word]; exact asleep)]
  exact point _ x g word

theorem acctRead_commits (op : cOpcode f.word = Op.acctRead) (room : 256 ≤ field f.word 0x14 4) (aligned : cAddr18 f.word % 64 = 0) :
    let r := requestedIn (begun s c) c
    exec (.acctRead c) s = .next (committed r c.ref f St.success 256 0 [(cAddr18 f.word, acctRecord r c.ref.part)]) := by
  refine congrArg Host.Outcome.next (R.runCommand_report (decide_eq_true op) (by rw [wakes, op]; rfl) (fun x => ?start) fun t x g word => ?commit)
  case start =>
    refine if_neg ?_
    simp [begunFlight_word, Nat.not_lt.2 room, aligned]
  case commit =>
    have row : commitOp t c.ref x g = commitAcctRead t c.ref x g := by
      rw [commitOp_of_opcode (by rw [word, op]; decide), word, op]
      rfl
    rw [row, commitAcctRead, word]

theorem capRead_commits (op : cOpcode f.word = Op.capRead) (aligned : cAddr18 f.word % 64 = 0) :
    let r := requestedIn (begun s c) c
    exec (.capRead c) s = .next (committed r c.ref f St.success 256 0 [(cAddr18 f.word, capRecord r c.ref.part)]) := by
  refine congrArg Host.Outcome.next (R.runCommand_report (decide_eq_true op) (by rw [wakes, op]; rfl) (fun x => ?start) fun t x g word => ?commit)
  case start => exact if_neg (by rw [begunFlight_word]; simpa using aligned)
  case commit =>
    have row : commitOp t c.ref x g = commitCapRead t c.ref x g := by
      rw [commitOp_of_opcode (by rw [word, op]; decide), word, op]
      rfl
    rw [row, commitCapRead, word]

end Report

/-- Settles O19: each row by its own lemma. -/
theorem reportCommands : Obligations.ReportCommands := by
  unfold Obligations.ReportCommands
  exact fun s c f R => ⟨acctRead_commits R, capRead_commits R⟩

end Sys2Proof.Machine
end

section
/-! THEOREM. Units on the tiles: their placement and start, their end, and how they yield and are evicted (R240 to R256). -/

namespace Sys2Proof.Machine

open Sys2Proof

/-! ### Placement -/

theorem unitPlacement_of_single {s : State} {q uid : Nat} {u : Unit} (chosen : nextReady s q = some (uid, u)) (single : (gangOf s u).length < 2) :
    unitPlacement q s = placeUnit s uid u := by
  simp only [unitPlacement, chosen, Nat.not_le.2 single, if_false]

section Place

variable {s : State} {uid : Nat} {u : Unit}

theorem placeUnit_of_idle {t : Nat} (idle : idleTile s u.quad = some t) :
    placeUnit s uid u = movePointer (putOnTile s uid t u.quad) u.quad := by
  simp only [placeUnit, idle]

theorem putOnTileWith_awake {tile q : Nat} {g : Mates} (state : quadState s q ≠ .sleep) (free : sleepAccepted s q = false) :
    putOnTileWith s uid tile q g = runUnitWith (s.onPower fun w => { w with quads := Map.put w.quads q .run }) uid tile g :=
  if_neg (by simp [state, free])

theorem putOnTileWith_asleep {tile q : Nat} {g : Mates} (asleep : quadState s q = .sleep ∨ sleepAccepted s q = true) :
    putOnTileWith s uid tile q g = ((s.onPower fun w => { w with quadWake := Map.put w.quadWake q true }).onTile tile fun y =>
      { y with next := some uid }).onUnit uid fun x => { x with place := .next tile } :=
  if_pos (by simpa using asleep)

theorem placeUnit_of_queue (busy : idleTile s u.quad = none) {g : Nat}
    (shortest : leastBy (fun g => (stealOf s u.quad g).length) (List.range 16) = some g) (room : (stealOf s u.quad g).length < 8) :
    placeUnit s uid u = fillNext (movePointer (setSteal s u.quad g
      (if snareAllowed s u then uid :: stealOf s u.quad g else stealOf s u.quad g ++ [uid])) u.quad) := by
  simp only [placeUnit, busy, shortest, Option.getD_some, room, if_true]
  split <;> rfl

end Place

/-- Settles O33: one unit by where placeUnit puts it, a gang and the start of a tile's next unit by their conditions. -/
theorem placementOfUnits : Obligations.PlacementOfUnits := by
  unfold Obligations.PlacementOfUnits
  refine ⟨fun s q uid u chosen single => ?_, fun s q uid u chosen => ?gang, fun s tile uid empty next awake => ?start⟩
  · have placed : exec (.unitPlacement q) s = .next (placeUnit s uid u) := congrArg _ (unitPlacement_of_single chosen single)
    refine ⟨fun t idle ⟨awake, free⟩ => ?_, fun t idle asleep => ?_, fun busy common g shortest room => ?_,
      fun busy snare g shortest room => ?_⟩
    · rw [placed, placeUnit_of_idle idle, putOnTile, putOnTileWith_awake awake free, runUnit]
    · rw [placed, placeUnit_of_idle idle, putOnTile, putOnTileWith_asleep asleep]
    · rw [placed, placeUnit_of_queue busy shortest room, if_neg (by simp [common])]
    · rw [placed, placeUnit_of_queue busy shortest room, if_pos snare]
  case gang =>
    intro l g idle several fits t rest front
    have together : ¬ (decide (l.length < 2) || decide (idle.length + (8 - (stealOf s q g).length) < l.length)) = true := by
      simp only [Bool.or_eq_true, decide_eq_true_eq, not_or, Nat.not_lt]
      exact ⟨several, fits⟩
    refine congrArg Host.Outcome.next ?_
    simp only [gangPlacement, chosen]
    exact if_neg together
  case start =>
    refine congrArg Host.Outcome.next ?_
    simp only [unitStart, empty, next, awake, if_false]

/-! ### End and yield -/

section Running

variable {s : State} {tile uid : Nat} {u : Unit} (running : (tileOf s tile).running = some uid) (unit : s.unit uid = some u)
include running unit

theorem unitEnd_ends (landed : u.reads = []) (idle : u.kernelIdle = true) (hc dt : Nat) :
    let t := (chargeTile (addVtime s u.part u.quad dt) u.part u.quad hc u.snare false).onAcct u.part fun a => { a with units := a.units + 1 }
    let e := match u.kind with
      | .append => endAppend t u
      | .attend => endAttend t uid u
      | .kernel => endKernel t u
    unitEnd tile hc dt s = leaveTile (delUnit e uid) tile := by
  simp only [unitEnd, running, unit, landed, idle]
  rfl

theorem unitYield_yields {k : Nat} (waits : u.reads.head? = some k) (late : codeCause k ≠ Stall.moveBuf) (once : u.hasYielded = false)
    (on : s.sched.yieldWait ≠ 0) (hc : Nat) :
    unitYield tile hc s = leaveTile ((leaveCalls (chargeTile s u.part u.quad hc u.snare true) uid).onUnit uid
      fun x => { x with place := .yielded, hasYielded := true, took := none }) tile := by
  simp only [unitYield, running, unit, waits, Option.map_some, Option.getD_some, once]
  exact if_neg (by simp [late, on])

/-- A unit whose reads have landed does not wait, and one that has yielded does not yield again (R256). -/
theorem unitYield_stays (h : u.reads = [] ∨ u.hasYielded = true) (hc : Nat) : unitYield tile hc s = s := by
  simp only [unitYield, running, unit]
  refine if_pos ?_
  rcases h with landed | yielded
  · simp [landed]
  · simp [yielded]

end Running

theorem yieldedReady_of_yielded {s : State} {uid : Nat} {u : Unit} (unit : s.unit uid = some u) (place : u.place = .yielded) :
    yieldedReady uid s =
      if u.reads = [] then (activate s u.part u.quad).onUnit uid fun x => { x with place := .ready } else s := by
  simp only [yieldedReady, unit, place, decide_true, Bool.true_and, decide_eq_true_eq]

/-! ### Eviction -/

/-- The state after the eviction has taken back the share of the virtual time of the evicted unit's run and what its reads were charged (R253). -/
def takeBack (s : State) (x : Unit) : State :=
  let t := s.onPart x.part fun y =>
    { y with vtime := Map.put y.vtime x.quad (Map.get y.vtime x.quad 0 - ((x.counted : Nat) : Rat) / ((weightOf s x.part : Nat) : Rat))
             evictions := y.evictions + 1 }
  match x.took with
  | some k => t.onAcct x.part fun a => { a with t0 := a.t0 - k.1, t1Rd := a.t1Rd - k.2.1, t1Wr := a.t1Wr - k.2.2 }
  | none => t

theorem unitEvict_evicts {s : State} {uid v tile : Nat} {u x : Unit} (unit : s.unit uid = some u) (classMode : s.sched.classMode = true)
    (on : s.sched.evictWait ≠ 0) (critical : u.bestEffort = false) (once : u.caused = false)
    (waits : u.place = .ready ∨ (∃ g, u.place = .steal g) ∨ ∃ k, u.place = .next k) (victim : evictVictim s u.quad = some (v, x))
    (place : x.place = .running tile) :
    let t := (leaveCalls (takeBack (unqueue s uid u) x) v).onUnit v fun y => { y with place := .ready, hasEvicted := true, counted := 0 }
    let t := t.onUnit uid fun y => { y with caused := true }
    unitEvict uid s = fillNext (runUnit (t.onTile tile fun k => { k with running := none }) uid tile) := by
  simp only [unitEvict, unit, victim, place]
  refine if_neg ?_
  rcases waits with h | ⟨g, h⟩ | ⟨k, h⟩ <;> simp [classMode, on, critical, once, h]

/-- Settles O34: each row by its own lemma. -/
theorem endOfUnits : Obligations.EndOfUnits := by
  unfold Obligations.EndOfUnits
  refine ⟨fun s tile uid u running unit => ⟨?_, ?_, ?_, ?_⟩, fun s uid u unit place => ⟨fun landed => ?_, fun waits => ?_⟩, ?evict⟩
  · exact fun landed idle hc dt => congrArg _ (unitEnd_ends running unit landed idle hc dt)
  · exact fun k waits late once on hc => congrArg _ (unitYield_yields running unit waits late once on hc)
  · exact fun landed hc => congrArg _ (unitYield_stays running unit (.inl landed) hc)
  · exact fun yielded hc => congrArg _ (unitYield_stays running unit (.inr yielded) hc)
  · exact congrArg _ ((yieldedReady_of_yielded unit place).trans (if_pos landed))
  · exact congrArg _ ((yieldedReady_of_yielded unit place).trans (if_neg waits))
  case evict =>
    intro s uid v tile u x unit classMode on critical once waits victim place
    exact congrArg _ (unitEvict_evicts unit classMode on critical once waits victim place)

end Sys2Proof.Machine
end

section
/-! THEOREM. Errors of tiles, and the end of the teardown of a faulted job (R262 to R264, R449). -/

namespace Sys2Proof.Machine

open Sys2Proof

/-! ### Errors of tiles -/

section Tile

variable {s : State} {tile : Nat} (real : tile < 1024) (on : s.power.chip = .on)
include real on

theorem tile_present : ¬ (decide (1024 ≤ tile) || s.power.chip != .on) = true := by simp [real, on]

theorem tileError_of_held (held : heldUnits s tile ≠ []) :
    tileError tile s = retireTile ((heldUnits s tile).foldl (fun s u => faultJob s u tile 2 0 0 0) s) tile := by
  rw [tileError, if_neg (tile_present real on)]
  split
  next empty => exact absurd empty held
  · rfl

theorem tileError_of_empty (empty : heldUnits s tile = []) : tileError tile s =
    logError (retireTile s tile) { ErrRecord.blank with source := Src.tile, severity := 1, action := Act.tileRetired, loc0 := tile } := by
  rw [tileError, if_neg (tile_present real on), empty]

/-- A corrected error is logged, and more than 16 within 24 h retire a tile that is not retired yet (R449). -/
theorem tileCorrected_eq : tileCorrected tile s =
    let l := lastDay s.nowS (tileOf s tile).corrected
    let r := { ErrRecord.blank with source := Src.tile, action := Act.corrected, loc0 := tile }
    let u := s.onTile tile fun t => { t with corrected := l }
    if 16 < l.length ∧ (tileOf s tile).retired = false then logError (retireTile u tile) { r with action := Act.tileRetired } else logError u r := by
  rw [tileCorrected, if_neg (tile_present real on)]
  simp only [Bool.and_eq_true, decide_eq_true_eq, Bool.not_eq_true']

end Tile

/-- The errors of the last 24 h and the one now. -/
theorem mem_lastDay (now n : Nat) (l : List Nat) : n ∈ lastDay now l ↔ n = now ∨ (n ∈ l ∧ now ≤ n + 86400) := by
  simp [lastDay, or_comm]

/-! ### The end of a teardown -/

section Teardown

variable {s : State} {p j : Nat}

/-- A commit request that is left holds the teardown up (R263 step 4). -/
theorem jobTeardown_waits {jf : JobFault} (fault : faultOf (s.part p) j = some jf)
    (left : ∃ i ∈ slotsOf (s.part p) j, ∃ f ∈ (s.slot p i).window, outlives f = true) : jobTeardown p j s = s := by
  simp only [jobTeardown, fault]
  exact if_pos (by simpa [List.any_eq_true] using left)

/-- With none left the teardown goes on. -/
theorem commitRequests_ended (none_left : ∀ i ∈ slotsOf (s.part p) j, ∀ f ∈ (s.slot p i).window, outlives f = false) :
    ¬ ((slotsOf (s.part p) j).any fun i => (s.slot p i).window.any outlives) = true := by
  simpa [List.any_eq_true] using none_left

end Teardown

/-- Settles O36: the errors of tiles by the lemmas of their rows, the teardown by whether a commit request is left. -/
theorem jobFaultAndTeardown : Obligations.JobFaultAndTeardown := by
  unfold Obligations.JobFaultAndTeardown
  refine ⟨fun s tile real on => ⟨fun held => ?_, fun empty => ?_, ?corrected⟩,
    fun s p j jf fault => ⟨fun left => ?_, fun none_left other => ?_⟩⟩
  · exact congrArg _ (tileError_of_held real on held)
  · exact congrArg _ (tileError_of_empty real on empty)
  case corrected =>
    have row := tileCorrected_eq real on
    refine ⟨fun n => mem_lastDay _ n _, fun few => ?_, fun many fresh => ?_⟩
    · exact congrArg _ (row.trans (if_neg fun ⟨many, fresh⟩ => by simp [fresh, Nat.not_le.2 many] at few))
    · exact congrArg _ (row.trans (if_pos ⟨many, fresh⟩))
  · exact congrArg _ (jobTeardown_waits fault left)
  · refine congrArg Host.Outcome.next ?_
    simp only [jobTeardown, fault]
    exact (if_neg (commitRequests_ended none_left)).trans (if_neg other)

end Sys2Proof.Machine
end

section
/-! THEOREM. The map of flash, its checkpoint, and the end of the start (R281, R282, R301, R303 to R305, R365). -/

namespace Sys2Proof.Machine

open Sys2Proof

/-! ### A device frame changes neither a partition nor a checkpoint slot -/

/-- What the programming of device frames leaves alone (R300, R301). -/
def besideFrames (s : State) : Map Part × Map Checkpoint := (s.parts, s.flash.secure.slots)

theorem besideFrames_putDevice (s : State) (kind b : Nat) (isSeal : Bool) (data : List Byte) :
    besideFrames (putDevice s kind b isSeal data) = besideFrames s := rfl

theorem besideFrames_areaFrame {s t : State} {a : Area} {c : Nat} {isSeal : Bool} {data : List Byte} (h : areaFrame s a c isSeal data = some t) :
    besideFrames t = besideFrames s := by
  simp only [areaFrame] at h
  split at h
  next opened =>
    obtain rfl := Option.some.inj h
    exact besideFrames_putDevice _ _ _ _ _
  next =>
    split at h
    · cases h
    next free =>
      obtain rfl := Option.some.inj h
      exact besideFrames_putDevice _ _ _ _ _

theorem besideFrames_stripe {a : Area} {i n : Nat} {s t : State} (h : stripe a i n s = some t) : besideFrames t = besideFrames s := by
  induction n generalizing i s with
  | zero =>
    cases h
    rfl
  | succ n ih =>
    obtain ⟨u, hu, ht⟩ := Option.bind_eq_some_iff.1 h
    exact (ih ht).trans (besideFrames_areaFrame hu)

theorem besideFrames_dropArea (s : State) (a : Area) (c : Nat) : besideFrames (dropArea s a c) = besideFrames s := by
  unfold dropArea
  refine foldl_same besideFrames _ (fun s b => ?_) _ _
  split <;> rfl

theorem besideFrames_putAnchor (data : List Byte) (s : State) (c : Nat) : besideFrames (putAnchor data s c) = besideFrames s := by
  simp only [putAnchor]
  split
  next opened => exact besideFrames_putDevice _ _ _ _ _
  next =>
    split
    · rfl
    next erased =>
      refine (besideFrames_putDevice _ _ _ _ _).trans ?_
      split <;> rfl

/-! ### CHECKPOINT_WRITE (R301) -/

/-- The checkpoint slot that is not current. -/
def spareSlot (f : Flash) : Nat :=
  match currentSlot f with
  | some e => 1 - e.1
  | none => 0

/-- The state with the frames of a checkpoint in the spare slot and a frame with SEAL on each channel, where there are blocks for them. -/
def checkpointFramed (s : State) : Option State :=
  let a := Area.checkpoint (spareSlot s.flash)
  (stripe a 0 (checkpointFrames s) ([0, 16].foldl (fun s c => dropArea s a c) s)).bind fun u => (areaFrame u a 0 true []).bind fun u => areaFrame u a 16 true []

theorem besideFrames_checkpointFramed {s t : State} (h : checkpointFramed s = some t) : besideFrames t = besideFrames s := by
  obtain ⟨u, hu, h⟩ := Option.bind_eq_some_iff.1 h
  obtain ⟨v, hv, ht⟩ := Option.bind_eq_some_iff.1 h
  calc besideFrames t = besideFrames v := besideFrames_areaFrame ht
    _ = besideFrames u := besideFrames_areaFrame hv
    _ = besideFrames ([0, 16].foldl (fun s c => dropArea s _ c) s) := besideFrames_stripe hu
    _ = besideFrames s := foldl_same besideFrames _ (fun s c => besideFrames_dropArea s _ c) _ _

/-- The state with the checkpoint in its slot, the log begun again and the anchors that name it. -/
def checkpointNamed (s t : State) : State :=
  let slot := spareSlot s.flash
  let seq := s.flash.cpSeq + 1
  let t := t.onSecure fun c => { c with slots := Map.put c.slots slot (checkpointOf s seq (t.flash.wseq + 2)) }
  let t := [0, 16].foldl (fun s c => dropArea s .log c) t
  [0, 16].foldl (putAnchor (anchorData t seq slot)) t

theorem besideFrames_checkpointNamed (s t : State) : besideFrames (checkpointNamed s t) =
    (t.parts, Map.put t.flash.secure.slots (spareSlot s.flash) (checkpointOf s (s.flash.cpSeq + 1) (t.flash.wseq + 2))) :=
  (foldl_same besideFrames _ (besideFrames_putAnchor _) _ _).trans (foldl_same besideFrames _ (fun s c => besideFrames_dropArea s _ c) _ _)

/-- The checkpoint seq is current: what came before it counts no longer. -/
def checkpointCurrent (s : State) (seq : Nat) (life : List (Nat × Nat × Nat × Nat)) : State :=
  s.onFlash fun f => { f with cpSeq := seq, dirty := false, secure := { f.secure with openRecord := none, logGaps := [], life := life } }

theorem besideFrames_checkpointCurrent (s : State) (seq : Nat) (life : List (Nat × Nat × Nat × Nat)) :
    besideFrames (checkpointCurrent s seq life) = besideFrames s := rfl

theorem writeCheckpoint_eq {s : State} (online : metaOnline s = true) : writeCheckpoint s =
    match checkpointFramed s with
    | none => s
    | some t => checkpointCurrent (checkpointNamed s t) (s.flash.cpSeq + 1) s.health.daily := by
  unfold writeCheckpoint
  rw [online]
  rfl

/-- While the host reaches PF0 the link does not rest. -/
theorem linkAsleep_of_reaches {s : State} (h : s.reaches 16 = true) : s.linkAsleep = false := by
  have on : s.power.chip = .on := by simp_all [State.reaches, State.hostUp]
  simp [State.linkAsleep, on]

theorem exec_checkpointWrite {s : State} (awake : s.linkAsleep = false) : exec .checkpointWrite s = .next (checkpointWrite s) :=
  congrArg Host.Outcome.next (if_neg (by simp [awake]))

theorem checkpointWrite_refused {s : State} (h : s.reaches 16 = false ∨ s.flash.phase ≠ 5 ∨ metaOnline s = false) : checkpointWrite s = s := by
  unfold checkpointWrite
  split
  next may =>
    have offline : metaOnline s = false := by simp_all
    simp [writeCheckpoint, offline]
  · rfl

section Operating

variable {s : State} (reached : s.reaches 16 = true) (operating : s.flash.phase = 5) (online : metaOnline s = true)
include reached operating online

theorem checkpointWrite_full (full : checkpointFramed s = none) : checkpointWrite s = s := by
  rw [checkpointWrite, if_pos (by simp [reached, operating]), writeCheckpoint_eq online, full]

theorem checkpointWrite_framed {u : State} (framed : checkpointFramed s = some u) :
    checkpointWrite s = checkpointCurrent (checkpointNamed s u) (s.flash.cpSeq + 1) s.health.daily := by
  rw [checkpointWrite, if_pos (by simp [reached, operating]), writeCheckpoint_eq online, framed]

/-- The partitions and the slots after a checkpoint has been written. -/
theorem besideFrames_checkpointWrite {u : State} (framed : checkpointFramed s = some u) : besideFrames (checkpointWrite s) =
    (s.parts, Map.put s.flash.secure.slots (spareSlot s.flash) (checkpointOf s (s.flash.cpSeq + 1) (u.flash.wseq + 2))) := by
  have same : besideFrames u = besideFrames s := besideFrames_checkpointFramed framed
  have parts : u.parts = s.parts := congrArg Prod.fst same
  have slots : u.flash.secure.slots = s.flash.secure.slots := congrArg Prod.snd same
  rw [checkpointWrite_framed reached operating online framed, besideFrames_checkpointCurrent, besideFrames_checkpointNamed, parts, slots]

theorem look_slots_checkpointWrite {u : State} (framed : checkpointFramed s = some u) :
    Map.look (checkpointWrite s).flash.secure.slots (spareSlot s.flash) = some (checkpointOf s (s.flash.cpSeq + 1) (u.flash.wseq + 2)) := by
  have slots : (checkpointWrite s).flash.secure.slots = _ := congrArg Prod.snd (besideFrames_checkpointWrite reached operating online framed)
  rw [slots, Map.look_put_same]

end Operating

/-! ### Map segments (R281, R282) -/

theorem mapSegmentFetch_ok {s : State} {p g : Nat} (there : (s.part p).flash.hostSegs.contains g = true) (bme : s.pf0Bme = true) (up : s.hostUp = true) :
    mapSegmentFetch p g .ok s =
      stallFree ((bringSegment s p g).onPart p fun x => { x with ingress := x.ingress.takeAll 67584 true }) p Stall.flashLate := by
  rw [mapSegmentFetch, if_neg (by rw [there]; decide), if_pos (by simp [bme, up])]

theorem mapSegmentFetch_error {s : State} {p g : Nat} (there : (s.part p).flash.hostSegs.contains g = true) :
    mapSegmentFetch p g .error s = s.onPart p fun x => { x with flash := { x.flash with
      hostSegs := x.flash.hostSegs.filter fun n => n ≠ g
      lostSegs := if x.flash.lostSegs.contains g then x.flash.lostSegs else x.flash.lostSegs ++ [g] } } := by
  rw [mapSegmentFetch, if_neg (by rw [there]; decide), if_neg (by simp)]

theorem mapSegmentRebuild_room {s : State} {p g : Nat} (lost : (s.part p).flash.lostSegs.contains g = true) (bad : List Place)
    (room : (dramSegments (s.part p).flash).length < dramShare (s.part p) ∨ (s.part p).flash.hostSegs.length < hostShare s (s.part p)) :
    let found := (mergeMap (scanFrames s (bad ++ unsettled s p)) p).map.filter fun e => segmentOf e.1 = g
    mapSegmentRebuild p g bad s = bringSegment (s.onPart p fun x => { x with flash := { x.flash with
      map := found.foldl (fun m e => Map.put m e.1 e.2) (x.flash.map.filter fun e => segmentOf e.1 ≠ g) } }) p g :=
  if_neg (by
    rw [lost]
    rcases room with h | h <;> simp [h])

theorem mapSegmentRebuild_no_room {s : State} {p : Nat} (g : Nat) (bad : List Place) (dram : dramShare (s.part p) ≤ (dramSegments (s.part p).flash).length)
    (host : hostShare s (s.part p) ≤ (s.part p).flash.hostSegs.length) : mapSegmentRebuild p g bad s = s :=
  if_pos (by simp [Nat.not_lt.2 dram, Nat.not_lt.2 host])

/-! ### The stages of the start (R303 to R305, R365) -/

section Load

variable {s : State} {c : Checkpoint} (stage : s.stage = 3) (names : s.checkpoint = some c)
include stage names

theorem mapLoad_readable (readable : s.flash.cpReadable = true) :
    let t := ({ s with parts := s.parts.map (loadPart s c) } : State).onFlash fun f =>
      { f with blocks := f.blocks.map (loadBlock s c), wseq := Nat.max f.wseq c.wseq, gaps := savedGaps s, dirty := false, rebuilt := false, phase := 4 }
    mapLoad s = freePercent { resumeClock (findOpen (applyBad t)) with stage := 5 } := by
  simp only [mapLoad, stage, names]
  exact if_neg (by simp [readable])

theorem mapLoad_unreadable (unreadable : s.flash.cpReadable = false) :
    mapLoad s = (freePercent { s with stage := 4 }).onFlash fun f => { f with phase := 2 } := by
  simp only [mapLoad, stage, names]
  exact if_pos (by simp [unreadable])

end Load

theorem mapLoad_other_stage {s : State} (other : s.stage ≠ 3) : mapLoad s = s := by
  unfold mapLoad
  split
  next stage _ => exact absurd stage other
  · rfl

theorem mapScan_other_stage {s : State} (other : s.stage ≠ 4) : mapScan s = s := if_pos other

theorem mapScan_scans {s : State} (stage : s.stage = 4) :
    let bad := s.flash.badHeaders
    let b := applyBad s
    let t : State := { b with parts := b.parts.map (scanPart b (scanFrames b bad)) }
    let t := t.onFlash fun f =>
      { f with
        blocks := scanBlocks t bad f.blocks
        wseq := (t.flash.frames.filter fun e => !badHeader bad e.1 e.2).foldl (fun n e => Nat.max n e.2.wseq) 0 + 2 ^ 20
        dirty := f.secure.openRecord.isSome, rebuilt := true, phase := 4, gaps := savedGaps t }
    mapScan s = freePercent { resumeClock (findOpen t) with stage := 5 } :=
  if_neg fun other => other stage

theorem restStore_other_stage {s : State} (other : s.stage ≠ 5) (ms : Nat) (bad : List Place) : restStore ms bad s = s := if_pos other

theorem restStore_ready {s : State} (stage : s.stage = 5) (ms : Nat) (bad : List Place) :
    let t := s.livePartitions.foldl (recoverPart bad) s
    let t := (freePercent { t with stage := 6 }).onFlash fun f => { f with phase := 5 }
    let t := postRecord t 16 0 (readyRecord t 0 ms) none
    restStore ms bad s = t.livePartitions.foldl (fun u p => postRecord u p 0 (readyRecord u (u.part p).seqs.length ms) none) t :=
  if_neg fun other => other stage

/-- Settles O51: each row by its own lemmas; the checkpoint by what the programming of its frames leaves alone. -/
theorem flashMapRows : Obligations.FlashMapRows := by
  unfold Obligations.FlashMapRows
  refine ⟨fun s p g there => ⟨?_, ?_⟩, fun s p g bad lost => ⟨?_, ?_⟩, ?refused,
    fun s reached operating online => ⟨fun full => ?_, fun u framed => ?_⟩, fun s c stage names => ⟨?_, ?_⟩, ?_, ?_, ?_, ?_, ?_⟩
  · exact fun bme up => congrArg _ (mapSegmentFetch_ok there bme up)
  · exact congrArg _ (mapSegmentFetch_error there)
  · exact fun room => congrArg _ (mapSegmentRebuild_room lost bad room)
  · exact fun dram host => congrArg _ (mapSegmentRebuild_no_room g bad dram host)
  case refused => exact fun s awake refused => (exec_checkpointWrite awake).trans (congrArg _ (checkpointWrite_refused refused))
  · exact (exec_checkpointWrite (linkAsleep_of_reaches reached)).trans (congrArg _ (checkpointWrite_full reached operating online full))
  · have row : checkpointWrite s = checkpointCurrent _ (s.flash.cpSeq + 1) s.health.daily := checkpointWrite_framed reached operating online framed
    refine ⟨_, exec_checkpointWrite (linkAsleep_of_reaches reached), ?_, ?_, ?_, ?_,
      congrArg Prod.fst (besideFrames_checkpointWrite reached operating online framed), look_slots_checkpointWrite reached operating online framed⟩
    all_goals rw [row]; rfl
  · exact fun readable => congrArg _ (mapLoad_readable stage names readable)
  · exact fun unreadable => congrArg _ (mapLoad_unreadable stage names unreadable)
  · exact fun s other => congrArg _ (mapLoad_other_stage other)
  · exact fun s stage => congrArg _ (mapScan_scans stage)
  · exact fun s other => congrArg _ (mapScan_other_stage other)
  · exact fun s ms bad stage => congrArg _ (restStore_ready stage ms bad)
  · exact fun s ms bad other => congrArg _ (restStore_other_stage other ms bad)

end Sys2Proof.Machine
end

section
/-! THEOREM. The events of the flash manager: programs and erases, reads, collection, wear levelling, refresh, patrol, discard records, dies and training
(R272, R283, R285, R287, R288, R290, R292, R295, R296, R298, R299). -/

namespace Sys2Proof.Machine

open Sys2Proof

/-! ### Programs (R283, R285, R299) -/

section Program

variable {s : State} {a : Place} {gid : Nat} {g : Group} (waits : (s.flash.groups.find? fun g => g.2.waiting.contains a) = some (gid, g))
include waits

theorem programComplete_failed : programComplete a false s = programFailed s gid a := by
  simp only [programComplete, waits]
  exact if_pos rfl

/-- The state with a program that has passed noted in its frame, its group and its block. -/
def notePass (s : State) (a : Place) (gid : Nat) (left : List Place) : State :=
  fillBlock ((s.onFlash fun d => { d with frames := Map.edit d.frames (placeNo a) fun f => { f with passed := true } }).onGroup gid
    fun g => { g with waiting := left }) (blockOf a)

theorem programComplete_passed :
    let left := g.waiting.filter fun b => b ≠ a
    let t := notePass s a gid left
    programComplete a true s = pumpAll (if left = [] ∧ g.todo = [] then sealGroup t gid { g with waiting := [] } else pump gid 32 t) a.channel := by
  simp only [programComplete, waits, Bool.not_true, Bool.false_eq_true, if_false, Bool.and_eq_true, decide_eq_true_eq]
  rfl

end Program

/-! ### Erases (R285, R290, R299) -/

/-- The state without the frames of a block, which no area has any more. -/
def blockEmptied (s : State) (n : Nat) : State :=
  (s.onFlash fun f => { f with frames := f.frames.filter fun e => e.1 / 4096 ≠ n }).onSecure
    fun c => { c with areas := Map.each c.areas fun l => l.filter fun m => m ≠ n }

section Erase

variable {s : State} {b : BlockId} (erasing : (s.block (blockNo b.channel b.die b.block)).state = .erasing)
include erasing

theorem eraseComplete_failed :
    let n := blockNo b.channel b.die b.block
    eraseComplete b false s = mediaRecord (retireBlock (blockEmptied s n) n) Src.flashErase 1 Act.blockRetired ⟨b.channel, b.die, b.block, 0⟩ :=
  if_neg (by simp [erasing])

theorem eraseComplete_passed {ch : Channel} (channel : s.channel b.channel = some ch) :
    let n := blockNo b.channel b.die b.block
    let u := (blockEmptied s n).onBlock n fun k => { Block.reset with eraseCnt := k.eraseCnt + 1 }
    eraseComplete b true s =
      pumpAll (eraseEmpty (if ch.profile.endurance ≤ (s.block n).eraseCnt + 1 then retireBlock u n else u) b.channel) b.channel := by
  have same : (blockEmptied s (blockNo b.channel b.die b.block)).channel b.channel = some ch := channel
  refine (if_neg (by simp [erasing])).trans ?_
  simp only [blockEmptied] at same ⊢
  simp only [same, Bool.not_true, Bool.false_eq_true, if_false]

end Erase

/-! ### Reads (R282, R294, R295, R299) -/

section Read

variable {s : State} {id : Nat} {r : ReadReq} (read : Map.look s.flash.reads id = some r)
include read

theorem flashReadComplete_copyOut {a : Place} {refresh : Bool} (what : r.what = .copyOut a refresh) (res : FlashReadResult) :
    flashReadComplete id res s = copyOutRead (s.onFlash fun f => { f with reads := Map.del f.reads id }) r.part a refresh
      (r.places.all fun e => s.placeUp e.2) res := by
  simp only [flashReadComplete, read, what]

variable (demand : ∀ a b, r.what ≠ .copyOut a b)
include demand

theorem flashReadComplete_waits (unissued : r.places = []) (away : segmentsAway s r.part r.addr (ceilDiv r.bytes 65536) ≠ []) (res : FlashReadResult) :
    flashReadComplete id res s = s := by
  simp only [flashReadComplete, read]
  exact if_pos (by simp [unissued, away])

theorem flashReadComplete_ends (issued : r.places ≠ [] ∨ segmentsAway s r.part r.addr (ceilDiv r.bytes 65536) = []) (res : FlashReadResult) :
    let u := endFlashRead (s.onFlash fun f => { f with reads := Map.del f.reads id }) r.part r.addr (ceilDiv r.bytes 65536) r.places res
      ((readVictims s id r).map (wordOf s))
    flashReadComplete id res s = (dedup (r.places.map fun e => blockOf e.2)).foldl settleBlock (finishRead u.2 (flashCode id) r u.1) := by
  simp only [flashReadComplete, read]
  exact if_neg (by rcases issued with h | h <;> simp [h])

end Read

@[simp] theorem readResult_decoded (s : State) (e : MapEntry) : readResult s e .decoded = .decoded := rfl
@[simp] theorem readResult_uncorrectable (s : State) (e : MapEntry) : readResult s e .uncorrectable = .uncorrectable := rfl

/-- A result at an option that the read tries stands (R295). -/
theorem readResult_retried {s : State} {e : MapEntry} {ch : Channel} (channel : s.channel e.place.channel = some ch) {o : Nat}
    (tried : o < startOption s e + 8) (given : o < ch.profile.retryOptions) (soft : Bool) : readResult s e (.retried o soft) = .retried o soft := by
  simp [readResult, channel, tried, given]

theorem endFlashRead_uncorrectable (s : State) (p lfn n : Nat) (places : List (Nat × Place)) (cmds : List (List Byte)) :
    (endFlashRead s p lfn n places .uncorrectable cmds).1 = false := by
  simp only [endFlashRead, readResult_uncorrectable]
  split <;> rfl

/-- The map entry of the first frame of a run is that of its first LFN. -/
theorem head?_entries (m : Map MapEntry) {lfn n : Nat} {e : MapEntry} (some_frame : n ≠ 0) (first : Map.look m lfn = some e) :
    ((List.range n).filterMap fun i => (Map.look m (lfn + i)).map fun e => (lfn + i, e)).head? = some (lfn, e) := by
  obtain ⟨k, rfl⟩ := Nat.exists_eq_succ_of_ne_zero some_frame
  simp [List.range_succ_eq_map, first]

theorem endFlashRead_decoded {s : State} {p lfn n : Nat} {places : List (Nat × Place)} {e : MapEntry} (some_frame : n ≠ 0)
    (first : Map.look (s.part p).flash.map lfn = some e) (issued : places.length = n) (up : (places.all fun x => s.placeUp x.2) = true)
    (cmds : List (List Byte)) : (endFlashRead s p lfn n places .decoded cmds).1 = true := by
  simp [endFlashRead, head?_entries _ some_frame first, issued, up]

/-! ### Collection (R286 to R288, R420) -/

section OnChannel

variable {s : State} {c : Nat} {ch : Channel} (channel : s.channel c = some ch)
include channel

theorem collectionStart_eq (online : ch.online = true) (free : s.holds 9 = false) :
    collectionStart c s = if collectMode s c = .foreground then collect (eraseEmpty s c) c else eraseEmpty s c := by
  simp only [collectionStart, channel]
  exact if_neg (by simp [online, free])

theorem collectionIdle_idle (online : ch.online = true) (free : s.holds 9 = false) (idle : demandOn s c = false) :
    collectionIdle c s =
      nextCopyOut (if collectMode (eraseEmpty s c) c = .background then collect (eraseEmpty s c) c else eraseEmpty s c) c true := by
  simp only [collectionIdle, channel]
  exact if_neg (by simp [online, free, idle])

theorem collectionIdle_demand (demand : demandOn s c = true) : collectionIdle c s = s := by
  simp only [collectionIdle, channel]
  exact if_pos (by simp [demand])

/-! ### Refresh (R296) -/

theorem retentionRefresh_eq (online : ch.online = true) (free : s.holds 9 = false) {a : Place} (on : a.channel = c) {n : Nat × Nat × MapEntry}
    (named : s.namedBy a = some n) :
    retentionRefresh a s = if ch.profile.retentionLimitS < retentionAge s n.2.2 then refreshFrame s a else s := by
  subst on
  simp [retentionRefresh, named, channel, online, free]

/-! ### Dies and training (R272, R299) -/

theorem flashTempRetrain_trains (online : ch.online = true) {tempC : Int} (moved : 30 ≤ (tempC - ch.lastTempC).natAbs) (trained : Bool) :
    let t := s.onChannel c fun k => { k with lastTempC := tempC, online := trained }
    flashTempRetrain c tempC trained s = if trained then t else t.onHealth fun h => { h with degraded := true } := by
  simp only [flashTempRetrain, channel]
  exact if_neg (by simp [online, moved])

theorem flashTempRetrain_stays {tempC : Int} (near : (tempC - ch.lastTempC).natAbs < 30) (trained : Bool) : flashTempRetrain c tempC trained s = s := by
  simp only [flashTempRetrain, channel]
  exact if_pos (by simp [near])

theorem dieReadyTimeout_offline (online : ch.online = true) {die : Nat} (alive : ch.dead.contains die = false) (there : die < ch.profile.dies) :
    let t := (mediaRecord (s.onChannel c fun k => { k with dead := k.dead ++ [die] }) Src.flashDie 2 Act.dieOffline ⟨c, die, 0, 0⟩).onHealth
      fun h => { h with degraded := true }
    dieReadyTimeout c die s = (t.flash.groups.map fun g => g.1).foldl (reissue c die) t := by
  simp only [dieReadyTimeout, channel]
  refine if_neg ?_
  rw [online, alive]
  simp [there]

end OnChannel

/-! ### Patrol (R298) -/

theorem place_of_namedBy {s : State} {a : Place} {n : Nat × Nat × MapEntry} (h : s.namedBy a = some n) : n.2.2.place = a := by
  unfold State.namedBy at h
  split at h
  · cases h
  · split at h
    · split at h
      next names =>
        obtain rfl := Option.some.inj h
        simp_all
      · cases h
    · cases h

/-- The state with the patrol of a die past a place. -/
def patrolPast (s : State) (a : Place) : State :=
  s.onFlash fun f => { f with patrol := Map.put f.patrol (16 * a.channel + a.die) (placeNo a + 1, (patrolAt s a.channel a.die).2) }

section Patrol

variable {s : State} {a : Place} {n : Nat × Nat × MapEntry} (named : s.namedBy a = some n)
include named

theorem patrolRead_demand (demand : dieDemand s a.channel a.die = true) (res : FlashReadResult) : patrolRead a res s = s := by
  simp only [patrolRead, named]
  exact if_pos (by simp [demand])

variable (free : s.holds 9 = false) (on : s.flash.patrolEn = true) (operating : s.flash.phase = 5) (up : s.placeUp a = true)
  (idle : dieDemand s a.channel a.die = false) (next : patrolNext s a.channel a.die (patrolAt s a.channel a.die).1 = some (placeNo a))
include free on operating up idle next

theorem patrolRead_reads (res : FlashReadResult) :
    let t := patrolPast s a
    let r := readResult t n.2.2 res
    patrolRead a res s =
      if r = .uncorrectable then uncorrectable t n.1 n.2.1 (some n.2.2) []
      else if wantsRefresh t n.2.2 r then refreshFrame (noteRetry t n.1 [n.2.1] r) a else noteRetry t n.1 [n.2.1] r := by
  simp only [patrolRead, named]
  exact if_neg (by simp [free, on, operating, up, idle, next])

theorem patrolRead_uncorrectable : patrolRead a .uncorrectable s = uncorrectable (patrolPast s a) n.1 n.2.1 (some n.2.2) [] :=
  (patrolRead_reads named free on operating up idle next _).trans (if_pos rfl)

theorem patrolRead_decoded : patrolRead a .decoded s = patrolPast s a :=
  (patrolRead_reads named free on operating up idle next _).trans rfl

theorem patrolRead_soft {ch : Channel} (channel : s.channel a.channel = some ch) {o : Nat} (tried : o < startOption (patrolPast s a) n.2.2 + 8)
    (given : o < ch.profile.retryOptions) :
    patrolRead a (.retried o true) s = refreshFrame (noteRetry (patrolPast s a) n.1 [n.2.1] (.retried o true)) a := by
  have here : (patrolPast s a).channel n.2.2.place.channel = some ch := by rw [place_of_namedBy named]; exact channel
  rw [patrolRead_reads named free on operating up idle next, readResult_retried here tried given]
  rfl

end Patrol

/-! ### Static wear levelling (R292) -/

/-- Good blocks of a channel on dies that answer. -/
def upBlocks (s : State) (c : Nat) : Map Block := (goodBlocks s c).filter fun e => s.placeUp ⟨c, blockDie e.1, 0, 0⟩

def highErase (s : State) (c : Nat) : Nat := (goodBlocks s c).foldl (fun m e => Nat.max m e.2.eraseCnt) 0

def lowErase (s : State) (c : Nat) : Nat := (goodBlocks s c).foldl (fun m e => Nat.min m e.2.eraseCnt) (highErase s c)

/-- The filled block with the fewest erases. -/
def youngBlock (s : State) (c : Nat) : Option (Nat × Block) :=
  leastBy (fun e : Nat × Block => e.2.eraseCnt) ((upBlocks s c).filter fun e =>
    (e.2.state = .full || (e.2.state = .opened && pagesPerBlock s c ≤ e.2.nextPage)) && !e.2.stuck && !blockHeld s e.1 && !anchorBlock e.1)

/-- The FREE block with the most erases. -/
def oldBlock (s : State) (c : Nat) : Option (Nat × Block) :=
  leastBy (fun e : Nat × Block => highErase s c - e.2.eraseCnt) ((upBlocks s c).filter fun e => e.2.state = .free && !anchorBlock e.1)

theorem staticWearLevel_levelled {s : State} {c : Nat} (levelled : levelledNow s c = true) : staticWearLevel c s = s := if_pos (by simp [levelled])

theorem staticWearLevel_eq {s : State} {c : Nat} (device : c = 0 ∨ c = 16) (due : levelledNow s c = false) {young old : Nat × Block}
    (hy : youngBlock s c = some young) (ho : oldBlock s c = some old) :
    let t := (s.onBlock old.1 fun k => { k with state := .opened, forCopies := true }).onChannel c fun k => { k with wear := some old.1, wearAt := s.nowS }
    staticWearLevel c s =
      if highErase s c - lowErase s c ≤ 500 then s
      else settleBlock (endWear (readOutBlock (t.onBlock young.1 fun k => { k with state := .victim }) young.1) c) young.1 := by
  simp only [youngBlock, oldBlock, upBlocks, highErase] at hy ho
  refine (if_neg (by rcases device with rfl | rfl <;> simp [due])).trans ?_
  simp only [hy, ho]
  rfl

/-! ### What waits for the flash manager (R420) -/

section Held

variable {s : State} (held : s.holds 9 = true)
include held

theorem collectionStart_held (c : Nat) : collectionStart c s = s := by
  unfold collectionStart
  split
  · rfl
  · exact if_pos (by simp [held])

theorem collectionIdle_held (c : Nat) : collectionIdle c s = s := by
  unfold collectionIdle
  split
  · rfl
  · exact if_pos (by simp [held])

theorem retentionRefresh_held (a : Place) : retentionRefresh a s = s := by
  unfold retentionRefresh
  split
  · exact if_neg (by simp [held])
  · rfl

theorem patrolRead_held (a : Place) (res : FlashReadResult) : patrolRead a res s = s := by
  simp only [patrolRead]
  split
  · rfl
  · exact if_pos (by simp [held])

theorem levelledNow_held (c : Nat) : levelledNow s c = true := by
  unfold levelledNow
  split
  · simp [held]
  · rfl

end Held

/-! ### Discard records (R290) -/

/-- The frame of a discard record. -/
def discardFrame (p epoch : Nat) (now : List (Place × Nat)) : Frame :=
  { blankFrame with kind := 5, part := p, isSeal := true, epoch := epoch, glen := 1, obj := now.length, data := now.flatMap fun d => discardEntry d.1 d.2 }

theorem discardProgram_starts {s : State} {p c : Nat} (real : p < 16) (some_entry : (s.part p).flash.discards ≠ []) (chosen : chooseChannel s p 1 = some c) :
    let now := (s.part p).flash.discards.take 8192
    let f := discardFrame p (s.part p).epoch now
    let t := s.onPart p fun x => { x with flash := { x.flash with discards := x.flash.discards.drop 8192 } }
    let die := ((t.channel c).map fun ch => ch.d0).getD 0
    discardProgram p s = (startGroup t ⟨c, p, [(die, f)], [(die, f)], [], [], [], false, true, now, none, 0, false, false⟩).1 := by
  obtain ⟨d, l, now⟩ := List.exists_cons_of_ne_nil (l := (s.part p).flash.discards.take 8192) (by simp [some_entry])
  simp only [discardProgram, now, real, if_true, chosen]
  rfl

/-- Settles O50: each row by its own lemmas, and what the flash manager holds up by `collectionStart_held` and its neighbours. -/
theorem flashEvents : Obligations.FlashEvents := by
  unfold Obligations.FlashEvents
  refine ⟨fun s a gid g waits => ⟨?_, ?_, ?_⟩, fun s b erasing => ⟨?_, ?_⟩,
    fun s id r read => ⟨?_, fun demand => ⟨?_, fun issued => ⟨?_, ?_, ?_⟩⟩⟩,
    ?held, fun s c ch channel online free => ⟨?_, ?_, ?_, fun idle => ⟨?_, ?_⟩, ?_, ?_, ?_, fun a n on named => ⟨?_, ?_⟩,
      fun a n on named patrols operating up => ⟨?_, fun idle next => ⟨?_, ?_, ?_⟩⟩⟩,
    ?levelled, fun s c device due young old hy ho => ⟨?_, ?_⟩, ?discard⟩
  · exact congrArg Host.Outcome.next (programComplete_failed waits)
  · exact fun last =>
      congrArg Host.Outcome.next ((programComplete_passed waits).trans (congrArg (pumpAll · _) (if_pos last)))
  · exact fun more =>
      congrArg Host.Outcome.next ((programComplete_passed waits).trans (congrArg (pumpAll · _)
        (if_neg fun ⟨none_left, none_todo⟩ => more.elim (· none_left) (· none_todo))))
  · exact congrArg Host.Outcome.next (eraseComplete_failed erasing)
  · exact fun ch channel => congrArg Host.Outcome.next (eraseComplete_passed erasing channel)
  · exact fun a refresh res what => congrArg Host.Outcome.next (flashReadComplete_copyOut read what res)
  · exact fun unissued away res => congrArg Host.Outcome.next (flashReadComplete_waits read demand unissued away res)
  · exact fun res => congrArg Host.Outcome.next (flashReadComplete_ends read demand issued res)
  · exact endFlashRead_uncorrectable _ _ _ _ _ _
  · intro e some_frame first whole up
    refine endFlashRead_decoded (s := s.onFlash _) some_frame first whole ?_ _
    exact up
  case held =>
    exact fun s held c a res => ⟨congrArg Host.Outcome.next (collectionStart_held held c), congrArg Host.Outcome.next (collectionIdle_held held c),
      congrArg Host.Outcome.next (retentionRefresh_held held a), congrArg Host.Outcome.next (patrolRead_held held a res),
      congrArg Host.Outcome.next (staticWearLevel_levelled (levelledNow_held held c))⟩
  · exact fun foreground => congrArg Host.Outcome.next ((collectionStart_eq channel online free).trans (if_pos foreground))
  · exact fun other => congrArg Host.Outcome.next ((collectionStart_eq channel online free).trans (if_neg other))
  · exact fun demand => congrArg Host.Outcome.next (collectionIdle_demand channel demand)
  · exact fun background =>
      congrArg Host.Outcome.next ((collectionIdle_idle channel online free idle).trans (congrArg (nextCopyOut · c true) (if_pos background)))
  · exact fun other =>
      congrArg Host.Outcome.next ((collectionIdle_idle channel online free idle).trans (congrArg (nextCopyOut · c true) (if_neg other)))
  · exact fun tempC trained moved => congrArg Host.Outcome.next (flashTempRetrain_trains channel online moved trained)
  · exact fun tempC trained near => congrArg Host.Outcome.next (flashTempRetrain_stays channel near trained)
  · exact fun die alive there => congrArg Host.Outcome.next (dieReadyTimeout_offline channel online alive there)
  · exact fun aged => congrArg Host.Outcome.next ((retentionRefresh_eq channel online free on named).trans (if_pos aged))
  · exact fun young => congrArg Host.Outcome.next ((retentionRefresh_eq channel online free on named).trans (if_neg (Nat.not_lt.2 young)))
  · subst on
    exact fun demand res => congrArg Host.Outcome.next (patrolRead_demand named demand res)
  · subst on
    exact congrArg Host.Outcome.next (patrolRead_uncorrectable named free patrols operating up idle next)
  · subst on
    exact congrArg Host.Outcome.next (patrolRead_decoded named free patrols operating up idle next)
  · subst on
    exact fun o tried given => congrArg Host.Outcome.next (patrolRead_soft named free patrols operating up idle next channel tried given)
  case levelled => exact fun s c _ levelled => congrArg Host.Outcome.next (staticWearLevel_levelled levelled)
  · exact fun close =>
      congrArg Host.Outcome.next ((staticWearLevel_eq device due hy ho).trans (if_pos (Nat.sub_le_iff_le_add'.2 close)))
  · exact fun apart =>
      congrArg Host.Outcome.next ((staticWearLevel_eq device due hy ho).trans (if_neg fun near => Nat.not_lt.2 (Nat.sub_le_iff_le_add'.1 near) apart))
  case discard => exact fun s p c real some_entry chosen => congrArg Host.Outcome.next (discardProgram_starts real some_entry chosen)

end Sys2Proof.Machine
end

section
/-! THEOREM. The data packets that arrive: what is parked, waits to land, or is refused, and what a fetched context sets going
(R318, R319, R321, R325, R329, R338). -/

namespace Sys2Proof.Machine

open Sys2Proof

theorem op_of_wellFormed {op : Nat} {pk : Packet} (fine : wellFormed op pk = true) : pk.op = op := by
  simp only [wellFormed, Bool.and_eq_true, decide_eq_true_eq] at fine
  obtain ⟨⟨kind, _⟩, _⟩ := fine
  exact kind

/-! ### The rows WRITE, SEND, RDREQ and RDRESP -/

/-- The operations of the data packets, with their rows. -/
def dataRows : List (Nat × (Packet → Instr)) := [(0x00, .write), (0x02, .send), (0x03, .rdreq), (0x04, .rdresp)]

theorem exec_dataRow {o : Nat × (Packet → Instr)} (row : o ∈ dataRows) {pk : Packet} {s t : State} (taken : dataPacket o.1 pk s = t) :
    exec (o.2 pk) s = .next t := by
  subst taken
  simp only [dataRows, List.mem_cons, List.not_mem_nil, or_false] at row
  rcases row with rfl | rfl | rfl | rfl <;> rfl

section Row

variable {op : Nat} {s : State} {pk : Packet} (here : addressed s pk = true)
include here

theorem dataPacket_malformed (kind : pk.op = op) (bad : wellFormed op pk = false) :
    dataPacket op pk s = tally s pk.dstPart fun n => { n with badPkt := n.badPkt + 1 } := by
  simp [dataPacket, here, kind, bad]

theorem dataPacket_taken (fine : wellFormed op pk = true) :
    dataPacket op pk s = if parks (countRx s pk) pk then park (countRx s pk) pk else arrive (countRx s pk) pk := by
  simp [dataPacket, here, op_of_wellFormed fine, fine]

theorem dataPacket_no_context (fine : wellFormed op pk = true) (context : contextOf (countRx s pk) pk = none) :
    dataPacket op pk s = arrive (countRx s pk) pk :=
  (dataPacket_taken here fine).trans (if_neg (by simp [parks, context]))

theorem dataPacket_away (fine : wellFormed op pk = true) {q : Qp} (context : contextOf (countRx s pk) pk = some q) (away : q.resident = false) :
    dataPacket op pk s = park (countRx s pk) pk :=
  (dataPacket_taken here fine).trans (if_pos (by simp [parks, context, away]))

theorem dataPacket_resident (fine : wellFormed op pk = true) {q : Qp} (context : contextOf (countRx s pk) pk = some q) (resident : q.resident = true) :
    dataPacket op pk s = arrive (countRx s pk) pk :=
  (dataPacket_taken here fine).trans (if_neg (by simp [parks, context, resident]))

end Row

/-! ### A packet whose context is at hand -/

section Arrival

variable {s : State} {pk : Packet}

theorem arrive_no_context (context : contextOf s pk = none) : arrive s pk = if pk.op = 0x04 then s else reportRefusal (sendNak s pk 1) pk 1 := by
  simp only [arrive, context]

variable {q : Qp} (context : contextOf s pk = some q)
include context

theorem arrive_other_epoch (epoch : pk.epoch ≠ q.epoch) : arrive s pk = tally s pk.dstPart fun n => { n with stale := n.stale + 1 } := by
  simp only [arrive, context]
  exact if_pos epoch

variable (epoch : pk.epoch = q.epoch)
include epoch

theorem arrive_no_peer (peer : peerOf q pk = none) : arrive s pk = if pk.op = 0x04 then s else reportRefusal (sendNak s pk 2) pk 2 := by
  simp only [arrive, context, epoch, peer, ne_eq, not_true, if_false]

variable {k : Nat} (peer : peerOf q pk = some k)
include peer

/-- A packet that waits to land, or has been taken, is acknowledged again (R329). -/
theorem arrive_again (again : (q.landing.any fun l => l.seq = pk.seq && l.src = pk.src && l.srcPart = pk.srcPart) = true ∨ (q.flow k).order pk.seq = .duplicate) :
    arrive s pk = sendAck s pk.dstPart (dqpIndex pk) k := by
  simp only [arrive, context, epoch, peer, ne_eq, not_true, if_false]
  rcases again with waits | repeated
  · exact if_pos waits
  · simp only [repeated, ite_self]

variable (first : (q.landing.any fun l => l.seq = pk.seq && l.src = pk.src && l.srcPart = pk.srcPart) = false)
include first

theorem arrive_outside (order : (q.flow k).order pk.seq = .stale) : arrive s pk = tally s pk.dstPart fun n => { n with stale := n.stale + 1 } := by
  simp [arrive, context, epoch, peer, first, order]

theorem arrive_refused (order : (q.flow k).order pk.seq = .new) {c : Nat} (cause : arrivalCause s q pk = some c) : arrive s pk = refuse s pk k c := by
  simp [arrive, context, epoch, peer, first, order, cause]

theorem arrive_waits (order : (q.flow k).order pk.seq = .new) (cause : arrivalCause s q pk = none) :
    arrive s pk = (claimBuffer s pk).onQp pk.dstPart (dqpIndex pk) fun q => { q with landing := q.landing ++ [pk] } := by
  simp [arrive, context, epoch, peer, first, order, cause]

end Arrival

/-! ### A context that has been fetched (R325) -/

section Fetch

variable {s t : State} {p i : Nat} (away : ((s.part p).qp i).resident = false) (usable : s.fnUsable p = true) (made : makeResident s p i = some t)

include away usable made in
theorem contextFetched_replays (up : ((s.part p).qp i).state ≠ .reset) :
    contextFetched p i .ok s = ((s.part p).qp i).parked.foldl arrive (t.onQp p i fun q => { q with parked := [] }) := by
  simp only [contextFetched, up, away, usable, made]
  rfl

include away usable made in
theorem contextFetched_connects (down : ((s.part p).qp i).state = .reset) (busy : (s.part p).regs.qpcBusy = true) (named : (s.part p).regs.qpcIndex = i) :
    contextFetched p i .ok s = beginConnect (t.onPart p fun x => { x with regs := { x.regs with qpcBusy := false } }) p i := by
  simp [contextFetched, down, busy, named, away, usable, made]

theorem contextFetched_unwanted (down : ((s.part p).qp i).state = .reset) (idle : (s.part p).regs.qpcBusy = false ∨ (s.part p).regs.qpcIndex ≠ i)
    (r : ReadResult) : contextFetched p i r s = s := by
  have unwanted : ((s.part p).regs.qpcBusy && decide ((s.part p).regs.qpcIndex = i)) = false := by
    rcases idle with h | h <;> simp [h]
  exact if_pos (by simp [down, unwanted])

theorem contextFetched_failed (s : State) (p i : Nat) {r : ReadResult} (bad : r ≠ .ok) : contextFetched p i r s = s :=
  if_pos (by simp [bad])

end Fetch

/-! ### Frames discarded (R319, R321) -/

theorem frameDiscard_packet {r : DiscardReason} (packet : r = .unknownOp ∨ r = .reservedField) (p : Nat) (s : State) :
    frameDiscard r p s = tally s p fun n => { n with badPkt := n.badPkt + 1 } := by
  rcases packet with rfl | rfl <;> rfl

theorem frameDiscard_frame {r : DiscardReason} (known : r ≠ .unknownOp) (clear : r ≠ .reservedField) (p : Nat) (s : State) :
    frameDiscard r p s = s.onFabric fun f => { f with frameDrops := f.frameDrops + 1 } := by
  cases r
  case unknownOp => exact absurd rfl known
  case reservedField => exact absurd rfl clear
  all_goals rfl

/-- Settles O52: each packet is parked, or arrives with one of the outcomes of `arrive`. -/
theorem fabricDataPackets : Obligations.FabricDataPackets := by
  unfold Obligations.FabricDataPackets
  refine ⟨fun s pk here o row kind => ⟨fun bad => ?malformed, fun fine => ⟨fun unknown => ?no_context, fun q context => ⟨fun away => ?away,
      fun resident epoch => ?other_epoch, fun resident epoch peer => ?no_peer, fun k resident epoch peer =>
        ⟨fun again => ?again, fun first outside => ?outside, fun first new => ⟨fun c cause => ?refused, fun clear => ?waits⟩⟩⟩⟩⟩,
    fun s t p i away usable made => ⟨?replays, ?connects, ?unwanted⟩, fun s p i => ?failed, fun s r p => ⟨?packet, ?frame⟩⟩
  case malformed => exact exec_dataRow row (dataPacket_malformed here kind bad)
  case no_context => exact exec_dataRow row ((dataPacket_no_context here fine unknown).trans (kind ▸ arrive_no_context unknown))
  case away => exact exec_dataRow row (dataPacket_away here fine context away)
  case other_epoch => exact exec_dataRow row ((dataPacket_resident here fine context resident).trans (arrive_other_epoch context epoch))
  case no_peer => exact exec_dataRow row ((dataPacket_resident here fine context resident).trans (kind ▸ arrive_no_peer context epoch peer))
  case again => exact exec_dataRow row ((dataPacket_resident here fine context resident).trans (arrive_again context epoch peer again))
  case outside => exact exec_dataRow row ((dataPacket_resident here fine context resident).trans (arrive_outside context epoch peer first outside))
  case refused => exact exec_dataRow row ((dataPacket_resident here fine context resident).trans (arrive_refused context epoch peer first new cause))
  case waits => exact exec_dataRow row ((dataPacket_resident here fine context resident).trans (arrive_waits context epoch peer first new clear))
  case replays => exact fun up => congrArg Host.Outcome.next (contextFetched_replays away usable made up)
  case connects => exact fun down busy named => congrArg Host.Outcome.next (contextFetched_connects away usable made down busy named)
  case unwanted => exact fun down idle => congrArg Host.Outcome.next (contextFetched_unwanted down idle .ok)
  case failed => exact congrArg Host.Outcome.next (contextFetched_failed s p i (by decide))
  case packet => exact fun packet => congrArg Host.Outcome.next (frameDiscard_packet packet p s)
  case frame => exact fun known clear => congrArg Host.Outcome.next (frameDiscard_frame known clear p s)

end Sys2Proof.Machine
end

section
/-! THEOREM. A packet that waits lands: the bytes of a WRITE, a message for a RECV buffer, a remote read served, and read data
(R329, R331, R335, R338, R339, R340, R342, R343). -/

namespace Sys2Proof.Machine

open Sys2Proof

/-- A packet leaves the landing queue of its queue pair. -/
def leaveLanding (s : State) (p i : Nat) (pk : Packet) : State := s.onQp p i fun q => { q with landing := q.landing.erase pk }

section Packet

variable {s : State} {p i k : Nat} {pk : Packet} (waits : ((s.part p).qp i).landing.find? (fun l => l.seq = pk.seq) = some pk)
  (peer : peerOf ((s.part p).qp i) pk = some k)
include waits peer

theorem packetLanding_write (op : pk.op = 0x00) : packetLanding p i pk.seq s = landWrite (leaveLanding s p i pk) p i k pk := by
  simp only [packetLanding, waits, peer, op, leaveLanding]

theorem packetLanding_send (op : pk.op = 0x02) : packetLanding p i pk.seq s = landSend (leaveLanding s p i pk) p i k pk := by
  simp only [packetLanding, waits, peer, op, leaveLanding]

theorem packetLanding_rdreq (op : pk.op = 0x03) : packetLanding p i pk.seq s = serveRead (leaveLanding s p i pk) p i k pk := by
  simp only [packetLanding, waits, peer, op, leaveLanding]

theorem packetLanding_rdresp (op : pk.op = 0x04) : packetLanding p i pk.seq s = landResponse (leaveLanding s p i pk) p i k pk := by
  simp only [packetLanding, waits, peer, op, leaveLanding]

end Packet

/-! ### The bytes of a packet -/

section Bytes

variable {b : Buffer} {pk : Packet}

theorem landBytes_none (s : State) (p n : Nat) (empty : pk.payload = []) : landBytes s p n b pk = s := if_pos empty

theorem landBytes_host (s : State) (p n : Nat) (kind : b.fields.kind = 0) (bytes : pk.payload ≠ []) :
    landBytes s p n b pk = s.issue (.data p (b.fields.addr + pk.offset) pk.payload none) :=
  (if_neg bytes).trans (by simp only [kind])

theorem landBytes_push (s : State) (p n : Nat) (kind : b.fields.kind = 1) (bytes : pk.payload ≠ []) :
    landBytes s p n b pk = s.onPart p fun x =>
      { x with push := Memory.writeBytes x.push (b.fields.addr + pk.offset) (pk.payload.take (x.sliceBytes - (b.fields.addr + pk.offset))) } :=
  (if_neg bytes).trans (by simp only [kind])

theorem landsHeader_of_kind (kind : b.fields.kind ≠ 2) : landsHeader b pk = false := by simp [landsHeader, kind]

end Bytes

/-! ### WRITE -/

section Write

variable {s : State} {p k : Nat} {pk : Packet} (i : Nat)

theorem landWrite_refused {c : Nat} (cause : bufferCause s pk = some c) : landWrite s p i k pk = refuse s pk k c := by
  simp only [landWrite, cause]

variable (clear : bufferCause s pk = none)
include clear

theorem landWrite_data (body : landsHeader ((s.part p).buffer (hIndex pk.buf)) pk = false) (flag : pk.flag = false) :
    landWrite s p i k pk = settleFlow (landBytes s p (hIndex pk.buf) ((s.part p).buffer (hIndex pk.buf)) pk) p i k pk := by
  simp [landWrite, clear, body, flag]

theorem landWrite_completes (kind : ((s.part p).buffer (hIndex pk.buf)).fields.kind ≠ 2) (flag : pk.flag = true) :
    landWrite s p i k pk =
      settleFlow (completeGroup (landBytes s p (hIndex pk.buf) ((s.part p).buffer (hIndex pk.buf)) pk) p (hIndex pk.buf) pk 0) p i k pk := by
  simp [landWrite, clear, landsHeader_of_kind kind, kind, flag]

section Header

variable (header : landsHeader ((s.part p).buffer (hIndex pk.buf)) pk = true) (fresh : ((s.part p).buffer (hIndex pk.buf)).migration = none)
include header fresh

theorem landWrite_bad_header (bad : headerOk (s.part p) ((s.part p).buffer (hIndex pk.buf)) pk.payload = false) :
    landWrite s p i k pk = refuse s pk k 9 := by
  simp [landWrite, clear, header, fresh, bad]

variable (good : headerOk (s.part p) ((s.part p).buffer (hIndex pk.buf)) pk.payload = true)
include good

theorem landWrite_no_space (full : (reserveMigration s p pk.payload).2 = none) :
    landWrite s p i k pk = refuse (reserveMigration s p pk.payload).1 pk k 10 := by
  simp [landWrite, clear, header, fresh, good, full]

theorem landWrite_reserves {g : Migration} (room : (reserveMigration s p pk.payload).2 = some g) :
    landWrite s p i k pk =
      settleFlow (landBytes ((reserveMigration s p pk.payload).1.onBuffer p (hIndex pk.buf) fun b => { b with migration := some g }) p (hIndex pk.buf)
        ((s.part p).buffer (hIndex pk.buf)) pk) p i k pk := by
  simp [landWrite, clear, header, fresh, good, room]

end Header

section Flag

variable (kind : ((s.part p).buffer (hIndex pk.buf)).fields.kind = 2) (body : landsHeader ((s.part p).buffer (hIndex pk.buf)) pk = false)
  (flag : pk.flag = true)
include kind body flag

theorem landWrite_no_migration (fresh : ((s.part p).buffer (hIndex pk.buf)).migration = none) : landWrite s p i k pk = refuse s pk k 9 := by
  simp [landWrite, clear, kind, body, flag, fresh]

theorem landWrite_commits {g : Migration} (reserved : ((s.part p).buffer (hIndex pk.buf)).migration = some g) :
    let u := landBytes s p (hIndex pk.buf) ((s.part p).buffer (hIndex pk.buf)) pk
    let a := commitMigration u p (hIndex pk.buf) ((u.part p).buffer (hIndex pk.buf)) g
    landWrite s p i k pk = settleFlow (sendControl (completeGroup a.state p (hIndex pk.buf) pk a.handle) p i 1) p i k pk := by
  simp [landWrite, clear, kind, body, flag, reserved]

end Flag

end Write

/-! ### SEND without a buffer's handle (R340) -/

section Send

variable {s : State} {p i : Nat} {pk : Packet} (k : Nat) (any : pk.buf = 0)
include any

theorem landSend_no_buffer (absent : recvBuffer (s.part p) i = none) :
    landSend s p i k pk = settleFlow (tally s p fun n => { n with noRecv := n.noRecv + 1 }) p i k pk := by
  simp only [landSend, any, if_true, absent]

theorem landSend_posted {m : Nat} (posted : recvBuffer (s.part p) i = some m) :
    let u := landBytes s p m ((s.part p).buffer m) { pk with offset := 0 }
    landSend s p i k pk = settleFlow (if pk.flag then completeGroup u p m pk 0 else u) p i k pk := by
  simp only [landSend, any, if_true, posted]

end Send

/-! ### RDREQ (R129, R339) -/

section Read

variable {s : State} {p i k : Nat} {pk : Packet}

theorem serveRead_refused (absent : readTarget s pk = none) : serveRead s p i k pk = refuse s pk k 8 := by
  simp only [serveRead, absent]

variable {psn layer : Nat} {l : Loc} (target : readTarget s pk = some (psn, layer, l))
include target

theorem serveRead_dram (home : l.tier = 0) :
    serveRead s p i k pk = answerRead (takeRead s p i k pk psn layer).1 p i k pk (takeRead s p i k pk psn layer).2 l := by
  simp only [serveRead, target, home, if_true]

variable (away : l.tier ≠ 0)
include away

theorem serveRead_copy {c : Tent} (copy : (((s.part p).set psn).bind fun d => Map.look d.tents layer) = some c) :
    let r := takeRead s p i k pk psn layer
    serveRead s p i k pk = if c.complete then answerRead r.1 p i k pk r.2 ⟨.page, 0, c.frame⟩ else awaitRead r.1 p i k pk r.2 := by
  simp only [serveRead, target, away, if_false, copy]

variable (alone : (((s.part p).set psn).bind fun d => Map.look d.tents layer) = none)
include alone

/-- With DRAM to spare the page comes into a tentative copy. -/
theorem serveRead_begins (room : freeAboveLow s (s.part p) = true) {b : State × Nat}
    (begins : beginTent (takeRead s p i k pk psn layer).1 p psn layer (setHome (s.part p) psn) none = some b) :
    serveRead s p i k pk = awaitRead b.1 p i k pk (takeRead s p i k pk psn layer).2 := by
  simp only [serveRead, target, away, if_false, alone, room, if_true, begins]

variable (low : freeAboveLow s (s.part p) = false)
include low

/-- Else it streams through the move buffers, where they have space. -/
theorem serveRead_streams (space : moveBufAllows s p (objBuffer (s.part p) (.transit 0 psn layer false)) = true) :
    let r := takeRead s p i k pk psn layer
    serveRead s p i k pk = awaitRead (readAt r.1 p (.serve i r.2.group psn layer) l (objBytes (s.part p) (.transit 0 psn layer false)) none).1 p i k pk
      { r.2 with streamed := true } := by
  simp [serveRead, target, away, alone, low, space]

theorem serveRead_requeues (full : moveBufAllows s p (objBuffer (s.part p) (.transit 0 psn layer false)) = false) :
    serveRead s p i k pk = s.onQp p i fun q => { q with landing := q.landing ++ [pk] } := by
  simp [serveRead, target, away, alone, low, full]

end Read

/-- Settles O53: a packet leaves the landing queue, and each operation lands by the lemmas of its own section. -/
theorem packetsLand : Obligations.PacketsLand := by
  unfold Obligations.PacketsLand
  intro s p i pk k waits peer t n b done
  refine ⟨fun op => ?write, fun op any => ?send, fun op => ?rdreq, fun op => ?rdresp⟩
  case write =>
    have lands {u : State} (h : landWrite t p i k pk = u) : exec (.packetLanding p i pk.seq) s = .next u :=
      congrArg Host.Outcome.next ((packetLanding_write waits peer op).trans h)
    refine ⟨fun c cause => lands (landWrite_refused i cause), fun clear => ?_⟩
    have plainly {u : State} (plain : b.fields.kind ≠ 2) (landed : landBytes t p n b pk = u) :
        (pk.flag = false → exec (.packetLanding p i pk.seq) s = done u) ∧
          (pk.flag = true → exec (.packetLanding p i pk.seq) s = done (completeGroup u p n pk 0)) := by
      subst landed
      exact ⟨fun flag => lands (landWrite_data i clear (landsHeader_of_kind plain) flag), fun flag => lands (landWrite_completes i clear plain flag)⟩
    refine ⟨fun kind bytes => plainly (by omega) (landBytes_host t p n kind bytes), fun kind bytes => plainly (by omega) (landBytes_push t p n kind bytes),
      fun kind empty => (plainly kind (landBytes_none t p n empty)).2, fun _ header fresh => ⟨fun bad => ?bad, fun good => ⟨fun full => ?full, fun g room => ?room⟩⟩,
      fun _ body flag => ?data, fun kind body flag => ⟨fun fresh => ?fresh, fun g reserved => ?commits⟩⟩
    case bad => exact lands (landWrite_bad_header i clear header fresh bad)
    case full => exact lands (landWrite_no_space i clear header fresh good full)
    case room => exact lands (landWrite_reserves i clear header fresh good room)
    case data => exact lands (landWrite_data i clear body flag)
    case fresh => exact lands (landWrite_no_migration i clear kind body flag fresh)
    case commits => exact lands (landWrite_commits i clear kind body flag reserved)
  case send =>
    have lands {u : State} (h : landSend t p i k pk = u) : exec (.packetLanding p i pk.seq) s = .next u :=
      congrArg Host.Outcome.next ((packetLanding_send waits peer op).trans h)
    exact ⟨fun absent => lands (landSend_no_buffer k any absent), fun m posted => lands (landSend_posted k any posted)⟩
  case rdreq =>
    have lands {u : State} (h : serveRead t p i k pk = u) : exec (.packetLanding p i pk.seq) s = .next u :=
      congrArg Host.Outcome.next ((packetLanding_rdreq waits peer op).trans h)
    exact ⟨fun absent => lands (serveRead_refused absent), fun psn layer l target => ⟨fun home => lands (serveRead_dram target home),
      fun away c copy => lands (serveRead_copy target away copy), fun away alone low => ⟨fun space => lands (serveRead_streams target away alone low space),
        fun full => lands (serveRead_requeues target away alone low full)⟩,
      fun away alone room b begins => lands (serveRead_begins target away alone room begins)⟩⟩
  case rdresp => exact congrArg Host.Outcome.next (packetLanding_rdresp waits peer op)

end Sys2Proof.Machine
end

section
/-! THEOREM. The protocol packets: ACK, NAK, CREDIT, CONNECT and DISCONNECT (R318, R324, R326, R328 to R331, R338, R345). -/

namespace Sys2Proof.Machine

open Sys2Proof

/-- A queue pair in READY or DRAINING. -/
def Qp.up (q : Qp) : Prop := q.state = .ready ∨ q.state = .draining

theorem Qp.down_iff {q : Qp} : (q.state != .ready && q.state != .draining) = true ↔ ¬q.up := by simp [Qp.up]

/-! ### What a sender's packet does -/

/-- The acknowledgement of a CONNECT, with LIMIT (R324, R328). -/
def acknowledgeConnect (pk : Packet) (i k : Nat) (s : State) : State :=
  let t := raiseGrant s pk.dstPart i k
  let f := ((t.part pk.dstPart).qp i).flow k
  sendProtocol (t.onQp pk.dstPart i fun q => q.onFlow k fun f => { f with sentLimit := f.grantLimit }) pk.dstPart i
    { packetTo t pk.dstPart i k 0x08 0 0 0 0 false [] with tc := 0, epoch := pk.aux % 256, ackSeq := 2 ^ 24 - 1, credit := f.grantLimit.toNat }

section Sender

variable {s : State} {pk : Packet} (here : addressed s pk = true)
include here

section Ack

variable (fine : wellFormed 0x08 pk = true)
include fine

theorem ackPacket_unknown (who : senderOf (countRx s pk) pk = none) : ackPacket pk s = countRx s pk := by
  simp [ackPacket, here, op_of_wellFormed fine, fine, who]

variable {i k : Nat} (who : senderOf (countRx s pk) pk = some (i, k))
include who

theorem ackPacket_other_epoch (epoch : pk.epoch ≠ (((countRx s pk).part pk.dstPart).qp i).epoch) :
    ackPacket pk s = if (((countRx s pk).part pk.dstPart).qp i).state = .reset then countRx s pk
      else tally (countRx s pk) pk.dstPart fun n => { n with stale := n.stale + 1 } := by
  simp [ackPacket, here, op_of_wellFormed fine, fine, who, epoch]

variable (epoch : pk.epoch = (((countRx s pk).part pk.dstPart).qp i).epoch)
include epoch

theorem ackPacket_connecting (state : (((countRx s pk).part pk.dstPart).qp i).state = .connecting) :
    ackPacket pk s = tryReady ((countRx s pk).onQp pk.dstPart i fun q => q.onFlow k fun f => { f.raise pk.credit with connectAcked := true }) pk.dstPart i := by
  simp [ackPacket, here, op_of_wellFormed fine, fine, who, epoch, state]

theorem ackPacket_up (up : (((countRx s pk).part pk.dstPart).qp i).up) :
    ackPacket pk s = deliver' ((countRx s pk).onQp pk.dstPart i fun q => q.onFlow k fun f => f.raise pk.credit) pk.dstPart i
      ((((countRx s pk).part pk.dstPart).qp i).sent.filter fun t => t.peer = k && (pk.ackSeq + 2 ^ 24 - t.pk.seq) % 2 ^ 24 < 2 ^ 23) := by
  rcases up with state | state <;> simp [ackPacket, here, op_of_wellFormed fine, fine, who, epoch, state]

theorem ackPacket_ended (ended : (((countRx s pk).part pk.dstPart).qp i).state = .reset ∨ (((countRx s pk).part pk.dstPart).qp i).state = .error) :
    ackPacket pk s = countRx s pk := by
  rcases ended with state | state <;> simp [ackPacket, here, op_of_wellFormed fine, fine, who, epoch, state]

end Ack

section Credit

variable (fine : wellFormed 0x0A pk = true)
include fine

theorem creditPacket_unknown (who : senderOf (countRx s pk) pk = none) : creditPacket pk s = countRx s pk := by
  simp [creditPacket, here, op_of_wellFormed fine, fine, who]

variable {i k : Nat} (who : senderOf (countRx s pk) pk = some (i, k))
include who

theorem creditPacket_ended (ended : (((countRx s pk).part pk.dstPart).qp i).state = .reset ∨ (((countRx s pk).part pk.dstPart).qp i).state = .error) :
    creditPacket pk s = countRx s pk := by
  simp [creditPacket, here, op_of_wellFormed fine, fine, who, ended]

theorem creditPacket_open (set : (((countRx s pk).part pk.dstPart).qp i).state ≠ .reset) (sound : (((countRx s pk).part pk.dstPart).qp i).state ≠ .error) :
    creditPacket pk s = if pk.epoch = (((countRx s pk).part pk.dstPart).qp i).epoch
      then (countRx s pk).onQp pk.dstPart i fun q => q.onFlow k fun f => f.raise pk.credit
      else tally (countRx s pk) pk.dstPart fun n => { n with stale := n.stale + 1 } := by
  simp [creditPacket, here, op_of_wellFormed fine, fine, who, set, sound]

end Credit

section Connect

variable (fine : wellFormed 0x10 pk = true)
include fine

theorem connectPacket_unknown (who : senderOf (countRx s pk) pk = none) : connectPacket pk s = countRx s pk := by
  simp [connectPacket, here, op_of_wellFormed fine, fine, who]

variable {i k : Nat} (who : senderOf (countRx s pk) pk = some (i, k))
include who

theorem connectPacket_connecting (state : (((countRx s pk).part pk.dstPart).qp i).state = .connecting) :
    connectPacket pk s = tryReady (acknowledgeConnect pk i k ((countRx s pk).onQp pk.dstPart i fun q =>
      q.onFlow k fun f => { f with connectSeen := true, peerEpoch := pk.aux % 256 })) pk.dstPart i := by
  simp [connectPacket, here, op_of_wellFormed fine, fine, who, state, acknowledgeConnect]

theorem connectPacket_ready (state : (((countRx s pk).part pk.dstPart).qp i).state = .ready) :
    connectPacket pk s = if ((((countRx s pk).part pk.dstPart).qp i).flow k).peerEpoch = pk.aux % 256
      then acknowledgeConnect pk i k (countRx s pk) else countRx s pk := by
  simp [connectPacket, here, op_of_wellFormed fine, fine, who, state, acknowledgeConnect]

theorem connectPacket_other (closed : (((countRx s pk).part pk.dstPart).qp i).state ≠ .connecting)
    (unready : (((countRx s pk).part pk.dstPart).qp i).state ≠ .ready) : connectPacket pk s = countRx s pk := by
  simp only [connectPacket, here, op_of_wellFormed fine, fine, who]
  cases state : (((countRx s pk).part pk.dstPart).qp i).state
  case connecting => exact absurd state closed
  case ready => exact absurd state unready
  all_goals rfl

end Connect

section Disconnect

variable (fine : wellFormed 0x11 pk = true)
include fine

theorem disconnectPacket_unknown (who : senderOf (countRx s pk) pk = none) : disconnectPacket pk s = countRx s pk := by
  simp [disconnectPacket, here, op_of_wellFormed fine, fine, who]

variable {i k : Nat} (who : senderOf (countRx s pk) pk = some (i, k))
include who

theorem disconnectPacket_ready (state : (((countRx s pk).part pk.dstPart).qp i).state = .ready) :
    disconnectPacket pk s = if pk.epoch = (((countRx s pk).part pk.dstPart).qp i).epoch then qpError (countRx s pk) pk.dstPart i 0x22 pk.seq
      else tally (countRx s pk) pk.dstPart fun n => { n with stale := n.stale + 1 } := by
  simp [disconnectPacket, here, op_of_wellFormed fine, fine, who, state]

theorem disconnectPacket_other (unready : (((countRx s pk).part pk.dstPart).qp i).state ≠ .ready) : disconnectPacket pk s = countRx s pk := by
  simp [disconnectPacket, here, op_of_wellFormed fine, fine, who, unready]

end Disconnect

section Nak

variable (fine : wellFormed 0x09 pk = true)
include fine

theorem nakPacket_unknown (who : nakTarget (countRx s pk) pk = none) : nakPacket pk s = countRx s pk := by
  simp [nakPacket, here, op_of_wellFormed fine, fine, who]

theorem nakPacket_known {i k : Nat} (who : nakTarget (countRx s pk) pk = some (i, k)) :
    nakPacket pk s = nakPacket.nakAt pk i k (((countRx s pk).part pk.dstPart).qp i) (countRx s pk) := by
  simp [nakPacket, here, op_of_wellFormed fine, fine, who]

end Nak

end Sender

/-! ### NAK at the queue pair that sent the packet -/

section Refused

variable {pk : Packet} {i k : Nat} {q : Qp} (s : State)

theorem nakAt_down (down : ¬q.up) : nakPacket.nakAt pk i k q s = s := if_pos (Qp.down_iff.2 down)

variable (up : q.up)
include up

theorem nakAt_other_epoch (epoch : pk.epoch ≠ q.epoch) : nakPacket.nakAt pk i k q s = tally s pk.dstPart fun n => { n with stale := n.stale + 1 } :=
  (if_neg fun down => Qp.down_iff.1 down up).trans (if_pos epoch)

variable (epoch : pk.epoch = q.epoch)
include epoch

theorem nakAt_not_sent (absent : (q.sent.find? fun t => t.peer = k && t.pk.seq = pk.seq) = none) : nakPacket.nakAt pk i k q s = s := by
  refine ((if_neg fun down => Qp.down_iff.1 down up).trans (if_neg (not_not.2 epoch))).trans ?_
  simp only [absent]

variable {t : Sent} (sent : (q.sent.find? fun t => t.peer = k && t.pk.seq = pk.seq) = some t)
include sent

/-- A packet that is lost before it lands is sent again; else the cause of the NAK decides. -/
theorem nakAt_sent : nakPacket.nakAt pk i k q s =
    if pk.aux = 0 then resend pk.dstPart i t s
    else if pk.aux = 1 && q.state = .ready then qpError (countNak s pk i k) pk.dstPart i 1 pk.seq
    else if pk.aux = causeStale && t.retries ≠ 0 then deliver' (countNak s pk i k) pk.dstPart i [t]
    else drainDone (dropReadPins (endNaked (reportNak (countNak s pk i k) pk i q t) pk.dstPart i t) pk.dstPart i) pk.dstPart i := by
  refine ((if_neg fun down => Qp.down_iff.1 down up).trans (if_neg (not_not.2 epoch))).trans ?_
  simp only [sent]

theorem nakAt_lost (lost : pk.aux = 0) : nakPacket.nakAt pk i k q s = resend pk.dstPart i t s :=
  (nakAt_sent s up epoch sent).trans (if_pos lost)

theorem nakAt_no_qp (cause : pk.aux = 1) (ready : q.state = .ready) :
    nakPacket.nakAt pk i k q s = qpError (countNak s pk i k) pk.dstPart i 1 pk.seq :=
  (nakAt_sent s up epoch sent).trans (by simp [cause, ready])

theorem nakAt_stale (cause : pk.aux = 16) (again : t.retries ≠ 0) : nakPacket.nakAt pk i k q s = deliver' (countNak s pk i k) pk.dstPart i [t] :=
  (nakAt_sent s up epoch sent).trans (by simp [cause, causeStale, again])

theorem nakAt_fails (some_cause : 1 ≤ pk.aux) (kept : pk.aux ≠ 1 ∨ q.state = .draining) (counts : pk.aux ≠ 16 ∨ t.retries = 0) :
    nakPacket.nakAt pk i k q s =
      drainDone (dropReadPins (endNaked (reportNak (countNak s pk i k) pk i q t) pk.dstPart i t) pk.dstPart i) pk.dstPart i := by
  have landed : ¬pk.aux = 0 := by omega
  have stays : ¬(pk.aux = 1 && q.state = .ready) = true := by rcases kept with h | h <;> simp [h]
  have fails : ¬(pk.aux = causeStale && t.retries ≠ 0) = true := by rcases counts with h | h <;> simp [h, causeStale]
  exact (nakAt_sent s up epoch sent).trans ((if_neg landed).trans ((if_neg stays).trans (if_neg fails)))

end Refused

/-! ### The rows -/

/-- The operations of the protocol packets, with their rows. -/
def protocolRows : List (Nat × (Packet → Instr)) := [(0x08, .ack), (0x09, .nak), (0x0A, .credit), (0x10, .connect), (0x11, .disconnect)]

section Row

variable {o : Nat × (Packet → Instr)} (row : o ∈ protocolRows) {s : State} {pk : Packet}
include row

theorem exec_protocolRow_elsewhere (other : addressed s pk = false ∨ pk.op ≠ o.1) : exec (o.2 pk) s = .next s := by
  have gate : (!addressed s pk || decide (pk.op ≠ o.1)) = true := by rcases other with h | h <;> simp [h]
  simp only [protocolRows, List.mem_cons, List.not_mem_nil, or_false] at row
  rcases row with rfl | rfl | rfl | rfl | rfl <;> exact congrArg Host.Outcome.next (if_pos gate)

variable (here : addressed s pk = true)
include here

theorem exec_protocolRow_malformed (kind : pk.op = o.1) (bad : wellFormed o.1 pk = false) :
    exec (o.2 pk) s = .next (tally s pk.dstPart fun n => { n with badPkt := n.badPkt + 1 }) := by
  have gate : ¬(!addressed s pk || decide (pk.op ≠ o.1)) = true := by simp [here, kind]
  have reserved : (!wellFormed o.1 pk) = true := by simp [bad]
  simp only [protocolRows, List.mem_cons, List.not_mem_nil, or_false] at row
  rcases row with rfl | rfl | rfl | rfl | rfl <;> exact congrArg Host.Outcome.next ((if_neg gate).trans (if_pos reserved))

theorem exec_protocolRow_unknown (fine : wellFormed o.1 pk = true)
    (who : (if o.1 = 0x09 then nakTarget (countRx s pk) pk else senderOf (countRx s pk) pk) = none) : exec (o.2 pk) s = .next (countRx s pk) := by
  simp only [protocolRows, List.mem_cons, List.not_mem_nil, or_false] at row
  rcases row with rfl | rfl | rfl | rfl | rfl
  · exact congrArg Host.Outcome.next (ackPacket_unknown here fine who)
  · exact congrArg Host.Outcome.next (nakPacket_unknown here fine who)
  · exact congrArg Host.Outcome.next (creditPacket_unknown here fine who)
  · exact congrArg Host.Outcome.next (connectPacket_unknown here fine who)
  · exact congrArg Host.Outcome.next (disconnectPacket_unknown here fine who)

end Row

/-- Settles O54: what every row shares, then what each packet of a known sender does, and a NAK at its queue pair. -/
theorem protocolPackets : Obligations.ProtocolPackets := by
  unfold Obligations.ProtocolPackets
  refine ⟨fun s pk o row => ⟨exec_protocolRow_elsewhere row, fun here kind bad => exec_protocolRow_malformed row here kind bad,
      fun here fine who => exec_protocolRow_unknown row here fine who⟩,
    fun s pk i k here who => ⟨fun fine => ?ack, fun fine => ?credit, fun fine => ?connect, fun fine => ?disconnect⟩,
    fun s pk i k here fine who => ?nak⟩
  case ack =>
    exact ⟨fun epoch => ⟨fun state => congrArg Host.Outcome.next (ackPacket_connecting here fine who epoch state),
        fun up => congrArg Host.Outcome.next (ackPacket_up here fine who epoch up),
        fun ended => congrArg Host.Outcome.next (ackPacket_ended here fine who epoch ended)⟩,
      fun epoch => congrArg Host.Outcome.next (ackPacket_other_epoch here fine who epoch)⟩
  case credit =>
    exact ⟨fun ended => congrArg Host.Outcome.next (creditPacket_ended here fine who ended),
      fun set sound => congrArg Host.Outcome.next (creditPacket_open here fine who set sound)⟩
  case connect =>
    exact ⟨fun state => congrArg Host.Outcome.next (connectPacket_connecting here fine who state),
      fun state => congrArg Host.Outcome.next (connectPacket_ready here fine who state),
      fun closed unready => congrArg Host.Outcome.next (connectPacket_other here fine who closed unready)⟩
  case disconnect =>
    exact ⟨fun state => congrArg Host.Outcome.next (disconnectPacket_ready here fine who state),
      fun unready => congrArg Host.Outcome.next (disconnectPacket_other here fine who unready)⟩
  case nak =>
    have refused {u : State} (h : nakPacket.nakAt pk i k (((countRx s pk).part pk.dstPart).qp i) (countRx s pk) = u) : exec (.nak pk) s = .next u :=
      congrArg Host.Outcome.next ((nakPacket_known here fine who).trans h)
    exact ⟨fun down => refused (nakAt_down _ down), fun up epoch => refused (nakAt_other_epoch _ up epoch),
      fun up epoch absent => refused (nakAt_not_sent _ up epoch absent), fun up epoch u sent =>
        ⟨fun lost => refused (nakAt_lost _ up epoch sent lost), fun cause ready => refused (nakAt_no_qp _ up epoch sent cause ready),
          fun cause again => refused (nakAt_stale _ up epoch sent cause again),
          fun some_cause kept counts => refused (nakAt_fails _ up epoch sent some_cause kept counts)⟩⟩

end Sys2Proof.Machine
end

section
/-! THEOREM. The sending side of a queue pair, its timers, and the commands CONNECT, DISCONNECT and RESET (R324 to R326, R328 to R330, R334, R347, R349). -/

namespace Sys2Proof.Machine

open Sys2Proof

theorem linkAsleep_of_reaches_part {s : State} {p : Nat} (h : s.reaches p = true) : s.linkAsleep = false := by
  have on : s.power.chip = .on := by
    simp only [State.reaches, State.hostUp, Bool.and_eq_true, decide_eq_true_eq] at h
    obtain ⟨⟨on, _⟩, _⟩ := h
    exact on
  simp [State.linkAsleep, on]

/-- A host access acts at once while the link does not rest. -/
theorem exec_access {i : Instr} {f : State → State} (h : hostAccess i = some f) {s t : State} (awake : s.linkAsleep = false) (acts : f s = t) :
    exec i s = .next t :=
  (exec_hostAccess h s).trans (congrArg Host.Outcome.next ((if_neg (by simp [awake])).trans acts))

/-! ### PRP_PACKET_SEND and EGRESS_POLICER_RELEASE -/

/-- The next packet of queue pair i goes to its peer: it takes the next SEQ and its credits, is kept as sent, and enters its route (R328, R329). -/
def enterFabric (s : State) (p i n : Nat) (pk : Packet) (peer : Nat) (cmd : Option CmdRef) (yellow : Bool) (t : State) : State :=
  let q := (s.part p).qp i
  let used := (q.flow peer).used + BitVec.ofNat 32 (pkCost pk)
  let pk := { pk with seq := (q.flow peer).nextSeq, credit := used.toNat, yellow := yellow, tc := if yellow && pk.tc = 0 then 1 else pk.tc }
  let t := t.onQp p i fun q => { (q.onFlow peer fun f => { f with nextSeq := (f.nextSeq + 1) % 2 ^ 24, used := used }) with
    queue := q.queue.eraseIdx n, sent := q.sent ++ [⟨pk, peer, 0, cmd, pk.unitGen⟩] }
  route (useQp (t.onAcct p fun a => { a with fabricTx := a.fabricTx + pkBytes pk }) p i) pk (i % 2) q.path

theorem Qp.may_send {q : Qp} (up : q.up) (resident : q.resident = true) :
    ¬((q.state != .ready && q.state != .draining) || !q.resident) = true := by
  rw [Bool.or_eq_true, Qp.down_iff]
  simp [up, resident]

section Send

variable {s : State} {p i : Nat}

theorem sendNext_nothing (closed : ¬((s.part p).qp i).up ∨ ((s.part p).qp i).resident = false ∨ sendable ((s.part p).qp i) = none) :
    sendNext s p i = s := by
  unfold sendNext
  rcases closed with down | away | empty
  · exact if_pos (by simp [Qp.down_iff.2 down])
  · exact if_pos (by simp [away])
  · simp only [empty, ite_self]

variable (up : ((s.part p).qp i).up) (resident : ((s.part p).qp i).resident = true) {n : Nat} {pk : Packet} {peer : Nat} {cmd : Option CmdRef}
  (next : sendable ((s.part p).qp i) = some (n, pk, peer, cmd))
include up resident next

theorem sendNext_unmetered (free : metered pk = false) : sendNext s p i = enterFabric s p i n pk peer cmd false s := by
  refine (if_neg (Qp.may_send up resident)).trans ?_
  simp [next, free, enterFabric]

theorem sendNext_red (meters : metered pk = true)
    (red : ((s.part p).egress.meter (pkBytes pk) (((s.part p).qp i).yellowIn || bestEffort s p)).1 = .red) : sendNext s p i = s := by
  refine (if_neg (Qp.may_send up resident)).trans ?_
  simp [next, meters, red]

theorem sendNext_metered (meters : metered pk = true)
    (passes : ((s.part p).egress.meter (pkBytes pk) (((s.part p).qp i).yellowIn || bestEffort s p)).1 ≠ .red) :
    let m := (s.part p).egress.meter (pkBytes pk) (((s.part p).qp i).yellowIn || bestEffort s p)
    sendNext s p i = enterFabric s p i n pk peer cmd (m.1 = .yellow) (s.onPart p fun x => { x with egress := m.2 }) := by
  refine (if_neg (Qp.may_send up resident)).trans ?_
  simp [next, meters, passes, enterFabric]

end Send

/-! ### Timers -/

section Timers

variable {s : State} {p i : Nat}

theorem ackTimer_up (up : ((s.part p).qp i).up) :
    ackTimer p i s = ((s.part p).qp i).peers.foldl (fun u k => if (((s.part p).qp i).flow k).unackedRx = 0 then u else sendAck u p i k) s :=
  if_neg fun down => Qp.down_iff.1 down up

theorem ackTimer_down (down : ¬((s.part p).qp i).up) : ackTimer p i s = s := if_pos (Qp.down_iff.2 down)

theorem retransmit_down (down : ¬((s.part p).qp i).up) (seq : Nat) : retransmit p i seq s = s := if_pos (Qp.down_iff.2 down)

theorem retransmit_absent {seq : Nat} (absent : (((s.part p).qp i).sent.find? fun t => t.pk.seq = seq) = none) : retransmit p i seq s = s := by
  simp only [retransmit, absent, ite_self]

theorem retransmit_sent {seq : Nat} {t : Sent} (up : ((s.part p).qp i).up) (sent : (((s.part p).qp i).sent.find? fun t => t.pk.seq = seq) = some t) :
    retransmit p i seq s = resend p i t s := by
  refine (if_neg fun down => Qp.down_iff.1 down up).trans ?_
  simp only [sent]

/-- After RETRY_MAX retransmissions the queue pair errs (R330). -/
theorem resend_last {t : Sent} (last : orOne s.fabric.retryMax ≤ t.retries) : resend p i t s = qpError s p i 0x20 t.pk.seq := if_pos last

theorem connectRetry_connecting (state : ((s.part p).qp i).state = .connecting) : connectRetry p i s = sendConnects s p i := if_pos state

theorem connectRetry_other (state : ((s.part p).qp i).state ≠ .connecting) : connectRetry p i s = s := if_neg state

end Timers

/-! ### CONNECT, DISCONNECT, RESET -/

/-- LNK_P_QPC_INDEX names the queue pair of the command. -/
def nameQp (s : State) (p i : Nat) : State := s.onPart p fun x => { x with regs := { x.regs with qpcIndex := i } }

/-- The state with the attributes of the registers taken by a queue pair, BUSY where it waits for a context. -/
def attributesTaken (s : State) (p i : Nat) (busy : Bool) (t : State) : State :=
  (t.onPart p fun x => { x with regs := { x.regs with qpcIndex := i, qpcBusy := busy } }).onQp p i (takeAttributes (s.part p).regs)

theorem qp_nameQp (s : State) (p i : Nat) : ((nameQp s p i).part p).qp i = (s.part p).qp i := by
  rw [nameQp, State.part_onPart]
  rfl

/-- A queue pair back in RESET, which keeps the numbers of its epochs and groups. -/
def Qp.cleared (q : Qp) : Qp := { Qp.reset with lastEpoch := q.lastEpoch, nextGroup := q.nextGroup }

section Commands

variable {s : State} {p i : Nat}

theorem qpConnect_ignored (off : s.reaches p = false ∨ (s.part p).regs.qpcBusy = true) : qpConnect p i s = s :=
  if_pos (by rcases off with h | h <;> simp [h])

theorem qpDisconnect_ignored (off : s.reaches p = false ∨ (s.part p).regs.qpcBusy = true) : qpDisconnect p i s = s :=
  if_pos (by rcases off with h | h <;> simp [h])

theorem qpResetCmd_ignored (off : s.reaches p = false ∨ (s.part p).regs.qpcBusy = true) : qpResetCmd p i s = s :=
  if_pos (by rcases off with h | h <;> simp [h])

theorem qpConnect_refused (refused : (s.func p).disable ≠ none ∨ 65536 ≤ i ∨ (s.part p).regs.qptSize ≤ i ∨ ((s.part p).qp i).state ≠ .reset) :
    qpConnect p i s = s := by
  refine if_pos ?_
  rcases refused with h | h | h | h
  · simp [Option.isSome_iff_ne_none.2 h]
  · simp [h]
  · simp [h]
  · simp [h]

variable (reached : s.reaches p = true) (idle : (s.part p).regs.qpcBusy = false)
include reached idle

section Connect

variable (enabled : (s.func p).disable = none) (number : i < 65536) (sized : i < (s.part p).regs.qptSize) (state : ((s.part p).qp i).state = .reset)
include enabled number sized state

theorem qpConnect_begins {t : State} (context : makeResident s p i = some t) : qpConnect p i s = beginConnect (attributesTaken s p i false t) p i := by
  simp [qpConnect, reached, idle, enabled, number, sized, state, context, attributesTaken]

theorem qpConnect_waits (full : makeResident s p i = none) : qpConnect p i s = attributesTaken s p i true s := by
  simp [qpConnect, reached, idle, enabled, number, sized, state, full, attributesTaken]

end Connect

theorem qpDisconnect_named : qpDisconnect p i s =
    if ((s.part p).qp i).state = .connecting then (nameQp s p i).onQp p i Qp.cleared
    else if ((s.part p).qp i).state = .ready then
      drainDone (dropAllPins ((sendControl (nameQp s p i) p i 3).onQp p i fun q => { q with state := .draining }) p i) p i
    else nameQp s p i := by
  have same : (((nameQp s p i).part p).qp i).state = ((s.part p).qp i).state := congrArg Qp.state (qp_nameQp s p i)
  simp only [nameQp] at same ⊢
  rw [qpDisconnect, if_neg (by simp [reached, idle])]
  simp only [same]
  cases ((s.part p).qp i).state
  case connecting => rfl
  case ready => exact ((if_neg nofun).trans (if_pos rfl)).symm
  all_goals exact ((if_neg nofun).trans (if_neg nofun)).symm

theorem qpResetCmd_named : qpResetCmd p i s = if ((s.part p).qp i).state = .error then (nameQp s p i).onQp p i Qp.cleared else nameQp s p i := by
  have same : (((nameQp s p i).part p).qp i).state = ((s.part p).qp i).state := congrArg Qp.state (qp_nameQp s p i)
  simp only [nameQp] at same ⊢
  rw [qpResetCmd, if_neg (by simp [reached, idle])]
  simp only [same]
  rfl

end Commands

/-- Settles O55: the sending side, the timers and the commands of a queue pair. -/
theorem queuePairRows : Obligations.QueuePairRows := by
  unfold Obligations.QueuePairRows
  intro s p i q up cleared
  refine ⟨fun n pk peer cmd up resident next => ⟨fun free => ?unmetered, fun meters red => ?red, fun meters passes => ?metered⟩, fun ns => rfl,
    fun up => congrArg Host.Outcome.next (ackTimer_up up), fun down => ⟨congrArg Host.Outcome.next (ackTimer_down down),
      congrArg Host.Outcome.next (sendNext_nothing (.inl down)), fun seq => congrArg Host.Outcome.next (retransmit_down down seq)⟩,
    fun nothing => congrArg Host.Outcome.next (sendNext_nothing (.inr nothing)), fun seq absent => congrArg Host.Outcome.next (retransmit_absent absent),
    fun seq t up sent => ⟨fun last => ?last, fun again => ?again⟩, fun state => congrArg Host.Outcome.next (connectRetry_connecting state),
    fun state => congrArg Host.Outcome.next (connectRetry_other state), fun awake off => ?ignored, fun reached idle => ?commands⟩
  case unmetered => exact congrArg Host.Outcome.next (sendNext_unmetered up resident next free)
  case red => exact congrArg Host.Outcome.next (sendNext_red up resident next meters red)
  case metered => exact congrArg Host.Outcome.next (sendNext_metered up resident next meters passes)
  case last =>
    have seq_eq : t.pk.seq = seq := by simpa using List.find?_some sent
    exact congrArg Host.Outcome.next ((retransmit_sent up sent).trans (seq_eq ▸ resend_last last))
  case again => exact congrArg Host.Outcome.next ((retransmit_sent up sent).trans (if_neg (Nat.not_le.2 again)))
  case ignored =>
    exact ⟨exec_access rfl awake (qpConnect_ignored off), exec_access rfl awake (qpDisconnect_ignored off), exec_access rfl awake (qpResetCmd_ignored off)⟩
  case commands =>
    have awake := linkAsleep_of_reaches_part reached
    exact ⟨fun t enabled number sized state => ⟨fun context => exec_access rfl awake (qpConnect_begins reached idle enabled number sized state context),
        fun full => exec_access rfl awake (qpConnect_waits reached idle enabled number sized state full)⟩,
      fun refused => exec_access rfl awake (qpConnect_refused refused),
      fun closed unready => exec_access rfl awake ((qpDisconnect_named reached idle).trans ((if_neg closed).trans (if_neg unready))),
      fun state => exec_access rfl awake ((qpDisconnect_named reached idle).trans (if_pos state)),
      fun state => exec_access rfl awake ((qpDisconnect_named reached idle).trans ((if_neg (state.trans_ne (by decide))).trans (if_pos state))),
      fun state => exec_access rfl awake ((qpResetCmd_named reached idle).trans (if_pos state)),
      fun state => exec_access rfl awake ((qpResetCmd_named reached idle).trans (if_neg state))⟩

end Sys2Proof.Machine
end

section
/-! THEOREM. The ports: joining the ring, links that come and go, frames and replays, hop credits and pauses, transit traffic, and what a port
does with a packet (R312 to R316, R320, R322, R468). -/

namespace Sys2Proof.Machine

open Sys2Proof

/-! ### Reading a port -/

theorem port_onPort_ne (s : State) {n m : Nat} (g : Port → Port) (h : m ≠ n) : (s.onPort n g).port m = s.port m := Map.get_put_ne _ _ _ _ _ h

/-! ### The ring (R312, R314, R316, R468) -/

theorem joinSet_joins {s : State} (reached : s.reaches 16 = true) (stage : 2 ≤ s.stage) (on : s.power.chip = .on) :
    joinSet s = s.onFabric fun f => { f with join := true, bypassClosed := false } :=
  if_neg (by simp [reached, on, Nat.not_lt.2 stage])

theorem joinSet_early {s : State} (early : s.stage < 2) : joinSet s = s := if_pos (by simp [early])

theorem joinClear_isolates {s : State} (reached : s.reaches 16 = true) : joinClear s = isolate (s.onFabric fun f => { f with join := false }) := if_pos reached

section Links

variable {s : State} {n : Nat} (joined : s.fabric.join = true) (live : List Nat)
include joined

theorem linkTrained_ring (ring : n < 4) : linkTrained n live s = setRing (s.onPort n fun x =>
    { Port.reset with up := true, badFrames := x.badFrames, hopCredits := (List.range 6).map fun v => (v, 512) }) live := by
  have port : ¬(8 ≤ n || !s.fabric.join) = true := by simp [joined]; omega
  refine (if_neg port).trans ?_
  simp only [ring, if_true]

theorem linkTrained_uplink (uplink : 4 ≤ n) (port : n < 8) :
    linkTrained n live s = s.onPort n fun x => { Port.reset with up := true, badFrames := x.badFrames } := by
  refine (if_neg (by simp [joined, port])).trans ?_
  simp only [Nat.not_lt.2 uplink, if_false]
  rfl

theorem linkLost_ring (ring : n < 4) : linkLost n live s = setRing (s.onPort n fun x => { Port.reset with badFrames := x.badFrames }) live :=
  if_neg (by simp [joined, ring])

end Links

/-! ### Frames, replays, hop credits, pauses and transit (R313, R320, R322) -/

section Frames

variable {s : State} {n : Nat} (ring : n < 4) (up : (s.port n).up = true)
include ring up

theorem ring_port_takes : ¬(4 ≤ n || !(s.port n).up) = true := by simp [ring, up]

theorem linkFrameError_counts : linkFrameError n s = s.onPort n fun x => { x with badFrames := x.badFrames + 1 } := if_neg (ring_port_takes ring up)

theorem replayRequest_replays (lack : Nat) :
    let t := s.onPort n fun x => dropReplay x lack
    replayRequest n lack s = t.onFabric fun f => { f with egress := f.egress ++ (t.port n).replay.map fun e => (n, e.2.2) } :=
  if_neg (ring_port_takes ring up)

theorem creditFrame_returns {vc : Nat} (channel : vc < 6) (credits lack : Nat) :
    creditFrame n vc credits lack s = drainPort (s.onPort n fun x =>
      { dropReplay x lack with hopCredits := Map.put x.hopCredits vc (Nat.min 512 (Map.get x.hopCredits vc 0 + credits)) }) n :=
  if_neg (by simp [ring, up, channel])

theorem transitForward_goes_on {pk : Packet} (away : pk.dst ≠ ownAddress s) (inRing : isRing s pk.dst = true) :
    let west : Bool := n < 2
    let t := s.onPort n fun x => { x with lack := (x.lack + 1) % 4096 }
    transitForward n (vcOf pk) pk s =
      portSend t (if west then n + 2 else n - 2) { pk with west := west, rail := n % 2, dl := pk.dl || onDateline t west } := by
  intro west t
  exact (if_neg (by simp [ring, up, away, inRing])).trans (by simp only [west, t, decide_eq_true_eq])

end Frames

theorem pfcFrame_pauses {s : State} {u : Nat} (uplink : u < 4) (up : (s.port (4 + u)).up = true) (mask : Nat) :
    pfcFrame u mask s = drainPort (s.onPort (4 + u) fun x => { x with paused := mask &&& s.fabric.pfcPri }) (4 + u) :=
  if_neg (by simp [uplink, up])

/-! ### A packet given to a port (R313, R316, R348) -/

theorem egress_emit (s : State) (n : Nat) (pk : Packet) : (emit s n pk).fabric.egress = s.fabric.egress ++ [(n, pk)] := by
  unfold emit
  split <;> rfl

theorem port_emit_ne (s : State) {n m : Nat} (pk : Packet) (other : m ≠ n) : (emit s n pk).port m = s.port m := by
  unfold emit
  split
  · rfl
  · exact port_onPort_ne _ _ other

section Given

variable {s : State} {n : Nat} {pk : Packet}

theorem portSend_down (down : (s.port n).up = false) : portSend s n pk = s := if_pos (by simp [down])

variable (up : (s.port n).up = true)
include up

theorem portSend_queues (behind : Map.get (s.port n).transit (portQueue s n pk) [] ≠ []) : portSend s n pk =
    s.onPort n fun x => { x with transit := Map.put x.transit (portQueue s n pk) (Map.get x.transit (portQueue s n pk) [] ++ [pk]) } :=
  (if_neg (by simp [up])).trans (if_neg (by simp [behind]))

theorem portSend_emits (first : Map.get (s.port n).transit (portQueue s n pk) [] = []) (may : mayEmit (s.port n) n pk = true) :
    portSend s n pk = emit (s.onPort n fun x => spendHop x n pk) n pk :=
  (if_neg (by simp [up])).trans (if_pos (by simp [first, may]))

end Given

/-- Settles O56: the ring, its links and frames, and what a port does with a packet. -/
theorem portRows : Obligations.PortRows := by
  unfold Obligations.PortRows
  refine ⟨fun s reached => ⟨fun stage on => ?joins, fun early => ?early, ?clears⟩,
    fun s n live joined => ⟨fun ring => ?trained, fun uplink port => ?uplink, fun ring => ?lost⟩, fun s live => rfl,
    fun s n lack ring up => ⟨?bad, ?replay, fun vc credits channel => ?credits, fun pk away inRing => ?transit⟩, fun s u mask uplink up => ?pause,
    fun s n pk => ⟨portSend_down, portSend_queues, fun up first may => ?emits⟩⟩
  case joins => exact exec_access rfl (linkAsleep_of_reaches reached) (joinSet_joins reached stage on)
  case early => exact exec_access rfl (linkAsleep_of_reaches reached) (joinSet_early early)
  case clears => exact exec_access rfl (linkAsleep_of_reaches reached) (joinClear_isolates reached)
  case trained => exact congrArg Host.Outcome.next (linkTrained_ring joined live ring)
  case uplink => exact congrArg Host.Outcome.next (linkTrained_uplink joined live uplink port)
  case lost => exact congrArg Host.Outcome.next (linkLost_ring joined live ring)
  case bad => exact congrArg Host.Outcome.next (linkFrameError_counts ring up)
  case replay => exact congrArg Host.Outcome.next (replayRequest_replays ring up lack)
  case credits => exact congrArg Host.Outcome.next (creditFrame_returns ring up channel credits lack)
  case transit => exact congrArg Host.Outcome.next (transitForward_goes_on ring up away inRing)
  case pause => exact congrArg Host.Outcome.next (pfcFrame_pauses uplink up mask)
  case emits =>
    rw [portSend_emits up first may]
    exact ⟨egress_emit _ n pk, fun m other => (port_emit_ne _ pk other).trans (port_onPort_ne s _ other)⟩

end Sys2Proof.Machine
end

section
/-! THEOREM. What every step keeps, of the whole model: the queue, the canonical form of the sparse memories, and the fuses (R363, R385, R413). -/

namespace Sys2Proof.Machine

open Sys2Proof

/-- Settles O1: a step runs the front of the queue. -/
theorem stepRunsFront : Obligations.StepRunsFront := by
  intro c rest s front
  simp only [step, front]

theorem counterRuns_iff (s : State) : counterRuns s = true ↔ s.power.chip = .on ∨ s.power.chip = .deepSleep := by
  unfold counterRuns
  cases s.power.chip <;> simp

/-- Settles O2: the seconds counter runs where the chip is on or in Deep sleep. -/
theorem emptyQueueIdles : Obligations.EmptyQueueIdles := by
  intro s empty
  have idles : step s = .next (idleTick s) := by simp only [step, empty]
  refine ⟨fun runs => ?_, fun on deep => ?_⟩
  · rw [idles, idleTick, if_pos ((counterRuns_iff s).2 runs)]
  · rw [idles, idleTick, if_neg fun runs => ((counterRuns_iff s).1 runs).elim on deep]

/-- No command stops the block: each answers a next state. -/
theorem exec_answers (i : Instr) (s : State) : ∃ t, exec i s = .next t := by
  cases i <;> exact ⟨_, rfl⟩

/-- Settles O3: every command keeps the form and its queue, which a step has shortened by its front. -/
theorem everyStepKeepsForm : Obligations.EveryStepKeepsForm := by
  intro s form
  cases queue : s.pending with
  | nil =>
    have kept := idleTick_keeps s (Keeps.of_canonical s form)
    exact ⟨idleTick s, by simp only [step, queue], kept.canonical, kept.queue.trans queue⟩
  | cons c rest =>
    obtain ⟨t, answer⟩ := exec_answers c { s with pending := rest }
    have kept := exec_next_keeps (Keeps.of_canonical { s with pending := rest } form) answer
    exact ⟨t, by simpa only [step, queue] using answer, kept.canonical, kept.queue⟩

/-- Settles O4: the fuses are part of what every command keeps. -/
theorem fusesOnlyBurn : Obligations.FusesOnlyBurn := fun _ s _ form answer =>
  (exec_next_keeps (Keeps.of_canonical s form) answer).fuses

/-- The bytes read back from a range that was written. -/
theorem Memory.readBytes_writeBytes (m : List Host.Cell) (a : Nat) (d : List Byte) :
    Memory.readBytes (Memory.writeBytes m a d) a d.length = d := by
  refine List.ext_getElem (by simp [Memory.readBytes]) fun i _ inside => ?_
  simpa [Memory.readBytes] using Memory.read_writeBytes_inside m a i d inside

/-- Settles O6: each byte inside and outside the range by its own law. -/
theorem memoryReadAfterWrite : Obligations.MemoryReadAfterWrite := fun m a d form =>
  ⟨Memory.readBytes_writeBytes m a d, fun b outside => Memory.read_writeBytes_outside m a b d outside, Memory.writeBytes_wf m a d form⟩

end Sys2Proof.Machine
end

section
/-! SUPPORT and THEOREM. Event queues: where a record lands, and the writes of a queue's registers (R362 to R364, R367, R368). -/

namespace Sys2Proof.Machine

open Sys2Proof

/-! ### A queue after an update -/

section Reading

variable (s : State) (fn q : Nat)

@[simp] theorem State.eq_onEq (f : EventQueue → EventQueue) : (s.onEq fn q f).eq fn q = f (s.eq fn q) := by
  unfold State.onEq State.eq
  split <;> simp [*]

/-- Two updates of a queue that agree on what it holds are one. -/
theorem State.onEq_congr {f g : EventQueue → EventQueue} (h : f (s.eq fn q) = g (s.eq fn q)) : s.onEq fn q f = s.onEq fn q g := by
  unfold State.eq at h
  unfold State.onEq State.onPart Part.onEq
  split at h <;> simp [*]

theorem State.eq_land (n addr : Nat) (b : List Byte) : (s.land n addr b).eq fn q = s.eq fn q := by
  have parts : ((s.land n addr b).part fn).eq q = (s.part fn).eq q := by
    unfold State.land
    dsimp only
    split
    · by_cases h : fn = n
      · subst h
        rw [State.part_onAcct]
        rfl
      · exact congrArg (Part.eq · q) (State.part_onPart_ne _ _ _ _ h)
    · rfl
  have meq : (s.land n addr b).meq = s.meq := by
    unfold State.land
    dsimp only
    split <;> rfl
  simp only [State.eq, parts, meq]

@[simp] theorem State.eq_issue (w : OutWrite) : (s.issue w).eq fn q = s.eq fn q := by
  unfold State.issue
  split
  · cases w with
    | data n addr b c => exact State.eq_land ({ s with credits := s.credits - 1 }) fn q n addr b
    | record n addr b c => exact State.eq_land ({ s with credits := s.credits - 1 }) fn q n addr b
    | message n v => rfl
  · rfl

@[simp] theorem eq_setVector (n v : Nat) (x : Vector16) : (setVector s n v x).eq fn q = s.eq fn q := by
  unfold setVector
  split <;> rfl

@[simp] theorem hostMem_setVector (n v : Nat) (x : Vector16) : (setVector s n v x).hostMem = s.hostMem := by
  unfold setVector
  split <;> rfl

theorem hostMem_issue_message (n v : Nat) : (s.issue (.message n v)).hostMem = s.hostMem := by
  unfold State.issue
  split <;> rfl

@[simp] theorem eq_sendMessage (n v : Nat) : (sendMessage s n v).eq fn q = s.eq fn q := by
  unfold sendMessage
  dsimp only
  split
  · exact eq_setVector s fn q n v _
  · exact State.eq_issue s fn q _

@[simp] theorem hostMem_sendMessage (n v : Nat) : (sendMessage s n v).hostMem = s.hostMem := by
  unfold sendMessage
  dsimp only
  split
  · exact hostMem_setVector s n v _
  · exact hostMem_issue_message s n v

/-- An interrupt changes no byte of host memory. -/
@[simp] theorem hostMem_signalIfDue : (signalIfDue s fn q).hostMem = s.hostMem := by
  unfold signalIfDue
  dsimp only
  split
  · exact (hostMem_sendMessage _ fn _).trans (State.onEq_hostMem s fn q _)
  · rfl

end Reading

/-- The queue but for what a message changes of it (R368). -/
def EventQueue.unsent (e : EventQueue) : EventQueue := { e with arm := false, unsignalled := 0, timerDue := false }

/-- An interrupt changes of its queue only ARM and what counts towards the next one. -/
theorem unsent_signalIfDue (s : State) (fn q : Nat) : ((signalIfDue s fn q).eq fn q).unsent = (s.eq fn q).unsent := by
  unfold signalIfDue
  dsimp only
  split
  · rw [eq_sendMessage, State.eq_onEq]
    rfl
  · rfl

/-! ### A record at TAIL (R363, R364) -/

/-- The queue with its TAIL one record on, which flips PHASE at the wrap. -/
def EventQueue.moved (e : EventQueue) : EventQueue :=
  { e with tail := if e.tail + 1 = e.size then 0 else e.tail + 1, phase := if e.tail + 1 = e.size then !e.phase else e.phase }

theorem unsent_writeRecord (s : State) (fn q : Nat) (b : List Byte) (cmd : Option CmdRef) :
    ((writeRecord s fn q b cmd).eq fn q).unsent = (s.eq fn q).moved.unsent := by
  unfold writeRecord
  dsimp only
  rw [unsent_signalIfDue, State.eq_onEq, State.eq_issue]
  rfl

theorem hostMem_issue_record {s : State} (first : s.outq = []) (credit : s.credits ≠ 0) (fn addr : Nat) (b : List Byte) (cmd : Option CmdRef) :
    (s.issue (.record fn addr b cmd)).hostMem = Memory.writeBytes s.hostMem addr b := by
  have now : (s.outq = [] && s.credits ≠ 0) = true := by simp [first, credit]
  rw [State.issue, if_pos now]
  unfold State.perform State.land
  dsimp only
  split <;> rfl

theorem hostMem_writeRecord {s : State} (first : s.outq = []) (credit : s.credits ≠ 0) (fn q : Nat) (b : List Byte) (cmd : Option CmdRef) :
    (writeRecord s fn q b cmd).hostMem =
      Memory.writeBytes s.hostMem ((s.eq fn q).base + 32 * (s.eq fn q).tail) (b ++ phaseWord (s.eq fn q).phase) := by
  unfold writeRecord
  dsimp only
  rw [hostMem_signalIfDue, State.onEq_hostMem, hostMem_issue_record first credit]

theorem Record.bytes_numbered (r : Record) (n : Nat) : (r.bytes 0).take 0x16 ++ leBytes 2 n ++ (r.bytes 0).drop 0x18 = r.bytes n := rfl

/-- The queue that has given a record its sequence number. -/
def EventQueue.numbered (e : EventQueue) : EventQueue := { e with eseq := (e.eseq + 1) % 2 ^ 16 }

section Post

variable {s : State} {fn q : Nat} (r : Record) (c : Option CmdRef)

theorem postRecord_disabled (off : (s.eq fn q).en = false) : postRecord s fn q r c = s := if_pos (by simp [off])

variable (on : (s.eq fn q).en = true)

include on

theorem postRecord_room (room : (s.eq fn q).full = false) (empty : (s.eq fn q).overflow = []) :
    postRecord s fn q r c = writeRecord (s.onEq fn q EventQueue.numbered) fn q (r.bytes (s.eq fn q).eseq) c := by
  unfold postRecord postRaw
  dsimp only
  rw [if_neg (by simp [on]), if_neg (by simp [room, empty]), Record.bytes_numbered]
  rfl

theorem postRecord_overflows (full : (s.eq fn q).full = true ∨ (s.eq fn q).overflow ≠ []) (space : (s.eq fn q).overflow.length < 32768) :
    postRecord s fn q r c = (s.onEq fn q EventQueue.numbered).onEq fn q fun e =>
      { e with overflow := e.overflow ++ [r.bytes (s.eq fn q).eseq], ovfCount := e.ovfCount + 1 } := by
  unfold postRecord postRaw
  dsimp only
  rw [if_neg (by simp [on]), if_pos (by simpa using full), if_neg (by simpa [Config.overflowRecords] using space), Record.bytes_numbered]
  rfl

theorem postRecord_waits (full : (s.eq fn q).full = true ∨ (s.eq fn q).overflow ≠ []) (spent : 32768 ≤ (s.eq fn q).overflow.length) :
    postRecord s fn q r c = (s.onEq fn q EventQueue.numbered).onEq fn q fun e => { e with waiting := e.waiting ++ [r.bytes (s.eq fn q).eseq] } := by
  unfold postRecord postRaw
  dsimp only
  rw [if_neg (by simp [on]), if_pos (by simpa using full), if_pos (by simpa [Config.overflowRecords] using spent), Record.bytes_numbered]
  rfl

end Post

/-- Settles O40: the record is written at TAIL, or is put behind the records that wait. -/
theorem eventRecordLands : Obligations.EventRecordLands := by
  intro s fn q r c _
  dsimp only
  refine ⟨fun on room empty first credit => ?lands, fun on full spent => ?waits, fun on full space => ?overflows, fun off => postRecord_disabled r c off⟩
  case lands =>
    have post := postRecord_room r c on room empty
    have memory : (postRecord s fn q r c).hostMem = Memory.writeBytes s.hostMem ((s.eq fn q).base + 32 * (s.eq fn q).tail)
        (r.bytes (s.eq fn q).eseq ++ phaseWord (s.eq fn q).phase) := by
      rw [post, hostMem_writeRecord (by simpa using first) (by simpa using credit), State.eq_onEq, State.onEq_hostMem]
      rfl
    have queue : ((postRecord s fn q r c).eq fn q).unsent = (s.eq fn q).numbered.moved.unsent := by
      rw [post, unsent_writeRecord, State.eq_onEq]
    refine ⟨?_, fun a outside => ?_, congrArg EventQueue.tail queue, congrArg EventQueue.phase queue, congrArg EventQueue.eseq queue,
      (congrArg EventQueue.overflow queue).trans empty, (congrArg EventQueue.head queue :)⟩
    · rw [State.hostBytes, memory]
      exact Memory.readBytes_writeBytes _ _ _
    · rw [memory]
      exact Memory.read_writeBytes_outside _ _ _ _ outside
  case waits =>
    rw [postRecord_waits r c on full spent]
    simp [EventQueue.numbered]
  case overflows =>
    rw [postRecord_overflows r c on full space]
    simp [EventQueue.numbered]

/-! ### The writes of a queue's registers (R362, R363, R367, R368) -/

section Writes

variable {s : State} {fn q : Nat}

/-- Nothing names the queue where only its fields were written. -/
theorem eqNamed_onEq_eqFields (v : Nat) (low : fn < 16) : eqNamed ((s.onEq fn q (eqFields fn v)).part fn) q = eqNamed (s.part fn) q := by
  rw [State.onEq, if_pos low, State.part_onPart]
  rfl

variable (reached : s.reaches fn = true) (small : q < 16) (only : fn = 16 → q = 0)

include reached small only

theorem queue_reached : ¬(!s.reaches fn || decide (16 ≤ q) || (decide (fn = 16) && decide (q ≠ 0))) = true := by
  simpa [reached, small] using only

theorem eqEnable_enables {v : Nat} (set : bit v 31 = true) (off : (s.eq fn q).en = false) (least : 7 ≤ bits v 0 5) (most : bits v 0 5 ≤ 20) :
    eqEnable fn q v s = signalIfDue (s.onEq fn q fun e =>
      { eqFields fn v e with en := true, head := 0, tail := 0, phase := true, eseq := 0, unsignalled := 0, timerDue := false }) fn q := by
  have open_ := queue_reached reached small only
  rw [eqEnable, if_neg (by simpa [set] using open_)]
  exact congrArg (signalIfDue · fn q) (State.onEq_congr s fn q (by simp [eqFields, off, least, most]))

theorem eqDisable_stays {v : Nat} (clear : bit v 31 = false) (used : (s.eq fn q).overflow ≠ [] ∨ (fn < 16 ∧ eqNamed (s.part fn) q = true)) :
    eqDisable fn q v s = s.onEq fn q (eqFields fn v) := by
  have open_ := queue_reached reached small only
  rw [eqDisable, if_neg (by simpa [clear] using open_)]
  refine if_pos ?_
  rcases used with records | ⟨low, named⟩
  · simp [records]
  · simp [low, eqNamed_onEq_eqFields, named]

theorem eqDisable_disables {v : Nat} (clear : bit v 31 = false) (on : (s.eq fn q).en = true) (empty : (s.eq fn q).overflow = [])
    (free : fn = 16 ∨ eqNamed (s.part fn) q = false) :
    eqDisable fn q v s = (s.onEq fn q (eqFields fn v)).onEq fn q fun e => { e with en := false } := by
  have open_ := queue_reached reached small only
  rw [eqDisable, if_neg (by simpa [clear] using open_)]
  refine if_neg ?_
  rcases free with pf0 | unnamed
  · subst pf0
    simp [on, empty]
  · simp +contextual [on, empty, eqNamed_onEq_eqFields, unnamed]

theorem eqHeadWrite_frees {v : Nat} (fine : (s.eq fn q).headOk (bits v 0 20) = true) :
    eqHeadWrite fn q v s =
      (let t := s.onEq fn q fun e => { e with head := bits v 0 20, arm := e.arm || e.autoArm }
       signalIfDue (deliverOverflow fn q (t.eq fn q).backlog t) fn q) := by
  rw [eqHeadWrite, if_neg (queue_reached reached small only)]
  exact if_pos fine

theorem eqHeadWrite_refused {v : Nat} (bad : (s.eq fn q).headOk (bits v 0 20) = false) :
    eqHeadWrite fn q v s = s.onEq fn q fun e => { e with headErr := true } := by
  rw [eqHeadWrite, if_neg (queue_reached reached small only)]
  exact if_neg (by simp [bad])

theorem eqArm_arms : eqArm fn q s = signalIfDue (s.onEq fn q fun e => { e with arm := true }) fn q :=
  if_neg (queue_reached reached small only)

theorem msixUnmask_unmasks : msixUnmask fn q s =
    (let t := setVector s fn q { vector s fn q with masked := false, pending := false }
     if (vector s fn q).pending then t.issue (.message fn q) else t) :=
  if_neg (queue_reached reached small only)

end Writes

theorem coalesceTimer_due {s : State} {fn q : Nat} (timed : (s.eq fn q).coalUs ≠ 0) (some_record : (s.eq fn q).unsignalled ≠ 0) :
    coalesceTimer fn q s = signalIfDue (s.onEq fn q fun e => { e with timerDue := true }) fn q :=
  if_neg (by simp [timed, some_record])

/-- Settles O39: each write by its own lemma, as a host access that acts at once. -/
theorem eventQueueWrites : Obligations.EventQueueWrites := by
  intro s fn q reached small only
  have awake := linkAsleep_of_reaches_part reached
  exact ⟨fun v set off least most => exec_access rfl awake (eqEnable_enables reached small only set off least most),
    fun v clear on empty free => exec_access rfl awake (eqDisable_disables reached small only clear on empty free),
    fun v clear used => exec_access rfl awake (eqDisable_stays reached small only clear used),
    fun v fine => exec_access rfl awake (eqHeadWrite_frees reached small only fine),
    fun v bad => exec_access rfl awake (eqHeadWrite_refused reached small only bad),
    exec_access rfl awake (eqArm_arms reached small only),
    fun timed some_record => congrArg Host.Outcome.next (coalesceTimer_due timed some_record),
    exec_access rfl awake (msixUnmask_unmasks reached small only)⟩

end Sys2Proof.Machine
end

section
/-! THEOREM. The causes that disable a function, a second cause while a disable is in progress, and the end of its drain (R372 to R376, R379). -/

namespace Sys2Proof.Machine

open Sys2Proof

/-! ### What a disable in progress holds -/

theorem State.onFunc_congr {s : State} {p : Nat} {f g : Func → Func} (h : f (s.func p) = g (s.func p)) : s.onFunc p f = s.onFunc p g := by
  simp only [State.onFunc, h]

/-- Two changes of a disable in progress that agree on what it holds are one. -/
theorem onDisable_congr {s : State} {p : Nat} {d : Disable} (busy : (s.func p).disable = some d) {f g : Disable → Disable} (same : f d = g d) :
    onDisable s p f = onDisable s p g :=
  State.onFunc_congr (by simp [busy, same])

theorem disable_resetVectors (s : State) (p cause : Nat) : ((resetVectors s p cause).func p).disable = (s.func p).disable := by
  rw [resetVectors, State.func_onFunc]

section Again

variable {s : State} {p : Nat} {d : Disable} (busy : (s.func p).disable = some d) (cause : Nat)

include busy

/-- A second cause changes the disable in progress and nothing else but what it resets (R374, R379). -/
theorem disable_again (graceful silent : Bool) : disable s p cause graceful silent = onDisable (resetVectors s p cause) p fun d =>
    if d.graceful && !graceful then
      { d with cause := cause, graceful := false, records := [], recordsDropped := d.recordsDropped + d.records.length, silent := d.silent || silent }
    else { d with silent := d.silent || silent } := by
  unfold disable
  rw [busy]

theorem disable_abrupt_of_graceful (graceful : d.graceful = true) : disable s p cause false false = onDisable (resetVectors s p cause) p fun d =>
    { d with cause := cause, graceful := false, records := [], recordsDropped := d.recordsDropped + d.records.length } :=
  (disable_again busy cause false false).trans (onDisable_congr ((disable_resetVectors s p cause).trans busy) (by simp [graceful]))

theorem disable_abrupt_of_abrupt (abrupt : d.graceful = false) : disable s p cause false false = onDisable (resetVectors s p cause) p id :=
  (disable_again busy cause false false).trans (onDisable_congr ((disable_resetVectors s p cause).trans busy) (by rw [if_neg (by simp [abrupt])]; simp))

theorem disable_graceful_again : disable s p cause true false = onDisable (resetVectors s p cause) p id :=
  (disable_again busy cause true false).trans (onDisable_congr ((disable_resetVectors s p cause).trans busy) (by simp))

end Again

/-! ### The causes (R372, R376) -/

theorem linkAsleep_of_hostUp {s : State} (up : s.hostUp = true) : s.linkAsleep = false := by
  have on : s.power.chip = .on := by
    simp only [State.hostUp, Bool.and_eq_true, decide_eq_true_eq] at up
    exact up.1
  simp [State.linkAsleep, on]

section Causes

variable {s : State} {p : Nat} (up : s.hostUp = true) (vfs : s.vfEnable = true) (vf : p < 16)

include up vfs

theorem vfEnableClear_disables : vfEnableClear s =
    (List.range 16).foldl (fun s o => disable s o Cause.vfEnable false false) { s with vfEnable := false } := if_neg (by simp [up, vfs])

include vf

theorem vfFlr_disables : vfFlr p s = disable s p Cause.flr false false := if_neg (by simp [up, vfs, vf])

theorem busMasterDisable_disables (master : (s.func p).bme = true) :
    busMasterDisable p s = disable (s.onFunc p fun f => { f with bme := false }) p Cause.busMaster false false := by
  rw [busMasterDisable, if_neg (by simp [up]), if_neg (by omega), if_neg (by simp [vfs, master]; omega)]

theorem busMasterEnable_sets : busMasterEnable p s = s.onFunc p fun f => { f with bme := true } := by
  rw [busMasterEnable, if_neg (by simp [up]), if_neg (by omega), if_neg (by simp [vfs]; omega)]

theorem d3hotEntry_disables (d0 : (s.func p).d3 = false) :
    d3hotEntry p s = disable (s.onFunc p fun f => { f with d3 := true }) p Cause.d3hot false false := if_neg (by simp [up, vfs, vf, d0])

theorem d0Return_clears : d0Return p s = s.onFunc p fun f => { f with d3 := false } := if_neg (by simp [up, vfs, vf])

end Causes

theorem quiesce_disables {s : State} {p : Nat} (reached : s.reaches 16 = true) (vf : p < 16) :
    quiesce p s = disable { s with quiesce := s.quiesce - bits s.quiesce p 1 * 2 ^ p + 2 ^ p } p Cause.quiesce true false :=
  if_neg (by simp [reached, vf])

theorem busMasterDisable_pf0 {s : State} (up : s.hostUp = true) (master : s.pf0Bme = true) :
    busMasterDisable 16 s = pf0Reset { s with pf0Bme := false } := by
  rw [busMasterDisable, if_neg (by simp [up]), if_pos rfl, if_pos master]

theorem exec_pf0Flr {s : State} (up : s.hostUp = true) : exec .pf0Flr s = .next (pf0Reset s) := exec_access (f := pf0Flr) rfl (linkAsleep_of_hostUp up) (if_pos up)

/-! ### The end of the drain (R373, R375, R379) -/

theorem postRecord_confined {p : Nat} {b s : State} (h : ConfinedTo p b s) (q : Nat) (r : Record) (c : Option CmdRef) :
    ConfinedTo p b (postRecord s p q r c) := by
  unfold postRecord postRaw
  exact .ite h (.ite (.ite ((h.onEq _ _).onEq _ _) ((h.onEq _ _).onEq _ _)) (writeRecord_confined (h.onEq _ _) _ _ _))

/-- A command of the function that outlives its disable has not left, or the disable is graceful and a write is still to issue. -/
def drains (s : State) (p : Nat) (d : Disable) : Bool :=
  ((s.part p).slots.any fun y => y.2.window.any outlives) || (d.graceful && writesDue s p)

section Drain

variable {s : State} {p : Nat} {d : Disable} (busy : (s.func p).disable = some d) (us : Nat)

include busy

theorem drainEnd_waits (h : drains s p d = true ∨ s.ready = false ∨ (d.early = true ∧ s.meq.en = false ∧ d.silent = false)) :
    drainEnd p us s = s := by
  unfold drainEnd
  rw [busy]
  refine if_pos ?_
  rcases h with waits | early | ⟨early, off, loud⟩
  · simp only [drains] at waits
    simp [waits]
  · simp [early]
  · simp [early, off, loud]

theorem drainEnd_closes (done : drains s p d = false) (ready : s.ready = true) (queue : d.early = true → s.meq.en = true) :
    drainEnd p us s = closeDisable p us (endAborts s p) := by
  unfold drainEnd
  rw [busy]
  refine if_neg ?_
  rw [drains] at done
  rw [done]
  cases early : d.early
  · simp [ready]
  · simp [ready, queue early]

theorem disableDrainEnd_waits (h : drains s p d = true ∨ s.ready = false ∨ (d.early = true ∧ s.meq.en = false ∧ d.silent = false)) :
    disableDrainEnd p us s = s := by
  unfold disableDrainEnd
  rw [busy]
  dsimp only
  rw [drainEnd_waits busy us h, busy]
  split
  · simp
  · rfl

theorem disableDrainEnd_closes (done : drains s p d = false) (ready : s.ready = true) (queue : d.early = true → s.meq.en = true)
    (idle : (closeDisable p us (endAborts s p)).oxs.queue = []) : disableDrainEnd p us s = closeDisable p us (endAborts s p) := by
  unfold disableDrainEnd
  rw [busy]
  dsimp only
  rw [drainEnd_closes busy us done ready queue, idle]

end Drain

/-- The host side of the function after steps 6 to 8 of its disable. -/
def hostSideReset (v : State) (p : Nat) (g : Disable) : State :=
  resetHostSide (abandonReads (if g.graceful then postAborted p g.records v else dropWrites v p) p) p g.cause g.graceful

/-- The function is no longer disabled, and its bit of QUIESCE is clear. -/
def disableEnded (t : State) (p : Nat) : State :=
  let u := t.onFunc p fun f => { f with disable := none }
  { u with quiesce := u.quiesce - bits u.quiesce p 1 * 2 ^ p }

theorem oxs_disableEnded (t : State) (p : Nat) : (disableEnded t p).oxs = t.oxs := rfl

theorem closeDisable_ends {v : State} {p : Nat} {g e : Disable} (busy : (v.func p).disable = some g)
    (still : ((hostSideReset v p g).func p).disable = some e) (us : Nat) :
    closeDisable p us v = (let u := disableEnded (hostSideReset v p g) p
      if e.silent then u else postRecord u 16 0 (quiesceRecord e p us) none) := by
  unfold hostSideReset at still
  unfold closeDisable
  rw [busy]
  dsimp only
  rw [still]
  rfl

/-- The end of a disable leaves Oxsis as steps 6 to 8 left it. -/
theorem oxs_closeDisable {v : State} {p : Nat} {g e : Disable} (busy : (v.func p).disable = some g)
    (still : ((hostSideReset v p g).func p).disable = some e) (us : Nat) : (closeDisable p us v).oxs = (hostSideReset v p g).oxs := by
  rw [closeDisable_ends busy still, ← oxs_disableEnded (hostSideReset v p g) p]
  generalize disableEnded (hostSideReset v p g) p = u
  dsimp only
  split
  · rfl
  · exact (postRecord_confined (.refl 16 u) 0 _ none).oxs

/-- Settles O45: each cause by its own lemma, then the second cause, and the end of the drain. -/
theorem disablesOfFunctions : Obligations.DisablesOfFunctions := by
  refine ⟨fun s p vf up vfs => ?causes, fun s up => ?pf0, fun s p cause d busy => ?again, fun s p idle us => ?idle, fun s p us d busy => ?drain⟩
  case causes =>
    have awake := linkAsleep_of_hostUp up
    exact ⟨exec_access rfl awake (vfFlr_disables up vfs vf), fun reached => exec_access rfl awake (quiesce_disables reached vf),
      fun master => exec_access rfl awake (busMasterDisable_disables up vfs vf master), exec_access rfl awake (busMasterEnable_sets up vfs vf),
      fun d0 => exec_access rfl awake (d3hotEntry_disables up vfs vf d0), exec_access rfl awake (d0Return_clears up vfs vf),
      exec_access rfl awake (vfEnableClear_disables up vfs)⟩
  case pf0 =>
    have awake := linkAsleep_of_hostUp up
    exact ⟨exec_access (f := vfEnableSet) rfl awake (if_pos up), exec_pf0Flr up,
      fun master => exec_access rfl awake (busMasterDisable_pf0 up master)⟩
  case again =>
    exact ⟨disable_abrupt_of_graceful busy cause, disable_abrupt_of_abrupt busy cause, disable_graceful_again busy cause⟩
  case idle =>
    refine congrArg Host.Outcome.next ?_
    unfold disableDrainEnd
    rw [idle]
  case drain =>
    refine ⟨fun h => congrArg Host.Outcome.next (disableDrainEnd_waits busy us h), fun done ready queue g busyNow e still idle => ?_⟩
    have closes := disableDrainEnd_closes busy us done ready queue ((congrArg Oxsis.queue (oxs_closeDisable busyNow still us)).trans idle)
    exact congrArg Host.Outcome.next (closes.trans (closeDisable_ends busyNow still us))

end Sys2Proof.Machine
end

section
/-! THEOREM. The requests that Oxsis serves: each one that passes its checks has its effect, and ends with result 0 and its response (R382 to R410). -/

namespace Sys2Proof.Machine

open Sys2Proof

/-! ### A request that Oxsis takes at once (R382 to R384) -/

section Request

variable (s : State) (op : Nat) (via : OxsVia) (sigOk : Bool) (image : Option FwSlot)

@[simp] theorem op_requestOf : (requestOf s op via sigOk image).op = op := by cases via <;> rfl
@[simp] theorem sigOk_requestOf : (requestOf s op via sigOk image).sigOk = sigOk := by cases via <;> rfl
@[simp] theorem image_requestOf : (requestOf s op via sigOk image).image = image := by cases via <;> rfl
@[simp] theorem mctp_requestOf : (requestOf s op via sigOk image).mctp = decide (via ≠ .mailbox) := by cases via <;> rfl

end Request

section Served

variable {t u : State} {q : OxsReq} {result : Nat} {response : List Byte}

/-- The first request of the queue ends, and those behind it are served. -/
theorem serve_done {l : List OxsReq} (queue : t.oxs.queue = q :: l) (run : runRequest t q = .done u result response) (n : Nat) :
    serve (n + 1) t = serve n (respond u q result response) := by
  simp only [serve, queue, run]

end Served

/-- A request that finds Oxsis idle is served at once. -/
theorem oxsArrive_first {t : State} (idle : t.oxs.queue = []) (steady : t.holds 10 = false) (q : OxsReq) :
    oxsArrive t q = serve 1 (t.onOxs fun o => { o with queue := [q] }) := by
  have queued : (t.onOxs fun o => { o with queue := o.queue ++ [q] }) = t.onOxs fun o => { o with queue := [q] } := by simp [State.onOxs, idle]
  have still : (t.onOxs fun o => { o with queue := [q] }).holds 10 = false := steady
  rw [oxsArrive, queued]
  exact if_pos (by simp [idle, still])

section Row

variable {s : State} {via : OxsVia} (R : OxsReady s via)

include R

theorem oxsRequest_taken (op : Nat) (sigOk : Bool) (image : Option FwSlot) :
    oxsRequest s op via sigOk image = serve 1 (taken s via (requestOf s op via sigOk image)) := by
  obtain ⟨idle, _, _, mailbox, mctp, steady⟩ := R
  cases via with
  | mctp b =>
    rw [oxsRequest, if_pos (mctp nofun), oxsArrive_first idle steady]
    rfl
  | mailbox =>
    obtain ⟨reached, master⟩ := mailbox rfl
    rw [oxsRequest, if_neg (by simp [reached, Oxsis.go, idle])]
    dsimp only
    rw [if_neg (by simp [master]), oxsArrive_first (by exact idle) (by exact steady)]
    rfl

theorem mailbox_awake (i : Instr) (f : State → State) : s.mailbox via i f = f s := by
  cases via with
  | mctp b => rfl
  | mailbox => exact if_neg (by simp [linkAsleep_of_reaches (R.mailbox rfl).1])

/-- A request that ends with its result and response has both in the next state. -/
theorem exec_request {row : Instr} {op : Nat} {sigOk : Bool} {image : Option FwSlot}
    (runs : exec row s = .next (s.mailbox via row fun s => oxsRequest s op via sigOk image)) {u : State} {result : Nat} {response : List Byte}
    (done : runRequest (taken s via (requestOf s op via sigOk image)) (requestOf s op via sigOk image) = .done u result response) :
    exec row s = .next (respond u (requestOf s op via sigOk image) result response) := by
  rw [runs, mailbox_awake R, oxsRequest_taken R, serve_done (by rfl) done]
  rfl

end Row

/-! ### Each kind of request that passes its checks -/

section Kinds

variable {t : State} {q : OxsReq} (serving : t.oxs.recovery = false)

include serving

theorem runRequest_create (op : q.op = 1) : runRequest t q = create t q.bytes := by simp [runRequest, serving, op]
theorem runRequest_destroy (op : q.op = 2) : runRequest t q = destroy t q.bytes := by simp [runRequest, serving, op]
theorem runRequest_attest (op : q.op = 3) : runRequest t q = attest t q.bytes := by simp [runRequest, serving, op]
theorem runRequest_certRead (op : q.op = 4) : runRequest t q = certRead t q.bytes := by simp [runRequest, serving, op]
theorem runRequest_consent (op : q.op = 5) : runRequest t q = consent t q.bytes q.sigOk := by simp [runRequest, serving, op]
theorem runRequest_debugRead (op : q.op = 6) : runRequest t q = debugRead t q.bytes q.mctp := by simp [runRequest, serving, op]
theorem runRequest_profileRead (op : q.op = 7) : runRequest t q = profileRead t q.bytes q.mctp := by simp [runRequest, serving, op]
theorem runRequest_fwStage (op : q.op = 8) : runRequest t q = fwStage t q.bytes q.image q.mctp := by simp [runRequest, serving, op]
theorem runRequest_rmaUnlock (op : q.op = 9) : runRequest t q = rmaUnlock t q.bytes q.sigOk := by simp [runRequest, serving, op]

end Kinds

section Partitions

variable {t : State} {b : List Byte} (parted : t.parted = true)

include parted

/-- CREATE that passes its checks (R397, R398). -/
theorem create_makes (lifecycle : t.oxs.lifecycle = .production) (range : createRange t b = true) (absent : (t.part (field b 0 1)).live = false)
    (free : grantConflict t (grantOf b) = false) (clean : grantScrubbing t (grantOf b) = false) :
    create t b =
      (let p := field b 0 1
       let d1 := t.draw
       let d2 := d1.2.draw
       let g := { grantOf b with salt := Config.freeWide d1.1, partitionId := (Config.freeWide d2.1).toNat % 2 ^ 64, createdS := t.nowS }
       let old := t.part p
       let u := sealSecure d2.2 fun c =>
         { c with table := Map.put c.table p (g, old.epoch), epochs := Map.put c.epochs p old.epoch, mode := t.sched.classMode }
       .done (buildTables (u.setPart p (newPart old g old.epoch)) p) Oxs.ok (leBytes 8 g.partitionId ++ leBytes 4 old.epoch)) := by
  rw [create, if_neg (by simp [lifecycle]), if_neg (by simp [parted]), if_neg (by simp [range]), if_neg (by simp [absent]), if_neg (by simp [free]),
    if_neg (by simp [clean])]
  rfl

/-- DESTROY of a partition whose commands have left (R399). -/
theorem destroy_erases {p : Nat} (hp : field b 0 1 = p) (real : p ≤ 15) (zero : zeroFrom b 1 = true) (live : (t.part p).live = true)
    (left : (disable t p 0 false true).ready = false ∨ ((disable t p 0 false true).part p).slots.any (fun y => y.2.window ≠ []) = false)
    {d : Disable} (busy : ((disable t p 0 false true).func p).disable = some d) :
    destroy t b = finishDestroy (closeDisable p 0 (disable t p 0 false true)) p d.aborted := by
  subst hp
  rw [destroy, if_neg (by simp [parted]), if_neg (by simp [zero]; omega), if_neg (by simp [live])]
  dsimp only
  rw [busy, if_neg]
  rcases left with early | empty
  · simp [early]
  · rw [empty]
    simp

/-- ATTEST within the rate (R404). -/
theorem attest_signs (zero : zeroFrom b 32 = true) (left : sigSpent t.oxs = false) (rate : mayNotSign t = false) :
    attest t b = .done (signedReport t (slice b 0 32)).1 Oxs.ok (signedReport t (slice b 0 32)).2 := by
  rw [attest, if_neg (by simp [parted]), if_neg (by simp [zero]), if_neg (by simp [left]), if_neg (by simp [rate])]

/-- Partition p with the sequence, end and scopes of a consent token, in force until e (R407, R408). -/
def consented (t : State) (b : List Byte) (p e : Nat) : State := t.onPart p fun x =>
  { x with
    consentSeq := field b 0x10 4, consentEnd := e, consentDigest := shake256 (slice b 0 0x7C) 32
    debugUntil := if bit (field b 5 1) 0 then some e else none
    profileUntil := if bit (field b 5 1) 1 then some e else none }

/-- CONSENT with a token that its tenant signed (R407, R408). -/
theorem consent_takes {p e : Nat} (hp : field b 4 1 = p) (he : (if field b 0x14 4 = 0 then 0 else (t.nowS + field b 0x14 4) % 2 ^ 32) = e) (real : p ≤ 15)
    (live : (t.part p).live = true) (named : field b 8 8 = (t.part p).grant.partitionId) (key : ((t.part p).grant.tenantKey.all fun k => k = 0) = false)
    (oid : consentOid b = true) (magic : slice b 0 4 = [0x5A, 0x43, 0x4E, 0x31]) (scope : field b 5 1 ≤ 3) (clear : field b 6 2 = 0)
    (later : (t.part p).consentSeq < field b 0x10 4) (digest : shake256 (slice b 0x38 68) 32 = (t.part p).grant.tenantKey)
    (left : sigSpent t.oxs = false) (rate : mayNotSign t = false) :
    consent t b true =
      .done (signedReport (consented t b p e) (slice b 0x18 32)).1 Oxs.ok (signedReport (consented t b p e) (slice b 0x18 32)).2 := by
  subst hp he
  rw [consent, if_neg (by simp [parted]), if_neg (by simp [live, named]; omega), if_neg (by rw [key]; exact Bool.false_ne_true),
    if_neg (by simp [oid, magic, clear]; omega), if_neg (by simp [digest]), if_neg (by simp [left]), if_neg (by simp [rate])]
  rfl

/-- DEBUG_READ under consent (R409). -/
theorem debugRead_returns (real : field b 0 1 ≤ 15) (kind : field b 1 1 ≤ 2) (clear : field b 2 6 = 0) (clear2 : field b 0x14 4 = 0)
    (zero : zeroFrom b 0x24 = true) (live : (t.part (field b 0 1)).live = true) (allowed : inForce t (t.part (field b 0 1)).debugUntil = true)
    {d : List Byte} (object : debugObject (t.part (field b 0 1)) b = some d) (mctp : Bool) : debugRead t b mctp = returnData t b d mctp := by
  rw [debugRead, if_neg (by simp [parted]), if_neg (by simp [clear, clear2, zero]; omega), if_neg (by simp [live]), if_neg (by simp [allowed])]
  simp only [object]

/-- The accounting record of p with its times in half-cycles and its energy in nJ (R409). -/
def fineRecord (t : State) (p : Nat) : List Byte :=
  let a := (t.part p).acct
  overlay 256 (overlay 256 (acctRecord t p) 0x10 (leBytes 8 a.tileHc ++ leBytes 8 a.snareHc ++ leBytes 8 a.lostHc)) 0x98
    (leBytes 8 ((a.energyMj * 10 ^ 9 + pendingPj a) / 1000))

/-- PROFILE_READ under consent (R409). -/
theorem profileRead_returns {p : Nat} (hp : field b 0 1 = p) (real : p ≤ 15) (clear : field b 1 7 = 0) (zero : zeroFrom b 0x24 = true)
    (live : (t.part p).live = true) (allowed : inForce t (t.part p).profileUntil = true) (mctp : Bool) :
    profileRead t b mctp =
      returnData (fineStalls (t.part p) (List.range 8) t).2 b (fineRecord t p ++ (fineStalls (t.part p) (List.range 8) t).1) mctp := by
  subst hp
  rw [profileRead, if_neg (by simp [parted]), if_neg (by simp [clear, zero]; omega), if_neg (by simp [live]), if_neg (by simp [allowed])]
  rfl

end Partitions

section Firmware

variable {t : State} {b : List Byte}

theorem certRead_answers (zero : zeroFrom b 0 = true) : certRead t b = .done t Oxs.ok (certificate t) := if_neg (by simp [zero])

/-- FW_STAGE writes the slot that is not booted (R387, R388). -/
theorem fwStage_stages {f g : FwSlot} (booted : t.oxs.booted = some g) (valid : slotValid f t.oxs.svn = true) (size : field b 8 4 ≤ 2 ^ 25)
    (flags : field b 0xC 4 = 0) (mctp : Bool) :
    fwStage t b (some f) mctp = .done (t.onOxs fun o =>
      if o.bootedB then { o with norA := some { f with seq := (g.seq + 1) % 2 ^ 32 } }
      else { o with norB := some { f with seq := (g.seq + 1) % 2 ^ 32 } }) Oxs.ok [] := by
  obtain ⟨genuine, fresh⟩ : slotGenuine f = true ∧ slotFresh f t.oxs.svn = true := by simpa [slotValid] using valid
  have signed : (f.magicOk && decide (f.images.length = 4) && f.keyOk && f.sigOk) = true := by
    rw [slotGenuine, Bool.and_eq_true] at genuine
    exact genuine.1
  have slot : (t.onOxs fun o => if o.booted.isSome && !o.bootedB then { o with norB := some { f with seq := (g.seq + 1) % 2 ^ 32 } }
      else { o with norA := some { f with seq := (g.seq + 1) % 2 ^ 32 } }) = t.onOxs fun o =>
        if o.bootedB then { o with norA := some { f with seq := (g.seq + 1) % 2 ^ 32 } } else { o with norB := some { f with seq := (g.seq + 1) % 2 ^ 32 } } := by
    simp only [State.onOxs, booted]
    cases t.oxs.bootedB <;> rfl
  rw [fwStage, if_neg (by simp [flags]; omega), if_neg (by simp [flags, bit])]
  dsimp only
  rw [if_neg (by simp [signed]), if_neg (by simp [fresh]), if_neg (by simp [genuine]), booted]
  exact congrArg (Reply.done · Oxs.ok []) slot

/-- An SVN commit raises each fused version to that of the booted image (R385). -/
theorem fwStage_commits {g : FwSlot} (booted : t.oxs.booted = some g) (size : field b 8 4 ≤ 2 ^ 25) (flags : field b 0xC 4 = 1) (image : Option FwSlot)
    (mctp : Bool) : fwStage t b image mctp = .done (t.onOxs fun o =>
      { o with svn := t.oxs.svn.zipIdx.map fun e => Nat.max e.1 (Nat.min 64 ((g.images.map FwImage.svn).getD e.2 0)) }) Oxs.ok [] := by
  unfold fwStage
  rw [if_neg (by simp [flags]; omega), if_pos (by simp [flags, bit]), booted]

/-- RMA_UNLOCK on a part without partitions or scrubs, with the vendor's signature (R410). -/
theorem rmaUnlock_unlocks (none_live : t.livePartitions = []) (sets : t.flash.secure.scrubSets = []) (flash : t.flash.secure.scrubFlash = [])
    (magic : slice b 0 4 = [0x5A, 0x52, 0x4D, 0x31]) (chip : field b 4 16 = Config.chipId.toNat) :
    rmaUnlock t b true = .done (t.onOxs fun o => { o with lifecycle := .rma }) Oxs.ok [] := by
  rw [rmaUnlock, if_neg (by simp [none_live, sets, flash]), if_neg (by simp [magic, chip])]

end Firmware

/-- What a read returns over each way (R384, R409). -/
theorem returnData_mctp (t : State) (b d : List Byte) (mctp : Bool) : returnData t b d mctp =
    if mctp then .done t Oxs.ok ((d.take (field b 0x20 4)).take 16384) else .done (t.land 16 (field b 0x18 8) (d.take (field b 0x20 4))) Oxs.ok [] := rfl

section Reads

variable {s : State} {via : OxsVia} (R : OxsReady s via) {row : Instr} {op : Nat}
  (runs : exec row s = .next (s.mailbox via row fun s => oxsRequest s op via false none))

include R runs

/-- A read ends with its bytes in host memory, or in the response of a message. -/
theorem exec_read {u : State} {d : List Byte}
    (returns : let q := requestOf s op via false none
      runRequest (taken s via q) q = returnData u q.bytes d q.mctp) :
    exec row s = .next (
      let q := requestOf s op via false none
      let d := d.take (field q.bytes 0x20 4)
      if via = .mailbox then respond (u.land 16 (field q.bytes 0x18 8) d) q Oxs.ok [] else respond u q Oxs.ok (d.take 16384)) := by
  by_cases way : via = .mailbox
  · rw [if_pos way]
    exact exec_request R runs (returns.trans (by simp [returnData_mctp, way]))
  · rw [if_neg way]
    exact exec_request R runs (returns.trans (by simp [returnData_mctp, way]))

end Reads

/-- Settles O46: each request by the lemma of its kind, on the state in which Oxsis has taken it. -/
theorem oxsisRequests : Obligations.OxsisRequests := by
  intro s via R
  have serving : ∀ q, (taken s via q).oxs.recovery = false := fun _ => R.serving
  have parted : ∀ q, (taken s via q).parted = true := fun _ => R.parted
  refine ⟨fun lifecycle range absent free clean => ?create, fun real zero live left d busy => ?destroy, fun zero left rate => ?attest, fun zero => ?cert,
    fun real live named key oid magic scope clear later digest left rate => ?consent,
    fun real kind clear clear2 zero live allowed d object => ?debug, fun real clear zero live allowed => ?profile,
    fun f g booted valid size flags => ?stage, fun g booted size flags => ?commit, fun none_live sets flash magic chip => ?rma⟩
  case create =>
    exact exec_request R rfl ((runRequest_create (serving _) (op_requestOf ..)).trans (create_makes (parted _) lifecycle range absent free clean))
  case destroy =>
    exact exec_request R rfl ((runRequest_destroy (serving _) (op_requestOf ..)).trans (destroy_erases (parted _) rfl real zero live left busy))
  case attest =>
    exact exec_request R rfl ((runRequest_attest (serving _) (op_requestOf ..)).trans (attest_signs (parted _) zero left rate))
  case cert =>
    exact exec_request R rfl ((runRequest_certRead (serving _) (op_requestOf ..)).trans (certRead_answers zero))
  case consent =>
    refine exec_request R rfl ((runRequest_consent (serving _) (op_requestOf ..)).trans ?_)
    rw [sigOk_requestOf]
    exact consent_takes (parted _) rfl rfl real live named key oid magic scope clear later digest left rate
  case debug =>
    exact exec_read R rfl ((runRequest_debugRead (serving _) (op_requestOf ..)).trans
      (debugRead_returns (parted _) real kind clear clear2 zero live allowed object _))
  case profile =>
    exact exec_read R rfl ((runRequest_profileRead (serving _) (op_requestOf ..)).trans
      (profileRead_returns (parted _) rfl real clear zero live allowed _))
  case stage =>
    refine exec_request R rfl ((runRequest_fwStage (serving _) (op_requestOf ..)).trans ?_)
    rw [image_requestOf]
    exact fwStage_stages (t := taken s via _) booted valid size flags _
  case commit =>
    exact exec_request R rfl ((runRequest_fwStage (serving _) (op_requestOf ..)).trans (fwStage_commits (t := taken s via _) booted size flags _ _))
  case rma =>
    refine exec_request R rfl ((runRequest_rmaUnlock (serving _) (op_requestOf ..)).trans ?_)
    rw [sigOk_requestOf]
    exact rmaUnlock_unlocks none_live sets flash magic chip

end Sys2Proof.Machine
end

section
/-! SUPPORT. What the programming of device frames in the areas of channels 0 and 16 leaves alone (R300, R302): the state beside flash, the
sealed records, and the blocks of every other channel as long as none of them is open. -/

namespace Sys2Proof

/-- The least element of a list is one of its elements. -/
theorem mem_of_leastBy {α : Type} {key : α → Nat} {l : List α} {a : α} (h : leastBy key l = some a) : a ∈ l := by
  induction l generalizing a with
  | nil => cases h
  | cons b r ih =>
    unfold leastBy at h
    split at h
    · cases h
      exact List.mem_cons_self
    next c least =>
      split at h <;> cases h
      · exact List.mem_cons_of_mem _ (ih least)
      · exact List.mem_cons_self

end Sys2Proof

namespace Sys2Proof.Machine

open Sys2Proof

/-- Every block of channel i is free or retired. -/
def Quiet (s : State) (i : Nat) : Prop := ∀ e ∈ s.flash.blocks, blockChannel e.1 = i → e.2.state = .free ∨ e.2.state = .retired

/-- An open block is none of a quiet channel's. -/
theorem Quiet.channel_ne {s : State} {i b : Nat} (quiet : Quiet s i) (opened : (s.block b).state = .opened) : blockChannel b ≠ i := by
  intro here
  unfold State.block Map.get at opened
  cases found : Map.look s.flash.blocks b with
  | none =>
    rw [found] at opened
    cases opened
  | some k =>
    rw [found] at opened
    have closed := quiet (b, k) (Map.mem_of_look found) here
    simp_all

/-- t is s after device frames have been programmed. -/
structure Programs (s t : State) : Prop where
  rest : t = { s with draws := t.draws, flash := t.flash }
  secure : t.flash.secure = { s.flash.secure with areas := t.flash.secure.areas, openRecord := t.flash.secure.openRecord }
  quiet : ∀ i, i ≠ 0 → i ≠ 16 → Quiet s i → Quiet t i

namespace Programs

variable {s t u : State}

theorem refl (s : State) : Programs s s := ⟨rfl, rfl, fun _ _ _ h => h⟩

theorem trans (h : Programs s t) (k : Programs t u) : Programs s u where
  rest := by rw [k.rest, h.rest]
  secure := by rw [k.secure, h.secure]
  quiet i low high q := k.quiet i low high (h.quiet i low high q)

theorem foldl {β : Type} {g : State → β → State} (l : List β) (hg : ∀ s, ∀ b ∈ l, Programs s (g s b)) (s : State) : Programs s (l.foldl g s) := by
  induction l generalizing s with
  | nil => exact refl s
  | cons b r ih => exact (hg s b (by simp)).trans (ih (fun s c hc => hg s c (by simp [hc])) _)

theorem oxs (h : Programs s t) : t.oxs = s.oxs := by rw [h.rest]
theorem pins (h : Programs s t) : t.pins = s.pins := by rw [h.rest]
theorem scrubFlash (h : Programs s t) : t.flash.secure.scrubFlash = s.flash.secure.scrubFlash := by rw [h.secure]
theorem epochs (h : Programs s t) : t.flash.secure.epochs = s.flash.secure.epochs := by rw [h.secure]
theorem table (h : Programs s t) : t.flash.secure.table = s.flash.secure.table := by rw [h.secure]

end Programs

/-- A frame goes into a block that no quiet channel has. -/
theorem putDevice_programs (s : State) (kind : Nat) {b : Nat} (isSeal : Bool) (data : List Byte)
    (elsewhere : ∀ i, i ≠ 0 → i ≠ 16 → Quiet s i → blockChannel b ≠ i) : Programs s (putDevice s kind b isSeal data) where
  rest := rfl
  secure := rfl
  quiet i low high q e he here := by
    rcases Map.mem_edit he with old | ⟨k, _, rfl⟩
    · exact q e old here
    · exact absurd here (elsewhere i low high q)

theorem onSecure_areas_programs (s : State) (l : Map (List Nat)) : Programs s (s.onSecure fun k => { k with areas := l }) :=
  ⟨rfl, rfl, fun _ _ _ h => h⟩

theorem areaFrame_programs {s t : State} {a : Area} {c : Nat} {isSeal : Bool} {data : List Byte} (device : c = 0 ∨ c = 16)
    (h : areaFrame s a c isSeal data = some t) : Programs s t := by
  simp only [areaFrame] at h
  split at h
  next b cur =>
    obtain rfl := Option.some.inj h
    have opened : (s.block b).state = .opened := by
      have := Option.filter_eq_some_iff.1 cur
      simp_all
    exact putDevice_programs s _ _ _ fun i _ _ q => q.channel_ne opened
  next =>
    split at h
    · cases h
    next e least =>
      obtain rfl := Option.some.inj h
      have here : blockChannel e.1 = c := by
        have good := (List.mem_filter.1 (List.mem_filter.1 (mem_of_leastBy least)).1).2
        simp only [Bool.and_eq_true, decide_eq_true_eq] at good
        exact good.1
      refine (onSecure_areas_programs s _).trans (putDevice_programs _ _ _ _ fun i low high _ => ?_)
      omega

theorem mem_metaChannels {s : State} {c : Nat} (h : c ∈ metaChannels s) : c = 0 ∨ c = 16 := by
  have := (List.mem_filter.1 h).1
  simpa using this

theorem mirrorFrame_programs (s : State) (a : Area) (data : List Byte) : Programs s (mirrorFrame s a data) :=
  Programs.foldl _ (fun t c hc => by
    cases framed : areaFrame t a c true data with
    | none => exact .refl t
    | some u => exact areaFrame_programs (mem_metaChannels hc) framed) s

theorem openRecord_programs (s : State) : Programs s (openRecord s) := by
  unfold openRecord
  split
  next n _ _ =>
    have record : Programs s (s.onSecure fun c => { c with openRecord := some n }) := ⟨rfl, rfl, fun _ _ _ h => h⟩
    have dirty : ∀ t : State, Programs t (t.onFlash fun f => { f with dirty := true }) := fun _ => ⟨rfl, rfl, fun _ _ _ h => h⟩
    exact (record.trans (mirrorFrame_programs _ _ _)).trans (dirty _)
  next => exact .refl s

/-- A seal programs its record, and before it perhaps an open record. -/
theorem sealSecure_programs (s : State) (g : Secure → Secure) : Programs ((openRecord s).onSecure g) (sealSecure s g) := mirrorFrame_programs _ _ _

theorem sealSecure_rest (s : State) (g : Secure → Secure) :
    sealSecure s g = { s with draws := (sealSecure s g).draws, flash := (sealSecure s g).flash } := by
  have first := (openRecord_programs s).rest
  have second := (sealSecure_programs s g).rest
  rw [second, State.onSecure, State.onFlash, first]

theorem sealSecure_quiet {s : State} {i : Nat} (g : Secure → Secure) (low : i ≠ 0) (high : i ≠ 16) (quiet : Quiet s i) : Quiet (sealSecure s g) i :=
  (sealSecure_programs s g).quiet i low high ((openRecord_programs s).quiet i low high quiet)

end Sys2Proof.Machine
end

section
/-! THEOREM. What happens at Oxsis beside a request of the host: signature indices, the rate of signing, the end of consent, scrubs and messages
(R382, R390, R391, R399, R401, R408). -/

namespace Sys2Proof.Machine

open Sys2Proof

/-! ### Signature indices (R390) -/

theorem oxs_sealSecure (s : State) (g : Secure → Secure) : (sealSecure s g).oxs = s.oxs := by rw [sealSecure_rest]

/-- The bound of an index that is sealed rises; the range and the index itself stay. -/
theorem oxs_sealIndex (o : Oxsis) (s : State) : ∃ bound, (sealIndex o s).oxs = { o with sigBound := bound } := by
  unfold sealIndex
  split
  · exact ⟨o.sigBound, rfl⟩
  · exact ⟨_, oxs_sealSecure _ _⟩

theorem takeIndex_idRanges (s : State) : (takeIndex s).2.oxs.idRanges = (nextRange s.oxs).idRanges := by
  obtain ⟨bound, sealed⟩ := oxs_sealIndex (nextRange s.oxs) s
  exact (congrArg Oxsis.idRanges sealed :)

theorem takeIndex_sigOffset (s : State) : (takeIndex s).2.oxs.sigOffset = (nextRange s.oxs).sigOffset + 1 := by
  obtain ⟨bound, sealed⟩ := oxs_sealIndex (nextRange s.oxs) s
  exact (congrArg (fun o => o.sigOffset + 1) sealed :)

/-- An index comes from the range in use, or is the first of the next one. -/
theorem nextRange_cases (o : Oxsis) : (o.sigOffset < rangeSize ∧ (nextRange o).idRanges = o.idRanges ∧ (nextRange o).sigOffset = o.sigOffset) ∨
    (rangeSize ≤ o.sigOffset ∧ (nextRange o).idRanges = o.idRanges + 1 ∧ (nextRange o).sigOffset = 0) := by
  unfold nextRange
  split
  · exact .inl ⟨‹_›, rfl, rfl⟩
  · exact .inr ⟨by omega, rfl, rfl⟩

theorem takeIndex_rises {s : State} (ranges : 1 ≤ s.oxs.idRanges) (offset : s.oxs.sigOffset ≤ rangeSize) :
    (takeIndex s).1 < (takeIndex (takeIndex s).2).1 ∧ 1 ≤ (takeIndex s).2.oxs.idRanges ∧ (takeIndex s).2.oxs.sigOffset ≤ rangeSize ∧
      s.oxs.idRanges ≤ (takeIndex s).2.oxs.idRanges := by
  have range := takeIndex_idRanges s
  have index := takeIndex_sigOffset s
  have first : (takeIndex s).1 = rangeSize * ((nextRange s.oxs).idRanges - 1) + (nextRange s.oxs).sigOffset := rfl
  have second : (takeIndex (takeIndex s).2).1 =
    rangeSize * ((nextRange (takeIndex s).2.oxs).idRanges - 1) + (nextRange (takeIndex s).2.oxs).sigOffset := rfl
  have size : rangeSize = 268435456 := rfl
  rcases nextRange_cases s.oxs with ⟨_, sameRange, sameIndex⟩ | ⟨_, newRange, newIndex⟩ <;>
    rcases nextRange_cases (takeIndex s).2.oxs with ⟨_, sameRange', sameIndex'⟩ | ⟨_, newRange', newIndex'⟩ <;>
    simp only [size] at * <;> omega

/-! ### The rate of signing, and the end of consent (R391, R408) -/

theorem signatureRelease_signs {s : State} {q : OxsReq} (queue : s.oxs.queue = [q]) (op : q.op = 3) (parted : s.parted = true)
    (serving : s.oxs.recovery = false) (zero : zeroFrom q.bytes 32 = true) (left : sigSpent s.oxs = false) (rate : mayNotSign s = false) :
    signatureRelease s = respond (signedReport s (slice q.bytes 0 32)).1 q Oxs.ok (signedReport s (slice q.bytes 0 32)).2 := by
  have run := (runRequest_attest serving op).trans (attest_signs parted zero left rate)
  unfold signatureRelease
  rw [queue]
  dsimp only
  rw [if_pos (by simp [op, rate])]
  exact serve_done queue run 0

theorem signatureRelease_waits {s : State} {q : OxsReq} (queue : s.oxs.queue = [q]) (rate : mayNotSign s = true) : signatureRelease s = s := by
  unfold signatureRelease
  rw [queue]
  exact if_neg (by simp [rate])

theorem consentExpiry_ends {s : State} {p : Nat} (live : (s.part p).live = true) (ends : (s.part p).consentEnd ≠ 0) (due : (s.part p).consentEnd ≤ s.nowS) :
    consentExpiry p s = s.onPart p fun x => { x with debugUntil := none, profileUntil := none } := if_pos (by simp [live, ends, due])

theorem consentExpiry_early {s : State} {p : Nat} (early : s.nowS < (s.part p).consentEnd) : consentExpiry p s = s := by
  unfold consentExpiry
  exact if_neg (by simp [early])

/-! ### Scrubs (R399, R401) -/

theorem scrubDone_paused {s : State} {i : Nat} (slow : s.power.cap < Nat.min s.power.freqReq 24) : scrubDone false i s = s := by
  rw [scrubDone, if_neg Bool.false_ne_true, if_pos (by simp [slow])]

theorem scrubDone_set {s : State} {i : Nat} (listed : i ∈ s.flash.secure.scrubSets) (fast : Nat.min s.power.freqReq 24 ≤ s.power.cap) :
    scrubDone false i s = sealSecure s fun c => { c with scrubSets := c.scrubSets.filter fun n => n ≠ i } := by
  rw [scrubDone, if_neg Bool.false_ne_true, if_neg]
  rw [Bool.or_eq_true, not_or, decide_eq_true_eq, Nat.not_lt]
  exact ⟨by simp [listed], fast⟩

/-- The flash channel i erased but for its retired blocks. -/
def channelErased (s : State) (i : Nat) : State :=
  s.onFlash fun f =>
    { f with
      blocks := f.blocks.map fun e =>
        if blockChannel e.1 = i && e.2.state ≠ .free && e.2.state ≠ .retired then (e.1, { Block.reset with eraseCnt := e.2.eraseCnt + 1 }) else e
      frames := f.frames.filter fun e => (placeOf e.1).channel ≠ i || (Map.get f.blocks (e.1 / 4096) Block.reset).state = .retired
      channels := Map.edit f.channels i fun c => { c with openData := [], openCopy := [], admitted := 0 } }

theorem scrubDone_channel {s : State} {i : Nat} (listed : i ∈ s.flash.secure.scrubFlash) :
    scrubDone true i s = sealSecure (channelErased s i) fun c => { c with scrubFlash := c.scrubFlash.filter fun n => n ≠ i } := by
  rw [scrubDone, if_pos rfl, if_neg (by simp [listed])]
  rfl

theorem quiet_channelErased (s : State) (i : Nat) : Quiet (channelErased s i) i := by
  intro e he here
  obtain ⟨old, _, rfl⟩ := List.mem_map.1 he
  dsimp only at here ⊢
  by_cases used : (blockChannel old.1 = i && old.2.state ≠ .free && old.2.state ≠ .retired) = true
  · rw [if_pos used]
    exact .inl rfl
  · rw [if_neg used] at here ⊢
    by_cases free : old.2.state = .free
    · exact .inl free
    · exact .inr (by simpa [here, free] using used)

/-- A scrubbed channel is listed no more, and every other one stays listed. -/
theorem mem_scrubFlash_scrubDone {s : State} {i : Nat} (listed : i ∈ s.flash.secure.scrubFlash) (n : Nat) :
    n ∈ (scrubDone true i s).flash.secure.scrubFlash ↔ n ∈ s.flash.secure.scrubFlash ∧ n ≠ i := by
  have list : (scrubDone true i s).flash.secure.scrubFlash = s.flash.secure.scrubFlash.filter fun n => n ≠ i := by
    rw [scrubDone_channel listed, (sealSecure_programs _ _).scrubFlash]
    exact congrArg (List.filter _) (openRecord_programs (channelErased s i)).scrubFlash
  simp [list]

/-! ### Messages (R382, R389) -/

theorem mctpMessage_certRead {s : State} {b : List Byte} (up : s.mctpUp = true) :
    mctpMessage (4 :: b) s = oxsRequest s 4 (.mctp b) ((Config.freeWord s.draw.1).getLsbD 0) none := if_neg (by simp [up])

theorem oxsRequest_held {s : State} (up : s.mctpUp = true) (held : s.holds 10 = true) (op : Nat) (b : List Byte) (sigOk : Bool) (image : Option FwSlot) :
    oxsRequest s op (.mctp b) sigOk image = s.onOxs fun o => { o with queue := o.queue ++ [⟨op, b, true, sigOk, image⟩] } := by
  have still : (s.onOxs fun o => { o with queue := o.queue ++ [⟨op, b, true, sigOk, image⟩] }).holds 10 = true := held
  rw [oxsRequest, if_pos up]
  exact if_neg (by simp [still])

/-- Settles O47: indices, the rate, consent and scrubs by their own lemmas, a message as the request that it brings. -/
theorem oxsisEvents : Obligations.OxsisEvents := by
  refine ⟨fun s ranges offset => takeIndex_rises ranges offset,
    fun s q queue op parted serving zero left => ⟨fun rate => ?signs, fun rate => congrArg Host.Outcome.next (signatureRelease_waits queue rate)⟩,
    fun s p live ends => ⟨fun due => congrArg Host.Outcome.next (consentExpiry_ends live ends due),
      fun early => congrArg Host.Outcome.next (consentExpiry_early early)⟩,
    fun s i => ⟨fun _ slow => congrArg Host.Outcome.next (scrubDone_paused slow), fun listed fast => congrArg Host.Outcome.next (scrubDone_set listed fast),
      fun listed => ?channel⟩,
    fun s b R zero => ?message, fun s b up held => congrArg Host.Outcome.next (oxsRequest_held up held 4 b false none)⟩
  case signs => exact congrArg Host.Outcome.next (signatureRelease_signs queue op parted serving zero left rate)
  case channel =>
    have beside := sealSecure_rest (channelErased s i) fun c => { c with scrubFlash := c.scrubFlash.filter fun n => n ≠ i }
    rw [← scrubDone_channel listed] at beside
    refine ⟨_, rfl, ?_, fun n other => ?_, fun low high e he here => ?_, by rw [beside]; rfl, by rw [beside]; rfl, by rw [beside]; rfl⟩
    · simp [mem_scrubFlash_scrubDone listed]
    · simp [mem_scrubFlash_scrubDone listed, other]
    · rw [scrubDone_channel listed] at he
      exact (sealSecure_quiet _ low high (quiet_channelErased s i) e he here).imp_right .inl
  case message =>
    intro q
    have run := (runRequest_certRead (t := taken s (.mctp b) q) (q := q) R.serving rfl).trans (certRead_answers (t := taken s (.mctp b) q) zero)
    have served := (oxsRequest_taken R 4 ((Config.freeWord s.draw.1).getLsbD 0) none).trans (serve_done rfl run 0)
    exact congrArg Host.Outcome.next ((mctpMessage_certRead (R.mctp nofun)).trans served)

end Sys2Proof.Machine
end

section
/-! THEOREM. Operating points and voltages (R432, R433), the governor (R434 to R436), thermal emergencies and energy windows (R266, R269, R439). -/

namespace Sys2Proof.Machine

open Sys2Proof

/-! ### Operating points (R432, R433) -/

theorem supported_le (mv k : Nat) : supported mv k ≤ k := by
  induction k with
  | zero => exact Nat.le_refl 0
  | succ k ih =>
    unfold supported
    split
    · exact Nat.le_refl _
    · exact Nat.le_succ_of_le ih

/-- A point other than 0 that is answered is one that the voltage supports. -/
theorem pointMv_supported (mv k : Nat) (some : supported mv k ≠ 0) : pointMv (supported mv k) ≤ mv := by
  induction k with
  | zero => exact absurd rfl some
  | succ k ih =>
    unfold supported at some ⊢
    split at some
    · next enough => rwa [if_pos enough]
    · next short => exact (congrArg pointMv (if_neg short)).trans_le (ih some)

/-- No higher point is supported. -/
theorem supported_highest {mv k j : Nat} (above : supported mv k < j) (upTo : j ≤ k) : mv < pointMv j := by
  induction k with
  | zero => exact absurd above (by omega)
  | succ k ih =>
    unfold supported at above
    split at above
    · omega
    · next short =>
      rcases Nat.lt_or_eq_of_le upTo with lower | rfl
      · exact ih above (by omega)
      · exact Nat.not_le.1 short

/-- The voltage of a point is the table's line to the next 5 mV, and 900 mV from point 12 on. -/
theorem pointMv_line (k : Nat) : (12 ≤ k → pointMv k = 900) ∧ pointMv k % 5 = 0 ∧ 700 ≤ pointMv k ∧
    (k < 12 → 1000 * pointMv k < 700000 + 16650 * k + 5000 ∧ 700000 + 16650 * k ≤ 1000 * pointMv k) := by
  unfold pointMv
  split <;> omega

theorem dvfsChange_falls {s : State} {q : Nat} (on : s.power.chip = .on) (quad : q < 4) (runs : quadState s q = .run) (good : s.power.regBad.contains q = false)
    (down : pointGoal s.power < quadPoint s q) : dvfsChange q s = s.onPower fun w =>
      { w with points := Map.put w.points q (pointGoal s.power), target := Map.del w.target q, millivolts := Map.put w.millivolts q (pointMv (pointGoal s.power)) } := by
  rw [dvfsChange, if_neg (by simpa [on, quad, runs] using good)]
  exact if_pos down

theorem dvfsChange_rises {s : State} {q : Nat} (on : s.power.chip = .on) (quad : q < 4) (runs : quadState s q = .run) (good : s.power.regBad.contains q = false)
    (up : quadPoint s q < pointGoal s.power) : dvfsChange q s = s.onPower fun w => { w with target := Map.put w.target q (pointGoal s.power) } := by
  rw [dvfsChange, if_neg (by simpa [on, quad, runs] using good)]
  exact (if_neg (Nat.lt_asymm up)).trans (if_pos up)

theorem voltageDone_enough {s : State} {q k mv : Nat} (on : s.power.chip = .on) (raise : Map.look s.power.target q = some k) (enough : pointMv k ≤ mv) :
    voltageDone q mv s = s.onPower fun w => { w with points := Map.put w.points q k, target := Map.del w.target q, millivolts := Map.put w.millivolts q mv } := by
  rw [voltageDone, raise]
  exact if_neg (by simp [on, enough])

theorem voltageDone_short {s : State} {q k mv : Nat} (raise : Map.look s.power.target q = some k) (short : mv < pointMv k) : voltageDone q mv s = s := by
  rw [voltageDone, raise]
  exact if_pos (by simp [short])

theorem voltageDrop_lowers {s : State} {q mv : Nat} (on : s.power.chip = .on) (quad : q < 4) (awake : quadState s q ≠ .sleep) (short : mv < pointMv (quadPoint s q)) :
    voltageDrop q mv s = s.onPower fun w =>
      { w with points := Map.put w.points q (supported mv (quadPoint s q)), millivolts := Map.put w.millivolts q mv } :=
  if_neg (by simp [on, quad, awake, short])

theorem regulatorFault_records {s : State} {q : Nat} (on : s.power.chip = .on) (quad : q < 4) : regulatorFault q s =
    logError (s.onPower fun w => { w with regBad := if w.regBad.contains q then w.regBad else w.regBad ++ [q], target := Map.del w.target q })
      { ErrRecord.blank with source := Src.regulator, severity := 1, loc0 := q } :=
  if_neg (by simp [on, quad])

/-! ### The governor (R434 to R436) -/

theorem cap_noteCap (w : Power) : (noteCap w).cap = w.cap := by
  unfold noteCap
  split
  · split <;> rfl
  · rfl

theorem governorTick_within {s : State} {dw tiles : Nat} (on : s.power.chip = .on) (cool : s.power.emerg = false) (within : corrected s.power dw ≤ limitDw s.power) :
    governorTick dw tiles s = (s.onPower fun w => { w with package := corrected s.power dw, tiles := tiles }).onPower noteCap := by
  have within : corrected s.power dw ≤ limitDw (s.onPower fun w => { w with package := corrected s.power dw, tiles := tiles }).power := within
  rw [governorTick, if_neg (by simp [on])]
  dsimp only
  rw [if_pos within, if_pos (by simp [cool])]

theorem governorTick_above {s : State} {dw tiles : Nat} (on : s.power.chip = .on) (cool : s.power.emerg = false) (above : limitDw s.power < corrected s.power dw) :
    governorTick dw tiles s = ((s.onPower fun w => { w with package := corrected s.power dw, tiles := tiles }).onPower fun w =>
      { w with cap := capFor (limitDw s.power) (corrected s.power dw - tiles) tiles w.cap w.cap }).onPower noteCap := by
  have above : ¬ corrected s.power dw ≤ limitDw (s.onPower fun w => { w with package := corrected s.power dw, tiles := tiles }).power := Nat.not_le.2 above
  rw [governorTick, if_neg (by simp [on])]
  dsimp only
  rw [if_neg above, if_pos (by simp [cool])]
  rfl

theorem governorCorrection_on {s : State} (on : s.power.chip = .on) (dw tiles : Nat) : governorCorrection dw tiles s = s.onPower fun w =>
    { w with biasDw := w.biasDw + (Int.ofNat dw - Int.ofNat w.package), package := dw, tiles := tiles } :=
  if_neg (by simp [on])

theorem capRaise_headroom {s : State} (on : s.power.chip = .on) (cool : s.power.emerg = false) (room : s.power.package + 200 ≤ limitDw s.power) :
    capRaise s = if s.power.duty ≠ 0 then s.onPower fun w => { w with duty := w.duty - 25 }
      else s.onPower fun w => noteCap { w with cap := Nat.min 24 (w.cap + 1) } :=
  if_neg (by simp [on, cool, room])

theorem capRaise_none {s : State} (none : s.power.emerg = true ∨ limitDw s.power < s.power.package + 200) : capRaise s = s :=
  if_pos (by rcases none with hot | tight <;> simp [*])

/-! ### Thermal emergencies (R435, R436) -/

theorem emergencyStart_atZero {s : State} {temp : Nat} (on : s.power.chip = .on) (hot : emergAt s.power ≤ temp) (first : s.power.emerg = false) (zero : s.power.cap = 0) :
    emergencyStart temp s = (s.onPower fun w => { w with emerg := true, temp := temp }).onPower noteCap := by
  have zero : (s.onPower fun w => { w with emerg := true, temp := temp }).power.cap = 0 := zero
  rw [emergencyStart, if_neg (by simp [on, hot, first])]
  dsimp only
  rw [if_pos zero]

/-- An emergency above ceiling 0 lowers it. -/
theorem emergencyStart_lowers {s : State} {temp : Nat} (on : s.power.chip = .on) (hot : emergAt s.power ≤ temp) (first : s.power.emerg = false) (high : s.power.cap ≠ 0) :
    (emergencyStart temp s).power.emerg = true ∧ (emergencyStart temp s).power.cap < s.power.cap := by
  have still : (s.onPower fun w => { w with emerg := true, temp := temp }).power.cap ≠ 0 := high
  rw [emergencyStart, if_neg (by simp [on, hot, first])]
  dsimp only
  rw [if_neg still]
  exact ⟨emerg_noteCap _, (cap_noteCap _).trans_lt (Nat.mod_lt _ (Nat.pos_of_ne_zero high))⟩

theorem emergencyStart_cool {s : State} {temp : Nat} (cool : temp < emergAt s.power) : emergencyStart temp s = s := if_pos (by simp [cool])

theorem emergencyEnd_cool {s : State} {temp : Nat} (on : s.power.chip = .on) (hot : s.power.emerg = true) (cool : temp + 5 ≤ emergAt s.power) :
    emergencyEnd temp s = s.onPower fun w => { w with emerg := false, temp := temp } :=
  if_neg (by simp [on, hot, cool])

theorem emergencyEnd_hot {s : State} {temp : Nat} (hot : emergAt s.power < temp + 5) : emergencyEnd temp s = s := if_pos (by simp [hot])

theorem dutyStep_atZero {s : State} (on : s.power.chip = .on) (hot : s.power.emerg = true) (zero : s.power.cap = 0) :
    dutyStep s = s.onPower fun w => { w with duty := Nat.min 75 (w.duty + 25) } :=
  if_pos (by simp [on, hot, zero])

/-! ### Windows (R266, R269) -/

theorem windowEnd_on {s : State} (on : s.power.chip = .on) :
    windowEnd s = (s.livePartitions.foldl (fun s p => s.onPart p closeWindow) s).onPower fun w => noteCap { w with
      capPwr := if w.belowPwr then w.capPwr + 1 else w.capPwr, capTherm := if w.belowTherm then w.capTherm + 1 else w.capTherm
      belowPwr := false, belowTherm := false } :=
  if_neg (by simp [on])

/-- The millijoules and the picojoules left over hold the window's energy, none lost. -/
theorem energy_closeWindow (x : Part) :
    (closeWindow x).acct.energyMj * 10 ^ 9 + (closeWindow x).acct.energyPj = x.acct.energyMj * 10 ^ 9 + pendingPj x.acct := by
  have whole := Nat.div_add_mod (pendingPj x.acct) (10 ^ 9)
  calc (x.acct.energyMj + pendingPj x.acct / 10 ^ 9) * 10 ^ 9 + pendingPj x.acct % 10 ^ 9
      = x.acct.energyMj * 10 ^ 9 + (10 ^ 9 * (pendingPj x.acct / 10 ^ 9) + pendingPj x.acct % 10 ^ 9) := by ring
    _ = x.acct.energyMj * 10 ^ 9 + pendingPj x.acct := by rw [whole]

/-- Settles O58: each row by the lemma of its case. -/
theorem operatingPoints : Obligations.OperatingPoints := by
  refine ⟨fun s q on quad => ⟨fun runs good => ⟨fun down => ?falls, fun up => ?rises⟩,
      fun k mv raise => ⟨fun enough => congrArg Host.Outcome.next (voltageDone_enough on raise enough),
        fun short => congrArg Host.Outcome.next (voltageDone_short raise short)⟩,
      fun mv awake short => congrArg Host.Outcome.next (voltageDrop_lowers on quad awake short), congrArg Host.Outcome.next (regulatorFault_records on quad)⟩,
    fun mv k => ⟨supported_le mv k, pointMv_supported mv k, fun j => supported_highest⟩, fun k _ => pointMv_line k,
    fun s dw tiles on => ⟨fun cool within => congrArg Host.Outcome.next (governorTick_within on cool within),
      fun cool above => congrArg Host.Outcome.next (governorTick_above on cool above), congrArg Host.Outcome.next (governorCorrection_on on dw tiles),
      fun cool room => ⟨fun duty => congrArg Host.Outcome.next ((capRaise_headroom on cool room).trans (if_pos duty)),
        fun none => congrArg Host.Outcome.next ((capRaise_headroom on cool room).trans (if_neg (not_not.2 none)))⟩,
      fun none => congrArg Host.Outcome.next (capRaise_none none)⟩,
    fun s temp on => ⟨fun hot first => ⟨fun zero => congrArg Host.Outcome.next (emergencyStart_atZero on hot first zero),
        fun high => ⟨_, rfl, emergencyStart_lowers on hot first high⟩⟩,
      fun cool => congrArg Host.Outcome.next (emergencyStart_cool cool),
      fun hot => ⟨fun cool => congrArg Host.Outcome.next (emergencyEnd_cool on hot cool), fun warm => congrArg Host.Outcome.next (emergencyEnd_hot warm),
        fun zero => congrArg Host.Outcome.next (dutyStep_atZero on hot zero)⟩⟩,
    fun s on => congrArg Host.Outcome.next (windowEnd_on on), fun x => ⟨rfl, rfl, rfl, rfl, energy_closeWindow x⟩⟩
  case falls => exact congrArg Host.Outcome.next (dvfsChange_falls on quad runs good down)
  case rises => exact congrArg Host.Outcome.next (dvfsChange_rises on quad runs good up)

end Sys2Proof.Machine
end

section
/-! THEOREM. The DRAM patrol (R440 to R442), row repair and frame retirement (R449), shadows and directory entries (R443, R444), chip restart (R445),
ageing (R450) and life (R451, R452). -/

namespace Sys2Proof.Machine

open Sys2Proof

/-! ### The patrol (R440 to R442) -/

/-- A sector that self-refresh keeps is not read, and nothing is while the chip is not on. -/
theorem patrolError_unread {s : State} {e : DramError} (unread : s.power.chip ≠ .on ∨ quadState s (e.channel % 4) = .sleep) : patrolError s e = s :=
  if_pos (by rcases unread with down | asleep <;> simp [*])

/-- What the patrol reads of an error: recorded and counted, or acted on. -/
theorem patrolError_read {s : State} {e : DramError} (on : s.power.chip = .on) (channel : e.channel < 640) (sector : e.sector < 2 ^ 23)
    (awake : quadState s (e.channel % 4) ≠ .sleep) : patrolError s e =
      if e.corrected then
        countRow (logError s { ErrRecord.blank with
          source := Src.dram, action := Act.corrected, part := channelOwner s e.channel, loc0 := e.channel * 2 ^ 31 + e.sector * 256 })
          e.channel e.row (e.channel * channelFrames + e.sector / 256)
      else
        let p := channelOwner s e.channel
        let frame := e.channel * channelFrames + e.sector / 256
        let s := dramError s p (e.channel * 2 ^ 31 + e.sector * 256) 0 0 0
        let s := if p < 16 then poisonSector s p frame (e.sector % 256) else s
        let s := failRow s e.channel e.row frame
        if e.channel < 8 then loseDevice s e.owner else s := by
  have real : ¬ dramChannels ≤ e.channel := Nat.not_le.2 channel
  exact if_neg (by simpa [on, awake, real] using sector)

theorem dramPatrol_off {s : State} (down : s.power.chip ≠ .on) (l : List DramError) : dramPatrol l s = s := by
  induction l with
  | nil => rfl
  | cons e r ih => exact (congrArg (dramPatrol r) (patrolError_unread (.inl down))).trans ih

/-! ### Rows and frames (R449) -/

section
variable {s : State} {ch row frame : Nat}

theorem failRow_again (repairing : (s.health.repairing.any fun r => r.1 = ch && r.2.1 = row) = true) : failRow s ch row frame = s := if_pos repairing

variable (new : (s.health.repairing.any fun r => r.1 = ch && r.2.1 = row) = false)
include new

theorem failRow_spare (spare : sparesUsed s.health ch < 64) :
    failRow s ch row frame = s.onHealth fun h => { h with repairing := h.repairing ++ [(ch, row, frame)] } := by
  rw [failRow, if_neg (by rw [new]; exact Bool.false_ne_true)]
  exact if_pos spare

theorem failRow_noSpare (spent : 64 ≤ sparesUsed s.health ch) :
    failRow s ch row frame = if framesRetired s.health ch < 32 && !Map.has s.health.retiredFrames frame then retireFrame s frame else s := by
  rw [failRow, if_neg (by rw [new]; exact Bool.false_ne_true)]
  exact if_neg (Nat.not_lt.2 spent)

theorem failRow_retires (spent : 64 ≤ sparesUsed s.health ch) (room : framesRetired s.health ch < 32) (inUse : Map.has s.health.retiredFrames frame = false) :
    failRow s ch row frame = retireFrame s frame := (failRow_noSpare new spent).trans (if_pos (by simp [room, inUse]))

theorem failRow_nothing (spent : 64 ≤ sparesUsed s.health ch) (none : 32 ≤ framesRetired s.health ch ∨ Map.has s.health.retiredFrames frame = true) :
    failRow s ch row frame = s :=
  (failRow_noSpare new spent).trans (if_neg (by rcases none with full | retired <;> simp [*]))

theorem rowRepaired_none : rowRepaired ch row s = s := if_pos (by rw [new]; rfl)

end

theorem rowRepaired_remaps {s : State} {ch row : Nat} (repairing : (s.health.repairing.any fun r => r.1 = ch && r.2.1 = row) = true) :
    let n := Map.get s.health.spareRows ch 0 + 1
    let t := s.onHealth fun h => { h with
      repairing := h.repairing.filter fun r => !(r.1 = ch && r.2.1 = row), spareRows := Map.put h.spareRows ch n, rowErrors := Map.del h.rowErrors (rowKey ch row) }
    let t := sealSecure t fun c => { c with spareRows := Map.put c.spareRows ch n }
    rowRepaired ch row s =
      logError t { ErrRecord.blank with source := Src.dram, severity := 1, action := Act.rowRepaired, part := channelOwner t ch, loc0 := ch * 2 ^ 31 } :=
  if_neg (by rw [repairing]; exact Bool.false_ne_true)

/-! ### Restart, shadows and directory entries (R443 to R445) -/

theorem restartChip_off {s : State} (down : s.power.chip ≠ .on) (r : ErrRecord) : restartChip r s = s := if_pos down

theorem restartChip_on {s : State} (on : s.power.chip = .on) (r : ErrRecord) :
    restartChip r s = coldState (sealSecure s fun c => { c with fatal := some { r with nowS := s.nowS } }) := if_neg (not_not.2 on)

theorem hotRestore_none {s : State} {p i : Nat} (ok : Bool) (cold : s.power.chip = .on → ∀ q, (s.part p).seq i = some q → q.state = .rest) :
    hotRestore p i ok s = s := by
  unfold hotRestore
  split
  · rfl
  · next q entry =>
    by_cases on : s.power.chip = .on
    · exact if_pos (by simp [cold on q entry])
    · exact if_pos (by simp [on])

theorem hotRestore_hot {s : State} {p i : Nat} {q : Seq} (on : s.power.chip = .on) (entry : (s.part p).seq i = some q) (hot : q.state ≠ .rest) (ok : Bool) :
    hotRestore p i ok s = if !ok then restartChip coreRecord s
      else logError s { ErrRecord.blank with source := Src.hubSram, severity := 1, action := Act.restored, part := p, loc1 := q.handleOf i } := by
  rw [hotRestore, entry]
  exact if_neg (by simp [on, hot])

theorem entryInvalid_none {s : State} {p i : Nat} (none : s.power.chip ≠ .on ∨ Map.has (s.part p).dir i = false) : entryInvalid p i s = s :=
  if_pos (by rcases none with down | absent <;> simp [*])

theorem entryInvalid_drops {s : State} {p i : Nat} (on : s.power.chip = .on) (there : Map.has (s.part p).dir i = true) : entryInvalid p i s =
    logError (s.onPart p fun x => { x with dir := Map.del x.dir i, cnt := { x.cnt with evicted := x.cnt.evicted + 1 } })
      { ErrRecord.blank with source := Src.hubSram, severity := 1, action := Act.invalidated, part := p, loc1 := i / 8 } :=
  if_neg (by simp [on, there])

/-! ### Ageing and life (R450 to R452) -/

theorem ageingMeasure_none {s : State} {die : Nat} (none : s.power.chip ≠ .on ∨ 4 < die) (drift : Nat) : ageingMeasure die drift s = s :=
  if_pos (by rcases none with down | noDie <;> simp [*])

theorem ageingMeasure_on {s : State} {die : Nat} (on : s.power.chip = .on) (real : die ≤ 4) (drift : Nat) : ageingMeasure die drift s =
    let t := s.onHealth fun h => { h with drift := Map.put h.drift die drift }
    if drift ≤ 450 || s.health.ageing.contains die then t
    else logError (t.onHealth fun h => { h with ageing := h.ageing ++ [die], degraded := true })
      { ErrRecord.blank with source := Src.ageing, severity := 2, loc1 := drift } :=
  if_neg (by simp [on, real])

theorem lifeDaily_none {s : State} (none : s.power.chip ≠ .on ∨ s.nowS < s.health.dailyDueS) : lifeDaily s = s :=
  if_pos (by rcases none with down | early <;> simp [*])

theorem lifeDaily_due {s : State} (on : s.power.chip = .on) (due : s.health.dailyDueS ≤ s.nowS) : lifeDaily s =
    let l := s.health.daily ++ [(s.nowS, (lifeFlash s).getD 10000, lifeDram s, lifeAgeing s)]
    let l := l.drop (l.length - 30)
    sealSecure (s.onHealth fun h => { h with daily := l, dailyDueS := s.nowS + 86400 }) fun c => { c with life := l } :=
  if_neg (by simp [on, due])

theorem length_lastThirty {α : Type} (l : List α) : (l.drop (l.length - 30)).length ≤ 30 := by
  rw [List.length_drop]
  omega

/-- Settles O59: each row by the lemma of its case. -/
theorem healthRows : Obligations.HealthRows := by
  refine ⟨fun s e r => ⟨rfl, rfl⟩,
    fun s e on channel sector => ⟨fun asleep => congrArg Host.Outcome.next (patrolError_unread (.inr asleep)),
      fun awake corrected => congrArg Host.Outcome.next ((patrolError_read on channel sector awake).trans (if_pos corrected)),
      fun awake lost => congrArg Host.Outcome.next ((patrolError_read on channel sector awake).trans (if_neg (by simp [lost])))⟩,
    fun s ch row frame new => ⟨failRow_spare new, failRow_retires new, failRow_nothing new, congrArg Host.Outcome.next (rowRepaired_none new)⟩,
    fun s ch row frame => failRow_again,
    fun s p i die drift ok l down => ⟨congrArg Host.Outcome.next (dramPatrol_off down l), congrArg Host.Outcome.next (hotRestore_none ok fun on => absurd on down),
      congrArg Host.Outcome.next (entryInvalid_none (.inl down)), congrArg Host.Outcome.next (restartChip_off down coreRecord),
      congrArg Host.Outcome.next (ageingMeasure_none (.inl down) drift), congrArg Host.Outcome.next (lifeDaily_none (.inl down))⟩,
    fun s ch row repairing => congrArg Host.Outcome.next (rowRepaired_remaps repairing),
    fun s p i on => ⟨congrArg Host.Outcome.next (restartChip_on on coreRecord), fun cold ok => congrArg Host.Outcome.next (hotRestore_none ok fun _ => cold),
      fun q entry hot => ⟨congrArg Host.Outcome.next ((hotRestore_hot on entry hot false).trans (restartChip_on on coreRecord)),
        congrArg Host.Outcome.next (hotRestore_hot on entry hot true)⟩,
      fun there => congrArg Host.Outcome.next (entryInvalid_drops on there), fun absent => congrArg Host.Outcome.next (entryInvalid_none (.inr absent))⟩,
    fun s die drift noDie => congrArg Host.Outcome.next (ageingMeasure_none (.inr noDie) drift),
    fun s die drift on real =>
      ⟨fun none => congrArg Host.Outcome.next ((ageingMeasure_on on real drift).trans (if_pos (Bool.or_eq_true_iff.2 (none.imp_left decide_eq_true)))),
        fun large first => congrArg Host.Outcome.next ((ageingMeasure_on on real drift).trans (if_neg (by rw [first]; simp [large])))⟩,
    fun s on => ⟨fun early => congrArg Host.Outcome.next (lifeDaily_none (.inr early)),
      fun due => ⟨length_lastThirty _, congrArg Host.Outcome.next (lifeDaily_due on due)⟩⟩⟩

end Sys2Proof.Machine
end

section
/-! THEOREM. Resets and rails (R419, R435, R463 to R466), JTAG (R410), the crystal (R460) and the cold start (R387, R467 to R469). -/

namespace Sys2Proof.Machine

open Sys2Proof

/-! ### Rails and resets (R419, R435, R463 to R466) -/

theorem tornFrame_untorn (f : Flash) (n : Nat) (g : Frame) : { tornFrame f n g with torn := false } = { g with torn := false } := by
  unfold tornFrame
  split <;> rfl

/-- A reset leaves every frame, but for the mark that it cannot be read. -/
theorem frames_coldState (s : State) :
    (coldState s).flash.frames.map (fun e => (e.1, { e.2 with torn := false })) = s.flash.frames.map fun e => (e.1, { e.2 with torn := false }) :=
  List.map_map.trans (List.map_congr_left fun e _ => congrArg (Prod.mk e.1) (tornFrame_untorn s.flash e.1 e.2))

theorem pwrokFall_fails {s : State} (good : s.pins.pwrok = true) : pwrokFall s = { railsLost s with
    power := { (railsLost s).power with chip := if s.power.chip = .tripped then .tripped else .off }
    pins := { (railsLost s).pins with railTimer := !s.pins.tripHold } } :=
  if_neg (by simp [good])

theorem pwrokFall_down {s : State} (down : s.pins.pwrok = false) : pwrokFall s = s := if_pos (by simp [down])

theorem railRestart_due {s : State} (timer : s.pins.railTimer = true) (standby : s.pins.vstby = true) (free : s.pins.tripHold = false) :
    railRestart s = railsUp s := if_pos (by simp [timer, standby, free])

theorem railRestart_none {s : State} (none : s.pins.railTimer = false ∨ s.pins.tripHold = true) : railRestart s = s :=
  if_neg (by rcases none with idle | hold <;> simp [*])

theorem standbyOn_first {s : State} (down : s.pins.vstby = false) : standbyOn s = s.onPins fun p => { p with vstby := true, railTimer := true } :=
  if_neg (by simp [down])

theorem sysRst_resets {s : State} {viaPerst : Bool} (up : s.power.chip = .on ∨ s.power.chip = .deepSleep) (whole : (viaPerst && s.pins.perstMode) = false) :
    sysRst viaPerst s = (coldState s).onPins fun p => { p with sysRstN := viaPerst, perstN := !viaPerst, tap := s.pins.tap } := by
  rw [sysRst, if_neg]
  rcases up with on | asleep <;> simp [*]

/-- With PERST_MODE 1 PERST_N is no reset of the chip. -/
theorem sysRst_linkOnly {s : State} (mode : s.pins.perstMode = true) : sysRst true s = s := if_pos (by simp [mode])

theorem crystalSettled_up {s : State} (up : s.power.chip = .on ∨ s.power.chip = .deepSleep) :
    crystalSettled s = s.onPins fun p => { p with crystal := true } := if_neg (by rcases up with on | asleep <;> simp [*])

theorem thermalTrip_cool {s : State} {temp : Nat} (cool : temp < 115) : thermalTrip temp s = s := if_pos (by simp [cool])

theorem thermalTrip_hot {s : State} {temp : Nat} (up : s.power.chip = .on ∨ s.power.chip = .deepSleep) (hot : 115 ≤ temp) :
    thermalTrip temp s = { railsLost s with
      power := { (railsLost s).power with chip := .tripped }, pins := { (railsLost s).pins with pwrok := true, thermtripN := false, tripHold := true } } :=
  if_neg (by rcases up with on | asleep <;> simp [*])

theorem hostLinkReset_chipReset {s : State} (mode : s.pins.perstMode = false) : hostLinkReset s = s := if_pos (by simp [mode])

theorem hostLinkReset_on {s : State} (mode : s.pins.perstMode = true) (on : s.power.chip = .on) (still : s.power.entry = none) (linked : s.pins.pcieUp = true) :
    hostLinkReset s = resetLink s := by
  have shallow : ¬ goesDeep s = true := by simp [goesDeep, still]
  have quiet : wakeEvent Wk.pcie s = s := by simp [wakeEvent, on, still]
  rw [hostLinkReset, if_neg (by simp [mode]), on]
  dsimp only
  rw [if_neg shallow, quiet, if_pos linked]

theorem hostLinkReset_deep {s : State} (mode : s.pins.perstMode = true) (asleep : s.power.chip = .deepSleep) :
    hostLinkReset s = (s.onPins fun p => { p with linkReset := true }).onPower fun w => { w with wake := orBit w.wake 2, waking := true } := by
  have asleep' : (s.onPins fun p => { p with linkReset := true }).power.chip = .deepSleep := asleep
  rw [hostLinkReset, if_neg (by simp [mode]), asleep]
  dsimp only
  rw [wakeEvent, asleep']
  rfl

/-! ### JTAG (R410) -/

theorem jtagInstruction_admitted {s : State} {i : JtagInstr} (off : s.power.chip ≠ .off) (tripped : s.power.chip ≠ .tripped) (allowed : jtagAllowed s i = true) :
    jtagInstruction i s = s.onPins fun p => { p with tap := some i } := if_pos (by simp [off, tripped, allowed])

theorem jtagInstruction_refused {s : State} {i : JtagInstr} (refused : jtagAllowed s i = false) : jtagInstruction i s = s := if_neg (by simp [refused])

theorem jtagAllowed_open {s : State} (early : s.oxs.lifecycle ≠ .production) (i : JtagInstr) : jtagAllowed s i = true := by simp [jtagAllowed, early]

theorem jtagAllowed_always {s : State} {i : JtagInstr} (safe : i = .idcode ∨ i = .bypass ∨ i = .samplePreload) : jtagAllowed s i = true := by
  rcases safe with rfl | rfl | rfl <;> simp [jtagAllowed]

theorem jtagAllowed_inReset {s : State} {i : JtagInstr} (held : resetHeld s = true) (noScan : i ≠ .scanInternal) : jtagAllowed s i = true := by
  cases i <;> simp_all [jtagAllowed]

theorem jtagAllowed_never {s : State} {i : JtagInstr} (sold : s.oxs.lifecycle = .production)
    (closed : i = .scanInternal ∨ (resetHeld s = false ∧ i ≠ .idcode ∧ i ≠ .bypass ∧ i ≠ .samplePreload)) : jtagAllowed s i = false := by
  rcases closed with rfl | ⟨running, noId, noBypass, noSample⟩
  · simp [jtagAllowed, sold]
  · cases i <;> simp_all [jtagAllowed]

/-! ### The boot (R387) -/

/-- What the boot settles of the state, and no later step of a start changes. -/
def bootFacts (s : State) : Option FwSlot × Bool × Bool × Bool × Bool × Option Nat :=
  (s.oxs.booted, s.oxs.bootedB, s.oxs.recovered, s.oxs.recovery, s.pins.pcieUp, s.pins.smbusAddr)

/-- The partition table that Oxsis has sealed. -/
def sealedTable (s : State) : Map Nat × Map (Grant × Nat) := (s.flash.secure.epochs, s.flash.secure.table)

theorem sealedParts_congr {s t : State} (same : sealedTable t = sealedTable s) : sealedParts t.flash.secure = sealedParts s.flash.secure := by
  obtain ⟨epochs, table⟩ := Prod.mk.inj same
  rw [sealedParts, sealedParts, epochs, table]

/-- The chip out of reset, before a slot boots. -/
def released (env : ColdEnv) (s : State) : State :=
  ((headFatal s).onPins fun p => { p with sysRstN := true, perstN := true, xspiRstN := true, pcieUp := true }).onOxs fun o =>
    { o with keyLifecycle := o.lifecycle, certMismatch := !env.certOk }

/-- A quadrant at its first point, and the record of a regulator that fails. -/
def startQuad (env : ColdEnv) (s : State) (q : Nat) : State :=
  let s := setPoint s q 0
  if (env.regulatorsOk[q]?).getD true then s
  else logError (s.onPower fun w => { w with regBad := w.regBad ++ [q] }) { ErrRecord.blank with source := Src.regulator, severity := 1, loc0 := q }

/-- The chip as a slot boots, up to the start of the memories. -/
def booting (env : ColdEnv) (s : State) (f : FwSlot) (b r : Bool) : State :=
  [0, 1, 2, 3].foldl (startQuad env) (((released env s).onOxs fun o => { o with booted := some f, bootedB := b, recovered := r }).onPins fun p =>
    { p with smbusAddr := some (Config.smbusAddress f.seq).toNat })

theorem oxs_headFatal (s : State) : (headFatal s).oxs = s.oxs := by
  unfold headFatal
  split <;> rfl

theorem stage_headFatal (s : State) : (headFatal s).stage = s.stage := by
  unfold headFatal
  split <;> rfl

theorem channel_headFatal (s : State) (c : Nat) : (headFatal s).channel c = s.channel c := by
  unfold headFatal
  split <;> rfl

theorem sealedTable_headFatal (s : State) : sealedTable (headFatal s) = sealedTable s := by
  unfold headFatal
  split <;> rfl

theorem oxs_released (env : ColdEnv) (s : State) :
    (released env s).oxs = { s.oxs with keyLifecycle := s.oxs.lifecycle, certMismatch := !env.certOk } :=
  congrArg (fun o : Oxsis => { o with keyLifecycle := o.lifecycle, certMismatch := !env.certOk }) (oxs_headFatal s)

theorem bootSlot_released (env : ColdEnv) (s : State) : bootSlot (released env s).oxs = bootSlot s.oxs :=
  (congrArg bootSlot (oxs_released env s) :)

theorem oxs_startQuad (env : ColdEnv) (s : State) (q : Nat) : (startQuad env s q).oxs = s.oxs := by
  unfold startQuad
  split <;> rfl

theorem pins_startQuad (env : ColdEnv) (s : State) (q : Nat) : (startQuad env s q).pins = s.pins := by
  unfold startQuad
  split <;> rfl

theorem flash_startQuad (env : ColdEnv) (s : State) (q : Nat) : (startQuad env s q).flash = s.flash := by
  unfold startQuad
  split <;> rfl

theorem bootFacts_booting (env : ColdEnv) (s : State) (f : FwSlot) (b r : Bool) :
    bootFacts (booting env s f b r) = (some f, b, r, s.oxs.recovery, true, some (Config.smbusAddress f.seq).toNat) := by
  unfold bootFacts booting
  rw [foldl_same State.oxs (startQuad env) (oxs_startQuad env), foldl_same State.pins (startQuad env) (pins_startQuad env)]
  exact (congrArg (fun o : Oxsis => (some f, b, r, o.recovery, true, some (Config.smbusAddress f.seq).toNat)) (oxs_released env s) :)

theorem flash_booting (env : ColdEnv) (s : State) (f : FwSlot) (b r : Bool) : (booting env s f b r).flash = (headFatal s).flash := by
  unfold booting
  rw [foldl_same State.flash (startQuad env) (flash_startQuad env)]
  simp [released]

section
variable {s : State} (env : ColdEnv) (on : s.power.chip = .on) (rails : s.pins.pwrok = true) (first : s.stage = 0) (boots : s.oxs.recovery = false)
  (runs : s.halted = false)
include on rails first boots runs

theorem coldStart_noSlot (none : bootSlot s.oxs = none) : coldStart env s = (released env s).onOxs fun o => { o with recovery := true, booted := .none } := by
  rw [coldStart, if_neg (by simp [on, rails, first, boots, runs])]
  dsimp only
  split
  next => rfl
  next slot => exact absurd ((bootSlot_released env s).symm.trans slot) (by simp [none])

theorem coldStart_boots {f : FwSlot} {b r : Bool} (slot : bootSlot s.oxs = some (f, b, r)) : coldStart env s = startMemory env (booting env s f b r) := by
  rw [coldStart, if_neg (by simp [on, rails, first, boots, runs])]
  dsimp only
  split
  next none => exact absurd ((bootSlot_released env s).symm.trans none) (by simp [slot])
  next found =>
    obtain ⟨rfl, rfl, rfl⟩ : f = _ ∧ b = _ ∧ r = _ := by simpa [slot] using (bootSlot_released env s).symm.trans found
    rfl

end

theorem coldStart_none {s : State} (env : ColdEnv) (none : s.power.chip ≠ .on ∨ s.stage ≠ 0 ∨ s.oxs.recovery = true ∨ s.halted = true) :
    coldStart env s = s := if_pos (by rcases none with down | started | recovery | halted <;> simp [*])

/-! ### The memories (R467 to R469) -/

/-- A start that stops at MEMORY, or goes on with the sealed partitions to the load or the rebuild of the map. -/
def StartEnds (s t : State) : Prop := (t.stage = 1 ∧ t.halted = true) ∨ (t.parts = sealedParts s.flash.secure ∧ (t.stage = 3 ∨ t.stage = 4))

theorem findChannel_facts (s : State) (e : Nat × ChannelFound) :
    bootFacts (findChannel s e) = bootFacts s ∧ (findChannel s e).stage = s.stage ∧ sealedTable (findChannel s e) = sealedTable s := by
  by_cases up : comesOnline e.2 = true
  · rw [show findChannel s e = _ from if_pos up]
    exact ⟨rfl, rfl, rfl⟩
  · rw [show findChannel s e = _ from if_neg up]
    exact ⟨rfl, rfl, rfl⟩

theorem channel_findChannel (s : State) {e : Nat × ChannelFound} {c : Nat} (ne : c ≠ e.1) : (findChannel s e).channel c = s.channel c := by
  by_cases up : comesOnline e.2 = true
  · rw [show findChannel s e = _ from if_pos up]
    exact Map.look_put_ne _ _ _ _ ne
  · rw [show findChannel s e = _ from if_neg up]
    exact Map.look_put_ne _ _ _ _ ne

theorem channel_findChannels {l : List (Nat × ChannelFound)} {c : Nat} (absent : ∀ e ∈ l, e.1 ≠ c) (s : State) : (l.foldl findChannel s).channel c = s.channel c := by
  induction l generalizing s with
  | nil => rfl
  | cons e r ih =>
    obtain ⟨ne, rest⟩ := List.forall_mem_cons.1 absent
    exact (ih rest _).trans (channel_findChannel s ne.symm)

theorem logEntry_programs (s : State) (data : List Byte) (g : Secure → Secure) : Programs (s.onSecure g) (logEntry s data g) := mirrorFrame_programs _ _ _

theorem bootFacts_logFactory (bad : List BlockId) (s : State) : bootFacts (logFactory bad s) = bootFacts s :=
  foldl_same bootFacts _ (fun s b => by
    have entry := logEntry_programs s (2 :: leBytes 4 (blockNo b.channel b.die b.block)) fun c => { c with badBlocks := c.badBlocks ++ [b] }
    rw [bootFacts, entry.oxs, entry.pins]
    rfl) _ _

theorem sealedTable_logFactory (bad : List BlockId) (s : State) : sealedTable (logFactory bad s) = sealedTable s :=
  foldl_same sealedTable _ (fun s b => by
    have entry := logEntry_programs s (2 :: leBytes 4 (blockNo b.channel b.die b.block)) fun c => { c with badBlocks := c.badBlocks ++ [b] }
    rw [sealedTable, entry.epochs, entry.table]
    rfl) _ _

theorem bootFacts_loadSealed (s : State) : bootFacts (loadSealed s) = bootFacts s := by
  unfold bootFacts loadSealed State.onSched State.onOxs State.onHealth startRange
  dsimp only
  split <;> rfl

/-- The chip as its memories are found, before its channels. -/
def memoryFound (env : ColdEnv) (s : State) : State :=
  ({ s with stage := 1 } : State).onFlash fun f => { f with cpReadable := env.checkpointOk, badHeaders := env.badHeaders }

theorem startMemory_untrained {env : ColdEnv} (untrained : env.stacksOk = false) (s : State) :
    startMemory env s = haltStart (memoryFound env s) Src.core := if_pos (by simp [untrained])

theorem startMemory_blind {env : ColdEnv} (trained : env.stacksOk = true) {s : State}
    (blind : (!channelOn (env.channels.foldl findChannel (memoryFound env s)) 0 && !channelOn (env.channels.foldl findChannel (memoryFound env s)) 16) = true) :
    startMemory env s = haltStart (env.channels.foldl findChannel (memoryFound env s)) Src.flashDie := by
  unfold startMemory
  dsimp only
  rw [if_neg (by simp [trained])]
  exact if_pos blind

/-- The chip with its sealed state loaded. -/
def sealedLoaded (env : ColdEnv) (s : State) : State :=
  let new := (env.channels.filter (firstStart (memoryFound env s))).flatMap factoryBad
  let t := env.channels.foldl findChannel (memoryFound env s)
  let t := if (List.range 32).all (channelOn t) then t else t.onHealth fun h => { h with degraded := true }
  loadSealed (logFactory new (readMeta t))

theorem startMemory_loads {env : ColdEnv} (trained : env.stacksOk = true) {s : State}
    (found : ¬ (!channelOn (env.channels.foldl findChannel (memoryFound env s)) 0 && !channelOn (env.channels.foldl findChannel (memoryFound env s)) 16) = true) :
    startMemory env s = (freePercent { sealedLoaded env s with stage := if cleanCheckpoint (sealedLoaded env s) then 3 else 4 }).onFlash fun f =>
      { f with phase := if cleanCheckpoint (sealedLoaded env s) then 1 else 2, cpSeq := (currentAnchor f).getD 0 } := by
  unfold startMemory
  dsimp only
  rw [if_neg (by simp [trained])]
  exact if_neg found

theorem bootFacts_channels (env : ColdEnv) (s : State) : bootFacts (env.channels.foldl findChannel (memoryFound env s)) = bootFacts s :=
  (foldl_same bootFacts findChannel (fun s e => (findChannel_facts s e).1) _ _).trans rfl

theorem sealedTable_channels (env : ColdEnv) (s : State) : sealedTable (env.channels.foldl findChannel (memoryFound env s)) = sealedTable s :=
  (foldl_same sealedTable findChannel (fun s e => (findChannel_facts s e).2.2) _ _).trans rfl

theorem stage_channels (env : ColdEnv) (s : State) : (env.channels.foldl findChannel (memoryFound env s)).stage = 1 :=
  (foldl_same State.stage findChannel (fun s e => (findChannel_facts s e).2.1) _ _).trans rfl

theorem bootFacts_sealedLoaded (env : ColdEnv) (s : State) : bootFacts (sealedLoaded env s) = bootFacts s := by
  unfold sealedLoaded
  dsimp only
  rw [bootFacts_loadSealed, bootFacts_logFactory, ← bootFacts_channels env s]
  split <;> rfl

theorem parts_sealedLoaded (env : ColdEnv) (s : State) : (sealedLoaded env s).parts = sealedParts s.flash.secure := by
  unfold sealedLoaded
  dsimp only
  refine sealedParts_congr ((sealedTable_logFactory _ _).trans (Eq.trans ?_ (sealedTable_channels env s)))
  split <;> rfl

theorem startMemory_boot (env : ColdEnv) (s : State) : bootFacts (startMemory env s) = bootFacts s := by
  by_cases trained : env.stacksOk = true
  · by_cases blind : (!channelOn (env.channels.foldl findChannel (memoryFound env s)) 0 && !channelOn (env.channels.foldl findChannel (memoryFound env s)) 16) = true
    · rw [startMemory_blind trained blind]
      exact bootFacts_channels env s
    · rw [startMemory_loads trained blind]
      exact bootFacts_sealedLoaded env s
  · rw [startMemory_untrained (by simpa using trained)]
    rfl

theorem startMemory_ends (env : ColdEnv) (s : State) : StartEnds s (startMemory env s) := by
  by_cases trained : env.stacksOk = true
  · by_cases blind : (!channelOn (env.channels.foldl findChannel (memoryFound env s)) 0 && !channelOn (env.channels.foldl findChannel (memoryFound env s)) 16) = true
    · rw [startMemory_blind trained blind]
      exact .inl ⟨stage_channels env s, rfl⟩
    · rw [startMemory_loads trained blind]
      refine .inr ⟨parts_sealedLoaded env s, ?_⟩
      by_cases load : cleanCheckpoint (sealedLoaded env s) = true
      · exact .inl (if_pos load)
      · exact .inr (if_neg load)
  · rw [startMemory_untrained (by simpa using trained)]
    exact .inl ⟨rfl, rfl⟩

/-- With neither metadata channel the start stops. -/
theorem startMemory_noMeta {env : ColdEnv} (trained : env.stacksOk = true) (others : ∀ e ∈ env.channels, e.1 ≠ 0 ∧ e.1 ≠ 16) {s : State}
    (no0 : s.channel 0 = none) (no16 : s.channel 16 = none) : (startMemory env s).stage = 1 ∧ (startMemory env s).halted = true := by
  have off0 : channelOn (env.channels.foldl findChannel (memoryFound env s)) 0 = false := by
    rw [channelOn, channel_findChannels fun e he => (others e he).1, show (memoryFound env s).channel 0 = none from no0]
  have off16 : channelOn (env.channels.foldl findChannel (memoryFound env s)) 16 = false := by
    rw [channelOn, channel_findChannels fun e he => (others e he).2, show (memoryFound env s).channel 16 = none from no16]
  rw [startMemory_blind trained (by simp [off0, off16])]
  exact ⟨stage_channels env s, rfl⟩

theorem channel_booting (env : ColdEnv) (s : State) (f : FwSlot) (b r : Bool) (c : Nat) : (booting env s f b r).channel c = s.channel c :=
  (congrArg (fun d : Flash => Map.look d.channels c) (flash_booting env s f b r) :).trans (channel_headFatal s c)

theorem sealedTable_booting (env : ColdEnv) (s : State) (f : FwSlot) (b r : Bool) : sealedTable (booting env s f b r) = sealedTable s :=
  (congrArg (fun d : Flash => (d.secure.epochs, d.secure.table)) (flash_booting env s f b r) :).trans (sealedTable_headFatal s)

/-- Settles O60: each row by the lemma of its case; a start that boots, by what the boot settles and how a start of the memories ends. -/
theorem resetsAndStart : Obligations.ResetsAndStart := by
  refine ⟨fun s => ⟨rfl, rfl, rfl, rfl, rfl, rfl, rfl, rfl, rfl, rfl, rfl, rfl, rfl, rfl, frames_coldState s, rfl, rfl⟩,
    fun s good => ⟨_, rfl, pwrokFall_fails good, ?_⟩, fun s down => congrArg Host.Outcome.next (pwrokFall_down down),
    fun s timer standby free => congrArg Host.Outcome.next (railRestart_due timer standby free),
    fun s none => congrArg Host.Outcome.next (railRestart_none none),
    fun s => ⟨fun down => congrArg Host.Outcome.next (standbyOn_first down), fun up => congrArg Host.Outcome.next (if_pos up), rfl, rfl⟩,
    fun s up => ⟨congrArg Host.Outcome.next (sysRst_resets up rfl), fun mode => congrArg Host.Outcome.next (sysRst_resets up mode),
      fun mode => congrArg Host.Outcome.next (sysRst_linkOnly mode), congrArg Host.Outcome.next (crystalSettled_up up),
      fun temp cool => congrArg Host.Outcome.next (thermalTrip_cool cool), fun temp hot => congrArg Host.Outcome.next (thermalTrip_hot up hot)⟩,
    fun s mode => congrArg Host.Outcome.next (hostLinkReset_chipReset mode),
    fun s mode => ⟨fun on still linked => congrArg Host.Outcome.next (hostLinkReset_on mode on still linked),
      fun asleep => congrArg Host.Outcome.next (hostLinkReset_deep mode asleep)⟩,
    fun s i off tripped =>
      ⟨fun early => congrArg Host.Outcome.next (jtagInstruction_admitted off tripped (jtagAllowed_open early i)),
        fun safe => congrArg Host.Outcome.next (jtagInstruction_admitted off tripped (jtagAllowed_always safe)),
        fun sold closed => congrArg Host.Outcome.next (jtagInstruction_refused (jtagAllowed_never sold closed)),
        fun held noScan => congrArg Host.Outcome.next (jtagInstruction_admitted off tripped (jtagAllowed_inReset held noScan))⟩,
    fun s env on rails first boots runs => ⟨fun none => ?recovery, fun f b r slot => ?start⟩,
    fun s env none => congrArg Host.Outcome.next (coldStart_none env none)⟩
  · rw [pwrokFall_fails good]
    exact ⟨rfl, rfl, rfl⟩
  case recovery =>
    refine ⟨_, congrArg Host.Outcome.next (coldStart_noSlot env on rails first boots runs none), rfl, rfl, ?_⟩
    exact (stage_headFatal s).trans first
  case start =>
    obtain ⟨booted, bootedB, recovered, recovery, linked, address⟩ :
        _ = some f ∧ _ = b ∧ _ = r ∧ _ = s.oxs.recovery ∧ _ = true ∧ _ = some (Config.smbusAddress f.seq).toNat := by
      simpa [bootFacts] using (startMemory_boot env (booting env s f b r)).trans (bootFacts_booting env s f b r)
    refine ⟨_, congrArg Host.Outcome.next (coldStart_boots env on rails first boots runs slot), booted, bootedB, recovered, recovery.trans boots, linked, address,
      fun untrained => ?_, fun trained others no0 no16 => ?_, fun runs => ?_⟩
    · rw [startMemory_untrained untrained]
      exact ⟨rfl, rfl⟩
    · exact startMemory_noMeta trained others ((channel_booting ..).trans no0) ((channel_booting ..).trans no16)
    · rcases startMemory_ends env (booting env s f b r) with ⟨-, stops⟩ | ⟨parts, stage⟩
      · exact absurd (stops.symm.trans runs) nofun
      · exact ⟨parts.trans (sealedParts_congr (sealedTable_booting ..)), stage⟩

end Sys2Proof.Machine
end

section
/-! THEOREM. Quadrant states (R415 to R417), the entry handshake (R418 to R421), wake events (R422 to R427) and the exit from Deep sleep (R428, R429). -/

namespace Sys2Proof.Machine

open Sys2Proof

/-! ### Quadrants (R415 to R417) -/

section
variable {s : State} {q : Nat}

theorem quadIdle_free (quad : q < 4) (on : s.power.chip = .on) (runs : quadState s q = .run) (noUnit : quadBusy s q = false) (noTile : tilesBusy s q = false) :
    quadIdle q s = setQuad s q .idle := if_pos (by simp [*])

theorem quadIdle_busy (busy : quadBusy s q = true ∨ tilesBusy s q = true) : quadIdle q s = s := if_neg (by rcases busy with unit | tile <;> simp [*])

theorem quadSleep_begins (quad : q < 4) (on : s.power.chip = .on) (idle : quadState s q = .idle) (hold : s.power.sleepHold ≠ 0) (dead : homeLive s q = false)
    (still : s.power.entry = none) : quadSleep q s = s.onPower fun w => { w with latched := 0, entry := some ⟨.sleep q, [], [], false⟩ } := by
  rw [quadSleep, if_neg (by simp [*])]
  rfl

theorem quadSleep_none (none : homeLive s q = true ∨ s.power.sleepHold = 0) : quadSleep q s = s := if_pos (by rcases none with live | never <;> simp [*])

theorem quadWakeDone_runs (quad : q < 4) (on : s.power.chip = .on) (asleep : quadState s q = .sleep) (waking : Map.get s.power.quadWake q false = true) :
    quadWakeDone q s = s.onPower fun w =>
      { w with quads := Map.put w.quads q .run, points := Map.put w.points q 0, quadWake := Map.del w.quadWake q, dramAwake := Map.del w.dramAwake q } :=
  if_pos (by simp [*])

theorem selfRefresh_returns (quad : q < 4) (asleep : quadState s q = .sleep) :
    selfRefresh q s = s.onPower fun w => { w with dramAwake := Map.del w.dramAwake q } := if_pos (by simp [*])

end

/-! ### Chip entries (R418) -/

/-- The entries that a request for k asks for: the Sleep of the quadrants outside Sleep, then k. -/
def entriesAsked (s : State) (k : EntryKind) : List EntryKind := ([0, 1, 2, 3].filter fun q => quadState s q != .sleep).map EntryKind.sleep ++ [k]

theorem nextEntry_some {l : List EntryKind} (some : l ≠ []) (k : EntryKind) (s : State) :
    nextEntry true l s = s.onPower fun w => { w with entry := .some ⟨l.headD k, [], l.tail, true⟩ } := by
  cases l with
  | nil => exact absurd rfl some
  | cons a r => rfl

theorem askChip_first {s : State} (still : s.power.entry = none) (k : EntryKind) :
    askChip k s = s.onPower fun w => { w with latched := 0, entry := some ⟨(entriesAsked s k).headD k, [], (entriesAsked s k).tail, true⟩ } := by
  rw [askChip, still]
  exact nextEntry_some (l := entriesAsked s k) (by simp [entriesAsked]) k _

theorem autoDeep_asks {s : State} (on : s.power.chip = .on) (auto : s.power.autoDeep = true) (asleep : allAsleep s = true) : autoDeep s = askChip .deep s :=
  if_pos (by simp [*])

/-! ### The handshake (R420, R421) -/

section
variable {s : State} {e : Entry} {b : Nat} (entry : s.power.entry = some e)
include entry

theorem abandonEntry_ends (result : Nat) : abandonEntry s result b =
    let t := s.onPower fun w =>
      { w with entry := none, latched := 0, lastResult := if e.ofChip then result else w.lastResult, lastBlock := if e.ofChip then b else w.lastBlock }
    if e.accepted.contains 10 then serveHeld t else t := by
  rw [abandonEntry, entry]

theorem handshakeAnswer_unfit {a : Answer} (unfit : answerFits s e.kind b a = false) : handshakeAnswer b a s = s := by
  rw [handshakeAnswer, handshake, entry]
  exact if_pos (by rw [unfit]; simp)

variable (part : (participants e.kind).contains b = true) (new : e.accepted.contains b = false)
include part new

theorem deferExpiry_ends (may : mayDefer e.kind b = true) : deferExpiry b s = abandonEntry s 3 b := by
  rw [deferExpiry, entry]
  exact if_pos (by rw [part, may, new]; rfl)

omit entry in
theorem answer_admitted {a : Answer} (fits : answerFits s e.kind b a = true) :
    ¬ (!(participants e.kind).contains b || e.accepted.contains b || !answerFits s e.kind b a) = true := by
  rw [part, new, fits]
  exact Bool.false_ne_true

theorem handshakeAnswer_refuse (fits : answerFits s e.kind b .refuse = true) : handshakeAnswer b .refuse s = abandonEntry s 2 b := by
  rw [handshakeAnswer, handshake, entry]
  exact if_neg (answer_admitted part new fits)

theorem handshakeAnswer_defer : handshakeAnswer b .defer s = s := by
  by_cases fits : answerFits s e.kind b .defer = true
  · rw [handshakeAnswer, handshake, entry]
    exact if_neg (answer_admitted part new fits)
  · exact handshakeAnswer_unfit entry (by simpa using fits)

/-- An acceptance that fits goes into the entry, and the last one commits it. -/
theorem handshakeAnswer_accept (cache : b ≠ 2) (flash : b ≠ 9) (fits : answerFits s e.kind b .accept = true) : handshakeAnswer b .accept s =
    if (participants e.kind).all fun x => (e.accepted ++ [b]).contains x then commitEntry enterOff { e with accepted := e.accepted ++ [b] } s
    else s.onPower fun w => { w with entry := some { e with accepted := e.accepted ++ [b] } } := by
  have noCheckpoint : ¬ (b = 9 && e.kind = .off) = true := by simp [flash]
  rw [handshakeAnswer, handshake, entry]
  dsimp only
  rw [if_neg (answer_admitted part new fits), if_neg cache, if_neg noCheckpoint]

end

/-! ### Deep sleep and Off (R419, R428) -/

theorem chip_replay (w : Power) : (replay w).chip = w.chip := by
  unfold replay
  split <;> rfl

theorem entry_replay (w : Power) : (replay w).entry = w.entry := by
  unfold replay
  split <;> rfl

theorem enterOff_eq (s : State) : enterOff s = if bit s.power.latched 0 then wakeFromOff true (railsLost s) else railsLost s := rfl

/-! ### Wake events (R422 to R427) -/

theorem wakeEvent_deep {s : State} (asleep : s.power.chip = .deepSleep) (n : Nat) :
    wakeEvent n s = s.onPower fun w => { w with wake := orBit w.wake n, waking := true } := by rw [wakeEvent, asleep]

theorem wakeEvent_entry {s : State} (on : s.power.chip = .on) (entry : s.power.entry ≠ none) (n : Nat) :
    wakeEvent n s = s.onPower fun w => { w with latched := orBit w.latched n } := by
  rw [wakeEvent, on]
  exact if_pos (Option.isSome_iff_ne_none.2 entry)

theorem wakeNLow_up {s : State} (up : s.power.chip ≠ .off) : wakeNLow s = wakeEvent 0 s := if_neg up

theorem wakeNLow_off {s : State} (off : s.power.chip = .off) (standby : s.pins.vstby = true) (free : s.pins.tripHold = false) : wakeNLow s = wakeFromOff false s :=
  (if_pos off).trans (if_pos (by simp [standby, free]))

theorem smbusMatch_ours {s : State} {a : Nat} (ours : s.pins.smbusAddr = some a) : smbusMatch a s = wakeEvent 1 s := if_pos ours

theorem wakeAlarm_due {s : State} (asleep : s.power.chip = .deepSleep) (set : s.power.alarm ≠ 0) (due : s.power.alarm ≤ s.nowS) :
    wakeAlarm s = wakeEvent 3 s := if_pos (by simp [*])

/-! ### The exit from Deep sleep (R429) -/

/-- t is s with some flash channels trained again. -/
def Retrained (s t : State) : Prop := ∃ (f : Flash) (d : Bool), t = { s with flash := f, health := { s.health with degraded := d } }

theorem retrainChannel_retrained (s : State) (e : Nat × Int × Bool) : Retrained s (retrainChannel s e) := by
  unfold retrainChannel
  split
  · exact ⟨s.flash, s.health.degraded, rfl⟩
  · dsimp only
    split <;> exact ⟨_, _, rfl⟩

theorem retrained_foldl (l : List (Nat × Int × Bool)) (s : State) : Retrained s (l.foldl retrainChannel s) :=
  foldl_keeps (Retrained s) retrainChannel (fun t e ⟨f, d, before⟩ => by
    obtain ⟨g, c, after⟩ := retrainChannel_retrained t e
    rw [after, before]
    exact ⟨g, c, rfl⟩) l s ⟨s.flash, s.health.degraded, rfl⟩

/-- A chip that runs again, its ports as JOIN has them and its directories aged. -/
def woken (s : State) : State :=
  let n := (s.nowS - s.power.sleptAtS) / 64
  let s := s.onPower fun w => { w with chip := .on, waking := false, lastResult := 1, lastBlock := 0, imageValid := false }
  let s := s.onPins fun p => { p with clkreqN := false }
  let s := s.onFabric fun f => { f with bypassClosed := !f.join }
  { s with parts := Map.each s.parts (ageDirectory n), dirSweep := s.nowS / 64 }

/-- And with its flash trained and its signature range closed. -/
def restoredImage (channels : List (Nat × Int × Bool)) (s : State) : State :=
  ((drivePins (channels.foldl retrainChannel (woken s))).onOxs fun o => { o with sigOffset := o.sigBound }).onSecure fun c => { c with image := false }

/-- The record of an image that came from its sealed copy. -/
def restoredRecord : ErrRecord := { ErrRecord.blank with source := Src.retention, severity := 1, action := Act.restored }

theorem linkReset_restoredImage (channels : List (Nat × Int × Bool)) (s : State) : (restoredImage channels s).pins.linkReset = s.pins.linkReset := by
  obtain ⟨f, d, rest⟩ := retrained_foldl channels (woken s)
  rw [restoredImage, rest]
  rfl

theorem sched_woken (s : State) : (woken s).sched = s.sched := by simp [woken]

theorem sched_restoredImage (channels : List (Nat × Int × Bool)) (s : State) : (restoredImage channels s).sched = s.sched := by
  obtain ⟨f, d, rest⟩ := retrained_foldl channels (woken s)
  rw [restoredImage, rest]
  simp [drivePins, State.onSecure, sched_woken]

theorem hostMem_woken (s : State) : (woken s).hostMem = s.hostMem := by simp [woken]

theorem hostMem_restoredImage (channels : List (Nat × Int × Bool)) (s : State) : (restoredImage channels s).hostMem = s.hostMem := by
  obtain ⟨f, d, rest⟩ := retrained_foldl channels (woken s)
  rw [restoredImage, rest]
  simp [drivePins, State.onSecure, hostMem_woken]

section
variable {s : State} {tagOk copyOk : Bool} (channels : List (Nat × Int × Bool)) (asleep : s.power.chip = .deepSleep) (waking : s.power.waking = true)
include asleep waking

theorem wakeUp_lost (lost : imageGood s tagOk copyOk = false) : wakeUp tagOk copyOk channels s =
    logError (coldState s) { ErrRecord.blank with source := Src.retention, severity := 3, action := Act.coldStart } := by
  rw [wakeUp, if_pos (by simp [lost]), deepExit, if_neg (by simp [asleep, waking])]
  exact if_pos (by simp [lost])

theorem deepExit_restores (good : imageGood s tagOk copyOk = true) (noReset : s.pins.linkReset = false) :
    deepExit tagOk copyOk channels s = if tagOk then restoredImage channels s else logError (restoredImage channels s) restoredRecord := by
  have noReset : ¬ (restoredImage channels s).pins.linkReset = true := by simp [linkReset_restoredImage, noReset]
  rw [deepExit, if_neg (by simp [asleep, waking]), if_neg (by simp [good])]
  exact congrArg (fun t => if tagOk then t else logError t restoredRecord) (if_neg noReset)

theorem wakeUp_restores (good : imageGood s tagOk copyOk = true) (noReset : s.pins.linkReset = false) : wakeUp tagOk copyOk channels s =
    s.power.held.foldl applyAccess (serveHeld ((deepExit tagOk copyOk channels s).onPower fun w => { w with held := [] })) := by
  rw [wakeUp, if_neg (by simp [asleep, waking, good]), noReset]
  rfl

end

/-- A record that is not of a corrected error takes a sequence number, or is counted as lost. -/
theorem logError_counts (s : State) {r : ErrRecord} (severe : r.severity ≠ 0) :
    (logError s r).health.rseq = s.health.rseq + 1 ∨ (logError s r).health.lost = s.health.lost + 1 := by
  simp only [logError, State.onHealth_health, if_neg severe, decide_eq_false severe, Bool.false_and, Bool.false_eq_true, if_false]
  split
  · exact .inr rfl
  · exact .inl rfl

/-- What the exit leaves for the requests and accesses that waited. -/
theorem deepExit_leaves {s : State} {tagOk copyOk : Bool} (channels : List (Nat × Int × Bool)) (asleep : s.power.chip = .deepSleep) (waking : s.power.waking = true)
    (good : imageGood s tagOk copyOk = true) (noReset : s.pins.linkReset = false) :
    let t := (deepExit tagOk copyOk channels s).onPower fun w => { w with held := [] }
    t.power.held = [] ∧ t.power.chip = .on ∧ t.power.waking = false ∧ t.power.lastResult = 1 ∧ t.power.imageValid = false ∧ t.pins.clkreqN = false ∧
      t.oxs.sigOffset = s.oxs.sigBound ∧ t.fabric.bypassClosed = (!s.fabric.join) ∧
      t.parts = Map.each s.parts (ageDirectory ((s.nowS - s.power.sleptAtS) / 64)) ∧ t.sched = s.sched ∧ t.hostMem = s.hostMem ∧
      (tagOk = false → t.health.rseq = s.health.rseq + 1 ∨ t.health.lost = s.health.lost + 1) := by
  obtain ⟨f, d, rest⟩ := retrained_foldl channels (woken s)
  intro t
  cases tagOk with
  | true =>
    have exit : t = (restoredImage channels s).onPower fun w => { w with held := [] } :=
      congrArg (fun t : State => t.onPower fun w => { w with held := [] }) (deepExit_restores channels asleep waking good noReset)
    have sched : t.sched = s.sched := by simp [exit, sched_restoredImage]
    have mem : t.hostMem = s.hostMem := by simp [exit, hostMem_restoredImage]
    refine ⟨?_, ?_, ?_, ?_, ?_, ?_, ?_, ?_, ?_, sched, mem, nofun⟩
    all_goals rw [exit, restoredImage, rest]; rfl
  | false =>
    have exit : t = (logError (restoredImage channels s) restoredRecord).onPower fun w => { w with held := [] } :=
      congrArg (fun t : State => t.onPower fun w => { w with held := [] }) (deepExit_restores channels asleep waking good noReset)
    have counts := logError_counts (restoredImage channels s) (r := restoredRecord) Nat.one_ne_zero
    have sched : t.sched = s.sched := by simp [exit, logError, sched_restoredImage]
    have mem : t.hostMem = s.hostMem := by simp [exit, logError, hostMem_restoredImage]
    refine ⟨?_, ?_, ?_, ?_, ?_, ?_, ?_, ?_, ?_, sched, mem, fun _ => ?counts⟩
    case counts =>
      rw [exit]
      rw [restoredImage, rest] at counts ⊢
      exact counts
    all_goals rw [exit, restoredImage, rest]; rfl

theorem commitEntry_sleep {e : Entry} {q : Nat} (kind : e.kind = .sleep q) (off : State → State) (s : State) :
    commitEntry off e s = nextEntry e.ofChip e.next (setQuad (dropCache s q) q .sleep) := by rw [commitEntry, kind]

theorem commitEntry_deep {e : Entry} (kind : e.kind = .deep) (off : State → State) (s : State) : commitEntry off e s = enterDeep s := by rw [commitEntry, kind]

theorem commitEntry_off {e : Entry} (kind : e.kind = .off) (off : State → State) (s : State) : commitEntry off e s = off s := by rw [commitEntry, kind]

/-- Settles O57: each row by the lemma of its case. -/
theorem powerStates : Obligations.PowerStates := by
  refine ⟨fun s q quad on => ⟨fun runs noUnit noTile => congrArg Host.Outcome.next (quadIdle_free quad on runs noUnit noTile),
      fun busy => congrArg Host.Outcome.next (quadIdle_busy busy),
      fun idle hold dead still => congrArg Host.Outcome.next (quadSleep_begins quad on idle hold dead still),
      fun none => congrArg Host.Outcome.next (quadSleep_none none), fun asleep waking => congrArg Host.Outcome.next (quadWakeDone_runs quad on asleep waking),
      fun asleep => congrArg Host.Outcome.next (selfRefresh_returns quad asleep)⟩,
    fun s still => ⟨fun reached =>
        ⟨exec_access (f := askByPf0 .deep) rfl (linkAsleep_of_reaches reached) ((if_pos reached).trans (askChip_first still .deep)),
          exec_access (f := askByPf0 .off) rfl (linkAsleep_of_reaches reached) ((if_pos reached).trans (askChip_first still .off))⟩,
      fun on auto asleep => congrArg Host.Outcome.next ((autoDeep_asks on auto asleep).trans (askChip_first still .deep))⟩,
    fun s e b entry part new => ⟨fun fits => congrArg Host.Outcome.next ((handshakeAnswer_refuse entry part new fits).trans (abandonEntry_ends entry 2)),
      fun may => congrArg Host.Outcome.next ((deferExpiry_ends entry part new may).trans (abandonEntry_ends entry 3)),
      fun must => congrArg Host.Outcome.next (handshakeAnswer_unfit entry (by simp [answerFits, must])),
      congrArg Host.Outcome.next (handshakeAnswer_defer entry part new), fun cache flash fits => ?accepts⟩,
    fun s => ⟨chip_replay _, rfl, rfl, entry_replay _, ?off⟩,
    fun s => ⟨fun asleep => ?exits, fun on entry => ?latches, fun off standby free => congrArg Host.Outcome.next (wakeNLow_off off standby free)⟩,
    fun s tagOk copyOk chs asleep waking => ⟨fun lost => congrArg Host.Outcome.next (wakeUp_lost chs asleep waking ?lost), fun good noReset => ?restores⟩⟩
  case accepts =>
    have accept := handshakeAnswer_accept entry part new cache flash fits
    refine ⟨fun more => congrArg Host.Outcome.next (accept.trans (if_neg (by rw [more]; exact Bool.false_ne_true))), fun all => ?_⟩
    have commit := accept.trans (if_pos all)
    refine ⟨fun q kind last => ?_, fun q k r kind next => ?_, fun kind => congrArg Host.Outcome.next (commit.trans (commitEntry_deep kind enterOff s)),
      fun kind => congrArg Host.Outcome.next (commit.trans (commitEntry_off kind enterOff s))⟩
    · exact congrArg Host.Outcome.next ((commit.trans (commitEntry_sleep kind enterOff s)).trans (by rw [last]; rfl))
    · exact congrArg Host.Outcome.next ((commit.trans (commitEntry_sleep kind enterOff s)).trans (by rw [next]; rfl))
  case off =>
    rw [enterOff_eq]
    split <;> exact ⟨rfl, rfl, rfl, rfl, rfl⟩
  case exits =>
    exact ⟨congrArg Host.Outcome.next (wakeEvent_deep asleep 2),
      congrArg Host.Outcome.next ((wakeNLow_up (by simp [asleep])).trans (wakeEvent_deep asleep 0)),
      fun a ours => congrArg Host.Outcome.next ((smbusMatch_ours ours).trans (wakeEvent_deep asleep 1)),
      fun set due => congrArg Host.Outcome.next ((wakeAlarm_due asleep set due).trans (wakeEvent_deep asleep 3))⟩
  case latches =>
    exact ⟨congrArg Host.Outcome.next (wakeEvent_entry on entry 2), congrArg Host.Outcome.next ((wakeNLow_up (by simp [on])).trans (wakeEvent_entry on entry 0)),
      fun a ours => congrArg Host.Outcome.next ((smbusMatch_ours ours).trans (wakeEvent_entry on entry 1))⟩
  case lost =>
    obtain ⟨none | none, noCopy⟩ := lost <;> simp [imageGood, none, noCopy]
  case restores =>
    have good : imageGood s tagOk copyOk = true := by simpa [imageGood] using good
    exact ⟨_, congrArg Host.Outcome.next (wakeUp_restores chs asleep waking good noReset), deepExit_leaves chs asleep waking good noReset⟩

end Sys2Proof.Machine
end

section
/-! SUPPORT. How a command that is Ready commits where its row neither wakes a sequence nor is one of the two rows of prefix_evict. -/

namespace Sys2Proof.Machine

open Sys2Proof

theorem Cleared.there {t : State} {c : CmdRef} {g : Flight} (h : Cleared t c g) : (t.flight c).isSome := by
  rw [h.flight]
  rfl

theorem commitOp_of_entry {s : State} {c : CmdRef} {x : Slot} {f : Flight} {n : Nat} {start : State → CmdStep → Slot → Flight → Start}
    {commit : State → CmdRef → Slot → Flight → Commit} (op : cOpcode f.word = n)
    (entry : Map.get opTable n (refuseStart, refuseCommit) = (start, commit)) (other : n ≠ Op.prefixEvict) :
    commitOp s c x f = commit s c x f := by
  rw [commitOp_of_opcode (by rw [op]; exact other), op, entry]

section Ready

variable {s : State} {c : CmdStep} {f : Flight} (R : Ready s c f)
include R

theorem Ready.runCommand_asks {n : Nat} {start : State → CmdStep → Slot → Flight → Start} {commit : State → CmdRef → Slot → Flight → Commit}
    (op : cOpcode f.word = n) (entry : Map.get opTable n (refuseStart, refuseCommit) = (start, commit)) (other : n ≠ Op.prefixEvict)
    {t u : State} {g : Flight} {st r0 r1 : Nat} {outs : List (Nat × List Byte)}
    (go : ∀ x, start (begun s c) c x (begunFlight s c f) = request t c.ref) (cleared : Cleared t c.ref g) (word : g.word = f.word)
    (point : ∀ x, commit (rewake (requestedIn t c) c.ref { g with stage := .requested }) c.ref x { g with stage := .requested } = .done u st r0 r1 outs)
    (there : (u.flight c.ref).isSome) :
    runCommand (fun w => cOpcode w = n) start commitCmd c s = committed u c.ref f st r0 r1 outs := by
  rw [R.runCommand_go (t := requestedIn t c) (decide_eq_true op) go]
  have named : cOpcode ({ g with stage := .requested } : Flight).word = n := (congrArg cOpcode word).trans op
  exact cleared.requested.commitCmd_eq rfl ((commitOp_of_entry named entry other).trans (point _)) word there

/-- The same where nothing is woken at the commit point (R23). -/
theorem Ready.runCommand_asks_asleep {n : Nat} {start : State → CmdStep → Slot → Flight → Start} {commit : State → CmdRef → Slot → Flight → Commit}
    (op : cOpcode f.word = n) (entry : Map.get opTable n (refuseStart, refuseCommit) = (start, commit)) (other : n ≠ Op.prefixEvict)
    (asleep : wakes f.word = false) {t u : State} {g : Flight} {st r0 r1 : Nat} {outs : List (Nat × List Byte)}
    (go : ∀ x, start (begun s c) c x (begunFlight s c f) = request t c.ref) (cleared : Cleared t c.ref g) (word : g.word = f.word)
    (point : ∀ x, commit (requestedIn t c) c.ref x { g with stage := .requested } = .done u st r0 r1 outs)
    (there : (u.flight c.ref).isSome) :
    runCommand (fun w => cOpcode w = n) start commitCmd c s = committed u c.ref f st r0 r1 outs := by
  refine R.runCommand_asks op entry other go cleared word (fun x => ?_) there
  rw [rewake_of_not_wakes _ _ _ (by rw [word]; exact asleep)]
  exact point x

end Ready

end Sys2Proof.Machine
end

section
/-! THEOREM. The commands nop, fence, event_post, signal and wait (R58, R230, R231). -/

namespace Sys2Proof.Machine

open Sys2Proof

theorem flight_setCounter_isSome {s : State} {c : CmdRef} (h : (s.flight c).isSome) (k : Nat) (v : BitVec 64) :
    ((setCounter s c.part k v).flight c).isSome := by
  unfold setCounter
  rw [flight_checkWaits, Option.isSome_map, State.flight_of_slots (s := s) c (by rw [State.part_onPart])]
  exact h

/-- The value of its counter that a signal leaves (R231). -/
def signalled (x : Part) (w : List Byte) : BitVec 64 :=
  if bit (field w 0x11 1) 0 then BitVec.ofNat 64 (cValue w) else x.counter (cCtr w) + BitVec.ofNat 64 (cValue w)

section Fence

variable {s : State} {c : CmdStep} {f : Flight} (R : Ready s c f)
include R

theorem nop_commits (op : cOpcode f.word = Op.nop) :
    exec (.nop c) s = .next (committed (requestedIn (begun s c) c) c.ref f St.success 0 0 []) :=
  congrArg Host.Outcome.next (R.runCommand_asks_asleep op rfl (by decide) (by rw [wakes, op]; rfl) (fun _ => rfl) R.cleared rfl (fun _ => rfl)
    R.cleared.requested.there)

theorem fence_commits (op : cOpcode f.word = Op.fence) :
    exec (.fence c) s = .next (committed (requestedIn (begun s c) c) c.ref f St.success 0 0 []) :=
  congrArg Host.Outcome.next (R.runCommand_asks_asleep op rfl (by decide) (by rw [wakes, op]; rfl) (fun _ => rfl) R.cleared rfl (fun _ => rfl)
    R.cleared.requested.there)

theorem eventPost_commits (op : cOpcode f.word = Op.eventPost) :
    exec (.eventPost c) s = .next (committed (requestedIn (begun s c) c) c.ref f St.success (field f.word 0x10 4) (field f.word 0x14 4) []) :=
  congrArg Host.Outcome.next (R.runCommand_asks_asleep op rfl (by decide) (by rw [wakes, op]; rfl) (fun _ => rfl) R.cleared rfl (fun _ => rfl)
    R.cleared.requested.there)

theorem signal_commits (op : cOpcode f.word = Op.signal) :
    let v := signalled (s.part c.ref.part) f.word
    let shown := if cSignal f.word && cSigCtr f.word = cCtr f.word then v + BitVec.ofNat 64 (cSigInc f.word) else v
    exec (.signal c) s = .next (committed (setCounter (requestedIn (begun s c) c) c.ref.part (cCtr f.word) v) c.ref f St.success
      (shown.toNat % 2 ^ 32) (shown.toNat / 2 ^ 32) []) := by
  intro v shown
  have count := part_requestedIn (fun x => x.counter (cCtr f.word)) (fun _ _ => rfl) s c
  refine congrArg Host.Outcome.next (R.runCommand_asks_asleep op rfl (by decide) (by rw [wakes, op]; rfl) (fun _ => rfl) R.cleared rfl (fun x => ?point)
    (flight_setCounter_isSome R.cleared.requested.there _ _))
  simp only [commitSignal, begunFlight_word, count]
  rfl

/-- A wait whose counter has reached the value, or whose timeout is 0, commits with the counter's value (R58). -/
theorem wait_ends (op : cOpcode f.word = Op.wait) (late : Bool) (v : Nat)
    (go : ∀ x, startWait (begun s c) c x (begunFlight s c f) = request (setPlan (begun s c) c.ref (.waitEnd late v)) c.ref) :
    exec (.wait c) s = .next (committed (requestedIn (setPlan (begun s c) c.ref (.waitEnd late v)) c) c.ref f
      (if late then St.timeout else St.success) (v % 2 ^ 32) (v / 2 ^ 32) []) :=
  have planned := R.cleared.planned (.waitEnd late v)
  congrArg Host.Outcome.next (R.runCommand_asks_asleep op rfl (by decide) (by rw [wakes, op]; rfl) go planned rfl (fun _ => rfl) planned.requested.there)

/-- A command whose start leaves it waiting has not asked for its commit. -/
theorem Ready.runCommand_waits {isRow : List Byte → Bool} {start : State → CmdStep → Slot → Flight → Start} {w : Wait} (row : isRow f.word = true)
    (go : ∀ x, start (begun s c) c x (begunFlight s c f) = .go (setStage (begun s c) c.ref (.waiting w))) :
    runCommand isRow start commitCmd c s = setStage (begun s c) c.ref (.waiting w) := by
  have flight := (R.cleared.onFlight (k := fun f => { f with stage := .waiting w }) (fun _ => rfl) fun _ => rfl).flight
  rw [R.runCommand_go row go]
  simp only [commitCmd, commitWith, setStage, flight]

theorem wait_commits_or_waits (op : cOpcode f.word = Op.wait) (limit : cTimeout f.word ≤ 4000000) :
    let b := begun s c
    let v := ((s.part c.ref.part).counter (cCtr f.word)).toNat
    let q := fun late : Bool => requestedIn (setPlan b c.ref (.waitEnd late v)) c
    exec (.wait c) s = .next (
      if cValue f.word ≤ v then committed (q false) c.ref f St.success (v % 2 ^ 32) (v / 2 ^ 32) []
      else if cTimeout f.word = 0 then committed (q true) c.ref f St.timeout (v % 2 ^ 32) (v / 2 ^ 32) []
      else setStage b c.ref (.waiting .counter)) := by
  intro b v q
  have count : ((b.part c.ref.part).counter (cCtr f.word)).toNat = v :=
    congrArg BitVec.toNat (part_begun (fun x => x.counter (cCtr f.word)) (fun _ _ => rfl) s c)
  have start (x : Slot) : startWait b c x (begunFlight s c f) = if cValue f.word ≤ v then request (setPlan b c.ref (.waitEnd false v)) c.ref
      else if cTimeout f.word = 0 then request (setPlan b c.ref (.waitEnd true v)) c.ref else .go (setStage b c.ref (.waiting .counter)) := by
    simp only [startWait, begunFlight_word, count, Nat.not_lt.2 limit, if_false]
  by_cases reached : cValue f.word ≤ v
  · rw [if_pos reached]
    exact wait_ends R op false v fun x => by rw [start, if_pos reached]
  · rw [if_neg reached]
    by_cases zero : cTimeout f.word = 0
    · rw [if_pos zero]
      exact wait_ends R op true v fun x => by rw [start, if_neg reached, if_pos zero]
    · rw [if_neg zero]
      exact congrArg Host.Outcome.next (R.runCommand_waits (decide_eq_true op) fun x => by rw [start, if_neg reached, if_neg zero])

end Fence

/-- Settles O18: each row by its own lemma, wait by whether its counter has reached the value and whether its timeout is 0. -/
theorem fenceCommands : Obligations.FenceCommands := by
  unfold Obligations.FenceCommands
  exact fun s c f R => ⟨nop_commits R, fence_commits R, eventPost_commits R, signal_commits R, wait_commits_or_waits R⟩

end Sys2Proof.Machine
end

section
/-! THEOREM. BARRIER and the control class: which commands of a slot do not start yet (R54). -/

namespace Sys2Proof.Machine

open Sys2Proof

/-- Each row of a command is the start of the command, and its commit stage. -/
theorem exec_commandRow {row : CmdStep → Instr} (h : row ∈ commandRows) :
    ∃ isRow start, ∀ c s, exec (row c) s = .next (runCommand isRow start commitCmd c s) := by
  fin_cases h <;> exact ⟨_, _, fun _ _ => rfl⟩

section Barrier

variable {s : State} {c : CmdStep} {f : Flight}

/-- A command that may not start stays as it is, whatever row is queued. -/
theorem exec_of_not_mayStart (flight : s.flight c.ref = some f) (held : mayStart s c.ref f = false) {row : CmdStep → Instr}
    (h : row ∈ commandRows) : exec (row c) s = .next s := by
  obtain ⟨isRow, start, same⟩ := exec_commandRow h
  simp [same, runCommand, flight, held]

theorem needsAlone_of_barrier {w : List Byte} (h : cBarrier w = true ∨ isControl (cOpcode w) = true) : needsAlone w = true := by
  rcases h with h | h <;> simp [needsAlone, h]

theorem mayStart_of_barrier (barrier : needsAlone f.word = true)
    (waits : (s.slot c.ref.part c.ref.slot).earlier f ≠ [] ∨ (s.slot c.ref.part c.ref.slot).noGap f = false) : mayStart s c.ref f = false := by
  rcases waits with h | h <;> simp [mayStart, barrier, h]

theorem mayStart_of_earlier_control
    (h : ((s.slot c.ref.part c.ref.slot).earlier f).any (fun g => isControl (cOpcode g.word)) = true) : mayStart s c.ref f = false := by
  obtain ⟨g, here, control⟩ := List.any_eq_true.1 h
  have held : ((s.slot c.ref.part c.ref.slot).earlier f).all (fun g => !holdsBack g.word) = false :=
    List.all_eq_false.2 ⟨g, here, by simp [holdsBack, control]⟩
  simp [mayStart, held]

end Barrier

/-- Settles O28: an earlier command or a gap before it holds a BARRIER back, an earlier command of the control class every command, and with
neither the conditions of a start are those of any command. -/
theorem barrierHoldsBack : Obligations.BarrierHoldsBack := by
  unfold Obligations.BarrierHoldsBack
  intro s c f flight x barrier
  refine ⟨fun needs waits row h => ?_, fun control row h => ?_, fun _ first noGap ready live open' runs enabled fetched => ?_⟩
  · exact exec_of_not_mayStart flight (mayStart_of_barrier (needsAlone_of_barrier needs) waits) h
  · exact exec_of_not_mayStart flight (mayStart_of_earlier_control control) h
  · simp only [x] at first noGap open' runs
    simp [mayStart, first, noGap, ready, live, open', runs, enabled, fetched]

end Sys2Proof.Machine
end

section
/-! THEOREM. The fetch window of a slot: how HEAD and DONE_MASK move, and what a slot fetches (R40 to R42). -/

namespace Sys2Proof.Machine

open Sys2Proof

/-- HEAD and DONE_MASK after k entries in front of a slot's window. -/
def Slot.movedBy (x : Slot) (k : Nat) : Slot := { x with head := (x.head + k) % x.size, doneMask := x.doneMask >>> k }

theorem Slot.movedBy_zero {x : Slot} (inside : x.head < x.size) : x.movedBy 0 = x := by
  simp [Slot.movedBy, Nat.mod_eq_of_lt inside]

theorem Slot.movedBy_movedBy (x : Slot) (j k : Nat) : (x.movedBy j).movedBy k = x.movedBy (j + k) := by
  simp [Slot.movedBy, Slot.size, Nat.add_assoc, BitVec.shiftRight_add]

/-- HEAD moves over the marked entries in front of it, at most n of them, and stops early only at one that is not marked. -/
theorem Slot.advance_eq (n : Nat) (x : Slot) (inside : x.head < x.size) :
    ∃ k ≤ n, Slot.advance n x = x.movedBy k ∧ (∀ j < k, x.doneMask.getLsbD j = true) ∧ (k < n → x.doneMask.getLsbD k = false) := by
  induction n generalizing x with
  | zero => exact ⟨0, Nat.le_refl 0, (Slot.movedBy_zero inside).symm, fun j hj => absurd hj (by omega), fun h => absurd h (by omega)⟩
  | succ n ih =>
    unfold Slot.advance
    split
    next marked =>
      have size : 0 < x.size := by omega
      obtain ⟨k, hk, moved, before, last⟩ := ih (x.movedBy 1) (Nat.mod_lt _ size)
      refine ⟨k + 1, by omega, ?_, fun j hj => ?_, fun h => ?_⟩
      · exact moved.trans ((x.movedBy_movedBy 1 k).trans (by rw [Nat.add_comm]))
      · cases j with
        | zero => exact marked
        | succ j =>
          have := before j (by omega)
          simpa [Slot.movedBy, Nat.add_comm 1 j] using this
      · have := last (by omega)
        simpa [Slot.movedBy, Nat.add_comm 1 k] using this
    next unmarked =>
      exact ⟨0, Nat.zero_le _, (Slot.movedBy_zero inside).symm, fun j hj => absurd hj (by omega), fun _ => by simpa using unmarked⟩

theorem Slot.markDone_eq (x : Slot) (i : Nat) (inside : x.head < x.size) :
    let m := x.doneMask ||| (1 : BitVec 64) <<< x.offset i
    ∃ k ≤ 64, x.markDone i = { x with head := (x.head + k) % x.size, doneMask := m >>> k } ∧
      (∀ j < k, m.getLsbD j = true) ∧ (m >>> k).getLsbD 0 = false := by
  intro m
  obtain ⟨k, hk, moved, before, last⟩ := Slot.advance_eq 65 { x with doneMask := m } inside
  have within : k ≤ 64 := by
    by_contra beyond
    have marked : m.getLsbD 64 = true := before 64 (by omega)
    simp at marked
  exact ⟨k, within, moved, before, by simpa using last (by omega)⟩

/-- The next entries to fetch lie in the window, and none of them is marked. -/
theorem mem_nextFetch {s : State} {p i n j : Nat} (h : j ∈ nextFetch s p i n) :
    ∃ k < 64, j = ((s.slot p i).head + k) % (s.slot p i).size ∧ (s.slot p i).doneMask.getLsbD k = false := by
  obtain ⟨k, hk, rfl⟩ := List.mem_map.1 h
  have taken := List.mem_of_mem_take hk
  have want := List.mem_takeWhile_imp taken
  have inRange := (List.dropWhile_sublist _).mem ((List.takeWhile_sublist _).mem taken)
  simp only [Bool.and_eq_true, Bool.not_eq_true'] at want
  obtain ⟨⟨⟨_, unmarked⟩, _⟩, _⟩ := want
  exact ⟨k, List.mem_range.1 inRange, rfl, unmarked⟩

/-- Settles O30: HEAD by induction on how far it may move, the entries fetched by what the slot wants. -/
theorem doneMaskWindow : Obligations.DoneMaskWindow := by
  unfold Obligations.DoneMaskWindow
  refine ⟨fun x i _ inside => x.markDone_eq i inside, fun s p i n => ⟨?_, fun j hj => mem_nextFetch hj⟩⟩
  unfold nextFetch
  rw [List.length_map]
  exact List.length_take_le _ _

end Sys2Proof.Machine
end

section
/-! THEOREM. COMMAND_FETCH and DIGEST_COMPLETE (R41, R101, R111, R369, R370). -/

namespace Sys2Proof.Machine

open Sys2Proof

/-! ### A slot fetches -/

section Fetch

variable {s : State} {p i n : Nat} (fetches : s.fetches p i = true) (up : s.hostUp = true) (some_entry : nextFetch s p i n ≠ [])
  (tag : tagFree s p = true)
include fetches up some_entry tag

theorem commandFetch_delivers (green : (meterRead s p (64 * (nextFetch s p i n).length) (s.slot p i).snare).1 ≠ .red) :
    commandFetch p i n false s =
      deliverFetch (meterRead s p (64 * (nextFetch s p i n).length) (s.slot p i).snare).2 p i (nextFetch s p i n) := by
  simp [commandFetch, fetches, up, some_entry, tag, green]

theorem commandFetch_waits {defer : Bool} :
    let l := nextFetch s p i n
    let m := meterRead s p (64 * l.length) (s.slot p i).snare
    (defer = true ∨ m.1 = .red) → commandFetch p i n defer s =
      { m.2 with
        reads := Map.put m.2.reads m.2.nextRead ⟨p, .fetch i l, (s.slot p i).base + 64 * l.headD 0, 64 * l.length, false, m.1 = .red, none, []⟩
        nextRead := m.2.nextRead + 1 } := by
  intro l m waits
  have outstanding : (defer || decide (m.1 = .red)) = true := by simpa using waits
  have asks : (!s.fetches p i || !s.hostUp || decide (l = []) || !tagFree s p) = false := by simp [fetches, up, tag, l, some_entry]
  simp only [commandFetch, asks, l, m, Bool.false_eq_true, if_false]
  exact if_pos outstanding

end Fetch

/-! ### A core ends a digest -/

section Digest

variable {s : State} {core : Nat} {h : Chain} {f : Flight} (held : Map.look s.sched.cores core = some h) (flight : s.flight h.ref = some f)
include held flight

theorem digestComplete_publish (op : cOpcode f.word = Op.prefixPublish) :
    digestComplete core s =
      (if h.hMax ≤ h.k + 1 then publishDone s h.ref f.word else chainOn s { h with k := h.k + 1 }).onSched fun d => grantCore d core := by
  simp only [digestComplete, held, flight, Option.map_some, Option.getD_some, op, if_true]

theorem digestComplete_lookup (op : cOpcode f.word ≠ Op.prefixPublish) :
    let r := lookupOne s h.ref h.model h.k h.prev h.tokens
    digestComplete core s =
      (if r.2.2 && !decide (h.hMax ≤ h.k + 1) then chainOn r.1 { h with k := h.k + 1, prev := r.2.1 } else lookupDone r.1 h.ref).onSched
        fun d => grantCore d core := by
  simp only [digestComplete, held, flight, Option.map_some, Option.getD_some, op, if_false]

end Digest

/-- Settles O31: a fetch by whether its read completes at once, a digest by the kind of its chain and whether it was the last. -/
theorem fetchAndDigestRows : Obligations.FetchAndDigestRows := by
  unfold Obligations.FetchAndDigestRows
  refine ⟨fun s p i n defer fetches up some_entry tag => ⟨fun now green => ?_, fun waits => ?_⟩, fun s core h f held flight =>
    ⟨fun op more => ?_, fun op last => ?_, fun op => ⟨fun found more => ?_, fun ends => ?_⟩⟩⟩
  · subst now
    exact congrArg Host.Outcome.next (commandFetch_delivers fetches up some_entry tag green)
  · exact congrArg Host.Outcome.next (commandFetch_waits fetches up some_entry tag waits)
  · exact congrArg Host.Outcome.next ((digestComplete_publish held flight op).trans (by rw [if_neg (by omega)]))
  · exact congrArg Host.Outcome.next ((digestComplete_publish held flight op).trans (by rw [if_pos last]))
  · exact congrArg Host.Outcome.next ((digestComplete_lookup held flight op).trans (by rw [if_pos (by simp [found, more])]))
  · exact congrArg Host.Outcome.next ((digestComplete_lookup held flight op).trans (by rw [if_neg (by rcases ends with e | e <;> simp [e])]))

end Sys2Proof.Machine
end

section
/-! THEOREM. Commands and elements that wait go on (R58, R89, R95, R156, R171, R183). -/

namespace Sys2Proof.Machine

open Sys2Proof

/-! ### The timeout of a wait -/

theorem waitTimeout_commits {s : State} {c : CmdRef} {f : Flight} (flight : s.flight c = some f) (waits : f.stage = .waiting .counter)
    (op : cOpcode f.word = Op.wait) (unnamed : f.seqs = []) (room : (s.eq c.part (s.slot c.part c.slot).eq).stuck = false) :
    let v := ((s.part c.part).counter (cCtr f.word)).toNat
    let t := setStage (setPlan s c (.waitEnd true v)) c .requested
    waitTimeout c s = committed t c { f with plan := .waitEnd true v, stage := .requested } St.timeout (v % 2 ^ 32) (v / 2 ^ 32) [] := by
  intro v t
  have clear : Cleared s c f := ⟨flight, by simp [commitBlocked, unnamed], room⟩
  have asked : Cleared t c { f with plan := .waitEnd true v, stage := .requested } :=
    (clear.planned (.waitEnd true v)).onFlight (k := fun f => { f with stage := .requested }) (fun _ => rfl) fun _ => rfl
  have asleep : wakes f.word = false := by
    rw [wakes, op]
    rfl
  have point : commitOp (rewake t c { f with plan := .waitEnd true v, stage := .requested }) c (t.slot c.part c.slot)
      { f with plan := .waitEnd true v, stage := .requested } = .done t St.timeout (v % 2 ^ 32) (v / 2 ^ 32) [] := by
    rw [rewake_of_not_wakes t c { f with plan := .waitEnd true v, stage := .requested } asleep]
    exact commitOp_of_entry (start := startWait) (commit := commitWait) op rfl (by decide)
  simp only [waitTimeout, flight, waits, if_true]
  exact asked.commitCmd_eq rfl point rfl asked.there

/-! ### A waiting command takes its start again -/

section Resume

variable {s : State} {c : CmdStep} {f : Flight} (flight : s.flight c.ref = some f)
include flight

theorem resumeCommand_goes {w : Wait → Bool} {start : State → CmdStep → Slot → Flight → Start} {r : Wait} (stage : f.stage = .waiting r)
    (mine : w r = true) {u : State} (go : start s { c with defer := true } (s.slot c.ref.part c.ref.slot) f = .go u) :
    resumeCommand w start commitCmd { c with defer := true } s = u := by
  simp [resumeCommand, flight, stage, mine, go]

variable (now : c.defer = false)
include now

theorem allocationResume_command {r : Wait} (stage : f.stage = .waiting r) (mine : isAllocWait r = true) {u : State}
    (go : startOp f.word s { c with defer := true } (s.slot c.ref.part c.ref.slot) f = .go u) :
    allocationResume c s = commitCmd c.ref (noteCause u c.ref) := by
  have other : f.stage ≠ .waiting .units := by
    rw [stage]
    rintro ⟨⟩
    cases mine
  simp only [allocationResume, flight, other, if_false, resumeCommand_goes flight stage mine go, now, Bool.false_eq_true]

theorem allocationResume_elements (stage : f.stage = .waiting .units) :
    allocationResume c s =
      commitCmd c.ref (noteCause ((elemsIn isAllocPhase f).foldl (fun s k => advanceElem s { c with defer := true } k) s) c.ref) := by
  simp only [allocationResume, flight, stage, if_true, resumeElems, now, Bool.false_eq_true, if_false]

theorem hotEntryResume_command {v : Nat} (stage : f.stage = .waiting (.hotEntry v)) {u : State}
    (go : startOp f.word s { c with defer := true } (s.slot c.ref.part c.ref.slot) f = .go u) :
    hotEntryResume c s = commitCmd c.ref (noteCause u c.ref) := by
  have other : f.stage ≠ .waiting .units := by
    rw [stage]
    simp
  simp only [hotEntryResume, flight, other, if_false, resumeCommand_goes flight stage (w := isHotWait) rfl go, now, Bool.false_eq_true]

theorem hotEntryResume_elements (stage : f.stage = .waiting .units) :
    hotEntryResume c s =
      commitCmd c.ref (noteCause ((elemsIn isHotPhase f).foldl (fun s k => advanceElem s { c with defer := true } k) s) c.ref) := by
  simp only [hotEntryResume, flight, stage, if_true, resumeElems, now, Bool.false_eq_true, if_false]

end Resume

/-! ### An element goes on -/

section Element

variable {s : State} {c : CmdRef} {k : Nat} {e : Elem} (elem : elemOf s c k = some e)
include elem

theorem hotPhase_of_not_hot (other : ∀ v, e.phase ≠ .hot v) (bad : List (Nat × Nat)) : hotPhase s ⟨c, bad, true, []⟩ k = s := by
  unfold hotPhase
  rw [elem]
  dsimp only
  split
  next v hot => exact absurd hot (other v)
  · rfl

theorem allocPhase_of_not_alloc (other : e.phase ≠ .alloc) : allocPhase s c k = s := by
  unfold allocPhase
  rw [elem]
  cases s.flight c <;> simp [other]

/-- An element whose extent has committed goes to its dispatch (R171). -/
theorem extentPhase_of_committed (phase : e.phase = .extent) {q : Seq} (seq : elemSeq s c e = some q) (done : e.extent ≤ q.lenOf (cLayer (wordOf s c))) :
    extentPhase s c k = setElem s c k fun e => { e with phase := .space } := by
  simp [extentPhase, elem, phase, seq, Nat.not_lt.2 done]

theorem extentPhase_of_not_extent (other : e.phase ≠ .extent) : extentPhase s c k = s := by
  simp [extentPhase, elem, other]

theorem elementRelease_goes_on (phase : e.phase = .extent) {q : Seq} (seq : elemSeq s c e = some q) (done : e.extent ≤ q.lenOf (cLayer (wordOf s c))) :
    elementRelease c k s = settleCommand (spacePhase (setElem s c k fun e => { e with phase := .space }) c k) c := by
  simp only [elementRelease, elem, phase, if_true, moveOn, advanceElem]
  rw [hotPhase_of_not_hot elem (by simp [phase]), allocPhase_of_not_alloc elem (by simp [phase]), extentPhase_of_committed elem phase seq done]

theorem mergeSpaceEnd_goes_on (phase : e.phase = .space) : mergeSpaceEnd c k s = settleCommand (spacePhase s c k) c := by
  simp only [mergeSpaceEnd, elem, phase, if_true, moveOn, advanceElem]
  rw [hotPhase_of_not_hot elem (by simp [phase]), allocPhase_of_not_alloc elem (by simp [phase]), extentPhase_of_not_extent elem (by simp [phase])]

end Element

/-- Settles O32: each row by its own lemmas. -/
theorem waitingCommandsGoOn : Obligations.WaitingCommandsGoOn := by
  unfold Obligations.WaitingCommandsGoOn
  refine ⟨fun s c f flight waits op unnamed room => congrArg Host.Outcome.next (waitTimeout_commits flight waits op unnamed room),
    fun s c f flight now => ⟨fun waits u go => ?_, fun waits => ?_, fun v waits u go => ?_, fun waits => ?_⟩,
    fun s c k e elem => ⟨fun phase q seq done => ?_, fun phase => ?_⟩⟩
  · obtain stage | stage | stage := waits <;>
      exact congrArg Host.Outcome.next (allocationResume_command flight now stage rfl go)
  · exact congrArg Host.Outcome.next (allocationResume_elements flight now waits)
  · exact congrArg Host.Outcome.next (hotEntryResume_command flight now waits go)
  · exact congrArg Host.Outcome.next (hotEntryResume_elements flight now waits)
  · exact congrArg Host.Outcome.next (elementRelease_goes_on elem phase seq done)
  · exact congrArg Host.Outcome.next (mergeSpaceEnd_goes_on elem phase)

end Sys2Proof.Machine
end

section
/-! THEOREM. The doorbells of a slot, and the registers of the control ring (R44, R45, R247, R358). -/

namespace Sys2Proof.Machine

open Sys2Proof

/-- Two updates of a slot that agree on what it holds are one. -/
theorem State.onSlot_congr {s : State} {p i : Nat} {f g : Slot → Slot} (h : f (s.slot p i) = g (s.slot p i)) : s.onSlot p i f = s.onSlot p i g := by
  unfold State.slot at h
  simp only [State.onSlot, State.onPart, Part.onSlot, h]

section Writes

variable {s : State} {p : Nat} (reached : s.reaches p = true)
include reached

section Bell

variable {i : Nat} (inside : i < 64)
include inside

theorem sqDoorbell_moves {v : Nat} (bell : s.bellOpen p i = true) (forward : (s.slot p i).bellForward (v % 65536) = true) :
    sqDoorbell p i 0 4 v s = s.onSlot p i fun y => { y with tail := v % 65536 } := by
  simp [sqDoorbell, reached, Nat.not_le.2 inside, bell, forward]

theorem sqDoorbell_drops {off size v : Nat}
    (bad : off ≠ 0 ∨ size ≠ 4 ∨ s.bellOpen p i = false ∨ (s.slot p i).bellForward (v % 65536) = false) :
    sqDoorbell p i off size v s = dropDoorbell s p i := by
  have refused : (off = 0 && size = 4 && s.bellOpen p i && (s.slot p i).bellForward (v % 65536)) = false := by
    rcases bad with h | h | h | h <;> simp [h]
  simp [sqDoorbell, reached, Nat.not_le.2 inside, refused]

theorem inlineDoorbell_enters {d : List Byte} (whole : d.length = 64) (bell : s.bellOpen p i = true)
    (room : ((s.slot p i).tail + 1) % (s.slot p i).size ≠ (s.slot p i).head) :
    let x := s.slot p i
    let t := pcieIn (s.onSlot p i fun y => { y with tail := (x.tail + 1) % x.size }) p 64
    inlineDoorbell p i 0x40 d s = if s.fetches p i && x.offset x.tail < 64 then enterWindow t p i x.tail d .fetched else t := by
  simp [inlineDoorbell, reached, Nat.not_le.2 inside, whole, bell, room]

theorem inlineDoorbell_drops {off : Nat} {d : List Byte}
    (bad : off ≠ 0x40 ∨ d.length ≠ 64 ∨ s.bellOpen p i = false ∨ ((s.slot p i).tail + 1) % (s.slot p i).size = (s.slot p i).head) :
    inlineDoorbell p i off d s = dropDoorbell s p i := by
  have refused : (off = 0x40 && d.length = 64 && s.bellOpen p i && ((s.slot p i).tail + 1) % (s.slot p i).size ≠ (s.slot p i).head) = false := by
    rcases bad with h | h | h | h <;> simp [h]
  simp only [inlineDoorbell, reached, Nat.not_le.2 inside, refused]
  simp

end Bell

theorem csqEnable_configures {v : Nat} (on : bit v 31 = true) : csqEnable p v s = csqCfg s p v := by
  simp [csqEnable, reached, on]

theorem csqDisable_stops {v : Nat} (on : (s.slot p 0).csqEn = true) (clear : bit v 31 = false) :
    csqDisable p v s = (stopSlot (s.onSlot p 0 fun x => { x with csqEn := false }) p 0).1 := by
  simp [csqDisable, reached, on, clear, csqCfg]

theorem csqRingConfig_base {v : Nat} (off : (s.slot p 0).csqEn = false) (empty : (s.slot p 0).ringEmpty = true) :
    csqRingConfig p true v s = s.onSlot p 0 fun x => { x with base := v % 2 ^ 64 / 4096 * 4096, head := 0, tail := 0 } := by
  simp only [csqRingConfig, reached, off]
  exact State.onSlot_congr (if_pos empty)

theorem csqRingConfig_size {v : Nat} (off : (s.slot p 0).csqEn = false) (clear : bit v 31 = false) : csqRingConfig p false v s = csqCfg s p v := by
  simp [csqRingConfig, reached, off, clear]

end Writes

theorem csqRingConfig_enabled {s : State} {p : Nat} {b : Bool} {v : Nat} (on : (s.slot p 0).csqEn = true) : csqRingConfig p b v s = s := by
  simp [csqRingConfig, on]

section Config

variable {s : State} {p v : Nat} (off : (s.slot p 0).csqEn = false)
include off

/-- The fields of a write of the control ring's configuration while it is disabled: on an empty ring the size and with it HEAD and TAIL. -/
def Slot.configured (x : Slot) (v : Nat) : Slot :=
  if x.ringEmpty then { x with eq := bits v 8 4, entriesLog2 := bits v 0 5, head := 0, tail := 0 } else { x with eq := bits v 8 4 }

theorem csqCfg_eq : csqCfg s p v = s.onSlot p 0 fun x =>
    if bit v 31 && 6 ≤ (x.configured v).entriesLog2 && (x.configured v).entriesLog2 ≤ 12 then
      { x.configured v with csqEn := true, dbDrop := if (x.configured v).draining then (x.configured v).dbDrop else 0 }
    else x.configured v := by
  simp only [csqCfg, off, Bool.false_eq_true, if_false]
  rfl

theorem csqCfg_enables (on : bit v 31 = true) (runs : ((s.slot p 0).configured v).draining = false)
    (least : 6 ≤ ((s.slot p 0).configured v).entriesLog2) (most : ((s.slot p 0).configured v).entriesLog2 ≤ 12) :
    csqCfg s p v = s.onSlot p 0 fun x => { x.configured v with csqEn := true, dbDrop := 0 } := by
  rw [csqCfg_eq off]
  exact State.onSlot_congr (by simp [on, least, most, runs])

theorem csqCfg_clear (clear : bit v 31 = false) : csqCfg s p v = s.onSlot p 0 fun x => x.configured v := by
  rw [csqCfg_eq off]
  exact State.onSlot_congr (by simp [clear])

end Config

theorem Slot.configured_of_empty {x : Slot} (h : x.ringEmpty = true) (v : Nat) :
    x.configured v = { x with eq := bits v 8 4, entriesLog2 := bits v 0 5, head := 0, tail := 0 } := if_pos h

theorem Slot.configured_of_not_empty {x : Slot} (h : x.ringEmpty = false) (v : Nat) : x.configured v = { x with eq := bits v 8 4 } :=
  if_neg (by simp [h])

/-- Settles O38: each write by its own lemma, as a host access that acts at once. -/
theorem slotRegisterWrites : Obligations.SlotRegisterWrites := by
  unfold Obligations.SlotRegisterWrites
  intro s p reached
  have awake := linkAsleep_of_reaches_part reached
  refine ⟨fun i inside => ⟨fun v bell forward => ?_, fun off size v bad => ?_, fun d whole bell room => ?_, fun off d bad => ?_⟩,
    fun v off on runs => ⟨fun empty least most => ?_, fun some_entry least most => ?_⟩, fun v on clear => ?_, fun v off empty => ⟨?_, fun clear => ?_⟩,
    fun b v on => ?_⟩
  · exact exec_access rfl awake (sqDoorbell_moves reached inside bell forward)
  · exact exec_access rfl awake (sqDoorbell_drops reached inside bad)
  · exact exec_access rfl awake (inlineDoorbell_enters reached inside whole bell room)
  · exact exec_access rfl awake (inlineDoorbell_drops reached inside bad)
  · have fields := Slot.configured_of_empty empty v
    refine exec_access rfl awake ((csqEnable_configures reached on).trans ((csqCfg_enables off on ?_ ?_ ?_).trans (State.onSlot_congr ?_))) <;>
      rw [fields]
    · exact runs
    · exact least
    · exact most
  · have fields := Slot.configured_of_not_empty some_entry v
    refine exec_access rfl awake ((csqEnable_configures reached on).trans ((csqCfg_enables off on ?_ ?_ ?_).trans (State.onSlot_congr ?_))) <;>
      rw [fields]
    · exact runs
    · exact least
    · exact most
  · exact exec_access rfl awake (csqDisable_stops reached on clear)
  · exact exec_access rfl awake (csqRingConfig_base reached off empty)
  · exact exec_access rfl awake ((csqRingConfig_size reached off clear).trans ((csqCfg_clear off clear).trans
      (State.onSlot_congr (Slot.configured_of_empty empty v))))
  · exact exec_access rfl awake (csqRingConfig_enabled on)

end Sys2Proof.Machine
end

section
/-! THEOREM. The starts of seq_fork and seq_trim (R94, R221). -/

namespace Sys2Proof.Machine

open Sys2Proof

/-- The tail pages of a sequence copied into these frames. -/
def copyTails (s : State) (p i : Nat) (m : Model) (tails : List ((Nat × Loc) × Nat)) : State :=
  tails.foldl (fun s e => newObject (touchObject s p (.tail i e.1.1) [(0, m.stagingBytes)]) p e.2 m.stagingFrames ((s.part p).bytesAt e.1.2)) s

/-- Where the page of a set is, in a layer. -/
def pageLoc (s : State) (p psn layer : Nat) : Loc :=
  match (s.part p).set psn with
  | some d => Map.get d.loc layer Loc.none
  | none => Loc.none

/-- The first t positions of the pages of a set decoded into these frames, one for each layer. -/
def decodePages (s : State) (p psn t : Nat) (m : Model) (fs : List Nat) : State :=
  fs.zipIdx.foldl
    (fun s a =>
      let l := pageLoc s p psn a.2
      let s := touchObject s p (.page psn a.2) (blockRanges m l.kind 0 m.kvHeads 0 t)
      newObject s p a.1 m.stagingFrames (decodeTail m l.kind ((s.part p).bytesAt l) t)) s

section Starts

variable {s : State} {c : CmdStep} {f : Flight} {q : Seq}

/-- With its room taken and its tail pages read, a fork asks for its commit (R94). -/
theorem forkRoom_requests {i : Nat} {m : Model} (seq : (s.part c.ref.part).seq i = some q) (hot : needHot s c.ref.part f = .free)
    (hm : m = (s.part c.ref.part).model q.model) {u v : State} {fs : List Nat}
    (room : allocWithTables c.ref.part q.homeQ (tableSlots q.pt.length) 0 (some i) (q.tails.map fun _ => m.stagingFrames) s = .got u fs)
    (read : cmdReads u c.ref.part c f.word q.homeQ (q.tails.map fun e => .tail i e.1) = .done v) (model : (u.part c.ref.part).model q.model = m) :
    let t := copyTails v c.ref.part i m (q.tails.zip fs)
    let t := setPlan t c.ref (.copy q.length (freshIndex (t.part c.ref.part) + 1) ((q.tails.zip fs).map fun e => (e.1.1, (⟨.page, 0, e.2⟩ : Loc))))
    forkRoom s c f i = request (t.onFlight c.ref fun f => { f with startLen := q.length, slots := tableSlots q.pt.length }) c.ref := by
  subst hm
  simp only [forkRoom, seq, hot, room, forkTails, read, model]
  rfl

theorem startSeqFork_awake {x : Slot} (handle : (s.part c.ref.part).handle (cHandle f.word) = some q) (closed : q.isOpen = false)
    (active : q.state = .active) : startSeqFork s c x f = forkRoom s c f (handleIndex (cHandle f.word)) := by
  simp only [startSeqFork, handle, closed, wakeThen_of_active (Part.seq_of_handle handle) active, Bool.false_eq_true, if_false]

theorem startSeqTrim_awake {x : Slot} (handle : (s.part c.ref.part).handle (cHandle f.word) = some q) (closed : q.isOpen = false)
    (active : q.state = .active) (short : cWord14 f.word ≤ q.length) :
    startSeqTrim s c x f = trimRoom s c f (handleIndex (cHandle f.word)) (cWord14 f.word) := by
  simp only [startSeqTrim, handle, closed, Nat.not_lt.2 short, wakeThen_of_active (Part.seq_of_handle handle) active, Bool.false_eq_true, if_false]

/-- A cut in the tail or between page sets needs no page (R94). -/
theorem trimRoom_between {i t : Nat} (seq : (s.part c.ref.part).seq i = some q) (cut : q.length / 256 ≤ t / 256 ∨ t % 256 = 0) :
    trimRoom s c f i t = request (setPlan (s.onFlight c.ref fun f => { f with startLen := q.length }) c.ref (.copy q.length 0 [])) c.ref := by
  simp only [trimRoom, seq]
  exact if_pos (by simpa using cut)

/-- A cut inside a page set decodes the positions kept into new tail pages (R94, R200). -/
theorem trimRoom_inside {i t : Nat} {b : State} {m : Model} (seq : (s.part c.ref.part).seq i = some q) (cut : t / 256 < q.length / 256)
    (inside : t % 256 ≠ 0) (hb : b = s.onFlight c.ref fun f => { f with startLen := q.length }) (hm : m = (b.part c.ref.part).model q.model)
    {e : PtEntry} (entry : q.pt[t / 256]? = some e) (inDram : segmentsOut (b.part c.ref.part) [e.psn] = []) {u v : State} {fs : List Nat}
    (room : allocAll c.ref.part q.homeQ (some i) (List.replicate m.layers m.stagingFrames) b = .got u fs)
    (model : (u.part c.ref.part).model q.model = m)
    (read : cmdReads u c.ref.part c f.word q.homeQ ((List.range m.layers).map fun l => .page e.psn l) = .done v) :
    trimRoom s c f i t = request (setPlan (decodePages (pinFor v c.ref [e.psn]) c.ref.part e.psn (t % 256) m fs) c.ref
      (.copy q.length 0 (fs.zipIdx.map fun a => (a.2, (⟨.page, 0, a.1⟩ : Loc))))) c.ref := by
  have needed : (decide (q.length / 256 ≤ t / 256) || decide (t % 256 = 0)) = false := by simp [Nat.not_le.2 cut, inside]
  subst hm
  simp only [trimRoom, seq, ← hb, needed, entry, waitSegments_eq_none inDram, room, trimPages, model, read, Bool.false_eq_true, if_false]
  rfl

end Starts

section Rows

variable {s : State} {c : CmdStep} {f : Flight} {q : Seq} (R : Ready s c f) (handle : (s.part c.ref.part).handle (cHandle f.word) = some q)
  (closed : q.isOpen = false) (active : q.state = .active)
include R handle closed active

theorem seqFork_asks (op : cOpcode f.word = Op.seqFork) (hot : takeHot (begun s c) c.ref.part = .free) {m : Model}
    (hm : m = ((begun s c).part c.ref.part).model q.model) {u v : State} {fs : List Nat}
    (room : allocWithTables c.ref.part q.homeQ (tableSlots q.pt.length) 0 (some (handleIndex (cHandle f.word))) (q.tails.map fun _ => m.stagingFrames)
      (begun s c) = .got u fs)
    (read : cmdReads u c.ref.part c f.word q.homeQ (q.tails.map fun e => .tail (handleIndex (cHandle f.word)) e.1) = .done v)
    (model : (u.part c.ref.part).model q.model = m) :
    let t := copyTails v c.ref.part (handleIndex (cHandle f.word)) m (q.tails.zip fs)
    let t := setPlan t c.ref (.copy q.length (freshIndex (t.part c.ref.part) + 1) ((q.tails.zip fs).map fun e => (e.1.1, (⟨.page, 0, e.2⟩ : Loc))))
    exec (.seqFork c) s = .next (commitCmd c.ref (requestedIn (t.onFlight c.ref fun f => { f with startLen := q.length, slots := tableSlots q.pt.length }) c)) := by
  intro t t'
  have found := (part_begun (fun x => x.handle (cHandle f.word)) (fun _ _ => rfl) s c).trans handle
  exact congrArg Host.Outcome.next (R.runCommand_go (decide_eq_true op) fun x => (startSeqFork_awake (f := begunFlight s c f) found closed active).trans
    (forkRoom_requests (Part.seq_of_handle found) ((needHot_begunFlight R).trans hot) hm room read model))

theorem seqTrim_asks_between (op : cOpcode f.word = Op.seqTrim) (short : cWord14 f.word ≤ q.length)
    (cut : q.length / 256 ≤ cWord14 f.word / 256 ∨ cWord14 f.word % 256 = 0) :
    exec (.seqTrim c) s = .next (commitCmd c.ref
      (requestedIn (setPlan ((begun s c).onFlight c.ref fun f => { f with startLen := q.length }) c.ref (.copy q.length 0 [])) c)) := by
  have found := (part_begun (fun x => x.handle (cHandle f.word)) (fun _ _ => rfl) s c).trans handle
  exact congrArg Host.Outcome.next (R.runCommand_go (decide_eq_true op) fun x =>
    (startSeqTrim_awake (f := begunFlight s c f) found closed active short).trans (trimRoom_between (Part.seq_of_handle found) cut))

theorem seqTrim_asks_inside (op : cOpcode f.word = Op.seqTrim) (cut : cWord14 f.word / 256 < q.length / 256) (inside : cWord14 f.word % 256 ≠ 0)
    {b : State} (hb : b = (begun s c).onFlight c.ref fun f => { f with startLen := q.length }) {m : Model} (hm : m = (b.part c.ref.part).model q.model)
    {e : PtEntry} (entry : q.pt[cWord14 f.word / 256]? = some e) (inDram : segmentsOut (b.part c.ref.part) [e.psn] = []) {u v : State} {fs : List Nat}
    (room : allocAll c.ref.part q.homeQ (some (handleIndex (cHandle f.word))) (List.replicate m.layers m.stagingFrames) b = .got u fs)
    (model : (u.part c.ref.part).model q.model = m)
    (read : cmdReads u c.ref.part c f.word q.homeQ ((List.range m.layers).map fun l => .page e.psn l) = .done v) :
    exec (.seqTrim c) s = .next (commitCmd c.ref (requestedIn
      (setPlan (decodePages (pinFor v c.ref [e.psn]) c.ref.part e.psn (cWord14 f.word % 256) m fs) c.ref
        (.copy q.length 0 (fs.zipIdx.map fun a => (a.2, (⟨.page, 0, a.1⟩ : Loc))))) c)) := by
  have found := (part_begun (fun x => x.handle (cHandle f.word)) (fun _ _ => rfl) s c).trans handle
  have short : cWord14 f.word ≤ q.length := by omega
  exact congrArg Host.Outcome.next (R.runCommand_go (decide_eq_true op) fun x => (startSeqTrim_awake (f := begunFlight s c f) found closed active short).trans
    (trimRoom_inside (Part.seq_of_handle found) cut inside hb hm entry inDram room model read))

end Rows

/-- Settles O24: each row by its own lemmas, seq_trim by where it cuts. -/
theorem sequenceCopyCommands : Obligations.SequenceCopyCommands := by
  unfold Obligations.SequenceCopyCommands
  refine fun s c f q R handle => ⟨fun op closed active hot => ?fork, fun op closed active short cut => ?between, fun op closed active cut inside => ?inside⟩
  case fork => exact fun u fs room v read model => seqFork_asks R handle closed active op hot rfl room read model
  case between => exact seqTrim_asks_between R handle closed active op short cut
  case inside =>
    exact fun e u fs v entry inDram room model read => seqTrim_asks_inside R handle closed active op cut inside rfl rfl entry inDram room model read

end Sys2Proof.Machine
end

section
/-! THEOREM. The commit unit (R33, R49, R53, R257, R259), and the commit points of seq_fork, seq_trim in the tail and kv_read (R94, R221, R224). -/

namespace Sys2Proof.Machine

open Sys2Proof

/-! ### What becomes of a request -/

theorem State.slot_onEq (s : State) (p q i : Nat) (g : EventQueue → EventQueue) : (s.onEq p q g).slot p i = s.slot p i := by
  unfold State.onEq
  split
  · rw [State.slot, State.part_onPart]
    rfl
  · rfl

theorem State.stopping_onEq (s : State) (c : CmdRef) (q : Nat) (g : EventQueue → EventQueue) : (s.onEq c.part q g).stopping c = s.stopping c := by
  rw [State.stopping, State.slot_onEq, State.func, State.onEq_funcs]
  rfl

section Unit

variable {s : State} {c : CmdRef} {f : Flight} (flight : s.flight c = some f)
include flight

/-- A command that a rejection has ended, and whose record has room, ends with it. -/
theorem commitCmd_rejected {st : Nat} (stage : f.stage = .rejected st) (room : (s.eq c.part (s.slot c.part c.slot).eq).stuck = false) :
    commitCmd c s = endRejected s c f st := by
  simp [commitCmd, commitWith, flight, stage, room]

variable (asks : f.stage = .requested ∨ f.stage = .held)
include asks

theorem commitCmd_blocked (blocked : commitBlocked (s.slot c.part c.slot) f = true) : commitCmd c s = s := by
  rcases asks with stage | stage <;> simp [commitCmd, commitWith, flight, stage, blocked]

variable (free : commitBlocked (s.slot c.part c.slot) f = false)
include free

/-- A command whose record has no room is held (R33). -/
theorem commitCmd_stuck (stuck : (s.eq c.part (s.slot c.part c.slot).eq).stuck = true) (on : (s.eq c.part (s.slot c.part c.slot).eq).en = true)
    (runs : s.stopping c = false) :
    commitCmd c s = setStage (s.onEq c.part (s.slot c.part c.slot).eq fun e => { e with ovfFull := true }) c .held := by
  have enabled : (s.func c.part).disable = none := by
    simp only [State.stopping, Bool.or_eq_false_iff] at runs
    obtain ⟨_, none⟩ := runs
    simpa using none
  have still : (s.onEq c.part (s.slot c.part c.slot).eq fun e => { e with ovfFull := true }).stopping c = false := by
    rw [State.stopping_onEq, runs]
  rcases asks with stage | stage <;> simp [commitCmd, commitWith, flight, stage, free, stuck, on, enabled, still]

variable (room : (s.eq c.part (s.slot c.part c.slot).eq).stuck = false)
include room

theorem commitCmd_commits {t : State} {st r0 r1 : Nat} {outs : List (Nat × List Byte)}
    (point : commitOp (rewake s c f) c (s.slot c.part c.slot) f = .done t st r0 r1 outs) : commitCmd c s = committed t c f st r0 r1 outs := by
  rcases asks with stage | stage <;> simp only [commitCmd, commitWith, flight, stage, free, room, point, committed, Bool.false_eq_true, if_false, Bool.false_and]

theorem commitCmd_kills {t : State} (point : commitOp (rewake s c f) c (s.slot c.part c.slot) f = .kill t) : commitCmd c s = killCommand t c := by
  rcases asks with stage | stage <;> simp [commitCmd, commitWith, flight, stage, free, room, point]

theorem commitCmd_rejects {t : State} {st : Nat} (point : commitOp (rewake s c f) c (s.slot c.part c.slot) f = .reject t st) :
    commitCmd c s = endRejected t c ((t.flight c).getD f) st := by
  rcases asks with stage | stage <;> simp [commitCmd, commitWith, flight, stage, free, room, point]

end Unit

/-- COMMIT_REQUEST of a request or of a held command, and HELD_COMMIT_RELEASE of a held one, are the commit unit's work on it (R49, R259). -/
theorem exec_commitUnit {s : State} {c : CmdRef} {f : Flight} (flight : s.flight c = some f) {row : CmdRef → Instr}
    (due : (row = Instr.commitRequest ∧ (f.stage = .requested ∨ f.stage = .held)) ∨ (row = Instr.heldCommitRelease ∧ f.stage = .held)) :
    (f.stage = .requested ∨ f.stage = .held) ∧ exec (row c) s = .next (commitCmd c s) := by
  obtain ⟨rfl, asks⟩ | ⟨rfl, held⟩ := due
  · exact ⟨asks, rfl⟩
  · have here : isHeld s c = true := by simp [isHeld, flight, held]
    exact ⟨.inr held, congrArg Host.Outcome.next (if_pos here)⟩

/-! ### Commit points -/

section Points

variable {s : State} {c : CmdRef} {f : Flight} {x : Slot} {q : Seq} (handle : (s.part c.part).handle (cHandle f.word) = some q)
include handle

theorem copyCheck_of_changed (closed : q.isOpen = false) (changed : q.length ≠ f.startLen) : copyCheck s c f = some (.kill s) := by
  simp [copyCheck, handle, closed, changed]

theorem copyCheck_of_same (closed : q.isOpen = false) (same : q.length = f.startLen) : copyCheck s c f = none := by
  simp [copyCheck, handle, closed, same]

theorem commitSeqFork_of_copy (closed : q.isOpen = false) (same : q.length = f.startLen) {n k : Nat} {tails : Map Loc}
    (plan : f.plan = .copy n (k + 1) tails) :
    let p := c.part
    let i := handleIndex (cHandle f.word)
    let child := { newSeq s p k q.model q.homeQ q.length (q.pt.map fun e => { e with shared := true }) with tails := tails, tokenTail := q.tokenTail }
    let t := putSeq (q.pt.foldl (fun s e => addRef s p e.psn) s) p k child
    let t := q.tails.foldl (fun s e => promoteTail s p i e.1) (useSeq t p i)
    commitSeqFork s c x f = .done (setPlan t c .none) St.success (child.handleOf k) q.length [] := by
  simp only [commitSeqFork, copyCheck_of_same handle closed same, handle, plan]
  rfl

theorem commitSeqTrim_of_tail (closed : q.isOpen = false) (same : q.length = f.startLen) (inTail : q.length / 256 ≤ cWord14 f.word / 256)
    (some_left : cWord14 f.word % 256 ≠ 0) (pins : f.pins = []) {n : Nat} {tails : Map Loc} (plan : f.plan = .copy n 0 tails)
    (all : q.pt.length ≤ cWord14 f.word / 256) :
    let p := c.part
    let i := handleIndex (cHandle f.word)
    let t := s.onSeq p i fun q =>
      { q with
        length := cWord14 f.word, reservedLen := cWord14 f.word, stepBase := cWord14 f.word, pt := q.pt.take (cWord14 f.word / 256)
        sharedSets := leadingShared (q.pt.take (cWord14 f.word / 256)), tokenTail := q.tokenTail.take (cWord14 f.word % 256), lastUse := s.nowS }
    commitSeqTrim s c x f = .done (setPlan (t.onPart p fun x => x.fitTables i) c .none) St.success (cWord14 f.word) 0 [] := by
  have none_removed : q.pt.drop (cWord14 f.word / 256) = [] := List.drop_of_length_le all
  simp [commitSeqTrim, copyCheck_of_same handle closed same, handle, plan, pins, inTail, some_left, none_removed]

theorem commitKvRead_of_bytes {b : List Byte} (plan : f.plan = .bytes b) (pins : f.pins = [])
    (stored : (field f.word 0x18 4 + field f.word 0x1C 4 - 1) / 256 ≠ q.lenOf (field f.word 0x14 1) / 256) :
    commitKvRead s c x f = .done (useSeq s c.part (handleIndex (cHandle f.word))) St.success b.length 0 [(field f.word 0x20 8, b)] := by
  simp [commitKvRead, handle, plan, pins, stored]

end Points

/-- A command that names one ACTIVE sequence and whose request is let through: its row's commit point decides. -/
theorem commitOp_of_active {s : State} {c : CmdRef} {f : Flight} {x : Slot} {q : Seq} (handle : (s.part c.part).handle (cHandle f.word) = some q)
    (active : q.state = .active) (names : f.seqs = [handleIndex (cHandle f.word)]) {n : Nat} {start : State → CmdStep → Slot → Flight → Start}
    {commit : State → CmdRef → Slot → Flight → Commit} (op : cOpcode f.word = n)
    (entry : Map.get opTable n (refuseStart, refuseCommit) = (start, commit)) (other : n ≠ Op.prefixEvict) :
    commitOp (rewake s c f) c x f = commit s c x f := by
  rw [rewake_of_active names (Part.seq_of_handle handle) active]
  exact commitOp_of_entry op entry other

/-- Settles O29: what becomes of a request by the cases of the commit unit, the commit points by their rows. -/
theorem commitUnit : Obligations.CommitUnit := by
  unfold Obligations.CommitUnit
  refine ⟨fun s c f flight => ⟨fun st stage room => ?rejected, fun asks blocked => ?blocked, fun asks free stuck on runs => ?stuck, ?unit⟩,
    fun s c f q flight handle active stage names => fun free room => ⟨?killed, ?fork, ?trim, ?read⟩⟩
  case rejected => exact congrArg Host.Outcome.next (commitCmd_rejected flight stage room)
  case blocked => exact congrArg Host.Outcome.next (commitCmd_blocked flight asks blocked)
  case stuck => exact congrArg Host.Outcome.next (commitCmd_stuck flight asks free stuck on runs)
  case unit =>
    intro row due free room
    obtain ⟨asks, same⟩ := exec_commitUnit flight due
    rw [same]
    exact ⟨fun t st r0 r1 outs point => congrArg _ (commitCmd_commits flight asks free room point),
      fun t point => congrArg _ (commitCmd_kills flight asks free room point), fun t st point => congrArg _ (commitCmd_rejects flight asks free room point)⟩
  case killed =>
    intro op closed changed
    refine congrArg Host.Outcome.next (commitCmd_kills flight (.inl stage) free room ?_)
    rcases op with op | op
    · rw [commitOp_of_active (start := startSeqFork) (commit := commitSeqFork) handle active names op rfl (by decide), commitSeqFork,
        copyCheck_of_changed handle closed changed]
    · rw [commitOp_of_active (start := startSeqTrim) (commit := commitSeqTrim) handle active names op rfl (by decide), commitSeqTrim,
        copyCheck_of_changed handle closed changed]
  case fork =>
    intro op closed same n k tails plan
    refine congrArg Host.Outcome.next (commitCmd_commits flight (.inl stage) free room ?_)
    rw [commitOp_of_active (start := startSeqFork) (commit := commitSeqFork) handle active names op rfl (by decide)]
    exact commitSeqFork_of_copy handle closed same plan
  case trim =>
    intro op closed same inTail some_left pins n tails plan all
    refine congrArg Host.Outcome.next (commitCmd_commits flight (.inl stage) free room ?_)
    rw [commitOp_of_active (start := startSeqTrim) (commit := commitSeqTrim) handle active names op rfl (by decide)]
    exact commitSeqTrim_of_tail handle closed same inTail some_left pins plan all
  case read =>
    intro op b plan pins stored
    refine congrArg Host.Outcome.next (commitCmd_commits flight (.inl stage) free room ?_)
    rw [commitOp_of_active (start := startKvRead) (commit := commitKvRead) handle active names op rfl (by decide)]
    exact commitKvRead_of_bytes handle plan pins stored

end Sys2Proof.Machine
end

section
/-! THEOREM. The moves of pages: a selected move out of DRAM that a power state is about to stop does not begin (R139, R420). -/

namespace Sys2Proof.Machine

open Sys2Proof

/-- A selected move that has not become too hot does not begin while its source is held for a power state (R420). -/
theorem pageMove_held {s : State} {p id : Nat} {m : Move} (move : Map.look (s.part p).moves id = some m) (selected : m.step = .selected)
    (cool : tooHot s p m = false) (held : s.holdsMove m.src = true) : pageMove p id s = s := by
  simp [pageMove, reserveMove, move, selected, cool, held]

/-- The move of the rest frame of sequence 0, selected to make room. -/
def selectedMove : Move := ⟨.rest 0, .preempt, .selected, ⟨.page, 0, 0⟩, Loc.none, 0, [], none, 0, none, [], 0⟩

/-- The DMA engine has accepted the entry of Deep sleep, and partition 0 has a selected move. -/
def sleepingWithMove : State :=
  { State.reset with
    parts := [(0, { Part.absent with moves := [(0, selectedMove)] })]
    power := { Power.reset with entry := some ⟨.deep, [3], [], true⟩ } }

/-- Refutes O48: of a selected move with buffer space and no destination the statement says that it is abandoned, and of one with a destination
that it begins; while the DMA engine has accepted the entry of a power state (R420) neither happens, and the move stays selected. -/
theorem not_movesOfPages : ¬ Obligations.MovesOfPages := by
  unfold Obligations.MovesOfPages
  rintro ⟨_, moves, _⟩
  have move : Map.look (sleepingWithMove.part 0).moves 0 = some selectedMove := by decide +kernel
  have held := pageMove_held move rfl rfl (by decide +kernel)
  obtain ⟨_, _, begins, _⟩ := moves sleepingWithMove 0 0 selectedMove move
  obtain ⟨_, _, nowhere⟩ := begins rfl rfl (by decide +kernel) (.inr (.inr rfl))
  have abandoned : pageMove 0 0 sleepingWithMove = _ := Host.Outcome.next.inj (nowhere (by decide +kernel))
  rw [held] at abandoned
  have stays := congrArg (fun t : State => Map.has (t.part 0).moves 0) abandoned
  exact absurd stays (by decide +kernel)

end Sys2Proof.Machine
end

section
/-! THEOREM. model_unregister beside a seq_open at the same ring index (R63, R219). -/

namespace Sys2Proof.Machine

open Sys2Proof

/-- model_unregister of model 1. -/
def unregisterWord : List Byte := leBytes 64 (Op.modelUnregister + 1 * 2 ^ 128)

/-- seq_open with model 1. -/
def openWord : List Byte := leBytes 64 (Op.seqOpen + 1 * 2 ^ 128)

/-- A fetched command at ring index 0. -/
def fetchedAtZero (w : List Byte) : Flight := ⟨0, w, false, 0, .fetched, .none, [], [], 0, [], false, [], 0, 0, none⟩

/-- A partition with model 1, in whose slot 0 both commands stand at ring index 0; no fetch makes such a window, but no hypothesis of the statement
excludes it. -/
def twoAtZero : State :=
  { State.reset with
    stage := 6
    parts := [(0, { Part.absent with
      live := true, models := [(1, Model.none)]
      slots := [(0, { Slot.reset with bound := true, entriesLog2 := 6, csqEn := true, tail := 1, window := [fetchedAtZero unregisterWord, fetchedAtZero openWord] })] })] }

/-- The row of slot 0's command at ring index 0. -/
def rowAtZero : CmdStep := ⟨⟨0, 0, 0⟩, [], false, []⟩

theorem ready_twoAtZero : Ready twoAtZero rowAtZero (fetchedAtZero unregisterWord) where
  now := rfl
  flight := by decide +kernel
  starts := by decide +kernel
  check := by decide +kernel
  alone := by decide +kernel
  room := by decide +kernel
  running := by decide +kernel

/-- Refutes O21: with a fetched seq_open of the model at the same ring index, the start and the request of model_unregister are also the seq_open's,
so that at the commit point the model is in use and the command ends rejected, not committed. -/
theorem not_modelAndKernelCommands : ¬ Obligations.ModelAndKernelCommands := by
  unfold Obligations.ModelAndKernelCommands
  intro h
  obtain ⟨_, unregister, _⟩ := h twoAtZero rowAtZero (fetchedAtZero unregisterWord) ready_twoAtZero
  have commits : runCommand _ startModelUnregister commitCmd rowAtZero twoAtZero = _ :=
    Host.Outcome.next.inj (unregister (by decide +kernel) (by decide +kernel) (by decide +kernel))
  have counted := congrArg (fun t : State => (t.part 0).acct.committed) commits
  exact absurd counted (by decide +kernel)

end Sys2Proof.Machine
end

section
/-! SUPPORT. What the operations on sequences and their copies leave of the slots (R62, R91, R151, R153), and that the end of other commands' runs,
the release of reservations and the close of a sequence leave a command in its window (R56, R84, R91). -/

namespace Sys2Proof.Machine

open Sys2Proof

/-! ### The slots stand as they did -/

section Slots

variable (s : State) (p : Nat)

theorem slots_onPart (o : Nat) {f : Part → Part} (hf : ∀ x, (f x).slots = x.slots := by intro _; rfl) : ((s.onPart o f).part p).slots = (s.part p).slots := by
  by_cases h : p = o
  · subst h
    rw [State.part_onPart, hf]
  · rw [State.part_onPart_ne s o p f h]

@[simp] theorem slots_forgetTent (psn layer : Nat) (t : Tent) : ((forgetTent s p psn layer t).part p).slots = (s.part p).slots :=
  (slots_onSet _ p psn _).trans (slots_lowerSpec s p t)

@[simp] theorem slots_dropTent (psn layer : Nat) : ((dropTent s p psn layer).part p).slots = (s.part p).slots := by
  unfold dropTent
  split
  · rfl
  · split
    · rfl
    · rw [slots_forgetTent, slots_freeObject]

@[simp] theorem slots_forgetTailTent (i layer : Nat) (t : Tent) : ((forgetTailTent s p i layer t).part p).slots = (s.part p).slots :=
  (slots_onSeq _ p i _).trans (slots_lowerSpec s p t)

@[simp] theorem slots_dropTailTent (i layer : Nat) : ((dropTailTent s p i layer).part p).slots = (s.part p).slots := by
  unfold dropTailTent
  split
  · rfl
  · split
    · rfl
    · rw [slots_forgetTailTent, slots_freeObject]

@[simp] theorem slots_dropRestTent (i : Nat) : ((dropRestTent s p i).part p).slots = (s.part p).slots := by
  unfold dropRestTent
  split
  · rfl
  · split
    · rfl
    · rw [slots_onSeq, slots_freeObject]

@[simp] theorem slots_dropTents (i : Nat) : ((dropTents s p i).1.part p).slots = (s.part p).slots := by
  unfold dropTents
  split
  · rfl
  · refine (slots_onSeq _ p i _).trans ((slots_dropRestTent _ p i).trans ?_)
    exact (slots_foldl _ p (fun s t => slots_dropTailTent s p i _) _).trans (slots_foldl s p (fun s t => slots_dropTent s p _ _) _)

@[simp] theorem slots_promote (psn layer : Nat) : ((promote s p psn layer).part p).slots = (s.part p).slots := by
  unfold promote
  split
  · rfl
  · split
    · rfl
    · split
      · rfl
      · have moved := slots_abandonMoves s p fun m => m.obj = .page psn layer
        dsimp only
        split
        · exact (slots_forgetTent _ p psn layer _).trans ((slots_onSet _ p psn _).trans moved)
        · exact (slots_onPart _ p p).trans moved

@[simp] theorem slots_promoteTail (i layer : Nat) : ((promoteTail s p i layer).part p).slots = (s.part p).slots := by
  unfold promoteTail
  split
  · rfl
  · split
    · rfl
    · split
      · rfl
      · rw [slots_forgetTailTent, slots_onSeq, slots_freeLoc]

@[simp] theorem slots_promoteAll (i : Nat) : ((promoteAll s p i).1.part p).slots = (s.part p).slots := by
  unfold promoteAll
  split
  · rfl
  · refine (slots_onSeq _ p i _).trans ?_
    exact (slots_foldl _ p (fun s l => slots_promoteTail s p i l) _).trans (slots_foldl s p (fun s t => slots_promote s p _ _) _)

@[simp] theorem slots_restoringWake (i : Nat) : ((restoringWake s p i).part p).slots = (s.part p).slots := by
  unfold restoringWake
  split
  · rfl
  · rw [slots_onSeq, State.part_onPart]
    exact (slots_freeLoc _ p _).trans ((slots_dropRestTent _ p i).trans (slots_promoteAll s p i))

@[simp] theorem slots_updateOwn (i hl : Nat) : ((updateOwn s p i hl).part p).slots = (s.part p).slots := by
  unfold updateOwn
  split
  · rfl
  · exact slots_foldl s p (fun s n => slots_onSet s p n _) _

@[simp] theorem slots_parkSeq (i : Nat) : ((parkSeq s p i).part p).slots = (s.part p).slots :=
  (slots_onSeq _ p i _).trans (slots_updateOwn s p i _)

@[simp] theorem slots_unpark (i : Nat) : ((unpark s p i).part p).slots = (s.part p).slots :=
  (slots_onSeq _ p i _).trans ((slots_abandonMoves _ p _).trans (slots_updateOwn s p i _))

@[simp] theorem slots_dropRef (psn : Nat) : ((dropRef s p psn).part p).slots = (s.part p).slots := by
  unfold dropRef
  split
  · rfl
  · dsimp only
    split
    · exact slots_onSet s p psn _
    · rw [slots_maybeRelease, State.part_onPart]
      exact slots_onSet s p psn _

@[simp] theorem slots_trimWakeList : ((trimWakeList s).part p).slots = (s.part p).slots := by
  unfold trimWakeList
  dsimp only
  split
  · rfl
  · split
    next v _ => exact slots_onPart s p v.1 (f := fun x => x.onSeq v.2.1 noPrediction)
    · rfl

theorem slots_abandonMoves_of (o : Nat) (t : Move → Bool) : ((abandonMoves s o t).part p).slots = (s.part p).slots := by
  by_cases h : p = o
  · subst h
    exact slots_abandonMoves s p t
  · rw [(abandonMoves_confined (.refl o s) t).part p h]

/-- Units that leave the tiles, of whatever partition, change no slot. -/
@[simp] theorem slots_removeUnits (lost : Bool) (t : Unit → Bool) : ((removeUnits s lost t).part p).slots = (s.part p).slots := by
  unfold removeUnits
  refine (slots_foldl _ p (fun s e => slots_abandonMoves_of s p _ _) _).trans (slots_foldl s p (fun s e => ?_) _)
  split
  · exact slots_onPart s.draw.2 p _
  · rfl

theorem slots_abandonPackets (c : CmdRef) (g : Nat → Bool) : ((abandonPackets s c g).part p).slots = (s.part p).slots := by
  unfold abandonPackets
  exact (congrArg Part.slots (State.part_of_parts _ _ (State.onSched_parts _ _) p)).trans (slots_onPart s p c.part)

theorem slots_stallFree (o cause : Nat) : ((stallFree s o cause).part p).slots = (s.part p).slots := slots_onPart s.draw.2 p o

end Slots

/-! ### A command stays in its window -/

/-- A command of the window is at this ring index. -/
def Slot.has (x : Slot) (k : Nat) : Prop := ∃ f ∈ x.window, f.index = k

/-- Where in s a command is at index k of slot i of partition p, one is in t. -/
def Stays (p i k : Nat) (s t : State) : Prop := (s.slot p i).has k → (t.slot p i).has k

theorem flight_isSome_iff (s : State) (c : CmdRef) : (s.flight c).isSome ↔ (s.slot c.part c.slot).has c.index := by
  simp [State.flight, Slot.has, List.find?_isSome]

theorem Slot.has_map {x : Slot} {k : Nat} (h : x.has k) {g : Flight → Flight} (hg : ∀ f, (g f).index = f.index) :
    ({ x with window := x.window.map g } : Slot).has k := by
  obtain ⟨f, here, index⟩ := h
  exact ⟨g f, List.mem_map_of_mem here, (hg f).trans index⟩

namespace Stays

variable {p i k : Nat} {b s t : State}

theorem refl (s : State) : Stays p i k s s := id

theorem of_slots (h : Stays p i k b s) (slots : (t.part p).slots = (s.part p).slots) : Stays p i k b t := by
  have same : t.slot p i = s.slot p i := congrArg (fun l => Map.get l i Slot.reset) slots
  unfold Stays
  rw [same]
  exact h

/-- An update of a slot that, where it is the command's own slot, leaves the command in. -/
theorem onSlot (h : Stays p i k b s) (j : Nat) {f : Slot → Slot} (hf : j = i → ∀ x : Slot, x.has k → (f x).has k) :
    Stays p i k b (s.onSlot p j f) := by
  intro before
  by_cases here : i = j
  · subst here
    rw [State.slot_onSlot]
    exact hf rfl _ (h before)
  · rw [State.slot, State.part_onSlot, Part.slot_onSlot_ne _ _ _ _ here]
    exact h before

theorem onWindow (h : Stays p i k b s) (j : Nat) {g : Flight → Flight} (hg : ∀ f, (g f).index = f.index) :
    Stays p i k b (s.onSlot p j fun x => { x with window := x.window.map g }) := h.onSlot j fun _ _ here => Slot.has_map here hg

theorem foldl {β : Type} {g : State → β → State} (h : Stays p i k b s) (l : List β) (hg : ∀ u, ∀ e ∈ l, Stays p i k b u → Stays p i k b (g u e)) :
    Stays p i k b (l.foldl g s) := by
  induction l generalizing s with
  | nil => exact h
  | cons e r ih => exact ih (hg s e (by simp) h) fun u d hd => hg u d (by simp [hd])

end Stays

section Command

variable {i k : Nat} {b s : State} {c : CmdRef}

theorem onFlight_stays (h : Stays c.part i k b s) {g : Flight → Flight} (hg : ∀ f, (g f).index = f.index) : Stays c.part i k b (s.onFlight c g) :=
  h.onWindow c.slot fun f => by split <;> simp [hg]

theorem setElem_stays (h : Stays c.part i k b s) (n : Nat) (g : Elem → Elem) : Stays c.part i k b (setElem s c n g) :=
  onFlight_stays h fun f => by split <;> rfl

theorem settle_index (f : Flight) : (settle f).index = f.index := by
  unfold settle
  split
  · split
    · split
      · split <;> rfl
      · rfl
    · rfl
  · rfl

theorem noteCause_stays (h : Stays c.part i k b s) : Stays c.part i k b (noteCause s c) := by
  unfold noteCause
  split
  · exact h
  · dsimp only
    split
    · exact onFlight_stays h fun _ => rfl
    · split
      · exact h
      · exact onFlight_stays (h.of_slots (slots_stallFree _ _ _ _)) fun _ => rfl

theorem unmark_stays (h : Stays c.part i k b s) (f : Flight) : Stays c.part i k b (unmark s c f) := by
  unfold unmark
  split
  · exact h
  · split
    · exact h.of_slots (slots_onPart _ _ _)
    · split
      · exact h.of_slots (slots_onPart _ _ _)
      · split
        · exact h.onSlot _ fun _ _ here => here
        · exact h

theorem unitsGone_stays (h : Stays c.part i k b s) (kill : Bool) (f : Flight) : Stays c.part i k b (unitsGone s kill c f) :=
  (((unmark_stays h f).of_slots (slots_abandonPackets _ _ _ _)).of_slots (slots_removeUnits _ _ _ _))

theorem releaseRun_stays (h : Stays c.part i k b s) (kill : Bool) (f : Flight) : Stays c.part i k b (releaseRun s kill c f) := by
  have frames := (KeepsWork.refl c.part (unitsGone s kill c f)).foldl (planFrames f.plan) (g := fun s n => freeObject s c.part n)
    fun _ _ _ hu => freeObject_keepsWork hu _
  have moves := abandonMoves_keepsWork frames fun m => m.cmd = some c
  unfold releaseRun
  refine Stays.of_slots ?_ (slots_trimTables _ _)
  refine onFlight_stays ?_ fun _ => rfl
  exact (unitsGone_stays h kill f).of_slots (unpinAll_keepsWork (endCause_keepsWork moves.of_parts f) f.pins).slots

/-- A command goes back to its ring; another one stays. -/
theorem returnToRing_stays (h : Stays c.part i k b s) (other : c.slot = i → c.index ≠ k) (f : Flight) :
    Stays c.part i k b (returnToRing s c f) := by
  have filtered : Stays c.part i k b (s.onSlot c.part c.slot fun z => { z with window := z.window.filter fun g => g.index != c.index }) := by
    refine h.onSlot _ fun same x here => ?_
    obtain ⟨g, mem, index⟩ := here
    exact ⟨g, List.mem_filter.2 ⟨mem, by simpa [index] using (other same).symm⟩, index⟩
  unfold returnToRing
  refine .onWindow (filtered.of_slots ?_) 0 fun g => by split <;> [split <;> rfl; rfl]
  rw [State.part_onPart, State.part_onSlot]

theorem afterKill_stays (h : Stays c.part i k b s) (other : c.slot = i → c.index ≠ k) : Stays c.part i k b (afterKill s c) := by
  unfold afterKill
  split
  · exact h
  next f _ =>
    have back := returnToRing_stays h other f
    dsimp only
    split
    · exact onFlight_stays h fun _ => rfl
    · split
      · split
        · refine back.onSlot 0 fun _ x here => ?_
          unfold Slot.endDrain
          split <;> exact here
        · exact back
      · exact onFlight_stays h fun _ => rfl

theorem killCommand_stays (h : Stays c.part i k b s) (other : c.slot = i → c.index ≠ k) : Stays c.part i k b (killCommand s c) := by
  unfold killCommand
  split
  · exact h
  · exact afterKill_stays ((releaseRun_stays h true _).of_slots (slots_onPart _ _ _)) other

/-! ### Elements that fail, and reservations that are released -/

theorem freeElem_stays (h : Stays c.part i k b s) (t : Unit → Bool) (l : List Nat) :
    Stays c.part i k b (l.foldl (fun s f => freeObject s c.part f) (removeUnits s false t)) :=
  .foldl (h.of_slots (slots_removeUnits _ _ _ _)) l fun _ _ _ hu => hu.of_slots (slots_freeObject _ _ _)

theorem failElem_stays (h : Stays c.part i k b s) (n st : Nat) : Stays c.part i k b (failElem s c n st) := by
  unfold failElem
  split
  · exact h
  · exact setElem_stays (freeElem_stays h _ _) n _

theorem refixElem_stays (h : Stays c.part i k b s) (n x : Nat) : Stays c.part i k b (refixElem s c n x) := by
  unfold refixElem
  split
  · exact h
  · exact setElem_stays (freeElem_stays h _ _) n _

theorem releaseElem_stays (h : Stays c.part i k b s) (n : Nat) (r : Released) : Stays c.part i k b (releaseElem s c n r) := by
  cases r with
  | fail st => exact failElem_stays h n st
  | again x => exact refixElem_stays h n x
  | keep => exact h
  | kill => exact h

theorem releaseReader_stays (h : Stays c.part i k b s) (other : c.slot = i → c.index ≠ k) (seq n : Nat) :
    Stays c.part i k b (releaseReader seq n s c) := by
  unfold releaseReader
  split
  · exact h
  · split
    · exact h
    · dsimp only
      split
      · exact killCommand_stays h other
      · split
        · exact h
        · exact noteCause_stays (onFlight_stays (h.foldl _ fun _ _ _ hu => releaseElem_stays hu _ _) settle_index)

theorem closeElems_stays (h : Stays c.part i k b s) (n : Nat) (es : List Elem) : Stays c.part i k b (closeElems s c n es) := by
  refine h.foldl _ fun u e _ hu => ?_
  split
  · exact hu
  · refine failElem_stays (.of_slots ?_ (slots_removeUnits _ _ _ _)) _ _
    split
    · exact hu.of_slots (slots_abandonPackets _ _ _ _)
    · exact hu

end Command

section Own

variable {own : CmdRef} {b s : State}

/-- The commands of the partition other than own, as a walk over its slots names them. -/
theorem other_of_mem_refs {refs : List CmdRef} (parts : ∀ d ∈ refs, d.part = own.part) {d : CmdRef} (h : d ∈ refs.filter fun c => c != own) :
    d.part = own.part ∧ (d.slot = own.slot → d.index ≠ own.index) := by
  obtain ⟨mem, ne⟩ := List.mem_filter.1 h
  have part := parts d mem
  refine ⟨part, fun slot index => ?_⟩
  cases d
  cases own
  simp_all

/-- The reservations that are forgotten leave every command in its window. -/
theorem forgetReservations_stays {p i k : Nat} (h : Stays p i k b s) (t : Nat × Nat → Bool) : Stays p i k b (forgetReservations s p t) := by
  intro before
  have window : ((forgetReservations s p t).slot p i).window = (s.slot p i).window.map fun f => { f with rsv := f.rsv.filter fun r => !t r } := by
    unfold forgetReservations State.slot Part.slot Map.get
    rw [State.part_onPart, Map.look_each]
    cases Map.look (s.part p).slots i <;> rfl
  obtain ⟨f, here, index⟩ := h before
  exact ⟨{ f with rsv := f.rsv.filter fun r => !t r }, by rw [window]; exact List.mem_map.2 ⟨f, here, rfl⟩, index⟩

theorem releaseReaders_stays (h : Stays own.part own.slot own.index b s) (seq n : Nat) :
    Stays own.part own.slot own.index b (releaseReaders s own.part seq n own) := by
  refine h.foldl _ fun u d hd hu => ?_
  obtain ⟨part, other⟩ := other_of_mem_refs (fun d hd => by
    obtain ⟨y, _, hd⟩ := List.mem_flatMap.1 hd
    obtain ⟨f, _, rfl⟩ := List.mem_map.1 hd
    rfl) hd
  rw [← part] at hu ⊢
  exact releaseReader_stays hu other _ _

theorem releaseReservation_stays (h : Stays own.part own.slot own.index b s) (r : Nat × Nat) :
    Stays own.part own.slot own.index b (releaseReservation s own.part own r) := by
  unfold releaseReservation
  split
  · exact h
  · split
    · exact releaseReaders_stays (forgetReservations_stays (h.of_slots (slots_onSeq _ _ _ _)) _) _ _
    · exact h.of_slots (slots_onSeq _ _ _ _)

theorem releaseReservations_stays (h : Stays own.part own.slot own.index b s) (l : List (Nat × Nat)) :
    Stays own.part own.slot own.index b (releaseReservations s own l) := h.foldl l fun _ _ _ hu => releaseReservation_stays hu _

theorem failUsers_stays (h : Stays own.part own.slot own.index b s) (n : Nat) :
    Stays own.part own.slot own.index b (failUsers s own.part n own) := by
  refine h.foldl _ fun u d hd hu => ?_
  obtain ⟨part, -⟩ := other_of_mem_refs (fun d hd => by
    obtain ⟨y, _, hd⟩ := List.mem_flatMap.1 hd
    obtain ⟨f, _, rfl⟩ := List.mem_map.1 hd
    rfl) hd
  rw [← part] at hu ⊢
  have counted {t : State} (ht : Stays d.part own.slot own.index b t) :
      Stays d.part own.slot own.index b (t.onAcct d.part fun a => { a with killed := a.killed + 1 }) := ht.of_slots (slots_onPart _ _ _)
  split
  · exact hu
  · split
    · exact hu
    · split
      · exact onFlight_stays (counted (closeElems_stays hu n _)) settle_index
      · exact onFlight_stays (closeElems_stays hu n _) settle_index
      · exact onFlight_stays (closeElems_stays hu n _) settle_index
      · exact onFlight_stays (counted (releaseRun_stays hu true _)) fun _ => rfl
      · exact hu

/-- A command that closes a sequence stays in its window (R91). -/
theorem closeSeq_stays (h : Stays own.part own.slot own.index b s) (n : Nat) :
    Stays own.part own.slot own.index b (closeSeq s own.part n own) := by
  unfold closeSeq
  split
  · exact h
  · refine .of_slots (forgetReservations_stays (failUsers_stays h n) fun r => r.1 = n) ?_
    refine (slots_foldl _ _ (fun s e => slots_dropRef s _ _) _).trans ((slots_onPart _ _ _).trans ?_)
    exact (slots_freeLoc _ _ _).trans ((slots_abandonMoves _ _ _).trans (slots_dropTents _ _ _))

end Own

end Sys2Proof.Machine
end

section
/-! THEOREM. The commands on jobs: job_create, job_destroy, job_reset, job_bind and job_unbind (R37 to R43, R217, R218). -/

namespace Sys2Proof.Machine

open Sys2Proof

/-! ### Where a command's request stays cleared, and the command in its window -/

theorem State.eq_of_eqs {s t : State} {p : Nat} (eqs : (t.part p).eqs = (s.part p).eqs) (meq : t.meq = s.meq) (q : Nat) : t.eq p q = s.eq p q := by
  simp only [State.eq, Part.eq, eqs, meq]

namespace Cleared

variable {t u : State} {c : CmdRef} {g : Flight} (h : Cleared t c g)
include h

theorem of_slots (slots : (u.part c.part).slots = (t.part c.part).slots) (eqs : (u.part c.part).eqs = (t.part c.part).eqs) (meq : u.meq = t.meq) :
    Cleared u c g :=
  h.of_slot (congrArg (fun l => Map.get l c.slot Slot.reset) slots) (by rw [State.eq_of_eqs eqs meq]; exact h.room)

theorem there_of_slots (slots : (u.part c.part).slots = (t.part c.part).slots) : (u.flight c).isSome := by
  rw [State.flight_of_slots c slots]
  exact h.there

theorem there_of_slot (slot : u.slot c.part c.slot = t.slot c.part c.slot) : (u.flight c).isSome := by
  rw [State.flight, slot]
  exact h.there

theorem there_of_stays (stays : Stays c.part c.slot c.index t u) : (u.flight c).isSome :=
  (flight_isSome_iff u c).2 (stays ((flight_isSome_iff t c).1 h.there))

theorem hostIn (n : Nat) : Cleared (hostIn t c n) c g :=
  h.of_slots ((slots_onPart _ _ _).trans (slots_onPart _ _ _)) (by simp [Machine.hostIn, pcieIn]) rfl

end Cleared

/-! ### What the start of a command leaves of the slots -/

theorem slot_onFlight_ne (s : State) (c : CmdRef) (g : Flight → Flight) {n : Nat} (h : n ≠ c.slot) : (s.onFlight c g).slot c.part n = s.slot c.part n := by
  rw [State.slot, State.onFlight, State.part_onSlot]
  exact Part.slot_onSlot_ne _ _ _ _ h

theorem slot_begun_ne (s : State) (c : CmdStep) {n : Nat} (h : n ≠ c.ref.slot) : (begun s c).slot c.ref.part n = s.slot c.ref.part n :=
  slot_onFlight_ne _ c.ref _ h

/-- A test that fails of the command's own slot whatever it holds, and of every slot, fails of every slot after the start. -/
theorem any_slots_begun {s : State} {c : CmdStep} {P : Nat × Slot → Bool} (own : ∀ y, P (c.ref.slot, y) = false)
    (none : (s.part c.ref.part).slots.any P = false) : ((begun s c).part c.ref.part).slots.any P = false := by
  rw [begun_eq, State.onFlight, State.part_onSlot]
  refine List.any_eq_false.2 fun e he => ?_
  rcases Map.mem_place _ _ _ _ he with rfl | other
  · simp [own]
  · exact List.any_eq_false.1 none e (List.mem_filter.1 other).1

/-- A command of the control class runs in slot 0 (R38). -/
theorem Ready.slot_of_control {s : State} {c : CmdStep} {f : Flight} (R : Ready s c f) (control : isControl (cOpcode f.word) = true) : c.ref.slot = 0 := by
  have check := R.check
  by_contra other
  unfold commandCheck at check
  split at check
  · cases check
  · split at check
    · cases check
    · rw [if_pos (by simp [control, other])] at check
      cases check

theorem job_hostIn (s : State) (c : CmdRef) (n j : Nat) : ((hostIn s c n).part c.part).job j = (s.part c.part).job j := by
  simp [hostIn, pcieIn, Part.job]

/-! ### A slot without commands is stopped -/

section Empty

variable {s : State} {p n : Nat} (empty : (s.slot p n).window = []) (other : n ≠ 0)
include empty other

theorem stopSlot_of_empty : stopSlot s p n = (dropFetches (s.onSlot p n fun z => { z with draining := true }) p n, 0) := by
  have none_gone : stopSet (s.slot p n) = [] := by
    unfold stopSet
    rw [empty]
    rfl
  simp [stopSlot, none_gone, other]

theorem part_stopSlot_of_empty : (stopSlot s p n).1.part p = (s.part p).onSlot n fun z => { z with draining := true } := by
  rw [stopSlot_of_empty empty other]
  exact State.part_onSlot _ _ _ _

theorem slot_stopSlot_of_empty : (stopSlot s p n).1.slot p n = { s.slot p n with draining := true } := by
  rw [State.slot, part_stopSlot_of_empty empty other]
  exact Map.get_put_same _ _ _ _

theorem slot_stopSlot_ne {m : Nat} (h : m ≠ n) : (stopSlot s p n).1.slot p m = s.slot p m := by
  rw [State.slot, part_stopSlot_of_empty empty other]
  exact Part.slot_onSlot_ne _ _ _ _ h

theorem eqs_stopSlot_of_empty : ((stopSlot s p n).1.part p).eqs = (s.part p).eqs := by
  rw [part_stopSlot_of_empty empty other]
  rfl

theorem meq_stopSlot_of_empty : (stopSlot s p n).1.meq = s.meq := by
  rw [stopSlot_of_empty empty other]
  rfl

end Empty

/-! ### job_bind and job_unbind where nothing stands in their way -/

theorem job_requestedIn_setPlan (t : State) (c : CmdStep) (a : Plan) (j : Nat) :
    ((requestedIn (setPlan t c.ref a) c).part c.ref.part).job j = (t.part c.ref.part).job j :=
  (State.part_onFlight_but_slots (fun x => x.job j) (fun _ _ => rfl) _ _ _).trans (State.part_onFlight_but_slots (fun x => x.job j) (fun _ _ => rfl) _ _ _)

/-- What job_bind makes of its partition with the command `w` and the ring descriptor `d` (R42). -/
def boundBy (x : Part) (w : List Byte) (d : Descriptor) : Part :=
  (x.onSlot (cSlot w) fun y =>
    { Slot.reset with
      bound := true, ring := field w 0x11 1, job := cJob w, base := d.base, entriesLog2 := d.entriesLog2, eq := d.eq
      head := d.head, tail := d.tail, doneMask := BitVec.ofNat 64 d.done, snare := y.snare }).onJob (cJob w) fun j => { j with state := .bound }

theorem slot_boundBy_ne (t : State) (p : Nat) (w : List Byte) (d : Descriptor) {n : Nat} (h : n ≠ cSlot w) :
    (t.onPart p fun x => boundBy x w d).slot p n = t.slot p n :=
  (congrArg (fun x => Part.slot x n) (State.part_onPart _ _ _)).trans (Map.get_put_ne _ _ _ _ _ h)

section Bind

variable {t : State} {g : Flight}

theorem startJobBind_requests {c : CmdStep} (x : Slot) (given : cJob g.word ≠ 0) (most : field g.word 0x11 1 ≤ 3) (slot : cSlot g.word ≠ 0)
    (inside : cSlot g.word ≤ 63) (made : ((t.part c.ref.part).job (cJob g.word)).state ≠ .free)
    (sound : ((t.part c.ref.part).job (cJob g.word)).state ≠ .faulted) (rings : field g.word 0x11 1 < ((t.part c.ref.part).job (cJob g.word)).rings)
    (free : ((t.part c.ref.part).slot (cSlot g.word)).bound = false)
    (unbound : ((t.part c.ref.part).slots.any fun e => e.1 ≠ 0 && e.2.bound && e.2.job = cJob g.word && e.2.ring = field g.word 0x11 1) = false)
    {a : Nat} (ha : ((t.part c.ref.part).job (cJob g.word)).desc + 32 * field g.word 0x11 1 = a) (readable : readOk c.bad a 32 = true) {d : Descriptor}
    (hd : descriptorOf (t.hostBytes a 32) = d) (clear : d.reserved = false) (inRange : d.inRange = true)
    (queue : ((t.part c.ref.part).eq d.eq).en = true) :
    startJobBind t c x g = request (setPlan (hostIn t c.ref 32) c.ref (.bytes (t.hostBytes a 32))) c.ref := by
  have operands : (cJob g.word = 0 || 3 < cByte11 g.word || cSlot g.word = 0 || 63 < cSlot g.word) = false := by
    have few : ¬ 3 < cByte11 g.word := Nat.not_lt.2 most
    simp [given, few, slot, inside]
  have idle : (((t.part c.ref.part).job (cJob g.word)).state = .free || ((t.part c.ref.part).job (cJob g.word)).state = .faulted) = false := by
    simp [made, sound]
  have ring : ¬ ((t.part c.ref.part).job (cJob g.word)).rings ≤ cByte11 g.word := Nat.not_le.2 rings
  have place : ((t.part c.ref.part).job (cJob g.word)).desc + 32 * cByte11 g.word = a := ha
  have single : ((t.part c.ref.part).slots.any fun e => e.1 ≠ 0 && e.2.bound && e.2.job = cJob g.word && e.2.ring = cByte11 g.word) = false := unbound
  simp only [startJobBind, operands, idle, ring, free, single, place, readable, hd, clear, inRange, queue, Bool.not_true, Bool.or_false, Bool.false_eq_true,
    if_false]

theorem commitJobBind_of_bytes {c : CmdRef} (x : Slot) (made : ((t.part c.part).job (cJob g.word)).state ≠ .free)
    (sound : ((t.part c.part).job (cJob g.word)).state ≠ .faulted) {b : List Byte} (plan : g.plan = .bytes b) {d : Descriptor} (hd : descriptorOf b = d) :
    commitJobBind t c x g = .done (t.onPart c.part fun x => boundBy x g.word d) St.success d.head d.tail [] := by
  have sane : (((t.part c.part).job (cJob g.word)).state = .free || ((t.part c.part).job (cJob g.word)).state = .faulted) = false := by
    simp [made, sound]
  simp only [commitJobBind, sane, plan, planBytes, hd, Bool.false_eq_true, if_false]
  rfl

theorem startJobUnbind_of_empty {c : CmdStep} (x : Slot) (slot : cSlot g.word ≠ 0) (inside : cSlot g.word ≤ 63)
    (bound : (t.slot c.ref.part (cSlot g.word)).bound = true) (empty : (t.slot c.ref.part (cSlot g.word)).window = []) :
    startJobUnbind t c x g = request (setPlan (stopSlot t c.ref.part (cSlot g.word)).1 c.ref (.unbind 0 0)) c.ref := by
  have operand : (cSlot g.word = 0 || 63 < cSlot g.word) = false := by simp [slot, inside]
  have none_dropped : (stopSlot t c.ref.part (cSlot g.word)).2 = 0 := by rw [stopSlot_of_empty empty slot]
  simp only [startJobUnbind, operand, bound, none_dropped, Bool.not_true, Bool.false_eq_true, if_false]

theorem commitJobUnbind_of_empty {c : CmdRef} (x : Slot) (bound : (t.slot c.part (cSlot g.word)).bound = true)
    (empty : (t.slot c.part (cSlot g.word)).window = []) (plan : g.plan = .unbind 0 0) :
    commitJobUnbind t c x g = .done (t.onPart c.part fun x => afterUnbind (x.onSlot (cSlot g.word) Slot.released) (t.slot c.part (cSlot g.word)).job)
      St.success 0 (t.slot c.part (cSlot g.word)).head (descriptorWrites (t.part c.part) (t.slot c.part (cSlot g.word))) := by
  simp only [commitJobUnbind, bound, empty, plan, ne_eq, not_true_eq_false, Bool.not_true, Bool.false_eq_true, if_false]

end Bind

/-! ### The rows -/

section Rows

variable {s : State} {c : CmdStep} {f : Flight} (R : Ready s c f)
include R

theorem jobCreate_commits (op : cOpcode f.word = Op.jobCreate) (given : cJob f.word ≠ 0) (least : 1 ≤ field f.word 0x11 1) (most : field f.word 0x11 1 ≤ 4)
    (aligned : cAddr18 f.word % 128 = 0) (free : ((s.part c.ref.part).job (cJob f.word)).state = .free) :
    exec (.jobCreate c) s = .next (committed ((requestedIn (begun s c) c).onPart c.ref.part fun x =>
      x.onJob (cJob f.word) fun _ => ⟨.idle, field f.word 0x11 1, cAddr18 f.word, none⟩) c.ref f St.success 0 0 []) := by
  have job := part_begun (fun x => x.job (cJob f.word)) (fun _ _ => rfl) s c
  have rings : (cJob f.word = 0 || cByte11 f.word = 0 || 4 < cByte11 f.word || cAddr18 f.word % 128 ≠ 0) = false := by
    have some_ring : ¬ cByte11 f.word = 0 := Nat.one_le_iff_ne_zero.1 least
    have few : ¬ 4 < cByte11 f.word := Nat.not_lt.2 most
    simp [given, some_ring, few, aligned]
  refine congrArg Host.Outcome.next (R.runCommand_asks_asleep op rfl (by decide) (by rw [wakes, op]; rfl) (fun _ => ?start) R.cleared rfl (fun _ => rfl)
    (R.cleared.requested.there_of_slots (by rw [State.part_onPart]; rfl)))
  case start => simp only [startJobCreate, begunFlight_word, rings, job, free, ne_eq, not_true_eq_false, Bool.false_eq_true, if_false]

theorem jobReset_commits (op : cOpcode f.word = Op.jobReset) (given : cJob f.word ≠ 0)
    (faulted : ((s.part c.ref.part).job (cJob f.word)).state = .faulted) :
    exec (.jobReset c) s = .next (committed ((requestedIn (begun s c) c).onPart c.ref.part fun x =>
      x.onJob (cJob f.word) fun j => { j with state := .idle }) c.ref f St.success 0 0 []) := by
  have job := part_begun (fun x => x.job (cJob f.word)) (fun _ _ => rfl) s c
  refine congrArg Host.Outcome.next (R.runCommand_asks_asleep op rfl (by decide) (by rw [wakes, op]; rfl) (fun _ => ?start) R.cleared rfl (fun _ => rfl)
    (R.cleared.requested.there_of_slots (by rw [State.part_onPart]; rfl)))
  case start => simp only [startJobReset, begunFlight_word, given, job, faulted, ne_eq, not_true_eq_false, if_false]

/-- What the job's commands that will not be fetched again have reserved is released (R43). -/
def releaseKept (s : State) (c : CmdRef) (ks : List Kept) : State := ks.foldl (fun t k => releaseReservations t c k.rsv) s

omit R in
theorem releaseKept_stays (s : State) (c : CmdRef) (ks : List Kept) : Stays c.part c.slot c.index s (releaseKept s c ks) :=
  (Stays.refl s).foldl ks fun _ _ _ hu => releaseReservations_stays hu _

theorem jobDestroy_commits (op : cOpcode f.word = Op.jobDestroy) (given : cJob f.word ≠ 0)
    (made : ((s.part c.ref.part).job (cJob f.word)).state ≠ .free) (unbound : ((s.part c.ref.part).job (cJob f.word)).state ≠ .bound) :
    let t := releaseKept (requestedIn (begun s c) c) c.ref ((s.part c.ref.part).kept.filter fun k => k.job = cJob f.word)
    exec (.jobDestroy c) s = .next (committed (t.onPart c.ref.part fun x =>
      { (x.onJob (cJob f.word) fun _ => Job.reset) with kept := x.kept.filter fun k => k.job != cJob f.word }) c.ref f St.success 0 0 []) := by
  intro t
  have job := part_begun (fun x => x.job (cJob f.word)) (fun _ _ => rfl) s c
  have kept := part_requestedIn Part.kept (fun _ _ => rfl) s c
  have stays : Stays c.ref.part c.ref.slot c.ref.index (requestedIn (begun s c) c) t := releaseKept_stays _ _ _
  refine congrArg Host.Outcome.next (R.runCommand_asks_asleep op rfl (by decide) (by rw [wakes, op]; rfl) (fun _ => ?start) R.cleared rfl (fun _ => ?point)
    (R.cleared.requested.there_of_stays (stays.of_slots (by rw [State.part_onPart]; rfl))))
  case start =>
    simp only [startJobDestroy, begunFlight_word, given, job, if_false]
  case point => simp only [commitJobDestroy, begunFlight_word, kept, t, releaseKept]

theorem jobBind_commits (op : cOpcode f.word = Op.jobBind) (given : cJob f.word ≠ 0) (most : field f.word 0x11 1 ≤ 3) (slot : cSlot f.word ≠ 0)
    (inside : cSlot f.word ≤ 63) (made : ((s.part c.ref.part).job (cJob f.word)).state ≠ .free)
    (sound : ((s.part c.ref.part).job (cJob f.word)).state ≠ .faulted) (rings : field f.word 0x11 1 < ((s.part c.ref.part).job (cJob f.word)).rings)
    (free : ((s.part c.ref.part).slot (cSlot f.word)).bound = false)
    (unbound : ((s.part c.ref.part).slots.any fun e => e.1 ≠ 0 && e.2.bound && e.2.job = cJob f.word && e.2.ring = field f.word 0x11 1) = false)
    {a : Nat} (ha : ((s.part c.ref.part).job (cJob f.word)).desc + 32 * field f.word 0x11 1 = a) (readable : readOk c.bad a 32 = true) {d : Descriptor}
    (hd : descriptorOf (s.hostBytes a 32) = d) (clear : d.reserved = false) (inRange : d.inRange = true)
    (queue : ((s.part c.ref.part).eq d.eq).en = true) :
    exec (.jobBind c) s = .next (committed ((requestedIn (setPlan (hostIn (begun s c) c.ref 32) c.ref (.bytes (s.hostBytes a 32))) c).onPart c.ref.part
      fun x => boundBy x f.word d) c.ref f St.success d.head d.tail []) := by
  have zero := R.slot_of_control (by rw [op]; decide)
  have other : c.ref.slot ≠ cSlot f.word := by rw [zero]; exact slot.symm
  have job := part_begun (fun x => x.job (cJob f.word)) (fun _ _ => rfl) s c
  have single := any_slots_begun (c := c) (P := fun e => e.1 ≠ 0 && e.2.bound && e.2.job = cJob f.word && e.2.ring = cByte11 f.word)
    (fun y => by simp [zero]) unbound
  have planned := (R.cleared.hostIn 32).planned (.bytes (s.hostBytes a 32))
  have same := (job_requestedIn_setPlan (hostIn (begun s c) c.ref 32) c (.bytes (s.hostBytes a 32)) (cJob f.word)).trans ((job_hostIn _ c.ref 32 _).trans job)
  refine congrArg Host.Outcome.next (R.runCommand_asks_asleep op rfl (by decide) (by rw [wakes, op]; rfl) (fun x => ?start) planned rfl (fun x => ?point)
    (planned.requested.there_of_slot (slot_boundBy_ne _ _ _ _ other)))
  case start =>
    exact startJobBind_requests x given most slot inside (by rw [job]; exact made) (by rw [job]; exact sound)
      (by rw [job]; exact rings) ((congrArg Slot.bound (slot_begun_ne s c other.symm)).trans free) single
      (by rw [job]; exact ha) readable hd clear inRange
      ((part_begun (fun x => (x.eq d.eq).en) (fun _ _ => rfl) s c).trans queue)
  case point =>
    exact commitJobBind_of_bytes x (by exact (congrArg Job.state same).trans_ne made) (by exact (congrArg Job.state same).trans_ne sound) rfl hd

theorem jobUnbind_commits (op : cOpcode f.word = Op.jobUnbind) (slot : cSlot f.word ≠ 0) (inside : cSlot f.word ≤ 63)
    (bound : ((s.part c.ref.part).slot (cSlot f.word)).bound = true) (empty : ((s.part c.ref.part).slot (cSlot f.word)).window = []) :
    let t := requestedIn (setPlan (stopSlot (begun s c) c.ref.part (cSlot f.word)).1 c.ref (.unbind 0 0)) c
    let y := t.slot c.ref.part (cSlot f.word)
    exec (.jobUnbind c) s = .next (committed (t.onPart c.ref.part fun x => afterUnbind (x.onSlot (cSlot f.word) Slot.released) y.job) c.ref f
      St.success 0 y.head (descriptorWrites (t.part c.ref.part) y)) := by
  intro t y
  have zero := R.slot_of_control (by rw [op]; decide)
  have other : cSlot f.word ≠ c.ref.slot := by rw [zero]; exact slot
  have before : (begun s c).slot c.ref.part (cSlot f.word) = (s.part c.ref.part).slot (cSlot f.word) := slot_begun_ne s c other
  have clean : ((begun s c).slot c.ref.part (cSlot f.word)).window = [] := by rw [before]; exact empty
  have drained : y = { (s.part c.ref.part).slot (cSlot f.word) with draining := true } := by
    rw [← before]
    exact (slot_onFlight_ne _ c.ref _ other).trans ((slot_onFlight_ne _ c.ref _ other).trans (slot_stopSlot_of_empty clean slot))
  have planned := (R.cleared.of_slot (slot_stopSlot_ne clean slot other.symm) (by
    rw [State.eq_of_eqs (eqs_stopSlot_of_empty clean slot) (meq_stopSlot_of_empty clean slot)]
    exact R.cleared.room)).planned (.unbind 0 0)
  refine congrArg Host.Outcome.next (R.runCommand_asks_asleep op rfl (by decide) (by rw [wakes, op]; rfl) (fun x => ?start) planned rfl (fun x => ?point)
    (planned.requested.there_of_slot ((congrArg (fun x => Part.slot x c.ref.slot) (State.part_onPart _ _ _)).trans
      (Part.slot_onSlot_ne _ _ _ _ other.symm))))
  case start =>
    exact startJobUnbind_of_empty x slot inside (by exact (congrArg Slot.bound before).trans bound) clean
  case point =>
    exact commitJobUnbind_of_empty (t := t) x (by exact (congrArg Slot.bound drained).trans bound) (by exact (congrArg Slot.window drained).trans empty) rfl

end Rows

/-- Settles O20: each row by its own lemma. -/
theorem jobCommands : Obligations.JobCommands := by
  unfold Obligations.JobCommands
  refine fun s c f R => ⟨jobCreate_commits R, jobReset_commits R, jobDestroy_commits R, ?bind, jobUnbind_commits R⟩
  case bind =>
    exact fun op given most slot inside made sound rings free unbound readable clear inRange queue =>
      jobBind_commits R op given most slot inside made sound rings free unbound rfl readable rfl clear inRange queue

end Sys2Proof.Machine
end

section
/-! SUPPORT. What parking, waking and the release of tentative copies leave of the functions, the seconds counter and the sequences (R62, R91, R151). -/

namespace Sys2Proof.Machine

open Sys2Proof

/-! ### The release of tentative copies leaves the functions alone -/

section Funcs

variable (s : State) (p : Nat)

theorem funcs_lowerSpec (t : Tent) : (lowerSpec s p t).funcs = s.funcs := by
  unfold lowerSpec
  split <;> rfl

theorem funcs_dropTent (psn layer : Nat) : (dropTent s p psn layer).funcs = s.funcs := by
  unfold dropTent
  split
  · rfl
  · split
    · rfl
    · exact funcs_lowerSpec (freeObject s p _) p _

theorem funcs_dropTailTent (i layer : Nat) : (dropTailTent s p i layer).funcs = s.funcs := by
  unfold dropTailTent
  split
  · rfl
  · split
    · rfl
    · exact funcs_lowerSpec (freeObject s p _) p _

theorem funcs_dropRestTent (i : Nat) : (dropRestTent s p i).funcs = s.funcs := by
  unfold dropRestTent
  split
  · rfl
  · split <;> rfl

theorem funcs_dropTents (i : Nat) : (dropTents s p i).1.funcs = s.funcs := by
  unfold dropTents
  split
  · rfl
  · refine (funcs_dropRestTent _ p i).trans ?_
    exact (foldl_same State.funcs _ (fun s _ => funcs_dropTailTent s p i _) _ _).trans (foldl_same State.funcs _ (fun s _ => funcs_dropTent s p _ _) _ s)

end Funcs

/-! ### Moves given up and heat brought up to date change neither the sequences nor the time -/

/-- From s to t the sequences of the partition and the seconds counter stand as they did. -/
structure Calm (p : Nat) (s t : State) : Prop where
  seqs : (t.part p).seqs = (s.part p).seqs
  nowS : t.nowS = s.nowS

namespace Calm

variable {p : Nat} {b s t : State}

theorem refl (p : Nat) (s : State) : Calm p s s := ⟨rfl, rfl⟩

theorem onPart (h : Calm p b s) {f : Part → Part} (hf : ∀ x, (f x).seqs = x.seqs := by intro _; rfl) : Calm p b (s.onPart p f) where
  seqs := (congrArg Part.seqs (State.part_onPart s p f)).trans ((hf _).trans h.seqs)
  nowS := h.nowS

theorem foldl {β : Type} {g : State → β → State} (h : Calm p b s) (hg : ∀ u e, Calm p b u → Calm p b (g u e)) (l : List β) :
    Calm p b (l.foldl g s) := by
  induction l generalizing s with
  | nil => exact h
  | cons e l ih => exact ih (hg s e h)

end Calm

section Calm

variable {p : Nat} {b s : State} (h : Calm p b s)
include h

theorem freeObject_calm (frame : Nat) : Calm p b (freeObject s p frame) where
  seqs := by
    rw [freeObject, State.part_onPart, dropLines, t1Write, State.part_onAcct]
    exact h.seqs
  nowS := h.nowS

theorem freeLoc_calm (l : Loc) : Calm p b (freeLoc s p l) := by
  unfold freeLoc
  split
  · exact h
  · split
    · exact freeObject_calm h _
    · exact h.onPart
    · unfold discardFlash
      exact h.onPart

theorem releaseDest_calm (m : Move) : Calm p b (releaseDest s p m) := by
  unfold releaseDest
  split
  · exact h
  · split
    · refine ⟨?_, h.nowS⟩
      rw [State.part_of_parts _ _ (State.onFlash_parts _ _), State.part_onPart]
      exact h.seqs
    · exact freeLoc_calm h _

theorem abandonMove_calm (id : Nat) : Calm p b (abandonMove s p id) := by
  unfold abandonMove
  split
  · exact h
  next m _ =>
    refine (releaseDest_calm h m).onPart fun x => ?_
    dsimp only
    split <;> rfl

theorem abandonMoves_calm (t : Move → Bool) : Calm p b (abandonMoves s p t) := h.foldl (fun _ id hu => abandonMove_calm hu id) _

theorem updateOwn_calm (i hl : Nat) : Calm p b (updateOwn s p i hl) := by
  unfold updateOwn
  split
  · exact h
  · refine h.foldl (fun u n hu => ?_) _
    unfold State.onSet
    exact hu.onPart

end Calm

theorem nowS_parkSeq (s : State) (p i : Nat) : (parkSeq s p i).nowS = s.nowS := (updateOwn_calm (.refl p s) i _).nowS

theorem nowS_unpark (s : State) (p i : Nat) : (unpark s p i).nowS = s.nowS := (abandonMoves_calm (updateOwn_calm (.refl p s) i _) _).nowS

theorem seq_unpark (s : State) (p i : Nat) :
    ((unpark s p i).part p).seq i = ((s.part p).seq i).map fun q => noPrediction { q with state := .active, stuck := false } := by
  rw [unpark, State.part_onSeq, Part.seq_onSeq]
  exact congrArg (fun l => (Map.look l i).map _) (abandonMoves_calm (updateOwn_calm (.refl p s) i _) _).seqs

/-- A handle still names its sequence after it has been woken from PARKING (R151). -/
theorem handle_unpark {s : State} {p h : Nat} {q : Seq} (handle : (s.part p).handle h = some q) :
    ((unpark s p (handleIndex h)).part p).handle h = some (noPrediction { q with state := .active, stuck := false }) := by
  have gen : q.gen = handleGen h := by
    simp only [Part.handle, Part.seq_of_handle handle, Option.ite_none_right_eq_some] at handle
    exact handle.1
  simp only [Part.handle, seq_unpark, Part.seq_of_handle handle, Option.map_some]
  exact if_pos gen

/-! ### Waking at the commit point -/

section Wake

variable {s : State} {c : CmdRef} {f : Flight} {i : Nat} {q : Seq} (names : f.seqs = [i]) (seq : (s.part c.part).seq i = some q)
include names seq

theorem rewake_of_not_parking (awake : q.state ≠ .parking) : rewake s c f = s := by
  simp [rewake, names, seq, awake]

theorem rewake_of_parking (wake : wakes f.word = true) (parking : q.state = .parking) : rewake s c f = unpark s c.part i := by
  simp [rewake, wake, names, seq, parking]

end Wake

/-- A sequence that is not at rest is woken without a change of a slot. -/
theorem slots_wakeSeq {s t : State} {p i : Nat} {v : Option Nat} {c : CmdStep} {w : List Byte} {q : Seq} (seq : (s.part p).seq i = some q)
    (awake : q.state ≠ .rest) (woke : wakeSeq s p i v c w = .awake t) : (t.part p).slots = (s.part p).slots := by
  unfold wakeSeq at woke
  rw [seq] at woke
  dsimp only at woke
  split at woke
  case h_1 => exact (Wake.awake.inj woke) ▸ rfl
  case h_2 => exact (Wake.awake.inj woke) ▸ slots_onSeq s p i _
  case h_3 => exact (Wake.awake.inj woke) ▸ slots_unpark s p i
  case h_4 => exact (Wake.awake.inj woke) ▸ slots_restoringWake s p i
  case h_5 atRest => exact absurd atRest awake

/-! ### The tentative copies of a sequence -/

/-- The tentative tail copies of a sequence. -/
def tailTentsOf (s : State) (p i : Nat) : Option (Map Tent) := ((s.part p).seq i).map Seq.tailTents

section Tents

variable (s : State) (p i : Nat)

/-- An update of a sequence that leaves a part of every sequence alone. -/
theorem map_seq_onSeq {α : Type} {φ : Seq → α} (j : Nat) {g : Seq → Seq} (hg : ∀ q, φ (g q) = φ q := by intro _; rfl) :
    (((s.onSeq p j g).part p).seq i).map φ = ((s.part p).seq i).map φ := by
  rw [State.part_onSeq]
  by_cases same : i = j
  · subst same
    rw [Part.seq_onSeq, Option.map_map]
    exact congrArg (fun k => Option.map k _) (funext hg)
  · rw [Part.seq_onSeq_ne _ _ _ _ same]

theorem tailTentsOf_freeObject (frame : Nat) : tailTentsOf (freeObject s p frame) p i = tailTentsOf s p i :=
  congrArg (fun l => (Map.look l i).map Seq.tailTents) (freeObject_calm (.refl p s) frame).seqs

theorem tailTentsOf_lowerSpec (t : Tent) : tailTentsOf (lowerSpec s p t) p i = tailTentsOf s p i := by
  unfold lowerSpec
  split
  · exact map_seq_onSeq s p i _
  · rfl

theorem tailTentsOf_dropTent (psn layer : Nat) : tailTentsOf (dropTent s p psn layer) p i = tailTentsOf s p i := by
  unfold dropTent
  split
  · rfl
  · split
    · rfl
    next t _ =>
      have freed := (tailTentsOf_lowerSpec (freeObject s p t.frame) p i t).trans (tailTentsOf_freeObject s p i t.frame)
      rw [← freed]
      rw [forgetTent, tailTentsOf, State.part_onSet]
      rfl

theorem tailTentsOf_dropTailTent (layer : Nat) : tailTentsOf (dropTailTent s p i layer) p i = (tailTentsOf s p i).map fun m => Map.del m layer := by
  unfold dropTailTent
  split
  next none_there => rw [tailTentsOf, none_there]; rfl
  next q seq =>
    split
    next none_left =>
      rw [tailTentsOf, seq]
      exact congrArg some (Map.del_of_look_none none_left).symm
    next t _ =>
      have freed := (tailTentsOf_lowerSpec (freeObject s p t.frame) p i t).trans (tailTentsOf_freeObject s p i t.frame)
      rw [← freed, forgetTailTent, tailTentsOf, tailTentsOf, State.part_onSeq, Part.seq_onSeq, Option.map_map, Option.map_map]
      rfl

theorem tailTentsOf_dropRestTent : tailTentsOf (dropRestTent s p i) p i = tailTentsOf s p i := by
  unfold dropRestTent
  split
  · rfl
  · split
    · rfl
    next t _ => exact (map_seq_onSeq (freeObject s p t.frame) p i i).trans (tailTentsOf_freeObject s p i t.frame)

theorem tailTentsOf_dropTailTents (l : List (Nat × Tent)) :
    tailTentsOf (l.foldl (fun s t => dropTailTent s p i t.1) s) p i = (tailTentsOf s p i).map fun m => (l.map Prod.fst).foldl Map.del m := by
  induction l generalizing s with
  | nil => exact Option.map_id'.symm
  | cons t l ih =>
    rw [List.foldl_cons, ih, tailTentsOf_dropTailTent, Option.map_map]
    rfl

variable {s p i} {q : Seq} (seq : (s.part p).seq i = some q)
include seq

/-- No tentative tail copy is left (R62). -/
theorem tailTentsOf_dropTents : tailTentsOf (dropTents s p i).1 p i = some [] := by
  unfold dropTents
  rw [seq]
  refine (map_seq_onSeq _ p i i).trans ((tailTentsOf_dropRestTent _ p i).trans ?_)
  have tails := foldl_same (fun s => tailTentsOf s p i) (fun s t => dropTent s p t.1 t.2) (fun s t => tailTentsOf_dropTent s p i t.1 t.2)
    (((s.part p).tentsOf q).filter fun t => !(s.part p).tentHeld t.1 t.2) s
  have all_gone : (q.tailTents.map Prod.fst).foldl Map.del q.tailTents = [] := List.eq_nil_iff_forall_not_mem.2 fun e he =>
    (Map.mem_foldl_del _ he).2 (List.mem_map_of_mem (Map.mem_foldl_del _ he).1)
  have before : tailTentsOf s p i = some q.tailTents := congrArg (Option.map Seq.tailTents) seq
  rw [tailTentsOf_dropTailTents, tails, before, Option.map_some, all_gone]

/-- Where there is nothing to release, none is counted. -/
theorem dropTents_of_none (copies : (s.part p).tentsOf q = []) (tails : q.tailTents = []) :
    dropTents s p i = ((dropRestTent s p i).onSeq p i fun q => { q with restored := false }, 0) := by
  simp [dropTents, seq, copies, tails]

omit seq in
theorem tentsOf_of_sets {x y : Part} (sets : y.sets = x.sets) (q : Seq) : y.tentsOf q = x.tentsOf q := by
  simp only [Part.tentsOf, Part.set, sets]

omit seq in
/-- A frame of a rest copy is freed: the page sets and the page tables stand as they did. -/
theorem sets_dropRestTent : ((dropRestTent s p i).part p).sets = (s.part p).sets := by
  unfold dropRestTent
  split
  · rfl
  · split
    · rfl
    · rw [State.part_onSeq, freeObject, State.part_onPart, dropLines, t1Write, State.part_onAcct]
      rfl

omit seq in
theorem pt_dropRestTent : (((dropRestTent s p i).part p).seq i).map Seq.pt = ((s.part p).seq i).map Seq.pt := by
  unfold dropRestTent
  split
  · rfl
  · split
    · rfl
    next t _ =>
      refine (map_seq_onSeq (freeObject s p t.frame) p i i).trans ?_
      exact congrArg (fun l => (Map.look l i).map Seq.pt) (freeObject_calm (.refl p s) t.frame).seqs

/-- Where there was nothing to release, nothing is left. -/
theorem tentsOf_dropTents_of_none (copies : (s.part p).tentsOf q = []) (tails : q.tailTents = []) {q' : Seq}
    (seq' : ((dropTents s p i).1.part p).seq i = some q') : ((dropTents s p i).1.part p).tentsOf q' = [] := by
  rw [dropTents_of_none seq copies tails] at seq' ⊢
  have sets : (((dropRestTent s p i).onSeq p i fun q => { q with restored := false }).part p).sets = (s.part p).sets :=
    (congrArg Part.sets (State.part_onSeq _ _ _ _)).trans sets_dropRestTent
  have pts := (map_seq_onSeq (dropRestTent s p i) p i (φ := Seq.pt) i (g := fun q => { q with restored := false })).trans pt_dropRestTent
  have pt : q'.pt = q.pt := by
    rw [seq', seq] at pts
    exact Option.some.inj pts
  rw [tentsOf_of_sets sets, ← copies]
  simp only [Part.tentsOf, pt]

end Tents

end Sys2Proof.Machine
end

section
/-! THEOREM. The commands on the state of a sequence: seq_close, seq_park, seq_resume, seq_hint, seq_query and spec_cancel (R62, R91, R151, R153,
R222, R223). -/

namespace Sys2Proof.Machine

open Sys2Proof

/-! ### The commit stage of a command that is held -/

theorem State.stopping_eq {s t : State} {c : CmdRef} (slots : (t.part c.part).slots = (s.part c.part).slots) (funcs : t.funcs = s.funcs) :
    t.stopping c = s.stopping c := by
  simp only [State.stopping, State.slot, Part.slot, State.func, slots, funcs]

/-- A command that may start is in a slot and a partition that do not stop. -/
theorem Ready.going {s : State} {c : CmdStep} {f : Flight} (R : Ready s c f) : (requestedIn (begun s c) c).stopping c.ref = false := by
  have starts := R.starts
  simp only [mayStart, Bool.and_eq_true, Bool.not_eq_true', Option.isNone_iff_eq_none] at starts
  obtain ⟨⟨⟨⟨⟨⟨⟨⟨_, undrained⟩, unstopped⟩, enabled⟩, _⟩, _⟩, _⟩, _⟩, _⟩ := starts
  have slot (t : State) (g : Flight → Flight) : (t.onFlight c.ref g).slot c.ref.part c.ref.slot =
      { t.slot c.ref.part c.ref.slot with window := (t.slot c.ref.part c.ref.slot).window.map fun f => if f.index = c.ref.index then g f else f } :=
    State.slot_onSlot _ _ _ _
  simp only [State.stopping, requestedIn, setStage, slot, begun_eq]
  exact Bool.or_eq_false_iff.2 ⟨Bool.or_eq_false_iff.2 ⟨undrained, unstopped⟩, congrArg Option.isSome enabled⟩

/-- A request whose commit point is delayed leaves its command held (R259). -/
theorem Cleared.commitCmd_holds {t u : State} {c : CmdRef} {g : Flight} (h : Cleared t c g) (stage : g.stage = .requested)
    (point : commitOp (rewake t c g) c (t.slot c.part c.slot) g = .hold u) (slots : (u.part c.part).slots = (t.part c.part).slots)
    (going : u.stopping c = false) : commitCmd c t = setStage u c .held := by
  have flight := (State.flight_of_slots c slots).trans h.flight
  simp only [commitCmd, commitWith, h.flight, stage, h.free, h.room, point, flight, going, Bool.false_and, Bool.false_eq_true, if_false]

/-! ### The commit points -/

theorem wakeSeq_of_active {s : State} {p i : Nat} {v : Option Nat} {c : CmdStep} {w : List Byte} {q : Seq} (seq : (s.part p).seq i = some q)
    (active : q.state = .active) : wakeSeq s p i v c w = .awake s := by
  simp only [wakeSeq, seq, active]

theorem seq_dropReserve (u : State) (c : CmdRef) (i : Nat) : ((dropReserve u c).part c.part).seq i = (u.part c.part).seq i :=
  State.part_onFlight_but_slots (fun x => x.seq i) (fun _ _ => rfl) u c _

section Points

variable {s : State} {c : CmdRef} {x : Slot} {f : Flight} {q : Seq} (handle : (s.part c.part).handle (cHandle f.word) = some q)
include handle

theorem commitSeqPark_parks (state : q.state = .active ∨ q.state = .swapped) :
    let i := handleIndex (cHandle f.word)
    let t := parkSeq s c.part i
    commitSeqPark s c x f = .done (parkPredict (t.onSeq c.part i fun q => { q with lastUse := t.nowS }) c.part i (cWord14 f.word)) St.success 2 0 [] := by
  have time := nowS_parkSeq s c.part (handleIndex (cHandle f.word))
  rcases state with active | swapped
  · simp only [commitSeqPark, handle, active, time]
  · simp only [commitSeqPark, handle, swapped, time]

theorem commitSeqPark_renews (state : q.state = .parking) :
    commitSeqPark s c x f = .done (s.onSeq c.part (handleIndex (cHandle f.word)) fun q => { q with parkWait := cWord14 f.word, lastUse := s.nowS })
      St.success 2 0 [] := by
  simp only [commitSeqPark, handle, state]

theorem commitSeqPark_reports (state : q.state = .rest ∨ q.state = .restoring) : commitSeqPark s c x f = .done s St.success q.state.code 0 [] := by
  rcases state with rest | restoring
  · simp only [commitSeqPark, handle, rest]
  · simp only [commitSeqPark, handle, restoring]

theorem commitSeqResume_wakes (awake : q.state ≠ .rest) {t : State}
    (woke : wakeSeq (dropReserve s c) c.part (handleIndex (cHandle f.word)) none ⟨c, [], true, []⟩ f.word = .awake t) :
    commitSeqResume s c x f = .done (t.onSeq c.part (handleIndex (cHandle f.word)) fun q => { q with lastUse := t.nowS }) St.success q.length
      (if q.state = .restoring then (promoteAll s c.part (handleIndex (cHandle f.word))).2 else 0) [] := by
  simp only [commitSeqResume, handle, awake, decide_false, Bool.false_and, Bool.false_eq_true, if_false, woke]

/-- A sequence that is neither PARKING nor at rest is woken by the commit point itself. -/
theorem commitSeqResume_of_awake (names : f.seqs = [handleIndex (cHandle f.word)]) (awake : q.state ≠ .rest) (calm : q.state ≠ .parking) {t : State}
    (woke : wakeSeq (dropReserve s c) c.part (handleIndex (cHandle f.word)) none ⟨c, [], true, []⟩ f.word = .awake t) :
    commitSeqResume (rewake s c f) c x f =
      .done (t.onSeq c.part (handleIndex (cHandle f.word)) fun q => { q with lastUse := t.nowS }) St.success q.length
        (if q.state = .restoring then (promoteAll s c.part (handleIndex (cHandle f.word))).2 else 0) [] := by
  rw [rewake_of_not_parking names (Part.seq_of_handle handle) calm]
  exact commitSeqResume_wakes handle awake woke

/-- A PARKING one has been woken before it. -/
theorem commitSeqResume_of_parking (names : f.seqs = [handleIndex (cHandle f.word)]) (wake : wakes f.word = true) (parking : q.state = .parking) :
    commitSeqResume (rewake s c f) c x f =
      .done ((dropReserve (unpark s c.part (handleIndex (cHandle f.word))) c).onSeq c.part (handleIndex (cHandle f.word)) fun q => { q with lastUse := s.nowS })
        St.success q.length 0 [] := by
  have woken := handle_unpark handle
  have seq := (seq_dropReserve (unpark s c.part (handleIndex (cHandle f.word))) c _).trans (Part.seq_of_handle woken)
  have time : (dropReserve (unpark s c.part (handleIndex (cHandle f.word))) c).nowS = s.nowS := nowS_unpark _ _ _
  rw [rewake_of_parking names (Part.seq_of_handle handle) wake parking, commitSeqResume_wakes woken (by simp [noPrediction]) (wakeSeq_of_active seq rfl), time]
  rfl

theorem commitSeqHint_unchanged (state : q.state = .active ∨ q.state = .restoring) : commitSeqHint s c x f = .done s St.success 0 0 [] := by
  simp only [commitSeqHint, handle]
  exact if_pos (by simpa using state)

theorem commitSeqHint_predicts (inactive : q.state ≠ .active) (settled : q.state ≠ .restoring) :
    let i := handleIndex (cHandle f.word)
    let t := s.nowS + field f.word 0x14 2
    commitSeqHint s c x f = .done (trimWakeList ((useSeq s c.part i).onSeq c.part i fun q => { q with predTime := t, predicted := true, hinted := true }))
      St.success t 0 [] := by
  simp only [commitSeqHint, handle]
  exact if_neg (by simp [inactive, settled])

/-- What spec_cancel leaves of its sequence where no tentative copy is left: used, and back at rest where its restore was under way. -/
def cancelled (d : State) (p i : Nat) : State :=
  (useSeq d p i).onSeq p i fun q => if q.state = .restoring then ((useSeq d p i).part p).backToRest q else q

variable {q' : Seq} (left : ((dropTents s c.part (handleIndex (cHandle f.word))).1.part c.part).seq (handleIndex (cHandle f.word)) = some q')
include left

theorem commitSpecCancel_commits
    (none_left : ((dropTents s c.part (handleIndex (cHandle f.word))).1.part c.part).tentsOf q' = []) :
    let d := dropTents s c.part (handleIndex (cHandle f.word))
    commitSpecCancel s c x f = .done (cancelled d.1 c.part (handleIndex (cHandle f.word))) St.success d.2 0 [] := by
  simp only [commitSpecCancel, handle, left, none_left, ne_eq, not_true_eq_false, if_false]
  rfl

theorem commitSpecCancel_holds
    (some_left : ((dropTents s c.part (handleIndex (cHandle f.word))).1.part c.part).tentsOf q' ≠ []) :
    commitSpecCancel s c x f = .hold (dropTents s c.part (handleIndex (cHandle f.word))).1 := by
  simp only [commitSpecCancel, handle, left]
  exact if_pos some_left

end Points

/-! ### The rows -/

theorem wakes_seqResume {w : List Byte} (op : cOpcode w = Op.seqResume) : wakes w = true := by
  rw [wakes, op]
  rfl

section Rows

variable {s : State} {c : CmdStep} {f : Flight} {q : Seq} (R : Ready s c f) (handle : (s.part c.ref.part).handle (cHandle f.word) = some q)
include R handle

omit R in
theorem handle_begun : ((begun s c).part c.ref.part).handle (cHandle f.word) = some q :=
  (part_begun (fun x => x.handle (cHandle f.word)) (fun _ _ => rfl) s c).trans handle

omit R in
theorem handle_requestedIn : ((requestedIn (begun s c) c).part c.ref.part).handle (cHandle f.word) = some q :=
  (part_requestedIn (fun x => x.handle (cHandle f.word)) (fun _ _ => rfl) s c).trans handle

omit R in
/-- The commands whose start only looks for the sequence of their handle ask for their commit (R222). -/
theorem startHandle_requests : startHandle (begun s c) c (begunFlight s c f) = request (begun s c) c.ref := by
  simp only [startHandle, begunFlight_word, handle_begun handle]

theorem seqClose_commits (op : cOpcode f.word = Op.seqClose) :
    exec (.seqClose c) s = .next (committed (closeSeq (requestedIn (begun s c) c) c.ref.part (handleIndex (cHandle f.word)) c.ref) c.ref f
      St.success q.length 0 []) := by
  refine congrArg Host.Outcome.next (R.runCommand_asks_asleep op rfl (by decide) (by rw [wakes, op]; rfl) (fun _ => startHandle_requests handle)
    R.cleared rfl (fun _ => ?point) (R.cleared.requested.there_of_stays (closeSeq_stays (.refl _) _)))
  case point => simp only [commitSeqClose, begunFlight_word, handle_requestedIn handle]

theorem seqPark_commits (op : cOpcode f.word = Op.seqPark) {u : State} {r0 : Nat}
    (point : ∀ x g, g.word = f.word → commitSeqPark (requestedIn (begun s c) c) c.ref x g = .done u St.success r0 0 [])
    (slots : (u.part c.ref.part).slots = ((requestedIn (begun s c) c).part c.ref.part).slots) :
    exec (.seqPark c) s = .next (committed u c.ref f St.success r0 0 []) :=
  congrArg Host.Outcome.next (R.runCommand_asks_asleep op rfl (by decide) (by rw [wakes, op]; rfl) (fun _ => startHandle_requests handle)
    R.cleared rfl (fun x => point x _ rfl) (R.cleared.requested.there_of_slots slots))

theorem seqHint_commits (op : cOpcode f.word = Op.seqHint) {u : State} {r0 : Nat}
    (point : ∀ x g, g.word = f.word → commitSeqHint (requestedIn (begun s c) c) c.ref x g = .done u St.success r0 0 [])
    (slots : (u.part c.ref.part).slots = ((requestedIn (begun s c) c).part c.ref.part).slots) :
    exec (.seqHint c) s = .next (committed u c.ref f St.success r0 0 []) :=
  congrArg Host.Outcome.next (R.runCommand_asks_asleep op rfl (by decide) (by rw [wakes, op]; rfl) (fun _ => startHandle_requests handle)
    R.cleared rfl (fun x => point x _ rfl) (R.cleared.requested.there_of_slots slots))

theorem seqQuery_commits (op : cOpcode f.word = Op.seqQuery) (aligned : field f.word 0x18 8 % 64 = 0) :
    let p := c.ref.part
    let i := handleIndex (cHandle f.word)
    let t := useSeq (requestedIn (begun s c) c) p i
    exec (.seqQuery c) s = .next (committed t c.ref f St.success q.state.code 0
      [(field f.word 0x18 8, queryReport (t.part p) (((t.part p).seq i).getD q) i)]) := by
  intro p i t
  refine congrArg Host.Outcome.next (R.runCommand_asks_asleep op rfl (by decide) (by rw [wakes, op]; rfl) (fun _ => ?start)
    R.cleared rfl (fun _ => ?point) (R.cleared.requested.there_of_slots (slots_onSeq _ _ _ _)))
  case start => simp only [startSeqQuery, begunFlight_word, handle_begun handle, aligned, ne_eq, not_true_eq_false, if_false]
  case point => simp only [commitSeqQuery, begunFlight_word, handle_requestedIn handle, t, p, i]

/-! seq_resume -/

omit R handle in
/-- The one sequence that a seq_resume names. -/
theorem names_seqResume (op : cOpcode f.word = Op.seqResume) : (begunFlight s c f).seqs = [handleIndex (cHandle f.word)] := by
  have names : namesOf s c.ref.part f.word = [handleIndex (cHandle f.word)] := by
    rw [namesOf, op]
    rfl
  rw [begunFlight, names]
  rfl

omit R in
theorem startSeqResume_requests (x : Slot) (awake : q.state ≠ .rest) :
    startSeqResume (begun s c) c x (begunFlight s c f) = request (begun s c) c.ref := by
  simp [startSeqResume, begunFlight_word, handle_begun handle, awake]

omit handle in
theorem flight_dropReserve_isSome {u : State} (slots : (u.part c.ref.part).slots = ((requestedIn (begun s c) c).part c.ref.part).slots) :
    ((dropReserve u c.ref).flight c.ref).isSome := by
  rw [dropReserve, State.flight_onFlight (g := fun f => { f with plan := .none, slots := 0 }) _ fun _ => rfl, Option.isSome_map]
  exact R.cleared.requested.there_of_slots slots

theorem seqResume_wakes (op : cOpcode f.word = Op.seqResume) (state : q.state = .active ∨ q.state = .swapped ∨ q.state = .restoring) {t : State}
    (woke : wakeSeq (dropReserve (requestedIn (begun s c) c) c.ref) c.ref.part (handleIndex (cHandle f.word)) none ⟨c.ref, [], true, []⟩ f.word = .awake t) :
    exec (.seqResume c) s = .next (committed (t.onSeq c.ref.part (handleIndex (cHandle f.word)) fun q => { q with lastUse := t.nowS }) c.ref f
      St.success q.length (if q.state = .restoring then (promoteAll (requestedIn (begun s c) c) c.ref.part (handleIndex (cHandle f.word))).2 else 0) []) := by
  have awake : q.state ≠ .rest ∧ q.state ≠ .parking := by
    rcases state with h | h | h <;> rw [h] <;> decide
  have found := handle_requestedIn handle
  have seq := (seq_dropReserve (requestedIn (begun s c) c) c.ref _).trans (Part.seq_of_handle found)
  refine congrArg Host.Outcome.next (R.runCommand_asks op rfl (by decide) (fun x => startSeqResume_requests handle x awake.1) R.cleared rfl
    (fun x => ?point) ?there)
  case point =>
    exact commitSeqResume_of_awake (f := { begunFlight s c f with stage := .requested }) found (names_seqResume op) awake.1 awake.2 woke
  case there =>
    rw [State.flight_of_slots c.ref ((slots_onSeq _ _ _ _).trans (slots_wakeSeq seq awake.1 woke))]
    exact flight_dropReserve_isSome R rfl

theorem seqResume_unparks (op : cOpcode f.word = Op.seqResume) (parking : q.state = .parking) :
    exec (.seqResume c) s = .next (committed ((dropReserve (unpark (requestedIn (begun s c) c) c.ref.part (handleIndex (cHandle f.word))) c.ref).onSeq c.ref.part
      (handleIndex (cHandle f.word)) fun q => { q with lastUse := s.nowS }) c.ref f St.success q.length 0 []) := by
  have found := handle_requestedIn handle
  refine congrArg Host.Outcome.next (R.runCommand_asks op rfl (by decide) (fun x => startSeqResume_requests handle x (by rw [parking]; decide)) R.cleared rfl
    (fun x => ?point) ?there)
  case point =>
    exact commitSeqResume_of_parking (f := { begunFlight s c f with stage := .requested }) found (names_seqResume op) (wakes_seqResume op) parking
  case there =>
    rw [State.flight_of_slots c.ref (slots_onSeq _ _ _ _)]
    exact flight_dropReserve_isSome R (slots_unpark _ _ _)

theorem seqResume_reads (op : cOpcode f.word = Op.seqResume) (rest : q.state = .rest) (hot : takeHot (begun s c) c.ref.part = .free) {u v : State}
    {fs : List Nat} (tables : wakeTables (begun s c) c.ref.part (handleIndex (cHandle f.word)) q = .got u fs)
    (read : cmdReads ((setPlan u c.ref .resume).onFlight c.ref fun f => { f with slots := tableSlots q.pt.length }) c.ref.part c f.word q.homeQ
      [.rest (handleIndex (cHandle f.word))] = .done v) :
    exec (.seqResume c) s = .next (commitCmd c.ref (requestedIn v c)) := by
  refine congrArg Host.Outcome.next (R.runCommand_go (decide_eq_true op) fun x => ?_)
  simp only [startSeqResume, begunFlight_word, handle_begun handle, rest, bne_self_eq_false, Bool.false_eq_true, if_false, needHot_begunFlight R, hot, tables,
    R.now, Bool.false_and, read]
  rfl

/-! spec_cancel -/

section SpecCancel

variable (op : cOpcode f.word = Op.specCancel) {q' : Seq} {d : State × Nat}
  (hd : d = dropTents (requestedIn (begun s c) c) c.ref.part (handleIndex (cHandle f.word)))
  (left : (d.1.part c.ref.part).seq (handleIndex (cHandle f.word)) = some q')
include op hd left

theorem specCancel_commits (none_left : (d.1.part c.ref.part).tentsOf q' = []) :
    exec (.specCancel c) s = .next (committed (cancelled d.1 c.ref.part (handleIndex (cHandle f.word))) c.ref f St.success d.2 0 []) := by
  subst hd
  exact congrArg Host.Outcome.next (R.runCommand_asks_asleep op rfl (by decide) (by rw [wakes, op]; rfl) (fun _ => startHandle_requests handle)
    R.cleared rfl (fun _ => commitSpecCancel_commits (handle_requestedIn handle) left none_left)
    (R.cleared.requested.there_of_slots ((slots_onSeq _ _ _ _).trans ((slots_onSeq _ _ _ _).trans (slots_dropTents _ _ _)))))

theorem specCancel_holds (some_left : (d.1.part c.ref.part).tentsOf q' ≠ []) : exec (.specCancel c) s = .next (setStage d.1 c.ref .held) := by
  subst hd
  have slots := slots_dropTents (requestedIn (begun s c) c) c.ref.part (handleIndex (cHandle f.word))
  have going := (State.stopping_eq slots (funcs_dropTents _ _ _)).trans R.going
  refine congrArg Host.Outcome.next ((R.runCommand_go (decide_eq_true op) fun _ => startHandle_requests handle).trans
    (R.cleared.requested.commitCmd_holds rfl ?_ slots going))
  rw [rewake_of_not_wakes _ _ _ (by rw [wakes, begunFlight_word, op]; rfl)]
  exact (commitOp_of_entry (f := { begunFlight s c f with stage := .requested }) (start := startSpecCancel) op rfl (by decide)).trans
    (commitSpecCancel_holds (handle_requestedIn handle) left some_left)

end SpecCancel

end Rows

/-- Settles O22: each row by its own lemma. -/
theorem sequenceStateCommands : Obligations.SequenceStateCommands := by
  unfold Obligations.SequenceStateCommands
  refine fun s c f q R handle => ⟨seqClose_commits R handle, ?parks, ?renews, ?reports, fun op state _ woke => seqResume_wakes R handle op state woke,
    seqResume_unparks R handle, fun op rest hot _ _ tables _ read => seqResume_reads R handle op rest hot tables read, ?keeps, ?predicts,
    seqQuery_commits R handle, fun op _ left => ⟨specCancel_commits R handle op rfl left, specCancel_holds R handle op rfl left⟩⟩
  case parks =>
    exact fun op state => seqPark_commits R handle op
      (fun x g word => by rw [← word]; exact commitSeqPark_parks (by rw [word]; exact handle_requestedIn handle) state)
      ((slots_onSeq _ _ _ _).trans ((slots_onSeq _ _ _ _).trans (slots_parkSeq _ _ _)))
  case renews =>
    exact fun op state => seqPark_commits R handle op
      (fun x g word => by rw [← word]; exact commitSeqPark_renews (by rw [word]; exact handle_requestedIn handle) state) (slots_onSeq _ _ _ _)
  case reports =>
    exact fun op state => seqPark_commits R handle op
      (fun x g word => commitSeqPark_reports (by rw [word]; exact handle_requestedIn handle) state) rfl
  case keeps =>
    exact fun op state => seqHint_commits R handle op
      (fun x g word => commitSeqHint_unchanged (by rw [word]; exact handle_requestedIn handle) state) rfl
  case predicts =>
    exact fun op inactive settled => seqHint_commits R handle op
      (fun x g word => by rw [← word]; exact commitSeqHint_predicts (by rw [word]; exact handle_requestedIn handle) inactive settled)
      ((slots_trimWakeList _ _).trans ((slots_onSeq _ _ _ _).trans (slots_onSeq _ _ _ _)))

/-! ### Every tentative page is released before spec_cancel commits -/

section Cancelled

variable {d : State} {p i : Nat} {q' : Seq}

theorem tentsOf_cancelled (q : Seq) : ((cancelled d p i).part p).tentsOf q = (d.part p).tentsOf q := by
  refine tentsOf_of_sets ?_ q
  rw [cancelled, State.part_onSeq, useSeq, State.part_onSeq]
  rfl

/-- The page table and the tentative tail copies of a sequence. -/
def Seq.pages (q : Seq) : List PtEntry × Map Tent := (q.pt, q.tailTents)

theorem pages_cancelled : (((cancelled d p i).part p).seq i).map Seq.pages = ((d.part p).seq i).map Seq.pages := by
  refine (map_seq_onSeq _ p i i fun q => ?_).trans (map_seq_onSeq d p i i fun q => ?_)
  · split <;> rfl
  · split <;> rfl

theorem seq_cancelled (left : (d.part p).seq i = some q') (tails : tailTentsOf d p i = some []) :
    ∃ u, ((cancelled d p i).part p).seq i = some u ∧ u.pt = q'.pt ∧ u.tailTents = [] := by
  have pages := pages_cancelled (d := d) (p := p) (i := i)
  rw [left] at pages
  rw [tailTentsOf, left] at tails
  obtain ⟨u, seq, same⟩ := Option.map_eq_some_iff.1 pages
  exact ⟨u, seq, congrArg Prod.fst same, (congrArg Prod.snd same).trans (Option.some.inj tails)⟩

end Cancelled

/-- Settles O23: what dropTents leaves of the sequence, with the two rows of spec_cancel. -/
theorem specCancelReleases : Obligations.SpecCancelReleases := by
  unfold Obligations.SpecCancelReleases
  intro s c f q q' R handle op p i d left
  have seq := Part.seq_of_handle (handle_requestedIn handle)
  refine ⟨fun none_left => ?commits, fun copies tails => ?at_once, specCancel_holds R handle op rfl left⟩
  case commits =>
    exact ⟨_, _, specCancel_commits R handle op rfl left none_left, (tentsOf_cancelled q').trans none_left, seq_cancelled left (tailTentsOf_dropTents seq)⟩
  case at_once =>
    have before : ((requestedIn (begun s c) c).part p).tentsOf q = [] := (part_requestedIn (fun x => x.tentsOf q) (fun _ _ => rfl) s c).trans copies
    have uncounted : d.2 = 0 := congrArg Prod.snd (dropTents_of_none seq before tails)
    have commits := specCancel_commits R handle op rfl left (tentsOf_dropTents_of_none seq before tails left)
    rw [uncounted] at commits
    exact ⟨_, commits⟩

end Sys2Proof.Machine
end
